-- ==== Sys2Proof/Word.lean ====
section
/-!
DEFINITION. The word types of the part.
-/

namespace Sys2Proof

/-- One byte of memory. -/
abbrev Byte := BitVec 8

/-- One register word (R2). -/
abbrev Word := BitVec 32

end Sys2Proof
end

