-- ==== Sys2Proof/Types.lean ====
section
/-!
DEFINITION. The kinds of data that the commands carry: what arrives at the part from outside (measurements, upsets,
packets, frames) and what units hand to each other.
-/

namespace Sys2Proof

/-- A soft error that has occurred since the last command that could see it (R29, R30, R53, R78, R103, R130, R196,
R229, R302, R306, R325): an input of the commands that first read the storage it hit. -/
inductive Upset
  /-- Bit `bit` of the protected memory word at causeway address `addr` flips; bits beyond the word's data width are
  check bits (SECDED) or the parity bit. -/
  | word (addr bit : Nat)
  /-- The stored bit of a duty column of a bit-processor row flips. -/
  | cell (n : Fin 17) (row : BitVec 11) (col : Fin 16384)
  /-- The parity bit of a group (0–511) of a bit-processor row flips. -/
  | group (n : Fin 17) (row : BitVec 11) (grp : Fin 512)
deriving DecidableEq, Repr

/-- Bits that flip while they cross expansion joint `joint` in the cycle: bit j of `mask` on the link of edge
column j (R53); and the deviations of the west and the east span from their own references at that time (R55), of the
quantity by which the span that takes the fault is chosen. -/
structure JointFlip where
  joint : Fin 16
  mask : BitVec 32
  dev : Nat × Nat
deriving DecidableEq, Repr

/-- What the monitors of a joint measure (R52), in the units of `ARR_JOINT_STAT`, and the deviations of the west and
the east span from their own references (R55), in mV, °C and ps. -/
structure JointMeasure where
  dvolt : BitVec 8
  dtemp : BitVec 8
  phase : BitVec 8
  devVolt : Nat × Nat
  devTemp : Nat × Nat
  devPhase : Nat × Nat
deriving DecidableEq, Repr

/-- The posts of a strip line (R119): OR, sum, first and last, and the device positions that posted. -/
structure StrandPost where
  por : Bool
  ppop : BitVec 32
  pfst : BitVec 32
  plst : BitVec 32
  stat : BitVec 8
deriving DecidableEq, Repr

/-- Posts of a strip line on which nothing is posted (R119). -/
def StrandPost.nothing : StrandPost := ⟨false, 0, 0x80000000, 0x80000000, 0⟩

/-- A message of the strand (R278). `n` is the span whose posts or edge rows it carries; the fire instant of a line is in
interpolator steps of 156.25 ps. That TIME carries the sender's epoch, by which a follower's follows (R272), is DEDUCED
(log 108). -/
inductive StrandMsg
  | time (sent echo epoch : BitVec 64)
  | line (group : Fin 8) (index coord time fire : BitVec 64) (expCode : BitVec 16) (strobe : Bool)
  | red (n : Fin 17) (index : BitVec 64) (post : StrandPost)
  | halo (n : Fin 17) (line : BitVec 64) (cols : Nat) (planes : List (BitVec 64))
deriving DecidableEq, Repr

/-- A causeway packet (R287, R288). `data` are the bytes of a WRITE, an RDATA or a message, from its first byte. -/
structure Packet where
  src : Fin 80
  dst : Fin 80
  cls : BitVec 2
  kind : BitVec 4
  len : BitVec 5
  status : BitVec 3
  epoch : Bool
  dtag : BitVec 16
  stag : BitVec 16
  txn : BitVec 8
  addr : BitVec 40
  count : Nat
  data : List Byte
deriving DecidableEq, Repr

/-- Where the packet that a delivery names comes from: of the packets in flight whose heads stand at the output to their
endpoint in this cycle, each with its input port (N 0, E 1, S 2, W 3, local ports 4 to 7), the one that the router chooses
(R290); or a unit that the table gives no command for (the abutment firmware, a line port) sends it. -/
inductive PacketFrom
  | flight (heads : List (Nat × Fin 8))
  | unit (p : Packet)
deriving DecidableEq, Repr

/-- A link error that a flit of a packet meets on its way (R298), at which router and port. -/
inductive LinkError
  | corrected (router : Fin 48) (port : Fin 8)
  | uncorrectable (router : Fin 48) (port : Fin 8)
deriving DecidableEq, Repr

/-- What the SPD5 hub of a module holds (R304, R311): an unbuffered ECC module, the width and density of its devices, its
ranks, and the fastest data rate that it supports (0 4800, 1 5600, 2 6400 MT/s). -/
structure Spd where
  unbuffered : Bool
  ecc : Bool
  width : Nat
  density : Nat
  ranks : Nat
  rate : Nat
deriving DecidableEq, Repr

/-- The last samples of inputs A and B of a strip channel (R252), the newest first. -/
structure ChannelSamples where
  chan : Fin 16
  a : List Bool
  b : List Bool
deriving DecidableEq, Repr

/-- A Delay_Req (R273, R275): the port that it comes in by, its transport and domain, its sourcePortIdentity and sequenceId. -/
structure DelayRequest where
  port : Fin 8
  layer2 : Bool
  domain : BitVec 8
  ident : List Byte
deriving DecidableEq, Repr

/-- A TIME message of the strand with the CRC that it carries (R272, R277, R278). -/
structure TimeMessage where
  sent : BitVec 64
  echo : BitVec 64
  epoch : BitVec 64
  crc : BitVec 32
deriving DecidableEq, Repr

/-- A soft error in the tracker's memories (R229), of one bit or of two: in the context of a blob, open or busy; in word `i` of
staged set `k` of the span at position `pos`, its runs first and then its bands; or in run `i` that a blob has on the previously
processed line. -/
inductive TrackUpset
  | context (blob : BitVec 32) (double : Bool)
  | store (pos k i : Nat) (double : Bool)
  | previous (blob : BitVec 32) (i : Nat) (double : Bool)
deriving DecidableEq, Repr

/-! ## The routed circuit of an approach region (R171, R176, R179, R182, R191) -/

/-- A routing segment (R176): of a vertical or a horizontal channel, of a bit or a word track, its track number within the
channel, and the tile at its start. -/
structure Segment where
  vertical : Bool
  bit : Bool
  track : Nat
  row : Nat
  col : Nat
deriving DecidableEq, Repr, Inhabited

/-- What drives a word input: nothing, gearbox port IN k, the output O of a cell (column, row), 16 bits of the data
out of a block-memory port (memory, port B, part), a segment, or segments that drive each other in a ring. -/
inductive WordSrc
  | zero
  | input (k : Nat)
  | cell (c r : Nat)
  | memory (mem : Nat) (portB : Bool) (part : Nat)
  | segment (g : Segment)
  | ring
deriving DecidableEq, Repr, Inhabited

/-- What drives a bit input: nothing, a constant 0, the gearbox's VALID, SOL, EOL or DAMAGED, the flag output of a cell, the
BUSY of a block-memory port, a segment, or segments that drive each other in a ring. -/
inductive BitSrc
  | open'
  | low
  | segment (g : Segment)
  | ring
  | valid
  | sol
  | eol
  | damaged
  | flag (c r : Nat)
  | busy (mem : Nat) (portB : Bool)
deriving DecidableEq, Repr, Inhabited

/-- The inputs of a word cell. -/
structure CellInputs where
  a : WordSrc
  b : WordSrc
  seq : List BitSrc
  ce : BitSrc
deriving DecidableEq, Repr, Inhabited

/-- The connections and the settings of one block-memory port (R179). -/
structure MemoryPort where
  aspect : Nat
  outReg : Bool
  enable : BitSrc
  write : BitSrc
  addr : WordSrc
  din : List WordSrc
deriving DecidableEq, Repr, Inhabited

/-- What the inputs of a region's circuit take: cells by column and row, memory ports, the transposer's ports and the event
bits. -/
structure RouteConfig where
  cell : List (List CellInputs)
  memory : List (MemoryPort × MemoryPort)
  out : List WordSrc
  valid : BitSrc
  eol : BitSrc
  damaged : BitSrc
  userEv : List BitSrc
deriving DecidableEq, Repr, Inhabited

/-- A driver of a segment (R176): at its high end (the end away from its start) or its low end, its enable bit, and what its
multiplexer selects, for a word track and for a bit track. -/
structure Driver where
  seg : Segment
  high : Bool
  enable : Bool
  word : WordSrc
  bit : BitSrc
deriving DecidableEq, Repr, Inhabited

/-- What the ROUTE frames of a region hold (R184): the drivers of the segments, and the segment that each input selects. -/
structure RouteFrames where
  drivers : List Driver
  ins : RouteConfig
deriving DecidableEq, Repr, Inhabited

/-! ## Parts of image sections whose layout the spec does not give (R327, R344) -/

/-- The blocks of a KEEPER section (R327): for each the signed bytes and the signature, the SVN and version of the firmware
block, the bytes of its half, its vectors, and the owner block's ranges. -/
structure KeeperParts where
  fwSigned : List Byte
  fwSignature : List Byte
  fwSvn : Nat
  fwVersion : Nat
  fwHalf : List Byte
  fwVectors : List (Nat × Word)
  hasOwner : Bool
  ownSigned : List Byte
  ownSignature : List Byte
  ownHalf : List Byte
  ownVectors : List (Nat × Word)
  ownRanges : List (Word × Word)
deriving DecidableEq, Repr, Inhabited

/-- What a HEADS section requires of a port (R344): port, PIXELS, PIXEL_BITS, LANES, rate and WRITE messages. -/
structure HeadParts where
  port : Fin 16
  pixels : BitVec 16
  bits : BitVec 8
  lanes : BitVec 8
  rate : Nat
  writes : List (List Byte)
deriving DecidableEq, Repr, Inhabited

/-! ## The line ports and the abutment die (13, 14, 17) -/

/-- A session datagram from a line computer (R410–R413): the port and peer it came from, SESSION, SEQ, and whether its tag
verifies. -/
structure Sealed where
  port : Fin 8
  peer : BitVec 32
  session : BitVec 32
  seq : BitVec 64
  auth : Bool
deriving DecidableEq, Repr

/-- A COMMAND (R418): its datagram, REQ_ID, and how many requests of its session are queued when it arrives. -/
structure Request where
  dgram : Sealed
  reqId : BitVec 32
  waiting : Nat
deriving DecidableEq, Repr

/-- An operation that is served as a command of a session, or as a query at a port (R423). -/
inductive Via
  | command (r : Request)
  | query (port : Fin 8) (peer : BitVec 32) (reqId : BitVec 32)
deriving DecidableEq, Repr

/-- What was being written when power is lost (R373, R376, R386, R440, R463, R480): a counter's fuse pair, an owner slot's key
fuses, a directory copy, a settings generation, a repair entry. -/
inductive TornWrite
  | fuse (i : Fin 4)
  | owner (i : Fin 4)
  | directory
  | settings
  | repair
deriving DecidableEq, Repr

end Sys2Proof
end

