-- ==== Sys2Proof/Syntax.lean ====
section
/-!
DEFINITION. The commands of the part (spec/opcode_table.json) with their operands. The table gives its rows no fields;
the operands are what each step takes from outside the part, and the number of the unit that takes the step
(assumption log, entry 1).
-/

namespace Sys2Proof


/-- The commands of the part: one constructor for each row of the table of operations and events. -/
inductive Instr
  /-- REGISTER_WRITE (R3). A write to a register field that has no row of its own takes effect according to the field's access type. -/
  | registerWrite (tag : BitVec 16) (addr : BitVec 40) (width : Fin 5) (val : BitVec 32)
  /-- ALIAS_ACCESS (R16). An access accepted at a logical alias is resolved through the placement map and sent with the role's tag. -/
  | aliasAccess (tag : BitVec 16) (write : Bool) (addr : BitVec 40) (width : Fin 5) (val : BitVec 32)
  /-- NANO_WORD_ISSUE (R24). The micro-sequencer issues one nano-word, which every bit processor of the domain executes in one ACLK cycle. -/
  | nanoWordIssue (n : Fin 17) (ups : List Upset) (flips : List JointFlip)
  /-- GLOBAL_OR_RESULT (R50). A global-OR result becomes visible after the latency of its domain. -/
  | globalOrResult (n : Fin 17)
  /-- GAUGE_RESULT (R50). A gauge result enters the controller's result queue after the latency of its domain. -/
  | gaugeResult (n : Fin 17)
  /-- SPAN_RESET (R27). A span leaves reset or its island is powered up; its registers are set and the memory-clearing sweep begins. -/
  | spanReset (n : Fin 17) (powerUp : Bool)
  /-- INIT_SWEEP_DONE (R27). The 2,048-cycle memory-clearing sweep ends and INIT_DONE is set. -/
  | initSweepDone (n : Fin 17)
  /-- SPARE_MAP_WRITE (R35). A write that changes a bypass index remaps columns and starts a parity sweep. -/
  | spareMapWrite (n : Fin 17) (t : Fin 16) (w : Fin 8) (val : BitVec 32)
  /-- PARITY_SWEEP_DONE (R35). The parity sweep has recomputed every group's parity and nano-words may execute again. -/
  | paritySweepDone (n : Fin 17)
  /-- JOINT_BREACH (R54). A joint monitor detects a breached limit; a span is flagged and JOINT_BREACH or JOINT_WATCH is raised. -/
  | jointBreach (j : Fin 16) (m : JointMeasure)
  /-- JOINT_FLAG_CLEAR (R52). A flagged quantity has stayed below its clear threshold for 1 s and the flag clears. -/
  | jointFlagClear (j : Fin 16) (q : Fin 3) (m : JointMeasure)
  /-- OPERATION_START (R60). The micro-sequencer takes an operation entry and loads its address registers, counters, constant and entry point. -/
  | operationStart (n : Fin 17)
  /-- MS_WAIT_LONG (R73). A single microword wait reaches MS_WAIT_LIMIT cycles and raises an event. -/
  | msWaitLong (n : Fin 17)
  /-- BUNDLE_EXECUTE (R93). The span controller executes one bundle of up to three guarded moves in one SCLK cycle. -/
  | bundleExecute (n : Fin 17) (ups : List Upset)
  /-- ALU_RESULT_READY (R98). A multi-cycle ALU result and its flags become readable. -/
  | aluResultReady (n : Fin 17) (alu : Fin 2)
  /-- INTERRUPT_ENTRY (R107). The controller takes an interrupt at a bundle boundary as a call to IVEC and clears INT.ie. -/
  | interruptEntry (n : Fin 17) (ups : List Upset)
  /-- LINE_SYNC (R113). The micro-sequencer reaches a line-sync entry: the ports move to the next line, the slot returns, the set closes and the global OR goes stale. -/
  | lineSync (n : Fin 17)
  /-- TOKEN_REACHED (R111). The micro-sequencer reaches a token entry and copies the token into AI.done. -/
  | tokenReached (n : Fin 17)
  /-- SNAPSHOT_ENTRY (R122). The micro-sequencer reaches a snapshot entry, fixes its label line and starts capturing the rows. -/
  | snapshotEntry (n : Fin 17) (ups : List Upset)
  /-- CHECKPOINT_COPY_DONE (R124). The checkpoint unit has written the rows and then the header of the new slot. -/
  | checkpointCopyDone (n : Fin 17)
  /-- STOP_DRAIN (R127). A write of 1 to SPC_CTL.STOP starts a drain up to the next line sync. -/
  | stopDrain (n : Fin 17)
  /-- DRAIN_COMPLETE (R127). The drain has completed its first line-sync entry; later entries are discarded and the controller stops. -/
  | drainComplete (n : Fin 17)
  /-- STOP_NOW (R128). A stop-now, written or applied by a fault, aborts the operation, discards the queue and stops the controller. -/
  | stopNow (n : Fin 17) (byFault : Bool)
  /-- SPAN_START (R129). A write of 0 to SPC_CTL.STOP while stopped resets the controller state and starts at ENTRY once INIT_DONE is 1. -/
  | spanStart (n : Fin 17)
  /-- SPC_WATCHDOG (R116). The count of SCLK cycles since the last LS.next reaches the watchdog limit. -/
  | spcWatchdog (n : Fin 17)
  /-- CHECKPOINT_RESTORE (R125). A write of CKPT_REST.GO while stopped starts restoring rows from the newest good checkpoint slot. -/
  | checkpointRestore (n : Fin 17)
  /-- RESTORE_DONE (R125). The restore has written its last row, or FAIL is set and CKPT_FAIL is raised. -/
  | restoreDone (n : Fin 17) (ups : List Upset)
  /-- CW_MESSAGE_ARRIVE (R121). A message flit enters a span controller's inbox. -/
  | cwMessageArrive (n : Fin 17)
  /-- TRAIN_WORD_RECEIVE (R137). A TRAIN word is received from the head and lane lock, lane order and count are checked. -/
  | trainWordReceive (h : Fin 16) (p : Fin 4) (num count : BitVec 8)
  /-- ALIGN_RECEIVE (R136). ALIGN markers are received and removed; during training two markers deskew the lanes. -/
  | alignReceive (h : Fin 16) (seqs : List (BitVec 16)) (late : List (BitVec 8))
  /-- LINK_UP (R137). IDLE is received on every lane and the link is up. -/
  | linkUp (h : Fin 16)
  /-- LANE_LOCK_LOSS (R138). A lane loses lock; the line in progress is damaged, outstanding lines are lost and the port retrains. -/
  | laneLockLoss (h : Fin 16) (p : Fin 4)
  /-- TRAINING_TIMEOUT (R139). No link is up within 10 ms of training start and the attempt fails. -/
  | trainingTimeout (h : Fin 16)
  /-- TRAINING_RETRY (R139). The 100 ms wait after a training failure ends and training is tried again, or the port enters FAILED. -/
  | trainingRetry (h : Fin 16)
  /-- START_WORD (R145). A packet's START words are matched against the outstanding triggers. -/
  | startWord (h : Fin 16) (starts : List (BitVec 16 × BitVec 16 × BitVec 8))
  /-- PACKET_BLOCK (R144). A 64-byte block is passed to the ingest switch and the regions that the port feeds. -/
  | packetBlock (h : Fin 16) (data : List Byte) (clean : Bool)
  /-- TERM_WORD (R148). The TERM words end a packet; the trailer and CRC are checked and the line is delivered good or damaged. -/
  | termWord (h : Fin 16) (terms : List (BitVec 16 × BitVec 16))
  /-- BAD_CTRL (R135). A control word of unknown type, or a data word outside a packet, is treated as IDLE and counted. -/
  | badCtrl (h : Fin 16) (word : Option (List Byte))
  /-- PACKET_TIMEOUT (R146). No START has arrived PKT_US after a trigger and the line is declared lost. -/
  | packetTimeout (h : Fin 16)
  /-- HP_CC_GO (R156). A write of HP_CC_CTL.GO sends the request in HP_CC_TX to the head. -/
  | hpCcGo (h : Fin 16)
  /-- CC_MESSAGE_RECEIVE (R156). A control-channel RESP or ALERT arrives from the head and is checked and stored. -/
  | ccMessageReceive (h : Fin 16) (words : List (BitVec 8 × List Byte))
  /-- CC_RETRY_TIMEOUT (R156). No valid RESP arrives within 1 ms; the request is resent, or after the third attempt ends with CC_TIMEOUT. -/
  | ccRetryTimeout (h : Fin 16)
  /-- HEAD_INSERTION (R157). HPRS# has stayed low for 20 ms; insertion is recognised and bring-up starts when AUTO is 1. -/
  | headInsertion (h : Fin 16)
  /-- HEAD_REMOVAL (R163). Removal is recognised and the port powers the head down, declares its lines lost and enters ABSENT. -/
  | headRemoval (h : Fin 16)
  /-- HEAD_FAULT (R164). A head fault on HFLT# is recognised and HP_FAULT is raised, removing power when FLT_OFF is 1. -/
  | headFault (h : Fin 16) (low : Bool)
  /-- POWER_WAIT_END (R161). The power wait of POWERING ends and the descriptor read starts, or the port fails with PWR_TIMEOUT. -/
  | powerWaitEnd (h : Fin 16)
  /-- DESCRIPTOR_READ_DONE (R158). The identity-memory read ends and the descriptor goes to verification, or the port fails with DESC_BUS. -/
  | descriptorReadDone (h : Fin 16) (bytes : List Byte) (good : Bool)
  /-- DESCRIPTOR_VERIFIED (R160). The abutment die finishes checking a descriptor and accepts it, or rejects it with a cause. -/
  | descriptorVerified (h : Fin 16)
  /-- HP_RETRAIN (R137). A write of HP_CTL.RETRAIN retrains an ACTIVE port. -/
  | hpRetrain (h : Fin 16)
  /-- HP_RELEASE (R162). A write of HP_CTL.RELEASE puts an ACTIVE port into RELEASING. -/
  | hpRelease (h : Fin 16)
  /-- RELEASE_TIMEOUT (R162). 1 ms after RELEASING began, unstarted lines are lost and a packet in progress is damaged. -/
  | releaseTimeout (h : Fin 16)
  /-- HP_RELEASED (R162). Outstanding packets have ended; STREAM off is sent, HPEN goes low and the port enters RELEASED. -/
  | hpReleased (h : Fin 16)
  /-- HP_ATTACH (R161). A write of HP_CTL.ATTACH starts bring-up from ABSENT with a head present, or from RELEASED, REJECTED or FAILED. -/
  | hpAttach (h : Fin 16)
  /-- PORT_ENABLE (R161). A write of 1 to HP_CTL.ENABLE takes the port from OFF to ABSENT. -/
  | portEnable (h : Fin 16)
  /-- PORT_DISABLE (R161). A write of 0 to HP_CTL.ENABLE acts as removal and sets STATE to OFF. -/
  | portDisable (h : Fin 16)
  /-- RG_SRC_WRITE (R168). A write of RG_SRC selects a region's head port, or is ignored when it would give a port a third region. -/
  | rgSrcWrite (m : Fin 17) (val : BitVec 32)
  /-- SOURCE_SWITCH (R169). A region's source change takes effect at the next packet boundary of the old and new sources. -/
  | sourceSwitch (m : Fin 17)
  /-- WORD_CELL_CYCLE (R171). The word cells of a running region execute their selected instruction entries in one FCLK cycle. -/
  | wordCellCycle (m : Fin 17) (ups : List Upset)
  /-- FRAME_WORD_WRITE (R183). A word is written into the frame window; a write to offset 0 starts a new frame. -/
  | frameWordWrite (m : Fin 17) (j : Fin 67) (word : BitVec 32)
  /-- RG_UNSEAL (R189). A write of RG_CTL.UNSEAL returns a DISABLED or SEAL_FAILED region to UNCONFIGURED. -/
  | rgUnseal (m : Fin 17)
  /-- RG_DISABLE (R189). A write of RG_CTL.DISABLE moves a RUNNING region to DRAINING. -/
  | rgDisable (m : Fin 17)
  /-- RG_ENABLE (R189). A write of RG_CTL.ENABLE returns a DISABLED region to RUNNING. -/
  | rgEnable (m : Fin 17)
  /-- REGION_DRAIN_END (R189). The line in progress has completed into its slot and the region becomes DISABLED. -/
  | regionDrainEnd (m : Fin 17)
  /-- CONFIG_SCRUB (R190). The scrub reads back an applied frame; a CRC mismatch raises RG_CFG_CRC and is logged. -/
  | configScrub (m : Fin 17) (flips : List (Nat × Nat))
  /-- TRANSPOSER_BEAT (R191). The transposer takes a beat of corrected columns from the user logic into the line's slot. -/
  | transposerBeat (m : Fin 17)
  /-- PLANE_SEND (R195). The transposer sends the next plane to every truss of the span while the truss queues have room. -/
  | planeSend (m : Fin 17) (ups : List Upset)
  /-- REPLAY_GO (R197). A write of RP_CTL.GO starts copying lines from another region's buffer. -/
  | replayGo (m : Fin 17) (val : BitVec 32)
  /-- REPLAY_LINE_COPIED (R197). A line copy ends and the line enters the destination's line order as prime, redo or a lost marker. -/
  | replayLineCopied (m : Fin 17) (ups : List Upset)
  /-- HISTORY_LINE_WRITE (R200). The history-ring writer starts storing a line: metadata with writing, then the pixels. -/
  | historyLineWrite (m : Fin 17)
  /-- HISTORY_WRITE_DONE (R200). A line's pixel writes have completed and its metadata is rewritten without writing. -/
  | historyWriteDone (m : Fin 17) (ups : List Upset)
  /-- EXTRACTOR_SCAN (R204). A closed set is scanned and its runs are written into the run queue. -/
  | extractorScan (m : Fin 17) (t : Fin 16)
  /-- MERGER_SEND (R206). The run merger joins runs across trusses and sends run, band and mark words to the tracker. -/
  | mergerSend (m : Fin 17)
  /-- RUN_INTAKE (R217). The tracker takes run words into the run store. -/
  | runIntake (m : Fin 17)
  /-- DOMAIN_LINE (R209). A domain line whose marks are complete is processed against the open blobs. -/
  | domainLine (d : Fin 16) (ups : List TrackUpset)
  /-- FLOOD_HOLD (R221). A merger has held for HOLD_MAX consecutive cycles and its domain enters flood with cause HOLD. -/
  | floodHold (m : Fin 17)
  /-- STAMP_RECEIVE (R210). The tracker receives a line stamp from the timing unit and keeps it. -/
  | stampReceive
  /-- LINE_LOSS_REPORT (R211). A report of a lost or damaged line reaches the tracker and is kept for impairing its domain line. -/
  | lineLossReport
  /-- SPAN_STOP_NOTICE (R218). The tracker learns that a span of a domain stopped and closes its blobs or holds the domain. -/
  | spanStopNotice (m : Fin 17)
  /-- TAKEOVER_NOTICE (R220). Placement reports a completed takeover and the domain resumes tracking. -/
  | takeoverNotice (d : Fin 16) (age : BitVec 8)
  /-- SERVICE_STOP_NOTICE (R218). Placement reports a stopped service; blobs close and service records are emitted. -/
  | serviceStopNotice (d : Fin 16)
  /-- HEAD_GONE_NOTICE (R218). A head leaves ACTIVE and blobs meeting its columns close with HEAD_GONE. -/
  | headGoneNotice (h : Fin 16)
  /-- SPAN_RUNNING_NOTICE (R219). Every span of a group runs with EN = 1, and an IDLE or HELD domain becomes TRACKING. -/
  | spanRunningNotice (d : Fin 16)
  /-- RECORD_EMIT (R228). A built record is emitted: crop request, marking message, ledger, repeat finder and streams. -/
  | recordEmit
  /-- LEDGER_TAKE (R236). The ledger writer takes a record, assigns its LSEQ and writes side entry, record and index. -/
  | ledgerTake
  /-- LEDGER_WRITE_DONE (R236). The writes of a record have completed through step 4 and the repeat finder may take it. -/
  | ledgerWriteDone
  /-- LEDGER_ENABLE (R238). LG_CTL.EN going to 1 restarts LSEQ and starts clearing the index. -/
  | ledgerEnable
  /-- INDEX_CLEAR_DONE (R238). The index clear completes, READY is set and LG_READY is raised. -/
  | indexClearDone
  /-- SEGMENT_GO (R239). A write of LG_SEG_CTL.GO places a material segment boundary. -/
  | segmentGo (val : BitVec 32)
  /-- REPEAT_SEARCH (R241). The repeat finder searches every pitch slot for earlier records at whole pitches upstream. -/
  | repeatSearch
  /-- SIDE_ENTRY_READ (R241). A side-entry read of a bucket walk returns and the walk continues. -/
  | sideEntryRead (ups : List Upset)
  /-- CHAIN_WRITE (R243). The chain identity is written into side entries, only where the slot still holds the named LSEQ. -/
  | chainWrite
  /-- CROP_REQUEST (R245). The crop engine takes a crop request and sets its window and factor. -/
  | cropRequest
  /-- CROP_ROW_READ (R247). A history-ring read for a crop returns and the row is read, waits or is missing. -/
  | cropRowRead (k : Fin 2) (ups : List Upset)
  /-- CROP_TIMEOUT (R247). A crop's wait reaches CR_TMO.US; lines not stored are marked missing. -/
  | cropTimeout (k : Fin 2)
  /-- CROP_STORE_WRITE (R249). A finished crop is written into the crop store once space is free and handed to the streams. -/
  | cropStoreWrite
  /-- ENCODER_COUNT (R253). An accepted change of A and B counts forward or backward on a strip channel. -/
  | encoderCount (c : Fin 16) (a b : List Bool)
  /-- ILLEGAL (R253). A and B change in the same sample; no count and SC_ENC is raised. -/
  | illegal (x : ChannelSamples)
  /-- ENCODER_STALL (R254). No count arrives for SC_STALL.MS and MOVING goes to 0. -/
  | encoderStall (c : Fin 16)
  /-- Z_EDGE (R255). An accepted rising edge of Z captures the coordinate and checks the Z period. -/
  | zEdge (c : Fin 16) (z : List Bool)
  /-- INTERNAL_COUNT (R256). The internal source makes a forward count at TG_INTRATE. -/
  | internalCount (g : Fin 8)
  /-- TG_START (R260). A write of TG_CTL.START computes P_0 and arms the group. -/
  | tgStart (g : Fin 8)
  /-- TG_STOP (R260). A write of TG_CTL.STOP discards a delayed trigger and returns the group to IDLE. -/
  | tgStop (g : Fin 8)
  /-- LINE_TRIGGER (R257). A line point fires at its trigger instant: the line is stamped and every head of the group is triggered. -/
  | lineTrigger (g : Fin 8)
  /-- DELAYED_TRIGGER (R258). The TG_MINPER floor passes and a delayed trigger fires. -/
  | delayedTrigger (g : Fin 8)
  /-- MARKING_MESSAGE (R266). A marking action arrives at the scheduler and becomes pending, fires at once or is dropped. -/
  | markingMessage
  /-- ACTION_FIRE (R267). A pending action reaches its fire instant and its output pulses or opens its gate. -/
  | actionFire (k : Fin 256)
  /-- GATE_END (R267). A gate action ends once the coordinate reaches T_off on a forward count. -/
  | gateEnd (k : Fin 256)
  /-- FLUSH (R268). A write of AS_CTL.FLUSH drops pending actions and ends active ones. -/
  | flush
  /-- AS_POST (R270). A write of AS_POST_CTL.GO posts a software action or reports FULL. -/
  | asPost (val : BitVec 32)
  /-- EPOCH_WRITE (R272). A write of TM_EPOCH_HI applies the epoch, stepping PTP time and PPS. -/
  | epochWrite (val : BitVec 32)
  /-- SYNC (R273). A port sends a timestamped Sync followed by Follow_Up at its sync interval. -/
  | sync (e : Fin 8)
  /-- ANNOUNCE (R274). A port sends an Announce message at its announce interval. -/
  | announce (e : Fin 8)
  /-- DELAY_REQ (R273). A Delay_Req is timestamped and answered with Delay_Resp, or discarded beyond the limit. -/
  | delayReq (q : DelayRequest)
  /-- PPS (R276). A PPS output rises at each whole second of PTP time plus the delay. -/
  | pps (o : Fin 32)
  /-- STRAND_TIME_SEND (R278). A TIME message is sent every 1 µs in each direction. -/
  | strandTimeSend (east : Bool)
  /-- STRAND_TIME_MESSAGE (R279). A TIME message is received and the follower steers its device time. -/
  | strandTimeMessage (east : Bool) (m : TimeMessage) (offset : BitVec 32)
  /-- STRAND_LINE_MESSAGE (R280). A LINE message from the master is received, or counted late. -/
  | strandLineMessage (east : Bool) (crc : BitVec 32) (group : Fin 8) (index coord time fire : BitVec 64) (expCode : BitVec 16) (strobe : Bool)
  /-- FOLLOWER_FIRE (R280). A follower group fires a line at the master's instant plus SL_DELAY. -/
  | followerFire
  /-- STRAND_RED_MESSAGE (R282). A RED message combines strand posts for a line. -/
  | strandRedMessage (east : Bool) (crc : BitVec 32) (n : Fin 17) (index : BitVec 64) (post : StrandPost)
  /-- HALO_MESSAGE (R281). A HALO message delivers a neighbour's edge rows into the halo store. -/
  | haloMessage (east : Bool) (crc : BitVec 32) (n : Fin 17) (line : BitVec 64) (cols : Fin 65) (planes : List (BitVec 64))
  /-- STRAND_LANE_LOSS (R277). A strand lane loses lock, is dropped and its side retrains. -/
  | strandLaneLoss (east : Bool) (lane : Fin 4)
  /-- CAUSEWAY_DELIVERY (R295). A packet reaches its destination router and is delivered or absorbed by state and tag. -/
  | causewayDelivery (src : PacketFrom) (granted : Bool) (errs : List LinkError)
  /-- CLASS0_RELEASE (R291). The class-0 shaper releases a waiting packet after 64 FCLK cycles. -/
  | class0Release (e : Fin 80)
  /-- ISOLATE (R296). A write of CW_EP_CTL.ISOLATE moves an endpoint to DRAINING. -/
  | isolate (e : Fin 80)
  /-- DRAIN_CUT (R296). DRAIN_LIMIT cycles pass and the router cuts the worms still in flight. -/
  | drainCut (e : Fin 80) (cuts : List Nat)
  /-- ENDPOINT_ISOLATED (R296). Granted worms have completed and the endpoint becomes ISOLATED. -/
  | endpointIsolated (e : Fin 80)
  /-- RELEASE (R296). A write of CW_EP_CTL.RELEASE returns an ISOLATED endpoint to ONLINE. -/
  | release (e : Fin 80)
  /-- FLIP (R301). A write of CW_CTL.FLIP changes the route epoch stamped on new heads. -/
  | flip
  /-- EPOCH_DRAINED (R301). Every RT_DRAIN reads 0; DRAINED is set and CW_EPOCH is raised. -/
  | epochDrained
  /-- PIER_ACCESS (R303). A pier serves one access in the FCLK cycle, by the arbitration of direct masters and span traffic. -/
  | pierAccess (p : Fin 16) (ckpt : List (Bool × Fin 17)) (ups : List Upset)
  /-- DDR5_ACCESS (R306). A DDR5 read or write is served with SECDED checking and merge. -/
  | ddr5Access (c : Fin 8) (ups : List Upset)
  /-- DDR5_REFRESH (R307). A same-bank refresh is issued within the bound. -/
  | ddr5Refresh (c : Fin 8)
  /-- MR4_READ (R307). MR4 is read every 16 ms and a change of refresh rate raises D5_TEMP. -/
  | mr4Read (c : Fin 8) (doubled : Bool)
  /-- DDR5_TRAINING_DONE (R308). Channel training ends; failures are marked and the mapped capacity takes effect. -/
  | ddr5TrainingDone (c : Fin 8) (trained unbuffered ecc : Bool) (width density ranks rate : Nat)
  /-- ZQ_CALIBRATION (R308). Periodic ZQ calibration or DQS oscillator measurement runs. -/
  | zqCalibration (c : Fin 8)
  /-- PATROL_SCRUB (R309). The patrol scrub reads a 64-byte unit, corrects or logs it, and may make a sparing candidate. -/
  | patrolScrub (c : Fin 8) (ups : List Upset)
  /-- ROW_SPARE_DONE (R310). The last unit of a sparing is copied and the remap takes effect. -/
  | rowSpareDone (c : Fin 8)
  /-- HUB_TEMP_READ (R311). The SPD5 hub temperature is read every 1 s. -/
  | hubTempRead (c : Fin 8) (temp : BitVec 8)
  /-- EVENT_RAISE (R329). A raise reaches the hub and sets pending bits, counts and payload for its targets. -/
  | eventRaise (merged : Nat)
  /-- ABUTMENT_TARGET (R330). A pending abutment delivery is sent as a class-1 message in priority order. -/
  | abutmentTarget
  /-- KEEPER_DISPATCH (R332). A Keeper dispatches an eligible event to its handler level. -/
  | keeperDispatch (k : Fin 4)
  /-- KP_C0_LONG (R335). A HIGH handler runs for KP_C0_LIMIT cycles. -/
  | kpC0Long (k : Fin 4)
  /-- KEEPER_RUN (R339). KP_CTL.RUN going from 0 to 1 starts the Keeper at vector 0. -/
  | keeperRun (k : Fin 4)
  /-- KEEPER_STOP (R339). KP_CTL.RUN going from 1 to 0 stops the Keeper at the next boundary. -/
  | keeperStop (k : Fin 4)
  /-- KEEPER_LOAD (R319). LDB, LDBU, LDH, LDHU or LDW loads A from EA. -/
  | keeperLoad (k : Fin 4) (ups : List Upset)
  /-- KEEPER_STORE (R319). STB, STH or STW stores A to EA. -/
  | keeperStore (k : Fin 4) (ups : List Upset)
  /-- LOAD_INDEX (R319). LDX or LDY loads X or Y from EA. -/
  | loadIndex (k : Fin 4) (ups : List Upset)
  /-- STORE_INDEX (R319). STX or STY stores X or Y to EA. -/
  | storeIndex (k : Fin 4) (ups : List Upset)
  /-- LEA (R319). A takes the effective address. -/
  | lea (k : Fin 4) (ups : List Upset)
  /-- ADD (R319). A := A + m with flags. -/
  | add (k : Fin 4) (ups : List Upset)
  /-- ADC (R321). A := A + m + C with flags. -/
  | adc (k : Fin 4) (ups : List Upset)
  /-- SUB (R319). A := A − m with flags. -/
  | sub (k : Fin 4) (ups : List Upset)
  /-- SBC (R321). A := A − m − (1 − C) with flags. -/
  | sbc (k : Fin 4) (ups : List Upset)
  /-- KEEPER_LOGIC (R319). AND, OR or XOR of A and m. -/
  | keeperLogic (k : Fin 4) (ups : List Upset)
  /-- CMP (R319). Flags of A − m with A unchanged. -/
  | cmp (k : Fin 4) (ups : List Upset)
  /-- KEEPER_MULTIPLY (R319). MUL, MULHS or MULHU of A and m. -/
  | keeperMultiply (k : Fin 4) (ups : List Upset)
  /-- KEEPER_DIVIDE (R321). DIV, DIVU, REM or REMU of A and m, with edge results and sticky DZ. -/
  | keeperDivide (k : Fin 4) (ups : List Upset)
  /-- LDI (R319). A takes the sign-extended immediate. -/
  | ldi (k : Fin 4) (ups : List Upset)
  /-- LUI (R319). A takes the immediate shifted into the upper half. -/
  | lui (k : Fin 4) (ups : List Upset)
  /-- ORL (R319). A is ORed with the zero-extended immediate. -/
  | orl (k : Fin 4) (ups : List Upset)
  /-- LOAD_INDEX_IMMEDIATE (R319). LDXI or LDYI loads X or Y with an immediate. -/
  | loadIndexImmediate (k : Fin 4) (ups : List Upset)
  /-- ADD_INDEX_IMMEDIATE (R319). ADXI or ADYI adds an immediate to X or Y. -/
  | addIndexImmediate (k : Fin 4) (ups : List Upset)
  /-- COPY (R319). Copies one of A, X, Y, SP into another. -/
  | copy (k : Fin 4) (ups : List Upset)
  /-- PUTF (R319). F takes A[3:0]. -/
  | putf (k : Fin 4) (ups : List Upset)
  /-- GETF (R319). A takes F. -/
  | getf (k : Fin 4) (ups : List Upset)
  /-- KEEPER_SHIFT (R319). SHL, SHR, SAR or ROL of A by the immediate. -/
  | keeperShift (k : Fin 4) (ups : List Upset)
  /-- KEEPER_SHIFT_X (R319). SHLX, SHRX, SARX or ROLX of A by X. -/
  | keeperShiftX (k : Fin 4) (ups : List Upset)
  /-- NEG (R319). A := −A with flags. -/
  | neg (k : Fin 4) (ups : List Upset)
  /-- NOT (R319). A := NOT A. -/
  | not (k : Fin 4) (ups : List Upset)
  /-- BR (R320). A branch taken when its SEL condition holds. -/
  | br (k : Fin 4) (ups : List Upset)
  /-- JMP (R319). PC takes EA. -/
  | jmp (k : Fin 4) (ups : List Upset)
  /-- CALL (R324). Pushes the masked registers and a link word and continues at EA, switching to FIRM through the gate table. -/
  | call (k : Fin 4) (ups : List Upset)
  /-- RET (R324). Pops the link word and the registers and continues at the return address. -/
  | ret (k : Fin 4) (ups : List Upset)
  /-- RETI (R331). Ends a handler, restoring the interrupted level or chaining the next handler. -/
  | reti (k : Fin 4) (ups : List Upset)
  /-- WAIT (R331). At BASE level, fetching stops until the next dispatch. -/
  | wait (k : Fin 4) (ups : List Upset)
  /-- PUSHM (R324). Pushes the masked registers. -/
  | pushm (k : Fin 4) (ups : List Upset)
  /-- POPM (R324). Pops the masked registers. -/
  | popm (k : Fin 4) (ups : List Upset)
  /-- NOP (R319). Does nothing for one cycle. -/
  | nop (k : Fin 4) (ups : List Upset)
  /-- KEEPER_ILLEGAL (R322). An absent opcode or misused instruction executes as a no-operation and is counted. -/
  | keeperIllegal (k : Fin 4) (ups : List Upset)
  /-- EH_RAISE (R340). A write of EH_RAISE raises a software source with the staged payload. -/
  | ehRaise (val : BitVec 32)
  /-- PEND_CLEAR (R329). A write clearing KPEND or APEND discards the delivery and clears its count. -/
  | pendClear (src : Fin 1024) (val : BitVec 32)
  /-- EH_SRC_WRITE (R336). A write of EH_SRC sets a source's routing, or is ignored as a whole when invalid. -/
  | ehSrcWrite (src : Fin 1024) (val : BitVec 32)
  /-- OWNER_BLOCK_REPLACE (R328). Once no owner level is active under OWN_HOLD, the owner block is written and OWN_HOLD cleared. -/
  | ownerBlockReplace (k : Fin 4)
  /-- WHOLE_IMAGE_LOAD (R350). A whole image is checked and applied: placement, areas, programs, routes, heads, regions and starts. -/
  | wholeImageLoad (image : Option (List Byte))
  /-- PARTIAL_IMAGE_LOAD (R359). A partial image is checked and staged onto the standby pair. -/
  | partialImageLoad (image : List Byte)
  /-- CHANGE_READY (R359). The standby span has processed HIST lines and the change becomes READY. -/
  | changeReady
  /-- CHANGE_GO (R360). A write of PL_CHANGE.GO fixes the switch line of a READY change. -/
  | changeGo
  /-- CHANGE_SWITCH (R360). At the switch line roles swap and the old pair becomes the standby. -/
  | changeSwitch
  /-- CHANGE_ABORT (R359). A write of PL_CHANGE.ABORT returns the standby pair and leaves the role untouched. -/
  | changeAbort
  /-- TAKEOVER_GO (R362). A write of PL_TAKE.GO starts a takeover: the standby restores and its region streams frames. -/
  | takeoverGo (role : Fin 32)
  /-- TAKEOVER_RESTORED (R362). The restore is done and the standby region runs; the head is routed and copies begin. -/
  | takeoverRestored
  /-- TAKEOVER_COPY (R363). The sequencer issues the next replay copy once the previous is done and lines are held. -/
  | takeoverCopy
  /-- TAKEOVER_SWITCH (R362). At the standby's line sync onto the first redo line, tags and alias switch. -/
  | takeoverSwitch
  /-- TAKEOVER_DONE (R362). Copying has ended; the old region is disabled, the old span isolated and RESULT reads DONE. -/
  | takeoverDone
  /-- PAIR_TEST (R357). A write of PL_TEST.GO moves a role off the pair and runs its built-in tests. -/
  | pairTest (n : Fin 17)
  /-- PAIR_TEST_DONE (R357). The built-in tests end; the pair becomes the standby or FLAGGED. -/
  | pairTestDone (pass : Bool)
  /-- AUTO_RESUME (R459). A standby becomes READY while a role is STOPPED and the abutment die starts its takeover. -/
  | autoResume
  /-- ROM_DONE (R378). ROM self-test, OTP, directory and firmware checks end; the firmware runs or boot halts. -/
  | romDone (rail : Fin 9)
  /-- FIRMWARE_LINK_UP (R378). The UCIe link is up and the deck leaves reset. -/
  | firmwareLinkUp (x8 : Bool)
  /-- MEMORY_SEALED (R378). Every region of the boot image has sealed and boot enters HEADS. -/
  | memorySealed
  /-- GROUP_START (R380). The heads of a lockstep group are ACTIVE, or 2 s have passed, and the group starts. -/
  | groupStart (g : Fin 8)
  /-- ABUTMENT_WATCHDOG (R382). The 1 s watchdog expires and the abutment die resets alone. -/
  | abutmentWatchdog
  /-- ABUT_RESTART (R382). The restarted firmware checks state, releases endpoint 77 and raises ABT_BOOT. -/
  | abutRestart
  /-- SIGNATURE_DONE (R390). The signature engine completes a verification or signature. -/
  | signatureDone
  /-- DEBUG_EXPIRY (R395). A debug token's DURATION expires and debug closes. -/
  | debugExpiry
  /-- UCIE_RETRY (R398). A D2D adapter retry resends a flit and is counted. -/
  | ucieRetry (fourth : Bool)
  /-- UCIE_DOWN (R399). The link is not up for 10 ms and endpoint 77 is isolated. -/
  | ucieDown
  /-- VERSION (R401). Mailbox request returning the firmware version, SVNs and boot IMAGE_ID. -/
  | version (c : Fin 8)
  /-- IDENT (R401). Mailbox request returning the device certificate. -/
  | ident (c : Fin 8)
  /-- MB_QUOTE (R401). Mailbox request returning a signed quote. -/
  | mbQuote (c : Fin 8)
  /-- RANDOM (R401). Mailbox request returning random bytes. -/
  | random (c : Fin 8)
  /-- NOTIFY (R401). Mailbox request sending a Rener mailbox notification. -/
  | notify (c : Fin 8)
  /-- MB_DONE (R402). A mailbox answer is written, DONE is set and MB_DONE is raised. -/
  | mbDone (c : Fin 8)
  /-- FRAME_RECEIVE (R406). A line port takes or discards a received frame and passes it on by kind. -/
  | frameReceive (e : Fin 8) (fcs : Bool) (corr uncorr : Nat) (frame : List Byte)
  /-- ARP (R407). An ARP request for LP_IP is answered. -/
  | arp (e : Fin 8) (frame : List Byte)
  /-- ICMP_ECHO (R407). An ICMP echo request is answered. -/
  | icmpEcho (e : Fin 8) (frame : List Byte)
  /-- LP_LINK (R436). A line port's link goes up or down. -/
  | lpLink (e : Fin 8) (up blockLock fecLock : Bool)
  /-- FALLBACK_RATE_SWITCH (R409). In fallback, the port switches rate after 2 s without block lock. -/
  | fallbackRateSwitch (e : Fin 8)
  /-- HELLO (R415). A HELLO is checked and answered with ACCEPT and new session keys, or REFUSE. -/
  | hello (port : Fin 8) (peer : BitVec 32) (waiting : Nat) (payload : List Byte)
  /-- PING (R420). Command echoing its body. -/
  | ping (r : Request) (body : List Byte)
  /-- CLOSE (R420). Command ending the session. -/
  | close (r : Request) (body : List Byte)
  /-- QUOTE (R420). Command or query returning a signed quote. -/
  | quote (v : Via) (body : List Byte)
  /-- LOG (R420). Command returning measurement log entries. -/
  | log (r : Request) (body : List Byte)
  /-- CERT (R420). Command or query returning the device certificate. -/
  | cert (v : Via) (body : List Byte)
  /-- READ (R421). Command reading words of a granted window. -/
  | read (r : Request) (body : List Byte)
  /-- WRITE (R421). Command writing words of a granted window. -/
  | write (r : Request) (body : List Byte)
  /-- WRITE_MASK (R421). Command read-modify-writing one word under a mask. -/
  | writeMask (r : Request) (body : List Byte)
  /-- SUBSCRIBE (R424). Command opening or replacing a stream of one kind. -/
  | subscribe (r : Request) (body : List Byte)
  /-- UNSUBSCRIBE (R420). Command closing a stream. -/
  | unsubscribe (r : Request) (body : List Byte)
  /-- DBG_CHALLENGE (R393). Command issuing a debug challenge. -/
  | dbgChallenge (r : Request) (body : List Byte)
  /-- DBG_TOKEN (R394). Command presenting a debug token, which opens its scopes or is refused. -/
  | dbgToken (r : Request) (body : List Byte)
  /-- DBG_CLOSE (R395). Command closing debug. -/
  | dbgClose (r : Request) (body : List Byte)
  /-- SET_FLOOR (R392). Command raising the credential floor and ending sessions below it. -/
  | setFloor (r : Request) (body : List Byte)
  /-- OWNER_RELEASE (R389). Command with a release that ends sessions, erases slots, releases ownership and resets both dies. -/
  | ownerRelease (r : Request) (body : List Byte)
  /-- ENROL (R388). Query with an enrolment grant that enrols the owner key or is refused. -/
  | enrol (port : Fin 8) (peer : BitVec 32) (reqId : BitVec 32) (body : List Byte)
  /-- SESSION_IDLE (R417). No datagram is accepted for 30 s and the session ends. -/
  | sessionIdle (k : Fin 16)
  /-- CREDENTIAL_EXPIRY_CHECK (R392). The 60 s check ends sessions whose credentials have expired. -/
  | credentialExpiryCheck
  /-- STREAM_ENTRY (R425). A record or line record joins a session's record stream with the next RSEQ, or is dropped. -/
  | streamEntry
  /-- RECORDS_SEND (R427). A RECORDS datagram is sent when full or 100 µs after the oldest unsent entry. -/
  | recordsSend (k : Fin 16)
  /-- REC_ACK (R429). A REC_ACK frees entries below CUM and requests resends. -/
  | recAck (d : Sealed) (payload : List Byte)
  /-- STREAM_RESEND (R429). CUM has not advanced for RTO_MS and the stream resends from CUM. -/
  | streamResend (k : Fin 16) (kind : Fin 3)
  /-- CROP_CHUNK_SEND (R430). A chunk of a crop is sent in a CROP datagram. -/
  | cropChunkSend (k : Fin 16)
  /-- CROP_ACK (R431). A CROP_ACK advances a crop and requests resends; a crop reaching TOTAL_BYTES is finished. -/
  | cropAck (d : Sealed) (payload : List Byte)
  /-- CROP_ABANDONED (R431). A crop unfinished after CROP_HOLD_MS is abandoned and its store claim released. -/
  | cropAbandoned (k : Fin 16)
  /-- NOTIFY_SEND (R432). A raise reaching the abutment die is sent as a notification to subscribed sessions, or counted as overflow. -/
  | notifySend
  /-- NOTIFY_ACK (R433). A NOTIFY_ACK frees notifications below CUM. -/
  | notifyAck (d : Sealed) (payload : List Byte)
  /-- UPD_START (R442). Command taking a component's lease for a package. -/
  | updStart (r : Request) (body : List Byte)
  /-- UPD_BLOCK (R442). Command storing a block of a package in the update store. -/
  | updBlock (r : Request) (body : List Byte)
  /-- UPD_STATUS (R442). Command returning a component's state and bytes held. -/
  | updStatus (r : Request) (body : List Byte)
  /-- UPD_COMMIT (R444). Command checking the whole package and order, and starting to apply it. -/
  | updCommit (r : Request) (body : List Byte)
  /-- UPD_ABORT (R442). Command ending a lease and discarding its bytes. -/
  | updAbort (r : Request) (body : List Byte)
  /-- UPD_REVERT (R448). Command reverting a component in TRIAL with reason MANUAL. -/
  | updRevert (r : Request) (body : List Byte)
  /-- UPD_PLAN (R445). Command computing a compatible order for a set of components. -/
  | updPlan (r : Request) (body : List Byte)
  /-- LEASE_EXPIRY (R444). A lease goes 30 s without a naming command and ends. -/
  | leaseExpiry (comp : Fin 32)
  /-- APPLIED (R446). Applying a component ends and its confirmation window starts. -/
  | applied
  /-- UPD_CONFIRMED (R447). The soak passes with every check healthy and the component is confirmed. -/
  | updConfirmed
  /-- UPDATE_REVERTED (R448). The window expires or a check fails and the component is reverted. -/
  | updateReverted (reason : Fin 7)
  /-- SPAN_HEALTH (R460). An island supply or temperature breach held for two samples flags the span. -/
  | spanHealth (n : Fin 17) (volt : BitVec 10) (temp : BitVec 8)
  /-- DEV_TEMP (R460). The deck junction exceeds TJ_WARN. -/
  | devTemp (temp : BitVec 8)
  /-- DIAGNOSIS_START (R461). The abutment die starts the built-in tests of a FLAGGED pair that holds no role. -/
  | diagnosisStart (n : Fin 17)
  /-- FH_DIAG (R461). Diagnosis ends with PASS, REPAIRED or RETIRED. -/
  | fhDiag (n : Fin 17) (pass others : Bool) (cols : List (Fin 16 × Fin 32 × Fin 33))
  /-- LINK_DEGRADE (R462). A link reaches LINK_LIMIT errors in 1 s and is routed around. -/
  | linkDegrade (r : Fin 48) (p : Fin 8) (tables : List Word)
  /-- WEAR_TICK (R464). Every second each powered pair adds its equivalent hours. -/
  | wearTick (temp : BitVec 8) (drifts : List (BitVec 16))
  /-- WEAR_RECORD_WRITE (R465). The wear record is written once an hour. -/
  | wearRecordWrite
  /-- WEAR_WARN (R466). Once a day, WEAR_WARN is raised while the prediction is below WARN_DAYS. -/
  | wearWarn
  /-- ARM (R468). A write of TRC_CTL.ARM starts a trace unit recording. -/
  | arm (t : Fin 4)
  /-- STOP (R468). A write of TRC_CTL.STOP ends recording and raises PRB_TRACE. -/
  | stop (t : Fin 4)
  /-- PORST_ASSERT (R485). PORST# low for 10 µs resets both dies and sets every pin to its reset state. -/
  | porstAssert
  /-- PORST_RELEASE (R485). PORST# rises and boot begins at ROM. -/
  | porstRelease
  /-- REFCLK_GLITCH (R484). Missing REFCLK edges are ridden through and counted when the clock returns within 10 µs. -/
  | refclkGlitch
  /-- REFCLK_LOSS (R484). REFCLK is absent for 10 µs and both dies enter reset. -/
  | refclkLoss
  /-- THERMTRIP (R487). A sensor reads above 125 °C twice; both dies enter reset and THERMTRIP# goes low. -/
  | thermtrip
  /-- POWER_LOSS (R480). Power is lost and the flash structures keep their earlier state. -/
  | powerLoss (torn : Option TornWrite)
  /-- STRAND_LINK_UP (R277). Training of a strand side completes, its lanes come into use, STATE becomes UP and SL_LINK is raised with UP. -/
  | strandLinkUp (east : Bool) (lanes : BitVec 4)
  /-- UCIE_LINK_UP (R399). The die-to-die link comes back up after a retrain or an outage; waiting flits move again, endpoint 77 returns to ONLINE and ABT_UCIE reports the retrain or degradation. -/
  | ucieLinkUp (x8 : Bool)
  /-- UCIE_TRAINING_FAILURE (R381). The die-to-die link fails to train for the third time during boot, and boot ends in HALT with the deck in reset and the flash pins at high impedance. -/
  | ucieTrainingFailure
  /-- ACTUATOR_PULSE_END (R267). An actuator pulse ends after SO_WIDTH TCLK cycles; its scheduler entry is freed and the credit returns to the tracker. -/
  | actuatorPulseEnd (k : Fin 256)
deriving DecidableEq, Repr

end Sys2Proof
end

