-- ==== Sys2Proof/Decode.lean ====
section
/-!
DEFINITION. Words of the table of operations. No row of the table gives bits: a command of this part is an operation or an
event, and no word spells one.
-/

namespace Sys2Proof

/-- The command that a word spells: none, as no row of the table gives bits. -/
def decodeTableWord (_nbits _w : Nat) : Option Instr := none

end Sys2Proof
end

