-- ==== Sys2Proof/Config.lean ====
section
/-!
DEFINITION. What the spec leaves open: the free values, and the functions of formats and algorithms that the spec
names without giving them. Every constant here is opaque: nothing can be proved of its values, so a statement about a
run holds whatever they are.
-/

namespace Sys2Proof.Config

/-- The `k`-th free value drawn, at width `w`: a value that the spec calls undefined, or does not state, while the
machine goes on (assumption log, entry 2). -/
opaque free (w k : Nat) : BitVec w

/-- SHA-384 of a byte string (FIPS 180-4 is named by R370 and not restated). Log entry 3. -/
opaque sha384 : List Byte → BitVec 384

/-- Whether an ECDSA P-384 signature (r then s) over a message verifies under a public key. Log entry 3. -/
opaque ecdsaVerify : (key msg sig : List Byte) → Bool

/-- An ECDSA P-384 signature by the secret key named. Log entry 3. -/
opaque ecdsaSign : (key msg : List Byte) → List Byte

/-- The ECDH P-384 shared secret of a private value and a public key. Log entry 3. -/
opaque ecdh : (secret pub : List Byte) → List Byte

/-- The public key (97 bytes, uncompressed) of an ephemeral P-384 private value (R415). Log entry 3. -/
opaque ecPublic : (secret : List Byte) → List Byte

/-- HKDF with SHA-384: input key material, salt, info and length. Log entry 3. -/
opaque hkdf : (ikm salt info : List Byte) → Nat → List Byte

/-- AES-256-GCM sealing: key, nonce, additional data, plain text; the result ends with the 16-byte tag. Log entry 3. -/
opaque gcmSeal : (key nonce aad plain : List Byte) → List Byte

/-- AES-256-GCM opening: `none` when the tag fails. Log entry 3. -/
opaque gcmOpen : (key nonce aad sealed : List Byte) → Option (List Byte)

/-- The driver enables and multiplexer selects in the data words of a region's ROUTE frames, by frame address: R184 names
their content, and the spec gives no bit layout. Log entry 5. -/
opaque route : List (Nat × List Word) → RouteFrames

/-- The pads that the words after the register values of a REGS frame declare (R184, R188): 0–15 head ports, 16 + 2s + o
strip outputs. The spec gives no layout. Log entry 5. -/
opaque padDeclaration : List Word → List Nat

/-- The row of its subchannel that the byte at an offset of the subchannel lies in: R310 spares rows, and the spec does not
say how a subchannel's bytes lie in rows. Log entry 13. -/
opaque ddrRow : (offset : Nat) → Nat

/-- The rank, of the two of its subchannel, that the byte at an offset of the subchannel lies in. Log entry 13. -/
opaque ddrRank : (offset : Nat) → Bool

/-- The bytes of a strand message before its CRC: R278 names their content, and the spec gives no layout. Log entry 108. -/
opaque strandBytes : StrandMsg → List Byte

/-- The blocks of a KEEPER section: R344 names the content, and the spec gives no layout. Log entry 15. -/
opaque keeperSection : List Byte → KeeperParts

/-- Where the standard firmware's BASE program puts the Keeper's stack, and the address after its WAIT (R505): the spec gives
neither. Log entry 15. -/
opaque firmwareStack : BitVec 32
opaque firmwareLoop : BitVec 32

/-- Whether the image of an IMAGE_ID is the standard image (R500), and the source that it names as the segment mark (R337,
R500). Log entry 15. -/
opaque standardImage : (id : BitVec 32) → Bool
opaque segmentMark : (id : BitVec 32) → Option (Fin 1024)

/-- The trusted maker digests and the ports' requirements of a HEADS section: R344 names the content, and the spec gives
no layout. Log entry 15. -/
opaque headsSection : List Byte → List (BitVec 384) × List HeadParts

/-- The Ozvis public keys written at manufacture (R368): kind 0 firmware, 1 library, 2 image, 3 manufacturing, 4 debug;
generation 0 A, 1 B. Log entry 14. -/
opaque ozvisKey : (kind gen : Nat) → List Byte

/-- SERIAL (16 bytes), the device certificate and the identity key pair of R368. Log entry 14. -/
opaque serial : List Byte
opaque deviceCert : List Byte
opaque identitySecret : List Byte

/-- The ROM version and the public OTP contents as measured into M0 (R383): of what changes, the revocations, the states and
public keys of the owner slots, and the counters. Log entry 14. -/
opaque romMeasured : (revoked : List Nat) → (owners : List (Nat × List Byte)) → (counters : List Nat) → List Byte

/-- The kind code of a measurement log entry, by what was measured (R384 names the code, and the spec gives no values).
Log entry 18. -/
opaque measureKind : (what : Nat) → Byte

end Sys2Proof.Config
end

