-- ==== Sys2Proof/Machine/Registers.lean ====
section
/-!
DEFINITION. The registers of the part: every register of spec/ at its causeway address (R13, R57, R88, R132,
R166, R202, R231, R232, R251, R284, R313, R314, R339, R340, R367, R404, R437, R453, R471, R496), every field with
its bits, its access type (R3), its reset value (R7; a field whose table says "img" reads 0 until the image
configures it) and the values that its description lets a write give it.
`Reg.X` is the address of register `X` (its instance numbers in the order of the spec's offset), `F.X_Y` its field `Y`.
-/

namespace Sys2Proof.Machine

/-- Access types of register fields, R3. -/
inductive Access
  | rw | ro | w1c | wo | sc | rws
deriving DecidableEq, Repr

/-- One register field: bits `hi` to `lo`, access type, reset value, and the closed ranges of values that a
write may give it (empty: any value). A value outside the ranges leaves the field unchanged. -/
structure Fld where
  hi : Nat
  lo : Nat
  acc : Access
  reset : Nat
  legal : List (Nat × Nat)
deriving DecidableEq, Repr

/-- One register or array of registers: the address of its first instance, its dimensions (count and stride,
largest stride first) and its fields; bits in no field are reserved. -/
structure RegDesc where
  name : String
  base : Nat
  dims : List (Nat × Nat)
  fields : List Fld
deriving DecidableEq, Repr

namespace Reg

/-- `SPC_OPTRC`, R469 (16). -/
def SPC_OPTRC (i : Nat) : Nat := 0x4100B00000 + 0x1000000 * i
/-- `RM_STAT`, R231 (07). -/
def RM_STAT (i : Nat) : Nat := 0x4100C00000 + 0x1000000 * i
/-- `RM_HOLD`, R231 (07). -/
def RM_HOLD (i : Nat) : Nat := 0x4100C00004 + 0x1000000 * i
/-- `RM_RUNS`, R231 (07). -/
def RM_RUNS (i : Nat) : Nat := 0x4100C00008 + 0x1000000 * i
/-- `RX_EXTRA`, R231 (07). -/
def RX_EXTRA (i : Nat) : Nat := 0x4100C0000C + 0x1000000 * i
/-- `RX_ABORT`, R231 (07). -/
def RX_ABORT (i : Nat) : Nat := 0x4100C00010 + 0x1000000 * i
/-- `RX_STALL`, R231 (07). -/
def RX_STALL (i : Nat) (j : Nat) : Nat := 0x4100C00040 + 0x1000000 * i + 0x4 * j
/-- `SPC_CTL`, R132 (04). -/
def SPC_CTL (i : Nat) : Nat := 0x4100D00000 + 0x1000000 * i
/-- `SPC_STAT`, R132 (04). -/
def SPC_STAT (i : Nat) : Nat := 0x4100D00004 + 0x1000000 * i
/-- `SPC_PC`, R132 (04). -/
def SPC_PC (i : Nat) : Nat := 0x4100D00008 + 0x1000000 * i
/-- `SPC_ENTRY`, R132 (04). -/
def SPC_ENTRY (i : Nat) : Nat := 0x4100D0000C + 0x1000000 * i
/-- `SPC_INT`, R132 (04). -/
def SPC_INT (i : Nat) : Nat := 0x4100D00010 + 0x1000000 * i
/-- `SPC_IMASK`, R132 (04). -/
def SPC_IMASK (i : Nat) : Nat := 0x4100D00014 + 0x1000000 * i
/-- `SPC_WDOG`, R132 (04). -/
def SPC_WDOG (i : Nat) : Nat := 0x4100D00018 + 0x1000000 * i
/-- `STRAY_MOVES`, R132 (04). -/
def STRAY_MOVES (i : Nat) : Nat := 0x4100D00020 + 0x1000000 * i
/-- `SPC_MISC`, R132 (04). -/
def SPC_MISC (i : Nat) : Nat := 0x4100D00024 + 0x1000000 * i
/-- `SPC_DISCARD`, R132 (04). -/
def SPC_DISCARD (i : Nat) : Nat := 0x4100D00028 + 0x1000000 * i
/-- `SPC_ISSUE_STALL`, R132 (04). -/
def SPC_ISSUE_STALL (i : Nat) : Nat := 0x4100D0002C + 0x1000000 * i
/-- `SPC_PLANE_WAIT`, R132 (04). -/
def SPC_PLANE_WAIT (i : Nat) : Nat := 0x4100D00030 + 0x1000000 * i
/-- `CKPT_HOLD`, R132 (04). -/
def CKPT_HOLD (i : Nat) : Nat := 0x4100D00034 + 0x1000000 * i
/-- `CKPT_CTL`, R132 (04). -/
def CKPT_CTL (i : Nat) : Nat := 0x4100D00040 + 0x1000000 * i
/-- `CKPT_STAT`, R132 (04). -/
def CKPT_STAT (i : Nat) : Nat := 0x4100D00044 + 0x1000000 * i
/-- `CKPT_LINE_LO`, R132 (04). -/
def CKPT_LINE_LO (i : Nat) : Nat := 0x4100D00048 + 0x1000000 * i
/-- `CKPT_LINE_HI`, R132 (04). -/
def CKPT_LINE_HI (i : Nat) : Nat := 0x4100D0004C + 0x1000000 * i
/-- `CKPT_REST`, R132 (04). -/
def CKPT_REST (i : Nat) : Nat := 0x4100D00050 + 0x1000000 * i
/-- `MS_STAT`, R88 (03). -/
def MS_STAT (i : Nat) : Nat := 0x4100E00000 + 0x1000000 * i
/-- `MS_STRAY`, R88 (03). -/
def MS_STRAY (i : Nat) : Nat := 0x4100E00004 + 0x1000000 * i
/-- `MS_WAIT_LIMIT`, R88 (03). -/
def MS_WAIT_LIMIT (i : Nat) : Nat := 0x4100E00008 + 0x1000000 * i
/-- `MS_IDLE`, R88 (03). -/
def MS_IDLE (i : Nat) : Nat := 0x4100E00010 + 0x1000000 * i
/-- `MS_WAIT_CYC`, R88 (03). -/
def MS_WAIT_CYC (i : Nat) : Nat := 0x4100E00014 + 0x1000000 * i
/-- `MS_BUBBLE`, R88 (03). -/
def MS_BUBBLE (i : Nat) : Nat := 0x4100E00018 + 0x1000000 * i
/-- `MS_PAR_COUNT`, R88 (03). -/
def MS_PAR_COUNT (i : Nat) : Nat := 0x4100E0001C + 0x1000000 * i
/-- `MC_VER word 0`, R88 (03). -/
def MC_VER_0 (i : Nat) : Nat := 0x4100E00040 + 0x1000000 * i
/-- `MC_VER word 1`, R88 (03). -/
def MC_VER_1 (i : Nat) : Nat := 0x4100E00044 + 0x1000000 * i
/-- `MC_VER word 2`, R88 (03). -/
def MC_VER_2 (i : Nat) : Nat := 0x4100E00048 + 0x1000000 * i
/-- `MC_VER word 3`, R88 (03). -/
def MC_VER_3 (i : Nat) : Nat := 0x4100E0004C + 0x1000000 * i
/-- `ARR_STAT`, R57 (02). -/
def ARR_STAT (i : Nat) : Nat := 0x4100F00000 + 0x1000000 * i
/-- `ARR_COUPLE`, R57 (02). -/
def ARR_COUPLE (i : Nat) : Nat := 0x4100F00004 + 0x1000000 * i
/-- `ARR_PAR_STAT`, R57 (02). -/
def ARR_PAR_STAT (i : Nat) : Nat := 0x4100F00010 + 0x1000000 * i
/-- `ARR_PAR_COUNT`, R57 (02). -/
def ARR_PAR_COUNT (i : Nat) : Nat := 0x4100F00014 + 0x1000000 * i
/-- `ARR_STALL_PLANE`, R57 (02). -/
def ARR_STALL_PLANE (i : Nat) : Nat := 0x4100F00018 + 0x1000000 * i
/-- `ARR_STALL_GAUGE`, R57 (02). -/
def ARR_STALL_GAUGE (i : Nat) : Nat := 0x4100F0001C + 0x1000000 * i
/-- `ARR_STRAY`, R57 (02). -/
def ARR_STRAY (i : Nat) : Nat := 0x4100F00020 + 0x1000000 * i
/-- `ARR_JOINT_STAT`, R57 (02). -/
def ARR_JOINT_STAT (i : Nat) : Nat := 0x4100F00030 + 0x1000000 * i
/-- `ARR_JOINT_ERR`, R57 (02). -/
def ARR_JOINT_ERR (i : Nat) : Nat := 0x4100F00034 + 0x1000000 * i
/-- `SPARE_MAP`, R57 (02). -/
def SPARE_MAP (i : Nat) (j : Nat) (k : Nat) : Nat := 0x4100F00100 + 0x1000000 * i + 0x20 * j + 0x4 * k
/-- `RG_CTL`, R202 (06). -/
def RG_CTL (i : Nat) : Nat := 0x4200F00000 + 0x1000000 * i
/-- `RG_STAT`, R202 (06). -/
def RG_STAT (i : Nat) : Nat := 0x4200F00004 + 0x1000000 * i
/-- `RG_SRC`, R202 (06). -/
def RG_SRC (i : Nat) : Nat := 0x4200F00008 + 0x1000000 * i
/-- `GB_CTL`, R202 (06). -/
def GB_CTL (i : Nat) : Nat := 0x4200F0000C + 0x1000000 * i
/-- `TP_CTL`, R202 (06). -/
def TP_CTL (i : Nat) : Nat := 0x4200F00010 + 0x1000000 * i
/-- `LB_STAT`, R202 (06). -/
def LB_STAT (i : Nat) : Nat := 0x4200F00014 + 0x1000000 * i
/-- `LB_ECC`, R202 (06). -/
def LB_ECC (i : Nat) : Nat := 0x4200F00018 + 0x1000000 * i
/-- `LB_OVERRUN`, R202 (06). -/
def LB_OVERRUN (i : Nat) : Nat := 0x4200F0001C + 0x1000000 * i
/-- `TP_ERR`, R202 (06). -/
def TP_ERR (i : Nat) : Nat := 0x4200F00020 + 0x1000000 * i
/-- `RG_DROP`, R202 (06). -/
def RG_DROP (i : Nat) : Nat := 0x4200F00024 + 0x1000000 * i
/-- `BM_COLL`, R202 (06). -/
def BM_COLL (i : Nat) : Nat := 0x4200F00028 + 0x1000000 * i
/-- `CFG_STAT`, R202 (06). -/
def CFG_STAT (i : Nat) : Nat := 0x4200F00030 + 0x1000000 * i
/-- `CFG_SCRUB`, R202 (06). -/
def CFG_SCRUB (i : Nat) : Nat := 0x4200F00034 + 0x1000000 * i
/-- `CFG_IMAGE`, R202 (06). -/
def CFG_IMAGE (i : Nat) : Nat := 0x4200F00038 + 0x1000000 * i
/-- `GUARD_LOG`, R202 (06). -/
def GUARD_LOG (i : Nat) : Nat := 0x4200F0003C + 0x1000000 * i
/-- `HR_CTL`, R202 (06). -/
def HR_CTL (i : Nat) : Nat := 0x4200F00040 + 0x1000000 * i
/-- `HR_BASE_LO`, R202 (06). -/
def HR_BASE_LO (i : Nat) : Nat := 0x4200F00044 + 0x1000000 * i
/-- `HR_BASE_HI`, R202 (06). -/
def HR_BASE_HI (i : Nat) : Nat := 0x4200F00048 + 0x1000000 * i
/-- `HR_SKIP`, R202 (06). -/
def HR_SKIP (i : Nat) : Nat := 0x4200F0004C + 0x1000000 * i
/-- `RP_CTL`, R202 (06). -/
def RP_CTL (i : Nat) : Nat := 0x4200F00060 + 0x1000000 * i
/-- `RP_LINE_LO`, R202 (06). -/
def RP_LINE_LO (i : Nat) : Nat := 0x4200F00064 + 0x1000000 * i
/-- `RP_LINE_HI`, R202 (06). -/
def RP_LINE_HI (i : Nat) : Nat := 0x4200F00068 + 0x1000000 * i
/-- `RP_STAT`, R202 (06). -/
def RP_STAT (i : Nat) : Nat := 0x4200F0006C + 0x1000000 * i
/-- `TRK_CTL`, R232 (07). -/
def TRK_CTL : Nat := 0x4300000000
/-- `TRK_STAT`, R232 (07). -/
def TRK_STAT : Nat := 0x4300000004
/-- `TRK_RUNS_IN`, R232 (07). -/
def TRK_RUNS_IN : Nat := 0x4300000010
/-- `TRK_RECORDS`, R232 (07). -/
def TRK_RECORDS : Nat := 0x4300000014
/-- `TRK_RUNS_DROP`, R232 (07). -/
def TRK_RUNS_DROP : Nat := 0x4300000018
/-- `TRK_DUP`, R232 (07). -/
def TRK_DUP : Nat := 0x430000001C
/-- `TRK_LEDGER_HOLD`, R232 (07). -/
def TRK_LEDGER_HOLD : Nat := 0x4300000020
/-- `TRK_REPEAT_HOLD`, R232 (07). -/
def TRK_REPEAT_HOLD : Nat := 0x4300000024
/-- `TRK_ECC`, R232 (07). -/
def TRK_ECC : Nat := 0x4300000028
/-- `TRK_NEXT_ID`, R232 (07). -/
def TRK_NEXT_ID : Nat := 0x430000002C
/-- `TRK_CLASS`, R232 (07). -/
def TRK_CLASS (i : Nat) : Nat := 0x4300000100 + 0x4 * i
/-- `TRK_DOM_CTL`, R232 (07). -/
def TRK_DOM_CTL (i : Nat) : Nat := 0x4300001000 + 0x40 * i
/-- `TRK_DOM_CTX`, R232 (07). -/
def TRK_DOM_CTX (i : Nat) : Nat := 0x4300001004 + 0x40 * i
/-- `TRK_DOM_FLOOD`, R232 (07). -/
def TRK_DOM_FLOOD (i : Nat) : Nat := 0x4300001008 + 0x40 * i
/-- `TRK_DOM_EXIT`, R232 (07). -/
def TRK_DOM_EXIT (i : Nat) : Nat := 0x430000100C + 0x40 * i
/-- `TRK_DOM_STAT`, R232 (07). -/
def TRK_DOM_STAT (i : Nat) : Nat := 0x4300001010 + 0x40 * i
/-- `TRK_DOM_LINE_LO`, R232 (07). -/
def TRK_DOM_LINE_LO (i : Nat) : Nat := 0x4300001014 + 0x40 * i
/-- `TRK_DOM_LINE_HI`, R232 (07). -/
def TRK_DOM_LINE_HI (i : Nat) : Nat := 0x4300001018 + 0x40 * i
/-- `TRK_DOM_FLOODS`, R232 (07). -/
def TRK_DOM_FLOODS (i : Nat) : Nat := 0x430000101C + 0x40 * i
/-- `LG_CTL`, R251 (08). -/
def LG_CTL : Nat := 0x4310000000
/-- `LG_BASE`, R251 (08). -/
def LG_BASE : Nat := 0x4310000004
/-- `LG_STAT`, R251 (08). -/
def LG_STAT : Nat := 0x4310000008
/-- `LG_NEXT_LO`, R251 (08). -/
def LG_NEXT_LO : Nat := 0x4310000010
/-- `LG_NEXT_HI`, R251 (08). -/
def LG_NEXT_HI : Nat := 0x4310000014
/-- `LG_OLDEST_LO`, R251 (08). -/
def LG_OLDEST_LO : Nat := 0x4310000018
/-- `LG_OLDEST_HI`, R251 (08). -/
def LG_OLDEST_HI : Nat := 0x431000001C
/-- `LG_SEG_CTL`, R251 (08). -/
def LG_SEG_CTL : Nat := 0x4310000020
/-- `LG_SEG`, R251 (08). -/
def LG_SEG : Nat := 0x4310000024
/-- `LG_SEG_FIRST_LO`, R251 (08). -/
def LG_SEG_FIRST_LO : Nat := 0x4310000028
/-- `LG_SEG_FIRST_HI`, R251 (08). -/
def LG_SEG_FIRST_HI : Nat := 0x431000002C
/-- `LG_SEG_LINE_LO`, R251 (08). -/
def LG_SEG_LINE_LO : Nat := 0x4310000030
/-- `LG_SEG_LINE_HI`, R251 (08). -/
def LG_SEG_LINE_HI : Nat := 0x4310000034
/-- `LG_WRITES`, R251 (08). -/
def LG_WRITES : Nat := 0x4310000040
/-- `RF_CTL`, R251 (08). -/
def RF_CTL : Nat := 0x4310001000
/-- `RF_CHAINS`, R251 (08). -/
def RF_CHAINS : Nat := 0x4310001010
/-- `RF_TRUNC`, R251 (08). -/
def RF_TRUNC : Nat := 0x4310001014
/-- `RF_UNREAD`, R251 (08). -/
def RF_UNREAD : Nat := 0x4310001018
/-- `RF_SLOT`, R251 (08). -/
def RF_SLOT (i : Nat) : Nat := 0x4310002000 + 0x10 * i
/-- `RF_PITCH_LO`, R251 (08). -/
def RF_PITCH_LO (i : Nat) : Nat := 0x4310002004 + 0x10 * i
/-- `RF_PITCH_HI`, R251 (08). -/
def RF_PITCH_HI (i : Nat) : Nat := 0x4310002008 + 0x10 * i
/-- `RF_TOL`, R251 (08). -/
def RF_TOL (i : Nat) : Nat := 0x431000200C + 0x10 * i
/-- `CR_CTL`, R251 (08). -/
def CR_CTL : Nat := 0x4310003000
/-- `CR_TMO`, R251 (08). -/
def CR_TMO : Nat := 0x4310003004
/-- `CR_STORE`, R251 (08). -/
def CR_STORE : Nat := 0x4310003008
/-- `CR_CROPS`, R251 (08). -/
def CR_CROPS : Nat := 0x4310003010
/-- `CR_STORE_WAIT`, R251 (08). -/
def CR_STORE_WAIT : Nat := 0x4310003014
/-- `SC_CTL`, R284 (09). -/
def SC_CTL (i : Nat) : Nat := 0x4400000000 + 0x1000 * i
/-- `SC_STAT`, R284 (09). -/
def SC_STAT (i : Nat) : Nat := 0x4400000004 + 0x1000 * i
/-- `SC_POS_LO`, R284 (09). -/
def SC_POS_LO (i : Nat) : Nat := 0x4400000008 + 0x1000 * i
/-- `SC_POS_HI`, R284 (09). -/
def SC_POS_HI (i : Nat) : Nat := 0x440000000C + 0x1000 * i
/-- `SC_ZCAP_LO`, R284 (09). -/
def SC_ZCAP_LO (i : Nat) : Nat := 0x4400000010 + 0x1000 * i
/-- `SC_ZCAP_HI`, R284 (09). -/
def SC_ZCAP_HI (i : Nat) : Nat := 0x4400000014 + 0x1000 * i
/-- `SC_ZCHK`, R284 (09). -/
def SC_ZCHK (i : Nat) : Nat := 0x4400000018 + 0x1000 * i
/-- `SC_RATE`, R284 (09). -/
def SC_RATE (i : Nat) : Nat := 0x440000001C + 0x1000 * i
/-- `SC_ERR`, R284 (09). -/
def SC_ERR (i : Nat) : Nat := 0x4400000020 + 0x1000 * i
/-- `SC_STALL`, R284 (09). -/
def SC_STALL (i : Nat) : Nat := 0x4400000024 + 0x1000 * i
/-- `SO_CTL`, R284 (09). -/
def SO_CTL (i : Nat) (j : Nat) : Nat := 0x4400000100 + 0x1000 * i + 0x40 * j
/-- `SO_DELAY`, R284 (09). -/
def SO_DELAY (i : Nat) (j : Nat) : Nat := 0x4400000104 + 0x1000 * i + 0x40 * j
/-- `SO_WIDTH`, R284 (09). -/
def SO_WIDTH (i : Nat) (j : Nat) : Nat := 0x4400000108 + 0x1000 * i + 0x40 * j
/-- `ACT_DIST_LO`, R284 (09). -/
def ACT_DIST_LO (i : Nat) (j : Nat) : Nat := 0x440000010C + 0x1000 * i + 0x40 * j
/-- `ACT_DIST_HI`, R284 (09). -/
def ACT_DIST_HI (i : Nat) (j : Nat) : Nat := 0x4400000110 + 0x1000 * i + 0x40 * j
/-- `ACT_PREPOST`, R284 (09). -/
def ACT_PREPOST (i : Nat) (j : Nat) : Nat := 0x4400000114 + 0x1000 * i + 0x40 * j
/-- `ACT_LEAD`, R284 (09). -/
def ACT_LEAD (i : Nat) (j : Nat) : Nat := 0x4400000118 + 0x1000 * i + 0x40 * j
/-- `ACT_LATE`, R284 (09). -/
def ACT_LATE (i : Nat) (j : Nat) : Nat := 0x440000011C + 0x1000 * i + 0x40 * j
/-- `TG_CTL`, R284 (09). -/
def TG_CTL (i : Nat) : Nat := 0x4400100000 + 0x1000 * i
/-- `TG_STAT`, R284 (09). -/
def TG_STAT (i : Nat) : Nat := 0x4400100004 + 0x1000 * i
/-- `TG_HEADS`, R284 (09). -/
def TG_HEADS (i : Nat) : Nat := 0x4400100008 + 0x1000 * i
/-- `TG_PITCH`, R284 (09). -/
def TG_PITCH (i : Nat) : Nat := 0x440010000C + 0x1000 * i
/-- `TG_ORIGIN_LO`, R284 (09). -/
def TG_ORIGIN_LO (i : Nat) : Nat := 0x4400100010 + 0x1000 * i
/-- `TG_ORIGIN_HI`, R284 (09). -/
def TG_ORIGIN_HI (i : Nat) : Nat := 0x4400100014 + 0x1000 * i
/-- `TG_MINPER`, R284 (09). -/
def TG_MINPER (i : Nat) : Nat := 0x4400100018 + 0x1000 * i
/-- `TG_INTRATE`, R284 (09). -/
def TG_INTRATE (i : Nat) : Nat := 0x440010001C + 0x1000 * i
/-- `TG_INDEX_LO`, R284 (09). -/
def TG_INDEX_LO (i : Nat) : Nat := 0x4400100020 + 0x1000 * i
/-- `TG_INDEX_HI`, R284 (09). -/
def TG_INDEX_HI (i : Nat) : Nat := 0x4400100024 + 0x1000 * i
/-- `TG_SKIP`, R284 (09). -/
def TG_SKIP (i : Nat) : Nat := 0x4400100028 + 0x1000 * i
/-- `TG_PROG`, R284 (09). -/
def TG_PROG (i : Nat) (j : Nat) : Nat := 0x4400100040 + 0x1000 * i + 0x4 * j
/-- `TM_NOW_LO`, R284 (09). -/
def TM_NOW_LO : Nat := 0x4400200000
/-- `TM_NOW_HI`, R284 (09). -/
def TM_NOW_HI : Nat := 0x4400200004
/-- `TM_EPOCH_LO`, R284 (09). -/
def TM_EPOCH_LO : Nat := 0x4400200008
/-- `TM_EPOCH_HI`, R284 (09). -/
def TM_EPOCH_HI : Nat := 0x440020000C
/-- `TM_STAT`, R284 (09). -/
def TM_STAT : Nat := 0x4400200010
/-- `PTP_CTL`, R284 (09). -/
def PTP_CTL : Nat := 0x4400200020
/-- `PTP_INT`, R284 (09). -/
def PTP_INT : Nat := 0x4400200024
/-- `PTP_QUAL`, R284 (09). -/
def PTP_QUAL : Nat := 0x4400200028
/-- `PTP_UTC`, R284 (09). -/
def PTP_UTC : Nat := 0x440020002C
/-- `PTP_SYNC_TX`, R284 (09). -/
def PTP_SYNC_TX : Nat := 0x4400200030
/-- `PTP_DREQ_RX`, R284 (09). -/
def PTP_DREQ_RX : Nat := 0x4400200034
/-- `PTP_DISCARD`, R284 (09). -/
def PTP_DISCARD : Nat := 0x4400200038
/-- `AS_CTL`, R284 (09). -/
def AS_CTL : Nat := 0x4400300000
/-- `AS_STAT`, R284 (09). -/
def AS_STAT : Nat := 0x4400300004
/-- `AS_FIRED`, R284 (09). -/
def AS_FIRED : Nat := 0x4400300008
/-- `AS_LATE`, R284 (09). -/
def AS_LATE : Nat := 0x440030000C
/-- `AS_DROP`, R284 (09). -/
def AS_DROP : Nat := 0x4400300010
/-- `AS_REFUSED`, R284 (09). -/
def AS_REFUSED : Nat := 0x4400300014
/-- `AS_POST_CTL`, R284 (09). -/
def AS_POST_CTL : Nat := 0x4400300020
/-- `AS_POST_LO`, R284 (09). -/
def AS_POST_LO : Nat := 0x4400300024
/-- `AS_POST_HI`, R284 (09). -/
def AS_POST_HI : Nat := 0x4400300028
/-- `CW_CTL`, R313 (10). -/
def CW_CTL : Nat := 0x4500000000
/-- `CW_STAT`, R313 (10). -/
def CW_STAT : Nat := 0x4500000004
/-- `CW_WRR`, R313 (10). -/
def CW_WRR : Nat := 0x4500000008
/-- `RT_DRAIN`, R313 (10). -/
def RT_DRAIN (i : Nat) : Nat := 0x4500010000 + 0x100 * i
/-- `RT_TABLE`, R313 (10). -/
def RT_TABLE (i : Nat) (j : Nat) (k : Nat) : Nat := 0x4500010040 + 0x100 * i + 0x20 * j + 0x4 * k
/-- `CW_EP_CTL`, R313 (10). -/
def CW_EP_CTL (i : Nat) : Nat := 0x4500020000 + 0x100 * i
/-- `CW_EP_STAT`, R313 (10). -/
def CW_EP_STAT (i : Nat) : Nat := 0x4500020004 + 0x100 * i
/-- `CW_EP_TAG`, R313 (10). -/
def CW_EP_TAG (i : Nat) : Nat := 0x4500020008 + 0x100 * i
/-- `PRB_STRAY`, R313 (10). -/
def PRB_STRAY (i : Nat) : Nat := 0x4500020010 + 0x100 * i
/-- `PRB_ISO`, R313 (10). -/
def PRB_ISO (i : Nat) : Nat := 0x4500020014 + 0x100 * i
/-- `PRB_STALE`, R313 (10). -/
def PRB_STALE (i : Nat) : Nat := 0x4500020018 + 0x100 * i
/-- `PRB_SHAPE`, R313 (10). -/
def PRB_SHAPE (i : Nat) : Nat := 0x450002001C + 0x100 * i
/-- `PRB_C0_DROP`, R313 (10). -/
def PRB_C0_DROP (i : Nat) : Nat := 0x4500020020 + 0x100 * i
/-- `PIER_ECC`, R313 (10). -/
def PIER_ECC (i : Nat) : Nat := 0x4500030000 + 0x100 * i
/-- `PIER_SPAN_STALL`, R313 (10). -/
def PIER_SPAN_STALL (i : Nat) : Nat := 0x4500030004 + 0x100 * i
/-- `PIER_CONF`, R313 (10). -/
def PIER_CONF (i : Nat) (j : Nat) : Nat := 0x4500030040 + 0x100 * i + 0x4 * j
/-- `PRB_FLT_CTL`, R471 (16). -/
def PRB_FLT_CTL (i : Nat) : Nat := 0x4500100000 + 0x40 * i
/-- `PRB_FLT_TAG`, R471 (16). -/
def PRB_FLT_TAG (i : Nat) : Nat := 0x4500100004 + 0x40 * i
/-- `PRB_FLT_ALO`, R471 (16). -/
def PRB_FLT_ALO (i : Nat) : Nat := 0x4500100008 + 0x40 * i
/-- `PRB_FLT_AHI`, R471 (16). -/
def PRB_FLT_AHI (i : Nat) : Nat := 0x450010000C + 0x40 * i
/-- `PRB_FLT_HEADS`, R471 (16). -/
def PRB_FLT_HEADS (i : Nat) : Nat := 0x4500100010 + 0x40 * i
/-- `PRB_FLT_FLITS`, R471 (16). -/
def PRB_FLT_FLITS (i : Nat) : Nat := 0x4500100018 + 0x40 * i
/-- `TRC_CTL`, R471 (16). -/
def TRC_CTL (i : Nat) : Nat := 0x4500110000 + 0x100 * i
/-- `TRC_STAT`, R471 (16). -/
def TRC_STAT (i : Nat) : Nat := 0x4500110004 + 0x100 * i
/-- `KP_CTL`, R339 (11). -/
def KP_CTL (i : Nat) : Nat := 0x4600040000 + 0x1000000 * i
/-- `KP_STAT`, R339 (11). -/
def KP_STAT (i : Nat) : Nat := 0x4600040004 + 0x1000000 * i
/-- `KP_PC`, R339 (11). -/
def KP_PC (i : Nat) : Nat := 0x4600040008 + 0x1000000 * i
/-- `KP_EVT`, R339 (11). -/
def KP_EVT (i : Nat) : Nat := 0x460004000C + 0x1000000 * i
/-- `KP_WIN0`, R339 (11). -/
def KP_WIN0 (i : Nat) : Nat := 0x4600040010 + 0x1000000 * i
/-- `KP_WIN1`, R339 (11). -/
def KP_WIN1 (i : Nat) : Nat := 0x4600040014 + 0x1000000 * i
/-- `KP_OWIN0`, R339 (11). -/
def KP_OWIN0 (i : Nat) : Nat := 0x4600040018 + 0x1000000 * i
/-- `KP_OWIN1`, R339 (11). -/
def KP_OWIN1 (i : Nat) : Nat := 0x460004001C + 0x1000000 * i
/-- `KP_SPLIM`, R339 (11). -/
def KP_SPLIM (i : Nat) : Nat := 0x4600040020 + 0x1000000 * i
/-- `KP_C0_LIMIT`, R339 (11). -/
def KP_C0_LIMIT (i : Nat) : Nat := 0x4600040024 + 0x1000000 * i
/-- `KEEPER_ILLEGAL`, R339 (11). -/
def KEEPER_ILLEGAL (i : Nat) : Nat := 0x4600040028 + 0x1000000 * i
/-- `KP_STRAY`, R339 (11). -/
def KP_STRAY (i : Nat) : Nat := 0x460004002C + 0x1000000 * i
/-- `KP_DISPATCH`, R339 (11). -/
def KP_DISPATCH (i : Nat) : Nat := 0x4600040030 + 0x1000000 * i
/-- `KP_ECC`, R339 (11). -/
def KP_ECC (i : Nat) : Nat := 0x4600040034 + 0x1000000 * i
/-- `KP_ORANGE_LO`, R339 (11). -/
def KP_ORANGE_LO (i : Nat) (j : Nat) : Nat := 0x4600040040 + 0x1000000 * i + 0x8 * j
/-- `KP_ORANGE_HI`, R339 (11). -/
def KP_ORANGE_HI (i : Nat) (j : Nat) : Nat := 0x4600040044 + 0x1000000 * i + 0x8 * j
/-- `EH_RAISE`, R340 (11). -/
def EH_RAISE : Nat := 0x4640000000
/-- `EH_RAISE_PAY`, R340 (11). -/
def EH_RAISE_PAY : Nat := 0x4640000004
/-- `EH_COAL`, R340 (11). -/
def EH_COAL : Nat := 0x4640000010
/-- `EH_UNROUTED`, R340 (11). -/
def EH_UNROUTED : Nat := 0x4640000014
/-- `EH_TGT_DROP`, R340 (11). -/
def EH_TGT_DROP : Nat := 0x4640000018
/-- `EH_SRC`, R340 (11). -/
def EH_SRC (i : Nat) : Nat := 0x4640001000 + 0x4 * i
/-- `EH_PEND`, R340 (11). -/
def EH_PEND (i : Nat) : Nat := 0x4640002000 + 0x4 * i
/-- `EH_PAY`, R340 (11). -/
def EH_PAY (i : Nat) : Nat := 0x4640003000 + 0x4 * i
/-- `HP_CTL`, R166 (05). -/
def HP_CTL (i : Nat) : Nat := 0x4700000000 + 0x1000000 * i
/-- `HP_STAT`, R166 (05). -/
def HP_STAT (i : Nat) : Nat := 0x4700000004 + 0x1000000 * i
/-- `HP_TRG`, R166 (05). -/
def HP_TRG (i : Nat) : Nat := 0x4700000008 + 0x1000000 * i
/-- `HP_TMO`, R166 (05). -/
def HP_TMO (i : Nat) : Nat := 0x470000000C + 0x1000000 * i
/-- `HP_SKEW`, R166 (05). -/
def HP_SKEW (i : Nat) : Nat := 0x4700000010 + 0x1000000 * i
/-- `HP_CC_CTL`, R166 (05). -/
def HP_CC_CTL (i : Nat) : Nat := 0x4700000014 + 0x1000000 * i
/-- `HP_PKT_OK`, R166 (05). -/
def HP_PKT_OK (i : Nat) : Nat := 0x4700000020 + 0x1000000 * i
/-- `HP_PKT_DMG`, R166 (05). -/
def HP_PKT_DMG (i : Nat) : Nat := 0x4700000024 + 0x1000000 * i
/-- `HP_INGEST_DROP`, R166 (05). -/
def HP_INGEST_DROP (i : Nat) : Nat := 0x4700000028 + 0x1000000 * i
/-- `HP_OVERRUN`, R166 (05). -/
def HP_OVERRUN (i : Nat) : Nat := 0x470000002C + 0x1000000 * i
/-- `HP_LOST`, R166 (05). -/
def HP_LOST (i : Nat) : Nat := 0x4700000030 + 0x1000000 * i
/-- `HP_ERR`, R166 (05). -/
def HP_ERR (i : Nat) : Nat := 0x4700000034 + 0x1000000 * i
/-- `LP_CTL`, R437 (14). -/
def LP_CTL (i : Nat) : Nat := 0x4710000000 + 0x1000000 * i
/-- `LP_STAT`, R437 (14). -/
def LP_STAT (i : Nat) : Nat := 0x4710000004 + 0x1000000 * i
/-- `LP_IP`, R437 (14). -/
def LP_IP (i : Nat) : Nat := 0x4710000008 + 0x1000000 * i
/-- `LP_MASK`, R437 (14). -/
def LP_MASK (i : Nat) : Nat := 0x471000000C + 0x1000000 * i
/-- `LP_GW`, R437 (14). -/
def LP_GW (i : Nat) : Nat := 0x4710000010 + 0x1000000 * i
/-- `LP_MAC_LO`, R437 (14). -/
def LP_MAC_LO (i : Nat) : Nat := 0x4710000014 + 0x1000000 * i
/-- `LP_MAC_HI`, R437 (14). -/
def LP_MAC_HI (i : Nat) : Nat := 0x4710000018 + 0x1000000 * i
/-- `LP_RX_OK`, R437 (14). -/
def LP_RX_OK (i : Nat) : Nat := 0x4710000020 + 0x1000000 * i
/-- `LP_TX_OK`, R437 (14). -/
def LP_TX_OK (i : Nat) : Nat := 0x4710000024 + 0x1000000 * i
/-- `LP_RX_FCS`, R437 (14). -/
def LP_RX_FCS (i : Nat) : Nat := 0x4710000028 + 0x1000000 * i
/-- `LP_RX_DISCARD`, R437 (14). -/
def LP_RX_DISCARD (i : Nat) : Nat := 0x471000002C + 0x1000000 * i
/-- `LP_FEC`, R437 (14). -/
def LP_FEC (i : Nat) : Nat := 0x4710000030 + 0x1000000 * i
/-- `LP_RN_AUTH`, R437 (14). -/
def LP_RN_AUTH (i : Nat) : Nat := 0x4710000034 + 0x1000000 * i
/-- `LP_RN_REPLAY`, R437 (14). -/
def LP_RN_REPLAY (i : Nat) : Nat := 0x4710000038 + 0x1000000 * i
/-- `RN_CTL`, R437 (14). -/
def RN_CTL : Nat := 0x4718000000
/-- `RN_SESS_STAT`, R437 (14). -/
def RN_SESS_STAT (i : Nat) : Nat := 0x4718000100 + 0x20 * i
/-- `RN_SESS_ID`, R437 (14). -/
def RN_SESS_ID (i : Nat) : Nat := 0x4718000104 + 0x20 * i
/-- `RN_SESS_PEER`, R437 (14). -/
def RN_SESS_PEER (i : Nat) : Nat := 0x4718000108 + 0x20 * i
/-- `RN_SESS_CRED`, R437 (14). -/
def RN_SESS_CRED (i : Nat) : Nat := 0x471800010C + 0x20 * i
/-- `RN_SESS_DROP`, R437 (14). -/
def RN_SESS_DROP (i : Nat) : Nat := 0x4718000110 + 0x20 * i
/-- `SL_CTL`, R284 (09). -/
def SL_CTL : Nat := 0x4720000000
/-- `SL_STAT`, R284 (09). -/
def SL_STAT : Nat := 0x4720000004
/-- `SL_DELAY`, R284 (09). -/
def SL_DELAY : Nat := 0x4720000008
/-- `SL_HALO`, R284 (09). -/
def SL_HALO : Nat := 0x472000000C
/-- `SL_OFFSET`, R284 (09). -/
def SL_OFFSET : Nat := 0x4720000010
/-- `SL_ERR`, R284 (09). -/
def SL_ERR : Nat := 0x4720000014
/-- `SL_LATE`, R284 (09). -/
def SL_LATE : Nat := 0x4720000018
/-- `D5_CTL`, R314 (10). -/
def D5_CTL (i : Nat) : Nat := 0x4800000000 + 0x1000000 * i
/-- `D5_STAT`, R314 (10). -/
def D5_STAT (i : Nat) : Nat := 0x4800000004 + 0x1000000 * i
/-- `D5_CFG`, R314 (10). -/
def D5_CFG (i : Nat) : Nat := 0x4800000008 + 0x1000000 * i
/-- `D5_ECC`, R314 (10). -/
def D5_ECC (i : Nat) : Nat := 0x480000000C + 0x1000000 * i
/-- `D5_ERR_LO`, R314 (10). -/
def D5_ERR_LO (i : Nat) : Nat := 0x4800000010 + 0x1000000 * i
/-- `D5_ERR_HI`, R314 (10). -/
def D5_ERR_HI (i : Nat) : Nat := 0x4800000014 + 0x1000000 * i
/-- `D5_SCRUB`, R314 (10). -/
def D5_SCRUB (i : Nat) : Nat := 0x4800000018 + 0x1000000 * i
/-- `D5_SPARE`, R314 (10). -/
def D5_SPARE (i : Nat) : Nat := 0x480000001C + 0x1000000 * i
/-- `D5_TEMP`, R314 (10). -/
def D5_TEMP (i : Nat) : Nat := 0x4800000020 + 0x1000000 * i
/-- `D5_MAP`, R314 (10). -/
def D5_MAP : Nat := 0x4808000000
/-- `DC_RSTCAUSE`, R496 (17). -/
def DC_RSTCAUSE : Nat := 0x4900000000
/-- `DC_CLKSTAT`, R496 (17). -/
def DC_CLKSTAT : Nat := 0x4900000004
/-- `DC_ISLAND`, R496 (17). -/
def DC_ISLAND (i : Nat) : Nat := 0x4900000040 + 0x4 * i
/-- `PL_STAT`, R367 (12). -/
def PL_STAT : Nat := 0x4900100000
/-- `PL_TAKE`, R367 (12). -/
def PL_TAKE : Nat := 0x4900100004
/-- `PL_CHANGE`, R367 (12). -/
def PL_CHANGE : Nat := 0x4900100008
/-- `PL_TEST`, R367 (12). -/
def PL_TEST : Nat := 0x490010000C
/-- `PL_LOAD_STAT`, R367 (12). -/
def PL_LOAD_STAT : Nat := 0x4900100010
/-- `PL_MUTED`, R367 (12). -/
def PL_MUTED : Nat := 0x4900100014
/-- `PL_SWITCH_LO`, R367 (12). -/
def PL_SWITCH_LO : Nat := 0x4900100018
/-- `PL_SWITCH_HI`, R367 (12). -/
def PL_SWITCH_HI : Nat := 0x490010001C
/-- `PL_LAST`, R367 (12). -/
def PL_LAST : Nat := 0x4900100020
/-- `PL_ROLE`, R367 (12). -/
def PL_ROLE (i : Nat) : Nat := 0x4900100100 + 0x4 * i
/-- `PL_PHYS`, R367 (12). -/
def PL_PHYS (i : Nat) : Nat := 0x4900100200 + 0x4 * i
/-- `UPD_STAT`, R453 (15). -/
def UPD_STAT : Nat := 0x4900200000
/-- `UPD_GEN`, R453 (15). -/
def UPD_GEN : Nat := 0x4900200004
/-- `UPD_COMP`, R453 (15). -/
def UPD_COMP (i : Nat) : Nat := 0x4900200100 + 0x4 * i
/-- `FH_CTL`, R471 (16). -/
def FH_CTL : Nat := 0x4900300000
/-- `FH_LIMITS`, R471 (16). -/
def FH_LIMITS : Nat := 0x4900300004
/-- `FH_LINKS`, R471 (16). -/
def FH_LINKS : Nat := 0x4900300008
/-- `FH_SPAN`, R471 (16). -/
def FH_SPAN (i : Nat) : Nat := 0x4900300040 + 0x4 * i
/-- `WR_CTL`, R471 (16). -/
def WR_CTL : Nat := 0x4900400000
/-- `WR_EOL`, R471 (16). -/
def WR_EOL : Nat := 0x4900400004
/-- `WR_DEV_HRS`, R471 (16). -/
def WR_DEV_HRS : Nat := 0x4900400008
/-- `WR_PAIR_HRS`, R471 (16). -/
def WR_PAIR_HRS (i : Nat) : Nat := 0x4900400040 + 0x8 * i
/-- `WR_PAIR_DRIFT`, R471 (16). -/
def WR_PAIR_DRIFT (i : Nat) : Nat := 0x4900400044 + 0x8 * i
/-- `MB_DOORBELL`, R404 (13). -/
def MB_DOORBELL (i : Nat) : Nat := 0x4F00000800 + 0x1000 * i
/-- `MB_STAT`, R404 (13). -/
def MB_STAT (i : Nat) : Nat := 0x4F00000804 + 0x1000 * i
/-- `MB_ALLOW`, R404 (13). -/
def MB_ALLOW (i : Nat) : Nat := 0x4F00000808 + 0x1000 * i
/-- `ABT_STAT`, R404 (13). -/
def ABT_STAT : Nat := 0x4F00100000
/-- `ABT_VER`, R404 (13). -/
def ABT_VER : Nat := 0x4F00100004
/-- `ABT_SVN`, R404 (13). -/
def ABT_SVN : Nat := 0x4F00100008
/-- `UCIE_STAT`, R404 (13). -/
def UCIE_STAT : Nat := 0x4F0010000C
/-- `UCIE_RETRY`, R404 (13). -/
def UCIE_RETRY : Nat := 0x4F00100010
/-- `ABT_SERIAL0`, R404 (13). -/
def ABT_SERIAL0 : Nat := 0x4F00100020
/-- `ABT_SERIAL1`, R404 (13). -/
def ABT_SERIAL1 : Nat := 0x4F00100024
/-- `ABT_SERIAL2`, R404 (13). -/
def ABT_SERIAL2 : Nat := 0x4F00100028
/-- `ABT_SERIAL3`, R404 (13). -/
def ABT_SERIAL3 : Nat := 0x4F0010002C

end Reg

namespace F

def SPC_OPTRC_EN : Fld := ⟨31, 31, .rw, 0, []⟩
def SPC_OPTRC_WRAPPED : Fld := ⟨30, 30, .ro, 0, []⟩
def SPC_OPTRC_NEXT : Fld := ⟨7, 0, .ro, 0, []⟩
def RM_STAT_BAND : Fld := ⟨31, 31, .ro, 0, []⟩
def RM_HOLD_COUNT : Fld := ⟨31, 0, .ro, 0, []⟩
def RM_RUNS_COUNT : Fld := ⟨31, 0, .ro, 0, []⟩
def RX_EXTRA_COUNT : Fld := ⟨31, 0, .ro, 0, []⟩
def RX_ABORT_COUNT : Fld := ⟨31, 0, .ro, 0, []⟩
def RX_STALL_COUNT : Fld := ⟨31, 0, .ro, 0, []⟩
def SPC_CTL_BANK : Fld := ⟨3, 2, .rws, 0, []⟩
def SPC_CTL_STOP : Fld := ⟨1, 0, .rw, 2, []⟩
def SPC_STAT_STATE : Fld := ⟨31, 30, .ro, 3, []⟩
def SPC_STAT_CAUSE : Fld := ⟨29, 27, .ro, 0, []⟩
def SPC_STAT_ABORTED : Fld := ⟨26, 26, .ro, 0, []⟩
def SPC_STAT_ROUTINE : Fld := ⟨23, 14, .ro, 0, []⟩
def SPC_STAT_MPC : Fld := ⟨13, 0, .ro, 0, []⟩
def SPC_PC_BANK : Fld := ⟨12, 11, .ro, 0, []⟩
def SPC_PC_INDEX : Fld := ⟨10, 0, .ro, 0, []⟩
def SPC_ENTRY_IVEC : Fld := ⟨26, 16, .rws, 0, [(0, 1364)]⟩
def SPC_ENTRY_ENTRY : Fld := ⟨10, 0, .rws, 0, [(0, 1364)]⟩
def SPC_INT_PEND : Fld := ⟨15, 8, .w1c, 0, []⟩
def SPC_INT_EN : Fld := ⟨7, 0, .rw, 0, []⟩
def SPC_IMASK_SAVE : Fld := ⟨31, 0, .rw, 0, []⟩
def SPC_WDOG_LIMIT : Fld := ⟨31, 0, .rw, 0, []⟩
def STRAY_MOVES_SOCKET : Fld := ⟨31, 16, .ro, 0, []⟩
def STRAY_MOVES_ADDR : Fld := ⟨15, 0, .ro, 0, []⟩
def SPC_MISC_COLL : Fld := ⟨31, 24, .ro, 0, []⟩
def SPC_MISC_GAUGE : Fld := ⟨23, 16, .ro, 0, []⟩
def SPC_MISC_RXFIT : Fld := ⟨15, 8, .ro, 0, []⟩
def SPC_MISC_SCR_CORR : Fld := ⟨7, 0, .ro, 0, []⟩
def SPC_DISCARD_COUNT : Fld := ⟨31, 0, .ro, 0, []⟩
def SPC_ISSUE_STALL_COUNT : Fld := ⟨31, 0, .ro, 0, []⟩
def SPC_PLANE_WAIT_COUNT : Fld := ⟨31, 0, .ro, 0, []⟩
def CKPT_HOLD_COUNT : Fld := ⟨31, 0, .ro, 0, []⟩
def CKPT_CTL_BASE : Fld := ⟨22, 12, .rws, 0, []⟩
def CKPT_STAT_VALID : Fld := ⟨31, 31, .ro, 0, []⟩
def CKPT_STAT_SLOT : Fld := ⟨30, 30, .ro, 0, []⟩
def CKPT_STAT_BUSY : Fld := ⟨29, 29, .ro, 0, []⟩
def CKPT_STAT_COUNT : Fld := ⟨22, 16, .ro, 0, []⟩
def CKPT_STAT_AGE : Fld := ⟨15, 0, .ro, 0, []⟩
def CKPT_LINE_LO_LO : Fld := ⟨31, 0, .ro, 0, []⟩
def CKPT_LINE_HI_HI : Fld := ⟨31, 0, .ro, 0, []⟩
def CKPT_REST_GO : Fld := ⟨31, 31, .sc, 0, []⟩
def CKPT_REST_FAIL : Fld := ⟨30, 30, .ro, 0, []⟩
def CKPT_REST_OLDER : Fld := ⟨29, 29, .ro, 0, []⟩
def CKPT_REST_SRC : Fld := ⟨22, 12, .rws, 0, []⟩
def MS_STAT_BUSY : Fld := ⟨31, 31, .ro, 0, []⟩
def MS_STAT_WAIT : Fld := ⟨30, 30, .ro, 0, []⟩
def MS_STAT_HOLD : Fld := ⟨29, 29, .ro, 0, []⟩
def MS_STAT_COND : Fld := ⟨28, 26, .ro, 0, []⟩
def MS_STAT_ROUTINE : Fld := ⟨23, 14, .ro, 0, []⟩
def MS_STAT_PC : Fld := ⟨13, 0, .ro, 0, []⟩
def MS_STRAY_NOENTRY : Fld := ⟨15, 0, .ro, 0, []⟩
def MS_WAIT_LIMIT_LIMIT : Fld := ⟨31, 0, .rw, 0x100000, []⟩
def MS_IDLE_COUNT : Fld := ⟨31, 0, .ro, 0, []⟩
def MS_WAIT_CYC_COUNT : Fld := ⟨31, 0, .ro, 0, []⟩
def MS_BUBBLE_COUNT : Fld := ⟨31, 0, .ro, 0, []⟩
def MS_PAR_COUNT_COUNT : Fld := ⟨31, 0, .ro, 0, []⟩
def MC_VER_0_MAJOR : Fld := ⟨31, 24, .ro, 0, []⟩
def MC_VER_0_MINOR : Fld := ⟨23, 16, .ro, 0, []⟩
def MC_VER_0_PATCH : Fld := ⟨15, 0, .ro, 0, []⟩
def MC_VER_1_BUILD_TAG : Fld := ⟨31, 0, .ro, 0, []⟩
def MC_VER_2_LIB_KEY : Fld := ⟨31, 16, .ro, 0, []⟩
def MC_VER_2_OWN_KEY : Fld := ⟨15, 0, .ro, 0, []⟩
def MC_VER_3_OWN_COUNT : Fld := ⟨25, 16, .ro, 0, []⟩
def MC_VER_3_OWN_VER : Fld := ⟨15, 0, .ro, 0, []⟩
def ARR_STAT_FLAGGED : Fld := ⟨1, 1, .ro, 0, []⟩
def ARR_STAT_INIT_DONE : Fld := ⟨0, 0, .ro, 0, []⟩
def ARR_COUPLE_OUTER_E : Fld := ⟨11, 10, .rws, 0, [(0, 2)]⟩
def ARR_COUPLE_OUTER_W : Fld := ⟨9, 8, .rws, 0, [(0, 2)]⟩
def ARR_COUPLE_POS : Fld := ⟨7, 4, .rws, 0, []⟩
def ARR_COUPLE_GSIZE_LOG : Fld := ⟨2, 0, .rws, 0, []⟩
def ARR_PAR_STAT_VALID : Fld := ⟨31, 31, .w1c, 0, []⟩
def ARR_PAR_STAT_OVF : Fld := ⟨30, 30, .w1c, 0, []⟩
def ARR_PAR_STAT_ON_WRITE : Fld := ⟨29, 29, .ro, 0, []⟩
def ARR_PAR_STAT_ROW : Fld := ⟨23, 13, .ro, 0, []⟩
def ARR_PAR_STAT_TRUSS : Fld := ⟨12, 9, .ro, 0, []⟩
def ARR_PAR_STAT_GROUP : Fld := ⟨8, 4, .ro, 0, []⟩
def ARR_PAR_COUNT_COUNT : Fld := ⟨31, 0, .ro, 0, []⟩
def ARR_STALL_PLANE_COUNT : Fld := ⟨31, 0, .ro, 0, []⟩
def ARR_STALL_GAUGE_COUNT : Fld := ⟨31, 0, .ro, 0, []⟩
def ARR_STRAY_PLANE_OVER : Fld := ⟨31, 16, .ro, 0, []⟩
def ARR_STRAY_HALO_EMPTY : Fld := ⟨15, 0, .ro, 0, []⟩
def ARR_JOINT_STAT_V_OVER : Fld := ⟨31, 31, .ro, 0, []⟩
def ARR_JOINT_STAT_T_OVER : Fld := ⟨30, 30, .ro, 0, []⟩
def ARR_JOINT_STAT_PH_OVER : Fld := ⟨29, 29, .ro, 0, []⟩
def ARR_JOINT_STAT_IN_USE : Fld := ⟨28, 28, .ro, 0, []⟩
def ARR_JOINT_STAT_MISMATCH : Fld := ⟨27, 27, .ro, 0, []⟩
def ARR_JOINT_STAT_PHASE : Fld := ⟨23, 16, .ro, 0, []⟩
def ARR_JOINT_STAT_DTEMP : Fld := ⟨15, 8, .ro, 0, []⟩
def ARR_JOINT_STAT_DVOLT : Fld := ⟨7, 0, .ro, 0, []⟩
def ARR_JOINT_ERR_COUNT : Fld := ⟨31, 0, .ro, 0, []⟩
def SPARE_MAP_BYP3 : Fld := ⟨29, 24, .rws, 0x20, [(0, 32)]⟩
def SPARE_MAP_BYP2 : Fld := ⟨21, 16, .rws, 0x20, [(0, 32)]⟩
def SPARE_MAP_BYP1 : Fld := ⟨13, 8, .rws, 0x20, [(0, 32)]⟩
def SPARE_MAP_BYP0 : Fld := ⟨5, 0, .rws, 0x20, [(0, 32)]⟩
def RG_CTL_RAW : Fld := ⟨7, 7, .rw, 0, []⟩
def RG_CTL_UNSEAL : Fld := ⟨3, 3, .sc, 0, []⟩
def RG_CTL_DISABLE : Fld := ⟨2, 2, .sc, 0, []⟩
def RG_CTL_ENABLE : Fld := ⟨1, 1, .sc, 0, []⟩
def RG_STAT_STATE : Fld := ⟨31, 28, .ro, 0, []⟩
def RG_STAT_CAUSE : Fld := ⟨27, 24, .ro, 0, []⟩
def RG_STAT_PADS_LIVE : Fld := ⟨23, 23, .ro, 0, []⟩
def RG_STAT_GUARD : Fld := ⟨22, 22, .ro, 0, []⟩
def RG_SRC_EN : Fld := ⟨31, 31, .rw, 0, []⟩
def RG_SRC_PORT : Fld := ⟨19, 16, .rw, 0, []⟩
def GB_CTL_BEAT : Fld := ⟨9, 8, .rws, 0, [(0, 2)]⟩
def GB_CTL_PIXEL_BITS : Fld := ⟨4, 0, .rws, 0, [(8, 8), (10, 10), (12, 12), (14, 14), (16, 16)]⟩
def TP_CTL_BEAT : Fld := ⟨19, 18, .rws, 0, [(0, 2)]⟩
def TP_CTL_ORDER : Fld := ⟨17, 17, .rws, 0, []⟩
def TP_CTL_WB : Fld := ⟨15, 12, .rws, 0, [(1, 12)]⟩
def LB_STAT_UNCONSUMED : Fld := ⟨21, 16, .ro, 0, []⟩
def LB_STAT_REPLAY : Fld := ⟨13, 8, .ro, 0, []⟩
def LB_STAT_OLDEST : Fld := ⟨4, 0, .ro, 0, []⟩
def LB_ECC_CORR : Fld := ⟨31, 16, .ro, 0, []⟩
def LB_ECC_UNCORR : Fld := ⟨15, 0, .ro, 0, []⟩
def LB_OVERRUN_COUNT : Fld := ⟨31, 0, .ro, 0, []⟩
def TP_ERR_LONG : Fld := ⟨23, 16, .ro, 0, []⟩
def TP_ERR_EXTRA : Fld := ⟨15, 8, .ro, 0, []⟩
def TP_ERR_MISSING : Fld := ⟨7, 0, .ro, 0, []⟩
def RG_DROP_COUNT : Fld := ⟨31, 0, .ro, 0, []⟩
def BM_COLL_COUNT : Fld := ⟨31, 0, .ro, 0, []⟩
def CFG_STAT_FRAMES : Fld := ⟨31, 16, .ro, 0, []⟩
def CFG_STAT_BAD_FRAME : Fld := ⟨15, 8, .ro, 0, []⟩
def CFG_STAT_SCRUB_ERR : Fld := ⟨7, 0, .ro, 0, []⟩
def CFG_SCRUB_EN : Fld := ⟨31, 31, .rw, 1, []⟩
def CFG_SCRUB_VALID : Fld := ⟨30, 30, .w1c, 0, []⟩
def CFG_SCRUB_TYPE : Fld := ⟨27, 24, .ro, 0, []⟩
def CFG_SCRUB_MAJOR : Fld := ⟨23, 12, .ro, 0, []⟩
def CFG_SCRUB_MINOR : Fld := ⟨11, 0, .ro, 0, []⟩
def CFG_IMAGE_IMAGE_ID : Fld := ⟨31, 0, .ro, 0, []⟩
def GUARD_LOG_VALID : Fld := ⟨31, 31, .w1c, 0, []⟩
def GUARD_LOG_ORIENT : Fld := ⟨30, 30, .ro, 0, []⟩
def GUARD_LOG_KIND : Fld := ⟨29, 29, .ro, 0, []⟩
def GUARD_LOG_TRACK : Fld := ⟨25, 21, .ro, 0, []⟩
def GUARD_LOG_ROW : Fld := ⟨13, 8, .ro, 0, []⟩
def GUARD_LOG_COL : Fld := ⟨3, 0, .ro, 0, []⟩
def HR_CTL_EN : Fld := ⟨31, 31, .rws, 0, []⟩
def HR_CTL_BITS : Fld := ⟨30, 30, .rws, 0, []⟩
def HR_CTL_SHIFT : Fld := ⟨26, 24, .rws, 0, [(0, 4)]⟩
def HR_CTL_DEPTH_LOG : Fld := ⟨20, 16, .rws, 0, [(10, 16)]⟩
def HR_BASE_LO_BASE_LO : Fld := ⟨31, 16, .rws, 0, []⟩
def HR_BASE_HI_BASE_HI : Fld := ⟨7, 0, .rws, 0, []⟩
def HR_SKIP_COUNT : Fld := ⟨31, 0, .ro, 0, []⟩
def RP_CTL_GO : Fld := ⟨31, 31, .sc, 0, []⟩
def RP_CTL_COUNT : Fld := ⟨27, 24, .rw, 0, []⟩
def RP_CTL_NPRIME : Fld := ⟨23, 20, .rw, 0, []⟩
def RP_CTL_SRC : Fld := ⟨4, 0, .rw, 0, [(0, 16)]⟩
def RP_LINE_LO_LO : Fld := ⟨31, 0, .rw, 0, []⟩
def RP_LINE_HI_HI : Fld := ⟨31, 0, .rw, 0, []⟩
def RP_STAT_BUSY : Fld := ⟨31, 31, .ro, 0, []⟩
def RP_STAT_DONE : Fld := ⟨30, 30, .w1c, 0, []⟩
def RP_STAT_COPIED : Fld := ⟨23, 16, .ro, 0, []⟩
def RP_STAT_MISSING : Fld := ⟨15, 8, .ro, 0, []⟩
def TRK_CTL_LOW_MARK : Fld := ⟨14, 0, .rw, 0, []⟩
def TRK_STAT_BUSY : Fld := ⟨29, 15, .ro, 0, []⟩
def TRK_STAT_FREE : Fld := ⟨14, 0, .ro, 0x4000, []⟩
def TRK_RUNS_IN_COUNT : Fld := ⟨31, 0, .ro, 0, []⟩
def TRK_RECORDS_COUNT : Fld := ⟨31, 0, .ro, 0, []⟩
def TRK_RUNS_DROP_COUNT : Fld := ⟨31, 0, .ro, 0, []⟩
def TRK_DUP_COUNT : Fld := ⟨31, 0, .ro, 0, []⟩
def TRK_LEDGER_HOLD_COUNT : Fld := ⟨31, 0, .ro, 0, []⟩
def TRK_REPEAT_HOLD_COUNT : Fld := ⟨31, 0, .ro, 0, []⟩
def TRK_ECC_CORR : Fld := ⟨31, 16, .ro, 0, []⟩
def TRK_ECC_UNCORR : Fld := ⟨15, 0, .ro, 0, []⟩
def TRK_NEXT_ID_ID : Fld := ⟨31, 0, .ro, 0, []⟩
def TRK_CLASS_MARK_EN : Fld := ⟨31, 31, .rw, 0, []⟩
def TRK_CLASS_CROP_EN : Fld := ⟨30, 30, .rw, 0, []⟩
def TRK_CLASS_REPEAT_EN : Fld := ⟨29, 29, .rw, 0, []⟩
def TRK_CLASS_STREAM_EN : Fld := ⟨28, 28, .rw, 0, []⟩
def TRK_CLASS_MARK_OUT : Fld := ⟨20, 16, .rw, 0, []⟩
def TRK_DOM_CTL_EN : Fld := ⟨31, 31, .rws, 0, []⟩
def TRK_DOM_CTL_SEAM_JOIN : Fld := ⟨30, 30, .rws, 0, []⟩
def TRK_DOM_CTL_CONN8 : Fld := ⟨29, 29, .rws, 0, []⟩
def TRK_DOM_CTL_GAP : Fld := ⟨23, 16, .rws, 0, [(1, 255)]⟩
def TRK_DOM_CTL_MAX_LEN : Fld := ⟨15, 0, .rws, 0, [(1, 65535)]⟩
def TRK_DOM_CTX_CTX_MAX : Fld := ⟨14, 0, .rws, 0, [(1, 16384)]⟩
def TRK_DOM_FLOOD_RUNS_MAX : Fld := ⟨31, 16, .rw, 0, [(1, 65535)]⟩
def TRK_DOM_FLOOD_HOLD_MAX : Fld := ⟨15, 0, .rw, 0, [(64, 65535)]⟩
def TRK_DOM_EXIT_EXIT_RUNS : Fld := ⟨31, 16, .rw, 0, []⟩
def TRK_DOM_EXIT_EXIT_LINES : Fld := ⟨15, 8, .rw, 0, [(1, 255)]⟩
def TRK_DOM_EXIT_ALARM_LINES : Fld := ⟨7, 0, .rw, 0, [(1, 255)]⟩
def TRK_DOM_STAT_STATE : Fld := ⟨31, 30, .ro, 0, []⟩
def TRK_DOM_STAT_CAUSE : Fld := ⟨29, 27, .ro, 0, []⟩
def TRK_DOM_STAT_OPEN : Fld := ⟨14, 0, .ro, 0, []⟩
def TRK_DOM_LINE_LO_LO : Fld := ⟨31, 0, .ro, 0, []⟩
def TRK_DOM_LINE_HI_HI : Fld := ⟨31, 0, .ro, 0, []⟩
def TRK_DOM_FLOODS_COUNT : Fld := ⟨31, 0, .ro, 0, []⟩
def LG_CTL_EN : Fld := ⟨31, 31, .rw, 0, []⟩
def LG_CTL_BUCKET_LOG : Fld := ⟨20, 16, .rws, 0, [(0, 16)]⟩
def LG_BASE_BASE : Fld := ⟨9, 0, .rws, 0, []⟩
def LG_STAT_READY : Fld := ⟨31, 31, .ro, 0, []⟩
def LG_STAT_INFLIGHT : Fld := ⟨4, 0, .ro, 0, []⟩
def LG_NEXT_LO_LO : Fld := ⟨31, 0, .ro, 1, []⟩
def LG_NEXT_HI_HI : Fld := ⟨31, 0, .ro, 0, []⟩
def LG_OLDEST_LO_LO : Fld := ⟨31, 0, .ro, 1, []⟩
def LG_OLDEST_HI_HI : Fld := ⟨31, 0, .ro, 0, []⟩
def LG_SEG_CTL_GO : Fld := ⟨31, 31, .sc, 0, []⟩
def LG_SEG_CTL_MODE : Fld := ⟨0, 0, .rw, 0, []⟩
def LG_SEG_COUNT : Fld := ⟨31, 0, .ro, 0, []⟩
def LG_SEG_FIRST_LO_LO : Fld := ⟨31, 0, .ro, 1, []⟩
def LG_SEG_FIRST_HI_HI : Fld := ⟨31, 0, .ro, 0, []⟩
def LG_SEG_LINE_LO_LO : Fld := ⟨31, 0, .rw, 0, []⟩
def LG_SEG_LINE_HI_HI : Fld := ⟨31, 0, .rw, 0, []⟩
def LG_WRITES_COUNT : Fld := ⟨31, 0, .ro, 0, []⟩
def RF_CTL_EN : Fld := ⟨31, 31, .rw, 0, []⟩
def RF_CTL_VISIT_MAX : Fld := ⟨11, 4, .rws, 0, [(1, 255)]⟩
def RF_CTL_MIN_HITS : Fld := ⟨3, 0, .rws, 0, [(1, 8)]⟩
def RF_CHAINS_COUNT : Fld := ⟨31, 0, .ro, 0, []⟩
def RF_TRUNC_COUNT : Fld := ⟨31, 0, .ro, 0, []⟩
def RF_UNREAD_COUNT : Fld := ⟨31, 0, .ro, 0, []⟩
def RF_SLOT_EN : Fld := ⟨31, 31, .rws, 0, []⟩
def RF_SLOT_DEPTH : Fld := ⟨19, 16, .rws, 0, [(1, 8)]⟩
def RF_SLOT_CLASSES : Fld := ⟨15, 0, .rws, 0, []⟩
def RF_PITCH_LO_PITCH_INT_LO : Fld := ⟨31, 16, .rws, 0, []⟩
def RF_PITCH_LO_PITCH_FRAC : Fld := ⟨15, 0, .rws, 0, []⟩
def RF_PITCH_HI_PITCH_INT_HI : Fld := ⟨15, 0, .rws, 0, []⟩
def RF_TOL_TOL_ALONG : Fld := ⟨30, 16, .rws, 0, []⟩
def RF_TOL_TOL_ACROSS : Fld := ⟨9, 0, .rws, 0, []⟩
def CR_CTL_EN : Fld := ⟨31, 31, .rw, 0, []⟩
def CR_CTL_DS_MAX : Fld := ⟨30, 30, .rws, 0, []⟩
def CR_CTL_MARGIN : Fld := ⟨7, 0, .rws, 0, []⟩
def CR_TMO_US : Fld := ⟨15, 0, .rw, 0, []⟩
def CR_STORE_BASE : Fld := ⟨31, 14, .rws, 0, []⟩
def CR_STORE_SIZE_LOG : Fld := ⟨5, 0, .rws, 0, [(26, 32)]⟩
def CR_CROPS_COUNT : Fld := ⟨31, 0, .ro, 0, []⟩
def CR_STORE_WAIT_COUNT : Fld := ⟨31, 0, .ro, 0, []⟩
def SC_CTL_EN : Fld := ⟨31, 31, .rw, 0, []⟩
def SC_CTL_INV : Fld := ⟨30, 30, .rw, 0, []⟩
def SC_CTL_Z_EN : Fld := ⟨29, 29, .rw, 0, []⟩
def SC_CTL_FILT : Fld := ⟨25, 24, .rw, 0, []⟩
def SC_CTL_REV_HYST : Fld := ⟨23, 16, .rw, 0, []⟩
def SC_STAT_DIR : Fld := ⟨31, 31, .ro, 0, []⟩
def SC_STAT_MOVING : Fld := ⟨30, 30, .ro, 0, []⟩
def SC_STAT_Z_VALID : Fld := ⟨29, 29, .ro, 0, []⟩
def SC_STAT_LEVELS : Fld := ⟨26, 24, .ro, 0, []⟩
def SC_POS_LO_LO : Fld := ⟨31, 0, .ro, 0, []⟩
def SC_POS_HI_HI : Fld := ⟨15, 0, .ro, 0, []⟩
def SC_ZCAP_LO_LO : Fld := ⟨31, 0, .ro, 0, []⟩
def SC_ZCAP_HI_HI : Fld := ⟨15, 0, .ro, 0, []⟩
def SC_ZCHK_ZTOL : Fld := ⟨31, 24, .rw, 0, []⟩
def SC_ZCHK_ZPER : Fld := ⟨23, 0, .rw, 0, []⟩
def SC_RATE_RATE : Fld := ⟨31, 0, .ro, 0, []⟩
def SC_ERR_ILLEGAL : Fld := ⟨31, 16, .ro, 0, []⟩
def SC_ERR_ZCOUNT : Fld := ⟨15, 8, .ro, 0, []⟩
def SC_STALL_MS : Fld := ⟨15, 0, .rw, 0, []⟩
def SO_CTL_INV : Fld := ⟨27, 27, .rw, 0, []⟩
def SO_CTL_MODE : Fld := ⟨26, 24, .rw, 0, [(0, 6)]⟩
def SO_CTL_LEVEL : Fld := ⟨23, 23, .rw, 0, []⟩
def SO_CTL_GROUP : Fld := ⟨18, 16, .rw, 0, []⟩
def SO_DELAY_DELAY : Fld := ⟨19, 0, .rw, 0, []⟩
def SO_WIDTH_WIDTH : Fld := ⟨26, 0, .rw, 0, [(1, 134217727)]⟩
def ACT_DIST_LO_LO : Fld := ⟨31, 0, .rw, 0, []⟩
def ACT_DIST_HI_HI : Fld := ⟨31, 0, .rw, 0, []⟩
def ACT_PREPOST_POST : Fld := ⟨31, 16, .rw, 0, []⟩
def ACT_PREPOST_PRE : Fld := ⟨15, 0, .rw, 0, []⟩
def ACT_LEAD_LEAD : Fld := ⟨23, 0, .rw, 0, []⟩
def ACT_LATE_LATE : Fld := ⟨15, 0, .rw, 0, []⟩
def TG_CTL_START : Fld := ⟨31, 31, .sc, 0, []⟩
def TG_CTL_STOP : Fld := ⟨30, 30, .sc, 0, []⟩
def TG_CTL_INTERP : Fld := ⟨29, 29, .rw, 0, []⟩
def TG_CTL_PLEN_M1 : Fld := ⟨27, 24, .rw, 0, []⟩
def TG_CTL_SRC : Fld := ⟨20, 16, .rws, 0, [(0, 17)]⟩
def TG_STAT_STATE : Fld := ⟨31, 30, .ro, 0, []⟩
def TG_STAT_DELAYED : Fld := ⟨29, 29, .ro, 0, []⟩
def TG_HEADS_HEADS : Fld := ⟨15, 0, .rw, 0, []⟩
def TG_PITCH_PITCH : Fld := ⟨31, 0, .rw, 0, [(16384, 4294967295)]⟩
def TG_ORIGIN_LO_LO : Fld := ⟨31, 0, .rws, 0, []⟩
def TG_ORIGIN_HI_HI : Fld := ⟨31, 0, .rws, 0, []⟩
def TG_MINPER_MINPER : Fld := ⟨19, 0, .rw, 0, []⟩
def TG_INTRATE_RATE : Fld := ⟨31, 0, .rw, 0, []⟩
def TG_INDEX_LO_LO : Fld := ⟨31, 0, .ro, 0, []⟩
def TG_INDEX_HI_HI : Fld := ⟨31, 0, .ro, 0, []⟩
def TG_SKIP_COUNT : Fld := ⟨31, 0, .ro, 0, []⟩
def TG_PROG_STROBE : Fld := ⟨31, 31, .rw, 0, []⟩
def TG_PROG_EXP_CODE : Fld := ⟨15, 0, .rw, 0, []⟩
def TM_NOW_LO_LO : Fld := ⟨31, 0, .ro, 0, []⟩
def TM_NOW_HI_HI : Fld := ⟨31, 0, .ro, 0, []⟩
def TM_EPOCH_LO_LO : Fld := ⟨31, 0, .rw, 0, []⟩
def TM_EPOCH_HI_HI : Fld := ⟨31, 0, .rw, 0, []⟩
def TM_STAT_ROLE : Fld := ⟨31, 30, .ro, 0, []⟩
def TM_STAT_LOCKED : Fld := ⟨29, 29, .ro, 0, []⟩
def TM_STAT_EPOCH_SET : Fld := ⟨28, 28, .ro, 0, []⟩
def PTP_CTL_PORTS : Fld := ⟨31, 24, .rw, 0, []⟩
def PTP_CTL_PTP_TS : Fld := ⟨23, 23, .rw, 0, []⟩
def PTP_CTL_UTC_VALID : Fld := ⟨22, 22, .rw, 0, []⟩
def PTP_CTL_TRANSPORT : Fld := ⟨21, 20, .rw, 0, []⟩
def PTP_CTL_DOMAIN : Fld := ⟨6, 0, .rw, 0, []⟩
def PTP_INT_LOG_ANN : Fld := ⟨23, 16, .rw, 0, [(0, 4)]⟩
def PTP_INT_LOG_SYNC : Fld := ⟨15, 8, .rw, 0, [(0, 1), (255, 255)]⟩
def PTP_INT_LOG_DREQ : Fld := ⟨7, 0, .rw, 0, [(0, 5)]⟩
def PTP_QUAL_PRIORITY1 : Fld := ⟨31, 24, .rw, 0, []⟩
def PTP_QUAL_PRIORITY2 : Fld := ⟨23, 16, .rw, 0, []⟩
def PTP_QUAL_CLOCK_CLASS : Fld := ⟨15, 8, .rw, 0, []⟩
def PTP_QUAL_CLOCK_ACC : Fld := ⟨7, 0, .rw, 0, []⟩
def PTP_UTC_UTC_OFFSET : Fld := ⟨15, 0, .rw, 0, []⟩
def PTP_SYNC_TX_COUNT : Fld := ⟨31, 0, .ro, 0, []⟩
def PTP_DREQ_RX_COUNT : Fld := ⟨31, 0, .ro, 0, []⟩
def PTP_DISCARD_COUNT : Fld := ⟨31, 0, .ro, 0, []⟩
def AS_CTL_FLUSH : Fld := ⟨31, 31, .sc, 0, []⟩
def AS_STAT_PENDING : Fld := ⟨8, 0, .ro, 0, []⟩
def AS_FIRED_COUNT : Fld := ⟨31, 0, .ro, 0, []⟩
def AS_LATE_COUNT : Fld := ⟨31, 0, .ro, 0, []⟩
def AS_DROP_COUNT : Fld := ⟨31, 0, .ro, 0, []⟩
def AS_REFUSED_COUNT : Fld := ⟨31, 0, .ro, 0, []⟩
def AS_POST_CTL_GO : Fld := ⟨31, 31, .sc, 0, []⟩
def AS_POST_CTL_RESULT : Fld := ⟨30, 29, .ro, 0, []⟩
def AS_POST_CTL_OUT : Fld := ⟨4, 0, .rw, 0, []⟩
def AS_POST_LO_LO : Fld := ⟨31, 0, .rw, 0, []⟩
def AS_POST_HI_HI : Fld := ⟨31, 0, .rw, 0, []⟩
def CW_CTL_FLIP : Fld := ⟨31, 31, .sc, 0, []⟩
def CW_STAT_EPOCH : Fld := ⟨31, 31, .ro, 0, []⟩
def CW_STAT_DRAINED : Fld := ⟨30, 30, .ro, 1, []⟩
def CW_WRR_W1 : Fld := ⟨23, 16, .rw, 0, [(1, 255)]⟩
def CW_WRR_W3 : Fld := ⟨15, 8, .rw, 0, [(1, 255)]⟩
def CW_WRR_W2 : Fld := ⟨7, 0, .rw, 0, [(1, 255)]⟩
def RT_DRAIN_COUNT : Fld := ⟨7, 0, .ro, 0, []⟩
def RT_TABLE_OUT7 : Fld := ⟨31, 28, .rw, 0, []⟩
def RT_TABLE_OUT6 : Fld := ⟨27, 24, .rw, 0, []⟩
def RT_TABLE_OUT5 : Fld := ⟨23, 20, .rw, 0, []⟩
def RT_TABLE_OUT4 : Fld := ⟨19, 16, .rw, 0, []⟩
def RT_TABLE_OUT3 : Fld := ⟨15, 12, .rw, 0, []⟩
def RT_TABLE_OUT2 : Fld := ⟨11, 8, .rw, 0, []⟩
def RT_TABLE_OUT1 : Fld := ⟨7, 4, .rw, 0, []⟩
def RT_TABLE_OUT0 : Fld := ⟨3, 0, .rw, 0, []⟩
def CW_EP_CTL_ISOLATE : Fld := ⟨31, 31, .sc, 0, []⟩
def CW_EP_CTL_RELEASE : Fld := ⟨30, 30, .sc, 0, []⟩
def CW_EP_CTL_C0_EN : Fld := ⟨29, 29, .rws, 0, []⟩
def CW_EP_CTL_DRAIN_LIMIT : Fld := ⟨15, 0, .rw, 0x100, [(32, 65535)]⟩
def CW_EP_STAT_STATE : Fld := ⟨31, 30, .ro, 0, []⟩
def CW_EP_STAT_X : Fld := ⟨7, 5, .ro, 0, []⟩
def CW_EP_STAT_Y : Fld := ⟨4, 2, .ro, 0, []⟩
def CW_EP_STAT_PORT : Fld := ⟨1, 0, .ro, 0, []⟩
def CW_EP_TAG_TAG : Fld := ⟨15, 0, .rw, 0, []⟩
def PRB_STRAY_COUNT : Fld := ⟨31, 0, .ro, 0, []⟩
def PRB_ISO_COUNT : Fld := ⟨31, 0, .ro, 0, []⟩
def PRB_STALE_COUNT : Fld := ⟨31, 0, .ro, 0, []⟩
def PRB_SHAPE_COUNT : Fld := ⟨31, 0, .ro, 0, []⟩
def PRB_C0_DROP_COUNT : Fld := ⟨31, 0, .ro, 0, []⟩
def PIER_ECC_CORR : Fld := ⟨31, 16, .ro, 0, []⟩
def PIER_ECC_UNCORR : Fld := ⟨15, 0, .ro, 0, []⟩
def PIER_SPAN_STALL_COUNT : Fld := ⟨31, 0, .ro, 0, []⟩
def PIER_CONF_COUNT : Fld := ⟨31, 0, .ro, 0, []⟩
def PRB_FLT_CTL_EN : Fld := ⟨31, 31, .rw, 0, []⟩
def PRB_FLT_CTL_SIDE : Fld := ⟨30, 30, .rws, 0, []⟩
def PRB_FLT_CTL_ADDR_EN : Fld := ⟨29, 29, .rws, 0, []⟩
def PRB_FLT_CTL_ROUTER : Fld := ⟨28, 23, .rws, 0, [(0, 47)]⟩
def PRB_FLT_CTL_PORT : Fld := ⟨22, 20, .rws, 0, []⟩
def PRB_FLT_CTL_VC : Fld := ⟨19, 18, .rws, 0, []⟩
def PRB_FLT_CTL_PRIOS : Fld := ⟨17, 14, .rws, 0, []⟩
def PRB_FLT_TAG_TAG_MASK : Fld := ⟨31, 16, .rws, 0, []⟩
def PRB_FLT_TAG_TAG : Fld := ⟨15, 0, .rws, 0, []⟩
def PRB_FLT_ALO_KINDS : Fld := ⟨29, 24, .rws, 0, []⟩
def PRB_FLT_ALO_ALO : Fld := ⟨23, 0, .rws, 0, []⟩
def PRB_FLT_AHI_AHI : Fld := ⟨23, 0, .rws, 0, []⟩
def PRB_FLT_HEADS_COUNT : Fld := ⟨31, 0, .ro, 0, []⟩
def PRB_FLT_FLITS_COUNT : Fld := ⟨31, 0, .ro, 0, []⟩
def TRC_CTL_ARM : Fld := ⟨31, 31, .sc, 0, []⟩
def TRC_CTL_STOP : Fld := ⟨30, 30, .sc, 0, []⟩
def TRC_CTL_FILTER : Fld := ⟨23, 20, .rws, 0, []⟩
def TRC_CTL_TRIG : Fld := ⟨19, 16, .rws, 0, []⟩
def TRC_CTL_POST : Fld := ⟨10, 0, .rws, 0, [(0, 1023)]⟩
def TRC_STAT_ARMED : Fld := ⟨31, 31, .ro, 0, []⟩
def TRC_STAT_TRIGGERED : Fld := ⟨30, 30, .ro, 0, []⟩
def TRC_STAT_WRAPPED : Fld := ⟨29, 29, .ro, 0, []⟩
def TRC_STAT_NEXT : Fld := ⟨9, 0, .ro, 0, []⟩
def KP_CTL_RUN : Fld := ⟨31, 31, .rw, 0, []⟩
def KP_CTL_EI : Fld := ⟨30, 30, .rw, 0, []⟩
def KP_CTL_OWN_HOLD : Fld := ⟨29, 29, .rw, 0, []⟩
def KP_STAT_LEVEL : Fld := ⟨31, 30, .ro, 0, []⟩
def KP_STAT_MODE : Fld := ⟨29, 29, .ro, 0, []⟩
def KP_STAT_WAITING : Fld := ⟨28, 28, .ro, 0, []⟩
def KP_STAT_DZ : Fld := ⟨27, 27, .w1c, 0, []⟩
def KP_STAT_VEC : Fld := ⟨23, 16, .ro, 0, []⟩
def KP_STAT_DEPTH : Fld := ⟨1, 0, .ro, 0, []⟩
def KP_PC_PC : Fld := ⟨31, 0, .ro, 0, []⟩
def KP_EVT_EVT : Fld := ⟨31, 0, .ro, 0, []⟩
def KP_WIN0_BASE : Fld := ⟨9, 0, .rw, 0, []⟩
def KP_WIN1_BASE : Fld := ⟨9, 0, .rw, 0, []⟩
def KP_OWIN0_BASE : Fld := ⟨9, 0, .rw, 0, []⟩
def KP_OWIN1_BASE : Fld := ⟨9, 0, .rw, 0, []⟩
def KP_SPLIM_OLIM : Fld := ⟨31, 16, .rw, 0, []⟩
def KP_SPLIM_FLIM : Fld := ⟨15, 0, .rw, 0, []⟩
def KP_C0_LIMIT_LIMIT : Fld := ⟨15, 0, .rw, 0, []⟩
def KEEPER_ILLEGAL_COUNT : Fld := ⟨31, 0, .ro, 0, []⟩
def KP_STRAY_ADDR : Fld := ⟨31, 16, .ro, 0, []⟩
def KP_STRAY_DENIED : Fld := ⟨15, 0, .ro, 0, []⟩
def KP_DISPATCH_COUNT : Fld := ⟨31, 0, .ro, 0, []⟩
def KP_ECC_CORR : Fld := ⟨31, 16, .ro, 0, []⟩
def KP_ECC_UNCORR : Fld := ⟨15, 0, .ro, 0, []⟩
def KP_ORANGE_LO_EN : Fld := ⟨31, 31, .rw, 0, []⟩
def KP_ORANGE_LO_START : Fld := ⟨23, 0, .rw, 0, []⟩
def KP_ORANGE_HI_END : Fld := ⟨23, 0, .rw, 0, []⟩
def EH_RAISE_SW : Fld := ⟨2, 0, .wo, 0, []⟩
def EH_RAISE_PAY_PAY : Fld := ⟨31, 0, .rw, 0, []⟩
def EH_COAL_COUNT : Fld := ⟨31, 0, .ro, 0, []⟩
def EH_UNROUTED_COUNT : Fld := ⟨31, 0, .ro, 0, []⟩
def EH_TGT_DROP_OUT : Fld := ⟨31, 16, .ro, 0, []⟩
def EH_TGT_DROP_SPC : Fld := ⟨15, 0, .ro, 0, []⟩
def EH_SRC_K_EN : Fld := ⟨31, 31, .rw, 0, []⟩
def EH_SRC_KEEPER : Fld := ⟨30, 29, .rw, 0, []⟩
def EH_SRC_VEC : Fld := ⟨28, 21, .rw, 0, []⟩
def EH_SRC_ABUT : Fld := ⟨20, 20, .rw, 0, []⟩
def EH_SRC_OUT_EN : Fld := ⟨19, 19, .rw, 0, []⟩
def EH_SRC_OUT : Fld := ⟨18, 14, .rw, 0, []⟩
def EH_SRC_SPC_EN : Fld := ⟨13, 13, .rw, 0, []⟩
def EH_SRC_ROLE : Fld := ⟨12, 8, .rw, 0, []⟩
def EH_SRC_LINE : Fld := ⟨7, 5, .rw, 0, []⟩
def EH_SRC_PRI : Fld := ⟨4, 3, .rw, 0, []⟩
def EH_PEND_KPEND : Fld := ⟨31, 31, .w1c, 0, []⟩
def EH_PEND_APEND : Fld := ⟨30, 30, .w1c, 0, []⟩
def EH_PEND_CLASS : Fld := ⟨29, 28, .ro, 0, []⟩
def EH_PEND_KCOUNT : Fld := ⟨25, 18, .ro, 0, []⟩
def EH_PEND_ACOUNT : Fld := ⟨17, 10, .ro, 0, []⟩
def EH_PAY_PAY : Fld := ⟨31, 0, .ro, 0, []⟩
def HP_CTL_I2C_FAST : Fld := ⟨11, 11, .rw, 0, []⟩
def HP_CTL_FLT_OFF : Fld := ⟨10, 10, .rw, 0, []⟩
def HP_CTL_RETRAIN : Fld := ⟨9, 9, .sc, 0, []⟩
def HP_CTL_RELEASE : Fld := ⟨8, 8, .sc, 0, []⟩
def HP_CTL_ATTACH : Fld := ⟨7, 7, .sc, 0, []⟩
def HP_CTL_LANES : Fld := ⟨5, 4, .rws, 0, [(0, 2)]⟩
def HP_CTL_RATE : Fld := ⟨3, 3, .rws, 0, []⟩
def HP_CTL_AUTO : Fld := ⟨2, 2, .rw, 0, []⟩
def HP_CTL_ENABLE : Fld := ⟨0, 0, .rw, 0, []⟩
def HP_STAT_STATE : Fld := ⟨31, 28, .ro, 0, []⟩
def HP_STAT_CAUSE : Fld := ⟨27, 24, .ro, 0, []⟩
def HP_STAT_PRESENT : Fld := ⟨23, 23, .ro, 0, []⟩
def HP_STAT_FAULT : Fld := ⟨22, 22, .ro, 0, []⟩
def HP_STAT_HPEN : Fld := ⟨21, 21, .ro, 0, []⟩
def HP_STAT_LOCK : Fld := ⟨19, 16, .ro, 0, []⟩
def HP_TRG_PKT_EN : Fld := ⟨16, 16, .rw, 0, []⟩
def HP_TRG_PIN_EN : Fld := ⟨15, 15, .rw, 0, []⟩
def HP_TRG_WIDTH : Fld := ⟨7, 0, .rw, 0, [(1, 255)]⟩
def HP_TMO_PKT_US : Fld := ⟨15, 0, .rw, 0, []⟩
def HP_SKEW_LANE3 : Fld := ⟨31, 24, .ro, 0, []⟩
def HP_SKEW_LANE2 : Fld := ⟨23, 16, .ro, 0, []⟩
def HP_SKEW_LANE1 : Fld := ⟨15, 8, .ro, 0, []⟩
def HP_SKEW_LANE0 : Fld := ⟨7, 0, .ro, 0, []⟩
def HP_CC_CTL_GO : Fld := ⟨31, 31, .sc, 0, []⟩
def HP_CC_CTL_DONE : Fld := ⟨30, 30, .w1c, 0, []⟩
def HP_CC_CTL_ERR : Fld := ⟨29, 29, .w1c, 0, []⟩
def HP_CC_CTL_ALERT : Fld := ⟨28, 28, .w1c, 0, []⟩
def HP_CC_CTL_RX_LEN : Fld := ⟨15, 8, .ro, 0, []⟩
def HP_CC_CTL_TX_LEN : Fld := ⟨7, 0, .rw, 0, [(0, 58)]⟩
def HP_PKT_OK_COUNT : Fld := ⟨31, 0, .ro, 0, []⟩
def HP_PKT_DMG_COUNT : Fld := ⟨31, 0, .ro, 0, []⟩
def HP_INGEST_DROP_COUNT : Fld := ⟨31, 0, .ro, 0, []⟩
def HP_OVERRUN_COUNT : Fld := ⟨31, 0, .ro, 0, []⟩
def HP_LOST_COUNT : Fld := ⟨31, 0, .ro, 0, []⟩
def HP_ERR_STRAY_PKT : Fld := ⟨31, 24, .ro, 0, []⟩
def HP_ERR_BAD_CTRL : Fld := ⟨23, 16, .ro, 0, []⟩
def HP_ERR_LOCK_LOSS : Fld := ⟨15, 12, .ro, 0, []⟩
def HP_ERR_CC_CRC : Fld := ⟨11, 8, .ro, 0, []⟩
def HP_ERR_FAST : Fld := ⟨7, 0, .ro, 0, []⟩
def LP_CTL_EN : Fld := ⟨31, 31, .rw, 0, []⟩
def LP_CTL_RATE : Fld := ⟨30, 30, .rws, 0, []⟩
def LP_CTL_FEC : Fld := ⟨29, 29, .rws, 0, []⟩
def LP_CTL_JUMBO : Fld := ⟨28, 28, .rws, 0, []⟩
def LP_CTL_ICMP : Fld := ⟨27, 27, .rw, 0, []⟩
def LP_STAT_LINK : Fld := ⟨31, 31, .ro, 0, []⟩
def LP_STAT_BLOCK_LOCK : Fld := ⟨30, 30, .ro, 0, []⟩
def LP_STAT_FEC_LOCK : Fld := ⟨29, 29, .ro, 0, []⟩
def LP_STAT_FALLBACK : Fld := ⟨28, 28, .ro, 0, []⟩
def LP_IP_ADDR : Fld := ⟨31, 0, .rws, 0, []⟩
def LP_MASK_ADDR : Fld := ⟨31, 0, .rws, 0, []⟩
def LP_GW_ADDR : Fld := ⟨31, 0, .rws, 0, []⟩
def LP_MAC_LO_MAC_LO : Fld := ⟨31, 0, .ro, 0, []⟩
def LP_MAC_HI_MAC_HI : Fld := ⟨15, 0, .ro, 0, []⟩
def LP_RX_OK_COUNT : Fld := ⟨31, 0, .ro, 0, []⟩
def LP_TX_OK_COUNT : Fld := ⟨31, 0, .ro, 0, []⟩
def LP_RX_FCS_COUNT : Fld := ⟨31, 0, .ro, 0, []⟩
def LP_RX_DISCARD_COUNT : Fld := ⟨31, 0, .ro, 0, []⟩
def LP_FEC_CORR : Fld := ⟨31, 16, .ro, 0, []⟩
def LP_FEC_UNCORR : Fld := ⟨15, 0, .ro, 0, []⟩
def LP_RN_AUTH_COUNT : Fld := ⟨31, 0, .ro, 0, []⟩
def LP_RN_REPLAY_COUNT : Fld := ⟨31, 0, .ro, 0, []⟩
def RN_CTL_REC_ENC : Fld := ⟨31, 31, .rw, 0, []⟩
def RN_CTL_CROP_ENC : Fld := ⟨30, 30, .rw, 0, []⟩
def RN_CTL_RTO_MS : Fld := ⟨23, 16, .rw, 0, [(1, 255)]⟩
def RN_CTL_CROP_HOLD_MS : Fld := ⟨15, 0, .rw, 0, [(1, 65535)]⟩
def RN_SESS_STAT_STATE : Fld := ⟨31, 30, .ro, 0, []⟩
def RN_SESS_STAT_PORT : Fld := ⟨29, 27, .ro, 0, []⟩
def RN_SESS_STAT_SUBS : Fld := ⟨12, 9, .ro, 0, []⟩
def RN_SESS_STAT_RIGHTS : Fld := ⟨8, 0, .ro, 0, []⟩
def RN_SESS_ID_SESSION : Fld := ⟨31, 0, .ro, 0, []⟩
def RN_SESS_PEER_PEER : Fld := ⟨31, 0, .ro, 0, []⟩
def RN_SESS_CRED_CRED_NO : Fld := ⟨31, 0, .ro, 0, []⟩
def RN_SESS_DROP_RECORDS : Fld := ⟨31, 16, .ro, 0, []⟩
def RN_SESS_DROP_CROPS : Fld := ⟨15, 8, .ro, 0, []⟩
def RN_SESS_DROP_NOTIFY : Fld := ⟨7, 0, .ro, 0, []⟩
def SL_CTL_EN : Fld := ⟨31, 31, .rw, 0, []⟩
def SL_CTL_POS : Fld := ⟨30, 28, .rws, 0, []⟩
def SL_CTL_SIZE_M1 : Fld := ⟨27, 25, .rws, 0, []⟩
def SL_CTL_MASTER : Fld := ⟨24, 22, .rws, 0, []⟩
def SL_CTL_LANES_E : Fld := ⟨21, 20, .rws, 0, []⟩
def SL_CTL_LANES_W : Fld := ⟨19, 18, .rws, 0, []⟩
def SL_STAT_STATE_E : Fld := ⟨31, 30, .ro, 0, []⟩
def SL_STAT_STATE_W : Fld := ⟨29, 28, .ro, 0, []⟩
def SL_STAT_LANES_UP_E : Fld := ⟨27, 24, .ro, 0, []⟩
def SL_STAT_LANES_UP_W : Fld := ⟨23, 20, .ro, 0, []⟩
def SL_DELAY_DELAY : Fld := ⟨15, 0, .rws, 0, []⟩
def SL_HALO_NCOL : Fld := ⟨30, 24, .rws, 0, []⟩
def SL_HALO_NPL : Fld := ⟨22, 16, .rws, 0, []⟩
def SL_HALO_ROW : Fld := ⟨10, 0, .rws, 0, []⟩
def SL_OFFSET_OFFSET : Fld := ⟨31, 0, .ro, 0, []⟩
def SL_ERR_CRC : Fld := ⟨31, 16, .ro, 0, []⟩
def SL_ERR_RETRAIN : Fld := ⟨15, 8, .ro, 0, []⟩
def SL_LATE_COUNT : Fld := ⟨31, 0, .ro, 0, []⟩
def D5_CTL_SCRUB_EN : Fld := ⟨31, 31, .rw, 0, []⟩
def D5_CTL_SPARE_AUTO : Fld := ⟨30, 30, .rw, 0, []⟩
def D5_CTL_SPARE_THRESH : Fld := ⟨23, 16, .rw, 0, [(1, 255)]⟩
def D5_CTL_SCRUB_HOURS : Fld := ⟨15, 8, .rw, 0, [(1, 255)]⟩
def D5_STAT_STATE : Fld := ⟨31, 30, .ro, 0, []⟩
def D5_STAT_CAUSE : Fld := ⟨29, 27, .ro, 0, []⟩
def D5_STAT_HOT : Fld := ⟨26, 26, .ro, 0, []⟩
def D5_CFG_RATE : Fld := ⟨31, 30, .ro, 0, []⟩
def D5_CFG_WIDTH : Fld := ⟨29, 29, .ro, 0, []⟩
def D5_CFG_RANKS : Fld := ⟨28, 28, .ro, 0, []⟩
def D5_CFG_DENSITY : Fld := ⟨27, 24, .ro, 0, []⟩
def D5_CFG_MODULE : Fld := ⟨23, 23, .ro, 0, []⟩
def D5_ECC_CORR : Fld := ⟨31, 16, .ro, 0, []⟩
def D5_ECC_UNCORR : Fld := ⟨15, 0, .ro, 0, []⟩
def D5_ERR_LO_ADDR_LO : Fld := ⟨31, 0, .ro, 0, []⟩
def D5_ERR_HI_VALID : Fld := ⟨31, 31, .w1c, 0, []⟩
def D5_ERR_HI_UNCORR : Fld := ⟨30, 30, .ro, 0, []⟩
def D5_ERR_HI_SCRUB : Fld := ⟨29, 29, .ro, 0, []⟩
def D5_ERR_HI_ADDR_HI : Fld := ⟨7, 0, .ro, 0, []⟩
def D5_SCRUB_PASSES : Fld := ⟨31, 16, .ro, 0, []⟩
def D5_SCRUB_PROGRESS : Fld := ⟨15, 0, .ro, 0, []⟩
def D5_SPARE_USED : Fld := ⟨15, 8, .ro, 0, []⟩
def D5_SPARE_FREE : Fld := ⟨7, 0, .ro, 0x40, []⟩
def D5_TEMP_TEMP : Fld := ⟨7, 0, .ro, 0, []⟩
def D5_MAP_READY : Fld := ⟨31, 31, .ro, 0, []⟩
def D5_MAP_USED_GIB : Fld := ⟨12, 8, .ro, 0, []⟩
def D5_MAP_CHANNELS : Fld := ⟨1, 0, .ro, 0, []⟩
def DC_RSTCAUSE_RAIL : Fld := ⟨7, 4, .ro, 0, []⟩
def DC_RSTCAUSE_CAUSE : Fld := ⟨2, 0, .ro, 1, []⟩
def DC_CLKSTAT_ROOT_LOCK : Fld := ⟨31, 31, .ro, 0, []⟩
def DC_CLKSTAT_REFCLK_OK : Fld := ⟨30, 30, .ro, 0, []⟩
def DC_CLKSTAT_GLITCH : Fld := ⟨15, 0, .ro, 0, []⟩
def DC_ISLAND_STATE : Fld := ⟨31, 30, .ro, 0, []⟩
def DC_ISLAND_TARGET : Fld := ⟨9, 0, .ro, 0, []⟩
def PL_STAT_STATE : Fld := ⟨31, 28, .ro, 0, []⟩
def PL_STAT_SBY : Fld := ⟨27, 24, .ro, 0, []⟩
def PL_STAT_SBY_PHYS : Fld := ⟨20, 16, .ro, 0x1F, []⟩
def PL_STAT_ROT : Fld := ⟨12, 8, .ro, 0, []⟩
def PL_TAKE_GO : Fld := ⟨31, 31, .sc, 0, []⟩
def PL_TAKE_RESULT : Fld := ⟨30, 28, .ro, 0, []⟩
def PL_TAKE_ROLE : Fld := ⟨20, 16, .rw, 0, []⟩
def PL_CHANGE_GO : Fld := ⟨31, 31, .sc, 0, []⟩
def PL_CHANGE_ABORT : Fld := ⟨30, 30, .sc, 0, []⟩
def PL_CHANGE_STATE : Fld := ⟨29, 27, .ro, 0, []⟩
def PL_CHANGE_ROLE : Fld := ⟨20, 16, .ro, 0, []⟩
def PL_TEST_GO : Fld := ⟨31, 31, .sc, 0, []⟩
def PL_TEST_RESULT : Fld := ⟨30, 28, .ro, 0, []⟩
def PL_TEST_PHYS : Fld := ⟨4, 0, .rw, 0, [(0, 16)]⟩
def PL_LOAD_STAT_BUSY : Fld := ⟨31, 31, .ro, 0, []⟩
def PL_LOAD_STAT_SECTION : Fld := ⟨23, 16, .ro, 0, []⟩
def PL_LOAD_STAT_CODE : Fld := ⟨7, 0, .ro, 0, []⟩
def PL_MUTED_COUNT : Fld := ⟨31, 0, .ro, 0, []⟩
def PL_SWITCH_LO_LO : Fld := ⟨31, 0, .ro, 0, []⟩
def PL_SWITCH_HI_HI : Fld := ⟨31, 0, .ro, 0, []⟩
def PL_LAST_ROLE : Fld := ⟨31, 27, .ro, 0, []⟩
def PL_LAST_AGE : Fld := ⟨26, 19, .ro, 0, []⟩
def PL_LAST_DUR : Fld := ⟨18, 0, .ro, 0, []⟩
def PL_ROLE_STATE : Fld := ⟨31, 30, .ro, 0, []⟩
def PL_ROLE_PHYS : Fld := ⟨29, 25, .ro, 0x1F, []⟩
def PL_ROLE_GSIZE_LOG : Fld := ⟨24, 22, .ro, 0, []⟩
def PL_ROLE_POS : Fld := ⟨21, 18, .ro, 0, []⟩
def PL_ROLE_BANK : Fld := ⟨17, 16, .ro, 0, []⟩
def PL_ROLE_HEAD : Fld := ⟨15, 12, .ro, 0, []⟩
def PL_ROLE_HEAD_EN : Fld := ⟨11, 11, .ro, 0, []⟩
def PL_ROLE_HIST : Fld := ⟨10, 7, .ro, 0, []⟩
def PL_ROLE_CROWS : Fld := ⟨6, 0, .ro, 0, []⟩
def PL_PHYS_USE : Fld := ⟨31, 28, .ro, 0, []⟩
def PL_PHYS_ROLE : Fld := ⟨24, 20, .ro, 0x1F, []⟩
def PL_PHYS_FAULTS : Fld := ⟨15, 8, .ro, 0, []⟩
def UPD_STAT_COMP : Fld := ⟨31, 24, .ro, 0, []⟩
def UPD_STAT_LEFT : Fld := ⟨15, 0, .ro, 0, []⟩
def UPD_GEN_GEN : Fld := ⟨31, 0, .ro, 0, []⟩
def UPD_COMP_STATE : Fld := ⟨31, 28, .ro, 0, []⟩
def UPD_COMP_SESSION : Fld := ⟨27, 24, .ro, 0, []⟩
def UPD_COMP_HELD : Fld := ⟨23, 23, .ro, 0, []⟩
def UPD_COMP_REASON : Fld := ⟨19, 16, .ro, 0, []⟩
def UPD_COMP_PROGRESS : Fld := ⟨15, 0, .ro, 0, []⟩
def FH_CTL_AUTO_RESUME : Fld := ⟨31, 31, .rw, 0, []⟩
def FH_CTL_DIAG_AUTO : Fld := ⟨30, 30, .rw, 0, []⟩
def FH_CTL_LINK_LIMIT : Fld := ⟨7, 0, .rw, 0, [(1, 255)]⟩
def FH_LIMITS_VLOW_MV : Fld := ⟨31, 24, .rw, 0, []⟩
def FH_LIMITS_THOT : Fld := ⟨23, 16, .rw, 0, []⟩
def FH_LIMITS_TJ_WARN : Fld := ⟨15, 8, .rw, 0, []⟩
def FH_LINKS_NO_ROUTE : Fld := ⟨15, 8, .ro, 0, []⟩
def FH_LINKS_DEGRADED : Fld := ⟨7, 0, .ro, 0, []⟩
def FH_SPAN_TRIP : Fld := ⟨31, 31, .w1c, 0, []⟩
def FH_SPAN_V_LOW : Fld := ⟨30, 30, .ro, 0, []⟩
def FH_SPAN_V_HIGH : Fld := ⟨29, 29, .ro, 0, []⟩
def FH_SPAN_T_HOT : Fld := ⟨28, 28, .ro, 0, []⟩
def FH_SPAN_VOLT : Fld := ⟨25, 16, .ro, 0, []⟩
def FH_SPAN_TEMP : Fld := ⟨7, 0, .ro, 0, []⟩
def WR_CTL_WARN_DAYS : Fld := ⟨15, 0, .rw, 0, []⟩
def WR_EOL_DAYS : Fld := ⟨31, 0, .ro, 0, []⟩
def WR_DEV_HRS_HRS : Fld := ⟨31, 0, .ro, 0, []⟩
def WR_PAIR_HRS_HRS : Fld := ⟨31, 0, .ro, 0, []⟩
def WR_PAIR_DRIFT_DRIFT : Fld := ⟨15, 0, .ro, 0, []⟩
def MB_DOORBELL_GO : Fld := ⟨31, 31, .sc, 0, []⟩
def MB_DOORBELL_DONE : Fld := ⟨30, 30, .w1c, 0, []⟩
def MB_STAT_STATUS : Fld := ⟨31, 24, .ro, 0, []⟩
def MB_STAT_STRAY : Fld := ⟨15, 0, .ro, 0, []⟩
def MB_ALLOW_TAG : Fld := ⟨15, 0, .ro, 0, []⟩
def ABT_STAT_BOOT : Fld := ⟨31, 28, .ro, 0, []⟩
def ABT_STAT_FSLOT : Fld := ⟨27, 27, .ro, 0, []⟩
def ABT_STAT_ISLOT : Fld := ⟨26, 26, .ro, 0, []⟩
def ABT_STAT_OWNED : Fld := ⟨25, 25, .ro, 0, []⟩
def ABT_STAT_OSLOT : Fld := ⟨24, 23, .ro, 0, []⟩
def ABT_STAT_DEBUG_DECK : Fld := ⟨22, 22, .ro, 0, []⟩
def ABT_STAT_DEBUG_ABUT : Fld := ⟨21, 21, .ro, 0, []⟩
def ABT_STAT_LOCKED : Fld := ⟨20, 20, .ro, 0, []⟩
def ABT_STAT_RESTARTS : Fld := ⟨19, 16, .ro, 0, []⟩
def ABT_VER_VERSION : Fld := ⟨31, 0, .ro, 0, []⟩
def ABT_SVN_FW : Fld := ⟨31, 24, .ro, 0, []⟩
def ABT_SVN_KFW : Fld := ⟨23, 16, .ro, 0, []⟩
def ABT_SVN_LIB : Fld := ⟨15, 8, .ro, 0, []⟩
def ABT_SVN_IMG : Fld := ⟨7, 0, .ro, 0, []⟩
def UCIE_STAT_STATE : Fld := ⟨31, 30, .ro, 0, []⟩
def UCIE_STAT_WIDTH : Fld := ⟨29, 29, .ro, 0, []⟩
def UCIE_STAT_RETRAINS : Fld := ⟨15, 8, .ro, 0, []⟩
def UCIE_RETRY_COUNT : Fld := ⟨31, 0, .ro, 0, []⟩
def ABT_SERIAL0_BYTES : Fld := ⟨31, 0, .ro, 0, []⟩
def ABT_SERIAL1_BYTES : Fld := ⟨31, 0, .ro, 0, []⟩
def ABT_SERIAL2_BYTES : Fld := ⟨31, 0, .ro, 0, []⟩
def ABT_SERIAL3_BYTES : Fld := ⟨31, 0, .ro, 0, []⟩

end F

namespace Desc

def SPC_OPTRC : RegDesc := ⟨"SPC_OPTRC", 0x4100B00000, [(17, 0x1000000)],
  [F.SPC_OPTRC_EN, F.SPC_OPTRC_WRAPPED, F.SPC_OPTRC_NEXT]⟩
def RM_STAT : RegDesc := ⟨"RM_STAT", 0x4100C00000, [(17, 0x1000000)],
  [F.RM_STAT_BAND]⟩
def RM_HOLD : RegDesc := ⟨"RM_HOLD", 0x4100C00004, [(17, 0x1000000)],
  [F.RM_HOLD_COUNT]⟩
def RM_RUNS : RegDesc := ⟨"RM_RUNS", 0x4100C00008, [(17, 0x1000000)],
  [F.RM_RUNS_COUNT]⟩
def RX_EXTRA : RegDesc := ⟨"RX_EXTRA", 0x4100C0000C, [(17, 0x1000000)],
  [F.RX_EXTRA_COUNT]⟩
def RX_ABORT : RegDesc := ⟨"RX_ABORT", 0x4100C00010, [(17, 0x1000000)],
  [F.RX_ABORT_COUNT]⟩
def RX_STALL : RegDesc := ⟨"RX_STALL", 0x4100C00040, [(17, 0x1000000), (16, 0x4)],
  [F.RX_STALL_COUNT]⟩
def SPC_CTL : RegDesc := ⟨"SPC_CTL", 0x4100D00000, [(17, 0x1000000)],
  [F.SPC_CTL_BANK, F.SPC_CTL_STOP]⟩
def SPC_STAT : RegDesc := ⟨"SPC_STAT", 0x4100D00004, [(17, 0x1000000)],
  [F.SPC_STAT_STATE, F.SPC_STAT_CAUSE, F.SPC_STAT_ABORTED, F.SPC_STAT_ROUTINE, F.SPC_STAT_MPC]⟩
def SPC_PC : RegDesc := ⟨"SPC_PC", 0x4100D00008, [(17, 0x1000000)],
  [F.SPC_PC_BANK, F.SPC_PC_INDEX]⟩
def SPC_ENTRY : RegDesc := ⟨"SPC_ENTRY", 0x4100D0000C, [(17, 0x1000000)],
  [F.SPC_ENTRY_IVEC, F.SPC_ENTRY_ENTRY]⟩
def SPC_INT : RegDesc := ⟨"SPC_INT", 0x4100D00010, [(17, 0x1000000)],
  [F.SPC_INT_PEND, F.SPC_INT_EN]⟩
def SPC_IMASK : RegDesc := ⟨"SPC_IMASK", 0x4100D00014, [(17, 0x1000000)],
  [F.SPC_IMASK_SAVE]⟩
def SPC_WDOG : RegDesc := ⟨"SPC_WDOG", 0x4100D00018, [(17, 0x1000000)],
  [F.SPC_WDOG_LIMIT]⟩
def STRAY_MOVES : RegDesc := ⟨"STRAY_MOVES", 0x4100D00020, [(17, 0x1000000)],
  [F.STRAY_MOVES_SOCKET, F.STRAY_MOVES_ADDR]⟩
def SPC_MISC : RegDesc := ⟨"SPC_MISC", 0x4100D00024, [(17, 0x1000000)],
  [F.SPC_MISC_COLL, F.SPC_MISC_GAUGE, F.SPC_MISC_RXFIT, F.SPC_MISC_SCR_CORR]⟩
def SPC_DISCARD : RegDesc := ⟨"SPC_DISCARD", 0x4100D00028, [(17, 0x1000000)],
  [F.SPC_DISCARD_COUNT]⟩
def SPC_ISSUE_STALL : RegDesc := ⟨"SPC_ISSUE_STALL", 0x4100D0002C, [(17, 0x1000000)],
  [F.SPC_ISSUE_STALL_COUNT]⟩
def SPC_PLANE_WAIT : RegDesc := ⟨"SPC_PLANE_WAIT", 0x4100D00030, [(17, 0x1000000)],
  [F.SPC_PLANE_WAIT_COUNT]⟩
def CKPT_HOLD : RegDesc := ⟨"CKPT_HOLD", 0x4100D00034, [(17, 0x1000000)],
  [F.CKPT_HOLD_COUNT]⟩
def CKPT_CTL : RegDesc := ⟨"CKPT_CTL", 0x4100D00040, [(17, 0x1000000)],
  [F.CKPT_CTL_BASE]⟩
def CKPT_STAT : RegDesc := ⟨"CKPT_STAT", 0x4100D00044, [(17, 0x1000000)],
  [F.CKPT_STAT_VALID, F.CKPT_STAT_SLOT, F.CKPT_STAT_BUSY, F.CKPT_STAT_COUNT, F.CKPT_STAT_AGE]⟩
def CKPT_LINE_LO : RegDesc := ⟨"CKPT_LINE_LO", 0x4100D00048, [(17, 0x1000000)],
  [F.CKPT_LINE_LO_LO]⟩
def CKPT_LINE_HI : RegDesc := ⟨"CKPT_LINE_HI", 0x4100D0004C, [(17, 0x1000000)],
  [F.CKPT_LINE_HI_HI]⟩
def CKPT_REST : RegDesc := ⟨"CKPT_REST", 0x4100D00050, [(17, 0x1000000)],
  [F.CKPT_REST_GO, F.CKPT_REST_FAIL, F.CKPT_REST_OLDER, F.CKPT_REST_SRC]⟩
def MS_STAT : RegDesc := ⟨"MS_STAT", 0x4100E00000, [(17, 0x1000000)],
  [F.MS_STAT_BUSY, F.MS_STAT_WAIT, F.MS_STAT_HOLD, F.MS_STAT_COND, F.MS_STAT_ROUTINE, F.MS_STAT_PC]⟩
def MS_STRAY : RegDesc := ⟨"MS_STRAY", 0x4100E00004, [(17, 0x1000000)],
  [F.MS_STRAY_NOENTRY]⟩
def MS_WAIT_LIMIT : RegDesc := ⟨"MS_WAIT_LIMIT", 0x4100E00008, [(17, 0x1000000)],
  [F.MS_WAIT_LIMIT_LIMIT]⟩
def MS_IDLE : RegDesc := ⟨"MS_IDLE", 0x4100E00010, [(17, 0x1000000)],
  [F.MS_IDLE_COUNT]⟩
def MS_WAIT_CYC : RegDesc := ⟨"MS_WAIT_CYC", 0x4100E00014, [(17, 0x1000000)],
  [F.MS_WAIT_CYC_COUNT]⟩
def MS_BUBBLE : RegDesc := ⟨"MS_BUBBLE", 0x4100E00018, [(17, 0x1000000)],
  [F.MS_BUBBLE_COUNT]⟩
def MS_PAR_COUNT : RegDesc := ⟨"MS_PAR_COUNT", 0x4100E0001C, [(17, 0x1000000)],
  [F.MS_PAR_COUNT_COUNT]⟩
def MC_VER_0 : RegDesc := ⟨"MC_VER_0", 0x4100E00040, [(17, 0x1000000)],
  [F.MC_VER_0_MAJOR, F.MC_VER_0_MINOR, F.MC_VER_0_PATCH]⟩
def MC_VER_1 : RegDesc := ⟨"MC_VER_1", 0x4100E00044, [(17, 0x1000000)],
  [F.MC_VER_1_BUILD_TAG]⟩
def MC_VER_2 : RegDesc := ⟨"MC_VER_2", 0x4100E00048, [(17, 0x1000000)],
  [F.MC_VER_2_LIB_KEY, F.MC_VER_2_OWN_KEY]⟩
def MC_VER_3 : RegDesc := ⟨"MC_VER_3", 0x4100E0004C, [(17, 0x1000000)],
  [F.MC_VER_3_OWN_COUNT, F.MC_VER_3_OWN_VER]⟩
def ARR_STAT : RegDesc := ⟨"ARR_STAT", 0x4100F00000, [(17, 0x1000000)],
  [F.ARR_STAT_FLAGGED, F.ARR_STAT_INIT_DONE]⟩
def ARR_COUPLE : RegDesc := ⟨"ARR_COUPLE", 0x4100F00004, [(17, 0x1000000)],
  [F.ARR_COUPLE_OUTER_E, F.ARR_COUPLE_OUTER_W, F.ARR_COUPLE_POS, F.ARR_COUPLE_GSIZE_LOG]⟩
def ARR_PAR_STAT : RegDesc := ⟨"ARR_PAR_STAT", 0x4100F00010, [(17, 0x1000000)],
  [F.ARR_PAR_STAT_VALID, F.ARR_PAR_STAT_OVF, F.ARR_PAR_STAT_ON_WRITE, F.ARR_PAR_STAT_ROW, F.ARR_PAR_STAT_TRUSS, F.ARR_PAR_STAT_GROUP]⟩
def ARR_PAR_COUNT : RegDesc := ⟨"ARR_PAR_COUNT", 0x4100F00014, [(17, 0x1000000)],
  [F.ARR_PAR_COUNT_COUNT]⟩
def ARR_STALL_PLANE : RegDesc := ⟨"ARR_STALL_PLANE", 0x4100F00018, [(17, 0x1000000)],
  [F.ARR_STALL_PLANE_COUNT]⟩
def ARR_STALL_GAUGE : RegDesc := ⟨"ARR_STALL_GAUGE", 0x4100F0001C, [(17, 0x1000000)],
  [F.ARR_STALL_GAUGE_COUNT]⟩
def ARR_STRAY : RegDesc := ⟨"ARR_STRAY", 0x4100F00020, [(17, 0x1000000)],
  [F.ARR_STRAY_PLANE_OVER, F.ARR_STRAY_HALO_EMPTY]⟩
def ARR_JOINT_STAT : RegDesc := ⟨"ARR_JOINT_STAT", 0x4100F00030, [(17, 0x1000000)],
  [F.ARR_JOINT_STAT_V_OVER, F.ARR_JOINT_STAT_T_OVER, F.ARR_JOINT_STAT_PH_OVER, F.ARR_JOINT_STAT_IN_USE, F.ARR_JOINT_STAT_MISMATCH, F.ARR_JOINT_STAT_PHASE, F.ARR_JOINT_STAT_DTEMP, F.ARR_JOINT_STAT_DVOLT]⟩
def ARR_JOINT_ERR : RegDesc := ⟨"ARR_JOINT_ERR", 0x4100F00034, [(17, 0x1000000)],
  [F.ARR_JOINT_ERR_COUNT]⟩
def SPARE_MAP : RegDesc := ⟨"SPARE_MAP", 0x4100F00100, [(17, 0x1000000), (16, 0x20), (8, 0x4)],
  [F.SPARE_MAP_BYP3, F.SPARE_MAP_BYP2, F.SPARE_MAP_BYP1, F.SPARE_MAP_BYP0]⟩
def RG_CTL : RegDesc := ⟨"RG_CTL", 0x4200F00000, [(17, 0x1000000)],
  [F.RG_CTL_RAW, F.RG_CTL_UNSEAL, F.RG_CTL_DISABLE, F.RG_CTL_ENABLE]⟩
def RG_STAT : RegDesc := ⟨"RG_STAT", 0x4200F00004, [(17, 0x1000000)],
  [F.RG_STAT_STATE, F.RG_STAT_CAUSE, F.RG_STAT_PADS_LIVE, F.RG_STAT_GUARD]⟩
def RG_SRC : RegDesc := ⟨"RG_SRC", 0x4200F00008, [(17, 0x1000000)],
  [F.RG_SRC_EN, F.RG_SRC_PORT]⟩
def GB_CTL : RegDesc := ⟨"GB_CTL", 0x4200F0000C, [(17, 0x1000000)],
  [F.GB_CTL_BEAT, F.GB_CTL_PIXEL_BITS]⟩
def TP_CTL : RegDesc := ⟨"TP_CTL", 0x4200F00010, [(17, 0x1000000)],
  [F.TP_CTL_BEAT, F.TP_CTL_ORDER, F.TP_CTL_WB]⟩
def LB_STAT : RegDesc := ⟨"LB_STAT", 0x4200F00014, [(17, 0x1000000)],
  [F.LB_STAT_UNCONSUMED, F.LB_STAT_REPLAY, F.LB_STAT_OLDEST]⟩
def LB_ECC : RegDesc := ⟨"LB_ECC", 0x4200F00018, [(17, 0x1000000)],
  [F.LB_ECC_CORR, F.LB_ECC_UNCORR]⟩
def LB_OVERRUN : RegDesc := ⟨"LB_OVERRUN", 0x4200F0001C, [(17, 0x1000000)],
  [F.LB_OVERRUN_COUNT]⟩
def TP_ERR : RegDesc := ⟨"TP_ERR", 0x4200F00020, [(17, 0x1000000)],
  [F.TP_ERR_LONG, F.TP_ERR_EXTRA, F.TP_ERR_MISSING]⟩
def RG_DROP : RegDesc := ⟨"RG_DROP", 0x4200F00024, [(17, 0x1000000)],
  [F.RG_DROP_COUNT]⟩
def BM_COLL : RegDesc := ⟨"BM_COLL", 0x4200F00028, [(17, 0x1000000)],
  [F.BM_COLL_COUNT]⟩
def CFG_STAT : RegDesc := ⟨"CFG_STAT", 0x4200F00030, [(17, 0x1000000)],
  [F.CFG_STAT_FRAMES, F.CFG_STAT_BAD_FRAME, F.CFG_STAT_SCRUB_ERR]⟩
def CFG_SCRUB : RegDesc := ⟨"CFG_SCRUB", 0x4200F00034, [(17, 0x1000000)],
  [F.CFG_SCRUB_EN, F.CFG_SCRUB_VALID, F.CFG_SCRUB_TYPE, F.CFG_SCRUB_MAJOR, F.CFG_SCRUB_MINOR]⟩
def CFG_IMAGE : RegDesc := ⟨"CFG_IMAGE", 0x4200F00038, [(17, 0x1000000)],
  [F.CFG_IMAGE_IMAGE_ID]⟩
def GUARD_LOG : RegDesc := ⟨"GUARD_LOG", 0x4200F0003C, [(17, 0x1000000)],
  [F.GUARD_LOG_VALID, F.GUARD_LOG_ORIENT, F.GUARD_LOG_KIND, F.GUARD_LOG_TRACK, F.GUARD_LOG_ROW, F.GUARD_LOG_COL]⟩
def HR_CTL : RegDesc := ⟨"HR_CTL", 0x4200F00040, [(17, 0x1000000)],
  [F.HR_CTL_EN, F.HR_CTL_BITS, F.HR_CTL_SHIFT, F.HR_CTL_DEPTH_LOG]⟩
def HR_BASE_LO : RegDesc := ⟨"HR_BASE_LO", 0x4200F00044, [(17, 0x1000000)],
  [F.HR_BASE_LO_BASE_LO]⟩
def HR_BASE_HI : RegDesc := ⟨"HR_BASE_HI", 0x4200F00048, [(17, 0x1000000)],
  [F.HR_BASE_HI_BASE_HI]⟩
def HR_SKIP : RegDesc := ⟨"HR_SKIP", 0x4200F0004C, [(17, 0x1000000)],
  [F.HR_SKIP_COUNT]⟩
def RP_CTL : RegDesc := ⟨"RP_CTL", 0x4200F00060, [(17, 0x1000000)],
  [F.RP_CTL_GO, F.RP_CTL_COUNT, F.RP_CTL_NPRIME, F.RP_CTL_SRC]⟩
def RP_LINE_LO : RegDesc := ⟨"RP_LINE_LO", 0x4200F00064, [(17, 0x1000000)],
  [F.RP_LINE_LO_LO]⟩
def RP_LINE_HI : RegDesc := ⟨"RP_LINE_HI", 0x4200F00068, [(17, 0x1000000)],
  [F.RP_LINE_HI_HI]⟩
def RP_STAT : RegDesc := ⟨"RP_STAT", 0x4200F0006C, [(17, 0x1000000)],
  [F.RP_STAT_BUSY, F.RP_STAT_DONE, F.RP_STAT_COPIED, F.RP_STAT_MISSING]⟩
def TRK_CTL : RegDesc := ⟨"TRK_CTL", 0x4300000000, [],
  [F.TRK_CTL_LOW_MARK]⟩
def TRK_STAT : RegDesc := ⟨"TRK_STAT", 0x4300000004, [],
  [F.TRK_STAT_BUSY, F.TRK_STAT_FREE]⟩
def TRK_RUNS_IN : RegDesc := ⟨"TRK_RUNS_IN", 0x4300000010, [],
  [F.TRK_RUNS_IN_COUNT]⟩
def TRK_RECORDS : RegDesc := ⟨"TRK_RECORDS", 0x4300000014, [],
  [F.TRK_RECORDS_COUNT]⟩
def TRK_RUNS_DROP : RegDesc := ⟨"TRK_RUNS_DROP", 0x4300000018, [],
  [F.TRK_RUNS_DROP_COUNT]⟩
def TRK_DUP : RegDesc := ⟨"TRK_DUP", 0x430000001C, [],
  [F.TRK_DUP_COUNT]⟩
def TRK_LEDGER_HOLD : RegDesc := ⟨"TRK_LEDGER_HOLD", 0x4300000020, [],
  [F.TRK_LEDGER_HOLD_COUNT]⟩
def TRK_REPEAT_HOLD : RegDesc := ⟨"TRK_REPEAT_HOLD", 0x4300000024, [],
  [F.TRK_REPEAT_HOLD_COUNT]⟩
def TRK_ECC : RegDesc := ⟨"TRK_ECC", 0x4300000028, [],
  [F.TRK_ECC_CORR, F.TRK_ECC_UNCORR]⟩
def TRK_NEXT_ID : RegDesc := ⟨"TRK_NEXT_ID", 0x430000002C, [],
  [F.TRK_NEXT_ID_ID]⟩
def TRK_CLASS : RegDesc := ⟨"TRK_CLASS", 0x4300000100, [(16, 0x4)],
  [F.TRK_CLASS_MARK_EN, F.TRK_CLASS_CROP_EN, F.TRK_CLASS_REPEAT_EN, F.TRK_CLASS_STREAM_EN, F.TRK_CLASS_MARK_OUT]⟩
def TRK_DOM_CTL : RegDesc := ⟨"TRK_DOM_CTL", 0x4300001000, [(16, 0x40)],
  [F.TRK_DOM_CTL_EN, F.TRK_DOM_CTL_SEAM_JOIN, F.TRK_DOM_CTL_CONN8, F.TRK_DOM_CTL_GAP, F.TRK_DOM_CTL_MAX_LEN]⟩
def TRK_DOM_CTX : RegDesc := ⟨"TRK_DOM_CTX", 0x4300001004, [(16, 0x40)],
  [F.TRK_DOM_CTX_CTX_MAX]⟩
def TRK_DOM_FLOOD : RegDesc := ⟨"TRK_DOM_FLOOD", 0x4300001008, [(16, 0x40)],
  [F.TRK_DOM_FLOOD_RUNS_MAX, F.TRK_DOM_FLOOD_HOLD_MAX]⟩
def TRK_DOM_EXIT : RegDesc := ⟨"TRK_DOM_EXIT", 0x430000100C, [(16, 0x40)],
  [F.TRK_DOM_EXIT_EXIT_RUNS, F.TRK_DOM_EXIT_EXIT_LINES, F.TRK_DOM_EXIT_ALARM_LINES]⟩
def TRK_DOM_STAT : RegDesc := ⟨"TRK_DOM_STAT", 0x4300001010, [(16, 0x40)],
  [F.TRK_DOM_STAT_STATE, F.TRK_DOM_STAT_CAUSE, F.TRK_DOM_STAT_OPEN]⟩
def TRK_DOM_LINE_LO : RegDesc := ⟨"TRK_DOM_LINE_LO", 0x4300001014, [(16, 0x40)],
  [F.TRK_DOM_LINE_LO_LO]⟩
def TRK_DOM_LINE_HI : RegDesc := ⟨"TRK_DOM_LINE_HI", 0x4300001018, [(16, 0x40)],
  [F.TRK_DOM_LINE_HI_HI]⟩
def TRK_DOM_FLOODS : RegDesc := ⟨"TRK_DOM_FLOODS", 0x430000101C, [(16, 0x40)],
  [F.TRK_DOM_FLOODS_COUNT]⟩
def LG_CTL : RegDesc := ⟨"LG_CTL", 0x4310000000, [],
  [F.LG_CTL_EN, F.LG_CTL_BUCKET_LOG]⟩
def LG_BASE : RegDesc := ⟨"LG_BASE", 0x4310000004, [],
  [F.LG_BASE_BASE]⟩
def LG_STAT : RegDesc := ⟨"LG_STAT", 0x4310000008, [],
  [F.LG_STAT_READY, F.LG_STAT_INFLIGHT]⟩
def LG_NEXT_LO : RegDesc := ⟨"LG_NEXT_LO", 0x4310000010, [],
  [F.LG_NEXT_LO_LO]⟩
def LG_NEXT_HI : RegDesc := ⟨"LG_NEXT_HI", 0x4310000014, [],
  [F.LG_NEXT_HI_HI]⟩
def LG_OLDEST_LO : RegDesc := ⟨"LG_OLDEST_LO", 0x4310000018, [],
  [F.LG_OLDEST_LO_LO]⟩
def LG_OLDEST_HI : RegDesc := ⟨"LG_OLDEST_HI", 0x431000001C, [],
  [F.LG_OLDEST_HI_HI]⟩
def LG_SEG_CTL : RegDesc := ⟨"LG_SEG_CTL", 0x4310000020, [],
  [F.LG_SEG_CTL_GO, F.LG_SEG_CTL_MODE]⟩
def LG_SEG : RegDesc := ⟨"LG_SEG", 0x4310000024, [],
  [F.LG_SEG_COUNT]⟩
def LG_SEG_FIRST_LO : RegDesc := ⟨"LG_SEG_FIRST_LO", 0x4310000028, [],
  [F.LG_SEG_FIRST_LO_LO]⟩
def LG_SEG_FIRST_HI : RegDesc := ⟨"LG_SEG_FIRST_HI", 0x431000002C, [],
  [F.LG_SEG_FIRST_HI_HI]⟩
def LG_SEG_LINE_LO : RegDesc := ⟨"LG_SEG_LINE_LO", 0x4310000030, [],
  [F.LG_SEG_LINE_LO_LO]⟩
def LG_SEG_LINE_HI : RegDesc := ⟨"LG_SEG_LINE_HI", 0x4310000034, [],
  [F.LG_SEG_LINE_HI_HI]⟩
def LG_WRITES : RegDesc := ⟨"LG_WRITES", 0x4310000040, [],
  [F.LG_WRITES_COUNT]⟩
def RF_CTL : RegDesc := ⟨"RF_CTL", 0x4310001000, [],
  [F.RF_CTL_EN, F.RF_CTL_VISIT_MAX, F.RF_CTL_MIN_HITS]⟩
def RF_CHAINS : RegDesc := ⟨"RF_CHAINS", 0x4310001010, [],
  [F.RF_CHAINS_COUNT]⟩
def RF_TRUNC : RegDesc := ⟨"RF_TRUNC", 0x4310001014, [],
  [F.RF_TRUNC_COUNT]⟩
def RF_UNREAD : RegDesc := ⟨"RF_UNREAD", 0x4310001018, [],
  [F.RF_UNREAD_COUNT]⟩
def RF_SLOT : RegDesc := ⟨"RF_SLOT", 0x4310002000, [(64, 0x10)],
  [F.RF_SLOT_EN, F.RF_SLOT_DEPTH, F.RF_SLOT_CLASSES]⟩
def RF_PITCH_LO : RegDesc := ⟨"RF_PITCH_LO", 0x4310002004, [(64, 0x10)],
  [F.RF_PITCH_LO_PITCH_INT_LO, F.RF_PITCH_LO_PITCH_FRAC]⟩
def RF_PITCH_HI : RegDesc := ⟨"RF_PITCH_HI", 0x4310002008, [(64, 0x10)],
  [F.RF_PITCH_HI_PITCH_INT_HI]⟩
def RF_TOL : RegDesc := ⟨"RF_TOL", 0x431000200C, [(64, 0x10)],
  [F.RF_TOL_TOL_ALONG, F.RF_TOL_TOL_ACROSS]⟩
def CR_CTL : RegDesc := ⟨"CR_CTL", 0x4310003000, [],
  [F.CR_CTL_EN, F.CR_CTL_DS_MAX, F.CR_CTL_MARGIN]⟩
def CR_TMO : RegDesc := ⟨"CR_TMO", 0x4310003004, [],
  [F.CR_TMO_US]⟩
def CR_STORE : RegDesc := ⟨"CR_STORE", 0x4310003008, [],
  [F.CR_STORE_BASE, F.CR_STORE_SIZE_LOG]⟩
def CR_CROPS : RegDesc := ⟨"CR_CROPS", 0x4310003010, [],
  [F.CR_CROPS_COUNT]⟩
def CR_STORE_WAIT : RegDesc := ⟨"CR_STORE_WAIT", 0x4310003014, [],
  [F.CR_STORE_WAIT_COUNT]⟩
def SC_CTL : RegDesc := ⟨"SC_CTL", 0x4400000000, [(16, 0x1000)],
  [F.SC_CTL_EN, F.SC_CTL_INV, F.SC_CTL_Z_EN, F.SC_CTL_FILT, F.SC_CTL_REV_HYST]⟩
def SC_STAT : RegDesc := ⟨"SC_STAT", 0x4400000004, [(16, 0x1000)],
  [F.SC_STAT_DIR, F.SC_STAT_MOVING, F.SC_STAT_Z_VALID, F.SC_STAT_LEVELS]⟩
def SC_POS_LO : RegDesc := ⟨"SC_POS_LO", 0x4400000008, [(16, 0x1000)],
  [F.SC_POS_LO_LO]⟩
def SC_POS_HI : RegDesc := ⟨"SC_POS_HI", 0x440000000C, [(16, 0x1000)],
  [F.SC_POS_HI_HI]⟩
def SC_ZCAP_LO : RegDesc := ⟨"SC_ZCAP_LO", 0x4400000010, [(16, 0x1000)],
  [F.SC_ZCAP_LO_LO]⟩
def SC_ZCAP_HI : RegDesc := ⟨"SC_ZCAP_HI", 0x4400000014, [(16, 0x1000)],
  [F.SC_ZCAP_HI_HI]⟩
def SC_ZCHK : RegDesc := ⟨"SC_ZCHK", 0x4400000018, [(16, 0x1000)],
  [F.SC_ZCHK_ZTOL, F.SC_ZCHK_ZPER]⟩
def SC_RATE : RegDesc := ⟨"SC_RATE", 0x440000001C, [(16, 0x1000)],
  [F.SC_RATE_RATE]⟩
def SC_ERR : RegDesc := ⟨"SC_ERR", 0x4400000020, [(16, 0x1000)],
  [F.SC_ERR_ILLEGAL, F.SC_ERR_ZCOUNT]⟩
def SC_STALL : RegDesc := ⟨"SC_STALL", 0x4400000024, [(16, 0x1000)],
  [F.SC_STALL_MS]⟩
def SO_CTL : RegDesc := ⟨"SO_CTL", 0x4400000100, [(16, 0x1000), (2, 0x40)],
  [F.SO_CTL_INV, F.SO_CTL_MODE, F.SO_CTL_LEVEL, F.SO_CTL_GROUP]⟩
def SO_DELAY : RegDesc := ⟨"SO_DELAY", 0x4400000104, [(16, 0x1000), (2, 0x40)],
  [F.SO_DELAY_DELAY]⟩
def SO_WIDTH : RegDesc := ⟨"SO_WIDTH", 0x4400000108, [(16, 0x1000), (2, 0x40)],
  [F.SO_WIDTH_WIDTH]⟩
def ACT_DIST_LO : RegDesc := ⟨"ACT_DIST_LO", 0x440000010C, [(16, 0x1000), (2, 0x40)],
  [F.ACT_DIST_LO_LO]⟩
def ACT_DIST_HI : RegDesc := ⟨"ACT_DIST_HI", 0x4400000110, [(16, 0x1000), (2, 0x40)],
  [F.ACT_DIST_HI_HI]⟩
def ACT_PREPOST : RegDesc := ⟨"ACT_PREPOST", 0x4400000114, [(16, 0x1000), (2, 0x40)],
  [F.ACT_PREPOST_POST, F.ACT_PREPOST_PRE]⟩
def ACT_LEAD : RegDesc := ⟨"ACT_LEAD", 0x4400000118, [(16, 0x1000), (2, 0x40)],
  [F.ACT_LEAD_LEAD]⟩
def ACT_LATE : RegDesc := ⟨"ACT_LATE", 0x440000011C, [(16, 0x1000), (2, 0x40)],
  [F.ACT_LATE_LATE]⟩
def TG_CTL : RegDesc := ⟨"TG_CTL", 0x4400100000, [(8, 0x1000)],
  [F.TG_CTL_START, F.TG_CTL_STOP, F.TG_CTL_INTERP, F.TG_CTL_PLEN_M1, F.TG_CTL_SRC]⟩
def TG_STAT : RegDesc := ⟨"TG_STAT", 0x4400100004, [(8, 0x1000)],
  [F.TG_STAT_STATE, F.TG_STAT_DELAYED]⟩
def TG_HEADS : RegDesc := ⟨"TG_HEADS", 0x4400100008, [(8, 0x1000)],
  [F.TG_HEADS_HEADS]⟩
def TG_PITCH : RegDesc := ⟨"TG_PITCH", 0x440010000C, [(8, 0x1000)],
  [F.TG_PITCH_PITCH]⟩
def TG_ORIGIN_LO : RegDesc := ⟨"TG_ORIGIN_LO", 0x4400100010, [(8, 0x1000)],
  [F.TG_ORIGIN_LO_LO]⟩
def TG_ORIGIN_HI : RegDesc := ⟨"TG_ORIGIN_HI", 0x4400100014, [(8, 0x1000)],
  [F.TG_ORIGIN_HI_HI]⟩
def TG_MINPER : RegDesc := ⟨"TG_MINPER", 0x4400100018, [(8, 0x1000)],
  [F.TG_MINPER_MINPER]⟩
def TG_INTRATE : RegDesc := ⟨"TG_INTRATE", 0x440010001C, [(8, 0x1000)],
  [F.TG_INTRATE_RATE]⟩
def TG_INDEX_LO : RegDesc := ⟨"TG_INDEX_LO", 0x4400100020, [(8, 0x1000)],
  [F.TG_INDEX_LO_LO]⟩
def TG_INDEX_HI : RegDesc := ⟨"TG_INDEX_HI", 0x4400100024, [(8, 0x1000)],
  [F.TG_INDEX_HI_HI]⟩
def TG_SKIP : RegDesc := ⟨"TG_SKIP", 0x4400100028, [(8, 0x1000)],
  [F.TG_SKIP_COUNT]⟩
def TG_PROG : RegDesc := ⟨"TG_PROG", 0x4400100040, [(8, 0x1000), (16, 0x4)],
  [F.TG_PROG_STROBE, F.TG_PROG_EXP_CODE]⟩
def TM_NOW_LO : RegDesc := ⟨"TM_NOW_LO", 0x4400200000, [],
  [F.TM_NOW_LO_LO]⟩
def TM_NOW_HI : RegDesc := ⟨"TM_NOW_HI", 0x4400200004, [],
  [F.TM_NOW_HI_HI]⟩
def TM_EPOCH_LO : RegDesc := ⟨"TM_EPOCH_LO", 0x4400200008, [],
  [F.TM_EPOCH_LO_LO]⟩
def TM_EPOCH_HI : RegDesc := ⟨"TM_EPOCH_HI", 0x440020000C, [],
  [F.TM_EPOCH_HI_HI]⟩
def TM_STAT : RegDesc := ⟨"TM_STAT", 0x4400200010, [],
  [F.TM_STAT_ROLE, F.TM_STAT_LOCKED, F.TM_STAT_EPOCH_SET]⟩
def PTP_CTL : RegDesc := ⟨"PTP_CTL", 0x4400200020, [],
  [F.PTP_CTL_PORTS, F.PTP_CTL_PTP_TS, F.PTP_CTL_UTC_VALID, F.PTP_CTL_TRANSPORT, F.PTP_CTL_DOMAIN]⟩
def PTP_INT : RegDesc := ⟨"PTP_INT", 0x4400200024, [],
  [F.PTP_INT_LOG_ANN, F.PTP_INT_LOG_SYNC, F.PTP_INT_LOG_DREQ]⟩
def PTP_QUAL : RegDesc := ⟨"PTP_QUAL", 0x4400200028, [],
  [F.PTP_QUAL_PRIORITY1, F.PTP_QUAL_PRIORITY2, F.PTP_QUAL_CLOCK_CLASS, F.PTP_QUAL_CLOCK_ACC]⟩
def PTP_UTC : RegDesc := ⟨"PTP_UTC", 0x440020002C, [],
  [F.PTP_UTC_UTC_OFFSET]⟩
def PTP_SYNC_TX : RegDesc := ⟨"PTP_SYNC_TX", 0x4400200030, [],
  [F.PTP_SYNC_TX_COUNT]⟩
def PTP_DREQ_RX : RegDesc := ⟨"PTP_DREQ_RX", 0x4400200034, [],
  [F.PTP_DREQ_RX_COUNT]⟩
def PTP_DISCARD : RegDesc := ⟨"PTP_DISCARD", 0x4400200038, [],
  [F.PTP_DISCARD_COUNT]⟩
def AS_CTL : RegDesc := ⟨"AS_CTL", 0x4400300000, [],
  [F.AS_CTL_FLUSH]⟩
def AS_STAT : RegDesc := ⟨"AS_STAT", 0x4400300004, [],
  [F.AS_STAT_PENDING]⟩
def AS_FIRED : RegDesc := ⟨"AS_FIRED", 0x4400300008, [],
  [F.AS_FIRED_COUNT]⟩
def AS_LATE : RegDesc := ⟨"AS_LATE", 0x440030000C, [],
  [F.AS_LATE_COUNT]⟩
def AS_DROP : RegDesc := ⟨"AS_DROP", 0x4400300010, [],
  [F.AS_DROP_COUNT]⟩
def AS_REFUSED : RegDesc := ⟨"AS_REFUSED", 0x4400300014, [],
  [F.AS_REFUSED_COUNT]⟩
def AS_POST_CTL : RegDesc := ⟨"AS_POST_CTL", 0x4400300020, [],
  [F.AS_POST_CTL_GO, F.AS_POST_CTL_RESULT, F.AS_POST_CTL_OUT]⟩
def AS_POST_LO : RegDesc := ⟨"AS_POST_LO", 0x4400300024, [],
  [F.AS_POST_LO_LO]⟩
def AS_POST_HI : RegDesc := ⟨"AS_POST_HI", 0x4400300028, [],
  [F.AS_POST_HI_HI]⟩
def CW_CTL : RegDesc := ⟨"CW_CTL", 0x4500000000, [],
  [F.CW_CTL_FLIP]⟩
def CW_STAT : RegDesc := ⟨"CW_STAT", 0x4500000004, [],
  [F.CW_STAT_EPOCH, F.CW_STAT_DRAINED]⟩
def CW_WRR : RegDesc := ⟨"CW_WRR", 0x4500000008, [],
  [F.CW_WRR_W1, F.CW_WRR_W3, F.CW_WRR_W2]⟩
def RT_DRAIN : RegDesc := ⟨"RT_DRAIN", 0x4500010000, [(48, 0x100)],
  [F.RT_DRAIN_COUNT]⟩
def RT_TABLE : RegDesc := ⟨"RT_TABLE", 0x4500010040, [(48, 0x100), (2, 0x20), (6, 0x4)],
  [F.RT_TABLE_OUT7, F.RT_TABLE_OUT6, F.RT_TABLE_OUT5, F.RT_TABLE_OUT4, F.RT_TABLE_OUT3, F.RT_TABLE_OUT2, F.RT_TABLE_OUT1, F.RT_TABLE_OUT0]⟩
def CW_EP_CTL : RegDesc := ⟨"CW_EP_CTL", 0x4500020000, [(80, 0x100)],
  [F.CW_EP_CTL_ISOLATE, F.CW_EP_CTL_RELEASE, F.CW_EP_CTL_C0_EN, F.CW_EP_CTL_DRAIN_LIMIT]⟩
def CW_EP_STAT : RegDesc := ⟨"CW_EP_STAT", 0x4500020004, [(80, 0x100)],
  [F.CW_EP_STAT_STATE, F.CW_EP_STAT_X, F.CW_EP_STAT_Y, F.CW_EP_STAT_PORT]⟩
def CW_EP_TAG : RegDesc := ⟨"CW_EP_TAG", 0x4500020008, [(80, 0x100)],
  [F.CW_EP_TAG_TAG]⟩
def PRB_STRAY : RegDesc := ⟨"PRB_STRAY", 0x4500020010, [(80, 0x100)],
  [F.PRB_STRAY_COUNT]⟩
def PRB_ISO : RegDesc := ⟨"PRB_ISO", 0x4500020014, [(80, 0x100)],
  [F.PRB_ISO_COUNT]⟩
def PRB_STALE : RegDesc := ⟨"PRB_STALE", 0x4500020018, [(80, 0x100)],
  [F.PRB_STALE_COUNT]⟩
def PRB_SHAPE : RegDesc := ⟨"PRB_SHAPE", 0x450002001C, [(80, 0x100)],
  [F.PRB_SHAPE_COUNT]⟩
def PRB_C0_DROP : RegDesc := ⟨"PRB_C0_DROP", 0x4500020020, [(80, 0x100)],
  [F.PRB_C0_DROP_COUNT]⟩
def PIER_ECC : RegDesc := ⟨"PIER_ECC", 0x4500030000, [(16, 0x100)],
  [F.PIER_ECC_CORR, F.PIER_ECC_UNCORR]⟩
def PIER_SPAN_STALL : RegDesc := ⟨"PIER_SPAN_STALL", 0x4500030004, [(16, 0x100)],
  [F.PIER_SPAN_STALL_COUNT]⟩
def PIER_CONF : RegDesc := ⟨"PIER_CONF", 0x4500030040, [(16, 0x100), (14, 0x4)],
  [F.PIER_CONF_COUNT]⟩
def PRB_FLT_CTL : RegDesc := ⟨"PRB_FLT_CTL", 0x4500100000, [(16, 0x40)],
  [F.PRB_FLT_CTL_EN, F.PRB_FLT_CTL_SIDE, F.PRB_FLT_CTL_ADDR_EN, F.PRB_FLT_CTL_ROUTER, F.PRB_FLT_CTL_PORT, F.PRB_FLT_CTL_VC, F.PRB_FLT_CTL_PRIOS]⟩
def PRB_FLT_TAG : RegDesc := ⟨"PRB_FLT_TAG", 0x4500100004, [(16, 0x40)],
  [F.PRB_FLT_TAG_TAG_MASK, F.PRB_FLT_TAG_TAG]⟩
def PRB_FLT_ALO : RegDesc := ⟨"PRB_FLT_ALO", 0x4500100008, [(16, 0x40)],
  [F.PRB_FLT_ALO_KINDS, F.PRB_FLT_ALO_ALO]⟩
def PRB_FLT_AHI : RegDesc := ⟨"PRB_FLT_AHI", 0x450010000C, [(16, 0x40)],
  [F.PRB_FLT_AHI_AHI]⟩
def PRB_FLT_HEADS : RegDesc := ⟨"PRB_FLT_HEADS", 0x4500100010, [(16, 0x40)],
  [F.PRB_FLT_HEADS_COUNT]⟩
def PRB_FLT_FLITS : RegDesc := ⟨"PRB_FLT_FLITS", 0x4500100018, [(16, 0x40)],
  [F.PRB_FLT_FLITS_COUNT]⟩
def TRC_CTL : RegDesc := ⟨"TRC_CTL", 0x4500110000, [(4, 0x100)],
  [F.TRC_CTL_ARM, F.TRC_CTL_STOP, F.TRC_CTL_FILTER, F.TRC_CTL_TRIG, F.TRC_CTL_POST]⟩
def TRC_STAT : RegDesc := ⟨"TRC_STAT", 0x4500110004, [(4, 0x100)],
  [F.TRC_STAT_ARMED, F.TRC_STAT_TRIGGERED, F.TRC_STAT_WRAPPED, F.TRC_STAT_NEXT]⟩
def KP_CTL : RegDesc := ⟨"KP_CTL", 0x4600040000, [(4, 0x1000000)],
  [F.KP_CTL_RUN, F.KP_CTL_EI, F.KP_CTL_OWN_HOLD]⟩
def KP_STAT : RegDesc := ⟨"KP_STAT", 0x4600040004, [(4, 0x1000000)],
  [F.KP_STAT_LEVEL, F.KP_STAT_MODE, F.KP_STAT_WAITING, F.KP_STAT_DZ, F.KP_STAT_VEC, F.KP_STAT_DEPTH]⟩
def KP_PC : RegDesc := ⟨"KP_PC", 0x4600040008, [(4, 0x1000000)],
  [F.KP_PC_PC]⟩
def KP_EVT : RegDesc := ⟨"KP_EVT", 0x460004000C, [(4, 0x1000000)],
  [F.KP_EVT_EVT]⟩
def KP_WIN0 : RegDesc := ⟨"KP_WIN0", 0x4600040010, [(4, 0x1000000)],
  [F.KP_WIN0_BASE]⟩
def KP_WIN1 : RegDesc := ⟨"KP_WIN1", 0x4600040014, [(4, 0x1000000)],
  [F.KP_WIN1_BASE]⟩
def KP_OWIN0 : RegDesc := ⟨"KP_OWIN0", 0x4600040018, [(4, 0x1000000)],
  [F.KP_OWIN0_BASE]⟩
def KP_OWIN1 : RegDesc := ⟨"KP_OWIN1", 0x460004001C, [(4, 0x1000000)],
  [F.KP_OWIN1_BASE]⟩
def KP_SPLIM : RegDesc := ⟨"KP_SPLIM", 0x4600040020, [(4, 0x1000000)],
  [F.KP_SPLIM_OLIM, F.KP_SPLIM_FLIM]⟩
def KP_C0_LIMIT : RegDesc := ⟨"KP_C0_LIMIT", 0x4600040024, [(4, 0x1000000)],
  [F.KP_C0_LIMIT_LIMIT]⟩
def KEEPER_ILLEGAL : RegDesc := ⟨"KEEPER_ILLEGAL", 0x4600040028, [(4, 0x1000000)],
  [F.KEEPER_ILLEGAL_COUNT]⟩
def KP_STRAY : RegDesc := ⟨"KP_STRAY", 0x460004002C, [(4, 0x1000000)],
  [F.KP_STRAY_ADDR, F.KP_STRAY_DENIED]⟩
def KP_DISPATCH : RegDesc := ⟨"KP_DISPATCH", 0x4600040030, [(4, 0x1000000)],
  [F.KP_DISPATCH_COUNT]⟩
def KP_ECC : RegDesc := ⟨"KP_ECC", 0x4600040034, [(4, 0x1000000)],
  [F.KP_ECC_CORR, F.KP_ECC_UNCORR]⟩
def KP_ORANGE_LO : RegDesc := ⟨"KP_ORANGE_LO", 0x4600040040, [(4, 0x1000000), (8, 0x8)],
  [F.KP_ORANGE_LO_EN, F.KP_ORANGE_LO_START]⟩
def KP_ORANGE_HI : RegDesc := ⟨"KP_ORANGE_HI", 0x4600040044, [(4, 0x1000000), (8, 0x8)],
  [F.KP_ORANGE_HI_END]⟩
def EH_RAISE : RegDesc := ⟨"EH_RAISE", 0x4640000000, [],
  [F.EH_RAISE_SW]⟩
def EH_RAISE_PAY : RegDesc := ⟨"EH_RAISE_PAY", 0x4640000004, [],
  [F.EH_RAISE_PAY_PAY]⟩
def EH_COAL : RegDesc := ⟨"EH_COAL", 0x4640000010, [],
  [F.EH_COAL_COUNT]⟩
def EH_UNROUTED : RegDesc := ⟨"EH_UNROUTED", 0x4640000014, [],
  [F.EH_UNROUTED_COUNT]⟩
def EH_TGT_DROP : RegDesc := ⟨"EH_TGT_DROP", 0x4640000018, [],
  [F.EH_TGT_DROP_OUT, F.EH_TGT_DROP_SPC]⟩
def EH_SRC : RegDesc := ⟨"EH_SRC", 0x4640001000, [(1024, 0x4)],
  [F.EH_SRC_K_EN, F.EH_SRC_KEEPER, F.EH_SRC_VEC, F.EH_SRC_ABUT, F.EH_SRC_OUT_EN, F.EH_SRC_OUT, F.EH_SRC_SPC_EN, F.EH_SRC_ROLE, F.EH_SRC_LINE, F.EH_SRC_PRI]⟩
def EH_PEND : RegDesc := ⟨"EH_PEND", 0x4640002000, [(1024, 0x4)],
  [F.EH_PEND_KPEND, F.EH_PEND_APEND, F.EH_PEND_CLASS, F.EH_PEND_KCOUNT, F.EH_PEND_ACOUNT]⟩
def EH_PAY : RegDesc := ⟨"EH_PAY", 0x4640003000, [(1024, 0x4)],
  [F.EH_PAY_PAY]⟩
def HP_CTL : RegDesc := ⟨"HP_CTL", 0x4700000000, [(16, 0x1000000)],
  [F.HP_CTL_I2C_FAST, F.HP_CTL_FLT_OFF, F.HP_CTL_RETRAIN, F.HP_CTL_RELEASE, F.HP_CTL_ATTACH, F.HP_CTL_LANES, F.HP_CTL_RATE, F.HP_CTL_AUTO, F.HP_CTL_ENABLE]⟩
def HP_STAT : RegDesc := ⟨"HP_STAT", 0x4700000004, [(16, 0x1000000)],
  [F.HP_STAT_STATE, F.HP_STAT_CAUSE, F.HP_STAT_PRESENT, F.HP_STAT_FAULT, F.HP_STAT_HPEN, F.HP_STAT_LOCK]⟩
def HP_TRG : RegDesc := ⟨"HP_TRG", 0x4700000008, [(16, 0x1000000)],
  [F.HP_TRG_PKT_EN, F.HP_TRG_PIN_EN, F.HP_TRG_WIDTH]⟩
def HP_TMO : RegDesc := ⟨"HP_TMO", 0x470000000C, [(16, 0x1000000)],
  [F.HP_TMO_PKT_US]⟩
def HP_SKEW : RegDesc := ⟨"HP_SKEW", 0x4700000010, [(16, 0x1000000)],
  [F.HP_SKEW_LANE3, F.HP_SKEW_LANE2, F.HP_SKEW_LANE1, F.HP_SKEW_LANE0]⟩
def HP_CC_CTL : RegDesc := ⟨"HP_CC_CTL", 0x4700000014, [(16, 0x1000000)],
  [F.HP_CC_CTL_GO, F.HP_CC_CTL_DONE, F.HP_CC_CTL_ERR, F.HP_CC_CTL_ALERT, F.HP_CC_CTL_RX_LEN, F.HP_CC_CTL_TX_LEN]⟩
def HP_PKT_OK : RegDesc := ⟨"HP_PKT_OK", 0x4700000020, [(16, 0x1000000)],
  [F.HP_PKT_OK_COUNT]⟩
def HP_PKT_DMG : RegDesc := ⟨"HP_PKT_DMG", 0x4700000024, [(16, 0x1000000)],
  [F.HP_PKT_DMG_COUNT]⟩
def HP_INGEST_DROP : RegDesc := ⟨"HP_INGEST_DROP", 0x4700000028, [(16, 0x1000000)],
  [F.HP_INGEST_DROP_COUNT]⟩
def HP_OVERRUN : RegDesc := ⟨"HP_OVERRUN", 0x470000002C, [(16, 0x1000000)],
  [F.HP_OVERRUN_COUNT]⟩
def HP_LOST : RegDesc := ⟨"HP_LOST", 0x4700000030, [(16, 0x1000000)],
  [F.HP_LOST_COUNT]⟩
def HP_ERR : RegDesc := ⟨"HP_ERR", 0x4700000034, [(16, 0x1000000)],
  [F.HP_ERR_STRAY_PKT, F.HP_ERR_BAD_CTRL, F.HP_ERR_LOCK_LOSS, F.HP_ERR_CC_CRC, F.HP_ERR_FAST]⟩
def LP_CTL : RegDesc := ⟨"LP_CTL", 0x4710000000, [(8, 0x1000000)],
  [F.LP_CTL_EN, F.LP_CTL_RATE, F.LP_CTL_FEC, F.LP_CTL_JUMBO, F.LP_CTL_ICMP]⟩
def LP_STAT : RegDesc := ⟨"LP_STAT", 0x4710000004, [(8, 0x1000000)],
  [F.LP_STAT_LINK, F.LP_STAT_BLOCK_LOCK, F.LP_STAT_FEC_LOCK, F.LP_STAT_FALLBACK]⟩
def LP_IP : RegDesc := ⟨"LP_IP", 0x4710000008, [(8, 0x1000000)],
  [F.LP_IP_ADDR]⟩
def LP_MASK : RegDesc := ⟨"LP_MASK", 0x471000000C, [(8, 0x1000000)],
  [F.LP_MASK_ADDR]⟩
def LP_GW : RegDesc := ⟨"LP_GW", 0x4710000010, [(8, 0x1000000)],
  [F.LP_GW_ADDR]⟩
def LP_MAC_LO : RegDesc := ⟨"LP_MAC_LO", 0x4710000014, [(8, 0x1000000)],
  [F.LP_MAC_LO_MAC_LO]⟩
def LP_MAC_HI : RegDesc := ⟨"LP_MAC_HI", 0x4710000018, [(8, 0x1000000)],
  [F.LP_MAC_HI_MAC_HI]⟩
def LP_RX_OK : RegDesc := ⟨"LP_RX_OK", 0x4710000020, [(8, 0x1000000)],
  [F.LP_RX_OK_COUNT]⟩
def LP_TX_OK : RegDesc := ⟨"LP_TX_OK", 0x4710000024, [(8, 0x1000000)],
  [F.LP_TX_OK_COUNT]⟩
def LP_RX_FCS : RegDesc := ⟨"LP_RX_FCS", 0x4710000028, [(8, 0x1000000)],
  [F.LP_RX_FCS_COUNT]⟩
def LP_RX_DISCARD : RegDesc := ⟨"LP_RX_DISCARD", 0x471000002C, [(8, 0x1000000)],
  [F.LP_RX_DISCARD_COUNT]⟩
def LP_FEC : RegDesc := ⟨"LP_FEC", 0x4710000030, [(8, 0x1000000)],
  [F.LP_FEC_CORR, F.LP_FEC_UNCORR]⟩
def LP_RN_AUTH : RegDesc := ⟨"LP_RN_AUTH", 0x4710000034, [(8, 0x1000000)],
  [F.LP_RN_AUTH_COUNT]⟩
def LP_RN_REPLAY : RegDesc := ⟨"LP_RN_REPLAY", 0x4710000038, [(8, 0x1000000)],
  [F.LP_RN_REPLAY_COUNT]⟩
def RN_CTL : RegDesc := ⟨"RN_CTL", 0x4718000000, [],
  [F.RN_CTL_REC_ENC, F.RN_CTL_CROP_ENC, F.RN_CTL_RTO_MS, F.RN_CTL_CROP_HOLD_MS]⟩
def RN_SESS_STAT : RegDesc := ⟨"RN_SESS_STAT", 0x4718000100, [(16, 0x20)],
  [F.RN_SESS_STAT_STATE, F.RN_SESS_STAT_PORT, F.RN_SESS_STAT_SUBS, F.RN_SESS_STAT_RIGHTS]⟩
def RN_SESS_ID : RegDesc := ⟨"RN_SESS_ID", 0x4718000104, [(16, 0x20)],
  [F.RN_SESS_ID_SESSION]⟩
def RN_SESS_PEER : RegDesc := ⟨"RN_SESS_PEER", 0x4718000108, [(16, 0x20)],
  [F.RN_SESS_PEER_PEER]⟩
def RN_SESS_CRED : RegDesc := ⟨"RN_SESS_CRED", 0x471800010C, [(16, 0x20)],
  [F.RN_SESS_CRED_CRED_NO]⟩
def RN_SESS_DROP : RegDesc := ⟨"RN_SESS_DROP", 0x4718000110, [(16, 0x20)],
  [F.RN_SESS_DROP_RECORDS, F.RN_SESS_DROP_CROPS, F.RN_SESS_DROP_NOTIFY]⟩
def SL_CTL : RegDesc := ⟨"SL_CTL", 0x4720000000, [],
  [F.SL_CTL_EN, F.SL_CTL_POS, F.SL_CTL_SIZE_M1, F.SL_CTL_MASTER, F.SL_CTL_LANES_E, F.SL_CTL_LANES_W]⟩
def SL_STAT : RegDesc := ⟨"SL_STAT", 0x4720000004, [],
  [F.SL_STAT_STATE_E, F.SL_STAT_STATE_W, F.SL_STAT_LANES_UP_E, F.SL_STAT_LANES_UP_W]⟩
def SL_DELAY : RegDesc := ⟨"SL_DELAY", 0x4720000008, [],
  [F.SL_DELAY_DELAY]⟩
def SL_HALO : RegDesc := ⟨"SL_HALO", 0x472000000C, [],
  [F.SL_HALO_NCOL, F.SL_HALO_NPL, F.SL_HALO_ROW]⟩
def SL_OFFSET : RegDesc := ⟨"SL_OFFSET", 0x4720000010, [],
  [F.SL_OFFSET_OFFSET]⟩
def SL_ERR : RegDesc := ⟨"SL_ERR", 0x4720000014, [],
  [F.SL_ERR_CRC, F.SL_ERR_RETRAIN]⟩
def SL_LATE : RegDesc := ⟨"SL_LATE", 0x4720000018, [],
  [F.SL_LATE_COUNT]⟩
def D5_CTL : RegDesc := ⟨"D5_CTL", 0x4800000000, [(8, 0x1000000)],
  [F.D5_CTL_SCRUB_EN, F.D5_CTL_SPARE_AUTO, F.D5_CTL_SPARE_THRESH, F.D5_CTL_SCRUB_HOURS]⟩
def D5_STAT : RegDesc := ⟨"D5_STAT", 0x4800000004, [(8, 0x1000000)],
  [F.D5_STAT_STATE, F.D5_STAT_CAUSE, F.D5_STAT_HOT]⟩
def D5_CFG : RegDesc := ⟨"D5_CFG", 0x4800000008, [(8, 0x1000000)],
  [F.D5_CFG_RATE, F.D5_CFG_WIDTH, F.D5_CFG_RANKS, F.D5_CFG_DENSITY, F.D5_CFG_MODULE]⟩
def D5_ECC : RegDesc := ⟨"D5_ECC", 0x480000000C, [(8, 0x1000000)],
  [F.D5_ECC_CORR, F.D5_ECC_UNCORR]⟩
def D5_ERR_LO : RegDesc := ⟨"D5_ERR_LO", 0x4800000010, [(8, 0x1000000)],
  [F.D5_ERR_LO_ADDR_LO]⟩
def D5_ERR_HI : RegDesc := ⟨"D5_ERR_HI", 0x4800000014, [(8, 0x1000000)],
  [F.D5_ERR_HI_VALID, F.D5_ERR_HI_UNCORR, F.D5_ERR_HI_SCRUB, F.D5_ERR_HI_ADDR_HI]⟩
def D5_SCRUB : RegDesc := ⟨"D5_SCRUB", 0x4800000018, [(8, 0x1000000)],
  [F.D5_SCRUB_PASSES, F.D5_SCRUB_PROGRESS]⟩
def D5_SPARE : RegDesc := ⟨"D5_SPARE", 0x480000001C, [(8, 0x1000000)],
  [F.D5_SPARE_USED, F.D5_SPARE_FREE]⟩
def D5_TEMP : RegDesc := ⟨"D5_TEMP", 0x4800000020, [(8, 0x1000000)],
  [F.D5_TEMP_TEMP]⟩
def D5_MAP : RegDesc := ⟨"D5_MAP", 0x4808000000, [],
  [F.D5_MAP_READY, F.D5_MAP_USED_GIB, F.D5_MAP_CHANNELS]⟩
def DC_RSTCAUSE : RegDesc := ⟨"DC_RSTCAUSE", 0x4900000000, [],
  [F.DC_RSTCAUSE_RAIL, F.DC_RSTCAUSE_CAUSE]⟩
def DC_CLKSTAT : RegDesc := ⟨"DC_CLKSTAT", 0x4900000004, [],
  [F.DC_CLKSTAT_ROOT_LOCK, F.DC_CLKSTAT_REFCLK_OK, F.DC_CLKSTAT_GLITCH]⟩
def DC_ISLAND : RegDesc := ⟨"DC_ISLAND", 0x4900000040, [(17, 0x4)],
  [F.DC_ISLAND_STATE, F.DC_ISLAND_TARGET]⟩
def PL_STAT : RegDesc := ⟨"PL_STAT", 0x4900100000, [],
  [F.PL_STAT_STATE, F.PL_STAT_SBY, F.PL_STAT_SBY_PHYS, F.PL_STAT_ROT]⟩
def PL_TAKE : RegDesc := ⟨"PL_TAKE", 0x4900100004, [],
  [F.PL_TAKE_GO, F.PL_TAKE_RESULT, F.PL_TAKE_ROLE]⟩
def PL_CHANGE : RegDesc := ⟨"PL_CHANGE", 0x4900100008, [],
  [F.PL_CHANGE_GO, F.PL_CHANGE_ABORT, F.PL_CHANGE_STATE, F.PL_CHANGE_ROLE]⟩
def PL_TEST : RegDesc := ⟨"PL_TEST", 0x490010000C, [],
  [F.PL_TEST_GO, F.PL_TEST_RESULT, F.PL_TEST_PHYS]⟩
def PL_LOAD_STAT : RegDesc := ⟨"PL_LOAD_STAT", 0x4900100010, [],
  [F.PL_LOAD_STAT_BUSY, F.PL_LOAD_STAT_SECTION, F.PL_LOAD_STAT_CODE]⟩
def PL_MUTED : RegDesc := ⟨"PL_MUTED", 0x4900100014, [],
  [F.PL_MUTED_COUNT]⟩
def PL_SWITCH_LO : RegDesc := ⟨"PL_SWITCH_LO", 0x4900100018, [],
  [F.PL_SWITCH_LO_LO]⟩
def PL_SWITCH_HI : RegDesc := ⟨"PL_SWITCH_HI", 0x490010001C, [],
  [F.PL_SWITCH_HI_HI]⟩
def PL_LAST : RegDesc := ⟨"PL_LAST", 0x4900100020, [],
  [F.PL_LAST_ROLE, F.PL_LAST_AGE, F.PL_LAST_DUR]⟩
def PL_ROLE : RegDesc := ⟨"PL_ROLE", 0x4900100100, [(17, 0x4)],
  [F.PL_ROLE_STATE, F.PL_ROLE_PHYS, F.PL_ROLE_GSIZE_LOG, F.PL_ROLE_POS, F.PL_ROLE_BANK, F.PL_ROLE_HEAD, F.PL_ROLE_HEAD_EN, F.PL_ROLE_HIST, F.PL_ROLE_CROWS]⟩
def PL_PHYS : RegDesc := ⟨"PL_PHYS", 0x4900100200, [(17, 0x4)],
  [F.PL_PHYS_USE, F.PL_PHYS_ROLE, F.PL_PHYS_FAULTS]⟩
def UPD_STAT : RegDesc := ⟨"UPD_STAT", 0x4900200000, [],
  [F.UPD_STAT_COMP, F.UPD_STAT_LEFT]⟩
def UPD_GEN : RegDesc := ⟨"UPD_GEN", 0x4900200004, [],
  [F.UPD_GEN_GEN]⟩
def UPD_COMP : RegDesc := ⟨"UPD_COMP", 0x4900200100, [(32, 0x4)],
  [F.UPD_COMP_STATE, F.UPD_COMP_SESSION, F.UPD_COMP_HELD, F.UPD_COMP_REASON, F.UPD_COMP_PROGRESS]⟩
def FH_CTL : RegDesc := ⟨"FH_CTL", 0x4900300000, [],
  [F.FH_CTL_AUTO_RESUME, F.FH_CTL_DIAG_AUTO, F.FH_CTL_LINK_LIMIT]⟩
def FH_LIMITS : RegDesc := ⟨"FH_LIMITS", 0x4900300004, [],
  [F.FH_LIMITS_VLOW_MV, F.FH_LIMITS_THOT, F.FH_LIMITS_TJ_WARN]⟩
def FH_LINKS : RegDesc := ⟨"FH_LINKS", 0x4900300008, [],
  [F.FH_LINKS_NO_ROUTE, F.FH_LINKS_DEGRADED]⟩
def FH_SPAN : RegDesc := ⟨"FH_SPAN", 0x4900300040, [(17, 0x4)],
  [F.FH_SPAN_TRIP, F.FH_SPAN_V_LOW, F.FH_SPAN_V_HIGH, F.FH_SPAN_T_HOT, F.FH_SPAN_VOLT, F.FH_SPAN_TEMP]⟩
def WR_CTL : RegDesc := ⟨"WR_CTL", 0x4900400000, [],
  [F.WR_CTL_WARN_DAYS]⟩
def WR_EOL : RegDesc := ⟨"WR_EOL", 0x4900400004, [],
  [F.WR_EOL_DAYS]⟩
def WR_DEV_HRS : RegDesc := ⟨"WR_DEV_HRS", 0x4900400008, [],
  [F.WR_DEV_HRS_HRS]⟩
def WR_PAIR_HRS : RegDesc := ⟨"WR_PAIR_HRS", 0x4900400040, [(17, 0x8)],
  [F.WR_PAIR_HRS_HRS]⟩
def WR_PAIR_DRIFT : RegDesc := ⟨"WR_PAIR_DRIFT", 0x4900400044, [(17, 0x8)],
  [F.WR_PAIR_DRIFT_DRIFT]⟩
def MB_DOORBELL : RegDesc := ⟨"MB_DOORBELL", 0x4F00000800, [(8, 0x1000)],
  [F.MB_DOORBELL_GO, F.MB_DOORBELL_DONE]⟩
def MB_STAT : RegDesc := ⟨"MB_STAT", 0x4F00000804, [(8, 0x1000)],
  [F.MB_STAT_STATUS, F.MB_STAT_STRAY]⟩
def MB_ALLOW : RegDesc := ⟨"MB_ALLOW", 0x4F00000808, [(8, 0x1000)],
  [F.MB_ALLOW_TAG]⟩
def ABT_STAT : RegDesc := ⟨"ABT_STAT", 0x4F00100000, [],
  [F.ABT_STAT_BOOT, F.ABT_STAT_FSLOT, F.ABT_STAT_ISLOT, F.ABT_STAT_OWNED, F.ABT_STAT_OSLOT, F.ABT_STAT_DEBUG_DECK, F.ABT_STAT_DEBUG_ABUT, F.ABT_STAT_LOCKED, F.ABT_STAT_RESTARTS]⟩
def ABT_VER : RegDesc := ⟨"ABT_VER", 0x4F00100004, [],
  [F.ABT_VER_VERSION]⟩
def ABT_SVN : RegDesc := ⟨"ABT_SVN", 0x4F00100008, [],
  [F.ABT_SVN_FW, F.ABT_SVN_KFW, F.ABT_SVN_LIB, F.ABT_SVN_IMG]⟩
def UCIE_STAT : RegDesc := ⟨"UCIE_STAT", 0x4F0010000C, [],
  [F.UCIE_STAT_STATE, F.UCIE_STAT_WIDTH, F.UCIE_STAT_RETRAINS]⟩
def UCIE_RETRY : RegDesc := ⟨"UCIE_RETRY", 0x4F00100010, [],
  [F.UCIE_RETRY_COUNT]⟩
def ABT_SERIAL0 : RegDesc := ⟨"ABT_SERIAL0", 0x4F00100020, [],
  [F.ABT_SERIAL0_BYTES]⟩
def ABT_SERIAL1 : RegDesc := ⟨"ABT_SERIAL1", 0x4F00100024, [],
  [F.ABT_SERIAL1_BYTES]⟩
def ABT_SERIAL2 : RegDesc := ⟨"ABT_SERIAL2", 0x4F00100028, [],
  [F.ABT_SERIAL2_BYTES]⟩
def ABT_SERIAL3 : RegDesc := ⟨"ABT_SERIAL3", 0x4F0010002C, [],
  [F.ABT_SERIAL3_BYTES]⟩

/-- The registers of the span windows. -/
def spanRegs : List RegDesc :=
  [SPC_OPTRC, RM_STAT, RM_HOLD, RM_RUNS, RX_EXTRA, RX_ABORT,
   RX_STALL, SPC_CTL, SPC_STAT, SPC_PC, SPC_ENTRY, SPC_INT,
   SPC_IMASK, SPC_WDOG, STRAY_MOVES, SPC_MISC, SPC_DISCARD, SPC_ISSUE_STALL,
   SPC_PLANE_WAIT, CKPT_HOLD, CKPT_CTL, CKPT_STAT, CKPT_LINE_LO, CKPT_LINE_HI,
   CKPT_REST, MS_STAT, MS_STRAY, MS_WAIT_LIMIT, MS_IDLE, MS_WAIT_CYC,
   MS_BUBBLE, MS_PAR_COUNT, MC_VER_0, MC_VER_1, MC_VER_2, MC_VER_3,
   ARR_STAT, ARR_COUPLE, ARR_PAR_STAT, ARR_PAR_COUNT, ARR_STALL_PLANE, ARR_STALL_GAUGE,
   ARR_STRAY, ARR_JOINT_STAT, ARR_JOINT_ERR, SPARE_MAP]
/-- The registers of the region windows. -/
def regionRegs : List RegDesc :=
  [RG_CTL, RG_STAT, RG_SRC, GB_CTL, TP_CTL, LB_STAT,
   LB_ECC, LB_OVERRUN, TP_ERR, RG_DROP, BM_COLL, CFG_STAT,
   CFG_SCRUB, CFG_IMAGE, GUARD_LOG, HR_CTL, HR_BASE_LO, HR_BASE_HI,
   HR_SKIP, RP_CTL, RP_LINE_LO, RP_LINE_HI, RP_STAT]
/-- The registers of the tracker windows. -/
def trackerRegs : List RegDesc :=
  [TRK_CTL, TRK_STAT, TRK_RUNS_IN, TRK_RECORDS, TRK_RUNS_DROP, TRK_DUP,
   TRK_LEDGER_HOLD, TRK_REPEAT_HOLD, TRK_ECC, TRK_NEXT_ID, TRK_CLASS, TRK_DOM_CTL,
   TRK_DOM_CTX, TRK_DOM_FLOOD, TRK_DOM_EXIT, TRK_DOM_STAT, TRK_DOM_LINE_LO, TRK_DOM_LINE_HI,
   TRK_DOM_FLOODS]
/-- The registers of the ledger windows. -/
def ledgerRegs : List RegDesc :=
  [LG_CTL, LG_BASE, LG_STAT, LG_NEXT_LO, LG_NEXT_HI, LG_OLDEST_LO,
   LG_OLDEST_HI, LG_SEG_CTL, LG_SEG, LG_SEG_FIRST_LO, LG_SEG_FIRST_HI, LG_SEG_LINE_LO,
   LG_SEG_LINE_HI, LG_WRITES, RF_CTL, RF_CHAINS, RF_TRUNC, RF_UNREAD,
   RF_SLOT, RF_PITCH_LO, RF_PITCH_HI, RF_TOL, CR_CTL, CR_TMO,
   CR_STORE, CR_CROPS, CR_STORE_WAIT]
/-- The registers of the timing windows. -/
def timingRegs : List RegDesc :=
  [SC_CTL, SC_STAT, SC_POS_LO, SC_POS_HI, SC_ZCAP_LO, SC_ZCAP_HI,
   SC_ZCHK, SC_RATE, SC_ERR, SC_STALL, SO_CTL, SO_DELAY,
   SO_WIDTH, ACT_DIST_LO, ACT_DIST_HI, ACT_PREPOST, ACT_LEAD, ACT_LATE,
   TG_CTL, TG_STAT, TG_HEADS, TG_PITCH, TG_ORIGIN_LO, TG_ORIGIN_HI,
   TG_MINPER, TG_INTRATE, TG_INDEX_LO, TG_INDEX_HI, TG_SKIP, TG_PROG,
   TM_NOW_LO, TM_NOW_HI, TM_EPOCH_LO, TM_EPOCH_HI, TM_STAT, PTP_CTL,
   PTP_INT, PTP_QUAL, PTP_UTC, PTP_SYNC_TX, PTP_DREQ_RX, PTP_DISCARD,
   AS_CTL, AS_STAT, AS_FIRED, AS_LATE, AS_DROP, AS_REFUSED,
   AS_POST_CTL, AS_POST_LO, AS_POST_HI]
/-- The registers of the causeway windows. -/
def causewayRegs : List RegDesc :=
  [CW_CTL, CW_STAT, CW_WRR, RT_DRAIN, RT_TABLE, CW_EP_CTL,
   CW_EP_STAT, CW_EP_TAG, PRB_STRAY, PRB_ISO, PRB_STALE, PRB_SHAPE,
   PRB_C0_DROP, PIER_ECC, PIER_SPAN_STALL, PIER_CONF, PRB_FLT_CTL, PRB_FLT_TAG,
   PRB_FLT_ALO, PRB_FLT_AHI, PRB_FLT_HEADS, PRB_FLT_FLITS, TRC_CTL, TRC_STAT]
/-- The registers of the keeper windows. -/
def keeperRegs : List RegDesc :=
  [KP_CTL, KP_STAT, KP_PC, KP_EVT, KP_WIN0, KP_WIN1,
   KP_OWIN0, KP_OWIN1, KP_SPLIM, KP_C0_LIMIT, KEEPER_ILLEGAL, KP_STRAY,
   KP_DISPATCH, KP_ECC, KP_ORANGE_LO, KP_ORANGE_HI]
/-- The registers of the hub windows. -/
def hubRegs : List RegDesc :=
  [EH_RAISE, EH_RAISE_PAY, EH_COAL, EH_UNROUTED, EH_TGT_DROP, EH_SRC,
   EH_PEND, EH_PAY]
/-- The registers of the head windows. -/
def headRegs : List RegDesc :=
  [HP_CTL, HP_STAT, HP_TRG, HP_TMO, HP_SKEW, HP_CC_CTL,
   HP_PKT_OK, HP_PKT_DMG, HP_INGEST_DROP, HP_OVERRUN, HP_LOST, HP_ERR]
/-- The registers of the line windows. -/
def lineRegs : List RegDesc :=
  [LP_CTL, LP_STAT, LP_IP, LP_MASK, LP_GW, LP_MAC_LO,
   LP_MAC_HI, LP_RX_OK, LP_TX_OK, LP_RX_FCS, LP_RX_DISCARD, LP_FEC,
   LP_RN_AUTH, LP_RN_REPLAY, RN_CTL, RN_SESS_STAT, RN_SESS_ID, RN_SESS_PEER,
   RN_SESS_CRED, RN_SESS_DROP]
/-- The registers of the strand windows. -/
def strandRegs : List RegDesc :=
  [SL_CTL, SL_STAT, SL_DELAY, SL_HALO, SL_OFFSET, SL_ERR,
   SL_LATE]
/-- The registers of the ddr windows. -/
def ddrRegs : List RegDesc :=
  [D5_CTL, D5_STAT, D5_CFG, D5_ECC, D5_ERR_LO, D5_ERR_HI,
   D5_SCRUB, D5_SPARE, D5_TEMP, D5_MAP]
/-- The registers of the device windows. -/
def deviceRegs : List RegDesc :=
  [DC_RSTCAUSE, DC_CLKSTAT, DC_ISLAND, PL_STAT, PL_TAKE, PL_CHANGE,
   PL_TEST, PL_LOAD_STAT, PL_MUTED, PL_SWITCH_LO, PL_SWITCH_HI, PL_LAST,
   PL_ROLE, PL_PHYS, UPD_STAT, UPD_GEN, UPD_COMP, FH_CTL,
   FH_LIMITS, FH_LINKS, FH_SPAN, WR_CTL, WR_EOL, WR_DEV_HRS,
   WR_PAIR_HRS, WR_PAIR_DRIFT]
/-- The registers of the abutment windows. -/
def abutmentRegs : List RegDesc :=
  [MB_DOORBELL, MB_STAT, MB_ALLOW, ABT_STAT, ABT_VER, ABT_SVN,
   UCIE_STAT, UCIE_RETRY, ABT_SERIAL0, ABT_SERIAL1, ABT_SERIAL2, ABT_SERIAL3]

end Desc

/-- The registers that can lie at an address, by the top-level window of R13. -/
def Desc.window (a : Nat) : List RegDesc :=
  if a < 0x4100000000 then [] else if a < 0x4180000000 then Desc.spanRegs
  else if a < 0x4200000000 then [] else if a < 0x4280000000 then Desc.regionRegs
  else if a < 0x4300000000 then [] else if a < 0x4310000000 then Desc.trackerRegs
  else if a < 0x4400000000 then Desc.ledgerRegs else if a < 0x4500000000 then Desc.timingRegs
  else if a < 0x4600000000 then Desc.causewayRegs else if a < 0x4640000000 then Desc.keeperRegs
  else if a < 0x4700000000 then Desc.hubRegs else if a < 0x4710000000 then Desc.headRegs
  else if a < 0x4720000000 then Desc.lineRegs else if a < 0x4800000000 then Desc.strandRegs
  else if a < 0x4900000000 then Desc.ddrRegs else if a < 0x4F00000000 then Desc.deviceRegs
  else Desc.abutmentRegs

/-- Whether the offset `o` from a register's first instance is that of one of its instances. -/
def dimsHit : List (Nat × Nat) → Nat → Bool
  | [], o => o == 0
  | (n, st) :: r, o => o / st < n && dimsHit r (o % st)

/-- The instance numbers at offset `o`. -/
def dimsIndex : List (Nat × Nat) → Nat → List Nat
  | [], _ => []
  | (_, st) :: r, o => o / st :: dimsIndex r (o % st)

/-- Whether address `a` is that of an instance of the register. -/
def RegDesc.hit (d : RegDesc) (a : Nat) : Bool := d.base ≤ a && dimsHit d.dims (a - d.base)

/-- The register at an address, if the spec gives one there. -/
def regAt (a : Nat) : Option RegDesc := (Desc.window a).find? (fun d => d.hit a)

/-- The value bits of field `f` in a register word. -/
def Fld.get (f : Fld) (w : BitVec 32) : Nat := (w.toNat >>> f.lo) % 2 ^ (f.hi - f.lo + 1)

/-- The mask of field `f`. -/
def Fld.mask (f : Fld) : BitVec 32 := BitVec.ofNat 32 ((2 ^ (f.hi - f.lo + 1) - 1) <<< f.lo)

/-- A register word with field `f` set to the low bits of `v`. -/
def Fld.put (f : Fld) (w : BitVec 32) (v : Nat) : BitVec 32 :=
  (w &&& ~~~f.mask) ||| (BitVec.ofNat 32 (v <<< f.lo) &&& f.mask)

/-- Whether a write may give field `f` the value `v`. -/
def Fld.accepts (f : Fld) (v : Nat) : Bool :=
  f.legal.isEmpty || f.legal.any (fun r => r.1 ≤ v && v ≤ r.2)

/-- The router (column, row) and local port of causeway endpoint `i`, R498. -/
def endpointPlace (i : Nat) : Nat × Nat × Nat :=
  if i < 8 then (i, 2, 0) else if i < 16 then (i - 8, 3, 0) else if i = 16 then (7, 4, 0)
  else if i < 25 then (i - 17, 2, 1) else if i < 33 then (i - 25, 3, 1) else if i = 33 then (7, 4, 1)
  else if i = 34 then (3, 4, 0) else if i = 35 then (4, 4, 0) else if i = 36 then (5, 4, 0)
  else if i = 37 then (6, 4, 0) else if i = 38 then (6, 0, 0) else if i < 43 then (i - 38, 1, 0)
  else if i = 43 then (5, 1, 0) else if i < 46 then (0, i - 44, 0) else if i < 48 then (0, i - 42, 0)
  else if i < 52 then (i - 47, 0, 0) else if i < 60 then (i - 52, 2, 2) else if i < 68 then (i - 60, 3, 2)
  else if i < 72 then (6, 5, i - 68) else if i < 74 then (7, 5, i - 72) else if i < 76 then (7, 4, i - 72)
  else if i = 76 then (3, 5, 0) else if i = 77 then (7, 0, 0) else if i = 78 then (7, 1, 0)
  else (7, 5, 2)

/-- The class of event source `s`, fixed by the chapter of its unit (R329); 0 for a source that stepping B0
does not raise (`EH_PEND.CLASS`, R340). -/
def eventClass (s : Nat) : Nat :=
  if s < 272 then
    [1, 0, 1, 2, 0, 0, 0, 0, 0, 1, 0, 0, 0, 0, 0, 1].getD (s % 16) 0
  else if s < 544 then
    [1, 1, 0, 1, 1, 2, 0, 1, 2, 0, 1, 0, 2, 2, 2, 2].getD ((s - 272) % 16) 0
  else if s < 608 then 1
  else if s < 672 then
    if s % 4 = 0 then 1 else if s % 4 = 1 then 2
    else if s % 4 = 2 then (if s < 640 then 1 else 0) else 1
  else if s < 736 then [1, 2, 1, 1, 2, 0, 0, 0].getD (s % 8) 0
  else if s < 741 then [1, 1, 0, 1, 2].getD (s - 736) 0
  else if s < 768 then 0
  else if s < 776 then [1, 1, 1, 1, 1, 2, 2, 0].getD (s - 768) 0
  else if s < 784 then 0
  else if s < 787 then [1, 2, 1].getD (s - 784) 0
  else if s = 792 ∨ s = 793 ∨ s = 800 ∨ s = 801 then 2
  else if s < 832 then 0
  else if s < 841 then [2, 0, 2, 0, 1, 1, 1, 2, 0].getD (s - 832) 0
  else if s < 896 then 0
  else if s < 960 then [1, 2, 1, 1, 2, 1, 0, 0].getD ((s - 896) % 8) 0
  else if s < 977 then 0
  else if s < 982 then [1, 1, 1, 2, 2].getD (s - 977) 0
  else if s < 984 then 0
  else if s < 989 then [1, 1, 1, 2, 1].getD (s - 984) 0
  else if s < 992 then 0
  else if s < 1004 then [1, 2, 1, 1, 2, 2, 2, 1, 1, 2, 1, 1].getD (s - 992) 0
  else if s < 1012 then 1
  else if s < 1016 then 0
  else if s < 1020 then 1
  else 2

/-- Stepping B0 raises source `s` (R53, R131, R201, R230, R250, R283, R312, R338, R366, R436, R470). -/
def sourceRaised (s : Nat) : Bool :=
  if s < 272 then s % 16 != 7 && s % 16 != 8 && s % 16 != 11
  else if s < 544 then (s - 272) % 16 != 11
  else if s < 608 then true
  else if s < 672 then !(s % 4 == 2 && 640 ≤ s)
  else if s < 736 then s % 8 < 5
  else if s < 768 then s < 741
  else if s < 784 then s < 776
  else if s < 832 then s < 787 || s == 792 || s == 793 || s == 800 || s == 801
  else if s < 896 then s < 841
  else if s < 960 then s % 8 < 6
  else if s < 984 then s != 982 && s != 983
  else if s < 992 then s < 989
  else !(1012 ≤ s && s < 1016)

/-- The bits of a register word that are fixed in silicon: an endpoint's router and port (R498), an event
source's class (R340). -/
def fixedWord (a : Nat) : BitVec 32 :=
  if Reg.CW_EP_STAT 0 ≤ a ∧ a < Reg.CW_EP_STAT 80 ∧ (a - Reg.CW_EP_STAT 0) % 0x100 = 0 then
    let p := endpointPlace ((a - Reg.CW_EP_STAT 0) / 0x100)
    BitVec.ofNat 32 (p.1 * 32 + p.2.1 * 4 + p.2.2)
  else if Reg.EH_PEND 0 ≤ a ∧ a < Reg.EH_PEND 1024 ∧ (a - Reg.EH_PEND 0) % 4 = 0 then
    BitVec.ofNat 32 (eventClass ((a - Reg.EH_PEND 0) / 4) * 2 ^ 28)
  else 0

/-- The value of the register at address `a` when its unit leaves reset (R7); 0 where there is no register. -/
def resetWord (a : Nat) : BitVec 32 :=
  match regAt a with
  | none => 0
  | some d => d.fields.foldl (fun w f => f.put w f.reset) 0 ||| fixedWord a

end Sys2Proof.Machine
end

