-- ==== Sys2Proof/Machine/State.lean ====
section
/-!
DEFINITION. The state of the part. Registers are in one store under their causeway addresses (Machine/Registers.lean
names them all); memory that a window shows (DDR5, piers, data scratch, Keeper memory, instruction, micro and nano
stores, line-buffer slots and descriptors, buffers) is in one byte memory under its causeway addresses; every unit's
state that no register or window shows has a structure of its own here. INVENTORY.md lists each piece with its rule.
-/

namespace Sys2Proof.Machine

/-- The register store: addresses strictly rising, no entry equal to its register's reset value. -/
abbrev RegStore := List (Nat × BitVec 32)

/-- Byte memory in canonical form: addresses strictly rising, no byte 0 listed (an unlisted byte reads 0). -/
abbrev Memory := List Host.Cell

/-! ## The array (02) -/

/-- One bit per bit processor of a span: the 16,384 duty columns by logical number (R32), and the bypassed or unused
physical column of each of the 512 groups (R33). -/
structure Plane where
  duty : BitVec 16384
  spare : BitVec 512
deriving DecidableEq, Repr

/-- The halo of one outer edge for one line (R46, R47, R281): the line's index, the columns delivered, and one 64-bit
plane per captured row, bit i for the column i away from the edge. -/
structure Halo where
  line : BitVec 64
  cols : Nat
  planes : List (BitVec 64)
deriving DecidableEq, Repr

/-- The array of one physical span: memory rows (R21; rows not listed are 0), groups whose parity bit mismatches
(R28; row × 512 + group), registers, the X of the 32 westmost (low half) and 32 eastmost columns at the start of the
previous ACLK cycle (R44), the plane port (R36) and the halo chains and stores of the two edges (R46, R47). -/
structure SpanArray where
  rows : List (Nat × Plane)
  parBad : List Nat
  p : Plane
  q : Plane
  c : Plane
  x : Plane
  t : Plane
  m : Plane
  xPrev : BitVec 64
  port : List (BitVec 16384)
  chainW : BitVec 64
  chainE : BitVec 64
  halosW : List Halo
  halosE : List Halo
  /-- A sweep is running: 1 the clearing sweep of R27, 2 a parity sweep of R35, 0 none. -/
  sweep : BitVec 2
  /-- The island is powered and the span is out of reset. -/
  powered : Bool
deriving DecidableEq, Repr

/-! ## The micro-sequencer (03) -/

/-- The parameters of an array operation (R59) and the extraction format it carries (R108). -/
structure ArrayOp where
  routine : BitVec 10
  b0 : BitVec 11
  b1 : BitVec 11
  b2 : BitVec 11
  b3 : BitVec 11
  w : BitVec 6
  w2 : BitVec 6
  kc : BitVec 64
  gws : BitVec 19
  gwe : BitVec 19
  rxf : BitVec 15
deriving DecidableEq, Repr

/-- One entry of the array issue queue (R108). -/
inductive QueueEntry
  | op (o : ArrayOp)
  | token (v : BitVec 16)
  | lineSync
  | snapshot (base : BitVec 11) (count : BitVec 7)
deriving DecidableEq, Repr

/-- A resident micro-routine: its number, its first micro address and its number of microwords (R60, R502). -/
structure Routine where
  number : Nat
  first : Nat
  length : Nat
deriving DecidableEq, Repr

/-- The micro-sequencer of one span controller. The micro address and the routine number are in `MS_STAT`; the two
stores are memory windows (R88). -/
structure MicroSeq where
  routines : List Routine
  op : Option ArrayOp
  ar0 : BitVec 11
  ar1 : BitVec 11
  ar2 : BitVec 11
  ar3 : BitVec 11
  lc0 : Nat
  lc1 : Nat
  /-- The last issued nano-word wrote X (R64). -/
  wroteX : Bool
  /-- ACLK cycles that the present wait has lasted, and MS_WAIT_LONG has been raised for it (R73). -/
  waited : Nat
  waitLong : Bool
  /-- Global-OR results on their way, oldest first, and the last one visible (R48, R50). -/
  gorPend : List Bool
  gor : Bool
  /-- A global-OR request has been made since the last line sync (R113, R117). -/
  gorFresh : Bool
  /-- Gauge results on their way, results ready to read, oldest first, and the last one that became ready (R49–R51). -/
  gauPend : List (BitVec 32)
  gauReady : List (BitVec 32)
  gauLast : BitVec 32
  /-- The entry of the operation trace that records the operation in progress (R469). -/
  traced : Option Nat
deriving DecidableEq, Repr

/-! ## The span controller (04) -/

/-- One ALU (R99): operand, result, flags (bit 0 C, bit 1 V, bit 2 DZ), and the results that are not yet readable,
oldest first, each with the flags it leaves (mask, values) and whether it is a division (R98). -/
structure AluResult where
  value : BitVec 32
  mask : BitVec 3
  flags : BitVec 3
  division : Bool
deriving DecidableEq, Repr

structure Alu where
  o : BitVec 32
  r : BitVec 32
  f : BitVec 3
  pend : List AluResult
deriving DecidableEq, Repr

/-- A pier load under way (R98, R103): load code (0 ldb, 1 ldbu, 2 ldh, 3 ldhu, 4 ldw) and the pier offset. -/
structure PierLoad where
  code : Nat
  offset : Nat
  txn : BitVec 8
deriving DecidableEq, Repr

/-- A message of the span controllers (R121): sender's role tag and eight words. -/
structure SpanMsg where
  tag : BitVec 16
  words : Vector (BitVec 32) 8
deriving DecidableEq, Repr

/-- The strand results of one line of a controller (R119, R282): the count of `LS.next` that started the line, its
index once the array has left it, the controller's own posts, the partials that have arrived from the east and the
west, whether its RED message has left on each side, and whether it no longer waits for a side that has gone down (R282). -/
structure RedLine where
  ord : Nat
  index : Option (BitVec 64)
  own : StrandPost
  east : Option StrandPost
  west : Option StrandPost
  sentE : Bool
  sentW : Bool
  cutE : Bool
  cutW : Bool
deriving DecidableEq, Repr

/-- A halo capture (R281), in progress or waiting for its label: the number of the line sync that it belongs to, the label
line once its index is known, first row, rows and columns, and the planes of the rows read so
far at the west and the east edge, column 0 nearest the edge. -/
structure Capture where
  ord : Nat
  line : Option (BitVec 64)
  base : BitVec 11
  count : Nat
  cols : Nat
  west : List (BitVec 64)
  east : List (BitVec 64)
deriving DecidableEq, Repr

/-- What a span knows of one line of its group: index, coordinate and time (R8), damaged for some head, mode of R115,
and, for each span of the group from position 0, the line-buffer slot that holds it or `none` where it is lost. -/
structure GroupLine where
  index : BitVec 64
  coord : BitVec 64
  time : BitVec 64
  damaged : Bool
  mode : BitVec 2
  lost : Nat
  slots : List (Option (Fin 32))
deriving DecidableEq, Repr

/-- A snapshot being copied (R122–R124): first row, count, label line, the line syncs since it, and the rows read so far,
each as the planes of the spans of the domain. -/
structure Snapshot where
  base : BitVec 11
  count : Nat
  line : BitVec 64
  age : Nat
  rows : List (List (BitVec 16384))
deriving DecidableEq, Repr

/-- The span controller of one physical span: what R96 gives it beyond its registers of R132. -/
structure SpanCtl where
  v : Vector (BitVec 32) 32
  g : BitVec 4
  limm : BitVec 32
  alu0 : Alu
  alu1 : Alu
  /-- Load/store unit: store operand, load result, SCLK cycles until a load result is readable, a pier load
  outstanding, transactions and piers of the posted stores outstanding, the next transaction number (R98, R103). -/
  lsuO : BitVec 32
  lsuR : BitVec 32
  lsuWait : Nat
  lsuPier : Option PierLoad
  stores : List (BitVec 8 × Nat)
  txn : BitVec 8
  callMask : BitVec 32
  fp : BitVec 32
  /-- FP before each call that has not returned, innermost first (R105). -/
  frames : List Nat
  ie : Bool
  /-- Operand sockets of the issue unit, in the form of an operation entry (routine unused). -/
  ai : ArrayOp
  done : BitVec 16
  queue : List QueueEntry
  /-- Lines started by `LS.next` since the start, and line syncs the array has reached since then (R113, R114). -/
  nexts : Nat
  syncs : Nat
  /-- Lines that line syncs have left before their fate was known. -/
  behind : Nat
  /-- The line that the plane ports serve, once its fate is known, and the planes taken of it (R37, R113). -/
  served : Option GroupLine
  taken : Nat
  /-- The extraction set open at the array: its format and planes handed (R112). -/
  set : Option (BitVec 15 × Nat)
  stHi : BitVec 32
  cwTo : BitVec 16
  cwD : Vector (BitVec 32) 8
  /-- Packets that wait to leave the span's endpoint, oldest first; messages received (R121). -/
  outbox : List Packet
  inbox : List SpanMsg
  ckBase : BitVec 11
  snap : Option Snapshot
  /-- A halo capture of the span's strand edges in progress (R281). -/
  caps : List Capture
  /-- Posts of the controller's line, and of earlier lines (R119, R282). -/
  post : StrandPost
  red : List RedLine
  /-- Partials from the east (true) or west for a line that the array has not yet left. -/
  redIn : List (Bool × BitVec 64 × StrandPost)
  /-- SCLK cycles since the last `LS.next`, and SPC_WATCHDOG raised since then (R116). -/
  wdog : Nat
  wdogFired : Bool
  /-- SCLK cycles of a jump, call, return or interrupt entry still to pass (R104, R105). -/
  busy : Nat
  /-- The bundle at SPC_PC is waiting (R98). -/
  waiting : Bool
  /-- A drain (R127): 0 none or still fetching, 1 fetching has ended, 2 the line sync is complete. -/
  drain : BitVec 2
  /-- A start waits for INIT_DONE (R129). -/
  starting : Bool
  /-- The line index that a takeover names for the first line sync (R129, R362). -/
  firstLine : Option (BitVec 64)
deriving DecidableEq, Repr

/-! ## Approach regions (06) -/

/-- A configuration frame as applied (R183–R186): address (TYPE, MAJOR, MINOR as in word 0), word 1, the 64 data words, the CRC
of word 66, and whether it is on the frame CRC list (applied since the last unseal). -/
structure Frame where
  key : Nat
  fmt : BitVec 32
  words : List (BitVec 32)
  crc : BitVec 32
  listed : Bool
deriving DecidableEq, Repr

/-- A beat from the gearbox to the user logic (R182). -/
structure Beat where
  pixels : List (BitVec 16)
  sol : Bool
  eol : Bool
  damaged : Bool
deriving DecidableEq, Repr

/-- A stamp that waits at the transposer for its output line (R191): the stamp of R8, the packet's status, its USER
bytes. -/
structure StampIn where
  index : BitVec 64
  coord : BitVec 64
  time : BitVec 64
  damaged : Bool
  user : List (BitVec 8)
  head : Fin 16
deriving DecidableEq, Repr

/-- The line packet that the gearbox unpacks (R182): stamp, the descriptor's pixel count, data bytes received so far
and pixels handed on. -/
structure GearLine where
  stamp : StampIn
  pixels : Nat
  /-- Data blocks of the packet, and blocks taken (block 0 is the header). -/
  dblocks : Nat
  blocks : Nat
  /-- The packet has ended; it was declared damaged. -/
  ended : Bool
  data : List (BitVec 8)
  handed : Nat
deriving DecidableEq, Repr

/-- The output line that the transposer takes (R191–R193): its stamp, its slot (`none`: the line is discarded), the
columns taken, and whether beats beyond the last column were discarded. -/
structure OutLine where
  stamp : StampIn
  slot : Option (Fin 32)
  cols : Nat
  long : Bool
deriving DecidableEq, Repr

/-- One entry of a region's line order (R194): the line's index and its slot, or `none` for a lost marker. -/
structure LineEntry where
  index : BitVec 64
  slot : Option (Fin 32)
deriving DecidableEq, Repr

/-- A replay copy in progress (R197): its source, the next line index, lines left, lines still to be marked prime. -/
structure Replay where
  src : Fin 17
  next : BitVec 64
  left : Nat
  prime : Nat
deriving DecidableEq, Repr

/-- A line in flight at the history-ring writer (R200): its slot and index, stamp and flags. -/
structure HistLine where
  slot : Option (Fin 32)
  index : BitVec 64
  coord : BitVec 64
  time : BitVec 64
  damaged : Bool
  lost : Bool
  stored : Bool
deriving DecidableEq, Repr

/-- One port of a block memory (R179, R180): data at the array output and in the output register, and whether the
present cycle's read and the one behind the output register are reported BUSY. -/
structure BmPort where
  out : BitVec 72
  outReg : BitVec 72
  busy : Bool
  busyReg : Bool
deriving DecidableEq, Repr

/-- The ports of the user logic on the east edge after the last FCLK cycle (R191, R201). -/
structure EdgePorts where
  words : List (BitVec 16)
  valid : Bool
  eol : Bool
  damaged : Bool
  user : BitVec 4
deriving DecidableEq, Repr

/-- One approach region beyond its registers and memory windows. -/
structure Region where
  frames : List Frame
  window : List (BitVec 32)
  cellR : List (BitVec 16)
  cellF : List Bool
  bmem : List (Nat × BitVec 72)
  bmPorts : List BmPort
  ports : EdgePorts
  userPrev : BitVec 4
  /-- Segments whose contention guard is tripped (R178), as `GUARD_LOG` words without VALID. -/
  guards : List (BitVec 32)
  /-- The source in force, and the port whose packet is in progress to the region (R169). -/
  source : Option (Fin 16)
  taking : Option (Fin 16)
  /-- Ports whose accepted packets still have items queued for the region, in the order of their START (R169, R170). -/
  feeds : List (Fin 16)
  gear : Option GearLine
  beats : List Beat
  stamps : List StampIn
  out : Option OutLine
  order : List LineEntry
  /-- Lost lines whose markers wait for earlier lines to enter the order (R194). -/
  markers : List StampIn
  consumed : List (Fin 32)
  /-- Planes of the line that the plane ports serve already sent (R195), and the words of its slot whose double-bit errors
  have been reported in them (R196). -/
  sent : Nat
  badWords : List Nat
  replay : Option Replay
  /-- Highest line index that a self-copy or copy has put in the order (R197). -/
  copied : Option (BitVec 64)
  /-- Lines that the history-ring writer has still to start, and lines in flight (R200). -/
  histDue : List HistLine
  hist : List HistLine
  scrub : Nat
deriving DecidableEq, Repr

/-! ## Run extraction (07) -/

/-- A run (R203, R207), in domain columns once the merger has numbered it. -/
structure Run where
  start : Nat
  stop : Nat
  cls : BitVec 4
  peak : BitVec 16
deriving DecidableEq, Repr

/-- A band of one truss (R207, R222). -/
structure Band where
  truss : Nat
  start : Nat
  stop : Nat
  area : Nat
  cls : BitVec 4
  peak : BitVec 16
deriving DecidableEq, Repr

/-- An extraction set of a span (R112, R203–R205): format, planes handed, closed, marked aborted, the index of the line
served, REDO, EXTRA, the trusses whose extractor has scanned it, and the runs formed. -/
structure ExtractSet where
  fmt : BitVec 15
  planes : List (BitVec 16384)
  closed : Bool
  aborted : Bool
  line : BitVec 64
  redo : Bool
  extra : Bool
  scanned : BitVec 16
  runs : Nat
  /-- The line syncs that had passed when the set opened, while its line's index is not yet known. -/
  ord : Option Nat
  /-- Runs written so far by trusses whose scan is not complete (truss, count). -/
  wrote : List (Nat × Nat)
deriving DecidableEq, Repr

/-- A word between a merger and the tracker (R207). -/
inductive MergerWord
  | run (r : Run)
  | band (b : Band)
  | mark (aborted redo band extra : Bool) (runs : BitVec 16) (lag : BitVec 3) (line : BitVec 32)
  | filler
deriving DecidableEq, Repr

/-- The run extractors and the run merger of one span: sets held, oldest first; per truss the run queue (`none` ends a
set); whether the served line's set has closed; the words that the merger holds for the tracker, oldest first; words
sent and not yet taken (R10); consecutive FCLK cycles of hold. -/
structure Extraction where
  sets : List ExtractSet
  queues : Vector (List (Option Run)) 16
  closed : Bool
  /-- The truss whose runs of the oldest set the merger takes (16: all taken), and a run that may go on in the next. -/
  truss : Nat
  joined : Option Run
  out : List MergerWord
  sent : List MergerWord
  hold : Nat
  bandNext : Option Bool
  /-- Format of the last set opened (R205). -/
  lastFmt : BitVec 15
deriving DecidableEq, Repr

/-! ## The blob tracker (07) -/

/-- An open blob's context (R212–R216). -/
structure Blob where
  id : BitVec 32
  seq : Nat
  head : BitVec 8
  first : BitVec 64
  last : BitVec 64
  coord : BitVec 64
  time : BitVec 64
  minCol : Nat
  maxCol : Nat
  area : Nat
  runs : Nat
  classMask : BitVec 16
  peak : BitVec 16
  sumCol : Nat
  sumLine : Nat
  merges : Nat
  contd : Bool
  gap : Bool
  takenOver : Bool
  aborted : Bool
  postFlood : Bool
  /-- The stamp of FIRST_LINE is taken. -/
  stamped : Bool
  empty : Nat
  extent : Nat × Nat
  /-- Its runs on the previously processed domain line, and on the line in processing (start, end). -/
  prev : List (Nat × Nat)
  now : List (Nat × Nat)
deriving DecidableEq, Repr

/-- A mark as the tracker keeps it, its line index extended to 64 bits (R207, R210). -/
structure SetMark where
  aborted : Bool
  redo : Bool
  band : Bool
  runs : Nat
  lag : Nat
  line : BitVec 64
deriving DecidableEq, Repr

/-- An alarm accumulator of a domain in flood (R223); or what one line brings to it, with the number of its runs. -/
structure Alarm where
  any : Bool
  minCol : Nat
  maxCol : Nat
  area : Nat
  runs : Nat
  classMask : BitVec 16
  peak : BitVec 16
  /-- Sum of area × (START + END), and of area × (line − the window's first line). -/
  weighted : Nat
  lineSum : Nat
deriving DecidableEq, Repr

/-- What one span has delivered for one tagged line (R209): words taken into the run store, in flood those folded instead
(R222), and, once it has come, the mark. -/
structure SpanSet where
  runs : List Run
  bands : List Band
  fold : Alarm
  mark : Option SetMark
deriving DecidableEq, Repr

/-- One tracking domain (R208–R224). -/
structure Domain where
  blobs : List Blob
  /-- Per span position, the sets delivered and not yet processed, oldest first; the last may lack its mark. -/
  staged : List (List SpanSet)
  /-- A has a value: a line has been applied or tracking has resumed after A. -/
  applied : Bool
  /-- Tracking starts at the first line whose marks every span delivers (R219). -/
  joining : Bool
  /-- The checkpoint age of the last takeover (R220). -/
  age : BitVec 8
  /-- Flood: accumulators by span position, window's first line, lines in the window, gap, consecutive quiet lines. -/
  alarms : List Alarm
  winFirst : BitVec 64
  winLines : Nat
  winGap : Bool
  quiet : Nat
  /-- After a flood: waiting for the first line whose marks have BAND clear; that line's blobs carry POST_FLOOD. -/
  afterFlood : Bool
  /-- A service record RESUMED is due at the first mark (R218). -/
  resumeDue : Bool
  /-- Domain runs dropped in the run store: (tagged line, span position) impaired (R219, R229). -/
  hurt : List (BitVec 64 × Nat)
deriving DecidableEq, Repr

/-- A built record that waits to be emitted (R228): its 64 bytes' fields are final; `mark` and `crop` say what is due. -/
structure BuiltRecord where
  bytes : List (BitVec 8)
  area : Nat
  classMask : BitVec 16
  lastCoord : BitVec 64
  context : Bool
  domain : Fin 16
  /-- Crop and marking are done. -/
  stepped : Bool
deriving DecidableEq, Repr

/-- A report of a lost or damaged line of a head (R11, R211). -/
structure LossReport where
  head : Fin 16
  line : BitVec 64
deriving DecidableEq, Repr

/-- A line stamp kept by the tracker (R210), with its group. -/
structure GroupStamp where
  group : Fin 8
  index : BitVec 64
  coord : BitVec 64
  time : BitVec 64
deriving DecidableEq, Repr

/-- The blob tracker beyond its registers. -/
structure Tracker where
  domains : Vector Domain 16
  stamps : List GroupStamp
  losses : List LossReport
  /-- Domain lines with all their marks, in the order in which these completed (R217): lead and tagged line. -/
  ready : List (Fin 16 × BitVec 64)
  built : List BuiltRecord
  nextSeq : Nat
  /-- Records emitted, which tag a record on its way to the ledger; device time of the last marking message. -/
  emitted : Nat
  lastMark : Option (BitVec 64)
  /-- A ledger or repeat-finder hold is in progress (R228). -/
  holding : Bool
deriving DecidableEq, Repr

/-! ## Head ports (05) -/

/-- An outstanding trigger (R145): the line's stamp (R8), and whether its packet has started. -/
structure Trigger where
  index : BitVec 64
  coord : BitVec 64
  time : BitVec 64
  started : Bool
deriving DecidableEq, Repr

/-- The packet in progress on a port (R140–R148): the line it was accepted for, the total blocks of its START, its
header block, the blocks received, the running CRC over blocks 0 to N, and its trailer block. -/
structure HeadPacket where
  trig : Trigger
  total : Nat
  header : List (BitVec 8)
  got : Nat
  crc : BitVec 32
  trailer : List (BitVec 8)
deriving DecidableEq, Repr

/-- An entry of the ingest queue of a port (R10, R144) with the regions that have still to take it. -/
inductive IngestItem
  | start (stamp : StampIn) (pixels dblocks : Nat)
  | block (bytes : List (BitVec 8))
  | finish (damaged : Bool)
deriving DecidableEq, Repr

structure Ingest where
  item : IngestItem
  regions : BitVec 17
deriving DecidableEq, Repr

/-- A control-channel request outstanding (R156): its message without CRC, the attempt, whether the port itself
made it while configuring (R161), and when it was last sent. -/
structure CcRequest where
  msg : List (BitVec 8)
  attempt : Nat
  own : Bool
  sent : BitVec 64
deriving DecidableEq, Repr

/-- What the image's HEADS section requires of a port (R160, R161). -/
structure HeadSettings where
  pixels : BitVec 16
  bits : BitVec 8
  lanes : BitVec 8
  writes : List (List (BitVec 8))
deriving DecidableEq, Repr

/-- A TRIG word as sent (R135, R150). -/
structure TrigWord where
  line : BitVec 16
  offset : BitVec 8
  expCode : BitVec 16
  flags : BitVec 8
deriving DecidableEq, Repr

/-- A control word (R135): IDLE, ALIGN, START, TERM, TRIG, CTRL with its position and 6 message bytes, or TRAIN. -/
inductive CtrlWord
  | idle
  | align (lane count : BitVec 8) (seq : BitVec 16)
  | start (line total : BitVec 16) (lane : BitVec 8)
  | term (line blocks : BitVec 16)
  | trig (w : TrigWord)
  | ctrl (pos : BitVec 8) (bytes : List (BitVec 8))
  | train (lane count : BitVec 8) (locked ready : Bool)
deriving DecidableEq, Repr

/-- One head port beyond its registers and memory windows. -/
structure HeadPort where
  triggers : List Trigger
  /-- Index of the first trigger since ACTIVE was entered (R147, R150), or `none` before it. -/
  firstTrig : Option (BitVec 64)
  packet : Option HeadPacket
  /-- A packet is being discarded up to its TERM words. -/
  skipping : Bool
  ingest : List Ingest
  /-- Consecutive training failures, a retry wait in progress (R139), and per lane the last ALIGN sequence and its
  position (R137), and the ALIGN markers that agreed so far. -/
  fails : Nat
  retryWait : Bool
  aligns : List (BitVec 16)
  alignLate : List Nat
  alignRun : Nat
  ready : Bool
  /-- Lane positions whose TRAIN words passed the checks of R137. -/
  laneOk : BitVec 4
  cc : Option CcRequest
  ccTag : BitVec 8
  ccGo : Bool
  /-- The CTRL words of the last message sent (R153). -/
  ccSent : List CtrlWord
  /-- CONFIGURING: messages already acknowledged (0: IDENT next). -/
  cfgStep : Nat
  settings : HeadSettings
  pixels : BitVec 16
  bits : BitVec 8
  minPeriod : BitVec 16
  /-- RELEASING: STREAM off has been sent. -/
  streamOff : Bool
  /-- Pulses on HTRG since the port became ACTIVE, as rise and fall in interpolator steps of 156.25 ps (R150, R151), and
  the last TRIG word sent. -/
  htrg : List (Nat × Nat)
  /-- Device time of the last trigger since ACTIVE was entered (R151). -/
  trigTime : Option (BitVec 64)
  trigSent : Option TrigWord
  /-- What the transmitter sends between TRIG and CTRL words (R137): words with how often each is sent, 0 for as long as
  the port stays as it is; empty while the transmitter is idle. -/
  down : List (Nat × CtrlWord)
  /-- Device time at which the present state, or the wait after a training failure, began (R139, R161, R162); the descriptor of
  the head present has been read (R161). -/
  since : BitVec 64
  known : Bool
deriving DecidableEq, Repr

/-! ## The causeway and the piers (10) -/

/-- A class-0 shaper (R291): packets that wait, the device time of the last release, and the millisecond of device
time in which a wait last raised CW_SHAPE. -/
structure Shaper where
  waiting : List Packet
  last : Option (BitVec 64)
  told : Option Nat
deriving DecidableEq, Repr

/-- A request that a memory serves (R302, R306): the packet, the bytes served so far with the data read, and whether an
uncorrectable error has been met. -/
structure MemJob where
  req : Packet
  done : Nat
  data : List (BitVec 8)
  ecc : Bool
deriving DecidableEq, Repr

/-- One pier (R302, R303): requests that wait, the direct master served last, the source of the write whose second cycle is
due, and the accesses of checkpoint copies that wait: of a restore or of a snapshot, and of which span. -/
structure Pier where
  waiting : List MemJob
  last : Nat
  merge : Option (Fin 80)
  ckpt : List (Bool × Fin 17)
deriving DecidableEq, Repr

/-- One direction of the die-to-die link (R397): the flits that its sending side may still send on each virtual channel, those
that its receiving side has taken out of its buffers and not yet returned, the worms that wait in the module while the link
is not up (R398), and the payloads of the worm that crossed last. -/
structure UcieWay where
  credits : Vector Nat 4
  owed : Vector Nat 4
  worms : List Packet
  wire : List (List (BitVec 8))
deriving DecidableEq, Repr

/-- A row of a channel (R310, R463): `place` has bit 0 for subchannel B and bit 1 for rank 1, `row` is the bank group, bank
and row. -/
structure DdrRow where
  place : Nat
  row : Nat
deriving DecidableEq, Repr

/-- One DDR5 controller (R304–R311) beyond its registers: requests that wait; corrected errors of the present scrub pass by
row; rows being copied to a spare, oldest first; rows moved, each with its spare's index in the subchannel; candidates for
which no spare was left; the next unit of the patrol scrub; what the SPD5 hub of its module holds, once read (R311). -/
structure Ddr where
  waiting : List MemJob
  rowErrs : List (DdrRow × Nat)
  sparing : List DdrRow
  moved : List (DdrRow × Nat)
  unspared : List DdrRow
  scrubAt : Nat
  spd : Option Spd
deriving DecidableEq, Repr

/-- The causeway (R285–R301): packets in flight in the order sent, heads that wait at a draining endpoint, packets that an
endpoint which is not ONLINE has still to start, when each endpoint began to drain, endpoints whose power domain goes down,
at each endpoint's output the turn of the weighted round robin (0 VC1, 1 VC3, 2 VC2) with the flits left of it (R290),
transactions outstanding by requester, the last response that reached a requester whose accesses no command of the table
makes, the class-0 shapers, the class-0 inboxes and the messages of classes 1 to 3 that have reached their endpoints. -/
structure Causeway where
  ucie : Vector UcieWay 2
  net : List Packet
  held : List Packet
  unsent : List Packet
  drainAt : Vector (BitVec 64) 80
  down : List (Fin 80)
  turns : Vector (Nat × Nat) 80
  txns : List (Fin 80 × BitVec 8)
  answer : Option Packet
  shapers : Vector Shaper 80
  c0 : List Packet
  msgs : List Packet
  piers : Vector Pier 16
deriving DecidableEq, Repr
/-! ## The ledger, the repeat finder and the crop engine (08) -/

/-- A record in a queue of the ledger writer or in flight there (R236): the tag of a tracker record, its bytes, its LSEQ
once it has one, the first LSEQ of its segment, and whether it has STRADDLE (R239). -/
structure LedgerRec where
  tag : Nat
  bytes : List (BitVec 8)
  lseq : BitVec 64
  segFirst : BitVec 64
  straddle : Bool
deriving DecidableEq, Repr

/-- The ledger writer beyond its registers: the tracker's queue, the repeat finder's queue, which of them it took from
last, records in flight, whether LG_OVERWRITE has been raised (R250), and whether a segment boundary has been made since the
ledger was enabled (R239). -/
structure Ledger where
  queue : List LedgerRec
  chains : List LedgerRec
  tookTracker : Bool
  flight : List LedgerRec
  told : Bool
  cut : Bool
deriving DecidableEq, Repr

/-- A side entry that matches (R241): its LSEQ, START_COORD, CENT_COL, CHAIN and its error. -/
structure SideHit where
  lseq : BitVec 64
  coord : BitVec 64
  col : BitVec 32
  chain : BitVec 32
  err : Nat
  target : Int
deriving DecidableEq, Repr

/-- A search in progress (R241): the record, the slot, the period, the bucket and the last bucket of the period, the
entry whose side entry is read next (0: none), the visits of the walk, and what the slot has found. -/
structure Search where
  record : LedgerRec
  slot : Nat
  k : Nat
  b : Int
  bLast : Int
  e : BitVec 64
  visits : Nat
  best : Option SideHit
  hits : Nat
  mask : Nat
  near : Option SideHit
  far : Option SideHit
  kfar : Nat
  trunc : Bool
  part : Bool
  /-- A slot has emitted a chain record for this record (R243). -/
  chained : Bool
  /-- The slot's chain record waits for room in the repeat queue. -/
  emitting : Bool
deriving DecidableEq, Repr

/-- The repeat finder beyond its registers: its queue of 256 records, the search in progress, and the CHAIN writes on
their way through the ledger writer (R243). -/
structure RepeatFinder where
  queue : List LedgerRec
  search : Option Search
  writes : List (BitVec 64 × BitVec 32)
deriving DecidableEq, Repr

/-- A crop request (R228, R245): the record's tag and bytes, its LSEQ once it has one, and the ring of its head at the
time of the request: BASE, log of its depth, 12-bit mode, and the head's first domain column and pixel count. -/
structure CropReq where
  tag : Nat
  bytes : List (BitVec 8)
  lseq : Option (BitVec 64)
  base : Nat
  depth : Nat
  wide : Bool
  col0 : Nat
  pixels : Nat
deriving DecidableEq, Repr

/-- A source line of a crop (R247): its pixels (`none`: missing) and whether it is damaged. -/
structure CropRow where
  pixels : Option (List Nat)
  damaged : Bool
deriving DecidableEq, Repr

/-- A crop being worked on (R245–R247): window, factor, flags, source lines read so far, start. -/
structure CropWork where
  req : CropReq
  firstLine : Nat
  srcH : Nat
  firstCol : Nat
  srcW : Nat
  factor : Nat
  clipped : Bool
  timeout : Bool
  rows : List CropRow
  start : BitVec 64
deriving DecidableEq, Repr

/-- A crop in the crop store (R249): its number, its place and size, its bytes' TOTAL_BYTES and the sessions that have
still to finish with it. -/
structure StoredCrop where
  num : Nat
  offset : Nat
  size : Nat
  users : BitVec 16
deriving DecidableEq, Repr

structure CropEngine where
  queue : List CropReq
  work : List CropWork
  store : List StoredCrop
  /-- Where the next crop goes in the circular store, and the number of the next crop. -/
  ptr : Nat
  next : Nat
  /-- Crops skipped: no credit, or taken while the engine is disabled (R10). -/
  skipped : Nat
deriving DecidableEq, Repr

/-! ## Strip time (09) -/

/-- A strip channel beyond its registers: the last count's edge time and direction, the intervals between the last
forward counts (newest first, at most 8), the extreme coordinate since the last change of DIR (R254), whether a stall
has been raised, the end of the input's last Z, and the window of SC_RATE in progress with its net count. -/
structure Channel where
  edge : Option (BitVec 64 × Bool)
  gaps : List Nat
  extreme : Int
  stalled : Bool
  rateWin : Nat
  rateNet : Int
deriving DecidableEq, Repr

/-- A forward count of a source (R257): the coordinate that it reached in 1/65,536 counts, its instant in interpolator steps
of 156.25 ps, and the interval to the edge before it in steps where that edge was forward too. -/
structure Edge where
  coord : Int
  instant : Nat
  gap : Option Nat
deriving DecidableEq, Repr

/-- A lockstep group beyond its registers: the next line point, the forward counts of its source that can give that point or
a later one its instant, oldest first, the instant of START, a delayed trigger (R258), the instant of the last trigger; and of
the internal or the strand source the coordinate in 1/65,536 counts, the instant of the last advance, and the last 8 advances
(coordinate, interval), newest first, and what the even spacing of the internal source has left over, in steps times its rate. -/
structure Group where
  next : BitVec 64
  edges : List Edge
  since : Nat
  delayed : Option (BitVec 64)
  last : Option Nat
  pos : BitVec 64
  edge : Option Nat
  gaps : List (Nat × Nat)
  rem : Nat
deriving DecidableEq, Repr

/-- A marking message on its way to the scheduler (R228). -/
structure MarkMsg where
  out : Fin 32
  start : BitVec 64
  stop : BitVec 64
  classMask : BitVec 16
  blob : BitVec 32
deriving DecidableEq, Repr

/-- An action of the scheduler (R265–R267, R270): output, gate mode, targets, lead, whether it is active, its fire instant in
steps as far as it is known, BLOB_ID of its record, and the step at which its pulse ends. -/
structure Action where
  out : Fin 32
  gate : Bool
  tOn : Int
  tOff : Int
  lead : Nat
  active : Bool
  due : Option Nat
  blob : BitVec 32
  until' : Option Nat
deriving DecidableEq, Repr

/-- A PTP message as sent (R273, R274): port, transport (layer 2, or UDP/IPv4), kind (0 Sync, 1 Follow_Up, 2 Announce,
3 Delay_Resp), domainNumber, the log of its message interval, correctionField, timestamp, and the bytes of the fields that R274
lists or, in a Delay_Resp, of the requestingPortIdentity. -/
structure PtpMsg where
  port : Fin 8
  layer2 : Bool
  kind : BitVec 2
  domain : BitVec 8
  interval : BitVec 8
  correction : BitVec 64
  time : BitVec 64
  fields : List (BitVec 8)
deriving DecidableEq, Repr

/-- A message on its way out of a strand side (R278), and whether it passes through toward a farther device. -/
structure StrandOut where
  east : Bool
  forwarded : Bool
  msg : StrandMsg
deriving DecidableEq, Repr

/-- A line of the strand master that a follower's group has still to fire (R280), its fire instant in steps. -/
structure StrandFire where
  group : Fin 8
  index : BitVec 64
  coord : BitVec 64
  time : BitVec 64
  fire : BitVec 64
  expCode : BitVec 16
  strobe : Bool
deriving DecidableEq, Repr

/-- The timing unit beyond its registers. -/
structure Timing where
  channels : Vector Channel 16
  groups : Vector Group 8
  /-- Pulses of each output 2s + o: rise and fall in steps, in order. -/
  pulses : Vector (List (Nat × Nat)) 32
  actions : List Action
  marks : List MarkMsg
  /-- Stamps on their way to the tracker (R210). -/
  stamps : List GroupStamp
  epochLo : BitVec 32
  /-- Per port, the second of the last Delay_Req and how many were answered in it (R273). -/
  dreq : Vector (Nat × Nat) 8
  /-- The PTP messages of the last operation that sent any. -/
  ptpOut : List PtpMsg
  fires : List StrandFire
  /-- A follower has stepped its device time (R279); since when its offset has been within ±2 ns. -/
  stepped : Bool
  within : Option (BitVec 64)
  /-- Receive times of the last TIME messages from the east and the west, echoed to the sender (R278). -/
  echoE : BitVec 64
  echoW : BitVec 64
  /-- Device time beyond `now` in half picoseconds, and what steering has still to add in them (R279). -/
  phase : Nat
  trim : Int
  /-- Strand lanes of each side that have not been dropped since it was enabled (R277), and the message last sent on each
  side. -/
  lanesE : BitVec 4
  lanesW : BitVec 4
  wireE : Option StrandMsg
  wireW : Option StrandMsg
  /-- HI words latched by reads of LO words (R284). -/
  latched : List (Nat × Nat)
deriving DecidableEq, Repr

/-! ## The Rener service (14) -/

/-- An entry of a record stream (R425), with the device time at which it joined (R427). -/
structure RecEntry where
  rseq : BitVec 64
  lseq : BitVec 64
  bytes : List (BitVec 8)
  came : BitVec 64
deriving DecidableEq, Repr

/-- Dropped entries that the next datagram names (R428): first RSEQ, count, first and last LSEQ that is not 0. -/
structure RecGap where
  first : BitVec 64
  count : Nat
  lsFirst : BitVec 64
  lsLast : BitVec 64
deriving DecidableEq, Repr

/-- A record stream (R424–R429): destination, kinds 1 and 4 open, domains and decimation of kind 4, the next RSEQ, the
entries held, the next RSEQ to send, the CUM received, ranges asked for again, the gap to name and whether a drop has
been raised since the last datagram. -/
structure RecStream where
  dest : BitVec 16
  records : Bool
  lines : Bool
  domains : BitVec 16
  decimate : BitVec 16
  next : BitVec 64
  held : List RecEntry
  toSend : BitVec 64
  cum : BitVec 64
  again : List (BitVec 64 × Nat)
  gap : Option RecGap
  told : Bool
  /-- Domains in which a takeover has completed since the stream's previous line record (R426). -/
  taken : BitVec 16
  /-- Device time from which `RTO_MS` runs (R429). -/
  since : BitVec 64
deriving DecidableEq, Repr

/-- A crop on a stream (R430, R431): CSEQ, the crop's number and size, CUM, the offset sent up to, ranges asked for
again, and the device times of the hand-over and from which `RTO_MS` runs. -/
structure CropItem where
  cseq : BitVec 64
  crop : Nat
  size : Nat
  cum : Nat
  sentTo : Nat
  again : List (Nat × Nat)
  handed : BitVec 64
  since : BitVec 64
deriving DecidableEq, Repr

structure CropStream where
  dest : BitVec 16
  next : BitVec 64
  items : List CropItem
deriving DecidableEq, Repr

/-- An event stream (R432, R433): range of sources, next NSEQ, notifications not acknowledged, notifications missed, and
the device time from which `RTO_MS` runs. -/
structure EventStream where
  dest : BitVec 16
  first : BitVec 16
  last : BitVec 16
  next : BitVec 64
  held : List (BitVec 64 × List (BitVec 8))
  missed : Nat
  since : BitVec 64
deriving DecidableEq, Repr

/-- An open session (R414–R419) beyond its registers. -/
structure Session where
  keys : List (BitVec 8)
  /-- The credential: windows of WIN_R and WIN_W, its expiry, its owner fields as received. -/
  cred : List (BitVec 8)
  budget : Nat
  /-- Highest SEQ accepted and those accepted of the 128 below it. -/
  high : BitVec 64
  seen : List (BitVec 64)
  lastAccept : BitVec 64
  rsp : BitVec 64
  ntf : BitVec 64
  recSeq : BitVec 64
  crp : BitVec 64
  /-- Responses to the last 8 REQ_IDs. -/
  kept : List (BitVec 32 × List (BitVec 8))
  records : Option RecStream
  crops : Option CropStream
  events : Option EventStream
deriving DecidableEq, Repr

/-- A datagram as the device sends it, before sealing (R410). -/
structure Datagram where
  port : Fin 8
  peer : BitVec 32
  dest : BitVec 16
  type : BitVec 8
  session : BitVec 32
  seq : BitVec 64
  enc : Bool
  payload : List (BitVec 8)
deriving DecidableEq, Repr

/-- What comes to the record streams (R425): a record of the tracker or the repeat finder, which waits for its LSEQ, or
a line record of a domain. -/
structure StreamItem where
  tag : Option Nat
  lseq : Option (BitVec 64)
  bytes : List (BitVec 8)
  line : Option (Fin 16)
deriving DecidableEq, Repr

/-- The Rener service and the line ports beyond their registers. -/
structure Rener where
  sessions : Vector (Option Session) 16
  incoming : List StreamItem
  /-- The last datagram sent, the frame that carried it (R408, R410–R412), and the last frame that a port itself sent (R407). -/
  out : Option Datagram
  wire : List (BitVec 8)
  frameOut : Option (Fin 8 × List (BitVec 8))
  /-- Per port: second of device time of the last RN_AUTH raise (R413) and of the last LP_FEC raise (R436); second and
  number of the queries served in it (R423). -/
  authSec : Vector (Option Nat) 8
  fecSec : Vector (Option Nat) 8
  queries : Vector (Nat × Nat) 8
  /-- Per port in fallback, until block lock: device time since which the present rate is tried (R409). -/
  rateAt : Vector (Option (BitVec 64)) 8
  /-- Per port: the addresses that it has resolved by ARP, each with its MAC address (R407). -/
  resolved : Vector (List (BitVec 32 × BitVec 48)) 8
deriving DecidableEq, Repr

/-! ## Keepers and the event hub (11) -/

/-- An interrupted level on a Keeper's frame stack (R332): the level (1 BASE, 2 LOW, 3 HIGH) and what a dispatch saves. -/
structure KeeperFrame where
  level : Nat
  pc : BitVec 32
  a : BitVec 32
  x : BitVec 32
  y : BitVec 32
  f : BitVec 4
  sp : BitVec 32
  owner : Bool
  vec : Nat
  /-- Stores of a standard handler that have not been issued (R323, R499). -/
  todo : List (Nat × List (BitVec 8))
deriving DecidableEq, Repr

/-- A Keeper (R315) beyond its registers and its local memory: the PC is `KP_PC`, the mode and level are in `KP_STAT`. The
frame stack has its top first. `long` says that KP_C0_LONG has been raised for the running handler (R335). Causeway accesses
(R323): the transaction that the instruction waits for, what its earlier reads returned, the posted stores outstanding, the
next transaction number. The standard firmware (R337, R499, R505): whether the firmware block is loaded, the stores that the
running handler has not issued, and what the handler of vector 4 has logged (descriptor, payload). -/
structure Keeper where
  a : BitVec 32
  x : BitVec 32
  y : BitVec 32
  f : BitVec 4
  sp : BitVec 32
  frames : List KeeperFrame
  long : Bool
  wait : Option (BitVec 8)
  reads : List Nat
  posted : List (BitVec 8)
  txn : BitVec 8
  firm : Bool
  todo : List (Nat × List (BitVec 8))
  logged : List (BitVec 32 × BitVec 32)
  /-- Device time at which the running HIGH handler started (R335). -/
  began : BitVec 64
deriving DecidableEq, Repr

/-- A raise that the hub holds for its targets (R329): source, time and role of the raise whose payload is stored. -/
structure HeldRaise where
  source : Nat
  time : BitVec 64
  role : BitVec 5
deriving DecidableEq, Repr

/-- An owner block that has passed its checks and waits to be written (R327, R328): the bytes of the owner half, vectors
64–255 and the allowed ranges. -/
structure OwnerBlock where
  half : List (BitVec 8)
  vectors : List (Nat × BitVec 32)
  ranges : List (BitVec 32 × BitVec 32)
deriving DecidableEq, Repr

/-! ## Images and placement (12) -/

/-- A section of a checked image (R342, R351): TYPE, INDEX, HASH and the plain contents. -/
structure ImgSection where
  type : Nat
  index : Nat
  hash : List (BitVec 8)
  content : List (BitVec 8)
deriving DecidableEq, Repr

/-- A checked image (R341): KIND, TARGET, IMAGE_ID, SVN, KEY, the header and manifest as they stand in the image, and the
sections. -/
structure Image where
  kind : Nat
  target : Nat
  id : BitVec 32
  svn : Nat
  key : Nat
  header : List (BitVec 8)
  manifest : List (BitVec 8)
  sections : List ImgSection
deriving DecidableEq, Repr

/-- A planned change (R359): its partial image, role, the role's pair, the standby pair, the bank of the program, the lines
that the standby span has processed, and whether GO has fixed the switch line. -/
structure Change where
  image : Image
  role : Fin 16
  old : Fin 17
  new : Fin 17
  bank : Nat
  lines : Nat
  going : Bool
deriving DecidableEq, Repr

/-- One role of a takeover or slide (R362–R364): the role, the pair it leaves, the pair it goes to, the next line to copy,
the first live line of the new region once it has taken its START, and whether its copying has ended. -/
structure Shift where
  role : Nat
  old : Fin 17
  new : Fin 17
  next : BitVec 64
  live : Option (BitVec 64)
  done : Bool
deriving DecidableEq, Repr

/-- A takeover in progress (R362): the role named, the failed pair, the time of GO, c, the line that the failed span was on,
the roles that move or restore, whether the restore has ended and whether the switch has taken place. -/
structure Takeover where
  role : Nat
  failed : Fin 17
  start : BitVec 64
  line : BitVec 64
  stop : BitVec 64
  shifts : List Shift
  ready : Bool
  switched : Bool
deriving DecidableEq, Repr

/-- Device control's placement sequencer beyond its registers: the image store (R351), a change, a takeover, the pair under
test, the history ring of each role (role, address), and the takeovers completed of which the tracker has still to learn
(role, checkpoint age; R220). -/
structure Place where
  image : Option Image
  change : Option Change
  take : Option Takeover
  test : Option (Fin 17)
  rings : List (Nat × Nat)
  reports : List (Nat × Nat)
deriving DecidableEq, Repr

/-! ## The abutment die (13) -/

/-- An owner slot (R386): 0 UNUSED, 1 ACTIVE, 2 RELEASED; owner public key and owner image key. -/
structure OwnerSlot where
  state : Nat
  key : List (BitVec 8)
  imageKey : List (BitVec 8)
deriving DecidableEq, Repr

/-- A directory entry (R373): STATE 0 EMPTY, 1 VALID, 2 ACTIVE, 3 TRIAL, 4 TRIAL_BOOTED, 5 BAD. -/
structure SlotEntry where
  state : Nat
  svn : Nat
  version : BitVec 32
  id : BitVec 32
deriving DecidableEq, Repr

/-- What a directory copy says (R373): SEQ and its entries (firmware A, B, image A, B). -/
structure Directory where
  seq : Nat
  entries : List SlotEntry
deriving DecidableEq, Repr

/-- An anti-rollback counter (R376): leading pairs blown, and whether the next pair is half blown. -/
structure FuseCounter where
  pairs : Nat
  half : Bool
deriving DecidableEq, Repr

/-- A request that waits for the signature engine (R390): a quote for a mailbox channel with TAG and NONCE. -/
structure QuoteJob where
  channel : Fin 8
  tag : BitVec 32
  nonce : List (BitVec 8)
deriving DecidableEq, Repr

/-- The abutment die beyond its registers. One-time-programmable: revocations (0 firmware, 1 library, 2 image,
3 manufacturing, 4 debug), owner slots, counters FW, KFW, LIB, IMG. Flash: directory copies, board record, firmware
slots, image slots. Retention: measurements, log, the IMAGE_ID and MANIFEST_HASH of the image applied at boot. -/
structure Abut where
  revoked : List (Fin 5)
  owners : Vector OwnerSlot 4
  counters : Vector FuseCounter 4
  dirs : Vector (List (BitVec 8)) 2
  board : List (BitVec 8)
  slots : Vector (List (BitVec 8)) 4
  meas : Vector (List (BitVec 8)) 8
  log : List (Nat × Nat × List (BitVec 8))
  logOvf : Bool
  bootId : BitVec 32
  manifestHash : List (BitVec 8)
  /-- Boot has ended in HALT (R381); UCIe training failures so far. -/
  halt : Bool
  linkFails : Nat
  /-- The firmware is running (it is away during a restart, R382). -/
  up : Bool
  /-- Device time at which HEADS began (R380). -/
  headsAt : BitVec 64
  /-- The debug challenge, when it was issued; open scopes and when they close (R393–R395). -/
  challenge : Option (List (BitVec 8) × BitVec 64)
  scopes : BitVec 3
  debugEnd : BitVec 64
  /-- Requests to the signature engine, oldest first (R390); answers that wait to be written to the mailbox, by channel. -/
  quotes : List QuoteJob
  answers : Vector (Option (List (BitVec 8))) 8
  /-- The mailbox channel served last (R402). -/
  turn : Fin 8
  /-- Since when the die-to-die link has not been up, after it was (R399). -/
  linkLost : Option (BitVec 64)
  /-- What the die has been asked to send as mailbox notifications (R401), oldest first: channel and bytes. -/
  notes : List (Fin 8 × List (BitVec 8))
deriving DecidableEq, Repr

/-! ## Updates (15) -/

/-- A component in force as a settings generation records it (R440): its number, version and COMPAT entries
(COMPONENT, MIN, MAX). -/
structure Declared where
  comp : Nat
  version : Nat
  entries : List (Nat × Nat × Nat)
deriving DecidableEq, Repr

/-- A settings generation (R440): GEN, WRITER, credential floor, installed components, the library block and the KEEPER
section of the Keeper firmware, the last 16 outcomes (component, reason; 0 confirmed), and whether its tag verifies. -/
structure Generation where
  gen : BitVec 64
  writer : BitVec 32
  floor : BitVec 32
  installed : List Declared
  library : List (BitVec 8)
  keeper : List (BitVec 8)
  outcomes : List (Nat × Nat)
  good : Bool
deriving DecidableEq, Repr

/-- A lease before commit (R442, R444): component, LEASE, session, TARGET, TOTAL_LEN, WINDOW_S, SOAK_S, digest, blocks by
offset, and when a command last named it. -/
structure Lease where
  comp : Nat
  id : BitVec 32
  session : Fin 16
  target : Nat
  total : Nat
  window : Nat
  soak : Nat
  digest : List (BitVec 8)
  blocks : List (Nat × List (BitVec 8))
  named : BitVec 64
deriving DecidableEq, Repr

/-- A committed component (R446–R451): component, LEASE, the package, WINDOW_S, SOAK_S; when its window started and when its
soak last started; the image that was in force before it; the roles still to switch, or for COMP 2 the Keepers still to reload;
the reason of the revert in progress, 0 none; for a head, the bytes to relay, those that the head has answered, and the phase
of the relay (0 blocks, 1 ACTIVATE, 2 RELEASE, 3 ATTACH written). For COMP 2 `phase` is that of the next Keeper (0 to start, 1 its
sources are moved, 2 restarted), with the sources moved, when it restarted, the Keepers that have dispatched their test raise
in time, and `EH_SRC` of SW7 as it stood. `since` is the time of the commit until applying has ended; `taken` says that a takeover
has happened during applying (R448 FAULT). -/
structure Update where
  comp : Nat
  id : BitVec 32
  package : List (BitVec 8)
  window : Nat
  soak : Nat
  since : BitVec 64
  soakSince : BitVec 64
  before : Option Image
  left : List Nat
  reason : Nat
  body : List (BitVec 8)
  relayed : Nat
  phase : Nat
  moved : List Nat
  restart : BitVec 64
  tested : List Nat
  route : BitVec 32
  taken : Bool
deriving DecidableEq, Repr

/-- The update service: the 8 generation slots, leases before commit, the component APPLYING, in TRIAL or REVERTING, the
accepted plans of sessions, next component first (R445), the component whose confirmation a reset has cut short (R448 POWER,
R449), and the outcomes since the last generation was written, for the next one (R440). -/
structure Updates where
  gens : Vector (Option Generation) 8
  leases : List Lease
  current : Option Update
  plans : List (Fin 16 × List Nat)
  lost : Option Update
  outcomes : List (Nat × Nat)
deriving DecidableEq, Repr

/-! ## Health (16) and the package (17) -/

/-- Wear of a pair or of the deck (R464–R466): equivalent seconds at 95 °C and the drift, in the form of assumption log
entry 17, the sums of the running day (acceleration, seconds), and the daily means of AF and of the drift over the last 30
days, oldest first. -/
structure Wear where
  eq : Nat
  drift : Nat
  daySum : Nat
  daySecs : Nat
  means : List Nat
  drifts : List Nat
deriving DecidableEq, Repr

/-- A wear record (R465): the wear of the pairs and of the deck (last), and operating seconds. -/
structure WearRecord where
  wear : List Wear
  seconds : Nat
deriving DecidableEq, Repr

/-- An entry of the repair record (R463): KIND, UNIT, bytes 2 and 3, bytes 4–7, HOURS, and whether its CRC is good. -/
structure Repair where
  kind : Nat
  unit : Nat
  b2 : Nat
  b3 : Nat
  word : BitVec 32
  hours : Nat
  good : Bool
deriving DecidableEq, Repr

/-- The health service: conditions in breach by span (0 supply low, 1 supply high, 2 temperature; R460), spans flagged by their
island, the junction above TJ_WARN; the pair under diagnosis and whether columns have been bypassed in it (R461), takeovers away from each pair, by time; links avoided
and links that no table avoids (router, port; R462), the uncorrectable flits of the last second by link and time, and links that
have reached LINK_LIMIT; wear by unit (0–16 the pairs, 17 the deck), operating seconds, the two wear
records in flash with the one written last, the day of the last WEAR_WARN; the repair record in force: SEQ and entries;
entries left to record after the trigger, by trace unit (R468). -/
structure Health where
  breach : List (Fin 17 × Fin 3)
  flagged : List (Fin 17)
  hot : Bool
  diag : Option (Fin 17 × Bool)
  faults : List (Fin 17 × BitVec 64)
  avoided : List (Nat × Nat)
  noRoute : List (Nat × Nat)
  linkErrs : List (Nat × Nat × BitVec 64)
  linkDue : List (Nat × Nat)
  wear : Vector Wear 18
  seconds : Nat
  records : Vector WearRecord 2
  last : Fin 2
  warned : Option Nat
  repairSeq : Nat
  repairs : List Repair
  post : Vector (Option Nat) 4
deriving DecidableEq, Repr

/-- The package (17): both dies are held in reset; THERMTRIP# is low; the cause that `DC_RSTCAUSE` will show; the level of
TESTEN (R475); when FSPI_RST# was last driven low (R492). -/
structure Package where
  inReset : Bool
  tripped : Bool
  cause : Nat
  testen : Bool
  flashReset : Option (BitVec 64)
deriving DecidableEq, Repr


/-! ## The whole part -/

/-- Why a step stops. No command of the table has an effect that the spec leaves wholly open, so no meaning raises
a fault: the type has no constructor. -/
inductive Fault
deriving DecidableEq, Repr

/-- Why a command has no meaning. -/
inductive Refusal
  /-- Raised by `exec` alone, for a command that has no meaning yet. Safe: the run ends. -/
  | notModelled (mnemonic : String)
deriving DecidableEq, Repr

/-- A raise on its way to the event hub (R20, R329): source, payload, the logical role that its unit held, the device
time of the raise. -/
structure Raise where
  source : Nat
  pay : BitVec 32
  role : BitVec 5
  time : BitVec 64
deriving DecidableEq, Repr

structure State where
  regs : RegStore
  mem : Memory
  /-- SECDED words in error: word address and the mask of flipped bits (data and check bits). -/
  errs : List (Nat × Nat)
  /-- Addresses of micro words, nano words and bundles whose parity bit mismatches. -/
  parity : List Nat
  arrays : Vector SpanArray 17
  micros : Vector MicroSeq 17
  ctls : Vector SpanCtl 17
  heads : Vector HeadPort 16
  regions : Vector Region 17
  rx : Vector Extraction 17
  trk : Tracker
  /-- Quantities (0 voltage, 1 temperature, 2 phase) that hold a flag, with the joint and the flagged span (R52, R55). -/
  jointFlags : List (Fin 16 × Fin 3 × Fin 17)
  /-- The span that the last JOINT_BREACH or JOINT_PARITY of each joint concerns (R53–R55). -/
  jointSpan : Vector (Option (Fin 17)) 16
  /-- Per joint and quantity whose last measurement lay below its clear threshold: since when (R52). -/
  jointBelow : List (Fin 16 × Fin 3 × BitVec 64)
  cw : Causeway
  /-- The last strand message of each kind sent on each side, east (true) and west (R278). -/
  slOut : List StrandOut
  /-- Reports of lost and damaged lines on their way to the tracker (R11). -/
  reports : List LossReport
  /-- The image's trusted head-maker list (R160): SHA-384 digests of maker keys. -/
  trusted : List (BitVec 384)
  /-- Pads that have left the safe state (R188): 0–15 the pads of head port h, 16 + 2s + o strip output o of channel s. -/
  pads : List Nat
  lg : Ledger
  rf : RepeatFinder
  cr : CropEngine
  tm : Timing
  rn : Rener
  d5 : Vector Ddr 8
  kp : Vector Keeper 4
  /-- The event hub's stored raises, by source (R329). -/
  eh : List HeldRaise
  /-- The owner block that the loader is to write (R328). -/
  ownerStage : Option OwnerBlock
  /-- Mergers under a change (R360): the span, whether it sends the sets below the switch line (else those from it on), and the line. -/
  muted : List (Fin 17 × Bool × BitVec 64)
  pl : Place
  ab : Abut
  up : Updates
  fh : Health
  pk : Package
  /-- Device time in ns (R271). -/
  now : BitVec 64
  raises : List Raise
  /-- The model's own: how many free values have been drawn (assumption log, entry 2). -/
  freeCtr : Nat
  /-- The model's own: the commands that wait, first in, first out. -/
  pending : List Instr
deriving DecidableEq, Repr

/-! ## Reset -/

def Plane.zero : Plane := ⟨0, 0⟩
def Plane.ones : Plane := ⟨BitVec.allOnes 16384, BitVec.allOnes 512⟩

/-- A span's array at reset (R27): registers 0, M 1, rows 0 once the sweep has run. The span is not yet out of reset. -/
def SpanArray.reset : SpanArray :=
  { rows := [], parBad := [], p := .zero, q := .zero, c := .zero, x := .zero, t := .zero, m := .ones, xPrev := 0,
    port := [], chainW := 0, chainE := 0, halosW := [], halosE := [], sweep := 0, powered := false }

def MicroSeq.reset : MicroSeq :=
  { routines := [], op := none, ar0 := 0, ar1 := 0, ar2 := 0, ar3 := 0, lc0 := 0, lc1 := 0,
    wroteX := false, waited := 0, waitLong := false, gorPend := [], gor := false, gorFresh := false, gauPend := [], gauReady := [],
    gauLast := 0x80000000, traced := none }

def ArrayOp.start : ArrayOp :=
  { routine := 0, b0 := 0, b1 := 0, b2 := 0, b3 := 0, w := 0, w2 := 0, kc := 0, gws := 0, gwe := 0x7FFFF, rxf := 0 }

def Alu.start : Alu := ⟨0, 0, 0, []⟩


/-- A span controller's start values (R129); the same at reset (R7). -/
def SpanCtl.start : SpanCtl :=
  { v := Vector.replicate 32 0, g := 0, limm := 0, alu0 := .start, alu1 := .start, lsuO := 0, lsuR := 0, lsuWait := 0,
    lsuPier := none, stores := [], txn := 0, callMask := 0, fp := 0x8000, frames := [], ie := false, ai := .start, done := 0, queue := [],
    nexts := 0, syncs := 0, behind := 0, served := none, taken := 0, set := none, stHi := 0, cwTo := 0,
    cwD := Vector.replicate 8 0, outbox := [], inbox := [], ckBase := 0, snap := none, caps := [],
    post := .nothing, red := [], redIn := [],
    wdog := 0, wdogFired := false, busy := 0, waiting := false, drain := 0,
    starting := false, firstLine := none }

def BmPort.reset : BmPort := ⟨0, 0, false, false⟩

def EdgePorts.reset : EdgePorts := ⟨[], false, false, false, 0⟩

def Region.reset : Region :=
  { frames := [], window := [], cellR := List.replicate 640 0, cellF := List.replicate 640 false, bmem := [],
    bmPorts := List.replicate 48 .reset, ports := .reset, userPrev := 0, guards := [], source := none, taking := none, feeds := [], badWords := [],
    gear := none, beats := [], stamps := [], out := none, order := [], markers := [], consumed := [], sent := 0, replay := none,
    copied := none, histDue := [], hist := [], scrub := 0 }

def Extraction.reset : Extraction :=
  { sets := [], queues := Vector.replicate 16 [], closed := false, truss := 0, joined := none, out := [], sent := [], hold := 0,
    bandNext := none, lastFmt := 0 }

def Domain.reset : Domain :=
  { blobs := [], staged := [], applied := false, joining := false, age := 0,
    alarms := [], winFirst := 0, winLines := 0, winGap := false, quiet := 0, afterFlood := false, resumeDue := false, hurt := [] }

def Tracker.reset : Tracker :=
  { domains := Vector.replicate 16 .reset, stamps := [], losses := [], ready := [], built := [], nextSeq := 0, emitted := 0, lastMark := none,
    holding := false }

def HeadPort.reset : HeadPort :=
  { triggers := [], firstTrig := none, packet := none, skipping := false, ingest := [], fails := 0, retryWait := false,
    aligns := [], alignLate := [], alignRun := 0, ready := false, laneOk := 0, cc := none, ccTag := 0, ccGo := false, ccSent := [],
    cfgStep := 0, settings := ⟨0, 0, 0, []⟩, pixels := 0, bits := 0, minPeriod := 0,
    streamOff := false, htrg := [], trigTime := none, trigSent := none, down := [], since := 0, known := false }

def Causeway.reset : Causeway :=
  { net := [], held := [], unsent := [], drainAt := Vector.replicate 80 0, down := [],
    turns := Vector.replicate 80 (0, 0),
    ucie := Vector.replicate 2 ⟨Vector.replicate 4 16, Vector.replicate 4 0, [], []⟩, txns := [], answer := none, shapers := Vector.replicate 80 ⟨[], none, none⟩, c0 := [],
    msgs := [], piers := Vector.replicate 16 ⟨[], 0, none, []⟩ }

def Ddr.reset : Ddr := ⟨[], [], [], [], [], 0, none⟩
def Ledger.reset : Ledger := ⟨[], [], false, [], false, false⟩
def RepeatFinder.reset : RepeatFinder := ⟨[], none, []⟩
def CropEngine.reset : CropEngine := ⟨[], [], [], 0, 0, 0⟩
def Channel.reset : Channel := ⟨none, [], 0, false, 0, 0⟩
def Group.reset : Group := ⟨0, [], 0, none, none, 0, none, [], 0⟩

def Timing.reset : Timing :=
  { channels := Vector.replicate 16 .reset, groups := Vector.replicate 8 .reset, pulses := Vector.replicate 32 [],
    actions := [], marks := [], stamps := [], epochLo := 0, dreq := Vector.replicate 8 (0, 0), ptpOut := [], fires := [],
    stepped := false, within := none, echoE := 0, echoW := 0, phase := 0, trim := 0, lanesE := 0, lanesW := 0, wireE := none,
    wireW := none, latched := [] }

def Rener.reset : Rener :=
  { sessions := Vector.replicate 16 none, incoming := [], out := none, wire := [], frameOut := none,
    authSec := Vector.replicate 8 none, fecSec := Vector.replicate 8 none, queries := Vector.replicate 8 (0, 0),
    rateAt := Vector.replicate 8 none, resolved := Vector.replicate 8 [] }

def Keeper.reset : Keeper := ⟨0, 0, 0, 0, 0, [], false, none, [], [], 0, false, [], [], 0⟩

/-- The die at reset with blank one-time-programmable memory and flash (assumption log, entry 14). -/
def Abut.reset : Abut :=
  { revoked := [], owners := Vector.replicate 4 ⟨0, [], []⟩, counters := Vector.replicate 4 ⟨0, false⟩,
    dirs := Vector.replicate 2 [], board := [], slots := Vector.replicate 4 [],
    meas := Vector.replicate 8 (List.replicate 48 0), log := [], logOvf := false, bootId := 0, manifestHash := [],
    halt := false, linkFails := 0, up := false, headsAt := 0, challenge := none, scopes := 0, debugEnd := 0, quotes := [],
    answers := Vector.replicate 8 none, turn := 7, linkLost := none, notes := [] }

/-- A wear record of a device as manufactured. -/
def Wear.fresh : Wear := ⟨0, 0, 0, 0, [], []⟩

def Updates.reset : Updates := ⟨Vector.replicate 8 none, [], none, [], none, []⟩

def Health.reset : Health :=
  { breach := [], flagged := [], hot := false, diag := none, faults := [], avoided := [], noRoute := [], linkErrs := [], linkDue := [],
    wear := Vector.replicate 18 .fresh, seconds := 0, records := Vector.replicate 2 ⟨List.replicate 18 .fresh, 0⟩, last := 0,
    warned := none, repairSeq := 0, repairs := [], post := Vector.replicate 4 none }

/-- The part right after power-on reset. -/
def State.reset : State :=
  { regs := [], mem := [], errs := [], parity := [], arrays := Vector.replicate 17 .reset,
    micros := Vector.replicate 17 .reset, ctls := Vector.replicate 17 .start, heads := Vector.replicate 16 .reset,
    regions := Vector.replicate 17 .reset, rx := Vector.replicate 17 .reset, trk := .reset,
    jointFlags := [], jointSpan := Vector.replicate 16 none, jointBelow := [], cw := .reset, slOut := [], reports := [], trusted := [], pads := [], lg := .reset, rf :=
    .reset, cr := .reset, tm := .reset, rn := .reset, d5 := Vector.replicate 8 .reset, kp :=
    Vector.replicate 4 .reset, eh := [], ownerStage := none, muted := [], pl := ⟨none, none,
    none, none, [], []⟩, ab := .reset, up := .reset, fh := .reset, pk := ⟨false, false, 1, false, none⟩,
    now := 0, raises := [], freeCtr := 0, pending := [] }

end Sys2Proof.Machine
end

