-- ==== Sys2Proof/Machine/Ops.lean ====
section
/-!
DEFINITION. The named operations over registers, memory, protected words, events and unit structures, which every
meaning goes through.
-/

namespace Sys2Proof.Machine

/-! ## The register store -/

/-- The value under a key, if the store lists it. -/
def RegStore.find? : RegStore → Nat → Option (BitVec 32)
  | [], _ => none
  | (k, v) :: r, a => if k = a then some v else RegStore.find? r a

/-- The register at address `a`: what the store lists, else the reset value (R7). -/
def RegStore.get (m : RegStore) (a : Nat) : BitVec 32 := (m.find? a).getD (resetWord a)

/-- The store with nothing listed at `a`. -/
def RegStore.erase : RegStore → Nat → RegStore
  | [], _ => []
  | (k, v) :: r, a => if k = a then RegStore.erase r a else (k, v) :: RegStore.erase r a

/-- The store with `v` listed at `a`, in its place. -/
def RegStore.insert : RegStore → Nat → BitVec 32 → RegStore
  | [], a, w => [(a, w)]
  | (k, v) :: r, a, w =>
    if k = a then (a, w) :: r else if a < k then (a, w) :: (k, v) :: r else (k, v) :: RegStore.insert r a w

/-- The store after register `a` takes value `w`; a value equal to the reset value is not listed. -/
def RegStore.set (m : RegStore) (a : Nat) (w : BitVec 32) : RegStore :=
  if w = resetWord a then m.erase a else m.insert a w

/-- Every key of the store lies above `lo`. -/
def RegStore.above (lo : Nat) (m : RegStore) : Prop := ∀ p ∈ m, lo < p.1

/-- The canonical form: keys strictly rising, no register listed at its reset value. -/
abbrev RegStore.wf (m : RegStore) : Prop :=
  m.Pairwise (fun p q => p.1 < q.1) ∧ ∀ p ∈ m, p.2 ≠ resetWord p.1

/-! ## Byte memory -/

/-- The byte at `a`; an address that is not listed reads 0 (assumption log, entry 4). -/
def Memory.read : Memory → Nat → Byte
  | [], _ => 0
  | (k, v) :: r, a => if k = a then v else Memory.read r a

def Memory.erase : Memory → Nat → Memory
  | [], _ => []
  | (k, v) :: r, a => if k = a then Memory.erase r a else (k, v) :: Memory.erase r a

def Memory.insert : Memory → Nat → Byte → Memory
  | [], a, w => [(a, w)]
  | (k, v) :: r, a, w =>
    if k = a then (a, w) :: r else if a < k then (a, w) :: (k, v) :: r else (k, v) :: Memory.insert r a w

/-- Memory after the byte at `a` takes value `b`; a byte 0 is not listed. -/
def Memory.write (m : Memory) (a : Nat) (b : Byte) : Memory := if b = 0 then m.erase a else m.insert a b

/-- The canonical form: addresses strictly rising, no byte 0 listed. -/
abbrev Memory.wf (m : Memory) : Prop := m.Pairwise (fun p q => p.1 < q.1) ∧ ∀ p ∈ m, p.2 ≠ 0

/-- `n` bytes from `a` upward. -/
def Memory.readBytes (m : Memory) (a : Nat) : Nat → List Byte
  | 0 => []
  | n + 1 => m.read a :: m.readBytes (a + 1) n

/-- The bytes `bs` written from `a` upward. -/
def Memory.writeBytes (m : Memory) (a : Nat) : List Byte → Memory
  | [] => m
  | b :: r => (m.write a b).writeBytes (a + 1) r

/-- The bytes outside the listed cells of `[lo, hi)`: used to clear or keep a window. -/
def Memory.clear (m : Memory) (lo hi : Nat) : Memory := m.filter (fun p => p.1 < lo || hi ≤ p.1)

/-- Little-endian value of a byte string (R2). -/
def leNat : List Byte → Nat
  | [] => 0
  | b :: r => b.toNat + 256 * leNat r

/-- The `n` low bytes of a value, least significant first. -/
def leBytes : Nat → Nat → List Byte
  | 0, _ => []
  | n + 1, v => BitVec.ofNat 8 v :: leBytes n (v / 256)

/-- A list of bytes cut or filled with zeros to `n`. -/
def fitBytes (n : Nat) (bs : List Byte) : List Byte := (bs ++ List.replicate n 0).take n

/-- The `n`-byte little-endian value at `a`. -/
def Memory.readLE (m : Memory) (a n : Nat) : Nat := leNat (m.readBytes a n)

/-- Memory with the `n` low bytes of `v` at `a`. -/
def Memory.writeLE (m : Memory) (a n v : Nat) : Memory := m.writeBytes a (leBytes n v)

/-- CRC-32 of IEEE 802.3, one bit of input at a time in the reflected form (R143). -/
def crcBit (c : BitVec 32) : BitVec 32 := if c.getLsbD 0 then (c >>> 1) ^^^ 0xEDB88320 else c >>> 1

def crcByte (c : BitVec 32) (b : Byte) : BitVec 32 :=
  crcBit (crcBit (crcBit (crcBit (crcBit (crcBit (crcBit (crcBit (c ^^^ b.setWidth 32))))))))

/-- The running CRC over more bytes (before the final complement). -/
def crcRun (c : BitVec 32) (bs : List Byte) : BitVec 32 := bs.foldl crcByte c

/-- CRC-32 of a byte string: initial value all ones, final complement (R143). -/
def crc32 (bs : List Byte) : BitVec 32 := ~~~(crcRun 0xFFFFFFFF bs)

/-! ## Sorted sets and maps of numbers -/

/-- A rising list of numbers with `a` added. -/
def natInsert : List Nat → Nat → List Nat
  | [], a => [a]
  | k :: r, a => if k = a then k :: r else if a < k then a :: k :: r else k :: natInsert r a

/-- A rising list of numbers with `a` removed if present, added if not. -/
def natToggle : List Nat → Nat → List Nat
  | [], a => [a]
  | k :: r, a => if k = a then r else if a < k then a :: k :: r else k :: natToggle r a

/-- The value under a key of a map kept in rising order, 0 where it lists none. -/
def maskGet : List (Nat × Nat) → Nat → Nat
  | [], _ => 0
  | (k, v) :: r, a => if k = a then v else maskGet r a

/-- The map with `w` listed at `a`, in its place. -/
def maskInsert : List (Nat × Nat) → Nat → Nat → List (Nat × Nat)
  | [], a, w => [(a, w)]
  | (k, v) :: r, a, w =>
    if k = a then (a, w) :: r else if a < k then (a, w) :: (k, v) :: r else (k, v) :: maskInsert r a w

/-- The map with value `w` at `a`; a value 0 is not listed. -/
def maskSet (m : List (Nat × Nat)) (a w : Nat) : List (Nat × Nat) :=
  if w = 0 then m.filter (fun p => p.1 != a) else maskInsert m a w

/-- Replace the element of a list that satisfies `p` first. -/
def replaceFirst {α : Type} (p : α → Bool) (f : α → α) : List α → List α
  | [] => []
  | x :: r => if p x then f x :: r else x :: replaceFirst p f r

/-! ## State: registers -/

namespace State

def reg (s : State) (a : Nat) : BitVec 32 := s.regs.get a

def setReg (s : State) (a : Nat) (w : BitVec 32) : State := { s with regs := s.regs.set a w }

/-- The value of field `f` of the register at `a`. -/
def fld (s : State) (a : Nat) (f : Fld) : Nat := f.get (s.reg a)

def setFld (s : State) (a : Nat) (f : Fld) (v : Nat) : State := s.setReg a (f.put (s.reg a) v)

/-- Whether a field is not 0. -/
def flag (s : State) (a : Nat) (f : Fld) : Bool := s.fld a f != 0

/-- Add `k` to a counter field, which saturates (R58, R132, R166 and the like). -/
def bump (s : State) (a : Nat) (f : Fld) (k : Nat := 1) : State :=
  s.setFld a f (min (s.fld a f + k) (2 ^ (f.hi - f.lo + 1) - 1))

/-- A 64-bit value held in a LO and a HI register. -/
def reg64 (s : State) (lo hi : Nat) : BitVec 64 := (s.reg hi) ++ (s.reg lo)

def setReg64 (s : State) (lo hi : Nat) (v : BitVec 64) : State :=
  (s.setReg lo (v.extractLsb' 0 32)).setReg hi (v.extractLsb' 32 32)

/-! ## State: memory and protected words -/

def byte (s : State) (a : Nat) : Byte := s.mem.read a

def readLE (s : State) (a n : Nat) : Nat := s.mem.readLE a n

def writeLE (s : State) (a n v : Nat) : State := { s with mem := s.mem.writeLE a n v }

def readBytes (s : State) (a n : Nat) : List Byte := s.mem.readBytes a n

def writeBytes (s : State) (a : Nat) (bs : List Byte) : State := { s with mem := s.mem.writeBytes a bs }

/-- The mask of flipped bits of the protected word at `a`. -/
def errMask (s : State) (a : Nat) : Nat := maskGet s.errs a

def setErr (s : State) (a m : Nat) : State := { s with errs := maskSet s.errs a m }

/-- The errors of the words at the addresses of `[lo, hi)` are gone: the words have been written whole. -/
def clearErrs (s : State) (lo hi : Nat) : State :=
  { s with errs := s.errs.filter (fun p => p.1 < lo || hi ≤ p.1) }

end State

/-- The number of 1 bits among the low `n` bits of a mask. -/
def popcount : Nat → Nat → Nat
  | 0, _ => 0
  | n + 1, m => m % 2 + popcount n (m / 2)

/-- What SECDED finds in a word with the given mask of flipped bits: nothing, a single-bit error, or an error of two
or more bits. -/
inductive EccOutcome
  | clean | single | double
deriving DecidableEq, Repr

def eccOf (mask : Nat) : EccOutcome :=
  if mask = 0 then .clean else if popcount 320 mask = 1 then .single else .double

/-! ## State: free values, events, units -/

namespace State

/-- A free value of width `w` (assumption log, entry 2) and the state that has counted it. -/
def draw (s : State) (w : Nat) : BitVec w × State :=
  (Config.free w s.freeCtr, { s with freeCtr := s.freeCtr + 1 })

/-- The logical role that physical pair `n` holds, 31 for none (R20, R367). -/
def roleOf (s : State) (n : Nat) : Nat := s.fld (Reg.PL_PHYS n) F.PL_PHYS_ROLE

/-- The logical role that an event of source `src` carries (R20): that of the pair for the sources of its span, its
region and its health monitor; 31 for the others. -/
def raiseRole (s : State) (src : Nat) : Nat :=
  if src < 272 then s.roleOf (src / 16) else if src < 544 then s.roleOf ((src - 272) / 16)
  else if 960 ≤ src ∧ src < 977 then s.roleOf (src - 960) else 31

/-- Raise source `src` with a payload (R329): the raise is on its way to the hub. -/
def raise (s : State) (src : Nat) (pay : BitVec 32) : State :=
  { s with raises := s.raises ++ [⟨src, pay, BitVec.ofNat 5 (s.raiseRole src), s.now⟩] }

def array (s : State) (n : Fin 17) : SpanArray := s.arrays[n]
def setArray (s : State) (n : Fin 17) (x : SpanArray) : State := { s with arrays := s.arrays.set n x }
def micro (s : State) (n : Fin 17) : MicroSeq := s.micros[n]
def setMicro (s : State) (n : Fin 17) (x : MicroSeq) : State := { s with micros := s.micros.set n x }
def ctl (s : State) (n : Fin 17) : SpanCtl := s.ctls[n]
def setCtl (s : State) (n : Fin 17) (x : SpanCtl) : State := { s with ctls := s.ctls.set n x }
def head (s : State) (h : Fin 16) : HeadPort := s.heads[h]
def setHead (s : State) (h : Fin 16) (x : HeadPort) : State := { s with heads := s.heads.set h x }
def region (s : State) (n : Fin 17) : Region := s.regions[n]
def setRegion (s : State) (n : Fin 17) (x : Region) : State := { s with regions := s.regions.set n x }
def ext (s : State) (n : Fin 17) : Extraction := s.rx[n]
def setExt (s : State) (n : Fin 17) (x : Extraction) : State := { s with rx := s.rx.set n x }
def domain (s : State) (d : Fin 16) : Domain := s.trk.domains[d]
def setDomain (s : State) (d : Fin 16) (x : Domain) : State :=
  { s with trk := { s.trk with domains := s.trk.domains.set d x } }

end State

/-! ## Event payloads (R501) -/

/-- A cause in bits [31:24] and up to three further numbers in bits [7:0], [15:8] and [23:16]. -/
def payCause (cause : Nat) (a : Nat := 0) (b : Nat := 0) (c : Nat := 0) : BitVec 32 :=
  BitVec.ofNat 8 cause ++ BitVec.ofNat 8 c ++ BitVec.ofNat 8 b ++ BitVec.ofNat 8 a

/-- A cause in bits [31:24], one further number in [23:16] and the low 16 bits of a line index in [15:0]. -/
def payLine (cause : Nat) (line : BitVec 64) (x : Nat := 0) : BitVec 32 :=
  BitVec.ofNat 8 cause ++ BitVec.ofNat 8 x ++ line.setWidth 16

/-! ## Addresses of the memory windows -/

namespace Win

/-- Instruction memory of span controller `n` (R132), bundle `i` of bank `b` (R90). -/
def bundle (n b i : Nat) : Nat := 0x4100000000 + 0x1000000 * n + 0x4000 * b + 12 * i
/-- Data scratch of span controller `n` (R132). -/
def scratch (n : Nat) : Nat := 0x4100100000 + 0x1000000 * n
/-- Micro store of span controller `n` (R88). -/
def micro (n a : Nat) : Nat := 0x4100800000 + 0x1000000 * n + 4 * a
/-- Nano store of span controller `n` (R88). -/
def nano (n a : Nat) : Nat := 0x4100900000 + 0x1000000 * n + 8 * a
/-- Operation trace of span controller `n` (R469). -/
def optrace (n i : Nat) : Nat := 0x4100B01000 + 0x1000000 * n + 8 * i
/-- Slot descriptor `k` of region `n` (R202). -/
def slotDesc (n k : Nat) : Nat := 0x4200400000 + 0x1000000 * n + 64 * k
/-- Line-buffer slot `k` of region `n` (R202). -/
def slot (n k : Nat) : Nat := 0x4200800000 + 0x1000000 * n + 0x6000 * k
/-- Pier space (R14). -/
def piers : Nat := 0x4000000000
/-- `HP_CC_TX`, `HP_CC_RX` and `HP_DESC` of port `h` (R166). -/
def ccTx (h : Nat) : Nat := 0x4700000100 + 0x1000000 * h
def ccRx (h : Nat) : Nat := 0x4700000140 + 0x1000000 * h
def desc (h : Nat) : Nat := 0x4700001000 + 0x1000000 * h
/-- Local memory of Keeper `k` (R316). -/
def keeper (k : Nat) : Nat := 0x4600000000 + 0x1000000 * k
/-- `MB_REQ` and `MB_RSP` of mailbox channel `c` (R404). -/
def mbReq (c : Nat) : Nat := 0x4F00000000 + 0x1000 * c
def mbRsp (c : Nat) : Nat := 0x4F00000400 + 0x1000 * c
/-- Trace buffer of trace unit `t` (R471). -/
def trace (t : Nat) : Nat := 0x4500120000 + 0x8000 * t

end Win

/-! ## Upsets -/

/-- The span's groups whose parity bit mismatches, with one toggled: a flip of a stored bit or of the parity bit. -/
def SpanArray.flipParity (x : SpanArray) (row grp : Nat) : SpanArray :=
  { x with parBad := natToggle x.parBad (row * 512 + grp) }

/-- The plane stored in a row. -/
def rowGet : List (Nat × Plane) → Nat → Plane
  | [], _ => .zero
  | (k, v) :: r, a => if k = a then v else rowGet r a

/-- The rows with `p` listed as row `a`, in its place. -/
def rowInsert : List (Nat × Plane) → Nat → Plane → List (Nat × Plane)
  | [], a, p => [(a, p)]
  | (k, v) :: r, a, p =>
    if k = a then (a, p) :: r else if a < k then (a, p) :: (k, v) :: r else (k, v) :: rowInsert r a p

/-- The rows with `p` stored in row `a`; a row of zeros is not listed. -/
def rowSet (rs : List (Nat × Plane)) (a : Nat) (p : Plane) : List (Nat × Plane) :=
  if p = .zero then rs.filter (fun r => r.1 != a) else rowInsert rs a p

/-- A protected memory word is one of a parity-protected store (instruction memory, micro or nano store). -/
def parityWord (a : Nat) : Bool :=
  0x4100000000 ≤ a && a < 0x4180000000 &&
    (let o := (a - 0x4100000000) % 0x1000000; o < 0x10000 || (0x800000 ≤ o && o < 0x910000))

/-- One upset takes place. -/
def applyUpset (s : State) : Upset → State
  | .word a b =>
    if parityWord a then
      { (if b < 96 then s.writeLE (a + b / 8) 1 ((s.byte (a + b / 8)).toNat ^^^ 2 ^ (b % 8)) else s) with
        parity := natToggle s.parity a }
    else s.setErr a (s.errMask a ^^^ 2 ^ b)
  | .cell n row col =>
    let x := s.array n
    let p := rowGet x.rows row.toNat
    let p' : Plane := { p with duty := p.duty ^^^ (BitVec.ofNat 16384 1 <<< col.val) }
    s.setArray n ({ x with rows := rowSet x.rows row.toNat p' }.flipParity row.toNat (col.val / 32))
  | .group n row g => s.setArray n ((s.array n).flipParity row.toNat g.val)

/-- The upsets of a command take place, in order, before its own effect. -/
def applyUpsets (s : State) (ups : List Upset) : State := ups.foldl applyUpset s

end Sys2Proof.Machine
end

