-- ==== Sys2Proof/Machine/Operands.lean ====
section
/-!
DEFINITION. Operand forms: the fields of nano-words (R65, R66), microwords (R68) and moves (R91), the operand sources
and truth tables of the bit processors (R22, R23), and guards (R92).
-/

namespace Sys2Proof.Machine

/-- Bits `hi` to `lo` of a value. -/
def bits (v hi lo : Nat) : Nat := (v >>> lo) % 2 ^ (hi - lo + 1)

/-! ## Nano-words (R65, R66) -/

/-- The fields of a nano-word, by value of R66. -/
structure Nano where
  bnd : Nat
  pln : Nat
  gau : Nat
  gor : Nat
  gate : Bool
  xm : Nat
  wsrc : Nat
  dk : Nat
  ds : Nat
  fk : Nat
  fs : Nat
  ic : Nat
  ib : Nat
  ia : Nat
  moff : Nat
  mar : Nat
  mop : Nat
deriving DecidableEq, Repr

/-- The nano-word of a 64-bit value (R65). -/
def Nano.ofNat (v : Nat) : Nano :=
  { bnd := bits v 60 59, pln := bits v 58 57, gau := bits v 56 55, gor := bits v 54 53, gate := bits v 52 52 == 1,
    xm := bits v 51 49, wsrc := bits v 48 46, dk := bits v 45 43, ds := bits v 42 40, fk := bits v 39 32,
    fs := bits v 31 24, ic := bits v 23 21, ib := bits v 20 18, ia := bits v 17 15, moff := bits v 14 4,
    mar := bits v 3 2, mop := bits v 1 0 }

/-- A reserved encoding of R66, or a 1 in bits [63:61] (R67). -/
def nanoReserved (v : Nat) : Bool :=
  let w := Nano.ofNat v
  bits v 63 61 != 0 || w.mop == 3 || w.ds == 7 || w.dk == 7 || w.xm == 7 || w.gor == 3

/-- The nano-word breaks R25: DS and DK name one register, or one of them names X while XM is not hold. -/
def nanoConflict (v : Nat) : Bool :=
  let w := Nano.ofNat v
  (w.ds == w.dk && w.ds != 0) || ((w.ds == 4 || w.dk == 4) && w.xm != 0)

/-- XM is a neighbour move (R41). -/
def Nano.neighbour (w : Nano) : Bool := 1 ≤ w.xm && w.xm ≤ 4

/-- The nano-word writes X (R64). -/
def Nano.writesX (w : Nano) : Bool := w.xm != 0 || w.ds == 4 || w.dk == 4

/-- A coupled move (R64, R75). -/
def Nano.coupledMove (w : Nano) : Bool := w.bnd == 3 && w.neighbour

/-! ## Microwords (R68) -/

structure Micro where
  nptr : Nat
  seq : Nat
  disp : Int
  step3 : Nat
  step2 : Nat
  step1 : Nat
  step0 : Nat
  cond : Nat
deriving DecidableEq, Repr

def Micro.ofNat (v : Nat) : Micro :=
  { nptr := bits v 31 20, seq := bits v 19 17, disp := (BitVec.ofNat 6 (bits v 16 11)).toInt, step3 := bits v 10 9,
    step2 := bits v 8 7, step1 := bits v 6 5, step0 := bits v 4 3, cond := bits v 2 0 }

/-- SEQ is brt or brf (R69). -/
def Micro.branch (u : Micro) : Bool := u.seq == 3 || u.seq == 4

/-! ## Bit-processor operands (R22, R23) -/

/-- The result of truth table `f` on three operand vectors: in every position, bit 4a + 2b + c of `f` (R22). -/
def lut (w : Nat) (f : Nat) (a b c : BitVec w) : BitVec w :=
  let term (i : Nat) : BitVec w :=
    if f.testBit i then
      (if i.testBit 2 then a else ~~~a) &&& (if i.testBit 1 then b else ~~~b) &&& (if i.testBit 0 then c else ~~~c)
    else 0
  term 0 ||| term 1 ||| term 2 ||| term 3 ||| term 4 ||| term 5 ||| term 6 ||| term 7

namespace Plane

def map2 (f : (w : Nat) → BitVec w → BitVec w → BitVec w) (x y : Plane) : Plane :=
  ⟨f 16384 x.duty y.duty, f 512 x.spare y.spare⟩

def and (x y : Plane) : Plane := ⟨x.duty &&& y.duty, x.spare &&& y.spare⟩
def or (x y : Plane) : Plane := ⟨x.duty ||| y.duty, x.spare ||| y.spare⟩
def not (x : Plane) : Plane := ⟨~~~x.duty, ~~~x.spare⟩
/-- `y` where `en` is 1, `x` elsewhere. -/
def merge (en x y : Plane) : Plane := (x.and en.not).or (y.and en)
def fill (b : Bool) : Plane := if b then .ones else .zero
def lut (f : Nat) (a b c : Plane) : Plane :=
  ⟨Machine.lut 16384 f a.duty b.duty c.duty, Machine.lut 512 f a.spare b.spare c.spare⟩

end Plane

/-- Operand source `sel` of R66: P, Q, C, X, T, MEM, CON or ONE at the start of the cycle (R23). -/
def nanoOperand (x : SpanArray) (mem : Plane) (con : Bool) (sel : Nat) : Plane :=
  if sel = 0 then x.p else if sel = 1 then x.q else if sel = 2 then x.c else if sel = 3 then x.x
  else if sel = 4 then x.t else if sel = 5 then mem else if sel = 6 then .fill con else .ones

/-- Memory write source `sel` of R66: S, K or a register at the start of the cycle. -/
def nanoWriteSource (x : SpanArray) (sv kv : Plane) (sel : Nat) : Plane :=
  if sel = 0 then sv else if sel = 1 then kv else if sel = 2 then x.p else if sel = 3 then x.q
  else if sel = 4 then x.c else if sel = 5 then x.x else if sel = 6 then x.t else x.m

/-- Destination `sel` of R66 (DS, DK) takes `v` where `en` is 1; M takes it in every column (R24, R26). -/
def nanoWriteReg (x : SpanArray) (sel : Nat) (en v : Plane) : SpanArray :=
  if sel = 1 then { x with p := Plane.merge en x.p v } else if sel = 2 then { x with q := Plane.merge en x.q v }
  else if sel = 3 then { x with c := Plane.merge en x.c v } else if sel = 4 then { x with x := Plane.merge en x.x v }
  else if sel = 5 then { x with t := Plane.merge en x.t v } else if sel = 6 then { x with m := v } else x

/-! ## Moves of the span controller (R91, R92) -/

/-- One move slot of a bundle. -/
structure Move where
  inv : Bool
  gsel : Nat
  dst : Nat
  si : Bool
  src : Nat
  imm : BitVec 32
  low : Nat
deriving DecidableEq, Repr

def Move.ofNat (v : Nat) : Move :=
  { inv := bits v 31 31 == 1, gsel := bits v 30 28, dst := bits v 27 18, si := bits v 17 17 == 1, src := bits v 16 7,
    imm := (BitVec.ofNat 17 (bits v 16 0)).signExtend 32, low := bits v 6 0 }

/-- Whether the move takes place under guards `g` (R92); a reserved guard select cannot be loaded (R95) and never
lets a move take place. -/
def Move.takesPlace (m : Move) (g : BitVec 4) : Bool :=
  if m.gsel = 0 then !m.inv else if m.gsel ≤ 4 then g.getLsbD (m.gsel - 1) != m.inv else false

end Sys2Proof.Machine
end

