-- ==== Sys2Proof/Machine/Flags.lean ====
section
/-!
DEFINITION. Arithmetic results with the flags they leave: the ALUs of the span controllers (R99, R100), the word cells
of the approach fabric (R173, R174), and the Keepers (R319, R321).
-/

namespace Sys2Proof.Machine

/-- A result with the flags that an operation sets: `mask` says which of the flags it sets, `flags` their values. -/
structure Flagged (w k : Nat) where
  value : BitVec w
  mask : BitVec k
  flags : BitVec k
deriving DecidableEq, Repr

/-! ## Span-controller ALUs: flag bits 0 C, 1 V, 2 DZ (R96) -/

/-- Carry out of a sum of two words and a carry. -/
def carryOut (w : Nat) (a b : BitVec w) (c : Bool) : Bool := 2 ^ w ≤ a.toNat + b.toNat + c.toNat

/-- Whether a signed value lies outside the signed range of `w` bits. -/
def outOfRange (w : Nat) (v : Int) : Bool := v < -(2 ^ (w - 1) : Int) || (2 ^ (w - 1) : Int) ≤ v

def flags3 (c v dz : Bool) : BitVec 3 := BitVec.ofBool dz ++ BitVec.ofBool v ++ BitVec.ofBool c

def oneIf (b : Bool) : BitVec 32 := if b then 1 else 0

/-- Operation `code` of R99 on operand `o` and trigger value `t`, with the flags of R100. Codes 28 to 31 are not
operations (`none`: the move is stray, R97). -/
def spanAlu (code : Nat) (o t : BitVec 32) : Option (Flagged 32 3) :=
  let plain (r : BitVec 32) : Option (Flagged 32 3) := some ⟨r, 0, 0⟩
  let cv (r : BitVec 32) (c v : Bool) : Option (Flagged 32 3) := some ⟨r, 3, flags3 c v false⟩
  let onlyV (r : BitVec 32) (v : Bool) : Option (Flagged 32 3) := some ⟨r, 2, flags3 false v false⟩
  let dz (r : BitVec 32) : Option (Flagged 32 3) := some ⟨r, 6, flags3 false false true⟩
  match code with
  | 0 => cv (o + t) (carryOut 32 o t false) (outOfRange 32 (o.toInt + t.toInt))
  | 1 => cv (o - t) (t.toNat ≤ o.toNat) (outOfRange 32 (o.toInt - t.toInt))
  | 2 => plain (o &&& t)
  | 3 => plain (o ||| t)
  | 4 => plain (o ^^^ t)
  | 5 => plain (o &&& ~~~t)
  | 6 => plain (if 32 ≤ t.toNat then 0 else o <<< t.toNat)
  | 7 => plain (if 32 ≤ t.toNat then 0 else o >>> t.toNat)
  | 8 => plain (if 32 ≤ t.toNat then (if o.msb then BitVec.allOnes 32 else 0) else o.sshiftRight t.toNat)
  | 9 => plain (o.rotateLeft (t.toNat % 32))
  | 10 => plain (oneIf (o == t))
  | 11 => plain (oneIf (o != t))
  | 12 => plain (oneIf (o.toInt < t.toInt))
  | 13 => plain (oneIf (o.toNat < t.toNat))
  | 14 => plain (oneIf (o.toInt ≤ t.toInt))
  | 15 => plain (oneIf (o.toNat ≤ t.toNat))
  | 16 => plain (if o.toInt ≤ t.toInt then o else t)
  | 17 => plain (if o.toInt ≤ t.toInt then t else o)
  | 18 => plain (if o.toNat ≤ t.toNat then o else t)
  | 19 => plain (if o.toNat ≤ t.toNat then t else o)
  | 20 => plain (o * t)
  | 21 => plain (BitVec.ofInt 32 ((o.toInt * t.toInt) / 2 ^ 32))
  | 22 => plain (BitVec.ofNat 32 ((o.toNat * t.toNat) / 2 ^ 32))
  | 23 =>
    if t = 0 then dz (BitVec.allOnes 32)
    else onlyV (BitVec.ofInt 32 (o.toInt.tdiv t.toInt)) (o = 0x80000000 && t = BitVec.allOnes 32)
  | 24 => if t = 0 then dz (BitVec.allOnes 32) else plain (o / t)
  | 25 => if t = 0 then dz o else onlyV (BitVec.ofInt 32 (o.toInt.tmod t.toInt)) false
  | 26 => if t = 0 then dz o else plain (o % t)
  | 27 => onlyV (-t) (t = 0x80000000)
  | _ => none

/-- Flags after an operation: those of `mask` take its values (DZ only ever rises, R100). -/
def applyFlags (old : BitVec 3) (mask flags : BitVec 3) : BitVec 3 := (old &&& ~~~mask) ||| (flags &&& mask)

/-- The operation's result is readable only after ALU_RESULT_READY: a multiplication or a division (R98). -/
def aluSlow (code : Nat) : Bool := 20 ≤ code && code ≤ 26

def aluDivision (code : Nat) : Bool := 23 ≤ code && code ≤ 26

/-! ## Word cells: one flag F (R173, R174) -/

/-- A word-cell operation on operands a and b of one cell or of a whole chain of `w` bits, with the carry in: result
and, where the operation names it, F. -/
def cellOp (w : Nat) (op : Nat) (a b : BitVec w) (cin f : Bool) (r : BitVec w) : BitVec w × Option Bool :=
  let sh := b.toNat
  let small (x : Bool) : BitVec w × Option Bool := (if x then 1 else 0, some x)
  match op with
  | 0 => (r, none)
  | 1 => (a, none)
  | 2 => (a + b + (if cin then 1 else 0), some (carryOut w a b cin))
  | 3 => (a - b - (if cin then 0 else 1), some (b.toNat + (if cin then 0 else 1) ≤ a.toNat))
  | 4 => (a &&& b, none)
  | 5 => (a ||| b, none)
  | 6 => (a ^^^ b, none)
  | 7 => (a &&& ~~~b, none)
  | 8 => (if w ≤ sh then 0 else a <<< sh, none)
  | 9 => (if w ≤ sh then 0 else a >>> sh, none)
  | 10 => (if w ≤ sh then (if a.msb then BitVec.allOnes w else 0) else a.sshiftRight sh, none)
  | 11 => (a * b, none)
  | 12 => (BitVec.ofNat w ((a.toNat * b.toNat) / 2 ^ w), none)
  | 13 => (BitVec.ofInt w ((a.toInt * b.toInt) / 2 ^ w), none)
  | 14 => (if a.toInt ≤ b.toInt then a else b, none)
  | 15 => (if a.toInt ≤ b.toInt then b else a, none)
  | 16 => (if a.toNat ≤ b.toNat then a else b, none)
  | 17 => (if a.toNat ≤ b.toNat then b else a, none)
  | 18 => small (a.toInt < b.toInt)
  | 19 => small (a.toNat < b.toNat)
  | 20 => small (a == b)
  | 21 => (if f then a else b, none)
  | 22 => (if 2 ^ w ≤ a.toNat + b.toNat then BitVec.allOnes w else a + b, none)
  | 23 => (if a.toNat < b.toNat then 0 else a - b, none)
  | _ => (r, none)

end Sys2Proof.Machine
end

