-- ==== Sys2Proof/Machine/Array.lean ====
section
/-!
DEFINITION. Shared operations of the array (02): domains of a coupled group, joints, parity reports, moves and edges,
the cycle of a bit processor, reductions, and the hand-over of planes to the run extractors (R112, R204, R205).
-/

namespace Sys2Proof.Machine

/-! ## Coupled groups and joints (R39, R45, R57) -/

/-- Group position of a span, and the log of its group's size, as `ARR_COUPLE` holds them. -/
def spanPos (s : State) (m : Nat) : Nat := s.fld (Reg.ARR_COUPLE m) F.ARR_COUPLE_POS
def spanSizeLog (s : State) (m : Nat) : Nat := s.fld (Reg.ARR_COUPLE m) F.ARR_COUPLE_GSIZE_LOG

/-- The controller that drives span `m`: that of physical span m − POS (R57). -/
def driver (s : State) (m : Nat) : Option Nat := if spanPos s m ≤ m then some (m - spanPos s m) else none

/-- The controller that drives span `m`, as a unit number; the span's own where no span lies POS to the west. -/
def lead (s : State) (m : Fin 17) : Fin 17 := ⟨m.val - spanPos s m, by omega⟩

/-- The spans that controller `n` drives, from the westmost: its domain (R39). -/
def domainOf (s : State) (n : Fin 17) : List (Fin 17) :=
  (List.finRange 17).filter (fun m => driver s m == some n.val)

/-- A span expects coupling at its east, at its west joint (R45). -/
def expectsEast (s : State) (m : Nat) : Bool := spanPos s m + 1 < 2 ^ spanSizeLog s m
def expectsWest (s : State) (m : Nat) : Bool := 0 < spanPos s m

/-- Joint `j`, between Pj and Pj+1, is in use (R45). -/
def jointInUse (s : State) (j : Nat) : Bool :=
  j < 16 && expectsEast s j && expectsWest s (j + 1) && spanSizeLog s j == spanSizeLog s (j + 1) &&
    spanPos s j + 1 == spanPos s (j + 1)

/-- Some side of joint `j` expects coupling and the joint is not in use (R45). -/
def jointMismatch (s : State) (j : Nat) : Bool :=
  j < 16 && (expectsEast s j || expectsWest s (j + 1)) && !jointInUse s j

/-- `ARR_JOINT_STAT` of every joint shows IN_USE and MISMATCH as the settings make them. -/
def refreshJoints (s : State) : State :=
  (List.range 16).foldl (fun s j =>
    (s.setFld (Reg.ARR_JOINT_STAT j) F.ARR_JOINT_STAT_IN_USE (jointInUse s j).toNat).setFld (Reg.ARR_JOINT_STAT j)
      F.ARR_JOINT_STAT_MISMATCH (jointMismatch s j).toNat) s

/-- `SPC_STAT.STATE` of controller `n` (R132): 0 running, 1 draining, 2 stopping, 3 stopped. -/
def spcState (s : State) (n : Nat) : Nat := s.fld (Reg.SPC_STAT n) F.SPC_STAT_STATE

/-! ## Row parity (R28–R31) -/

/-- The groups of a row whose parity bit mismatches, rising. -/
def badGroups (x : SpanArray) (row : Nat) : List Nat :=
  (x.parBad.filter (fun e => e / 512 == row)).map (fun e => e % 512)

/-- Count, log and raise mismatches of a row in one cycle (R29–R31). -/
def parityReport (s : State) (m : Nat) (row : Nat) (groups : List Nat) (onWrite : Bool) : State :=
  match groups with
  | [] => s
  | g :: _ =>
    let a := Reg.ARR_PAR_STAT m
    let s := s.bump (Reg.ARR_PAR_COUNT m) F.ARR_PAR_COUNT_COUNT groups.length
    let s :=
      if s.flag a F.ARR_PAR_STAT_VALID then s.setFld a F.ARR_PAR_STAT_OVF 1
      else
        ((((s.setFld a F.ARR_PAR_STAT_VALID 1).setFld a F.ARR_PAR_STAT_ON_WRITE onWrite.toNat).setFld a
          F.ARR_PAR_STAT_ROW row).setFld a F.ARR_PAR_STAT_TRUSS (g / 32)).setFld a F.ARR_PAR_STAT_GROUP (g % 32)
    s.raise (16 * m + 12)
      (BitVec.ofNat 32 (onWrite.toNat * 2 ^ 29 + row * 2 ^ 13 + (g / 32) * 2 ^ 9 + (g % 32) * 2 ^ 4))

/-- Whether the 32 duty columns of group `g` are all 1, or all 0, in a mask. -/
def groupBits (v : BitVec 16384) (g : Nat) : BitVec 32 := v.extractLsb' (32 * g) 32

/-- A row read with its parity check (R29): the stored data, and the state after the report. -/
def readRow (s : State) (m : Fin 17) (row : Nat) : Plane × State :=
  (rowGet (s.array m).rows row, parityReport s m row (badGroups (s.array m) row) false)

/-- The parity bits after a row write where `en` is 1 (R28, R30): a group written in full is in order again, a group
written in part keeps a mismatch, an inactive group is untouched. -/
def parityAfterWrite (x : SpanArray) (row : Nat) (en : Plane) : List Nat :=
  x.parBad.filter (fun e => !(e / 512 == row && groupBits en.duty (e % 512) == BitVec.allOnes 32))

/-- The mismatching groups that a gated write reports (R30): those written in part. -/
def writeReported (x : SpanArray) (row : Nat) (en : Plane) : List Nat :=
  (badGroups x row).filter (fun g => groupBits en.duty g != 0 && groupBits en.duty g != BitVec.allOnes 32)

/-- Write a row where `en` is 1. -/
def writeRow (x : SpanArray) (row : Nat) (en v : Plane) : SpanArray :=
  { x with rows := rowSet x.rows row (Plane.merge en (rowGet x.rows row) v), parBad := parityAfterWrite x row en }

/-- Write a whole row with fresh parity (restored and copied rows, R125). -/
def writeRowFresh (x : SpanArray) (row : Nat) (v : BitVec 16384) : SpanArray :=
  { x with rows := rowSet x.rows row ⟨v, (rowGet x.rows row).spare⟩,
           parBad := x.parBad.filter (fun e => e / 512 != row) }

/-! ## Moves and edges (R41–R47) -/

/-- The X of the 32 westmost (low half) and 32 eastmost columns. -/
def edgeX (x : BitVec 16384) : BitVec 64 := x.extractLsb' 16352 32 ++ x.extractLsb' 0 32

/-- What stands beyond the west edge of span `m` for a move with BND `bnd`, as the 32 columns to its west in order
(bit 31 next to the edge); `arrays` are the spans at the start of the cycle, `flip` the bits that flip on the joint. -/
def westBeyond (s : State) (m : Fin 17) (bnd : Nat) (flip : BitVec 32) : BitVec 32 :=
  if bnd = 0 then 0 else if bnd = 1 then BitVec.allOnes 32
  else if bnd = 2 then (s.array m).x.duty.extractLsb' 16352 32
  else if expectsWest s m then
    (if 0 < m.val && jointInUse s (m.val - 1) then
      (s.array ⟨m.val - 1, by omega⟩).xPrev.extractLsb' 32 32 ^^^ flip else 0)
  else
    let o := s.fld (Reg.ARR_COUPLE m) F.ARR_COUPLE_OUTER_W
    if o = 0 then 0 else if o = 1 then BitVec.allOnes 32
    else ((s.array m).chainW.extractLsb' 0 32).reverse

/-- The same beyond the east edge (bit 0 next to the edge). -/
def eastBeyond (s : State) (m : Fin 17) (bnd : Nat) (flip : BitVec 32) : BitVec 32 :=
  if bnd = 0 then 0 else if bnd = 1 then BitVec.allOnes 32
  else if bnd = 2 then (s.array m).x.duty.extractLsb' 0 32
  else if expectsEast s m then
    (if h : m.val + 1 < 17 then
      (if jointInUse s m.val then (s.array ⟨m.val + 1, h⟩).xPrev.extractLsb' 0 32 ^^^ flip else 0)
     else 0)
  else
    let o := s.fld (Reg.ARR_COUPLE m) F.ARR_COUPLE_OUTER_E
    if o = 0 then 0 else if o = 1 then BitVec.allOnes 32
    else (s.array m).chainE.extractLsb' 0 32

/-- The span's west, east edge is a strand edge (R46). -/
def strandWest (s : State) (m : Nat) : Bool :=
  !expectsWest s m && s.fld (Reg.ARR_COUPLE m) F.ARR_COUPLE_OUTER_W == 2
def strandEast (s : State) (m : Nat) : Bool :=
  !expectsEast s m && s.fld (Reg.ARR_COUPLE m) F.ARR_COUPLE_OUTER_E == 2

/-- X of the duty columns after neighbour move `xm` (1 east, 2 west, 3 east32, 4 west32). -/
def moveX (s : State) (m : Fin 17) (xm bnd : Nat) (flipW flipE : BitVec 32) : BitVec 16384 :=
  let x := (s.array m).x.duty
  if xm = 1 then (x <<< 1) ||| ((westBeyond s m bnd flipW).extractLsb' 31 1).setWidth 16384
  else if xm = 2 then (x >>> 1) ||| (((eastBeyond s m bnd flipE).extractLsb' 0 1).setWidth 16384 <<< 16383)
  else if xm = 3 then (x <<< 32) ||| (westBeyond s m bnd flipW).setWidth 16384
  else (x >>> 32) ||| ((eastBeyond s m bnd flipE).setWidth 16384 <<< 16352)

/-- A halo chain after a move by `step` out of it (`toward` false) or into it; `edge` are the 32 columns at the edge as
they enter h[0]–h[31], the edge column itself in bit 31 (R46). -/
def chainMove (h : BitVec 64) (toward : Bool) (step : Nat) (edge : BitVec 32) : BitVec 64 :=
  if step = 1 then
    (if toward then (h <<< 1) ||| (edge.extractLsb' 31 1).setWidth 64 else h >>> 1)
  else (if toward then (h <<< 32) ||| edge.setWidth 64 else h >>> 32)

/-- The two chains after neighbour move `xm`; they move only with BND coupled, and only at a strand edge. -/
def chainsAfter (s : State) (m : Fin 17) (xm bnd : Nat) : BitVec 64 × BitVec 64 :=
  let x := s.array m
  let step := if xm = 1 ∨ xm = 2 then 1 else 32
  let west := xm = 2 ∨ xm = 4
  let cw := if bnd = 3 && strandWest s m then
      chainMove x.chainW (decide west) step (x.x.duty.extractLsb' 0 32).reverse else x.chainW
  let ce := if bnd = 3 && strandEast s m then
      chainMove x.chainE (!decide west) step (x.x.duty.extractLsb' 16352 32) else x.chainE
  (cw, ce)

/-! ## The cycle of a bit processor (R24) -/

/-- All effects of one nano-word on the registers and the memory of one span except X movement and the requests:
`row` is the row addressed, `con` the constant bit. -/
def bpCycle (w : Nano) (row : Nat) (con : Bool) (x : SpanArray) : SpanArray × Plane :=
  let mem := if w.mop = 1 then rowGet x.rows row else .zero
  let a := nanoOperand x mem con w.ia
  let b := nanoOperand x mem con w.ib
  let c := nanoOperand x mem con w.ic
  let sv := Plane.lut w.fs a b c
  let kv := Plane.lut w.fk a b c
  let en := if w.gate then x.m else .ones
  let x1 := if w.mop = 2 then writeRow x row en (nanoWriteSource x sv kv w.wsrc) else x
  (nanoWriteReg (nanoWriteReg x1 w.ds en sv) w.dk en kv, sv)

/-! ## Reductions (R48–R50, R109) -/

/-- The number of 1 bits of a value below 2 ^ 2 ^ k. -/
def popTree : Nat → Nat → Nat
  | 0, x => x % 2
  | k + 1, x => if x = 0 then 0 else popTree k (x % 2 ^ 2 ^ k) + popTree k (x / 2 ^ 2 ^ k)

/-- The domain's T as one number, column numbers of R32. -/
def domainBits (ps : List (BitVec 16384)) : Nat :=
  ps.foldr (fun p acc => p.toNat + 2 ^ 16384 * acc) 0

/-- The result word of a gauge request of kind 1 popcount, 2 first, 3 last over columns `first` to `last` (R49,
R109). -/
def gaugeResult (kind : Nat) (ps : List (BitVec 16384)) (first last : Nat) : BitVec 32 :=
  let last := min last (16384 * ps.length - 1)
  let x := if first ≤ last then (domainBits ps >>> first) % 2 ^ (last + 1 - first) else 0
  if kind = 1 then BitVec.ofNat 32 (popTree 18 x)
  else if x = 0 then 0x80000000
  else if kind = 2 then BitVec.ofNat 32 (first + Nat.log2 (x ^^^ (x &&& (x - 1))))
  else BitVec.ofNat 32 (first + Nat.log2 x)

/-! ## Handing planes to the run extractors (R38, R112, R115, R204, R205) -/

/-- Planes of a set in format `fmt`: the run mask, the class planes and the score planes (R112). -/
def setPlanes (fmt : BitVec 15) : Nat := 1 + (fmt.toNat % 8) + (fmt.toNat >>> 4) % 32

/-- The trusses of span `m` whose extractor has no room for the first plane of a set: two set buffers occupied;
a set fills one from its first plane (R204). -/
def fullTrusses (x : Extraction) : List Nat :=
  (List.range 16).filter (fun t => 2 ≤ (x.sets.filter (fun e => !e.planes.isEmpty && !e.scanned.getLsbD t)).length)

/-- The span's set of the served line is open. -/
def setOpen (x : Extraction) : Bool := x.sets.any (fun e => !e.closed)

/-- The trusses that hold a nano-word with an extract action back: none unless a first plane needs a buffer. -/
def extractBlocked (s : State) (n m : Fin 17) : List Nat :=
  let c := s.ctl n
  if c.syncs = 0 ∨ c.served.any (fun l => l.mode == 1) ∨ (s.ext m).closed ∨ setOpen (s.ext m) then []
  else fullTrusses (s.ext m)

/-- Close the open set of a span: it is ready to be scanned. -/
def closeSet (x : Extraction) (aborted : Bool) : Extraction :=
  let close := fun (e : ExtractSet) => { e with closed := true, aborted := e.aborted || aborted }
  { x with sets := replaceFirst (fun e => !e.closed) close x.sets, closed := true }

/-- One plane handed by span `m` (R38, R205): it opens a set, joins the open one, or is ignored and counted. `c` is the
span's controller; a set whose line is not yet known takes its index later. -/
def handPlane (s : State) (m : Fin 17) (c : SpanCtl) (fmt : BitVec 15) (t : BitVec 16384) : State :=
  let x := s.ext m
  if c.syncs = 0 then s.bump (Reg.RX_EXTRA m) F.RX_EXTRA_COUNT
  else if x.closed then
    let mine (e : ExtractSet) : Bool := match c.served with
      | some l => e.line == l.index && e.ord.isNone
      | none => e.ord == some c.syncs
    let mark (e : ExtractSet) : ExtractSet := if mine e then { e with extra := true } else e
    (s.bump (Reg.RX_EXTRA m) F.RX_EXTRA_COUNT).setExt m
      { x with sets := x.sets.map mark }
  else if setOpen x then
    let add := fun (e : ExtractSet) =>
      if e.planes.length < setPlanes e.fmt then { e with planes := e.planes ++ [t] } else e
    s.setExt m { x with sets := replaceFirst (fun e => !e.closed) add x.sets }
  else
    let e : ExtractSet :=
      { fmt := fmt, planes := [t], closed := false, aborted := false,
        line := (c.served.map (·.index)).getD 0, redo := c.served.any (fun l => l.mode == 2), extra := false,
        scanned := 0, runs := 0, ord := if c.served.isNone then some c.syncs else none, wrote := [] }
    s.setExt m { x with lastFmt := fmt, sets := x.sets ++ [e] }

/-- An extract action of controller `n`'s domain with the T planes after the cycle's writes; `last` also closes the
set. Misfits count once per set at the controller (R112); on a prime line nothing happens (R115). -/
def extract (s : State) (n : Fin 17) (fmt : BitVec 15) (last : Bool) (ts : List (Fin 17 × BitVec 16384)) : State :=
  let c := s.ctl n
  if c.served.any (fun l => l.mode == 1) then s
  else
    let ignored := c.syncs = 0 || (s.ext n).closed
    let s := ts.foldl (fun s p => handPlane s p.1 c fmt p.2) s
    if ignored then s
    else
      let fmt0 := match c.set with | some p => p.1 | none => fmt
      let k := match c.set with | some p => p.2 + 1 | none => 1
      let misfit := k = setPlanes fmt0 + 1 ∨ (last ∧ k < setPlanes fmt0)
      let s := if misfit then s.bump (Reg.SPC_MISC n) F.SPC_MISC_RXFIT else s
      if last then
        let s := ts.foldl (fun s p => s.setExt p.1 (closeSet (s.ext p.1) false)) s
        s.setCtl n { s.ctl n with set := none }
      else s.setCtl n { s.ctl n with set := some (fmt0, k) }

/-- The span's controller is out of its clearing and parity sweeps (R27, R35). -/
def sweepsDone (s : State) (ms : List (Fin 17)) : Bool :=
  ms.all (fun m => s.flag (Reg.ARR_STAT m) F.ARR_STAT_INIT_DONE)

/-- One ACLK cycle passes for the expansion joints of the spans: what they deliver next is X as it stands now (R44). -/
def retime (s : State) (ms : List (Fin 17)) : State :=
  ms.foldl (fun s m => s.setArray m { s.array m with xPrev := edgeX (s.array m).x.duty }) s

end Sys2Proof.Machine
end

