-- ==== Sys2Proof/Machine/SpanOps.lean ====
section
/-!
DEFINITION. Shared operations of the micro-sequencers and the span controllers: stepping microwords (R62, R69–R71),
the rows that a routine can write (R82), aborts (R81, R82), stop-now (R128), checkpoints' slots (R124), the group's
lines (R113, R114).
-/

namespace Sys2Proof.Machine

/-! ## Microwords -/

def microAt (s : State) (n a : Nat) : Micro := Micro.ofNat (s.readLE (Win.micro n a) 4)
def nanoAt (s : State) (n a : Nat) : Nat := s.readLE (Win.nano n a) 8

/-- A loop count: the value 0 stands for 64 (R59). -/
def loopCount (w : BitVec 6) : Nat := if w = 0 then 64 else w.toNat

/-- An address register after its STEP field (R70). -/
def stepAR (code : Nat) (ar base : BitVec 11) : BitVec 11 :=
  if code = 0 then ar else if code = 1 then ar + 1 else if code = 2 then ar - 1 else base

/-- Where an operation stands in its routine. -/
structure PathState where
  pc : Nat
  ar0 : BitVec 11
  ar1 : BitVec 11
  ar2 : BitVec 11
  ar3 : BitVec 11
  lc0 : Nat
  lc1 : Nat
deriving DecidableEq, Repr

/-- The place after microword `u` of operation `o` has issued (R62, R69, R70), the tested condition being `taken`;
`none` when the operation ends. -/
def microNext (u : Micro) (o : ArrayOp) (p : PathState) (taken : Bool) : Option PathState :=
  let q := { p with ar0 := stepAR u.step0 p.ar0 o.b0, ar1 := stepAR u.step1 p.ar1 o.b1,
                    ar2 := stepAR u.step2 p.ar2 o.b2, ar3 := stepAR u.step3 p.ar3 o.b3 }
  let jump := ((p.pc : Int) + u.disp).toNat % 16384
  let fall := (p.pc + 1) % 16384
  if u.seq = 1 then some { q with lc0 := p.lc0 - 1, pc := if p.lc0 - 1 = 0 then fall else jump }
  else if u.seq = 2 then
    some { q with lc1 := if p.lc1 - 1 = 0 then loopCount o.w2 else p.lc1 - 1,
                  pc := if p.lc1 - 1 = 0 then fall else jump }
  else if u.seq = 3 then some { q with pc := if taken then jump else fall }
  else if u.seq = 4 then some { q with pc := if taken then fall else jump }
  else if u.seq = 5 then none
  else if u.seq = 6 then (if p.lc0 - 1 = 0 then none else some { q with lc0 := p.lc0 - 1, pc := jump })
  else some { q with pc := fall }

/-- The bit that CON supplies (R71). -/
def conBit (o : ArrayOp) (lc0 : Nat) : Bool := o.kc.getLsbD (loopCount o.w - lc0)

def arOf (p : PathState) (mar : Nat) : BitVec 11 :=
  if mar = 0 then p.ar0 else if mar = 1 then p.ar1 else if mar = 2 then p.ar2 else p.ar3

/-- The row that a nano-word addresses (R24). -/
def nanoRow (w : Nano) (p : PathState) : Nat := ((arOf p w.mar).toNat + w.moff) % 2048

def startPath (o : ArrayOp) (entry : Nat) : PathState :=
  ⟨entry, o.b0, o.b1, o.b2, o.b3, loopCount o.w, loopCount o.w2⟩

/-- The rows that some path from the given places writes, each with whether the write is gated, and whether some
nano-word names M as a destination; `fuel` bounds the nano-words issued (R75: at most 4,096). -/
def pathWrites (s : State) (n : Nat) (o : ArrayOp) : Nat → List PathState → List (Nat × Bool) → List (Nat × Bool)
  | 0, _, acc => acc
  | fuel + 1, ps, acc =>
    let writes := ps.filterMap (fun p =>
      let w := Nano.ofNat (nanoAt s n (microAt s n p.pc).nptr)
      if w.mop = 2 then some (nanoRow w p, w.gate) else none)
    let next := ps.flatMap (fun p =>
      let u := microAt s n p.pc
      (microNext u o p true).toList ++ (microNext u o p false).toList)
    pathWrites s n o fuel next.dedup ((acc ++ writes).dedup)

/-- The resident routine of a number (R60). -/
def routineOf (s : State) (n : Fin 17) (r : Nat) : Option Routine :=
  (s.micro n).routines.find? (fun e => e.number == r)

/-- Some nano-word of the routine names M as a destination (R82). -/
def routineWritesM (s : State) (n : Nat) (r : Routine) : Bool :=
  (List.range r.length).any (fun i =>
    let w := Nano.ofNat (nanoAt s n (microAt s n (r.first + i)).nptr)
    w.ds == 6 || w.dk == 6)

/-! ## Snapshots (R123) -/

/-- The checkpoint unit reads the next row of its snapshot from every span of the domain, with the parity check of
R28 (R123). -/
def snapRowRead (s : State) (n : Fin 17) : State :=
  match (s.ctl n).snap with
  | none => s
  | some c =>
    if c.count ≤ c.rows.length then s
    else
      let row := (c.base.toNat + c.rows.length) % 2048
      let r := (domainOf s n).foldl (fun (acc : List (BitVec 16384) × State) m =>
        let p := readRow acc.2 m row
        (acc.1 ++ [p.1.duty], p.2)) ([], s)
      r.2.setCtl n { r.2.ctl n with snap := some { c with rows := c.rows ++ [r.1] } }

/-- Rows that the unit has still to read are read (R123). -/
def readRest (n : Fin 17) : Nat → State → State
  | 0, s => s
  | k + 1, s => readRest n k (snapRowRead s n)

/-! ## Aborts (R81, R82) -/

/-- A span with a free value in row `row`: parity matches, except in groups that keep a mismatch under R30 because no
write of the row covers them in full. -/
def undefineRow (s : State) (m : Fin 17) (row : Nat) (gated : Bool) : State :=
  let (d, s) := s.draw 16384
  let (e, s) := s.draw 512
  let x := s.array m
  let keep := fun (b : Nat) => b / 512 != row || (gated && groupBits x.m.duty (b % 512) != BitVec.allOnes 32)
  s.setArray m { x with rows := rowSet x.rows row ⟨d, e⟩, parBad := x.parBad.filter keep }

/-- A free plane. -/
def drawPlane (s : State) : Plane × State :=
  let (d, s) := s.draw 16384
  let (e, s) := s.draw 512
  (⟨d, e⟩, s)

/-- P, Q, C, X, T and the halo chains of a span become free values, and M too when `mToo` (R82). -/
def undefineRegs (s : State) (m : Fin 17) (mToo : Bool) : State :=
  let (p, s) := drawPlane s
  let (q, s) := drawPlane s
  let (c, s) := drawPlane s
  let (x, s) := drawPlane s
  let (t, s) := drawPlane s
  let (hw, s) := s.draw 64
  let (he, s) := s.draw 64
  let (mm, s) := if mToo then drawPlane s else ((s.array m).m, s)
  s.setArray m { s.array m with p := p, q := q, c := c, x := x, t := t, m := mm, chainW := hw, chainE := he }

/-- An extraction set left open at an abort is closed, marked aborted and counted (R82, R205). -/
def abortSets (s : State) (n : Fin 17) : State :=
  if (s.ctl n).set.isNone then s
  else
    let s := (domainOf s n).foldl (fun s m =>
      (s.setExt m (closeSet (s.ext m) true)).bump (Reg.RX_ABORT m) F.RX_ABORT_COUNT) s
    s.setCtl n { s.ctl n with set := none }

/-- Bit 58 (held) or 59 (aborted) of the trace entry of the operation in progress becomes 1 (R469). -/
def traceMark (s : State) (n : Fin 17) (bit : Nat) : State :=
  match (s.micro n).traced with
  | none => s
  | some k => s.writeLE (Win.optrace n k) 8 (s.readLE (Win.optrace n k) 8 ||| 2 ^ bit)

/-- The operation in progress at micro-sequencer `n` is aborted; `SPC_STAT` records it (R81, R82). -/
def abortOp (s : State) (n : Fin 17) : State :=
  match (s.micro n).op with
  | none => s.setFld (Reg.SPC_STAT n) F.SPC_STAT_ABORTED 0
  | some o =>
    let a := Reg.SPC_STAT n
    let s := traceMark s n 59
    let s := ((s.setFld a F.SPC_STAT_ABORTED 1).setFld a F.SPC_STAT_ROUTINE o.routine.toNat).setFld a F.SPC_STAT_MPC
      (s.fld (Reg.MS_STAT n) F.MS_STAT_PC)
    let r := routineOf s n o.routine.toNat
    let rows := match r with
      | none => []
      | some r => pathWrites s n o 4096 [startPath o r.first] []
    let mToo := 512 ≤ o.routine.toNat && r.any (fun r => routineWritesM s n r)
    let gated := fun (row : Nat) => !rows.contains (row, false)
    let s := (domainOf s n).foldl (fun s m =>
      undefineRegs (((rows.map Prod.fst).dedup).foldl (fun s row => undefineRow s m row (gated row)) s) m mToo) s
    let st := Reg.MS_STAT n
    let s := (((s.setFld st F.MS_STAT_BUSY 0).setFld st F.MS_STAT_WAIT 0).setFld st F.MS_STAT_HOLD 0).setFld st
      F.MS_STAT_COND 0
    s.setMicro n { s.micro n with op := none, waited := 0, waitLong := false, traced := none }

/-! ## Stop-now and the end of a stop (R126–R128, R506) -/

/-- STATE, CAUSE and STOP of a controller, and of every span it drives (R126, R506). -/
def showStop (s : State) (n : Fin 17) (state cause stop : Nat) : State :=
  (n :: domainOf s n).foldl (fun s m =>
    ((s.setFld (Reg.SPC_STAT m) F.SPC_STAT_STATE state).setFld (Reg.SPC_STAT m) F.SPC_STAT_CAUSE cause).setFld
      (Reg.SPC_CTL m) F.SPC_CTL_STOP stop) s

/-- Event `k` of R131 of span `m`: the lead raises it for its group (R506). -/
def raiseSpc (s : State) (m : Fin 17) (k : Nat) (pay : BitVec 32) : State := s.raise (16 * (lead s m).val + k) pay

/-- The controller becomes stopped: SPC_STOPPED is raised (R128, R131). The old pair of a change that has switched is READY as
the standby once its span has stopped (R356, R359). -/
def becomeStopped (s : State) (n : Fin 17) (cause stop : Nat) : State :=
  let s := raiseSpc (showStop s n 3 cause stop) n 0 0
  let a := Reg.PL_STAT
  if s.fld a F.PL_STAT_STATE = 1 ∧ s.fld a F.PL_STAT_SBY = 4 ∧ s.roleOf n = 16 then
    (s.setFld a F.PL_STAT_SBY 1).raise 988 (payCause 1)
  else s

/-- Stop-now with a cause (R128): no effect on a controller that is stopped or stopping (R126). A pending pier load is
dropped with its transaction. A snapshot already reached keeps the rows as they stood at its entry: those not yet read
are read before the abort leaves rows undefined (R123). While it is being copied, STATE reads stopping. -/
def stopNow (s : State) (n : Fin 17) (cause : Nat) : State :=
  if 2 ≤ spcState s n then s
  else
    let s := abortSets (abortOp (readRest n 64 s) n) n
    let c := s.ctl n
    let s := s.bump (Reg.SPC_DISCARD n) F.SPC_DISCARD_COUNT c.queue.length
    let ep : Fin 80 := ⟨n.val, by omega⟩
    let s := match c.lsuPier with
      | none => s
      | some l => { s with cw := { s.cw with txns := s.cw.txns.filter (fun t => t != (ep, l.txn)) } }
    let s := s.setCtl n { c with queue := [], lsuPier := none, lsuWait := 0, busy := 0, waiting := false, drain := 0 }
    if c.snap.isSome then showStop s n 2 cause 2 else becomeStopped s n cause 2

/-- A stop-now that the fault path applies to a span goes to the controller that drives it (R506). -/
def stopNowFault (s : State) (m : Fin 17) : State := stopNow s (lead s m) 2

/-! ## Lines of a group (R113, R114) -/

/-- Fields of slot descriptor `k` of region `n` (R196). -/
def slotIndex (s : State) (n k : Nat) : BitVec 64 := BitVec.ofNat 64 (s.readLE (Win.slotDesc n k) 8)
def slotCoord (s : State) (n k : Nat) : BitVec 64 := BitVec.ofNat 64 (s.readLE (Win.slotDesc n k + 8) 8)
def slotTime (s : State) (n k : Nat) : BitVec 64 := BitVec.ofNat 64 (s.readLE (Win.slotDesc n k + 16) 8)
def slotState (s : State) (n k : Nat) : Nat := s.readLE (Win.slotDesc n k + 24) 1
def slotFlags (s : State) (n k : Nat) : Nat := s.readLE (Win.slotDesc n k + 25) 1
def setSlotState (s : State) (n k v : Nat) : State := s.writeLE (Win.slotDesc n k + 24) 1 v
def setSlotFlags (s : State) (n k v : Nat) : State := s.writeLE (Win.slotDesc n k + 25) 1 v

/-- The first entry of a region's line order at or after position `i`, with its line index. -/
def orderAt (s : State) (m : Fin 17) (i : Nat) : Option LineEntry := (s.region m).order[i]?

/-- The line made of one entry of each region of the group at position `i` of their line orders, `none` while some
region's entry has not come or its line is not complete; a region whose entry has another index than the lowest does not hold the line. -/
def groupLineAt (s : State) (ms : List (Fin 17)) (i lost : Nat) : Option GroupLine :=
  let es := ms.filterMap (fun m => (orderAt s m i).map (fun e => (m, e)))
  let open' := es.any (fun p => match p.2.slot with
    | none => false
    | some k => slotState s p.1 k == 1)
  if es.length < ms.length ∨ ms = [] ∨ open' then none
  else
    let held := es.filterMap (fun p => p.2.slot.map (fun k => (p.1, k)))
    let slots := es.map (fun p => p.2.slot)
    match held with
    | [] =>
      some { index := (es.headD (0, ⟨0, none⟩)).2.index, coord := 0, time := 0, damaged := false, mode := 0,
             lost := lost, slots := slots }
    | (m, k) :: _ =>
      let fl := slotFlags s m k
      some { index := slotIndex s m k, coord := slotCoord s m k, time := slotTime s m k,
             damaged := held.length < ms.length || held.any (fun p => (slotFlags s p.1 p.2).testBit 0),
             mode := if fl.testBit 1 then 1 else if fl.testBit 2 then 2 else 0,
             lost := lost, slots := slots }

/-- The next line that some head of the group delivered, from position `i` of the line orders onward, with its
position, the lines lost for every head before it being counted in `lost` (R113); `none` while its fate is open. -/
def nextGroupLine (s : State) (ms : List (Fin 17)) : Nat → Nat → Nat → Option (GroupLine × Nat)
  | 0, _, _ => none
  | fuel + 1, i, lost =>
    match groupLineAt s ms i lost with
    | none => none
    | some l => if l.slots.all (·.isNone) then nextGroupLine s ms fuel (i + 1) (min 255 (lost + 1)) else some (l, i)

/-- The position of the served line in the line orders is 0; the lines after it start at 1 (R193: a line stays
unconsumed until the line sync that moves past it). -/
def linesAhead (s : State) (n : Fin 17) : Nat → Option (GroupLine × Nat)
  | 0 => nextGroupLine s (domainOf s n) 600 (if (s.ctl n).served.isSome then 1 else 0) 0
  | d + 1 =>
    match linesAhead s n d with
    | none => none
    | some (_, i) => nextGroupLine s (domainOf s n) 600 (i + 1) 0

/-- The line of controller `n` (R113): the one it started last, which lies `nexts − syncs` lines ahead of the line
that the plane ports serve; `none` while its fate is open or before the first `LS.next`. -/
def ctlLine (s : State) (n : Fin 17) : Option GroupLine :=
  let c := s.ctl n
  if c.nexts = 0 then none
  else if c.nexts ≤ c.syncs then c.served
  else (linesAhead s n (c.nexts - c.syncs - 1)).map Prod.fst

/-- `LB_STAT` of region `n` shows its slots: the unconsumed lines, the consumed lines held (the replay window, R196) and
the slot of the oldest unconsumed line. -/
def showSlots (s : State) (n : Fin 17) : State :=
  let a := Reg.LB_STAT n
  let r := s.region n
  let busy := (List.range 32).filter (fun k => slotState s n k = 1 ∨ slotState s n k = 2)
  let oldest := match r.order.findSome? (·.slot) with | some k => k.val | none => 0
  ((s.setFld a F.LB_STAT_UNCONSUMED busy.length).setFld a F.LB_STAT_REPLAY r.consumed.length).setFld a
    F.LB_STAT_OLDEST oldest

/-- The first `k` entries of a region's line order leave it, their slots consumed (R113, R193). -/
def consumeEntries (s : State) (m : Fin 17) (k : Nat) : State :=
  let r := s.region m
  let gone : List (Fin 32) := (r.order.take k).filterMap (fun e => e.slot)
  let s := gone.foldl (fun s (j : Fin 32) => setSlotState s m j.val 3) s
  showSlots (s.setRegion m { r with order := r.order.drop k, consumed := r.consumed ++ gone, sent := 0 }) m

/-- The line that line sync number `ord` led to is known: the extraction sets, halo captures and strand results that
belong to it take its index; a prime line has no set (R115). -/
def nameLine (s : State) (n : Fin 17) (ord : Nat) (l : GroupLine) : State :=
  let s := (domainOf s n).foldl (fun s m =>
    let x := s.ext m
    let sets := if l.mode = 1 then x.sets.filter (fun e => e.ord != some ord)
      else x.sets.map (fun e => if e.ord = some ord then { e with line := l.index, redo := l.mode = 2, ord := none }
                                else e)
    let s := s.setExt m { x with sets := sets }
    let c := s.ctl m
    let label (k : Capture) : Capture := if k.ord = ord ∧ k.line.isNone then { k with line := some l.index } else k
    s.setCtl m { c with caps := c.caps.map label }) s
  let c := s.ctl n
  s.setCtl n { c with red := c.red.map (fun r => if r.ord = ord ∧ ord < c.syncs then { r with index := some l.index }
                                                 else r) }

/-- When the plane ports of a controller wait for their line and its fate is known, they serve it; lines lost for every
head of the domain are skipped, and lines that line syncs have left already are consumed (R113). -/
def refreshServed : Nat → State → Fin 17 → State
  | 0, s, _ => s
  | fuel + 1, s, n =>
    let c := s.ctl n
    if c.syncs = 0 ∨ c.served.isSome then s
    else
      let ms := domainOf s n
      match nextGroupLine s ms 600 0 0 with
      | none => s
      | some (l, i) =>
        let s := ms.foldl (fun s m => consumeEntries s m i) s
        let s := nameLine s n (c.syncs - c.behind) l
        if c.behind = 0 then s.setCtl n { s.ctl n with served := some l }
        else
          let s := ms.foldl (fun s m => consumeEntries s m 1) s
          refreshServed fuel (s.setCtl n { s.ctl n with behind := c.behind - 1 }) n

/-- The front of the issue queue with the entries behind it, when the micro-sequencer may take it: no operation is in
progress, and a drain has not passed its line sync (R127). -/
def queueFront (s : State) (n : Fin 17) : Option (QueueEntry × List QueueEntry) :=
  let c := s.ctl n
  if (s.micro n).op.isSome ∨ c.drain = 2 then none
  else match c.queue with
    | [] => none
    | e :: q => some (e, q)

/-- Entries of the issue queue in use (R108): those that wait, and that of the operation in progress. -/
def queueUsed (s : State) (n : Fin 17) : Nat := (s.ctl n).queue.length + (s.micro n).op.isSome.toNat

/-- No operation is in progress and the issue queue is empty (R117). -/
def arrayIdle (s : State) (n : Fin 17) : Bool := (s.ctl n).queue.isEmpty && (s.micro n).op.isNone

/-! ## Start (R129) -/

/-- The controller's state after a start (R129): registers, sockets and the inbox at their start values; what waits to
leave the endpoint, posted stores and a snapshot or capture being copied go on. -/
def SpanCtl.startFrom (c : SpanCtl) : SpanCtl :=
  { SpanCtl.start with outbox := c.outbox, stores := c.stores, txn := c.txn, snap := c.snap,
                       caps := c.caps.filter (fun k => k.line.isSome),
                       firstLine := c.firstLine }

/-- A start of controller `n` (R129, R506): every span of the domain takes its start values, and the lead begins at
ENTRY of its bank. -/
def startSpan (s : State) (n : Fin 17) : State :=
  let s := (n :: domainOf s n).foldl (fun s m =>
    let s := (s.setCtl m (s.ctl m).startFrom).setArray m { s.array m with port := [] }
    let s := s.setExt m { s.ext m with closed := false }
    let s := s.setRegion m { s.region m with sent := 0 }
    (s.setMicro m { s.micro m with gauPend := [], gauReady := [], gorFresh := false }).setFld (Reg.SPC_STAT m)
      F.SPC_STAT_ABORTED 0) s
  let s := (s.setFld (Reg.SPC_PC n) F.SPC_PC_BANK (s.fld (Reg.SPC_CTL n) F.SPC_CTL_BANK)).setFld (Reg.SPC_PC n)
    F.SPC_PC_INDEX (s.fld (Reg.SPC_ENTRY n) F.SPC_ENTRY_ENTRY)
  showStop s n 0 (s.fld (Reg.SPC_STAT n) F.SPC_STAT_CAUSE) 0

/-- A start that waits for INIT_DONE goes ahead once every span of the domain has it (R129). -/
def startWaiting (s : State) (n : Fin 17) : State :=
  if (s.ctl n).starting && sweepsDone s (n :: domainOf s n) then startSpan s n else s

/-! ## Protected words of data scratch (R103) -/

/-- What a read of the scratch word at causeway address `a` does about errors: corrected and counted, or, on a
double-bit error, stop-now with cause SCRATCH and SPC_SCRATCH. -/
def scratchCheck (s : State) (n : Fin 17) (a : Nat) : State :=
  match eccOf (s.errMask a) with
  | .clean => s
  | .single => (s.setErr a 0).bump (Reg.SPC_MISC n) F.SPC_MISC_SCR_CORR
  | .double => raiseSpc (stopNow s (lead s n) 5) n 5 0

end Sys2Proof.Machine
end

