-- ==== Sys2Proof/Machine/Micro.lean ====
section
/-!
DEFINITION. The array and the micro-sequencer (02, 03): meanings of NANO_WORD_ISSUE, GLOBAL_OR_RESULT, GAUGE_RESULT,
SPAN_RESET, INIT_SWEEP_DONE, SPARE_MAP_WRITE, PARITY_SWEEP_DONE, JOINT_BREACH, JOINT_FLAG_CLEAR, OPERATION_START and
MS_WAIT_LONG.
-/

namespace Sys2Proof.Machine

/-! ## Conditions and holds of a microword (R36, R38, R51, R72, R123) -/

/-- Every region of the domain that holds the served line has it complete (R72, R195). -/
def lineReady (s : State) (n : Fin 17) : Bool :=
  match (s.ctl n).served with
  | none => false
  | some l =>
    ((domainOf s n).zip l.slots).all (fun p => match p.2 with
      | none => true
      | some k => slotState s p.1 k == 2)

/-- Planes per line of span `m`'s region (R195). -/
def linePlanes (s : State) (m : Nat) : Nat := s.fld (Reg.TP_CTL m) F.TP_CTL_WB

/-- Whether span number `i` of the domain, span `m`, gets its planes from its region: some line is served and the line
is not lost for the span's head (R113). -/
def servedSlot (s : State) (n : Fin 17) (i : Nat) : Option (Fin 32) :=
  match (s.ctl n).served with
  | none => none
  | some l => (l.slots.getD i none)

/-- The next plane-in finds no plane of the current line left to come (R37): no line sync has come since the start, or
the line's last plane has been taken. -/
def planeOver (s : State) (n : Fin 17) (m : Nat) : Bool :=
  (s.ctl n).syncs == 0 || ((s.ctl n).served.isSome && linePlanes s m ≤ (s.ctl n).taken)

/-- A plane-in of span number `i` of the domain has to wait (R36): its line's next plane has not arrived. -/
def planeMissing (s : State) (n : Fin 17) (i : Nat) (m : Fin 17) : Bool :=
  !planeOver s n m && ((s.ctl n).served.isNone || ((servedSlot s n i).isSome && (s.array m).port.isEmpty))

/-- Every plane port of the domain holds a plane of the current line (R72). -/
def planeReady (s : State) (n : Fin 17) : Bool :=
  (s.ctl n).served.isSome &&
    ((domainOf s n).zipIdx).all (fun p => (servedSlot s n p.2).isNone || !(s.array p.1).port.isEmpty)

/-- The halo of the line that controller `n` serves, at the west or the east edge of span `m`. -/
def haloOf (s : State) (n m : Fin 17) (east : Bool) : Option Halo :=
  match (s.ctl n).served with
  | none => none
  | some l => (if east then (s.array m).halosE else (s.array m).halosW).find? (fun h => h.line == l.index)

/-- The current line's halo has arrived at every strand edge of the domain (R72). -/
def haloArrived (s : State) (n : Fin 17) : Bool :=
  (domainOf s n).all (fun m =>
    (!strandWest s m || (haloOf s n m false).isSome) && (!strandEast s m || (haloOf s n m true).isSome))

/-- Whether COND lets a waiting microword go, and the value that brt and brf test (R72). -/
def condMet (s : State) (n : Fin 17) (cond : Nat) : Bool :=
  let u := s.micro n
  if cond = 1 then lineReady s n
  else if cond = 2 then planeReady s n
  else if cond = 3 then !u.gorFresh || u.gorPend.isEmpty
  else if cond = 4 then u.gauPend.isEmpty
  else if cond = 5 then (s.ctl n).queue.any (fun e => match e with | .op _ => true | _ => false)
  else if cond = 6 then haloArrived s n
  else true

def condValue (s : State) (n : Fin 17) (cond : Nat) : Bool :=
  let u := s.micro n
  if cond = 3 then u.gorFresh && u.gor
  else if cond = 4 then !u.gauLast.msb
  else condMet s n cond

/-- The microword waits before its nano-word issues (R72). -/
def microWaits (s : State) (n : Fin 17) (u : Micro) : Bool :=
  if u.branch then (u.cond = 3 ∨ u.cond = 4) && !condMet s n u.cond else !condMet s n u.cond

/-- The snapshot in progress has still to read row `row` (R123). -/
def snapHolds (s : State) (n : Fin 17) (row : Nat) : Bool :=
  match (s.ctl n).snap with
  | none => false
  | some c =>
    (List.range c.count).any (fun i => c.rows.length ≤ i && ((c.base.toNat + i) % 2048 == row))

/-- A halo capture of some span of the domain has still to read row `row` (R281). -/
def captureHolds (s : State) (n : Fin 17) (row : Nat) : Bool :=
  (domainOf s n).any (fun m => (s.ctl m).caps.any (fun c =>
    (List.range c.count).any (fun i => c.west.length ≤ i && ((c.base.toNat + i) % 2048 == row))))

/-- The 64 columns nearest an edge, cut to `cols`, column 0 nearest the edge. -/
def edgeColumns (x : BitVec 16384) (cols : Nat) (east : Bool) : BitVec 64 :=
  (if east then (x.extractLsb' 16320 64).reverse else x.extractLsb' 0 64) &&& BitVec.ofNat 64 (2 ^ cols - 1)

/-- The place of a message in the order of R278: TIME, LINE, RED, HALO, a forwarded one before the device's own of its kind. -/
def strandRank (x : StrandOut) : Nat :=
  2 * (match x.msg with
    | .time .. => 0
    | .line .. => 1
    | .red .. => 2
    | .halo .. => 3) + (!x.forwarded).toNat

def strandInsert : List StrandOut → StrandOut → List StrandOut
  | [], x => [x]
  | y :: r, x => if strandRank x < strandRank y then x :: y :: r else y :: strandInsert r x

/-- A strand message joins the messages that wait to leave, in the order of R278. -/
def strandQueue (s : State) (east forwarded : Bool) (msg : StrandMsg) : State :=
  { s with slOut := strandInsert s.slOut ⟨east, forwarded, msg⟩ }

/-- A message of this device's own leaves on a side. -/
def strandSend (s : State) (east : Bool) (msg : StrandMsg) : State := strandQueue s east false msg

/-- Every capture of span `m` that is read in full and whose line is known goes to the neighbours (R281). -/
def captureSend (s : State) (m : Fin 17) : State :=
  let done (c : Capture) : Bool := c.count ≤ c.west.length && c.line.isSome
  let caps := (s.ctl m).caps
  let s := s.setCtl m { s.ctl m with caps := caps.filter (fun c => !done c) }
  (caps.filter done).foldl (fun s c =>
    let l := c.line.getD 0
    let s := if strandWest s m then strandSend s false (.halo m l c.cols c.west) else s
    if strandEast s m then strandSend s true (.halo m l c.cols c.east) else s) s

/-- The strand interface reads the next row of a capture in every span of the domain (R281). -/
def captureRead (s : State) (n : Fin 17) : State :=
  (domainOf s n).foldl (fun s m => match (s.ctl m).caps.find? (fun c => c.west.length < c.count) with
    | none => captureSend s m
    | some c =>
      let r := readRow s m ((c.base.toNat + c.west.length) % 2048)
      let c' := { c with west := c.west ++ [edgeColumns r.1.duty c.cols false],
                         east := c.east ++ [edgeColumns r.1.duty c.cols true] }
      let put (k : Capture) : Capture := if k.ord = c.ord then c' else k
      captureSend (r.2.setCtl m { r.2.ctl m with caps := (r.2.ctl m).caps.map put }) m) s

/-- An ACLK cycle in which no nano-word reads or writes memory: the snapshot, or else a halo capture, reads a row. -/
def snapRead (s : State) (n : Fin 17) : State :=
  match (s.ctl n).snap with
  | some c => if c.rows.length < c.count then snapRowRead s n else captureRead s n
  | none => captureRead s n

/-! ## Issue -/

/-- A cycle in which nothing issues: HOLD and WAIT of `MS_STAT` show why, a wait counts its cycles (R73), the joints
retime, and the checkpoint unit may read a row. -/
def idleCycle (s : State) (n : Fin 17) (wait hold : Bool) (cond : Nat) : State :=
  let a := Reg.MS_STAT n
  let s := ((s.setFld a F.MS_STAT_WAIT wait.toNat).setFld a F.MS_STAT_HOLD hold.toNat).setFld a F.MS_STAT_COND cond
  let s := s.setMicro n { s.micro n with waited := if wait then (s.micro n).waited + 1 else 0 }
  let s := if hold then traceMark s n 58 else s
  snapRead (retime s (domainOf s n)) n

/-- A store parity mismatch at fetch (R78): nothing issues, the operation aborts as under stop-now with cause STORE,
and MS_PARITY is raised. -/
def storeParity (s : State) (n : Fin 17) (nano : Bool) (addr : Nat) : State :=
  let r := match (s.micro n).op with | some o => o.routine.toNat | none => 0
  let s := (s.bump (Reg.MS_PAR_COUNT n) F.MS_PAR_COUNT_COUNT).raise (16 * n + 10)
    (BitVec.ofNat 32 (r * 2 ^ 22 + nano.toNat * 2 ^ 16 + addr))
  stopNow s n 6

/-- The flips on the links of joint `j`. -/
def flipOf (flips : List JointFlip) (j : Nat) : BitVec 32 :=
  flips.foldl (fun acc f => if f.joint.val = j then acc ^^^ f.mask else acc) 0

/-- The span of joint `j` with the larger deviation, the eastern one when they are equal (R55). -/
def deviant (j : Fin 16) (d : Nat × Nat) : Fin 17 :=
  if d.2 < d.1 then ⟨j.val, by omega⟩ else ⟨j.val + 1, by omega⟩

/-- Span `n` is flagged by quantity `q` of joint `j`, unless that quantity holds a flag already (R55). -/
def flagJoint (s : State) (j : Fin 16) (q : Fin 3) (n : Fin 17) : State :=
  if s.jointFlags.any (fun f => f.1 == j && f.2.1 == q) then s
  else { s with jointFlags := s.jointFlags ++ [(j, q, n)] }.setFld (Reg.ARR_STAT n) F.ARR_STAT_FLAGGED 1

/-- A parity mismatch of the bits that cross joint `j` (R53): counted, raised, and a single fault of the span that R55
flags, with no quantity in breach the flag being that of voltage, which R55 lets decide first (assumption log, entry 25). -/
def jointParityError (s : State) (j : Fin 16) (d : Nat × Nat) : State :=
  let n := deviant j d
  let s := flagJoint (s.bump (Reg.ARR_JOINT_ERR j) F.ARR_JOINT_ERR_COUNT) j 0 n
  { s with jointSpan := s.jointSpan.set j (some n) }.raise (16 * j.val + 14) 0

/-- The parity of the expansion joints east of the domain's spans in one ACLK cycle (R53). -/
def jointParity (s : State) (ms : List (Fin 17)) (flips : List JointFlip) : State :=
  ms.foldl (fun s (m : Fin 17) =>
    if h : m.val < 16 then
      match flips.find? (fun f => f.joint.val == m.val) with
      | none => s
      | some f => if popcount 32 (flipOf flips m.val).toNat % 2 = 1 then jointParityError s ⟨m.val, h⟩ f.dev else s
    else s) s

/-- One plane of the halo store, zero beyond the columns delivered; a plane that was not delivered is not stated
(assumption log, entry 2). -/
def haloPlane (s : State) (h : Option Halo) (i : Nat) : BitVec 64 × State :=
  match h with
  | none => (0, s)
  | some h =>
    match h.planes[i]? with
    | some p => (p &&& BitVec.ofNat 64 (2 ^ h.cols - 1), s)
    | none => s.draw 64

/-- PLN = halo on span `m` (R47). -/
def loadHalo (s : State) (n m : Fin 17) (i : Nat) : State :=
  let edge (s : State) (east : Bool) : State :=
    let h := haloOf s n m east
    let s := if h.isNone then s.bump (Reg.ARR_STRAY m) F.ARR_STRAY_HALO_EMPTY else s
    let r := haloPlane s h i
    r.2.setArray m (if east then { r.2.array m with chainE := r.1 } else { r.2.array m with chainW := r.1 })
  let s := if strandWest s m then edge s false else s
  if strandEast s m then edge s true else s

/-- What one span of the domain does in an issuing cycle, `s0` being the state at its start: the cycle of R24, the
parity reports of its access, and X movement (R26, R36, R37, R41). Returns the state with the span's new array. -/
def issueSpan (s0 : State) (n : Fin 17) (w : Nano) (row : Nat) (con : Bool) (flips : List JointFlip) (s : State)
    (im : Fin 17 × Nat) : State :=
  let m := im.1
  let x := s0.array m
  let s := if w.mop = 1 then parityReport s m row (badGroups x row) false else s
  let en := if w.gate then x.m else .ones
  let s := if w.mop = 2 then parityReport s m row (writeReported x row en) true else s
  let c := bpCycle w row con x
  let y := c.1
  let free := s.draw 512
  let s := if w.xm = 0 ∨ w.xm = 6 then s else free.2
  let chains := if w.neighbour then chainsAfter s0 m w.xm w.bnd else (x.chainW, x.chainE)
  let y := { y with chainW := chains.1, chainE := chains.2 }
  if w.xm = 0 then s.setArray m y
  else if w.xm = 6 then s.setArray m { y with x := c.2 }
  else if w.xm = 5 then
    if planeOver s0 n m then
      (s.setArray m { y with x := ⟨0, free.1⟩ }).bump (Reg.ARR_STRAY m) F.ARR_STRAY_PLANE_OVER 16
    else
      match servedSlot s0 n im.2, x.port with
      | some _, p :: r => s.setArray m { y with x := ⟨p, free.1⟩, port := r }
      | _, _ => s.setArray m { y with x := ⟨0, free.1⟩ }
  else
    s.setArray m { y with
      x := ⟨moveX s0 m w.xm w.bnd (flipOf flips (m.val - 1)) (flipOf flips m.val), free.1⟩ }

/-- The reduction requests of an issuing cycle, on T and M after its writes (R48, R49). -/
def issueRequests (s : State) (n : Fin 17) (w : Nano) (o : ArrayOp) : State :=
  let ms := domainOf s n
  let u := s.micro n
  let u :=
    if w.gor = 1 then
      { u with gorPend := u.gorPend ++ [ms.any (fun m => (s.array m).t.duty != 0)], gorFresh := true }
    else if w.gor = 2 then
      { u with gorPend := u.gorPend ++ [ms.any (fun m => (s.array m).t.duty &&& (s.array m).m.duty != 0)],
               gorFresh := true }
    else u
  let u :=
    if w.gau = 0 then u
    else { u with gauPend := u.gauPend ++
      [gaugeResult w.gau (ms.map (fun m => (s.array m).t.duty)) o.gws.toNat o.gwe.toNat] }
  s.setMicro n u

/-- The place of the operation in progress. -/
def placeOf (s : State) (n : Fin 17) : PathState :=
  let u := s.micro n
  ⟨s.fld (Reg.MS_STAT n) F.MS_STAT_PC, u.ar0, u.ar1, u.ar2, u.ar3, u.lc0, u.lc1⟩

/-- The end of an issuing cycle (R62, R69): stepping, loop counters and the next micro address, or the operation's
end, after which `MS_STAT.PC` keeps the address of the last microword (assumption log, entry 100). -/
def issueNext (s : State) (n : Fin 17) (w : Nano) (next : Option PathState) : State :=
  let a := Reg.MS_STAT n
  let s := ((s.setFld a F.MS_STAT_WAIT 0).setFld a F.MS_STAT_HOLD 0).setFld a F.MS_STAT_COND 0
  let u := { s.micro n with wroteX := w.writesX, waited := 0, waitLong := false }
  match next with
  | none => (s.setFld a F.MS_STAT_BUSY 0).setMicro n { u with op := none, traced := none }
  | some p =>
    (s.setFld a F.MS_STAT_PC p.pc).setMicro n
      { u with ar0 := p.ar0, ar1 := p.ar1, ar2 := p.ar2, ar3 := p.ar3, lc0 := p.lc0, lc1 := p.lc1 }

/-- The nano-word issues in every span of the domain (R24 and the requests within it). Where it both moves a halo chain and
loads it (PLN = halo), the load decides the chain (assumption log, entry 100). -/
def issue (s : State) (n : Fin 17) (o : ArrayOp) (u : Micro) (w : Nano) (flips : List JointFlip) : State :=
  let ms := domainOf s n
  let p := placeOf s n
  let row := nanoRow w p
  let next := microNext u o p (condValue s n u.cond)
  let con := conBit o p.lc0
  let s1 := ms.zipIdx.foldl (issueSpan s n w row con flips) s
  let s1 := ms.foldl (fun a m => a.setArray m { a.array m with xPrev := edgeX (s.array m).x.duty }) s1
  let s1 := if w.xm = 5 then
      s1.setCtl n { s1.ctl n with taken := (s1.ctl n).taken + 1 } else s1
  let s1 := if w.pln = 3 then ms.foldl (fun a m => loadHalo a n m (row % 64)) s1 else s1
  let s1 := issueRequests s1 n w o
  let s1 := if w.pln = 1 ∨ w.pln = 2 then
      extract s1 n o.rxf (w.pln = 2) (ms.map (fun m => (m, (s1.array m).t.duty))) else s1
  let s1 := if w.mop = 0 then snapRead s1 n else s1
  issueNext s1 n w next

/-- The trusses of a domain that keep an extract action back (R38). -/
def extractHolds (s : State) (n : Fin 17) (w : Nano) : Bool :=
  (w.pln = 1 ∨ w.pln = 2) && (domainOf s n).any (fun m => !(extractBlocked s n m).isEmpty)

/-- The nano-word is held for a plane in some span of the domain (R36), for a place in the gauge queue (R51), for a row
that the snapshot or a halo capture has still to read (R123, R281). -/
def planeHolds (s : State) (n : Fin 17) (w : Nano) : Bool :=
  w.xm = 5 && (domainOf s n).zipIdx.any (fun p => planeMissing s n p.2 p.1)

def gaugeHolds (s : State) (n : Fin 17) (w : Nano) : Bool :=
  w.gau != 0 && 32 ≤ (s.micro n).gauPend.length + (s.micro n).gauReady.length

def rowHolds (s : State) (n : Fin 17) (w : Nano) : Bool :=
  w.mop = 2 && (snapHolds s n (nanoRow w (placeOf s n)) || captureHolds s n (nanoRow w (placeOf s n)))

/-- Something holds the nano-word. -/
def nanoHeld (s : State) (n : Fin 17) (w : Nano) : Bool :=
  planeHolds s n w || gaugeHolds s n w || extractHolds s n w || rowHolds s n w

/-- A held cycle counts in the counter of every rule that holds the nano-word (R36, R51, R10, R123): each of them counts
each cycle of its holding (assumption log, entry 100). -/
def countHolds (s : State) (n : Fin 17) (w : Nano) : State :=
  let ms := domainOf s n
  let plane := planeHolds s n w
  let gauge := gaugeHolds s n w
  let sets := if extractHolds s n w then ms.map (fun m => (m, extractBlocked s n m)) else []
  let rows := rowHolds s n w
  let s := if plane then ms.foldl (fun s m => s.bump (Reg.ARR_STALL_PLANE m) F.ARR_STALL_PLANE_COUNT) s else s
  let s := if gauge then ms.foldl (fun s m => s.bump (Reg.ARR_STALL_GAUGE m) F.ARR_STALL_GAUGE_COUNT) s else s
  let s := sets.foldl (fun s p => p.2.foldl (fun s t => s.bump (Reg.RX_STALL p.1 t) F.RX_STALL_COUNT) s) s
  if rows then s.bump (Reg.CKPT_HOLD n) F.CKPT_HOLD_COUNT else s

/-- The ACLK of span `m` is gated: the span holds no role (R40). -/
def aclkGated (s : State) (m : Nat) : Bool := s.roleOf m == 31

/-- NANO_WORD_ISSUE (R24, R61): one ACLK cycle of micro-sequencer `n`, in which the joints of its domain check their
parity (R53); none passes while the clock is gated (R40). Without an operation the cycle counts as idle (R63); a parity
mismatch of the fetched words stops the controller (R78); a waiting microword (R72) and a held nano-word (R36, R38, R51,
R123) count their cycle and issue nothing; otherwise the nano-word takes effect. -/
def execNanoWordIssue (n : Fin 17) (ups : List Upset) (flips : List JointFlip) (s : State) :
    Host.Outcome State Fault Refusal :=
  let s := applyUpsets s ups
  if aclkGated s n then .next s
  else
    let ms := domainOf s n
    let s := jointParity s ms flips
    match (s.micro n).op with
    | none => .next (snapRead (retime (s.bump (Reg.MS_IDLE n) F.MS_IDLE_COUNT) ms) n)
    | some o =>
      if !sweepsDone s ms then .next (retime s ms)
      else
        let pc := s.fld (Reg.MS_STAT n) F.MS_STAT_PC
        let u := microAt s n pc
        let w := Nano.ofNat (nanoAt s n u.nptr)
        if s.parity.contains (Win.micro n pc) then .next (storeParity s n false pc)
        else if s.parity.contains (Win.nano n u.nptr) then .next (storeParity s n true u.nptr)
        else if microWaits s n u then
          .next (idleCycle (s.bump (Reg.MS_WAIT_CYC n) F.MS_WAIT_CYC_COUNT) n true false u.cond)
        else if nanoHeld s n w then .next (idleCycle (countHolds s n w) n false true 0)
        else .next (issue s n o u w flips)

/-- GLOBAL_OR_RESULT (R50): the oldest global-OR result on its way becomes visible. -/
def execGlobalOrResult (n : Fin 17) (s : State) : Host.Outcome State Fault Refusal :=
  let u := s.micro n
  match u.gorPend with
  | [] => .next s
  | b :: r => .next (s.setMicro n { u with gorPend := r, gor := b })

/-- GAUGE_RESULT (R50, R51): the oldest gauge result on its way enters the result queue. -/
def execGaugeResult (n : Fin 17) (s : State) : Host.Outcome State Fault Refusal :=
  let u := s.micro n
  match u.gauPend with
  | [] => .next s
  | v :: r => .next (s.setMicro n { u with gauPend := r, gauReady := u.gauReady ++ [v], gauLast := v })

/-- The registers of the span window of `n` at their reset values (R7). -/
def resetSpanRegs (s : State) (n : Nat) : State :=
  { s with regs := s.regs.filter (fun p =>
      p.1 < 0x4100000000 + 0x1000000 * n || 0x4101000000 + 0x1000000 * n ≤ p.1) }

/-- SPAN_RESET (R27): the span leaves reset, with its controller, or (`powerUp`) its island is powered up: every bit
processor has its reset registers and the clearing sweep begins. -/
def execSpanReset (n : Fin 17) (powerUp : Bool) (s : State) : Host.Outcome State Fault Refusal :=
  let x := s.array n
  let fresh := { SpanArray.reset with rows := x.rows, parBad := x.parBad, sweep := 1, powered := true }
  let s := s.setArray n fresh
  let s := if powerUp then s
    else
      let s := (resetSpanRegs s n).setMicro n .reset
      refreshJoints ((s.setCtl n .start).setExt n .reset)
  .next (s.setFld (Reg.ARR_STAT n) F.ARR_STAT_INIT_DONE 0)

/-- A sweep has ended: INIT_DONE is 1 once no sweep is left (R57), and a start that waits for it goes ahead (R129). -/
def sweepEnd (s : State) (n : Fin 17) (x : SpanArray) : State :=
  let s := s.setArray n x
  if x.sweep = 0 then startWaiting (s.setFld (Reg.ARR_STAT n) F.ARR_STAT_INIT_DONE 1) (lead s n) else s

/-- INIT_SWEEP_DONE (R27): every row is 0 with matching parity. -/
def execInitSweepDone (n : Fin 17) (s : State) : Host.Outcome State Fault Refusal :=
  let x := s.array n
  if x.sweep.getLsbD 0 then .next (sweepEnd s n { x with rows := [], parBad := [], sweep := x.sweep &&& 2 })
  else .next s

/-- The 33 physical bits of a group (R33): the logical bits in position order with the unused one at index `b`. -/
def physGroup (b : Nat) (v : BitVec 32) (spare : Bool) : BitVec 33 :=
  let lo := v.setWidth 33 &&& BitVec.ofNat 33 (2 ^ b - 1)
  lo ||| ((v >>> b).setWidth 33 <<< (b + 1)) ||| (if spare then 1#33 <<< b else 0)

/-- The logical bits and the unused bit of a physical group under bypass index `b`. -/
def logicalGroup (b : Nat) (v : BitVec 33) : BitVec 32 × Bool :=
  (((v &&& BitVec.ofNat 33 (2 ^ b - 1)) ||| ((v >>> (b + 1)) <<< b)).setWidth 32, v.getLsbD b)

/-- A plane when the bypass index of group `g` changes from `b` to `b'` (R35). -/
def remapPlane (g b b' : Nat) (p : Plane) : Plane :=
  let r := logicalGroup b' (physGroup b (groupBits p.duty g) (p.spare.getLsbD g))
  let hole := ~~~((BitVec.allOnes 32).setWidth 16384 <<< (32 * g))
  ⟨(p.duty &&& hole) ||| (r.1.setWidth 16384 <<< (32 * g)),
   (p.spare &&& ~~~(1#512 <<< g)) ||| (if r.2 then 1#512 <<< g else 0)⟩

def remapGroup (x : SpanArray) (g b b' : Nat) : SpanArray :=
  if b = b' then x
  else
    let f := remapPlane g b b'
    { x with rows := x.rows.foldl (fun rs r => rowSet rs r.1 (f r.2)) [],
             p := f x.p, q := f x.q, c := f x.c, x := f x.x, t := f x.t, m := f x.m }

/-- The BYP fields of a `SPARE_MAP` word. -/
def bypFields : List Fld := [F.SPARE_MAP_BYP0, F.SPARE_MAP_BYP1, F.SPARE_MAP_BYP2, F.SPARE_MAP_BYP3]

/-- The write of one `SPARE_MAP` word while the span's function is stopped: legal indices are taken, the columns follow
the map, and a change starts a parity sweep (R33, R35, R57). -/
def writeSpareMap (s : State) (n : Fin 17) (t w : Nat) (val : BitVec 32) : State :=
  let a := Reg.SPARE_MAP n t w
  if spcState s (lead s n) ≠ 3 then s
  else
    let old := s.reg a
    let new := bypFields.foldl (fun v f => if f.accepts (f.get val) then f.put v (f.get val) else v) old
    if new = old then s
    else
      let x := bypFields.zipIdx.foldl (fun x p =>
        remapGroup x (32 * t + 4 * w + p.2) (p.1.get old) (p.1.get new)) (s.array n)
      ((s.setReg a new).setArray n { x with sweep := x.sweep ||| 2 }).setFld (Reg.ARR_STAT n) F.ARR_STAT_INIT_DONE 0

/-- SPARE_MAP_WRITE (R35): a write of the word for groups 4w to 4w + 3 of truss `t`. -/
def execSpareMapWrite (n : Fin 17) (t : Fin 16) (w : Fin 8) (val : BitVec 32) (s : State) :
    Host.Outcome State Fault Refusal :=
  .next (writeSpareMap s n t w val)

/-- PARITY_SWEEP_DONE (R35): every row holds matching parity in every group; the stored bits are kept. -/
def execParitySweepDone (n : Fin 17) (s : State) : Host.Outcome State Fault Refusal :=
  let x := s.array n
  if x.sweep.getLsbD 1 then .next (sweepEnd s n { x with parBad := [], sweep := x.sweep &&& 1 }) else .next s

/-! ## Joint monitors (R52–R55) -/

/-- Magnitudes measured at a joint, in mV, °C and ps, by quantity (R57's units). -/
def jointValue (m : JointMeasure) (q : Fin 3) : Nat :=
  if q = 0 then m.dvolt.toInt.natAbs * 2 else if q = 1 then m.dtemp.toInt.natAbs else m.phase.toInt.natAbs * 4

/-- The limit of a quantity, and the threshold below which its flag may clear (R52). -/
def jointLimit (q : Fin 3) : Nat := if q = 0 then 60 else if q = 1 then 30 else 200
def jointClear (q : Fin 3) : Nat := if q = 0 then 50 else if q = 1 then 25 else 150

/-- The span of joint `j` that R55 flags for quantity `q`: the one with the larger deviation, the eastern one when they
are equal. -/
def flaggedSpan (j : Fin 16) (q : Fin 3) (m : JointMeasure) : Fin 17 :=
  deviant j (if q = 0 then m.devVolt else if q = 1 then m.devTemp else m.devPhase)

/-- `ARR_JOINT_STAT` shows a measurement; a quantity below its clear threshold is so since the first of its measurements without a
break (R52). -/
def showMeasure (s : State) (j : Fin 16) (m : JointMeasure) : State :=
  let a := Reg.ARR_JOINT_STAT j
  let low := (List.finRange 3).filter (fun q => jointValue m q < jointClear q)
  let kept := s.jointBelow.filter (fun b => b.1 != j || low.contains b.2.1)
  let new := low.filter (fun q => !kept.any (fun b => b.1 == j && b.2.1 == q))
  let s := { s with jointBelow := kept ++ new.map (fun q => (j, q, s.now)) }
  let isOver (q : Fin 3) : Nat := if jointLimit q < jointValue m q then 1 else 0
  (((((s.setFld a F.ARR_JOINT_STAT_DVOLT m.dvolt.toNat).setFld a F.ARR_JOINT_STAT_DTEMP m.dtemp.toNat).setFld a
    F.ARR_JOINT_STAT_PHASE m.phase.toNat).setFld a F.ARR_JOINT_STAT_V_OVER (isOver 0)).setFld a
    F.ARR_JOINT_STAT_T_OVER (isOver 1)).setFld a F.ARR_JOINT_STAT_PH_OVER (isOver 2)

/-- JOINT_BREACH (R54, R55): the monitors of joint `j` report `m`. The quantities that breach and hold no flag yet are
compared, voltage first; the span chosen is flagged, and JOINT_BREACH or, at a joint not in use, JOINT_WATCH is
raised. -/
def execJointBreach (j : Fin 16) (m : JointMeasure) (s : State) : Host.Outcome State Fault Refusal :=
  let s := showMeasure s j m
  let held (q : Fin 3) : Bool := s.jointFlags.any (fun f => f.1 == j && f.2.1 == q)
  let new := (List.finRange 3).filter (fun q => jointLimit q < jointValue m q && !held q)
  match new with
  | [] => .next s
  | q :: _ =>
    let n := flaggedSpan j q m
    let s := { s with jointFlags := s.jointFlags ++ new.map (fun q => (j, q, n)), jointSpan := s.jointSpan.set j (some n) }
    let s := s.setFld (Reg.ARR_STAT n) F.ARR_STAT_FLAGGED 1
    .next (s.raise (16 * j.val + (if jointInUse s j then 13 else 15)) 0)

/-- JOINT_FLAG_CLEAR (R52): quantity `q` of joint `j` has stayed below its clear threshold for 1 s, `m` being what the
monitors read now; the span's flag falls with its last quantity. -/
def execJointFlagClear (j : Fin 16) (q : Fin 3) (m : JointMeasure) (s : State) : Host.Outcome State Fault Refusal :=
  let s := showMeasure s j m
  if !s.jointBelow.any (fun b => b.1 == j && b.2.1 == q && b.2.2.toNat + 1000000000 ≤ s.now.toNat) then .next s
  else
    let gone := s.jointFlags.filter (fun f => f.1 == j && f.2.1 == q)
    let s := { s with jointFlags := s.jointFlags.filter (fun f => !(f.1 == j && f.2.1 == q)) }
    .next (gone.foldl (fun s f =>
      if s.jointFlags.any (fun g => g.2.2 == f.2.2) ∨ s.fh.flagged.contains f.2.2 then s
      else s.setFld (Reg.ARR_STAT f.2.2) F.ARR_STAT_FLAGGED 0) s)

/-! ## Operations -/

/-- The operation trace (R469): the entry at NEXT records the start of an operation. The ACLK count is that of 1.6 GHz
over device time (assumption log, entry 12). -/
def traceOp (s : State) (n : Fin 17) (o : ArrayOp) : State :=
  let a := Reg.SPC_OPTRC n
  if !s.flag a F.SPC_OPTRC_EN then s.setMicro n { s.micro n with traced := none }
  else
    let k := s.fld a F.SPC_OPTRC_NEXT
    let line := match ctlLine s n with | some l => l.index.toNat | none => 0
    let s := s.writeLE (Win.optrace n k) 8
      ((s.now.toNat * 8 / 5) % 2 ^ 32 + (line % 2 ^ 16) * 2 ^ 32 + o.routine.toNat * 2 ^ 48)
    let s := if k = 255 then s.setFld a F.SPC_OPTRC_WRAPPED 1 else s
    (s.setFld a F.SPC_OPTRC_NEXT ((k + 1) % 256)).setMicro n { s.micro n with traced := some k }

/-- OPERATION_START (R60, R63, R64): the micro-sequencer takes the operation entry at the front of the queue. A routine
without an entry takes one idle cycle and is counted; a coupled first move behind a write of X gets a joint bubble. -/
def execOperationStart (n : Fin 17) (s : State) : Host.Outcome State Fault Refusal :=
  match queueFront s n with
  | some (.op o, q) =>
    let s := s.setCtl n { s.ctl n with queue := q }
    let s := traceOp s n o
    let u := s.micro n
    match routineOf s n o.routine.toNat with
    | none =>
      let s := s.setFld (Reg.MS_STAT n) F.MS_STAT_ROUTINE o.routine.toNat
      .next (retime (s.bump (Reg.MS_STRAY n) F.MS_STRAY_NOENTRY) (domainOf s n))
    | some r =>
      let a := Reg.MS_STAT n
      let s := ((s.setFld a F.MS_STAT_BUSY 1).setFld a F.MS_STAT_ROUTINE o.routine.toNat).setFld a F.MS_STAT_PC r.first
      let w := Nano.ofNat (nanoAt s n (microAt s n r.first).nptr)
      let bubble := w.coupledMove && u.wroteX
      let s := if bubble then retime (s.bump (Reg.MS_BUBBLE n) F.MS_BUBBLE_COUNT) (domainOf s n) else s
      .next (s.setMicro n { u with op := some o, ar0 := o.b0, ar1 := o.b1, ar2 := o.b2, ar3 := o.b3,
                                   lc0 := loopCount o.w, lc1 := loopCount o.w2, waited := 0, waitLong := false })
  | _ => .next s

/-- MS_WAIT_LONG (R73): once the present wait has lasted `MS_WAIT_LIMIT` ACLK cycles, it is raised, once for that wait,
never with a limit of 0. -/
def execMsWaitLong (n : Fin 17) (s : State) : Host.Outcome State Fault Refusal :=
  let u := s.micro n
  let limit := s.fld (Reg.MS_WAIT_LIMIT n) F.MS_WAIT_LIMIT_LIMIT
  if s.flag (Reg.MS_STAT n) F.MS_STAT_WAIT && limit != 0 && limit ≤ u.waited && !u.waitLong then
    .next ((s.setMicro n { u with waitLong := true }).raise (16 * n + 9) 0)
  else .next s

end Sys2Proof.Machine
end

