-- ==== Sys2Proof/Machine/NetOps.lean ====
section
/-!
DEFINITION. Shared operations of the causeway and the piers (10): endpoint states, sending packets, and pier words with
their SECDED (R302).
-/

namespace Sys2Proof.Machine

/-! ## Endpoints (R285, R295, R296) -/

/-- STATE of endpoint `i`: 0 ONLINE, 1 DRAINING, 2 ISOLATED, 3 OFF. -/
def epState (s : State) (i : Nat) : Nat := s.fld (Reg.CW_EP_STAT i) F.CW_EP_STAT_STATE

/-- Endpoint `i` is ISOLATED or OFF. -/
def epCut (s : State) (i : Nat) : Bool := 2 ≤ epState s i

def epTag (s : State) (i : Nat) : BitVec 16 := BitVec.ofNat 16 (s.fld (Reg.CW_EP_TAG i) F.CW_EP_TAG_TAG)

/-- A counter of endpoint `i`'s probe goes up by one. -/
def probeStray (s : State) (i : Nat) : State := s.bump (Reg.PRB_STRAY i) F.PRB_STRAY_COUNT
def probeIso (s : State) (i : Nat) : State := s.bump (Reg.PRB_ISO i) F.PRB_ISO_COUNT
def probeStale (s : State) (i : Nat) : State := s.bump (Reg.PRB_STALE i) F.PRB_STALE_COUNT

def modifyCw (s : State) (f : Causeway → Causeway) : State := { s with cw := f s.cw }

/-- The route epoch stamped on new heads (R300). -/
def routeEpoch (s : State) : Bool := s.flag Reg.CW_STAT F.CW_STAT_EPOCH

/-- The header of a packet (R287); DX, DY and DPORT are its destination's place. -/
def headerWord (s : State) (p : Packet) : Nat :=
  let a := Reg.CW_EP_STAT p.dst
  p.cls.toNat * 2 ^ 62 + p.epoch.toNat * 2 ^ 61 + p.len.toNat * 2 ^ 56 + p.kind.toNat * 2 ^ 52 + p.status.toNat * 2 ^ 49 +
    p.dtag.toNat * 2 ^ 32 + p.stag.toNat * 2 ^ 16 + s.fld a F.CW_EP_STAT_X * 2 ^ 13 + s.fld a F.CW_EP_STAT_Y * 2 ^ 10 +
    s.fld a F.CW_EP_STAT_PORT * 2 ^ 8 + p.txn.toNat

/-! ## The die-to-die link (R397, R398) -/

/-- Direction 0 of the link leads to the abutment die, 1 to the deck. -/
def ucieWay (s : State) (d : Fin 2) : UcieWay := s.cw.ucie[d]
def modifyWay (s : State) (d : Fin 2) (f : UcieWay → UcieWay) : State :=
  modifyCw s (fun c => { c with ucie := c.ucie.set d (f c.ucie[d]) })

/-- The link is up. -/
def linkUp (s : State) : Bool := s.fld Reg.UCIE_STAT F.UCIE_STAT_STATE == 2

/-- 32 bytes of data as a flit carries them: the byte at address `a` stands in byte (a mod 32) (R288). -/
def flitData (a : Nat) (bs : List Byte) : List Byte := (List.range 32).map (fun j => bs.getD ((j + 32 - a % 32) % 32) 0)

/-- The data of the flits of a packet (R288), the head flit first. -/
def packetFlits (p : Packet) : List (List Byte) :=
  let part (a k : Nat) : List Byte := flitData a ((p.data.drop (32 * k)).take 32)
  let head := leBytes 32 (p.addr.toNat + (p.count - 1) * 2 ^ 40)
  if p.kind = 0 then [head]
  else if p.kind = 1 then head :: (List.range p.len.toNat).map (part p.addr.toNat)
  else if p.kind = 2 then (List.range (p.len.toNat + 1)).map (part p.addr.toNat)
  else if p.kind = 3 then [leBytes 32 0]
  else (List.range (p.len.toNat + 1)).map (part 0)

/-- A causeway flit on its way through the link (R397). -/
structure LinkFlit where
  vc : Fin 4
  head : Option Nat
  tail : Bool
  truncated : Bool
  data : List Byte
deriving DecidableEq, Repr

/-- The 64-byte payload that carries at most one causeway flit, and credit returns (R397). -/
def linkPayload (f : Option LinkFlit) (returns : Nat) : List Byte :=
  match f with
  | none => List.replicate 41 0 ++ leBytes 1 returns ++ List.replicate 22 0
  | some f =>
    fitBytes 32 f.data ++ leBytes 8 (f.head.getD 0) ++
      leBytes 1 (f.vc.val + 4 * f.head.isSome.toNat + 8 * f.tail.toNat + 16 * f.truncated.toNat + 32) ++ leBytes 1 returns ++
      List.replicate 22 0

/-- The credit returns of direction `d` that one payload of the other direction carries (R397): up to 3 on each channel. -/
def creditReturns (w : UcieWay) : Nat × UcieWay :=
  let r (v : Fin 4) : Nat := min 3 w.owed[v]
  (r 0 + 4 * r 1 + 16 * r 2 + 64 * r 3,
   { w with credits := Vector.ofFn (fun v => w.credits[v] + r v), owed := Vector.ofFn (fun v => w.owed[v] - r v) })

/-- A payload goes out in direction `d`, with the credit returns of the other direction; a flit takes a credit of its channel,
and its receiver takes it out of its buffer. -/
def sendPayload (s : State) (d : Fin 2) (f : Option LinkFlit) : State :=
  let o : Fin 2 := 1 - d
  let r := creditReturns (ucieWay s o)
  let s := modifyWay s o (fun _ => r.2)
  modifyWay s d (fun w =>
    let w := { w with wire := w.wire ++ [linkPayload f r.1] }
    match f with
    | none => w
    | some f => { w with credits := w.credits.set f.vc (w.credits[f.vc] - 1), owed := w.owed.set f.vc (w.owed[f.vc] + 1) })

/-- A flit crosses: with no credit left on its channel, the other direction returns some first. -/
def crossFlit (d : Fin 2) (s : State) (f : LinkFlit) : State :=
  sendPayload (if (ucieWay s d).credits[f.vc] = 0 then sendPayload s (1 - d) none else s) d (some f)

/-- The flits of a packet, with its header in the head flit (R286, R287). -/
def linkFlits (s : State) (p : Packet) : List LinkFlit :=
  (packetFlits p).zipIdx.map (fun x =>
    ⟨Fin.ofNat 4 p.cls.toNat, if x.2 = 0 then some (headerWord s p) else none, x.2 == p.len.toNat, false, x.1⟩)

/-- Flits cross the link in direction `d`. -/
def crossFlits (s : State) (d : Fin 2) (fs : List LinkFlit) : State :=
  let clear (w : UcieWay) : UcieWay := { w with wire := [] }
  fs.foldl (crossFlit d) (modifyWay (modifyWay s 0 clear) 1 clear)

/-- A packet of the abutment die goes through the module into the mesh, or waits in it while the link is not up. -/
def crossInto (s : State) (p : Packet) (enter : State → Packet → State) : State :=
  if linkUp s then enter (crossFlits s 1 (linkFlits s p)) p else modifyWay s 1 (fun w => { w with worms := w.worms ++ [p] })

/-- A packet enters the mesh, stamped with the route epoch (R300) and, in class 0, with the FCLK cycle count modulo 256
(R287); a request becomes outstanding at its source. -/
def enterMesh (s : State) (p : Packet) : State :=
  let q : Packet := { p with epoch := routeEpoch s, txn := if p.cls = 0 then BitVec.ofNat 8 (s.now.toNat * 4 / 5) else p.txn }
  modifyCw s (fun c => { c with
    net := c.net ++ [q], txns := if p.kind = 0 ∨ p.kind = 1 then c.txns ++ [(p.src, p.txn)] else c.txns })

/-- A packet leaves its endpoint: one of the abutment die by the die-to-die link. -/
def leaveEndpoint (s : State) (p : Packet) : State := if p.src = 77 then crossInto s p enterMesh else enterMesh s p

/-- A packet that its endpoint sends: an endpoint that is not ONLINE starts no worm (R296) and keeps it. -/
def sendPacket (s : State) (p : Packet) : State :=
  if epState s p.src = 0 then leaveEndpoint s p else modifyCw s (fun c => { c with unsent := c.unsent ++ [p] })

/-- The packets that endpoint `i` has kept are sent, in order. -/
def sendKept (s : State) (i : Nat) : State :=
  let ps := s.cw.unsent.filter (fun p => p.src.val == i)
  ps.foldl leaveEndpoint (modifyCw s (fun c => { c with unsent := c.unsent.filter (fun p => p.src.val != i) }))

/-- C0_EN of endpoint `i`. -/
def c0Enabled (s : State) (i : Nat) : Bool := s.flag (Reg.CW_EP_CTL i) F.CW_EP_CTL_C0_EN

/-- 64 FCLK cycles (80 ns) have passed since the shaper's last release (R291). -/
def shaperFree (s : State) (x : Shaper) : Bool := x.last.all (fun t => t.toNat + 80 ≤ s.now.toNat)

/-- A packet is offered by its source (R291): class 0 that is not allowed goes as class 1 and is counted; allowed class 0
passes the shaper, or waits in it, counted, with CW_SHAPE for the first wait of a millisecond. -/
def offerPacket (s : State) (p : Packet) : State :=
  if p.cls ≠ 0 then sendPacket s p
  else if !c0Enabled s p.src ∨ p.kind ≠ 4 ∨ p.len ≠ 0 then
    sendPacket (s.bump (Reg.PRB_SHAPE p.src) F.PRB_SHAPE_COUNT) { p with cls := 1 }
  else
    let x := s.cw.shapers[p.src]
    let put (y : Shaper) (s : State) : State := modifyCw s (fun c => { c with shapers := c.shapers.set p.src y })
    if x.waiting.isEmpty ∧ shaperFree s x then sendPacket (put { x with last := some s.now } s) p
    else
      let ms := s.now.toNat / 1000000
      let s := s.bump (Reg.PRB_SHAPE p.src) F.PRB_SHAPE_COUNT
      let s := if x.told = some ms then s else s.raise 832 (payCause 0 p.src)
      put { x with waiting := x.waiting ++ [p], told := some ms } s

/-- The response to a request (R288), with the role tag of the endpoint that answers as STAG (R287); `addr` places its data in
the flits. -/
def responseTo (s : State) (p : Packet) (status : BitVec 3) (data : List Byte) : Packet :=
  { src := p.dst, dst := p.src, cls := 3, kind := if p.kind = 0 then 2 else 3,
    len := if p.kind = 0 then BitVec.ofNat 5 ((p.count + 31) / 32 - 1) else 0, status := status, epoch := false,
    dtag := p.stag, stag := epTag s p.dst, txn := p.txn, addr := p.addr, count := 0, data := data }

/-! ## The words between mergers and the tracker (R206, R207) -/

/-- A word as its 64 bits. -/
def MergerWord.bits : MergerWord → BitVec 64
  | .run r => (0#2 ++ r.cls ++ r.peak ++ 0#4 ++ BitVec.ofNat 19 r.stop ++ BitVec.ofNat 19 r.start).setWidth 64
  | .band b => (1#2 ++ b.cls ++ b.peak ++ BitVec.ofNat 11 b.area ++ BitVec.ofNat 8 b.truss ++ BitVec.ofNat 10 b.start ++
      BitVec.ofNat 10 b.stop ++ 0#3).setWidth 64
  | .mark aborted redo inBand extra runs lag line =>
    (2#2 ++ BitVec.ofBool extra ++ BitVec.ofBool inBand ++ BitVec.ofBool redo ++ BitVec.ofBool aborted ++ 0#2 ++ runs ++ 0#5 ++ lag ++
      line).setWidth 64
  | .filler => 3#2 ++ 0#62

/-- The word that 64 bits spell. -/
def MergerWord.ofBits (v : BitVec 64) : MergerWord :=
  let f (lo n : Nat) : Nat := (v.extractLsb' lo n).toNat
  if f 62 2 = 0 then .run ⟨f 0 19, f 19 19, v.extractLsb' 58 4, v.extractLsb' 42 16⟩
  else if f 62 2 = 1 then .band ⟨f 23 8, f 13 10, f 3 10, f 31 11, v.extractLsb' 58 4, v.extractLsb' 42 16⟩
  else if f 62 2 = 2 then
    .mark (v.getLsbD 58) (v.getLsbD 59) (v.getLsbD 60) (v.getLsbD 61) (v.extractLsb' 40 16) (v.extractLsb' 32 3) (v.extractLsb' 0 32)
  else .filler

/-- A RUNS packet of one flit (R206, R288): four words of span `m`, of class 1, to the tracker's role tag. -/
def runsPacket (s : State) (m : Fin 17) (ws : List MergerWord) : Packet :=
  { src := ⟨m.val, by omega⟩, dst := 34, cls := 1, kind := 5, len := 0, status := 0, epoch := false, dtag := 0x2000,
    stag := epTag s m, txn := 0, addr := 0, count := 0, data := ws.flatMap (fun w => leBytes 8 w.bits.toNat) }

/-- The merger words of a packet. -/
def packetWords (p : Packet) : List MergerWord :=
  (List.range (p.data.length / 8)).map (fun i => .ofBits (BitVec.ofNat 64 (leNat ((p.data.drop (8 * i)).take 8))))

/-- The words of span `m` on their way to the tracker. -/
def wordsUnderWay (s : State) (m : Fin 17) : List MergerWord :=
  ((s.cw.net ++ s.cw.held ++ s.cw.unsent).filter (fun p => p.kind == 5 && p.src.val == m.val)).flatMap packetWords

/-! ## SECDED words of the piers (R302) -/

/-- The aligned words of `w` bytes that the bytes from `a` to `a + n − 1` touch. -/
def wordsOf (w a n : Nat) : List Nat :=
  if n = 0 then [] else (List.range ((a + n - 1) / w - a / w + 1)).map (fun i => (a / w + i) * w)

/-- The byte at `a` as it lies in a memory whose SECDED words have `w` bytes: with the bits that have flipped. -/
def storedByte (s : State) (w a : Nat) : Byte :=
  s.byte a ^^^ BitVec.ofNat 8 (s.errMask (a / w * w) >>> (8 * (a % w)))

def storedBytes (s : State) (w a : Nat) : Nat → List Byte
  | 0 => []
  | n + 1 => storedByte s w a :: storedBytes s w (a + 1) n

/-- A word written with a poisoned check code: two check bits stand wrong, so every read finds a double-bit error. -/
def poisonMask (w : Nat) : Nat := 3 * 2 ^ (8 * w)

/-- The word `x` keeps its data as stored and becomes poisoned. -/
def poisonWord (s : State) (w x : Nat) : State :=
  (s.writeBytes x (storedBytes s w x w)).setErr x (poisonMask w)

/-- The pier of an address of pier space. -/
def pierOf (a : Nat) : Nat := (a - Win.piers) / 0x80000

def inPiers (a : Nat) : Bool := Win.piers ≤ a && a < Win.piers + 0x800000

/-- A check of the pier word at `x`: a single-bit error is corrected and counted, an uncorrectable one counted. -/
def pierCheck (s : State) (x : Nat) : State :=
  let p := pierOf x
  match eccOf (s.errMask x) with
  | .clean => s
  | .single => ((s.setErr x 0).bump (Reg.PIER_ECC p) F.PIER_ECC_CORR).raise 839 (BitVec.ofNat 32 p)
  | .double => (s.bump (Reg.PIER_ECC p) F.PIER_ECC_UNCORR).raise 840 (BitVec.ofNat 32 p)

/-- Whether a word still stands in error after its check: an uncorrectable error. -/
def wordBad (s : State) (x : Nat) : Bool := s.errMask x != 0

/-- A read of `n` bytes of one pier: the data, whether STATUS is ECC, and the state after the checks. -/
def pierRead (s : State) (a n : Nat) : List Byte × Bool × State :=
  let ws := wordsOf 8 a n
  let s := ws.foldl pierCheck s
  (storedBytes s 8 a n, ws.any (wordBad s), s)

/-- A write of bytes to a pier: a word covered in part is read, checked and merged; whole words take fresh check
bits. The flag says that the WACK carries STATUS ECC. -/
def pierWrite (s : State) (a : Nat) (bs : List Byte) : Bool × State :=
  let ws := wordsOf 8 a bs.length
  let whole (x : Nat) : Bool := a ≤ x && x + 8 ≤ a + bs.length
  let s := ws.foldl (fun s x => if whole x then s else pierCheck s x) s
  let bad := ws.filter (fun x => !whole x && wordBad s x)
  let s := bad.foldl (fun s x => poisonWord s 8 x) s
  let s := ws.foldl (fun s x => if bad.contains x then s else s.setErr x 0) s
  (!bad.isEmpty, s.writeBytes a bs)

/-- Causeway accesses of up to 512 bytes to pier space, made in order by a unit of the deck (R288, R302): bytes beyond
pier space are dropped or read 0 (R124) and counted like any access outside every window (R5, R13), and those of a pier whose
endpoint is isolated are dropped or read 0 (R295). -/
def areaWrite : Nat → State → Nat → List Byte → State
  | 0, s, _, _ => s
  | fuel + 1, s, a, bs =>
    let k := 512 - a % 512
    let head := bs.take k
    if head.isEmpty then s
    else
      let s := if !inPiers a then probeStray s 78
        else if epCut s (52 + pierOf a) then probeIso s (52 + pierOf a)
        else (pierWrite s a head).2
      areaWrite fuel s (a + head.length) (bs.drop k)

def areaRead : Nat → State → Nat → Nat → List Byte × State
  | 0, s, _, _ => ([], s)
  | fuel + 1, s, a, n =>
    let k := min n (512 - a % 512)
    if k = 0 then ([], s)
    else
      let r := if !inPiers a then (List.replicate k 0, probeStray s 78)
        else if epCut s (52 + pierOf a) then (List.replicate k 0, probeIso s (52 + pierOf a))
        else (let p := pierRead s a k; (p.1, p.2.2))
      let t := areaRead fuel r.2 (a + k) (n - k)
      (r.1 ++ t.1, t.2)

/-! ## DDR5 (R15, R305, R306) -/

/-- Channels populated: 0, 2, 4 or 8. -/
def ddrChannels (s : State) : Nat :=
  let k := s.fld Reg.D5_MAP F.D5_MAP_CHANNELS
  if k = 0 then 0 else if k = 1 then 2 else if k = 2 then 4 else 8

/-- The mapped capacity (R15, R305): 0 until the map is in force. -/
def ddrCapacity (s : State) : Nat :=
  if s.flag Reg.D5_MAP F.D5_MAP_READY then
    ddrChannels s * (s.fld Reg.D5_MAP F.D5_MAP_USED_GIB * 2 ^ 30 - 2 ^ 18)
  else 0

/-- The channel of an address (R305). -/
def ddrChannel (s : State) (a : Nat) : Nat := (a / 128) % max 1 (ddrChannels s)

/-- The `n` bytes from `a` all lie in channel `c`. -/
def ddrServes (s : State) (c a n : Nat) : Bool :=
  ddrChannel s a == c && (a % 128 + n ≤ 128 || ddrChannels s ≤ 1)

/-- The row of an address, with its subchannel and rank (R305, R310). -/
def ddrRowOf (s : State) (a : Nat) : DdrRow :=
  let n := max 1 (ddrChannels s)
  let o := a / 128 / n * 64 + a % 64
  let two := s.flag (Reg.D5_CFG (ddrChannel s a)) F.D5_CFG_RANKS
  ⟨(a % 128) / 64 + (if two && Config.ddrRank o then 2 else 0), Config.ddrRow o⟩

def ddrCtl (s : State) (c : Nat) : Ddr := s.d5[c]?.getD .reset
def setDdr (s : State) (c : Nat) (x : Ddr) : State := { s with d5 := s.d5.setIfInBounds c x }

/-- Spare rows of a subchannel that are in use or being written (R310). -/
def sparesUsed (x : Ddr) (sub : Nat) : Nat :=
  ((x.moved.map (·.1) ++ x.sparing).filter (fun r => r.place % 2 == sub)).length

/-- The lowest spare row of a subchannel that no row has (assumption log, entry 13). -/
def freeSpare (x : Ddr) (sub : Nat) : Nat :=
  ((List.range 32).find? (fun i => !(x.moved.any (fun m => m.1.place % 2 == sub && m.2 == i)))).getD 31

/-- A row becomes a candidate (R310): with SPARE_AUTO it is spared at once; where no spare is left, it is logged and
D5_SPARE reports NONE_FREE. -/
def ddrCandidate (s : State) (c : Nat) (r : DdrRow) : State :=
  let x := ddrCtl s c
  if !s.flag (Reg.D5_CTL c) F.D5_CTL_SPARE_AUTO ∨ x.sparing.contains r then s
  else if 32 ≤ sparesUsed x (r.place % 2) then
    (setDdr s c { x with unspared := x.unspared.filter (· != r) ++ [r] }).raise (899 + 8 * c) (payCause 2)
  else setDdr s c { x with sparing := x.sparing ++ [r] }

/-- An error in a row (R310): a corrected one counts toward SPARE_THRESH, an uncorrectable one makes a candidate. -/
def ddrRowError (s : State) (x : Nat) (uncorr : Bool) : State :=
  let c := ddrChannel s x
  let r := ddrRowOf s x
  if uncorr then ddrCandidate s c r
  else
    let d := ddrCtl s c
    let n := ((d.rowErrs.find? (fun e => e.1 == r)).map (·.2)).getD 0 + 1
    let s := setDdr s c { d with rowErrs := (r, n) :: d.rowErrs.filter (fun e => e.1 != r) }
    if n = s.fld (Reg.D5_CTL c) F.D5_CTL_SPARE_THRESH then ddrCandidate s c r else s

/-- An error found in the beat at `x` by a read or by the scrub is counted, logged and raised (R306, R309). -/
def ddrReport (s : State) (x : Nat) (uncorr scrub : Bool) : State :=
  let c := ddrChannel s x
  let s := s.bump (Reg.D5_ECC c) (if uncorr then F.D5_ECC_UNCORR else F.D5_ECC_CORR)
  let hi := Reg.D5_ERR_HI c
  let s := if s.flag hi F.D5_ERR_HI_VALID then s
    else ((((s.setFld hi F.D5_ERR_HI_VALID 1).setFld hi F.D5_ERR_HI_UNCORR uncorr.toNat).setFld hi
      F.D5_ERR_HI_SCRUB scrub.toNat).setFld hi F.D5_ERR_HI_ADDR_HI (x / 2 ^ 32)).setReg (Reg.D5_ERR_LO c)
      (BitVec.ofNat 32 x)
  ddrRowError (s.raise ((if uncorr then 898 else 897) + 8 * c) 0) x uncorr

/-- A check of the beat at `x` in a read: corrected data is not written back (R306). -/
def ddrCheck (s : State) (x : Nat) : State :=
  match eccOf (s.errMask x) with
  | .clean => s
  | .single => ddrReport s x false false
  | .double => ddrReport s x true false

def ddrBad (s : State) (x : Nat) : Bool := eccOf (s.errMask x) == .double

/-- The byte that a read returns: the stored bits of an uncorrectable beat, the corrected data of any other. -/
def ddrByte (s : State) (a : Nat) : Byte := if ddrBad s (a / 4 * 4) then storedByte s 4 a else s.byte a

/-- A read of mapped DDR5 bytes: data, whether STATUS is ECC, and the state after the checks. -/
def ddrRead (s : State) (a n : Nat) : List Byte × Bool × State :=
  let ws := wordsOf 4 a n
  let bs := (List.range n).map (fun i => ddrByte s (a + i))
  (bs, ws.any (ddrBad s), ws.foldl ddrCheck s)

/-- A write of mapped DDR5 bytes: a beat covered in part is read, checked and merged; after an uncorrectable error it is
written with the poison check code. The flag says that the WACK carries STATUS ECC. -/
def ddrWrite (s : State) (a : Nat) (bs : List Byte) : Bool × State :=
  let ws := wordsOf 4 a bs.length
  let whole (x : Nat) : Bool := a ≤ x && x + 4 ≤ a + bs.length
  let s := ws.foldl (fun s x => if whole x then s else ddrCheck s x) s
  let bad := ws.filter (fun x => !whole x && ddrBad s x)
  let s := bad.foldl (fun s x => poisonWord s 4 x) s
  let s := ws.foldl (fun s x => if bad.contains x then s else s.setErr x 0) s
  (!bad.isEmpty, s.writeBytes a bs)

/-- DDR5 accesses of a unit of the deck: unmapped bytes are dropped or read 0 and count at endpoint 44 (R15); those of
an isolated controller at its probe (R295). -/
def ddrUnitWrite (s : State) (a : Nat) (bs : List Byte) : State :=
  if bs.isEmpty then s
  else if ddrCapacity s < a + bs.length then probeStray s 44
  else if epCut s (44 + ddrChannel s a) then probeIso s (44 + ddrChannel s a)
  else (ddrWrite s a bs).2

/-- The same for a read: data, whether an uncorrectable error or an unmapped address spoilt it, and the state. -/
def ddrUnitRead (s : State) (a n : Nat) : List Byte × Bool × State :=
  if n = 0 then ([], false, s)
  else if ddrCapacity s < a + n then (List.replicate n 0, true, probeStray s 44)
  else if epCut s (44 + ddrChannel s a) then (List.replicate n 0, true, probeIso s (44 + ddrChannel s a))
  else ddrRead s a n

/-- A unit's write of many bytes, cut where the channels interleave (R305). -/
def ddrAreaWrite : Nat → State → Nat → List Byte → State
  | 0, s, _, _ => s
  | fuel + 1, s, a, bs =>
    let k := 128 - a % 128
    if bs.isEmpty then s else ddrAreaWrite fuel (ddrUnitWrite s a (bs.take k)) (a + k) (bs.drop k)

/-- A unit's read of many bytes: data, whether any part was spoilt, and the state. -/
def ddrAreaRead : Nat → State → Nat → Nat → List Byte × Bool × State
  | 0, s, _, _ => ([], false, s)
  | fuel + 1, s, a, n =>
    let k := min n (128 - a % 128)
    if n = 0 then ([], false, s)
    else
      let r := ddrUnitRead s a k
      let t := ddrAreaRead fuel r.2.2 (a + k) (n - k)
      (r.1 ++ t.1, r.2.1 || t.2.1, t.2.2)

end Sys2Proof.Machine
end

