-- ==== Sys2Proof/Machine/SpanCtl.lean ====
section
/-!
DEFINITION. The span controller (04): bundles, sockets, calls, the issue queue, checkpoints, stops and starts: meanings
of BUNDLE_EXECUTE to CW_MESSAGE_ARRIVE.
-/

namespace Sys2Proof.Machine

/-! ## Sockets (R96, R504) -/

/-- The Read entry of R96 is not a dash. -/
def sockReads (k : Nat) : Bool :=
  k ≤ 0x23 || [0x32, 0x41, 0x42, 0x61, 0x62, 0x81, 0xA1, 0xB3, 0xB8, 0xB9, 0xBA, 0xD2, 0xD3, 0xF0, 0xF1, 0xF2, 0xF7,
    0x100, 0x101, 0x128, 0x12A, 0x132].contains k || (0xE1 ≤ k && k ≤ 0xE7) || (0xFC ≤ k && k ≤ 0xFF) ||
    (0x120 ≤ k && k ≤ 0x127)

/-- The unit of a trigger socket (R504): 1 ALU0, 2 ALU1, 3 load/store, 4 jump, 5 call, 6 interrupt acknowledge, 7 array
issue queue, 8 causeway send, 9 causeway inbox, 10 signal; 0 for a socket that is no trigger. -/
def sockUnit (k : Nat) : Nat :=
  if 0x44 ≤ k ∧ k ≤ 0x5F then 1 else if 0x64 ≤ k ∧ k ≤ 0x7F then 2
  else if (0x84 ≤ k ∧ k ≤ 0x88) ∨ (0x8C ≤ k ∧ k ≤ 0x8F) then 3
  else if k = 0xA0 then 4 else if k = 0xB1 ∨ k = 0xB2 then 5 else if k = 0xBB then 6
  else if k = 0xD0 ∨ k = 0xD1 ∨ k = 0xE0 ∨ k = 0x131 then 7
  else if k = 0x119 then 8 else if k = 0x129 then 9 else if k = 0x138 then 10 else 0

/-- The Write entry of R96 is not a dash. -/
def sockWrites (k : Nat) : Bool :=
  sockUnit k != 0 || k ≤ 0x23 || [0x30, 0x31, 0x40, 0x42, 0x60, 0x62, 0x80, 0xB0, 0xB8, 0x110, 0x130].contains k ||
    (0xC0 ≤ k && k ≤ 0xCA) || (0xF8 ≤ k && k ≤ 0xFB) || (0x111 ≤ k && k ≤ 0x118)

/-! ## Strand posts (R119, R282) -/

/-- A first or last value as this device posts it: its position in bits [22:20]. -/
def postAt (pos : Nat) (v : BitVec 32) : BitVec 32 :=
  if v.msb then 0x80000000 else BitVec.ofNat 32 (pos * 2 ^ 20 + v.toNat % 2 ^ 19)

def lowerPost (a b : BitVec 32) : BitVec 32 := if a.msb then b else if b.msb then a else if a ≤ b then a else b
def higherPost (a b : BitVec 32) : BitVec 32 := if a.msb then b else if b.msb then a else if a ≤ b then b else a

/-- The combination of two devices' posts (R119). -/
def combinePosts (a b : StrandPost) : StrandPost :=
  { por := a.por || b.por, ppop := a.ppop + b.ppop, pfst := lowerPost a.pfst b.pfst, plst := higherPost a.plst b.plst,
    stat := a.stat ||| b.stat }

/-- The posts that a device makes at strand position `pos`. -/
def ownPosts (pos : Nat) (p : StrandPost) : StrandPost :=
  { p with pfst := postAt pos p.pfst, plst := postAt pos p.plst,
           stat := if p.stat = 0 then 0 else BitVec.ofNat 8 (2 ^ pos) }

def slOn (s : State) : Bool := s.flag Reg.SL_CTL F.SL_CTL_EN
def slPos (s : State) : Nat := if slOn s then s.fld Reg.SL_CTL F.SL_CTL_POS else 0

/-- A strand side has a neighbour whose posts can still come: the device is not the last one there, and the side is
up. -/
def slEast (s : State) : Bool :=
  slOn s && slPos s < s.fld Reg.SL_CTL F.SL_CTL_SIZE_M1 && s.fld Reg.SL_STAT F.SL_STAT_STATE_E == 2
def slWest (s : State) : Bool := slOn s && 0 < slPos s && s.fld Reg.SL_STAT F.SL_STAT_STATE_W == 2

/-- The results of a line, once they have arrived from both sides (R119, R282). -/
def RedLine.result (s : State) (r : RedLine) : Option StrandPost :=
  if (slEast s && !r.cutE && r.east.isNone) || (slWest s && !r.cutW && r.west.isNone) then none
  else some (combinePosts (r.own) (combinePosts (r.east.getD .nothing) (r.west.getD .nothing)))

/-- The strand results that the controller may read: those of the line before its own (R119); before any `LS.next` and on
the first line, those of a line on which nothing is posted (assumption log, entry 101). -/
def strResult (s : State) (n : Fin 17) : Option StrandPost :=
  match (s.ctl n).red.find? (fun r => r.ord + 1 == (s.ctl n).nexts) with
  | none => some .nothing
  | some r => r.result s

/-- RED messages of a line that are due leave: toward each side, this device's posts with the partial of the other side
(R278, R282). -/
def redSend (s : State) (n : Fin 17) (ord : Nat) : State :=
  match (s.ctl n).red.find? (fun r => r.ord == ord) with
  | none => s
  | some r =>
    match r.index with
    | none => s
    | some i =>
      let goE := slEast s && !r.sentE && (!slWest s || r.cutW || r.west.isSome)
      let goW := slWest s && !r.sentW && (!slEast s || r.cutE || r.east.isSome)
      let s := if goE then strandSend s true (.red n i (combinePosts r.own (r.west.getD .nothing))) else s
      let s := if goW then strandSend s false (.red n i (combinePosts r.own (r.east.getD .nothing))) else s
      let r' := { r with sentE := r.sentE || goE, sentW := r.sentW || goW }
      let c := s.ctl n
      s.setCtl n { c with red := c.red.map (fun x => if x.ord = ord then r' else x) }

/-- `LS.next` starts the next line: the posts of the controller's line are set aside; lines read and sent are
forgotten. -/
def rollPosts (s : State) (n : Fin 17) : State :=
  let c := s.ctl n
  let keep (r : RedLine) : Bool :=
    c.nexts ≤ r.ord || (slEast s && !r.sentE) || (slWest s && !r.sentW)
  let red := c.red.filter keep ++
    (if c.nexts = 0 then []
     else [{ ord := c.nexts, index := none, own := ownPosts (slPos s) c.post, east := none, west := none,
             sentE := false, sentW := false, cutE := false, cutW := false }])
  s.setCtl n { c with red := red, post := .nothing, nexts := c.nexts + 1, wdog := 0, wdogFired := false }

/-- The pending lines of controller `n` no longer wait for a side (R282): they are complete there with what has come, and
`STR.stat` shows the positions that are missing. -/
def redCut (s : State) (east : Bool) (n : Fin 17) : State :=
  let cut (r : RedLine) : RedLine := if east then { r with cutE := true } else { r with cutW := true }
  s.setCtl n { s.ctl n with red := (s.ctl n).red.map cut }

/-- RED messages of the lines that the array has left, whose index is known, take the partials that came before and
leave when they are due (R278). -/
def redLeave (s : State) (n : Fin 17) : State :=
  let c := s.ctl n
  let find (i : BitVec 64) (e : Bool) := (c.redIn.find? (fun p => p.1 == e && p.2.1 == i)).map (fun p => p.2.2)
  let take (r : RedLine) : RedLine := match r.index with
    | none => r
    | some i => { r with east := r.east.or (find i true), west := r.west.or (find i false) }
  let known (i : BitVec 64) : Bool := c.red.any (fun r => r.index == some i)
  let s := s.setCtl n { c with red := c.red.map take, redIn := c.redIn.filter (fun p => !known p.2.1) }
  (c.red.map (·.ord)).foldl (fun s k => redSend s n k) s

/-! ## Reading a socket -/

/-- What reading a socket gives: no value while it waits, with SPC_PLANE_WAIT as the cause or not; whether the read is
stray. -/
structure SockRead where
  value : Option (BitVec 32)
  plane : Bool
  stray : Bool
deriving DecidableEq, Repr

def readNow (v : BitVec 32) : SockRead := ⟨some v, false, false⟩
def readStray : SockRead := ⟨some 0, false, true⟩
def readWait : SockRead := ⟨none, false, false⟩

def Alu.busyDiv (a : Alu) : Bool := a.pend.any (·.division)

/-- `LS.flags` (R114). -/
def lineFlags (l : GroupLine) : BitVec 32 :=
  BitVec.ofNat 32 (min l.lost 255 * 256 + l.damaged.toNat * 4 + l.mode.toNat)

/-- A stamp socket or `LS.flags` (R114). -/
def readLine (s : State) (n : Fin 17) (k : Nat) : SockRead :=
  if (s.ctl n).nexts = 0 then readStray
  else match ctlLine s n with
    | none => ⟨none, true, false⟩
    | some l =>
      if k = 0xE7 then readNow (lineFlags l)
      else
        let v := if k ≤ 0xE2 then l.index else if k ≤ 0xE4 then l.coord else l.time
        readNow (if k % 2 = 1 then v.extractLsb' 0 32 else v.extractLsb' 32 32)

/-- A read of socket `k` (R96), with the values at the start of the cycle. -/
def readSock (s : State) (n : Fin 17) (pc k : Nat) : SockRead :=
  let c := s.ctl n
  let u := s.micro n
  let alu (a : Alu) (v : BitVec 32) : SockRead := if a.pend.isEmpty then readNow v else readWait
  if !sockReads k then readStray
  else if k < 0x20 then readNow (c.v.getD k 0)
  else if k < 0x24 then readNow (oneIf (c.g.getLsbD (k - 0x20)))
  else if k = 0x32 then readNow c.limm
  else if k = 0x41 then alu c.alu0 c.alu0.r
  else if k = 0x61 then alu c.alu1 c.alu1.r
  else if k = 0x42 then alu c.alu0 (c.alu0.f.setWidth 32)
  else if k = 0x62 then alu c.alu1 (c.alu1.f.setWidth 32)
  else if k = 0x81 then (if c.lsuWait = 0 && c.lsuPier.isNone then readNow c.lsuR else readWait)
  else if k = 0xA1 then readNow (BitVec.ofNat 32 pc)
  else if k = 0xB3 then readNow c.fp
  else if k = 0xB8 then readNow (oneIf c.ie)
  else if k = 0xB9 then readNow (BitVec.ofNat 32 (s.fld (Reg.SPC_INT n) F.SPC_INT_PEND))
  else if k = 0xBA then
    let r := s.fld (Reg.SPC_INT n) F.SPC_INT_PEND &&& s.fld (Reg.SPC_INT n) F.SPC_INT_EN
    readNow (BitVec.ofNat 32 (((List.range 8).find? (fun i => r.testBit i)).getD 8))
  else if k = 0xD2 then readNow (BitVec.ofNat 32 (32 - queueUsed s n))
  else if k = 0xD3 then readNow (c.done.setWidth 32)
  else if 0xE1 ≤ k ∧ k ≤ 0xE7 then readLine s n k
  else if k = 0xF0 then
    if !arrayIdle s n || (u.gorFresh && !u.gorPend.isEmpty) then readWait
    else readNow (if u.gorFresh then oneIf u.gor else 2)
  else if k = 0xF1 then
    match u.gauReady with
    | v :: _ => readNow v
    | [] => if u.gauPend.isEmpty && arrayIdle s n then readNow 0x80000000 else readWait
  else if k = 0xF2 then readNow (BitVec.ofNat 32 u.gauReady.length)
  else if k = 0xF7 ∨ (0xFC ≤ k ∧ k ≤ 0xFF) then
    match strResult s n with
    | none => readWait
    | some r =>
      readNow (if k = 0xF7 then r.stat.setWidth 32 else if k = 0xFC then oneIf r.por else if k = 0xFD then r.ppop
        else if k = 0xFE then r.pfst else r.plst)
  else if k = 0x100 then readNow (s.now.extractLsb' 0 32)
  else if k = 0x101 then readNow c.stHi
  else if 0x120 ≤ k ∧ k ≤ 0x127 then
    match c.inbox with
    | [] => readStray
    | m :: _ => readNow (m.words.getD (k - 0x120) 0)
  else if k = 0x128 then readNow (BitVec.ofNat 32 c.inbox.length)
  else if k = 0x12A then
    match c.inbox with
    | [] => readStray
    | m :: _ => readNow (m.tag.setWidth 32)
  else if k = 0x132 then readNow (s.reg (Reg.CKPT_STAT n))
  else readStray

/-- What a read of socket `k` leaves behind (R114, R118, R120). -/
def afterRead (s : State) (n : Fin 17) (k : Nat) : State :=
  let c := s.ctl n
  let u := s.micro n
  if k = 0xF1 then
    match u.gauReady with
    | _ :: r => s.setMicro n { u with gauReady := r }
    | [] => s.bump (Reg.SPC_MISC n) F.SPC_MISC_GAUGE
  else if k = 0x100 then s.setCtl n { c with stHi := s.now.extractLsb' 32 32 }
  else s

/-! ## Triggers that wait (R98, R103, R108, R121) -/

/-- The pier offset of an address of the load/store unit, after R102's clearing of low bits. -/
def lsuPierOffset (v : BitVec 32) (size : Nat) : Nat := v.toNat - 0x40000000 - v.toNat % size

def isPierAddr (v : BitVec 32) : Bool := 0x40000000 ≤ v.toNat && v.toNat ≤ 0x407FFFFF

/-- Bytes of a load (0x84–0x88) or store (0x8C–0x8E) socket. -/
def lsuSize (k : Nat) : Nat :=
  if k = 0x84 ∨ k = 0x85 ∨ k = 0x8C then 1 else if k = 0x86 ∨ k = 0x87 ∨ k = 0x8D then 2 else 4

/-- A valid snapshot request (R122). -/
def snapValid (c : SpanCtl) (v : BitVec 32) : Bool :=
  1 ≤ v.toNat % 128 && v.toNat % 128 ≤ 64 && c.nexts != 0

/-- Why a trigger of socket `k` with value `v` waits: 0 it does not, 1 a full issue queue, 2 another cause. -/
def triggerWaits (s : State) (n : Fin 17) (k : Nat) (v : BitVec 32) : Nat :=
  let c := s.ctl n
  if sockUnit k = 1 then (if c.alu0.busyDiv then 2 else 0)
  else if sockUnit k = 2 then (if c.alu1.busyDiv then 2 else 0)
  else if sockUnit k = 3 then
    if k = 0x8F then (if c.stores.isEmpty then 0 else 2)
    else if !isPierAddr v then 0
    else if 0x8C ≤ k then (if 8 ≤ c.stores.length then 2 else 0)
    else (if c.stores.any (fun p => p.2 == lsuPierOffset v (lsuSize k) / 0x80000) then 2 else 0)
  else if sockUnit k = 7 then
    if k = 0x131 && !snapValid c v then 0 else if 32 ≤ queueUsed s n then 1 else 0
  else if sockUnit k = 8 then
    if v.toNat % 4 = 0 then 0 else if 2 ≤ (c.outbox.filter (·.kind == 4)).length then 2 else 0
  else 0

/-! ## Writing and triggering (R93, R97, R99, R101–R106, R108, R112, R121, R122) -/

/-- A stray move counts (R97); a misaligned or unmapped access counts (R101, R102). -/
def strayMove (s : State) (n : Fin 17) : State := s.bump (Reg.STRAY_MOVES n) F.STRAY_MOVES_SOCKET
def strayAddr (s : State) (n : Fin 17) : State := s.bump (Reg.STRAY_MOVES n) F.STRAY_MOVES_ADDR

/-- What the triggers of a bundle ask of its end: a jump, a call, a return, a stop with its cause. -/
structure Flow where
  jump : Option Nat
  call : Option Nat
  ret : Bool
  stop : Option Nat
deriving DecidableEq, Repr

def Flow.empty : Flow := ⟨none, none, false, none⟩

/-- The `i`-th word of an `AI` operand socket write. -/
def writeAi (o : ArrayOp) (k : Nat) (v : BitVec 32) : ArrayOp :=
  if k = 0xC0 then { o with b0 := v.setWidth 11 } else if k = 0xC1 then { o with b1 := v.setWidth 11 }
  else if k = 0xC2 then { o with b2 := v.setWidth 11 } else if k = 0xC3 then { o with b3 := v.setWidth 11 }
  else if k = 0xC4 then { o with w := v.setWidth 6 } else if k = 0xC5 then { o with w2 := v.setWidth 6 }
  else if k = 0xC6 then { o with kc := o.kc.extractLsb' 32 32 ++ v }
  else if k = 0xC7 then { o with kc := v ++ o.kc.extractLsb' 0 32 }
  else if k = 0xC8 then { o with gws := v.setWidth 19 } else if k = 0xC9 then { o with gwe := v.setWidth 19 }
  else { o with rxf := v.setWidth 15 &&& 0x71F7 }

/-- A write of a socket that is no trigger (R93 step 2). -/
def writeSock (s : State) (n : Fin 17) (k : Nat) (v : BitVec 32) : State :=
  let c := s.ctl n
  let post (p : StrandPost) : State := s.setCtl n { c with post := { p with stat := 1 } }
  if k < 0x20 then s.setCtl n { c with v := c.v.setIfInBounds k v }
  else if k < 0x24 then
    let m := 1#4 <<< (k - 0x20)
    s.setCtl n { c with g := if v.getLsbD 0 then c.g ||| m else c.g &&& ~~~m }
  else if k = 0x30 then s.setCtl n { c with limm := v.setWidth 15 ++ c.limm.setWidth 17 }
  else if k = 0x31 then s.setCtl n { c with limm := c.limm.extractLsb' 17 15 ++ v.setWidth 17 }
  else if k = 0x40 then s.setCtl n { c with alu0 := { c.alu0 with o := v } }
  else if k = 0x60 then s.setCtl n { c with alu1 := { c.alu1 with o := v } }
  else if k = 0x42 then s.setCtl n { c with alu0 := { c.alu0 with f := v.setWidth 3 } }
  else if k = 0x62 then s.setCtl n { c with alu1 := { c.alu1 with f := v.setWidth 3 } }
  else if k = 0x80 then s.setCtl n { c with lsuO := v }
  else if k = 0xB0 then s.setCtl n { c with callMask := v }
  else if k = 0xB8 then s.setCtl n { c with ie := v.getLsbD 0 }
  else if k = 0xCA then
    if 4 < v.toNat % 8 ∨ 16 < (v.toNat / 16) % 32 then strayMove s n
    else s.setCtl n { c with ai := writeAi c.ai k v }
  else if 0xC0 ≤ k ∧ k ≤ 0xC9 then s.setCtl n { c with ai := writeAi c.ai k v }
  else if k = 0xF8 then post { c.post with por := v.getLsbD 0 }
  else if k = 0xF9 then post { c.post with ppop := v }
  else if k = 0xFA then post { c.post with pfst := v }
  else if k = 0xFB then post { c.post with plst := v }
  else if k = 0x110 then s.setCtl n { c with cwTo := v.setWidth 16 }
  else if 0x111 ≤ k ∧ k ≤ 0x118 then s.setCtl n { c with cwD := c.cwD.setIfInBounds (k - 0x111) v }
  else if k = 0x130 then s.setCtl n { c with ckBase := v.setWidth 11 }
  else s

/-- ALU operation `code` with trigger value `v` (R98–R100): slow results, and any result behind one, wait for
ALU_RESULT_READY. -/
def Alu.trigger (a : Alu) (code : Nat) (v : BitVec 32) : Alu :=
  match spanAlu code a.o v with
  | none => a
  | some r =>
    if aluSlow code || !a.pend.isEmpty then { a with pend := a.pend ++ [⟨r.value, r.mask, r.flags, aluDivision code⟩] }
    else { a with r := r.value, f := applyFlags a.f r.mask r.flags }

/-- A loaded value extended by load socket code `k` − 0x84: ldb, ldbu, ldh, ldhu, ldw (R102). -/
def loadExtend (code : Nat) (v : Nat) : BitVec 32 :=
  if code = 0 then (BitVec.ofNat 8 v).signExtend 32 else if code = 1 then (BitVec.ofNat 8 v).setWidth 32
  else if code = 2 then (BitVec.ofNat 16 v).signExtend 32 else if code = 3 then (BitVec.ofNat 16 v).setWidth 32
  else BitVec.ofNat 32 v

/-- The check of a scratch word at a read (R103): corrected and counted; the flag tells of a double-bit error. -/
def scratchRead (s : State) (n : Fin 17) (a : Nat) : Bool × State :=
  match eccOf (s.errMask a) with
  | .clean => (false, s)
  | .single => (false, (s.setErr a 0).bump (Reg.SPC_MISC n) F.SPC_MISC_SCR_CORR)
  | .double => (true, s)

/-- A pier request of the load/store unit: it waits in the endpoint to leave (R103, R293). -/
def pierRequest (s : State) (n : Fin 17) (write : Bool) (off size : Nat) (data : List Byte) : State :=
  let c := s.ctl n
  let p : Packet :=
    { src := ⟨n.val, by omega⟩, dst := ⟨52 + off / 0x80000 % 16, by omega⟩, cls := 2, kind := if write then 1 else 0,
      len := if write then 1 else 0, status := 0, epoch := false, dtag := 0xFFFF, stag := epTag s n, txn := c.txn,
      addr := BitVec.ofNat 40 (Win.piers + off), count := size, data := data }
  s.setCtl n { c with outbox := c.outbox ++ [p], txn := c.txn + 1 }

/-- A load or store trigger (R101–R103). An access that is both unmapped and misaligned counts once; a load triggered while
an earlier pier load is outstanding takes its place (assumption log, entry 101). -/
def lsuTrigger (s : State) (n : Fin 17) (f : Flow) (k : Nat) (v : BitVec 32) : State × Flow :=
  if k = 0x8F then (s, f)
  else
    let load := k ≤ 0x88
    let size := lsuSize k
    let scr := v.toNat < 0x8000
    let c := s.ctl n
    if !scr && !isPierAddr v then
      let s := strayAddr s n
      (if load then s.setCtl n { s.ctl n with lsuR := 0, lsuWait := 2, lsuPier := none } else s, f)
    else
      let s := if v.toNat % size = 0 then s else strayAddr s n
      let a := v.toNat - v.toNat % size
      if scr then
        let w := Win.scratch n + a / 4 * 4
        let r := if load || size != 4 then scratchRead s n w else (false, s)
        if r.1 then (r.2, { f with stop := some 5 })
        else if load then
          (r.2.setCtl n { r.2.ctl n with lsuR := loadExtend (k - 0x84) (r.2.readLE (Win.scratch n + a) size),
                                         lsuWait := 2, lsuPier := none }, f)
        else ((r.2.writeLE (Win.scratch n + a) size c.lsuO.toNat).setErr w 0, f)
      else
        let off := lsuPierOffset v size
        if load then
          let s := pierRequest s n false off size []
          (s.setCtl n { s.ctl n with lsuPier := some ⟨k - 0x84, off, c.txn⟩, lsuWait := 0 }, f)
        else
          let s := pierRequest s n true off size (leBytes size c.lsuO.toNat)
          (s.setCtl n { s.ctl n with stores := (s.ctl n).stores ++ [(c.txn, off / 0x80000)] }, f)

def enqueue (s : State) (n : Fin 17) (e : QueueEntry) : State :=
  s.setCtl n { s.ctl n with queue := (s.ctl n).queue ++ [e] }

/-- The endpoint that holds a role tag (R293); tags 0 and 0xFFFF name none. -/
def endpointOfTag (s : State) (tag : BitVec 16) : Option (Fin 80) :=
  if tag = 0 ∨ tag = 0xFFFF then none else (List.finRange 80).find? (fun i => epTag s i == tag)

/-- `CW.send` (R121): the message waits to leave. A tag that no endpoint holds leads to the alias endpoint. -/
def sendMessage (s : State) (n : Fin 17) (cls : Nat) : State :=
  let c := s.ctl n
  let dst := (endpointOfTag s c.cwTo).getD 78
  let p : Packet :=
    { src := ⟨n.val, by omega⟩, dst := dst, cls := BitVec.ofNat 2 cls, kind := 4, len := 0, status := 0, epoch := false,
      dtag := c.cwTo, stag := epTag s n, txn := 0, addr := 0, count := 0,
      data := c.cwD.toList.flatMap (fun w => leBytes 4 w.toNat) }
  s.setCtl n { c with outbox := c.outbox ++ [p] }

/-- A trigger fires (R93 step 3). -/
def fireSock (n : Fin 17) (sf : State × Flow) (k : Nat) (v : BitVec 32) : State × Flow :=
  let s := sf.1
  let f := sf.2
  let c := s.ctl n
  let t := v.toNat % 2048
  if sockUnit k = 1 then (s.setCtl n { c with alu0 := c.alu0.trigger (k - 0x44) v }, f)
  else if sockUnit k = 2 then (s.setCtl n { c with alu1 := c.alu1.trigger (k - 0x64) v }, f)
  else if sockUnit k = 3 then lsuTrigger s n f k v
  else if k = 0xA0 then (if 1364 < t then (strayMove s n, f) else (s, { f with jump := some t }))
  else if k = 0xB1 then (if 1364 < t then (strayMove s n, f) else (s, { f with call := some t }))
  else if k = 0xB2 then (if c.frames.isEmpty then (strayMove s n, f) else (s, { f with ret := true }))
  else if k = 0xBB then
    let a := Reg.SPC_INT n
    (s.setFld a F.SPC_INT_PEND ((BitVec.ofNat 8 (s.fld a F.SPC_INT_PEND)) &&& ~~~(v.setWidth 8)).toNat, f)
  else if k = 0xD0 then (enqueue s n (.op { c.ai with routine := v.setWidth 10 }), f)
  else if k = 0xD1 then (enqueue s n (.token (v.setWidth 16)), f)
  else if k = 0xE0 then
    let s := rollPosts (enqueue s n .lineSync) n
    (if spcState s n = 1 then s.setCtl n { s.ctl n with drain := 1 } else s, f)
  else if k = 0x131 then
    if snapValid c v then (enqueue s n (.snapshot c.ckBase (v.setWidth 7)), f) else (strayMove s n, f)
  else if k = 0x119 then (if v.toNat % 4 = 0 then (strayMove s n, f) else (sendMessage s n (v.toNat % 4), f))
  else if k = 0x129 then
    match c.inbox with
    | [] => (strayMove s n, f)
    | _ :: r => (s.setCtl n { c with inbox := r }, f)
  else if k = 0x138 then (raiseSpc s n 3 (BitVec.ofNat 32 (v.toNat % 2 ^ 16)), f)
  else (s, f)

/-! ## Calls (R105–R107) -/

/-- The registers of a call mask, v0 upward. -/
def maskRegs (mask : BitVec 32) : List (Fin 32) := (List.finRange 32).filter (fun i => mask.getLsbD i.val)

def putScratch (s : State) (n : Fin 17) (a : Nat) (v : BitVec 32) : State :=
  (s.writeLE (Win.scratch n + a) 4 v.toNat).setErr (Win.scratch n + a) 0

/-- SPC_PC shows bundle `i` of the bank in use. -/
def setPc (s : State) (n : Fin 17) (i : Nat) : State :=
  (s.setFld (Reg.SPC_PC n) F.SPC_PC_BANK (s.fld (Reg.SPC_CTL n) F.SPC_CTL_BANK)).setFld (Reg.SPC_PC n)
    F.SPC_PC_INDEX i

/-- A call to `target` with return index `ret` (R105): link word, mask and registers are pushed; the cycles after the
first are still to pass. A frame below 0x7000 is not made: stop-now with cause STACK, with SPC_STACK (R106). -/
def callFrame (s : State) (n : Fin 17) (target : Nat) (mask : BitVec 32) (ret : Nat) (irq : Bool) : State :=
  let c := s.ctl n
  let regs := maskRegs mask
  let top := c.fp.toNat
  if top < 0x7000 + 4 * (2 + regs.length) then
    stopNow (raiseSpc s n 2 0) n 3
  else
    let s := putScratch s n (top - 4) (BitVec.ofNat 32 (ret + irq.toNat * 2 ^ 31))
    let s := putScratch s n (top - 8) mask
    let s := regs.zipIdx.foldl (fun s p => putScratch s n (top - 12 - 4 * p.2) (c.v.getD p.1 0)) s
    let s := s.setCtl n { s.ctl n with fp := BitVec.ofNat 32 (top - 4 * (2 + regs.length)), frames := top :: c.frames,
                                       busy := 1 + regs.length, ie := c.ie && !irq }
    setPc s n target

/-- A word of the frame as a return reads it: `none` on a double-bit error. -/
def frameWord (s : State) (n : Fin 17) (a : Nat) : Option (BitVec 32) × State :=
  let r := scratchRead s n (Win.scratch n + a)
  (if r.1 then none else some (BitVec.ofNat 32 (r.2.readLE (Win.scratch n + a) 4)), r.2)

/-- The register words of a frame, read in order; `none` once one has a double-bit error. -/
def frameRegs (n : Fin 17) : List (Fin 32 × Nat) → State → Option (List (Fin 32 × BitVec 32)) × State
  | [], s => (some [], s)
  | (i, a) :: r, s =>
    match frameWord s n a with
    | (none, s) => (none, s)
    | (some v, s) =>
      match frameRegs n r s with
      | (none, s) => (none, s)
      | (some l, s) => (some ((i, v) :: l), s)

/-- A return (R105, R107): registers of the saved mask, the frame popped, the return index; `next` is the bundle after
the one that returns, where a return index above 1,364 leads, which is stray. Where the frame begins is what the call left
in `frames`, since the words of the frame do not say it (assumption log, entry 101). A double-bit error in the frame stops the
controller with nothing restored. -/
def callReturn (s : State) (n : Fin 17) (next : Nat) : State :=
  let c := s.ctl n
  match c.frames with
  | [] => setPc s n next
  | top :: outer =>
    match frameWord s n (top - 4) with
    | (none, s) => stopNow (raiseSpc (setPc s n next) n 5 0) n 5
    | (some link, s) =>
      match frameWord s n (top - 8) with
      | (none, s) => stopNow (raiseSpc (setPc s n next) n 5 0) n 5
      | (some mask, s) =>
        let regs := maskRegs mask
        match frameRegs n (regs.zipIdx.map (fun p => (p.1, top - 12 - 4 * p.2))) s with
        | (none, s) => stopNow (raiseSpc (setPc s n next) n 5 0) n 5
        | (some vs, s) =>
          let v := vs.foldl (fun (v : Vector (BitVec 32) 32) p => v.set p.1 p.2) (s.ctl n).v
          let s := s.setCtl n { s.ctl n with v := v, fp := BitVec.ofNat 32 top, frames := outer, busy := 1 + regs.length,
                                             ie := c.ie || link.msb }
          let r := link.toNat % 2048
          if 1364 < r then setPc (strayMove s n) n next else setPc s n r

/-! ## Bundles (R90–R94, R98, R107) -/

/-- An interrupt is due at the next bundle boundary (R107). -/
def interruptDue (s : State) (n : Fin 17) : Bool :=
  spcState s n == 0 && (s.ctl n).ie && (s.ctl n).busy == 0 &&
    (s.fld (Reg.SPC_INT n) F.SPC_INT_PEND &&& s.fld (Reg.SPC_INT n) F.SPC_INT_EN) != 0

/-- The controller takes an interrupt (R107): a call to IVEC with SPC_IMASK; a waiting bundle is abandoned. -/
def takeInterrupt (s : State) (n : Fin 17) : State :=
  let s := s.setCtl n { s.ctl n with waiting := false }
  callFrame s n (s.fld (Reg.SPC_ENTRY n) F.SPC_ENTRY_IVEC) (s.reg (Reg.SPC_IMASK n))
    (s.fld (Reg.SPC_PC n) F.SPC_PC_INDEX) true

/-- The three moves of a bundle (R90). -/
def bundleMoves (s : State) (n bank i : Nat) : List Move :=
  (List.range 3).map (fun k => Move.ofNat (s.readLE (Win.bundle n bank i + 4 * k) 4))

/-- A move that takes place, with its source read: socket or immediate. -/
structure Taken where
  move : Move
  read : SockRead
deriving DecidableEq, Repr

/-- Two destinations collide (R94): the same socket, writable or not, or triggers of one unit. -/
def collide (a b : Nat) : Bool := a == b || (sockUnit a != 0 && sockUnit a == sockUnit b)

/-- The moves that take effect: those that no move of a higher slot overrides; and how many are overridden (R94). -/
def effective : List Taken → List Taken × Nat
  | [] => ([], 0)
  | t :: r =>
    let e := effective r
    if r.any (fun u => collide t.move.dst u.move.dst) then (e.1, e.2 + 1) else (t :: e.1, e.2)

/-- The moves that a move of a higher slot overrides. -/
def overridden : List Taken → List Taken
  | [] => []
  | t :: r => if r.any (fun u => collide t.move.dst u.move.dst) then t :: overridden r else overridden r

/-- A waiting bundle's cycle: why it waits decides the counter (R98), which counts it once; a bundle that waits both for
a full queue and for a line-sync socket counts in SPC_ISSUE_STALL (assumption log, entry 101). -/
def countWait (s : State) (n : Fin 17) (queue plane : Bool) : State :=
  if queue then s.bump (Reg.SPC_ISSUE_STALL n) F.SPC_ISSUE_STALL_COUNT
  else if plane then s.bump (Reg.SPC_PLANE_WAIT n) F.SPC_PLANE_WAIT_COUNT else s

/-- The next bundle after a bundle, with the cycles of a jump, a call or a return (R104–R106). -/
def bundleFlow (s : State) (n : Fin 17) (f : Flow) (next : Nat) : State :=
  match f.call with
  | some t => callFrame (setPc s n next) n t (s.ctl n).callMask (f.jump.getD next) false
  | none =>
    if f.ret then callReturn s n next
    else match f.jump with
      | some t => (setPc s n t).setCtl n { (setPc s n t).ctl n with busy := 1 }
      | none => setPc s n next

/-- What a bundle leaves at its end: the next bundle, and then, the bundle having completed (R128), the stop that it asked
for. -/
def bundleEnd (s : State) (n : Fin 17) (f : Flow) (next : Nat) : State :=
  let s := bundleFlow s n f next
  match f.stop with
  | some c => stopNow (raiseSpc s n 5 0) n c
  | none => s

/-- A move with a stray source counts as stray once, unless its destination has counted it already (R97). -/
def countSource (n : Fin 17) (t : Taken) (before after : State) : State :=
  let k (s : State) := s.fld (Reg.STRAY_MOVES n) F.STRAY_MOVES_SOCKET
  if t.read.stray && k before == k after then strayMove after n else after

/-- One bundle executes or waits (R93). The source of every move that takes place is read, with what the read leaves
behind, also when the move is overridden (R94); two reads of one socket in a bundle are one read of its value at the
start of the cycle: of RED.gau they take one entry, or count once (assumption log, entry 101). -/
def runBundle (s : State) (n : Fin 17) (bank pc : Nat) : State :=
  let c := s.ctl n
  let taken := ((bundleMoves s n bank pc).filter (fun m => m.takesPlace c.g)).map (fun m =>
    (⟨m, if m.si then readNow m.imm else readSock s n pc m.src⟩ : Taken))
  let eff := effective taken
  let waits := eff.1.map (fun t => triggerWaits s n t.move.dst (t.read.value.getD 0))
  let readWaits := taken.any (fun t => t.read.value.isNone)
  if readWaits || waits.any (· != 0) then
    (countWait s n (waits.contains 1) (taken.any (·.read.plane))).setCtl n { c with waiting := true }
  else
    let s := s.setCtl n { c with waiting := false }
    let s := s.bump (Reg.SPC_MISC n) F.SPC_MISC_COLL eff.2
    let s := eff.1.foldl (fun s t => if sockWrites t.move.dst then s else strayMove s n) s
    let srcs := ((taken.filter (fun t => !t.move.si)).map (·.move.src)).dedup
    let s := srcs.foldl (fun s k => afterRead s n k) s
    let s := (overridden taken).foldl (fun s t => if t.read.stray then strayMove s n else s) s
    let plain := eff.1.filter (fun t => sockWrites t.move.dst && sockUnit t.move.dst == 0)
    let s := plain.foldl (fun s t => countSource n t s (writeSock s n t.move.dst (t.read.value.getD 0))) s
    let trig := eff.1.filter (fun t => sockUnit t.move.dst != 0)
    let r := trig.foldl (fun sf t =>
      let r := fireSock n sf t.move.dst (t.read.value.getD 0)
      (countSource n t sf.1 r.1, r.2)) (s, Flow.empty)
    bundleEnd r.1 n r.2 ((pc + 1) % 1365)

/-- One packet leaves the span's endpoint in the cycle, while the endpoint is ONLINE (R296). -/
def flushOut (s : State) (n : Fin 17) : State :=
  let c := s.ctl n
  match c.outbox with
  | [] => s
  | p :: r => if epState s n = 0 then offerPacket (s.setCtl n { c with outbox := r }) p else s

/-- BUNDLE_EXECUTE (R93, R98, R104, R105, R116, R130): one SCLK cycle of controller `n`. A packet that waits leaves; a
running controller counts its watchdog; a cycle of a jump, call, return or interrupt entry passes, an interrupt that is
due is taken, a bundle with a parity mismatch stops the controller, and otherwise the bundle executes or waits. The
controller of a member of a group fetches nothing (R506). -/
def execBundleExecute (n : Fin 17) (ups : List Upset) (s : State) : Host.Outcome State Fault Refusal :=
  let s := flushOut (applyUpsets s ups) n
  let c := s.ctl n
  let st := spcState s n
  if lead s n ≠ n ∨ 2 ≤ st ∨ c.drain ≠ 0 then
    .next (s.setCtl n { c with lsuWait := c.lsuWait - 1 })
  else
    let wd := st = 0 && !c.wdogFired
    let c := { c with lsuWait := c.lsuWait - 1, wdog := if wd then c.wdog + 1 else c.wdog, busy := c.busy - 1 }
    if (s.ctl n).busy ≠ 0 then .next (s.setCtl n c)
    else
      let s := s.setCtl n c
      let bank := s.fld (Reg.SPC_CTL n) F.SPC_CTL_BANK
      let pc := s.fld (Reg.SPC_PC n) F.SPC_PC_INDEX
      if interruptDue s n then .next (takeInterrupt s n)
      else if s.parity.contains (Win.bundle n bank pc) then .next (stopNow (raiseSpc s n 4 0) n 4)
      else .next (runBundle s n bank pc)

/-- ALU_RESULT_READY (R98, R100): the oldest result under way in an ALU becomes readable and its flags change. -/
def execAluResultReady (n : Fin 17) (alu : Fin 2) (s : State) : Host.Outcome State Fault Refusal :=
  let c := s.ctl n
  let land (a : Alu) : Alu := match a.pend with
    | [] => a
    | p :: r => { a with r := p.value, f := applyFlags a.f p.mask p.flags, pend := r }
  .next (s.setCtl n (if alu = 0 then { c with alu0 := land c.alu0 } else { c with alu1 := land c.alu1 }))

/-- INTERRUPT_ENTRY (R107): at a bundle boundary with an interrupt due, the controller takes it. -/
def execInterruptEntry (n : Fin 17) (ups : List Upset) (s : State) : Host.Outcome State Fault Refusal :=
  let s := applyUpsets s ups
  if lead s n = n ∧ interruptDue s n then .next (takeInterrupt s n) else .next s

/-! ## The issue queue (R110–R113, R122) -/

/-- The set of the line that the array leaves: an open set closes as an early extract-last would (R112); with no set
closed, a set without runs is made, in the format of the span's last set (R205). -/
def leaveSet (s : State) (n : Fin 17) : State :=
  let c := s.ctl n
  if c.served.any (fun l => l.mode == 1) then s
  else
    let s := if c.set.isSome then s.bump (Reg.SPC_MISC n) F.SPC_MISC_RXFIT else s
    (domainOf s n).foldl (fun s m =>
      let x := s.ext m
      if x.closed then s
      else if setOpen x then s.setExt m (closeSet x false)
      else
        let e : ExtractSet :=
          { fmt := x.lastFmt, planes := [], closed := true, aborted := false, line := (c.served.map (·.index)).getD 0,
            redo := c.served.any (fun l => l.mode == 2), extra := false, scanned := 0, runs := 0,
            ord := if c.served.isNone then some c.syncs else none, wrote := [] }
        s.setExt m { x with sets := x.sets ++ [e] }) s

/-- A halo capture starts in a span with a strand edge, for the line that line sync number `ord` makes current (R281). -/
def startCapture (s : State) (m : Fin 17) (ord : Nat) (line : Option (BitVec 64)) : State :=
  let cols := s.fld Reg.SL_HALO F.SL_HALO_NCOL
  if slOn s && (strandWest s m || strandEast s m) && cols != 0 then
    let c : Capture := { ord := ord, line := line, base := BitVec.ofNat 11 (s.fld Reg.SL_HALO F.SL_HALO_ROW),
                         count := s.fld Reg.SL_HALO F.SL_HALO_NPL, cols := cols, west := [], east := [] }
    s.setCtl m { s.ctl m with caps := (s.ctl m).caps ++ [c] }
  else s

/-- The ages of the checkpoints of the domain at a line sync (R132): that of the newest complete one, and that of a
snapshot being copied. -/
def ageCheckpoints (s : State) (n : Fin 17) : State :=
  let s := (domainOf s n).foldl (fun s m =>
    if s.flag (Reg.CKPT_STAT m) F.CKPT_STAT_VALID then s.bump (Reg.CKPT_STAT m) F.CKPT_STAT_AGE else s) s
  let c := s.ctl n
  s.setCtl n { c with snap := c.snap.map (fun p => { p with age := p.age + 1 }) }

/-- Entries before the line that a takeover names are passed over at the first line sync (R129, R362). -/
def skipTo (s : State) (n : Fin 17) : State :=
  match (s.ctl n).firstLine with
  | none => s
  | some i =>
    let s := (domainOf s n).foldl (fun s m =>
      consumeEntries s m ((s.region m).order.takeWhile (fun e => e.index.toNat < i.toNat)).length) s
    s.setCtl n { s.ctl n with firstLine := none }

/-- LINE_SYNC (R113): the micro-sequencer reaches a line-sync entry. The line served is consumed, its set closes, its
posts leave, the global OR goes stale, and the plane ports move to the next line. While a halo capture of the domain is
still being read, the entry is held and counts in CKPT_HOLD. -/
def execLineSync (n : Fin 17) (s : State) : Host.Outcome State Fault Refusal :=
  match queueFront s n with
  | some (.lineSync, q) =>
    let ms := domainOf s n
    if ms.any (fun m => (s.ctl m).caps.any (fun c => c.west.length < c.count)) then
      .next (snapRead (retime (s.bump (Reg.CKPT_HOLD n) F.CKPT_HOLD_COUNT) ms) n)
    else
      let c := s.ctl n
      let s := if c.syncs = 0 then skipTo s n else leaveSet s n
      let s := match c.served with
        | none => s
        | some l =>
          let named (r : RedLine) : RedLine := if r.ord = c.syncs then { r with index := some l.index } else r
          ms.foldl (fun s m => consumeEntries s m 1) (s.setCtl n { s.ctl n with red := c.red.map named })
      let s := ageCheckpoints (redLeave s n) n
      let s := ms.foldl (fun s m => (s.setExt m { s.ext m with closed := false }).setArray m
        { s.array m with port := [] }) s
      let c := s.ctl n
      let late := c.syncs ≠ 0 && c.served.isNone
      let s := s.setCtl n { c with queue := q, syncs := c.syncs + 1, served := none, taken := 0, set := none,
                                   behind := if late then c.behind + 1 else c.behind,
                                   drain := if c.drain = 1 then 2 else c.drain }
      let s := s.setMicro n { s.micro n with gorFresh := false }
      let s := refreshServed 600 s n
      let label := (s.ctl n).served.map (·.index)
      let s := ms.foldl (fun s m => startCapture s m (s.ctl n).syncs label) s
      .next (snapRead (retime s ms) n)
  | _ => .next s

/-- TOKEN_REACHED (R111): the token goes into `AI.done`. -/
def execTokenReached (n : Fin 17) (s : State) : Host.Outcome State Fault Refusal :=
  match queueFront s n with
  | some (.token v, q) =>
    let s := s.setCtl n { s.ctl n with queue := q, done := v }
    .next (snapRead (retime s (domainOf s n)) n)
  | _ => .next s

/-- SNAPSHOT_ENTRY (R122, R123): the snapshot takes the line served as its label and its rows start to be captured. The
entry is held, and counts in CKPT_HOLD, while that line's fate is open or the previous snapshot is still being copied. -/
def execSnapshotEntry (n : Fin 17) (ups : List Upset) (s : State) : Host.Outcome State Fault Refusal :=
  let s := applyUpsets s ups
  match queueFront s n with
  | some (.snapshot base count, q) =>
    let ms := domainOf s n
    match (s.ctl n).snap, (s.ctl n).served with
    | none, some l =>
      let c : Snapshot := { base := base, count := count.toNat, line := l.index, age := 0, rows := [] }
      let s := s.setCtl n { s.ctl n with queue := q, snap := some c }
      .next (retime (ms.foldl (fun s m => s.setFld (Reg.CKPT_STAT m) F.CKPT_STAT_BUSY 1) s) ms)
    | _, _ => .next (snapRead (retime (s.bump (Reg.CKPT_HOLD n) F.CKPT_HOLD_COUNT) ms) n)
  | _ => .next s

/-! ## Checkpoints (R123–R125) -/

/-- A slot header of a checkpoint area (R124). -/
structure CkptHeader where
  line : BitVec 64
  base : BitVec 11
  count : Nat
  complete : Bool
  tag : BitVec 16
  seq : BitVec 16
  crc : BitVec 32
deriving DecidableEq, Repr

def CkptHeader.ofBytes (bs : List Byte) : CkptHeader :=
  let v (i k : Nat) : Nat := leNat ((bs.drop i).take k)
  { line := BitVec.ofNat 64 (v 0 8), base := BitVec.ofNat 11 (v 8 2), count := v 10 1, complete := (v 11 1) % 2 = 1,
    tag := BitVec.ofNat 16 (v 12 2), seq := BitVec.ofNat 16 (v 14 2), crc := BitVec.ofNat 32 (v 16 4) }

def CkptHeader.toBytes (h : CkptHeader) : List Byte :=
  leBytes 8 h.line.toNat ++ leBytes 2 h.base.toNat ++ leBytes 1 h.count ++ leBytes 1 h.complete.toNat ++
    leBytes 2 h.tag.toNat ++ leBytes 2 h.seq.toNat ++ leBytes 4 h.crc.toNat ++ List.replicate 44 0

/-- COMPLETE is 1 and COUNT lies from 1 to 64. -/
def CkptHeader.good (h : CkptHeader) : Bool := h.complete && 1 ≤ h.count && h.count ≤ 64

/-- The newest complete slot of two (R124). -/
def newestSlot (h0 h1 : CkptHeader) : Option (Fin 2) :=
  match h0.good, h1.good with
  | false, false => none
  | true, false => some 0
  | false, true => some 1
  | true, true =>
    if h1.line.toNat < h0.line.toNat then some 0 else if h0.line.toNat < h1.line.toNat then some 1
    else if h1.seq = h0.seq + 1 ∧ h0.seq ≠ h1.seq + 1 then some 1 else some 0

/-- The two headers of the area at pier-space address `a`. -/
def readHeaders (s : State) (a : Nat) : CkptHeader × CkptHeader × State :=
  let r := areaRead 4 s a 64
  let t := areaRead 4 r.2 (a + 0x40) 64
  (.ofBytes r.1, .ofBytes t.1, t.2)

/-- Address of the rows of slot `k`. -/
def slotRows (a : Nat) (k : Fin 2) : Nat := a + 0x1000 + 0x20000 * k.val

/-- One span writes its checkpoint (R124): the header's FLAGS to 0, the rows, the header. `CKPT_STAT` and `CKPT_LINE` show
the newest complete slot, which stays the other one where that holds a higher line (R132). -/
def writeCheckpoint (s : State) (m : Fin 17) (c : Snapshot) (rows : List (BitVec 16384)) : State :=
  let a := Win.piers + 4096 * s.fld (Reg.CKPT_CTL m) F.CKPT_CTL_BASE
  let (h0, h1, s) := readHeaders s a
  let new := newestSlot h0 h1
  let k : Fin 2 := if new = some 0 then 1 else 0
  let seq : BitVec 16 := match new with
    | none => 0
    | some j => (if j = 0 then h0.seq else h1.seq) + 1
  let s := areaWrite 2 s (a + 0x40 * k.val + 11) [0]
  let data := rows.flatMap (fun r => leBytes 2048 r.toNat)
  let s := areaWrite 512 s (slotRows a k) data
  let h : CkptHeader := { line := c.line, base := c.base, count := c.count, complete := true, tag := epTag s m,
                          seq := seq, crc := crc32 data }
  let s := areaWrite 2 s (a + 0x40 * k.val) h.toBytes
  let st := Reg.CKPT_STAT m
  let j := (if k = 0 then newestSlot h h1 else newestSlot h0 h).getD k
  let hj := if j = k then h else if j = 0 then h0 else h1
  let s := (((s.setFld st F.CKPT_STAT_VALID 1).setFld st F.CKPT_STAT_SLOT j.val).setFld st F.CKPT_STAT_BUSY 0).setFld st
    F.CKPT_STAT_COUNT hj.count
  let s := if j = k then s.setFld st F.CKPT_STAT_AGE (min c.age 0xFFFF) else s
  s.setReg64 (Reg.CKPT_LINE_LO m) (Reg.CKPT_LINE_HI m) hj.line

/-- The accesses of checkpoint copies of span `m` (`restore`: of its restore) are through: none waits at a pier, and no pier is
DRAINING, where it would wait (R296, R303). -/
def copyThrough (s : State) (restore : Bool) (m : Fin 17) : Bool :=
  s.cw.piers.toList.all (fun x => !x.ckpt.contains (restore, m)) && (List.range 16).all (fun p => epState s (52 + p) != 1)

/-- CHECKPOINT_COPY_DONE (R124): the snapshot's copy is complete in every span of the domain; a stop-now that waited for
it ends (R128). -/
def execCheckpointCopyDone (n : Fin 17) (s : State) : Host.Outcome State Fault Refusal :=
  if (domainOf s n).any (fun m => !copyThrough s false m) then .next s
  else
  let s := readRest n 64 s
  match (s.ctl n).snap with
  | none => .next s
  | some c =>
    let s := (domainOf s n).zipIdx.foldl (fun s p =>
      writeCheckpoint s p.1 c (c.rows.map (fun r => r.getD p.2 0))) s
    let s := s.setCtl n { s.ctl n with snap := none }
    .next (if spcState s n = 2 then becomeStopped s n (s.fld (Reg.SPC_STAT n) F.SPC_STAT_CAUSE) 2 else s)

/-! ## Stops and starts (R126–R129) -/

/-- A write of 1 to STOP (R126, R127). -/
def stopDrain (s : State) (n : Fin 17) : State :=
  if lead s n ≠ n ∨ spcState s n ≠ 0 then s
  else
    let s := showStop s n 1 (s.fld (Reg.SPC_STAT n) F.SPC_STAT_CAUSE) 1
    let c := s.ctl n
    if c.queue.contains .lineSync then s.setCtl n { c with drain := 1, waiting := false } else s

/-- STOP_DRAIN (R127). -/
def execStopDrain (n : Fin 17) (s : State) : Host.Outcome State Fault Refusal := .next (stopDrain s n)

/-- DRAIN_COMPLETE (R127): after the drain's line sync, the entries behind it are discarded and counted, and the
controller stops with cause WRITE. -/
def execDrainComplete (n : Fin 17) (s : State) : Host.Outcome State Fault Refusal :=
  let c := s.ctl n
  if spcState s n = 1 ∧ c.drain = 2 then
    let s := s.bump (Reg.SPC_DISCARD n) F.SPC_DISCARD_COUNT c.queue.length
    let s := (s.setCtl n { c with queue := [], drain := 0, busy := 0, waiting := false }).setFld (Reg.SPC_STAT n)
      F.SPC_STAT_ABORTED 0
    .next (becomeStopped s n 1 1)
  else .next s

/-- A write of 2 to STOP (R126, R128); without effect on a member of a group (R506). -/
def stopWritten (s : State) (n : Fin 17) : State := if lead s n = n then stopNow s n 1 else s

/-- STOP_NOW (R128): written, or applied by the fault path to the controller that drives the span (R506). -/
def execStopNow (n : Fin 17) (byFault : Bool) (s : State) : Host.Outcome State Fault Refusal :=
  .next (if byFault then stopNowFault s n else stopWritten s n)

/-- A write of 0 to STOP (R126, R129). -/
def startWritten (s : State) (n : Fin 17) : State :=
  if lead s n ≠ n ∨ spcState s n ≠ 3 then s
  else if sweepsDone s (n :: domainOf s n) then startSpan s n
  else s.setCtl n { s.ctl n with starting := true }

/-- SPAN_START (R129). -/
def execSpanStart (n : Fin 17) (s : State) : Host.Outcome State Fault Refusal := .next (startWritten s n)

/-- SPC_WATCHDOG (R116): raised once when the count since the last `LS.next` has reached LIMIT while running. -/
def execSpcWatchdog (n : Fin 17) (s : State) : Host.Outcome State Fault Refusal :=
  let c := s.ctl n
  let limit := s.fld (Reg.SPC_WDOG n) F.SPC_WDOG_LIMIT
  if spcState s n = 0 ∧ limit ≠ 0 ∧ limit ≤ c.wdog ∧ c.wdogFired = false then
    .next (raiseSpc (s.setCtl n { c with wdogFired := true }) n 1 0)
  else .next s

/-- A write of 1 to `CKPT_REST.GO` (R125, R497). -/
def startRestore (s : State) (n : Fin 17) : State :=
  if spcState s n = 3 then s.setFld (Reg.CKPT_REST n) F.CKPT_REST_GO 1 else s

/-- CHECKPOINT_RESTORE (R125). -/
def execCheckpointRestore (n : Fin 17) (s : State) : Host.Outcome State Fault Refusal := .next (startRestore s n)

/-- The rows of a slot as bytes, when its CRC checks. -/
def checkedSlot (s : State) (a : Nat) (k : Fin 2) (h : CkptHeader) : Option (List Byte) × State :=
  if !h.good then (none, s)
  else
    let r := areaRead 512 s (slotRows a k) (2048 * h.count)
    (if crc32 r.1 = h.crc then some r.1 else none, r.2)

/-- Restored rows go into the span with fresh parity (R125). -/
def restoreRows (s : State) (n : Fin 17) (h : CkptHeader) (data : List Byte) : State :=
  (List.range h.count).foldl (fun s k =>
    s.setArray n (writeRowFresh (s.array n) ((h.base.toNat + k) % 2048)
      (BitVec.ofNat 16384 (leNat ((data.drop (2048 * k)).take 2048))))) s

/-- RESTORE_DONE (R125): the newest complete slot whose CRC checks is restored, else the other one with OLDER; with
neither, FAIL is set and CKPT_FAIL is raised. -/
def execRestoreDone (n : Fin 17) (ups : List Upset) (s : State) : Host.Outcome State Fault Refusal :=
  let s := applyUpsets s ups
  let rg := Reg.CKPT_REST n
  if !s.flag rg F.CKPT_REST_GO ∨ !copyThrough s true n then .next s
  else
    let src := s.fld rg F.CKPT_REST_SRC
    let a := Win.piers + 4096 * src
    let (h0, h1, s) := readHeaders s a
    let hd (k : Fin 2) := if k = 0 then h0 else h1
    let s := s.setFld rg F.CKPT_REST_GO 0
    let fail (s : State) : State :=
      raiseSpc ((s.setFld rg F.CKPT_REST_FAIL 1).setFld rg F.CKPT_REST_OLDER 0) n 6 (BitVec.ofNat 32 (src * 2 ^ 12))
    let use (s : State) (k : Fin 2) (older : Nat) (d : List Byte) : State :=
      (restoreRows ((s.setFld rg F.CKPT_REST_FAIL 0).setFld rg F.CKPT_REST_OLDER older) n (hd k) d).setReg64
        (Reg.CKPT_LINE_LO n) (Reg.CKPT_LINE_HI n) (hd k).line
    match newestSlot h0 h1 with
    | none => .next (fail s)
    | some k =>
      match checkedSlot s a k (hd k) with
      | (some d, s) => .next (use s k 0 d)
      | (none, s) =>
        let j : Fin 2 := if k = 0 then 1 else 0
        match checkedSlot s a j (hd j) with
        | (some d, s) => .next (use s j 1 d)
        | (none, s) => .next (fail s)

/-! ## Messages (R121) -/

/-- CW_MESSAGE_ARRIVE (R121): the oldest message that has reached the span's endpoint enters the controller's inbox while
fewer than four are there; one of the class-0 inbox (R291) goes before the others. -/
def execCwMessageArrive (n : Fin 17) (s : State) : Host.Outcome State Fault Refusal :=
  let c := s.ctl n
  match (s.cw.c0 ++ s.cw.msgs).find? (fun p => p.dst.val == n.val) with
  | none => .next s
  | some p =>
    if 4 ≤ c.inbox.length then .next s
    else
      let m : SpanMsg := { tag := p.stag, words := Vector.ofFn (fun i => BitVec.ofNat 32 (leNat ((p.data.drop (4 * i.val)).take 4))) }
      let s := modifyCw s (fun w => if w.c0.contains p then { w with c0 := w.c0.erase p } else { w with msgs := w.msgs.erase p })
      .next (s.setCtl n { s.ctl n with inbox := (s.ctl n).inbox ++ [m] })

end Sys2Proof.Machine
end

