-- ==== Sys2Proof/Machine/LeaseOps.lean ====
section
/-!
DEFINITION. Shared operations of the update service (15): the state that `UPD_COMP` and `UPD_STAT` show, leases (R444), and
the end of an update.
-/

namespace Sys2Proof.Machine

def modifyUp (s : State) (f : Updates → Updates) : State := { s with up := f s.up }

/-- State of a component: 0 IDLE, 1 RECEIVING, 2 CHECKING, 3 APPLYING, 4 TRIAL, 5 CONFIRMED, 6 REVERTING, 7 REVERTED,
8 REFUSED. -/
def compState (s : State) (c : Nat) : Nat := s.fld (Reg.UPD_COMP c) F.UPD_COMP_STATE
def setCompState (s : State) (c v : Nat) : State := s.setFld (Reg.UPD_COMP c) F.UPD_COMP_STATE v

def leaseOf (s : State) (c : Nat) : Option Lease := s.up.leases.find? (fun l => l.comp == c)

/-- A lease is held: before commit by a session, from commit on by the device. -/
def anyLease (s : State) : Bool := !s.up.leases.isEmpty || s.up.current.isSome

/-- UPD_LEASE with 1 TAKEN, 2 EXPIRED, 3 ENDED (R452). -/
def raiseLease (s : State) (c cause : Nat) : State := s.raise 997 (payCause cause c)

/-- A lease ends before commit; the bytes that it held are discarded. -/
def endLease (s : State) (c cause : Nat) : State :=
  let s := modifyUp s (fun u => { u with leases := u.leases.filter (fun l => l.comp != c) })
  let a := Reg.UPD_COMP c
  let s := ((setCompState s c 0).setFld a F.UPD_COMP_HELD 0).setFld a F.UPD_COMP_SESSION 0
  raiseLease (s.setFld a F.UPD_COMP_PROGRESS 0) c cause

/-- The component in progress changes as `f` says. -/
def modifyUpdate (s : State) (f : Update → Update) : State :=
  modifyUp s (fun u => { u with current := u.current.map f })

/-- An outcome (component, reason; 0 confirmed) is kept for the next settings generation (R440). -/
def addOutcome (s : State) (c reason : Nat) : State :=
  modifyUp s (fun u => { u with outcomes := u.outcomes ++ [(c, reason)] })

/-- The update in progress ends in state `st`, and its lease with it (R444). -/
def endUpdate (s : State) (c st : Nat) : State :=
  let s := modifyUp s (fun u => { u with current := none })
  let s := (setCompState s c st).setFld (Reg.UPD_COMP c) F.UPD_COMP_HELD 0
  raiseLease (s.setReg Reg.UPD_STAT 0) c 3

/-- UPD_REFUSED with a status of R443 (R452). -/
def raiseRefused (s : State) (c status : Nat) : State := s.raise 1001 (payCause status c)

/-- UPD_HEAD (R452): 1 ACCEPTED, 2 REFUSED, 3 CONFIRMED, 4 FAILED, with the port. -/
def raiseHeadUpdate (s : State) (h cause : Nat) : State := s.raise 1002 (payCause cause (0x10 + h) h)

/-- A head's update ends with HEAD (R450, R451). -/
def failHeadUpdate (s : State) (h cause : Nat) : State :=
  raiseRefused (endUpdate (raiseHeadUpdate s h cause) (0x10 + h) 8) (0x10 + h) 29

/-- The update whose section is being relayed to port `h` (R450). -/
def relaying (s : State) (h : Nat) : Option Update :=
  s.up.current.filter (fun u => u.comp == 0x10 + h && compState s u.comp == 3)

end Sys2Proof.Machine
end

