-- ==== Sys2Proof/Machine/LineOps.lean ====
section
/-!
DEFINITION. Shared operations on lines between head ports, regions and the tracker (05, 06): lines declared lost and
damaged (R11, R149), lost markers in a region's line order (R194), and the ingest queues (R10, R144, R170).
-/

namespace Sys2Proof.Machine

/-! ## Regions of a head port (R168, R169, R189) -/

/-- `RG_STAT.STATE`: 0 UNCONFIGURED, 1 LOADING, 2 RUNNING, 3 DRAINING, 4 DISABLED, 5 SEAL_FAILED. -/
def rgState (s : State) (m : Nat) : Nat := s.fld (Reg.RG_STAT m) F.RG_STAT_STATE

/-- The regions whose source in force is port `h`. -/
def regionsOf (s : State) (h : Fin 16) : List (Fin 17) :=
  (List.finRange 17).filter (fun m => (s.region m).source == some h)

/-- The regions that take the packet in progress of port `h`. -/
def takersOf (s : State) (h : Fin 16) : List (Fin 17) :=
  (List.finRange 17).filter (fun m => (s.region m).taking == some h)

/-- Event `k` of region `m` (R201). -/
def raiseRg (s : State) (m : Fin 17) (k : Nat) (pay : BitVec 32) : State := s.raise (272 + 16 * m.val + k) pay

/-! ## Lost markers (R194) -/

/-- A line entry in its place by index, behind the first `pin` entries. -/
def insertEntry : Nat → List LineEntry → LineEntry → List LineEntry
  | _, [], e => [e]
  | pin + 1, x :: r, e => x :: insertEntry pin r e
  | 0, x :: r, e => if e.index.toNat < x.index.toNat then e :: x :: r else x :: insertEntry 0 r e

/-- The entry of the line that the plane ports serve stands at the front of the region's order. -/
def pinnedEntries (s : State) (m : Fin 17) : Nat :=
  match (s.ctl (lead s m)).served, (s.region m).order with
  | some l, e :: _ => if e.index = l.index then 1 else 0
  | _, _ => 0

/-- A line enters the order of region `m`; a span whose plane ports wait for it serves it (R113). -/
def enterOrder (s : State) (m : Fin 17) (e : LineEntry) : State :=
  let r := s.region m
  refreshServed 600 (s.setRegion m { r with order := insertEntry (pinnedEntries s m) r.order e }) (lead s m)

/-- A line before `i` is still on its way from port `h` into the line order of region `m`. -/
def lineBefore (s : State) (m : Fin 17) (i : BitVec 64) : Bool :=
  let r := s.region m
  let low (j : BitVec 64) : Bool := j.toNat < i.toNat
  let port := match r.source with
    | none => false
    | some h => (s.head h).triggers.any (fun t => low t.index) ||
        (s.head h).ingest.any (fun g => g.regions.getLsbD m.val && match g.item with
          | .start st _ _ => low st.index
          | _ => false)
  port || r.gear.any (fun g => low g.stamp.index) || r.stamps.any (fun t => low t.index) ||
    r.out.any (fun o => low o.stamp.index)

/-- Lost markers enter the line order once no earlier line is on its way; with a history ring, the lost line gets its
metadata entry (R194, R200). -/
def flushMarkers : Nat → State → Fin 17 → State
  | 0, s, _ => s
  | fuel + 1, s, m =>
    let r := s.region m
    match r.markers with
    | [] => s
    | k :: rest =>
      if lineBefore s m k.index then s
      else
        let due := if s.flag (Reg.HR_CTL m) F.HR_CTL_EN then
            r.histDue ++ [{ slot := none, index := k.index, coord := k.coord, time := k.time, damaged := false,
                            lost := true, stored := true }]
          else r.histDue
        let s := s.setRegion m { r with markers := rest, histDue := due }
        flushMarkers fuel (enterOrder s m ⟨k.index, none⟩) m

/-- Every region of port `h` places the markers that are due. -/
def flushPort (s : State) (h : Fin 16) : State := (regionsOf s h).foldl (fun s m => flushMarkers 64 s m) s

/-- Markers kept in the order of their lines. -/
def insertMarker : List StampIn → StampIn → List StampIn
  | [], k => [k]
  | x :: r, k => if k.index.toNat < x.index.toNat then k :: x :: r else x :: insertMarker r k

/-- Region `m` has a lost marker to place for a line (R194); before its seal verifies the line buffer's write side is idle
(R187). -/
def addMarker (s : State) (m : Fin 17) (k : StampIn) : State :=
  if 2 ≤ rgState s m ∧ rgState s m ≤ 4 then
    let r := s.region m
    flushMarkers 64 (s.setRegion m { r with markers := insertMarker r.markers k }) m
  else s

/-! ## Lines declared lost or damaged (R11, R149) -/

/-- The tracker is told of a lost or damaged line of head `h` (R11). -/
def reportLine (s : State) (h : Fin 16) (i : BitVec 64) : State := { s with reports := s.reports ++ [⟨h, i⟩] }

/-- The stamp of a trigger. -/
def Trigger.stamp (t : Trigger) (h : Fin 16) : StampIn := ⟨t.index, t.coord, t.time, false, [], h⟩

/-- A line is lost for head `h` (R149): counted, reported, raised with cause LOST, and marked in the regions that the
port feeds. -/
def declareLost (s : State) (h : Fin 16) (k : StampIn) : State :=
  let s := s.bump (Reg.HP_LOST h) F.HP_LOST_COUNT
  let s := s.raise (546 + 4 * h.val) (payLine 1 k.index)
  (regionsOf s h).foldl (fun s m => addMarker s m k) (reportLine s h k.index)

/-- The oldest outstanding lines are lost, as many as `ts` holds. -/
def loseTriggers (s : State) (h : Fin 16) (ts : List Trigger) : State :=
  ts.foldl (fun s t =>
    let p := s.head h
    declareLost (s.setHead h { p with triggers := p.triggers.erase t }) h (t.stamp h)) s

/-! ## The ingest queue (R10, R144, R170) -/

/-- An item joins the ingest queue of port `h` for the regions that take the packet. -/
def pushIngest (s : State) (h : Fin 16) (i : IngestItem) : State :=
  match takersOf s h with
  | [] => s
  | m :: ms =>
    let mask := (m :: ms).foldl (fun (b : BitVec 17) k => b ||| (1#17 <<< k.val)) 0
    let p := s.head h
    s.setHead h { p with ingest := p.ingest ++ [⟨i, mask⟩] }

/-- Blocks in the queue. -/
def ingestBlocks (p : HeadPort) : Nat :=
  (p.ingest.filter (fun g => match g.item with
    | .block _ => true
    | _ => false)).length

/-- Packets whose end has not reached its regions: their credits are not yet back (R10). -/
def ingestEnds (p : HeadPort) : Nat :=
  (p.ingest.filter (fun g => match g.item with
    | .finish _ => true
    | _ => false)).length

/-- The packet in progress ends: its regions get its status, and the port is free for the next one. -/
def endPacket (s : State) (h : Fin 16) (k : HeadPacket) (damaged : Bool) : State :=
  let s := pushIngest s h (.finish damaged)
  let s := (takersOf s h).foldl (fun s m => s.setRegion m { s.region m with taking := none }) s
  let p := s.head h
  flushPort (s.setHead h { p with packet := none, triggers := p.triggers.erase k.trig }) h

/-- The packet in progress is damaged (R148, R149) with the cause of HP_LINE: 2 FRAMING, 3 HEADER, 4 CRC, 5 INGEST,
6 LOCK. -/
def damagePacket (s : State) (h : Fin 16) (cause : Nat) : State :=
  match (s.head h).packet with
  | none => s
  | some k =>
    let s := s.bump (Reg.HP_PKT_DMG h) F.HP_PKT_DMG_COUNT
    let s := if cause = 5 then s.bump (Reg.HP_INGEST_DROP h) F.HP_INGEST_DROP_COUNT else s
    let s := s.raise (546 + 4 * h.val) (payLine cause k.trig.index)
    let s := endPacket (reportLine s h k.trig.index) h k true
    s.setHead h { s.head h with skipping := true }

end Sys2Proof.Machine
end

