-- ==== Sys2Proof/Machine/HeadPort.lean ====
section
/-!
DEFINITION. The head ports (05): training, line packets, the control channel, hot-plug and descriptors: meanings of
TRAIN_WORD_RECEIVE to PORT_DISABLE, and the trigger of a port (R150) for the timing unit.
-/

namespace Sys2Proof.Machine

/-! ## Control words (R135) -/

/-- The 8 bytes of a control word after its sync header (R134, R135): its type, then bytes 1 to 7. -/
def CtrlWord.bytes : CtrlWord → List Byte
  | .idle => [0x1E, 0, 0, 0, 0, 0, 0, 0]
  | .align lane count seq => [0x2D, lane, count] ++ leBytes 2 seq.toNat ++ [0, 0, 0]
  | .start line total lane => [0x33] ++ leBytes 2 line.toNat ++ leBytes 2 total.toNat ++ [lane, 0, 0]
  | .term line blocks => [0x4B] ++ leBytes 2 line.toNat ++ leBytes 2 blocks.toNat ++ [0, 0, 0]
  | .trig w => [0x55] ++ leBytes 2 w.line.toNat ++ [w.offset] ++ leBytes 2 w.expCode.toNat ++ [w.flags, 0]
  | .ctrl pos b => [0x66, pos] ++ (b ++ List.replicate 6 0).take 6
  | .train lane count locked ready =>
    [0x78, lane, count, BitVec.ofNat 8 (locked.toNat + 2 * ready.toNat), 0, 0, 0, 0]

/-- The control word that 8 bytes spell (R135); `none` where the type is none of the table's. -/
def CtrlWord.ofBytes (b : List Byte) : Option CtrlWord :=
  let v (i : Nat) : Byte := b.getD i 0
  let v16 (i : Nat) : BitVec 16 := BitVec.ofNat 16 (leNat ((b.drop i).take 2))
  match (v 0).toNat with
  | 0x1E => some .idle
  | 0x2D => some (.align (v 1) (v 2) (v16 3))
  | 0x33 => some (.start (v16 1) (v16 3) (v 5))
  | 0x4B => some (.term (v16 1) (v16 3))
  | 0x55 => some (.trig ⟨v16 1, v 3, v16 4, v 6⟩)
  | 0x66 => some (.ctrl (v 1) ((b.drop 2).take 6))
  | 0x78 => some (.train (v 1) (v 2) ((v 3).getLsbD 0) ((v 3).getLsbD 1))
  | _ => none

/-- A message in groups of 6 bytes, the last padded with 0 (R153). -/
def messageChunks : Nat → List Byte → List (List Byte)
  | 0, _ => []
  | n + 1, b => if b.isEmpty then [] else (b ++ List.replicate 6 0).take 6 :: messageChunks n (b.drop 6)

/-- Position byte of word `k` of `n` (R153): 0b11 alone, 0b10 first, 0b01 last, 0b00 between. -/
def ctrlPos (n k : Nat) : BitVec 8 := (if k = 0 then 2 else 0) + (if k + 1 = n then 1 else 0)

/-- The CTRL words of a message of at most 66 bytes (R153). -/
def ctrlWords (msg : List Byte) : List CtrlWord :=
  let c := messageChunks 11 msg
  c.zipIdx.map (fun w => .ctrl (ctrlPos c.length w.2) w.1)

/-- The message that received CTRL words carry (R153), with its CRC: `none` where a position byte does not fit, the words
do not fit its LEN, or the CRC fails. That a message in words that do not fit fails its check: DEDUCED (log 105). -/
def ctrlMessage (words : List (BitVec 8 × List Byte)) : Option (List Byte) :=
  let all := (words.map (fun w => (w.2 ++ List.replicate 6 0).take 6)).flatten
  let len := leNat ((all.drop 2).take 2) + 8
  let msg := all.take len
  if words.zipIdx.all (fun w => w.1.1 == ctrlPos words.length w.2) ∧ len ≤ 66 ∧ words.length = (len + 5) / 6 ∧
      leNat (msg.drop (len - 4)) = (crc32 (msg.take (len - 4))).toNat then some msg
  else none

/-! ## States (R161) -/

/-- `HP_STAT.STATE`: 0 OFF, 1 ABSENT, 2 POWERING, 3 READING, 4 VERIFYING, 5 TRAINING, 6 CONFIGURING, 7 ACTIVE,
8 RELEASING, 9 RELEASED, 10 REJECTED, 11 FAILED. -/
def hpState (s : State) (h : Nat) : Nat := s.fld (Reg.HP_STAT h) F.HP_STAT_STATE

/-- Lanes in use (R133). -/
def hpLanes (s : State) (h : Nat) : Nat :=
  let k := s.fld (Reg.HP_CTL h) F.HP_CTL_LANES
  if k = 0 then 1 else if k = 1 then 2 else 4

/-- Events of R165: 0 HP_PRESENT, 1 HP_LINK, 2 HP_LINE, 3 HP_FAULT. -/
def raiseHp (s : State) (h : Fin 16) (k cause : Nat) (line : BitVec 64 := 0) : State :=
  s.raise (544 + 4 * h.val + k) (payLine cause line)

/-- The port enters state `st`: HPEN as the state has it, the SC fields whose actions are complete there (R497), HTRG low
while it is not ACTIVE (R157), and the transmitter idle without a link (R161). -/
def hpEnter (s : State) (h : Fin 16) (st : Nat) : State :=
  let a := Reg.HP_STAT h
  let c := Reg.HP_CTL h
  let s := (s.setFld a F.HP_STAT_STATE st).setFld a F.HP_STAT_HPEN (if 2 ≤ st ∧ st ≤ 8 then 1 else 0)
  let s := if 6 ≤ st ∧ st ≤ 8 then s else s.setFld a F.HP_STAT_LOCK 0
  let s := if [7, 11, 1, 0].contains st then s.setFld c F.HP_CTL_RETRAIN 0 else s
  let s := if st = 8 then s else s.setFld c F.HP_CTL_RELEASE 0
  let s := if [7, 10, 11, 1, 0].contains st then s.setFld c F.HP_CTL_ATTACH 0 else s
  let s := s.setHead h { s.head h with since := s.now, htrg := if st = 7 then (s.head h).htrg else [] }
  if 6 ≤ st ∧ st ≤ 8 then s
  else
    let p := { s.head h with down := [] }
    (s.setHead h { p with cc := none, ccGo := false, streamOff := false }).setFld (Reg.HP_CC_CTL h) F.HP_CC_CTL_GO 0

def hpCause (s : State) (h : Fin 16) (cause : Nat) : State := s.setFld (Reg.HP_STAT h) F.HP_STAT_CAUSE cause

/-- The port fails or rejects its head: STATE, CAUSE and HP_FAULT (R161, R165). -/
def hpFail (s : State) (h : Fin 16) (st cause : Nat) : State := raiseHp (hpCause (hpEnter s h st) h cause) h 3 cause

/-- The head's pads have left the safe state (R188). -/
def padsReleased (s : State) (h : Fin 16) : Bool := s.pads.contains h.val

/-- At least `n` ns have passed since the port's state, or its wait, began. -/
def hpWaited (s : State) (h : Fin 16) (n : Nat) : Bool := (s.head h).since.toNat + n ≤ s.now.toNat

/-- Bring-up starts with the power wait (R161). -/
def hpPower (s : State) (h : Fin 16) : State :=
  if padsReleased s h then
    hpEnter (s.setHead h { s.head h with fails := 0, retryWait := false }) h 2
  else s

/-- The link's lines end: the packet in progress is damaged and every outstanding line lost (R138, R163). -/
def stopLink (s : State) (h : Fin 16) (cause : Nat) : State :=
  let s := damagePacket s h cause
  let s := loseTriggers s h (s.head h).triggers
  s.setHead h { s.head h with skipping := false }

/-! ## Training (R137–R139) -/

/-- A TRAIN word of the device on the lane 0 downlink; that it carries lane number 0 and the lane count of the port is
DEDUCED (log 105). -/
def trainWord (s : State) (h : Fin 16) (up : Bool) : CtrlWord := .train 0 (BitVec.ofNat 8 (hpLanes s h)) up up

/-- Training begins (R137 step 1): TRAIN words with LOCKED = 0 go out. -/
def hpTrain (s : State) (h : Fin 16) : State :=
  let s := hpEnter s h 5
  s.setHead h { s.head h with retryWait := false, aligns := [], alignLate := [], alignRun := 0, ready := false,
                              laneOk := 0, down := [(0, trainWord s h false)] }

/-- A training failure with its cause (R139): HP_LINK; the third in a row fails the port, otherwise the port waits. -/
def trainFail (s : State) (h : Fin 16) (cause : Nat) : State :=
  let s := hpCause (raiseHp s h 1 (cause - 4)) h cause
  let p := s.head h
  if 2 ≤ p.fails then hpFail (s.setHead h { p with fails := 0 }) h 11 cause
  else s.setHead h { p with fails := p.fails + 1, retryWait := true, ready := false, since := s.now }

/-- The port trains, and no retry wait is in progress. -/
def training (s : State) (h : Fin 16) : Bool := hpState s h == 5 && !(s.head h).retryWait

/-- TRAIN_WORD_RECEIVE (R137 steps 3 and 4): a TRAIN word stands on lane position `p`, with the lane number and count it
carries. A word inside a packet damages it (R148); the input of a lane that is not in use is ignored (R133). -/
def execTrainWordReceive (h : Fin 16) (p : Fin 4) (num count : BitVec 8) (s : State) :
    Host.Outcome State Fault Refusal :=
  if hpLanes s h ≤ p.val then .next s
  else if training s h then
    let a := Reg.HP_STAT h
    let s := s.setFld a F.HP_STAT_LOCK (s.fld a F.HP_STAT_LOCK ||| 2 ^ p.val)
    if num.toNat = p.val ∧ count.toNat = hpLanes s h then
      .next (s.setHead h { s.head h with laneOk := (s.head h).laneOk ||| (1#4 <<< p.val) })
    else .next (trainFail s h 8)
  else .next (damagePacket s h 2)

/-- Every lane of the port has passed the checks of step 4. -/
def lanesChecked (s : State) (h : Fin 16) : Bool :=
  (List.range (hpLanes s h)).all (fun p => (s.head h).laneOk.getLsbD p)

/-- Skew above 40 ns, for a spread of `w` words (R139). -/
def skewTooHigh (s : State) (h : Fin 16) (w : Nat) : Bool :=
  4000 < w * (if s.flag (Reg.HP_CTL h) F.HP_CTL_RATE then 256 else 640)

/-- `HP_SKEW` shows the lateness of the lanes. -/
def showSkew (s : State) (h : Fin 16) (late : List Nat) : State :=
  let a := Reg.HP_SKEW h
  let v (p : Nat) : Nat := late.getD p 0
  (((s.setFld a F.HP_SKEW_LANE0 (v 0)).setFld a F.HP_SKEW_LANE1 (v 1)).setFld a F.HP_SKEW_LANE2 (v 2)).setFld a
    F.HP_SKEW_LANE3 (v 3)

/-- ALIGN_RECEIVE (R136, R137 step 5): the markers of the lanes, with their sequence numbers and their lateness in words.
They are removed; while training, two consecutive markers that agree deskew the lanes, and READY goes out (R137 step 6). -/
def execAlignReceive (h : Fin 16) (seqs : List (BitVec 16)) (late : List (BitVec 8)) (s : State) :
    Host.Outcome State Fault Refusal :=
  let p := s.head h
  if !(training s h && lanesChecked s h) || p.ready then .next s
  else
    let n := hpLanes s h
    let q := (seqs.headD 0)
    if seqs.length ≠ n ∨ !seqs.all (· == q) then .next (s.setHead h { p with aligns := [], alignRun := 0 })
    else
      let run := if p.aligns = [q - 1] then p.alignRun + 1 else 1
      let lates := (List.range n).map (fun i => (late.getD i 0).toNat)
      let p := { p with aligns := [q], alignRun := run, alignLate := lates }
      if run < 2 then .next (s.setHead h p)
      else
        let low := lates.foldl min (lates.headD 0)
        let rel := lates.map (· - low)
        let s := showSkew (s.setHead h p) h rel
        if skewTooHigh s h (rel.foldl max 0) then .next (trainFail s h 9)
        else .next (s.setHead h { s.head h with ready := true, down := [(64, trainWord s h true), (0, .idle)] })

/-! ## The control channel (R153–R156) -/

/-- A message of op, tag and body, without its CRC. -/
def ccMessage (op : Byte) (tag : BitVec 8) (body : List Byte) : List Byte :=
  [op, tag] ++ leBytes 2 body.length ++ body

/-- A request goes out under a new TAG, in CTRL words (R153, R156). -/
def ccSend (s : State) (h : Fin 16) (op : Byte) (body : List Byte) (own : Bool) : State :=
  let p := s.head h
  let msg := ccMessage op (p.ccTag + 1) body
  s.setHead h { p with ccTag := p.ccTag + 1, cc := some ⟨msg, 1, own, s.now⟩, ccSent := ctrlWords (msg ++ leBytes 4 (crc32 msg).toNat) }

/-- The request in `HP_CC_TX` goes out (R156, R166). -/
def ccSendUser (s : State) (h : Fin 16) : State :=
  let body := s.readBytes (Win.ccTx h + 4) (s.fld (Reg.HP_CC_CTL h) F.HP_CC_CTL_TX_LEN)
  ccSend (s.setHead h { s.head h with ccGo := false }) h (s.byte (Win.ccTx h)) body false

/-- A write of 1 to `HP_CC_CTL.GO` (R166): while CONFIGURING it waits until ACTIVE. -/
def ccGo (s : State) (h : Fin 16) : State :=
  let a := Reg.HP_CC_CTL h
  let st := hpState s h
  if s.flag a F.HP_CC_CTL_GO ∨ (st ≠ 6 ∧ st ≠ 7) then s
  else
    let s := s.setFld a F.HP_CC_CTL_GO 1
    if st = 6 ∨ (s.head h).cc.isSome then s.setHead h { s.head h with ccGo := true } else ccSendUser s h

/-- HP_CC_GO (R156). -/
def execHpCcGo (h : Fin 16) (s : State) : Host.Outcome State Fault Refusal := .next (ccGo s h)

/-- The next message of CONFIGURING (R161): IDENT, the WRITE messages of the head settings, STREAM on. -/
def cfgSend (s : State) (h : Fin 16) : State :=
  let p := s.head h
  if p.cfgStep = 0 then ccSend s h 2 [] true
  else match p.settings.writes[p.cfgStep - 1]? with
    | some b => ccSend s h 4 b true
    | none => ccSend s h 5 [1] true

/-- The group that triggers port `h` (R259), if one does. -/
def groupOfPort (s : State) (h : Fin 16) : Option (Fin 8) :=
  (List.finRange 8).find? (fun g => (s.fld (Reg.TG_HEADS g) F.TG_HEADS_HEADS).testBit h.val)

/-- While RELEASING, with nothing outstanding, STREAM off goes out (R161, R162). -/
def checkRelease (s : State) (h : Fin 16) : State :=
  let p := s.head h
  if hpState s h = 8 ∧ p.triggers = [] ∧ p.packet = none ∧ p.cc = none ∧ p.streamOff = false then
    let s := ccSend s h 5 [0] true
    s.setHead h { s.head h with streamOff := true }
  else s

/-- A write of 1 to RELEASE (R162, R166): from ACTIVE only. -/
def hpRelease (s : State) (h : Fin 16) : State :=
  if hpState s h = 7 then checkRelease ((hpEnter s h 8).setFld (Reg.HP_CTL h) F.HP_CTL_RELEASE 1) h else s

/-- A write of 1 to ATTACH (R161, R166). -/
def hpAttach (s : State) (h : Fin 16) : State :=
  let st := hpState s h
  if (st = 1 ∧ s.flag (Reg.HP_STAT h) F.HP_STAT_PRESENT) ∨ (9 ≤ st ∧ st ≤ 11) then
    if padsReleased s h then (hpPower s h).setFld (Reg.HP_CTL h) F.HP_CTL_ATTACH 1 else s
  else s

/-! ## Relaying an update to the head (R450) -/

/-- The next RELAY message, while the port is ACTIVE with no request outstanding: a block of the section, or ACTIVATE. The
OFFSET of ACTIVATE is not stated: a free value. -/
def relayNext (s : State) (h : Fin 16) : State :=
  if hpState s h ≠ 7 ∨ (s.head h).cc.isSome then s
  else match relaying s h with
    | none => s
    | some u =>
      if u.phase = 0 then
        let d := (u.body.drop u.relayed).take 52
        let flags := (if u.relayed = 0 then 1 else 0) + (if u.body.length ≤ u.relayed + 52 then 2 else 0)
        ccSend s h 6 (leBytes 4 u.relayed ++ leBytes 1 flags ++ leBytes 1 d.length ++ d) true
      else if u.phase = 1 then
        let w := s.draw 32
        ccSend w.2 h 6 (leBytes 4 w.1.toNat ++ [4, 0]) true
      else s

/-- The head has answered the RELAY message `msg` with a status and data. -/
def relayAnswer (s : State) (h : Fin 16) (msg : List Byte) (status : Nat) (data : List Byte) : State :=
  let flags := (msg.getD 8 0).toNat
  let last := flags.testBit 1
  if (relaying s h).isNone then s
  else if status ≠ 0 ∨ (last ∧ data.head? ≠ some 0) then failHeadUpdate s h 2
  else if flags.testBit 2 then hpRelease (modifyUpdate s (fun u => { u with phase := 2 })) h
  else if last then raiseHeadUpdate (modifyUpdate s (fun u => { u with phase := 1 })) h 1
  else modifyUpdate s (fun u => { u with relayed := u.relayed + (msg.getD 9 0).toNat })

/-- The control channel is free: a GO that waited goes out, else the next RELAY message. -/
def ccFree (s : State) (h : Fin 16) : State :=
  if hpState s h = 7 ∧ (s.head h).ccGo ∧ (s.head h).cc.isNone then ccSendUser s h else relayNext s h

/-- The port becomes ACTIVE: HP_LINK reports UP with the group's next line index, and a GO that waited goes out. -/
def hpActive (s : State) (h : Fin 16) : State :=
  let line := match groupOfPort s h with
    | some g => s.reg64 (Reg.TG_INDEX_LO g) (Reg.TG_INDEX_HI g)
    | none => 0
  let s := raiseHp (hpEnter s h 7) h 1 1 line
  let s := s.setHead h { s.head h with firstTrig := none, trigTime := none }
  if (s.head h).ccGo then ccSendUser s h else relayNext s h

/-- LINK_UP (R137): IDLE stands on every lane after READY; the port configures its head. -/
def execLinkUp (h : Fin 16) (s : State) : Host.Outcome State Fault Refusal :=
  if training s h && (s.head h).ready then
    let s := hpEnter (s.setHead h { s.head h with fails := 0, cfgStep := 0 }) h 6
    .next (cfgSend (s.setFld (Reg.HP_STAT h) F.HP_STAT_LOCK (2 ^ hpLanes s h - 1)) h)
  else .next s

/-- LANE_LOCK_LOSS (R138): outside training the line in progress is damaged, the outstanding lines are lost and the port
retrains; a RELEASING port only loses its lines. The input of a lane that is not in use is ignored (R133). -/
def execLaneLockLoss (h : Fin 16) (p : Fin 4) (s : State) : Host.Outcome State Fault Refusal :=
  let a := Reg.HP_STAT h
  let st := hpState s h
  if hpLanes s h ≤ p.val then .next s
  else
  let s := s.setFld a F.HP_STAT_LOCK ((BitVec.ofNat 4 (s.fld a F.HP_STAT_LOCK)) &&& ~~~(1#4 <<< p.val)).toNat
  if st = 6 ∨ st = 7 then
    let s := s.bump (Reg.HP_ERR h) F.HP_ERR_LOCK_LOSS
    let s := hpCause (raiseHp s h 1 2) h 14
    .next (hpTrain (stopLink s h 6) h)
  else if st = 8 then
    let s := raiseHp (s.bump (Reg.HP_ERR h) F.HP_ERR_LOCK_LOSS) h 1 2
    .next (checkRelease (stopLink (hpCause s h 14) h 6) h)
  else if st = 5 then .next (s.setHead h { s.head h with laneOk := (s.head h).laneOk &&& ~~~(1#4 <<< p.val) })
  else .next s

/-- TRAINING_TIMEOUT (R139): no link is up within 10 ms. -/
def execTrainingTimeout (h : Fin 16) (s : State) : Host.Outcome State Fault Refusal :=
  if training s h ∧ hpWaited s h 10000000 then .next (trainFail s h 7) else .next s

/-- TRAINING_RETRY (R139): the wait of 100 ms after a failure ends and training starts again. -/
def execTrainingRetry (h : Fin 16) (s : State) : Host.Outcome State Fault Refusal :=
  if hpState s h = 5 ∧ (s.head h).retryWait = true ∧ hpWaited s h 100000000 then .next (hpTrain s h) else .next s

/-! ## Line packets (R140–R148) -/

/-- LINE of a packet as the port matches it (R147). -/
def matchLine (s : State) (h : Fin 16) (line : BitVec 16) : BitVec 16 :=
  if s.flag (Reg.HP_TRG h) F.HP_TRG_PKT_EN then line
  else match (s.head h).firstTrig with
    | some i => line + i.setWidth 16
    | none => line

/-- The descriptor's pixel count, width and N of R141. -/
def descPixels (s : State) (h : Fin 16) : Nat := (s.head h).pixels.toNat
def descBits (s : State) (h : Fin 16) : Nat := (s.head h).bits.toNat
def descBlocks (s : State) (h : Fin 16) : Nat := (descPixels s h * descBits s h + 511) / 512

/-- The packet of trigger `t` begins (R145, R169, R170): the regions that take it are those RUNNING with the port as
their source; the others count a drop, and with none the line is lost. -/
def beginPacket (s : State) (h : Fin 16) (t : Trigger) (total : Nat) : State :=
  let rs := regionsOf s h
  let run : List (Fin 17) := rs.filter (fun m => rgState s m.val == 2)
  let s := (rs.filter (fun m => rgState s m.val != 2)).foldl (fun s (m : Fin 17) =>
    raiseRg (s.bump (Reg.RG_DROP m) F.RG_DROP_COUNT) m 10 0) s
  let p := s.head h
  if run.isEmpty then
    let s := s.setHead h { p with triggers := p.triggers.erase t, skipping := true }
    declareLost s h (t.stamp h)
  else
    let t' := { t with started := true }
    let s := s.setHead h { p with
      triggers := p.triggers.map (fun x => if x = t then t' else x),
      packet := some { trig := t', total := total, header := [], got := 0, crc := 0xFFFFFFFF, trailer := [] } }
    let s := run.foldl (fun s m => s.setRegion m { s.region m with taking := some h, feeds := (s.region m).feeds ++ [h] }) s
    pushIngest s h (.start (t.stamp h) (descPixels s h) (total - 2))

/-- START_WORD (R140, R145, R148): the START words of the lanes, each with LINE, total blocks and lane number. While
CONFIGURING no trigger is outstanding, so a packet matches none. -/
def execStartWord (h : Fin 16) (starts : List (BitVec 16 × BitVec 16 × BitVec 8)) (s : State) :
    Host.Outcome State Fault Refusal :=
  let p := s.head h
  let st := hpState s h
  if st < 6 ∨ 8 < st then .next s
  else if p.packet.isSome then .next (checkRelease (damagePacket s h 2) h)
  else if p.skipping then .next s
  else
    let (line, total, _) := starts.headD (0, 0, 0)
    let l := matchLine s h line
    let open' := p.triggers.filter (fun t => !t.started)
    match open'.find? (fun t => t.index.setWidth 16 == l) with
    | none =>
      .next ((s.bump (Reg.HP_ERR h) F.HP_ERR_STRAY_PKT).setHead h { p with skipping := true })
    | some t =>
      let older := open'.takeWhile (fun x => x != t)
      let s := beginPacket (loseTriggers s h older) h t total.toNat
      let agree := starts.length = hpLanes s h ∧
        starts.zipIdx.all (fun w => w.1.1 == line && w.1.2.1 == total && w.1.2.2.toNat == w.2)
      .next (checkRelease (if agree then s else damagePacket s h 2) h)

/-- The header block agrees with the descriptor and with itself (R142, R148). -/
def headerGood (s : State) (h : Fin 16) (b : List Byte) : Bool :=
  let v (i k : Nat) : Nat := leNat ((b.drop i).take k)
  v 0 1 == 1 && v 1 1 == descBits s h && v 4 2 == descPixels s h && v 6 2 == descBlocks s h

/-- A block of 64 bytes, in the order of R140. -/
def padBlock (b : List Byte) : List Byte := (b ++ List.replicate 64 0).take 64

/-- PACKET_BLOCK (R144, R148): the next block of the packet in progress; `clean` says that only data and ALIGN words
stood among its words. Outside a packet its data words are discarded and counted. -/
def execPacketBlock (h : Fin 16) (data : List Byte) (clean : Bool) (s : State) : Host.Outcome State Fault Refusal :=
  let p := s.head h
  let b := padBlock data
  match p.packet with
  | none =>
    if p.skipping ∨ hpState s h < 6 ∨ 8 < hpState s h then .next s
    else .next (s.bump (Reg.HP_ERR h) F.HP_ERR_BAD_CTRL 8)
  | some k =>
    let s :=
      if !clean || k.total ≤ k.got then damagePacket s h 2
      else if k.got = 0 && !headerGood s h b then damagePacket s h 3
      else if 256 ≤ ingestBlocks p then damagePacket s h 5
      else
        let last := k.got + 1 = k.total
        let k' := { k with got := k.got + 1, header := if k.got = 0 then b else k.header,
                           crc := if last then k.crc else crcRun k.crc b, trailer := if last then b else k.trailer }
        pushIngest (s.setHead h { p with packet := some k' }) h (.block b)
    .next (checkRelease s h)

/-- Blocks of a packet of `total` blocks that travel on lane `p` of `n` (R140). -/
def laneShare (total n p : Nat) : Nat := if p < total then (total - p + n - 1) / n else 0

/-- The first damage cause that a packet shows at its end, 0 for none (R148). -/
def endDamage (s : State) (h : Fin 16) (k : HeadPacket) (terms : List (BitVec 16 × BitVec 16)) : Nat :=
  let n := hpLanes s h
  let v (b : List Byte) (i j : Nat) : Nat := leNat ((b.drop i).take j)
  if terms.length ≠ n ∨ k.got ≠ k.total ∨
      terms.zipIdx.any (fun t => t.1.2.toNat != laneShare k.total n t.2) then 2
  else if v k.trailer 4 2 ≠ v k.header 2 2 ∨ v k.trailer 6 2 ≠ v k.header 6 2 then 3
  else if v k.trailer 0 4 ≠ (~~~k.crc).toNat then 4
  else 0

/-- TERM_WORD (R148, R149): the TERM words of the lanes, each with LINE and the blocks sent on the lane, end the packet;
its line is delivered good or damaged. -/
def execTermWord (h : Fin 16) (terms : List (BitVec 16 × BitVec 16)) (s : State) : Host.Outcome State Fault Refusal :=
  let p := s.head h
  match p.packet with
  | none => .next (s.setHead h { p with skipping := false })
  | some k =>
    let cause := endDamage s h k terms
    let s := if cause = 0 then endPacket (s.bump (Reg.HP_PKT_OK h) F.HP_PKT_OK_COUNT) h k false
      else damagePacket s h cause
    .next (checkRelease (s.setHead h { s.head h with skipping := false }) h)

/-- BAD_CTRL (R135, R166): the 8 bytes of a control word of unknown type, treated as IDLE, or (`none`) a data word outside
a packet. A word of a type of the table has a command of its own. -/
def execBadCtrl (h : Fin 16) (word : Option (List Byte)) (s : State) : Host.Outcome State Fault Refusal :=
  let p := s.head h
  let counted := s.bump (Reg.HP_ERR h) F.HP_ERR_BAD_CTRL
  match word with
  | none => .next (if p.packet.isSome || p.skipping then s else counted)
  | some w => .next (if (CtrlWord.ofBytes w).isSome then s else checkRelease (damagePacket counted h 2) h)

/-- PACKET_TIMEOUT (R146): PKT_US after the oldest outstanding trigger, its packet has not started. -/
def execPacketTimeout (h : Fin 16) (s : State) : Host.Outcome State Fault Refusal :=
  if s.fld (Reg.HP_TMO h) F.HP_TMO_PKT_US = 0 then .next s
  else match (s.head h).triggers.find? (fun t => !t.started) with
    | none => .next s
    | some t =>
      let due := t.time.toNat + 1000 * s.fld (Reg.HP_TMO h) F.HP_TMO_PKT_US
      .next (if due ≤ s.now.toNat then checkRelease (loseTriggers s h [t]) h else s)

/-! ## Answers of the head (R155, R156) -/

/-- A request of the port's own is answered while CONFIGURING (R161): IDENT must give the descriptor's serial number. -/
def cfgAnswer (s : State) (h : Fin 16) (data : List Byte) : State :=
  let p := s.head h
  if p.cfgStep = 0 ∧ data ≠ s.readBytes (Win.desc h + 40) 16 then hpFail s h 11 10
  else if p.cfgStep = p.settings.writes.length + 1 then hpActive s h
  else cfgSend (s.setHead h { p with cfgStep := p.cfgStep + 1 }) h

/-- A received message stands in `HP_CC_RX` (R166). -/
def ccStore (s : State) (h : Fin 16) (msg : List Byte) : State :=
  (s.writeBytes (Win.ccRx h) ((msg ++ List.replicate 64 0).take 64)).setFld (Reg.HP_CC_CTL h) F.HP_CC_CTL_RX_LEN
    (msg.length - 4)

/-- CC_MESSAGE_RECEIVE (R153, R156): the CTRL words of a message, each with its position byte and 6 bytes. One that fails
its check, and a second ALERT, are discarded and counted; a RESP with the TAG of the request outstanding answers it. -/
def execCcMessageReceive (h : Fin 16) (words : List (BitVec 8 × List Byte)) (s : State) :
    Host.Outcome State Fault Refusal :=
  let s := damagePacket s h 2
  let a := Reg.HP_CC_CTL h
  let p := s.head h
  match ctrlMessage words with
  | none => .next (s.bump (Reg.HP_ERR h) F.HP_ERR_CC_CRC)
  | some bytes =>
    let msg := bytes.take (bytes.length - 4)
    let op := (msg.getD 0 0).toNat
    if op = 0x82 then
      if s.flag a F.HP_CC_CTL_ALERT then .next (s.bump (Reg.HP_ERR h) F.HP_ERR_CC_CRC)
      else .next (raiseHp ((ccStore s h msg).setFld a F.HP_CC_CTL_ALERT 1) h 3 15)
    else if op = 0x81 then
      match p.cc with
      | none => .next s
      | some r =>
        if r.msg.getD 1 0 ≠ msg.getD 1 0 then .next s
        else
          let s := s.setHead h { p with cc := none }
          if r.own then
            if p.streamOff then .next s
            else if hpState s h = 6 then .next (cfgAnswer s h (msg.drop 5))
            else .next (checkRelease (ccFree (relayAnswer s h r.msg (msg.getD 4 0).toNat (msg.drop 5)) h) h)
          else
            let s := ((ccStore s h msg).setFld a F.HP_CC_CTL_DONE 1).setFld a F.HP_CC_CTL_GO 0
            .next (checkRelease (relayNext s h) h)
    else .next s

/-- CC_RETRY_TIMEOUT (R156): 1 ms without a RESP: the same request goes out again, at most three times in all; then it
ends with CC_TIMEOUT, which fails a CONFIGURING port, and leaves a RELEASING one to enter RELEASED. -/
def execCcRetryTimeout (h : Fin 16) (s : State) : Host.Outcome State Fault Refusal :=
  let p := s.head h
  let a := Reg.HP_CC_CTL h
  match p.cc with
  | none => .next s
  | some r =>
    if s.now.toNat < r.sent.toNat + 1000000 then .next s
    else if r.attempt < 3 then
      .next (s.setHead h { p with cc := some { r with attempt := r.attempt + 1, sent := s.now } })
    else
      let s := s.setHead h { p with cc := none }
      if r.own && !p.streamOff && hpState s h == 6 then .next ((hpFail s h 11 11).setFld a F.HP_CC_CTL_ERR 1)
      else
        let s := s.setFld a F.HP_CC_CTL_ERR 1
        let s := if r.own then s else s.setFld a F.HP_CC_CTL_GO 0
        let s := raiseHp (hpCause s h 11) h 3 11
        .next (checkRelease (if r.own && (relaying s h).isSome then failHeadUpdate s h 4 else ccFree s h) h)

/-! ## Hot-plug (R157–R164) -/

/-- HEAD_INSERTION (R157): HPRS# has been low for 20 ms. -/
def execHeadInsertion (h : Fin 16) (s : State) : Host.Outcome State Fault Refusal :=
  let a := Reg.HP_STAT h
  if s.flag a F.HP_STAT_PRESENT then .next s
  else
    let s := raiseHp (s.setFld a F.HP_STAT_PRESENT 1) h 0 1
    .next (if hpState s h = 1 ∧ s.flag (Reg.HP_CTL h) F.HP_CTL_AUTO then hpPower s h else s)

/-- The head is taken away in one step (R163): lines end, power, HTRG and transmitter go, the port enters `st`, and
HP_PRESENT reports REMOVED. -/
def dropHead (s : State) (h : Fin 16) (st cause : Nat) : State :=
  raiseHp (hpCause (hpEnter (stopLink s h 2) h st) h cause) h 0 2

/-- HEAD_REMOVAL (R157, R163): HPRS# has been high for 1 µs. -/
def execHeadRemoval (h : Fin 16) (s : State) : Host.Outcome State Fault Refusal :=
  let a := Reg.HP_STAT h
  if !s.flag a F.HP_STAT_PRESENT then .next s
  else
    let s := (s.setHead h { s.head h with known := false }).setFld a F.HP_STAT_PRESENT 0
    .next (if hpState s h ≤ 1 then raiseHp s h 0 2 else dropHead s h 1 12)

/-- HEAD_FAULT (R157, R164): HFLT# is recognised low, or high again. -/
def execHeadFault (h : Fin 16) (low : Bool) (s : State) : Host.Outcome State Fault Refusal :=
  let a := Reg.HP_STAT h
  let before := s.flag a F.HP_STAT_FAULT
  let s := s.setFld a F.HP_STAT_FAULT low.toNat
  if !low || before || !s.flag a F.HP_STAT_PRESENT then .next s
  else
    let s := raiseHp (hpCause s h 13) h 3 13
    .next (if s.flag (Reg.HP_CTL h) F.HP_CTL_FLT_OFF ∧ 1 < hpState s h then dropHead s h 11 13 else s)

/-- The power wait in ns (R161): READY_MS of the descriptor, or 100 ms before it is read. -/
def powerWait (s : State) (h : Fin 16) : Nat :=
  (if (s.head h).known then s.readLE (Win.desc h + 78) 2 else 100) * 1000000

/-- POWER_WAIT_END (R161): READING with HFLT# high, else FAILED with PWR_TIMEOUT. -/
def execPowerWaitEnd (h : Fin 16) (s : State) : Host.Outcome State Fault Refusal :=
  if hpState s h ≠ 2 ∨ !hpWaited s h (powerWait s h) then .next s
  else if s.flag (Reg.HP_STAT h) F.HP_STAT_FAULT then .next (hpFail s h 11 1) else .next (hpEnter s h 3)

/-- DESCRIPTOR_READ_DONE (R158, R161): the read has ended with the descriptor's bytes, or, after three tries, without
them. -/
def execDescriptorReadDone (h : Fin 16) (bytes : List Byte) (good : Bool) (s : State) :
    Host.Outcome State Fault Refusal :=
  if hpState s h ≠ 3 then .next s
  else if !good then .next (hpFail s h 11 2)
  else
    let d := (bytes ++ List.replicate 1024 0).take 1024
    .next (hpEnter ((s.setHead h { s.head h with known := true }).writeBytes (Win.desc h) d) h 4)

/-- The checks of R160 on the descriptor in `HP_DESC`: the first cause that applies, 0 when it is accepted. -/
def descriptorCause (s : State) (h : Fin 16) : Nat :=
  let d := s.readBytes (Win.desc h) 1024
  let v (i k : Nat) : Nat := leNat ((d.drop i).take k)
  let len := v 6 2
  let lanes := v 63 1
  let key := (d.drop 128).take 97
  let sends := (s.fld (Reg.HP_TRG h) F.HP_TRG_PIN_EN) + 2 * (s.fld (Reg.HP_TRG h) F.HP_TRG_PKT_EN)
  let want := (s.head h).settings
  if d.take 4 ≠ [0x50, 0x4C, 0x44, 0x31] ∨ v 4 2 ≠ 1 ∨ len < 324 ∨ 1024 < len ∨ v 60 2 = 0 ∨ 16384 < v 60 2 ∨
      !([8, 10, 12, 14, 16].contains (v 62 1)) ∨ !([1, 2, 4].contains lanes) ∨ (v 64 1) % 4 = 0 ∨ (v 65 1) % 4 = 0 then 3
  else if !Config.ecdsaVerify key (d.take (len - 96)) ((d.drop (len - 96)).take 96) then 4
  else if !s.trusted.contains (Config.sha384 key) then 5
  else if v 60 2 ≠ want.pixels.toNat ∨ v 62 1 ≠ want.bits.toNat ∨ lanes ≠ want.lanes.toNat ∨
      !(v 64 1).testBit (s.fld (Reg.HP_CTL h) F.HP_CTL_RATE) ∨ (v 65 1) &&& sends = 0 then 6
  else 0

/-- DESCRIPTOR_VERIFIED (R160, R161): the descriptor is accepted and training starts, or it is rejected. -/
def execDescriptorVerified (h : Fin 16) (s : State) : Host.Outcome State Fault Refusal :=
  if hpState s h ≠ 4 then .next s
  else
    let cause := descriptorCause s h
    if cause ≠ 0 then .next (hpFail s h 10 cause)
    else
      let v (i k : Nat) : Nat := leNat (s.readBytes (Win.desc h + i) k)
      let p := { s.head h with pixels := BitVec.ofNat 16 (v 60 2), bits := BitVec.ofNat 8 (v 62 1),
                               minPeriod := BitVec.ofNat 16 (v 66 2), fails := 0 }
      .next (hpTrain (s.setHead h p) h)

/-- A write of 1 to RETRAIN (R137, R166): from ACTIVE only; the link ends as at a loss of lock. -/
def hpRetrain (s : State) (h : Fin 16) : State :=
  if hpState s h = 7 then (hpTrain (stopLink s h 6) h).setFld (Reg.HP_CTL h) F.HP_CTL_RETRAIN 1 else s

/-- HP_RETRAIN (R137). -/
def execHpRetrain (h : Fin 16) (s : State) : Host.Outcome State Fault Refusal := .next (hpRetrain s h)

/-- HP_RELEASE (R162). -/
def execHpRelease (h : Fin 16) (s : State) : Host.Outcome State Fault Refusal := .next (hpRelease s h)

/-- RELEASE_TIMEOUT (R162): 1 ms after RELEASING began, unstarted lines are lost and a packet in progress is damaged. -/
def execReleaseTimeout (h : Fin 16) (s : State) : Host.Outcome State Fault Refusal :=
  if hpState s h ≠ 8 ∨ !hpWaited s h 1000000 then .next s
  else
    let s := loseTriggers s h ((s.head h).triggers.filter (fun t => !t.started))
    .next (checkRelease (damagePacket s h 2) h)

/-- HP_RELEASED (R161, R162): STREAM off has ended, answered or not; HPEN goes low. -/
def execHpReleased (h : Fin 16) (s : State) : Host.Outcome State Fault Refusal :=
  let p := s.head h
  if hpState s h = 8 ∧ p.streamOff = true ∧ p.cc = none then
    let s := hpEnter s h 9
    match relaying s h with
    | some u => .next (if u.phase = 2 then hpAttach (modifyUpdate s (fun u => { u with phase := 3 })) h else s)
    | none => .next s
  else .next s

/-- HP_ATTACH (R161). -/
def execHpAttach (h : Fin 16) (s : State) : Host.Outcome State Fault Refusal := .next (hpAttach s h)

/-- A write of 1 to ENABLE (R161): OFF to ABSENT, and on to POWERING where AUTO finds a head. -/
def hpEnable (s : State) (h : Fin 16) : State :=
  let s := s.setFld (Reg.HP_CTL h) F.HP_CTL_ENABLE 1
  if hpState s h ≠ 0 ∨ !padsReleased s h then s
  else
    let s := hpEnter s h 1
    if s.flag (Reg.HP_STAT h) F.HP_STAT_PRESENT ∧ s.flag (Reg.HP_CTL h) F.HP_CTL_AUTO then hpPower s h else s

/-- PORT_ENABLE (R161). -/
def execPortEnable (h : Fin 16) (s : State) : Host.Outcome State Fault Refusal := .next (hpEnable s h)

/-- A write of 0 to ENABLE (R166): as a removal, then OFF. -/
def hpDisable (s : State) (h : Fin 16) : State :=
  let s := s.setFld (Reg.HP_CTL h) F.HP_CTL_ENABLE 0
  if hpState s h = 0 then s else if hpState s h = 1 then hpEnter s h 0 else dropHead s h 0 12

/-- PORT_DISABLE (R161). -/
def execPortDisable (h : Fin 16) (s : State) : Host.Outcome State Fault Refusal := .next (hpDisable s h)

/-! ## Triggers (R145, R149–R151) -/

/-- The image assigns a head to port `h` (R149). -/
def headAssigned (s : State) (h : Fin 16) : Bool := (s.head h).settings.pixels != 0

/-- The pulse list of HTRG with one that rises at step `r` and lasts `w` steps (R151): the one before it ends early enough
for 50 ns (320 steps) low. Pulses that ended before `now` are forgotten. -/
def htrgPulse (old : List (Nat × Nat)) (now r w : Nat) : List (Nat × Nat) :=
  (old.filter (fun p => now ≤ p.2)).map (fun p => (p.1, min p.2 (r - 320))) ++ [(r, r + w)]

/-- The level of HTRG of port `h` at step `t` (R150, R151, R157). -/
def htrgLevel (s : State) (h : Fin 16) (t : Nat) : Bool :=
  hpState s h == 7 && (s.head h).htrg.any (fun p => p.1 ≤ t && t < p.2)

/-- The port is triggered for a line of its group (R150, R151), at device time `k.time`, its edge at interpolator step
`at'`; without a credit the line is lost (R10). OFFSET is a free value of at most 20 ns, in steps of 0.25 ns. -/
def triggerPort (s : State) (h : Fin 16) (k : StampIn) (at' : Nat) (expCode : BitVec 16) (strobe : Bool) : State :=
  if hpState s h ≠ 7 then (if headAssigned s h then declareLost s h k else s)
  else
    let p := s.head h
    let first := p.firstTrig.isNone
    let fast := p.trigTime.any (fun t => (k.time - t).toNat < 10 * p.minPeriod.toNat)
    let s := if fast then s.bump (Reg.HP_ERR h) F.HP_ERR_FAST else s
    let pkt := s.flag (Reg.HP_TRG h) F.HP_TRG_PKT_EN
    let pin := s.flag (Reg.HP_TRG h) F.HP_TRG_PIN_EN
    let (off, s) := if pkt then s.draw 8 else (0, s)
    let word : TrigWord := { line := k.index.setWidth 16, offset := BitVec.ofNat 8 (off.toNat % 81), expCode := expCode,
                             flags := BitVec.ofNat 8 (strobe.toNat + 2 * first.toNat) }
    let p := { s.head h with
      firstTrig := some (p.firstTrig.getD k.index), trigTime := some k.time,
      htrg := if pin then htrgPulse p.htrg (s.now.toNat * 32 / 5) at' (32 * s.fld (Reg.HP_TRG h) F.HP_TRG_WIDTH)
        else p.htrg,
      trigSent := if pkt then some word else p.trigSent }
    let s := s.setHead h p
    if 4 ≤ p.triggers.length + ingestEnds p then
      declareLost (s.bump (Reg.HP_OVERRUN h) F.HP_OVERRUN_COUNT) h k
    else s.setHead h { p with triggers := p.triggers ++ [⟨k.index, k.coord, k.time, false⟩] }

end Sys2Proof.Machine
end

