-- ==== Sys2Proof/Machine/Runs.lean ====
section
/-!
DEFINITION. Run extraction (07): meanings of EXTRACTOR_SCAN and MERGER_SEND, and band mode of a merger.
-/

namespace Sys2Proof.Machine

/-! ## The run extractors (R203–R205) -/

/-- Run mask, class and score of a column of a set (R203, R112); missing planes read 0. -/
def columnOf (e : ExtractSet) (c : Nat) : Bool × Nat × Nat :=
  let nc := e.fmt.toNat % 8
  let ns := (e.fmt.toNat >>> 4) % 32
  let bit (i : Nat) : Nat := ((e.planes.getD i 0).getLsbD c).toNat
  (bit 0 == 1, (List.range nc).foldl (fun v i => v + bit (1 + i) * 2 ^ i) 0,
   (List.range ns).foldl (fun v i => v + bit (1 + nc + i) * 2 ^ i) 0)

/-- The runs of a truss over its remaining columns, with the run that is open at the column before them (R203). -/
def runsFrom (e : ExtractSet) (t : Nat) : Option Run → List Nat → List Run
  | cur, [] => cur.toList
  | cur, c :: rest =>
    let (m, cls, score) := columnOf e (1024 * t + c)
    let new : Run := ⟨c, c, BitVec.ofNat 4 cls, BitVec.ofNat 16 score⟩
    if !m then cur.toList ++ runsFrom e t none rest
    else match cur with
      | none => runsFrom e t (some new) rest
      | some r =>
        if r.cls = new.cls then
          runsFrom e t (some { r with stop := c, peak := BitVec.ofNat 16 (max r.peak.toNat score) }) rest
        else r :: runsFrom e t (some new) rest

/-- The runs of a set in truss `t`, in columns of the truss. -/
def trussRuns (e : ExtractSet) (t : Nat) : List Run := runsFrom e t none (List.range 1024)

/-- Runs in a truss queue; `none` entries only end sets. -/
def queuedRuns (q : List (Option Run)) : Nat := (q.filterMap id).length

/-- EXTRACTOR_SCAN (R204): the extractor of truss `t` writes the runs of its oldest closed set, as far as its queue has
room; the buffer is free once they are all written. In band mode the queue folds runs and has no limit (R222). -/
def execExtractorScan (m : Fin 17) (t : Fin 16) (s : State) : Host.Outcome State Fault Refusal :=
  let x := s.ext m
  let mine (e : ExtractSet) : Bool := e.closed && !e.scanned.getLsbD t.val
  match x.sets.find? mine with
  | none => .next s
  | some e =>
    let runs := trussRuns e t
    let before := maskGet e.wrote t
    let room := if s.flag (Reg.RM_STAT m) F.RM_STAT_BAND then 1024 else 64 - queuedRuns x.queues[t]
    let now := (runs.drop before).take room
    let all := before + now.length = runs.length
    let q := x.queues[t] ++ now.map some ++ if all then [none] else []
    let e' := if all then
        { e with scanned := e.scanned ||| (1#16 <<< t.val), runs := e.runs + runs.length, wrote := maskSet e.wrote t 0 }
      else { e with wrote := maskSet e.wrote t (before + now.length) }
    .next (s.setExt m { x with queues := x.queues.set t q, sets := replaceFirst mine (fun _ => e') x.sets })

/-! ## The run merger (R206, R207, R222) -/

/-- A run of truss `t` of span `m`, numbered in the domain (R206, R32). -/
def numbered (pos t : Nat) (r : Run) : Run :=
  { r with start := 16384 * pos + 1024 * t + r.start, stop := 16384 * pos + 1024 * t + r.stop }

/-- The band of the runs of one truss (R222): the class and PEAK are those of the run of highest PEAK, the first of
equals. -/
def bandOf (truss : Nat) : List Run → Option Band
  | [] => none
  | r :: rs =>
    let top := rs.foldl (fun (b : Run) x => if b.peak.toNat < x.peak.toNat then x else b) r
    let area := (r :: rs).foldl (fun n x => n + (x.stop - x.start + 1)) 0
    some { truss := truss, start := r.start, stop := (rs.getLastD r).stop, area := area, cls := top.cls, peak := top.peak }

/-- The mark of a set (R207). -/
def markOf (e : ExtractSet) (band : Bool) : MergerWord :=
  let lag := e.fmt.extractLsb' 12 3
  .mark e.aborted e.redo band e.extra (BitVec.ofNat 16 (min e.runs 65535)) lag
    ((e.line - lag.setWidth 64).setWidth 32)

/-- One step of the merger of a span at group position `pos`: the next run of the oldest set, the next truss, or the
mark; `none` when nothing can be done yet. -/
def mergeStep (x : Extraction) (pos : Nat) (band : Bool) : Option Extraction :=
  match x.sets with
  | [] => none
  | e :: rest =>
    let put (x : Extraction) (ws : List MergerWord) : Extraction := { x with out := x.out ++ ws }
    if h : x.truss < 16 then
      let t : Fin 16 := ⟨x.truss, h⟩
      let q := x.queues[t]
      if band then
        if q.contains none then
          let runs := (q.takeWhile (·.isSome)).filterMap id
          let x := { x with queues := x.queues.set t ((q.dropWhile (·.isSome)).drop 1), truss := x.truss + 1 }
          some (put x ((bandOf (16 * pos + t.val) runs).toList.map .band))
        else none
      else match q with
        | [] => none
        | none :: q => some { x with queues := x.queues.set t q, truss := x.truss + 1 }
        | some r :: q =>
          let g := numbered pos t r
          let popped := { x with queues := x.queues.set t q }
          let keep (x : Extraction) (j : Run) : Extraction :=
            if r.stop = 1023 then { x with joined := some j } else put { x with joined := none } [.run j]
          match x.joined with
          | none => some (keep popped g)
          | some j =>
            if j.stop + 1 = g.start ∧ j.cls = g.cls then
              some (keep popped { j with stop := g.stop, peak := BitVec.ofNat 16 (max j.peak.toNat g.peak.toNat) })
            else some (put { x with joined := none } [.run j])
    else if e.closed && e.scanned == BitVec.allOnes 16 && e.ord.isNone then
      let last := x.joined.toList.map .run
      some (put { x with sets := rest, truss := 0, joined := none } (last ++ [markOf e band]))
    else none

/-- The merger goes on until it holds a flit of four words, meets a set that it discards or can do nothing more. -/
def mergeFlit (mute : BitVec 64 → Bool) : Nat → Extraction → Nat → Bool → Extraction
  | 0, x, _, _ => x
  | fuel + 1, x, pos, band =>
    if 4 ≤ x.out.length ∨ (x.truss = 0 ∧ x.sets.head?.any (fun e => mute e.line)) then x
    else match mergeStep x pos band with
      | none => x
      | some y => mergeFlit mute fuel y pos band

/-- Merger words that take a credit of R10. -/
def creditWords (ws : List MergerWord) : Nat :=
  (ws.filter (fun w => match w with
    | .filler => false
    | _ => true)).length

/-- Runs of a word list. -/
def runWords (ws : List MergerWord) : Nat :=
  (ws.filter (fun w => match w with
    | .run _ => true
    | _ => false)).length

/-- A merger that is to leave band mode does so at its next set (R224). -/
def leaveBand (s : State) (m : Fin 17) : State :=
  let x := s.ext m
  if x.bandNext = some false ∧ x.truss = 0 ∧ x.out.isEmpty then
    (s.setExt m { x with bandNext := none }).setFld (Reg.RM_STAT m) F.RM_STAT_BAND 0
  else s

/-- Whether the merger of span `m` discards the set of a line (R360). -/
def setMuted (s : State) (m : Fin 17) (line : BitVec 64) : Bool :=
  match s.muted.find? (fun p => p.1 == m) with
  | some (_, below, l) => if below then l.toNat ≤ line.toNat else line.toNat < l.toNat
  | none => epTag s m == 0x1010 || epTag s m == 0

/-- Muted sets at the front, scanned in full and not begun, are discarded with their runs and counted. -/
def discardMuted (m : Fin 17) : Nat → State → State
  | 0, s => s
  | fuel + 1, s =>
    let x := s.ext m
    match x.sets with
    | [] => s
    | e :: rest =>
      if x.truss = 0 ∧ x.joined.isNone ∧ e.closed ∧ e.scanned = BitVec.allOnes 16 ∧ e.ord.isNone ∧ setMuted s m e.line then
        let qs := x.queues.map (fun q => (q.dropWhile (·.isSome)).drop 1)
        discardMuted m fuel ((s.setExt m { x with sets := rest, queues := qs }).bump Reg.PL_MUTED F.PL_MUTED_COUNT)
      else s

/-- MERGER_SEND (R206): one FCLK cycle of the merger of span `m`. It sends up to four words, padded to a flit, while the
tracker has credits, which words on their way or not yet taken hold (R10), and its endpoint starts worms (R296); else it
holds. -/
def execMergerSend (m : Fin 17) (s : State) : Host.Outcome State Fault Refusal :=
  let s := discardMuted m 64 (leaveBand s m)
  let x := mergeFlit (setMuted s m) 4096 (s.ext m) (spanPos s m) (s.flag (Reg.RM_STAT m) F.RM_STAT_BAND)
  let n := min (min 4 x.out.length) (512 - creditWords (x.sent ++ wordsUnderWay s m))
  if x.out.isEmpty then .next (s.setExt m { x with hold := 0 })
  else if n = 0 ∨ epState s m ≠ 0 then
    .next ((s.setExt m { x with hold := x.hold + 1 }).bump (Reg.RM_HOLD m) F.RM_HOLD_COUNT)
  else
    let ws := x.out.take n
    let s := s.bump (Reg.RM_RUNS m) F.RM_RUNS_COUNT (runWords ws)
    let s := s.setExt m { x with out := x.out.drop n, hold := 0 }
    .next (sendPacket s (runsPacket s m (ws ++ List.replicate (4 - n) .filler)))

/-- The part of a run that lies in truss `t` of the span, in columns of the truss. -/
def clipRun (pos t : Nat) (r : Run) : Option Run :=
  let lo := 16384 * pos + 1024 * t
  if r.stop < lo ∨ lo + 1023 < r.start then none
  else some { r with start := r.start - lo, stop := min r.stop (lo + 1023) - lo }

/-- The merger of span `m` enters band mode (R222): the runs of the set in progress that it holds go back to their
trusses, to be folded into their bands. -/
def enterBand (s : State) (m : Fin 17) : State :=
  let x := s.ext m
  let pos := spanPos s m
  let isMark (w : MergerWord) : Bool := match w with
    | .mark .. => true
    | _ => false
  let held := (x.out.reverse.takeWhile (fun w => !isMark w)).reverse
  let runs := (held.filterMap (fun w => match w with
    | .run r => some r
    | _ => none)) ++ x.joined.toList
  let back (t : Fin 16) (q : List (Option Run)) : List (Option Run) :=
    if t.val < x.truss then (runs.filterMap (clipRun pos t)).map some ++ [none] ++ q
    else if t.val = x.truss then (runs.filterMap (clipRun pos t)).map some ++ q else q
  let queues := (List.finRange 16).foldl (fun (v : Vector (List (Option Run)) 16) (t : Fin 16) =>
    v.set t (back t v[t])) x.queues
  (s.setExt m { x with queues := queues, truss := 0, joined := none, out := x.out.take (x.out.length - held.length),
                       bandNext := none, hold := 0 }).setFld (Reg.RM_STAT m) F.RM_STAT_BAND 1

/-- The merger leaves band mode at its next set (R224). -/
def exitBand (s : State) (m : Fin 17) : State := s.setExt m { s.ext m with bandNext := some false }

end Sys2Proof.Machine
end

