-- ==== Sys2Proof/Machine/TrackOps.lean ====
section
/-!
DEFINITION. Shared operations of the blob tracker (07): domains and their spans, stamps, contexts, blobs and their
merging (R212–R216), records (R225–R227), floods (R221–R224).
-/

namespace Sys2Proof.Machine

/-! ## Domains, roles, spans and heads (R208, R367) -/

/-- Spans of domain `d`. -/
def domSize (s : State) (d : Nat) : Nat := 2 ^ s.fld (Reg.PL_ROLE d) F.PL_ROLE_GSIZE_LOG

/-- The physical pair that holds role `r`. -/
def pairOf (s : State) (r : Nat) : Option (Fin 17) :=
  let n := s.fld (Reg.PL_ROLE r) F.PL_ROLE_PHYS
  if h : n < 17 then some ⟨n, h⟩ else none

/-- The physical spans of domain `d` that are placed. -/
def domSpans (s : State) (d : Nat) : List (Fin 17) := (List.range (domSize s d)).filterMap (fun p => pairOf s (d + p))

/-- The head that the image assigns to role `r`. -/
def headOfRole (s : State) (r : Nat) : Option (Fin 16) :=
  if s.flag (Reg.PL_ROLE r) F.PL_ROLE_HEAD_EN then some (Fin.ofNat 16 (s.fld (Reg.PL_ROLE r) F.PL_ROLE_HEAD)) else none

/-- The domain of physical span `m` and its position there. -/
def spanDomain (s : State) (m : Nat) : Option (Fin 16 × Nat) :=
  let r := s.roleOf m
  let p := s.fld (Reg.PL_ROLE r) F.PL_ROLE_POS
  if h : 17 ≤ r ∨ r < p ∨ 16 ≤ r - p then none
  else some (⟨r - p, by omega⟩, p)

/-- `TRK_DOM_STAT.STATE`: 0 IDLE, 1 TRACKING, 2 FLOOD, 3 HELD. -/
def trkState (s : State) (d : Nat) : Nat := s.fld (Reg.TRK_DOM_STAT d) F.TRK_DOM_STAT_STATE
def setTrkState (s : State) (d st : Nat) : State := s.setFld (Reg.TRK_DOM_STAT d) F.TRK_DOM_STAT_STATE st

/-- A, the last applied line of the domain. -/
def lastLine (s : State) (d : Nat) : BitVec 64 := s.reg64 (Reg.TRK_DOM_LINE_LO d) (Reg.TRK_DOM_LINE_HI d)
def setLastLine (s : State) (d : Nat) (i : BitVec 64) : State :=
  s.setReg64 (Reg.TRK_DOM_LINE_LO d) (Reg.TRK_DOM_LINE_HI d) i

def modifyDomain (s : State) (d : Fin 16) (f : Domain → Domain) : State := s.setDomain d (f (s.domain d))

/-! ## Stamps (R210) -/

/-- The lockstep group whose lines the domain tracks. -/
def domGroup (s : State) (d : Nat) : Option (Fin 8) :=
  ((List.range (domSize s d)).findSome? (fun p => headOfRole s (d + p))).bind (groupOfPort s)

/-- The stamp of a line of the domain's group, among those kept. -/
def lineStamp (s : State) (d : Nat) (i : BitVec 64) : Option GroupStamp :=
  match domGroup s d with
  | none => none
  | some g => s.trk.stamps.find? (fun k => k.group == g && k.index == i)

/-- A 32-bit line index extended from the stamps kept (R210): the nearest index to the newest stamp. -/
def extendLine (s : State) (d : Nat) (l : BitVec 32) : BitVec 64 :=
  match domGroup s d with
  | none => l.setWidth 64
  | some g =>
    match (s.trk.stamps.filter (fun k => k.group == g)).getLast? with
    | none => l.setWidth 64
    | some k => k.index + (l - k.index.setWidth 32).signExtend 64

/-- Coordinate and time of a line; a line without a stamp has free ones. -/
def stampOr (s : State) (d : Nat) (i : BitVec 64) : (BitVec 64 × BitVec 64) × State :=
  match lineStamp s d i with
  | some k => ((k.coord, k.time), s)
  | none =>
    let (c, s) := s.draw 64
    let (t, s) := s.draw 64
    ((c, t), s)

/-- The stamp of a blob's FIRST_LINE. A segment that has ended before its first line was stamped has free values: the spec gives
none (assumption log, entry 40). -/
def blobStamp (s : State) (d : Nat) (b : Blob) : (BitVec 64 × BitVec 64) × State :=
  if b.stamped then ((b.coord, b.time), s) else stampOr s d b.first

/-- The columns of a blob: its column extent, of a segment without a run the kept last-line extent (R211, R216, R218). -/
def blobColumns (b : Blob) : Nat × Nat := if b.runs = 0 then b.extent else (b.minCol, b.maxCol)

/-- The blob's columns meet those of the head at position `p` of the domain (R208). -/
def meetsHead (p : Nat) (b : Blob) : Bool :=
  (blobColumns b).1 ≤ 16384 * p + 16383 && 16384 * p ≤ (blobColumns b).2

/-! ## Contexts (R213, R228) -/

/-- Contexts that wait with a record for the ledger or the repeat finder. -/
def busyContexts (s : State) : Nat := (s.trk.built.filter (·.context)).length

/-- Contexts that a domain holds. -/
def heldContexts (s : State) (d : Fin 16) : Nat :=
  (s.domain d).blobs.length + (s.trk.built.filter (fun b => b.context && b.domain == d)).length

def freeContexts (s : State) : Nat :=
  16384 - (List.finRange 16).foldl (fun n d => n + (s.domain d).blobs.length) (busyContexts s)

/-- `TRK_STAT` and `TRK_DOM_STAT.OPEN` follow the contexts; TRK_CTX_LOW is raised when FREE falls to LOW_MARK (R230). -/
def showContexts (s : State) : State :=
  let before := s.fld Reg.TRK_STAT F.TRK_STAT_FREE
  let now := freeContexts s
  let low := s.fld Reg.TRK_CTL F.TRK_CTL_LOW_MARK
  let s := (s.setFld Reg.TRK_STAT F.TRK_STAT_FREE now).setFld Reg.TRK_STAT F.TRK_STAT_BUSY (busyContexts s)
  let s := (List.finRange 16).foldl (fun s d =>
    s.setFld (Reg.TRK_DOM_STAT d) F.TRK_DOM_STAT_OPEN (heldContexts s d)) s
  if low < before ∧ now ≤ low then s.raise 770 0 else s

/-- The next BLOB_ID (R213): it skips 0xFFFF_FFFF. -/
def takeId (s : State) : BitVec 32 × State :=
  let id := s.reg Reg.TRK_NEXT_ID
  (id, s.setReg Reg.TRK_NEXT_ID (if id = 0xFFFFFFFE then 0 else id + 1))

/-! ## Records (R225–R227) -/

/-- A value that saturates at `n` bytes. -/
def satBytes (n v : Nat) : List Byte := leBytes n (min v (2 ^ (8 * n) - 1))

/-- Byte 1 of a record: head port and strand position. -/
def headByte (s : State) (h : BitVec 8) : BitVec 8 :=
  BitVec.ofNat 8 (h.toNat % 16 + 16 * (if s.flag Reg.SL_CTL F.SL_CTL_EN then s.fld Reg.SL_CTL F.SL_CTL_POS else 0))

/-- The fields of a record of TYPE 1 or 2. -/
structure RecordFields where
  type : Nat
  head : BitVec 8
  flags : Nat
  id : BitVec 32
  first : BitVec 64
  coord : BitVec 64
  time : BitVec 64
  minCol : Nat
  maxCol : Nat
  age : Nat
  lines : Nat
  classMask : BitVec 16
  area : Nat
  runs : Nat
  peak : BitVec 16
  merges : Nat
  centCol : Nat
  centLine : Nat

/-- The 64 bytes of a record (R225). -/
def RecordFields.bytes (s : State) (d : Nat) (r : RecordFields) : List Byte :=
  leBytes 1 r.type ++ [headByte s r.head] ++ leBytes 2 r.flags ++ leBytes 4 r.id.toNat ++ leBytes 8 r.first.toNat ++
    leBytes 8 r.coord.toNat ++ leBytes 8 r.time.toNat ++ leBytes 4 (r.minCol + d * 2 ^ 19) ++
    leBytes 4 (r.maxCol + r.age * 2 ^ 24) ++ leBytes 2 r.lines ++ leBytes 2 r.classMask.toNat ++ satBytes 4 r.area ++
    satBytes 4 r.runs ++ leBytes 2 r.peak.toNat ++ satBytes 2 r.merges ++ leBytes 4 r.centCol ++ leBytes 4 r.centLine

/-- EDGE_W and EDGE_E of a column extent (R226). -/
def edgeFlags (s : State) (d minCol maxCol : Nat) : Nat :=
  let outer (r : Nat) (f : Fld) : Bool := (pairOf s r).any (fun n => s.fld (Reg.ARR_COUPLE n) f == 2)
  let k := domSize s d
  (if minCol = 0 ∧ outer d F.ARR_COUPLE_OUTER_W then 256 else 0) +
    (if maxCol + 1 = 16384 * k ∧ outer (d + k - 1) F.ARR_COUPLE_OUTER_E then 512 else 0)

/-- Flags that a blob's records carry: CONTD, GAP, TAKEN_OVER, AREA_SAT, ABORTED, POST_FLOOD (R226). -/
def blobFlags (b : Blob) : Nat :=
  2 * b.contd.toNat + 4 * b.gap.toNat + 32 * b.takenOver.toNat + (if 2 ^ 32 ≤ b.area then 1024 else 0) +
    2048 * b.aborted.toNat + 32768 * b.postFlood.toNat

def pushRecord (s : State) (r : BuiltRecord) : State := { s with trk := { s.trk with built := s.trk.built ++ [r] } }

/-- The record of a blob's segment with at least one run. -/
def blobRecord (s : State) (d : Fin 16) (b : Blob) (flags : Nat) (context : Bool) : State :=
  let r : RecordFields :=
    { type := 1, head := b.head, flags := flags + blobFlags b + edgeFlags s d b.minCol b.maxCol, id := b.id,
      first := b.first, coord := b.coord, time := b.time, minCol := b.minCol, maxCol := b.maxCol,
      age := if b.takenOver then (s.domain d).age.toNat else 0, lines := (b.last - b.first).toNat + 1,
      classMask := b.classMask, area := b.area, runs := b.runs, peak := b.peak, merges := b.merges,
      centCol := b.sumCol * 8192 / max 1 b.area, centLine := b.sumLine * 65536 / max 1 b.area }
  let (c, s) := stampOr s d b.last
  pushRecord s ⟨r.bytes s d, b.area, b.classMask, c.1, context, d, false⟩

/-- The chain-end record of a CONTD segment without a run (R227); `into` is the survivor of a merge. -/
def chainEnd (s : State) (d : Fin 16) (b : Blob) (flags : Nat) (into : Option (BitVec 32)) (context : Bool) : State :=
  let (c, s) := blobStamp s d b
  let r : RecordFields :=
    { type := 1, head := b.head, flags := flags + blobFlags b + (if into.isSome then 16384 else 0), id := b.id,
      first := b.first, coord := c.1, time := c.2, minCol := 0, maxCol := 0,
      age := if b.takenOver then (s.domain d).age.toNat else 0, lines := 0, classMask := 0, area := 0, runs := 0,
      peak := 0, merges := b.merges, centCol := (into.getD 0xFFFFFFFF).toNat, centLine := 0 }
  pushRecord s ⟨r.bytes s d, 0, 0, c.1, context, d, false⟩

/-- A blob closes with flags (R215, R216, R218, R222). -/
def closeBlob (s : State) (d : Fin 16) (flags : Nat) (b : Blob) : State :=
  let s := modifyDomain s d (fun x => { x with blobs := x.blobs.filter (fun y => y.seq != b.seq) })
  if b.runs = 0 then (if b.contd then chainEnd s d b flags none true else s) else blobRecord s d b flags true

/-- Every open blob of the domain closes with flags. -/
def closeAll (s : State) (d : Fin 16) (flags : Nat) : State := ((s.domain d).blobs).foldl (fun s b => closeBlob s d flags b) s

/-- A service record (R227) of one head: cause 1 STOPPED or 2 RESUMED. -/
def serviceRecord (s : State) (d : Fin 16) (h : Fin 16) (cause : Nat) (line : BitVec 64) : State :=
  let (c, s) := stampOr s d line
  let bytes := [3, headByte s (BitVec.ofNat 8 h.val)] ++ leBytes 2 0 ++ leBytes 4 0 ++ leBytes 8 line.toNat ++
    leBytes 8 c.1.toNat ++ leBytes 8 c.2.toNat ++ leBytes 4 (d.val * 2 ^ 19 + cause * 2 ^ 24) ++ List.replicate 28 0
  pushRecord s ⟨bytes, 0, 0, c.1, false, d, false⟩

/-- Heads of the domain, with their positions. -/
def domHeads (s : State) (d : Nat) : List (Nat × Fin 16) :=
  (List.range (domSize s d)).filterMap (fun p => (headOfRole s (d + p)).map (fun h => (p, h)))

def serviceRecords (s : State) (d : Fin 16) (cause : Nat) (line : BitVec 64) : State :=
  (domHeads s d).foldl (fun s p => serviceRecord s d p.2 cause line) s

/-! ## Attachment, opening, extending, merging (R212–R214) -/

/-- A run of a domain line with the position of its span and what its mark says. -/
structure LineRun where
  run : Run
  pos : Nat
  aborted : Bool
  redo : Bool

/-- Run `r` attaches to blob `b` (R212); without SEAM_JOIN nothing attaches across a seam. -/
def attaches (s : State) (d : Nat) (r : Run) (b : Blob) : Bool :=
  let w := s.fld (Reg.TRK_DOM_CTL d) F.TRK_DOM_CTL_CONN8
  let seam := s.flag (Reg.TRK_DOM_CTL d) F.TRK_DOM_CTL_SEAM_JOIN
  let near (q : Nat × Nat) : Bool :=
    q.1 ≤ r.stop + w && r.start ≤ q.2 + w && (seam || q.1 / 16384 == r.start / 16384)
  b.prev.any near || (1 ≤ b.empty && near b.extent)

/-- The area of a run and its sum of columns. -/
def runArea (r : Run) : Nat := r.stop - r.start + 1
def runColumns (r : Run) : Nat := (r.start + r.stop) * runArea r / 2

def classBit (c : BitVec 4) : BitVec 16 := 1#16 <<< c.toNat

/-- A blob extended by a run of line `m` (R213). -/
def extendBlob (m : BitVec 64) (r : LineRun) (b : Blob) : Blob :=
  let none' := b.runs = 0
  { b with
    last := m, minCol := if none' then r.run.start else min b.minCol r.run.start,
    maxCol := if none' then r.run.stop else max b.maxCol r.run.stop, area := b.area + runArea r.run,
    runs := b.runs + 1, classMask := b.classMask ||| classBit r.run.cls,
    peak := BitVec.ofNat 16 (max b.peak.toNat r.run.peak.toNat), sumCol := b.sumCol + runColumns r.run,
    sumLine := b.sumLine + runArea r.run * (m - b.first).toNat, aborted := b.aborted || r.aborted,
    now := b.now ++ [(r.run.start, r.run.stop)] }

/-- A blob opens with a run (R213). -/
def openBlob (s : State) (d : Fin 16) (m : BitVec 64) (r : LineRun) : State :=
  let (id, s) := takeId s
  let (c, s) := stampOr s d m
  let h := (headOfRole s (d.val + r.pos)).getD 0
  let b : Blob :=
    { id := id, seq := s.trk.nextSeq, head := BitVec.ofNat 8 h.val, first := m, last := m, coord := c.1, time := c.2,
      minCol := 0, maxCol := 0, area := 0, runs := 0, classMask := 0, peak := 0, sumCol := 0, sumLine := 0, merges := 0,
      contd := false, gap := false, takenOver := r.redo, aborted := false, postFlood := (s.domain d).afterFlood,
      stamped := true, empty := 0, extent := (0, 0), prev := [], now := [] }
  let s := { s with trk := { s.trk with nextSeq := s.trk.nextSeq + 1 } }
  modifyDomain s d (fun x => { x with blobs := x.blobs ++ [extendBlob m r b] })

/-- Blob `b` absorbed into survivor `a` (R214); the sum of lines is taken from the lower FIRST_LINE. -/
def mergeInto (a b : Blob) : Blob :=
  let lower := b.first.toNat < a.first.toNat
  let first := if lower then b.first else a.first
  let none' (x : Blob) : Bool := x.runs == 0
  { a with
    first := first, head := if lower then b.head else a.head, coord := if lower then b.coord else a.coord,
    time := if lower then b.time else a.time, stamped := if lower then b.stamped else a.stamped,
    last := if none' a then b.last else if none' b then a.last else if a.last.toNat < b.last.toNat then b.last else a.last,
    minCol := if none' a then b.minCol else if none' b then a.minCol else min a.minCol b.minCol,
    maxCol := if none' a then b.maxCol else if none' b then a.maxCol else max a.maxCol b.maxCol,
    area := a.area + b.area, runs := a.runs + b.runs, classMask := a.classMask ||| b.classMask,
    peak := BitVec.ofNat 16 (max a.peak.toNat b.peak.toNat), sumCol := a.sumCol + b.sumCol,
    sumLine := a.sumLine + a.area * (a.first - first).toNat + b.sumLine + b.area * (b.first - first).toNat,
    merges := a.merges + b.merges + 1, gap := a.gap || b.gap, takenOver := a.takenOver || b.takenOver,
    aborted := a.aborted || b.aborted, postFlood := a.postFlood || b.postFlood,
    prev := a.prev ++ b.prev, now := a.now ++ b.now }

/-- Merge the blobs `bs` into the one that opened first (R214). -/
def mergeBlobs (s : State) (d : Fin 16) : Blob → List Blob → State
  | _, [] => s
  | a, b :: rest =>
    let m := mergeInto a b
    let s := modifyDomain s d (fun x => { x with
      blobs := (x.blobs.filter (fun y => y.seq != b.seq)).map (fun y => if y.seq = a.seq then m else y) })
    let s := if b.contd then chainEnd s d b 0 (some a.id) true else s
    mergeBlobs s d m rest

/-! ## Flood (R221–R224) -/

def Alarm.empty : Alarm := ⟨false, 0, 0, 0, 0, 0, 0, 0, 0⟩

/-- An accumulator collects an interval of one class and PEAK with its area (R223). -/
def Alarm.collect (a : Alarm) (lo hi area : Nat) (cls : BitVec 4) (peak : BitVec 16) (line : Nat) : Alarm :=
  { a with
    any := true, minCol := if a.any then min a.minCol lo else lo, maxCol := if a.any then max a.maxCol hi else hi,
    area := a.area + area, classMask := a.classMask ||| classBit cls,
    peak := BitVec.ofNat 16 (max a.peak.toNat peak.toNat), weighted := a.weighted + area * (lo + hi),
    lineSum := a.lineSum + area * line }

/-- What a run or a band of span position `p` brings to a line's fold, columns in the domain (R222). -/
def Alarm.takeRun (a : Alarm) (r : Run) : Alarm :=
  { a.collect r.start r.stop (runArea r) r.cls r.peak 0 with runs := a.runs + 1 }
def Alarm.takeBand (a : Alarm) (b : Band) : Alarm :=
  { a.collect (1024 * b.truss + b.start) (1024 * b.truss + b.stop) b.area b.cls b.peak 0 with runs := a.runs + 1 }

/-- An accumulator takes the fold of a line (R223); RUNS comes from the marks. -/
def Alarm.join (a f : Alarm) (line : Nat) : Alarm :=
  if !f.any then a
  else
    { a with
      any := true, minCol := if a.any then min a.minCol f.minCol else f.minCol,
      maxCol := if a.any then max a.maxCol f.maxCol else f.maxCol, area := a.area + f.area,
      classMask := a.classMask ||| f.classMask, peak := BitVec.ofNat 16 (max a.peak.toNat f.peak.toNat),
      weighted := a.weighted + f.weighted, lineSum := a.lineSum + f.area * line }

/-- A staged set gives its words to its fold: the run store holds none of it any more (R222 step 3). -/
def foldSet (t : SpanSet) : SpanSet :=
  { t with fold := t.bands.foldl Alarm.takeBand (t.runs.foldl Alarm.takeRun t.fold), runs := [], bands := [] }

/-- Runs and bands that a set holds or has folded. -/
def setRuns (t : SpanSet) : Nat := t.runs.length + t.fold.runs

/-- Accumulator `p` of the domain changes. -/
def onAlarm (s : State) (d : Fin 16) (p : Nat) (f : Alarm → Alarm) : State :=
  modifyDomain s d (fun x => { x with alarms := x.alarms.modify p f })

/-- The alarm record of accumulator `p` (R227); an accumulator that collected nothing emits none. -/
def alarmRecord (s : State) (d : Fin 16) (cont : Bool) (p : Nat) (a : Alarm) : State :=
  if !a.any ∧ a.runs = 0 then s
  else
    let (id, s) := takeId s
    let x := s.domain d
    let (c, s) := stampOr s d x.winFirst
    let r : RecordFields :=
      { type := 2, head := BitVec.ofNat 8 ((headOfRole s (d.val + p)).getD 0).val,
        flags := cont.toNat + 4 * x.winGap.toNat + 128 + (if 2 ^ 32 ≤ a.area then 1024 else 0) +
          edgeFlags s d a.minCol a.maxCol,
        id := id, first := x.winFirst, coord := c.1, time := c.2, minCol := a.minCol, maxCol := a.maxCol, age := 0,
        lines := x.winLines, classMask := a.classMask, area := a.area, runs := a.runs, peak := a.peak,
        merges := s.fld (Reg.TRK_DOM_STAT d) F.TRK_DOM_STAT_CAUSE, centCol := a.weighted * 8192 / (2 * max 1 a.area),
        centLine := a.lineSum * 65536 / max 1 a.area }
    let (l, s) := stampOr s d (x.winFirst + BitVec.ofNat 64 (x.winLines - 1))
    pushRecord s ⟨r.bytes s d, a.area, a.classMask, l.1, false, d, false⟩

/-- The accumulators emit their records, and a new window begins at the next line. -/
def emitAlarms (s : State) (d : Fin 16) (cont : Bool) : State :=
  let s := ((s.domain d).alarms.zipIdx).foldl (fun s q => alarmRecord s d cont q.2 q.1) s
  modifyDomain s d (fun x => { x with
    alarms := x.alarms.map (fun _ => Alarm.empty), winLines := 0, winGap := false })

/-- The domain enters flood with cause 1 RUNS, 2 HOLD, 3 STORE or 4 CONTEXTS (R222): its staged runs leave the run store at
once, folded line by line; the accumulators take each line's fold with its domain line, which tells whether the line is impaired
and where it lies in the window. -/
def enterFlood (s : State) (d : Fin 16) (cause : Nat) : State :=
  let s := setTrkState s d 2
  let s := s.setFld (Reg.TRK_DOM_STAT d) F.TRK_DOM_STAT_CAUSE cause
  let s := (s.bump (Reg.TRK_DOM_FLOODS d) F.TRK_DOM_FLOODS_COUNT).raise 768 (payCause cause d.val)
  let s := closeAll s d 128
  let s := modifyDomain s d (fun x => { x with
    alarms := List.replicate (domSize s d) Alarm.empty, winLines := 0, winGap := false, quiet := 0, afterFlood := false,
    staged := x.staged.map (·.map foldSet) })
  showContexts ((domSpans s d).foldl (fun s m => enterBand s m) s)

/-- A run of a flooded domain is folded into its span's accumulator. -/
def foldRun (s : State) (d : Fin 16) (m : BitVec 64) (r : LineRun) : State :=
  onAlarm s d r.pos (fun a => a.collect r.run.start r.run.stop (runArea r.run) r.run.cls r.run.peak
    (m - (s.domain d).winFirst).toNat)

/-- The window of a flood counts a line (R223). -/
def countWindow (s : State) (d : Fin 16) (m : BitVec 64) (gap : Bool) : State :=
  modifyDomain s d (fun x => { x with
    winFirst := if x.winLines = 0 then m else x.winFirst, winLines := x.winLines + 1, winGap := x.winGap || gap })

/-- The end of a line in flood: the flood ends, or a window does (R223, R224). -/
def floodLineEnd (s : State) (d : Fin 16) (total : Nat) : State :=
  let e := Reg.TRK_DOM_EXIT d
  let quiet := if total ≤ s.fld e F.TRK_DOM_EXIT_EXIT_RUNS then (s.domain d).quiet + 1 else 0
  let s := modifyDomain s d (fun x => { x with quiet := quiet })
  let empty := (s.domain d).staged.all (fun q => q.all (fun t => t.mark.isNone))
  if max 1 (s.fld e F.TRK_DOM_EXIT_EXIT_LINES) ≤ quiet ∧ s.fld Reg.TRK_CTL F.TRK_CTL_LOW_MARK < freeContexts s ∧ empty then
    let s := emitAlarms s d false
    let s := (setTrkState s d 1).raise 769 (payCause 0 d.val)
    let s := (domSpans s d).foldl (fun s m => exitBand s m) s
    modifyDomain s d (fun x => { x with alarms := [], afterFlood := true })
  else if max 1 (s.fld e F.TRK_DOM_EXIT_ALARM_LINES) ≤ (s.domain d).winLines then emitAlarms s d true
  else s

/-! ## The run store (R217) -/

/-- Words of the run store in use: staged runs and bands, and the runs of the previous lines. -/
def storeUsed (s : State) : Nat :=
  (List.finRange 16).foldl (fun n d =>
    let x := s.domain d
    n + (x.staged.map (fun q => (q.map (fun t => t.runs.length + t.bands.length)).sum)).sum +
      (x.blobs.map (fun b => b.prev.length)).sum) 0

def storeFull (s : State) : Bool := 32768 ≤ storeUsed s

end Sys2Proof.Machine
end

