-- ==== Sys2Proof/Machine/Tracker.lean ====
section
/-!
DEFINITION. The blob tracker (07): meanings of RUN_INTAKE to RECORD_EMIT.
-/

namespace Sys2Proof.Machine

/-! ## Intake (R209, R217–R219, R221) -/

/-- The set that span position `p` is delivering, changed; a new one begins where the last has its mark. -/
def onOpenSet (s : State) (d : Fin 16) (p : Nat) (f : SpanSet → SpanSet) : State :=
  let fresh : SpanSet := ⟨[], [], .empty, none⟩
  let step (q : List SpanSet) : List SpanSet :=
    match q.getLast? with
    | some t => if t.mark.isNone then q.dropLast ++ [f t] else q ++ [f fresh]
    | none => [f fresh]
  modifyDomain s d (fun x =>
    let staged := x.staged ++ List.replicate (p + 1 - x.staged.length) []
    { x with staged := staged.modify p step })

/-- The set that span position `p` is delivering. -/
def openSet (s : State) (d : Fin 16) (p : Nat) : Option SpanSet :=
  match ((s.domain d).staged.getD p []).getLast? with
  | some t => if t.mark.isNone then some t else none
  | none => none

/-- Runs of the line in delivery that the domain has taken (R221): those of the sets of every span at the same place of
their deliveries. -/
def lineRunsTaken (s : State) (d : Fin 16) (p : Nat) : Nat :=
  let q := (s.domain d).staged
  let k := (q.getD p []).length - 1
  (q.map (fun l => match l[k]? with
    | some t => t.runs.length
    | none => 0)).sum

/-- A run that the store cannot take in HELD impairs its line for its head (R219); the line is known at the mark. -/
def dropHeld (s : State) (d : Fin 16) (p : Nat) : State :=
  let s := s.bump Reg.TRK_RUNS_DROP F.TRK_RUNS_DROP_COUNT
  modifyDomain s d (fun x => { x with hurt := x.hurt ++ [(BitVec.allOnes 64, p)] })

/-- A run word of position `p` of domain `d`. -/
def intakeRun (s : State) (d : Fin 16) (p : Nat) (r : Run) : State :=
  let s := s.bump Reg.TRK_RUNS_IN F.TRK_RUNS_IN_COUNT
  let st := trkState s d
  let add (s : State) : State := onOpenSet s d p (fun t => { t with runs := t.runs ++ [r] })
  if st = 0 then s.bump Reg.TRK_RUNS_DROP F.TRK_RUNS_DROP_COUNT
  else if st = 2 then onOpenSet s d p (fun t => { t with fold := t.fold.takeRun r })
  else if st = 3 then (if storeFull s then dropHeld s d p else add s)
  else if storeFull s then onOpenSet (enterFlood s d 3) d p (fun t => { t with fold := t.fold.takeRun r })
  else
    let s := add s
    let most := s.fld (Reg.TRK_DOM_FLOOD d) F.TRK_DOM_FLOOD_RUNS_MAX
    if most ≠ 0 ∧ most < lineRunsTaken s d p then enterFlood s d 1 else s

/-- A band word: in flood it is folded; in another state it waits with its line, which will not be tracked (R224), as far as the
store has room. -/
def intakeBand (s : State) (d : Fin 16) (p : Nat) (b : Band) : State :=
  let s := s.bump Reg.TRK_RUNS_IN F.TRK_RUNS_IN_COUNT
  if trkState s d = 0 then s.bump Reg.TRK_RUNS_DROP F.TRK_RUNS_DROP_COUNT
  else if trkState s d = 2 then onOpenSet s d p (fun t => { t with fold := t.fold.takeBand b })
  else if storeFull s then s
  else onOpenSet s d p (fun t => { t with bands := t.bands ++ [b] })

/-- Every span of the domain has delivered its mark for tagged line `l` (R209). -/
def lineComplete (s : State) (d : Fin 16) (l : BitVec 64) : Bool :=
  (List.range (domSize s d)).all (fun p => ((s.domain d).staged.getD p []).any (fun t => t.mark.any (fun k => k.line == l)))

/-- Only lines that are still staged wait for the tracker (R217). -/
def keepReady (s : State) : State :=
  { s with trk := { s.trk with ready := s.trk.ready.filter (fun r => lineComplete s r.1 r.2) } }

/-- A mark word: it ends a set. A set of a line at or below A is discarded (R209); the first mark after a service stop
brings the RESUMED records (R218). -/
def intakeMark (s : State) (d : Fin 16) (p : Nat) (k : SetMark) : State :=
  let s := if k.aborted then s.raise 773 (payCause 0 d.val) else s
  let st := trkState s d
  if st = 0 then s
  else
    let s := if (s.domain d).resumeDue then
        modifyDomain (serviceRecords s d 2 k.line) d (fun x => { x with resumeDue := false })
      else s
    let x := s.domain d
    if x.applied && k.line.toNat ≤ (lastLine s d).toNat then
      let n := match openSet s d p with
        | some t => setRuns t
        | none => 0
      let s := s.bump Reg.TRK_DUP F.TRK_DUP_COUNT n
      let cut (q : List SpanSet) : List SpanSet := q.filter (fun t => t.mark.isSome)
      modifyDomain s d (fun x => { x with
        staged := x.staged.modify p cut, hurt := x.hurt.filter (fun h => h != (BitVec.allOnes 64, p)) })
    else
      let named (h : BitVec 64 × Nat) : BitVec 64 × Nat := if h = (BitVec.allOnes 64, p) then (k.line, p) else h
      let s := modifyDomain s d (fun x => { x with hurt := x.hurt.map named })
      let s := onOpenSet s d p (fun t => { t with mark := some k })
      if lineComplete s d k.line then { s with trk := { s.trk with ready := s.trk.ready ++ [(d, k.line)] } } else s

/-- One word from the merger of span `m`; the words of a span that no domain tracks are discarded. -/
def intakeWord (m : Fin 17) (s : State) (w : MergerWord) : State :=
  match spanDomain s m, w with
  | _, .filler => s
  | none, .mark .. => s
  | none, _ => (s.bump Reg.TRK_RUNS_IN F.TRK_RUNS_IN_COUNT).bump Reg.TRK_RUNS_DROP F.TRK_RUNS_DROP_COUNT
  | some (d, p), .run r => intakeRun s d p r
  | some (d, p), .band b => intakeBand s d p b
  | some (d, p), .mark ab redo band _ runs lag line =>
    intakeMark s d p ⟨ab, redo, band, runs.toNat, lag.toNat, extendLine s d line⟩

/-- RUN_INTAKE (R217): the tracker takes up to two words that span `m` has sent. -/
def execRunIntake (m : Fin 17) (s : State) : Host.Outcome State Fault Refusal :=
  let x := s.ext m
  .next ((x.sent.take 2).foldl (intakeWord m) (s.setExt m { x with sent := x.sent.drop 2 }))

/-! ## Domain lines (R209–R217) -/

/-- The oldest set of every span, each with its mark, or `none` while some span has none. -/
def frontSets (s : State) (d : Fin 16) : Option (List (SpanSet × SetMark)) :=
  let q := (s.domain d).staged
  let fs := (List.range (domSize s d)).map (fun p => match (q.getD p []).head? with
    | some t => t.mark.map (fun k => (t, k))
    | none => none)
  if fs.all (·.isSome) then some (fs.filterMap id) else none

/-- The oldest sets whose marks name a line below `i` leave, with their runs. -/
def dropBelow (s : State) (d : Fin 16) (i : BitVec 64) : State :=
  let low (q : List SpanSet) : Bool := match q with
    | t :: _ => t.mark.any (fun k => k.line.toNat < i.toNat)
    | [] => false
  let q := (s.domain d).staged
  let n := (q.map (fun l => if low l then ((l.head?.map setRuns).getD 0) else 0)).sum
  modifyDomain (s.bump Reg.TRK_RUNS_DROP F.TRK_RUNS_DROP_COUNT n) d
    (fun x => { x with staged := x.staged.map (fun l => if low l then l.drop 1 else l) })

/-- The front sets of every span for one tagged line: sets of lines that some span did not deliver are dropped. -/
def alignFronts (d : Fin 16) : Nat → State → Option (List (SpanSet × SetMark)) × State
  | 0, s => (none, s)
  | fuel + 1, s =>
    match frontSets s d with
    | none => (none, s)
    | some fs =>
      let top := fs.foldl (fun (v : BitVec 64) f => if v.toNat < f.2.line.toNat then f.2.line else v) 0
      if fs.all (fun f => f.2.line == top) then (some fs, s) else alignFronts d fuel (dropBelow s d top)

/-- Whether a report makes the line impaired in the columns of the span at position `p` (R211), or runs of it were lost
in the run store (R219, R229). -/
def spanImpaired (s : State) (d : Fin 16) (p : Nat) (k : SetMark) : Bool × Bool :=
  let lost := match headOfRole s (d.val + p) with
    | none => false
    | some h => s.trk.losses.any (fun r => r.head == h && r.line == k.line + BitVec.ofNat 64 k.lag)
  (lost, lost || (s.domain d).hurt.contains (k.line, p))

/-- A run before the runs that follow it, joined with the next one across a seam (R208). -/
def joinNext (a : LineRun) : List LineRun → List LineRun
  | [] => [a]
  | b :: rest =>
    if a.run.stop % 16384 = 16383 ∧ a.run.stop + 1 = b.run.start ∧ a.run.cls = b.run.cls then
      let r : Run := { a.run with stop := b.run.stop, peak := BitVec.ofNat 16 (max a.run.peak.toNat b.run.peak.toNat) }
      { a with run := r, aborted := a.aborted || b.aborted, redo := a.redo || b.redo } :: rest
    else a :: b :: rest

/-- Runs of adjacent spans are joined at the seams (R208). -/
def joinSeams (l : List LineRun) : List LineRun := l.foldr joinNext []

/-- One run of the domain line (R213). -/
def handleRun (d : Fin 16) (m : BitVec 64) (s : State) (r : LineRun) : State :=
  if trkState s d = 2 then foldRun s d m r
  else
    match (s.domain d).blobs.filter (attaches s d r.run) with
    | [] =>
      if heldContexts s d < s.fld (Reg.TRK_DOM_CTX d) F.TRK_DOM_CTX_CTX_MAX ∧ 0 < freeContexts s then openBlob s d m r
      else
        let s := modifyDomain (enterFlood s d 4) d (fun x => { x with winFirst := m })
        foldRun s d m r
    | a :: rest =>
      let s := mergeBlobs s d a rest
      modifyDomain s d (fun x => { x with blobs := x.blobs.map (fun b => if b.seq = a.seq then
        extendBlob m r b else b) })

/-- The segment of a blob ends at MAX_LEN (R216): it goes on from line `m` + 1, whose stamp it takes once that line is processed
or the segment ends. -/
def nextSegment (m : BitVec 64) (b : Blob) : Blob :=
  { b with
    first := m + 1, last := m + 1, coord := 0, time := 0, minCol := 0, maxCol := 0, area := 0, runs := 0, classMask := 0,
    peak := 0, sumCol := 0, sumLine := 0, merges := 0, contd := true, gap := false, aborted := false, stamped := false }

/-- R215 and R216 for one blob, `hit` saying whether the line is impaired for it. -/
def settleBlob (d : Fin 16) (m : BitVec 64) (hit : Blob → Bool) (s : State) (b : Blob) : State :=
  let got := !b.now.isEmpty
  let bad := hit b
  let lo := b.now.foldl (fun v q => min v q.1) (b.now.headD (0, 0)).1
  let hi := b.now.foldl (fun v q => max v q.2) 0
  let b' := { b with
    empty := if got then 0 else if bad then b.empty else b.empty + 1, gap := b.gap || bad,
    extent := if got then (lo, hi) else b.extent, prev := b.now, now := [] }
  let s := modifyDomain s d (fun x => { x with blobs := x.blobs.map (fun y => if y.seq = b.seq then b' else y) })
  let ctl := Reg.TRK_DOM_CTL d
  if !got && !bad && s.fld ctl F.TRK_DOM_CTL_GAP ≤ b'.empty then closeBlob s d 0 b'
  else if s.fld ctl F.TRK_DOM_CTL_MAX_LEN ≤ (m - b'.first).toNat + 1 && b'.first.toNat ≤ m.toNat && b'.runs != 0 then
    let s := blobRecord s d b' 1 false
    modifyDomain s d (fun x => { x with
      blobs := x.blobs.map (fun y => if y.seq = b.seq then nextSegment m b' else y) })
  else s

/-- Segments that begin at or before line `m` without a stamp take the stamp of their first line. -/
def stampSegments (s : State) (d : Fin 16) (m : BitVec 64) : State :=
  (s.domain d).blobs.foldl (fun s b =>
    if b.stamped || m.toNat < b.first.toNat then s
    else
      let (c, s) := stampOr s d b.first
      modifyDomain s d (fun x => { x with
        blobs := x.blobs.map (fun y => if y.seq = b.seq then { y with coord := c.1, time := c.2, stamped := true } else y) }))
    s

/-- Some session's record stream takes line records of this line of the domain (R424, R425). -/
def lineWanted (s : State) (d : Fin 16) (m : BitVec 64) : Bool :=
  s.rn.sessions.toList.any (fun o => match o with
    | none => false
    | some c => c.records.any (fun r =>
        r.lines && r.domains.getLsbD d.val && r.decimate != 0 && m.toNat % r.decimate.toNat == 0))

/-- The line record of a domain line (R426), on its way to the streams. -/
def lineRecord (s : State) (d : Fin 16) (m : BitVec 64) (lost impaired : Bool) (runs : Nat) : State :=
  if !lineWanted s d m then s
  else
    let (c, s) := stampOr s d m
    let flags := lost.toNat + 2 * impaired.toNat + (if trkState s d = 2 then 4 else 0)
    let bytes := leBytes 1 0x84 ++ leBytes 1 d.val ++ leBytes 2 flags ++ leBytes 4 runs ++ leBytes 8 m.toNat ++
      leBytes 8 c.1.toNat ++ leBytes 8 c.2.toNat ++ leBytes 4 (s.fld (Reg.TRK_DOM_STAT d) F.TRK_DOM_STAT_OPEN) ++
      List.replicate 28 0
    { s with rn := { s.rn with incoming := s.rn.incoming ++ [⟨none, some 0, bytes, some d⟩] } }

/-- Lines `a` + 1 to `m` − 1 of the domain are lost: impaired for every blob of the domain (R209, R211). -/
def lostLines (s : State) (d : Fin 16) (a m : BitVec 64) : State :=
  let n := m.toNat - a.toNat - 1
  if n = 0 then s
  else
    let s := modifyDomain s d (fun x => { x with
      blobs := x.blobs.map (fun b => { b with gap := true }), winGap := x.winGap || !x.alarms.isEmpty })
    (List.range n).foldl (fun s i => lineRecord s d (a + BitVec.ofNat 64 (i + 1)) true true 0) s

/-- One domain line with the sets of its spans (R209–R216, R223). -/
def processLine (s : State) (d : Fin 16) (fs : List (SpanSet × SetMark)) : State :=
  let m := ((fs.head?.map (fun f => f.2.line)).getD 0)
  let x := s.domain d
  let s := if x.applied && trkState s d != 0 then lostLines s d (lastLine s d) m else s
  let s := stampSegments s d m
  let s := modifyDomain s d (fun x => { x with staged := x.staged.map (·.drop 1), joining := false })
  let hurt := fs.zipIdx.map (fun f => spanImpaired s d f.2 f.1.2)
  let drops := (fs.zip hurt).foldl (fun n f => if f.2.1 then n + setRuns f.1.1 else n) 0
  let s := s.bump Reg.TRK_RUNS_DROP F.TRK_RUNS_DROP_COUNT drops
  let good := (fs.zip hurt).zipIdx.filter (fun f => !f.1.2.1)
  let runs := good.flatMap (fun f => f.1.1.1.runs.map (fun r => (⟨r, f.2, f.1.1.2.aborted, f.1.1.2.redo⟩ : LineRun)))
  let runs := if s.flag (Reg.TRK_DOM_CTL d) F.TRK_DOM_CTL_SEAM_JOIN then joinSeams runs else runs
  let total := (fs.map (fun f => f.2.runs)).sum
  let badAny := hurt.any (·.2)
  let banded := fs.any (fun f => f.2.band || f.1.fold.any)
  let s := if trkState s d = 1 && (s.domain d).afterFlood && banded then s
    else
      let s := if trkState s d = 2 ∧ (s.domain d).winLines = 0 then
          modifyDomain s d (fun x => { x with winFirst := m }) else s
      let s := runs.foldl (handleRun d m) s
      if trkState s d = 2 then
        let off := (m - (s.domain d).winFirst).toNat
        let s := good.foldl (fun s f => onAlarm s d f.2 (fun a => a.join (foldSet { f.1.1.1 with runs := [] }).fold off)) s
        let s := fs.zipIdx.foldl (fun s f => onAlarm s d f.2 (fun a => { a with runs := a.runs + f.1.2.runs })) s
        floodLineEnd (countWindow s d m badAny) d total
      else
        let hit (b : Blob) : Bool := (hurt.zipIdx).any (fun q => q.1.2 && meetsHead q.2 b)
        let s := ((s.domain d).blobs).foldl (settleBlob d m hit) s
        modifyDomain s d (fun x => { x with afterFlood := false })
  let s := modifyDomain s d (fun x => { x with applied := true, hurt := x.hurt.filter (fun h => h.1 != m) })
  showContexts (lineRecord (setLastLine s d m) d m false badAny total)

/-- Sets that the domain has staged. -/
def stagedSets (s : State) (d : Fin 16) : Nat := ((s.domain d).staged.map List.length).sum

/-- The next domain line, when every span has delivered its mark; an aborted one waits for what R218 says of its stop
unless `evenAborted`. -/
def nextLine (s : State) (d : Fin 16) (evenAborted : Bool) : Option State :=
  if trkState s d ≠ 1 ∧ trkState s d ≠ 2 then none
  else match alignFronts d (stagedSets s d + 1) s with
    | (none, _) => none
    | (some fs, s) =>
      if !evenAborted && fs.any (fun f => f.2.aborted) then none else some (keepReady (processLine s d fs))

/-- The domain whose line the tracker processes next: lines are processed in the order in which their marks complete (R217). -/
def lineDue (s : State) : Option (Fin 16) :=
  (s.trk.ready.find? (fun r => (nextLine s r.1 false).isSome)).map Prod.fst

/-- Every staged line is processed (R218). -/
def drainLines (d : Fin 16) : Nat → State → State
  | 0, s => s
  | fuel + 1, s =>
    match nextLine s d true with
    | none => s
    | some s => drainLines d fuel s

/-- A single- or double-bit error in a context or in the run store (R229). A run of the previously processed line is dropped with
its line impaired: GAP for every blob that meets its head's columns. -/
def trackUpset (d : Fin 16) (s : State) (u : TrackUpset) : State :=
  let corr (s : State) : State := (s.bump Reg.TRK_ECC F.TRK_ECC_CORR).raise 774 (payCause 0 d.val)
  let uncorr (s : State) : State := s.bump Reg.TRK_ECC F.TRK_ECC_UNCORR
  let id4 (bs : List Byte) : Nat := leNat ((bs.drop 4).take 4)
  match u with
  | .context _ false => corr s
  | .context id true =>
    let s := (uncorr s).raise 775 id
    let s := { s with trk := { s.trk with built := s.trk.built.filter (fun r => !(r.context && id4 r.bytes == id.toNat)) } }
    (List.finRange 16).foldl (fun s k =>
      modifyDomain s k (fun x => { x with blobs := x.blobs.filter (fun b => b.id != id) })) s
  | .store _ _ _ false => corr s
  | .store p k i true =>
    let line := ((((s.domain d).staged.getD p [])[k]?).bind SpanSet.mark).map SetMark.line
    let drop (t : SpanSet) : SpanSet :=
      { t with runs := t.runs.eraseIdx i, bands := if i < t.runs.length then t.bands else t.bands.eraseIdx (i - t.runs.length) }
    let s := (uncorr s).raise 775 (payCause 0 d.val)
    modifyDomain s d (fun x => { x with
      staged := x.staged.modify p (fun q => q.modify k drop), hurt := x.hurt ++ [(line.getD (BitVec.allOnes 64), p)] })
  | .previous _ _ false => corr s
  | .previous id i true =>
    let run := (((s.domain d).blobs.find? (fun b => b.id == id)).bind (fun b => b.prev[i]?))
    let s := (uncorr s).raise 775 (payCause 0 d.val)
    let hit (b : Blob) : Bool := run.any (fun r => meetsHead (r.1 / 16384) b)
    modifyDomain s d (fun x => { x with blobs := x.blobs.map (fun b =>
      { b with prev := if b.id = id then b.prev.eraseIdx i else b.prev, gap := b.gap || hit b }) })

/-- DOMAIN_LINE (R209, R217): the next line of domain `d` is processed, when it is the one whose marks completed first of those
that can be; nothing happens while another domain's line comes first or some span's mark is missing. -/
def execDomainLine (d : Fin 16) (ups : List TrackUpset) (s : State) : Host.Outcome State Fault Refusal :=
  let s := showContexts (ups.foldl (trackUpset d) s)
  .next (if lineDue s = some d then (nextLine s d false).getD s else s)

/-- FLOOD_HOLD (R221): the merger of span `m` has held for HOLD_MAX cycles. -/
def execFloodHold (m : Fin 17) (s : State) : Host.Outcome State Fault Refusal :=
  match spanDomain s m with
  | none => .next s
  | some (d, _) =>
    .next (if trkState s d = 1 ∧ s.fld (Reg.TRK_DOM_FLOOD d) F.TRK_DOM_FLOOD_HOLD_MAX ≤ (s.ext m).hold ∧ (s.ext m).hold ≠ 0
      then enterFlood s d 2 else s)

/-! ## Stamps and reports (R210, R211) -/

/-- The newest `n` elements that satisfy `p`, with all that do not. -/
def keepNewest {α : Type} (p : α → Bool) (n : Nat) (l : List α) : List α :=
  let extra := (l.filter p).length - n
  (l.foldl (fun (a : List α × Nat) x => if p x && a.2 < extra then (a.1, a.2 + 1) else (a.1 ++ [x], a.2)) ([], 0)).1

/-- STAMP_RECEIVE (R210): the oldest stamp on its way arrives; 256 are kept for each group. -/
def execStampReceive (s : State) : Host.Outcome State Fault Refusal :=
  match s.tm.stamps with
  | [] => .next s
  | k :: rest =>
    let kept := keepNewest (fun e => e.group == k.group) 256 (s.trk.stamps ++ [k])
    .next { s with tm := { s.tm with stamps := rest }, trk := { s.trk with stamps := kept } }

/-- LINE_LOSS_REPORT (R211): the oldest report on its way arrives; those of the last 256 lines of a head are kept. -/
def execLineLossReport (s : State) : Host.Outcome State Fault Refusal :=
  match s.reports with
  | [] => .next s
  | r :: rest =>
    let old (e : LossReport) : Bool := e.head == r.head && e.line.toNat + 256 ≤ r.line.toNat
    .next { s with reports := rest, trk := { s.trk with losses := (s.trk.losses ++ [r]).filter (fun e => !old e) } }

/-! ## Stops, takeovers and head states (R218–R220) -/

/-- The domain's blobs close with SPAN_STOPPED and it becomes IDLE (R218). -/
def domainIdle (s : State) (d : Fin 16) : State :=
  let s := if trkState s d = 3 then setTrkState s d 1 else s
  let s := drainLines d (stagedSets s d + 1) s
  let s := closeAll s d 8
  let s := (domSpans s d).foldl (fun s m => if trkState s d = 2 then exitBand s m else s) s
  let s := modifyDomain (setTrkState s d 0) d (fun x => { x with staged := [], alarms := [], hurt := [], afterFlood := false })
  showContexts (keepReady s)

/-- Staged lines with an aborted mark leave (R218, R219). -/
def dropAborted (s : State) (d : Fin 16) : State :=
  let ab (t : SpanSet) : Bool := t.mark.any (·.aborted)
  keepReady (modifyDomain s d (fun x => { x with staged := x.staged.map (fun q => q.filter (fun t => !ab t)) }))

/-- SPAN_STOP_NOTICE (R218): the tracker learns that span `m` is stopped, with the CAUSE in its `SPC_STAT`. -/
def execSpanStopNotice (m : Fin 17) (s : State) : Host.Outcome State Fault Refusal :=
  match spanDomain s m with
  | none => .next s
  | some (d, _) =>
    if spcState s m ≠ 3 ∨ trkState s d = 0 then .next s
    else if s.fld (Reg.SPC_STAT m) F.SPC_STAT_CAUSE = 1 then .next (domainIdle s d)
    else
      let flood := trkState s d = 2
      let s := if flood then (domSpans s d).foldl (fun s m => exitBand s m) s else s
      .next (setTrkState (modifyDomain s d (fun x => { x with alarms := [], afterFlood := x.afterFlood || flood })) d 3)

/-- The domain of role `r` (R208). -/
def roleDomain (s : State) (r : Nat) : Nat := r - s.fld (Reg.PL_ROLE r) F.PL_ROLE_POS

/-- The tracker follows a completed takeover in domain `d`, with the checkpoint age that placement reports (R218, R220). -/
def followTakeover (s : State) (d : Fin 16) (age : Nat) : State :=
  let s := dropAborted s d
  let s := modifyDomain s d (fun x => { x with age := BitVec.ofNat 8 (min age 255), blobs := x.blobs.map (fun b => { b with takenOver := true }) })
  let mark (r : RecStream) : RecStream := { r with taken := r.taken ||| (1#16 <<< d.val) }
  let s := { s with rn := { s.rn with sessions := s.rn.sessions.map (fun o => o.map (fun c =>
    { c with records := c.records.map mark })) } }
  if trkState s d = 3 then setTrkState s d 1 else s

/-- TAKEOVER_NOTICE (R218, R220): the oldest report that placement has sent of a completed takeover of a role of domain `d`, with
checkpoint age `age`, reaches the tracker. -/
def execTakeoverNotice (d : Fin 16) (age : BitVec 8) (s : State) : Host.Outcome State Fault Refusal :=
  match s.pl.reports.find? (fun r => roleDomain s r.1 == d.val && r.2 == age.toNat) with
  | none => .next s
  | some r => .next (followTakeover { s with pl := { s.pl with reports := s.pl.reports.erase r } } d r.2)

/-- SERVICE_STOP_NOTICE (R218): the service of domain `d` has stopped. -/
def execServiceStopNotice (d : Fin 16) (s : State) : Host.Outcome State Fault Refusal :=
  let s := domainIdle s d
  let s := serviceRecords s d 1 (lastLine s d + 1)
  .next (modifyDomain s d (fun x => { x with resumeDue := true }))

/-- HEAD_GONE_NOTICE (R218): head `h` has left ACTIVE; blobs that meet its columns close with HEAD_GONE. -/
def execHeadGoneNotice (h : Fin 16) (s : State) : Host.Outcome State Fault Refusal :=
  .next (showContexts ((List.finRange 16).foldl (fun s (d : Fin 16) =>
    (domHeads s d).foldl (fun s p =>
      if p.2 ≠ h then s
      else
        ((s.domain d).blobs.filter (meetsHead p.1)).foldl (fun s b => closeBlob s d 16 b) s) s) s))

/-- SPAN_RUNNING_NOTICE (R219): every span of the domain's group runs; with EN = 1 an IDLE or HELD domain becomes
TRACKING. -/
def execSpanRunningNotice (d : Fin 16) (s : State) : Host.Outcome State Fault Refusal :=
  let ms := domSpans s d
  let st := trkState s d
  if !s.flag (Reg.TRK_DOM_CTL d) F.TRK_DOM_CTL_EN || ms.isEmpty || ms.any (fun m => spcState s m != 0) then .next s
  else if st = 3 then .next (setTrkState (dropAborted s d) d 1)
  else if st = 0 then
    .next (modifyDomain (setTrkState s d 1) d (fun x => { x with applied := false, joining := true, staged := [] }))
  else .next s

/-! ## Emission (R228) -/

/-- Some class of the mask has field `f` of `TRK_CLASS` set. -/
def classWants (s : State) (mask : BitVec 16) (f : Fld) : Bool :=
  (List.range 16).any (fun c => mask.getLsbD c && s.flag (Reg.TRK_CLASS c) f)

/-- The record with a flag set. -/
def setFlag (bs : List Byte) (bit : Nat) : List Byte :=
  bs.modify (2 + bit / 8) (fun b => b ||| (1#8 <<< (bit % 8)))

/-- The crop request of a record (R245): the ring of its head is that of the region that serves it now. -/
def cropRequest (s : State) (d : Fin 16) (bs : List Byte) : CropReq :=
  let h := (bs.getD 1 0).toNat % 16
  let p := ((domHeads s d).find? (fun q => q.2.val == h)).map Prod.fst
  let m := ((p.bind (fun p => pairOf s (d.val + p))).map Fin.val).getD 0
  { tag := s.trk.emitted, bytes := bs, lseq := none,
    base := s.fld (Reg.HR_BASE_HI m) F.HR_BASE_HI_BASE_HI * 2 ^ 32 + s.fld (Reg.HR_BASE_LO m) F.HR_BASE_LO_BASE_LO * 2 ^ 16,
    depth := s.fld (Reg.HR_CTL m) F.HR_CTL_DEPTH_LOG, wide := s.flag (Reg.HR_CTL m) F.HR_CTL_BITS,
    col0 := 16384 * p.getD 0, pixels := (s.head (Fin.ofNat 16 h)).pixels.toNat }

/-- A crop is due for the record, and the crop engine has a credit (R10). -/
def cropDue (s : State) (r : BuiltRecord) : Bool :=
  r.bytes.headD 0 == 1 && r.area != 0 && classWants s r.classMask F.TRK_CLASS_CROP_EN
def cropCredit (s : State) : Bool := s.cr.queue.length + s.cr.work.length < 64

/-- The crop step of emission: without a credit the crop is skipped and counted. -/
def emitCrop (s : State) (r : BuiltRecord) : BuiltRecord × State :=
  if cropDue s r && !cropCredit s then
    ({ r with bytes := setFlag r.bytes 6 }, { s with cr := { s.cr with skipped := s.cr.skipped + 1 } })
  else (r, s)

/-- The crop request of a record that has its flags, the same 64 bytes that every other path receives. -/
def queueCrop (s : State) (r : BuiltRecord) : State :=
  if cropDue s r && cropCredit s then
    { s with cr := { s.cr with queue := s.cr.queue ++ [cropRequest s r.domain r.bytes] } }
  else s

/-- The marking step of emission; a refusal counts at the scheduler (R264). -/
def emitMark (s : State) (r : BuiltRecord) : BuiltRecord × State :=
  let classes := (List.range 16).filter (fun c =>
    r.classMask.getLsbD c && s.flag (Reg.TRK_CLASS c) F.TRK_CLASS_MARK_EN)
  match classes with
  | [] => (r, s)
  | c :: _ =>
    let o := s.fld (Reg.TRK_CLASS c) F.TRK_CLASS_MARK_OUT
    if s.tm.actions.length + s.tm.marks.length < 256 then
      let msg : MarkMsg := ⟨Fin.ofNat 32 o, BitVec.ofNat 64 (leNat ((r.bytes.drop 16).take 8)), r.lastCoord, r.classMask,
        BitVec.ofNat 32 (leNat ((r.bytes.drop 4).take 4))⟩
      ({ r with bytes := setFlag r.bytes 12 },
       { s with tm := { s.tm with marks := s.tm.marks ++ [msg] }, trk := { s.trk with lastMark := some s.now } })
    else
      let s := (s.bump Reg.AS_REFUSED F.AS_REFUSED_COUNT).raise (611 + 4 * (o / 2)) (payCause 1 o)
      ({ r with bytes := setFlag r.bytes 13 }, s)

/-- A record of a marking class waits until 64 FCLK cycles, 80 ns, have passed since the last marking message. -/
def markWaits (s : State) (r : BuiltRecord) : Bool :=
  r.bytes.headD 0 == 1 && r.area != 0 && classWants s r.classMask F.TRK_CLASS_MARK_EN &&
    s.trk.lastMark.any (fun t => (s.now - t).toNat < 80)

/-- The record goes to the ledger writer, the repeat finder and the streams. -/
def emitOut (s : State) (r : BuiltRecord) : State :=
  let type := r.bytes.headD 0
  let tag := s.trk.emitted
  let rec' : LedgerRec := ⟨tag, r.bytes, 0, 0, false⟩
  let s := { s with lg := { s.lg with queue := s.lg.queue ++ [rec'] }, trk := { s.trk with emitted := tag + 1 } }
  let s := if type = 1 ∧ r.area ≠ 0 ∧ classWants s r.classMask F.TRK_CLASS_REPEAT_EN then
      { s with rf := { s.rf with queue := s.rf.queue ++ [rec'] } } else s
  let s := if type ≠ 1 ∨ classWants s r.classMask F.TRK_CLASS_STREAM_EN then
      { s with rn := { s.rn with incoming := s.rn.incoming ++ [⟨some tag, none, r.bytes, none⟩] } } else s
  let s := s.bump Reg.TRK_RECORDS F.TRK_RECORDS_COUNT
  if type = 3 then s.raise 771 (payCause 0 r.domain.val) else s

/-- RECORD_EMIT (R228): the oldest built record is emitted, or waits: for its marking slot, or while the ledger or the
repeat finder has no credit. -/
def execRecordEmit (s : State) : Host.Outcome State Fault Refusal :=
  match s.trk.built with
  | [] => .next s
  | r :: rest =>
    if !r.stepped && markWaits s r then .next s
    else
      let (r, s) := if r.stepped then (r, s)
        else (let (r, s) := emitCrop s r
              let (r, s) := if r.bytes.headD 0 = 1 ∧ r.area ≠ 0 then emitMark s r else (r, s)
              (r, queueCrop s r))
      let r := { r with stepped := true }
      let noLedger := 1024 ≤ s.lg.queue.length
      let noRepeat := 256 ≤ s.rf.queue.length
      if noLedger ∨ noRepeat then
        let s := if s.trk.holding then s else s.raise 772 (payCause 0 r.domain.val)
        let s := if noLedger then s.bump Reg.TRK_LEDGER_HOLD F.TRK_LEDGER_HOLD_COUNT else s
        let s := if noRepeat then s.bump Reg.TRK_REPEAT_HOLD F.TRK_REPEAT_HOLD_COUNT else s
        .next { s with trk := { s.trk with built := r :: rest, holding := true } }
      else .next (showContexts (emitOut { s with trk := { s.trk with built := rest, holding := false } } r))

end Sys2Proof.Machine
end

