-- ==== Sys2Proof/Machine/Timing.lean ====
section
/-!
DEFINITION. Strip time (09): encoders, lockstep groups, outputs, the actuation scheduler, device time and PTP: meanings
of ENCODER_COUNT to PPS and ACTUATOR_PULSE_END. Instants are in interpolator steps of 156.25 ps: 32 steps are 5 ns.
-/

namespace Sys2Proof.Machine

def modifyTm (s : State) (f : Timing → Timing) : State := { s with tm := f s.tm }
def chan (s : State) (c : Fin 16) : Channel := s.tm.channels[c]
def setChan (s : State) (c : Fin 16) (x : Channel) : State := modifyTm s (fun t => { t with channels := t.channels.set c x })
def grp (s : State) (g : Fin 8) : Group := s.tm.groups[g]
def setGrp (s : State) (g : Fin 8) (x : Group) : State := modifyTm s (fun t => { t with groups := t.groups.set g x })

/-- Steps of a device time in ns, and back. -/
def toSteps (t : BitVec 64) : Nat := t.toNat * 32 / 5
def ofSteps (n : Nat) : BitVec 64 := BitVec.ofNat 64 (n * 5 / 32)

/-! ## Strip channels (R252–R255) -/

/-- The channel coordinate (R253). -/
def chanPos (s : State) (c : Nat) : BitVec 48 := (s.reg (Reg.SC_POS_HI c)).setWidth 16 ++ s.reg (Reg.SC_POS_LO c)
def setChanPos (s : State) (c : Nat) (v : BitVec 48) : State :=
  (s.setReg (Reg.SC_POS_LO c) (v.setWidth 32)).setReg (Reg.SC_POS_HI c) ((v >>> 32).setWidth 32)

/-- Input latency of R252 in steps. -/
def latency (s : State) (c : Nat) : Nat := (30 + 5 * s.fld (Reg.SC_CTL c) F.SC_CTL_FILT) * 32 / 5

/-- The level of an input after the samples `l`, the newest first (R252): `old` unless the last FILT + 1 of them agree. -/
def acceptLevel (filt : Nat) (old : Bool) (l : List Bool) : Bool :=
  match l with
  | [] => old
  | v :: _ => if filt < l.length ∧ (l.take (filt + 1)).all (· == v) then v else old

/-- The edge time of a change of channel `c` that is accepted now: the time of its first agreeing sample (R252). -/
def edgeTime (s : State) (c : Nat) : BitVec 64 := BitVec.ofNat 64 (s.now.toNat - 5 * s.fld (Reg.SC_CTL c) F.SC_CTL_FILT)

/-- `SC_MOTION` with cause 1 REVERSE, 2 FORWARD, 3 STALL or 4 MOVING (R283). -/
def raiseMotion (s : State) (c : Nat) (cause : Nat) : State := s.raise (609 + 4 * c) (payCause cause)

/-- The direction follows the coordinate with hysteresis (R254). -/
def trackDirection (s : State) (c : Fin 16) : State :=
  let x := chan s c
  let p := (chanPos s c).toInt
  let a := Reg.SC_STAT c
  let back := s.flag a F.SC_STAT_DIR
  let ext := if back then min x.extreme p else max x.extreme p
  let far : Int := s.fld (Reg.SC_CTL c) F.SC_CTL_REV_HYST + 1
  if far ≤ (if back then p - ext else ext - p) then
    raiseMotion ((setChan s c { x with extreme := p }).setFld a F.SC_STAT_DIR (!back).toNat) c (if back then 2 else 1)
  else setChan s c { x with extreme := ext }

/-- `SC_RATE` shows the net counts of the last complete window of 65,536 TCLK cycles (R284). -/
def rollRate (s : State) (c : Fin 16) : State :=
  let x := chan s c
  let w := s.now.toNat / 327680
  if w = x.rateWin then s
  else
    let last : Int := if w = x.rateWin + 1 then x.rateNet else 0
    (setChan s c { x with rateWin := w, rateNet := 0 }).setReg (Reg.SC_RATE c) (BitVec.ofInt 32 last)

/-- `TG_STAT.STATE`: 0 IDLE, 1 ARMED, 2 RUNNING. -/
def tgState (s : State) (g : Nat) : Nat := s.fld (Reg.TG_STAT g) F.TG_STAT_STATE
def setTgState (s : State) (g st : Nat) : State := s.setFld (Reg.TG_STAT g) F.TG_STAT_STATE st

/-- `TG_GROUP` with cause 1 STARTED, 2 STOPPED or 3 OVERSPEED. -/
def raiseTg (s : State) (g : Nat) (cause : Nat) : State := s.raise (610 + 4 * g) (payCause cause)

/-- The pitch in force; before the image loads one, the lowest that a write may give. -/
def tgPitch (s : State) (g : Nat) : BitVec 64 := BitVec.ofNat 64 (max 0x4000 (s.reg (Reg.TG_PITCH g)).toNat)

/-- The coordinate of the group's source in 1/65,536 counts (R256). -/
def sourceCoord (s : State) (g : Fin 8) : Int :=
  let k := s.fld (Reg.TG_CTL g) F.TG_CTL_SRC
  if k < 16 then (chanPos s k).toInt * 65536 else (grp s g).pos.toInt

/-! ## Line points (R256–R259) -/

/-- The instant that a forward count gives to point `p` (R257): that of the count which reaches it; with `interp`, that of
the count to the integer part of `p` plus its fraction of the interval before it, to the nearest interpolator step. -/
def edgeInstant (interp : Bool) (p : Int) (e : Edge) : Option Nat :=
  if p ≤ e.coord then some e.instant
  else if interp ∧ p < e.coord + 65536 then e.gap.map (fun k => e.instant + ((p - e.coord).toNat * k + 32768) / 65536)
  else none

/-- The sooner of two instants that may be unknown. -/
def sooner : Option Nat → Option Nat → Option Nat
  | some a, some b => some (min a b)
  | none, b => b
  | a, none => a

/-- The trigger instant of point `p` after the forward counts `es` (R257), if it is known yet. -/
def pointInstant (interp : Bool) (es : List Edge) (p : Int) : Option Nat :=
  es.foldl (fun x e => sooner x (edgeInstant interp p e)) none

/-- The forward counts that can give an instant to point `p` or to one behind it. -/
def usefulEdges (es : List Edge) (p : Int) : List Edge := es.filter (fun e => p < e.coord + 65536)

/-- A forward count of a group's source (R257). -/
def groupCount (s : State) (g : Fin 8) (e : Edge) : State :=
  if tgState s g = 0 then s
  else (let x := grp s g; setGrp s g { x with edges := usefulEdges (x.edges ++ [e]) x.next.toInt })

/-- The last count of a group's source, if it was forward. -/
def lastEdge (s : State) (g : Fin 8) : Option Edge :=
  let k := s.fld (Reg.TG_CTL g) F.TG_CTL_SRC
  let x := grp s g
  if h : k < 16 then
    let c : Fin 16 := ⟨k, h⟩
    match (chan s c).edge with
    | some (t, true) => some ⟨sourceCoord s g, toSteps t + latency s c, (chan s c).gaps.head?⟩
    | _ => none
  else x.edge.map (fun t => ⟨x.pos.toInt, t, if k = 16 then x.gaps.head?.map Prod.snd else none⟩)

/-! ## Fire instants of actions (R267) -/

def soMode (s : State) (o : Nat) : Nat := s.fld (Reg.SO_CTL (o / 2) (o % 2)) F.SO_CTL_MODE
def soGroup (s : State) (o : Nat) : Fin 8 := Fin.ofNat 8 (s.fld (Reg.SO_CTL (o / 2) (o % 2)) F.SO_CTL_GROUP)

/-- The fire instant of a pending action after a forward count `e` of its source, whose last advances add up to `dc` in
1/65,536 counts and `dt` steps (R267): without LEAD by the INTERP = 1 rule of R257; with LEAD the forecast, to the nearest
interpolator step, less LEAD. -/
def actionDue (a : Action) (e : Edge) (dc dt : Nat) : Option Nat :=
  if a.lead = 0 then sooner a.due (edgeInstant true a.tOn e)
  else if dc = 0 then none
  else some (e.instant + ((a.tOn - e.coord).toNat * dt + dc / 2) / dc - a.lead * 32 / 5)

/-- A count of the source of the actions that `mine` picks out, by the group of their outputs: a forward one gives them their
instants; a backward one (`none`) withdraws forecasts. -/
def advanceActions (s : State) (mine : Fin 8 → Bool) (e : Option Edge) (gaps : List (Nat × Nat)) : State :=
  let upd (a : Action) : Action :=
    if a.active || !mine (soGroup s a.out) then a
    else match e with
      | some e => { a with due := actionDue a e (gaps.map Prod.fst).sum (gaps.map Prod.snd).sum }
      | none => if a.lead = 0 then a else { a with due := none }
  modifyTm s (fun t => { t with actions := t.actions.map upd })

/-- One count of channel `c` (R253, R254, R257, R267). -/
def countEdge (s : State) (c : Fin 16) (fwd : Bool) : State :=
  let x := chan s c
  let s := setChanPos s c (if fwd then chanPos s c + 1 else chanPos s c - 1)
  let s := rollRate s c
  let a := Reg.SC_STAT c
  let s := if s.flag a F.SC_STAT_MOVING then s
    else (let s := s.setFld a F.SC_STAT_MOVING 1
          if x.stalled then raiseMotion s c 4 else s)
  let at' := edgeTime s c
  let gap := match x.edge with
    | some (t, f) => if fwd && f then some (toSteps at' - toSteps t) else none
    | none => none
  let gaps := if fwd then (match gap with
      | some k => (k :: x.gaps).take 8
      | none => x.gaps) else []
  let x := chan s c
  let s := setChan s c { x with
    edge := some (at', fwd), gaps := gaps, stalled := false, rateNet := x.rateNet + if fwd then 1 else -1 }
  let s := trackDirection s c
  let e : Edge := ⟨(chanPos s c).toInt * 65536, toSteps at' + latency s c, gap⟩
  let mine (g : Fin 8) : Bool := s.fld (Reg.TG_CTL g) F.TG_CTL_SRC == c.val
  if fwd then
    advanceActions (((List.finRange 8).filter mine).foldl (fun s g => groupCount s g e) s) mine (some e)
      (gaps.map (fun k => (65536, k)))
  else advanceActions s mine none []

/-- Whether a change of A and B counts forward, before INV (R253); `none`: no single change. -/
def quadrature (a b a' b' : Bool) : Option Bool :=
  if a = a' ∧ b ≠ b' then some (a && b' || !a && !b')
  else if a ≠ a' ∧ b = b' then some (a' && !b || !a' && b)
  else none

def levelA (s : State) (c : Nat) : Bool := (s.fld (Reg.SC_STAT c) F.SC_STAT_LEVELS).testBit 2
def levelB (s : State) (c : Nat) : Bool := (s.fld (Reg.SC_STAT c) F.SC_STAT_LEVELS).testBit 1
def levelZ (s : State) (c : Nat) : Bool := (s.fld (Reg.SC_STAT c) F.SC_STAT_LEVELS).testBit 0
def setLevels (s : State) (c : Nat) (a b z : Bool) : State :=
  s.setFld (Reg.SC_STAT c) F.SC_STAT_LEVELS (4 * a.toNat + 2 * b.toNat + z.toNat)

/-- The accepted levels of A and B after their samples, the newest first (R252). -/
def acceptAB (s : State) (c : Nat) (a b : List Bool) : Bool × Bool :=
  let filt := s.fld (Reg.SC_CTL c) F.SC_CTL_FILT
  (acceptLevel filt (levelA s c) a, acceptLevel filt (levelB s c) b)

/-- ENCODER_COUNT (R252, R253): A and B of channel `c` have had the samples `a` and `b`, the newest first; a single accepted
change counts. Levels are accepted whether or not the channel decodes. -/
def execEncoderCount (c : Fin 16) (a b : List Bool) (s : State) : Host.Outcome State Fault Refusal :=
  let k := Reg.SC_CTL c
  let n := acceptAB s c a b
  let s' := setLevels s c n.1 n.2 (levelZ s c)
  if !s.flag k F.SC_CTL_EN then .next s'
  else match quadrature (levelA s c) (levelB s c) n.1 n.2 with
    | none => .next s
    | some f => .next (countEdge s' c (f != s.flag k F.SC_CTL_INV))

/-- ILLEGAL (R253): A and B change in the same sample. -/
def execIllegal (x : ChannelSamples) (s : State) : Host.Outcome State Fault Refusal :=
  let c := x.chan
  let n := acceptAB s c x.a x.b
  if n.1 = levelA s c ∨ n.2 = levelB s c then .next s
  else
    let s' := setLevels s c n.1 n.2 (levelZ s c)
    .next (if !s.flag (Reg.SC_CTL c) F.SC_CTL_EN then s'
      else (s'.bump (Reg.SC_ERR c) F.SC_ERR_ILLEGAL).raise (608 + 4 * c.val) (payCause 1))

/-- No count of channel `c` has arrived for `SC_STALL.MS` milliseconds (R254). -/
def stallDue (s : State) (c : Fin 16) : Bool :=
  let ms := s.fld (Reg.SC_STALL c) F.SC_STALL_MS
  ms != 0 && (chan s c).edge.all (fun e => e.1.toNat + 1000000 * ms ≤ s.now.toNat)

/-- ENCODER_STALL (R254): no count has come for `SC_STALL.MS`. -/
def execEncoderStall (c : Fin 16) (s : State) : Host.Outcome State Fault Refusal :=
  if !stallDue s c ∨ !s.flag (Reg.SC_STAT c) F.SC_STAT_MOVING then .next s
  else .next (raiseMotion ((setChan s c { chan s c with stalled := true }).setFld (Reg.SC_STAT c) F.SC_STAT_MOVING 0) c 3)

/-- Z_EDGE (R252, R255): Z of channel `c` has had the samples `z`, the newest first; an accepted rising edge captures the
coordinate and checks the period. -/
def execZEdge (c : Fin 16) (z : List Bool) (s : State) : Host.Outcome State Fault Refusal :=
  let k := Reg.SC_CTL c
    let level := acceptLevel (s.fld k F.SC_CTL_FILT) (levelZ s c) z
    let rise := level && !levelZ s c
    let s := setLevels s c (levelA s c) (levelB s c) level
    if !rise || !s.flag k F.SC_CTL_EN || !s.flag k F.SC_CTL_Z_EN then .next s
    else
      let old : BitVec 48 := (s.reg (Reg.SC_ZCAP_HI c)).setWidth 16 ++ s.reg (Reg.SC_ZCAP_LO c)
      let per := s.fld (Reg.SC_ZCHK c) F.SC_ZCHK_ZPER
      let diff := ((chanPos s c).toInt - old.toInt).natAbs
      let off := if diff < per then per - diff else diff - per
      let bad := s.flag (Reg.SC_STAT c) F.SC_STAT_Z_VALID && per != 0 && s.fld (Reg.SC_ZCHK c) F.SC_ZCHK_ZTOL < off
      let s := (s.setReg (Reg.SC_ZCAP_LO c) (s.reg (Reg.SC_POS_LO c))).setReg (Reg.SC_ZCAP_HI c) (s.reg (Reg.SC_POS_HI c))
      let s := s.setFld (Reg.SC_STAT c) F.SC_STAT_Z_VALID 1
      .next (if bad then (s.bump (Reg.SC_ERR c) F.SC_ERR_ZCOUNT).raise (608 + 4 * c.val) (payCause 2) else s)

/-- An advance of the internal or the strand source of group `g` to coordinate `pos` at an instant: its group and its actions
see a forward count (R256, R267, R269). -/
def groupAdvance (s : State) (g : Fin 8) (pos : BitVec 64) (at' : Nat) (interp : Bool) : State :=
  let x := grp s g
  let dc := (pos.toInt - x.pos.toInt).toNat
  let gap := x.edge.map (fun t => at' - t)
  let gaps := match gap with
    | some k => ((dc, k) :: x.gaps).take 8
    | none => x.gaps
  let s := setGrp s g { x with pos := pos, edge := some at', gaps := gaps }
  let e : Edge := ⟨pos.toInt, at', if interp then gap else none⟩
  let mine (k : Fin 8) : Bool := k == g && 16 ≤ s.fld (Reg.TG_CTL g) F.TG_CTL_SRC
  advanceActions (groupCount s g e) mine (some e) gaps

/-- The interval to the next count of the internal source of group `g` in interpolator steps, and what is left over: counts are
evenly spaced, `TG_INTRATE` in the 6,400,000,000 steps of a second. -/
def internalGap (s : State) (g : Fin 8) : Nat × Nat :=
  let rate := (s.reg (Reg.TG_INTRATE g)).toNat
  let n := 6400000000 + (grp s g).rem
  (n / rate, n % rate)

/-- INTERNAL_COUNT (R256): the internal source of group `g` makes a forward count, an even interval after the last one. -/
def execInternalCount (g : Fin 8) (s : State) : Host.Outcome State Fault Refusal :=
  let x := grp s g
  let i := internalGap s g
  let at' := match x.edge with
    | some t => t + i.1
    | none => toSteps s.now
  if s.fld (Reg.TG_CTL g) F.TG_CTL_SRC ≠ 16 ∨ s.reg (Reg.TG_INTRATE g) = 0 ∨ toSteps s.now < at' then .next s
  else .next (groupAdvance (setGrp s g { x with rem := i.2 }) g (x.pos + 65536) at' true)

/-! ## Outputs (R262, R263, R276) -/

/-- A pulse on output `o` (R262, R263): none while the pad is safe (R188); the one before it is cut short so that the
output is low for 20 ns. Pulses that have ended are forgotten. -/
def addPulse (s : State) (o : Fin 32) (rise : Nat) : State :=
  if !s.pads.contains (16 + o.val) then s
  else
    let w := s.fld (Reg.SO_WIDTH (o.val / 2) (o.val % 2)) F.SO_WIDTH_WIDTH * 32
    let r := rise + s.fld (Reg.SO_DELAY (o.val / 2) (o.val % 2)) F.SO_DELAY_DELAY
    let old := (s.tm.pulses[o]).filter (fun p => toSteps s.now ≤ p.2)
    let cut (p : Nat × Nat) : Nat × Nat := (p.1, min p.2 (r - 128))
    modifyTm s (fun t => { t with pulses := t.pulses.set o (old.map cut ++ [(r, r + w)]) })

/-- The trigger and strobe outputs of a group pulse for a line (R262). -/
def pulseOutputs (s : State) (g : Fin 8) (at' : Nat) (strobe : Bool) : State :=
  (List.finRange 32).foldl (fun s (o : Fin 32) =>
    if soGroup s o = g ∧ (soMode s o = 2 ∨ (soMode s o = 3 ∧ strobe)) then addPulse s o at' else s) s

/-- The level of output `o` at the ball now (R262): what a test of the outputs reads. -/
def outputLevel (s : State) (o : Fin 32) : Bool :=
  let k := Reg.SO_CTL (o.val / 2) (o.val % 2)
  let m := soMode s o
  let up := if m = 1 then s.flag k F.SO_CTL_LEVEL
    else if m = 2 ∨ m = 3 ∨ m = 6 then (s.tm.pulses[o]).any (fun p => p.1 ≤ toSteps s.now && toSteps s.now < p.2)
    else if m = 4 ∨ m = 5 then
      s.tm.actions.any (fun a => a.out == o && a.active && a.until'.all (fun t => toSteps s.now < t))
    else false
  s.pads.contains (16 + o.val) && (up != s.flag k F.SO_CTL_INV)

/-! ## Triggers (R256–R261, R280) -/

def tgIndex (s : State) (g : Nat) : BitVec 64 := s.reg64 (Reg.TG_INDEX_LO g) (Reg.TG_INDEX_HI g)
def setTgIndex (s : State) (g : Nat) (v : BitVec 64) : State := s.setReg64 (Reg.TG_INDEX_LO g) (Reg.TG_INDEX_HI g) v

/-- The head ports of a group. -/
def tgHeads (s : State) (g : Nat) : List (Fin 16) :=
  (List.finRange 16).filter (fun h => (s.reg (Reg.TG_HEADS g)).getLsbD h.val)

/-- A stamp goes to the tracker (R210). -/
def sendStamp (s : State) (k : GroupStamp) : State := modifyTm s (fun t => { t with stamps := t.stamps ++ [k] })

/-- The group's heads are triggered for a line, and its outputs pulse (R256, R261, R262). -/
def triggerGroup (s : State) (g : Fin 8) (k : GroupStamp) (at' : Nat) (expCode : BitVec 16) (strobe : Bool) : State :=
  let s := sendStamp s k
  let s := (tgHeads s g).foldl (fun s (h : Fin 16) => triggerPort s h ⟨k.index, k.coord, k.time, false, [], h⟩ at' expCode strobe) s
  pulseOutputs s g at' strobe

/-- The line is lost for every head of the group (R258, R280). -/
def loseGroupLine (s : State) (g : Fin 8) (k : GroupStamp) : State :=
  (tgHeads s g).foldl (fun s (h : Fin 16) =>
    if hpState s h = 7 ∨ headAssigned s h then declareLost s h ⟨k.index, k.coord, k.time, false, [], h⟩ else s)
    (sendStamp s k)

/-- EXP_CODE and STROBE of the program entry of a line (R261). -/
def programEntry (s : State) (g : Nat) (i : BitVec 64) : BitVec 16 × Bool :=
  let e := Reg.TG_PROG g (i.toNat % (s.fld (Reg.TG_CTL g) F.TG_CTL_PLEN_M1 + 1))
  ((s.reg e).setWidth 16, s.flag e F.TG_PROG_STROBE)

/-- `TM_STAT.ROLE`: 0 standalone, 1 strand master, 2 strand follower. -/
def tmRole (s : State) : Nat := s.fld Reg.TM_STAT F.TM_STAT_ROLE

/-- The line of point `p` is stamped and triggered at an instant (R256, R261); a strand master fires it SL_DELAY later and
tells the strand (R280). -/
def fireLine (s : State) (g : Fin 8) (p : BitVec 64) (at' : Nat) : State :=
  let fire := if tmRole s = 1 then at' + s.fld Reg.SL_DELAY F.SL_DELAY_DELAY * 32 / 5 else at'
  let i := tgIndex s g
  let t := ofSteps fire
  let (code, strobe) := programEntry s g i
  let s := setTgIndex (setTgState s g 2) g (i + 1)
  let s := setGrp s g { grp s g with last := some at' }
  let s := triggerGroup s g ⟨g, i, p, t⟩ fire code strobe
  let msg : StrandMsg := .line g i p t (BitVec.ofNat 64 fire) code strobe
  let s := if tmRole s = 1 ∧ slEast s then strandSend s true msg else s
  if tmRole s = 1 ∧ slWest s then strandSend s false msg else s

/-- A point passed while a trigger is delayed (R258). -/
def skipLine (s : State) (g : Fin 8) (p : BitVec 64) (at' : Nat) : State :=
  let i := tgIndex s g
  let s := setTgIndex s g (i + 1)
  let s := loseGroupLine s g ⟨g, i, p, ofSteps at'⟩
  raiseTg (s.bump (Reg.TG_SKIP g) F.TG_SKIP_COUNT) g 3

/-- The trigger instant of the group's next line point, if its counts have given it one (R257): not before START. -/
def nextInstant (s : State) (g : Fin 8) : Option Nat :=
  let x := grp s g
  (pointInstant (s.flag (Reg.TG_CTL g) F.TG_CTL_INTERP) x.edges x.next.toInt).map (max x.since)

/-- The next point is `PITCH` beyond the one that is stamped, skipped or delayed now (R259). -/
def nextPoint (s : State) (g : Fin 8) : State :=
  let x := grp s g
  let p := x.next + tgPitch s g
  setGrp s g { x with next := p, edges := usefulEdges x.edges p.toInt }

/-- LINE_TRIGGER (R257–R259): the group's next line point reaches its trigger instant. -/
def execLineTrigger (g : Fin 8) (s : State) : Host.Outcome State Fault Refusal :=
  let x := grp s g
  match nextInstant s g with
  | none => .next s
  | some d =>
    let floor := s.fld (Reg.TG_MINPER g) F.TG_MINPER_MINPER * 32
    let s' := nextPoint s g
    if tgState s g = 0 ∨ toSteps s.now < d then .next s
    else if x.delayed.isSome then .next (skipLine s' g x.next d)
    else if floor ≠ 0 ∧ x.last.any (fun t => d < t + floor) then
      .next ((setGrp s' g { grp s' g with delayed := some x.next }).setFld (Reg.TG_STAT g) F.TG_STAT_DELAYED 1)
    else .next (fireLine s' g x.next d)

/-- DELAYED_TRIGGER (R258): the floor has passed. -/
def execDelayedTrigger (g : Fin 8) (s : State) : Host.Outcome State Fault Refusal :=
  let x := grp s g
  match x.delayed with
  | none => .next s
  | some p =>
    let at' := x.last.getD 0 + s.fld (Reg.TG_MINPER g) F.TG_MINPER_MINPER * 32
    if toSteps s.now < at' then .next s
    else
      let s := (setGrp s g { x with delayed := none }).setFld (Reg.TG_STAT g) F.TG_STAT_DELAYED 0
      .next (fireLine s g p at')

/-- A write of 1 to START (R260): no effect while not IDLE. The count that the coordinate stands on can give P_0 its instant
(R257); one that has passed is START's (log 107). -/
def tgStart (s : State) (g : Fin 8) : State :=
  if tgState s g ≠ 0 then s
  else
    let o := (s.reg64 (Reg.TG_ORIGIN_LO g) (Reg.TG_ORIGIN_HI g)).toInt
    let c := sourceCoord s g
    let pitch : Int := (tgPitch s g).toNat
    let p0 := if c < o then o else o + ((c - o) / pitch + 1) * pitch
    let s := setGrp s g { grp s g with next := BitVec.ofInt 64 p0, edges := (lastEdge s g).toList, since := toSteps s.now,
                                       delayed := none }
    raiseTg (setTgState s g 1) g 1

/-- TG_START (R260). -/
def execTgStart (g : Fin 8) (s : State) : Host.Outcome State Fault Refusal := .next (tgStart s g)

/-- A write of 1 to STOP (R260): no effect while IDLE. -/
def tgStop (s : State) (g : Fin 8) : State :=
  if tgState s g = 0 then s
  else
    let s := setGrp s g { grp s g with edges := [], delayed := none }
    raiseTg ((setTgState s g 0).setFld (Reg.TG_STAT g) F.TG_STAT_DELAYED 0) g 2

/-- TG_STOP (R260). -/
def execTgStop (g : Fin 8) (s : State) : Host.Outcome State Fault Refusal := .next (tgStop s g)

/-! ## The actuation scheduler (R264–R270) -/

/-- `AS_OUT` with cause 1 REFUSED, 2 LATE, 3 DROPPED, 4 NOT_ACTUATOR or 5 FULL, and the output (R501). -/
def raiseAs (s : State) (o cause : Nat) : State := s.raise (611 + 4 * (o / 2)) (payCause cause o)

def setActions (s : State) (as : List Action) : State :=
  (modifyTm s (fun t => { t with actions := as })).setFld Reg.AS_STAT F.AS_STAT_PENDING as.length

/-- An action that fires at instant `at'`: a pulse ends `SO_WIDTH` later (R267). -/
def actionFires (s : State) (a : Action) (at' : Nat) : Action :=
  let w := s.fld (Reg.SO_WIDTH (a.out.val / 2) (a.out.val % 2)) F.SO_WIDTH_WIDTH * 32
  { a with active := true, due := some at', until' := if a.gate then none else some (at' + w) }

/-- An action arrives (R265, R266): its output's settings are read now. -/
def arriveAction (s : State) (o : Fin 32) (start stop : BitVec 64) (blob : BitVec 32) : State :=
  let ch := o.val / 2
  let k := o.val % 2
  let mode := soMode s o
  let dist := (s.reg64 (Reg.ACT_DIST_LO ch k) (Reg.ACT_DIST_HI ch k)).toInt
  let gate := mode = 5
  let pre : Int := if gate then s.fld (Reg.ACT_PREPOST ch k) F.ACT_PREPOST_PRE * 65536 else 0
  let post : Int := if gate then s.fld (Reg.ACT_PREPOST ch k) F.ACT_PREPOST_POST * 65536 else 0
  let tOn := start.toInt + dist - pre
  let tOff := stop.toInt + dist + post
  let c := sourceCoord s (soGroup s o)
  let late : Int := s.fld (Reg.ACT_LATE ch k) F.ACT_LATE_LATE * 65536
  let lead := s.fld (Reg.ACT_LEAD ch k) F.ACT_LEAD_LEAD
  let due := if lead = 0 then (lastEdge s (soGroup s o)).bind (edgeInstant true tOn) else none
  let a : Action := ⟨o, gate, tOn, tOff, lead, false, due, blob, none⟩
  if mode ≠ 4 ∧ mode ≠ 5 then raiseAs (s.bump Reg.AS_DROP F.AS_DROP_COUNT) o 4
  else if c < tOn then setActions s (s.tm.actions ++ [a])
  else if (mode = 4 ∧ c - tOn ≤ late) ∨ (mode = 5 ∧ c < tOff) then
    let s := setActions s (s.tm.actions ++ [actionFires s a (toSteps s.now)])
    raiseAs ((s.bump Reg.AS_LATE F.AS_LATE_COUNT).bump Reg.AS_FIRED F.AS_FIRED_COUNT) o 2
  else raiseAs (s.bump Reg.AS_DROP F.AS_DROP_COUNT) o 3

/-- MARKING_MESSAGE (R266): the oldest marking message of the tracker arrives. -/
def execMarkingMessage (s : State) : Host.Outcome State Fault Refusal :=
  match s.tm.marks with
  | [] => .next s
  | m :: rest => .next (arriveAction (modifyTm s (fun t => { t with marks := rest })) m.out m.start m.stop m.blob)

/-- ACTION_FIRE (R267): entry `k` of the scheduler reaches its fire instant. -/
def execActionFire (k : Fin 256) (s : State) : Host.Outcome State Fault Refusal :=
  match s.tm.actions[k.val]? with
  | none => .next s
  | some a =>
    match a.due with
    | none => .next s
    | some d =>
      if a.active ∨ toSteps s.now < d then .next s
      else .next ((setActions s (s.tm.actions.set k.val (actionFires s a d))).bump Reg.AS_FIRED F.AS_FIRED_COUNT)

/-- The entry ends and its credit returns (R264). -/
def endAction (s : State) (k : Nat) : State := setActions s (s.tm.actions.eraseIdx k)

/-- GATE_END (R267): the coordinate has reached T_off of the gate of entry `k`. -/
def execGateEnd (k : Fin 256) (s : State) : Host.Outcome State Fault Refusal :=
  match s.tm.actions[k.val]? with
  | none => .next s
  | some a => .next (if a.active && a.gate && a.tOff ≤ sourceCoord s (soGroup s a.out) then endAction s k else s)

/-- ACTUATOR_PULSE_END (R267): the pulse of entry `k` has lasted `SO_WIDTH`. -/
def execActuatorPulseEnd (k : Fin 256) (s : State) : Host.Outcome State Fault Refusal :=
  match s.tm.actions[k.val]? with
  | none => .next s
  | some a => .next (if a.active && a.until'.any (fun t => t ≤ toSteps s.now) then endAction s k else s)

/-- A write of 1 to FLUSH (R268). -/
def asFlush (s : State) : State :=
  let pending := s.tm.actions.filter (fun a => !a.active)
  (setActions s []).bump Reg.AS_DROP F.AS_DROP_COUNT pending.length

/-- FLUSH (R268). -/
def execFlush (s : State) : Host.Outcome State Fault Refusal := .next (asFlush s)

/-- A write of `AS_POST_CTL` (R270). -/
def asPost (s : State) (val : BitVec 32) : State :=
  let a := Reg.AS_POST_CTL
  let s := s.setFld a F.AS_POST_CTL_OUT (F.AS_POST_CTL_OUT.get val)
  if F.AS_POST_CTL_GO.get val = 0 then s
  else
    let o := F.AS_POST_CTL_OUT.get val
    if 256 ≤ s.tm.actions.length + s.tm.marks.length then raiseAs (s.setFld a F.AS_POST_CTL_RESULT 2) o 5
    else
      let p := s.reg64 Reg.AS_POST_LO Reg.AS_POST_HI
      arriveAction (s.setFld a F.AS_POST_CTL_RESULT 1) (Fin.ofNat 32 o) p p 0xFFFFFFFF

/-- AS_POST (R270). -/
def execAsPost (val : BitVec 32) (s : State) : Host.Outcome State Fault Refusal := .next (asPost s val)

/-! ## Device time, PTP and PPS (R271–R276) -/

/-- PTP time: device time plus `TM_EPOCH` (R272). -/
def ptpTime (s : State) : BitVec 64 := s.now + s.reg64 Reg.TM_EPOCH_LO Reg.TM_EPOCH_HI

/-- A write of `TM_EPOCH_HI` applies both words (R272); a strand follower ignores it. -/
def writeEpochHi (s : State) (val : BitVec 32) : State :=
  if tmRole s = 2 then s
  else
    let s := (s.setReg Reg.TM_EPOCH_LO s.tm.epochLo).setReg Reg.TM_EPOCH_HI val
    (s.setFld Reg.TM_STAT F.TM_STAT_EPOCH_SET 1).raise 740 0

/-- A write of `TM_EPOCH_LO` stages the low word. -/
def writeEpochLo (s : State) (val : BitVec 32) : State :=
  if tmRole s = 2 then s else modifyTm s (fun t => { t with epochLo := val })

/-- EPOCH_WRITE (R272). -/
def execEpochWrite (val : BitVec 32) (s : State) : Host.Outcome State Fault Refusal := .next (writeEpochHi s val)

/-- Port `e` runs as a PTP port (R273). -/
def ptpOn (s : State) (e : Fin 8) : Bool := (s.fld Reg.PTP_CTL F.PTP_CTL_PORTS).testBit e.val

/-- The transports that are in use, layer 2 being `true` (R273). -/
def ptpTransports (s : State) : List Bool :=
  let k := s.fld Reg.PTP_CTL F.PTP_CTL_TRANSPORT
  (if k.testBit 0 then [false] else []) ++ (if k.testBit 1 then [true] else [])

/-- Where a PTP message goes (R273): the layer 2 address 01-1B-19-00-00-00 under Ethertype 0x88F7, or 224.0.1.129 at port 319
for event messages and 320 for general ones. -/
def ptpDest (layer2 event : Bool) : List Byte × Nat :=
  if layer2 then ([0x01, 0x1B, 0x19, 0, 0, 0], 0x88F7) else ([224, 0, 1, 129], if event then 319 else 320)

/-- A message of port `e` on a transport (R273): two-step, so the correctionField is 0. -/
def ptpMsg (s : State) (e : Fin 8) (layer2 : Bool) (kind : BitVec 2) (log : Fld) (time : BitVec 64) (fields : List Byte) : PtpMsg :=
  ⟨e, layer2, kind, BitVec.ofNat 8 (s.fld Reg.PTP_CTL F.PTP_CTL_DOMAIN), BitVec.ofNat 8 (s.fld Reg.PTP_INT log), 0, time, fields⟩

def sendPtp (s : State) (ms : List PtpMsg) : State := modifyTm s (fun t => { t with ptpOut := ms })

/-- SYNC (R273, R275): on each transport a Sync, followed by a Follow_Up with the Sync's timestamp. The Sync of a two-step
clock carries no timestamp of its own: 0 stands for it (log 109). -/
def execSync (e : Fin 8) (s : State) : Host.Outcome State Fault Refusal :=
  let ts := ptpTransports s
  if !ptpOn s e ∨ ts.isEmpty then .next s
  else
    let ms := ts.flatMap (fun t =>
      [ptpMsg s e t 0 F.PTP_INT_LOG_SYNC 0 [], ptpMsg s e t 1 F.PTP_INT_LOG_SYNC (ptpTime s) []])
    .next (sendPtp (s.bump Reg.PTP_SYNC_TX F.PTP_SYNC_TX_COUNT ts.length) ms)

/-- The fields of an Announce of port `e` (R274): clockIdentity, portNumber, priority1, priority2, clockClass,
clockAccuracy, offsetScaledLogVariance, stepsRemoved, timeSource, ptpTimescale, currentUtcOffset and its valid bit. -/
def announceFields (s : State) (e : Nat) : List Byte :=
  let hi := (s.reg (Reg.LP_MAC_HI 0)).toNat
  let lo := (s.reg (Reg.LP_MAC_LO 0)).toNat
  let q (f : Fld) : Byte := BitVec.ofNat 8 (s.fld Reg.PTP_QUAL f)
  [BitVec.ofNat 8 (hi / 256), BitVec.ofNat 8 hi, BitVec.ofNat 8 (lo / 2 ^ 24), 0xFF, 0xFE, BitVec.ofNat 8 (lo / 2 ^ 16),
   BitVec.ofNat 8 (lo / 2 ^ 8), BitVec.ofNat 8 lo, 0, BitVec.ofNat 8 (1 + e), q F.PTP_QUAL_PRIORITY1,
   q F.PTP_QUAL_PRIORITY2, q F.PTP_QUAL_CLOCK_CLASS, q F.PTP_QUAL_CLOCK_ACC, 0xFF, 0xFF, 0, 0, 0xA0,
   BitVec.ofNat 8 (s.fld Reg.PTP_CTL F.PTP_CTL_PTP_TS), BitVec.ofNat 8 (s.fld Reg.PTP_UTC F.PTP_UTC_UTC_OFFSET / 256),
   BitVec.ofNat 8 (s.fld Reg.PTP_UTC F.PTP_UTC_UTC_OFFSET), BitVec.ofNat 8 (s.fld Reg.PTP_CTL F.PTP_CTL_UTC_VALID)]

/-- ANNOUNCE (R274). -/
def execAnnounce (e : Fin 8) (s : State) : Host.Outcome State Fault Refusal :=
  let ts := ptpTransports s
  .next (if ptpOn s e ∧ !ts.isEmpty then
    sendPtp s (ts.map (fun t => ptpMsg s e t 2 F.PTP_INT_LOG_ANN (ptpTime s) (announceFields s e))) else s)

/-- DELAY_REQ (R273, R275): a Delay_Req on a transport, in a domain, with its sourcePortIdentity and sequenceId. Up to
256 a second are answered on a port, each with the identity that it carries; one of another domain, or on a transport or a port
that is not in use, is discarded. -/
def execDelayReq (q : DelayRequest) (s : State) : Host.Outcome State Fault Refusal :=
  let e := q.port
  let sec := s.now.toNat / 1000000000
  let n := if (s.tm.dreq[e]).1 = sec then (s.tm.dreq[e]).2 else 0
  let mine := ptpOn s e && (ptpTransports s).contains q.layer2 && q.domain.toNat == s.fld Reg.PTP_CTL F.PTP_CTL_DOMAIN
  if !mine ∨ 256 ≤ n then .next (s.bump Reg.PTP_DISCARD F.PTP_DISCARD_COUNT)
  else
    let s := modifyTm s (fun t => { t with dreq := t.dreq.set e (sec, n + 1) })
    .next (sendPtp (s.bump Reg.PTP_DREQ_RX F.PTP_DREQ_RX_COUNT) [ptpMsg s e q.layer2 3 F.PTP_INT_LOG_DREQ (ptpTime s) q.ident])

/-- PPS (R272, R276): a whole second of PTP time falls in this TCLK cycle; output `o` rises `SO_DELAY` after it. A second that
has given its pulse gives no other. -/
def execPps (o : Fin 32) (s : State) : Host.Outcome State Fault Refusal :=
  let past := (ptpTime s).toNat % 1000000000
  let whole := (s.now.toNat - past) * 32 / 5
  let rise := whole + s.fld (Reg.SO_DELAY (o.val / 2) (o.val % 2)) F.SO_DELAY_DELAY
  .next (if soMode s o = 6 ∧ past < 5 ∧ (s.tm.pulses[o]).all (fun p => p.1 != rise) then addPulse s o whole else s)

end Sys2Proof.Machine
end

