-- ==== Sys2Proof/Machine/Strand.lean ====
section
/-!
DEFINITION. The strand (R277–R282): meanings of STRAND_TIME_SEND to STRAND_LANE_LOSS and STRAND_LINK_UP. A side is named
by `east`; a message acts only while its side is UP.
-/

namespace Sys2Proof.Machine

/-- STATE of a side: 0 DOWN, 1 TRAINING, 2 UP. -/
def sideFld (east : Bool) : Fld := if east then F.SL_STAT_STATE_E else F.SL_STAT_STATE_W
def lanesFld (east : Bool) : Fld := if east then F.SL_STAT_LANES_UP_E else F.SL_STAT_LANES_UP_W
def sideUp (s : State) (east : Bool) : Bool := slOn s && s.fld Reg.SL_STAT (sideFld east) == 2

/-- `SL_LINK` of a side with cause 1 UP, 2 DOWN or 3 RETRAIN (R283). -/
def raiseLink (s : State) (east : Bool) (cause : Nat) : State := s.raise (if east then 736 else 737) (payCause cause)

/-- The bytes of a message as they travel (R277): its content and its CRC-32 under R143. -/
def strandFrame (m : StrandMsg) : List Byte :=
  let b := Config.strandBytes m
  b ++ leBytes 4 (crc32 b).toNat

/-- The 64-byte blocks of a message, the last padded with 0; block `k` travels on lane `k` mod `lanes` (R140, R277). -/
def strandBlocks (m : StrandMsg) (lanes : Nat) : List (Nat × List Byte) :=
  let f := strandFrame m
  (List.range ((f.length + 63) / 64)).map (fun k => (k % lanes, ((f.drop (64 * k)).take 64 ++ List.replicate 64 0).take 64))

/-- A side takes a message with the CRC that it carries: none while it is not UP; one that fails its check is counted
(R277). -/
def takeMessage (s : State) (east : Bool) (m : StrandMsg) (crc : BitVec 32) (f : State → State) : State :=
  if !sideUp s east then s else if crc32 (Config.strandBytes m) ≠ crc then s.bump Reg.SL_ERR F.SL_ERR_CRC else f s

/-- PTP offset of this device as TIME messages carry it (R272). -/
def epochOf (s : State) : BitVec 64 := s.reg64 Reg.TM_EPOCH_LO Reg.TM_EPOCH_HI

/-- STRAND_TIME_SEND (R278): device time, with the time at which the neighbour's last TIME message came. -/
def execStrandTimeSend (east : Bool) (s : State) : Host.Outcome State Fault Refusal :=
  .next (if sideUp s east then strandSend s east (.time s.now (if east then s.tm.echoE else s.tm.echoW) (epochOf s)) else s)

/-- What a follower does with a measured offset to the master's time in ps (R279): before its first lock one step; then the
offset is steered away. `SL_OFFSET` shows it, and the lock follows it. -/
def steer (s : State) (offset : BitVec 32) : State :=
  let step := !s.tm.stepped
  let ns := offset.toInt / 1000
  let s := if step then { s with now := s.now + BitVec.ofInt 64 ns, tm := { s.tm with stepped := true } } else s
  let off : Int := if step then offset.toInt - 1000 * ns else offset.toInt
  let s := s.setReg Reg.SL_OFFSET (BitVec.ofInt 32 off)
  let lock := s.flag Reg.TM_STAT F.TM_STAT_LOCKED
  let since := if off.natAbs ≤ 2000 then s.tm.within.or (some s.now) else none
  let s := modifyTm s (fun t => { t with within := since, trim := 2 * off })
  if lock then
    if 10000 < off.natAbs then (s.setFld Reg.TM_STAT F.TM_STAT_LOCKED 0).raise 738 (payCause 2) else s
  else if since.any (fun t => t.toNat + 10000000 ≤ s.now.toNat) then
    (s.setFld Reg.TM_STAT F.TM_STAT_LOCKED 1).raise 738 (payCause 1)
  else s

/-- The master lies on this side of the device. -/
def masterSide (s : State) (east : Bool) : Bool :=
  let m := s.fld Reg.SL_CTL F.SL_CTL_MASTER
  if east then slPos s < m else m < slPos s

/-- A follower's epoch follows the master's (R272). -/
def followEpoch (s : State) (epoch : BitVec 64) : State := s.setReg64 Reg.TM_EPOCH_LO Reg.TM_EPOCH_HI epoch

/-- STRAND_TIME_MESSAGE (R272, R278, R279): the receive time is echoed in the next TIME message of the side; a follower takes
the epoch and steers by the offset to the master's time, in ps, that the message measures. -/
def execStrandTimeMessage (east : Bool) (m : TimeMessage) (offset : BitVec 32) (s : State) : Host.Outcome State Fault Refusal :=
  .next (takeMessage s east (.time m.sent m.echo m.epoch) m.crc (fun s =>
    let s := modifyTm s (fun t => if east then { t with echoE := s.now } else { t with echoW := s.now })
    if tmRole s = 2 ∧ masterSide s east then steer (followEpoch s m.epoch) offset else s))

/-- A line that a follower does not fire (R280): lost for every head of its group, and counted. -/
def lateLine (s : State) (f : StrandFire) : State :=
  loseGroupLine ((s.bump Reg.SL_LATE F.SL_LATE_COUNT).raise 739 (payLine 0 f.index f.group.val)) f.group
    ⟨f.group, f.index, f.coord, f.time⟩

/-- The line of a LINE message in a follower (R269, R280): the coordinate of its group's source advances to the line's point;
the line is kept for its fire instant, and lost where the follower is not locked or the instant has passed. -/
def followLine (s : State) (f : StrandFire) : State :=
  if s.fld (Reg.TG_CTL f.group) F.TG_CTL_SRC ≠ 17 then s
  else
    let s := groupAdvance s f.group f.coord f.fire.toNat false
    if tgState s f.group = 0 then s
    else if s.flag Reg.TM_STAT F.TM_STAT_LOCKED ∧ toSteps s.now ≤ f.fire.toNat then
      modifyTm s (fun t => { t with fires := t.fires ++ [f] })
    else lateLine s f

/-- STRAND_LINE_MESSAGE (R278, R280): it goes on to the farther side, then acts here. -/
def execStrandLineMessage (east : Bool) (crc : BitVec 32) (group : Fin 8) (index coord time fire : BitVec 64)
    (expCode : BitVec 16) (strobe : Bool) (s : State) : Host.Outcome State Fault Refusal :=
  let m : StrandMsg := .line group index coord time fire expCode strobe
  .next (takeMessage s east m crc (fun s =>
    if tmRole s ≠ 2 ∨ !masterSide s east then s
    else
      let s := if sideUp s (!east) then strandQueue s (!east) true m else s
      followLine s ⟨group, index, coord, time, fire, expCode, strobe⟩))

/-- FOLLOWER_FIRE (R280): the oldest line kept reaches its fire instant; a follower that is no longer locked does not fire
it. -/
def execFollowerFire (s : State) : Host.Outcome State Fault Refusal :=
  match s.tm.fires with
  | [] => .next s
  | f :: rest =>
    if toSteps s.now < f.fire.toNat then .next s
    else
      let s := modifyTm s (fun t => { t with fires := rest })
      if tgState s f.group = 0 then .next s
      else if !s.flag Reg.TM_STAT F.TM_STAT_LOCKED then .next (lateLine s f)
      else
        let s := setTgIndex (setTgState s f.group 2) f.group (f.index + 1)
        .next (triggerGroup s f.group ⟨f.group, f.index, f.coord, f.time⟩ f.fire.toNat f.expCode f.strobe)

/-- STRAND_RED_MESSAGE (R282): the partial of the devices beyond the side joins the line of its controller. -/
def execStrandRedMessage (east : Bool) (crc : BitVec 32) (n : Fin 17) (index : BitVec 64) (post : StrandPost) (s : State) :
    Host.Outcome State Fault Refusal :=
  .next (takeMessage s east (.red n index post) crc (fun s =>
    let c := s.ctl n
    redLeave (s.setCtl n { c with redIn := c.redIn ++ [(east, index, post)] }) n))

/-- HALO_MESSAGE (R281): the neighbour's captured rows enter the halo store of span `n`'s edge, which keeps 4 lines. -/
def execHaloMessage (east : Bool) (crc : BitVec 32) (n : Fin 17) (line : BitVec 64) (cols : Fin 65)
    (planes : List (BitVec 64)) (s : State) : Host.Outcome State Fault Refusal :=
  .next (takeMessage s east (.halo n line cols.val planes) crc (fun s =>
    let x := s.array n
    let h : Halo := ⟨line, cols.val, planes.take 64⟩
    let put (l : List Halo) : List Halo := ((h :: l.filter (fun k => k.line != line)).take 4)
    if east then (if strandEast s n then s.setArray n { x with halosE := put x.halosE } else s)
    else if strandWest s n then s.setArray n { x with halosW := put x.halosW } else s))

/-- Results of pending lines do not wait for a side that has left UP, or has just come back (R282). -/
def sideLost (s : State) (east : Bool) : State :=
  (List.finRange 17).foldl (fun s n => redLeave (redCut (redLeave s n) east n) n) s

/-- The lanes of a side that have not been dropped since it was enabled (R277). -/
def sideLanes (s : State) (east : Bool) : BitVec 4 := if east then s.tm.lanesE else s.tm.lanesW
def setSideLanes (s : State) (east : Bool) (l : BitVec 4) : State :=
  modifyTm s (fun t => if east then { t with lanesE := l } else { t with lanesW := l })

/-- The lanes that `SL_CTL` gives a side: none, one, two or four (R277, R284). -/
def configuredLanes (s : State) (east : Bool) : BitVec 4 :=
  let k := s.fld Reg.SL_CTL (if east then F.SL_CTL_LANES_E else F.SL_CTL_LANES_W)
  if k = 0 then 0 else if k = 1 then 1 else if k = 2 then 3 else 15

/-- STRAND_LANE_LOSS (R277): a lane loses lock and is dropped; the side retrains on the lanes that remain, or is DOWN. -/
def execStrandLaneLoss (east : Bool) (lane : Fin 4) (s : State) : Host.Outcome State Fault Refusal :=
  let a := Reg.SL_STAT
  let up := s.fld a (lanesFld east)
  if !slOn s ∨ !up.testBit lane.val then .next s
  else
    let left := BitVec.ofNat 4 (up - 2 ^ lane.val)
    let s := setSideLanes (s.setFld a (lanesFld east) left.toNat) east left
    if left = 0 then .next (sideLost (raiseLink (s.setFld a (sideFld east) 0) east 2) east)
    else .next (sideLost (raiseLink ((s.setFld a (sideFld east) 1).bump Reg.SL_ERR F.SL_ERR_RETRAIN) east 3) east)

/-- STRAND_LINK_UP (R277): training of a side completes on lanes that it has. -/
def execStrandLinkUp (east : Bool) (lanes : BitVec 4) (s : State) : Host.Outcome State Fault Refusal :=
  if !slOn s ∨ s.fld Reg.SL_STAT (sideFld east) ≠ 1 ∨ lanes = 0 ∨ lanes &&& ~~~(sideLanes s east) ≠ 0 then .next s
  else
    let s := setSideLanes s east lanes
    let s := (s.setFld Reg.SL_STAT (sideFld east) 2).setFld Reg.SL_STAT (lanesFld east) lanes.toNat
    .next (raiseLink (sideLost s east) east 1)

/-- A side follows a change of `SL_CTL.EN` (R277, R284): enabled, it trains on the lanes that it is given; disabled, it is
DOWN. -/
def enableSide (s : State) (east : Bool) : State :=
  if slOn s then
    if configuredLanes s east = 0 then s
    else setSideLanes (s.setFld Reg.SL_STAT (sideFld east) 1) east (configuredLanes s east)
  else
    let was := s.fld Reg.SL_STAT (sideFld east)
    let s := (s.setFld Reg.SL_STAT (sideFld east) 0).setFld Reg.SL_STAT (lanesFld east) 0
    if was = 2 then sideLost (raiseLink s east 2) east else s

/-- `TM_STAT.ROLE` follows `SL_CTL` (R271, R284). -/
def refreshRole (s : State) : State :=
  let role := if !slOn s then 0 else if s.fld Reg.SL_CTL F.SL_CTL_POS = s.fld Reg.SL_CTL F.SL_CTL_MASTER then 1 else 2
  s.setFld Reg.TM_STAT F.TM_STAT_ROLE role

/-- A write of `SL_CTL` that leaves `s` with its new fields; `was` is EN before it. -/
def strandControl (s : State) (was : Bool) : State :=
  let s := refreshRole s
  if slOn s = was then s else enableSide (enableSide s true) false

/-! ## Time that passes (R271, R278, R279) -/

/-- Device time goes on by one TCLK cycle: 5 ns, and in a follower what is left to steer, at most 500 ppm of them, that is
5 half picoseconds a cycle. -/
def advanceTime (s : State) : State :=
  let d : Int := max (-5) (min 5 s.tm.trim)
  let p : Int := s.tm.phase + d
  { s with now := s.now + 5 + BitVec.ofInt 64 (p / 2000), tm := { s.tm with phase := (p % 2000).toNat, trim := s.tm.trim - d } }

/-- Each strand side that is UP sends the first message that waits for it (R278). -/
def strandLeave (s : State) (east : Bool) : State :=
  match s.slOut.find? (fun x => x.east == east) with
  | none => s
  | some x =>
    if !sideUp s east then s
    else
      let s := { s with slOut := s.slOut.erase x }
      modifyTm s (fun t => if east then { t with wireE := some x.msg } else { t with wireW := some x.msg })

/-- One TCLK cycle in which no command comes (log 20). -/
def tick (s : State) : State := strandLeave (strandLeave (advanceTime s) true) false

end Sys2Proof.Machine
end

