-- ==== Sys2Proof/Machine/Causeway.lean ====
section
/-!
DEFINITION. The causeway, the piers and DDR5 (10) beyond the delivery of packets: meanings of CLASS0_RELEASE to
HUB_TEMP_READ.
-/

namespace Sys2Proof.Machine

/-! ## Routers and epochs (R285, R299–R301) -/

/-- The router of endpoint `i` (R498). -/
def routerOf (s : State) (i : Nat) : Nat :=
  8 * s.fld (Reg.CW_EP_STAT i) F.CW_EP_STAT_Y + s.fld (Reg.CW_EP_STAT i) F.CW_EP_STAT_X

/-- The worms of the old epoch that the routers hold, each with its router: a packet in flight stands at the router of its
source, the one it has entered (assumption log, entry 102), a head that waits at a draining endpoint at that endpoint's. -/
def oldWorms (s : State) : List (Packet × Nat) :=
  ((s.cw.net.map (fun p => (p, routerOf s p.src))) ++ (s.cw.held.map (fun p => (p, routerOf s p.dst)))).filter
    (fun x => x.1.epoch != routeEpoch s)

/-- While DRAINED is 0, every `RT_DRAIN` shows the old-epoch worms that its router holds. -/
def refreshDrain (s : State) : State :=
  if s.flag Reg.CW_STAT F.CW_STAT_DRAINED then s
  else
    let ws := (oldWorms s).map (·.2)
    (List.range 48).foldl (fun s r => s.setFld (Reg.RT_DRAIN r) F.RT_DRAIN_COUNT (min 255 (ws.count r))) s

/-- A write of 1 to `CW_CTL.FLIP` (R301): no effect while DRAINED is 0. -/
def routeFlip (s : State) : State :=
  if !s.flag Reg.CW_STAT F.CW_STAT_DRAINED then s
  else
    let s := (s.setFld Reg.CW_STAT F.CW_STAT_EPOCH (!routeEpoch s).toNat).setFld Reg.CW_STAT F.CW_STAT_DRAINED 0
    refreshDrain (s.setFld Reg.CW_CTL F.CW_CTL_FLIP 1)

/-- FLIP (R301). -/
def execFlip (s : State) : Host.Outcome State Fault Refusal := .next (routeFlip s)

/-- EPOCH_DRAINED (R301): no worm of the old epoch remains. -/
def execEpochDrained (s : State) : Host.Outcome State Fault Refusal :=
  if s.flag Reg.CW_STAT F.CW_STAT_DRAINED ∨ oldWorms s ≠ [] then .next s
  else .next ((((refreshDrain s).setFld Reg.CW_STAT F.CW_STAT_DRAINED 1).setFld Reg.CW_CTL F.CW_CTL_FLIP 0).raise 838 0)

/-! ## Class 0 (R291) -/

/-- CLASS0_RELEASE (R291): the oldest packet in the shaper of endpoint `i` enters the mesh, 64 FCLK cycles or more after the
last one; a DRAINING, ISOLATED or OFF endpoint starts no worm (R296). -/
def execClass0Release (i : Fin 80) (s : State) : Host.Outcome State Fault Refusal :=
  let x := s.cw.shapers[i]
  match x.waiting with
  | [] => .next s
  | p :: rest =>
    if epState s i = 0 ∧ shaperFree s x then
      .next (sendPacket (modifyCw s (fun c => { c with
        shapers := c.shapers.set i { x with waiting := rest, last := some s.now } })) p)
    else .next s

/-! ## Isolation (R295–R297) -/

/-- The response to a request leaves with a status: 0 OK, 1 UNMAPPED, 2 ISOLATED, 3 STALE_ROLE, 4 ECC. -/
def answerPacket (s : State) (p : Packet) (status : BitVec 3) (data : List Byte) : State :=
  sendPacket s (responseTo s p status data)

/-- A packet that its router absorbs: a READ is answered with zeros and a WRITE with a WACK of the status (R295); the router
sends the answer, whatever the endpoint's state. -/
def absorb (s : State) (p : Packet) (status : BitVec 3) : State :=
  if p.kind = 0 then enterMesh s (responseTo s p status (List.replicate p.count 0))
  else if p.kind = 1 then enterMesh s (responseTo s p status []) else s

/-- STATE of endpoint `i` changes (R296, R312). -/
def enterEpState (s : State) (i st : Nat) : State := (s.setFld (Reg.CW_EP_STAT i) F.CW_EP_STAT_STATE st).raise 836 0

/-- Endpoint `i` begins to drain (R296). -/
def startDrain (s : State) (i : Nat) : State :=
  modifyCw (enterEpState s i 1) (fun c => { c with drainAt := c.drainAt.setIfInBounds i s.now })

/-- A write of 1 to `CW_EP_CTL.ISOLATE` (R296): no effect unless ONLINE. -/
def isolateEp (s : State) (i : Nat) : State :=
  if epState s i = 0 then (startDrain s i).setFld (Reg.CW_EP_CTL i) F.CW_EP_CTL_ISOLATE 1 else s

/-- FCLK cycles that endpoint `i` may drain: 32 where its power domain goes down (R296), and for endpoint 77 while the die-to-die
link is not up (R399). -/
def drainLimit (s : State) (i : Fin 80) : Nat :=
  if s.cw.down.contains i ∨ (i = 77 ∧ !linkUp s) then 32 else s.fld (Reg.CW_EP_CTL i) F.CW_EP_CTL_DRAIN_LIMIT

/-- ISOLATE (R296). -/
def execIsolate (i : Fin 80) (s : State) : Host.Outcome State Fault Refusal := .next (isolateEp s i)

/-- A worm in flight is cut (R296, R297): an inbound one is discarded and counted in PRB_ISO; an outbound one reaches its
destination with a tail marked truncated, through the die-to-die link where that lies on its way (R397), is counted there
and raises CW_TRUNC. -/
def cutWorm (s : State) (i : Fin 80) (p : Packet) : State :=
  let s := modifyCw s (fun c => { c with net := c.net.erase p })
  if p.dst = i then probeIso s i
  else
    let tail : LinkFlit := ⟨Fin.ofNat 4 p.cls.toNat, none, true, true, []⟩
    let s := if p.dst = 77 ∧ linkUp s then crossFlits s 0 [tail] else if p.src = 77 ∧ linkUp s then crossFlits s 1 [tail] else s
    (probeStray s p.dst).raise 837 0

/-- What waits in the module for the die-to-die link is cut (R296): worms toward endpoint 77 are discarded and counted in
PRB_ISO; those that have not entered the mesh are kept like any that an endpoint has not started. -/
def cutModule (s : State) : State :=
  let ins := (ucieWay s 0).worms
  let outs := (ucieWay s 1).worms
  let s := modifyWay (modifyWay s 0 (fun w => { w with worms := [] })) 1 (fun w => { w with worms := [] })
  modifyCw (ins.foldl (fun s _ => probeIso s 77) s) (fun c => { c with unsent := c.unsent ++ outs })

/-- DRAIN_CUT (R296): after DRAIN_LIMIT FCLK cycles of draining, the granted worms of endpoint `i` that have not completed are
cut: all that it has started, and of those on their way to it the ones at the positions `cuts` among the packets in
flight. -/
def execDrainCut (i : Fin 80) (cuts : List Nat) (s : State) : Host.Outcome State Fault Refusal :=
  if epState s i ≠ 1 ∨ s.now.toNat * 4 < (s.cw.drainAt[i]).toNat * 4 + drainLimit s i * 5 then .next s
  else
    let ws := (cuts.dedup.filterMap (fun k => s.cw.net[k]?)).filter (fun p => p.dst == i && p.src != i) ++
      s.cw.net.filter (fun p => p.src == i)
    let s := ws.foldl (fun s p => cutWorm s i p) s
    .next (refreshDrain (if i = 77 then cutModule s else s))

/-- The endpoint becomes ISOLATED or OFF: waiting heads are handled under R295. -/
def finishIsolation (s : State) (i : Fin 80) (st : Nat) : State :=
  let s := (enterEpState s i st).setFld (Reg.CW_EP_CTL i) F.CW_EP_CTL_ISOLATE 0
  let hs := s.cw.held.filter (fun p => p.dst == i)
  let s := modifyCw s (fun c => { c with held := c.held.filter (fun p => p.dst != i), down := c.down.filter (· != i) })
  hs.foldl (fun s p => absorb (probeIso s i) p 2) s

/-- ENDPOINT_ISOLATED (R296): the worms that the endpoint has started are complete or cut; where its power domain goes down it
reads OFF, and what it had still to send is lost. -/
def execEndpointIsolated (i : Fin 80) (s : State) : Host.Outcome State Fault Refusal :=
  if epState s i ≠ 1 ∨ s.cw.net.any (fun p => p.src == i) ∨
      (i = 77 ∧ !((ucieWay s 0).worms ++ (ucieWay s 1).worms).isEmpty) then .next s
  else if s.cw.down.contains i then
    .next (modifyCw (finishIsolation s i 3) (fun c => { c with unsent := c.unsent.filter (fun p => p.src != i) }))
  else .next (finishIsolation s i 2)

/-- A write of 1 to `CW_EP_CTL.RELEASE` (R296): no effect unless ISOLATED. -/
def releaseEp (s : State) (i : Nat) : State := if epState s i = 2 then sendKept (enterEpState s i 0) i else s

/-- RELEASE (R296). -/
def execRelease (i : Fin 80) (s : State) : Host.Outcome State Fault Refusal := .next (releaseEp s i)

/-- The power domain of an endpoint goes down: it passes through the steps of R296 with a limit of 32 cycles, and
ENDPOINT_ISOLATED then makes it read OFF. -/
def powerDownEp (s : State) (i : Fin 80) : State :=
  let mark (s : State) : State := modifyCw s (fun c => { c with down := c.down.filter (· != i) ++ [i] })
  if epState s i = 3 then s else if epState s i = 2 then enterEpState s i 3
  else if epState s i = 1 then mark s else mark (startDrain s i)

/-- An endpoint whose power domain is up again reads ONLINE. -/
def powerUpEp (s : State) (i : Nat) : State :=
  let s := modifyCw s (fun c => { c with down := c.down.filter (fun j => j.val != i) })
  if epState s i = 3 then enterEpState s i 0 else s

/-! ## Piers (R302, R303) -/

/-- The direct-master number of a source; `none` for span traffic (R303). -/
def directMaster (src : Nat) : Option Nat :=
  if src < 17 then none else if src = 77 then some 0 else if 39 ≤ src ∧ src ≤ 42 then some (src - 38)
  else if 68 ≤ src ∧ src ≤ 75 then some (src - 63) else some 13

def pierAt (s : State) (p : Fin 16) : Pier := s.cw.piers[p]
def setPier (s : State) (p : Fin 16) (x : Pier) : State := modifyCw s (fun c => { c with piers := c.piers.set p x })

/-- The next access of a request: address, bytes, and whether it covers part of a 64-bit word of a write. -/
def pieceOf (j : MemJob) : Nat × Nat × Bool :=
  let a := j.req.addr.toNat + j.done
  let n := min (j.req.count - j.done) (32 - a % 32)
  (a, n, j.req.kind = 1 && (a % 8 != 0 || (a + n) % 8 != 0))

/-- The access of a request's turn is made; a request served in full is answered. -/
def serveJob (s : State) (p : Fin 16) (j : MemJob) : State :=
  let (a, n, _) := pieceOf j
  let r := if j.req.kind = 1 then
      (let w := pierWrite s a ((j.req.data.drop j.done).take n); (([] : List Byte), w.1, w.2))
    else pierRead s a n
  let j' : MemJob := { j with done := j.done + n, data := j.data ++ r.1, ecc := j.ecc || r.2.1 }
  let s := r.2.2
  let x := pierAt s p
  if j'.req.count ≤ j'.done then
    answerPacket (setPier s p { x with waiting := x.waiting.erase j, merge := none }) j'.req (if j'.ecc then 4 else 0) j'.data
  else setPier s p { x with waiting := x.waiting.map (fun k => if k = j then j' else k), merge := none }

/-- The direct request that the round robin reaches first after the last master served. -/
def nextDirect (x : Pier) : Option (Nat × MemJob) :=
  (List.range 14).findSome? (fun d =>
    let m := (x.last + 1 + d) % 14
    (x.waiting.find? (fun j => directMaster j.req.src == some m)).map (fun j => (m, j)))

/-- The load/store request of the lowest span. -/
def nextSpan (x : Pier) : Option MemJob :=
  (List.range 17).findSome? (fun n => x.waiting.find? (fun j => j.req.src.val == n))

/-- The checkpoint access that comes first: restores before snapshots, the lower span first within a kind (R303). -/
def nextCkpt (x : Pier) : Option (Bool × Fin 17) :=
  [true, false].findSome? (fun r => (List.finRange 17).findSome? (fun n => if x.ckpt.contains (r, n) then some (r, n) else none))

/-- Span accesses that lose the cycle are counted: load/store accesses but the one served, and the checkpoint accesses that
wait. -/
def countStalls (s : State) (p : Fin 16) (served : Option MemJob) : State :=
  let x := pierAt s p
  let lost := (x.waiting.filter (fun j => (directMaster j.req.src).isNone && some j != served)).length + x.ckpt.length
  s.bump (Reg.PIER_SPAN_STALL p) F.PIER_SPAN_STALL_COUNT lost

/-- Direct masters that wait while master `m` holds the port are counted. -/
def countConflicts (s : State) (p : Fin 16) (m : Nat) : State :=
  (List.range 14).foldl (fun s k =>
    if k ≠ m ∧ (pierAt s p).waiting.any (fun j => directMaster j.req.src == some k) then
      s.bump (Reg.PIER_CONF p k) F.PIER_CONF_COUNT
    else s) s

/-- PIER_ACCESS (R302, R303): one FCLK cycle of pier `p`. `ckpt` are accesses of checkpoint restores (true) and snapshots
that join those waiting; the bytes they move change with the copy's last step (R124, R125). A write of part of a word takes
two cycles. -/
def execPierAccess (p : Fin 16) (ckpt : List (Bool × Fin 17)) (ups : List Upset) (s : State) :
    Host.Outcome State Fault Refusal :=
  let s := applyUpsets s ups
  let s := setPier s p { pierAt s p with ckpt := (pierAt s p).ckpt ++ ckpt }
  let x := pierAt s p
  let start (s : State) (j : MemJob) : State :=
    if (pieceOf j).2.2 then setPier s p { pierAt s p with merge := some j.req.src } else serveJob s p j
  match x.merge with
  | some src =>
    match x.waiting.find? (fun j => j.req.src == src) with
    | none => .next (setPier s p { x with merge := none })
    | some j =>
      let s := match directMaster src with
        | some m => countConflicts s p m
        | none => s
      .next (serveJob (countStalls s p (some j)) p j)
  | none =>
    match nextDirect x with
    | some (m, j) =>
      let s := countConflicts (countStalls s p none) p m
      .next (start (setPier s p { pierAt s p with last := m }) j)
    | none =>
      match nextCkpt x with
      | some k => .next (countStalls (setPier s p { x with ckpt := x.ckpt.erase k }) p none)
      | none =>
        match nextSpan x with
        | none => .next s
        | some j => .next (start (countStalls s p (some j)) j)

/-! ## DDR5 (R304–R311) -/

/-- DDR5_ACCESS (R15, R306): controller `c` serves its oldest request. -/
def execDdr5Access (c : Fin 8) (ups : List Upset) (s : State) : Host.Outcome State Fault Refusal :=
  let s := applyUpsets s ups
  let x := ddrCtl s c
  match x.waiting with
  | [] => .next s
  | j :: rest =>
    let s := setDdr s c { x with waiting := rest }
    let a := j.req.addr.toNat
    let n := j.req.count
    if ddrCapacity s < a + n ∨ !ddrServes s c a n then .next (absorb (probeStray s 44) j.req 1)
    else if j.req.kind = 1 then
      let w := ddrWrite s a (j.req.data.take n)
      .next (answerPacket w.2 j.req (if w.1 then 4 else 0) [])
    else
      let r := ddrRead s a n
      .next (answerPacket r.2.2 j.req (if r.2.1 then 4 else 0) r.1)

/-- DDR5_REFRESH (R307): rows keep their contents; nothing that software can see changes. -/
def execDdr5Refresh (_c : Fin 8) (s : State) : Host.Outcome State Fault Refusal := .next s

/-- MR4_READ (R307): each change to or from the doubled rate shows in HOT and raises D5_TEMP. -/
def execMr4Read (c : Fin 8) (doubled : Bool) (s : State) : Host.Outcome State Fault Refusal :=
  let a := Reg.D5_STAT c
  if s.fld a F.D5_STAT_STATE ≠ 2 ∨ s.flag a F.D5_STAT_HOT = doubled then .next s
  else .next ((s.setFld a F.D5_STAT_HOT doubled.toNat).raise (901 + 8 * c.val) 0)

/-- `ABT_STAT.BOOT` (R378): 0 ROM, 1 FIRMWARE, 2 DECK, 3 MEMORY, 4 HEADS, 5 RUNNING, 6 NO_IMAGE. -/
def bootState (s : State) : Nat := s.fld Reg.ABT_STAT F.ABT_STAT_BOOT
def setBoot (s : State) (v : Nat) : State := s.setFld Reg.ABT_STAT F.ABT_STAT_BOOT v

/-- ABT_BOOT (R403): 1 FW_FALLBACK, 2 IMAGE_FALLBACK, 3 NO_IMAGE, 4 RUNNING, 5 ABUT_RESTART. -/
def raiseBoot (s : State) (cause : Nat) (x : Nat := 0) : State := s.raise 992 (payCause cause x)

/-- The address of the fallback configuration (R409). -/
def fallbackIp : BitVec 32 :=
  let b (i : Nat) : Nat := (Config.serial.getD i 0).toNat
  BitVec.ofNat 32 ((169 * 256 + 254) * 65536 + (1 + b 14 % 254) * 256 + b 15)

/-- Every line port takes the fallback configuration and tries its first rate (R409). -/
def fallbackPorts (s : State) : State :=
  let s := { s with rn := { s.rn with rateAt := Vector.replicate 8 (some s.now) } }
  (List.range 8).foldl (fun s e =>
    let c : BitVec 32 := F.LP_CTL_ICMP.put (F.LP_CTL_RATE.put (F.LP_CTL_EN.put 0 1) 1) 1
    let s := ((s.setReg (Reg.LP_CTL e) c).setReg (Reg.LP_IP e) fallbackIp).setReg (Reg.LP_MASK e) 0xFFFF0000
    (s.setReg (Reg.LP_GW e) 0).setFld (Reg.LP_STAT e) F.LP_STAT_FALLBACK 1) s

/-- Boot ends in NO_IMAGE (R381): 1 BOARD, 2 MEMORY, 0 an image fault. -/
def noImage (s : State) (cause : Nat) : State := raiseBoot (fallbackPorts (setBoot s 6)) 3 cause

/-- Device operating hours (R463, R465). -/
def operatingHours (s : State) : Nat := s.fh.seconds / 3600

/-- Repair entries that still hold: a later entry for the same group or row replaces an earlier one (R463). -/
def liveRepairs (l : List Repair) : List Repair :=
  l.foldl (fun (acc : List Repair) e =>
    if !e.good then acc
    else
      let same (f : Repair) : Bool := if e.kind = 2 then f.word == e.word else f.b3 == e.b3
      acc.filter (fun f => !(f.kind == e.kind && f.unit == e.unit && f.b2 == e.b2 && same f)) ++ [e]) []

/-- An entry is appended to the repair record (R463); a full half is rewritten into the other one first. -/
def appendRepair (s : State) (kind unit b2 b3 : Nat) (word : BitVec 32) : State :=
  let e : Repair := ⟨kind, unit, b2, b3, word, operatingHours s, true⟩
  let h := s.fh
  if h.repairs.length < 32767 then { s with fh := { h with repairs := h.repairs ++ [e] } }
  else { s with fh := { h with repairs := liveRepairs h.repairs ++ [e], repairSeq := h.repairSeq + 1 } }

/-- The remaps of channel `c` that the repair record lists (R310, R463). -/
def channelRepairs (s : State) (c : Nat) : List (DdrRow × Nat) :=
  (liveRepairs s.fh.repairs).filterMap (fun e =>
    if e.kind = 2 ∧ e.unit = c then some (⟨e.b2 % 4, e.word.toNat⟩, e.b3) else none)

/-- The map takes effect once no channel trains (R15, R305): the channels in use are D0–D1, D0–D3 or D0–D7. At boot, MEMORY
follows DECK, or NO_IMAGE where no channel has trained (R378, R381). -/
def ddrMap (s : State) : State :=
  let st (c : Nat) : Nat := s.fld (Reg.D5_STAT c) F.D5_STAT_STATE
  if (List.range 8).any (fun c => st c == 1) then s
  else
    let n := ((List.range 8).takeWhile (fun c => st c == 2)).length
    let k := if n = 8 then 3 else if 4 ≤ n then 2 else if 2 ≤ n then 1 else 0
    let s := (List.range 8).foldl (fun s c =>
      let rs := channelRepairs s c
      let g := Reg.D5_SPARE c
      ((setDdr s c { ddrCtl s c with moved := rs }).setFld g F.D5_SPARE_USED rs.length).setFld g F.D5_SPARE_FREE
        (64 - rs.length)) s
    let s := (s.setFld Reg.D5_MAP F.D5_MAP_CHANNELS k).setFld Reg.D5_MAP F.D5_MAP_READY 1
    if bootState s ≠ 2 then s else if k = 0 then noImage s 2 else setBoot s 3

/-- Byte `i` of the board record (R375). -/
def boardByte (s : State) (i : Nat) : Nat := (s.ab.board.getD i 0).toNat

/-- The configuration of a channel: from the board record where it has soldered devices, else from the SPD5 hub of its
module (R305, R311, R375); the rate is the board record's, one for all channels (R304). -/
def channelConfig (s : State) (spd : Spd) : Spd :=
  if boardByte s 8 = 1 then { spd with rate := boardByte s 13 }
  else ⟨true, true, boardByte s 10, boardByte s 11, boardByte s 12, boardByte s 13⟩

/-- GiB of a channel: two subchannels of 32 data bits, each rank of 32 ÷ WIDTH devices of DENSITY Gb (R304). -/
def channelGib (x : Spd) : Nat := 2 * x.ranks * (32 / max 1 x.width) * x.density / 8

/-- The module is one that R304 supports, at the board's rate. -/
def spdSupported (s : State) (spd : Spd) : Bool :=
  spd.unbuffered && spd.ecc && spd.width == 8 && [16, 24, 32].contains spd.density && (spd.ranks == 1 || spd.ranks == 2) &&
    boardByte s 13 ≤ spd.rate

/-- The cause with which training of channel `c` ends (R305, R308, R311): 0 none, 1 TRAIN_FAIL, 2 SPD, 3 CAP_TRIMMED,
4 MISMATCH. -/
def trainingCause (s : State) (c : Fin 8) (trained : Bool) (spd : Spd) : Nat :=
  let x := channelConfig s spd
  if boardByte s 8 = 1 ∧ !spdSupported s spd then 2
  else if boardByte s 8 = 1 ∧ c ≠ 0 ∧ (s.d5[0]).spd.any (fun y => y != spd) then 4
  else if !trained then 1
  else if 16 < channelGib x then 3 else 0

/-- DDR5_TRAINING_DONE (R15, R304, R305, R308, R311): training of a populated channel ends. The other operands are what the
SPD5 hub of its module was read to hold, where the board has modules; a channel that the board record does not populate is not
trained. -/
def execDdr5TrainingDone (c : Fin 8) (trained unbuffered ecc : Bool) (width density ranks rate : Nat) (s : State) :
    Host.Outcome State Fault Refusal :=
  let spd : Spd := ⟨unbuffered, ecc, width, density, ranks, rate⟩
  let a := Reg.D5_STAT c
  if 2 ≤ s.fld a F.D5_STAT_STATE ∨ boardByte s 9 ≤ c.val then .next s
  else
    let cause := trainingCause s c trained spd
    let x := channelConfig s spd
    let ok := cause = 0 ∨ cause = 3
    let s := (s.setFld a F.D5_STAT_STATE (if ok then 2 else 3)).setFld a F.D5_STAT_CAUSE cause
    let g := Reg.D5_CFG c
    let s := ((((s.setFld g F.D5_CFG_RATE x.rate).setFld g F.D5_CFG_WIDTH (if x.width = 16 then 1 else 0)).setFld g
      F.D5_CFG_RANKS (x.ranks - 1)).setFld g F.D5_CFG_DENSITY (x.density / 8)).setFld g F.D5_CFG_MODULE (boardByte s 8)
    let s := if boardByte s 8 = 1 then setDdr s c { ddrCtl s c with spd := some spd } else s
    let s := if ok ∧ c.val = 0 then s.setFld Reg.D5_MAP F.D5_MAP_USED_GIB (min (channelGib x) 16) else s
    let code := if cause = 0 then 1 else if cause = 1 then 2 else if cause = 3 then 3 else if cause = 2 then 4 else 5
    .next (ddrMap (s.raise (896 + 8 * c.val) (payCause code)))

/-- ZQ_CALIBRATION (R308): delays are updated between bursts; nothing that software can see changes. -/
def execZqCalibration (_c : Fin 8) (s : State) : Host.Outcome State Fault Refusal := .next s

/-- 64-byte units of a channel that the map uses (R305). -/
def scrubUnits (s : State) : Nat := (s.fld Reg.D5_MAP F.D5_MAP_USED_GIB * 2 ^ 30 - 2 ^ 18) / 64

/-- The patrol scrub's check of one beat (R309): a single-bit error is corrected in memory. -/
def scrubBeat (s : State) (x : Nat) : State :=
  match eccOf (s.errMask x) with
  | .clean => s
  | .single => ddrReport (s.setErr x 0) x false true
  | .double => ddrReport s x true true

/-- PATROL_SCRUB (R309): the scrub of channel `c` reads its next 64-byte unit; at the end of a pass D5_SCRUB is raised. -/
def execPatrolScrub (c : Fin 8) (ups : List Upset) (s : State) : Host.Outcome State Fault Refusal :=
  let s := applyUpsets s ups
  let units := scrubUnits s
  if !s.flag (Reg.D5_CTL c) F.D5_CTL_SCRUB_EN ∨ !s.flag Reg.D5_MAP F.D5_MAP_READY ∨ ddrChannels s ≤ c.val then .next s
  else
    let k := (ddrCtl s c).scrubAt
    let a := ((k / 2) * ddrChannels s + c.val) * 128 + k % 2 * 64
    let s := (List.range 16).foldl (fun s i => scrubBeat s (a + 4 * i)) s
    let g := Reg.D5_SCRUB c
    if units ≤ k + 1 then
      let s := setDdr s c { ddrCtl s c with scrubAt := 0, rowErrs := [] }
      .next (((s.bump g F.D5_SCRUB_PASSES).setFld g F.D5_SCRUB_PROGRESS 0).raise (900 + 8 * c.val) 0)
    else
      .next ((setDdr s c { ddrCtl s c with scrubAt := k + 1 }).setFld g F.D5_SCRUB_PROGRESS ((k + 1) * 65536 / units))

/-- ROW_SPARE_DONE (R310): the oldest row being spared has been copied: corrected beats are clean, uncorrectable ones carry
the poison check code, and the remap takes effect. -/
def execRowSpareDone (c : Fin 8) (s : State) : Host.Outcome State Fault Refusal :=
  let x := ddrCtl s c
  match x.sparing with
  | [] => .next s
  | r :: rest =>
    let mine := (s.errs.map (·.1)).filter (fun a => a < ddrCapacity s && ddrChannel s a == c.val && ddrRowOf s a == r)
    let s := mine.foldl (fun s a => if ddrBad s a then poisonWord s 4 a else s.setErr a 0) s
    let k := freeSpare x (r.place % 2)
    let x : Ddr := { x with sparing := rest, moved := x.moved.filter (fun m => m.1 != r) ++ [(r, k)] }
    let g := Reg.D5_SPARE c
    let s := ((setDdr s c x).setFld g F.D5_SPARE_USED x.moved.length).setFld g F.D5_SPARE_FREE (64 - x.moved.length)
    let s := appendRepair s 2 c.val r.place k (BitVec.ofNat 32 r.row)
    .next (s.raise (899 + 8 * c.val) (payCause 1))

/-- HUB_TEMP_READ (R311): the temperature of the channel's module. -/
def execHubTempRead (c : Fin 8) (temp : BitVec 8) (s : State) : Host.Outcome State Fault Refusal :=
  .next (if s.flag (Reg.D5_CFG c) F.D5_CFG_MODULE then s.setFld (Reg.D5_TEMP c) F.D5_TEMP_TEMP temp.toNat else s)

end Sys2Proof.Machine
end

