-- ==== Sys2Proof/Machine/Hub.lean ====
section
/-!
DEFINITION. The event hub (R329–R336, R340) and the Keepers' levels (R325, R331, R332, R335, R339): meanings of EVENT_RAISE,
ABUTMENT_TARGET, KP_C0_LONG, KEEPER_RUN, KEEPER_STOP, EH_RAISE, PEND_CLEAR and EH_SRC_WRITE.
-/

namespace Sys2Proof.Machine

/-! ## The hub -/

/-- A raise reaches its strip output (R330): a pulse that takes a scheduler entry, or a drop. -/
def hubOutput (s : State) (o : Fin 32) : State :=
  if soMode s o = 4 ∧ s.tm.actions.length + s.tm.marks.length < 256 then
    let c := sourceCoord s (soGroup s o)
    let a : Action := ⟨o, false, c, c, 0, false, none, 0xFFFFFFFF, none⟩
    (setActions s (s.tm.actions ++ [actionFires s a (toSteps s.now)])).bump Reg.AS_FIRED F.AS_FIRED_COUNT
  else s.bump Reg.EH_TGT_DROP F.EH_TGT_DROP_OUT

/-- A raise reaches the controller that holds a role (R330). -/
def hubSpan (s : State) (role line : Nat) : State :=
  match pairOf s role with
  | none => s.bump Reg.EH_TGT_DROP F.EH_TGT_DROP_SPC
  | some n =>
    let a := Reg.SPC_INT n
    s.setFld a F.SPC_INT_PEND (s.fld a F.SPC_INT_PEND ||| 2 ^ line)

/-- The events of R446 that restart the soak of a component. -/
def soakEvent (c src : Nat) : Bool :=
  let span (k : Nat) : Bool := src < 272 && src % 16 == k
  if c = 3 then src == 992
  else if c = 2 then 1004 ≤ src && src < 1012
  else if c = 1 then span 10 || span 4 || src == 984
  else if c = 6 then (272 ≤ src && src < 544 && (src - 272) % 16 == 1) || src == 984
  else false

/-- A raise reaches the hub (R329, R330); an event of R446 restarts the soak of the component in progress. -/
def hubRaise (s : State) (r : Raise) : State :=
  let s := modifyUpdate s (fun u => if soakEvent u.comp r.source then { u with soakSince := r.time } else u)
  let c := Reg.EH_SRC r.source
  let p := Reg.EH_PEND r.source
  let k := s.flag c F.EH_SRC_K_EN
  let a := s.flag c F.EH_SRC_ABUT
  let o := s.flag c F.EH_SRC_OUT_EN
  let x := s.flag c F.EH_SRC_SPC_EN
  if !k && !a && !o && !x then s.bump Reg.EH_UNROUTED F.EH_UNROUTED_COUNT
  else
    let pending := s.flag p F.EH_PEND_KPEND || s.flag p F.EH_PEND_APEND
    let s := if pending then s.bump Reg.EH_COAL F.EH_COAL_COUNT
      else { s.setReg (Reg.EH_PAY r.source) r.pay with
             eh := s.eh.filter (fun h => h.source != r.source) ++ [⟨r.source, r.time, r.role⟩] }
    let s := if k then (s.setFld p F.EH_PEND_KPEND 1).bump p F.EH_PEND_KCOUNT else s
    let s := if a then (s.setFld p F.EH_PEND_APEND 1).bump p F.EH_PEND_ACOUNT else s
    let s := if o then hubOutput s (Fin.ofNat 32 (s.fld c F.EH_SRC_OUT)) else s
    if x then hubSpan s (s.fld c F.EH_SRC_ROLE) (s.fld c F.EH_SRC_LINE) else s

/-- The raises on their way, without the first `k` further ones of a source. -/
def dropRaises (src : Nat) : Nat → List Raise → List Raise
  | 0, l => l
  | _, [] => []
  | k + 1, r :: l => if r.source = src then dropRaises src k l else r :: dropRaises src (k + 1) l

/-- EVENT_RAISE (R329): the oldest raise reaches the hub; `merged` further raises of its source, made in the same FCLK
cycle, count as one with it. -/
def execEventRaise (merged : Nat) (s : State) : Host.Outcome State Fault Refusal :=
  match s.raises with
  | [] => .next s
  | r :: rest => .next (hubRaise { s with raises := dropRaises r.source merged rest } r)

/-- What the hub stores of a source's raise. -/
def heldRaise (s : State) (src : Nat) : HeldRaise := (s.eh.find? (fun h => h.source == src)).getD ⟨src, 0, 31⟩

/-- The descriptor of R332. -/
def descriptor (s : State) (src count : Nat) : BitVec 32 :=
  BitVec.ofNat 32 (src + 2 ^ 10 * eventClass src + 2 ^ 12 * (heldRaise s src).role.toNat + 2 ^ 17 * count)

/-- Whether source `a` comes before source `b`: class, PRI, number (R333). -/
def sourceBefore (s : State) (a b : Nat) : Bool :=
  let key (x : Nat) : Nat := (eventClass x * 4 + s.fld (Reg.EH_SRC x) F.EH_SRC_PRI) * 1024 + x
  key a < key b

/-- The first source by R333 among those that satisfy `p`. -/
def chooseSource (s : State) (p : Nat → Bool) : Option Nat :=
  ((List.range 1024).filter p).foldl (fun o x => match o with
    | none => some x
    | some y => some (if sourceBefore s x y then x else y)) none

/-- The message that carries a raise to the abutment die (R330): descriptor, payload, raise time. -/
def abutMessage (s : State) (src : Nat) : Packet :=
  let d := descriptor s src (s.fld (Reg.EH_PEND src) F.EH_PEND_ACOUNT)
  { src := 43, dst := 77, cls := 1, kind := 4, len := 0, status := 0, epoch := false, dtag := 0xFFFF, stag := epTag s 43,
    txn := 0, addr := 0, count := 0,
    data := leBytes 4 d.toNat ++ leBytes 4 (s.reg (Reg.EH_PAY src)).toNat ++ leBytes 8 (heldRaise s src).time.toNat ++
      List.replicate 16 0 }

/-- ABUTMENT_TARGET (R330, R333): the first pending abutment delivery leaves; while the abutment die is away it stays pending
(R382). -/
def execAbutmentTarget (s : State) : Host.Outcome State Fault Refusal :=
  match (if s.ab.up ∧ epState s 77 = 0 then chooseSource s (fun x => s.flag (Reg.EH_PEND x) F.EH_PEND_APEND) else none) with
  | none => .next s
  | some x =>
    let s := offerPacket s (abutMessage s x)
    .next ((s.setFld (Reg.EH_PEND x) F.EH_PEND_APEND 0).setFld (Reg.EH_PEND x) F.EH_PEND_ACOUNT 0)

/-- A write of `EH_RAISE` (R340). -/
def ehRaise (s : State) (val : BitVec 32) : State := s.raise (1016 + val.toNat % 8) (s.reg Reg.EH_RAISE_PAY)

/-- EH_RAISE (R340). -/
def execEhRaise (val : BitVec 32) (s : State) : Host.Outcome State Fault Refusal := .next (ehRaise s val)

/-- A write of `EH_PEND` (R329): clearing a pending bit discards its delivery and count. -/
def pendClear (s : State) (src : Nat) (val : BitVec 32) : State :=
  let a := Reg.EH_PEND src
  let s := if F.EH_PEND_KPEND.get val = 0 then s else (s.setFld a F.EH_PEND_KPEND 0).setFld a F.EH_PEND_KCOUNT 0
  if F.EH_PEND_APEND.get val = 0 then s else (s.setFld a F.EH_PEND_APEND 0).setFld a F.EH_PEND_ACOUNT 0

/-- PEND_CLEAR (R329). -/
def execPendClear (src : Fin 1024) (val : BitVec 32) (s : State) : Host.Outcome State Fault Refusal :=
  .next (pendClear s src val)

/-- A value of `EH_SRC` that a write may not leave (R336). -/
def srcInvalid (src : Nat) (v : BitVec 32) : Bool :=
  let vec := F.EH_SRC_VEC.get v
  (F.EH_SRC_K_EN.get v == 1 && (vec == 0 || (eventClass src == 0 && 64 ≤ vec))) ||
    (F.EH_SRC_SPC_EN.get v == 1 && 16 < F.EH_SRC_ROLE.get v)

/-- A write of `EH_SRC` (R336): ignored as a whole when the value may not stand. -/
def srcWrite (s : State) (src : Nat) (val : BitVec 32) : State :=
  if srcInvalid src val then s else s.setReg (Reg.EH_SRC src) (val &&& 0xFFFFFFF8)

/-- EH_SRC_WRITE (R336). -/
def execEhSrcWrite (src : Fin 1024) (val : BitVec 32) (s : State) : Host.Outcome State Fault Refusal :=
  .next (srcWrite s src val)

/-! ## Keepers: state and local memory (R315, R316, R323) -/

def keeper (s : State) (k : Fin 4) : Keeper := s.kp[k]
def setKeeper (s : State) (k : Fin 4) (x : Keeper) : State := { s with kp := s.kp.set k x }

def kpRun (s : State) (k : Nat) : Bool := s.flag (Reg.KP_CTL k) F.KP_CTL_RUN
/-- Level: 0 stopped, 1 BASE, 2 LOW, 3 HIGH. -/
def kpLevel (s : State) (k : Nat) : Nat := s.fld (Reg.KP_STAT k) F.KP_STAT_LEVEL
def kpOwner (s : State) (k : Nat) : Bool := s.flag (Reg.KP_STAT k) F.KP_STAT_MODE
def kpPc (s : State) (k : Nat) : BitVec 32 := s.reg (Reg.KP_PC k)
def setKpPc (s : State) (k : Nat) (v : BitVec 32) : State := s.setReg (Reg.KP_PC k) (v &&& ~~~3#32)
def setKpMode (s : State) (k : Nat) (owner : Bool) : State := s.setFld (Reg.KP_STAT k) F.KP_STAT_MODE owner.toNat
def setKpLevel (s : State) (k l vec : Nat) : State :=
  (s.setFld (Reg.KP_STAT k) F.KP_STAT_LEVEL l).setFld (Reg.KP_STAT k) F.KP_STAT_VEC vec
def showDepth (s : State) (k : Fin 4) : State := s.setFld (Reg.KP_STAT k) F.KP_STAT_DEPTH (keeper s k).frames.length

/-- `KP_FAULT` with cause 1 ECC, 2 FETCH or 3 STACK (R338). -/
def raiseKp (s : State) (k : Nat) (cause : Nat) : State := s.raise (1004 + k) (payCause cause)

/-- The check of the local word at offset `a` at a read (R323): corrected and written back, or counted and raised; the flag
tells of a double-bit error. -/
def localCheck (s : State) (k : Fin 4) (a : Nat) : Bool × State :=
  let w := Win.keeper k + a / 4 * 4
  match eccOf (s.errMask w) with
  | .clean => (false, s)
  | .single => (false, (s.setErr w 0).bump (Reg.KP_ECC k) F.KP_ECC_CORR)
  | .double => (true, raiseKp (s.bump (Reg.KP_ECC k) F.KP_ECC_UNCORR) k 1)

/-- The stored bytes of local memory from offset `a`. -/
def localValue (s : State) (k : Fin 4) (a n : Nat) : Nat := leNat (storedBytes s 4 (Win.keeper k + a) n)

/-- A write of `n` bytes to local memory: a word covered in part is read and checked first, and keeps its double-bit
error. -/
def localWrite (s : State) (k : Fin 4) (a n v : Nat) : State :=
  let w := Win.keeper k + a / 4 * 4
  if n = 4 then (s.writeLE w 4 v).setErr w 0
  else
    let r := localCheck s k a
    let s := if r.1 then poisonWord r.2 4 w else r.2
    s.writeLE (Win.keeper k + a) n v

/-! ## Levels (R325, R331, R332) -/

/-- The top frame is restored (R331). -/
def restoreFrame (s : State) (k : Fin 4) : State :=
  let x := keeper s k
  match x.frames with
  | [] => s
  | f :: rest =>
    let s := setKeeper s k { x with a := f.a, x := f.x, y := f.y, f := f.f, sp := f.sp, frames := rest, long := false,
                                    todo := f.todo }
    showDepth (setKpLevel (setKpMode (setKpPc s k f.pc) k f.owner) k f.level f.vec) k

/-- The Keeper's instruction is waiting for a causeway read, or has begun with one (R323). -/
def inAccess (s : State) (k : Fin 4) : Bool := (keeper s k).wait.isSome || !(keeper s k).reads.isEmpty

/-- The instruction that waits on the causeway is abandoned (R323): nothing is outstanding for it any more, so a late response is
dropped. -/
def abandonAccess (s : State) (k : Fin 4) : State :=
  let x := keeper s k
  let s := setKeeper s k { x with wait := none, reads := [] }
  match x.wait with
  | none => s
  | some t => modifyCw s (fun c => { c with txns := c.txns.erase (⟨39 + k.val, by omega⟩, t) })

/-- The Keeper stops (R325, R339). -/
def haltKeeper (s : State) (k : Nat) : State :=
  let a := Reg.KP_STAT k
  ((s.setFld (Reg.KP_CTL k) F.KP_CTL_RUN 0).setFld a F.KP_STAT_LEVEL 0).setFld a F.KP_STAT_WAITING 0

/-- A handler is abandoned, or the BASE level stops, with KP_FAULT of a cause that is not yet raised (R325). -/
def abandon (s : State) (k : Fin 4) : State := if kpLevel s k ≤ 1 then haltKeeper s k else restoreFrame s k

/-- A source is eligible on Keeper `k` (R331). -/
def eligible (s : State) (k : Fin 4) (x : Nat) : Bool :=
  let c := Reg.EH_SRC x
  s.flag c F.EH_SRC_K_EN && s.fld c F.EH_SRC_KEEPER == k.val && s.flag (Reg.EH_PEND x) F.EH_PEND_KPEND &&
    !(s.flag (Reg.KP_CTL k) F.KP_CTL_OWN_HOLD && 64 ≤ s.fld c F.EH_SRC_VEC)

/-- The event that a level takes, by the table of R331. -/
def nextEvent (s : State) (k : Fin 4) (level : Nat) : Option Nat :=
  match chooseSource s (eligible s k) with
  | none => none
  | some x =>
    if level = 3 ∨ level = 0 then none
    else if eventClass x = 0 then some x
    else if level = 1 ∧ s.flag (Reg.KP_CTL k) F.KP_CTL_EI then some x else none

/-- The handler of source `x` starts over a frame stack whose top is the interrupted level (R332). -/
def beginHandler (s : State) (k : Fin 4) (x : Nat) : State :=
  let p := Reg.EH_PEND x
  let vec := s.fld (Reg.EH_SRC x) F.EH_SRC_VEC
  let d := descriptor s x (s.fld p F.EH_PEND_KCOUNT)
  let kp := keeper s k
  let owner := 64 ≤ vec
  let top := kp.frames.head?
  let sp : BitVec 32 := if owner then 0x00040000
    else match top, kp.frames.getLast? with
      | some f, some b => if f.owner then b.sp else f.sp
      | _, _ => kp.sp
  let s := setKeeper s k { kp with a := s.reg (Reg.EH_PAY x), y := (heldRaise s x).time.setWidth 32, x := d, sp := sp,
                                   long := false, began := s.now }
  let s := (s.setFld p F.EH_PEND_KPEND 0).setFld p F.EH_PEND_KCOUNT 0
  let s := (s.setReg (Reg.KP_EVT k) d).bump (Reg.KP_DISPATCH k) F.KP_DISPATCH_COUNT
  let s := setKpLevel (setKpMode s k owner) k (if eventClass x = 0 then 3 else 2) vec
  let s := (s.setFld (Reg.KP_STAT k) F.KP_STAT_WAITING 0)
  let r := localCheck s k (4 * vec)
  showDepth (setKpPc r.2 k (BitVec.ofNat 32 (localValue r.2 k (4 * vec) 4))) k

/-- KP_C0_LONG (R335): the running HIGH handler has run for the limit, in KCLK cycles of 2.5 ns; once for each handler. -/
def execKpC0Long (k : Fin 4) (s : State) : Host.Outcome State Fault Refusal :=
  let limit := s.fld (Reg.KP_C0_LIMIT k) F.KP_C0_LIMIT_LIMIT
  if kpLevel s k = 3 ∧ limit ≠ 0 ∧ (keeper s k).long = false ∧ (keeper s k).began.toNat * 2 + limit * 5 ≤ s.now.toNat * 2 then
    .next ((setKeeper s k { keeper s k with long := true }).raise (1008 + k.val) 0)
  else .next s

/-- Offsets of the event log of vector 6 in local memory, and of the index of its next entry (R337). -/
def eventLogAt : Nat := 0x10000
def eventIndexAt : Nat := 0x14000

/-- The standard firmware's BASE program initialises the stack and, on K2, the event log (R505). -/
def firmwareInit (s : State) (k : Fin 4) : State :=
  if !(keeper s k).firm then s
  else
    let s := setKeeper s k { keeper s k with sp := Config.firmwareStack &&& 0x1FFFC }
    if k = 2 then localWrite s k eventIndexAt 4 0 else s

/-- RUN goes from 0 to 1 (R339): BASE level at vector 0; the standard firmware begins with its initialisation. -/
def keeperRun (s : State) (k : Fin 4) : State :=
  if kpRun s k then s
  else
    let s := (abandonAccess s k).setFld (Reg.KP_CTL k) F.KP_CTL_RUN 1
    let s := setKeeper s k { keeper s k with a := 0, x := 0, y := 0, f := 0, frames := [], long := false, todo := [] }
    let s := (setKpMode (setKpLevel s k 1 0) k false).setFld (Reg.KP_STAT k) F.KP_STAT_WAITING 0
    let r := localCheck s k 0
    firmwareInit (showDepth (setKpPc r.2 k (BitVec.ofNat 32 (localValue r.2 k 0 4))) k) k

/-- KEEPER_RUN (R339). -/
def execKeeperRun (k : Fin 4) (s : State) : Host.Outcome State Fault Refusal := .next (keeperRun s k)

/-- RUN goes from 1 to 0 (R339): the Keeper stops at the instruction boundary, which an instruction that waits for a causeway
read still reaches; events stay pending. -/
def keeperStop (s : State) (k : Fin 4) : State :=
  if !kpRun s k then s
  else if inAccess s k then s.setFld (Reg.KP_CTL k) F.KP_CTL_RUN 0 else haltKeeper s k

/-- KEEPER_STOP (R339). -/
def execKeeperStop (k : Fin 4) (s : State) : Host.Outcome State Fault Refusal := .next (keeperStop s k)

end Sys2Proof.Machine
end

