-- ==== Sys2Proof/Machine/Ledger.lean ====
section
/-!
DEFINITION. The ledger, the repeat finder and the crop engine (08): meanings of LEDGER_TAKE to CROP_STORE_WRITE.
-/

namespace Sys2Proof.Machine

/-! ## Fields of records and side entries (R225, R235) -/

/-- The little-endian value of `n` bytes from byte `i` of a record. -/
def recNat (bs : List Byte) (i n : Nat) : Nat := leNat ((bs.drop i).take n)
def recWord (bs : List Byte) (i : Nat) : BitVec 64 := BitVec.ofNat 64 (recNat bs i 8)

/-- Records of TYPE 1 with AREA > 0 are indexed (R236). -/
def recIndexed (bs : List Byte) : Bool := recNat bs 0 1 == 1 && recNat bs 44 4 != 0
def isChain (bs : List Byte) : Bool := recNat bs 0 1 == 0x81

def ledgerBase (s : State) : Nat := s.fld Reg.LG_BASE F.LG_BASE_BASE * 2 ^ 30
def recordAddr (s : State) (l : BitVec 64) : Nat := ledgerBase s + 64 * (l.toNat % 2 ^ 24)
def sideAddr (s : State) (l : BitVec 64) : Nat := ledgerBase s + 0x40000000 + 64 * (l.toNat % 2 ^ 24)

/-- The bucket of a coordinate, before it is taken modulo 2^20 (R238). -/
def bucketOf (s : State) (coord : Int) : Int := coord / 2 ^ (16 + s.fld Reg.LG_CTL F.LG_CTL_BUCKET_LOG)
def bucketAddr (s : State) (b : Int) : Nat := ledgerBase s + 0x80000000 + 8 * (b % 2 ^ 20).toNat

def lgNext (s : State) : BitVec 64 := s.reg64 Reg.LG_NEXT_LO Reg.LG_NEXT_HI
def lgOldest (s : State) : BitVec 64 := s.reg64 Reg.LG_OLDEST_LO Reg.LG_OLDEST_HI
def lgSegFirst (s : State) : BitVec 64 := s.reg64 Reg.LG_SEG_FIRST_LO Reg.LG_SEG_FIRST_HI
def setLgOldest (s : State) (v : BitVec 64) : State := s.setReg64 Reg.LG_OLDEST_LO Reg.LG_OLDEST_HI v

def modifyLg (s : State) (f : Ledger → Ledger) : State := { s with lg := f s.lg }

/-- `LG_STAT.INFLIGHT` shows the records in flight. -/
def showFlight (s : State) : State := s.setFld Reg.LG_STAT F.LG_STAT_INFLIGHT s.lg.flight.length

/-- The record with a tag now has its LSEQ: the crop request and the stream entry that wait for it take it (R248, R425). -/
def joinLseq (s : State) (tag : Nat) (l : BitVec 64) : State :=
  let req (r : CropReq) : CropReq := if r.tag = tag then { r with lseq := some l } else r
  let item (e : StreamItem) : StreamItem := if e.tag = some tag then { e with lseq := some l } else e
  { s with
    cr := { s.cr with queue := s.cr.queue.map req, work := s.cr.work.map (fun w => { w with req := req w.req }) },
    rn := { s.rn with incoming := s.rn.incoming.map item } }

/-! ## The ledger writer (R234–R239) -/

/-- A record that is taken now has STRADDLE (R239): it belongs to a segment that a boundary began, and its FIRST_LINE lies below
`LG_SEG_LINE` as it stands (log 106). -/
def straddles (s : State) (bs : List Byte) : Bool :=
  s.lg.cut && !isChain bs && recNat bs 8 8 < (s.reg64 Reg.LG_SEG_LINE_LO Reg.LG_SEG_LINE_HI).toNat

/-- LEDGER_TAKE (R234, R236): the writer takes a record from one of its two queues, in turn where both hold one, and
writes LSEQ 0 in the slot's side entry. -/
def execLedgerTake (s : State) : Host.Outcome State Fault Refusal :=
  let g := s.lg
  let fromChains := g.queue.isEmpty || (!g.chains.isEmpty && g.tookTracker)
  if !s.flag Reg.LG_CTL F.LG_CTL_EN || !s.flag Reg.LG_STAT F.LG_STAT_READY || 16 ≤ g.flight.length then .next s
  else match (if fromChains then g.chains else g.queue) with
    | [] => .next s
    | r :: rest =>
      let l := lgNext s
      let s := s.setReg64 Reg.LG_NEXT_LO Reg.LG_NEXT_HI (l + 1)
      let s := if l = lgOldest s + BitVec.ofNat 64 (2 ^ 24) then
          let s := setLgOldest s (lgOldest s + 1)
          if s.lg.told then s else modifyLg (s.raise 785 0) (fun g => { g with told := true })
        else s
      let r := { r with lseq := l, segFirst := lgSegFirst s, straddle := straddles s r.bytes }
      let s := modifyLg s (fun g => { g with
        queue := if fromChains then g.queue else rest, chains := if fromChains then rest else g.chains,
        tookTracker := !fromChains, flight := g.flight ++ [r] })
      .next (showFlight (joinLseq (ddrUnitWrite s (sideAddr s l) (leBytes 8 0)) r.tag l))

/-- The side entry of a record (R235). -/
def sideEntry (r : LedgerRec) (prev : BitVec 64) : List Byte :=
  let bs := r.bytes
  let chain := isChain bs
  let coord := if chain then recWord bs 32 else recWord bs 16
  leBytes 8 r.lseq.toNat ++ leBytes 8 prev.toNat ++ leBytes 8 coord.toNat ++
    leBytes 4 (if chain then 0 else recNat bs 56 4) ++ leBytes 4 0 ++
    leBytes 2 (if chain then 0 else recNat bs 42 2) ++
    leBytes 1 ((if chain then 0 else recNat bs 32 4 / 2 ^ 19 % 16) + 16 * (recNat bs 1 1 / 16 % 8)) ++
    leBytes 1 (r.straddle.toNat + 2 * (!recIndexed bs).toNat) ++ List.replicate 28 0

/-- LEDGER_WRITE_DONE (R236): the writes of the oldest record in flight complete through step 4, and the repeat finder
may take it. -/
def execLedgerWriteDone (s : State) : Host.Outcome State Fault Refusal :=
  match s.lg.flight with
  | [] => .next s
  | r :: rest =>
    let s := modifyLg s (fun g => { g with flight := rest })
    let s := ddrUnitWrite s (recordAddr s r.lseq) r.bytes
    let b := bucketAddr s (bucketOf s (recWord r.bytes 16).toInt)
    let s := if recIndexed r.bytes then
        let (h, _, s) := ddrUnitRead s b 8
        let s := ddrUnitWrite s (sideAddr s r.lseq) (sideEntry r (BitVec.ofNat 64 (leNat h)))
        ddrUnitWrite s b (leBytes 8 r.lseq.toNat)
      else ddrUnitWrite s (sideAddr s r.lseq) (sideEntry r 0)
    let ready (q : LedgerRec) : LedgerRec :=
      if q.tag = r.tag then { q with lseq := r.lseq, segFirst := r.segFirst } else q
    let s := { s with rf := { s.rf with queue := s.rf.queue.map ready } }
    .next (showFlight (s.bump Reg.LG_WRITES F.LG_WRITES_COUNT))

/-- `LG_CTL.EN` goes from 0 to 1 (R234, R238): LSEQ restarts and the index is to be cleared. -/
def ledgerEnable (s : State) : State :=
  if s.flag Reg.LG_CTL F.LG_CTL_EN then s
  else
    let s := (s.setFld Reg.LG_CTL F.LG_CTL_EN 1).setFld Reg.LG_STAT F.LG_STAT_READY 0
    let s := (s.setReg64 Reg.LG_NEXT_LO Reg.LG_NEXT_HI 1).setReg64 Reg.LG_SEG_FIRST_LO Reg.LG_SEG_FIRST_HI 1
    modifyLg (setLgOldest s 1) (fun g => { g with told := false, cut := false })

/-- `LG_CTL.EN` goes to 0: records are no longer taken, and READY reads 0 (R251). -/
def ledgerDisable (s : State) : State :=
  (s.setFld Reg.LG_CTL F.LG_CTL_EN 0).setFld Reg.LG_STAT F.LG_STAT_READY 0

/-- LEDGER_ENABLE (R238). -/
def execLedgerEnable (s : State) : Host.Outcome State Fault Refusal := .next (ledgerEnable s)

/-- INDEX_CLEAR_DONE (R238): the index reads 0, and records are taken. -/
def execIndexClearDone (s : State) : Host.Outcome State Fault Refusal :=
  if !s.flag Reg.LG_CTL F.LG_CTL_EN || s.flag Reg.LG_STAT F.LG_STAT_READY then .next s
  else
    let a := ledgerBase s + 0x80000000
    let b := a + 8 * 2 ^ 20
    let s := if b ≤ ddrCapacity s then { s with mem := s.mem.clear a b }.clearErrs a b else s
    .next ((s.setFld Reg.LG_STAT F.LG_STAT_READY 1).raise 786 0)

/-- A write of `LG_SEG_CTL` (R239): MODE is loaded, and GO makes a boundary before the next record taken. -/
def segmentWrite (s : State) (val : BitVec 32) : State :=
  let s := s.setFld Reg.LG_SEG_CTL F.LG_SEG_CTL_MODE (F.LG_SEG_CTL_MODE.get val)
  if F.LG_SEG_CTL_GO.get val = 0 ∨ !s.flag Reg.LG_CTL F.LG_CTL_EN then s
  else
    let seg := s.reg Reg.LG_SEG + 1
    let s := ((modifyLg s (fun g => { g with cut := true })).setReg Reg.LG_SEG seg).setReg64 Reg.LG_SEG_FIRST_LO Reg.LG_SEG_FIRST_HI (lgNext s)
    let s := if s.flag Reg.LG_SEG_CTL F.LG_SEG_CTL_MODE then
        modifyLg (setLgOldest s (lgNext s)) (fun g => { g with told := false }) else s
    s.raise 784 seg

/-- SEGMENT_GO (R239). -/
def execSegmentGo (val : BitVec 32) (s : State) : Host.Outcome State Fault Refusal := .next (segmentWrite s val)

/-! ## The repeat finder (R240–R244) -/

def rfPitch (s : State) (k : Nat) : Int :=
  s.fld (Reg.RF_PITCH_HI k) F.RF_PITCH_HI_PITCH_INT_HI * 2 ^ 32 + (s.reg (Reg.RF_PITCH_LO k)).toNat
def rfAlong (s : State) (k : Nat) : Int := s.fld (Reg.RF_TOL k) F.RF_TOL_TOL_ALONG * 2 ^ 16
def rfAcross (s : State) (k : Nat) : Nat := s.fld (Reg.RF_TOL k) F.RF_TOL_TOL_ACROSS * 8192

/-- The slot is searched for a record (R241). -/
def slotServes (s : State) (k : Nat) (bs : List Byte) : Bool :=
  let a := Reg.RF_SLOT k
  s.flag a F.RF_SLOT_EN && (s.fld a F.RF_SLOT_CLASSES &&& recNat bs 42 2) != 0

/-- The head of a bucket enters the walk; a head that cannot be read ends it as an unreadable side entry does. -/
def enterBucket (s : State) (q : Search) (b : Int) : Search × State :=
  let (h, bad, s) := ddrUnitRead s (bucketAddr s b) 8
  let s := if bad then s.bump Reg.RF_UNREAD F.RF_UNREAD_COUNT else s
  ({ q with b := b, e := if bad then 0 else BitVec.ofNat 64 (leNat h), visits := 0, part := q.part || bad }, s)

/-- Period `k` of the slot begins (R241). -/
def enterPeriod (s : State) (q : Search) (k : Nat) : Search × State :=
  let target := (recWord q.record.bytes 16).toInt - k * rfPitch s q.slot
  let q := { q with k := k, best := none, bLast := bucketOf s (target + rfAlong s q.slot) }
  enterBucket s q (bucketOf s (target - rfAlong s q.slot))

/-- The next slot from `k` on that serves the record begins, or the search is over. -/
def enterSlot (s : State) (q : Search) (k : Nat) : Option Search × State :=
  match ((List.range 64).drop k).find? (fun j => slotServes s j q.record.bytes) with
  | none => (none, s)
  | some j =>
    let q := { q with slot := j, hits := 0, mask := 0, near := none, far := none, kfar := 0, trunc := false, part := false,
                      emitting := false }
    let (q, s) := enterPeriod s q 1
    (some q, s)

/-- The 64 bytes of a repeat-chain record (R242). -/
def chainBytes (s : State) (q : Search) (near far : SideHit) (id : BitVec 32) (fresh : Bool) : List Byte :=
  let bs := q.record.bytes
  let coord := (recWord bs 16).toInt
  leBytes 1 0x81 ++ [bs.getD 1 0] ++ leBytes 2 (fresh.toNat + 2 * q.trunc.toNat + 4 * q.part.toNat) ++ leBytes 4 (recNat bs 4 4) ++
    leBytes 1 q.slot ++ leBytes 1 q.hits ++ leBytes 1 q.mask ++ leBytes 1 (s.fld (Reg.RF_SLOT q.slot) F.RF_SLOT_DEPTH) ++
    leBytes 4 id.toNat ++ leBytes 8 q.record.lseq.toNat ++ leBytes 8 near.lseq.toNat ++ leBytes 8 (recNat bs 16 8) ++
    leBytes 4 (BitVec.ofInt 32 (near.coord.toInt - near.target)).toNat ++
    leBytes 4 (near.col - BitVec.ofNat 32 (recNat bs 56 4)).toNat ++
    leBytes 8 (BitVec.ofInt 64 ((coord - far.coord.toInt).tdiv q.kfar)).toNat ++ List.replicate 8 0

/-- The slot's chain record is emitted (R242–R244). -/
def emitChain (s : State) (q : Search) (near far : SideHit) : Search × State :=
  let fresh := near.chain = 0
  let id := if fresh then near.lseq.setWidth 32 else near.chain
  let tag := s.trk.emitted
  let bytes := chainBytes s q near far id fresh
  let r : LedgerRec := ⟨tag, bytes, 0, 0, false⟩
  let s := modifyLg { s with trk := { s.trk with emitted := tag + 1 } } (fun g => { g with chains := g.chains ++ [r] })
  let writes := (if q.chained then [] else [(q.record.lseq, id)]) ++ (if fresh then [(near.lseq, id)] else [])
  let item : StreamItem := ⟨some tag, none, bytes, none⟩
  let s := { s with rf := { s.rf with writes := s.rf.writes ++ writes } }
  let s := { s with rn := { s.rn with incoming := s.rn.incoming ++ [item] } }
  let s := s.bump Reg.RF_CHAINS F.RF_CHAINS_COUNT
  let dom := recNat q.record.bytes 32 4 / 2 ^ 19 % 16
  ({ q with chained := true, emitting := false }, if fresh then s.raise 792 (payCause 0 dom) else s)

/-- A slot's search is over: TRUNC counts, TRUNC and PARTIAL are raised (R244), and the next slot begins. `RF_UNREAD` has
counted each unreadable entry as it was met (R251). -/
def leaveSlot (s : State) (q : Search) : Option Search × State :=
  let dom := recNat q.record.bytes 32 4 / 2 ^ 19 % 16
  let s := if q.trunc then s.bump Reg.RF_TRUNC F.RF_TRUNC_COUNT else s
  let s := if q.trunc || q.part then s.raise 793 (payCause 0 dom) else s
  enterSlot s q (q.slot + 1)

/-- A period ends: its best entry counts as a hit (R241). -/
def leavePeriod (q : Search) : Search :=
  match q.best with
  | none => q
  | some h => { q with hits := q.hits + 1, mask := q.mask + 2 ^ (q.k - 1), near := some (q.near.getD h), far := some h,
                       kfar := q.k }

/-- The search goes on until a side entry has to be read, the repeat queue is full, or it is over (R241). -/
def advance : Nat → State → Search → Option Search × State
  | 0, s, q => (some q, s)
  | fuel + 1, s, q =>
    if q.emitting then
      match q.near, q.far with
      | some n, some f =>
        if 64 ≤ s.lg.chains.length then (some q, s)
        else
          let (q, s) := emitChain s q n f
          match leaveSlot s q with
          | (none, s) => (none, s)
          | (some q, s) => advance fuel s q
      | _, _ => match leaveSlot s q with
          | (none, s) => (none, s)
          | (some q, s) => advance fuel s q
    else
      let live := q.e ≠ 0 ∧ q.record.segFirst.toNat ≤ q.e.toNat ∧ (lgOldest s).toNat ≤ q.e.toNat
      let full := q.visits = s.fld Reg.RF_CTL F.RF_CTL_VISIT_MAX
      if live ∧ !full then (some q, s)
      else
        let q := if live then { q with trunc := true } else q
        if q.b < q.bLast then
          let (q, s) := enterBucket s q (q.b + 1)
          advance fuel s q
        else
          let q := leavePeriod q
          if q.k < s.fld (Reg.RF_SLOT q.slot) F.RF_SLOT_DEPTH then
            let (q, s) := enterPeriod s q (q.k + 1)
            advance fuel s q
          else if s.fld Reg.RF_CTL F.RF_CTL_MIN_HITS ≤ q.hits ∧ q.hits ≠ 0 then advance fuel s { q with emitting := true }
          else match leaveSlot s q with
            | (none, s) => (none, s)
            | (some q, s) => advance fuel s q

/-- More steps than a search of 64 slots, 8 periods and 65,536 buckets each can take. -/
def searchFuel : Nat := 2 ^ 26

def setSearch (r : Option Search × State) : State := { r.2 with rf := { r.2.rf with search := r.1 } }

/-- REPEAT_SEARCH (R241): the oldest record that the ledger has written is searched for; a search that waits for room in
the repeat queue goes on. -/
def execRepeatSearch (s : State) : Host.Outcome State Fault Refusal :=
  match s.rf.search with
  | some q => .next (setSearch (advance searchFuel s q))
  | none =>
    match s.rf.queue with
    | [] => .next s
    | r :: rest =>
      if r.lseq = 0 then .next s
      else
        let s := { s with rf := { s.rf with queue := rest } }
        if !s.flag Reg.RF_CTL F.RF_CTL_EN then .next s
        else
          let q : Search :=
            { record := r, slot := 0, k := 0, b := 0, bLast := 0, e := 0, visits := 0, best := none, hits := 0, mask := 0,
              near := none, far := none, kfar := 0, trunc := false, part := false, chained := false, emitting := false }
          match enterSlot s q 0 with
          | (none, s) => .next s
          | (some q, s) => .next (setSearch (advance searchFuel s q))

/-- What a side entry `c` adds to a walk (R241). -/
def weighEntry (s : State) (q : Search) (c : List Byte) : Search :=
  let bs := q.record.bytes
  let target := (recWord bs 16).toInt - q.k * rfPitch s q.slot
  let coord := recWord c 16
  let err := (coord.toInt - target).natAbs
  let across := ((recNat c 24 4 : Int) - (recNat bs 56 4 : Int)).natAbs
  let dom := recNat bs 32 4 / 2 ^ 19 % 16 + 16 * (recNat bs 1 1 / 16 % 8)
  let fits := q.e.toNat < q.record.lseq.toNat && recNat c 34 1 == dom &&
    (recNat c 32 2 &&& s.fld (Reg.RF_SLOT q.slot) F.RF_SLOT_CLASSES) != 0 && (err : Int) ≤ rfAlong s q.slot &&
    across ≤ rfAcross s q.slot
  let better := match q.best with
    | none => true
    | some b => err < b.err || (err == b.err && b.lseq.toNat < q.e.toNat)
  if fits && better then
    { q with best := some ⟨q.e, coord, BitVec.ofNat 32 (recNat c 24 4), BitVec.ofNat 32 (recNat c 28 4), err, target⟩ }
  else q

/-- SIDE_ENTRY_READ (R241): the side entry that the walk waits for is read. -/
def execSideEntryRead (ups : List Upset) (s : State) : Host.Outcome State Fault Refusal :=
  let s := applyUpsets s ups
  match s.rf.search with
  | none => .next s
  | some q =>
    if q.emitting ∨ q.e = 0 then .next s
    else
      let (c, bad, s) := ddrUnitRead s (sideAddr s q.e) 64
      let s := if bad then s.bump Reg.RF_UNREAD F.RF_UNREAD_COUNT else s
      let q := { q with visits := q.visits + 1 }
      let q := if bad then { q with part := true, e := 0 }
        else if recWord c 0 ≠ q.e then { q with e := 0 }
        else { weighEntry s q c with e := recWord c 8 }
      .next (setSearch (advance searchFuel s q))

/-- CHAIN_WRITE (R243): the oldest CHAIN write is made if the slot still holds the named LSEQ. -/
def execChainWrite (s : State) : Host.Outcome State Fault Refusal :=
  match s.rf.writes with
  | [] => .next s
  | (l, id) :: rest =>
    let s := { s with rf := { s.rf with writes := rest } }
    let (c, bad, s) := ddrUnitRead s (sideAddr s l) 8
    .next (if !bad ∧ recWord c 0 = l then ddrUnitWrite s (sideAddr s l + 28) (leBytes 4 id.toNat) else s)

/-! ## The crop engine (R245–R249) -/

/-- An interval of one dimension, cut to 8,192 about the centroid when even a factor of 8 leaves more than 1,024. -/
def cutWindow (lo n cent : Nat) : Nat × Nat × Bool :=
  if n ≤ 8192 then (lo, n, false) else (min (max lo (cent - 4096)) (lo + n - 8192), 8192, true)

/-- The window and factor of a request (R245, R246). -/
def cropWindow (s : State) (r : CropReq) : CropWork :=
  let bs := r.bytes
  let m := s.fld Reg.CR_CTL F.CR_CTL_MARGIN
  let first := recNat bs 8 8
  let lo := first - m
  let n := first + recNat bs 40 2 + m - lo
  let c0 := recNat bs 32 4 % 2 ^ 19 - m - r.col0
  let c1 := min (recNat bs 36 4 % 2 ^ 19 + m + 1 - r.col0) r.pixels
  let (lo, n, cutL) := cutWindow lo n (first + recNat bs 60 4 / 2 ^ 16)
  let (c0, w, cutC) := cutWindow c0 (c1 - c0) (recNat bs 56 4 / 2 ^ 13 - r.col0)
  let f := ([1, 2, 4].find? (fun f => (n + f - 1) / f ≤ 1024 ∧ (w + f - 1) / f ≤ 1024)).getD 8
  { req := r, firstLine := lo, srcH := n, firstCol := c0, srcW := w, factor := f, clipped := cutL || cutC, timeout := false,
    rows := [], start := s.now }

/-- CROP_REQUEST (R245): the engine takes the oldest request, while it works on fewer than two; disabled, it drops it and
counts a skipped crop (R10). -/
def execCropRequest (s : State) : Host.Outcome State Fault Refusal :=
  match s.cr.queue with
  | [] => .next s
  | r :: rest =>
    if !s.flag Reg.CR_CTL F.CR_CTL_EN then
      .next { s with cr := { s.cr with queue := rest, skipped := s.cr.skipped + 1 } }
    else if 2 ≤ s.cr.work.length then .next s
    else .next { s with cr := { s.cr with queue := rest, work := s.cr.work ++ [cropWindow s r] } }

/-- What the ring gives for line `i` of a crop (R247): a row, or `none` while the engine has to wait. The pixels are read in
the 64-byte blocks that cover the window's columns (R249). -/
def ringRow (s : State) (w : CropWork) (i : Nat) : Option CropRow × State :=
  let entries := 2 ^ w.req.depth
  let stride := if w.req.wide then 24576 else 16384
  let e := i % entries
  let (d, bad, s) := ddrUnitRead s (w.req.base + entries * stride + 64 * e) 64
  let idx := recNat d 0 8
  let fl := recNat d 24 1
  if bad ∨ i < idx then (some ⟨none, false⟩, s)
  else if idx < i ∨ fl.testBit 3 then (none, s)
  else if fl.testBit 1 ∨ fl.testBit 2 then (some ⟨none, false⟩, s)
  else
    let bits := if w.req.wide then 12 else 8
    let a := w.firstCol * bits / 512 * 64
    let b := ((w.firstCol + w.srcW) * bits + 511) / 512 * 64
    let (px, bad, s) := ddrAreaRead 400 s (w.req.base + e * stride + a) (b - a)
    if bad then (some ⟨none, false⟩, s)
    else
      let v := (List.range w.srcW).map (fun k =>
        (leNat ((px.drop (((w.firstCol + k) * bits) / 8 - a)).take 2) >>> ((w.firstCol + k) * bits % 8)) % 2 ^ bits)
      (some ⟨some v, fl.testBit 0⟩, s)

def setWork (s : State) (k : Nat) (w : CropWork) : State := { s with cr := { s.cr with work := s.cr.work.set k w } }

/-- CROP_ROW_READ (R247): crop `k` in work reads its next source line, or waits for it. -/
def execCropRowRead (k : Fin 2) (ups : List Upset) (s : State) : Host.Outcome State Fault Refusal :=
  let s := applyUpsets s ups
  match s.cr.work[k.val]? with
  | none => .next s
  | some w =>
    if w.srcH ≤ w.rows.length then .next s
    else match ringRow s w (w.firstLine + w.rows.length) with
      | (none, s) => .next s
      | (some r, s) => .next (setWork s k { w with rows := w.rows ++ [r] })

/-- The lines that remain are read where they are stored, and missing where they are not. -/
def readRemaining : Nat → State → CropWork → CropWork × State
  | 0, s, w => (w, s)
  | n + 1, s, w =>
    let (r, s) := ringRow s w (w.firstLine + w.rows.length)
    readRemaining n s { w with rows := w.rows ++ [r.getD ⟨none, false⟩] }

/-- CROP_TIMEOUT (R247): the wait of crop `k` in work for a line that is not stored has lasted `CR_TMO` from its start. -/
def execCropTimeout (k : Fin 2) (s : State) : Host.Outcome State Fault Refusal :=
  match s.cr.work[k.val]? with
  | none => .next s
  | some w =>
    let us := s.fld Reg.CR_TMO F.CR_TMO_US
    let waits := (ringRow s w (w.firstLine + w.rows.length)).1.isNone
    if us = 0 ∨ w.srcH ≤ w.rows.length ∨ s.now.toNat < w.start.toNat + 1000 * us ∨ !waits then .next s
    else
      let (w, s) := readRemaining (w.srcH - w.rows.length) s w
      .next ((setWork s k { w with timeout := true }).raise 800 (payCause 0 (recNat w.req.bytes 32 4 / 2 ^ 19 % 16)))

/-- One output pixel (R246): the mean or the maximum of the present pixels of its box. -/
def boxPixel (max' : Bool) (px : List Nat) : Nat :=
  if px.isEmpty then 0 else if max' then px.foldl max 0 else px.sum / px.length

/-- The source lines of output row `r`. -/
def boxRows (w : CropWork) (r : Nat) : List CropRow := (w.rows.drop (r * w.factor)).take w.factor

/-- The bytes of output row `r` (R246, R248). -/
def cropRow (w : CropWork) (max' : Bool) (rowBytes r : Nat) : List Byte :=
  let bits := if w.req.wide then 12 else 8
  let outW := (w.srcW + w.factor - 1) / w.factor
  let present := (boxRows w r).filterMap (·.pixels)
  let px := (List.range outW).map (fun c =>
    boxPixel max' (present.flatMap (fun row => (row.drop (c * w.factor)).take w.factor)))
  leBytes rowBytes ((px.zipIdx.map (fun q => q.1 * 2 ^ (bits * q.2))).sum)

/-- The status byte of output row `r` (R247, R248): bit 0 missing, 1 damaged, 2 partial. -/
def rowStatus (w : CropWork) (r : Nat) : Nat :=
  let rows := boxRows w r
  let miss := (rows.filter (·.pixels.isNone)).length
  (if miss = rows.length then 1 else 0) + (if rows.any (fun x => x.pixels.isSome && x.damaged) then 2 else 0) +
    (if 0 < miss ∧ miss < rows.length then 4 else 0)

/-- The crop of a finished work (R248). -/
def cropBytes (s : State) (w : CropWork) (lseq : BitVec 64) : List Byte :=
  let bits := if w.req.wide then 12 else 8
  let max' := s.flag Reg.CR_CTL F.CR_CTL_DS_MAX
  let outW := (w.srcW + w.factor - 1) / w.factor
  let outH := (w.srcH + w.factor - 1) / w.factor
  let rowBytes := ((outW * bits + 7) / 8 + 7) / 8 * 8
  let st := (List.range outH).map (rowStatus w)
  let pad := (64 - outH % 64) % 64
  let body := st.map (BitVec.ofNat 8) ++ List.replicate pad 0 ++ (List.range outH).flatMap (cropRow w max' rowBytes)
  let flags := (if 1 < w.factor then 1 else 0) + 2 * w.clipped.toNat + 4 * w.timeout.toNat +
    (if st.any (fun x => x.testBit 0) then 8 else 0) + (if st.any (fun x => x.testBit 1) then 16 else 0) +
    32 * max'.toNat + 64 * w.req.wide.toNat
  leBytes 1 0x83 ++ [w.req.bytes.getD 1 0] ++ leBytes 2 flags ++ leBytes 4 (recNat w.req.bytes 4 4) ++
    leBytes 8 lseq.toNat ++ leBytes 8 w.firstLine ++ leBytes 2 w.firstCol ++ leBytes 2 w.srcW ++ leBytes 4 w.srcH ++
    leBytes 2 outW ++ leBytes 2 outH ++ leBytes 1 w.factor ++ leBytes 1 bits ++ leBytes 2 rowBytes ++
    leBytes 4 (64 + body.length) ++ leBytes 4 (crc32 body).toNat ++ List.replicate 16 0 ++ body

def storeBase (s : State) : Nat := s.fld Reg.CR_STORE F.CR_STORE_BASE * 2 ^ 22
def storeSize (s : State) : Nat := 2 ^ s.fld Reg.CR_STORE F.CR_STORE_SIZE_LOG

/-- `n` bytes from `ptr` on, round the store, meet no crop that is still held (R249). -/
def storeRoom (s : State) (n : Nat) : Bool :=
  let z := storeSize s
  let from' (c : StoredCrop) : Nat := (c.offset + z - s.cr.ptr) % z
  n ≤ z && s.cr.store.all (fun c => n ≤ from' c && from' c + c.size ≤ z)

/-- Bytes written round the circular store. -/
def storeWrite (s : State) (bs : List Byte) : State :=
  let k := storeSize s - s.cr.ptr
  let s' := ddrAreaWrite 200000 s (storeBase s + s.cr.ptr) (bs.take k)
  ddrAreaWrite 200000 s' (storeBase s) (bs.drop k)

/-- The sessions that have a crop stream. -/
def cropUsers (s : State) : BitVec 16 :=
  (List.finRange 16).foldl (fun (v : BitVec 16) (k : Fin 16) =>
    match s.rn.sessions[k] with
    | some c => if c.crops.isSome then v ||| (1#16 <<< k.val) else v
    | none => v) 0

/-- A crop takes the next CSEQ of every crop stream (R430). -/
def handCrop (s : State) (num size : Nat) : State :=
  let add (c : Session) : Session := { c with crops := c.crops.map (fun t =>
    { t with next := t.next + 1, items := t.items ++ [⟨t.next, num, size, 0, 0, [], s.now, s.now⟩] }) }
  { s with rn := { s.rn with sessions := s.rn.sessions.map (fun o => o.map add) } }

/-- CROP_STORE_WRITE (R249): the oldest crop in work, once its rows are read and its LSEQ is known, is written into the
store and handed to the streams, or waits for space. -/
def execCropStoreWrite (s : State) : Host.Outcome State Fault Refusal :=
  match s.cr.work with
  | [] => .next s
  | w :: rest =>
    match w.req.lseq with
    | none => .next s
    | some l =>
      if w.rows.length < w.srcH then .next s
      else
        let bs := cropBytes s w l
        if !storeRoom s bs.length then .next (s.bump Reg.CR_STORE_WAIT F.CR_STORE_WAIT_COUNT)
        else
          let s := storeWrite s bs
          let num := s.cr.next
          let users := cropUsers s
          let held : List StoredCrop := if users = 0 then [] else [⟨num, s.cr.ptr, bs.length, users⟩]
          let s := { s with cr := { s.cr with
            work := rest, next := num + 1, ptr := (s.cr.ptr + bs.length) % storeSize s, store := s.cr.store ++ held } }
          let s := s.bump Reg.CR_CROPS F.CR_CROPS_COUNT
          let s := if (recNat bs 2 2).testBit 3 then s.raise 801 (payCause 0 (recNat w.req.bytes 32 4 / 2 ^ 19 % 16)) else s
          .next (handCrop s num bs.length)

end Sys2Proof.Machine
end

