-- ==== Sys2Proof/Machine/Fabric.lean ====
section
/-!
DEFINITION. The approach fabric as a circuit (06): configuration frames, word cells and their chains (R171–R175), routed
values (R176, R178), block memories (R179–R181), and one FCLK cycle of them all.
-/

namespace Sys2Proof.Machine

/-! ## Configuration frames (R183, R184) -/

/-- The address word of a frame. -/
def frameKey (type major minor : Nat) : Nat := type * 2 ^ 28 + major * 2 ^ 16 + minor

/-- The data words of the frame at an address, if one has been applied. -/
def frameData (r : Region) (key : Nat) : Option (List Word) := (r.frames.find? (fun f => f.key == key)).map (·.words)

/-- Driver enables and selects of the ROUTE frames applied (assumption log, entry 5). -/
def routeFrames (r : Region) : RouteFrames :=
  Config.route ((r.frames.filter (fun f => f.key / 2 ^ 28 == 2)).map (fun f => (f.key, f.words)))

/-! ## Routing (R176–R178) -/

/-- Tracks of a channel (R176): 8 + 8 + 4 word tracks, 16 + 8 + 4 bit tracks, numbered by rising length (log 5). -/
def channelTracks (bit : Bool) : Nat := if bit then 28 else 20

/-- Tiles of a segment of a track: 1, 4 or 16. -/
def trackLength (bit : Bool) (track : Nat) : Nat :=
  if track < (if bit then 16 else 8) then 1 else if track < (if bit then 24 else 16) then 4 else 16

def segLength (g : Segment) : Nat := trackLength g.bit g.track

/-- Where along its channel a segment starts, and the tile behind its last; vertical channels end at row 40, so the last
vertical length-16 segments have 8 tiles. -/
def segStart (g : Segment) : Nat := if g.vertical then g.row else g.col
def segStop (g : Segment) : Nat := min (segStart g + segLength g) (if g.vertical then 40 else 16)

/-- The region has the segment (R176). -/
def segValid (g : Segment) : Bool :=
  g.row < 40 && g.col < 16 && g.track < channelTracks g.bit && segStart g % segLength g == 0

/-- A segment passes a tile. -/
def segPasses (g : Segment) (c row : Nat) : Bool :=
  if g.vertical then g.col == c && g.row ≤ row && row < segStop g else g.row == row && g.col ≤ c && c < segStop g

/-- The tile (column, row) whose switch box holds a segment's driver at one end. -/
def segEndTile (g : Segment) (high : Bool) : Nat × Nat :=
  let at' := if high then segStop g - 1 else segStart g
  if g.vertical then (g.col, at') else (at', g.row)

/-- `GUARD_LOG` of a segment, without VALID (R202). -/
def segLogWord (g : Segment) : BitVec 32 :=
  BitVec.ofNat 32 (g.vertical.toNat * 2 ^ 30 + g.bit.toNat * 2 ^ 29 + g.track * 2 ^ 21 + g.row * 2 ^ 8 + g.col)

/-- A word source meets at the switch box of a tile (R176, R182): a segment that passes it, the tile's cell, gearbox port
IN k at row k of column 0. The spec gives no tile to a block-memory port (log 5). -/
def wordMeets (c row : Nat) : WordSrc → Bool
  | .segment g => !g.bit && segValid g && segPasses g c row
  | .cell c' row' => c' == c && row' == row
  | .input k => c == 0 && row == k && k < 32
  | .memory .. | .zero | .ring => true

/-- A bit source meets at the switch box of a tile: VALID, SOL, EOL and DAMAGED at rows 32 to 35 of column 0. -/
def bitMeets (c row : Nat) : BitSrc → Bool
  | .segment g => g.bit && segValid g && segPasses g c row
  | .flag c' row' => c' == c && row' == row
  | .valid => c == 0 && row == 32
  | .sol => c == 0 && row == 33
  | .eol => c == 0 && row == 34
  | .damaged => c == 0 && row == 35
  | .busy .. | .open' | .low | .ring => true

/-- The segments with both drivers enabled (R178), as `GUARD_LOG` names them. -/
def contendedOf (f : RouteFrames) : List (BitVec 32) :=
  let on (high : Bool) (g : Segment) : Bool := f.drivers.any (fun d => d.seg == g && d.high == high && d.enable)
  (((f.drivers.map (·.seg)).filter (fun g => segValid g && on false g && on true g)).map segLogWord).eraseDups

/-- The driver that drives a segment: none while its contention guard is tripped (R178). -/
def segmentDriver (f : RouteFrames) (guards : List (BitVec 32)) (g : Segment) : Option Driver :=
  if guards.contains (segLogWord g) then none else f.drivers.find? (fun d => d.seg == g && d.enable)

/-- The source at the far end of the segments that lead to a word input; a segment that nothing drives reads 0. A ring of
segments has no source. -/
def wordSource (f : RouteFrames) (guards : List (BitVec 32)) : Nat → WordSrc → WordSrc
  | 0, .segment _ => .ring
  | n + 1, .segment g =>
    match segmentDriver f guards g with
    | none => .zero
    | some d => if wordMeets (segEndTile g d.high).1 (segEndTile g d.high).2 d.word then wordSource f guards n d.word else .zero
  | _, x => x

def bitSource (f : RouteFrames) (guards : List (BitVec 32)) : Nat → BitSrc → BitSrc
  | 0, .segment _ => .ring
  | n + 1, .segment g =>
    match segmentDriver f guards g with
    | none => .low
    | some d => if bitMeets (segEndTile g d.high).1 (segEndTile g d.high).2 d.bit then bitSource f guards n d.bit else .low
  | _, .open' => .low
  | _, x => x

/-- The circuit that the ROUTE frames applied connect, with its contention guards: an input takes a segment that passes its
tile, and is not connected otherwise (R171, R176). The transposer's ports and the event ports take horizontal tracks that
leave column 15 (R191, R201). -/
def routeOf (r : Region) : RouteConfig :=
  let f := routeFrames r
  let n := f.drivers.length + 1
  let word (ok : Segment → Bool) (x : WordSrc) : WordSrc :=
    match x with
    | .segment g => if !g.bit && segValid g && ok g then wordSource f r.guards n x else .zero
    | _ => .zero
  let bit (ok : Segment → Bool) (x : BitSrc) : BitSrc :=
    match x with
    | .segment g => if g.bit && segValid g && ok g then bitSource f r.guards n x else .open'
    | _ => .open'
  let any : Segment → Bool := fun _ => true
  let east (row : Nat) (g : Segment) : Bool := !g.vertical && segPasses g 15 row
  let cell (c row : Nat) (i : CellInputs) : CellInputs :=
    let ok (g : Segment) : Bool := segPasses g c row
    ⟨word ok i.a, word ok i.b, i.seq.map (bit ok), bit ok i.ce⟩
  let port (p : MemoryPort) : MemoryPort :=
    { p with enable := bit any p.enable, write := bit any p.write, addr := word any p.addr, din := p.din.map (word any) }
  { cell := f.ins.cell.zipIdx.map (fun col => col.1.zipIdx.map (fun i => cell col.2 i.2 i.1))
    memory := f.ins.memory.map (fun m => (port m.1, port m.2))
    out := f.ins.out.zipIdx.map (fun w => word (east w.2) w.1)
    valid := bit (east 32) f.ins.valid
    eol := bit (east 33) f.ins.eol
    damaged := bit (east 34) f.ins.damaged
    userEv := f.ins.userEv.zipIdx.map (fun w => bit (east (36 + w.2)) w.1) }

/-- Entry `e` of the instruction register of a cell (R184). -/
def cellEntry (r : Region) (c row e : Nat) : Nat :=
  match frameData r (frameKey 1 c (row / 8)) with
  | none => 0
  | some ws => (ws.getD (8 * (row % 8) + e) 0).toNat

/-! ## Word-cell instructions (R172) -/

structure CellIns where
  op : Nat
  asrc : Nat
  bsrc : Nat
  oreg : Bool
  chain : Nat
  cin : Bool
  imm : BitVec 16
deriving DecidableEq, Repr

def CellIns.ofNat (v : Nat) : CellIns :=
  { op := bits v 31 27, asrc := bits v 26 25, bsrc := bits v 24 23, oreg := bits v 22 22 == 1, chain := bits v 21 20,
    cin := bits v 19 19 == 1, imm := BitVec.ofNat 16 v }

/-! ## One cycle -/

/-- What the cells of a region see in a cycle: the region as it stands at its start, the routed circuit, the beat from
the gearbox, and the number of free values drawn before it. -/
structure CycleEnv where
  r : Region
  cfg : RouteConfig
  beat : Beat
  drawn : Nat

def Beat.none : Beat := ⟨[], false, false, false⟩

/-- Data out of a block-memory port: the output register's where it is enabled (R179). -/
def portOut (x : CycleEnv) (mem : Nat) (b : Bool) : BitVec 72 × Bool :=
  let p := x.r.bmPorts.getD (2 * mem + b.toNat) .reset
  let m := x.cfg.memory.getD mem default
  if (if b then m.2 else m.1).outReg then (p.outReg, p.busyReg) else (p.out, p.busy)

/-- The word on a word input, `o` being the outputs O of the cells. -/
def wordOf (x : CycleEnv) (o : Array (BitVec 16)) : WordSrc → BitVec 16
  | .zero => 0
  | .input k => x.beat.pixels.getD k 0
  | .cell c row => o.getD (16 * row + c) 0
  | .memory mem b part => ((portOut x mem b).1 >>> (16 * part)).setWidth 16
  | .segment _ => 0
  | .ring => Config.free 16 (x.drawn + 1328)

/-- The bit on a bit input; an input that is not connected reads `d` (R171). FO always carries F. -/
def bitOf (x : CycleEnv) (d : Bool) : BitSrc → Bool
  | .open' => d
  | .low | .segment _ => false
  | .ring => (Config.free 1 (x.drawn + 1329)).getLsbD 0
  | .valid => !x.beat.pixels.isEmpty
  | .sol => x.beat.sol
  | .eol => x.beat.eol
  | .damaged => x.beat.damaged
  | .flag c row => x.r.cellF.getD (16 * row + c) false
  | .busy mem b => (portOut x mem b).2

def cellInputs (x : CycleEnv) (c row : Nat) : CellInputs := (x.cfg.cell.getD c []).getD row default

/-- The instruction that a cell executes in the cycle (R171). -/
def cellIns (x : CycleEnv) (c row : Nat) : CellIns :=
  let seq := (cellInputs x c row).seq
  let e := (List.range 3).foldl (fun n i => n + if bitOf x false (seq.getD i .open') then 2 ^ i else 0) 0
  CellIns.ofNat (cellEntry x.r c row e)

def cellReg (x : CycleEnv) (c row : Nat) : BitVec 16 := x.r.cellR.getD (16 * row + c) 0
def cellFlag (x : CycleEnv) (c row : Nat) : Bool := x.r.cellF.getD (16 * row + c) false

/-- A free value for a cell (assumption log, entry 2). -/
def cellFree (x : CycleEnv) (c row : Nat) : BitVec 16 := Config.free 16 (x.drawn + 16 * row + c)

/-- Operands a and b of a cell (R172); a reserved source gives a free value. -/
def cellA (x : CycleEnv) (o : Array (BitVec 16)) (c row : Nat) : BitVec 16 :=
  let i := cellIns x c row
  if i.asrc = 0 then wordOf x o (cellInputs x c row).a else if i.asrc = 1 then cellReg x c row
  else if i.asrc = 2 then 0 else cellFree x c row

def cellB (x : CycleEnv) (o : Array (BitVec 16)) (c row : Nat) : BitVec 16 :=
  let i := cellIns x c row
  if i.bsrc = 0 then wordOf x o (cellInputs x c row).b else if i.bsrc = 1 then i.imm
  else if i.bsrc = 2 then cellReg x c row else cellFree x c row

/-- The lowest column and the length of the chain that a cell belongs to (R175), where its cells form one. -/
def chainSpan (x : CycleEnv) (c row : Nat) : Option (Nat × Nat) :=
  let k (j : Nat) : Nat := (cellIns x j row).chain
  let low := (List.range (c % 4 + 1)).find? (fun j => k (c - j) == 1)
  match low with
  | none => none
  | some j =>
    let c0 := c - j
    match [2, 3, 4].find? (fun n => k (c0 + n - 1) == 3) with
    | none => none
    | some n => if c0 % 4 + n ≤ 4 ∧ c < c0 + n then some (c0, n) else none

/-- The operations that a chain joins: ADD, SUB, LT, LTU, EQ; and those that act per cell in it (R175). -/
def chainJoins (op : Nat) : Bool := [2, 3, 18, 19, 20].contains op
def chainPerCell (op : Nat) : Bool := [0, 1, 4, 5, 6, 7].contains op

/-- The carry that enters a cell that is alone or lowest (R172): the standard value, or the cell's F. -/
def carryIn (x : CycleEnv) (c row : Nat) : Bool :=
  let i := cellIns x c row
  if i.cin then cellFlag x c row else i.op == 3

/-- One operation over the cells of a chain, as seen by its cell in column `c`. -/
def chainResult (x : CycleEnv) (o : Array (BitVec 16)) (c row c0 n : Nat) : BitVec 16 × Option Bool :=
  let join (f : Nat → BitVec 16) : Nat := (List.range n).foldl (fun v j => v + (f (c0 + j)).toNat * 2 ^ (16 * j)) 0
  let w := 16 * n
  let op := (cellIns x c0 row).op
  let res := cellOp w op (BitVec.ofNat w (join (fun j => cellA x o j row))) (BitVec.ofNat w (join (fun j => cellB x o j row)))
    (carryIn x c0 row) false 0
  let part : BitVec 16 := (res.1 >>> (16 * (c - c0))).setWidth 16
  if op = 2 ∨ op = 3 then (part, if c + 1 = c0 + n then res.2 else none)
  else if c = c0 then (part, res.2) else (0, none)

/-- The cycle's result of a cell, and what F takes (R171, R173, R175). An operation or a chain that the spec gives no
meaning has a free result. -/
def cellResult (x : CycleEnv) (o : Array (BitVec 16)) (c row : Nat) : BitVec 16 × Option Bool :=
  let i := cellIns x c row
  let alone := cellOp 16 i.op (cellA x o c row) (cellB x o c row) (carryIn x c row) (cellFlag x c row) (cellReg x c row)
  if 24 ≤ i.op then (cellFree x c row, none)
  else if i.chain = 0 ∨ chainPerCell i.op then alone
  else if chainJoins i.op then
    match chainSpan x c row with
    | some (c0, n) => chainResult x o c row c0 n
    | none => (cellFree x c row, none)
  else (cellFree x c row, none)

/-- Outputs O of every cell, given the outputs that their inputs see. -/
def cellOutputs (x : CycleEnv) (o : Array (BitVec 16)) : Array (BitVec 16) :=
  ((List.range 640).map (fun k =>
    if (cellIns x (k % 16) (k / 16)).oreg then cellReg x (k % 16) (k / 16) else (cellResult x o (k % 16) (k / 16)).1)).toArray

/-- The outputs after the values have passed through `n` cells. -/
def settle (x : CycleEnv) : Nat → Array (BitVec 16)
  | 0 => (x.r.cellR).toArray
  | n + 1 => cellOutputs x (settle x n)

/-- The outputs of the cycle: with 640 cells, a circuit without a combinational loop settles within 640 passes; a cell
that has not settled then has a free output. -/
def settled (x : CycleEnv) : Array (BitVec 16) :=
  let o := settle x 640
  let o' := cellOutputs x o
  ((List.range 640).map (fun k =>
    if o.getD k 0 = o'.getD k 0 then o.getD k 0 else Config.free 16 (x.drawn + 640 + k))).toArray

/-- R and F of every cell at the end of the cycle (R171, R173). -/
def cellsAfter (x : CycleEnv) (o : Array (BitVec 16)) : List (BitVec 16 × Bool) :=
  (List.range 640).map (fun k =>
    let c := k % 16
    let row := k / 16
    let f := cellFlag x c row
    if bitOf x true (cellInputs x c row).ce && (cellIns x c row).op != 0 then
      let v := cellResult x o c row
      (v.1, v.2.getD f)
    else (cellReg x c row, f))

/-! ## Block memories (R179–R181) -/

/-- Row of a block memory in 512 × 72 form; rows not listed are 0. -/
def bmGet : List (Nat × BitVec 72) → Nat → BitVec 72
  | [], _ => 0
  | (k, v) :: r, a => if k = a then v else bmGet r a

def bmSet : List (Nat × BitVec 72) → Nat → BitVec 72 → List (Nat × BitVec 72)
  | [], a, w => if w = 0 then [] else [(a, w)]
  | (k, v) :: r, a, w =>
    if k = a then (if w = 0 then r else (a, w) :: r)
    else if a < k then (if w = 0 then (k, v) :: r else (a, w) :: (k, v) :: r)
    else (k, v) :: bmSet r a w

/-- An access of one port in the cycle: first bit and width of its word, whether it writes, and the data in. -/
structure BmAccess where
  lo : Nat
  width : Nat
  write : Bool
  din : BitVec 72

/-- The word of a port (R179): aspects 0 to 3 cut the rows of 72 bits; aspect 4 takes halves of the low 8 bits of each
group of 9. -/
def bmWord (aspect addr : Nat) : Nat × Nat :=
  if aspect = 0 then (72 * (addr % 512), 72) else if aspect = 1 then (36 * (addr % 1024), 36)
  else if aspect = 2 then (18 * (addr % 2048), 18) else if aspect = 3 then (9 * (addr % 4096), 9)
  else (9 * (addr % 8192 / 2) + 4 * (addr % 2), 4)

def bmAccess (x : CycleEnv) (o : Array (BitVec 16)) (p : MemoryPort) : Option BmAccess :=
  if bitOf x false p.enable then
    let w := bmWord p.aspect (wordOf x o p.addr).toNat
    let d := p.din.zipIdx.foldl (fun (v : BitVec 72) q => v ||| ((wordOf x o q.1).setWidth 72 <<< (16 * q.2))) 0
    some ⟨w.1, w.2, bitOf x false p.write, d⟩
  else none

def bmMask (a : BmAccess) : BitVec 72 := BitVec.ofNat 72 ((2 ^ a.width - 1) * 2 ^ (a.lo % 72))

def bmRead (m : List (Nat × BitVec 72)) (mem : Nat) (a : BmAccess) : BitVec 72 :=
  (bmGet m (512 * mem + a.lo / 72) &&& bmMask a) >>> (a.lo % 72)

def bmWrite (m : List (Nat × BitVec 72)) (mem : Nat) (a : BmAccess) : List (Nat × BitVec 72) :=
  let k := 512 * mem + a.lo / 72
  if a.write then bmSet m k ((bmGet m k &&& ~~~bmMask a) ||| ((a.din <<< (a.lo % 72)) &&& bmMask a)) else m

/-- Two accesses share a bit (R180). -/
def bmCollide (a b : BmAccess) : Bool := a.lo < b.lo + b.width && b.lo < a.lo + a.width

/-- A port at the end of the cycle: its data out moves on, and a new access brings its data (R179, R180). -/
def bmPortAfter (p : BmPort) (d : Option (BitVec 72)) (busy : Bool) : BmPort :=
  { out := d.getD p.out, outReg := p.out, busy := busy, busyReg := p.busy }

/-- One memory in the cycle: the stored rows, its two ports, and the collisions counted. -/
def bmCycle (x : CycleEnv) (o : Array (BitVec 16)) (mem : Nat) (m : List (Nat × BitVec 72)) :
    List (Nat × BitVec 72) × BmPort × BmPort × Nat :=
  let pa := x.r.bmPorts.getD (2 * mem) .reset
  let pb := x.r.bmPorts.getD (2 * mem + 1) .reset
  let cfg := x.cfg.memory.getD mem default
  let free (b : Nat) : BitVec 72 := Config.free 72 (x.drawn + 1280 + 2 * mem + b)
  match bmAccess x o cfg.1, bmAccess x o cfg.2 with
  | none, none => (m, bmPortAfter pa none false, bmPortAfter pb none false, 0)
  | some a, none => (bmWrite m mem a, bmPortAfter pa (some (bmRead m mem a)) false, bmPortAfter pb none false, 0)
  | none, some b => (bmWrite m mem b, bmPortAfter pa none false, bmPortAfter pb (some (bmRead m mem b)) false, 0)
  | some a, some b =>
    let hit := bmCollide a b
    let da := if hit && !a.write && b.write then free 0 else bmRead m mem a
    let db := if hit && a.write && !b.write then free 1 else bmRead m mem b
    (bmWrite (bmWrite m mem a) mem b, bmPortAfter pa (some da) false,
     bmPortAfter pb (some db) (hit && (a.write || b.write)), hit.toNat)

/-- All 24 memories in the cycle. -/
def bmCycles (x : CycleEnv) (o : Array (BitVec 16)) : List (Nat × BitVec 72) × List BmPort × Nat :=
  (List.range 24).foldl (fun acc mem =>
    let c := bmCycle x o mem acc.1
    (c.1, acc.2.1 ++ [c.2.1, c.2.2.1], acc.2.2 + c.2.2.2)) (x.r.bmem, [], 0)

/-- The ports on the east edge in the cycle (R191, R201). -/
def edgePorts (x : CycleEnv) (o : Array (BitVec 16)) : EdgePorts :=
  { words := x.cfg.out.map (wordOf x o), valid := bitOf x false x.cfg.valid, eol := bitOf x false x.cfg.eol,
    damaged := bitOf x false x.cfg.damaged,
    user := (List.range 4).foldl (fun (v : BitVec 4) i =>
      if bitOf x false (x.cfg.userEv.getD i .open') then v ||| (1#4 <<< i) else v) 0 }

/-- Free values that a cycle may use: two for each cell, one for each memory port, and those of rings of word and of bit
segments. -/
def cycleFree : Nat := 1330

/-- The region after one FCLK cycle of its user logic with a beat, and the collisions counted. -/
def fabricCycle (r : Region) (beat : Beat) (drawn : Nat) : Region × Nat :=
  let x : CycleEnv := ⟨r, routeOf r, beat, drawn⟩
  let o := settled x
  let cells := cellsAfter x o
  let m := bmCycles x o
  let e := edgePorts x o
  ({ r with cellR := cells.map Prod.fst, cellF := cells.map Prod.snd, bmem := m.1, bmPorts := m.2.1, ports := e,
            userPrev := r.ports.user }, m.2.2)

end Sys2Proof.Machine
end

