-- ==== Sys2Proof/Machine/Region.lean ====
section
/-!
DEFINITION. The approach regions (06): source switch, frames and seals, the gearbox, the transposer, the line buffer,
replay and the history ring: meanings of RG_SRC_WRITE to HISTORY_WRITE_DONE.
-/

namespace Sys2Proof.Machine

/-! ## Region states (R189) -/

/-- The region enters a state: RG_STATE is raised, and an SC bit whose action is complete reads 0 (R497). A replay copy
goes no further than the line being copied when the region leaves RUNNING (R198). -/
def rgEnter (s : State) (m : Fin 17) (st : Nat) : State :=
  let c := Reg.RG_CTL m
  let s := s.setFld (Reg.RG_STAT m) F.RG_STAT_STATE st
  let s := if st = 0 then s.setFld c F.RG_CTL_UNSEAL 0 else if st = 2 then s.setFld c F.RG_CTL_ENABLE 0
    else s
  let s := if st = 3 then s else s.setFld c F.RG_CTL_DISABLE 0
  let r := s.region m
  let s := match r.replay with
    | some k => if st = 2 then s else s.setRegion m { r with replay := some { k with left := min k.left 1 } }
    | none => s
  raiseRg s m 0 0

/-- The region's seal has verified: RUNNING, DRAINING or DISABLED (R187, R189). -/
def rgSealed (s : State) (m : Nat) : Bool := rgState s m == 2 || rgState s m == 3 || rgState s m == 4

/-- The region's clocks run: RUNNING or DRAINING. -/
def rgRuns (s : State) (m : Nat) : Bool := rgState s m == 2 || rgState s m == 3

/-! ## The ingest switch (R168, R169) -/

/-- The source that `RG_SRC` selects. -/
def srcWord (w : BitVec 32) : Option (Fin 16) :=
  if F.RG_SRC_EN.get w = 0 then none else some (Fin.ofNat 16 (F.RG_SRC_PORT.get w))

/-- A change of source takes effect when no packet is in progress to the region (R169). -/
def switchSource (s : State) (m : Fin 17) : State :=
  let r := s.region m
  let s := if r.taking.isSome then s else s.setRegion m { r with source := srcWord (s.reg (Reg.RG_SRC m)) }
  flushMarkers 64 s m

/-- A write of `RG_SRC` (R168): ignored as a whole when it would give a port a third region. -/
def writeRgSrc (s : State) (m : Fin 17) (val : BitVec 32) : State :=
  let others (h : Fin 16) : Nat :=
    ((List.finRange 17).filter (fun k => k != m && srcWord (s.reg (Reg.RG_SRC k)) == some h)).length
  let w := F.RG_SRC_PORT.put (F.RG_SRC_EN.put 0 (F.RG_SRC_EN.get val)) (F.RG_SRC_PORT.get val)
  match srcWord w with
  | some h => if 2 ≤ others h then s else switchSource (s.setReg (Reg.RG_SRC m) w) m
  | none => switchSource (s.setReg (Reg.RG_SRC m) w) m

/-- RG_SRC_WRITE (R168). -/
def execRgSrcWrite (m : Fin 17) (val : BitVec 32) (s : State) : Host.Outcome State Fault Refusal :=
  .next (writeRgSrc s m val)

/-- SOURCE_SWITCH (R169). -/
def execSourceSwitch (m : Fin 17) (s : State) : Host.Outcome State Fault Refusal := .next (switchSource s m)

/-! ## The gearbox (R170, R182) -/

/-- `n` bits of a byte string from bit `i` on, packed least significant bit first (R141); bits beyond its end are 0. -/
def streamBits (bs : List Byte) (i n : Nat) : Nat := (leNat ((bs.drop (i / 8)).take 4) >>> (i % 8)) % 2 ^ n

/-- Pixels per beat for a value of a BEAT field. -/
def beatSize (code : Nat) : Nat := if code = 0 then 8 else if code = 1 then 16 else 32

/-- Pixels that the gearbox can hand on: all of them once the data has come or the packet has ended. -/
def gearHeld (g : GearLine) (bits : Nat) : Nat :=
  if g.ended ∨ g.dblocks < g.blocks then g.pixels else min g.pixels (g.data.length * 8 / max 1 bits)

/-- Whether the gearbox has a beat to send: BEAT pixels, the closing beat only once the packet has ended (R182). -/
def gearReady (g : GearLine) (bits beat : Nat) : Bool :=
  if g.pixels ≤ g.handed + beat then g.ended else g.handed + beat ≤ gearHeld g bits

/-- The next beat of a line. -/
def gearBeat (g : GearLine) (bits beat : Nat) : Beat :=
  let last := g.pixels ≤ g.handed + beat
  let px (k : Nat) : BitVec 16 :=
    if (g.ended && g.stamp.damaged) || g.pixels ≤ g.handed + k then 0
    else BitVec.ofNat 16 (streamBits g.data ((g.handed + k) * bits) bits)
  ⟨(List.range beat).map px, g.handed = 0, last, last && g.stamp.damaged⟩

/-- A packet's stamp reaches the transposer (R191); a fifth one drops the oldest, whose line is lost (R192). -/
def queueStamp (s : State) (m : Fin 17) (k : StampIn) : State :=
  let r := s.region m
  match r.stamps with
  | old :: rest =>
    if 4 ≤ r.stamps.length then
      let s := s.setRegion m { r with stamps := rest ++ [k] }
      let s := raiseRg (s.bump (Reg.TP_ERR m) F.TP_ERR_MISSING) m 7 0
      addMarker (reportLine s old.head old.index) m old
    else s.setRegion m { r with stamps := r.stamps ++ [k] }
  | [] => s.setRegion m { r with stamps := [k] }

/-- A line of region `m` that is complete already is marked damaged: its packet ended so after the user logic's EOL. -/
def markDamaged (s : State) (m : Fin 17) (i : BitVec 64) : State :=
  (List.range 32).foldl (fun s k =>
    if 2 ≤ slotState s m k ∧ slotIndex s m k = i then setSlotFlags s m k (slotFlags s m k ||| 1) else s) s

/-- The packet of the gearbox has ended with a status, which its stamp carries on (R191). -/
def gearEnd (s : State) (m : Fin 17) (g : GearLine) (damaged : Bool) : State :=
  let mark (k : StampIn) : StampIn := if k.index = g.stamp.index then { k with damaged := k.damaged || damaged } else k
  let r := s.region m
  let s := s.setRegion m { r with
    gear := some { g with ended := true, stamp := mark g.stamp }, stamps := r.stamps.map mark,
    out := r.out.map (fun o => { o with stamp := mark o.stamp }) }
  if damaged then markDamaged s m g.stamp.index else s

/-- Region `m` is done with the first item for it of the port whose packet is the oldest that it has still to take; the item
leaves the queue once every region is done with it (R169, R170). -/
def takeItem (s : State) (m : Fin 17) : Option (IngestItem × State) :=
  match (s.region m).feeds with
  | [] => none
  | h :: rest =>
    let p := s.head h
    match p.ingest.find? (fun g => g.regions.getLsbD m.val) with
    | none => none
    | some g =>
      let g' := { g with regions := g.regions &&& ~~~(1#17 <<< m.val) }
      let q := replaceFirst (· == g) (fun _ => g') p.ingest
      let s := s.setHead h { p with ingest := q.filter (fun e => e.regions != 0) }
      let ends := match g.item with
        | .finish _ => true
        | _ => false
      some (g.item, if ends then s.setRegion m { s.region m with feeds := rest } else s)

/-- What the gearbox takes in a cycle: the start of a packet, at most one block, the packet's end (R170). -/
def gearTake (s : State) (m : Fin 17) : State :=
  let begin (s : State) : State :=
    if (s.region m).gear.isSome then s
    else match takeItem s m with
      | some (.start k px db, s) =>
        s.setRegion m { s.region m with gear := some ⟨k, px, db, 0, false, [], 0⟩ }
      | _ => s
  let block (s : State) : State :=
    match (s.region m).gear with
    | none => s
    | some g =>
      if g.ended then s
      else match takeItem s m with
        | some (.block b, s) =>
          let g' := if g.blocks = 0 then { g with stamp := { g.stamp with user := (b.drop 24).take 32 } }
            else if g.blocks ≤ g.dblocks then { g with data := g.data ++ b } else g
          s.setRegion m { s.region m with gear := some { g' with blocks := g.blocks + 1 } }
        | _ => s
  let finish (s : State) : State :=
    match (s.region m).gear with
    | none => s
    | some g =>
      if g.ended then s
      else match takeItem s m with
        | some (.finish d, s) => gearEnd s m g d
        | _ => s
  finish (block (begin s))

/-- The beat of the cycle (R182): the gearbox sends one where it has one; the stamp goes with the line's first beat. -/
def gearSend (s : State) (m : Fin 17) : Beat × State :=
  let bits := s.fld (Reg.GB_CTL m) F.GB_CTL_PIXEL_BITS
  let beat := beatSize (s.fld (Reg.GB_CTL m) F.GB_CTL_BEAT)
  match (s.region m).gear with
  | none => (.none, s)
  | some g =>
    if gearReady g bits beat then
      let b := gearBeat g bits beat
      let s := if b.sol then queueStamp s m g.stamp else s
      (b, s.setRegion m { s.region m with gear := if b.eol then none else some { g with handed := g.handed + beat } })
    else (.none, s)

/-! ## The transposer and the line buffer (R191–R196) -/

/-- Twelve-bit pixels packed least significant bit first (R141). -/
def pack12 : List (BitVec 12) → Nat
  | [] => 0
  | p :: r => p.toNat + 4096 * pack12 r

/-- The pixels of a packed slot. -/
def unpack12 : List Byte → List (BitVec 12)
  | a :: b :: c :: r =>
    (a.setWidth 12 ||| (b.setWidth 12 <<< 8)) :: ((b >>> 4).setWidth 12 ||| (c.setWidth 12 <<< 4)) :: unpack12 r
  | _ => []

def slotBytes : Nat := 24576

/-- A new line takes slot `k` (R193): the slot is filling and its columns read 0. -/
def beginSlot (s : State) (m : Fin 17) (k : Fin 32) (st : StampIn) : State :=
  let a := Win.slot m k
  let d := Win.slotDesc m k
  let s := { s with mem := (s.mem.clear a (a + slotBytes)).clear d (d + 64) }
  let s := s.clearErrs a (a + slotBytes)
  let s := ((s.writeLE d 8 st.index.toNat).writeLE (d + 8) 8 st.coord.toNat).writeLE (d + 16) 8 st.time.toNat
  setSlotState s m k 1

/-- The slot that a new line of region `m` takes (R193): an empty one, else that of the oldest consumed line. -/
def chooseSlot (s : State) (m : Fin 17) : Option (Fin 32) :=
  match (List.finRange 32).find? (fun (k : Fin 32) => slotState s m k.val == 0) with
  | some k => some k
  | none => (s.region m).consumed.head?

/-- A slot that is taken is no consumed line any more. -/
def takeSlot (s : State) (m : Fin 17) (k : Fin 32) : State :=
  s.setRegion m { s.region m with consumed := (s.region m).consumed.erase k }

/-- The output line that begins with a beat (R191–R193, R197). -/
def beginLine (s : State) (m : Fin 17) : State :=
  let r := s.region m
  let nowhere (k : StampIn) : OutLine := ⟨k, none, 0, false⟩
  match r.stamps with
  | [] =>
    let s := s.setRegion m { r with out := some (nowhere ⟨BitVec.allOnes 64, 0, 0, false, [], 0⟩) }
    raiseRg (s.bump (Reg.TP_ERR m) F.TP_ERR_EXTRA) m 7 0
  | st :: rest =>
    let s := s.setRegion m { r with stamps := rest, out := some (nowhere st) }
    if r.copied.any (fun i => st.index.toNat ≤ i.toNat) then s
    else match chooseSlot s m with
      | none =>
        let s := raiseRg (s.bump (Reg.LB_OVERRUN m) F.LB_OVERRUN_COUNT) m 4 (payLine 0 st.index)
        addMarker (reportLine s st.head st.index) m st
      | some k =>
        let s := beginSlot (takeSlot s m k) m k st
        let s := s.setRegion m { s.region m with out := some ⟨st, some k, 0, false⟩ }
        showSlots (enterOrder s m ⟨st.index, some k⟩) m

/-- The line whose EOL has been taken is complete (R195): its descriptor is final, the history ring has it to store, and
a span that waits for it serves it. -/
def completeLine (s : State) (m : Fin 17) (o : OutLine) (k : Fin 32) (damaged : Bool) : State :=
  let d := Win.slotDesc m k
  let px := s.readBytes (Win.slot m k) slotBytes
  let s := s.writeLE (d + 26) 2 o.cols
  let s := s.writeLE (d + 28) 4 (crc32 px).toNat
  let s := s.writeBytes (d + 32) o.stamp.user
  let s := setSlotState (setSlotFlags s m k (o.stamp.damaged || damaged).toNat) m k 2
  let r := s.region m
  let s := if s.flag (Reg.HR_CTL m) F.HR_CTL_EN then
      s.setRegion m { r with histDue := r.histDue ++ [⟨some k, o.stamp.index, o.stamp.coord, o.stamp.time,
        o.stamp.damaged || damaged, false, true⟩] }
    else s
  showSlots (refreshServed 600 s (lead s m)) m

/-- The transposer takes the beat that stands at its ports (R191, R192); without VALID nothing happens. -/
def takeBeat (s : State) (m : Fin 17) : State :=
  let e := (s.region m).ports
  if !rgRuns s m || !e.valid then s
  else
    let s := s.setRegion m { s.region m with ports := { e with valid := false } }
    let s := if (s.region m).out.isNone then beginLine s m else s
    match (s.region m).out with
    | none => s
    | some o =>
      let n := beatSize (s.fld (Reg.TP_CTL m) F.TP_CTL_BEAT)
      let wb := s.fld (Reg.TP_CTL m) F.TP_CTL_WB
      let isOver := 16384 < o.cols + n
      let s := if isOver ∧ !o.long then raiseRg (s.bump (Reg.TP_ERR m) F.TP_ERR_LONG) m 7 0 else s
      let px := (List.range n).map (fun i => BitVec.ofNat 12 ((e.words.getD i 0).toNat % 2 ^ wb))
      let s := match o.slot with
        | some k =>
          if isOver then s
          else
            let a := Win.slot m k + o.cols / 2 * 3
            (s.writeLE a (n * 3 / 2) (pack12 px)).clearErrs (a / 8 * 8) (a + n * 3 / 2)
        | none => s
      let o := { o with cols := if isOver then o.cols else o.cols + n, long := o.long || isOver }
      if e.eol then
        let s := s.setRegion m { s.region m with out := none }
        let s := match o.slot with
          | some k => completeLine s m o k e.damaged
          | none => s
        flushMarkers 64 s m
      else s.setRegion m { s.region m with out := some o }

/-- TRANSPOSER_BEAT (R191). -/
def execTransposerBeat (m : Fin 17) (s : State) : Host.Outcome State Fault Refusal := .next (takeBeat s m)

/-- The user events that rise in the cycle are raised (R201). -/
def userEvents (s : State) (m : Fin 17) : State :=
  let r := s.region m
  (List.range 4).foldl (fun s i =>
    if r.ports.user.getLsbD i && !r.userPrev.getLsbD i then raiseRg s m (12 + i) 0 else s) s

/-- WORD_CELL_CYCLE (R171): one FCLK cycle of the region's gearbox and user logic. A beat that still stands at the
transposer's ports is taken first. -/
def execWordCellCycle (m : Fin 17) (ups : List Upset) (s : State) : Host.Outcome State Fault Refusal :=
  let s := applyUpsets s ups
  if !rgRuns s m then .next s
  else
    let (beat, s) := gearSend (takeBeat s m) m
    let bits := s.fld (Reg.GB_CTL m) F.GB_CTL_PIXEL_BITS
    let room (g : GearLine) : Bool := gearHeld g bits < g.handed + beatSize (s.fld (Reg.GB_CTL m) F.GB_CTL_BEAT)
    let s := match (s.region m).gear with
      | some g => if room g || g.dblocks ≤ g.blocks || g.pixels ≤ gearHeld g bits then gearTake s m else s
      | none => gearTake s m
    let (r, hits) := fabricCycle (s.region m) beat s.freeCtr
    let s := { s.setRegion m r with freeCtr := s.freeCtr + cycleFree }
    .next (userEvents (s.bump (Reg.BM_COLL m) F.BM_COLL_COUNT hits) m)

/-! ## Frames and seals (R183–R188) -/

/-- The frames in ascending order of address, with one applied. -/
def frameInsert : List Frame → Frame → List Frame
  | [], f => [f]
  | x :: r, f => if x.key = f.key then f :: r else if f.key < x.key then f :: x :: r else x :: frameInsert r f

/-- TYPE, MAJOR and MINOR name a frame of R184. -/
def frameValid (key : Nat) : Bool :=
  let major := bits key 27 16
  let minor := bits key 15 0
  match key / 2 ^ 28 with
  | 1 => major ≤ 15 && minor ≤ 4
  | 2 => major ≤ 15 && minor ≤ 39
  | 3 => major ≤ 15 && minor = 0
  | 4 => major ≤ 23 && minor ≤ 31
  | 5 => major = 0 && minor = 0
  | 15 => major = 0 && minor = 0
  | _ => false

/-- R and F of every cell as the INIT frames applied set them, 0 without one (R187). -/
def initCells (r : Region) : Region :=
  let w (k : Nat) : Nat := match frameData r (frameKey 3 (k % 16) 0) with
    | none => 0
    | some ws => (ws.getD (k / 16) 0).toNat
  { r with cellR := (List.range 640).map (fun k => BitVec.ofNat 16 (w k)),
           cellF := (List.range 640).map (fun k => (w k).testBit 16) }

/-- The rows that a BMEM frame preloads (R184). -/
def bmemRows (f : Frame) : List (Nat × BitVec 72) :=
  (List.range 16).map (fun k =>
    let w (i : Nat) : BitVec 32 := f.words.getD i 0
    let top : BitVec 8 := (w (32 + k / 4) >>> (8 * (k % 4))).setWidth 8
    (512 * bits f.key 27 16 + 16 * bits f.key 15 0 + k, top ++ w (2 * k + 1) ++ w (2 * k)))

/-- The block memories hold the preload frames' contents, 0 elsewhere (R181, R187). -/
def initMemories (r : Region) : Region :=
  let rows := (r.frames.filter (fun f => f.key / 2 ^ 28 == 4)).flatMap bmemRows
  { r with bmem := rows.foldl (fun m p => bmSet m p.1 p.2) [] }

/-- An "img" value is written where its field admits it (R344). -/
def putImg (s : State) (a : Nat) (fs : List Fld) (w : BitVec 32) : State :=
  fs.foldl (fun s f => if f.accepts (f.get w) then s.setFld a f (f.get w) else s) s

/-- The registers take the "img" values of the REGS frame (R184, R186), in the order GB_CTL, TP_CTL, HR_CTL. -/
def loadRegs (s : State) (m : Fin 17) (ws : List Word) : State :=
  let s := putImg s (Reg.GB_CTL m) [F.GB_CTL_BEAT, F.GB_CTL_PIXEL_BITS] (ws.getD 0 0)
  let s := putImg s (Reg.TP_CTL m) [F.TP_CTL_BEAT, F.TP_CTL_ORDER, F.TP_CTL_WB] (ws.getD 1 0)
  putImg s (Reg.HR_CTL m) [F.HR_CTL_EN, F.HR_CTL_BITS, F.HR_CTL_SHIFT, F.HR_CTL_DEPTH_LOG] (ws.getD 2 0)

/-- A pad leaves the safe state (R188); a head port whose pads do may leave OFF and ABSENT. -/
def freePad (s : State) (p : Nat) : State :=
  if s.pads.contains p then s
  else
    let s := { s with pads := natInsert s.pads p }
    if h : p < 16 then
      let h : Fin 16 := ⟨p, h⟩
      if !s.flag (Reg.HP_CTL h) F.HP_CTL_ENABLE then s
      else if hpState s h = 0 then hpEnable s h
      else if hpState s h = 1 ∧ s.flag (Reg.HP_STAT h) F.HP_STAT_PRESENT ∧ s.flag (Reg.HP_CTL h) F.HP_CTL_AUTO then
        hpPower s h
      else s
    else s

/-- A seal fails (R186) with cause 1 COUNT, 2 CRC or 3 CONTENTION. -/
def sealFail (s : State) (m : Fin 17) (cause : Nat) : State :=
  let s := rgEnter (s.setFld (Reg.RG_STAT m) F.RG_STAT_CAUSE cause) m 5
  raiseRg s m 1 (payCause cause)

/-- A SEAL frame is checked (R186). -/
def sealRegion (s : State) (m : Fin 17) (ws : List Word) : State :=
  let r := s.region m
  let listed := r.frames.filter (·.listed)
  let crcs := listed.flatMap (fun f => leBytes 4 f.crc.toNat)
  if listed.length ≠ (ws.getD 0 0).toNat then sealFail s m 1
  else if crc32 crcs ≠ ws.getD 1 0 then sealFail s m 2
  else if !r.guards.isEmpty then sealFail s m 3
  else
    let regs := (frameData r (frameKey 5 0 0)).getD []
    let s := s.setRegion m (initMemories (initCells r))
    let s := loadRegs s m regs
    let s := s.setReg (Reg.CFG_IMAGE m) (ws.getD 2 0)
    let s := (Config.padDeclaration (regs.drop 3)).foldl freePad s
    rgEnter (s.setFld (Reg.RG_STAT m) F.RG_STAT_PADS_LIVE 1) m 2

/-- The contention guards follow the ROUTE frames (R178); `routeOf` reads a guarded segment as 0. -/
def tripGuards (s : State) (m : Fin 17) : State :=
  let r := s.region m
  let now := contendedOf (routeFrames r)
  let s := (now.filter (fun g => !r.guards.contains g)).foldl (fun s g =>
    let a := Reg.GUARD_LOG m
    let s := if s.flag a F.GUARD_LOG_VALID then s else (s.setReg a g).setFld a F.GUARD_LOG_VALID 1
    raiseRg s m 3 0) s
  (s.setRegion m { s.region m with guards := now }).setFld (Reg.RG_STAT m) F.RG_STAT_GUARD (!now.isEmpty).toNat

/-- A committed frame that is not applied (R185). -/
def badFrame (s : State) (m : Nat) : State := s.bump (Reg.CFG_STAT m) F.CFG_STAT_BAD_FRAME

/-- The write of word 66 commits a whole frame (R183, R185, R186). -/
def commitFrame (s : State) (m : Fin 17) (ws : List Word) : State :=
  let st := rgState s m
  let key := (ws.getD 0 0).toNat
  let body := (ws.take 66).flatMap (fun w => leBytes 4 w.toNat)
  if ¬(st ≤ 1 ∨ s.flag (Reg.RG_CTL m) F.RG_CTL_RAW) then badFrame s m
  else if crc32 body ≠ ws.getD 66 0 ∨ bits (ws.getD 1 0).toNat 31 24 ≠ 1 ∨ !frameValid key then badFrame s m
  else if key / 2 ^ 28 = 15 then sealRegion s m ((ws.drop 2).take 64)
  else
    let r := s.region m
    let r := { r with frames := frameInsert r.frames ⟨key, ws.getD 1 0, (ws.drop 2).take 64, ws.getD 66 0, true⟩ }
    let s := s.setRegion m (if st ≤ 1 ∨ st = 5 then
      (if key / 2 ^ 28 = 3 then initCells r else if key / 2 ^ 28 = 4 then initMemories r else r) else r)
    let s := s.setFld (Reg.CFG_STAT m) F.CFG_STAT_FRAMES (r.frames.filter (·.listed)).length
    let s := if key / 2 ^ 28 = 2 then tripGuards s m else s
    if st = 0 then rgEnter s m 1 else s

/-- A word enters the frame window (R183): offset 0 starts a frame; a word that is not the next one breaks it. -/
def frameWordWrite (s : State) (m : Fin 17) (i : Nat) (w : BitVec 32) : State :=
  let r := s.region m
  if i = 0 then s.setRegion m { r with window := [w] }
  else if i = r.window.length then
    if i = 66 then commitFrame (s.setRegion m { r with window := [] }) m (r.window ++ [w])
    else s.setRegion m { r with window := r.window ++ [w] }
  else
    let s := s.setRegion m { r with window := [] }
    if i = 66 then badFrame s m else s

/-- FRAME_WORD_WRITE (R183, R185, R186). -/
def execFrameWordWrite (m : Fin 17) (i : Fin 67) (word : BitVec 32) (s : State) : Host.Outcome State Fault Refusal :=
  .next (frameWordWrite s m i word)

/-- A write of 1 to UNSEAL (R189): the frame CRC list is cleared, the configuration is kept. -/
def rgUnseal (s : State) (m : Fin 17) : State :=
  if rgState s m = 4 ∨ rgState s m = 5 then
    let r := s.region m
    let r := { r with frames := r.frames.map (fun f => { f with listed := false }) }
    rgEnter ((s.setRegion m (initMemories (initCells r))).setFld (Reg.CFG_STAT m) F.CFG_STAT_FRAMES 0) m 0
  else s

/-- RG_UNSEAL (R189). -/
def execRgUnseal (m : Fin 17) (s : State) : Host.Outcome State Fault Refusal := .next (rgUnseal s m)

/-- A write of 1 to DISABLE (R189): no effect but in RUNNING. -/
def rgDisable (s : State) (m : Fin 17) : State :=
  if rgState s m = 2 then rgEnter (s.setFld (Reg.RG_CTL m) F.RG_CTL_DISABLE 1) m 3 else s

/-- RG_DISABLE (R189). -/
def execRgDisable (m : Fin 17) (s : State) : Host.Outcome State Fault Refusal := .next (rgDisable s m)

/-- A write of 1 to ENABLE (R189): no effect but in DISABLED. -/
def rgEnable (s : State) (m : Fin 17) : State := if rgState s m = 4 then rgEnter s m 2 else s

/-- RG_ENABLE (R189). -/
def execRgEnable (m : Fin 17) (s : State) : Host.Outcome State Fault Refusal := .next (rgEnable s m)

/-- A line of the region has still to complete into its slot. -/
def lineInProgress (s : State) (m : Fin 17) : Bool :=
  let r := s.region m
  r.taking.isSome || r.gear.isSome || !r.stamps.isEmpty || r.out.isSome || r.ports.valid ||
    (List.finRange 16).any (fun h => (s.head h).ingest.any (fun g => g.regions.getLsbD m.val))

/-- REGION_DRAIN_END (R189): no effect while a line is still in progress. -/
def execRegionDrainEnd (m : Fin 17) (s : State) : Host.Outcome State Fault Refusal :=
  .next (if rgState s m = 3 ∧ !lineInProgress s m then rgEnter s m 4 else s)

/-- A bit of a frame in the configuration flips; bits of word 0, the address, cannot. -/
def flipFrame (f : Frame) (b : Nat) : Frame :=
  let x := BitVec.ofNat 32 (2 ^ (b % 32))
  let i := b / 32
  if i = 1 then { f with fmt := f.fmt ^^^ x }
  else if i = 66 then { f with crc := f.crc ^^^ x }
  else if 2 ≤ i ∧ i < 66 then { f with words := f.words.modify (i - 2) (· ^^^ x) }
  else f

/-- CONFIG_SCRUB (R190): bits `flips` (frame address, bit) have flipped; the next applied frame is read back. -/
def execConfigScrub (m : Fin 17) (flips : List (Nat × Nat)) (s : State) : Host.Outcome State Fault Refusal :=
  let r := s.region m
  let r := flips.foldl (fun (r : Region) p =>
    { r with frames := r.frames.map (fun f => if f.key = p.1 then flipFrame f p.2 else f) }) r
  let s := s.setRegion m r
  let a := Reg.CFG_SCRUB m
  let st := rgState s m
  if !s.flag a F.CFG_SCRUB_EN || st < 2 || st = 5 then .next s
  else match r.frames[r.scrub % max 1 r.frames.length]? with
    | none => .next s
    | some f =>
      let s := s.setRegion m { r with scrub := (r.scrub + 1) % r.frames.length }
      let body := leBytes 4 f.key ++ leBytes 4 f.fmt.toNat ++ f.words.flatMap (fun w => leBytes 4 w.toNat)
      if crc32 body = f.crc then .next s
      else
        let s := s.bump (Reg.CFG_STAT m) F.CFG_STAT_SCRUB_ERR
        let s := (((s.setFld a F.CFG_SCRUB_VALID 1).setFld a F.CFG_SCRUB_TYPE (f.key / 2 ^ 28)).setFld a
          F.CFG_SCRUB_MAJOR (bits f.key 27 16)).setFld a F.CFG_SCRUB_MINOR (bits f.key 11 0)
        .next (raiseRg s m 2 0)

/-! ## Reads of a slot (R196) -/

/-- A read of slot `k` of region `m`: single-bit errors are corrected and counted once each; whether an uncorrectable
one was found in a word that is not `known`. -/
def slotCheck (s : State) (m : Fin 17) (k : Nat) (known : List Nat := []) : Bool × State :=
  let a := Win.slot m k
  let here := s.errs.filter (fun p => a ≤ p.1 && p.1 < a + slotBytes && !known.contains p.1)
  here.foldl (fun acc p =>
    match eccOf p.2 with
    | .clean => acc
    | .single => (acc.1, raiseRg ((acc.2.setErr p.1 0).bump (Reg.LB_ECC m) F.LB_ECC_CORR) m 5 0)
    | .double => (true, acc.2.bump (Reg.LB_ECC m) F.LB_ECC_UNCORR)) (false, s)

/-- A read of the slot word at causeway address `a` through a window: a single-bit error is corrected, counted and raised; a
double-bit error is not (R196 handles it in the three reads that it names; log 80). -/
def slotWordCheck (s : State) (m : Fin 17) (a : Nat) : State :=
  match eccOf (s.errMask a) with
  | .single => raiseRg ((s.setErr a 0).bump (Reg.LB_ECC m) F.LB_ECC_CORR) m 5 0
  | .clean | .double => s

/-- A plane of a line: bit `b` of every pixel (R195). -/
def planeBits (px : List (BitVec 12)) (b : Nat) : Nat := px.foldr (fun p v => (p.getLsbD b).toNat + 2 * v) 0

/-- Position of a span in its domain. -/
def spanNumber (s : State) (m : Fin 17) : Nat := ((domainOf s (lead s m)).idxOf m)

/-- The words of a slot that hold double-bit errors. -/
def doubleWords (s : State) (m : Fin 17) (k : Nat) : List Nat :=
  (s.errs.filter (fun p => Win.slot m k ≤ p.1 && p.1 < Win.slot m k + slotBytes && eccOf p.2 == .double)).map Prod.fst

/-- PLANE_SEND (R195, R196): the next plane of the line that the plane ports serve, once the line is complete and while the
truss queues have room. Each plane reads the slot; a double-bit error is reported in the first plane that finds it. -/
def execPlaneSend (m : Fin 17) (ups : List Upset) (s : State) : Host.Outcome State Fault Refusal :=
  let s := applyUpsets s ups
  let n := lead s m
  let wb := s.fld (Reg.TP_CTL m) F.TP_CTL_WB
  match servedSlot s n (spanNumber s m) with
  | none => .next s
  | some k =>
    let i := (s.region m).sent
    if !rgSealed s m ∨ slotState s m k ≠ 2 ∨ wb ≤ i ∨ 4 ≤ (s.array m).port.length then .next s
    else
      let (bad, s) := slotCheck s m k (if i = 0 then [] else (s.region m).badWords)
      let s := if bad then
          let s := raiseRg (setSlotFlags s m k (slotFlags s m k ||| 1)) m 6 (payLine 0 (slotIndex s m k))
          let c := s.ctl n
          s.setCtl n { c with served := c.served.map (fun l => { l with damaged := true }) }
        else s
      let b := if s.flag (Reg.TP_CTL m) F.TP_CTL_ORDER then wb - 1 - i else i
      let p := BitVec.ofNat 16384 (planeBits (unpack12 (storedBytes s 8 (Win.slot m k) slotBytes)) b)
      let s := s.setArray m { s.array m with port := (s.array m).port ++ [p] }
      .next (s.setRegion m { s.region m with sent := i + 1, badWords := doubleWords s m k })

/-! ## Replay (R197, R198) -/

/-- A write of `RP_CTL` (R197, R198). -/
def writeRpCtl (s : State) (m : Fin 17) (val : BitVec 32) : State :=
  let a := Reg.RP_CTL m
  let go := F.RP_CTL_GO.get val = 1
  let count := F.RP_CTL_COUNT.get val
  let prime := F.RP_CTL_NPRIME.get val
  let src := F.RP_CTL_SRC.get val
  if go ∧ (count = 0 ∨ 8 < count ∨ count < prime ∨ 16 < src) then s
  else
    let s := putImg s a [F.RP_CTL_COUNT, F.RP_CTL_NPRIME, F.RP_CTL_SRC] val
    let t := Reg.RP_STAT m
    if !go || s.flag t F.RP_STAT_BUSY || rgState s m != 2 then s
    else
      let first := s.reg64 (Reg.RP_LINE_LO m) (Reg.RP_LINE_HI m)
      let s := s.setFld a F.RP_CTL_GO 1
      let s := ((s.setFld t F.RP_STAT_BUSY 1).setFld t F.RP_STAT_COPIED 0).setFld t F.RP_STAT_MISSING 0
      let r := s.region m
      s.setRegion m { r with replay := some ⟨Fin.ofNat 17 src, first, count, prime⟩,
                             copied := some (first + BitVec.ofNat 64 (count - 1)) }

/-- REPLAY_GO (R197). -/
def execReplayGo (m : Fin 17) (val : BitVec 32) (s : State) : Host.Outcome State Fault Refusal :=
  .next (writeRpCtl s m val)

/-- A copied line enters the order. One of its index that arrived live is discarded for it, and its slot is empty again
(R197, R198). -/
def enterCopied (s : State) (m : Fin 17) (e : LineEntry) : State :=
  let r := s.region m
  match r.order.find? (fun x => x.index == e.index) with
  | none => enterOrder s m e
  | some x =>
    let s := match x.slot with
      | some k => if x.slot = e.slot then s else setSlotState s m k 0
      | none => s
    s.setRegion m { s.region m with order := replaceFirst (· == x) (fun _ => e) r.order }

/-- A line of a copy becomes a lost marker, counted in MISSING (R197). -/
def copyMissing (s : State) (m : Fin 17) (i : BitVec 64) : State :=
  (enterCopied s m ⟨i, none⟩).bump (Reg.RP_STAT m) F.RP_STAT_MISSING

/-- The copy ends: DONE, and RP_DONE (R197). -/
def copyEnd (s : State) (m : Fin 17) : State :=
  let t := Reg.RP_STAT m
  let s := s.setRegion m { s.region m with replay := none }
  let s := ((s.setFld t F.RP_STAT_BUSY 0).setFld t F.RP_STAT_DONE 1).setFld (Reg.RP_CTL m) F.RP_CTL_GO 0
  raiseRg s m 9 0

/-- The slot of region `src` that holds line `i` complete. -/
def slotOfLine (s : State) (src : Nat) (i : BitVec 64) : Option (Fin 32) :=
  (List.finRange 32).find? (fun (k : Fin 32) => 2 ≤ slotState s src k.val && slotIndex s src k.val == i)

/-- The mark of a copied line: FLAGS with prime or redo. -/
def copyFlags (old : Nat) (prime : Bool) : Nat := old % 2 + if prime then 2 else 4

/-- Line `i` lies in slot `k` of region `m` as unconsumed again, marked: a copy of a region onto itself (R197). -/
def remark (s : State) (m : Fin 17) (k : Fin 32) (i : BitVec 64) (prime : Bool) : State :=
  let s := setSlotState (setSlotFlags s m k (copyFlags (slotFlags s m k) prime)) m k 2
  let r := takeSlot s m k
  let s := if (r.region m).order.any (fun e => e.slot == some k) then r else enterOrder r m ⟨i, some k⟩
  showSlots (s.bump (Reg.RP_STAT m) F.RP_STAT_COPIED) m

/-- Slot `k` of region `src` is copied into a slot of region `m` (R197); without one the line is lost under R193, for the head
that the region takes. -/
def copySlot (s : State) (m src : Fin 17) (k : Fin 32) (i : BitVec 64) (prime : Bool) : State :=
  match chooseSlot s m with
  | none =>
    let s := raiseRg (s.bump (Reg.LB_OVERRUN m) F.LB_OVERRUN_COUNT) m 4 (payLine 0 i)
    copyMissing (match (s.region m).source with
      | some h => reportLine s h i
      | none => s) m i
  | some d =>
    let px := s.readBytes (Win.slot src k) slotBytes
    let desc := s.readBytes (Win.slotDesc src k) 64
    let s := (takeSlot s m d).clearErrs (Win.slot m d) (Win.slot m d + slotBytes)
    let s := (s.writeBytes (Win.slot m d) px).writeBytes (Win.slotDesc m d) desc
    let s := setSlotState (setSlotFlags s m d (copyFlags (slotFlags s m d) prime)) m d 2
    showSlots ((enterCopied s m ⟨i, some d⟩).bump (Reg.RP_STAT m) F.RP_STAT_COPIED) m

/-- The line being copied ends its copy (R197, R198). -/
def copyLine (s : State) (m : Fin 17) (p : Replay) : State :=
  let prime := 0 < p.prime
  match slotOfLine s p.src p.next with
  | none => copyMissing s m p.next
  | some k =>
    let (bad, s) := slotCheck s p.src k
    let sum := s.readLE (Win.slotDesc p.src k + 28) 4
    if bad ∨ (crc32 (s.readBytes (Win.slot p.src k) slotBytes)).toNat ≠ sum then copyMissing s m p.next
    else if p.src = m then remark s m k p.next prime
    else copySlot s m p.src k p.next prime

/-- The source is isolated or powered down: every line not yet copied becomes a lost marker (R198). -/
def copyCut (m : Fin 17) : Nat → BitVec 64 → State → State
  | 0, _, s => s
  | n + 1, i, s => copyCut m n (i + 1) (copyMissing s m i)

/-- REPLAY_LINE_COPIED (R197, R198). -/
def execReplayLineCopied (m : Fin 17) (ups : List Upset) (s : State) : Host.Outcome State Fault Refusal :=
  let s := applyUpsets s ups
  match (s.region m).replay with
  | none => .next s
  | some p =>
    if epCut s (17 + p.src.val) then .next (copyEnd (copyCut m p.left p.next s) m)
    else
      let s := copyLine s m p
      if p.left ≤ 1 then
        let s := s.setRegion m { s.region m with copied := some p.next }
        .next (copyEnd s m)
      else
        let q : Replay := { p with next := p.next + 1, left := p.left - 1, prime := p.prime - 1 }
        .next (s.setRegion m { s.region m with replay := some q })

/-! ## The history ring (R199, R200) -/

/-- BASE of the ring, its number of entries and STRIDE. -/
def ringBase (s : State) (m : Nat) : Nat :=
  s.fld (Reg.HR_BASE_HI m) F.HR_BASE_HI_BASE_HI * 2 ^ 32 + s.fld (Reg.HR_BASE_LO m) F.HR_BASE_LO_BASE_LO * 2 ^ 16
def ringEntries (s : State) (m : Nat) : Nat := 2 ^ s.fld (Reg.HR_CTL m) F.HR_CTL_DEPTH_LOG
def ringStride (s : State) (m : Nat) : Nat := if s.flag (Reg.HR_CTL m) F.HR_CTL_BITS then 24576 else 16384

/-- The metadata of line `l` with flags (R199). -/
def ringMeta (s : State) (m : Nat) (l : HistLine) (writing : Bool) : State :=
  let a := ringBase s m + ringEntries s m * ringStride s m + 64 * (l.index.toNat % ringEntries s m)
  let fl := l.damaged.toNat + 2 * l.lost.toNat + 4 * (!l.stored).toNat + 8 * writing.toNat
  ddrAreaWrite 8 s a (leBytes 8 l.index.toNat ++ leBytes 8 l.coord.toNat ++ leBytes 8 l.time.toNat ++ leBytes 1 fl ++
    List.replicate 39 0)

/-- The pixel bytes of a line in the ring (R199). -/
def ringPixels (s : State) (m : Nat) (bs : List Byte) : List Byte :=
  if s.flag (Reg.HR_CTL m) F.HR_CTL_BITS then bs
  else (unpack12 bs).map (fun p => BitVec.ofNat 8 (min 255 (p.toNat >>> s.fld (Reg.HR_CTL m) F.HR_CTL_SHIFT)))

/-- A line is not stored (R200). -/
def ringSkip (s : State) (m : Fin 17) (l : HistLine) : State :=
  raiseRg ((ringMeta s m { l with stored := false } false).bump (Reg.HR_SKIP m) F.HR_SKIP_COUNT) m 8 0

/-- The slot of a line in flight still holds it. -/
def slotKept (s : State) (m : Fin 17) (l : HistLine) : Bool :=
  l.slot.any (fun k => 2 ≤ slotState s m k && slotIndex s m k == l.index)

/-- HISTORY_LINE_WRITE (R200): the writer starts the oldest line that it has to store. It is idle while the region is not
sealed (R187). -/
def execHistoryLineWrite (m : Fin 17) (s : State) : Host.Outcome State Fault Refusal :=
  let r := s.region m
  match r.histDue with
  | [] => .next s
  | l :: rest =>
    if !rgSealed s m then .next s else
    let s := s.setRegion m { r with histDue := rest }
    if l.lost then .next (ringMeta s m l false)
    else if 4 ≤ r.hist.length ∨ !slotKept s m l then .next (ringSkip s m l)
    else .next ((ringMeta s m l true).setRegion m { s.region m with hist := r.hist ++ [l] })

/-- HISTORY_WRITE_DONE (R200): the oldest line in flight has its pixels written and its metadata rewritten. -/
def execHistoryWriteDone (m : Fin 17) (ups : List Upset) (s : State) : Host.Outcome State Fault Refusal :=
  let s := applyUpsets s ups
  let r := s.region m
  match r.hist with
  | [] => .next s
  | l :: rest =>
    if !rgSealed s m then .next s else
    let s := s.setRegion m { r with hist := rest }
    match l.slot with
    | none => .next s
    | some k =>
      if !slotKept s m l then .next (ringSkip s m l)
      else
        let (bad, s) := slotCheck s m k
        if bad then .next (ringSkip s m l)
        else
          let a := ringBase s m + l.index.toNat % ringEntries s m * ringStride s m
          let s := ddrAreaWrite 200 s a (ringPixels s m (s.readBytes (Win.slot m k) slotBytes))
          .next (ringMeta s m l false)

end Sys2Proof.Machine
end

