-- ==== Sys2Proof/Machine/ImageFormat.lean ====
section
/-!
DEFINITION. The Urlor image as bytes: header, manifest and sections (R341–R347), and the checks of a load with the codes of
R348: those of the image itself, of micro-routines (R75, R502), programs (R95), Keeper blocks (R327), chains and drivers
(R175, R177), class 0 and routes (R291, R299) and event vectors (R336).
-/

namespace Sys2Proof.Machine

/-! ## Keys and digests (R368, R370) -/

/-- SHA-384 as 48 bytes. -/
def hash48 (bs : List Byte) : List Byte := (leBytes 48 (Config.sha384 bs).toNat).reverse

/-- The signature verifies under the Ozvis key of a kind: generation A or B, B alone once A is revoked (R368). -/
def ozvisVerify (s : State) (kind : Fin 5) (msg sig : List Byte) : Bool :=
  (!s.ab.revoked.contains kind && Config.ecdsaVerify (Config.ozvisKey kind 0) msg sig) ||
    Config.ecdsaVerify (Config.ozvisKey kind 1) msg sig

/-- The ACTIVE owner slot (R386). -/
def activeOwner (s : State) : Option (Fin 4) := (List.finRange 4).find? (fun i => (s.ab.owners[i]).state == 1)

/-- The public key of the ACTIVE owner slot. -/
def ownerKey (s : State) : Option (List Byte) := (activeOwner s).map (fun i => (s.ab.owners[i]).key)

/-- The signature verifies under the owner key; never on an unowned device (R386). -/
def ownerVerify (s : State) (msg sig : List Byte) : Bool :=
  match ownerKey s with
  | none => false
  | some k => Config.ecdsaVerify k msg sig

/-- Secrets are locked (R394). -/
def locked (s : State) : Bool := s.flag Reg.ABT_STAT F.ABT_STAT_LOCKED

/-- The value of anti-rollback counter `i`: 0 FW, 1 KFW, 2 LIB, 3 IMG (R376). -/
def rollback (s : State) (i : Fin 4) : Nat := (s.ab.counters[i]).pairs

def zeros (bs : List Byte) (i n : Nat) : Bool := ((bs.drop i).take n).all (· == 0)

/-! ## Header and manifest (R341, R342) -/

/-- A manifest entry: TYPE, FLAGS, INDEX, OFFSET, LENGTH. -/
structure ManifestEntry where
  type : Nat
  flags : Nat
  index : Nat
  offset : Nat
  length : Nat
  bytes : List Byte

def manifestEntry (bs : List Byte) (i : Nat) : ManifestEntry :=
  let e := (bs.drop (256 + 80 * i)).take 80
  ⟨recNat e 0 1, recNat e 1 1, recNat e 2 2, recNat e 4 8, recNat e 12 8, e⟩

def sectionCount (bs : List Byte) : Nat := recNat bs 16 2
def manifest (bs : List Byte) : List ManifestEntry := (List.range (sectionCount bs)).map (manifestEntry bs)
def storedSection (bs : List Byte) (e : ManifestEntry) : List Byte := (bs.drop e.offset).take e.length

/-- The header is well formed for MAGIC and KINDs. -/
def headerFormed (magic : Nat) (kinds : List Nat) (bs : List Byte) : Bool :=
  256 ≤ bs.length && recNat bs 0 4 == magic && recNat bs 4 2 == 1 && kinds.contains (recNat bs 6 1) &&
    (if recNat bs 6 1 = 2 then recNat bs 7 1 ≤ 15 else recNat bs 7 1 == 0) && 1 ≤ sectionCount bs &&
    sectionCount bs ≤ 255 && recNat bs 18 2 ≤ 1 && recNat bs 24 8 == bs.length && recNat bs 8 4 != 0 &&
    ([3, 4, 5].contains (recNat bs 6 1) || zeros bs 20 4) && zeros bs 80 48 && zeros bs 224 32

/-- The first section whose entry is malformed: reserved type or bits, position, alignment, overlap. -/
def badEntry (bs : List Byte) (types : Nat → Bool) : Option Nat :=
  let m := manifest bs
  let start := 256 + 80 * sectionCount bs
  let ends := start :: m.map (fun e => e.offset + e.length)
  (m.zipIdx.find? (fun p =>
    let e := p.1
    !(types e.type) || 1 < e.flags || e.index != p.2 || e.offset % 64 != 0 || e.offset < ends.getD p.2 0 ||
      bs.length < e.offset + e.length || (e.flags == 0 && !zeros e.bytes 20 12))).map (·.2)

/-- A section's plain contents (R343); `none` when its tag fails or the secrets are locked. -/
def plainSection (s : State) (bs : List Byte) (e : ManifestEntry) : Option (List Byte) :=
  let stored := storedSection bs e
  if e.flags = 0 then some stored
  else match activeOwner s with
    | none => none
    | some i =>
      if locked s then none
      else
        let key := Config.hkdf (s.ab.owners[i]).imageKey ((bs.drop 8).take 4)
          ([0x55, 0x52, 0x4C, 0x31] ++ leBytes 2 e.index) 32
        Config.gcmOpen key ((e.bytes.drop 20).take 12) (e.bytes.take 32) stored

/-- The image with every section in plain; sections that do not open are empty. -/
def parseImage (s : State) (bs : List Byte) : Image :=
  { kind := recNat bs 6 1, target := recNat bs 7 1, id := BitVec.ofNat 32 (recNat bs 8 4), svn := recNat bs 12 4,
    key := recNat bs 18 2, header := bs.take 256, manifest := (bs.drop 256).take (80 * sectionCount bs),
    sections := (manifest bs).map (fun e =>
      ⟨e.type, e.index, (e.bytes.drop 32).take 48, (plainSection s bs e).getD []⟩) }

def Image.ofType (g : Image) (t : Nat) : List ImgSection := g.sections.filter (fun x => x.type == t)
def Image.first (g : Image) (t : Nat) : List Byte := ((g.ofType t).head?.map (·.content)).getD []
def Image.indexOf (g : Image) (t : Nat) : Nat := ((g.ofType t).head?.map (·.index)).getD 255

/-! ## PLACEMENT and REGS (R345, R346) -/

structure RoleEntry where
  used : Nat
  lead : Nat
  head : Nat
  program : Nat
  hist : Nat
  crows : Nat
  flags : Nat
  rest : Nat
deriving Inhabited

def roleEntry (bs : List Byte) (l : Nat) : RoleEntry :=
  let v (i : Nat) : Nat := recNat bs (8 + 8 * l + i) 1
  ⟨v 0, v 1, v 2, v 3, v 4, v 5, v 6, v 7⟩

def roleEntries (g : Image) : List RoleEntry := (List.range 16).map (roleEntry (g.first 2))

/-- The used roles. -/
def usedRoles (g : Image) : List Nat := (List.range 16).filter (fun l => (roleEntry (g.first 2) l).used == 1)

def roleReserved (e : RoleEntry) : Bool :=
  1 < e.used || (e.used == 1 && (15 < e.lead || (15 < e.head && e.head != 255) || 3 < e.program || e.hist == 0 || 8 < e.hist ||
    e.crows == 0 || 64 < e.crows || 3 < e.flags || e.rest != 0))

/-- The members of the group that role `l` leads. -/
def groupMembers (g : Image) (lead : Nat) : List Nat :=
  (usedRoles g).filter (fun l => (roleEntry (g.first 2) l).lead == lead)

/-- A REGS entry: address, value, mask. -/
structure RegsEntry where
  addr : Nat
  value : BitVec 32
  mask : BitVec 32

def regsEntries (bs : List Byte) : List RegsEntry :=
  (List.range (bs.length / 16)).map (fun i =>
    let e := (bs.drop (16 * i)).take 16
    ⟨recNat e 0 5, BitVec.ofNat 32 (recNat e 8 4), BitVec.ofNat 32 (recNat e 12 4)⟩)

/-- Every REGS entry of the image with its section's index. -/
def allRegs (g : Image) : List (RegsEntry × Nat) :=
  (g.ofType 9).flatMap (fun x => (regsEntries x.content).map (fun e => (e, x.index)))

/-- The role and offset of a logical alias address: span window (true) or region window (R16). -/
def aliasOf (a : Nat) : Option (Bool × Nat × Nat) :=
  if 0x4180000000 ≤ a ∧ a < 0x4180000000 + 17 * 0x1000000 then
    some (true, (a - 0x4180000000) / 0x1000000, a % 0x1000000)
  else if 0x4280000000 ≤ a ∧ a < 0x4280000000 + 17 * 0x1000000 then
    some (false, (a - 0x4280000000) / 0x1000000, a % 0x1000000)
  else none

/-- The register's address with the alias of a role taken as the window of pair 0, for looking up its fields. -/
def regsKey (a : Nat) : Nat :=
  match aliasOf a with
  | some (span, _, o) => (if span then 0x4100000000 else 0x4200000000) + o
  | none => a

/-- A REGS entry names a physical window or a field that placement writes (R355). -/
def regsPhysical (e : RegsEntry) : Bool :=
  (0x4100000000 ≤ e.addr && e.addr < 0x4180000000) || (0x4200000000 ≤ e.addr && e.addr < 0x4280000000) ||
    (let k := regsKey e.addr
     let hits (f : Fld) : Bool := e.mask &&& f.mask != 0
     k == Reg.ARR_COUPLE 0 || (Reg.SPARE_MAP 0 0 0 ≤ k && k ≤ Reg.SPARE_MAP 0 15 7) || k == Reg.RG_SRC 0 ||
       k == Reg.HR_BASE_LO 0 || k == Reg.HR_BASE_HI 0 || k == Reg.LG_BASE ||
       (k == Reg.CR_STORE && hits F.CR_STORE_BASE) || (k == Reg.CKPT_CTL 0 && hits F.CKPT_CTL_BASE) ||
       (k == Reg.CKPT_REST 0 && hits F.CKPT_REST_SRC) || (List.range 80).any (fun i => k == Reg.CW_EP_TAG i))

/-- A REGS value that some field named by the mask does not admit. -/
def regsReserved (e : RegsEntry) : Bool :=
  match regAt (regsKey e.addr) with
  | none => false
  | some d => d.fields.any (fun f => e.mask &&& f.mask != 0 && !f.accepts (f.get e.value))

/-- A REGS address that a partial image for role `l` may name (R345). -/
def regsInScope (l : Nat) (a : Nat) : Bool :=
  (match aliasOf a with
    | some (_, r, _) => r == l
    | none => false) ||
  (match regAt a with
    | none => false
    | some d =>
      d.name.startsWith "TRK_CLASS" || d.name.startsWith "SO_CTL" || d.name.startsWith "ACT_" || d.name.startsWith "AS_" ||
        (d.name.startsWith "TRK_DOM" && (d.dims.head?.map (fun p => (a - d.base) / p.2)) == some l))

/-! ## Frames of a REGION section (R183–R185, R344) -/

/-- The words of frame `i`. -/
def sectionFrame (bs : List Byte) (i : Nat) : List Word :=
  (List.range 67).map (fun k => BitVec.ofNat 32 (recNat bs (8 + 268 * i + 4 * k) 4))

def sectionFrames (bs : List Byte) : List (List Word) := (List.range (recNat bs 4 4)).map (sectionFrame bs)

def frameReserved (ws : List Word) : Bool :=
  crc32 ((ws.take 66).flatMap (fun w => leBytes 4 w.toNat)) != ws.getD 66 0 || bits (ws.getD 1 0).toNat 31 24 != 1 ||
    !frameValid (ws.getD 0 0).toNat

/-- A region that holds the configuration frames of a section. -/
def regionOfSection (bs : List Byte) : Region :=
  (sectionFrames bs).foldl (fun r ws =>
    let key := (ws.getD 0 0).toNat
    if key / 2 ^ 28 = 15 then r
    else { r with frames := frameInsert r.frames ⟨key, ws.getD 1 0, (ws.drop 2).take 64, ws.getD 66 0, true⟩ })
    Region.reset

/-- Positions of one entry of one row break the rules of chains (R175): `cells` are the words of the 16 columns. -/
def chainBroken (cells : List Nat) : Bool :=
  let ch (c : Nat) : Nat := bits (cells.getD c 0) 21 20
  let op (c : Nat) : Nat := bits (cells.getD c 0) 31 27
  let cin (c : Nat) : Nat := bits (cells.getD c 0) 19 19
  (List.range 16).any (fun c =>
    let w := cells.getD c 0
    let reserved := 24 ≤ op c || bits w 26 25 == 3 || bits w 24 23 == 3 || bits w 18 16 != 0
    let unnamed := ch c != 0 && !(chainJoins (op c) || chainPerCell (op c))
    let goesOn := ch c == 1 || ch c == 2
    let next := goesOn && (c % 4 == 3 || !(ch (c + 1) == 2 || ch (c + 1) == 3) || op (c + 1) != op c || cin (c + 1) != cin c)
    let prev := (ch c == 2 || ch c == 3) && (c % 4 == 0 || !(ch (c - 1) == 1 || ch (c - 1) == 2))
    reserved || unnamed || next || prev)

/-- A configuration breaks R175 in some row and entry, or cells of one chain take SEQ from different sources. -/
def regionChainBad (r : Region) : Bool :=
  let cfg := routeOf r
  let seqOf (c row : Nat) : List BitSrc := ((cfg.cell.getD c []).getD row default).seq
  (List.range 40).any (fun row => (List.range 8).any (fun e =>
    let cells := (List.range 16).map (fun c => cellEntry r c row e)
    chainBroken cells || (List.range 15).any (fun c =>
      (bits (cells.getD c 0) 21 20 == 1 || bits (cells.getD c 0) 21 20 == 2) && seqOf c row != seqOf (c + 1) row)))

/-! ## MICRO blocks (R74, R75, R502) -/

/-- A block of a MICRO section. -/
structure MicroBlock where
  bytes : List Byte
  kind : Nat
  version : Nat
  build : Nat
  svn : Nat
  routines : List Routine
  micro : List Nat
  nano : List Nat

def MicroBlock.ofBytes (bs : List Byte) : MicroBlock :=
  let bs := bs.take (recNat bs 44 4)
  let n (i : Nat) : Nat := recNat bs i 4
  { bytes := bs, kind := recNat bs 6 1, version := n 8, build := n 12, svn := n 16,
    routines := (List.range (recNat bs 20 2)).map (fun i =>
      let a := n 32 + 8 * i
      ⟨recNat bs a 2, recNat bs (a + 2) 2, recNat bs (a + 4) 2⟩),
    micro := (List.range (min (n 24) 16384)).map (fun i => recNat bs (n 36 + 4 * i) 4),
    nano := (List.range (min (n 28) 16384)).map (fun i => recNat bs (n 40 + 8 * i) 8) }

/-- The blocks of a section: the library block and an owner block behind it. In a partial image, the owner block alone. -/
def microBlocks (partial' : Bool) (bs : List Byte) : List MicroBlock :=
  if partial' then (if bs.isEmpty then [] else [.ofBytes bs])
  else
    let lib := MicroBlock.ofBytes bs
    let o := (recNat bs 44 4 + 63) / 64 * 64
    lib :: (if o < bs.length then [.ofBytes (bs.drop o)] else [])

/-- A block has the form of R502: its KIND is that of its place in the section, its parts are aligned and lie in the block, and what
R502 sets to 0 is 0; the two bytes of 0 of a table entry are looked at with the header (assumption log, entry 104). More words
than a half of the stores holds are left to MC_SPACE (R75). -/
def MicroBlock.formed (b : MicroBlock) (kind : Nat) : Bool :=
  let bs := b.bytes
  let n (i : Nat) : Nat := recNat bs i 4
  let part (off size : Nat) : Bool := n off % 64 == 0 && 320 ≤ n off && n off + size ≤ bs.length
  let entries := recNat bs 20 2
  recNat bs 0 4 == 0x3142434D && recNat bs 4 2 == 1 && b.kind == kind && 320 ≤ bs.length && bs.length == n 44 &&
    zeros bs 7 1 && zeros bs 22 2 && zeros bs 193 31 && entries ≤ 512 &&
    part 32 (8 * entries) && part 36 (4 * n 24) && part 40 (8 * n 28) &&
    (List.range entries).all (fun i => zeros bs (n 32 + 8 * i + 6) 2) &&
    (kind == 1 || (zeros bs 10 2 && n 12 == 0 && n 16 == 0))

/-- The checks of R75 that end in MC_SIGNATURE, for a block of a kind. -/
def microSigned (s : State) (kind : Nat) (b : MicroBlock) : Bool :=
  let bs := b.bytes
  let msg := bs.take 224
  let sig := (bs.drop 224).take 96
  let signer := (bs.drop 96).take 97
  b.formed kind && (bs.drop 48).take 48 == hash48 (bs.drop 320) &&
    (if kind = 1 then (signer == Config.ozvisKey 1 0 || signer == Config.ozvisKey 1 1) && ozvisVerify s 1 msg sig
     else ownerKey s == some signer && ownerVerify s msg sig)

def MicroBlock.word (b : MicroBlock) (i : Nat) : Micro := Micro.ofNat (b.micro.getD i 0)
def MicroBlock.nanoWord (b : MicroBlock) (i : Nat) : Nano := Nano.ofNat (b.nano.getD (b.word i).nptr 0)

/-- The microwords after `i`, each with whether it is reached by a jump. -/
def microSucc (b : MicroBlock) (i : Nat) : List Nat :=
  let u := b.word i
  let jump := ((i : Int) + u.disp).toNat
  if u.seq = 0 then [i + 1] else if u.seq = 5 then [] else if u.seq = 6 then [jump] else [i + 1, jump]

/-- Microwords reachable from `fr`, by at most `fuel` steps. -/
def microReach (b : MicroBlock) : Nat → List Nat → List Nat → List Nat
  | 0, _, acc => acc
  | fuel + 1, fr, acc =>
    let next := (fr.flatMap (microSucc b)).dedup.filter (fun i => !acc.contains i && i < b.micro.length)
    if next.isEmpty then acc else microReach b fuel next (acc ++ next)

def routineReach (b : MicroBlock) (r : Routine) : List Nat := microReach b r.length [r.first] [r.first]

/-- MC_FLOW for a routine (R75). -/
def flowBad (b : MicroBlock) (r : Routine) : Bool :=
  r.length = 0 || b.micro.length < r.first + r.length ||
    (List.range r.length).any (fun k =>
      let i := r.first + k
      let u := b.word i
      let j : Int := (i : Int) + u.disp
      let jumps := u.seq != 0 && u.seq != 5
      (jumps && !((r.first : Int) ≤ j && j < (r.first + r.length : Int))) || (u.branch && (u.disp ≤ 0 || u.cond == 0))) ||
    (let last := r.first + r.length - 1
     (routineReach b r).contains last && !((b.word last).seq == 5 || (b.word last).seq == 6))

/-- MC_JOINT for a routine (R75). -/
def jointBad (b : MicroBlock) (r : Routine) : Bool :=
  (routineReach b r).any (fun i => (b.nanoWord i).writesX && (microSucc b i).any (fun j => (b.nanoWord j).coupledMove))

/-- Places of a routine after one more nano-word on every path (R69, R75). -/
def pathStep (b : MicroBlock) (o : ArrayOp) (ps : List PathState) : List PathState :=
  (ps.flatMap (fun p =>
    let u := { b.word p.pc with step0 := 0, step1 := 0, step2 := 0, step3 := 0 }
    (microNext u o p true).toList ++ (microNext u o p false).toList)).dedup

/-- Whether some path is still on its way after `n` nano-words. -/
def pathLonger (b : MicroBlock) (o : ArrayOp) : Nat → List PathState → Bool
  | 0, ps => !ps.isEmpty
  | n + 1, ps => if ps.isEmpty then false else pathLonger b o n (pathStep b o ps)

/-- MC_LENGTH for a routine (R75): for some W and W2, a path issues more than 4,096 nano-words. -/
def lengthBad (b : MicroBlock) (r : Routine) : Bool :=
  (List.range 64).any (fun w => (List.range 64).any (fun w2 =>
    let o : ArrayOp := { ArrayOp.start with w := BitVec.ofNat 6 w, w2 := BitVec.ofNat 6 w2 }
    pathLonger b o 4096 [startPath o r.first]))

/-- Where an owner block that adds routines goes: behind the words of the resident owner routines (R74, R77). -/
def ownerRoom (s : State) (n : Fin 17) : Nat × Nat :=
  let rs := (s.micro n).routines.filter (fun r => 8192 ≤ r.first)
  let m := rs.foldl (fun a r => max a (r.first + r.length)) 8192
  let w := (List.range (m - 8192)).foldl (fun a i => max a ((microAt s n (8192 + i)).nptr + 1)) 2048
  (m, w)

/-- The first code of R75, from MC_RESERVED on, that applies to the blocks; `taken` are the numbers of routines that stay
resident, and `used` the words of each half that stay in use. -/
def microCode (bs : List MicroBlock) (taken : List Nat) (used : Nat × Nat) : Option Nat :=
  let reserved (b : MicroBlock) : Bool :=
    b.micro.any (fun v => (Micro.ofNat v).seq == 7 || (Micro.ofNat v).cond == 7) || b.nano.any nanoReserved
  let entryBad (b : MicroBlock) : Bool :=
    b.routines.any (fun r => (b.kind == 1 && 511 < r.number) || (b.kind == 2 && r.number < 512) || taken.contains r.number ||
      1 < (b.routines.filter (fun q => q.number == r.number)).length)
  if bs.any reserved then some 12
  else if bs.any (fun b => b.nano.any nanoConflict) then some 13
  else if bs.any (fun b => b.micro.any (fun v => b.nano.length ≤ (Micro.ofNat v).nptr)) then some 14
  else if bs.any (fun b => b.routines.any (flowBad b)) then some 15
  else if bs.any (fun b => b.routines.any (jointBad b)) then some 16
  else if bs.any (fun b => b.routines.any (lengthBad b)) then some 17
  else if bs.any entryBad then some 18
  else if bs.any (fun b => 8192 < used.1 + recNat b.bytes 24 4 || 2048 < used.2 + recNat b.bytes 28 4) then some 19
  else none

/-! ## Programs (R90, R91, R95) -/

structure Program where
  index : Nat
  entry : Nat
  ivec : Nat
  count : Nat
  bundles : List Byte

def Program.ofBytes (bs : List Byte) : Program :=
  ⟨recNat bs 0 1, recNat bs 2 2, recNat bs 4 2, recNat bs 6 2, (bs.drop 8).take (12 * recNat bs 6 2)⟩

def Program.moves (p : Program) (i : Nat) : List Nat := (List.range 3).map (fun k => recNat p.bundles (12 * i + 4 * k) 4)

/-- The first code of R95 that applies to a program; `banks` are those that the image assigns to a role. -/
def programCode (banks : List Nat) (p : Program) : Option Nat :=
  let all := (List.range p.count).map (fun i => p.moves i)
  let counted (v : Nat) : Bool := !((Move.ofNat v).gsel == 0 && (Move.ofNat v).inv)
  let reserved (v : Nat) : Bool := 5 ≤ (Move.ofNat v).gsel || (!(Move.ofNat v).si && bits v 6 0 != 0)
  let clash (a b : Move) : Bool := collide a.dst b.dst && !(a.gsel == b.gsel && a.inv != b.inv)
  let conflict (ms : List Nat) : Bool :=
    match (ms.filter counted).map Move.ofNat with
    | [a, b] => clash a b
    | [a, b, c] => clash a b || clash a c || clash b c
    | _ => false
  let target (v : Nat) : Bool :=
    let m := Move.ofNat v
    counted v && m.si && (m.dst == 0xA0 || m.dst == 0xB1) && p.count ≤ m.imm.toNat
  let ends (v : Nat) : Bool :=
    let m := Move.ofNat v
    m.gsel == 0 && !m.inv && m.dst == 0xA0
  if all.any (·.any reserved) then some 20
  else if all.any conflict then some 21
  else if p.count ≠ 0 ∧ (all.any (·.any target) ∨ p.count ≤ p.entry ∨ p.count ≤ p.ivec) then some 22
  else if p.count = 0 ∨ !(p.moves (p.count - 1)).any ends then some 23
  else if 1365 < p.count ∨ p.index ∉ banks then some 24
  else none

/-! ## Keeper blocks, routes, vectors (R299, R327, R336) -/

/-- The first code of R327 that applies. -/
def keeperCode (s : State) (k : KeeperParts) : Option Nat :=
  let outside (lo hi vlo vhi : Nat) (v : Nat × Word) : Bool :=
    v.1 < vlo || vhi < v.1 || v.2.toNat < lo || hi ≤ v.2.toNat
  if !ozvisVerify s 0 k.fwSigned k.fwSignature ∨ (k.hasOwner ∧ !ownerVerify s k.ownSigned k.ownSignature) then some 25
  else if 0x20000 < k.fwHalf.length ∨ 0x20000 < k.ownHalf.length then some 26
  else if k.fwVectors.any (outside 0 0x20000 0 63) ∨ k.ownVectors.any (outside 0x20000 0x40000 64 255) then some 27
  else none

/-- The output of router `r` for destination `d` in a ROUTES section. -/
def routeOut (bs : List Byte) (r d : Nat) : Nat := recNat bs (4 * (6 * r + d / 8)) 4 / 16 ^ (d % 8) % 16

/-- The router beyond output 0 N, 1 E, 2 S or 3 W. -/
def routeStep (r out : Nat) : Option Nat :=
  if out = 0 then (if r / 8 < 5 then some (r + 8) else none) else if out = 1 then (if r % 8 < 7 then some (r + 1) else none)
  else if out = 2 then (if 8 ≤ r then some (r - 8) else none)
  else if out = 3 then (if 0 < r % 8 then some (r - 1) else none) else none

/-- The route from a router reaches `d` without a turn into W after another move. -/
def routeGood (bs : List Byte) (d : Nat) : Nat → Nat → Bool → Bool
  | 0, _, _ => false
  | fuel + 1, r, moved =>
    if r = d then true
    else
      let o := routeOut bs r d
      if o = 3 ∧ moved then false
      else match routeStep r o with
        | none => false
        | some x => routeGood bs d fuel x (o ≠ 3)

/-- Route tables fail R299 for the endpoints that the image enables: a local port at a router other than the destination, or an
enabled endpoint that some router does not reach, or reaches by a forbidden turn. -/
def routesBad (ends : List Nat) (bs : List Byte) : Bool :=
  let rs := (ends.map (fun i => 8 * (endpointPlace i).2.1 + (endpointPlace i).1)).dedup
  (List.range 48).any (fun r => (List.range 48).any (fun d =>
    (r != d && 4 ≤ routeOut bs r d) || (rs.contains d && !routeGood bs d 48 r false)))

/-- The list of endpoints with C0_EN in a ROUTES section. -/
def c0List (bs : List Byte) : List Nat :=
  (List.range ((bs.length - 1156) / 2)).map (fun i => recNat bs (1156 + 2 * i) 2)

/-- The value that a register holds once every entry that names its address has set its bits (R345). -/
def regAfter (s : State) (es : List RegsEntry) (a : Nat) : BitVec 32 :=
  es.foldl (fun v e => if e.addr = a then (v &&& ~~~e.mask) ||| (e.value &&& e.mask) else v) (s.reg a)

/-- An entry names the `EH_SRC` of a source that the image routes to a vector it may not have (R336): the value that the
register holds after all entries is judged. -/
def vectorBad (s : State) (es : List RegsEntry) (e : RegsEntry) : Bool :=
  if Reg.EH_SRC 0 ≤ e.addr ∧ e.addr ≤ Reg.EH_SRC 1023 then
    let v := regAfter s es e.addr
    F.EH_SRC_K_EN.get v == 1 && (F.EH_SRC_VEC.get v == 0 ||
      (eventClass ((e.addr - Reg.EH_SRC 0) / 4) == 0 && 64 ≤ F.EH_SRC_VEC.get v))
  else false

/-! ## COMPAT (R347) -/

/-- The generation in force: the highest GEN whose tag verifies. -/
def generation (s : State) : Option Generation :=
  (s.up.gens.toList.filterMap id).foldl (fun (o : Option Generation) g =>
    if !g.good then o
    else match o with
      | none => some g
      | some h => if h.gen.toNat < g.gen.toNat then some g else some h) none

/-- The KEEPER section that the device holds: the settings generation's, else the image's (R439). -/
def keeperInForce (s : State) : List Byte :=
  match generation s with
  | some x => if x.keeper.isEmpty then (s.pl.image.map (·.first 7)).getD [] else x.keeper
  | none => (s.pl.image.map (·.first 7)).getD []

/-- The version that a component has: in the image, else in the device. -/
def componentVersion (s : State) (g : Image) (c : Nat) : Nat :=
  if c = 1 then
    (if g.kind = 1 then (MicroBlock.ofBytes (g.first 6)).version else (s.reg (Reg.MC_VER_0 0)).toNat)
  else if c = 2 then
    (Config.keeperSection (if g.kind = 1 then g.first 7 else keeperInForce s)).fwVersion
  else if c = 3 then (s.reg Reg.ABT_VER).toNat
  else if c = 4 then 0x00B00000 else 0x01000000

/-- An entry of COMPAT that is reserved, and one that is not met. -/
def compatEntries (bs : List Byte) : List (Nat × Nat × Nat × Nat) :=
  (List.range (bs.length / 12)).map (fun i =>
    (recNat bs (12 * i) 2, recNat bs (12 * i + 2) 2, recNat bs (12 * i + 4) 4, recNat bs (12 * i + 8) 4))

def compatUnmet (s : State) (g : Image) : Bool :=
  (compatEntries (g.first 1)).any (fun e =>
    1 ≤ e.1 && e.1 ≤ 5 && !(e.2.2.1 ≤ componentVersion s g e.1 && componentVersion s g e.1 ≤ e.2.2.2))

/-! ## The checks of R348 up to code 32 -/

/-- Sections of a type that may stand in an image of a kind, and how often (R344). -/
def countsBad (g : Image) : Bool :=
  let n (t : Nat) : Nat := (g.ofType t).length
  if g.kind = 1 then
    n 1 != 1 || n 2 != 1 || n 3 != 1 || n 5 == 0 || 4 < n 5 || n 6 != 1 || n 7 != 1 || n 8 != 1
  else n 1 != 1 || n 3 != 1 || n 4 != 1 || 1 < n 5 || 1 < n 6

/-- A section's bytes that R344 to R346 set to 0 are not, or its length is not that of its form. -/
def contentBad (x : ImgSection) : Bool :=
  let n := x.content.length
  if x.type = 1 then n % 12 != 0
  else if x.type = 2 then n != 136 || 1 < recNat x.content 0 1 || !zeros x.content 1 7
  else if x.type = 4 then !zeros x.content 1 3 || n != 8 + 268 * recNat x.content 4 4
  else if x.type = 5 then !zeros x.content 1 1 || n != 8 + 12 * recNat x.content 6 2
  else if x.type = 9 then n % 16 != 0 || (List.range (n / 16)).any (fun i => !zeros x.content (16 * i + 5) 3)
  else false

/-- The banks that an image assigns to roles: of a whole image those that its used roles name; the bank of a partial image's
program is chosen later (R359). -/
def assignedBanks (g : Image) : List Nat :=
  if g.kind = 1 then (usedRoles g).map (fun l => (roleEntry (g.first 2) l).program) else List.range 4

/-- The roles of the REGION sections. -/
def regionRoles (g : Image) : List Nat := (g.ofType 4).map (fun x => recNat x.content 0 1)

/-- REGION sections do not fit the roles: twice for one role, for a role that is not used, none for a role with a head; in
a partial image, not one. -/
def regionsBad (g : Image) : Bool :=
  let rs := regionRoles g
  if g.kind = 1 then
    rs.dedup.length != rs.length || rs.any (fun r => !(usedRoles g).contains r) ||
      (usedRoles g).any (fun l => (roleEntry (g.first 2) l).head != 255 && !rs.contains l)
  else rs.length != 1

/-- A section that a partial image may not hold (R344): of a type that only whole images hold, a REGION of another role than the
target, HEADS for another port than the target's. -/
def sectionBarred (s : State) (g : Image) (x : ImgSection) : Bool :=
  let port := if s.flag (Reg.PL_ROLE g.target) F.PL_ROLE_HEAD_EN then some (s.fld (Reg.PL_ROLE g.target) F.PL_ROLE_HEAD) else none
  [2, 7, 8].contains x.type || (x.type == 4 && recNat x.content 0 1 != g.target) ||
    (x.type == 3 && (Config.headsSection x.content).2.any (fun p => port != some p.port.val))

/-- First (code, section) of R348 that applies, of those that placement has no part in. -/
def imageFault (s : State) (bs : List Byte) : Option (Nat × Nat) :=
  if !headerFormed 0x314C5255 [1, 2] bs then some (1, 255)
  else
    let m := manifest bs
    let g := parseImage s bs
    let opens := m.all (fun e => (plainSection s bs e).isSome)
    let partial' := g.kind == 2
    let room := ownerRoom s 0
    let used := if partial' then (room.1 - 8192, room.2 - 2048) else (0, 0)
    let msg := bs.take 128
    let sig := (bs.drop 128).take 96
    let find (t : Nat) (p : ImgSection → Bool) : Option Nat := ((g.ofType t).find? p).map (·.index)
    let blocks := microBlocks partial' (g.first 6)
    let kp := Config.keeperSection (g.first 7)
    match badEntry bs (fun t => 1 ≤ t && t ≤ 9) with
    | some i => some (1, i)
    | none =>
    if countsBad g ∨ (opens ∧ regionsBad g) then some (1, 255)
    else match (if opens then g.sections.find? contentBad else none) with
    | some x => some (1, x.index)
    | none =>
    if !(if g.key = 0 then ozvisVerify s 2 msg sig else ownerVerify s msg sig) then some (2, 255)
    else if g.svn < rollback s 3 then some (3, 255)
    else if blocks.any (fun b => b.kind == 1 && b.svn < rollback s 2) then some (3, g.indexOf 6)
    else if !partial' && opens && kp.fwSvn < rollback s 1 then some (3, g.indexOf 7)
    else if (bs.drop 32).take 48 ≠ hash48 g.manifest then some (4, 255)
    else match m.find? (fun e => (e.bytes.drop 32).take 48 != hash48 (storedSection bs e)) with
    | some e => some (4, e.index)
    | none =>
    match m.find? (fun e => (plainSection s bs e).isNone) with
    | some e => some (5, e.index)
    | none =>
    if compatUnmet s g then some (6, g.indexOf 1)
    else match (if partial' then g.sections.find? (sectionBarred s g) else none) with
    | some x => some (7, x.index)
    | none =>
    match (allRegs g).find? (fun p => partial' && !regsInScope g.target p.1.addr) with
    | some p => some (7, p.2)
    | none =>
    match (allRegs g).find? (fun p => regsPhysical p.1) with
    | some p => some (8, p.2)
    | none =>
    match find 4 (fun x => (sectionFrames x.content).any frameReserved) with
    | some i => some (9, i)
    | none =>
    match (allRegs g).find? (fun p => regsReserved p.1) with
    | some p => some (9, p.2)
    | none =>
    if !partial' && (roleEntries g).any roleReserved then some (9, g.indexOf 2)
    else if (compatEntries (g.first 1)).any (fun e => e.1 == 0 || 5 < e.1 || e.2.1 != 0) then some (9, g.indexOf 1)
    else if (partial' ∧ (g.ofType 6).any (·.content.isEmpty)) ∨
        blocks.zipIdx.any (fun p => !microSigned s (if partial' || p.2 == 1 then 2 else 1) p.1) then some (10, g.indexOf 6)
    else match microCode blocks (if partial' then (s.micro 0).routines.map (·.number) else []) used with
    | some c => some (c, g.indexOf 6)
    | none =>
    match (g.ofType 5).findSome? (fun x => (programCode (assignedBanks g) (.ofBytes x.content)).map (fun c => (c, x.index))) with
    | some r => some r
    | none =>
    match (if partial' then none else keeperCode s kp) with
    | some c => some (c, g.indexOf 7)
    | none =>
    match find 4 (fun x => regionChainBad (regionOfSection x.content)) with
    | some i => some (28, i)
    | none =>
    match find 4 (fun x => !(contendedOf (routeFrames (regionOfSection x.content))).isEmpty) with
    | some i => some (29, i)
    | none =>
    if !partial' && 32 < (c0List (g.first 8)).length then some (30, g.indexOf 8)
    else if !partial' && routesBad (c0List (g.first 8)) (g.first 8) then some (31, g.indexOf 8)
    else match (allRegs g).find? (fun p => vectorBad s ((allRegs g).map (·.1)) p.1) with
    | some p => some (32, p.2)
    | none => none

end Sys2Proof.Machine
end

