-- ==== Sys2Proof/Machine/Placement.lean ====
section
/-!
DEFINITION. Placement, takeovers, planned changes and tests (R352–R367): the placement of an image's roles, and meanings of
CHANGE_READY, CHANGE_GO, CHANGE_ABORT, TAKEOVER_GO to TAKEOVER_DONE, PAIR_TEST, PAIR_TEST_DONE and AUTO_RESUME.
-/

namespace Sys2Proof.Machine

def modifyPl (s : State) (f : Place → Place) : State := { s with pl := f s.pl }

/-- `PL_STAT`: STATE 0 BOOT, 1 PLACED, 2 CHANGE, 3 TAKEOVER, 4 TEST; SBY 0 NONE, 1 READY, 2 STAGING, 3 PRIMING, 4 BUSY. -/
def plState (s : State) : Nat := s.fld Reg.PL_STAT F.PL_STAT_STATE
def setPlState (s : State) (st : Nat) : State := s.setFld Reg.PL_STAT F.PL_STAT_STATE st
def sby (s : State) : Nat := s.fld Reg.PL_STAT F.PL_STAT_SBY
def standby (s : State) : Option (Fin 17) := pairOf s 16

/-- SBY changes; PL_STANDBY is raised at READY and at NONE (R366). -/
def setSby (s : State) (v : Nat) : State :=
  let old := sby s
  let s := s.setFld Reg.PL_STAT F.PL_STAT_SBY v
  if v = old then s else if v = 1 then s.raise 988 (payCause 1) else if v = 0 then s.raise 988 (payCause 2) else s

def plUse (s : State) (n : Nat) : Nat := s.fld (Reg.PL_PHYS n) F.PL_PHYS_USE
def setUse (s : State) (n u : Nat) : State := s.setFld (Reg.PL_PHYS n) F.PL_PHYS_USE u
def roleState (s : State) (l : Nat) : Nat := s.fld (Reg.PL_ROLE l) F.PL_ROLE_STATE
def setRoleState (s : State) (l v : Nat) : State := s.setFld (Reg.PL_ROLE l) F.PL_ROLE_STATE v

/-- Role tags of a span and of a region (R293). -/
def spanTag (r : Nat) : Nat := if r ≤ 16 then 0x1000 + r else 0
def regionTag (r : Nat) : Nat := if r ≤ 16 then 0x1100 + r else 0

/-! ## Islands (R477, R478) -/

/-- `DC_ISLAND` of island `n`: STATE 0 OFF, 1 IDLE, 2 RUNNING, and the target of its regulator in mV. -/
def islandState (s : State) (n : Nat) : Nat := s.fld (Reg.DC_ISLAND n) F.DC_ISLAND_STATE
def islandTarget (s : State) (n : Nat) : Nat := s.fld (Reg.DC_ISLAND n) F.DC_ISLAND_TARGET
def setIsland (s : State) (n st mv : Nat) : State :=
  (s.setFld (Reg.DC_ISLAND n) F.DC_ISLAND_STATE st).setFld (Reg.DC_ISLAND n) F.DC_ISLAND_TARGET mv

/-- The islands beside island `n`. -/
def islandsBeside (n : Nat) : List Nat := [n - 1, n + 1].filter (fun m => m != n && m < 17)

/-- The target of an idle island (R478): the higher of 700 mV and 50 mV below its highest powered neighbour's. -/
def idleTarget (s : State) (n : Nat) : Nat := (islandsBeside n).foldl (fun v m => max v (islandTarget s m - 50)) 700

/-- The idle islands beside island `n` follow its target. -/
def settleBeside (s : State) (n : Nat) : State :=
  (islandsBeside n).foldl (fun s m => if islandState s m = 1 then setIsland s m 1 (idleTarget s m) else s) s

/-- The target that the firmware sets for an island that holds a role, from its delay monitor and temperature (R477): some value
from 700 to 800 mV in steps of 5 mV, within 50 mV of those of its neighbours that hold roles. -/
def runTarget (s : State) (n : Nat) : Nat × State :=
  let ts := ((islandsBeside n).filter (fun m => islandState s m == 2)).map (islandTarget s)
  let low := ts.foldl (fun v t => max v (t - 50)) 700
  let high := ts.foldl (fun v t => min v (t + 50)) 800
  let d := s.draw 5
  (low + 5 * (d.1.toNat % ((high - low) / 5 + 1)), d.2)

/-- The island of pair `n` holds a role or is idle; one that is powered down stays so (R477, R478). -/
def refreshIsland (s : State) (n : Nat) (held : Bool) : State :=
  if plUse s n = 6 ∨ (held ∧ islandState s n = 2) then s
  else if held then
    let t := runTarget s n
    settleBeside (setIsland t.2 n 2 t.1) n
  else settleBeside (setIsland s n 1 (idleTarget s n)) n

/-- Pair `n` holds role `r` (31 none): `PL_PHYS`, its island, and the tags of its span and region. -/
def holdRole (s : State) (n r : Nat) : State :=
  let s := refreshIsland (s.setFld (Reg.PL_PHYS n) F.PL_PHYS_ROLE r) n (r != 31)
  (s.setFld (Reg.CW_EP_TAG n) F.CW_EP_TAG_TAG (spanTag r)).setFld (Reg.CW_EP_TAG (17 + n)) F.CW_EP_TAG_TAG (regionTag r)

/-- Pair `n` becomes the standby (R356), or there is none. -/
def setStandby (s : State) (n : Option (Fin 17)) : State :=
  let v := match n with
    | some n => n.val
    | none => 31
  let s := (s.setFld Reg.PL_STAT F.PL_STAT_SBY_PHYS v).setFld (Reg.PL_ROLE 16) F.PL_ROLE_PHYS v
  match n with
  | some n => setSby (setUse (holdRole s n 16) n 2) 1
  | none => setSby s 0

/-! ## The placement of an image (R352–R355) -/

/-- Pair `n` is eligible (R352). -/
def pairEligible (s : State) (n : Nat) : Bool :=
  s.flag (Reg.ARR_STAT n) F.ARR_STAT_INIT_DONE && !s.flag (Reg.ARR_STAT n) F.ARR_STAT_FLAGGED && plUse s n != 5 &&
    plUse s n != 6

/-- A placement under way: pairs free, roles placed (role, pair), and the pair reserved for the standby. -/
structure Placing where
  free : List Nat
  roles : List (Nat × Nat)
  reserved : Option Nat

/-- The first pair of the run that a group of `k` roles takes (R354 step 1). -/
def groupRun (s : State) (p : Placing) (rot k : Nat) (adj : Bool) : Option Nat :=
  let free (n : Nat) : Bool := p.free.contains n
  let fits (n : Nat) : Bool :=
    n + k ≤ 17 && (List.range k).all (fun i => free (n + i)) &&
      (List.range (k - 1)).all (fun i => !s.jointFlags.any (fun f => f.1.val == n + i)) &&
      (!adj || free (n + k) || (0 < n && free (n - 1)))
  let runs := (List.range 17).filter fits
  match runs.find? (fun n => rot ≤ n) with
  | some n => some n
  | none => runs.head?

/-- The members of a group are a legal shape that shares one program (R346). -/
def groupLegal (g : Image) (lead : Nat) : Bool :=
  let ms := groupMembers g lead
  [1, 2, 4, 8, 16].contains ms.length && ms == (List.range ms.length).map (lead + ·) &&
    ms.all (fun l => (roleEntry (g.first 2) l).program == (roleEntry (g.first 2) lead).program)

/-- One coupled group is placed; `none` when it finds no run or its reservation conflicts with another. -/
def placeGroup (s : State) (g : Image) (rot : Nat) (o : Option Placing) (lead : Nat) : Option Placing :=
  o.bind (fun p =>
    let ms := groupMembers g lead
    let adj := (roleEntry (g.first 2) lead).flags / 2 % 2 = 1
    match groupRun s p rot ms.length adj with
    | none => none
    | some n =>
      let free := p.free.filter (fun x => !(n ≤ x && x < n + ms.length))
      let roles := p.roles ++ ms.zipIdx.map (fun q => (q.1, n + q.2))
      if !adj then some { p with free := free, roles := roles }
      else if p.reserved.isSome then none
      else
        let r := if free.contains (n + ms.length) then n + ms.length else n - 1
        some { free := free.filter (· != r), roles := roles, reserved := some r })

/-- One uncoupled role takes the next free pair from the rotation start (R354 step 2). -/
def placeSingle (rot : Nat) (o : Option Placing) (l : Nat) : Option Placing :=
  o.bind (fun p =>
    match ((List.range 17).map (fun i => (rot + i) % 17)).find? (fun n => p.free.contains n) with
    | none => none
    | some n => some { p with free := p.free.filter (· != n), roles := p.roles ++ [(l, n)] })

/-- Roles by pair, and the standby's pair; `none` where placement fails (R354). -/
def placeImage (s : State) (g : Image) : Option (List (Nat × Nat) × Option Nat) :=
  let rot := s.fld Reg.PL_STAT F.PL_STAT_ROT
  let leads := (usedRoles g).filter (fun l => (roleEntry (g.first 2) l).lead == l)
  let orphans := (usedRoles g).any (fun l => !leads.contains (roleEntry (g.first 2) l).lead)
  let size (l : Nat) : Nat := (groupMembers g l).length
  let coupled := [16, 8, 4, 2].flatMap (fun k => leads.filter (fun l => size l == k))
  let singles := leads.filter (fun l => size l == 1)
  let start : Placing := ⟨(List.range 17).filter (pairEligible s), [], none⟩
  if orphans ∨ leads.any (fun l => !groupLegal g l) then none
  else
    match singles.foldl (placeSingle rot) (coupled.foldl (placeGroup s g rot) (some start)) with
    | none => none
    | some p =>
      let sb := match p.reserved with
        | some n => some n
        | none => p.free.getLast?
      if sb.isNone ∧ recNat (g.first 2) 0 1 % 2 = 1 then none else some (p.roles, sb)

/-! ## What placement writes (R293, R355) -/

/-- The first page of the checkpoint area of role `l`: 65 pages each (assumption log, entry 16). -/
def areaPage (l : Nat) : Nat := 65 * l

/-- Placement's fields of a pair for a role at a group position (R355). -/
def placePair (s : State) (l n pos log : Nat) : State :=
  let c := Reg.ARR_COUPLE n
  let s := (s.setFld c F.ARR_COUPLE_POS pos).setFld c F.ARR_COUPLE_GSIZE_LOG log
  (s.setFld (Reg.CKPT_CTL n) F.CKPT_CTL_BASE (areaPage l)).setFld (Reg.CKPT_REST n) F.CKPT_REST_SRC (areaPage l)

/-- The program of index `i` of an image. -/
def imageProgram (g : Image) (i : Nat) : Option Program :=
  ((g.ofType 5).map (fun x => Program.ofBytes x.content)).find? (fun p => p.index == i)

/-- BANK, ENTRY and IVEC of a pair. -/
def setProgram (s : State) (n bank entry ivec : Nat) : State :=
  let s := s.setFld (Reg.SPC_CTL n) F.SPC_CTL_BANK bank
  (s.setFld (Reg.SPC_ENTRY n) F.SPC_ENTRY_ENTRY entry).setFld (Reg.SPC_ENTRY n) F.SPC_ENTRY_IVEC ivec

/-- `RG_SRC` as placement writes it. -/
def routeHead (s : State) (m : Fin 17) (h : Option (Fin 16)) : State :=
  let w : BitVec 32 := match h with
    | some h => F.RG_SRC_PORT.put (F.RG_SRC_EN.put 0 1) h.val
    | none => 0
  switchSource (s.setReg (Reg.RG_SRC m) w) m

/-- One role is placed on a pair. -/
def placeRole (s : State) (g : Image) (l n : Nat) : State :=
  let e := roleEntry (g.first 2) l
  let log := Nat.log2 (groupMembers g e.lead).length
  let a := Reg.PL_ROLE l
  let s := (((s.setFld a F.PL_ROLE_PHYS n).setFld a F.PL_ROLE_GSIZE_LOG log).setFld a F.PL_ROLE_POS (l - e.lead)).setFld a
    F.PL_ROLE_BANK e.program
  let s := ((s.setFld a F.PL_ROLE_HEAD_EN (if e.head = 255 then 0 else 1)).setFld a F.PL_ROLE_HEAD (e.head % 16)).setFld a
    F.PL_ROLE_HIST e.hist
  let s := s.setFld a F.PL_ROLE_CROWS e.crows
  let p := imageProgram g e.program
  let s := setProgram s n e.program ((p.map (·.entry)).getD 0) ((p.map (·.ivec)).getD 0)
  placePair (setUse (holdRole s n l) n 1) l n (l - e.lead) log

/-- The tags of the units that hold one role each (R293). -/
def fixedTags (s : State) : State :=
  let tag (i : Nat) : Nat :=
    if i < 38 then 0x2000 + (i - 34) else if i = 38 then 0x3000 else if i < 43 then 0x4000 + (i - 39)
    else if i = 43 then 0x4010 else if i < 52 then 0x5000 + (i - 44) else if i < 68 then 0x5100 + (i - 52)
    else if i < 76 then 0x6000 + (i - 68) else if i = 76 then 0x6100 else if i = 77 then 0x7000
    else if i = 78 then 0x7100 else 0x6200
  (List.range 46).foldl (fun s k => s.setFld (Reg.CW_EP_TAG (34 + k)) F.CW_EP_TAG_TAG (tag (34 + k))) s

/-- No role is placed. -/
def clearPlacement (s : State) : State :=
  let s := (List.range 17).foldl (fun s n =>
    let s := holdRole s n 31
    let s := s.setFld (Reg.ARR_COUPLE n) F.ARR_COUPLE_POS 0
    let s := s.setFld (Reg.ARR_COUPLE n) F.ARR_COUPLE_GSIZE_LOG 0
    if plUse s n = 5 ∨ plUse s n = 6 then s else setUse s n 0) s
  let s := (List.range 17).foldl (fun s l => s.setReg (Reg.PL_ROLE l) (resetWord (Reg.PL_ROLE l))) s
  { setStandby s none with muted := [] }

/-- Placement is applied (R355). -/
def applyPlacement (s : State) (g : Image) (roles : List (Nat × Nat)) (sb : Option Nat) : State :=
  let s := fixedTags (clearPlacement s)
  let s := roles.foldl (fun s p => placeRole s g p.1 p.2) s
  let s := setStandby s (sb.map (Fin.ofNat 17))
  setPlState (refreshJoints s) 1

/-! ## Takeover (R362–R365) -/

/-- The spans of a role's group, by position. -/
def groupPairs (s : State) (l : Nat) : List (Nat × Fin 17) :=
  let lead := l - s.fld (Reg.PL_ROLE l) F.PL_ROLE_POS
  (List.range (domSize s lead)).filterMap (fun p => (pairOf s (lead + p)).map (fun n => (lead + p, n)))

/-- A layout of neighbours crosses joint `j`. -/
def crosses (ns : List (Fin 17)) (j : Nat) : Bool := ns.any (fun n => n.val == j) && ns.any (fun n => n.val == j + 1)

/-- The shifts couple no group across a flagged joint that it did not cross before (R54). -/
def joinsAllowed (s : State) (xs : List Shift) : Bool :=
  !s.jointFlags.any (fun f => crosses (xs.map (·.new)) f.1.val && !crosses (xs.map (·.old)) f.1.val)

/-- The roles that move or stay in a takeover onto the standby (R362, R364); `none` where no slide is possible. -/
def planMoves (s : State) (l : Nat) (sb : Fin 17) : Option (List Shift) :=
  let ps := groupPairs s l
  let mk (r : Nat) (a b : Fin 17) : Shift := ⟨r, a, b, 0, none, false⟩
  match ps with
  | [] => none
  | [(r, n)] => some [mk r n sb]
  | (_, w) :: _ =>
    let e := ps.getLastD (0, w)
    if e.2.val + 1 = sb.val then
      some (ps.map (fun p => mk p.1 p.2 (if l ≤ p.1 then Fin.ofNat 17 (p.2.val + 1) else p.2)))
    else if sb.val + 1 = w.val then
      some (ps.map (fun p => mk p.1 p.2 (if p.1 ≤ l then Fin.ofNat 17 (p.2.val - 1) else p.2)))
    else none

def planShifts (s : State) (l : Nat) (sb : Fin 17) : Option (List Shift) :=
  (planMoves s l sb).bind (fun xs => if joinsAllowed s xs then some xs else none)

/-- RESULT, `PL_LAST` and the state at the end of a takeover of role `l` begun at `t0`. -/
def endTake (s : State) (l result age : Nat) (t0 : BitVec 64) : State :=
  let a := Reg.PL_LAST
  let s := (s.setFld Reg.PL_TAKE F.PL_TAKE_RESULT result).setFld Reg.PL_TAKE F.PL_TAKE_GO 0
  let s := ((s.setFld a F.PL_LAST_ROLE l).setFld a F.PL_LAST_AGE age).setFld a F.PL_LAST_DUR
    (min ((s.now.toNat - t0.toNat) / 10) (2 ^ 19 - 1))
  setPlState (modifyPl s (fun p => { p with take := none })) 1

/-- The roles of a role's group read STOPPED. -/
def stopRoles (s : State) (l : Nat) : State := (groupPairs s l).foldl (fun s p => setRoleState s p.1 2) s

/-- The service of a role stops (R365). -/
def stopService (s : State) (l : Nat) (t0 : BitVec 64) : State :=
  (endTake (stopRoles s l) l 3 0 t0).raise 984 (payCause 3 l)

/-- The standby span holds no flag (R54, R55): while it does, the standby is unavailable. -/
def standbyUnflagged (s : State) : Bool := (standby s).any (fun n => !s.flag (Reg.ARR_STAT n) F.ARR_STAT_FLAGGED)

/-- The standby can take a role: READY and not flagged (R54, R55, R356). -/
def standbyReady (s : State) : Bool := sby s == 1 && standbyUnflagged s

/-- The standby is neither busy nor flagged (R337): a planned change on it is aborted first (R361). -/
def standbyFree (s : State) : Bool := 1 ≤ sby s && sby s ≤ 3 && standbyUnflagged s

/-- The standby pair returns to R356. -/
def returnStandby (s : State) (n : Fin 17) : State :=
  let s := stopNow s n 1
  let s := routeHead s n none
  let s := placePair s 0 n 0 0
  setStandby (refreshJoints { rgDisable s n with muted := s.muted.filter (fun p => p.1 != n) }) (some n)

/-- A change is aborted (R359, R361). -/
def changeAbort (s : State) : State :=
  match s.pl.change with
  | none => s
  | some c =>
    let s := returnStandby s c.new
    let s := if s.pl.test.isSome then (s.setFld Reg.PL_TEST F.PL_TEST_RESULT 4).setFld Reg.PL_TEST F.PL_TEST_GO 0 else s
    let s := s.setFld Reg.PL_CHANGE F.PL_CHANGE_GO 0
    let s := { modifyPl s (fun p => { p with change := none, test := none }) with
               muted := s.muted.filter (fun p => p.1 != c.old && p.1 != c.new) }
    (setPlState (s.setFld Reg.PL_CHANGE F.PL_CHANGE_STATE 5) 1).raise 985 (payCause 4 c.role.val)

/-- The values that the image gave a role's span, in a pair that takes the role (R7). -/
def takeValues (s : State) (old new : Fin 17) : State :=
  let s := s.setFld (Reg.SPC_INT new) F.SPC_INT_EN (s.fld (Reg.SPC_INT old) F.SPC_INT_EN)
  (s.setReg (Reg.SPC_IMASK new) (s.reg (Reg.SPC_IMASK old))).setReg (Reg.SPC_WDOG new) (s.reg (Reg.SPC_WDOG old))

/-- A pair takes what a role needs before it restores (R7, R362 step 2): settings of the role's present pair, its area. -/
def takeSettings (s : State) (x : Shift) : State :=
  let s := takeValues s x.old x.new
  let s := s.setReg (Reg.ARR_COUPLE x.new) (s.reg (Reg.ARR_COUPLE x.old))
  let s := s.setFld (Reg.SPC_CTL x.new) F.SPC_CTL_BANK (s.fld (Reg.SPC_CTL x.old) F.SPC_CTL_BANK)
  let s := s.setReg (Reg.SPC_ENTRY x.new) (s.reg (Reg.SPC_ENTRY x.old))
  let s := (s.setFld (Reg.CKPT_CTL x.new) F.CKPT_CTL_BASE (areaPage x.role)).setFld (Reg.CKPT_REST x.new) F.CKPT_REST_SRC
    (areaPage x.role)
  let s := (s.setReg (Reg.HR_BASE_LO x.new) (s.reg (Reg.HR_BASE_LO x.old))).setReg (Reg.HR_BASE_HI x.new)
    (s.reg (Reg.HR_BASE_HI x.old))
  startRestore s x.new

/-- The shifts ordered from the standby's end, so that each pair is left before it is taken. -/
def shiftOrder (sb : Fin 17) (xs : List Shift) : List Shift :=
  if xs.any (fun x => x.new == sb && x.old.val < sb.val) then xs.reverse else xs

/-- `PL_TAKE.GO` for role `l` (R361, R362 step 1, R365). -/
def takeGo (s : State) (l : Nat) : State :=
  match pairOf s l with
  | none => s
  | some pa =>
    if plState s = 3 ∨ 16 ≤ l then s
    else
      let lost := s.pl.change.any (fun c => c.bank == s.fld (Reg.PL_ROLE l) F.PL_ROLE_BANK)
      let s := changeAbort s
      let t0 := s.now
      match (if standbyReady s ∧ !lost then (standby s).bind (fun sb => (planShifts s l sb).map (fun xs => (sb, xs))) else none) with
      | none => stopService s l t0
      | some (sb, xs) =>
        let c := s.reg64 (Reg.CKPT_LINE_LO pa) (Reg.CKPT_LINE_HI pa)
        let hist := s.fld (Reg.PL_ROLE l) F.PL_ROLE_HIST
        let first : BitVec 64 := if c.toNat + 1 < hist then 0 else c + 1 - BitVec.ofNat 64 hist
        let on := ((s.ctl (lead s pa)).served.map (·.index)).getD c
        let s := setSby (setPlState s 3) 4
        let s := (setUse s pa 5).bump (Reg.PL_PHYS pa) F.PL_PHYS_FAULTS
        let s := { s with fh := { s.fh with faults := s.fh.faults ++ [(pa, t0)] } }
        let s := modifyUpdate s (fun u => { u with taken := u.taken || compState s u.comp == 3 })
        let s := (s.setFld Reg.PL_TAKE F.PL_TAKE_RESULT 1).setFld Reg.PL_TAKE F.PL_TAKE_GO 1
        let s := xs.foldl (fun s x => setRoleState s x.role 3) s
        let xs := xs.map (fun x => { x with next := first })
        let s := modifyPl s (fun p => { p with take := some ⟨l, pa, t0, c, on, xs, false, false⟩ })
        let s := (shiftOrder sb xs).foldl takeSettings s
        (refreshJoints s).raise 984 (payCause 1 l)

/-- A write of `PL_TAKE` (R367). -/
def writeTake (s : State) (val : BitVec 32) : State :=
  let s := s.setFld Reg.PL_TAKE F.PL_TAKE_ROLE (F.PL_TAKE_ROLE.get val)
  if F.PL_TAKE_GO.get val = 1 then takeGo s (F.PL_TAKE_ROLE.get val) else s

/-- TAKEOVER_GO (R362). -/
def execTakeoverGo (role : Fin 32) (s : State) : Host.Outcome State Fault Refusal :=
  .next (writeTake s (F.PL_TAKE_ROLE.put (F.PL_TAKE_GO.put 0 1) role.val))

/-- What the ingest queues hold for region `m` is discarded: an item that no other region waits for leaves its queue, and its
credit returns (R170). -/
def dropIngest (s : State) (m : Fin 17) : State :=
  (List.finRange 16).foldl (fun s (h : Fin 16) =>
    let p := s.head h
    let q := p.ingest.map (fun g => { g with regions := g.regions &&& ~~~(1#17 <<< m.val) })
    s.setHead h { p with ingest := q.filter (fun g => g.regions != 0) }) s

/-- Every line-buffer slot of a region is empty and its line order forgotten; a replay copy into it ends. -/
def emptySlots (s : State) (m : Fin 17) : State :=
  let s := dropIngest (if (s.region m).replay.isSome then copyEnd s m else s) m
  let s := { s with mem := s.mem.clear (Win.slotDesc m 0) (Win.slotDesc m 32) }
  let r := s.region m
  showSlots (s.setRegion m { r with gear := none, beats := [], stamps := [], out := none, order := [], markers := [],
                                    consumed := [], sent := 0, badWords := [], replay := none, copied := none,
                                    taking := none, feeds := [] }) m

/-- A region is configured from the frames of a REGION section, whatever it held, and sealed (R344, R362 step 2). -/
def streamRegion (s : State) (m : Fin 17) (sec : List Byte) : State :=
  let s := emptySlots s m
  let r := s.region m
  let s := rgEnter (s.setRegion m { r with frames := r.frames.map (fun f => { f with listed := false }), window := [] }) m 0
  (sectionFrames sec).foldl (fun s ws => commitFrame s m ws) s

/-- The REGION section of a role in the image store. -/
def storedRegion (s : State) (l : Nat) : Option (List Byte) :=
  s.pl.image.bind (fun g => ((g.ofType 4).find? (fun x => recNat x.content 0 1 == l)).map (·.content))

/-- In a slide, a moved region takes over the lines that its role's previous region holds, before that region is configured
for another role (R364). -/
def carryLines (s : State) (x : Shift) : State :=
  let o := s.region x.old
  let d := Win.slotDesc x.new 0
  let px := Win.slot x.new 0
  let s := s.writeBytes d (s.readBytes (Win.slotDesc x.old 0) 2048)
  let s := s.writeBytes px (s.readBytes (Win.slot x.old 0) (32 * 0x6000))
  showSlots (s.setRegion x.new { s.region x.new with order := o.order, consumed := o.consumed }) x.new

/-- The region of a shift becomes ready (R362 step 2, R364). -/
def readyRegion (slide : Bool) (s : State) (x : Shift) : State :=
  if x.old = x.new then s
  else
    let s := match storedRegion s x.role with
      | some sec => streamRegion s x.new sec
      | none => emptySlots s x.new
    let s := if slide then carryLines s x else s
    routeHead s x.new (headOfRole s x.role)

/-- TAKEOVER_RESTORED (R362): the restores are done and the regions run; heads are routed and copies may begin. A restore
that failed ends the takeover (R365). -/
def execTakeoverRestored (s : State) : Host.Outcome State Fault Refusal :=
  match s.pl.take with
  | none => .next s
  | some t =>
    let busy (x : Shift) : Bool := s.flag (Reg.CKPT_REST x.new) F.CKPT_REST_GO
    let failed (x : Shift) : Bool := s.flag (Reg.CKPT_REST x.new) F.CKPT_REST_FAIL
    if t.ready ∨ t.shifts.any busy then .next s
    else if t.shifts.any failed then
      let s := match standby s with
        | some sb => returnStandby s sb
        | none => s
      .next (stopService s t.role t.start)
    else
      let slide := t.shifts.length ≠ 1
      let sb := (standby s).getD t.failed
      let s := (shiftOrder sb t.shifts).foldl (readyRegion slide) s
      .next (modifyPl s (fun p => { p with take := some { t with ready := true } }))

/-- The first line that a region has taken live from its port: no mark of a copy (R363). -/
def firstLive (s : State) (m : Fin 17) : Option (BitVec 64) :=
  let r := s.region m
  let held := r.order.filterMap (fun e => e.slot.bind (fun k => if slotFlags s m k / 2 = 0 then some e.index else none))
  let low (a b : BitVec 64) : BitVec 64 := if b.toNat < a.toNat then b else a
  match (r.gear.map (·.stamp.index)).toList ++ r.stamps.map (·.index) ++ (r.out.map (·.stamp.index)).toList ++ held with
  | [] => none
  | i :: is => some (is.foldl low i)

/-- Lines from `i` on that the next copy takes, at most 8: those below the first live line that the source holds complete,
and those that it no longer holds. -/
def copyCount (s : State) (src : Fin 17) (live : Option (BitVec 64)) : Nat → BitVec 64 → Nat
  | 0, _ => 0
  | fuel + 1, i =>
    let newest := ((List.finRange 32).filter (fun (k : Fin 32) => 2 ≤ slotState s src k.val)).foldl
      (fun n (k : Fin 32) => max n (slotIndex s src k.val).toNat) 0
    if live.any (fun l => l.toNat ≤ i.toNat) ∨ newest < i.toNat then 0
    else 1 + copyCount s src live fuel (i + 1)

/-- The span of the lead of a takeover starts once a copied line is complete in every region of the group (R362 step 4). -/
def startTaken (s : State) (t : Takeover) : State :=
  match t.shifts with
  | [] => s
  | x :: _ =>
    let firsts := t.shifts.filterMap (fun y => (s.region y.new).order.head?)
    let complete := firsts.length = t.shifts.length ∧ t.shifts.all (fun y =>
      (s.region y.new).order.head?.any (fun e => e.slot.all (fun k => slotState s y.new k.val != 1)))
    if spcState s x.new = 3 ∧ complete then
      let c := s.ctl x.new
      startWritten (s.setCtl x.new { c with firstLine := firsts.head?.map (·.index) }) x.new
    else s

/-- One role's next copy is issued, when its region's last one is done (R363). -/
def nextCopy (s : State) (t : Takeover) (x : Shift) : Shift × State :=
  if x.done ∨ s.flag (Reg.RP_STAT x.new) F.RP_STAT_BUSY then (x, s)
  else if (headOfRole s x.role).isNone then ({ x with done := true }, s)
  else
    let live := x.live.or (firstLive s x.new)
    let x := { x with live := live }
    if live.any (fun l => l.toNat ≤ x.next.toNat) then ({ x with done := true }, s)
    else
      let src := if t.shifts.length = 1 then x.old else x.new
      let n := copyCount s src live 8 x.next
      if n = 0 then (x, s)
      else
        let prime := min n (t.line.toNat + 1 - x.next.toNat)
        let s := s.setReg64 (Reg.RP_LINE_LO x.new) (Reg.RP_LINE_HI x.new) x.next
        let w := F.RP_CTL_GO.put (F.RP_CTL_COUNT.put (F.RP_CTL_NPRIME.put (F.RP_CTL_SRC.put 0 src.val) prime) n) 1
        ({ x with next := x.next + BitVec.ofNat 64 n }, writeRpCtl s x.new w)

/-- TAKEOVER_COPY (R362 steps 3 and 4, R363). -/
def execTakeoverCopy (s : State) : Host.Outcome State Fault Refusal :=
  match s.pl.take with
  | none => .next s
  | some t =>
    if !t.ready then .next s
    else
      let s := startTaken s t
      let r := t.shifts.foldl (fun (acc : List Shift × State) x =>
        let q := nextCopy acc.2 t x
        (acc.1 ++ [q.1], q.2)) ([], s)
      .next (modifyPl r.2 (fun p => { p with take := some { t with shifts := r.1 } }))

/-- The age that is reported (R363). -/
def takeAge (t : Takeover) : Nat := min 255 (t.stop.toNat - t.line.toNat)

/-- No array operation is in progress on the spans of the pairs given (R80). -/
def opsIdle (s : State) (ns : List (Fin 17)) : Bool := ns.all (fun n => (s.micro (lead s n)).op.isNone)

/-- TAKEOVER_SWITCH (R362 step 5): at the line sync onto line c + 1, or the first live line beyond it, between two operations
(R80), the roles are held by their new pairs; the failed pair holds none, and no pair holds the role of the standby (R18). -/
def execTakeoverSwitch (s : State) : Host.Outcome State Fault Refusal :=
  match s.pl.take with
  | none => .next s
  | some t =>
    match t.shifts with
    | [] => .next s
    | x :: _ =>
      let synced := (s.ctl (lead s x.new)).served.any (fun l => t.line.toNat < l.index.toNat)
      if t.switched ∨ !t.ready ∨ !synced ∨ !opsIdle s (t.shifts.flatMap (fun y => [y.old, y.new])) then .next s
      else
        let s := (holdRole s t.failed 31).setFld (Reg.PL_ROLE 16) F.PL_ROLE_PHYS 31
        let s := s.setFld Reg.PL_STAT F.PL_STAT_SBY_PHYS 31
        let s := t.shifts.foldl (fun s y =>
          setUse (holdRole (s.setFld (Reg.PL_ROLE y.role) F.PL_ROLE_PHYS y.new.val) y.new y.role) y.new 1) s
        let s := s.setFld Reg.PL_LAST F.PL_LAST_AGE (takeAge t)
        let s := s.setReg64 Reg.PL_SWITCH_LO Reg.PL_SWITCH_HI (t.line + 1)
        .next (modifyPl s (fun p => { p with take := some { t with switched := true } }))

/-- TAKEOVER_DONE (R362 step 6). -/
def execTakeoverDone (s : State) : Host.Outcome State Fault Refusal :=
  match s.pl.take with
  | none => .next s
  | some t =>
    if !t.switched ∨ t.shifts.any (fun x => !x.done) then .next s
    else
      let s := rgDisable (routeHead s t.failed none) t.failed
      let s := isolateEp s t.failed
      let s := t.shifts.foldl (fun s x => setRoleState s x.role 1) s
      let s := modifyPl s (fun p => { p with reports := p.reports ++ [(t.role, takeAge t)] })
      .next ((setStandby (endTake s t.role 2 (takeAge t) t.start) none).raise 984 (payCause 2 t.role))

/-- AUTO_RESUME (R459): where `FH_CTL.AUTO_RESUME` is 1 and the standby READY while a role is STOPPED, the lowest such role is taken
over. -/
def execAutoResume (s : State) : Host.Outcome State Fault Refusal :=
  match (List.range 16).find? (fun l => roleState s l == 2) with
  | none => .next s
  | some l => .next (if s.flag Reg.FH_CTL F.FH_CTL_AUTO_RESUME ∧ standbyReady s then takeGo s l else s)

/-! ## Planned changes (R359–R361) -/

/-- A write of 1 to `PL_CHANGE.GO` (R360): no effect unless READY. -/
def changeGo (s : State) : State :=
  match s.pl.change with
  | none => s
  | some c =>
    if s.fld Reg.PL_CHANGE F.PL_CHANGE_STATE ≠ 3 ∨ c.going then s
    else
      let line := match (s.ctl (lead s c.old)).served with
        | some l => l.index + 1
        | none => lastLine s c.role + 1
      let s := (s.setReg64 Reg.PL_SWITCH_LO Reg.PL_SWITCH_HI line).setFld Reg.PL_CHANGE F.PL_CHANGE_GO 1
      let keep := s.muted.filter (fun p => p.1 != c.old && p.1 != c.new)
      { modifyPl s (fun p => { p with change := some { c with going := true } }) with
        muted := keep ++ [(c.old, true, line), (c.new, false, line)] }

/-- CHANGE_GO (R360). -/
def execChangeGo (s : State) : Host.Outcome State Fault Refusal := .next (changeGo s)

/-- CHANGE_ABORT (R359): before SWITCHED. -/
def execChangeAbort (s : State) : Host.Outcome State Fault Refusal := .next (changeAbort s)

/-- CHANGE_READY (R359): the standby span has processed HIST lines. A change that moves a role off a pair under test, and one
of an update, goes on at once (R357, R446). -/
def execChangeReady (s : State) : Host.Outcome State Fault Refusal :=
  match s.pl.change with
  | none => .next s
  | some c =>
    let hist := s.fld (Reg.PL_ROLE c.role) F.PL_ROLE_HIST
    if s.fld Reg.PL_CHANGE F.PL_CHANGE_STATE ≠ 2 ∨ (s.ctl c.new).syncs < hist + 1 then .next s
    else
      let s := (s.setFld Reg.PL_CHANGE F.PL_CHANGE_STATE 3).raise 985 (payCause 2 c.role.val)
      let update := s.up.current.any (fun (u : Update) => u.left.contains c.role.val)
      .next (if s.pl.test.isSome || update then changeGo s else s)

/-- The history ring of a role, as placement assigned it (R200, R355). -/
def setRing (s : State) (m l : Nat) : State :=
  match s.pl.rings.find? (fun p => p.1 == l) with
  | none => s
  | some (_, a) => (s.setFld (Reg.HR_BASE_HI m) F.HR_BASE_HI_BASE_HI (a / 2 ^ 32)).setFld (Reg.HR_BASE_LO m) F.HR_BASE_LO_BASE_LO
      (a / 2 ^ 16 % 2 ^ 16)

/-- The standby region and span take a change's configuration and run beside the role's pair (R359: STAGED, then PRIMING at
the seal; a region that does not seal leaves the change STAGED). -/
def stageChange (s : State) (c : Change) (region : List Byte) (entry ivec : Nat) (carry : Bool) : State :=
  let a := Reg.PL_CHANGE
  let s := setSby (setUse (setPlState s 2) c.new 3) 2
  let s := (s.setFld a F.PL_CHANGE_STATE 1).setFld a F.PL_CHANGE_ROLE c.role.val
  let s := s.raise 985 (payCause 1 c.role.val)
  let s := streamRegion (setRing s c.new c.role) c.new region
  let s := modifyPl s (fun p => { p with change := some c })
  let s := placePair (takeValues s c.old c.new) c.role c.new 0 0
  let s := setProgram s c.new c.bank entry ivec
  let s := if carry then (match execRestoreDone c.new [] (startRestore s c.new) with
      | .next t => t
      | _ => s) else s
  if rgState s c.new ≠ 2 then s
  else
    let s := setSby (s.setFld a F.PL_CHANGE_STATE 2) 3
    startWritten (routeHead s c.new (headOfRole s c.role)) c.new

/-! ## Tests of a pair (R357) -/

/-- The built-in tests of pair `n` run. -/
def beginTest (s : State) (n : Fin 17) : State :=
  let s := if standby s = some n then setSby s 4 else s
  let s := stopNow s n 1
  modifyPl (setUse (setPlState s 4) n 4) (fun p => { p with test := some n })

/-- `PL_TEST` shows RUNNING, and GO reads 1 until the test has ended (R497). -/
def showTest (s : State) : State := (s.setFld Reg.PL_TEST F.PL_TEST_RESULT 1).setFld Reg.PL_TEST F.PL_TEST_GO 1

def refuseTest (s : State) : State := s.setFld Reg.PL_TEST F.PL_TEST_RESULT 4

/-- A write of 1 to `PL_TEST.GO` for pair `n` (R357): a duty role first moves to the standby with its current image. -/
def testGo (s : State) (n : Fin 17) : State :=
  let u := plUse s n
  if s.flag Reg.PL_TEST F.PL_TEST_GO then s
  else if sby s ≠ 1 ∨ plState s ≠ 1 ∨ ¬(u = 5 ∨ u = 1 ∨ u = 2 ∨ u = 0) then refuseTest s
  else if u ≠ 1 then beginTest (showTest s) n
  else
    let l := s.roleOf n
    match standby s, storedRegion s l, s.pl.image with
    | some sb, some region, some g =>
      if domSize s l ≠ 1 ∨ !standbyReady s then refuseTest s
      else
        let c : Change := ⟨g, Fin.ofNat 16 l, n, sb, s.fld (Reg.PL_ROLE l) F.PL_ROLE_BANK, 0, false⟩
        let s := modifyPl (showTest s) (fun p => { p with test := some n })
        let e := Reg.SPC_ENTRY n
        stageChange s c region (s.fld e F.SPC_ENTRY_ENTRY) (s.fld e F.SPC_ENTRY_IVEC)
          ((roleEntry (g.first 2) l).flags % 2 = 1)
    | _, _, _ => refuseTest s

/-- A write of `PL_TEST` (R367). -/
def writeTest (s : State) (val : BitVec 32) : State :=
  let v := F.PL_TEST_PHYS.get val
  let s := if v ≤ 16 then s.setFld Reg.PL_TEST F.PL_TEST_PHYS v else s
  if F.PL_TEST_GO.get val = 1 then testGo s (Fin.ofNat 17 (s.fld Reg.PL_TEST F.PL_TEST_PHYS)) else s

/-- PAIR_TEST (R357). -/
def execPairTest (n : Fin 17) (s : State) : Host.Outcome State Fault Refusal :=
  .next (writeTest s (F.PL_TEST_PHYS.put (F.PL_TEST_GO.put 0 1) n.val))

/-- PAIR_TEST_DONE (R357): the tests of the pair end; it becomes the standby, or FLAGGED. A span that is flagged receives no role
(R55): its pair stays FLAGGED whatever the tests say. -/
def execPairTestDone (pass : Bool) (s : State) : Host.Outcome State Fault Refusal :=
  match s.pl.test with
  | none => .next s
  | some n =>
    if plUse s n ≠ 4 then .next s
    else
      let s := modifyPl (setPlState s 1) (fun p => { p with test := none })
      let s := s.setFld Reg.PL_TEST F.PL_TEST_GO 0
      let s := (s.setFld Reg.PL_TEST F.PL_TEST_RESULT (if pass then 2 else 3)).raise 987 (payCause (if pass then 1 else 2))
      if pass ∧ !s.flag (Reg.ARR_STAT n) F.ARR_STAT_FLAGGED then
        let s := match standby s with
          | some b => if b = n then s else setUse (holdRole s b 31) b 0
          | none => s
        .next (setStandby s (some n))
      else
        let s := if standby s = some n then setStandby s none else s
        .next (setUse (holdRole s n 31) n 5)

end Sys2Proof.Machine
end

