-- ==== Sys2Proof/Machine/RenerOps.lean ====
section
/-!
DEFINITION. Shared operations of the Rener service and the line ports (14): sending, sessions, and acceptance of
datagrams.
-/

namespace Sys2Proof.Machine

def modifyRn (s : State) (f : Rener → Rener) : State := { s with rn := f s.rn }

/-! ## Sending (R407, R408, R410–R413) -/

/-- The MTU of port `e` (R406). -/
def lpMtu (s : State) (e : Nat) : Nat := if s.flag (Reg.LP_CTL e) F.LP_CTL_JUMBO then 9000 else 1500

/-- The payload budget of port `e` (R408). -/
def lpBudget (s : State) (e : Nat) : Nat := lpMtu s e - 60

/-- Peers outside the port's network have no way without a gateway (R407). -/
def reachable (s : State) (e : Nat) (peer : BitVec 32) : Bool :=
  let m := s.reg (Reg.LP_MASK e)
  (peer &&& m) == (s.reg (Reg.LP_IP e) &&& m) || s.reg (Reg.LP_GW e) != 0

/-- Port `e` is enabled and its link is up. -/
def lpUp (s : State) (e : Nat) : Bool := s.flag (Reg.LP_CTL e) F.LP_CTL_EN && s.flag (Reg.LP_STAT e) F.LP_STAT_LINK

def beBytes (n v : Nat) : List Byte := (leBytes n v).reverse

/-- Sum of the big-endian 16-bit words of a byte string, an odd last byte filled with 0. -/
def sum16 : List Byte → Nat
  | [] => 0
  | [a] => a.toNat * 256
  | a :: b :: r => a.toNat * 256 + b.toNat + sum16 r

/-- The Internet checksum of bytes whose checksum field is 0. -/
def inetChecksum (bs : List Byte) : Nat :=
  let t := sum16 bs
  65535 - (if t = 0 then 0 else (t - 1) % 65535 + 1)

/-- The place of the sealing key of a type among the session's keys LC, RSP, NTF, REC, CRP (R411, R416). -/
def sealKey (type : BitVec 8) : Nat := if type = 0x11 then 1 else if type = 0x40 then 2 else if type = 0x20 then 3 else 4

/-- The service port that sends a type (R411). -/
def servicePort (type : BitVec 8) : Nat :=
  if type = 0x20 then 47101 else if type = 0x30 then 47102 else if type = 0x40 then 47103 else 47100

/-- The header of a datagram (R410). -/
def Datagram.header (d : Datagram) : List Byte :=
  [1, d.type, if d.enc then 1 else 0, 0] ++ leBytes 4 d.session.toNat ++ leBytes 8 d.seq.toNat

/-- The bytes of a datagram, sealed under its key of the session's keys (R410, R412), or plain without them. -/
def Datagram.bytes (d : Datagram) (keys : Option (List Byte)) : List Byte :=
  match keys with
  | none => d.header ++ d.payload
  | some ks =>
    let k := (ks.drop (36 * sealKey d.type)).take 36
    let nonce := k.drop 32 ++ leBytes 8 d.seq.toNat
    if d.enc then d.header ++ Config.gcmSeal (k.take 32) nonce d.header d.payload
    else d.header ++ d.payload ++ Config.gcmSeal (k.take 32) nonce (d.header ++ d.payload) []

/-- UDP over IPv4 (R408): TTL 64, Don't Fragment, both checksums computed. -/
def ipPacket (src dst : BitVec 32) (tos : Byte) (ident sport dport : BitVec 16) (b : List Byte) : List Byte :=
  let n := 8 + b.length
  let ends := beBytes 4 src.toNat ++ beBytes 4 dst.toNat
  let udp (c : Nat) : List Byte := beBytes 2 sport.toNat ++ beBytes 2 dport.toNat ++ beBytes 2 n ++ beBytes 2 c ++ b
  let c := inetChecksum (ends ++ [0, 17] ++ beBytes 2 n ++ udp 0)
  let front := [0x45, tos] ++ beBytes 2 (20 + n) ++ beBytes 2 ident.toNat ++ [0x40, 0, 64, 17]
  front ++ beBytes 2 (inetChecksum (front ++ [0, 0] ++ ends)) ++ ends ++ udp (if c = 0 then 0xFFFF else c)

/-- The MAC address of port `e` (R405). -/
def macOf (s : State) (e : Nat) : Nat :=
  (s.reg (Reg.LP_MAC_HI e)).toNat % 65536 * 2 ^ 32 + (s.reg (Reg.LP_MAC_LO e)).toNat

/-- The port itself sends a frame (R407). -/
def portSends (s : State) (e : Fin 8) (f : List Byte) : State :=
  (modifyRn s (fun r => { r with frameOut := some (e, f) })).bump (Reg.LP_TX_OK e) F.LP_TX_OK_COUNT

/-- An ARP packet of port `e` (R407): operation 1 request or 2 reply, to a MAC address, about a target. -/
def arpFrame (s : State) (e : Fin 8) (op : Byte) (dst target : List Byte) : List Byte :=
  let mac := beBytes 6 (macOf s e)
  dst ++ mac ++ [0x08, 0x06, 0, 1, 8, 0, 6, 4, 0, op] ++ mac ++ beBytes 4 (s.reg (Reg.LP_IP e)).toNat ++ target

/-- The address by which port `e` reaches a peer: its own, or the gateway's outside the port's network (R407). -/
def nextHop (s : State) (e : Nat) (peer : BitVec 32) : BitVec 32 :=
  let m := s.reg (Reg.LP_MASK e)
  if (peer &&& m) = (s.reg (Reg.LP_IP e) &&& m) then peer else s.reg (Reg.LP_GW e)

/-- Port `e` resolves an address by ARP (R407): one that it has not resolved yet by a request, whose answer comes from outside: a
free value (log, entry 112). -/
def resolve (s : State) (e : Fin 8) (ip : BitVec 32) : BitVec 48 × State :=
  match (s.rn.resolved[e]).find? (fun p => p.1 == ip) with
  | some p => (p.2, s)
  | none =>
    let s := portSends s e (arpFrame s e 1 (List.replicate 6 0xFF) (List.replicate 6 0 ++ beBytes 4 ip.toNat))
    let d := s.draw 48
    (d.1, modifyRn d.2 (fun r => { r with resolved := r.resolved.set e ((ip, d.1) :: r.resolved[e]) }))

/-- A datagram leaves, where its peer can be reached. TOS and identification are not stated, nor the line computer's port
where no stream names one: free values (log, entry 112). -/
def transmit (s : State) (d : Datagram) (keys : Option (List Byte)) : State :=
  if lpUp s d.port ∧ reachable s d.port d.peer then
    let h := resolve s d.port (nextHop s d.port d.peer)
    let w := h.2.draw 40
    let dport := if d.dest = 0 then w.1.extractLsb' 24 16 else d.dest
    let p := ipPacket (s.reg (Reg.LP_IP d.port)) d.peer (w.1.extractLsb' 0 8) (w.1.extractLsb' 8 16)
      (BitVec.ofNat 16 (servicePort d.type)) dport (d.bytes keys)
    let f := beBytes 6 h.1.toNat ++ beBytes 6 (macOf s d.port) ++ [0x08, 0x00] ++ p
    (modifyRn w.2 (fun r => { r with out := some d, wire := f })).bump (Reg.LP_TX_OK d.port) F.LP_TX_OK_COUNT
  else s

/-- A sessionless datagram to a peer. -/
def transmitPlain (s : State) (port : Fin 8) (peer : BitVec 32) (type : BitVec 8) (payload : List Byte) : State :=
  transmit s ⟨port, peer, 0, type, 0, 0, false, payload⟩ none

/-! ## Sessions (R413, R417) -/

def session (s : State) (k : Fin 16) : Option Session := s.rn.sessions[k]
def setSession (s : State) (k : Fin 16) (x : Session) : State :=
  modifyRn s (fun r => { r with sessions := r.sessions.set k (some x) })

def sessPort (s : State) (k : Nat) : Fin 8 := Fin.ofNat 8 (s.fld (Reg.RN_SESS_STAT k) F.RN_SESS_STAT_PORT)
def sessPeer (s : State) (k : Nat) : BitVec 32 := s.reg (Reg.RN_SESS_PEER k)
def sessId (s : State) (k : Nat) : BitVec 32 := s.reg (Reg.RN_SESS_ID k)
def sessRights (s : State) (k : Nat) : Nat := s.fld (Reg.RN_SESS_STAT k) F.RN_SESS_STAT_RIGHTS

/-- `RN_SESSION`, `RN_AUTH` and `RN_STREAM` of port `e`: sources 672 + 8e + 2, 3 and 4 (R436). -/
def raiseRn (s : State) (e k cause : Nat) (x : Nat := 0) : State := s.raise (672 + 8 * e + k) (payCause cause x)

/-- A session sends a datagram of a type: the sealing key of the type counts its SEQ (R411, R413). -/
def sessionSend (s : State) (k : Fin 16) (type : BitVec 8) (dest : BitVec 16) (enc : Bool) (payload : List Byte) : State :=
  match session s k with
  | none => s
  | some x =>
    let (seq, x) : BitVec 64 × Session :=
      if type = 0x11 then (x.rsp, { x with rsp := x.rsp + 1 })
      else if type = 0x40 then (x.ntf, { x with ntf := x.ntf + 1 })
      else if type = 0x20 then (x.recSeq, { x with recSeq := x.recSeq + 1 })
      else (x.crp, { x with crp := x.crp + 1 })
    transmit (setSession s k x) ⟨sessPort s k, sessPeer s k, dest, type, sessId s k, seq, enc, payload⟩ (some x.keys)

/-- SUBS shows the streams that are open. -/
def showSubs (s : State) (k : Fin 16) : State :=
  match session s k with
  | none => s
  | some x =>
    let b (v : Bool) (i : Nat) : Nat := if v then 2 ^ i else 0
    s.setFld (Reg.RN_SESS_STAT k) F.RN_SESS_STAT_SUBS
      (b (x.records.any (·.records)) 0 + b x.crops.isSome 1 + b x.events.isSome 2 + b (x.records.any (·.lines)) 3)

/-- A session's claims on the crop store are released (R249, R417). -/
def dropClaims (s : State) (k : Fin 16) : State :=
  let store := (s.cr.store.map (fun c => { c with users := c.users &&& ~~~(1#16 <<< k.val) })).filter (fun c => c.users != 0)
  { s with cr := { s.cr with store := store } }

/-! ## The end of a session -/

/-- A session ends (R417): 1 CLOSE, 2 IDLE, 3 EXPIRED, 4 FLOOR, 5 RELEASE, 6 LOCK, 7 RESTART. -/
def endSession (s : State) (k : Fin 16) (cause : Nat) : State :=
  match session s k with
  | none => s
  | some _ =>
    let s := raiseRn s (sessPort s k) 2 2 cause
    let s := dropClaims s k
    let s := (s.up.leases.filter (fun l => l.session == k)).foldl (fun s l => endLease s l.comp 2) s
    let s := modifyUp s (fun u => { u with plans := u.plans.filter (fun p => p.1 != k) })
    let s := ((s.setReg (Reg.RN_SESS_STAT k) 0).setReg (Reg.RN_SESS_ID k) 0).setReg (Reg.RN_SESS_PEER k) 0
    modifyRn (s.setReg (Reg.RN_SESS_CRED k) 0) (fun r => { r with sessions := r.sessions.set k none })

def endSessions (s : State) (cause : Nat) : State := (List.finRange 16).foldl (fun s k => endSession s k cause) s

/-! ## Acceptance (R413) -/

/-- The second of device time. -/
def secondOf (s : State) : Nat := s.now.toNat / 1000000000

/-- A rejected datagram: the first of each second on a port raises RN_AUTH. -/
def authFail (s : State) (e : Fin 8) : State :=
  if s.rn.authSec[e] = some (secondOf s) then s
  else raiseRn (modifyRn s (fun r => { r with authSec := r.authSec.set e (some (secondOf s)) })) e 3 0

/-- The open session that a datagram names, bound to its port and peer. -/
def sessionOf (s : State) (d : Sealed) : Option (Fin 16) :=
  (List.finRange 16).find? (fun (k : Fin 16) => (session s k).isSome && sessId s k == d.session &&
    (sessPort s k).val == d.port.val && sessPeer s k == d.peer)

/-- SEQ lies above the highest accepted less 128 and has not been accepted. -/
def seqFresh (x : Session) (q : BitVec 64) : Bool := x.high.toNat < q.toNat + 128 && q != 0 && !x.seen.contains q

/-- A datagram is accepted or rejected (R413): the session that accepts it. -/
def accept (s : State) (d : Sealed) : Option (Fin 16) × State :=
  match sessionOf s d with
  | none => (none, s)
  | some k =>
    match session s k with
    | none => (none, s)
    | some x =>
      if !d.auth then (none, authFail (s.bump (Reg.LP_RN_AUTH d.port) F.LP_RN_AUTH_COUNT) d.port)
      else if !seqFresh x d.seq then (none, authFail (s.bump (Reg.LP_RN_REPLAY d.port) F.LP_RN_REPLAY_COUNT) d.port)
      else
        let high := if x.high.toNat < d.seq.toNat then d.seq else x.high
        let seen := (d.seq :: x.seen).filter (fun q => high.toNat < q.toNat + 128)
        (some k, setSession s k { x with high := high, seen := seen, lastAccept := s.now })

/-! ## Requests (R418–R420) -/

/-- The RESPONSE payload (R418). -/
def responseBytes (op status : Nat) (reqId : BitVec 32) (body : List Byte) : List Byte :=
  leBytes 2 op ++ leBytes 2 status ++ leBytes 4 reqId.toNat ++ leBytes 2 body.length ++ leBytes 2 0 ++ body

/-- A response is kept among the last 8 of the session and sent (R419). -/
def answer (s : State) (k : Fin 16) (op status : Nat) (reqId : BitVec 32) (body : List Byte) : State :=
  match session s k with
  | none => s
  | some x =>
    let p := responseBytes op status reqId body
    let kept := x.kept ++ [(reqId, p)]
    sessionSend (setSession s k { x with kept := kept.drop (kept.length - 8) }) k 0x11 0 true p

/-- A request with its STATUS and body is worked out by `f`, which gets the session. -/
abbrev Work := Fin 16 → State → Nat × List Byte × State

/-- What follows the response of an operation: the session, the STATUS and the state. -/
abbrev After := Fin 16 → Nat → State → State

/-- A COMMAND runs (R413, R418–R420): accepted; a kept response is sent again; BUSY with four requests queued; DENIED without
the right (`none`: no right is needed); else the work of the operation, its response, and what follows the response. -/
def runCommand (op : Nat) (right : Option Nat) (r : Request) (f : Work) (s : State)
    (after : After := fun _ _ s => s) : State :=
  match accept s r.dgram with
  | (none, s) => s
  | (some k, s) =>
    match (session s k).bind (fun x => x.kept.find? (fun p => p.1 == r.reqId)) with
    | some p => sessionSend s k 0x11 0 true p.2
    | none =>
      if 4 ≤ r.waiting then sessionSend s k 0x11 0 true (responseBytes op 5 r.reqId [])
      else if right.any (fun b => !(sessRights s k).testBit b) then answer s k op 3 r.reqId []
      else
        let w := f k s
        after k w.1 (answer w.2.2 k op w.1 r.reqId w.2.1)

/-- At most 16 queries in a second of a port are served (R423). -/
def queryServed (s : State) (e : Fin 8) : Bool :=
  let q := s.rn.queries[e]
  q.1 != secondOf s || q.2 < 16

/-- A QUERY runs (R423): served with the work of the operation, or counted. -/
def runQuery (op : Nat) (port : Fin 8) (peer reqId : BitVec 32) (f : State → Nat × List Byte × State) (s : State) : State :=
  if !s.ab.up then s
  else if !queryServed s port then s.bump (Reg.LP_RX_DISCARD port) F.LP_RX_DISCARD_COUNT
  else
    let q := s.rn.queries[port]
    let n := if q.1 = secondOf s then q.2 + 1 else 1
    let w := f (modifyRn s (fun r => { r with queries := r.queries.set port (secondOf s, n) }))
    transmitPlain w.2.2 port peer 0x05 (responseBytes op w.1 reqId w.2.1)

end Sys2Proof.Machine
end

