-- ==== Sys2Proof/Machine/Abutment.lean ====
section
/-!
DEFINITION. The abutment die (13): boot, measurements, quotes, ownership, debug and the mailbox, and meanings of
ROM_DONE to MB_DONE.
-/

namespace Sys2Proof.Machine

def modifyAb (s : State) (f : Abut → Abut) : State := { s with ab := f s.ab }

/-! ## Measurements and quotes (R383–R385) -/

/-- Mi := SHA-384(Mi ‖ d), with a log entry (R383, R384). -/
def extend (s : State) (i : Fin 8) (d : List Byte) : State :=
  let a := s.ab
  let full := 256 ≤ a.log.length
  modifyAb s (fun a => { a with
    meas := a.meas.set i (hash48 (a.meas[i] ++ d)),
    log := if full then a.log else a.log ++ [(i.val, (Config.measureKind i.val).toNat, d)],
    logOvf := a.logOvf || full })

/-- The public key of the ACTIVE owner slot, hashed; zeros when unowned (R385). -/
def ownerHash (s : State) : List Byte :=
  match ownerKey s with
  | none => List.replicate 48 0
  | some k => hash48 k

/-- FLAGS of a quote. -/
def quoteFlags (s : State) : Nat :=
  s.fld Reg.ABT_STAT F.ABT_STAT_OWNED + 2 * s.fld Reg.ABT_STAT F.ABT_STAT_OSLOT +
    8 * s.fld Reg.ABT_STAT F.ABT_STAT_DEBUG_DECK + 16 * s.fld Reg.ABT_STAT F.ABT_STAT_DEBUG_ABUT + 32 * s.ab.logOvf.toNat +
    256 * min 255 s.ab.log.length

/-- A quote over a nonce (R385). -/
def quoteBytes (s : State) (nonce : List Byte) : List Byte :=
  let body := leBytes 4 0x31515441 ++ leBytes 2 1 ++ leBytes 2 624 ++ fitBytes 16 Config.serial ++ fitBytes 48 nonce ++
    leBytes 8 s.now.toNat ++ (List.finRange 4).flatMap (fun (i : Fin 4) => leBytes 1 (rollback s i)) ++
    leBytes 4 (quoteFlags s) ++ leBytes 4 s.ab.bootId.toNat ++ leBytes 4 0 ++
    (List.finRange 8).flatMap (fun (i : Fin 8) => fitBytes 48 s.ab.meas[i]) ++ ownerHash s
  body ++ fitBytes 96 (Config.ecdsaSign Config.identitySecret body)

/-! ## Owner and counters (R376, R377, R386) -/

/-- `ABT_STAT.OWNED` and OSLOT. -/
def showOwner (s : State) : State :=
  let o := activeOwner s
  (s.setFld Reg.ABT_STAT F.ABT_STAT_OWNED o.isSome.toNat).setFld Reg.ABT_STAT F.ABT_STAT_OSLOT
    ((o.map (fun (i : Fin 4) => i.val)).getD 0)

/-- `ABT_SVN` shows the counters. -/
def showCounters (s : State) : State :=
  let a := Reg.ABT_SVN
  (((s.setFld a F.ABT_SVN_FW (rollback s 0)).setFld a F.ABT_SVN_KFW (rollback s 1)).setFld a F.ABT_SVN_LIB
    (rollback s 2)).setFld a F.ABT_SVN_IMG (rollback s 3)

/-- A counter advances to a value above its own, as far as it has fuses (R376, R377), and UPD_COUNTER is raised (R452). -/
def advanceCounter (s : State) (comp : Nat) (i : Fin 4) (v : Nat) : State :=
  let v := min v (if i = 3 then 128 else 64)
  if v ≤ rollback s i then s
  else
    let s := modifyAb s (fun a => { a with counters := a.counters.set i ⟨v, false⟩ })
    (showCounters s).raise 1003 (payCause (i.val + 1) comp v)

/-! ## The flash directory (R373, R374) -/

/-- The bytes of a directory entry, and of a copy with its CRC-32 (R143). -/
def SlotEntry.bytes (e : SlotEntry) : List Byte :=
  leBytes 1 e.state ++ leBytes 3 0 ++ leBytes 4 e.svn ++ leBytes 4 e.version.toNat ++ leBytes 4 e.id.toNat
def Directory.bytes (d : Directory) : List Byte :=
  let body := leBytes 4 0x31524944 ++ leBytes 8 d.seq ++ leBytes 4 0 ++ fitBytes 64 (d.entries.flatMap SlotEntry.bytes)
  body ++ leBytes 4 (crc32 body).toNat

/-- What the bytes of a copy say; nothing where its CRC is not good. -/
def Directory.ofBytes (bs : List Byte) : Option Directory :=
  if bs.length = 84 ∧ recNat bs 0 4 = 0x31524944 ∧ recNat bs 80 4 = (crc32 (bs.take 80)).toNat then
    some ⟨recNat bs 4 8, (List.range 4).map (fun i =>
      let n (j k : Nat) : Nat := recNat bs (16 + 16 * i + j) k
      ⟨n 0 1, n 4 4, BitVec.ofNat 32 (n 8 4), BitVec.ofNat 32 (n 12 4)⟩)⟩
  else none

/-- The copy in force, and what it says: a good CRC and the higher SEQ. -/
def dirInForce (s : State) : Option (Fin 2 × Directory) :=
  match Directory.ofBytes s.ab.dirs[(0 : Fin 2)], Directory.ofBytes s.ab.dirs[(1 : Fin 2)] with
  | some a, some b => if a.seq < b.seq then some (1, b) else some (0, a)
  | some a, none => some (0, a)
  | none, some b => some (1, b)
  | none, none => none

def emptySlot : SlotEntry := ⟨0, 0, 0, 0⟩

/-- Entry `i`: 0, 1 firmware A, B; 2, 3 image A, B. -/
def dirEntry (s : State) (i : Nat) : SlotEntry :=
  match dirInForce s with
  | none => emptySlot
  | some d => d.2.entries.getD i emptySlot

/-- A change is written to the other copy with SEQ + 1. -/
def setDirEntry (s : State) (i : Nat) (e : SlotEntry) : State :=
  let d : Fin 2 × Directory := match dirInForce s with
    | none => (0, ⟨1, List.replicate 4 emptySlot⟩)
    | some d => (if d.1 = 0 then 1 else 0, ⟨d.2.seq + 1, d.2.entries⟩)
  modifyAb s (fun a => { a with dirs := a.dirs.set d.1 { d.2 with entries := d.2.entries.set i e }.bytes })

def slotMark (s : State) (i : Nat) : Nat := (dirEntry s i).state
def setSlotMark (s : State) (i st : Nat) : State := setDirEntry s i { dirEntry s i with state := st }

def flashSlot (s : State) (i : Nat) : List Byte := (s.ab.slots.toList).getD i []

/-- A TRIAL_BOOTED slot of a pair becomes BAD at boot. -/
def failBooted (s : State) (base : Nat) : State :=
  [base, base + 1].foldl (fun s i => if slotMark s i = 4 then setSlotMark s i 5 else s) s

/-- The slot of a pair that boots, whether the first choice has failed its checks, and the directory's new state (R374). -/
def bootSlot (s : State) (base : Nat) (check : State → List Byte → Bool) : Option Nat × Bool × State :=
  let s := failBooted s base
  let pick (st : Nat) : Option Nat := [base, base + 1].find? (fun i => slotMark s i == st)
  match (pick 3).or ((pick 2).or (pick 1)) with
  | none => (none, false, s)
  | some i =>
    let s := if slotMark s i = 3 then setSlotMark s i 4 else s
    if check s (flashSlot s i) then (some i, false, s)
    else
      let s := setSlotMark s i 5
      let j := 2 * base + 1 - i
      if ¬(slotMark s j = 1 ∨ slotMark s j = 2) then (none, true, s)
      else if check s (flashSlot s j) then (some j, true, s)
      else (none, true, setSlotMark s j 5)

/-! ## Settings generations (R440) -/

/-- The credential floor (R392). -/
def credentialFloor (s : State) : BitVec 32 := ((generation s).map (·.floor)).getD 0

/-- A new generation goes to slot (GEN + 1) mod 8, with the last 16 outcomes; `f` changes what it holds. -/
def writeGeneration (s : State) (f : Generation → Generation) : State :=
  let g : Generation := (generation s).getD ⟨0, 0, 0, [], [], [], [], true⟩
  let n := g.gen + 1
  let o := g.outcomes ++ s.up.outcomes
  let g' : Generation := { f g with gen := n, writer := s.reg Reg.ABT_VER, outcomes := o.drop (o.length - 16), good := true }
  let s := modifyUp s (fun u => { u with outcomes := [], gens := u.gens.set (n.toNat % 8) (some g') (Nat.mod_lt _ (by omega)) })
  s.setReg Reg.UPD_GEN (n.setWidth 32)

/-- The version of a component as the generation in force records it (R438, R440). -/
def installedVersion (s : State) (c : Nat) : Option Nat :=
  ((generation s).bind (fun g => (g.installed.find? (fun d => d.comp == c)).map (·.version)))

/-! ## Debug (R393–R395) -/

/-- The tags that the mailbox channels accept (R400). -/
def setAllow (s : State) : State :=
  let deck := s.ab.scopes.getLsbD 0
  (List.range 8).foldl (fun s c =>
    s.setFld (Reg.MB_ALLOW c) F.MB_ALLOW_TAG (if c < 4 then 0x4000 + c else if deck then 0xFFFF else 0)) s

/-- The scopes that are open, in `ABT_STAT` and `MB_ALLOW`. -/
def setScopes (s : State) (v : BitVec 3) : State :=
  let s := modifyAb s (fun a => { a with scopes := v })
  let a := Reg.ABT_STAT
  setAllow ((s.setFld a F.ABT_STAT_DEBUG_DECK ((v.getLsbD 0 || v.getLsbD 1).toNat)).setFld a F.ABT_STAT_DEBUG_ABUT
    (v.getLsbD 2).toNat)

/-- ABT_DEBUG (R403): 1 CHALLENGE, 2 OPENED, 3 CLOSED, 4 REFUSED. -/
def raiseDebug (s : State) (cause : Nat) (x : Nat := 0) : State := s.raise 995 (payCause cause x)

/-- Debug closes (R395); the secrets stay as they are. -/
def closeDebug (s : State) : State := if s.ab.scopes = 0 then s else raiseDebug (setScopes s 0) 3

/-- The secrets are locked until the next power-on reset (R394): every session ends. -/
def lockSecrets (s : State) : State := endSessions (s.setFld Reg.ABT_STAT F.ABT_STAT_LOCKED 1) 6

/-- A token (R393): the first cause that applies: 1 DBG_FORMAT, 2 DBG_DEVICE, 3 DBG_CHALLENGE, 4 DBG_SIG, 5 DBG_SCOPE. -/
def tokenCause (s : State) (t : List Byte) : Nat :=
  let challenged := s.ab.challenge.any (fun c => c.1 == (t.drop 24).take 16 && s.now.toNat ≤ c.2.toNat + 60000000000)
  let sig := t.drop 64
  let msg := t.take 64
  let good := if recNat t 48 1 = 0 then ozvisVerify s 4 msg sig else ownerVerify s msg sig
  if ¬(t.length = 160 ∧ recNat t 0 4 = 0x31544244 ∧ recNat t 4 2 = 1 ∧ recNat t 6 2 = 160 ∧ recNat t 40 4 < 8 ∧
      1 ≤ recNat t 44 4 ∧ recNat t 44 4 ≤ 86400 ∧ recNat t 48 1 ≤ 1 ∧ zeros t 49 15) then 1
  else if (t.drop 8).take 16 ≠ fitBytes 16 Config.serial then 2
  else if !challenged then 3
  else if !good then 4
  else if recNat t 48 1 = 1 ∧ 4 ≤ recNat t 40 4 then 5 else 0

/-- A token is presented (R393, R394): its challenge is used up; refused with a cause, or its scopes open. -/
def presentToken (s : State) (t : List Byte) : Nat × State :=
  let c := tokenCause s t
  let s := modifyAb s (fun a => { a with challenge := none })
  if c ≠ 0 then (c, raiseDebug s 4 c)
  else
    let v := BitVec.ofNat 3 (recNat t 40 4)
    let s := if v.getLsbD 2 then lockSecrets s else s
    let s := setScopes s v
    let s := modifyAb s (fun a => { a with debugEnd := s.now + BitVec.ofNat 64 (recNat t 44 4 * 1000000000) })
    (0, raiseDebug (extend s 6 (hash48 t)) 2)

/-- DEBUG_EXPIRY (R395): DURATION has expired. -/
def execDebugExpiry (s : State) : Host.Outcome State Fault Refusal :=
  .next (if s.ab.debugEnd.toNat ≤ s.now.toNat then closeDebug s else s)

/-! ## Reset of both dies (R480, R485) -/

/-- Both dies are reset, and stay so with TESTEN high (R475): what one-time-programmable memory and the flash hold stays, and the operating figures are those of
the wear record (R465); `cause` is what `DC_RSTCAUSE` will show. -/
def resetDies (s : State) (cause : Nat) (held : Bool) : State :=
  let r := State.reset
  let rec' := s.fh.records[s.fh.last]
  let t : State := { r with
    freeCtr := s.freeCtr
    pending := s.pending
    ab := { r.ab with revoked := s.ab.revoked, owners := s.ab.owners, counters := s.ab.counters, dirs := s.ab.dirs,
                      board := s.ab.board, slots := s.ab.slots }
    up := { r.up with gens := s.up.gens, lost := s.up.current.or s.up.lost }
    fh := { r.fh with wear := Vector.ofFn (fun (i : Fin 18) => rec'.wear.getD i.val .fresh), seconds := rec'.seconds,
                      records := s.fh.records, last := s.fh.last, repairSeq := s.fh.repairSeq, repairs := s.fh.repairs }
    pk := ⟨held || s.pk.testen, s.pk.tripped, cause, s.pk.testen, none⟩ }
  if s.ab.halt then t.setFld Reg.DC_RSTCAUSE F.DC_RSTCAUSE_RAIL (s.fld Reg.DC_RSTCAUSE F.DC_RSTCAUSE_RAIL) else t

/-! ## Ownership (R386–R389) -/

/-- The owner image key that a grant wraps (R387); none while the identity key is unusable (R394). -/
def unwrapKey (s : State) (g : List Byte) : Option (List Byte) :=
  if locked s then none else
  let key := Config.hkdf (Config.ecdh Config.identitySecret ((g.drop 136).take 97)) (fitBytes 16 Config.serial)
    (leBytes 4 0x31524E45 ++ (g.drop 24).take 4) 32
  Config.gcmOpen key ((g.drop 240).take 12) (g.take 256) ((g.drop 256).take 48)

/-- The first cause that refuses an enrolment (R388): 1 ENR_FORMAT, 2 ENR_DEVICE, 3 ENR_SIG, 4 ENR_OWNED, 5 ENR_FULL,
6 ENR_UNWRAP, 7 ENR_LEASE; 0 none. -/
def enrolCause (s : State) (g : List Byte) : Nat :=
  if ¬(g.length = 448 ∧ recNat g 0 4 = 0x31524E45 ∧ recNat g 4 2 = 1 ∧ recNat g 6 2 = 448 ∧ zeros g 28 4 ∧ zeros g 129 7 ∧
      zeros g 233 7 ∧ zeros g 252 4 ∧ zeros g 304 48) then 1
  else if (g.drop 8).take 16 ≠ fitBytes 16 Config.serial then 2
  else if !ozvisVerify s 3 (g.take 352) (g.drop 352) then 3
  else if (activeOwner s).isSome then 4
  else if !(List.finRange 4).any (fun (i : Fin 4) => (s.ab.owners[i]).state == 0) then 5
  else if (unwrapKey s g).isNone then 6
  else if anyLease s then 7 else 0

/-- An enrolment grant is presented (R388). ABT_OWNER: 1 ENROLLED, 2 RELEASED, 3 REFUSED with the cause. -/
def enrol (s : State) (g : List Byte) : Nat × State :=
  let c := enrolCause s g
  if c ≠ 0 then (c, s.raise 994 (payCause 3 c))
  else
    match (List.finRange 4).find? (fun (i : Fin 4) => (s.ab.owners[i]).state == 0), unwrapKey s g with
    | some i, some k =>
      let key := (g.drop 32).take 97
      let s := modifyAb s (fun a => { a with owners := a.owners.set i ⟨1, key, k⟩ })
      (0, (extend (showOwner s) 6 (hash48 key)).raise 994 (payCause 1))
    | _, _ => (5, s)

/-- A release verifies for this device (R389). -/
def releaseGood (s : State) (b : List Byte) : Bool :=
  b.length == 128 && recNat b 0 4 == 0x314C4552 && recNat b 4 2 == 1 && recNat b 6 2 == 128 &&
    (b.drop 8).take 16 == fitBytes 16 Config.serial && ownerVerify s (b.take 32) (b.drop 32)

/-- A release takes effect (R389): sessions end, settings and image slots are erased, the slot is RELEASED, and both dies are
reset. -/
def release (s : State) : State :=
  match activeOwner s with
  | none => s
  | some i =>
    let s := endSessions s 5
    let s := modifyUp s (fun u => { u with gens := Vector.replicate 8 none })
    let s := setDirEntry (setDirEntry s 2 emptySlot) 3 emptySlot
    let o := s.ab.owners[i]
    let s := modifyAb s (fun a => { a with slots := (a.slots.set 2 []).set 3 [], owners := a.owners.set i { o with state := 2 } })
    let s := (extend (showOwner s) 6 (hash48 o.key)).raise 994 (payCause 2)
    resetDies s 1 false

/-! ## Boot (R378–R381) -/

/-- Firmware of a slot passes codes 1–4 and 6 of R348 (R372). -/
def firmwareGood (s : State) (bs : List Byte) : Bool :=
  let g := parseImage s bs
  let m := manifest bs
  let version (c : Nat) : Option Nat :=
    if c = 3 then some (recNat bs 20 4) else if c = 4 then some 0x00B00000 else if c = 5 then some 0x01000000
    else installedVersion s c
  headerFormed 0x31464241 [3] bs && recNat bs 18 2 == 0 && (badEntry bs (fun t => t != 0)).isNone &&
    ozvisVerify s 0 (bs.take 128) ((bs.drop 128).take 96) && rollback s 0 ≤ recNat bs 12 4 &&
    (bs.drop 32).take 48 == hash48 g.manifest &&
    m.all (fun e => (e.bytes.drop 32).take 48 == hash48 (storedSection bs e)) &&
    (compatEntries (g.first 1)).all (fun e => (version e.1).all (fun v => e.2.2.1 ≤ v && v ≤ e.2.2.2))

/-- The firmware of a slot starts to run: `ABT_STAT.FSLOT`, `ABT_VER`, and M1 (R383). -/
def runFirmware (s : State) (i : Nat) (measured : Bool) : State :=
  let bs := flashSlot s i
  let s := (s.setFld Reg.ABT_STAT F.ABT_STAT_FSLOT i).setReg Reg.ABT_VER (BitVec.ofNat 32 (recNat bs 20 4))
  let s := if measured then extend s 1 (hash48 (bs.take 256 ++ hash48 bs)) else s
  setAllow (modifyAb s (fun a => { a with up := true }))

def halt (s : State) : State := modifyAb s (fun a => { a with halt := true })

/-- The digest that M0 is extended with (R383). -/
def otpDigest (s : State) : List Byte :=
  hash48 (Config.romMeasured (s.ab.revoked.map (·.val)) (s.ab.owners.toList.map (fun o => (o.state, o.key)))
    (s.ab.counters.toList.map (·.pairs)))

/-- ROM_DONE (R374, R378, R381, R481, R483): `rail` is the lowest failing rail, 0 for none. -/
def execRomDone (rail : Fin 9) (s : State) : Host.Outcome State Fault Refusal :=
  if s.pk.inReset ∨ s.ab.halt ∨ s.ab.up ∨ bootState s ≠ 0 then .next s
  else
    let c := Reg.DC_RSTCAUSE
    let s := s.setFld c F.DC_RSTCAUSE_CAUSE s.pk.cause
    let s := (s.setFld Reg.DC_CLKSTAT F.DC_CLKSTAT_ROOT_LOCK 1).setFld Reg.DC_CLKSTAT F.DC_CLKSTAT_REFCLK_OK 1
    if rail.val ≠ 0 then .next (halt (s.setFld c F.DC_RSTCAUSE_RAIL rail.val))
    else
      let ser (i : Nat) : BitVec 32 := BitVec.ofNat 32 (recNat (fitBytes 16 Config.serial) (4 * i) 4)
      let s := (((s.setReg Reg.ABT_SERIAL0 (ser 0)).setReg Reg.ABT_SERIAL1 (ser 1)).setReg Reg.ABT_SERIAL2 (ser 2)).setReg
        Reg.ABT_SERIAL3 (ser 3)
      let s := extend (showCounters (showOwner s)) 0 (otpDigest s)
      let r := bootSlot s 0 firmwareGood
      match r.1 with
      | none => .next (halt r.2.2)
      | some i =>
        let s := setBoot (runFirmware r.2.2 i true) 1
        let s := s.setReg Reg.UPD_GEN (((generation s).map (fun g => g.gen.setWidth 32)).getD 0)
        .next (if r.2.1 then raiseBoot s 1 else s)

/-- The board record is good (R375). -/
def boardGood (s : State) : Bool :=
  let b := s.ab.board
  b.length == 256 && zeros b 14 2 && zeros b 22 2 && zeros b 48 112 && recNat b 0 4 == 0x31445242 && recNat b 4 2 == 1 && recNat b 6 2 == 256 && recNat b 8 1 ≤ 1 &&
    [2, 4, 8].contains (recNat b 9 1) && recNat b 13 1 ≤ 2 &&
    (recNat b 8 1 == 1 || ([8, 16].contains (recNat b 10 1) && [16, 24, 32].contains (recNat b 11 1) &&
      [1, 2].contains (recNat b 12 1))) &&
    ((ownerKey s).isNone || ownerVerify s (b.take 160) (b.drop 160))

/-- The repair record is applied at boot (R35, R463): bypasses and retired pairs. -/
def applyRepairs (s : State) : State :=
  (liveRepairs s.fh.repairs).foldl (fun s e =>
    if e.kind = 1 then
      let w := e.b3 / 4
      let n := Fin.ofNat 17 e.unit
      let a := Reg.SPARE_MAP n e.b2 w
      writeSpareMap s n e.b2 w ((bypFields.getD (e.b3 % 4) F.SPARE_MAP_BYP0).put (s.reg a) (e.word.toNat % 256))
    else if e.kind = 3 then
      (setUse s e.unit 6).setFld (Reg.DC_ISLAND e.unit) F.DC_ISLAND_STATE 0
    else s) s

/-- The wear registers are loaded (R465), in whole hours. -/
def showWear (s : State) : State :=
  let hrs (w : Wear) : BitVec 32 := BitVec.ofNat 32 (min (2 ^ 32 - 1) (w.eq / 2 ^ 32 / 3600))
  let s := (List.finRange 17).foldl (fun s (n : Fin 17) =>
    let w := s.fh.wear[n.val]
    (s.setReg (Reg.WR_PAIR_HRS n) (hrs w)).setFld (Reg.WR_PAIR_DRIFT n) F.WR_PAIR_DRIFT_DRIFT (min 65535 w.drift)) s
  s.setReg Reg.WR_DEV_HRS (hrs s.fh.wear[17])

/-- The islands are idle, and none has a neighbour above 700 mV (R478); that of a retired pair stays off. -/
def firstTargets (s : State) : State :=
  (List.range 17).foldl (fun s n => if plUse s n = 6 then s else setIsland s n 1 700) s

/-- The deck leaves reset (R27, R378): every span leaves reset. -/
def releaseDeck (s : State) : State :=
  (List.finRange 17).foldl (fun s n =>
    match execSpanReset n false s with
    | .next t => t
    | _ => s) s

/-- FIRMWARE_LINK_UP (R378, R381): the die-to-die link is up; the deck leaves reset, and the board record starts training. -/
def execFirmwareLinkUp (x8 : Bool) (s : State) : Host.Outcome State Fault Refusal :=
  if bootState s ≠ 1 ∨ s.ab.halt then .next s
  else
    let u := Reg.UCIE_STAT
    let s := (s.setFld u F.UCIE_STAT_STATE 2).setFld u F.UCIE_STAT_WIDTH x8.toNat
    let s := showWear (firstTargets (applyRepairs (releaseDeck (setBoot s 2))))
    if !boardGood s then .next (noImage s 1)
    else
      let b := s.ab.board
      let mac := leNat ((b.drop 16).take 6).reverse
      let s := (List.range 8).foldl (fun s e =>
        (s.setReg (Reg.LP_MAC_LO e) (BitVec.ofNat 32 (mac + e))).setFld (Reg.LP_MAC_HI e) F.LP_MAC_HI_MAC_HI
          ((mac + e) / 2 ^ 32 % 65536)) s
      let s := (List.range (recNat b 9 1)).foldl (fun s c => s.setFld (Reg.D5_STAT c) F.D5_STAT_STATE 1) s
      .next (extend s 2 (hash48 b))

/-- The roles' spans start and the roles serve (R350 step 7, R378). -/
def startRoles (s : State) : State :=
  (List.range 16).foldl (fun s l =>
    match pairOf s l with
    | none => s
    | some n => setRoleState (startWritten s n) l 1) s

/-- The lockstep groups of the image: those that trigger heads. -/
def imageGroups (s : State) : List (Fin 8) := (List.finRange 8).filter (fun (g : Fin 8) => !(tgHeads s g).isEmpty)

/-- A component that was in TRIAL when power was lost, and whose slot has booted once: its window restarts (R449). -/
def resumeTrial (s : State) : State :=
  match s.up.lost with
  | none => s
  | some u =>
    let slot := if u.comp = 3 then s.fld Reg.ABT_STAT F.ABT_STAT_FSLOT else 2 + s.fld Reg.ABT_STAT F.ABT_STAT_ISLOT
    if (u.comp = 3 ∨ u.comp = 6) ∧ slotMark s slot = 4 then
      let s := modifyUp s (fun p => { p with lost := none, current := some { u with since := s.now, soakSince := s.now, left := [] } })
      let s := (setCompState s u.comp 4).setFld (Reg.UPD_COMP u.comp) F.UPD_COMP_HELD 1
      (s.setFld Reg.UPD_STAT F.UPD_STAT_COMP u.comp).setFld Reg.UPD_STAT F.UPD_STAT_LEFT u.window
    else s

/-- RUNNING follows HEADS once every group has started (R380). -/
def enterRunning (s : State) : State :=
  if bootState s = 4 ∧ (imageGroups s).all (fun (g : Fin 8) => tgState s g != 0) then resumeTrial (raiseBoot (setBoot s 5) 4) else s

/-- MEMORY_SEALED (R378): every region of the boot image has sealed. -/
def execMemorySealed (s : State) : Host.Outcome State Fault Refusal :=
  let sealed (l : Nat) : Bool := (storedRegion s l).isNone || (pairOf s l).all (fun n => rgState s n == 2)
  if bootState s ≠ 3 ∨ s.pl.image.isNone ∨ ¬(List.range 16).all sealed then .next s
  else
    let s := modifyAb (setBoot s 4) (fun a => { a with headsAt := s.now })
    .next (enterRunning (startRoles s))

/-- GROUP_START (R380): every port of the group is ACTIVE, or 2 s have passed since HEADS began. -/
def execGroupStart (g : Fin 8) (s : State) : Host.Outcome State Fault Refusal :=
  let due := (tgHeads s g).all (fun (h : Fin 16) => hpState s h == 7) || s.ab.headsAt.toNat + 2000000000 ≤ s.now.toNat
  if bootState s ≠ 4 ∨ !due ∨ (tgHeads s g).isEmpty then .next s else .next (enterRunning (tgStart s g))

/-! ## The mailbox (R400–R402) -/

def mbGo (s : State) (c : Nat) : Bool := s.flag (Reg.MB_DOORBELL c) F.MB_DOORBELL_GO
def mbOp (s : State) (c : Nat) : Nat := s.readLE (Win.mbReq c) 1
def mbLen (s : State) (c : Nat) : Nat := s.readLE (Win.mbReq c + 2) 2
def mbTag (s : State) (c : Nat) : Nat := s.readLE (Win.mbReq c + 4) 4
def mbBody (s : State) (c : Nat) : List Byte := s.readBytes (Win.mbReq c + 8) (min 1016 (mbLen s c))

/-- The answer of channel `c` is ready (R401). -/
def mbAnswer (s : State) (c : Fin 8) (op status : Nat) (tag : Nat) (body : List Byte) : State :=
  let bs := leBytes 1 (op + 0x80) ++ leBytes 1 status ++ leBytes 2 body.length ++ leBytes 4 tag ++ body
  modifyAb s (fun a => { a with answers := a.answers.set c (some bs) })

/-- A request of channel `c` waits to be served. -/
def mbOpen (s : State) (c : Fin 8) : Bool :=
  mbGo s c && s.ab.up && (s.ab.answers[c]).isNone && !s.ab.quotes.any (fun q => q.channel == c)

/-- The channel whose turn it is (R402): the next one after the channel served last whose request waits. -/
def mbNext (s : State) : Option (Fin 8) := ((List.range 8).map (fun i => s.ab.turn + 1 + Fin.ofNat 8 i)).find? (mbOpen s)

/-- A request of channel `c` with operation `op` is next to be served. -/
def mbWaits (s : State) (c : Fin 8) (op : Nat) : Bool := mbNext s == some c && mbOp s c == op

def mbTake (s : State) (c : Fin 8) : State := modifyAb s (fun a => { a with turn := c })

/-- The request is served by `f`, after the check of its length. -/
def mbServe (s : State) (c : Fin 8) (op : Nat) (good : Bool) (f : State → State) : State :=
  if !mbWaits s c op then s
  else if !good then mbAnswer (mbTake s c) c op 2 (mbTag s c) []
  else f (mbTake s c)

/-- VERSION (R401). -/
def execVersion (c : Fin 8) (s : State) : Host.Outcome State Fault Refusal :=
  .next (mbServe s c 1 (mbLen s c == 0) (fun s =>
    mbAnswer s c 1 0 (mbTag s c) (leBytes 4 (s.reg Reg.ABT_VER).toNat ++ leBytes 4 (s.reg Reg.ABT_SVN).toNat ++
      leBytes 4 s.ab.bootId.toNat)))

/-- IDENT (R401). -/
def execIdent (c : Fin 8) (s : State) : Host.Outcome State Fault Refusal :=
  .next (mbServe s c 2 (mbLen s c == 0) (fun s => mbAnswer s c 2 0 (mbTag s c) (fitBytes 240 Config.deviceCert)))

/-- MB_QUOTE (R390, R401): the quote waits for the signature engine; LOCKED while the secrets are. -/
def execMbQuote (c : Fin 8) (s : State) : Host.Outcome State Fault Refusal :=
  .next (mbServe s c 3 (mbLen s c == 48) (fun s =>
    if locked s then mbAnswer s c 3 4 (mbTag s c) []
    else modifyAb s (fun a => { a with quotes := a.quotes ++ [⟨c, BitVec.ofNat 32 (mbTag s c), mbBody s c⟩] })))

/-- `n` random bytes: free values. -/
def drawBytes : Nat → State → List Byte × State
  | 0, s => ([], s)
  | n + 1, s =>
    let d := s.draw 8
    let r := drawBytes n d.2
    (d.1 :: r.1, r.2)

/-- RANDOM (R401). -/
def execRandom (c : Fin 8) (s : State) : Host.Outcome State Fault Refusal :=
  let n := recNat (mbBody s c) 0 1
  .next (mbServe s c 4 (mbLen s c == 1 && 1 ≤ n && n ≤ 64) (fun s =>
    let r := drawBytes n s
    mbAnswer r.2 c 4 0 (mbTag s c) r.1))

/-- NOTIFY (R401): the notification goes to every event stream (R432); DENIED on channels 4–7. -/
def execNotify (c : Fin 8) (s : State) : Host.Outcome State Fault Refusal :=
  .next (mbServe s c 5 (1 ≤ mbLen s c && mbLen s c ≤ 64) (fun s =>
    if 4 ≤ c.val then mbAnswer s c 5 3 (mbTag s c) []
    else mbAnswer (modifyAb s (fun a => { a with notes := a.notes ++ [(c, mbBody s c)] })) c 5 0 (mbTag s c) []))

/-- SIGNATURE_DONE (R385, R390): the oldest quote is signed. -/
def execSignatureDone (s : State) : Host.Outcome State Fault Refusal :=
  match s.ab.quotes with
  | [] => .next s
  | q :: rest =>
    let s := modifyAb s (fun a => { a with quotes := rest })
    .next (if locked s then mbAnswer s q.channel 3 4 q.tag.toNat []
      else mbAnswer s q.channel 3 0 q.tag.toNat (quoteBytes s q.nonce))

/-- An answer is written to `MB_RSP` (R402). -/
def mbFinish (s : State) (c : Fin 8) (bs : List Byte) : State :=
  let s := modifyAb (s.writeBytes (Win.mbRsp c) bs) (fun a => { a with answers := a.answers.set c none })
  let s := s.setFld (Reg.MB_STAT c) F.MB_STAT_STATUS (recNat bs 1 1)
  let d := Reg.MB_DOORBELL c
  ((s.setFld d F.MB_DOORBELL_GO 0).setFld d F.MB_DOORBELL_DONE 1).raise 993 (BitVec.ofNat 32 c.val)

/-- MB_DONE (R401, R402): the answer of channel `c` is written; an unknown operation is answered BAD_OP. -/
def execMbDone (c : Fin 8) (s : State) : Host.Outcome State Fault Refusal :=
  match s.ab.answers[c] with
  | some bs => .next (mbFinish s c bs)
  | none =>
    let op := mbOp s c
    if mbWaits s c op ∧ ¬(1 ≤ op ∧ op ≤ 5) then
      .next (mbFinish (mbTake s c) c (leBytes 1 (op + 0x80) ++ leBytes 1 1 ++ leBytes 2 0 ++ leBytes 4 (mbTag s c)))
    else .next s

/-- Mailbox requests in progress are answered RESTARTED (R382). -/
def mbRestart (s : State) : State :=
  let s := modifyAb s (fun a => { a with quotes := [] })
  (List.finRange 8).foldl (fun s (c : Fin 8) =>
    if mbGo s c then
      mbFinish s c (leBytes 1 (mbOp s c + 0x80) ++ leBytes 1 5 ++ leBytes 2 0 ++ leBytes 4 (mbTag s c))
    else s) s

/-! ## Restart of the abutment die (R382) -/

/-- Endpoint 77 starts to drain (R296, R382, R399). -/
def cut77 (s : State) : State := isolateEp s 77

/-- The abutment die is reset alone (R382): sessions end, mailbox requests are answered, debug closes, and FSPI_RST# is driven
low (R492). What its firmware had still to send is lost. -/
def abutmentDown (s : State) : State :=
  let s := closeDebug (mbRestart (endSessions s 7))
  let s := s.bump Reg.ABT_STAT F.ABT_STAT_RESTARTS
  let s := modifyAb s (fun a => { a with up := false, challenge := none })
  let s := { s with pk := { s.pk with flashReset := some s.now } }
  cut77 (modifyWay (modifyCw s (fun c => { c with unsent := c.unsent.filter (fun p => p.src != 77) })) 1
    (fun w => { w with worms := [] }))

/-- ABUTMENT_WATCHDOG (R382): the watchdog of 1 s expires. -/
def execAbutmentWatchdog (s : State) : Host.Outcome State Fault Refusal :=
  .next (if s.ab.up then abutmentDown s else s)

/-- The image store matches MANIFEST_HASH (R382). -/
def storeMatches (s : State) : Bool := s.pl.image.all (fun g => hash48 g.manifest == s.ab.manifestHash)

/-- ABUT_RESTART (R374, R382): the firmware of the slot chosen runs again; endpoint 77 is released and ABT_BOOT raised. With no
good slot boot halts. -/
def execAbutRestart (s : State) : Host.Outcome State Fault Refusal :=
  if s.ab.up ∨ bootState s = 0 ∨ s.ab.halt then .next s
  else
    let r := bootSlot s 0 firmwareGood
    match r.1 with
    | none => .next (halt r.2.2)
    | some i =>
      let s := r.2.2
      let s := runFirmware s i (s.fld Reg.ABT_STAT F.ABT_STAT_FSLOT != i)
      let s := if s.fld Reg.UCIE_STAT F.UCIE_STAT_STATE = 2 then releaseEp s 77 else s
      .next (raiseBoot s 5)

end Sys2Proof.Machine
end

