-- ==== Sys2Proof/Machine/Health.lean ====
section
/-!
DEFINITION. Faults, repair, wear and probes (16): meanings of SPAN_HEALTH to STOP, and the filters and trace units that packets
pass.
-/

namespace Sys2Proof.Machine

def modifyFh (s : State) (f : Health → Health) : State := { s with fh := f s.fh }

/-! ## Island health (R458, R460) -/

/-- A fault of the standby pair while no role moves (R458): the pair is FLAGGED and there is no standby. -/
def standbyFault (s : State) (n : Fin 17) : State :=
  if standby s = some n ∧ sby s = 1 then setUse (holdRole (setStandby s none) n 31) n 5 else s

/-- A condition of an island is in breach: 0 supply low, 1 supply high, 2 temperature (R460). -/
def islandBreach (s : State) (n : Fin 17) (q : Fin 3) : State :=
  let s := modifyFh s (fun h => { h with breach := h.breach ++ [(n, q)],
                                         flagged := if h.flagged.contains n then h.flagged else h.flagged ++ [n] })
  let s := (s.setFld (Reg.FH_SPAN n) F.FH_SPAN_TRIP 1).setFld (Reg.ARR_STAT n) F.ARR_STAT_FLAGGED 1
  let s := s.raise (960 + n.val) (payCause (q.val + 1))
  if plUse s n = 0 then setUse s n 5 else standbyFault s n

/-- SPAN_HEALTH (R460): a sample of the monitors of island `n`; a condition that the sample before it showed too is a breach,
once for as long as it lasts. -/
def execSpanHealth (n : Fin 17) (volt : BitVec 10) (temp : BitVec 8) (s : State) : Host.Outcome State Fault Refusal :=
  let a := Reg.FH_SPAN n
  let target := s.fld (Reg.DC_ISLAND n) F.DC_ISLAND_TARGET
  if s.fld (Reg.DC_ISLAND n) F.DC_ISLAND_STATE = 0 then .next s
  else
    let now' (q : Fin 3) : Bool :=
      if q = 0 then volt.toNat < target - s.fld Reg.FH_LIMITS F.FH_LIMITS_VLOW_MV
      else if q = 1 then 830 < volt.toNat else (s.fld Reg.FH_LIMITS F.FH_LIMITS_THOT : Int) < temp.toInt
    let field (q : Fin 3) : Fld := if q = 0 then F.FH_SPAN_V_LOW else if q = 1 then F.FH_SPAN_V_HIGH else F.FH_SPAN_T_HOT
    let lasting := (List.finRange 3).filter (fun q => now' q && s.flag a (field q))
    let new := lasting.filter (fun q => !s.fh.breach.contains (n, q))
    let s := modifyFh s (fun h => { h with breach := h.breach.filter (fun b => b.1 != n || lasting.contains b.2) })
    let s := (List.finRange 3).foldl (fun s q => s.setFld a (field q) (now' q).toNat) s
    let s := (s.setFld a F.FH_SPAN_VOLT volt.toNat).setFld a F.FH_SPAN_TEMP temp.toNat
    .next (new.foldl (fun s q => islandBreach s n q) s)

/-- DEV_TEMP (R460): a reading of the deck junction; a rise above TJ_WARN raises DEV_TEMP. -/
def execDevTemp (temp : BitVec 8) (s : State) : Host.Outcome State Fault Refusal :=
  let hot : Bool := (s.fld Reg.FH_LIMITS F.FH_LIMITS_TJ_WARN : Int) < temp.toInt
  let t := modifyFh s (fun h => { h with hot := hot })
  .next (if hot ∧ !s.fh.hot then t.raise 977 0 else t)

/-! ## Diagnosis and repair (R461, R463) -/

/-- DIAGNOSIS_START (R461): a FLAGGED pair that holds no role, with no joint flag, is diagnosed. -/
def execDiagnosisStart (n : Fin 17) (s : State) : Host.Outcome State Fault Refusal :=
  let isFlagged := plUse s n = 5 ∨ s.flag (Reg.ARR_STAT n) F.ARR_STAT_FLAGGED
  if s.flag Reg.FH_CTL F.FH_CTL_DIAG_AUTO ∧ isFlagged ∧ s.roleOf n = 31 ∧ plUse s n ≠ 6 ∧ s.fh.diag = none ∧
      !s.jointFlags.any (fun f => f.2.2 == n) then
    .next (modifyFh (setUse s n 4) (fun h => { h with diag := some (n, false) }))
  else .next s

/-- A pair is retired (R461, R463, R478): it is recorded, holds no role, and its island is powered down. -/
def retirePair (s : State) (n : Fin 17) : State :=
  let s := appendRepair s 3 n.val 0 0 0
  let s := setUse (holdRole s n 31) n 6
  let s := settleBeside (setIsland s n 0 0) n
  let s := (s.setArray n .reset).setFld (Reg.ARR_STAT n) F.ARR_STAT_INIT_DONE 0
  refreshJoints (powerDownEp (powerDownEp s ⟨n.val, by omega⟩) ⟨17 + n.val, by omega⟩)

/-- Takeovers away from pair `n` within the last 24 h. -/
def recentFaults (s : State) (n : Fin 17) : Nat :=
  (s.fh.faults.filter (fun f => f.1 == n && s.now.toNat ≤ f.2.toNat + 86400000000000)).length

/-- A pair that has passed its diagnosis: its flag clears, and it is the standby when there is none. -/
def clearPair (s : State) (n : Fin 17) : State :=
  let s := modifyFh s (fun h => { h with diag := none, flagged := h.flagged.filter (· != n) })
  let s := setUse (s.setFld (Reg.ARR_STAT n) F.ARR_STAT_FLAGGED 0) n 0
  if (standby s).isNone ∧ sby s = 0 then setStandby s (some n) else s

/-- The bypass of a column is written into `SPARE_MAP` and recorded. -/
def bypassColumn (s : State) (n : Fin 17) (c : Fin 16 × Fin 32 × Fin 33) : State :=
  let w := c.2.1.val / 4
  let f := bypFields.getD (c.2.1.val % 4) F.SPARE_MAP_BYP0
  let s := appendRepair s 1 n.val c.1.val c.2.1.val (BitVec.ofNat 32 c.2.2.val)
  writeSpareMap s n c.1.val w (f.put (s.reg (Reg.SPARE_MAP n c.1.val w)) c.2.2.val)

/-- FH_DIAG (R461): the tests of the pair under diagnosis end: `pass`, or failing columns `cols` with or without failures of
`others`. Columns that can be bypassed are, and the tests run again. -/
def execFhDiag (n : Fin 17) (pass others : Bool) (cols : List (Fin 16 × Fin 32 × Fin 33)) (s : State) :
    Host.Outcome State Fault Refusal :=
  match s.fh.diag with
  | none => .next s
  | some (m, repaired) =>
    if m ≠ n then .next s
    else
      let free (c : Fin 16 × Fin 32 × Fin 33) : Bool :=
        (bypFields.getD (c.2.1.val % 4) F.SPARE_MAP_BYP0).get (s.reg (Reg.SPARE_MAP n c.1.val (c.2.1.val / 4))) == 32 &&
          (cols.filter (fun d => d.1 == c.1 && d.2.1 == c.2.1)).length == 1
      let retire (s : State) : State :=
        (retirePair (modifyFh s (fun h => { h with diag := none })) n).raise 979 (payCause 3 n.val)
      if 3 ≤ recentFaults s n then .next (retire s)
      else if pass then .next ((clearPair s n).raise 979 (payCause (if repaired then 2 else 1) n.val))
      else if cols ≠ [] ∧ !others ∧ cols.all free then
        .next (modifyFh (cols.foldl (fun s c => bypassColumn s n c) s) (fun h => { h with diag := some (n, true) }))
      else .next (retire s)

/-! ## Links (R462) -/

/-- The output of router `r` for destination `d` in a list of 288 table words. -/
def wordsOut (ts : List Word) (r d : Nat) : Nat := (ts.getD (6 * r + d / 8) 0).toNat / 16 ^ (d % 8) % 16

/-- The routers, a bit each, from which output `o` leads into the set `x`, over a link that is not among those to avoid: a link is
named by the router and the input port that it enters. -/
def hopBack (avoid : List (Nat × Nat)) (x : BitVec 48) (o : Nat) : BitVec 48 :=
  let y := avoid.foldl (fun y l => if l.2 = (o + 2) % 4 then y &&& ~~~((1 : BitVec 48) <<< l.1) else y) x
  if o = 0 then y >>> 8 else if o = 1 then (y &&& 0xFEFEFEFEFEFE) >>> 1 else if o = 2 then y <<< 8
  else (y &&& 0x7F7F7F7F7F7F) <<< 1

/-- The routers from which at most so many hops by the outputs `os` lead into a set. -/
def reachBack (avoid : List (Nat × Nat)) (os : List Nat) : Nat → BitVec 48 → BitVec 48
  | 0, x => x
  | fuel + 1, x => reachBack avoid os fuel (os.foldl (fun y o => y ||| hopBack avoid x o) x)

/-- Some west-first table avoids the links (R299, R462): every router reaches every other by hops W, and then hops N, E and S. -/
def tableExists (avoid : List (Nat × Nat)) : Bool :=
  (List.range 48).all (fun d =>
    reachBack avoid [3] 7 (reachBack avoid [0, 1, 2] 47 ((1 : BitVec 48) <<< d)) == BitVec.allOnes 48)

/-- The tables avoid the links, and pass the checks of R299. -/
def tablesAvoid (ts : List Word) (avoid : List (Nat × Nat)) : Bool :=
  ts.length == 288 && !routesBad (List.range 80) (ts.flatMap (fun w => leBytes 4 w.toNat)) &&
    avoid.all (fun l => (routeStep l.1 l.2).any (fun u => (List.range 48).all (fun d => d == u || wordsOut ts u d != (l.2 + 2) % 4)))

/-- LINK_DEGRADE (R462): the link into port `p` of router `r` has reached LINK_LIMIT errors within 1 s; `tables` are those that
the abutment die computes, which avoid the links avoided so far too. Where no table does, the tables stay. -/
def execLinkDegrade (r : Fin 48) (p : Fin 8) (tables : List Word) (s : State) : Host.Outcome State Fault Refusal :=
  let l := (r.val, p.val)
  let avoid := s.fh.avoided ++ [l]
  if !s.ab.up ∨ !s.fh.linkDue.contains l ∨ s.fh.avoided.contains l ∨ s.fh.noRoute.contains l then .next s
  else if 4 ≤ p.val ∨ !tableExists avoid then
    let s := (modifyFh s (fun h => { h with noRoute := h.noRoute ++ [l] })).bump Reg.FH_LINKS F.FH_LINKS_NO_ROUTE
    .next (s.raise 978 (payCause 2 r.val p.val))
  else if !tablesAvoid tables avoid ∨ !s.flag Reg.CW_STAT F.CW_STAT_DRAINED then .next s
  else
    let e := (!routeEpoch s).toNat
    let s := (List.range 288).foldl (fun s i => s.setReg (Reg.RT_TABLE (i / 6) e (i % 6)) (tables.getD i 0)) s
    let s := (modifyFh (routeFlip s) (fun h => { h with avoided := avoid })).bump Reg.FH_LINKS F.FH_LINKS_DEGRADED
    .next (s.raise 978 (payCause 1 r.val p.val))

/-! ## Wear (R464–R466) -/

/-- The greatest `k` below 2^48 with k^50 ≤ v. -/
def root50 (v : Nat) : Nat :=
  (List.range 48).reverse.foldl (fun k i => if (k + 2 ^ i) ^ 50 ≤ v then k + 2 ^ i else k) 0

/-- AF at a temperature and a supply in mV (R464), in units of 2^-32, rounded down (assumption log, entry 17). -/
def acceleration (temp : Int) (volt : Nat) : Nat :=
  let m : Int := 5 * (temp - 95) + ((volt : Int) - 750)
  root50 (if m < -1600 then 0 else 2 ^ (1600 + m).toNat)

/-- A second of wear; at the end of a day the means of the last 30 days move on. -/
def wearSecond (af drift : Nat) (w : Wear) : Wear :=
  let w := { w with eq := w.eq + af, drift := drift, daySum := w.daySum + af, daySecs := w.daySecs + 1 }
  if w.daySecs < 86400 then w
  else
    let ms := w.means ++ [w.daySum / 86400]
    let ds := w.drifts ++ [drift]
    { w with daySum := 0, daySecs := 0, means := ms.drop (ms.length - 30), drifts := ds.drop (ds.length - 30) }

/-- The prediction of a unit in days (R466); a prediction without a bound is the largest. -/
def wearDays (w : Wear) : Nat :=
  let top := 2 ^ 32 - 1
  let mean := if w.means = [] then (if w.daySecs = 0 then 0 else w.daySum / w.daySecs) else w.means.sum / w.means.length
  let budget := 131400 * 3600 * 2 ^ 32 - w.eq
  let a := if mean = 0 then top else budget / mean / 86400
  let first := w.drifts.headD w.drift
  let b := if 5000 ≤ w.drift then 0 else if w.drift ≤ first then top else (5000 - w.drift) * w.drifts.length / (w.drift - first)
  min top (min a b)

/-- `WR_EOL` (R466): the earliest prediction of the deck and of the pairs that hold a duty or standby role. -/
def showEol (s : State) : State :=
  let units := (List.range 17).filter (fun n => s.roleOf n != 31) ++ [17]
  let days := units.foldl (fun d i => min d (wearDays ((s.fh.wear.toList).getD i .fresh))) (2 ^ 32 - 1)
  s.setReg Reg.WR_EOL (BitVec.ofNat 32 days)

/-- A pair whose drift has reached 5.000 % leaves service (R466): its role moves as for a test, and then the pair is retired. -/
def drifted (s : State) (n : Fin 17) : State :=
  if (s.fh.wear[n.val]).drift < 5000 ∨ plUse s n = 6 then s
  else if plUse s n = 1 then (if sby s = 1 ∧ plState s = 1 then testGo s n else s)
  else if plUse s n = 2 ∧ sby s = 1 then retirePair (setStandby s none) n
  else if s.roleOf n = 31 ∧ (plUse s n = 0 ∨ plUse s n = 5) then retirePair s n else s

/-- WEAR_TICK (R464): a second has passed; `temp` is the deck junction, `drifts` what the delay monitors of the pairs report. -/
def execWearTick (temp : BitVec 8) (drifts : List (BitVec 16)) (s : State) : Host.Outcome State Fault Refusal :=
  let pair (n : Fin 17) (w : Wear) : Wear :=
    if (s.array n).powered then
      let a := Reg.FH_SPAN n
      wearSecond (acceleration ((BitVec.ofNat 8 (s.fld a F.FH_SPAN_TEMP)).toInt) (s.fld a F.FH_SPAN_VOLT))
        ((drifts[n.val]?.map (·.toNat)).getD w.drift) w
    else w
  let ws : Vector Wear 18 := Vector.ofFn (fun (i : Fin 18) =>
    let w := s.fh.wear[i]
    if h : i.val < 17 then pair ⟨i.val, h⟩ w else wearSecond (acceleration temp.toInt 750) 0 w)
  let s := modifyFh s (fun h => { h with wear := ws, seconds := h.seconds + 1 })
  .next ((List.finRange 17).foldl drifted (showEol (showWear s)))

/-- WEAR_RECORD_WRITE (R465): the copy not written last takes the record. -/
def execWearRecordWrite (s : State) : Host.Outcome State Fault Refusal :=
  let h := s.fh
  let k : Fin 2 := if h.last = 0 then 1 else 0
  .next (modifyFh s (fun h => { h with records := h.records.set k ⟨h.wear.toList, h.seconds⟩, last := k }))

/-- WEAR_WARN (R466): once a day while the prediction is below WARN_DAYS. -/
def execWearWarn (s : State) : Host.Outcome State Fault Refusal :=
  let day := s.fh.seconds / 86400
  if (s.reg Reg.WR_EOL).toNat < s.fld Reg.WR_CTL F.WR_CTL_WARN_DAYS ∧ s.fh.warned ≠ some day then
    .next ((modifyFh s (fun h => { h with warned := some day })).raise 980 (s.reg Reg.WR_EOL))
  else .next s

/-! ## Probes (R467, R468) -/

/-- The head flit of `p` at an input port of a router matches filter `f` (R467). -/
def filterMatch (s : State) (f router port : Nat) (p : Packet) : Bool :=
  let c := Reg.PRB_FLT_CTL f
  let mask := BitVec.ofNat 16 (s.fld (Reg.PRB_FLT_TAG f) F.PRB_FLT_TAG_TAG_MASK)
  let tag := BitVec.ofNat 16 (s.fld (Reg.PRB_FLT_TAG f) F.PRB_FLT_TAG_TAG)
  let side := if s.flag c F.PRB_FLT_CTL_SIDE then p.stag else p.dtag
  let page := p.addr.toNat / 2 ^ 16
  let addressed : Bool := p.kind = 0 || p.kind = 1
  let inside : Bool := s.fld (Reg.PRB_FLT_ALO f) F.PRB_FLT_ALO_ALO ≤ page && page ≤ s.fld (Reg.PRB_FLT_AHI f) F.PRB_FLT_AHI_AHI
  s.flag c F.PRB_FLT_CTL_EN && s.fld c F.PRB_FLT_CTL_ROUTER == router && s.fld c F.PRB_FLT_CTL_PORT == port &&
    s.fld c F.PRB_FLT_CTL_VC == p.cls.toNat && (s.fld c F.PRB_FLT_CTL_PRIOS).testBit p.cls.toNat &&
    (s.fld (Reg.PRB_FLT_ALO f) F.PRB_FLT_ALO_KINDS).testBit p.kind.toNat && ((side ^^^ tag) &&& mask) == 0 &&
    (!s.flag c F.PRB_FLT_CTL_ADDR_EN || (addressed && inside))

/-- Recording of a trace unit ends: PRB_TRACE with its number (R468). -/
def stopTrace (s : State) (t : Fin 4) : State :=
  let s := modifyFh s (fun h => { h with post := h.post.set t none })
  (s.setFld (Reg.TRC_STAT t) F.TRC_STAT_ARMED 0).raise 981 (payCause 0 t.val)

/-- Recording of a trace unit starts (R468); no effect while it is armed. -/
def armTrace (s : State) (t : Fin 4) : State :=
  let a := Reg.TRC_STAT t
  if s.flag a F.TRC_STAT_ARMED then s
  else modifyFh (s.setReg a (F.TRC_STAT_ARMED.put 0 1)) (fun h => { h with post := h.post.set t none })

/-- ARM (R468). -/
def execArm (t : Fin 4) (s : State) : Host.Outcome State Fault Refusal := .next (armTrace s t)

/-- A write of STOP (R468): recording ends at once. -/
def stopWrite (s : State) (t : Fin 4) : State := if s.flag (Reg.TRC_STAT t) F.TRC_STAT_ARMED then stopTrace s t else s

/-- STOP (R468). -/
def execStop (t : Fin 4) (s : State) : Host.Outcome State Fault Refusal := .next (stopWrite s t)

/-- An entry of a trace unit (R468). -/
def traceEntry (s : State) (p : Packet) (router port filter : Nat) (corrected : Bool) : List Byte :=
  let third := if p.kind = 0 ∨ p.kind = 1 then leBytes 8 p.addr.toNat else fitBytes 8 p.data
  leBytes 8 s.now.toNat ++ leBytes 8 (headerWord s p) ++ third ++ leBytes 1 router ++ leBytes 1 (port + 8 * p.cls.toNat) ++
    leBytes 1 (1 + (if p.len = 0 then 2 else 0) + (if corrected then 8 else 0)) ++ leBytes 1 filter ++ leBytes 4 0

/-- Trace unit `t` sees a head flit (R468). -/
def traceHead (router port : Nat) (p : Packet) (corrected : Bool) (s : State) (t : Fin 4) : State :=
  let a := Reg.TRC_STAT t
  let c := Reg.TRC_CTL t
  if !s.flag a F.TRC_STAT_ARMED then s
  else
    let f := s.fld c F.TRC_CTL_FILTER
    let hit := filterMatch s f router port p
    let s := if !hit then s
      else
        let k := s.fld a F.TRC_STAT_NEXT
        let s := s.writeBytes (Win.trace t + 32 * k) (traceEntry s p router port f corrected)
        let s := if k = 1023 then s.setFld a F.TRC_STAT_WRAPPED 1 else s
        s.setFld a F.TRC_STAT_NEXT ((k + 1) % 1024)
    match s.fh.post[t] with
    | some n =>
      if !hit then s
      else if n ≤ 1 then stopTrace s t
      else modifyFh s (fun h => { h with post := h.post.set t (some (n - 1)) })
    | none =>
      if !filterMatch s (s.fld c F.TRC_CTL_TRIG) router port p then s
      else
        let n := s.fld c F.TRC_CTL_POST
        let s := s.setFld a F.TRC_STAT_TRIGGERED 1
        if n = 0 then stopTrace s t else modifyFh s (fun h => { h with post := h.post.set t (some n) })

/-- A head flit passes an input port of a router: the filters count it and the trace units record it (R467, R468). -/
def probeHead (p : Packet) (corrected : Nat × Nat → Bool) (s : State) (hop : Nat × Nat) : State :=
  let s := (List.range 16).foldl (fun s f =>
    if filterMatch s f hop.1 hop.2 p then
      (s.bump (Reg.PRB_FLT_HEADS f) F.PRB_FLT_HEADS_COUNT).bump (Reg.PRB_FLT_FLITS f) F.PRB_FLT_FLITS_COUNT (p.len.toNat + 1)
    else s) s
  (List.finRange 4).foldl (traceHead hop.1 hop.2 p (corrected hop)) s

end Sys2Proof.Machine
end

