-- ==== Sys2Proof/Machine/Package.lean ====
section
/-!
DEFINITION. Reset, clock loss, thermal trip and power loss (17): meanings of PORST_ASSERT to POWER_LOSS, and the status pins.
-/

namespace Sys2Proof.Machine

/-- The cause that the next boot reads after PORST# or the power has fallen: POWER_ON, or the cause of a reset that no boot has
followed yet (R484, R487). -/
def powerCause (s : State) : Nat := if s.pk.inReset then s.pk.cause else 1

/-- PORST_ASSERT (R485): a low level of at least 10 µs resets both dies. -/
def execPorstAssert (s : State) : Host.Outcome State Fault Refusal := .next (resetDies s (powerCause s) true)

/-- PORST_RELEASE (R475, R485): boot begins at ROM; with TESTEN high the device stays in reset. -/
def execPorstRelease (s : State) : Host.Outcome State Fault Refusal :=
  .next (if s.pk.testen then s else { s with pk := { s.pk with inReset := false } })

/-- REFCLK_GLITCH (R484): REFCLK has come back within 10 µs; the glitch is counted. -/
def execRefclkGlitch (s : State) : Host.Outcome State Fault Refusal :=
  .next (s.bump Reg.DC_CLKSTAT F.DC_CLKSTAT_GLITCH)

/-- REFCLK_LOSS (R484): both dies enter reset as though PORST# had fallen; the next boot reads REFCLK_LOSS. -/
def execRefclkLoss (s : State) : Host.Outcome State Fault Refusal := .next (resetDies s 2 true)

/-- THERMTRIP (R487): both dies enter reset and THERMTRIP# is driven low; the next boot reads THERMAL. -/
def execThermtrip (s : State) : Host.Outcome State Fault Refusal :=
  let t := resetDies s 3 true
  .next { t with pk := { t.pk with tripped := true } }

/-- A write that power loss cuts short (R373, R376, R386, R440, R463, R480). -/
def tear (s : State) : TornWrite → State
  | .fuse i => modifyAb s (fun a => { a with counters := a.counters.set i { a.counters[i] with half := true } })
  | .owner i =>
    let o := s.ab.owners[i]
    if o.state = 0 then modifyAb s (fun a => { a with owners := a.owners.set i { o with state := 2 } }) else s
  | .directory =>
    match dirInForce s with
    | none => s
    | some d =>
      let j : Fin 2 := if d.1 = 0 then 1 else 0
      modifyAb s (fun a => { a with dirs := a.dirs.set j [] })
  | .settings =>
    match generation s with
    | none => s
    | some g =>
      let k := (g.gen.toNat + 1) % 8
      modifyUp s (fun u => { u with gens := u.gens.set k (some { g with gen := g.gen + 1, good := false })
                                      (Nat.mod_lt _ (by omega)) })
  | .repair => { s with fh := { s.fh with repairs := s.fh.repairs ++ [⟨0, 0, 0, 0, 0, 0, false⟩] } }

/-- POWER_LOSS (R480): the flash structures keep their earlier state, whatever was being written; DDR5 contents are lost.
THERMTRIP# is released with its supply (R487). -/
def execPowerLoss (torn : Option TornWrite) (s : State) : Host.Outcome State Fault Refusal :=
  let s := match torn with
    | some w => tear s w
    | none => s
  let t := resetDies s (powerCause s) true
  .next { t with pk := { t.pk with tripped := false } }

/-- THERMTRIP# is driven low (R487). -/
def thermtripLow (s : State) : Bool := s.pk.tripped

/-- RSTOUT# is driven low: in reset, and while boot is in ROM or FIRMWARE (R486). -/
def rstoutLow (s : State) : Bool := s.pk.inReset || bootState s ≤ 1

/-- The flash pins are high impedance (R371): in reset, and while boot is in HALT. -/
def flashHighZ (s : State) : Bool := s.pk.inReset || s.ab.halt

/-- FSPI_RST# is driven low (R492): for 10 µs from each restart of the abutment die. -/
def flashResetLow (s : State) : Bool := s.pk.flashReset.any (fun t => s.now.toNat < t.toNat + 10000)

/-- What BOOTST shows (R381): low, high, or toggling at a rate in Hz. -/
inductive BootStatus
  | low
  | high
  | toggles (hz : Nat)
deriving DecidableEq, Repr

def bootst (s : State) : BootStatus :=
  if s.pk.inReset then .low else if s.ab.halt then .toggles 2 else if bootState s = 6 then .toggles 8
  else if bootState s = 5 then .high else .low

end Sys2Proof.Machine
end

