-- ==== Sys2Proof/Machine/Bus.lean ====
section
/-!
DEFINITION. Accesses by causeway address (R2, R3, R5, R13–R19, R497): the windows of the address space, reads and writes of
registers by their access types with the writes that act, and the meanings of REGISTER_WRITE and ALIAS_ACCESS.
-/

namespace Sys2Proof.Machine

/-! ## The address space (R13–R19, R285) -/

/-- The endpoint that serves a physical address; `none` outside every window or beyond the units present (R13). -/
def unitOf (s : State) (a : Nat) : Option Nat :=
  let o (base : Nat) : Nat := (a - base) / 0x1000000
  if a < 0x2000000000 then some (44 + (if a < ddrCapacity s then ddrChannel s a else 0))
  else if a < 0x4000000000 then none
  else if a < 0x4000800000 then some (52 + pierOf a)
  else if a < 0x4100000000 then none
  else if a < 0x4111000000 then some (o 0x4100000000)
  else if a < 0x4200000000 then none
  else if a < 0x4211000000 then some (17 + o 0x4200000000)
  else if a < 0x4300000000 then none
  else if a < 0x4310000000 then some 34
  else if a < 0x4310001000 then some 35
  else if a < 0x4310003000 then some 36
  else if a < 0x4320000000 then some 37
  else if a < 0x4400000000 then none
  else if a < 0x4410000000 then some 38
  else if a < 0x4500000000 then none
  else if a < 0x4510000000 then some 78
  else if a < 0x4600000000 then none
  else if a < 0x4604000000 then some (39 + o 0x4600000000)
  else if a < 0x4640000000 then none
  else if a < 0x4650000000 then some 43
  else if a < 0x4700000000 then none
  else if a < 0x4710000000 then some 76
  else if a < 0x4718000000 then some (68 + o 0x4710000000)
  else if a < 0x4720000000 then some 77
  else if a < 0x4730000000 then some 79
  else if a < 0x4800000000 then none
  else if a < 0x4808000000 then some (44 + o 0x4800000000)
  else if a < 0x4810000000 then some 44
  else if a < 0x4900000000 then none
  else if a < 0x4910000000 then some 78
  else if a < 0x4F00000000 then none
  else if a < 0x4F01000000 then some 77
  else none

/-- An address seen through the aliases: the role and the physical form of the address where pair `n` held it. -/
structure Alias where
  role : Nat
  region : Bool
  offset : Nat
deriving DecidableEq, Repr

/-- The alias that an address names (R13, R16). -/
def aliasAt (a : Nat) : Option Alias :=
  if 0x4180000000 ≤ a ∧ a < 0x4191000000 then some ⟨(a - 0x4180000000) / 0x1000000, false, a % 0x1000000⟩
  else if 0x4280000000 ≤ a ∧ a < 0x4291000000 then some ⟨(a - 0x4280000000) / 0x1000000, true, a % 0x1000000⟩
  else none

/-- The physical address that an alias of pair `n` leads to, its endpoint, and the role's tag (R16, R293). -/
def Alias.target (x : Alias) (n : Fin 17) : Nat × Nat × Nat :=
  if x.region then (0x4200000000 + 0x1000000 * n.val + x.offset, 17 + n.val, regionTag x.role)
  else (0x4100000000 + 0x1000000 * n.val + x.offset, n.val, spanTag x.role)

/-- What lies at the aligned word of a unit's window. -/
inductive Window
  | none
  | register (d : RegDesc)
  /-- Memory that the window only shows. -/
  | shown
  /-- Memory that a write of any width changes. -/
  | buffer
  | scratch (n : Fin 17)
  /-- A line-buffer slot of a region. -/
  | slot (m : Fin 17)
  | frame (m : Fin 17) (i : Nat)
  | local' (k : Fin 4) (offset : Nat)
  | request (c : Nat)
deriving Repr

/-- Memory windows of a span (R88, R132, R469). -/
def spanWindow (n : Fin 17) (o : Nat) : Window :=
  if o < 0x10000 then .shown else if 0x100000 ≤ o ∧ o < 0x108000 then .scratch n
  else if 0x800000 ≤ o ∧ o < 0x810000 then .shown else if 0x900000 ≤ o ∧ o < 0x908000 then .shown
  else if 0xB01000 ≤ o ∧ o < 0xB01800 then .shown else .none

/-- Memory windows of a region (R202). -/
def regionWindow (m : Fin 17) (o : Nat) : Window :=
  if 0x100000 ≤ o ∧ o < 0x10010C then .frame m ((o - 0x100000) / 4)
  else if 0x400000 ≤ o ∧ o < 0x400800 then .shown else if 0x800000 ≤ o ∧ o < 0x8C0000 then .slot m else .none

/-- What lies at an aligned physical address of a unit. -/
def windowAt (a : Nat) : Window :=
  match regAt a with
  | some d => .register d
  | none =>
    let o := a % 0x1000000
    let n (base : Nat) : Nat := (a - base) / 0x1000000
    if 0x4100000000 ≤ a ∧ a < 0x4111000000 then spanWindow (Fin.ofNat 17 (n 0x4100000000)) o
    else if 0x4200000000 ≤ a ∧ a < 0x4211000000 then regionWindow (Fin.ofNat 17 (n 0x4200000000)) o
    else if 0x4500120000 ≤ a ∧ a < 0x4500140000 then .shown
    else if 0x4600000000 ≤ a ∧ a < 0x4604000000 then
      (if o < 0x40000 then .local' (Fin.ofNat 4 (n 0x4600000000)) o else .none)
    else if 0x4700000000 ≤ a ∧ a < 0x4710000000 then
      if 0x100 ≤ o ∧ o < 0x140 then .buffer
      else if (0x140 ≤ o ∧ o < 0x180) ∨ (0x1000 ≤ o ∧ o < 0x1400) then .shown else .none
    else if 0x4F00000000 ≤ a ∧ a < 0x4F00008000 then
      let q := a % 0x1000
      if q < 0x400 then .request ((a - 0x4F00000000) / 0x1000) else if q < 0x800 then .shown else .none
    else .none

/-- The pieces of the bytes from `a` to `a + n − 1` that lie in one aligned block of `w` bytes each: address and length. -/
def pieces (w a n : Nat) : List (Nat × Nat) :=
  (wordsOf w a n).map (fun x => (max a x, min (a + n) (x + w) - max a x))

/-- The first STATUS that is not OK. -/
def joinStatus (x y : Nat) : Nat := if x = 0 then y else x

/-! ## Reads -/

/-- The pairs of the timing unit whose LO word latches its HI word (R284). -/
def latchPair (a : Nat) : Bool :=
  (List.range 16).any (fun c => a == Reg.SC_POS_LO c || a == Reg.SC_ZCAP_LO c ||
    a == Reg.ACT_DIST_LO c 0 || a == Reg.ACT_DIST_LO c 1) ||
  (List.range 8).any (fun g => a == Reg.TG_ORIGIN_LO g || a == Reg.TG_INDEX_LO g) ||
  a == Reg.TM_NOW_LO || a == Reg.TM_EPOCH_LO || a == Reg.AS_POST_LO

/-- Index of the instance of a register array with base `b` and stride `st` at `a`, if it lies there. -/
def instanceAt (b st n a : Nat) : Option Nat :=
  if b ≤ a ∧ (a - b) % st = 0 ∧ (a - b) / st < n then some ((a - b) / st) else none

/-- The present value of a register: device time where `TM_NOW` shows it, the last complete window where `SC_RATE` does. -/
def registerNow (s : State) (a : Nat) : BitVec 32 :=
  if a = Reg.UPD_STAT then
    match s.up.current with
    | some u =>
      if compState s u.comp = 4 then F.UPD_STAT_LEFT.put (s.reg a) (u.window - (s.now.toNat - u.since.toNat) / 1000000000)
      else s.reg a
    | none => s.reg a
  else if let some c := instanceAt (Reg.SC_RATE 0) 0x1000 16 a then (rollRate s (Fin.ofNat 16 c)).reg a
  else if a = Reg.TM_NOW_LO then s.now.extractLsb' 0 32 else if a = Reg.TM_NOW_HI then s.now.extractLsb' 32 32 else s.reg a

/-- The fields that a read of a register shows: write-only fields read 0 (R3). -/
def shownWord (d : RegDesc) (w : BitVec 32) : BitVec 32 :=
  d.fields.foldl (fun w f => if f.acc = .wo then f.put w 0 else w) w

/-- A read of a register: a LO word of the timing unit latches its HI word, and a latched HI word is read once. -/
def registerRead (s : State) (d : RegDesc) (a : Nat) : BitVec 32 × State :=
  match s.tm.latched.find? (fun p => p.1 == a) with
  | some p => (BitVec.ofNat 32 p.2, modifyTm s (fun t => { t with latched := t.latched.filter (fun q => q.1 != a) }))
  | none =>
    let s' := if latchPair a then
        modifyTm s (fun t => { t with
          latched := t.latched.filter (fun q => q.1 != a + 4) ++ [(a + 4, (registerNow s (a + 4)).toNat)] })
      else s
    (shownWord d (registerNow s a), s')

/-- A read of one aligned word of a unit's window: its value, its STATUS and the state. -/
def wordRead (s : State) (w : Nat) : Nat × Nat × State :=
  match windowAt w with
  | .none => (0, 1, s)
  | .register d => (let r := registerRead s d w; (r.1.toNat, 0, r.2))
  | .shown | .buffer | .request _ => (s.readLE w 4, 0, s)
  | .scratch n =>
    let bad := eccOf (s.errMask w) == .double
    let s := scratchCheck s n w
    (leNat (storedBytes s 4 w 4), if bad then 4 else 0, s)
  | .slot m =>
    let bad := eccOf (s.errMask (w / 8 * 8)) == .double
    (leNat (storedBytes (slotWordCheck s m (w / 8 * 8)) 8 w 4), if bad then 4 else 0, slotWordCheck s m (w / 8 * 8))
  | .frame _ _ => (let v := s.draw 32; (v.1.toNat, 0, v.2))
  | .local' k o =>
    let r := localCheck s k o
    (localValue r.2 k o 4, if r.1 then 4 else 0, r.2)

/-- The bytes from `a` to `a + n − 1`, fewer than a whole register, are all of reserved fields (R5). -/
def reservedOnly (a n : Nat) : Bool :=
  match windowAt (a / 4 * 4) with
  | .register d => n < 4 && d.fields.all (fun f => f.hi < 8 * (a % 4) || 8 * (a % 4 + n) ≤ f.lo)
  | _ => false

/-- A read of `n` bytes inside one unit: an access that meets an unmapped address or a reserved field is counted once (R5). -/
def unitRead (s : State) (ep a n : Nat) : List Byte × Nat × State :=
  let r := (pieces 4 a n).foldl (fun (acc : List Byte × Nat × State) p =>
    let w := wordRead acc.2.2 (p.1 / 4 * 4)
    (acc.1 ++ ((leBytes 4 w.1).drop (p.1 % 4)).take p.2, joinStatus acc.2.1 w.2.1, w.2.2)) ([], 0, s)
  if r.2.1 = 1 then (r.1, 1, probeStray r.2.2 ep)
  else if (pieces 4 a n).any (fun p => reservedOnly p.1 p.2) then (r.1, r.2.1, probeStray r.2.2 ep) else r

/-- A read of `n` bytes of DDR5, cut where the channels interleave (R15, R305). -/
def ddrBusRead (s : State) (a n : Nat) : List Byte × Nat × State :=
  (pieces 128 a n).foldl (fun (acc : List Byte × Nat × State) p =>
    let r := ddrUnitRead acc.2.2 p.1 p.2
    let st := if ddrCapacity s < p.1 + p.2 then 1 else if epCut s (44 + ddrChannel s p.1) then 2 else if r.2.1 then 4 else 0
    (acc.1 ++ r.1, joinStatus acc.2.1 st, r.2.2)) ([], 0, s)

/-- A read of `n` bytes of the piers (R302). -/
def pierBusRead (s : State) (a n : Nat) : List Byte × Nat × State :=
  (pieces 512 a n).foldl (fun (acc : List Byte × Nat × State) p =>
    let ep := 52 + pierOf p.1
    if epCut s ep then (acc.1 ++ List.replicate p.2 0, joinStatus acc.2.1 2, probeIso acc.2.2 ep)
    else (let r := pierRead acc.2.2 p.1 p.2; (acc.1 ++ r.1, joinStatus acc.2.1 (if r.2.1 then 4 else 0), r.2.2)))
    ([], 0, s)

/-- A read of `n` bytes at a physical address: bytes, STATUS (0 OK, 1 UNMAPPED, 2 ISOLATED, 3 STALE_ROLE, 4 ECC), state. -/
def physRead (s : State) (a n : Nat) : List Byte × Nat × State :=
  match unitOf s a with
  | none => (List.replicate n 0, 1, probeStray s 78)
  | some ep =>
    if a < 0x2000000000 then ddrBusRead s a n
    else if inPiers a then pierBusRead s a n
    else if epCut s ep then (List.replicate n 0, 2, probeIso s ep)
    else unitRead s ep a n

/-- A read of `n` bytes at any causeway address, made at once (R13–R19). -/
def busRead (s : State) (a n : Nat) : List Byte × Nat × State :=
  match aliasAt a with
  | none => physRead s a n
  | some x =>
    match pairOf s x.role with
    | none => (List.replicate n 0, 1, probeStray s 78)
    | some m =>
      let (p, ep, tag) := x.target m
      if epCut s ep then (List.replicate n 0, 2, probeIso s ep)
      else if (epTag s ep).toNat ≠ tag then (List.replicate n 0, 3, probeStale s ep)
      else physRead s p n

/-! ## Writes -/

/-- The function that owns the RWS fields at an address is stopped (R3, R57, R132, R166, R202, R232, R251, R284, R313,
R437, R471). -/
def ownerStopped (s : State) (a : Nat) : Bool :=
  let n (base : Nat) : Nat := (a - base) / 0x1000000
  if a < 0x4200000000 then
    let m : Fin 17 := Fin.ofNat 17 (n 0x4100000000)
    if 0xF00000 ≤ a % 0x1000000 then spcState s (lead s m) == 3 else spcState s m == 3
  else if a < 0x4300000000 then
    let st := rgState s (n 0x4200000000)
    st != 2 && st != 3
  else if a < 0x4310000000 then trkState s ((a - Reg.TRK_DOM_CTL 0) / 0x40) == 0
  else if a < 0x4310001000 then !s.flag Reg.LG_CTL F.LG_CTL_EN
  else if a < 0x4310003000 then !s.flag Reg.RF_CTL F.RF_CTL_EN
  else if a < 0x4400000000 then !s.flag Reg.CR_CTL F.CR_CTL_EN
  else if a < 0x4500000000 then tgState s ((a - Reg.TG_CTL 0) / 0x1000) == 0
  else if a < 0x4500100000 then epCut s ((a - Reg.CW_EP_CTL 0) / 0x100)
  else if a < 0x4500110000 then !s.flag (Reg.PRB_FLT_CTL ((a - Reg.PRB_FLT_CTL 0) / 0x40)) F.PRB_FLT_CTL_EN
  else if a < 0x4600000000 then !s.flag (Reg.TRC_STAT ((a - Reg.TRC_CTL 0) / 0x100)) F.TRC_STAT_ARMED
  else if a < 0x4710000000 then
    let st := hpState s (n 0x4700000000)
    st == 0 || st == 1 || (9 ≤ st && st ≤ 11)
  else if a < 0x4720000000 then !s.flag (Reg.LP_CTL (n 0x4710000000)) F.LP_CTL_EN
  else !slOn s

/-- A register word after a write of `val`, field by field (R3): a value that a field does not accept leaves it unchanged. -/
def writtenWord (stopped : Bool) (d : RegDesc) (old val : BitVec 32) : BitVec 32 :=
  d.fields.foldl (fun w f =>
    let v := f.get val
    match f.acc with
    | .rw => if f.accepts v then f.put w v else w
    | .rws => if stopped && f.accepts v then f.put w v else w
    | .w1c => f.put w (f.get old - (f.get old &&& v))
    | _ => w) old

/-- A write takes effect on every field by its access type. -/
def plainWrite (s : State) (d : RegDesc) (a : Nat) (val : BitVec 32) : State :=
  s.setReg a (writtenWord (ownerStopped s a) d (s.reg a) val)

/-- Writes to the registers of a span that act (R35, R57, R126, R125). -/
def spanWrite (s : State) (d : RegDesc) (n : Fin 17) (a : Nat) (val : BitVec 32) : State :=
  if a = Reg.SPC_CTL n then
    let s' := plainWrite s d a val
    let st := F.SPC_CTL_STOP.get val
    if st = 0 then startWritten (s'.setFld a F.SPC_CTL_STOP (s.fld a F.SPC_CTL_STOP)) n
    else if st = 1 then stopDrain (s'.setFld a F.SPC_CTL_STOP (s.fld a F.SPC_CTL_STOP)) n
    else if st = 2 then stopWritten (s'.setFld a F.SPC_CTL_STOP (s.fld a F.SPC_CTL_STOP)) n
    else s'.setFld a F.SPC_CTL_STOP (s.fld a F.SPC_CTL_STOP)
  else if a = Reg.CKPT_REST n then
    let s := plainWrite s d a val
    if F.CKPT_REST_GO.get val = 1 then startRestore s n else s
  else if a = Reg.ARR_COUPLE n then
    let size := F.ARR_COUPLE_GSIZE_LOG.get val
    if 5 ≤ size ∨ 2 ^ size ≤ F.ARR_COUPLE_POS.get val then s else refreshJoints (plainWrite s d a val)
  else if Reg.SPARE_MAP n 0 0 ≤ a ∧ a < Reg.SPARE_MAP n 16 0 then
    let o := a - Reg.SPARE_MAP n 0 0
    writeSpareMap s n (o / 0x20) (o % 0x20 / 4) val
  else plainWrite s d a val

/-- Writes to the registers of a region that act (R168, R189, R197). -/
def regionWrite (s : State) (d : RegDesc) (m : Fin 17) (a : Nat) (val : BitVec 32) : State :=
  if a = Reg.RG_CTL m then
    let s := s.setFld a F.RG_CTL_RAW (if s.roleOf m = 31 then F.RG_CTL_RAW.get val else 0)
    let s := if F.RG_CTL_UNSEAL.get val = 1 then rgUnseal s m else s
    let s := if F.RG_CTL_DISABLE.get val = 1 then rgDisable s m else s
    if F.RG_CTL_ENABLE.get val = 1 then rgEnable s m else s
  else if a = Reg.RG_SRC m then writeRgSrc s m val
  else if a = Reg.RP_CTL m then writeRpCtl s m val
  else plainWrite s d a val

/-- A change of the source or of the internal rate of group `g` begins a new series of counts (R256; log, entry 114). -/
def restartSource (s t : State) (g : Fin 8) : State :=
  if s.fld (Reg.TG_CTL g) F.TG_CTL_SRC = t.fld (Reg.TG_CTL g) F.TG_CTL_SRC ∧ s.reg (Reg.TG_INTRATE g) = t.reg (Reg.TG_INTRATE g) then t
  else setGrp t g { grp t g with edge := none, gaps := [], rem := 0 }

/-- Writes to the registers of the timing unit that act (R259, R260, R268, R270, R272). -/
def timingWrite (s : State) (d : RegDesc) (a : Nat) (val : BitVec 32) : State :=
  match instanceAt (Reg.TG_CTL 0) 0x1000 8 a with
  | some k =>
    let g : Fin 8 := Fin.ofNat 8 k
    let s := restartSource s (plainWrite s d a val) g
    let s := if F.TG_CTL_START.get val = 1 then tgStart s g else s
    if F.TG_CTL_STOP.get val = 1 then tgStop s g else s
  | none =>
    match instanceAt (Reg.TG_HEADS 0) 0x1000 8 a with
    | some k =>
      let taken := (List.range 8).foldl (fun w g => if g = k then w else w ||| s.reg (Reg.TG_HEADS g)) 0
      if taken &&& val &&& 0xFFFF = 0 then plainWrite s d a val else s
    | none =>
      if let some k := instanceAt (Reg.TG_INTRATE 0) 0x1000 8 a then restartSource s (plainWrite s d a val) (Fin.ofNat 8 k)
      else if a = Reg.TM_EPOCH_LO then writeEpochLo s val
      else if a = Reg.TM_EPOCH_HI then writeEpochHi s val
      else if a = Reg.AS_CTL then (if F.AS_CTL_FLUSH.get val = 1 then asFlush s else s)
      else if a = Reg.AS_POST_CTL then asPost s val
      else plainWrite s d a val

/-- Writes to the causeway and probe registers that act (R296, R301, R467, R468). -/
def causewayWrite (s : State) (d : RegDesc) (a : Nat) (val : BitVec 32) : State :=
  if a = Reg.CW_CTL then (if F.CW_CTL_FLIP.get val = 1 then routeFlip s else s)
  else
    match instanceAt (Reg.CW_EP_CTL 0) 0x100 80 a with
    | some i =>
      let s := plainWrite s d a val
      let s := if F.CW_EP_CTL_ISOLATE.get val = 1 then isolateEp s i else s
      if F.CW_EP_CTL_RELEASE.get val = 1 then releaseEp s i else s
    | none =>
      match instanceAt (Reg.PRB_FLT_CTL 0) 0x40 16 a with
      | some f =>
        let on := !s.flag a F.PRB_FLT_CTL_EN && F.PRB_FLT_CTL_EN.get val == 1
        let s := plainWrite s d a val
        if on then (s.setReg (Reg.PRB_FLT_HEADS f) 0).setReg (Reg.PRB_FLT_FLITS f) 0 else s
      | none =>
        match instanceAt (Reg.TRC_CTL 0) 0x100 4 a with
        | some t =>
          let s := plainWrite s d a val
          let s := if F.TRC_CTL_ARM.get val = 1 then armTrace s (Fin.ofNat 4 t) else s
          if F.TRC_CTL_STOP.get val = 1 then stopWrite s (Fin.ofNat 4 t) else s
        | none => plainWrite s d a val

/-- Writes to Keeper, hub and head-port registers that act (R156, R161, R329, R336, R339). -/
def keeperWrite (s : State) (d : RegDesc) (a : Nat) (val : BitVec 32) : State :=
  match instanceAt (Reg.KP_CTL 0) 0x1000000 4 a with
  | none => plainWrite s d a val
  | some k =>
    let run := F.KP_CTL_RUN.get val = 1
    let s' := (plainWrite s d a val).setFld a F.KP_CTL_RUN (s.fld a F.KP_CTL_RUN)
    if run then keeperRun s' (Fin.ofNat 4 k) else keeperStop s' (Fin.ofNat 4 k)

def hubWrite (s : State) (d : RegDesc) (a : Nat) (val : BitVec 32) : State :=
  if a = Reg.EH_RAISE then ehRaise s val
  else
    match instanceAt (Reg.EH_SRC 0) 4 1024 a with
    | some src => srcWrite s src val
    | none =>
      match instanceAt (Reg.EH_PEND 0) 4 1024 a with
      | some src => pendClear s src val
      | none => plainWrite s d a val

def headWrite (s : State) (d : RegDesc) (h : Fin 16) (a : Nat) (val : BitVec 32) : State :=
  if a = Reg.HP_CTL h then
    let s' := (plainWrite s d a val).setFld a F.HP_CTL_ENABLE (s.fld a F.HP_CTL_ENABLE)
    if F.HP_CTL_ENABLE.get val = 0 then hpDisable s' h
    else
      let s := hpEnable s' h
      let s := if F.HP_CTL_ATTACH.get val = 1 then hpAttach s h else s
      let s := if F.HP_CTL_RELEASE.get val = 1 then hpRelease s h else s
      if F.HP_CTL_RETRAIN.get val = 1 then hpRetrain s h else s
  else if a = Reg.HP_CC_CTL h then
    let s := plainWrite s d a val
    if F.HP_CC_CTL_GO.get val = 1 then ccGo s h else s
  else plainWrite s d a val

/-- Writes to line-port, strand and device-control registers that act (R277, R357, R360, R361, R367, R437). -/
def lineWrite (s : State) (d : RegDesc) (a : Nat) (val : BitVec 32) : State :=
  match instanceAt (Reg.LP_CTL 0) 0x1000000 8 a with
  | none => plainWrite s d a val
  | some _ =>
    let s := plainWrite s d a val
    if s.flag a F.LP_CTL_RATE then s else s.setFld a F.LP_CTL_FEC 0

def deviceWrite (s : State) (d : RegDesc) (a : Nat) (val : BitVec 32) : State :=
  if a = Reg.PL_TAKE then writeTake s val
  else if a = Reg.PL_TEST then writeTest s val
  else if a = Reg.PL_CHANGE then
    let s := if F.PL_CHANGE_GO.get val = 1 then changeGo s else s
    if F.PL_CHANGE_ABORT.get val = 1 then changeAbort s else s
  else plainWrite s d a val

/-- `MB_DOORBELL` of channel `c` (R400, R402): accepted from the role tag of `MB_ALLOW`; GO while it reads 1 is stray. -/
def doorbellWrite (s : State) (tag : BitVec 16) (c : Nat) (val : BitVec 32) : State :=
  let a := Reg.MB_DOORBELL c
  let stray := s.bump (Reg.MB_STAT c) F.MB_STAT_STRAY
  if tag.toNat ≠ s.fld (Reg.MB_ALLOW c) F.MB_ALLOW_TAG then stray
  else
    let go := F.MB_DOORBELL_GO.get val = 1
    let s' := if go ∧ s.flag a F.MB_DOORBELL_GO then stray else if go then s.setFld a F.MB_DOORBELL_GO 1 else s
    if F.MB_DOORBELL_DONE.get val = 1 then s'.setFld a F.MB_DOORBELL_DONE 0 else s'

/-- A write of 32 bits to a register, by a requester of role tag `tag`. -/
def registerWrite (s : State) (tag : BitVec 16) (d : RegDesc) (a : Nat) (val : BitVec 32) : State :=
  let n (base : Nat) : Nat := (a - base) / 0x1000000
  if a < 0x4200000000 then spanWrite s d (Fin.ofNat 17 (n 0x4100000000)) a val
  else if a < 0x4300000000 then regionWrite s d (Fin.ofNat 17 (n 0x4200000000)) a val
  else if a = Reg.LG_CTL then
    let s' := (plainWrite s d a val).setFld a F.LG_CTL_EN (s.fld a F.LG_CTL_EN)
    if F.LG_CTL_EN.get val = 1 then ledgerEnable s' else ledgerDisable s'
  else if a = Reg.LG_SEG_CTL then segmentWrite s val
  else if a < 0x4400000000 then plainWrite s d a val
  else if a < 0x4500000000 then timingWrite s d a val
  else if a < 0x4600000000 then causewayWrite s d a val
  else if a < 0x4640000000 then keeperWrite s d a val
  else if a < 0x4700000000 then hubWrite s d a val
  else if a < 0x4710000000 then headWrite s d (Fin.ofNat 16 (n 0x4700000000)) a val
  else if a < 0x4720000000 then lineWrite s d a val
  else if a = Reg.SL_CTL then strandControl (plainWrite s d a val) (slOn s)
  else if a < 0x4900000000 then plainWrite s d a val
  else if a < 0x4F00000000 then deviceWrite s d a val
  else
    match instanceAt (Reg.MB_DOORBELL 0) 0x1000 8 a with
    | some c => doorbellWrite s tag c val
    | none => plainWrite s d a val

/-- A write of the bytes `bs` inside the aligned word that holds `a`: STATUS and state. Registers take whole words only (R2);
so does data scratch (R103). -/
def wordWrite (s : State) (tag : BitVec 16) (a : Nat) (bs : List Byte) : Nat × State :=
  let w := a / 4 * 4
  let whole := bs.length = 4
  let val := BitVec.ofNat 32 (leNat bs)
  match windowAt w with
  | .none => (1, s)
  | .shown | .slot _ => (0, s)
  | .register d => (0, if whole then registerWrite s tag d w val else s)
  | .buffer => (0, s.writeBytes a bs)
  | .scratch _ => (0, if whole then (s.writeBytes w bs).setErr w 0 else s)
  | .frame m i => (0, if whole then frameWordWrite s m i val else s)
  | .local' k o => (0, bs.zipIdx.foldl (fun s p => localWrite s k (o + a % 4 + p.2) 1 p.1.toNat) (if whole then s.setErr w 0 else s))
  | .request c =>
    if tag.toNat ≠ s.fld (Reg.MB_ALLOW c) F.MB_ALLOW_TAG ∨ s.flag (Reg.MB_DOORBELL c) F.MB_DOORBELL_GO then
      (0, s.bump (Reg.MB_STAT c) F.MB_STAT_STRAY)
    else (0, s.writeBytes a bs)

/-- A write inside one unit: an access that meets an unmapped address or a reserved field is counted once (R5). -/
def unitWrite (s : State) (tag : BitVec 16) (ep a : Nat) (bs : List Byte) : Nat × State :=
  let r := (pieces 4 a bs.length).foldl (fun (acc : Nat × State) p =>
    let w := wordWrite acc.2 tag p.1 ((bs.drop (p.1 - a)).take p.2)
    (joinStatus acc.1 w.1, w.2)) (0, s)
  if r.1 = 1 then (1, probeStray r.2 ep)
  else if (pieces 4 a bs.length).any (fun p => reservedOnly p.1 p.2) then (r.1, probeStray r.2 ep) else r

def ddrBusWrite (s : State) (a : Nat) (bs : List Byte) : Nat × State :=
  (pieces 128 a bs.length).foldl (fun (acc : Nat × State) p =>
    let s := acc.2
    let part := (bs.drop (p.1 - a)).take p.2
    if ddrCapacity s < p.1 + p.2 then (joinStatus acc.1 1, probeStray s 44)
    else if epCut s (44 + ddrChannel s p.1) then (joinStatus acc.1 2, probeIso s (44 + ddrChannel s p.1))
    else (let r := ddrWrite s p.1 part; (joinStatus acc.1 (if r.1 then 4 else 0), r.2))) (0, s)

def pierBusWrite (s : State) (a : Nat) (bs : List Byte) : Nat × State :=
  (pieces 512 a bs.length).foldl (fun (acc : Nat × State) p =>
    let s := acc.2
    let ep := 52 + pierOf p.1
    if epCut s ep then (joinStatus acc.1 2, probeIso s ep)
    else (let r := pierWrite s p.1 ((bs.drop (p.1 - a)).take p.2); (joinStatus acc.1 (if r.1 then 4 else 0), r.2))) (0, s)

/-- A write of bytes at a physical address by a requester of role tag `tag`: STATUS and state. -/
def physWrite (s : State) (tag : BitVec 16) (a : Nat) (bs : List Byte) : Nat × State :=
  match unitOf s a with
  | none => (1, probeStray s 78)
  | some ep =>
    if a < 0x2000000000 then ddrBusWrite s a bs
    else if inPiers a then pierBusWrite s a bs
    else if epCut s ep then (2, probeIso s ep)
    else unitWrite s tag ep a bs

/-- A write of bytes at any causeway address, made at once (R13–R19). -/
def busWrite (s : State) (tag : BitVec 16) (a : Nat) (bs : List Byte) : Nat × State :=
  match aliasAt a with
  | none => physWrite s tag a bs
  | some x =>
    match pairOf s x.role with
    | none => (1, probeStray s 78)
    | some m =>
      let (p, ep, want) := x.target m
      if epCut s ep then (2, probeIso s ep)
      else if (epTag s ep).toNat ≠ want then (3, probeStale s ep)
      else physWrite s tag p bs

/-- The endpoint that a causeway address leads to. -/
def endpointAt (s : State) (a : Nat) : Option Nat :=
  match aliasAt a with
  | none => unitOf s a
  | some x => (pairOf s x.role).map (fun m => (x.target m).2.1)

/-- REGISTER_WRITE (R2, R3, R5, R497): a write of the `width` low bytes of `val` by a requester of role tag `tag`. While the
endpoint is DRAINING the write's head waits at its router (R296). -/
def execRegisterWrite (tag : BitVec 16) (addr : BitVec 40) (width : Fin 5) (val : BitVec 32) (s : State) :
    Host.Outcome State Fault Refusal :=
  let bs := leBytes width val.toNat
  match endpointAt s addr.toNat with
  | none => .next (busWrite s tag addr.toNat bs).2
  | some ep =>
    if epState s ep = 1 then
      let p : Packet :=
        { src := (endpointOfTag s tag).getD 77, dst := Fin.ofNat 80 ep, cls := 2, kind := 1, len := 1, status := 0,
          epoch := routeEpoch s, dtag := 0xFFFF, stag := tag, txn := 0, addr := addr, count := width, data := bs }
      .next (modifyCw s (fun c => { c with held := c.held ++ [p], txns := c.txns ++ [(p.src, 0)] }))
    else .next (busWrite s tag addr.toNat bs).2

/-! ## The alias endpoint (R16–R18, R295) -/

/-- An access that the alias endpoint has accepted goes on with the role's tag to the pair that holds the role, or is answered
with zeros and STATUS UNMAPPED and counted. -/
def aliasForward (s : State) (p : Packet) : State :=
  match (aliasAt p.addr.toNat).bind (fun x => (pairOf s x.role).map (fun m => x.target m)) with
  | none => absorb (probeStray s 78) { p with dst := 78 } 1
  | some (a, ep, tag) =>
    let q : Packet := { p with dst := Fin.ofNat 80 ep, dtag := BitVec.ofNat 16 tag, addr := BitVec.ofNat 40 a,
                               epoch := routeEpoch s }
    modifyCw s (fun c => { c with net := c.net ++ [q] })

/-- ALIAS_ACCESS (R16, R18): the endpoint of role tag `tag` (the alias endpoint itself where none holds it) reads or writes `width`
bytes through an alias; the access is a request that CAUSEWAY_DELIVERY brings to the pair. -/
def execAliasAccess (tag : BitVec 16) (write : Bool) (addr : BitVec 40) (width : Fin 5) (val : BitVec 32) (s : State) :
    Host.Outcome State Fault Refusal :=
  if width = 0 ∨ (aliasAt addr.toNat).isNone then .next s
  else
    let src : Fin 80 := (endpointOfTag s tag).getD 78
    let p : Packet :=
      { src := src, dst := 78, cls := 2, kind := if write then 1 else 0, len := if write then 1 else 0, status := 0,
        epoch := false, dtag := 0xFFFF, stag := tag, txn := 0, addr := addr, count := width,
        data := if write then leBytes width val.toNat else [] }
    let s := modifyCw s (fun c => { c with txns := c.txns ++ [(src, 0)] })
    .next (aliasForward s p)

end Sys2Proof.Machine
end

