-- ==== Sys2Proof/Machine/LinePort.lean ====
section
/-!
DEFINITION. The line ports and the opening of sessions (R405–R416): meanings of FRAME_RECEIVE, ARP, ICMP_ECHO, LP_LINK,
FALLBACK_RATE_SWITCH and HELLO.
-/

namespace Sys2Proof.Machine

/-! ## Frames (R406, R407) -/

/-- `n` bytes from `i` on as one number, the first byte highest. -/
def beAt (bs : List Byte) (i n : Nat) : Nat := leNat (((bs.drop i).take n).reverse)

/-- The bytes with their checksum in place sum to all ones. -/
def inetGood (bs : List Byte) : Bool := inetChecksum bs == 0

/-- A frame without its FCS is untagged Ethernet II, within the length, and addressed to the port (R406). -/
def frameTaken (s : State) (e : Nat) (f : List Byte) : Bool :=
  let dst := beAt f 0 6
  let kind := beAt f 12 2
  14 ≤ f.length && f.length ≤ lpMtu s e + 14 && 0x600 ≤ kind && kind != 0x8100 && kind != 0x88A8 && kind != 0x8808 &&
    (dst == macOf s e || dst == 0xFFFFFFFFFFFF || dst == 0x011B19000000 || dst == 0x01005E000181)

/-- IPv4 without options or fragmentation, with a valid header checksum (R407). -/
def ipv4Good (f : List Byte) : Bool :=
  beAt f 12 2 == 0x0800 && beAt f 14 1 == 0x45 && (beAt f 20 2) % 16384 == 0 && inetGood ((f.drop 14).take 20) &&
    20 ≤ beAt f 16 2 && beAt f 16 2 + 14 ≤ f.length

/-- What follows the IPv4 header. -/
def ipv4Body (f : List Byte) : List Byte := (f.drop 34).take (beAt f 16 2 - 20)

/-- A UDP datagram whose checksum is valid or 0, to destination `ip`: its port and payload. -/
def udpOf (f : List Byte) (ip : Nat) : Option (Nat × List Byte) :=
  let u := ipv4Body f
  let n := beAt u 4 2
  let pseudo := (f.drop 26).take 8 ++ [0, 17] ++ beBytes 2 n
  if ipv4Good f && beAt f 23 1 == 17 && beAt f 30 4 == ip && 8 ≤ n && n ≤ u.length &&
      (beAt u 6 2 == 0 || inetGood (pseudo ++ u.take n)) then some (beAt u 2 2, (u.take n).drop 8)
  else none

/-- An ARP request for the port's address (R407). -/
def arpFor (s : State) (e : Nat) (f : List Byte) : Bool :=
  beAt f 12 2 == 0x0806 && 42 ≤ f.length && beAt f 14 8 == 0x0001080006040001 && beAt f 38 4 == (s.reg (Reg.LP_IP e)).toNat

/-- An ICMP echo request to the port's address that is answered (R407). -/
def echoFor (s : State) (e : Nat) (f : List Byte) : Bool :=
  ipv4Good f && beAt f 23 1 == 1 && beAt f 30 4 == (s.reg (Reg.LP_IP e)).toNat && beAt f 34 2 == 0x0800 &&
    8 ≤ (ipv4Body f).length && (ipv4Body f).length ≤ 72 && s.flag (Reg.LP_CTL e) F.LP_CTL_ICMP

/-- The PTP message of a frame of either transport (R273, R407). -/
def ptpMessage (f : List Byte) : Option (List Byte) :=
  if beAt f 12 2 = 0x88F7 ∧ beAt f 0 6 = 0x011B19000000 then some (f.drop 14)
  else match udpOf f 0xE0000181 with
    | some (p, b) => if p = 319 ∨ p = 320 then some b else none
    | none => none

/-- The Rener datagram of a frame: its service port and bytes (R407). -/
def renerOf (s : State) (e : Nat) (f : List Byte) : Option (Nat × List Byte) :=
  match udpOf f (s.reg (Reg.LP_IP e)).toNat with
  | some (p, b) => if 47100 ≤ p ∧ p ≤ 47103 then some (p, b) else none
  | none => none

/-! ## Datagrams as they arrive (R410–R413) -/

/-- VERSION, TYPE and port of a datagram are those of a datagram to the device (R411). -/
def datagramKnown (p : Nat) (b : List Byte) : Bool :=
  let t := recNat b 1 1
  16 ≤ b.length && recNat b 0 1 == 1 && (((t == 0x01 || t == 0x04 || t == 0x10) && p == 47100) || (t == 0x21 && p == 47101) ||
    (t == 0x31 && p == 47102) || (t == 0x41 && p == 47103))

/-- The payload of a session datagram that verifies under the session's LC key (R412). -/
def openDatagram (x : Session) (b : List Byte) : Option (List Byte) :=
  if recNat b 2 1 % 2 = 0 then none
  else Config.gcmOpen (x.keys.take 32) ((x.keys.drop 32).take 4 ++ (b.drop 8).take 8) (b.take 16) (b.drop 16)

/-- The operations of R420 and R442. -/
def knownOps : List Nat :=
  [0x01, 0x02, 0x03, 0x04, 0x05, 0x10, 0x11, 0x12, 0x20, 0x21, 0x30, 0x31, 0x32, 0x40, 0x41,
   0x100, 0x101, 0x102, 0x103, 0x104, 0x105, 0x106]

/-- A session datagram meets the checks of R413: one that fails is counted and has no other effect; a COMMAND whose OP no row
of R420 lists is answered BAD_OP. Any other is left to the command of its operation. -/
def sessionDatagram (s : State) (e : Fin 8) (peer : BitVec 32) (b : List Byte) : State :=
  let d (auth : Bool) : Sealed := ⟨e, peer, BitVec.ofNat 32 (recNat b 4 4), recWord b 8, auth⟩
  match (sessionOf s (d true)).bind (fun k => (session s k).map (fun x => (k, x))) with
  | none => s
  | some (_, x) =>
    match openDatagram x b with
    | none => (accept s (d false)).2
    | some q =>
      if !seqFresh x (recWord b 8) then (accept s (d true)).2
      else if recNat b 1 1 = 0x10 ∧ !knownOps.contains (recNat q 0 2) then
        runCommand (recNat q 0 2) none ⟨d true, BitVec.ofNat 32 (recNat q 4 4), 0⟩ (fun _ s => (1, [], s)) s
      else s

/-- A datagram for the Rener service: the wrong VERSION, TYPE or port is discarded (R411); a QUERY of another operation than
those of R423 is answered BAD_OP. -/
def renerDatagram (s : State) (e : Fin 8) (peer : BitVec 32) (p : Nat) (b : List Byte) : State :=
  if !datagramKnown p b then s.bump (Reg.LP_RX_DISCARD e) F.LP_RX_DISCARD_COUNT
  else if recNat b 1 1 = 0x01 then s
  else if recNat b 1 1 = 0x04 then
    let q := b.drop 16
    if [0x03, 0x05, 0x50].contains (recNat q 0 2) then s
    else runQuery (recNat q 0 2) e peer (BitVec.ofNat 32 (recNat q 4 4)) (fun s => (1, [], s)) s
  else sessionDatagram s e peer b

/-! ## Meanings -/

/-- Codewords that RS-FEC has corrected or not; the first uncorrectable of each second raises LP_FEC (R436). -/
def fecCount (s : State) (e : Fin 8) (corr uncorr : Nat) : State :=
  if !s.flag (Reg.LP_CTL e) F.LP_CTL_FEC then s
  else
    let s := (s.bump (Reg.LP_FEC e) F.LP_FEC_CORR corr).bump (Reg.LP_FEC e) F.LP_FEC_UNCORR uncorr
    if uncorr = 0 ∨ s.rn.fecSec[e] = some (secondOf s) then s
    else raiseRn (modifyRn s (fun r => { r with fecSec := r.fecSec.set e (some (secondOf s)) })) e 1 0

/-- FRAME_RECEIVE (R406, R407, R411, R413): a frame is taken or discarded, and passed on by kind. `frame` is the frame without
its FCS. -/
def execFrameReceive (e : Fin 8) (fcs : Bool) (corr uncorr : Nat) (frame : List Byte) (s : State) :
    Host.Outcome State Fault Refusal :=
  if !lpUp s e then .next s
  else
    let s := fecCount s e corr uncorr
    let discard (s : State) : State := s.bump (Reg.LP_RX_DISCARD e) F.LP_RX_DISCARD_COUNT
    if !fcs then .next (s.bump (Reg.LP_RX_FCS e) F.LP_RX_FCS_COUNT)
    else if !frameTaken s e frame then .next (discard s)
    else
      let s := s.bump (Reg.LP_RX_OK e) F.LP_RX_OK_COUNT
      if arpFor s e frame ∨ echoFor s e frame then .next s
      else match ptpMessage frame with
        | some m => .next (if recNat m 0 1 % 16 = 1 then s else s.bump Reg.PTP_DISCARD F.PTP_DISCARD_COUNT)
        | none => match renerOf s e frame with
          | some (p, b) =>
            .next (if s.ab.up then renerDatagram s e (BitVec.ofNat 32 (beAt frame 26 4)) p b else s)
          | none => .next (discard s)

/-- ARP (R407). -/
def execArp (e : Fin 8) (frame : List Byte) (s : State) : Host.Outcome State Fault Refusal :=
  if lpUp s e ∧ frameTaken s e frame ∧ arpFor s e frame then
    .next (portSends s e (arpFrame s e 2 ((frame.drop 6).take 6) ((frame.drop 22).take 10)))
  else .next s

/-- ICMP_ECHO (R407): TOS and identification of the reply are not stated: free values. -/
def execIcmpEcho (e : Fin 8) (frame : List Byte) (s : State) : Host.Outcome State Fault Refusal :=
  if lpUp s e ∧ frameTaken s e frame ∧ echoFor s e frame then
    let data := (ipv4Body frame).drop 4
    let icmp := [0, 0] ++ beBytes 2 (inetChecksum ([0, 0, 0, 0] ++ data)) ++ data
    let t := s.draw 8
    let i := t.2.draw 16
    let s := i.2
    let front := [0x45, t.1] ++ beBytes 2 (20 + icmp.length) ++ beBytes 2 i.1.toNat ++ [0x40, 0, 64, 1]
    let ends := beBytes 4 (s.reg (Reg.LP_IP e)).toNat ++ (frame.drop 26).take 4
    let header := front ++ beBytes 2 (inetChecksum (front ++ [0, 0] ++ ends)) ++ ends
    .next (portSends s e ((frame.drop 6).take 6 ++ beBytes 6 (macOf s e) ++ [0x08, 0x00] ++ header ++ icmp))
  else .next s

/-- LP_LINK (R405, R436): link, block lock and RS-FEC lock of a port; a change of the link is raised, 1 UP, 2 DOWN. Sessions
and queues stay (R417, R435). -/
def execLpLink (e : Fin 8) (up blockLock fecLock : Bool) (s : State) : Host.Outcome State Fault Refusal :=
  if !s.flag (Reg.LP_CTL e) F.LP_CTL_EN then .next s
  else
    let a := Reg.LP_STAT e
    let was := s.flag a F.LP_STAT_LINK
    let s := if blockLock then modifyRn s (fun r => { r with rateAt := r.rateAt.set e none }) else s
    let s := ((s.setFld a F.LP_STAT_LINK up.toNat).setFld a F.LP_STAT_BLOCK_LOCK blockLock.toNat).setFld a
      F.LP_STAT_FEC_LOCK ((fecLock && s.flag (Reg.LP_CTL e) F.LP_CTL_FEC).toNat)
    .next (if was = up then s else raiseRn s e 0 (if up then 1 else 2))

/-- The fallback configuration has tried a rate for 2 s, and the port has not had block lock yet (R409). -/
def rateTried (s : State) (e : Fin 8) : Bool :=
  s.flag (Reg.LP_STAT e) F.LP_STAT_FALLBACK && !s.flag (Reg.LP_STAT e) F.LP_STAT_BLOCK_LOCK &&
    s.rn.rateAt[e].any (fun t => t.toNat + 2000000000 ≤ s.now.toNat)

/-- FALLBACK_RATE_SWITCH (R409): the other rate is tried. -/
def execFallbackRateSwitch (e : Fin 8) (s : State) : Host.Outcome State Fault Refusal :=
  if rateTried s e then
    .next ((modifyRn s (fun r => { r with rateAt := r.rateAt.set e (some s.now) })).setFld (Reg.LP_CTL e) F.LP_CTL_RATE
      (1 - s.fld (Reg.LP_CTL e) F.LP_CTL_RATE))
  else .next s

/-! ## HELLO (R391, R392, R414–R416) -/

/-- PTP time in seconds. -/
def ptpSeconds (s : State) : Nat := (ptpTime s).toNat / 1000000000

/-- The first cause that refuses a credential (R392): 1 CRD_FORMAT, 2 CRD_UNOWNED, 3 CRD_DEVICE, 4 CRD_SIG, 5 CRD_EXPIRED,
6 CRD_REVOKED; 0 none. -/
def credentialCause (s : State) (c : List Byte) : Nat :=
  let dev := (c.drop 8).take 16
  if ¬(c.length = 256 ∧ recNat c 0 4 = 0x31445243 ∧ recNat c 4 2 = 1 ∧ recNat c 6 2 = 256 ∧ recNat c 44 4 < 512 ∧
      recNat c 48 4 < 2 ^ 18 ∧ recNat c 52 4 < 2 ^ 18 ∧ zeros c 153 7) then 1
  else if (ownerKey s).isNone then 2
  else if !(dev == fitBytes 16 Config.serial || zeros dev 0 16) then 3
  else if !ownerVerify s (c.take 160) (c.drop 160) then 4
  else if s.flag Reg.TM_STAT F.TM_STAT_EPOCH_SET && (ptpSeconds s < recNat c 24 8 || recNat c 32 8 < ptpSeconds s) then 5
  else if recNat c 40 4 < (credentialFloor s).toNat then 6 else 0

/-- The lowest session slot that is free. -/
def freeSession (s : State) : Option (Fin 16) := (List.finRange 16).find? (fun (k : Fin 16) => (session s k).isNone)

/-- The first cause that refuses a HELLO (R415): 1 BUSY, 2 LOCKED, 3–8 of the credential, 9 SIG, 10 FULL; 0 none. -/
def helloCause (s : State) (waiting : Nat) (p : List Byte) : Nat :=
  let c := if p.length = 476 ∧ zeros p 353 7 ∧ zeros p 376 4 then credentialCause s (p.take 256) else 1
  if 4 ≤ waiting then 1
  else if locked s then 2
  else if c ≠ 0 then 2 + c
  else if !Config.ecdsaVerify ((p.drop 56).take 97) (p.take 380) (p.drop 380) then 9
  else if (freeSession s).isNone then 10 else 0

/-- A session identity that is not 0 and differs from every open one: the first of `w`, `w` + 1, … (R415). -/
def freshId (s : State) : Nat → BitVec 32 → BitVec 32
  | 0, w => w
  | fuel + 1, w =>
    if w = 0 ∨ (List.finRange 16).any (fun (k : Fin 16) => (session s k).isSome && sessId s k == w) then
      freshId s fuel (w + 1)
    else w

/-- The bytes 0–367 of ACCEPT (R415). -/
def acceptBody (s : State) (e : Nat) (id : BitVec 32) (nonce pub : List Byte) : List Byte :=
  leBytes 4 id.toNat ++ fitBytes 16 nonce ++ fitBytes 97 pub ++ List.replicate 3 0 ++ leBytes 2 (lpBudget s e) ++
    leBytes 1 (s.fld Reg.RN_CTL F.RN_CTL_REC_ENC + 2 * s.fld Reg.RN_CTL F.RN_CTL_CROP_ENC) ++ List.replicate 5 0 ++
    fitBytes 240 Config.deviceCert

/-- A session opens in slot `k` (R415, R416). -/
def openSession (s : State) (port : Fin 8) (peer : BitVec 32) (k : Fin 16) (p : List Byte) : State :=
  let w := s.draw 32
  let id := freshId w.2 20 w.1
  let e := drawBytes 48 w.2
  let s := e.2
  let a := acceptBody s port id ((p.drop 360).take 16) (Config.ecPublic e.1)
  let keys := fitBytes 180 (Config.hkdf (Config.ecdh e.1 ((p.drop 256).take 97)) (hash48 (p ++ a)) [0x52, 0x4E, 0x52, 0x31] 180)
  let st := Reg.RN_SESS_STAT k
  let s := ((s.setFld st F.RN_SESS_STAT_STATE 1).setFld st F.RN_SESS_STAT_PORT port.val).setFld st F.RN_SESS_STAT_RIGHTS
    (recNat p 44 4)
  let s := ((s.setReg (Reg.RN_SESS_ID k) id).setReg (Reg.RN_SESS_PEER k) peer).setReg (Reg.RN_SESS_CRED k)
    (BitVec.ofNat 32 (recNat p 40 4))
  let s := setSession s k
    { keys := keys, cred := p.take 256, budget := lpBudget s port, high := 0, seen := [], lastAccept := s.now, rsp := 1, ntf := 1,
      recSeq := 1, crp := 1, kept := [], records := none, crops := none, events := none }
  let s := transmitPlain s port peer 0x02 (a ++ fitBytes 96 (Config.ecdsaSign Config.identitySecret (p ++ a)))
  raiseRn s port 2 1 k.val

/-- HELLO (R414–R416): answered with ACCEPT or REFUSE. RN_SESSION: 1 OPENED, 2 CLOSED, 3 REFUSED with the cause. -/
def execHello (port : Fin 8) (peer : BitVec 32) (waiting : Nat) (payload : List Byte) (s : State) :
    Host.Outcome State Fault Refusal :=
  if !s.ab.up ∨ !lpUp s port then .next s
  else
    let c := helloCause s waiting payload
    match freeSession s with
    | some k =>
      if c = 0 then .next (openSession s port peer k payload)
      else .next (raiseRn (transmitPlain s port peer 0x03 (fitBytes 16 ((payload.drop 360).take 16) ++ leBytes 2 c)) port 2 3 c)
    | none =>
      .next (raiseRn (transmitPlain s port peer 0x03 (fitBytes 16 ((payload.drop 360).take 16) ++ leBytes 2 c)) port 2 3 c)

end Sys2Proof.Machine
end

