-- ==== Sys2Proof/Machine/Commands.lean ====
section
/-!
DEFINITION. The operations of the Rener service and the ends of sessions (R417–R424): meanings of PING to ENROL,
SESSION_IDLE and CREDENTIAL_EXPIRY_CHECK.
-/

namespace Sys2Proof.Machine

/-! ## Plain operations (R420, R423) -/

/-- PING (R420): the body comes back. -/
def execPing (r : Request) (body : List Byte) (s : State) : Host.Outcome State Fault Refusal :=
  .next (runCommand 0x01 none r (fun _ s => if body.length ≤ 64 then (0, body, s) else (2, [], s)) s)

/-- CLOSE (R417, R420): the session ends after its response. -/
def execClose (r : Request) (body : List Byte) (s : State) : Host.Outcome State Fault Refusal :=
  .next (runCommand 0x02 none r (fun _ s => if body.isEmpty then (0, [], s) else (2, [], s)) s
    (fun k st s => if st = 0 then endSession s k 1 else s))

/-- An operation that is served as a command or as a query (R423). -/
def runVia (op : Nat) (v : Via) (f : State → Nat × List Byte × State) (s : State) : State :=
  match v with
  | .command r => runCommand op none r (fun _ s => f s) s
  | .query port peer reqId => runQuery op port peer reqId f s

/-- QUOTE (R385, R394, R420): LOCKED while the secrets are. -/
def execQuote (v : Via) (body : List Byte) (s : State) : Host.Outcome State Fault Refusal :=
  .next (runVia 0x03 v (fun s =>
    if body.length ≠ 48 then (2, [], s)
    else if locked s then (4, [], s)
    else (0, quoteBytes s body, s)) s)

/-- Up to 16 entries of the measurement log from `i` on (R384, R420). -/
def logBytes (s : State) (i : Nat) : List Byte :=
  ((s.ab.log.drop i).take 16).flatMap (fun e => leBytes 1 e.1 ++ leBytes 1 e.2.1 ++ fitBytes 48 e.2.2)

/-- LOG (R420). -/
def execLog (r : Request) (body : List Byte) (s : State) : Host.Outcome State Fault Refusal :=
  .next (runCommand 0x04 none r (fun _ s =>
    if body.length = 2 then (0, logBytes s (recNat body 0 2), s) else (2, [], s)) s)

/-- CERT (R420). -/
def execCert (v : Via) (body : List Byte) (s : State) : Host.Outcome State Fault Refusal :=
  .next (runVia 0x05 v (fun s => if body.isEmpty then (0, fitBytes 240 Config.deviceCert, s) else (2, [], s)) s)

/-! ## Windows (R13, R391, R421) -/

/-- The windows of R13 by row: first address and the address after the last. -/
def windowRows : List (Nat × Nat) :=
  [(0, 0x2000000000), (0x4000000000, 0x4000800000), (0x4100000000, 0x4111000000), (0x4180000000, 0x4191000000),
   (0x4200000000, 0x4211000000), (0x4280000000, 0x4291000000), (0x4300000000, 0x4310000000), (0x4310000000, 0x4320000000),
   (0x4400000000, 0x4410000000)] ++
  [(0x4500000000, 0x4510000000), (0x4600000000, 0x4604000000), (0x4640000000, 0x4650000000), (0x4700000000, 0x4710000000),
   (0x4710000000, 0x4720000000), (0x4720000000, 0x4730000000), (0x4800000000, 0x4810000000), (0x4900000000, 0x4910000000),
   (0x4F00000000, 0x4F01000000)]

/-- The whole range lies in one row whose bit is set in the mask at byte `i` of the session's credential. -/
def windowGranted (s : State) (k : Fin 16) (i a n : Nat) : Bool :=
  match session s k with
  | none => false
  | some x =>
    match windowRows.findIdx? (fun w => w.1 ≤ a && a + n ≤ w.2) with
    | none => false
    | some row => (recNat x.cred i 4).testBit row

/-- The access summary (R421). -/
def accessSummary (sts : List Nat) : List Byte :=
  let worst := sts.foldl max 0
  leBytes 2 worst ++ leBytes 2 (if worst = 0 then 0 else sts.idxOf worst)

/-- Word by word in ascending order, a read of `n` bytes: data and response statuses. -/
def renerRead (s : State) (a n : Nat) : List Byte × List Nat × State :=
  (List.range (n / 4)).foldl (fun (acc : List Byte × List Nat × State) i =>
    let r := busRead acc.2.2 (a + 4 * i) 4
    (acc.1 ++ r.1, acc.2.1 ++ [r.2.1], r.2.2)) ([], [], s)

/-- Word by word in ascending order, a write: response statuses. -/
def renerWrite (s : State) (a : Nat) (bs : List Byte) : List Nat × State :=
  (List.range (bs.length / 4)).foldl (fun (acc : List Nat × State) i =>
    let r := busWrite acc.2 0x7000 (a + 4 * i) ((bs.drop (4 * i)).take 4)
    (acc.1 ++ [r.1], r.2)) ([], s)

/-- READ (R421). -/
def execRead (r : Request) (body : List Byte) (s : State) : Host.Outcome State Fault Refusal :=
  let a := recNat body 0 5
  let n := recNat body 6 2
  .next (runCommand 0x10 (some 0) r (fun k s =>
    if body.length ≠ 8 ∨ a % 4 ≠ 0 ∨ n % 4 ≠ 0 ∨ n < 4 ∨ 1024 < n then (2, [], s)
    else if !windowGranted s k 48 a n then (3, [], s)
    else
      let w := renerRead s a n
      (0, accessSummary w.2.1 ++ w.1, w.2.2)) s)

/-- WRITE (R421). -/
def execWrite (r : Request) (body : List Byte) (s : State) : Host.Outcome State Fault Refusal :=
  let a := recNat body 0 5
  let n := recNat body 6 2
  .next (runCommand 0x11 (some 1) r (fun k s =>
    if body.length ≠ 8 + n ∨ a % 4 ≠ 0 ∨ n % 4 ≠ 0 ∨ n < 4 ∨ 1024 < n then (2, [], s)
    else if !windowGranted s k 52 a n then (3, [], s)
    else
      let w := renerWrite s a (body.drop 8)
      (0, accessSummary w.1, w.2)) s)

/-- WRITE_MASK (R421): the word is read, the bits of the mask replaced, and written. -/
def execWriteMask (r : Request) (body : List Byte) (s : State) : Host.Outcome State Fault Refusal :=
  let a := recNat body 0 5
  let v := BitVec.ofNat 32 (recNat body 8 4)
  let m := BitVec.ofNat 32 (recNat body 12 4)
  .next (runCommand 0x12 (some 1) r (fun k s =>
    if body.length ≠ 16 ∨ a % 4 ≠ 0 then (2, [], s)
    else if !windowGranted s k 52 a 4 then (3, [], s)
    else
      let q := busRead s a 4
      let old := BitVec.ofNat 32 (leNat q.1)
      let w := busWrite q.2.2 0x7000 a (leBytes 4 ((old &&& ~~~m) ||| (v &&& m)).toNat)
      (0, accessSummary [max q.2.1 w.1], w.2)) s)

/-! ## Streams open and close (R424) -/

/-- The right that a stream kind needs. -/
def kindRight (body : List Byte) : Option Nat :=
  let c := recNat body 0 1
  if c = 1 ∨ c = 4 then some 2 else if c = 2 then some 3 else if c = 3 then some 4 else none

def freshRecords (dest : BitVec 16) : RecStream := ⟨dest, false, false, 0, 0, 1, [], 1, 1, [], none, false, 0, 0⟩

/-- A stream of a kind opens, or replaces the one of that kind, which keeps its queue and sequence numbers (R424). -/
def subscribe (x : Session) (body : List Byte) : Session :=
  let dest := BitVec.ofNat 16 (recNat body 2 2)
  match recNat body 0 1 with
  | 1 => { x with records := some { (x.records.getD (freshRecords dest)) with dest := dest, records := true } }
  | 4 => { x with records := some { (x.records.getD (freshRecords dest)) with
      dest := dest, lines := true, domains := BitVec.ofNat 16 (recNat body 8 2), decimate := BitVec.ofNat 16 (recNat body 10 2) } }
  | 2 => { x with crops := some { (x.crops.getD ⟨dest, 1, []⟩) with dest := dest } }
  | _ => { x with events := some { (x.events.getD ⟨dest, 0, 0, 1, [], 0, 0⟩) with
      dest := dest, first := BitVec.ofNat 16 (recNat body 4 2), last := BitVec.ofNat 16 (recNat body 6 2) } }

/-- The body of SUBSCRIBE is within its ranges. -/
def subscribeGood (body : List Byte) : Bool :=
  let c := recNat body 0 1
  body.length == 12 && 1 ≤ c && c ≤ 4 &&
    (c != 3 || (recNat body 4 2 ≤ recNat body 6 2 && recNat body 6 2 ≤ 1023)) && (c != 4 || recNat body 10 2 != 0)

/-- SUBSCRIBE (R424). -/
def execSubscribe (r : Request) (body : List Byte) (s : State) : Host.Outcome State Fault Refusal :=
  .next (runCommand 0x20 (kindRight body) r (fun k s =>
    if !subscribeGood body then (2, [], s)
    else match session s k with
      | none => (2, [], s)
      | some x => (0, [], showSubs (setSession s k (subscribe x body)) k)) s)

/-- The stream of a kind closes; a crop stream gives up its claims on the crop store (R420, R249). -/
def unsubscribe (s : State) (k : Fin 16) (x : Session) (kind : Nat) : State :=
  let keep (f : RecStream → RecStream) : State :=
    let t := x.records.map f
    setSession s k { x with records := t.filter (fun (r : RecStream) => r.records || r.lines) }
  if kind = 1 then keep (fun r => { r with records := false })
  else if kind = 4 then keep (fun r => { r with lines := false })
  else if kind = 2 then dropClaims (setSession s k { x with crops := none }) k
  else setSession s k { x with events := none }

/-- UNSUBSCRIBE (R420). -/
def execUnsubscribe (r : Request) (body : List Byte) (s : State) : Host.Outcome State Fault Refusal :=
  let kind := recNat body 0 1
  .next (runCommand 0x21 none r (fun k s =>
    if body.length ≠ 1 ∨ kind < 1 ∨ 4 < kind then (2, [], s)
    else match session s k with
      | none => (2, [], s)
      | some x => (0, [], showSubs (unsubscribe s k x kind) k)) s)

/-! ## Debug and ownership over Rener (R388, R389, R392–R395) -/

/-- DBG_CHALLENGE (R393): 16 random bytes, valid for 60 s and one use. -/
def execDbgChallenge (r : Request) (body : List Byte) (s : State) : Host.Outcome State Fault Refusal :=
  .next (runCommand 0x30 (some 8) r (fun _ s =>
    if !body.isEmpty then (2, [], s)
    else
      let d := drawBytes 16 s
      let s := modifyAb d.2 (fun a => { a with challenge := some (d.1, s.now) })
      (0, d.1, raiseDebug s 1)) s)

/-- DBG_TOKEN (R393, R394). -/
def execDbgToken (r : Request) (body : List Byte) (s : State) : Host.Outcome State Fault Refusal :=
  .next (runCommand 0x31 (some 8) r (fun _ s =>
    let t := presentToken s body
    if t.1 = 0 then (0, [], t.2) else (6, leBytes 2 t.1, t.2)) s)

/-- DBG_CLOSE (R395). -/
def execDbgClose (r : Request) (body : List Byte) (s : State) : Host.Outcome State Fault Refusal :=
  .next (runCommand 0x32 (some 8) r (fun _ s => if body.isEmpty then (0, [], closeDebug s) else (2, [], s)) s)

/-- Every session whose CRED_NO lies below the floor ends (R392). -/
def endBelowFloor (s : State) (v : Nat) : State :=
  (List.finRange 16).foldl (fun s (k : Fin 16) =>
    if (s.reg (Reg.RN_SESS_CRED k)).toNat < v then endSession s k 4 else s) s

/-- SET_FLOOR (R392, R420, R435): the response is sent, then sessions below the new floor end. The cause of a refusal is not
stated: a free value. -/
def execSetFloor (r : Request) (body : List Byte) (s : State) : Host.Outcome State Fault Refusal :=
  let v := recNat body 0 4
  .next (runCommand 0x40 (some 7) r (fun _ s =>
    if body.length ≠ 4 then (2, [], s)
    else if v < (credentialFloor s).toNat then
      let d := s.draw 16
      (6, leBytes 2 d.1.toNat, d.2)
    else (0, [], writeGeneration s (fun g => { g with floor := BitVec.ofNat 32 v }))) s
    (fun _ st s => if st = 0 then endBelowFloor s v else s))

/-- OWNER_RELEASE (R389): the response is sent before the reset. The cause of a refusal is not stated: a free value. -/
def execOwnerRelease (r : Request) (body : List Byte) (s : State) : Host.Outcome State Fault Refusal :=
  .next (runCommand 0x41 (some 7) r (fun _ s =>
    if body.length ≠ 128 then (2, [], s)
    else if anyLease s ∨ !releaseGood s body then
      let d := s.draw 16
      (6, leBytes 2 d.1.toNat, d.2.raise 994 (payCause 3 d.1.toNat))
    else (0, [], s)) s
    (fun _ st s => if st = 0 then release s else s))

/-- ENROL (R387, R388, R423): a query, refused with the R388 cause. -/
def execEnrol (port : Fin 8) (peer : BitVec 32) (reqId : BitVec 32) (body : List Byte) (s : State) :
    Host.Outcome State Fault Refusal :=
  .next (runQuery 0x50 port peer reqId (fun s =>
    if body.length ≠ 448 then (2, [], s)
    else
      let e := enrol s body
      if e.1 = 0 then (0, [], e.2) else (6, leBytes 2 e.1, e.2)) s)

/-! ## Ends of sessions (R392, R417) -/

/-- SESSION_IDLE (R417): no datagram has been accepted for 30 s. -/
def execSessionIdle (k : Fin 16) (s : State) : Host.Outcome State Fault Refusal :=
  match session s k with
  | none => .next s
  | some x => .next (if x.lastAccept.toNat + 30000000000 ≤ s.now.toNat then endSession s k 2 else s)

/-- CREDENTIAL_EXPIRY_CHECK (R392): sessions whose credentials have expired end. -/
def execCredentialExpiryCheck (s : State) : Host.Outcome State Fault Refusal :=
  if !s.flag Reg.TM_STAT F.TM_STAT_EPOCH_SET then .next s
  else .next ((List.finRange 16).foldl (fun s (k : Fin 16) =>
    match session s k with
    | none => s
    | some x => if recNat x.cred 32 8 < ptpSeconds s then endSession s k 3 else s) s)

end Sys2Proof.Machine
end

