-- ==== Sys2Proof/Machine/Deliver.lean ====
section
/-!
DEFINITION. The delivery of a causeway packet (R288, R289, R291, R295–R299): its route past the probes, what its
destination router absorbs, and what a delivered packet does at its endpoint.
-/

namespace Sys2Proof.Machine

/-! ## The route (R285, R299, R467) -/

/-- The output port of router `r` for destination router `d` in the tables of an epoch (R299). -/
def tableOut (s : State) (epoch : Bool) (r d : Nat) : Nat :=
  ((s.reg (Reg.RT_TABLE r epoch.toNat (d / 8))).toNat >>> (4 * (d % 8))) % 16

/-- The output port by dimension order: first along x, then along y. -/
def orderOut (r d : Nat) : Nat :=
  if r % 8 < d % 8 then 1 else if d % 8 < r % 8 then 3 else if r / 8 < d / 8 then 0 else 2

/-- The neighbour at an output port and the input port there: N 0, E 1, S 2, W 3. -/
def linkTo (r out : Nat) : Option (Nat × Nat) :=
  if out = 0 then (if r + 8 < 48 then some (r + 8, 2) else none)
  else if out = 1 then (if r % 8 < 7 then some (r + 1, 3) else none)
  else if out = 2 then (if 8 ≤ r then some (r - 8, 0) else none)
  else if out = 3 then (if 0 < r % 8 then some (r - 1, 1) else none)
  else none

/-- The routers that a head passes after router `r`, each with the input port. -/
def hopsFrom (s : State) (p : Packet) (d : Nat) : Nat → Nat → List (Nat × Nat)
  | 0, _ => []
  | fuel + 1, r =>
    if r = d then []
    else
      match linkTo r (if p.cls = 0 then orderOut r d else tableOut s p.epoch r d) with
      | none => []
      | some h => h :: hopsFrom s p d fuel h.1

/-- Every router and input port on the way of a packet. -/
def hopsOf (s : State) (p : Packet) : List (Nat × Nat) :=
  let r := routerOf s p.src
  (r, 4 + s.fld (Reg.CW_EP_STAT p.src) F.CW_EP_STAT_PORT) :: hopsFrom s p (routerOf s p.dst) 48 r

/-! ## What is absorbed (R288) -/

/-- A reserved KIND or STATUS, or LEN out of its kind's range (R288). -/
def malformed (p : Packet) : Bool :=
  let l := p.len.toNat
  if 6 ≤ p.kind.toNat || 5 ≤ p.status.toNat then true
  else if p.kind = 0 then l != 0 || p.count == 0 || 512 < p.count
  else if p.kind = 1 then l != (p.count + 31) / 32 || p.count == 0 || 512 < p.count
  else if p.kind = 2 then 15 < l
  else if p.kind = 3 then l != 0
  else p.kind == 4 && p.cls == 0 && l != 0

/-! ## Causeway accesses of the Keepers (R323) -/

/-- A class-2 READ or WRITE of Keeper `k`, at the endpoint of its address; the alias endpoint takes what no window holds. -/
def keeperPacket (s : State) (k : Fin 4) (write : Bool) (a n : Nat) (bs : List Byte) : Packet :=
  let me : Fin 80 := ⟨39 + k.val, by omega⟩
  { src := me, dst := Fin.ofNat 80 ((unitOf s a).getD 78), cls := 2, kind := if write then 1 else 0,
    len := if write then 1 else 0, status := 0, epoch := false, dtag := 0xFFFF, stag := epTag s me, txn := (keeper s k).txn,
    addr := BitVec.ofNat 40 a, count := n, data := bs }

/-- The access leaves; a store is posted, a load is waited for. -/
def keeperSend (s : State) (k : Fin 4) (write : Bool) (a n : Nat) (bs : List Byte) : State :=
  let x := keeper s k
  let s' := offerPacket s (keeperPacket s k write a n bs)
  setKeeper s' k { x with txn := x.txn + 1, wait := if write then x.wait else some x.txn,
                          posted := if write then x.posted ++ [x.txn] else x.posted }

/-- A store of a standard handler: posted, or kept while 8 are outstanding. -/
def keeperPost (s : State) (k : Fin 4) (a : Nat) (bs : List Byte) : State :=
  let x := keeper s k
  if 8 ≤ x.posted.length then setKeeper s k { x with todo := x.todo ++ [(a, bs)] } else keeperSend s k true a bs.length bs

/-- A response to Keeper `k` (R323): the data of the load that waits, whatever its STATUS; or the end of a posted store, whose
slot a kept one takes. -/
def keeperAnswer (s : State) (k : Fin 4) (p : Packet) : State :=
  let x := keeper s k
  if p.kind = 2 ∧ x.wait = some p.txn then setKeeper s k { x with wait := none, reads := x.reads ++ [leNat p.data] }
  else
    let s := setKeeper s k { x with posted := x.posted.erase p.txn, todo := x.todo.drop 1 }
    match x.todo with
    | [] => s
    | w :: _ => keeperSend s k true w.1 w.2.length w.2

/-! ## What a delivered packet does -/

/-- A response reaches its requester (R98, R103, R295, R323): one that is no longer expected is counted. -/
def deliverResponse (s : State) (p : Packet) : State :=
  if !s.cw.txns.contains (p.dst, p.txn) then probeStray s p.dst
  else
    let s := modifyCw s (fun c => { c with txns := c.txns.erase (p.dst, p.txn) })
    if h : p.dst.val < 17 then
      let n : Fin 17 := ⟨p.dst.val, h⟩
      let c := s.ctl n
      match c.lsuPier with
      | some l =>
        if l.txn = p.txn ∧ p.kind = 2 then
          s.setCtl n { c with lsuPier := none, lsuWait := 0, lsuR := loadExtend l.code (leNat p.data) }
        else s.setCtl n { c with stores := c.stores.filter (fun t => t.1 != p.txn) }
      | none => s.setCtl n { c with stores := c.stores.filter (fun t => t.1 != p.txn) }
    else if h : 39 ≤ p.dst.val ∧ p.dst.val < 43 then keeperAnswer s ⟨p.dst.val - 39, by omega⟩ p
    else modifyCw s (fun c => { c with answer := some p })

/-- A request reaches its endpoint (R288, R295): piers and DDR5 controllers queue it, the alias endpoint resolves an alias,
and any other unit answers it. An address that the endpoint does not serve is answered with UNMAPPED and counted. -/
def deliverRequest (s : State) (p : Packet) : State :=
  let a := p.addr.toNat
  if inPiers a ∧ p.dst.val = 52 + pierOf a then
    let k : Fin 16 := Fin.ofNat 16 (pierOf a)
    setPier s k { pierAt s k with waiting := (pierAt s k).waiting ++ [⟨p, 0, [], false⟩] }
  else if a < 0x2000000000 ∧ 44 ≤ p.dst.val ∧ p.dst.val < 52 then
    let c := p.dst.val - 44
    setDdr s c { ddrCtl s c with waiting := (ddrCtl s c).waiting ++ [⟨p, 0, [], false⟩] }
  else if p.dst = 78 ∧ (aliasAt a).isSome then aliasForward s p
  else if unitOf s a ≠ some p.dst.val then absorb (probeStray s p.dst) p 1
  else if p.kind = 0 then
    let r := unitRead s p.dst a p.count
    answerPacket r.2.2 p (BitVec.ofNat 3 r.2.1) r.1
  else
    let r := unitWrite s p.stag p.dst a (p.data.take p.count)
    answerPacket r.2 p (BitVec.ofNat 3 r.1) []

/-- A message reaches its endpoint (R121, R291): class 0 enters the inbox of 64 entries, or is absorbed, counted and raised. The
words of a span's merger wait for the tracker's intake (R206). -/
def deliverMessage (s : State) (p : Packet) : State :=
  if h : p.kind = 5 ∧ p.dst = 34 ∧ p.src.val < 17 then
    let m : Fin 17 := ⟨p.src.val, h.2.2⟩
    s.setExt m { s.ext m with sent := (s.ext m).sent ++ packetWords p }
  else if p.cls ≠ 0 then modifyCw s (fun c => { c with msgs := c.msgs ++ [p] })
  else if 64 ≤ (s.cw.c0.filter (fun q => q.dst == p.dst)).length then
    (s.bump (Reg.PRB_C0_DROP p.dst) F.PRB_C0_DROP_COUNT).raise 833 0
  else modifyCw s (fun c => { c with c0 := c.c0 ++ [p] })

/-- A packet reaches its endpoint. -/
def takePacket (s : State) (p : Packet) : State :=
  if p.kind = 0 ∨ p.kind = 1 then deliverRequest s p
  else if p.kind = 2 ∨ p.kind = 3 then deliverResponse s p
  else deliverMessage s p

/-- The destination router delivers or absorbs a packet (R288, R295). One for the abutment die crosses the die-to-die link, or
waits in the module while that is not up (R397, R398). -/
def settlePacket (s : State) (p : Packet) : State :=
  if epCut s p.dst then absorb (probeIso s p.dst) p 2
  else if malformed p then probeStray s p.dst
  else if p.dtag ≠ 0xFFFF ∧ p.dtag ≠ epTag s p.dst then absorb (probeStale s p.dst) p 3
  else if p.dst ≠ 77 then takePacket s p
  else if linkUp s then takePacket (crossFlits s 0 (linkFlits s p)) p
  else modifyWay s 0 (fun w => { w with worms := w.worms ++ [p] })

/-! ## The command -/

/-- No earlier packet of the same class, source, destination and epoch is among those given (R289). -/
def nextInOrder (ps : List Packet) (p : Packet) : Bool :=
  !ps.any (fun q => q.src == p.src && q.dst == p.dst && q.cls == p.cls && q.epoch == p.epoch)

/-- The routers lead a head to the router of its destination (R299). -/
def routeReaches (s : State) (p : Packet) : Bool :=
  ((hopsOf s p).getLast?.map (·.1)) == some (routerOf s p.dst)

/-- Position `k` of the packets in flight may reach its destination: nothing sent before it on its way is left (R289), and its
route leads there. -/
def mayArrive (s : State) (k : Nat) : Option Packet :=
  (s.cw.net[k]?).bind (fun p => if nextInOrder (s.cw.net.take k) p && routeReaches s p then some p else none)

/-! ## The choice of an output (R290) -/

/-- A head at an output: its place among the packets in flight, its input port, the packet. -/
structure AtOutput where
  at' : Nat
  port : Fin 8
  packet : Packet
deriving DecidableEq, Repr

/-- One class-0 head comes before another: the earlier mesh stamp modulo 256, equal stamps by input port. -/
def AtOutput.before (a b : AtOutput) : Bool :=
  if a.packet.txn = b.packet.txn then a.port < b.port else (b.packet.txn - a.packet.txn).toNat < 128

/-- The class-0 head that wins. -/
def firstStamp : List AtOutput → Option AtOutput
  | [] => none
  | a :: r => match firstStamp r with
    | none => some a
    | some b => some (if b.before a then b else a)

/-- The class of a turn of the weighted round robin, and its weight in flits. -/
def turnClass (t : Nat) : BitVec 2 := if t % 3 = 0 then 1 else if t % 3 = 1 then 3 else 2
def turnWeight (s : State) (t : Nat) : Nat :=
  s.fld Reg.CW_WRR (if t % 3 = 0 then F.CW_WRR_W1 else if t % 3 = 1 then F.CW_WRR_W3 else F.CW_WRR_W2)

/-- The head that the weighted round robin chooses, with the turn and the flits left of it afterwards: the present turn while
flits are left of it, then the others in order. A worm is granted as a whole, and of one class the head at the lowest
input port goes first (assumption log, entry 102). -/
def roundRobin (s : State) (turn : Nat × Nat) (hs : List AtOutput) : Option (AtOutput × Nat × Nat) :=
  (List.range 4).findSome? (fun d =>
    let t := (turn.1 + d) % 3
    let left := if d = 0 then turn.2 else turnWeight s t
    let mine := hs.filter (fun h => h.packet.cls == turnClass t)
    if d = 0 && left = 0 then none
    else match (List.finRange 8).findSome? (fun q => mine.find? (fun h => h.port == q)) with
      | none => none
      | some h => some (h, t, left - (1 + h.packet.len.toNat)))

/-- The head that the output to endpoint `e` grants (R290), with the round robin after it: a class-0 head always wins. -/
def grantHead (s : State) (e : Fin 80) (hs : List AtOutput) : Option (AtOutput × Nat × Nat) :=
  match firstStamp (hs.filter (fun h => h.packet.cls == 0)) with
  | some h => some (h, s.cw.turns[e])
  | none => roundRobin s s.cw.turns[e] hs

/-! ## The command -/

/-- An uncorrectable flit counts against the link into port `q` of router `r`; LINK_LIMIT of them within 1 s make the link due to be
avoided (R462). -/
def noteLinkError (s : State) (r q : Nat) : State :=
  let recent := s.fh.linkErrs.filter (fun e => s.now.toNat < e.2.2.toNat + 1000000000) ++ [(r, q, s.now)]
  let n := (recent.filter (fun e => e.1 == r && e.2.1 == q)).length
  let due := s.fh.linkDue.contains (r, q) || n < s.fld Reg.FH_CTL F.FH_CTL_LINK_LIMIT
  { s with fh := { s.fh with linkErrs := recent, linkDue := if due then s.fh.linkDue else s.fh.linkDue ++ [(r, q)] } }

/-- The worm passes its routers (R298, R467) and ends at its destination: every corrected error is raised, and so is every
uncorrectable one, which makes the destination discard the packet. -/
def runWorm (s : State) (p : Packet) (errs : List LinkError) : State :=
  let corrected (h : Nat × Nat) : Bool := errs.any (fun e => match e with
    | .corrected r q => h.1 == r.val && h.2 == q.val
    | _ => false)
  let s := (hopsOf s p).foldl (probeHead p corrected) s
  let s := errs.foldl (fun s e => match e with
    | .corrected r q => s.raise 834 (payCause 0 r q)
    | .uncorrectable r q => (noteLinkError s r q).raise 835 (payCause 0 r q)) s
  let poisoned := errs.any (fun e => match e with
    | .uncorrectable _ _ => true
    | _ => false)
  if !poisoned then settlePacket s p
  else if epCut s p.dst then probeIso s p.dst else (probeStray s p.dst).raise 837 0

/-- The packet at place `k` reaches its endpoint's output: while the endpoint is DRAINING, a head that has not been granted, or
that follows one waiting, waits at the router (R289, R296). -/
def arrive (s : State) (k : Nat) (p : Packet) (granted : Bool) (errs : List LinkError) : State :=
  let s := modifyCw s (fun c => { c with net := c.net.eraseIdx k })
  if epState s p.dst = 1 ∧ !(granted && nextInOrder s.cw.held p) then
    modifyCw s (fun c => { c with held := c.held ++ [p] })
  else refreshDrain (runWorm s p errs)

/-- CAUSEWAY_DELIVERY (R290, R295): of the heads at an endpoint's output the router grants one, which is delivered or absorbed
there; or a unit offers a packet, which is delivered once it has entered the mesh and nothing stands before it. -/
def execCausewayDelivery (src : PacketFrom) (granted : Bool) (errs : List LinkError) (s : State) :
    Host.Outcome State Fault Refusal :=
  match src with
  | .unit p =>
    if epState s p.src ≠ 0 then .next s
    else
      let n := s.cw.net.length
      let s := offerPacket s p
      match mayArrive s n with
      | none => .next s
      | some q => .next (arrive s n q granted errs)
  | .flight heads =>
    let hs := heads.filterMap (fun h => (mayArrive s h.1).map (fun p => (⟨h.1, h.2, p⟩ : AtOutput)))
    match hs with
    | [] => .next s
    | h :: _ =>
      let e := h.packet.dst
      match grantHead s e (hs.filter (fun x => x.packet.dst == e)) with
      | none => .next s
      | some (w, t) =>
        .next (arrive (modifyCw s (fun c => { c with turns := c.turns.set e t })) w.at' w.packet granted errs)

end Sys2Proof.Machine
end

