-- ==== Sys2Proof/Machine/Keeper.lean ====
section
/-!
DEFINITION. The instructions of the Keepers (R315–R326, R331), the standard handlers (R337, R499, R505) with the dispatch
(R331, R332), and the replacement of the owner block (R328). A row of the table executes the word at `KP_PC` where its operation
is the row's.
-/

namespace Sys2Proof.Machine

/-! ## Instruction words (R318, R319) -/

structure KeeperWord where
  op : Nat
  mode : Nat
  sel : Nat
  disp : BitVec 16
deriving DecidableEq, Repr

def KeeperWord.ofNat (v : Nat) : KeeperWord :=
  ⟨bits v 31 24, bits v 23 22, bits v 19 16, BitVec.ofNat 16 v⟩

/-- Sign-extended and zero-extended DISP. -/
def KeeperWord.simm (i : KeeperWord) : BitVec 32 := i.disp.signExtend 32
def KeeperWord.uimm (i : KeeperWord) : BitVec 32 := i.disp.setWidth 32

/-- The operations of R319. -/
def keeperOps : List Nat :=
  (List.range 0x6D).filter (fun o => (1 ≤ o && o ≤ 0x0D) || (0x10 ≤ o && o ≤ 0x1E) || (0x30 ≤ o && o ≤ 0x3E) ||
    (0x40 ≤ o && o ≤ 0x46) || o == 0x48 || o == 0x4E || o == 0x4F || (0x50 ≤ o && o ≤ 0x59) || (0x60 ≤ o && o ≤ 0x67)) ++
    [0x6F]

/-- The effective address (R317). -/
def keeperEa (s : State) (k : Fin 4) (i : KeeperWord) : BitVec 32 :=
  let x := keeper s k
  if i.mode = 0 then i.uimm + (if kpOwner s k then 0x20000 else 0)
  else if i.mode = 1 then x.x + i.simm else if i.mode = 2 then x.y + i.simm else x.x + x.y + i.simm

/-! ## Memory accesses (R316, R323, R326) -/

/-- Where a Keeper address leads. -/
inductive KeeperSite
  | local' (a : Nat)
  | control (a : Nat)
  | causeway (a : Nat)
  | unmapped
deriving DecidableEq, Repr

def keeperSite (s : State) (k : Fin 4) (a : Nat) : KeeperSite :=
  let own := kpOwner s k
  let at' (r : Nat) : KeeperSite := .causeway (s.fld r F.KP_WIN0_BASE * 2 ^ 30 + a % 2 ^ 30)
  if a < 0x40000 then .local' a
  else if a < 0x40100 then .control a
  else if 0x40000000 ≤ a ∧ a < 0x80000000 then at' (if own then Reg.KP_OWIN0 k else Reg.KP_WIN0 k)
  else if 0x80000000 ≤ a ∧ a < 0xC0000000 then at' (if own then Reg.KP_OWIN1 k else Reg.KP_WIN1 k)
  else .unmapped

def strayKp (s : State) (k : Nat) : State := s.bump (Reg.KP_STRAY k) F.KP_STRAY_ADDR
def deniedKp (s : State) (k : Nat) : State := s.bump (Reg.KP_STRAY k) F.KP_STRAY_DENIED

/-- A causeway address lies in an enabled range of `KP_ORANGE` (R326). -/
def inOwnerRange (s : State) (k a : Nat) : Bool :=
  (List.range 8).any (fun j => s.flag (Reg.KP_ORANGE_LO k j) F.KP_ORANGE_LO_EN &&
    s.fld (Reg.KP_ORANGE_LO k j) F.KP_ORANGE_LO_START ≤ a / 2 ^ 16 && a / 2 ^ 16 ≤ s.fld (Reg.KP_ORANGE_HI k j) F.KP_ORANGE_HI_END)

/-- The address of an access with its low bits cleared (R323), and the count of a misaligned one. -/
def alignKp (s : State) (k : Fin 4) (a : BitVec 32) (n : Nat) : Nat × State :=
  let v := a.toNat
  if v % n = 0 then (v, s) else (v - v % n, strayKp s k)

/-- A causeway access that the mode allows goes to causeway address `c` (R326). -/
def causewaySite (s : State) (k : Fin 4) (a : Nat) : Option Nat :=
  match keeperSite s k a with
  | .causeway c => if kpOwner s k ∧ !inOwnerRange s k c then none else some c
  | _ => none

/-- A read of `n` bytes that does not go to the causeway: the value, whether local memory had a double-bit error, and the
state. -/
def keeperRead (s : State) (k : Fin 4) (a n : Nat) : Nat × Bool × State :=
  match keeperSite s k a with
  | .local' a =>
    if kpOwner s k ∧ a < 0x20000 then (0, false, deniedKp s k)
    else (let r := localCheck s k a; (localValue r.2 k a n, r.1, r.2))
  | .control a =>
    match windowAt (Win.keeper k + a / 4 * 4) with
    | .register _ => ((s.reg (Win.keeper k + a / 4 * 4)).toNat / 2 ^ (8 * (a % 4)) % 2 ^ (8 * n), false, s)
    | _ => (0, false, strayKp s k)
  | .causeway _ => (0, false, deniedKp s k)
  | .unmapped => (0, false, strayKp s k)

/-- A write of the `n` low bytes of `v` that does not go to the causeway. -/
def keeperStore (s : State) (k : Fin 4) (a n v : Nat) : State :=
  match keeperSite s k a with
  | .local' a => if kpOwner s k ∧ a < 0x20000 then deniedKp s k else localWrite s k a n v
  | .control a =>
    let r := Win.keeper k + a / 4 * 4
    let free := r = Reg.KP_OWIN0 k ∨ r = Reg.KP_OWIN1 k ∨ r = Reg.KP_STAT k
    if kpOwner s k ∧ ¬free then deniedKp s k
    else
      let w := wordWrite s (epTag s (39 + k.val)) (Win.keeper k + a) (leBytes n v)
      if w.1 = 1 then strayKp w.2 k else w.2
  | .causeway _ => deniedKp s k
  | .unmapped => strayKp s k

/-- A value read is used; a double-bit error in a handler abandons it (R323). A causeway read is sent from the state `s0` in which
the instruction has not executed, and the instruction waits; once the data is there it executes with it. -/
def useRead (s0 s : State) (k : Fin 4) (addr : BitVec 32) (n : Nat) (f : Nat → State → State) : State :=
  let (a, t) := alignKp s k addr n
  match causewaySite s k a with
  | none =>
    let (v, bad, t) := keeperRead t k a n
    if bad ∧ 2 ≤ kpLevel t k then abandon t k else f v t
  | some c =>
    match (keeper s k).reads with
    | v :: r => f v (setKeeper s k { keeper s k with reads := r })
    | [] => if (keeper s0 k).wait.isSome then s0 else keeperSend (alignKp s0 k addr n).2 k false c n []

/-- A store: to the causeway it is posted, and a ninth one outstanding waits (R323). -/
def useStore (s0 s : State) (k : Fin 4) (addr : BitVec 32) (n v : Nat) : State :=
  let (a, t) := alignKp s k addr n
  match causewaySite s k a with
  | none => keeperStore t k a n v
  | some c => if 8 ≤ (keeper s k).posted.length then s0 else keeperSend t k true c n (leBytes n v)

/-! ## Fetch (R318, R322, R325) -/

/-- `a` lies in the code area of the current mode. -/
def inCodeArea (s : State) (k : Fin 4) (a : Nat) : Bool :=
  if kpOwner s k then 0x20000 ≤ a && a < 0x40000 else a < 0x20000

/-- A word executes as a no-operation that is counted (R322). -/
def illegalWord (s : State) (k : Fin 4) (i : KeeperWord) : Bool :=
  !keeperOps.contains i.op || (i.op == 0x60 && i.sel == 15) || (i.op == 0x65 && kpLevel s k != 1) ||
    (i.op == 0x64 && kpLevel s k == 1)

def countIllegal (s : State) (k : Nat) : State := s.bump (Reg.KEEPER_ILLEGAL k) F.KEEPER_ILLEGAL_COUNT

/-- The standard handlers (R337): vectors 2–5 on K0–K2, and 6 on K2. -/
def standardVector (k : Fin 4) (v : Nat) : Bool := k != 3 && 2 ≤ v && (v ≤ 5 || (v == 6 && k == 2))

/-- The Keeper runs the standard firmware's BASE program or one of its handlers (R337, R505): what those do is given by the rules,
not by words of the local memory. -/
def runsStandard (s : State) (k : Fin 4) : Bool :=
  (keeper s k).firm && !kpOwner s k &&
    (kpLevel s k == 1 || (2 ≤ kpLevel s k && standardVector k (s.fld (Reg.KP_STAT k) F.KP_STAT_VEC)))

/-- An instruction has executed: nothing is kept of its reads, and a Keeper whose RUN has gone to 0 stops (R339). -/
def endInstruction (k : Fin 4) (s : State) : State :=
  if (keeper s k).wait.isSome then s
  else
    let s := setKeeper s k { keeper s k with reads := [] }
    if kpRun s k ∨ kpLevel s k = 0 then s else haltKeeper s k

/-- One instruction of Keeper `k` where its word is one that `p` names: a fetch outside the code area or with a double-bit
error abandons the handler (R323, R325); else `f` gets the word, the state before it and the state with PC advanced. -/
def keeperStep (k : Fin 4) (ups : List Upset) (p : State → KeeperWord → Bool) (f : KeeperWord → State → State → State)
    (s0 : State) : State :=
  let s := applyUpsets s0 ups
  let pc := (kpPc s k).toNat
  if (!kpRun s k ∧ !inAccess s k) ∨ s.flag (Reg.KP_STAT k) F.KP_STAT_WAITING ∨ runsStandard s k then s0
  else if !inCodeArea s k pc then abandon (raiseKp s k 2) k
  else
    let r := localCheck s k pc
    if r.1 then abandon r.2 k
    else
      let i := KeeperWord.ofNat (localValue r.2 k pc 4)
      if p r.2 i then endInstruction k (f i r.2 (setKpPc r.2 k (kpPc r.2 k + 4))) else s0

/-- A row of operations that are legal words. -/
def ops (l : List Nat) (s : State) (k : Fin 4) (i : KeeperWord) : Bool := l.contains i.op && !illegalWord s k i

/-! ## Registers and flags -/

/-- Flags with those of `mask` set to `v`: bits 0 C, 1 V, 2 Z, 3 N. -/
def putF (old mask v : BitVec 4) : BitVec 4 := (old &&& ~~~mask) ||| (v &&& mask)

/-- Z and N of a result. -/
def znOf (v : BitVec 32) : BitVec 4 := BitVec.ofBool v.msb ++ BitVec.ofBool (v == 0) ++ (0 : BitVec 2)

/-- A takes a result that sets Z and N, and the flags `f` of `mask` too. -/
def setAcc (s : State) (k : Fin 4) (v : BitVec 32) (mask f : BitVec 4 := 0) : State :=
  let x := keeper s k
  setKeeper s k { x with a := v, f := putF x.f (mask ||| 12) (f ||| znOf v) }

def cvOf (c v : Bool) : BitVec 4 := (0 : BitVec 2) ++ BitVec.ofBool v ++ BitVec.ofBool c

/-- The sum of A, `m` and a carry, with C and V (R321). -/
def keeperAdd (a m : BitVec 32) (c : Bool) : BitVec 32 × BitVec 4 :=
  (a + m + (if c then 1 else 0), cvOf (carryOut 32 a m c) (outOfRange 32 (a.toInt + m.toInt + c.toInt)))

/-- The difference of A, `m` and a borrow; C is 1 when nothing is borrowed. -/
def keeperSub (a m : BitVec 32) (b : Bool) : BitVec 32 × BitVec 4 :=
  (a - m - (if b then 1 else 0), cvOf (m.toNat + b.toNat ≤ a.toNat) (outOfRange 32 (a.toInt - m.toInt - b.toInt)))

/-- `m` of R319: the word at EA, or sign-extended DISP. -/
def withOperand (k : Fin 4) (i : KeeperWord) (s0 s : State) (f : BitVec 32 → State → State) : State :=
  if i.op < 0x20 then useRead s0 s k (keeperEa s k i) 4 (fun v s => f (BitVec.ofNat 32 v) s) else f i.simm s

/-- An operation of R99 on A and `m` that sets Z and N, and for a division V and the sticky DZ. -/
def keeperAlu (s : State) (k : Fin 4) (code : Nat) (m : BitVec 32) : State :=
  match spanAlu code (keeper s k).a m with
  | none => s
  | some r =>
    let s := if r.mask.getLsbD 2 && r.flags.getLsbD 2 then s.setFld (Reg.KP_STAT k) F.KP_STAT_DZ 1 else s
    if 23 ≤ code ∧ code ≤ 26 then setAcc s k r.value 2 (cvOf false (r.mask.getLsbD 1 && r.flags.getLsbD 1))
    else setAcc s k r.value

/-- PC takes a target inside local memory; any other does not take place and is counted (R325). -/
def jumpTo (s : State) (k : Fin 4) (target : BitVec 32) : State :=
  if target.toNat < 0x40000 then setKpPc s k (target &&& 0xFFFFFFFC) else countIllegal s k

/-! ## Stack (R324, R325) -/

/-- The register that mask bit `b` names: 0 A, 1 X, 2 Y, 3 F. -/
def maskReg (x : Keeper) (b : Nat) : BitVec 32 :=
  if b = 0 then x.a else if b = 1 then x.x else if b = 2 then x.y else x.f.setWidth 32

def setMaskReg (x : Keeper) (b : Nat) (v : BitVec 32) : Keeper :=
  if b = 0 then { x with a := v } else if b = 1 then { x with x := v } else if b = 2 then { x with y := v }
  else { x with f := v.setWidth 4 }

/-- Whether a push to `sp` is allowed: at or above the mode's limit, inside the mode's half. -/
def pushAllowed (s : State) (k : Fin 4) (sp : BitVec 32) : Bool :=
  let r := Reg.KP_SPLIM k
  let lim := 4 * (if kpOwner s k then s.fld r F.KP_SPLIM_OLIM else s.fld r F.KP_SPLIM_FLIM)
  lim ≤ sp.toNat && inCodeArea s k sp.toNat

/-- Words are pushed in order; `none` when a push is not allowed, with the state then. -/
def pushWords (k : Fin 4) : List (BitVec 32) → State → Bool × State
  | [], s => (true, s)
  | v :: r, s =>
    let x := keeper s k
    let sp := x.sp - 4
    if pushAllowed s k sp then
      pushWords k r (localWrite (setKeeper s k { x with sp := sp }) k (sp.toNat / 4 * 4) 4 v.toNat)
    else (false, s)

/-- The registers of a mask in the order F, Y, X, A. -/
def pushList (x : Keeper) (mask : Nat) : List (BitVec 32) :=
  ([3, 2, 1, 0].filter (fun b => mask.testBit b)).map (maskReg x)

/-- A push that is not allowed abandons the handler (R325). -/
def pushThen (k : Fin 4) (ws : List (BitVec 32)) (f : State → State) (s : State) : State :=
  let r := pushWords k ws s
  if r.1 then f r.2 else abandon (raiseKp r.2 k 3) k

/-- Registers are popped in order, then `f`. -/
def popRegs (s0 : State) (k : Fin 4) (f : State → State) : List Nat → State → State
  | [], s => f s
  | b :: r, s =>
    useRead s0 s k (keeper s k).sp 4 (fun v s =>
      let x := keeper s k
      popRegs s0 k f r (setKeeper s k (setMaskReg { x with sp := x.sp + 4 } b (BitVec.ofNat 32 v))))

def popList (mask : Nat) : List Nat := [0, 1, 2, 3].filter (fun b => mask.testBit b)

/-! ## The standard handlers (R337, R458, R499) -/

/-- The pair that a class-0 event of vector 2 concerns: for an event of a joint the span that R55 chose. -/
def affectedPair (s : State) (x : Nat) : Option (Fin 17) :=
  if x < 272 then
    if h : x / 16 < 16 ∧ (x % 16 = 13 ∨ x % 16 = 14) then s.jointSpan[x / 16]'h.1 else some (Fin.ofNat 17 (x / 16))
  else if x < 544 then some (Fin.ofNat 17 ((x - 272) / 16))
  else if 960 ≤ x ∧ x < 977 then some (Fin.ofNat 17 (x - 960)) else none

/-- A fault of the standby pair during a takeover (R458): the takeover ends, the role's service stops, and the pair is FLAGGED. -/
def faultOnStandby (s : State) (t : Takeover) (n : Fin 17) : State :=
  let s := stopService s t.role t.start
  let s := rgDisable (routeHead s n none) n
  setUse (holdRole (setStandby (refreshJoints (placePair s 0 n 0 0)) none) n 31) n 5

/-- What vector 2 does after the stop-now (R337, R458): the write of `PL_TAKE` where the standby is free, else the service stop; a
fault of a role that is being taken over, or of a FLAGGED pair, is only logged. -/
def faultOutcome (s : State) (k : Fin 4) (n : Fin 17) : State :=
  let l := s.roleOf n
  match s.pl.take with
  | some t =>
    if standby s = some n ∧ !t.switched then faultOnStandby s t n
    else if 16 ≤ l ∨ roleState s l = 3 ∨ plUse s n = 5 then s
    else (stopRoles s l).raise 984 (payCause 3 l)
  | none =>
    if l = 16 then standbyFault (changeAbort s) n
    else if 16 ≤ l ∨ plUse s n = 5 then s
    else if standbyFree s then
      keeperPost s k Reg.PL_TAKE (leBytes 4 (F.PL_TAKE_ROLE.put (F.PL_TAKE_GO.put 0 1) l).toNat)
    else stopService s l s.now

/-- Vector 2: the descriptor is logged at 0x0800, as in the worked example; stop-now with cause FAULT; the takeover. -/
def handleFault (s : State) (k : Fin 4) (x : Nat) : State :=
  let s := localWrite s k 0x800 4 (keeper s k).x.toNat
  match affectedPair s x with
  | none => s
  | some n => faultOutcome (stopNowFault s n) k n

/-- The next state of a meaning that always has one. -/
def orStay (s : State) (o : Host.Outcome State Fault Refusal) : State :=
  match o with
  | .next t => t
  | _ => s

/-- Vector 3: CKPT_FAIL ends the takeover in progress, RP_DONE advances it. -/
def handleAdvance (s : State) (x : Nat) : State :=
  orStay s (if x < 272 then execTakeoverRestored s else execTakeoverCopy s)

/-- Vector 4: a log entry, and the abutment target, which the routing of R500 has raised already. -/
def handleLog (s : State) (k : Fin 4) (x : Nat) : State :=
  let y := keeper s k
  let s := setKeeper s k { y with logged := y.logged ++ [(y.x, y.a)] }
  if s.flag (Reg.EH_SRC x) F.EH_SRC_ABUT then s
  else (s.setFld (Reg.EH_PEND x) F.EH_PEND_APEND 1).bump (Reg.EH_PEND x) F.EH_PEND_ACOUNT

/-- Vector 5: the segment mark writes `LG_SEG_CTL.GO`. -/
def handleMark (s : State) (k : Fin 4) : State :=
  keeperPost s k Reg.LG_SEG_CTL (leBytes 4 (F.LG_SEG_CTL_GO.put (s.reg Reg.LG_SEG_CTL) 1).toNat)

/-- Vector 6: a 16-byte entry of the event log. -/
def handleEventLog (s : State) (k : Fin 4) : State :=
  let y := keeper s k
  let i := localValue s k eventIndexAt 4 % 1024
  let w (s : State) (j : Nat) (v : BitVec 32) : State := localWrite s k (eventLogAt + 16 * i + 4 * j) 4 v.toNat
  localWrite (w (w (w (w s 0 y.x) 1 y.a) 2 y.y) 3 0) k eventIndexAt 4 ((i + 1) % 1024)

/-- The test raise of SW7 is dispatched on the Keeper that an update has restarted, within 1 ms (R446). -/
def noteTest (s : State) (k : Fin 4) (x : Nat) : State :=
  modifyUpdate s (fun u =>
    if x = 1023 ∧ u.comp = 2 ∧ u.phase = 2 ∧ u.left.head? = some k.val ∧ s.now.toNat ≤ u.restart.toNat + 1000000 then
      { u with tested := u.tested ++ [k.val] } else u)

/-- The handler of source `x` starts (R332), and a standard handler acts (R337, R499). -/
def enterHandler (s : State) (k : Fin 4) (x : Nat) : State :=
  let v := s.fld (Reg.EH_SRC x) F.EH_SRC_VEC
  let s := noteTest (beginHandler s k x) k x
  if !runsStandard s k then s
  else if v = 2 then handleFault s k x
  else if v = 3 then handleAdvance s x
  else if v = 4 then handleLog s k x
  else if v = 5 then handleMark s k
  else handleEventLog s k

/-- KEEPER_DISPATCH (R331, R332): at an instruction boundary, the Keeper takes the event that its level takes; an event of class 0
abandons an instruction that waits on the causeway (R323). -/
def execKeeperDispatch (k : Fin 4) (s : State) : Host.Outcome State Fault Refusal :=
  let level := kpLevel s k
  if !kpRun s k then .next s
  else match nextEvent s k level with
    | none => .next s
    | some x =>
      if inAccess s k ∧ eventClass x ≠ 0 then .next s
      else
        let s := abandonAccess s k
        let kp := keeper s k
        let f : KeeperFrame := ⟨level, kpPc s k, kp.a, kp.x, kp.y, kp.f, kp.sp, kpOwner s k,
          s.fld (Reg.KP_STAT k) F.KP_STAT_VEC, kp.todo⟩
        .next (enterHandler (setKeeper s k { kp with frames := f :: kp.frames, todo := [] }) k x)

/-! ## Loads and stores -/

/-- LDB, LDBU, LDH, LDHU or LDW (R319): A takes the byte, half-word or word at EA. -/
def execKeeperLoad (k : Fin 4) (ups : List Upset) (s : State) : Host.Outcome State Fault Refusal :=
  .next (keeperStep k ups (fun s i => ops [1, 2, 3, 4, 5] s k i) (fun i s0 s =>
    let n := if i.op ≤ 2 then 1 else if i.op ≤ 4 then 2 else 4
    useRead s0 s k (keeperEa s k i) n (fun v s => setAcc s k (loadExtend (i.op - 1) v))) s)

/-- STB, STH or STW (R319): the low part of A, or all of it, goes to EA. -/
def execKeeperStore (k : Fin 4) (ups : List Upset) (s : State) : Host.Outcome State Fault Refusal :=
  .next (keeperStep k ups (fun s i => ops [6, 7, 8] s k i) (fun i s0 s =>
    useStore s0 s k (keeperEa s k i) (2 ^ (i.op - 6)) ((keeper s k).a.toNat % 2 ^ (8 * 2 ^ (i.op - 6)))) s)

/-- LDX or LDY (R319): X or Y takes the word at EA; no flag changes. -/
def execLoadIndex (k : Fin 4) (ups : List Upset) (s : State) : Host.Outcome State Fault Refusal :=
  .next (keeperStep k ups (fun s i => ops [9, 10] s k i) (fun i s0 s =>
    useRead s0 s k (keeperEa s k i) 4 (fun v s =>
      setKeeper s k (setMaskReg (keeper s k) (i.op - 8) (BitVec.ofNat 32 v)))) s)

/-- STX or STY (R319): X or Y goes to EA. -/
def execStoreIndex (k : Fin 4) (ups : List Upset) (s : State) : Host.Outcome State Fault Refusal :=
  .next (keeperStep k ups (fun s i => ops [11, 12] s k i) (fun i s0 s =>
    useStore s0 s k (keeperEa s k i) 4 (maskReg (keeper s k) (i.op - 10)).toNat) s)

/-- LEA (R319): A takes EA; no flag changes. -/
def execLea (k : Fin 4) (ups : List Upset) (s : State) : Host.Outcome State Fault Refusal :=
  .next (keeperStep k ups (fun s i => ops [0x0D] s k i) (fun i _ s =>
    setKeeper s k { keeper s k with a := keeperEa s k i }) s)

/-! ## Arithmetic -/

/-- ADD (R319, R321): A + m. -/
def execAdd (k : Fin 4) (ups : List Upset) (s : State) : Host.Outcome State Fault Refusal :=
  .next (keeperStep k ups (fun s i => ops [0x10, 0x30] s k i) (fun i s0 s =>
    withOperand k i s0 s (fun m s => let r := keeperAdd (keeper s k).a m false; setAcc s k r.1 3 r.2)) s)

/-- ADC (R319, R321): A + m + C. -/
def execAdc (k : Fin 4) (ups : List Upset) (s : State) : Host.Outcome State Fault Refusal :=
  .next (keeperStep k ups (fun s i => ops [0x11, 0x31] s k i) (fun i s0 s =>
    withOperand k i s0 s (fun m s => let r := keeperAdd (keeper s k).a m ((keeper s k).f.getLsbD 0); setAcc s k r.1 3 r.2)) s)

/-- SUB (R319, R321): A − m. -/
def execSub (k : Fin 4) (ups : List Upset) (s : State) : Host.Outcome State Fault Refusal :=
  .next (keeperStep k ups (fun s i => ops [0x12, 0x32] s k i) (fun i s0 s =>
    withOperand k i s0 s (fun m s => let r := keeperSub (keeper s k).a m false; setAcc s k r.1 3 r.2)) s)

/-- SBC (R319, R321): A − m − (1 − C). -/
def execSbc (k : Fin 4) (ups : List Upset) (s : State) : Host.Outcome State Fault Refusal :=
  .next (keeperStep k ups (fun s i => ops [0x13, 0x33] s k i) (fun i s0 s =>
    withOperand k i s0 s (fun m s => let r := keeperSub (keeper s k).a m (!(keeper s k).f.getLsbD 0); setAcc s k r.1 3 r.2)) s)

/-- AND, OR or XOR (R319). -/
def execKeeperLogic (k : Fin 4) (ups : List Upset) (s : State) : Host.Outcome State Fault Refusal :=
  .next (keeperStep k ups (fun s i => ops [0x14, 0x15, 0x16, 0x34, 0x35, 0x36] s k i) (fun i s0 s =>
    withOperand k i s0 s (fun m s => keeperAlu s k (i.op % 16 - 2) m)) s)

/-- CMP (R319): the flags of A − m; A is unchanged. -/
def execCmp (k : Fin 4) (ups : List Upset) (s : State) : Host.Outcome State Fault Refusal :=
  .next (keeperStep k ups (fun s i => ops [0x17, 0x37] s k i) (fun i s0 s =>
    withOperand k i s0 s (fun m s =>
      let x := keeper s k
      let r := keeperSub x.a m false
      setKeeper s k { x with f := r.2 ||| znOf r.1 })) s)

/-- MUL, MULHS or MULHU (R319). -/
def execKeeperMultiply (k : Fin 4) (ups : List Upset) (s : State) : Host.Outcome State Fault Refusal :=
  .next (keeperStep k ups (fun s i => ops [0x18, 0x19, 0x1A, 0x38, 0x39, 0x3A] s k i) (fun i s0 s =>
    withOperand k i s0 s (fun m s => keeperAlu s k (i.op % 16 + 12) m)) s)

/-- DIV, DIVU, REM or REMU (R319, R321): with the results of R100 at the edges and the sticky DZ. -/
def execKeeperDivide (k : Fin 4) (ups : List Upset) (s : State) : Host.Outcome State Fault Refusal :=
  .next (keeperStep k ups (fun s i => ops [0x1B, 0x1C, 0x1D, 0x1E, 0x3B, 0x3C, 0x3D, 0x3E] s k i) (fun i s0 s =>
    withOperand k i s0 s (fun m s => keeperAlu s k (i.op % 16 + 12) m)) s)

/-- LDI (R319): A takes sign-extended DISP. -/
def execLdi (k : Fin 4) (ups : List Upset) (s : State) : Host.Outcome State Fault Refusal :=
  .next (keeperStep k ups (fun s i => ops [0x40] s k i) (fun i _ s =>
    setAcc s k i.simm) s)

/-- LUI (R319): A takes DISP × 2^16. -/
def execLui (k : Fin 4) (ups : List Upset) (s : State) : Host.Outcome State Fault Refusal :=
  .next (keeperStep k ups (fun s i => ops [0x41] s k i) (fun i _ s =>
    setAcc s k (i.uimm <<< 16)) s)

/-- ORL (R319): A takes A OR zero-extended DISP. -/
def execOrl (k : Fin 4) (ups : List Upset) (s : State) : Host.Outcome State Fault Refusal :=
  .next (keeperStep k ups (fun s i => ops [0x42] s k i) (fun i _ s =>
    setAcc s k ((keeper s k).a ||| i.uimm)) s)

/-- LDXI or LDYI (R319). -/
def execLoadIndexImmediate (k : Fin 4) (ups : List Upset) (s : State) : Host.Outcome State Fault Refusal :=
  .next (keeperStep k ups (fun s i => ops [0x43, 0x44] s k i) (fun i _ s =>
    setKeeper s k (setMaskReg (keeper s k) (i.op - 0x42) i.simm)) s)

/-- ADXI or ADYI (R319). -/
def execAddIndexImmediate (k : Fin 4) (ups : List Upset) (s : State) : Host.Outcome State Fault Refusal :=
  .next (keeperStep k ups (fun s i => ops [0x45, 0x46] s k i) (fun i _ s =>
    setKeeper s k (setMaskReg (keeper s k) (i.op - 0x44) (maskReg (keeper s k) (i.op - 0x44) + i.simm))) s)

/-- COPY (R319): SEL[3:2] is the destination, SEL[1:0] the source: 0 A, 1 X, 2 Y, 3 SP. -/
def execCopy (k : Fin 4) (ups : List Upset) (s : State) : Host.Outcome State Fault Refusal :=
  .next (keeperStep k ups (fun s i => ops [0x48] s k i) (fun i _ s =>
    let x := keeper s k
    let dst := i.sel / 4
    let src := i.sel % 4
    let v := if src = 3 then x.sp else maskReg x src
    if dst = src then s
    else if dst = 0 then setAcc s k v
    else if dst = 3 then setKeeper s k { x with sp := v &&& 0xFFFFFFFC }
    else setKeeper s k (setMaskReg x dst v)) s)

/-- PUTF (R319): F takes A[3:0]. -/
def execPutf (k : Fin 4) (ups : List Upset) (s : State) : Host.Outcome State Fault Refusal :=
  .next (keeperStep k ups (fun s i => ops [0x4E] s k i) (fun _ _ s =>
    setKeeper s k { keeper s k with f := (keeper s k).a.setWidth 4 }) s)

/-- GETF (R319): A takes F, zero-extended; no flag changes. -/
def execGetf (k : Fin 4) (ups : List Upset) (s : State) : Host.Outcome State Fault Refusal :=
  .next (keeperStep k ups (fun s i => ops [0x4F] s k i) (fun _ _ s =>
    setKeeper s k { keeper s k with a := (keeper s k).f.setWidth 32 }) s)

/-- SHL, SHR, SAR or ROL (R319, R321) by zero-extended DISP. -/
def execKeeperShift (k : Fin 4) (ups : List Upset) (s : State) : Host.Outcome State Fault Refusal :=
  .next (keeperStep k ups (fun s i => ops [0x50, 0x51, 0x52, 0x53] s k i) (fun i _ s =>
    keeperAlu s k (i.op - 0x50 + 6) i.uimm) s)

/-- SHLX, SHRX, SARX or ROLX (R319, R321) by X. -/
def execKeeperShiftX (k : Fin 4) (ups : List Upset) (s : State) : Host.Outcome State Fault Refusal :=
  .next (keeperStep k ups (fun s i => ops [0x54, 0x55, 0x56, 0x57] s k i) (fun i _ s =>
    keeperAlu s k (i.op - 0x54 + 6) (keeper s k).x) s)

/-- NEG (R319, R321): C is 1 when the operand is 0. -/
def execNeg (k : Fin 4) (ups : List Upset) (s : State) : Host.Outcome State Fault Refusal :=
  .next (keeperStep k ups (fun s i => ops [0x58] s k i) (fun _ _ s =>
    let a := (keeper s k).a
    setAcc s k (-a) 3 (cvOf (a == 0) (a == 0x80000000))) s)

/-- NOT (R319). -/
def execNot (k : Fin 4) (ups : List Upset) (s : State) : Host.Outcome State Fault Refusal :=
  .next (keeperStep k ups (fun s i => ops [0x59] s k i) (fun _ _ s =>
    setAcc s k (~~~(keeper s k).a)) s)

/-! ## Control flow (R320, R324, R331) -/

/-- Whether BR with SEL is taken under flags `f` (R320). -/
def brTaken (f : BitVec 4) (sel : Nat) : Bool :=
  let c := f.getLsbD 0
  let v := f.getLsbD 1
  let z := f.getLsbD 2
  let n := f.getLsbD 3
  [true, z, !z, c, !c, n, !n, v, !v, n != v, n == v, z || n != v, !z && n == v, !c || z, c && !z].getD sel false

/-- The pushes of a CALL, and its target: `firm` switches to FIRM (R324). -/
def callTo (k : Fin 4) (mask : Nat) (target : BitVec 32) (firm : Bool) (s : State) : State :=
  let link := BitVec.ofNat 32 ((kpPc s k).toNat % 2 ^ 18 + mask % 16 * 2 ^ 24 + (kpOwner s k).toNat * 2 ^ 31)
  pushThen k (pushList (keeper s k) mask ++ [link])
    (fun s => setKpPc (if firm then setKpMode s k false else s) k (target &&& 0xFFFFFFFC)) s

/-- BR (R320): a branch taken when its SEL condition holds. -/
def execBr (k : Fin 4) (ups : List Upset) (s : State) : Host.Outcome State Fault Refusal :=
  .next (keeperStep k ups (fun s i => ops [0x60] s k i) (fun i _ s =>
    if brTaken (keeper s k).f i.sel then jumpTo s k (kpPc s k + 4 * i.simm) else s) s)

/-- JMP (R319). -/
def execJmp (k : Fin 4) (ups : List Upset) (s : State) : Host.Outcome State Fault Refusal :=
  .next (keeperStep k ups (fun s i => ops [0x61] s k i) (fun i _ s =>
    jumpTo s k (keeperEa s k i)) s)

/-- CALL (R324): registers and a link word are pushed, and PC takes EA; a gate entry switches to FIRM. -/
def execCall (k : Fin 4) (ups : List Upset) (s : State) : Host.Outcome State Fault Refusal :=
  .next (keeperStep k ups (fun s i => ops [0x62] s k i) (fun i _ s =>
    let ea := keeperEa s k i
    let gate := kpOwner s k ∧ 0x400 ≤ ea.toNat ∧ ea.toNat ≤ 0x4FF
    if gate then
      let r := localCheck s k (ea.toNat / 4 * 4)
      let goal : BitVec 32 := BitVec.ofNat 32 (localValue r.2 k (ea.toNat / 4 * 4) 4)
      if r.1 ∧ 2 ≤ kpLevel s k then abandon r.2 k
      else if 0x40000 ≤ goal.toNat then countIllegal r.2 k
      else callTo k i.sel goal true r.2
    else if 0x40000 ≤ ea.toNat then countIllegal s k
    else callTo k i.sel ea false s) s)

/-- RET (R324): the link word, then the registers of its mask; the mode follows the link word in FIRM mode only. -/
def execRet (k : Fin 4) (ups : List Upset) (s : State) : Host.Outcome State Fault Refusal :=
  .next (keeperStep k ups (fun s i => ops [0x63] s k i) (fun _ s0 s =>
    useRead s0 s k (keeper s k).sp 4 (fun w s =>
      let x := keeper s k
      popRegs s0 k (fun s =>
        let s := setKpPc s k (BitVec.ofNat 32 (w % 2 ^ 18 / 4 * 4))
        if kpOwner s k then s else setKpMode s k (w.testBit 31))
        (popList (bits w 27 24)) (setKeeper s k { x with sp := x.sp + 4 }))) s)

/-- The effect of RETI (R331): the next handler is chained where an event is eligible for the level that the top frame holds; else
the frame is restored. -/
def endHandler (s : State) (k : Fin 4) : State :=
  match (keeper s k).frames with
  | [] => s
  | f :: _ => (match nextEvent s k f.level with
      | some x => enterHandler s k x
      | none => restoreFrame s k)

/-- RETI (R331); a standard handler ends with it once its stores are issued (R499). -/
def execReti (k : Fin 4) (ups : List Upset) (s : State) : Host.Outcome State Fault Refusal :=
  if runsStandard s k ∧ 2 ≤ kpLevel s k then
    .next (if kpRun s k ∧ (keeper s k).todo.isEmpty then endHandler (applyUpsets s ups) k else s)
  else .next (keeperStep k ups (fun s i => ops [0x64] s k i) (fun _ _ s => endHandler s k) s)

/-- WAIT (R331): at BASE level, fetching stops until the next dispatch; the standard firmware's BASE program does so whenever no
handler runs (R505). -/
def execWait (k : Fin 4) (ups : List Upset) (s : State) : Host.Outcome State Fault Refusal :=
  if runsStandard s k ∧ kpLevel s k = 1 then
    .next (if kpRun s k then
        setKpPc ((applyUpsets s ups).setFld (Reg.KP_STAT k) F.KP_STAT_WAITING 1) k (Config.firmwareLoop &&& 0x1FFFC)
      else s)
  else
    .next (keeperStep k ups (fun s i => ops [0x65] s k i) (fun _ _ s =>
      s.setFld (Reg.KP_STAT k) F.KP_STAT_WAITING 1) s)

/-- PUSHM (R324). -/
def execPushm (k : Fin 4) (ups : List Upset) (s : State) : Host.Outcome State Fault Refusal :=
  .next (keeperStep k ups (fun s i => ops [0x66] s k i) (fun i _ s =>
    pushThen k (pushList (keeper s k) i.sel) id s) s)

/-- POPM (R324). -/
def execPopm (k : Fin 4) (ups : List Upset) (s : State) : Host.Outcome State Fault Refusal :=
  .next (keeperStep k ups (fun s i => ops [0x67] s k i) (fun i s0 s =>
    popRegs s0 k id (popList i.sel) s) s)

/-- NOP (R319). -/
def execNop (k : Fin 4) (ups : List Upset) (s : State) : Host.Outcome State Fault Refusal :=
  .next (keeperStep k ups (fun s i => ops [0x6F] s k i) (fun _ _ s =>
    s) s)

/-- KEEPER_ILLEGAL (R322): an absent opcode, BR with SEL 15, WAIT outside BASE or RETI at BASE is a no-operation, counted. -/
def execKeeperIllegal (k : Fin 4) (ups : List Upset) (s : State) : Host.Outcome State Fault Refusal :=
  .next (keeperStep k ups (fun s i => illegalWord s k i) (fun _ _ s => countIllegal s k) s)

/-! ## The owner block (R328) -/

/-- No frame and no running level of the Keeper is in OWNER mode or has an owner vector. -/
def noOwnerLevel (s : State) (k : Fin 4) : Bool :=
  !kpOwner s k && s.fld (Reg.KP_STAT k) F.KP_STAT_VEC < 64 && (keeper s k).frames.all (fun f => !f.owner && f.vec < 64)

/-- The owner half, the owner vectors and the ranges of a Keeper are written (R327). -/
def writeOwner (s : State) (k : Fin 4) (b : OwnerBlock) : State :=
  let w := Win.keeper k
  let s := { s with mem := s.mem.clear (w + 0x20000) (w + 0x40000) }
  let s := (s.writeBytes (w + 0x20000) (b.half.take 0x20000)).clearErrs (w + 0x20000) (w + 0x40000)
  let s := b.vectors.foldl (fun s v => (s.writeLE (w + 4 * v.1) 4 v.2.toNat).setErr (w + 4 * v.1) 0) s
  (List.range 8).foldl (fun s j =>
    let r := b.ranges.getD j (0, 0)
    (s.setReg (Reg.KP_ORANGE_LO k j) (r.1 &&& 0x80FFFFFF)).setReg (Reg.KP_ORANGE_HI k j) (r.2 &&& 0x00FFFFFF)) s

/-- OWNER_BLOCK_REPLACE (R328 steps 2–4). -/
def execOwnerBlockReplace (k : Fin 4) (s : State) : Host.Outcome State Fault Refusal :=
  match s.ownerStage with
  | none => .next s
  | some b =>
    if s.flag (Reg.KP_CTL k) F.KP_CTL_OWN_HOLD ∧ noOwnerLevel s k then
      .next ((writeOwner s k b).setFld (Reg.KP_CTL k) F.KP_CTL_OWN_HOLD 0)
    else .next s

end Sys2Proof.Machine
end

