-- ==== Sys2Proof/Machine/ImageLoad.lean ====
section
/-!
DEFINITION. Loading images (R77, R327, R341–R351, R359, R360, R378, R439): the meanings of WHOLE_IMAGE_LOAD
and PARTIAL_IMAGE_LOAD.
-/

namespace Sys2Proof.Machine

/-! ## Programs, micro-routines, Keeper blocks (R77, R327, R350 step 3) -/

/-- Words written to a parity-protected store carry good parity. -/
def writeStore (s : State) (a : Nat) (bs : List Byte) : State :=
  let s := s.writeBytes a bs
  { s with parity := s.parity.filter (fun x => x < a || a + bs.length ≤ x) }

/-- The bundles of a program go to a bank of controller `n`. -/
def writeProgram (s : State) (n bank : Nat) (p : Program) : State := writeStore s (Win.bundle n bank 0) p.bundles

/-- A microword with its NPTR moved by `k`. -/
def relocate (k v : Nat) : Nat := v % 2 ^ 20 + (v / 2 ^ 20 + k) % 2 ^ 12 * 2 ^ 20

/-- A block goes to micro address `m` and nano address `w` of controller `n`; its routines become callable last (R77). -/
def writeMicro (s : State) (n : Fin 17) (b : MicroBlock) (m w : Nat) : State :=
  let s := writeStore s (Win.micro n m) (b.micro.flatMap (fun v => leBytes 4 (relocate w v)))
  let s := writeStore s (Win.nano n w) (b.nano.flatMap (leBytes 8))
  let x := s.micro n
  s.setMicro n { x with routines := x.routines ++ b.routines.map (fun r => { r with first := r.first + m }) }

/-- `MC_VER` words 0 to 2 and 3 from a library block or an owner block (R502). -/
def showMicro (s : State) (n : Nat) (b : MicroBlock) : State :=
  let key := leNat ((Config.sha384 ((b.bytes.drop 96).take 97)).extractLsb' 368 16 |>.toNat |> leBytes 2)
  if b.kind = 1 then
    let s := (s.setReg (Reg.MC_VER_0 n) (BitVec.ofNat 32 b.version)).setReg (Reg.MC_VER_1 n) (BitVec.ofNat 32 b.build)
    s.setFld (Reg.MC_VER_2 n) F.MC_VER_2_LIB_KEY key
  else
    let s := (s.setFld (Reg.MC_VER_3 n) F.MC_VER_3_OWN_COUNT b.routines.length).setFld (Reg.MC_VER_3 n) F.MC_VER_3_OWN_VER b.version
    s.setFld (Reg.MC_VER_2 n) F.MC_VER_2_OWN_KEY key

/-- The whole set of controller `n` (R74, R77). -/
def loadMicro (s : State) (n : Fin 17) (bs : List MicroBlock) : State :=
  let s := s.setMicro n { s.micro n with routines := [] }
  let s := (s.setReg (Reg.MC_VER_2 n) 0).setReg (Reg.MC_VER_3 n) 0
  bs.foldl (fun s b => showMicro (if b.kind = 1 then writeMicro s n b 0 0 else writeMicro s n b 8192 2048) n b) s

/-- The blocks that load at boot: the library of the settings generation replaces the image's (R439). -/
def bootMicro (s : State) (g : Image) : List MicroBlock :=
  let own := microBlocks false (g.first 6)
  match generation s with
  | none => own
  | some x => if x.library.isEmpty then own else MicroBlock.ofBytes x.library :: own.filter (fun b => b.kind == 2)

/-- The Keeper blocks that load at boot: the firmware block of the settings generation replaces the image's (R439). -/
def bootKeeper (s : State) (g : Image) : KeeperParts :=
  let own := Config.keeperSection (g.first 7)
  match generation s with
  | none => own
  | some x =>
    if x.keeper.isEmpty then own
    else
      let k := Config.keeperSection x.keeper
      { own with fwSigned := k.fwSigned, fwSignature := k.fwSignature, fwSvn := k.fwSvn, fwVersion := k.fwVersion,
                 fwHalf := k.fwHalf, fwVectors := k.fwVectors }


/-- The firmware half of a stopped Keeper is written; vectors 64–255 stay those of the owner block (R327). -/
def writeFirmware (s : State) (k : Fin 4) (p : KeeperParts) : State :=
  let w := Win.keeper k
  let keep := s.readBytes (w + 0x100) 0x300
  let s := { s with mem := s.mem.clear w (w + 0x20000) }
  let s := ((s.writeBytes w p.fwHalf).writeBytes (w + 0x100) keep).clearErrs w (w + 0x20000)
  let s := setKeeper s k { keeper s k with firm := true }
  p.fwVectors.foldl (fun s v => s.writeLE (w + 4 * v.1) 4 v.2.toNat) s

def ownerBlockOf (p : KeeperParts) : OwnerBlock := ⟨p.ownHalf, p.ownVectors, p.ownRanges⟩

/-- Keeper `k` takes its blocks (R327): firmware only while it is stopped; the owner block of a running Keeper waits under
OWN_HOLD (R328 step 1). -/
def loadKeeper (p : KeeperParts) (s : State) (k : Fin 4) : State :=
  if kpRun s k then
    if p.hasOwner then { s with ownerStage := some (ownerBlockOf p) }.setFld (Reg.KP_CTL k) F.KP_CTL_OWN_HOLD 1 else s
  else
    let s := writeFirmware s k p
    if p.hasOwner then writeOwner s k (ownerBlockOf p) else s

/-- The abutment die rewrites the local words of a Keeper that hold a double-bit error from the image store, and starts the Keeper
where it has stopped (R454). -/
def mendKeeper (s : State) (k : Fin 4) : State :=
  match s.pl.image with
  | none => s
  | some g =>
    let p := bootKeeper s g
    let t := writeFirmware s k p
    let t := if p.hasOwner then writeOwner t k (ownerBlockOf p) else t
    let w := Win.keeper k
    let bad := (s.errs.map (·.1)).filter (fun a => w ≤ a && a < w + 0x40000 && eccOf (s.errMask a) == .double)
    keeperRun (bad.foldl (fun s a => (s.writeBytes a (t.readBytes a 4)).setErr a 0) s) k

/-! ## Routes, registers, heads (R350 steps 4 and 5) -/

/-- A ROUTES section goes to the tables of an epoch, with `CW_WRR` and C0_EN. -/
def routesTo (s : State) (epoch : Nat) (bs : List Byte) : State :=
  let s := (List.range 48).foldl (fun s r => (List.range 6).foldl (fun s w =>
    s.setReg (Reg.RT_TABLE r epoch w) (BitVec.ofNat 32 (recNat bs (4 * (6 * r + w)) 4))) s) s
  let s := putImg s Reg.CW_WRR [F.CW_WRR_W1, F.CW_WRR_W3, F.CW_WRR_W2] (BitVec.ofNat 32 (recNat bs 1152 4))
  (List.range 80).foldl (fun s i => s.setFld (Reg.CW_EP_CTL i) F.CW_EP_CTL_C0_EN ((c0List bs).contains i).toNat) s

/-- The ROUTES section of a whole image goes to epoch 0. -/
def loadRoutes (s : State) (bs : List Byte) : State := routesTo s 0 bs

/-- A REGS entry sets the bits that its mask names (R345): the other bits of stored fields are written as they are. -/
def applyEntry (s : State) (e : RegsEntry) : State :=
  let kept : BitVec 32 := match regAt (regsKey e.addr) with
    | none => 0
    | some d => d.fields.foldl (fun m f => if f.acc = .rw ∨ f.acc = .rws then m ||| f.mask else m) 0
  let r := busRead s e.addr 4
  let old := BitVec.ofNat 32 (leNat r.1)
  let val := (old &&& kept &&& ~~~e.mask) ||| (e.value &&& e.mask)
  (busWrite r.2.2 0x7000 e.addr (leBytes 4 val.toNat)).2

def applyRegs (s : State) (g : Image) : State := ((allRegs g).map (·.1)).foldl applyEntry s

/-! ## The standard image's routing (R500) -/

/-- The Keeper, vector and PRI of a source; `none` where it has no Keeper target. -/
def standardTarget (mark : Option (Fin 1024)) (x : Nat) : Option (Nat × Nat × Nat) :=
  let pair := if x < 272 then x / 16 else if x < 544 then (x - 272) / 16 else x - 960
  let unit : Bool := x < 544 || (960 ≤ x && x < 977)
  let advance : Bool := (x < 272 && x % 16 == 6) || (272 ≤ x && x < 544 && (x - 272) % 16 == 9)
  if mark.any (fun m => m.val == x) then some (2, 5, 0)
  else if !sourceRaised x || x = 738 || x = 1006 || x = 1010 then none
  else if eventClass x = 0 then
    if unit then some (if pair ≤ 8 then 0 else 1, if advance then 3 else 2, 0)
    else if x = 835 ∨ x = 833 ∨ x = 840 ∨ x = 775 then some (0, 4, 1) else none
  else some (2, 6, 1)

/-- `EH_SRC` of a source under the standard image: every source has the abutment target. -/
def standardSrc (mark : Option (Fin 1024)) (x : Nat) : BitVec 32 :=
  let w := F.EH_SRC_ABUT.put 0 1
  match standardTarget mark x with
  | none => w
  | some (k, v, p) =>
    F.EH_SRC_PRI.put (F.EH_SRC_VEC.put (F.EH_SRC_KEEPER.put (F.EH_SRC_K_EN.put w 1) k) v) p

/-- The standard image routes every source, and sets EI on every Keeper (R339, R500). -/
def standardRouting (s : State) (g : Image) : State :=
  if !Config.standardImage g.id then s
  else
    let s := (List.range 1024).foldl (fun s x => s.setReg (Reg.EH_SRC x) (standardSrc (Config.segmentMark g.id) x)) s
    (List.range 4).foldl (fun s k => s.setFld (Reg.KP_CTL k) F.KP_CTL_EI 1) s

/-- One port's requirements (R160, R161), and LANES and RATE of its `HP_CTL`. -/
def applyHead (s : State) (p : HeadParts) : State :=
  let x := s.head p.port
  let s := s.setHead p.port { x with settings := ⟨p.pixels, p.bits, p.lanes, p.writes⟩ }
  let a := Reg.HP_CTL p.port
  let lanes := if p.lanes = 4 then 2 else if p.lanes = 2 then 1 else 0
  (s.setFld a F.HP_CTL_LANES lanes).setFld a F.HP_CTL_RATE p.rate

/-- The HEADS section of a whole image. -/
def applyHeads (s : State) (bs : List Byte) : State :=
  let h := Config.headsSection bs
  let s := (List.finRange 16).foldl (fun s (p : Fin 16) => s.setHead p { s.head p with settings := ⟨0, 0, 0, []⟩ }) s
  h.2.foldl applyHead { s with trusted := h.1 }

/-! ## Memory areas (R355; assumption log, entry 16) -/

/-- The next multiple of `k`. -/
def roundUp (k a : Nat) : Nat := (a + k - 1) / k * k

/-- Addresses for the ledger, the crop store and the history ring of every role with a region, one behind the other. -/
def placeAreas (s : State) : State :=
  let s := s.setFld Reg.LG_BASE F.LG_BASE_BASE 0
  let s := s.setFld Reg.CR_STORE F.CR_STORE_BASE (3 * 256)
  let first := 3 * 2 ^ 30 + storeSize s
  let rings := (List.range 16).foldl (fun (acc : List (Nat × Nat) × Nat) l =>
    match pairOf s l with
    | none => acc
    | some m =>
      let a := roundUp 65536 acc.2
      (acc.1 ++ [(l, a)], a + ringEntries s m * (ringStride s m + 64))) ([], first)
  let s := modifyPl s (fun p => { p with rings := rings.1 })
  rings.1.foldl (fun s r => match pairOf s r.1 with
    | none => s
    | some m => setRing s m r.1) s

/-! ## Whole images (R350) -/

/-- `PL_LOAD_STAT` and PL_LOAD with the code of a load (R348, R366). -/
def loadResult (s : State) (code sect : Nat) : State :=
  let s := (s.setFld Reg.PL_LOAD_STAT F.PL_LOAD_STAT_CODE code).setFld Reg.PL_LOAD_STAT F.PL_LOAD_STAT_SECTION sect
  s.raise 986 (payCause code)

/-- The first code that applies to a whole image, with placement (R348, R354). -/
def wholeFault (s : State) (bs : List Byte) : Option (Nat × Nat) :=
  match imageFault s bs with
  | some f => some f
  | none =>
    let g := parseImage s bs
    if g.kind ≠ 1 then some (1, 255) else if (placeImage s g).isNone then some (34, g.indexOf 2) else none

/-- The rotation start (R353, R465): the eligible pair with the fewest equivalent hours, the lowest of equal ones. -/
def chooseRotation (s : State) : State :=
  let best := (List.finRange 17).foldl (fun (o : Option (Fin 17)) (n : Fin 17) =>
    if !pairEligible s n then o
    else match o with
      | none => some n
      | some m => if (s.fh.wear[n.val]).eq < (s.fh.wear[m.val]).eq then some n else some m) none
  s.setFld Reg.PL_STAT F.PL_STAT_ROT ((best.map (·.val)).getD 0)

/-- The regions of the roles are configured and sealed (R350 step 6); every other region that runs is disabled. -/
def loadRegions (s : State) (g : Image) : State :=
  let s := (g.ofType 4).foldl (fun s x => match pairOf s (recNat x.content 0 1) with
    | none => s
    | some m => streamRegion s m x.content) s
  let s := (List.finRange 17).foldl (fun s (m : Fin 17) => if s.roleOf m < 16 then s else rgDisable s m) s
  (List.range 16).foldl (fun s l => match pairOf s l with
    | none => s
    | some m => routeHead s m (headOfRole s l)) s

/-- An image that has passed its checks is applied up to its regions (R350 steps 1 to 6). -/
def applyWhole (s : State) (g : Image) (boot : Bool) : State :=
  match placeImage s g with
  | none => s
  | some (roles, sb) =>
    let s := applyPlacement s g roles sb
    let micro := if boot then bootMicro s g else microBlocks false (g.first 6)
    let kp := if boot then bootKeeper s g else Config.keeperSection (g.first 7)
    let s := (List.finRange 4).foldl (loadKeeper kp) s
    let s := (List.finRange 17).foldl (fun s n => loadMicro s n micro) s
    let s := (g.ofType 5).foldl (fun s x =>
      let p := Program.ofBytes x.content
      (List.range 17).foldl (fun s n => writeProgram s n p.index p) s) s
    let s := standardRouting (applyRegs (loadRoutes s (g.first 8)) g) g
    let s := (List.finRange 4).foldl (fun s k => keeperRun s k) s
    let s := applyHeads s (g.first 3)
    placeAreas (loadRegions (modifyPl s (fun p => { p with image := some g })) g)

/-- The measurements of the image applied at boot (R383). -/
def measureBoot (s : State) (g : Image) : State :=
  let sec (t : Nat) : List Byte := ((g.ofType t).head?.map (·.hash)).getD []
  let s := extend (extend (extend s 3 (hash48 (g.header ++ g.manifest))) 4 (sec 7)) 5 (sec 6)
  modifyAb s (fun a => { a with bootId := g.id, manifestHash := (g.header.drop 32).take 48 })

/-- The image of the boot slots (R374, R378, R381). -/
def bootImage (s : State) : State :=
  let s := chooseRotation s
  let code (f : Option (Nat × Nat)) : Nat × Nat := f.getD (0, 0)
  let (slot, failed, t) := bootSlot s 2 (fun s bs => (wholeFault s bs).isNone)
  match slot with
  | none =>
    let tried := [2, 3].filterMap (fun i => wholeFault s (flashSlot s i))
    let f := code tried.getLast?
    noImage (loadResult t f.1 f.2) 0
  | some i =>
    let g := parseImage t (flashSlot t i)
    let t := if failed then raiseBoot t 2 else t
    let t := measureBoot (applyWhole t g true) g
    loadResult (t.setFld Reg.ABT_STAT F.ABT_STAT_ISLOT (i - 2)) 0 0

/-- WHOLE_IMAGE_LOAD (R350, R378): at boot, in MEMORY, the image of the slots; in service, with every role stopped, an image that
is given, unless the abutment die is away (R382). In NO_IMAGE, boot goes on from MEMORY with it. -/
def execWholeImageLoad (image : Option (List Byte)) (s : State) : Host.Outcome State Fault Refusal :=
  match image with
  | none => .next (if bootState s = 3 ∧ s.pl.image.isNone then bootImage s else s)
  | some bs =>
    let busy := (List.range 16).any (fun l => roleState s l == 1 || roleState s l == 3)
    if !s.ab.up ∨ busy ∨ ¬(bootState s = 5 ∨ bootState s = 6) then .next s
    else match wholeFault s bs with
      | some f => .next (loadResult s f.1 f.2)
      | none =>
        let s := loadResult (applyWhole s (parseImage s bs) false) 0 0
        if bootState s = 6 then .next (setBoot s 3)
        else .next ((imageGroups s).foldl tgStart (startRoles s))

/-! ## Partial images and planned changes (R359–R361) -/

/-- The bank that a partial image's program takes (R359): the role's own where it brings none. -/
def changeBank (s : State) (l : Nat) (p : Option Program) : Option Nat :=
  let own := s.fld (Reg.PL_ROLE l) F.PL_ROLE_BANK
  match p with
  | none => some own
  | some _ =>
    let running := ((List.range 16).filter (fun r => roleState s r == 1 || roleState s r == 3)).map (fun r =>
      (r, s.fld (Reg.PL_ROLE r) F.PL_ROLE_BANK))
    match (List.range 4).find? (fun b => running.all (fun r => r.2 != b)) with
    | some b => some b
    | none => if running.all (fun r => r.1 == l || r.2 != own) then some own else none

/-- The first code that applies to a partial image, or the bank it takes (R348, R359, R361). -/
def partialFault (s : State) (bs : List Byte) : (Nat × Nat) ⊕ Nat :=
  match imageFault s bs with
  | some f => .inl f
  | none =>
    let g := parseImage s bs
    let p := (g.ofType 5).head?.map (fun x => Program.ofBytes x.content)
    if g.kind ≠ 2 then .inl (1, 255)
    else match changeBank s g.target p with
      | none => .inl (33, g.indexOf 5)
      | some b =>
        if (pairOf s g.target).isNone ∨ domSize s g.target ≠ 1 then .inl (34, 255)
        else if !standbyReady s then .inl (35, 255) else .inr b

/-- PARTIAL_IMAGE_LOAD (R359): the image is checked and staged onto the standby pair; while the abutment die is away it cannot
arrive (R382). -/
def execPartialImageLoad (image : List Byte) (s : State) : Host.Outcome State Fault Refusal :=
  if !s.ab.up then .next s
  else match partialFault s image with
  | .inl f => .next (loadResult s f.1 f.2)
  | .inr bank =>
    let g := parseImage s image
    match pairOf s g.target, standby s with
    | some old, some new =>
      let p := (g.ofType 5).head?.map (fun x => Program.ofBytes x.content)
      let s := (List.finRange 17).foldl (fun s (n : Fin 17) =>
        let r := ownerRoom s n
        let s := (microBlocks true (g.first 6)).foldl (fun s b => showMicro (writeMicro s n b r.1 r.2) n b) s
        match p with
        | some p => if n = old ∧ bank = s.fld (Reg.PL_ROLE g.target) F.PL_ROLE_BANK then s else writeProgram s n bank p
        | none => s) s
      let s := loadResult s 0 0
      let e := Reg.SPC_ENTRY old
      let entry := (p.map (·.entry)).getD (s.fld e F.SPC_ENTRY_ENTRY)
      let ivec := (p.map (·.ivec)).getD (s.fld e F.SPC_ENTRY_IVEC)
      let c : Change := ⟨g, Fin.ofNat 16 g.target, old, new, bank, 0, false⟩
      let carry := (s.pl.image.map (fun w => (roleEntry (w.first 2) g.target).flags)).getD 0 % 2 = 1
      .next (stageChange s c (g.first 4) entry ivec carry)
    | _, _ => .next (loadResult s 35 255)

/-- The image store after a change: the role's REGION section, and the program in its bank, are those of the partial image. -/
def mergeImage (w g : Image) (l bank : Nat) : Image :=
  let sameRegion (x : ImgSection) : Bool := x.type == 4 && recNat x.content 0 1 == l
  let sameProgram (x : ImgSection) : Bool := x.type == 5 && recNat x.content 0 1 == bank && !(g.ofType 5).isEmpty
  let new := (g.ofType 4) ++ (g.ofType 5).map (fun x => { x with content := leBytes 1 bank ++ x.content.drop 1 })
  { w with sections := w.sections.filter (fun x => !sameRegion x && !sameProgram x) ++ new }

/-- The settings of a partial image that take effect at the switch line (R7, R359): HEADS and REGS, the program's last copy. -/
def applyPartial (s : State) (c : Change) : State :=
  let g := c.image
  let h := Config.headsSection (g.first 3)
  let s := (h.2.filter (fun p => headOfRole s c.role == some p.port)).foldl applyHead { s with trusted := (s.trusted ++ h.1).dedup }
  let s := match (g.ofType 5).head?.map (fun x => Program.ofBytes x.content) with
    | some p => writeProgram s c.old c.bank p
    | none => s
  let s := applyRegs s g
  modifyPl s (fun p => { p with image := p.image.map (fun w => mergeImage w g c.role c.bank) })

end Sys2Proof.Machine
end

