-- ==== Sys2Proof/Machine/Link.lean ====
section
/-!
DEFINITION. The die-to-die link (13): meanings of UCIE_RETRY, UCIE_DOWN, UCIE_LINK_UP and UCIE_TRAINING_FAILURE.
-/

namespace Sys2Proof.Machine

/-! ## The die-to-die link (R398, R399) -/

/-- UCIE_RETRY (R398): a flit is sent again; the fourth time in a row the link retrains. -/
def execUcieRetry (fourth : Bool) (s : State) : Host.Outcome State Fault Refusal :=
  let t := s.bump Reg.UCIE_RETRY F.UCIE_RETRY_COUNT
  if s.fld Reg.UCIE_STAT F.UCIE_STAT_STATE ≠ 2 then .next s
  else if !fourth then .next t
  else
    let t := modifyAb t (fun a => { a with linkLost := a.linkLost.or (some s.now) })
    .next ((t.setFld Reg.UCIE_STAT F.UCIE_STAT_STATE 1).bump Reg.UCIE_STAT F.UCIE_STAT_RETRAINS)

/-- UCIE_DOWN (R399): the link has not been up for 10 ms; endpoint 77 is isolated with a DRAIN_LIMIT of 32. Of a link that went
down other than by a retrain the model has no earlier sign. -/
def execUcieDown (s : State) : Host.Outcome State Fault Refusal :=
  if s.ab.linkLost.any (fun t => s.now.toNat < t.toNat + 10000000) then .next s
  else .next (cut77 (modifyAb (s.setFld Reg.UCIE_STAT F.UCIE_STAT_STATE 0) (fun a => { a with linkLost := a.linkLost.or (some s.now) })))

/-- The worms that waited in the module move again (R398): those of the deck reach endpoint 77, those of the abutment die enter
the mesh. -/
def moveWaiting (s : State) : State :=
  let ins := (ucieWay s 0).worms
  let outs := (ucieWay s 1).worms
  let s := modifyWay (modifyWay s 0 (fun w => { w with worms := [] })) 1 (fun w => { w with worms := [] })
  outs.foldl sendPacket (ins.foldl settlePacket s)

/-- UCIE_LINK_UP (R399): waiting flits move again; endpoint 77 is ONLINE once the firmware is back too. ABT_UCIE: 1 RETRAIN,
2 DEGRADED. -/
def execUcieLinkUp (x8 : Bool) (s : State) : Host.Outcome State Fault Refusal :=
  let u := Reg.UCIE_STAT
  if s.fld u F.UCIE_STAT_STATE = 2 ∨ bootState s < 2 then .next s
  else
    let narrowed := x8 && !s.flag u F.UCIE_STAT_WIDTH
    let s := modifyAb ((s.setFld u F.UCIE_STAT_STATE 2).setFld u F.UCIE_STAT_WIDTH x8.toNat) (fun a => { a with linkLost := none })
    let s := if s.ab.up then releaseEp s 77 else s
    let s := s.raise 996 (payCause 1)
    .next (moveWaiting (if narrowed then s.raise 996 (payCause 2) else s))

/-- UCIE_TRAINING_FAILURE (R381): the third failure to train during boot ends it in HALT. -/
def execUcieTrainingFailure (s : State) : Host.Outcome State Fault Refusal :=
  if bootState s = 1 then .next (halt (modifyAb s (fun a => { a with linkFails := 3 }))) else .next s

end Sys2Proof.Machine
end

