-- ==== Sys2Proof/Machine/Streams.lean ====
section
/-!
DEFINITION. The streams of sessions (R425–R433): meanings of STREAM_ENTRY to NOTIFY_ACK.
-/

namespace Sys2Proof.Machine

/-! ## Record stream (R425–R429) -/

def modifySession (s : State) (k : Fin 16) (f : Session → Session) : State :=
  match session s k with
  | none => s
  | some x => setSession s k (f x)

def recStream (s : State) (k : Fin 16) : Option RecStream := (session s k).bind (·.records)
def setRecStream (s : State) (k : Fin 16) (r : RecStream) : State := modifySession s k (fun x => { x with records := some r })

/-- RN_STREAM with the session: 1 RECORD_GAP, 2 CROP_ABANDONED, 3 NOTIFY_OVERFLOW. -/
def raiseStream (s : State) (k : Fin 16) (cause : Nat) : State := raiseRn s (sessPort s k) 4 cause k.val

/-- What the stream takes of an item: its bytes, with bit 3 of a line record's flags for this stream (R424–R426). -/
def wantedBytes (r : RecStream) (i : StreamItem) : Option (List Byte) :=
  match i.line with
  | none => if r.records then some i.bytes else none
  | some d =>
    if r.lines && r.domains.getLsbD d.val && r.decimate != 0 && (recNat i.bytes 8 8) % r.decimate.toNat == 0 then
      some (if r.taken.getLsbD d.val then i.bytes.set 2 ((i.bytes.getD 2 0) ||| 8) else i.bytes)
    else none

/-- A dropped entry joins the gap to be named (R428). -/
def addGap (g : Option RecGap) (rseq lseq : BitVec 64) : RecGap :=
  match g with
  | none => ⟨rseq, 1, lseq, lseq⟩
  | some g => { g with count := g.count + 1, lsFirst := if g.lsFirst = 0 then lseq else g.lsFirst,
                       lsLast := if lseq = 0 then g.lsLast else lseq }

/-- An entry joins the stream of session `k` with the next RSEQ, or is dropped when 2,048 are held (R425, R428). -/
def joinStream (s : State) (k : Fin 16) (r : RecStream) (line : Option (Fin 16)) (lseq : BitVec 64) (bytes : List Byte) : State :=
  let taken := match line with
    | none => r.taken
    | some d => r.taken &&& ~~~(1#16 <<< d.val)
  let r' := { r with next := r.next + 1, taken := taken }
  if r.held.length < 2048 then setRecStream s k { r' with held := r.held ++ [⟨r.next, lseq, bytes, s.now⟩] }
  else
    let s := setRecStream s k { r' with gap := some (addGap r.gap r.next lseq), told := true }
    let s := s.bump (Reg.RN_SESS_DROP k) F.RN_SESS_DROP_RECORDS
    if r.told then s else raiseStream s k 1

/-- STREAM_ENTRY (R425, R428): the oldest record or line record that has its LSEQ joins the record streams that take it. -/
def execStreamEntry (s : State) : Host.Outcome State Fault Refusal :=
  match s.rn.incoming with
  | [] => .next s
  | i :: rest =>
    match i.lseq with
    | none => .next s
    | some l =>
      let s := modifyRn s (fun r => { r with incoming := rest })
      .next ((List.finRange 16).foldl (fun s (k : Fin 16) =>
        match recStream s k with
        | none => s
        | some r => match wantedBytes r i with
          | none => s
          | some b => joinStream s k r i.line l b) s)

/-- The first `n` entries of the list whose RSEQ run on without a break. -/
def runOn : Nat → List RecEntry → List RecEntry
  | 0, _ => []
  | _ + 1, [] => []
  | _ + 1, [e] => [e]
  | n + 1, e :: f :: r => if f.rseq = e.rseq + 1 then e :: runOn n (f :: r) else [e]

/-- The gap entry (R428). -/
def gapBytes (g : RecGap) : List Byte :=
  leBytes 8 0 ++ leBytes 8 0 ++ leBytes 8 g.first.toNat ++ leBytes 8 g.count ++ leBytes 8 g.lsFirst.toNat ++
    leBytes 8 g.lsLast.toNat ++ List.replicate 24 0

/-- How many record entries a datagram holds beside the gap entry (R427, R428). -/
def recordRoom (s : State) (k : Fin 16) (r : RecStream) : Nat :=
  ((((session s k).map (·.budget)).getD 0) - 16) / 72 - r.gap.toList.length

/-- A RECORDS datagram with entries from the list, after the gap entry where there is one (R427, R428). -/
def sendRecords (s : State) (k : Fin 16) (r : RecStream) (es : List RecEntry) : State :=
  let g := r.gap.toList
  let es := runOn (recordRoom s k r) es
  match es with
  | [] => s
  | e :: _ =>
    let p := leBytes 8 e.rseq.toNat ++ leBytes 2 (g.length + es.length) ++ List.replicate 6 0 ++ g.flatMap gapBytes ++
      es.flatMap (fun x => leBytes 8 x.lseq.toNat ++ fitBytes 64 x.bytes)
    let last := e.rseq + BitVec.ofNat 64 es.length
    let idle := r.held.all (fun x => r.toSend.toNat ≤ x.rseq.toNat)
    let r := { r with gap := none, told := false, toSend := if r.toSend.toNat < last.toNat then last else r.toSend,
                      since := if idle then s.now else r.since }
    sessionSend (setRecStream s k r) k 0x20 r.dest (s.flag Reg.RN_CTL F.RN_CTL_REC_ENC) p

/-- The session's port is up and its peer can be reached (R407, R435). -/
def canSend (s : State) (k : Fin 16) : Bool := lpUp s (sessPort s k) && reachable s (sessPort s k) (sessPeer s k)

/-- Entries not yet sent leave once they fill a datagram, or 100 µs after the oldest of them joined (R427). -/
def recordsDue (s : State) (k : Fin 16) (r : RecStream) (es : List RecEntry) : Bool :=
  recordRoom s k r ≤ es.length || es.head?.any (fun e => e.came.toNat + 100000 ≤ s.now.toNat)

/-- RECORDS_SEND (R427–R429): a datagram of entries that were asked for again, else of entries not yet sent. -/
def execRecordsSend (k : Fin 16) (s : State) : Host.Outcome State Fault Refusal :=
  match recStream s k with
  | none => .next s
  | some r =>
    if !canSend s k then .next s
    else match r.again with
      | (a, n) :: rest =>
        let es := r.held.filter (fun e => a.toNat ≤ e.rseq.toNat && e.rseq.toNat < a.toNat + n && e.rseq.toNat < r.toSend.toNat)
        let went := (runOn (recordRoom s k r) es).length
        let left := match (es.drop went).head? with
          | none => rest
          | some f => (f.rseq, a.toNat + n - f.rseq.toNat) :: rest
        .next (sendRecords (setRecStream s k { r with again := left }) k { r with again := left } es)
      | [] =>
        let es := r.held.filter (fun e => r.toSend.toNat ≤ e.rseq.toNat)
        .next (if recordsDue s k r es then sendRecords s k r es else s)

/-- CUM as it is applied: no further than one past the highest number sent; a higher one counts in `LP_RN_REPLAY` (R429). -/
def applyCum (s : State) (k : Fin 16) (cum next : Nat) : Nat × State :=
  if next < cum then (next, s.bump (Reg.LP_RN_REPLAY (sessPort s k)) F.LP_RN_REPLAY_COUNT) else (cum, s)

/-- The ranges of an acknowledgement: count at `at'`, at most `most`, each with `w` bytes of first and of count. -/
def ackRanges (p : List Byte) (at' most w : Nat) : List (Nat × Nat) :=
  (List.range (min most (recNat p at' 2))).map (fun i => (recNat p (16 + 2 * w * i) w, recNat p (16 + 2 * w * i + w) w))

/-- REC_ACK (R429). -/
def execRecAck (d : Sealed) (payload : List Byte) (s : State) : Host.Outcome State Fault Refusal :=
  match accept s d with
  | (none, s) => .next s
  | (some k, s) =>
    match recStream s k with
    | none => .next s
    | some r =>
      let c := applyCum s k (recNat payload 0 8) r.toSend.toNat
      let cum := if r.cum.toNat < c.1 then BitVec.ofNat 64 c.1 else r.cum
      let again := (ackRanges payload 8 8 8).map (fun q => (BitVec.ofNat 64 q.1, q.2))
      .next (setRecStream c.2 k { r with cum := cum, held := r.held.filter (fun e => cum.toNat ≤ e.rseq.toNat),
                                         again := r.again ++ again,
                                         since := if r.cum.toNat < c.1 then s.now else r.since })

/-! ## Crop stream (R430, R431) -/

def cropStream (s : State) (k : Fin 16) : Option CropStream := (session s k).bind (·.crops)
def setCropStream (s : State) (k : Fin 16) (c : CropStream) : State := modifySession s k (fun x => { x with crops := some c })

def setCropItem (s : State) (k : Fin 16) (c : CropStream) (i : CropItem) : State :=
  setCropStream s k { c with items := c.items.map (fun j => if j.cseq = i.cseq then i else j) }

/-- A CROP datagram (R430). -/
def sendCrop (s : State) (k : Fin 16) (c : CropStream) (i : CropItem) (offset : Nat) (chunk : List Byte) : State :=
  sessionSend s k 0x30 c.dest (s.flag Reg.RN_CTL F.RN_CTL_CROP_ENC)
    (leBytes 8 i.cseq.toNat ++ leBytes 4 offset ++ leBytes 4 i.size ++ chunk)

/-- The most bytes of a chunk (R430). -/
def chunkSize (s : State) (k : Fin 16) : Nat := if lpMtu s (sessPort s k) = 9000 then 8896 else 1408

/-- `n` bytes of a crop from an offset, round the crop store (R249). -/
def cropData (s : State) (num offset n : Nat) : List Byte × State :=
  match s.cr.store.find? (fun c => c.num == num) with
  | none => (List.replicate n 0, s)
  | some c =>
    let z := max 1 (storeSize s)
    let p := (c.offset + offset) % z
    let r := ddrAreaRead 200 s (storeBase s + p) (min n (z - p))
    let t := ddrAreaRead 200 r.2.2 (storeBase s) (n - (z - p))
    (r.1 ++ t.1, t.2.2)

/-- A chunk of a crop leaves. -/
def sendChunk (s : State) (k : Fin 16) (c : CropStream) (i : CropItem) (offset n : Nat) : State :=
  let d := cropData s i.crop offset n
  sendCrop d.2 k c i offset d.1

/-- CROP_CHUNK_SEND (R430, R431): of the at most 4 crops in flight, a chunk that was asked for again, else the next chunk not
yet sent. -/
def execCropChunkSend (k : Fin 16) (s : State) : Host.Outcome State Fault Refusal :=
  match cropStream s k with
  | none => .next s
  | some c =>
    let flight := c.items.take 4
    if !canSend s k then .next s
    else match flight.find? (fun i => !i.again.isEmpty) with
      | some i =>
        match i.again with
        | [] => .next s
        | (a, n) :: rest =>
          let m := min (min n (chunkSize s k)) (i.sentTo - a)
          let left := if m < n ∧ 0 < m then (a + m, n - m) :: rest else rest
          let s := setCropItem s k c { i with again := left }
          .next (if m = 0 then s else sendChunk s k c i a m)
      | none =>
        match flight.find? (fun i => i.sentTo < i.size) with
        | none => .next s
        | some i =>
          let m := min (chunkSize s k) (i.size - i.sentTo)
          let since := if i.cum = i.sentTo then s.now else i.since
          .next (sendChunk (setCropItem s k c { i with sentTo := i.sentTo + m, since := since }) k c i i.sentTo m)

/-- The stream of session `k` gives up its claim on a crop in the store (R249). -/
def releaseCrop (s : State) (k : Fin 16) (num : Nat) : State :=
  let f (c : StoredCrop) : StoredCrop := if c.num = num then { c with users := c.users &&& ~~~(1#16 <<< k.val) } else c
  { s with cr := { s.cr with store := (s.cr.store.map f).filter (fun c => c.users != 0) } }

/-- The crop leaves the stream. -/
def dropCrop (s : State) (k : Fin 16) (c : CropStream) (i : CropItem) : State :=
  releaseCrop (setCropStream s k { c with items := c.items.filter (fun j => j.cseq != i.cseq) }) k i.crop

/-- CROP_ACK (R431). -/
def execCropAck (d : Sealed) (payload : List Byte) (s : State) : Host.Outcome State Fault Refusal :=
  match accept s d with
  | (none, s) => .next s
  | (some k, s) =>
    match (cropStream s k).bind (fun c => ((c.items.take 4).find? (fun i => i.cseq == recWord payload 0)).map (fun i => (c, i))) with
    | none => .next s
    | some (c, i) =>
      let a := applyCum s k (recNat payload 8 4) i.sentTo
      let cum := max i.cum a.1
      if cum = i.size then .next (dropCrop a.2 k c i)
      else
        let since := if i.cum < cum then s.now else i.since
        .next (setCropItem a.2 k c { i with cum := cum, since := since, again := i.again ++ ackRanges payload 12 16 4 })

/-- CROP_ABANDONED (R431): a crop unfinished `CROP_HOLD_MS` after it was handed over. -/
def execCropAbandoned (k : Fin 16) (s : State) : Host.Outcome State Fault Refusal :=
  let hold := s.fld Reg.RN_CTL F.RN_CTL_CROP_HOLD_MS * 1000000
  match (cropStream s k).bind (fun c => (c.items.find? (fun i => i.handed.toNat + hold ≤ s.now.toNat)).map (fun i => (c, i))) with
  | none => .next s
  | some (c, i) =>
    let s := dropCrop (sendCrop s k c i 0xFFFFFFFF []) k c i
    .next (raiseStream (s.bump (Reg.RN_SESS_DROP k) F.RN_SESS_DROP_CROPS) k 2)

/-! ## Notifications (R432, R433) -/

def eventStream (s : State) (k : Fin 16) : Option EventStream := (session s k).bind (·.events)
def setEventStream (s : State) (k : Fin 16) (x : EventStream) : State := modifySession s k (fun y => { y with events := some x })

/-- A NOTIFY with the next NSEQ (R432). -/
def sendNotify (s : State) (k : Fin 16) (x : EventStream) (kind : Nat) (content : List Byte) : State :=
  let p := leBytes 8 x.next.toNat ++ leBytes 1 kind ++ List.replicate 7 0 ++ content
  let since := if x.held.isEmpty then s.now else x.since
  let s := setEventStream s k { x with next := x.next + 1, held := x.held ++ [(x.next, p)], since := since }
  sessionSend s k 0x40 x.dest true p

/-- A notification for session `k`; with 64 outstanding it is not sent (R433). -/
def notify (s : State) (k : Fin 16) (x : EventStream) (kind : Nat) (content : List Byte) : State :=
  if x.held.length < 64 then sendNotify s k x kind content
  else
    let s := setEventStream s k { x with missed := x.missed + 1 }
    raiseStream (s.bump (Reg.RN_SESS_DROP k) F.RN_SESS_DROP_NOTIFY) k 3

/-- KP_FAULT with cause ECC has reached the abutment die (R454). -/
def keeperFault (s : State) (src cause : Nat) : State :=
  if h : 1004 ≤ src ∧ src < 1008 ∧ cause = 1 then mendKeeper s ⟨src - 1004, by omega⟩ else s

/-- NOTIFY_SEND (R432): the oldest raise that has reached the abutment die, else the oldest mailbox notification, goes to the
event streams. The die mends the local memory of a Keeper whose fault has reached it (R454). -/
def execNotifySend (s : State) : Host.Outcome State Fault Refusal :=
  if !s.ab.up then .next s
  else match s.cw.msgs.find? (fun p => p.dst.val == 77 && p.src.val == 43) with
    | some p =>
      let src := recNat p.data 0 4 % 1024
      let s := keeperFault (modifyCw s (fun w => { w with msgs := w.msgs.erase p })) src (recNat p.data 7 1)
      let time := recWord p.data 8
      let ptp := time + s.reg64 Reg.TM_EPOCH_LO Reg.TM_EPOCH_HI
      .next ((List.finRange 16).foldl (fun s (k : Fin 16) =>
        match eventStream s k with
        | none => s
        | some x =>
          if x.first.toNat ≤ src ∧ src ≤ x.last.toNat then
            notify s k x 1 ((p.data.take 16) ++ leBytes 8 ptp.toNat)
          else s) s)
    | none =>
      match s.ab.notes with
      | [] => .next s
      | (c, bs) :: rest =>
        let s := modifyAb s (fun a => { a with notes := rest })
        .next ((List.finRange 16).foldl (fun s (k : Fin 16) =>
          match eventStream s k with
          | none => s
          | some x => notify s k x 2 (leBytes 1 c.val ++ leBytes 1 bs.length ++ bs)) s)

/-- NOTIFY_ACK (R433): notifications below CUM are freed; once space frees, the overflow notification is sent. -/
def execNotifyAck (d : Sealed) (payload : List Byte) (s : State) : Host.Outcome State Fault Refusal :=
  match accept s d with
  | (none, s) => .next s
  | (some k, s) =>
    match eventStream s k with
    | none => .next s
    | some x =>
      let c := applyCum s k (recNat payload 0 8) x.next.toNat
      let held := x.held.filter (fun h => c.1 ≤ h.1.toNat)
      let since := if held.length < x.held.length then s.now else x.since
      let y : EventStream := { x with held := held, since := since }
      if 0 < y.missed ∧ y.held.length < 64 then
        .next (sendNotify c.2 k { y with missed := 0 } 3
          (leBytes 4 y.missed ++ List.replicate 4 0 ++ leBytes 8 (y.next - 1).toNat))
      else .next (setEventStream c.2 k y)

/-! ## Resends (R429, R431, R433) -/

/-- `RTO_MS` has passed since a device time. -/
def resendDue (s : State) (t : BitVec 64) : Bool := t.toNat + s.fld Reg.RN_CTL F.RN_CTL_RTO_MS * 1000000 ≤ s.now.toNat

/-- STREAM_RESEND (R429, R431, R433): CUM has not advanced for `RTO_MS`; the datagram that starts at CUM is sent again. Kinds 0
records, 1 crops, 2 notifications. -/
def execStreamResend (k : Fin 16) (kind : Fin 3) (s : State) : Host.Outcome State Fault Refusal :=
  if !canSend s k then .next s
  else if kind = 0 then
    match recStream s k with
    | none => .next s
    | some r =>
      let es := r.held.filter (fun e => e.rseq.toNat < r.toSend.toNat)
      .next (if resendDue s r.since then sendRecords s k { r with since := s.now } es else s)
  else if kind = 1 then
    match (cropStream s k).bind (fun c =>
      ((c.items.take 4).find? (fun i => i.cum < i.sentTo && resendDue s i.since)).map (fun i => (c, i))) with
    | none => .next s
    | some (c, i) =>
      let s := setCropItem s k c { i with since := s.now }
      .next (sendChunk s k c i i.cum (min (chunkSize s k) (i.sentTo - i.cum)))
  else
    match (eventStream s k).bind (fun x => x.held.head?.map (fun h => (x, h))) with
    | none => .next s
    | some (x, h) =>
      if resendDue s x.since then
        .next (sessionSend (setEventStream s k { x with since := s.now }) k 0x40 x.dest true h.2)
      else .next s

end Sys2Proof.Machine
end

