-- ==== Sys2Proof/Machine/UpdateApply.lean ====
section
/-!
DEFINITION. Applying, confirming and reverting updates (R358–R360, R439, R446–R451): the meanings of CHANGE_SWITCH, APPLIED,
UPD_CONFIRMED and UPDATE_REVERTED.
-/

namespace Sys2Proof.Machine

/-! ## What a component brings (R438, R446) -/

/-- The package of an update, parsed. -/
def Update.image (s : State) (u : Update) : Image := parseImage s u.package

/-- VERSION of a package of KIND 3, 4 or 5 (R438). -/
def packageVersion (bs : List Byte) : Nat := recNat bs 20 4

/-- The library that the roles take: the package's, or on a revert the one in force. -/
def updateLibrary (s : State) (u : Update) : List MicroBlock :=
  if u.reason = 0 then [MicroBlock.ofBytes ((u.image s).first 6)]
  else ((s.pl.image.map (bootMicro s)).getD []).filter (fun b => b.kind == 1)

/-- The image that the roles take: of a whole image, the new one, or on a revert the one before. -/
def updateImage (s : State) (u : Update) : Option Image :=
  if u.comp = 6 then (if u.reason = 0 then some (u.image s) else u.before) else s.pl.image

/-- The library routines of controller `n` are those of a block; owner routines stay (R74, R77). -/
def loadLibrary (s : State) (n : Fin 17) (b : MicroBlock) : State :=
  let x := s.micro n
  showMicro (writeMicro (s.setMicro n { x with routines := x.routines.filter (fun r => 512 ≤ r.number) }) n b 0 0) n b

/-- Pair `n` takes the new set of stores (R446): the library, or of a whole image the owner routines and the programs, under the
library in force (R439). -/
def prepPair (s : State) (u : Update) (n : Fin 17) : State :=
  if u.comp = 1 then (updateLibrary s u).foldl (fun s b => loadLibrary s n b) s
  else match updateImage s u with
    | none => s
    | some g =>
      let lib := ((s.pl.image.map (bootMicro s)).getD []).filter (fun b => b.kind == 1)
      let s := loadMicro s n (lib ++ (microBlocks false (g.first 6)).filter (fun b => b.kind == 2))
      (g.ofType 5).foldl (fun s x => let p := Program.ofBytes x.content; writeProgram s n p.index p) s

/-- The REGS entries of an image that lie in the scope of role `l` are applied. -/
def applyScoped (s : State) (g : Image) (l : Nat) : State :=
  (((allRegs g).map (·.1)).filter (fun e => regsInScope l e.addr)).foldl applyEntry s

/-- The REGS entries that lie in no role's scope are applied. -/
def applyUnscoped (s : State) (g : Image) : State :=
  (((allRegs g).map (·.1)).filter (fun e => !(List.range 16).any (fun l => regsInScope l e.addr))).foldl applyEntry s

/-- `PL_ROLE` of role `l` shows program, HIST and checkpoint rows of an image. -/
def roleSettings (s : State) (g : Image) (l : Nat) : State :=
  let e := roleEntry (g.first 2) l
  let a := Reg.PL_ROLE l
  ((s.setFld a F.PL_ROLE_BANK e.program).setFld a F.PL_ROLE_HIST e.hist).setFld a F.PL_ROLE_CROWS e.crows

/-! ## Role by role (R446) -/

/-- Role `l` has taken the new set: counted, and UPD_PROGRESS raised with ROLE_SWITCHED (R452). -/
def roleSwitched (s : State) (u : Update) (l : Nat) : State :=
  let s := modifyUpdate s (fun u => { u with left := u.left.filter (fun r => r != l) })
  (s.bump (Reg.UPD_COMP u.comp) F.UPD_COMP_PROGRESS).raise 998 (payCause 2 u.comp l)

/-- A planned change of role `l` starts on the standby (R359, R446). -/
def beginRole (s : State) (u : Update) (l : Nat) (old new : Fin 17) : State :=
  match updateImage s u, s.pl.image with
  | some g, some cur =>
    let s := prepPair s u new
    let carry := (roleEntry (g.first 2) l).flags % 2 = 1
    let e := Reg.SPC_ENTRY old
    let bank := if u.comp = 6 then (roleEntry (g.first 2) l).program else s.fld (Reg.PL_ROLE l) F.PL_ROLE_BANK
    let p := imageProgram g bank
    let entry := if u.comp = 6 then (p.map (·.entry)).getD 0 else s.fld e F.SPC_ENTRY_ENTRY
    let ivec := if u.comp = 6 then (p.map (·.ivec)).getD 0 else s.fld e F.SPC_ENTRY_IVEC
    let region := if u.comp = 6 then (((g.ofType 4).find? (fun x => recNat x.content 0 1 == l)).map (·.content)).getD []
      else (storedRegion s l).getD []
    stageChange s ⟨cur, Fin.ofNat 16 l, old, new, bank, 0, false⟩ region entry ivec carry
  | _, _ => s

/-- An in-place change of the group of role `l` (R358, R446): its spans stop-drain, and once they are stopped they take the new
set and start. -/
def inPlace (s : State) (u : Update) (l : Nat) : State :=
  let ps := groupPairs s l
  if ps.any (fun p => spcState s p.2 != 3) then ps.foldl (fun s p => stopDrain s p.2) s
  else
    let s := ps.foldl (fun s p =>
      let s := prepPair s u p.2
      if u.comp ≠ 6 then s
      else match updateImage s u with
        | none => s
        | some g =>
          let s := match (g.ofType 4).find? (fun x => recNat x.content 0 1 == p.1) with
            | some x => streamRegion s p.2 x.content
            | none => s
          let q := (roleEntry (g.first 2) p.1).program
          let o := imageProgram g q
          applyScoped (roleSettings (setProgram s p.2 q ((o.map (·.entry)).getD 0) ((o.map (·.ivec)).getD 0)) g p.1) g p.1) s
    let s := ps.foldl (fun s p => startWritten s p.2) s
    ps.foldl (fun s p => roleSwitched s u p.1) s

/-- The next role of the update in progress goes on as far as it can: alone, by a planned change once the standby is READY; a
coupled group, and on a revert any role while no standby is READY, in place. -/
def advanceRole (s : State) : State :=
  match s.up.current with
  | none => s
  | some u =>
    match u.left with
    | [] => s
    | l :: rest =>
      match pairOf s l with
      | none => modifyUpdate s (fun u => { u with left := rest })
      | some old =>
        if s.pl.change.isSome ∨ plState s ≠ 1 then s
        else if domSize s l = 1 ∧ standbyReady s then
          (match standby s with
            | some new => beginRole s u l old new
            | none => s)
        else if domSize s l ≠ 1 ∨ u.reason ≠ 0 then inPlace s u l
        else s

def advanceRoles (s : State) : State := (List.range 16).foldl (fun s _ => advanceRole s) s

/-- The roles by which an update goes on: each role alone, each coupled group by its lead. -/
def rolesToSwitch (s : State) : List Nat :=
  (List.range 16).filter (fun l => (pairOf s l).isSome && s.fld (Reg.PL_ROLE l) F.PL_ROLE_POS == 0)

/-- Role `l` of a planned change has switched for an update: a whole image's settings of the role take effect. -/
def updateSwitched (s : State) (l : Nat) : State :=
  match s.up.current with
  | none => s
  | some u =>
    if !u.left.contains l ∨ (u.comp ≠ 1 ∧ u.comp ≠ 6) then s
    else
      let s := match (if u.comp = 6 then updateImage s u else none) with
        | none => s
        | some g => applyScoped (roleSettings s g l) g l
      advanceRoles (roleSwitched s u l)

/-- CHANGE_SWITCH (R360): the standby span has line-synced onto the switch line or beyond, the old span has no set below it left
to send and no word on its way, and both stand between two operations (R80). Roles swap; the old pair drains and becomes the standby, or is tested (R357). -/
def execChangeSwitch (s : State) : Host.Outcome State Fault Refusal :=
  match s.pl.change with
  | none => .next s
  | some c =>
    let line := s.reg64 Reg.PL_SWITCH_LO Reg.PL_SWITCH_HI
    let reached := (s.ctl (lead s c.new)).served.any (fun l => line.toNat ≤ l.index.toNat)
    let x := s.ext c.old
    let below := x.sets.any (fun e => e.ord.isNone && e.line.toNat < line.toNat) || !x.out.isEmpty || !x.sent.isEmpty ||
      !(wordsUnderWay s c.old).isEmpty
    if !c.going ∨ !reached ∨ below ∨ !opsIdle s [c.old, c.new] then .next s
    else
      let r := Reg.PL_ROLE c.role
      let s := setUse (holdRole s c.old 31) c.old 0
      let s := setUse (holdRole ((s.setFld r F.PL_ROLE_PHYS c.new.val).setFld r F.PL_ROLE_BANK c.bank) c.new c.role) c.new 1
      let s := { s with muted := s.muted.filter (fun p => p.1 != c.old && p.1 != c.new) }
      let s := rgDisable (routeHead s c.old none) c.old
      let s := if c.image.kind = 2 then applyPartial s c else s
      let s := extend s 7 (hash48 (c.image.header ++ c.image.manifest))
      let a := Reg.PL_CHANGE
      let s := setPlState ((s.setFld a F.PL_CHANGE_STATE 4).setFld a F.PL_CHANGE_GO 0) 1
      let s := (modifyPl s (fun p => { p with change := none })).raise 985 (payCause 3 c.role)
      let s := (s.setFld Reg.PL_STAT F.PL_STAT_SBY_PHYS c.old.val).setFld (Reg.PL_ROLE 16) F.PL_ROLE_PHYS c.old.val
      let s := setSby (setUse (holdRole s c.old 16) c.old 2) 4
      if s.pl.test = some c.old then .next (beginTest s c.old)
      else
        let s := placePair (stopDrain s c.old) 0 c.old 0 0
        .next (updateSwitched (if spcState s c.old = 3 ∧ sby s = 4 then setSby s 1 else s) c.role)

/-! ## Whole images in service (R446) -/

/-- The free pairs for roles that an image newly uses, placed as R354 places them; `none` where they find no pair. -/
def placeNew (s : State) (g : Image) : Option (List (Nat × Nat)) :=
  let rot := s.fld Reg.PL_STAT F.PL_STAT_ROT
  let fresh (l : Nat) : Bool := (pairOf s l).isNone
  let leads := (usedRoles g).filter (fun l => (roleEntry (g.first 2) l).lead == l && fresh l)
  let size (l : Nat) : Nat := (groupMembers g l).length
  let coupled := [16, 8, 4, 2].flatMap (fun k => leads.filter (fun l => size l == k))
  let start : Placing := ⟨(List.range 17).filter (fun n => pairEligible s n && plUse s n == 0), [], none⟩
  ((leads.filter (fun l => size l == 1)).foldl (placeSingle rot) (coupled.foldl (placeGroup s g rot) (some start))).map
    (fun p => p.roles)

/-- Roles with a pair that an image no longer uses. -/
def unusedRoles (s : State) (g : Image) : List Nat :=
  (List.range 16).filter (fun l => (pairOf s l).isSome && !(usedRoles g).contains l)

/-- A role that an image no longer uses stop-drains; once its span is stopped it leaves its pair (R80, R446). -/
def dropRole (s : State) (l : Nat) : State :=
  match pairOf s l with
  | none => s
  | some n =>
    let s := stopDrain s n
    if spcState s n ≠ 3 then s
    else
      let s := rgDisable (routeHead s n none) n
      (setUse (holdRole s n 31) n 0).setReg (Reg.PL_ROLE l) (resetWord (Reg.PL_ROLE l))

/-- Roles that an image no longer uses leave their pairs; roles that it newly uses start on idle pairs. -/
def matchRoles (s : State) (u : Update) (g : Image) : State :=
  let s := (unusedRoles s g).foldl dropRole s
  match placeNew s g with
  | none => s
  | some roles =>
    let s := roles.foldl (fun s p => placeRole s g p.1 p.2) s
    let s := refreshJoints s
    roles.foldl (fun s p =>
      match pairOf s p.1 with
      | none => s
      | some n =>
        let s := prepPair s u n
        let s := match (g.ofType 4).find? (fun x => recNat x.content 0 1 == p.1) with
          | some x => streamRegion s n x.content
          | none => s
        let s := applyScoped (routeHead s n (headOfRole s p.1)) g p.1
        setRoleState (startWritten s n) p.1 1) s

/-- The routes, REGS outside role scope and heads of an image take effect, and its roles are matched. -/
def applyShared (s : State) (u : Update) (g : Image) : State :=
  let s := routeFlip (routesTo s (if routeEpoch s then 0 else 1) (g.first 8))
  matchRoles (applyHeads (applyUnscoped s g) (g.first 3)) u g

/-- The owner Keeper block of an image follows (R328). -/
def ownerBlockFollows (s : State) (g : Image) : State :=
  let p := Config.keeperSection (g.first 7)
  if p.hasOwner then (List.finRange 4).foldl (loadKeeper p) s else s

/-- Every span without a duty role is stopped, so that its words may be rewritten (R77). -/
def idleStopped (s : State) : Bool := (List.finRange 17).all (fun (n : Fin 17) => s.roleOf n < 16 || spcState s n == 3)

/-- The image that an update of all roles brings, or on a revert the one before. -/
def rolesImage (s : State) (u : Update) : Option Image := if u.comp = 6 then updateImage s u else none

/-- Applying or reverting is over: no role is left to switch, none that the image does not use is left, and no span that is to
take the new set still drains. -/
def rolesSettled (s : State) : Bool :=
  s.up.current.any (fun (u : Update) => u.left.isEmpty && (rolesImage s u).all (fun g => (unusedRoles s g).isEmpty)) &&
    s.pl.change.isNone &&
    (idleStopped s || s.up.current.any (fun (u : Update) => u.comp != 1 && u.comp != 6))

/-! ## Keepers (R446) -/

/-- The blocks of a Keeper firmware package, with nothing for the owner half; on a revert those in force. -/
def updateKeeper (s : State) (u : Update) : KeeperParts :=
  if u.reason = 0 then Config.keeperSection ((u.image s).first 7)
  else (s.pl.image.map (bootKeeper s)).getD (Config.keeperSection [])

/-- The partner of a Keeper: K0 with K1, K2 with K3. -/
def keeperPartner (k : Nat) : Nat := if k % 2 = 0 then k + 1 else k - 1

/-- Keeper target of the sources listed. -/
def routeTo (s : State) (xs : List Nat) (k : Nat) : State :=
  xs.foldl (fun s x => s.setFld (Reg.EH_SRC x) F.EH_SRC_KEEPER k) s

/-- The next Keeper of the update in progress goes on: its sources move to its partner; once none of them is pending there, it is
stopped, takes its firmware half (R327) and runs again, its sources move back, and SW7 is raised to it as a test; once it has
dispatched that, or 1 ms has passed, the next Keeper follows. -/
def advanceKeeper (s : State) : State :=
  match s.up.current with
  | none => s
  | some u =>
    match u.left with
    | [] => s
    | l :: rest =>
      let k : Fin 4 := Fin.ofNat 4 l
      let test := Reg.EH_SRC 1023
      if u.phase = 0 then
        let mine := (List.range 1024).filter (fun x =>
          s.flag (Reg.EH_SRC x) F.EH_SRC_K_EN && s.fld (Reg.EH_SRC x) F.EH_SRC_KEEPER == k.val)
        modifyUpdate (routeTo s mine (keeperPartner k)) (fun u => { u with moved := mine, phase := 1 })
      else if u.phase = 1 then
        if u.moved.any (fun x => s.flag (Reg.EH_PEND x) F.EH_PEND_KPEND) then s
        else
          let s := routeTo (keeperRun (writeFirmware (keeperStop s k) k (updateKeeper s u)) k) u.moved k
          let s := modifyUpdate s (fun u => { u with moved := [], restart := s.now, route := s.reg test, phase := 2 })
          ((s.setFld test F.EH_SRC_KEEPER k).setFld test F.EH_SRC_K_EN 1).raise 1023 (s.reg Reg.EH_RAISE_PAY)
      else if u.tested.contains l ∨ u.restart.toNat + 1000000 < s.now.toNat then
        modifyUpdate (s.setReg test u.route) (fun u => { u with left := rest, phase := 0 })
      else s

/-- K3, K2, K1 and K0, as far as they can go. -/
def advanceKeepers (s : State) : State := (List.range 12).foldl (fun s _ => advanceKeeper s) s

/-- The Keepers start to be reloaded, from K3 on. -/
def beginKeepers (s : State) : State :=
  advanceKeepers (modifyUpdate s (fun u => { u with left := [3, 2, 1, 0], phase := 0, tested := [] }))

/-- An update goes on: its Keepers, or the roles that its image drops or adds and those that switch. -/
def advanceUpdate (s : State) (u : Update) : State :=
  if u.comp = 2 then advanceKeepers s
  else advanceRoles (match rolesImage s u with
    | some g => if (unusedRoles s g).isEmpty then s else matchRoles s u g
    | none => s)

/-- The pairs that hold no role take the new set too. -/
def prepIdle (s : State) (u : Update) : State :=
  (List.finRange 17).foldl (fun s (n : Fin 17) => if s.roleOf n < 16 then s else prepPair s u n) s

/-! ## Slots (R446) -/

/-- A package is written to a slot of the flash as TRIAL. -/
def writeTrial (s : State) (slot : Nat) (bs : List Byte) : State :=
  let id := if slot < 2 then 0 else recNat bs 8 4
  let s := modifyAb s (fun a => { a with slots := a.slots.setIfInBounds slot bs })
  setDirEntry s slot ⟨3, recNat bs 12 4, BitVec.ofNat 32 (packageVersion bs), BitVec.ofNat 32 id⟩

/-- The firmware slot, and the image slot, that is not in use. -/
def spareFirmware (s : State) : Nat := 1 - s.fld Reg.ABT_STAT F.ABT_STAT_FSLOT
def spareImage (s : State) : Nat := 3 - s.fld Reg.ABT_STAT F.ABT_STAT_ISLOT

/-- A committed component starts to be applied (R446). -/
def beginApply (s : State) : State :=
  match s.up.current with
  | none => s
  | some u =>
    if u.comp = 1 then advanceRoles (modifyUpdate s (fun u => { u with left := rolesToSwitch s }))
    else if u.comp = 2 then beginKeepers s
    else if u.comp = 3 then abutmentDown (writeTrial s (spareFirmware s) u.package)
    else if u.comp = 6 then
      let g := u.image s
      let left := (rolesToSwitch s).filter (fun l => (usedRoles g).contains l)
      let s := applyShared (writeTrial s (spareImage s) u.package) u g
      advanceRoles (modifyUpdate s (fun u => { u with left := left }))
    else if 0x10 ≤ u.comp then relayNext s (Fin.ofNat 16 u.comp)
    else s

/-! ## APPLIED (R446) -/

/-- Applying has ended: the confirmation window starts, and UPD_PROGRESS is raised with APPLIED. -/
def startWindow (s : State) (u : Update) : State :=
  let s := modifyUpdate s (fun u => { u with since := s.now, soakSince := s.now })
  let s := (setCompState s u.comp 4).setFld Reg.UPD_STAT F.UPD_STAT_LEFT u.window
  s.raise 998 (payCause 3 u.comp)

/-- What is left to do at the end of applying. -/
def finishApply (s : State) (u : Update) : State :=
  if u.comp = 1 then prepIdle s u
  else if u.comp = 6 then
    let g := u.image s
    let s := ownerBlockFollows (prepIdle s u) g
    modifyAb (modifyPl s (fun p => { p with image := some g })) (fun a => { a with manifestHash := (g.header.drop 32).take 48 })
  else s

/-- APPLIED (R446, R449): with roles left to switch, applying goes on as far as it can; with none left, it ends and the
confirmation window starts. A head's applying ends once ATTACH has been written (R450). -/
def execApplied (s : State) : Host.Outcome State Fault Refusal :=
  match s.up.current with
  | none => .next s
  | some u =>
    if !s.ab.up ∨ compState s u.comp ≠ 3 then .next s
    else
      let s := advanceUpdate s u
      let due := rolesSettled s && (u.comp < 0x10 || u.phase == 3)
      .next (if due then startWindow (finishApply s u) u else s)

/-! ## UPD_CONFIRMED (R446, R447, R451) -/

/-- Every check of R446 and R451 that State shows holds. -/
def healthy (s : State) (u : Update) : Bool :=
  let placed := (List.range 16).filterMap (fun l => (pairOf s l).map (fun n => (l, n)))
  if u.comp = 1 then
    placed.all (fun p => (updateLibrary s u).all (fun b => (s.reg (Reg.MC_VER_0 p.2)).toNat == b.version))
  else if u.comp = 2 then (List.range 4).all u.tested.contains
  else if u.comp = 3 then slotMark s (s.fld Reg.ABT_STAT F.ABT_STAT_FSLOT) == 4 && storeMatches s && epState s 77 == 0
  else if u.comp = 6 then
    placed.all (fun p => roleState s p.1 == 1 && ((storedRegion s p.1).isNone || s.reg (Reg.CFG_IMAGE p.2) == (u.image s).id))
  else
    let h := u.comp % 16
    hpState s h == 7 && s.readLE (Win.desc h + 56) 4 == packageVersion u.package

/-- The component as the settings generation records it. -/
def declared (s : State) (u : Update) : Declared :=
  ⟨u.comp, packageVersion u.package, (compatEntries ((u.image s).first 1)).map (fun e => (e.1, e.2.2.1, e.2.2.2))⟩

/-- SVN and counter of a component (R376, R438). -/
def svnOf (s : State) (u : Update) : Option (Fin 4 × Nat) :=
  if u.comp = 1 then some (2, (MicroBlock.ofBytes ((u.image s).first 6)).svn)
  else if u.comp = 2 then some (1, (Config.keeperSection ((u.image s).first 7)).fwSvn)
  else if u.comp = 3 then some (0, recNat u.package 12 4)
  else if u.comp = 6 then some (3, recNat u.package 12 4) else none

/-- The trial slot of a pair of slots becomes ACTIVE, and the former ACTIVE slot VALID (R447). -/
def confirmSlot (s : State) (base : Nat) : State :=
  [base, base + 1].foldl (fun s i =>
    if slotMark s i = 2 then setSlotMark s i 1
    else if slotMark s i = 3 ∨ slotMark s i = 4 then setSlotMark s i 2 else s) s

/-- The steps of R447, in their order. -/
def confirm (s : State) (u : Update) : State :=
  let g := u.image s
  let s := writeGeneration (addOutcome s u.comp 0) (fun x => { x with
    installed := x.installed.filter (fun d => d.comp != u.comp) ++ [declared s u],
    library := if u.comp = 1 then g.first 6 else x.library,
    keeper := if u.comp = 2 then g.first 7 else x.keeper })
  let s := if u.comp = 3 then confirmSlot s 0 else if u.comp = 6 then
    (confirmSlot s 2).setFld Reg.ABT_STAT F.ABT_STAT_ISLOT (1 - s.fld Reg.ABT_STAT F.ABT_STAT_ISLOT) else s
  let s := match svnOf s u with
    | some (i, v) => advanceCounter s u.comp i v
    | none => s
  let s := extend s 7 (hash48 (g.header ++ g.manifest))
  let s := s.raise 999 (payCause 0 u.comp)
  let s := if 0x10 ≤ u.comp then raiseHeadUpdate s (u.comp % 16) 3 else s
  endUpdate s u.comp 5

/-- UPD_CONFIRMED (R446, R447, R451): the component is healthy and its soak has passed. A head is confirmed without a soak. -/
def execUpdConfirmed (s : State) : Host.Outcome State Fault Refusal :=
  match s.up.current with
  | none => .next s
  | some u =>
    let t := s.now.toNat
    let soaked := 0x10 ≤ u.comp ∨
      (u.soakSince.toNat + u.soak * 1000000000 ≤ t ∧ t < u.since.toNat + u.window * 1000000000)
    if s.ab.up ∧ compState s u.comp = 4 ∧ healthy s u ∧ soaked then .next (confirm s u) else .next s

/-! ## UPDATE_REVERTED (R448, R449) -/

/-- The revert of a component has ended: 1 SETTINGS, 2 HEALTH, 3 TIMEOUT, 4 MANUAL, 5 FAULT, 6 POWER. -/
def finishRevert (s : State) (u : Update) : State :=
  let s := if u.comp ≠ 6 then s
    else
      let s := if slotMark s (spareImage s) = 3 then setSlotMark s (spareImage s) 5 else s
      match u.before with
      | none => s
      | some g =>
        let s := ownerBlockFollows (prepIdle s u) g
        modifyAb (modifyPl s (fun p => { p with image := some g }))
          (fun a => { a with manifestHash := (g.header.drop 32).take 48 })
  let s := if u.comp = 1 then prepIdle s u else s
  let s := (endUpdate (addOutcome s u.comp u.reason) u.comp 7).setFld (Reg.UPD_COMP u.comp) F.UPD_COMP_REASON u.reason
  s.raise 1000 (payCause u.reason u.comp)

/-- A revert begins (R448). Trial firmware gives way at a restart of the abutment die; Keepers reload the block in force; roles
switch back under the old routes; a head keeps its new firmware, and its update ends with HEAD. -/
def startRevert (s : State) (u : Update) (reason : Nat) : State :=
  let u := { u with reason := reason }
  let s := setCompState (modifyUpdate s (fun _ => u)) u.comp 6
  if 0x10 ≤ u.comp then failHeadUpdate s (u.comp % 16) 4
  else if u.comp = 2 then beginKeepers s
  else if u.comp = 3 then
    (if slotMark s (s.fld Reg.ABT_STAT F.ABT_STAT_FSLOT) = 4 then abutmentDown s else finishRevert s u)
  else
    let s := match u.comp, u.before with
      | 6, some g => applyShared s u g
      | _, _ => s
    advanceRoles (modifyUpdate s (fun u => { u with left := rolesToSwitch s }))

/-- Whether a reason applies to the component in progress: HEALTH where a check of R446 fails, of trial firmware also for those that
only the firmware sees; TIMEOUT once the window has expired; FAULT where a takeover during applying has left no READY standby once
`WINDOW_S` has passed since the commit (log, entry 113). MANUAL is a command's, POWER a reset's. -/
def revertDue (s : State) (u : Update) (reason : Nat) : Bool :=
  let st := compState s u.comp
  if reason = 1 then st == 4 && u.comp == 3
  else if reason = 2 then st == 4 && (u.comp == 3 || !healthy s u)
  else if reason = 3 then st == 4 && u.since.toNat + u.window * 1000000000 ≤ s.now.toNat
  else if reason = 5 then
    st == 3 && u.taken && !standbyReady s && s.pl.change.isNone && u.since.toNat + u.window * 1000000000 ≤ s.now.toNat
  else false

/-- UPDATE_REVERTED (R448): a revert begins, or one in progress goes on and ends; after a power loss the component that was not
confirmed is reported with POWER. -/
def execUpdateReverted (reason : Fin 7) (s : State) : Host.Outcome State Fault Refusal :=
  if !s.ab.up then .next s
  else match s.up.current with
    | none =>
      match s.up.lost with
      | some u =>
        if reason = 6 then
          let s := addOutcome (modifyUp s (fun p => { p with lost := none })) u.comp 6
          .next (((setCompState s u.comp 7).setFld (Reg.UPD_COMP u.comp) F.UPD_COMP_REASON 6).raise 1000 (payCause 6 u.comp))
        else .next s
      | none => .next s
    | some u =>
      if compState s u.comp = 6 then
        let s := advanceUpdate s u
        let done := rolesSettled s
        .next (if done then finishRevert s u else s)
      else .next (if revertDue s u reason then startRevert s u reason else s)

end Sys2Proof.Machine
end

