-- ==== Sys2Proof/Machine/Updates.lean ====
section
/-!
DEFINITION. The update operations of the Rener service (R442–R445, R448): meanings of UPD_START to UPD_PLAN and
LEASE_EXPIRY.
-/

namespace Sys2Proof.Machine

/-! ## Components, rights, leases (R438, R442–R444) -/

/-- The components of R438. -/
def compListed (c : Nat) : Bool := [1, 2, 3, 6, 7].contains c || (0x10 ≤ c && c < 0x20)

/-- The right that a component needs: IMAGE for 6 and 7, else UPDATE (R442). -/
def compGranted (s : State) (k : Fin 16) (c : Nat) : Bool := (sessRights s k).testBit (if c = 6 ∨ c = 7 then 5 else 6)

/-- An operation is answered with a status of R443, and UPD_REFUSED raised (R452). -/
def refuseOp (s : State) (c status : Nat) (body : List Byte := []) : Nat × List Byte × State :=
  (status, body, raiseRefused s c status)

/-- The lease of session `k` that LEASE names (R443). -/
def leaseNamed (s : State) (k : Fin 16) (id : Nat) : Option Lease :=
  s.up.leases.find? (fun (l : Lease) => l.id.toNat == id && l.session == k)

def setLease (s : State) (l : Lease) : State :=
  modifyUp s (fun u => { u with leases := u.leases.map (fun (x : Lease) => if x.comp = l.comp then l else x) })

/-- Bytes held contiguously from offset 0. -/
def heldFrom0 (l : Lease) : Nat :=
  l.blocks.foldl (fun n _ => l.blocks.foldl (fun (n : Nat) b => if b.1 ≤ n then max n (b.1 + b.2.length) else n) n) 0

/-- The bytes held: a later block over an earlier one. -/
def assembled (l : Lease) : List Byte :=
  l.blocks.foldl (fun (acc : List Byte) b => acc.take b.1 ++ b.2 ++ acc.drop (b.1 + b.2.length)) (List.replicate l.total 0)

/-- The most bytes of a component's package (R443 SPACE). -/
def spaceOf (c : Nat) : Nat :=
  if c = 3 then 8 * 2 ^ 20 else if c = 6 ∨ c = 7 then 24 * 2 ^ 20 else if c = 1 ∨ c = 2 then 2 ^ 20 else 16 * 2 ^ 20

/-- A lease identity that no live lease has: the first of `w`, `w` + 1, …. -/
def freshLease (s : State) : Nat → BitVec 32 → BitVec 32
  | 0, w => w
  | fuel + 1, w => if s.up.leases.any (fun (l : Lease) => l.id == w) then freshLease s fuel (w + 1) else w

/-- UPD_START (R442–R444). -/
def execUpdStart (r : Request) (body : List Byte) (s : State) : Host.Outcome State Fault Refusal :=
  let c := recNat body 0 2
  let w := if recNat body 12 2 = 0 then 300 else recNat body 12 2
  let k' := recNat body 14 2
  let soak := if k' = 0 then min 60 (w / 2) else k'
  .next (runCommand 0x100 none r (fun k s =>
    if body.length ≠ 64 ∨ w < 60 ∨ 3600 < w ∨ w / 2 < soak ∨ (c = 7 ∧ 15 < recNat body 2 1) then (2, [], s)
    else if !compGranted s k c then (3, [], s)
    else if !compListed c then refuseOp s c 27
    else if (leaseOf s c).isSome ∨ s.up.current.any (fun (u : Update) => u.comp == c) then refuseOp s c 16
    else if spaceOf c < recNat body 4 8 then refuseOp s c 26
    else
      let d := s.draw 32
      let id := freshLease d.2 70 d.1
      let l : Lease := ⟨c, id, k, recNat body 2 1, recNat body 4 8, w, soak, (body.drop 16).take 48, [], s.now⟩
      let s := modifyUp d.2 (fun u => { u with leases := u.leases ++ [l] })
      let a := Reg.UPD_COMP c
      let s := (((setCompState s c 1).setFld a F.UPD_COMP_SESSION k.val).setFld a F.UPD_COMP_HELD 1).setFld a
        F.UPD_COMP_PROGRESS 0
      (0, leBytes 4 id.toNat, raiseLease s c 1)) s)

/-- UPD_BLOCK (R442–R444). -/
def execUpdBlock (r : Request) (body : List Byte) (s : State) : Host.Outcome State Fault Refusal :=
  let off := recNat body 4 8
  let n := recNat body 12 2
  let data := body.drop 20
  .next (runCommand 0x101 none r (fun k s =>
    match leaseNamed s k (recNat body 0 4) with
    | none => refuseOp s 0 17
    | some l =>
      let budget := ((session s k).map (·.budget)).getD 0
      let s := setLease s { l with named := s.now }
      if n < 1 ∨ 8192 < n ∨ data.length ≠ n then (2, [], s)
      else if !compGranted s k l.comp then (3, [], s)
      else if l.total < off + n ∨ budget < 32 + n then refuseOp s l.comp 18
      else if recNat body 16 4 ≠ (crc32 data).toNat then refuseOp s l.comp 19
      else
        let l := { l with blocks := l.blocks.filter (fun b => b.1 != off) ++ [(off, data)], named := s.now }
        let kib := (l.blocks.foldl (fun (t : Nat) b => t + b.2.length) 0) / 1024
        let s := (setCompState (setLease s l) l.comp 1).setFld (Reg.UPD_COMP l.comp) F.UPD_COMP_PROGRESS (min 65535 kib)
        (0, leBytes 8 (heldFrom0 l), s)) s)

/-- UPD_STATUS (R442, R444): `UPD_COMP` reads 0 for a component that R438 does not list (R453). -/
def execUpdStatus (r : Request) (body : List Byte) (s : State) : Host.Outcome State Fault Refusal :=
  let c := recNat body 0 2
  .next (runCommand 0x102 none r (fun k s =>
    if body.length ≠ 2 then (2, [], s)
    else if !compGranted s k c then (3, [], s)
    else
      let w := if compListed c then (s.reg (Reg.UPD_COMP c)).toNat else 0
      match leaseOf s c with
      | none => (0, leBytes 4 w ++ leBytes 8 0, s)
      | some l =>
        let s := if l.session = k then setLease s { l with named := s.now } else s
        (0, leBytes 4 w ++ leBytes 8 (heldFrom0 l), s)) s)

/-- UPD_ABORT (R442). -/
def execUpdAbort (r : Request) (body : List Byte) (s : State) : Host.Outcome State Fault Refusal :=
  .next (runCommand 0x104 none r (fun k s =>
    if body.length ≠ 4 then (2, [], s)
    else match leaseNamed s k (recNat body 0 4) with
      | none => refuseOp s 0 17
      | some l => if !compGranted s k l.comp then (3, [], s) else (0, [], endLease s l.comp 3)) s)

/-- LEASE_EXPIRY (R444): 30 s without a command that names the lease. -/
def execLeaseExpiry (comp : Fin 32) (s : State) : Host.Outcome State Fault Refusal :=
  match leaseOf s comp with
  | none => .next s
  | some l => .next (if l.named.toNat + 30000000000 ≤ s.now.toNat then endLease s comp 2 else s)

/-! ## Order (R445) -/

/-- The state of R445: components 1–5 and the image, each with what it declares. -/
def inForce (s : State) : List Declared :=
  let entries (bs : List Byte) : List (Nat × Nat × Nat) := (compatEntries bs).map (fun e => (e.1, e.2.2.1, e.2.2.2))
  let kept (c : Nat) : List (Nat × Nat × Nat) :=
    ((generation s).bind (fun g => (g.installed.find? (fun d => d.comp == c)).map (·.entries))).getD []
  let img := s.pl.image
  let fw := parseImage s (flashSlot s (s.fld Reg.ABT_STAT F.ABT_STAT_FSLOT))
  [⟨1, (s.reg (Reg.MC_VER_0 0)).toNat, kept 1⟩,
   ⟨2, (installedVersion s 2).getD ((img.map (fun g => (bootKeeper s g).fwVersion)).getD 0), kept 2⟩,
   ⟨3, (s.reg Reg.ABT_VER).toNat, entries (fw.first 1)⟩, ⟨4, 0x00B00000, []⟩, ⟨5, 0x01000000, []⟩,
   ⟨6, 0, (img.map (fun g => entries (g.first 1))).getD []⟩]

/-- The state with a component applied. -/
def withDeclared (st : List Declared) (p : Declared) : List Declared :=
  if st.any (fun d => d.comp == p.comp) then st.map (fun d => if d.comp = p.comp then p else d) else st ++ [p]

/-- The first declarer and component whose entry is not met; `none` in a compatible state. -/
def firstUnmet (st : List Declared) : Option (Nat × Nat) :=
  let met (e : Nat × Nat × Nat) : Bool :=
    (st.find? (fun d => d.comp == e.1)).all (fun d => e.2.1 ≤ d.version && d.version ≤ e.2.2)
  st.findSome? (fun d => (d.entries.find? (fun e => !met e)).map (fun e => (d.comp, e.1)))

/-- The pending component with the lowest COMP. -/
def lowestPending (ps : List Declared) : Option Declared :=
  ps.foldl (fun (o : Option Declared) p => match o with
    | none => some p
    | some q => if p.comp < q.comp then some p else some q) none

/-- The order of R445, or its first failing entry. -/
def planOrder : Nat → List Declared → List Declared → List Nat → List Nat ⊕ (Nat × Nat)
  | 0, _, _, order => .inl order
  | fuel + 1, st, pending, order =>
    match lowestPending (pending.filter (fun p => (firstUnmet (withDeclared st p)).isNone)) with
    | some p => planOrder fuel (withDeclared st p) (pending.filter (fun q => q.comp != p.comp)) (order ++ [p.comp])
    | none =>
      match lowestPending pending with
      | none => .inl order
      | some p => .inr ((firstUnmet (withDeclared st p)).getD (0, 0))

/-- Entry `i` of UPD_PLAN (R442). -/
def planEntry (body : List Byte) (i : Nat) : Declared :=
  let b := (body.drop (8 + 64 * i)).take 64
  ⟨recNat b 0 2, recNat b 4 4, (List.range (recNat b 2 2)).map (fun j =>
    (recNat b (8 + 12 * j) 2, recNat b (12 + 12 * j) 4, recNat b (16 + 12 * j) 4))⟩

/-- UPD_PLAN (R442, R445): the accepted plan of the session is kept for its commits. -/
def execUpdPlan (r : Request) (body : List Byte) (s : State) : Host.Outcome State Fault Refusal :=
  let n := recNat body 0 1
  let ps := (List.range n).map (planEntry body)
  .next (runCommand 0x106 none r (fun k s =>
    if n < 1 ∨ 8 < n ∨ body.length ≠ 8 + 64 * n ∨ ps.any (fun p => 4 < p.entries.length) then (2, [], s)
    else if ps.any (fun p => !compGranted s k p.comp) then (3, [], s)
    else match planOrder 8 (inForce s) ps [] with
      | .inl order =>
        let s := modifyUp s (fun u => { u with plans := u.plans.filter (fun p => p.1 != k) ++ [(k, order)] })
        (0, order.flatMap (leBytes 1), s)
      | .inr f => refuseOp s 0 23 (leBytes 2 f.1 ++ leBytes 2 f.2)) s)

/-! ## Checks of a package (R348, R438, R444) -/

/-- The first code of R348 up to 6 that applies to a package in the container of R341: form, with the sections that `count`
accepts; signature; SVN below the counter; hashes; and COMPAT. -/
def containerFault (s : State) (bs : List Byte) (magic kind : Nat) (types : Nat → Bool) (count : Image → Bool)
    (signed rolledBack : Bool) : Option (Nat × Nat) :=
  let g := parseImage s bs
  let m := manifest bs
  if !headerFormed magic [kind] bs ∨ g.key ≠ 0 then some (1, 255)
  else match badEntry bs types with
    | some i => some (1, i)
    | none =>
      if !count g then some (1, 255)
      else if !signed then some (2, 255)
      else if rolledBack then some (3, 255)
      else if (bs.drop 32).take 48 ≠ hash48 g.manifest then some (4, 255)
      else match m.find? (fun e => (e.bytes.drop 32).take 48 != hash48 (storedSection bs e)) with
        | some e => some (4, e.index)
        | none => match m.find? (fun e => (plainSection s bs e).isNone) with
          | some e => some (5, e.index)
          | none =>
            let p : Declared := ⟨recNat bs 6 1 + 1000, 0, (compatEntries (g.first 1)).map (fun e => (e.1, e.2.2.1, e.2.2.2))⟩
            if (firstUnmet (((inForce s).map (fun d => { d with entries := [] })) ++ [p])).isNone then none
            else some (6, g.indexOf 1)

/-- The first code of R348 that applies to a package of component `c`, with the section's INDEX. -/
def packageFault (s : State) (c : Nat) (bs : List Byte) : Option (Nat × Nat) :=
  let g := parseImage s bs
  let msg := bs.take 128
  let sig := (bs.drop 128).take 96
  let two (t : Nat) (g : Image) : Bool := g.sections.length == 2 && (g.ofType 1).length == 1 && (g.ofType t).length == 1
  if c = 1 then
    let blocks := microBlocks false (g.first 6)
    match containerFault s bs 0x314C5255 4 (fun t => t == 1 || t == 6) (two 6) (ozvisVerify s 1 msg sig)
        (blocks.any (fun b => b.svn < rollback s 2)) with
    | some f => some f
    | none =>
      if blocks.length ≠ 1 then some (1, g.indexOf 6)
      else if blocks.any (fun b => !microSigned s 1 b) then some (10, g.indexOf 6)
      else (microCode blocks [] (0, 0)).map (fun x => (x, g.indexOf 6))
  else if c = 2 then
    let kp := Config.keeperSection (g.first 7)
    match containerFault s bs 0x314C5255 4 (fun t => t == 1 || t == 7) (two 7) (ozvisVerify s 0 msg sig)
        (kp.fwSvn < rollback s 1) with
    | some f => some f
    | none => if kp.hasOwner then some (1, g.indexOf 7) else (keeperCode s kp).map (fun x => (x, g.indexOf 7))
  else if c = 3 then
    containerFault s bs 0x31464241 3 (fun t => t != 0) (fun g => (g.ofType 1).length == 1) (ozvisVerify s 0 msg sig)
      (recNat bs 12 4 < rollback s 0)
  else if c = 6 then
    match imageFault s bs with
    | some f => some f
    | none => if g.kind ≠ 1 then some (1, 255) else if (placeNew s g).isNone then some (34, g.indexOf 2) else none
  else if c = 7 then
    (match partialFault s bs with
      | .inl f => some f
      | .inr _ => none)
  else
    let key := s.readBytes (Win.desc (c % 16) + 128) 97
    containerFault s bs 0x314C5255 5 (fun t => t == 1 || t == 10) (two 10)
      (s.trusted.contains (Config.sha384 key) && Config.ecdsaVerify key msg sig) false

/-- A whole image changes the LEAD or the HEAD of a role in use, or the members of a group (R443 PLACEMENT). -/
def placementChanged (s : State) (g : Image) : Bool :=
  match s.pl.image with
  | none => false
  | some o =>
    (List.range 16).any (fun l =>
      let a := roleEntry (o.first 2) l
      let b := roleEntry (g.first 2) l
      a.used == 1 && b.used == 1 && (a.lead != b.lead || a.head != b.head || groupMembers o a.lead != groupMembers g b.lead))

/-! ## UPD_COMMIT (R442–R445) -/

/-- The first status of R443 that refuses the commit of a lease, with its body. -/
def commitFault (s : State) (k : Fin 16) (l : Lease) : Option (Nat × List Byte) :=
  let bs := assembled l
  let g := parseImage s bs
  let p : Declared := ⟨l.comp, packageVersion bs, (compatEntries (g.first 1)).map (fun e => (e.1, e.2.2.1, e.2.2.2))⟩
  let next := (s.up.plans.find? (fun q => q.1 == k)).bind (fun q => q.2.head?)
  if heldFrom0 l < l.total then some (20, [])
  else if s.up.current.isSome then some (24, [])
  else if hash48 bs ≠ l.digest then some (21, [])
  else match packageFault s l.comp bs with
    | some (35, _) => some (25, [])
    | some f => some (22, leBytes 2 f.1 ++ leBytes 2 f.2)
    | none =>
      if next.any (fun c => c != l.comp) then some (23, [])
      else match firstUnmet (withDeclared (inForce s) p) with
        | some f => some (23, leBytes 2 f.1 ++ leBytes 2 f.2)
        | none =>
          if (l.comp = 1 ∨ l.comp = 6 ∨ l.comp = 7) ∧ !standbyReady s then some (25, [])
          else if l.comp = 6 ∧ placementChanged s g then some (28, [])
          else if l.comp = 7 ∧ g.target ≠ l.target then some (22, leBytes 2 1 ++ leBytes 2 255)
          else if 0x10 ≤ l.comp ∧ hpState s (l.comp % 16) ≠ 7 then some (29, [])
          else none

/-- The outcome of loading an image over Rener shows in `PL_LOAD_STAT` (R349). -/
def showLoad (s : State) (l : Lease) : State :=
  if l.comp ≠ 6 ∧ l.comp ≠ 7 then s
  else match packageFault s l.comp (assembled l) with
    | some f => loadResult s f.1 f.2
    | none => if l.comp = 6 then loadResult s 0 0 else s

/-- A lease is committed: it belongs to the device from now on; a partial image is staged at once and not judged (R446). -/
def commitLease (s : State) (k : Fin 16) (l : Lease) : State :=
  let bs := assembled l
  let s := modifyUp s (fun u => { u with plans := u.plans.map (fun p => if p.1 = k then (p.1, p.2.drop 1) else p) })
  let s := s.raise 998 (payCause 1 l.comp)
  if l.comp = 7 then
    match execPartialImageLoad bs s with
    | .next t => endLease t 7 3
    | _ => s
  else
    let u : Update := ⟨l.comp, l.id, bs, l.window, l.soak, s.now, 0, s.pl.image, [], 0, (parseImage s bs).first 10, 0, 0, [], 0, [], 0,
      false⟩
    let s := modifyUp s (fun p => { p with leases := p.leases.filter (fun (x : Lease) => x.comp != l.comp), current := some u })
    let a := Reg.UPD_COMP l.comp
    let s := ((setCompState s l.comp 3).setFld a F.UPD_COMP_PROGRESS 0).setFld a F.UPD_COMP_REASON 0
    s.setFld Reg.UPD_STAT F.UPD_STAT_COMP l.comp

/-- UPD_COMMIT (R442–R446): after the response, the component starts to be applied. -/
def execUpdCommit (r : Request) (body : List Byte) (s : State) : Host.Outcome State Fault Refusal :=
  .next (runCommand 0x103 none r (fun k s =>
    if body.length ≠ 4 then (2, [], s)
    else match leaseNamed s k (recNat body 0 4) with
      | none => refuseOp s 0 17
      | some l =>
        let s := setLease s { l with named := s.now }
        if !compGranted s k l.comp then (3, [], s)
        else match commitFault s k l with
          | some (st, b) =>
            let s := if st = 21 ∨ st = 22 then setCompState s l.comp 8 else s
            let s := if st = 22 ∨ st = 25 then showLoad s l else s
            refuseOp s l.comp st b
          | none => (0, [], commitLease (showLoad s l) k l)) s
    (fun _ st s => if st = 0 then beginApply s else s))

/-- UPD_REVERT (R442, R448): a component in TRIAL reverts with reason MANUAL. A head's firmware cannot be reverted (R451). -/
def execUpdRevert (r : Request) (body : List Byte) (s : State) : Host.Outcome State Fault Refusal :=
  let c := recNat body 0 2
  .next (runCommand 0x105 none r (fun k s =>
    if body.length ≠ 2 then (2, [], s)
    else if !compGranted s k c then (3, [], s)
    else if 0x10 ≤ c ∨ compState s c ≠ 4 ∨ !s.up.current.any (fun (u : Update) => u.comp == c) then refuseOp s c 27
    else (0, [], s)) s
    (fun _ st s => if st ≠ 0 then s else match s.up.current with
      | some u => startRevert s u 4
      | none => s))

end Sys2Proof.Machine
end

