-- ==== Sys2Proof/Machine/Dispatch.lean ====
section
/-!
DEFINITION. What each command does: one arm for each constructor of `Instr`, each a call of the meaning in the family's
file.
-/

namespace Sys2Proof.Machine

def exec (i : Instr) (s : State) : Host.Outcome State Fault Refusal :=
  match i with
  | .registerWrite tag addr width val => Sys2Proof.Machine.execRegisterWrite tag addr width val s
  | .aliasAccess tag write addr width val => Sys2Proof.Machine.execAliasAccess tag write addr width val s
  | .nanoWordIssue n ups flips => Sys2Proof.Machine.execNanoWordIssue n ups flips s
  | .globalOrResult n => Sys2Proof.Machine.execGlobalOrResult n s
  | .gaugeResult n => Sys2Proof.Machine.execGaugeResult n s
  | .spanReset n powerUp => Sys2Proof.Machine.execSpanReset n powerUp s
  | .initSweepDone n => Sys2Proof.Machine.execInitSweepDone n s
  | .spareMapWrite n t w val => Sys2Proof.Machine.execSpareMapWrite n t w val s
  | .paritySweepDone n => Sys2Proof.Machine.execParitySweepDone n s
  | .jointBreach j m => Sys2Proof.Machine.execJointBreach j m s
  | .jointFlagClear j q m => Sys2Proof.Machine.execJointFlagClear j q m s
  | .operationStart n => Sys2Proof.Machine.execOperationStart n s
  | .msWaitLong n => Sys2Proof.Machine.execMsWaitLong n s
  | .bundleExecute n ups => Sys2Proof.Machine.execBundleExecute n ups s
  | .aluResultReady n alu => Sys2Proof.Machine.execAluResultReady n alu s
  | .interruptEntry n ups => Sys2Proof.Machine.execInterruptEntry n ups s
  | .lineSync n => Sys2Proof.Machine.execLineSync n s
  | .tokenReached n => Sys2Proof.Machine.execTokenReached n s
  | .snapshotEntry n ups => Sys2Proof.Machine.execSnapshotEntry n ups s
  | .checkpointCopyDone n => Sys2Proof.Machine.execCheckpointCopyDone n s
  | .stopDrain n => Sys2Proof.Machine.execStopDrain n s
  | .drainComplete n => Sys2Proof.Machine.execDrainComplete n s
  | .stopNow n byFault => Sys2Proof.Machine.execStopNow n byFault s
  | .spanStart n => Sys2Proof.Machine.execSpanStart n s
  | .spcWatchdog n => Sys2Proof.Machine.execSpcWatchdog n s
  | .checkpointRestore n => Sys2Proof.Machine.execCheckpointRestore n s
  | .restoreDone n ups => Sys2Proof.Machine.execRestoreDone n ups s
  | .cwMessageArrive n => Sys2Proof.Machine.execCwMessageArrive n s
  | .trainWordReceive h p num count => Sys2Proof.Machine.execTrainWordReceive h p num count s
  | .alignReceive h seqs late => Sys2Proof.Machine.execAlignReceive h seqs late s
  | .linkUp h => Sys2Proof.Machine.execLinkUp h s
  | .laneLockLoss h p => Sys2Proof.Machine.execLaneLockLoss h p s
  | .trainingTimeout h => Sys2Proof.Machine.execTrainingTimeout h s
  | .trainingRetry h => Sys2Proof.Machine.execTrainingRetry h s
  | .startWord h starts => Sys2Proof.Machine.execStartWord h starts s
  | .packetBlock h data clean => Sys2Proof.Machine.execPacketBlock h data clean s
  | .termWord h terms => Sys2Proof.Machine.execTermWord h terms s
  | .badCtrl h word => Sys2Proof.Machine.execBadCtrl h word s
  | .packetTimeout h => Sys2Proof.Machine.execPacketTimeout h s
  | .hpCcGo h => Sys2Proof.Machine.execHpCcGo h s
  | .ccMessageReceive h words => Sys2Proof.Machine.execCcMessageReceive h words s
  | .ccRetryTimeout h => Sys2Proof.Machine.execCcRetryTimeout h s
  | .headInsertion h => Sys2Proof.Machine.execHeadInsertion h s
  | .headRemoval h => Sys2Proof.Machine.execHeadRemoval h s
  | .headFault h low => Sys2Proof.Machine.execHeadFault h low s
  | .powerWaitEnd h => Sys2Proof.Machine.execPowerWaitEnd h s
  | .descriptorReadDone h bytes good => Sys2Proof.Machine.execDescriptorReadDone h bytes good s
  | .descriptorVerified h => Sys2Proof.Machine.execDescriptorVerified h s
  | .hpRetrain h => Sys2Proof.Machine.execHpRetrain h s
  | .hpRelease h => Sys2Proof.Machine.execHpRelease h s
  | .releaseTimeout h => Sys2Proof.Machine.execReleaseTimeout h s
  | .hpReleased h => Sys2Proof.Machine.execHpReleased h s
  | .hpAttach h => Sys2Proof.Machine.execHpAttach h s
  | .portEnable h => Sys2Proof.Machine.execPortEnable h s
  | .portDisable h => Sys2Proof.Machine.execPortDisable h s
  | .rgSrcWrite m val => Sys2Proof.Machine.execRgSrcWrite m val s
  | .sourceSwitch m => Sys2Proof.Machine.execSourceSwitch m s
  | .wordCellCycle m ups => Sys2Proof.Machine.execWordCellCycle m ups s
  | .frameWordWrite m j word => Sys2Proof.Machine.execFrameWordWrite m j word s
  | .rgUnseal m => Sys2Proof.Machine.execRgUnseal m s
  | .rgDisable m => Sys2Proof.Machine.execRgDisable m s
  | .rgEnable m => Sys2Proof.Machine.execRgEnable m s
  | .regionDrainEnd m => Sys2Proof.Machine.execRegionDrainEnd m s
  | .configScrub m flips => Sys2Proof.Machine.execConfigScrub m flips s
  | .transposerBeat m => Sys2Proof.Machine.execTransposerBeat m s
  | .planeSend m ups => Sys2Proof.Machine.execPlaneSend m ups s
  | .replayGo m val => Sys2Proof.Machine.execReplayGo m val s
  | .replayLineCopied m ups => Sys2Proof.Machine.execReplayLineCopied m ups s
  | .historyLineWrite m => Sys2Proof.Machine.execHistoryLineWrite m s
  | .historyWriteDone m ups => Sys2Proof.Machine.execHistoryWriteDone m ups s
  | .extractorScan m t => Sys2Proof.Machine.execExtractorScan m t s
  | .mergerSend m => Sys2Proof.Machine.execMergerSend m s
  | .runIntake m => Sys2Proof.Machine.execRunIntake m s
  | .domainLine d ups => Sys2Proof.Machine.execDomainLine d ups s
  | .floodHold m => Sys2Proof.Machine.execFloodHold m s
  | .stampReceive => Sys2Proof.Machine.execStampReceive s
  | .lineLossReport => Sys2Proof.Machine.execLineLossReport s
  | .spanStopNotice m => Sys2Proof.Machine.execSpanStopNotice m s
  | .takeoverNotice d age => Sys2Proof.Machine.execTakeoverNotice d age s
  | .serviceStopNotice d => Sys2Proof.Machine.execServiceStopNotice d s
  | .headGoneNotice h => Sys2Proof.Machine.execHeadGoneNotice h s
  | .spanRunningNotice d => Sys2Proof.Machine.execSpanRunningNotice d s
  | .recordEmit => Sys2Proof.Machine.execRecordEmit s
  | .ledgerTake => Sys2Proof.Machine.execLedgerTake s
  | .ledgerWriteDone => Sys2Proof.Machine.execLedgerWriteDone s
  | .ledgerEnable => Sys2Proof.Machine.execLedgerEnable s
  | .indexClearDone => Sys2Proof.Machine.execIndexClearDone s
  | .segmentGo val => Sys2Proof.Machine.execSegmentGo val s
  | .repeatSearch => Sys2Proof.Machine.execRepeatSearch s
  | .sideEntryRead ups => Sys2Proof.Machine.execSideEntryRead ups s
  | .chainWrite => Sys2Proof.Machine.execChainWrite s
  | .cropRequest => Sys2Proof.Machine.execCropRequest s
  | .cropRowRead k ups => Sys2Proof.Machine.execCropRowRead k ups s
  | .cropTimeout k => Sys2Proof.Machine.execCropTimeout k s
  | .cropStoreWrite => Sys2Proof.Machine.execCropStoreWrite s
  | .encoderCount c a b => Sys2Proof.Machine.execEncoderCount c a b s
  | .illegal x => Sys2Proof.Machine.execIllegal x s
  | .encoderStall c => Sys2Proof.Machine.execEncoderStall c s
  | .zEdge c z => Sys2Proof.Machine.execZEdge c z s
  | .internalCount g => Sys2Proof.Machine.execInternalCount g s
  | .tgStart g => Sys2Proof.Machine.execTgStart g s
  | .tgStop g => Sys2Proof.Machine.execTgStop g s
  | .lineTrigger g => Sys2Proof.Machine.execLineTrigger g s
  | .delayedTrigger g => Sys2Proof.Machine.execDelayedTrigger g s
  | .markingMessage => Sys2Proof.Machine.execMarkingMessage s
  | .actionFire k => Sys2Proof.Machine.execActionFire k s
  | .gateEnd k => Sys2Proof.Machine.execGateEnd k s
  | .flush => Sys2Proof.Machine.execFlush s
  | .asPost val => Sys2Proof.Machine.execAsPost val s
  | .epochWrite val => Sys2Proof.Machine.execEpochWrite val s
  | .sync e => Sys2Proof.Machine.execSync e s
  | .announce e => Sys2Proof.Machine.execAnnounce e s
  | .delayReq q => Sys2Proof.Machine.execDelayReq q s
  | .pps o => Sys2Proof.Machine.execPps o s
  | .strandTimeSend east => Sys2Proof.Machine.execStrandTimeSend east s
  | .strandTimeMessage east m offset => Sys2Proof.Machine.execStrandTimeMessage east m offset s
  | .strandLineMessage east crc group index coord time fire expCode strobe => Sys2Proof.Machine.execStrandLineMessage east crc group index coord time fire expCode strobe s
  | .followerFire => Sys2Proof.Machine.execFollowerFire s
  | .strandRedMessage east crc n index post => Sys2Proof.Machine.execStrandRedMessage east crc n index post s
  | .haloMessage east crc n line cols planes => Sys2Proof.Machine.execHaloMessage east crc n line cols planes s
  | .strandLaneLoss east lane => Sys2Proof.Machine.execStrandLaneLoss east lane s
  | .causewayDelivery src granted err => Sys2Proof.Machine.execCausewayDelivery src granted err s
  | .class0Release e => Sys2Proof.Machine.execClass0Release e s
  | .isolate e => Sys2Proof.Machine.execIsolate e s
  | .drainCut e cuts => Sys2Proof.Machine.execDrainCut e cuts s
  | .endpointIsolated e => Sys2Proof.Machine.execEndpointIsolated e s
  | .release e => Sys2Proof.Machine.execRelease e s
  | .flip => Sys2Proof.Machine.execFlip s
  | .epochDrained => Sys2Proof.Machine.execEpochDrained s
  | .pierAccess p ckpt ups => Sys2Proof.Machine.execPierAccess p ckpt ups s
  | .ddr5Access c ups => Sys2Proof.Machine.execDdr5Access c ups s
  | .ddr5Refresh c => Sys2Proof.Machine.execDdr5Refresh c s
  | .mr4Read c doubled => Sys2Proof.Machine.execMr4Read c doubled s
  | .ddr5TrainingDone c trained unbuffered ecc width density ranks rate => Sys2Proof.Machine.execDdr5TrainingDone c trained unbuffered ecc width density ranks rate s
  | .zqCalibration c => Sys2Proof.Machine.execZqCalibration c s
  | .patrolScrub c ups => Sys2Proof.Machine.execPatrolScrub c ups s
  | .rowSpareDone c => Sys2Proof.Machine.execRowSpareDone c s
  | .hubTempRead c temp => Sys2Proof.Machine.execHubTempRead c temp s
  | .eventRaise merged => Sys2Proof.Machine.execEventRaise merged s
  | .abutmentTarget => Sys2Proof.Machine.execAbutmentTarget s
  | .keeperDispatch k => Sys2Proof.Machine.execKeeperDispatch k s
  | .kpC0Long k => Sys2Proof.Machine.execKpC0Long k s
  | .keeperRun k => Sys2Proof.Machine.execKeeperRun k s
  | .keeperStop k => Sys2Proof.Machine.execKeeperStop k s
  | .keeperLoad k ups => Sys2Proof.Machine.execKeeperLoad k ups s
  | .keeperStore k ups => Sys2Proof.Machine.execKeeperStore k ups s
  | .loadIndex k ups => Sys2Proof.Machine.execLoadIndex k ups s
  | .storeIndex k ups => Sys2Proof.Machine.execStoreIndex k ups s
  | .lea k ups => Sys2Proof.Machine.execLea k ups s
  | .add k ups => Sys2Proof.Machine.execAdd k ups s
  | .adc k ups => Sys2Proof.Machine.execAdc k ups s
  | .sub k ups => Sys2Proof.Machine.execSub k ups s
  | .sbc k ups => Sys2Proof.Machine.execSbc k ups s
  | .keeperLogic k ups => Sys2Proof.Machine.execKeeperLogic k ups s
  | .cmp k ups => Sys2Proof.Machine.execCmp k ups s
  | .keeperMultiply k ups => Sys2Proof.Machine.execKeeperMultiply k ups s
  | .keeperDivide k ups => Sys2Proof.Machine.execKeeperDivide k ups s
  | .ldi k ups => Sys2Proof.Machine.execLdi k ups s
  | .lui k ups => Sys2Proof.Machine.execLui k ups s
  | .orl k ups => Sys2Proof.Machine.execOrl k ups s
  | .loadIndexImmediate k ups => Sys2Proof.Machine.execLoadIndexImmediate k ups s
  | .addIndexImmediate k ups => Sys2Proof.Machine.execAddIndexImmediate k ups s
  | .copy k ups => Sys2Proof.Machine.execCopy k ups s
  | .putf k ups => Sys2Proof.Machine.execPutf k ups s
  | .getf k ups => Sys2Proof.Machine.execGetf k ups s
  | .keeperShift k ups => Sys2Proof.Machine.execKeeperShift k ups s
  | .keeperShiftX k ups => Sys2Proof.Machine.execKeeperShiftX k ups s
  | .neg k ups => Sys2Proof.Machine.execNeg k ups s
  | .not k ups => Sys2Proof.Machine.execNot k ups s
  | .br k ups => Sys2Proof.Machine.execBr k ups s
  | .jmp k ups => Sys2Proof.Machine.execJmp k ups s
  | .call k ups => Sys2Proof.Machine.execCall k ups s
  | .ret k ups => Sys2Proof.Machine.execRet k ups s
  | .reti k ups => Sys2Proof.Machine.execReti k ups s
  | .wait k ups => Sys2Proof.Machine.execWait k ups s
  | .pushm k ups => Sys2Proof.Machine.execPushm k ups s
  | .popm k ups => Sys2Proof.Machine.execPopm k ups s
  | .nop k ups => Sys2Proof.Machine.execNop k ups s
  | .keeperIllegal k ups => Sys2Proof.Machine.execKeeperIllegal k ups s
  | .ehRaise val => Sys2Proof.Machine.execEhRaise val s
  | .pendClear src val => Sys2Proof.Machine.execPendClear src val s
  | .ehSrcWrite src val => Sys2Proof.Machine.execEhSrcWrite src val s
  | .ownerBlockReplace k => Sys2Proof.Machine.execOwnerBlockReplace k s
  | .wholeImageLoad image => Sys2Proof.Machine.execWholeImageLoad image s
  | .partialImageLoad image => Sys2Proof.Machine.execPartialImageLoad image s
  | .changeReady => Sys2Proof.Machine.execChangeReady s
  | .changeGo => Sys2Proof.Machine.execChangeGo s
  | .changeSwitch => Sys2Proof.Machine.execChangeSwitch s
  | .changeAbort => Sys2Proof.Machine.execChangeAbort s
  | .takeoverGo role => Sys2Proof.Machine.execTakeoverGo role s
  | .takeoverRestored => Sys2Proof.Machine.execTakeoverRestored s
  | .takeoverCopy => Sys2Proof.Machine.execTakeoverCopy s
  | .takeoverSwitch => Sys2Proof.Machine.execTakeoverSwitch s
  | .takeoverDone => Sys2Proof.Machine.execTakeoverDone s
  | .pairTest n => Sys2Proof.Machine.execPairTest n s
  | .pairTestDone pass => Sys2Proof.Machine.execPairTestDone pass s
  | .autoResume => Sys2Proof.Machine.execAutoResume s
  | .romDone rail => Sys2Proof.Machine.execRomDone rail s
  | .firmwareLinkUp x8 => Sys2Proof.Machine.execFirmwareLinkUp x8 s
  | .memorySealed => Sys2Proof.Machine.execMemorySealed s
  | .groupStart g => Sys2Proof.Machine.execGroupStart g s
  | .abutmentWatchdog => Sys2Proof.Machine.execAbutmentWatchdog s
  | .abutRestart => Sys2Proof.Machine.execAbutRestart s
  | .signatureDone => Sys2Proof.Machine.execSignatureDone s
  | .debugExpiry => Sys2Proof.Machine.execDebugExpiry s
  | .ucieRetry fourth => Sys2Proof.Machine.execUcieRetry fourth s
  | .ucieDown => Sys2Proof.Machine.execUcieDown s
  | .version c => Sys2Proof.Machine.execVersion c s
  | .ident c => Sys2Proof.Machine.execIdent c s
  | .mbQuote c => Sys2Proof.Machine.execMbQuote c s
  | .random c => Sys2Proof.Machine.execRandom c s
  | .notify c => Sys2Proof.Machine.execNotify c s
  | .mbDone c => Sys2Proof.Machine.execMbDone c s
  | .frameReceive e fcs corr uncorr frame => Sys2Proof.Machine.execFrameReceive e fcs corr uncorr frame s
  | .arp e frame => Sys2Proof.Machine.execArp e frame s
  | .icmpEcho e frame => Sys2Proof.Machine.execIcmpEcho e frame s
  | .lpLink e up blockLock fecLock => Sys2Proof.Machine.execLpLink e up blockLock fecLock s
  | .fallbackRateSwitch e => Sys2Proof.Machine.execFallbackRateSwitch e s
  | .hello port peer waiting payload => Sys2Proof.Machine.execHello port peer waiting payload s
  | .ping r body => Sys2Proof.Machine.execPing r body s
  | .close r body => Sys2Proof.Machine.execClose r body s
  | .quote v body => Sys2Proof.Machine.execQuote v body s
  | .log r body => Sys2Proof.Machine.execLog r body s
  | .cert v body => Sys2Proof.Machine.execCert v body s
  | .read r body => Sys2Proof.Machine.execRead r body s
  | .write r body => Sys2Proof.Machine.execWrite r body s
  | .writeMask r body => Sys2Proof.Machine.execWriteMask r body s
  | .subscribe r body => Sys2Proof.Machine.execSubscribe r body s
  | .unsubscribe r body => Sys2Proof.Machine.execUnsubscribe r body s
  | .dbgChallenge r body => Sys2Proof.Machine.execDbgChallenge r body s
  | .dbgToken r body => Sys2Proof.Machine.execDbgToken r body s
  | .dbgClose r body => Sys2Proof.Machine.execDbgClose r body s
  | .setFloor r body => Sys2Proof.Machine.execSetFloor r body s
  | .ownerRelease r body => Sys2Proof.Machine.execOwnerRelease r body s
  | .enrol port peer reqId body => Sys2Proof.Machine.execEnrol port peer reqId body s
  | .sessionIdle k => Sys2Proof.Machine.execSessionIdle k s
  | .credentialExpiryCheck => Sys2Proof.Machine.execCredentialExpiryCheck s
  | .streamEntry => Sys2Proof.Machine.execStreamEntry s
  | .recordsSend k => Sys2Proof.Machine.execRecordsSend k s
  | .recAck d payload => Sys2Proof.Machine.execRecAck d payload s
  | .streamResend k kind => Sys2Proof.Machine.execStreamResend k kind s
  | .cropChunkSend k => Sys2Proof.Machine.execCropChunkSend k s
  | .cropAck d payload => Sys2Proof.Machine.execCropAck d payload s
  | .cropAbandoned k => Sys2Proof.Machine.execCropAbandoned k s
  | .notifySend => Sys2Proof.Machine.execNotifySend s
  | .notifyAck d payload => Sys2Proof.Machine.execNotifyAck d payload s
  | .updStart r body => Sys2Proof.Machine.execUpdStart r body s
  | .updBlock r body => Sys2Proof.Machine.execUpdBlock r body s
  | .updStatus r body => Sys2Proof.Machine.execUpdStatus r body s
  | .updCommit r body => Sys2Proof.Machine.execUpdCommit r body s
  | .updAbort r body => Sys2Proof.Machine.execUpdAbort r body s
  | .updRevert r body => Sys2Proof.Machine.execUpdRevert r body s
  | .updPlan r body => Sys2Proof.Machine.execUpdPlan r body s
  | .leaseExpiry comp => Sys2Proof.Machine.execLeaseExpiry comp s
  | .applied => Sys2Proof.Machine.execApplied s
  | .updConfirmed => Sys2Proof.Machine.execUpdConfirmed s
  | .updateReverted reason => Sys2Proof.Machine.execUpdateReverted reason s
  | .spanHealth n volt temp => Sys2Proof.Machine.execSpanHealth n volt temp s
  | .devTemp temp => Sys2Proof.Machine.execDevTemp temp s
  | .diagnosisStart n => Sys2Proof.Machine.execDiagnosisStart n s
  | .fhDiag n pass others cols => Sys2Proof.Machine.execFhDiag n pass others cols s
  | .linkDegrade r p tables => Sys2Proof.Machine.execLinkDegrade r p tables s
  | .wearTick temp drifts => Sys2Proof.Machine.execWearTick temp drifts s
  | .wearRecordWrite => Sys2Proof.Machine.execWearRecordWrite s
  | .wearWarn => Sys2Proof.Machine.execWearWarn s
  | .arm t => Sys2Proof.Machine.execArm t s
  | .stop t => Sys2Proof.Machine.execStop t s
  | .porstAssert => Sys2Proof.Machine.execPorstAssert s
  | .porstRelease => Sys2Proof.Machine.execPorstRelease s
  | .refclkGlitch => Sys2Proof.Machine.execRefclkGlitch s
  | .refclkLoss => Sys2Proof.Machine.execRefclkLoss s
  | .thermtrip => Sys2Proof.Machine.execThermtrip s
  | .powerLoss torn => Sys2Proof.Machine.execPowerLoss torn s
  | .strandLinkUp east lanes => Sys2Proof.Machine.execStrandLinkUp east lanes s
  | .ucieLinkUp x8 => Sys2Proof.Machine.execUcieLinkUp x8 s
  | .ucieTrainingFailure => Sys2Proof.Machine.execUcieTrainingFailure s
  | .actuatorPulseEnd k => Sys2Proof.Machine.execActuatorPulseEnd k s

end Sys2Proof.Machine
end

