-- ==== Sys2Proof/WellFormed.lean ====
section
/-!
DEFINITION. What the operands of a command must satisfy to describe something that the spec lets happen. `exec` gives every
command its effect, well formed or not; statements that need a check name it.
-/

namespace Sys2Proof

/-- A flip of a memory word: at a causeway address, and of a bit that some protected word has, of which the widest is a
bundle of 96 bits with its parity bit (R90, R130). The rows, columns and groups of a span are bounded by their types
(R21, R28). -/
def Upset.wf : Upset → Bool
  | .word addr bit => addr < 2 ^ 40 && bit < 97
  | .cell _ _ _ => true
  | .group _ _ _ => true

/-- The operand checks of a command. -/
def Instr.wf : Instr → Bool
  -- an access moves 1, 2 or 4 bytes inside one aligned word
  | .registerWrite _ addr width _ => (width == 1 || width == 2 || width == 4) && addr.toNat % width == 0
  | .aliasAccess _ _ addr width _ => (width == 1 || width == 2 || width == 4) && addr.toNat % width == 0
  | .nanoWordIssue _ ups flips => ups.all Upset.wf && flips.all (fun f => f.mask != 0)
  -- at most one entry for each lane of a port
  | .alignReceive _ seqs late => seqs.length ≤ 4 && late.length ≤ 4
  | .startWord _ starts => starts.length ≤ 4
  | .termWord _ terms => terms.length ≤ 4
  -- a block is 64 bytes (R143), a control message 8 to 66 (R153), a descriptor 324 to 1,024 (R159)
  | .packetBlock _ data _ => data.length ≤ 64
  -- FILT reaches back at most four samples (R252)
  | .encoderCount _ a b => a.length ≤ 4 && b.length ≤ 4
  | .illegal x => x.a.length ≤ 4 && x.b.length ≤ 4
  | .zEdge _ z => z.length ≤ 4
  -- sourcePortIdentity and sequenceId of a Delay_Req
  | .delayReq q => q.ident.length == 12
  | .ccMessageReceive _ words => words.length ≤ 11 && words.all (fun w => w.2.length == 6)
  | .descriptorReadDone _ bytes _ => bytes.length ≤ 1024
  -- a rate that R304 knows
  | .ddr5TrainingDone _ _ _ _ _ _ _ rate => rate ≤ 2
  -- a frame without its FCS
  | .frameReceive _ _ _ _ frame => 14 ≤ frame.length
  | .arp _ frame => 14 ≤ frame.length
  | .icmpEcho _ frame => 14 ≤ frame.length
  -- no PTP or Rener payload is longer than an MTU of 9,000 bytes
  | .hello _ _ _ payload => payload.length ≤ 8940
  | .recAck _ payload => payload.length ≤ 8940
  | .cropAck _ payload => payload.length ≤ 8940
  | .notifyAck _ payload => payload.length ≤ 8940
  -- UPDATE_REVERTED has the reasons 1 to 6 (R448)
  | .updateReverted reason => reason != 0
  -- a drift for each pair (R464)
  | .wearTick _ drifts => drifts.length ≤ 17
  | _ => true

end Sys2Proof
end

