-- ==== Sys2Proof/Safety.lean ====
section
/-!
DEFINITION. What statements about runs are made of: a run that goes on, and the canonical forms of the stores.
-/

namespace Sys2Proof.Machine

/-- The register store and the memory are in canonical form. -/
def State.Canonical (s : State) : Prop := RegStore.wf s.regs ∧ Memory.wf s.mem

/-- A command completes from a state, and what follows satisfies `P`. -/
def Completes (c : Instr) (s : State) (P : State → Prop) : Prop := ∃ t, exec c s = .next t ∧ P t

/-- The raises of `t` are those of `s` with the sources and payloads of `l` behind them (R329). -/
def Raised (s t : State) (l : List (Nat × BitVec 32)) : Prop :=
  t.raises.map (fun r => (r.source, r.pay)) = s.raises.map (fun r => (r.source, r.pay)) ++ l

/-- Every register whose address is not listed reads as before. -/
def OnlyRegs (l : List Nat) (s t : State) : Prop := ∀ a, a ∉ l → t.reg a = s.reg a

/-- Every byte of memory outside `[lo, hi)` reads as before. -/
def OnlyBytes (lo hi : Nat) (s t : State) : Prop := ∀ a, a < lo ∨ hi ≤ a → t.byte a = s.byte a

/-- The bytes of DDR5 below `hi` are mapped, every channel's endpoint takes packets, and no stored bit has flipped. -/
def DdrReady (s : State) (hi : Nat) : Prop :=
  s.errs = [] ∧ hi ≤ ddrCapacity s ∧ ∀ c, c < 8 → epState s (44 + c) < 2

/-- No stored bit of the local memory of Keeper `k` has flipped (R323). -/
def LocalClean (s : State) (k : Fin 4) : Prop := ∀ e ∈ s.errs, e.1 < Win.keeper k ∨ Win.keeper k + 0x40000 ≤ e.1

/-- The word at `KP_PC` of a running Keeper is `i`, it has not begun with a causeway read, it does not run the standard firmware's
program or a standard handler, and no stored bit of its local memory has flipped. -/
def KeeperAt (s : State) (k : Fin 4) (i : KeeperWord) : Prop :=
  LocalClean s k ∧ kpRun s k = true ∧ s.fld (Reg.KP_STAT k) F.KP_STAT_WAITING = 0 ∧ inAccess s k = false ∧
    runsStandard s k = false ∧
    inCodeArea s k (kpPc s k).toNat = true ∧ KeeperWord.ofNat (s.readLE (Win.keeper k + (kpPc s k).toNat) 4) = i

/-- The address of the next instruction of a Keeper (R315). -/
def kpNext (s : State) (k : Fin 4) : BitVec 32 := (kpPc s k + 4) &&& ~~~3#32

/-- Keeper `k` alone goes on: its registers are `x` and its PC is `pc`. -/
def KeeperDoes (s t : State) (k : Fin 4) (x : Keeper) (pc : BitVec 32) : Prop :=
  t = { s with regs := t.regs, kp := s.kp.set k x } ∧ kpPc t k = pc ∧ OnlyRegs [Reg.KP_PC k] s t

/-- An aligned access of `n` bytes of local memory that the mode allows reads `v` (R323, R326). -/
def KeeperReads (s : State) (k : Fin 4) (ea : BitVec 32) (n v : Nat) : Prop :=
  ea.toNat < 0x40000 ∧ ea.toNat % n = 0 ∧ (kpOwner s k = true → 0x20000 ≤ ea.toNat) ∧
    v = s.readLE (Win.keeper k + ea.toNat) n

/-- `m` of R319: the sign-extended DISP, or the word at EA in local memory. -/
def KeeperOperand (s : State) (k : Fin 4) (i : KeeperWord) (m : BitVec 32) : Prop :=
  if i.op < 0x20 then ∃ v, KeeperReads s k (keeperEa s k i) 4 v ∧ m = BitVec.ofNat 32 v else m = i.simm

/-- Flags with Z and N of a result, and C and V as given (R315). -/
def flagsOf (c v : Bool) (r : BitVec 32) : BitVec 4 :=
  BitVec.ofBool r.msb ++ BitVec.ofBool (r == 0) ++ BitVec.ofBool v ++ BitVec.ofBool c

/-- Flags that keep C and V. -/
def flagsZn (old : BitVec 4) (r : BitVec 32) : BitVec 4 := flagsOf (old.getLsbD 0) (old.getLsbD 1) r

/-- A COMMAND is accepted in session `k`, finds room, and is no repetition (R413, R418, R419); `s1` is the state then. -/
def RunsRequest (s s1 : State) (r : Request) (k : Fin 16) : Prop :=
  accept s r.dgram = (some k, s1) ∧ r.waiting < 4 ∧ ∀ x, session s1 k = some x → ∀ p ∈ x.kept, p.1 ≠ r.reqId

/-- The last response of session `k` answers the request with a STATUS and a body (R418, R419). -/
def Responded (t : State) (k : Fin 16) (r : Request) (op status : Nat) (body : List Byte) : Prop :=
  ∃ x, session t k = some x ∧ x.kept.getLast? = some (r.reqId, responseBytes op status r.reqId body)

/-- The SEQ of the flash directory in force is 8 bytes, and has room to count on (R373). -/
def SeqRoom (s : State) : Prop := ∀ d, dirInForce s = some d → d.2.seq + 8 < 2 ^ 64

/-- `k` steps from a state do not stop. -/
def GoesOn (k : Nat) (s : State) : Prop := ∃ t, Host.Core.run Sys2Proof.core k s = .next t

end Sys2Proof.Machine
end

