-- ==== Sys2Proof/Certificates/Slice0/Obligations.lean ====
section
/-!
DEFINITION. The statements for the provers.
-/

open Sys2Proof Sys2Proof.Machine

/-- O1. For every command c and state s, a step of s with c at the front of its queue is exec c on s with the
queue's rest; on an empty queue a TCLK cycle passes: device time goes on by 5 ns and what a follower steers (R279),
each strand side that is UP sends the oldest message that waits for it (R278), and nothing else changes (the model's
choice, log entry 20). (95_what_each_step_holds.md, 00_scope.md) -/
def Obligations.StepRunsFrontCommand : Prop :=
  (∀ (c : Instr) (s : State), step { s with pending := c :: s.pending } = exec c s) ∧
  ∀ s : State, s.pending = [] → ∃ t, step s = .next t ∧ t = { s with now := t.now, tm := t.tm, slOut := t.slOut } ∧
    t.now = (advanceTime s).now ∧ (s.tm.trim = 0 → s.tm.phase < 2000 → t.now = s.now + 5) ∧
    ((∀ m ∈ s.slOut, sideUp s m.east = false) → t.slOut = s.slOut ∧ t.tm = (advanceTime s).tm)

/-- O2. For every nano-word that R25 lets load, every row, constant bit and span, and every duty column j: with the
operand bits a, b, c that IA, IB and IC select at the start of the cycle and i = 4a + 2b + c, S is bit i of FS, each
of P, Q, C, X and T takes S or K where DS or DK names it and the column is enabled, M takes it always, the addressed
row takes the WSRC source where MOP is write and the column is enabled, and every other register bit and memory bit
keeps its value. (R22, R23, R24, R25, R26) -/
def Obligations.BitProcessorCycle : Prop :=
  ∀ (w : Nano) (row : Nat) (con : Bool) (x : SpanArray) (j : Nat), j < 16384 → (w.ds ≠ w.dk ∨ w.ds = 0) →
    let bit (p : Plane) : Bool := p.duty.getLsbD j
    let mem := if w.mop = 1 then rowGet x.rows row else .zero
    let i := 4 * (bit (nanoOperand x mem con w.ia)).toNat + 2 * (bit (nanoOperand x mem con w.ib)).toNat +
      (bit (nanoOperand x mem con w.ic)).toNat
    let sv := w.fs.testBit i
    let kv := w.fk.testBit i
    let en := !w.gate || bit x.m
    let y := bpCycle w row con x
    let takes (r : Nat) (old : Plane) : Bool :=
      if w.ds = r ∧ en then sv else if w.dk = r ∧ en then kv else bit old
    let source := if w.wsrc = 0 then sv else if w.wsrc = 1 then kv else bit (nanoWriteSource x .zero .zero w.wsrc)
    bit y.2 = sv ∧ bit y.1.p = takes 1 x.p ∧ bit y.1.q = takes 2 x.q ∧ bit y.1.c = takes 3 x.c ∧
      bit y.1.x = takes 4 x.x ∧ bit y.1.t = takes 5 x.t ∧
      bit y.1.m = (if w.ds = 6 then sv else if w.dk = 6 then kv else bit x.m) ∧
      ∀ r, bit (rowGet y.1.rows r) = if w.mop = 2 ∧ r = row ∧ en then source else bit (rowGet x.rows r)

/-- O3. For every state, span and BND: an east or west move by 1 or by 32 gives every inner column the X of the
neighbour it names, across truss boundaries in the same cycle; at the edge the column takes 0 with zero, 1 with one,
and the span's own column mod 16,384 with wrap. (R41, R42, R43) -/
def Obligations.NeighbourMoves : Prop :=
  ∀ (s : State) (m : Fin 17) (xm bnd : Nat) (fw fe : BitVec 32) (j : Nat), j < 16384 → 1 ≤ xm → xm ≤ 4 →
    let x := (s.array m).x.duty
    let d := if xm = 1 ∨ xm = 2 then 1 else 32
    let y := (moveX s m xm bnd fw fe).getLsbD j
    (xm = 1 ∨ xm = 3 → d ≤ j → y = x.getLsbD (j - d)) ∧
    (xm = 2 ∨ xm = 4 → j + d < 16384 → y = x.getLsbD (j + d)) ∧
    ((xm = 1 ∨ xm = 3) ∧ j < d ∨ (xm = 2 ∨ xm = 4) ∧ 16384 ≤ j + d →
      (bnd = 0 → y = false) ∧ (bnd = 1 → y = true) ∧
      (bnd = 2 → y = x.getLsbD (if xm = 1 ∨ xm = 3 then j + 16384 - d else j + d - 16384)))

/-- O4. A span expects coupling at its east joint when POS + 1 is below its group's size and at its west joint when
POS is above 0; a joint is in use when both sides expect coupling, with one GSIZE_LOG and consecutive positions;
when a side expects coupling at a joint that is not in use, a coupled move takes 0 from that edge, and MISMATCH of
the joint reads 1 exactly while this lasts. (R45) -/
def Obligations.JointsInUse : Prop :=
  ∀ (s : State) (j : Fin 16) (fl : BitVec 32),
    let w : Fin 17 := ⟨j.val, by omega⟩
    let e : Fin 17 := ⟨j.val + 1, by omega⟩
    let pos (m : Nat) := s.fld (Reg.ARR_COUPLE m) F.ARR_COUPLE_POS
    let size (m : Nat) := s.fld (Reg.ARR_COUPLE m) F.ARR_COUPLE_GSIZE_LOG
    let east := pos w.val < 2 ^ size w.val - 1
    let west := 0 < pos e.val
    let used := east ∧ west ∧ size w.val = size e.val ∧ pos w.val + 1 = pos e.val
    (jointInUse s j.val = true ↔ used) ∧
    (east → ¬ used → eastBeyond s w 3 fl = 0) ∧ (west → ¬ used → westBeyond s e 3 fl = 0) ∧
    ((refreshJoints s).fld (Reg.ARR_JOINT_STAT j.val) F.ARR_JOINT_STAT_MISMATCH = 1 ↔ (east ∨ west) ∧ ¬ used) ∧
    ((refreshJoints s).fld (Reg.ARR_JOINT_STAT j.val) F.ARR_JOINT_STAT_IN_USE = 1 ↔ used)

/-- O5. After a write of a row where en is 1, a group of the row mismatches its parity exactly when it mismatched
before and some of its 32 columns were inactive; other rows keep their mismatches; the groups reported by the write
are those that mismatched and were written in part. (R28, R30) -/
def Obligations.GatedRowWriteParity : Prop :=
  ∀ (x : SpanArray) (row r g : Nat) (en v : Plane), g < 512 →
    (r * 512 + g ∈ (writeRow x row en v).parBad ↔
      r * 512 + g ∈ x.parBad ∧ ¬ (r = row ∧ ∀ j < 32, en.duty.getLsbD (32 * g + j) = true)) ∧
    (g ∈ writeReported x row en ↔
      row * 512 + g ∈ x.parBad ∧ (∃ j < 32, en.duty.getLsbD (32 * g + j) = true) ∧
        ∃ j < 32, en.duty.getLsbD (32 * g + j) = false)

/-- O6. With an operation in progress, a role held, the sweeps done, no parity mismatch of the fetched words, the
wait condition met, and no hold of R36, R38, R51, R123 or R281, NANO_WORD_ISSUE answers a next state in which P, Q,
C, T, M and the memory rows of every span of the domain are those of the cycle of R24 on the span's array, X is what
XM names (what it was with none, the named register with load, the neighbours' X with a move), a global-OR or gauge
request is on its way, the operation's end or next micro address is that of its SEQ field, and the arrays of other
spans, the span controllers' G and V registers, memory, time and the queue of commands are unchanged. (R24, R36,
R38, R41, R48, R51, R61, R62, R69, R72, R78, R123) -/
def Obligations.NanoWordIssues : Prop :=
  ∀ (n : Fin 17) (ups : List Upset) (flips : List JointFlip) (s : State) (o : ArrayOp),
    let s1 := applyUpsets s ups
    let ms := domainOf s1 n
    let pc := s1.fld (Reg.MS_STAT n) F.MS_STAT_PC
    let u := microAt s1 n pc
    let w := Nano.ofNat (nanoAt s1 n u.nptr)
    (s1.micro n).op = some o → s1.roleOf n ≠ 31 → sweepsDone s1 ms = true → s1.parity.contains (Win.micro n pc) = false →
    s1.parity.contains (Win.nano n u.nptr) = false → microWaits s1 n u = false →
    (w.xm = 5 → ∀ p ∈ ms.zipIdx, planeMissing s1 n p.2 p.1 = false) →
    (w.gau = 0 ∨ (s1.micro n).gauPend.length + (s1.micro n).gauReady.length < 32) →
    extractHolds s1 n w = false →
    (w.mop = 2 → snapHolds s1 n (nanoRow w (placeOf s1 n)) = false ∧
      captureHolds s1 n (nanoRow w (placeOf s1 n)) = false) →
    ∃ t, exec (.nanoWordIssue n ups flips) s = .next t ∧
      (∀ m ∈ ms,
        let c := bpCycle w (nanoRow w (placeOf s1 n)) (conBit o (placeOf s1 n).lc0) (s1.array m)
        (t.array m).p = c.1.p ∧ (t.array m).q = c.1.q ∧ (t.array m).c = c.1.c ∧ (t.array m).t = c.1.t ∧
          (t.array m).m = c.1.m ∧ (t.array m).rows = c.1.rows ∧ (t.array m).parBad = c.1.parBad ∧
          (w.xm = 0 → (t.array m).x = c.1.x) ∧ (w.xm = 6 → (t.array m).x = c.2) ∧
          (1 ≤ w.xm → w.xm ≤ 4 →
            (t.array m).x.duty = moveX s1 m w.xm w.bnd (flipOf flips (m.val - 1)) (flipOf flips m.val))) ∧
      (t.micro n).gorPend.length = (s1.micro n).gorPend.length + (if w.gor = 1 ∨ w.gor = 2 then 1 else 0) ∧
      (t.micro n).gauPend.length = (s1.micro n).gauPend.length + (if w.gau = 0 then 0 else 1) ∧
      ((t.micro n).op = none ↔ microNext u o (placeOf s1 n) (condValue s1 n u.cond) = none) ∧
      (∀ p, microNext u o (placeOf s1 n) (condValue s1 n u.cond) = some p →
        t.fld (Reg.MS_STAT n) F.MS_STAT_PC = p.pc % 2 ^ 14 ∧ (t.micro n).lc0 = p.lc0 ∧ (t.micro n).ar0 = p.ar0) ∧
      (∀ m, m ∉ ms → t.array m = s1.array m) ∧ (∀ m, (t.ctl m).g = (s.ctl m).g ∧ (t.ctl m).v = (s.ctl m).v) ∧
      t.mem = s1.mem ∧ t.now = s.now ∧ t.pending = s.pending

/-- O7. GLOBAL_OR_RESULT makes the oldest result on its way visible and GAUGE_RESULT puts the oldest into the result
queue, each changing only its micro-sequencer; SPAN_RESET leaves P, Q, C, X and T at 0, M at 1 and INIT_DONE at 0;
INIT_SWEEP_DONE clears every row with matching parity; a SPARE_MAP_WRITE that changes an index while the span is
stopped takes each legal index and starts a parity sweep, and PARITY_SWEEP_DONE leaves every row with matching
parity and keeps the stored bits. (R27, R33, R35, R50, R51, R57) -/
def Obligations.ArrayCommandsComplete : Prop :=
  (∀ (n : Fin 17) (s : State) (b : Bool) (r : List Bool), (s.micro n).gorPend = b :: r →
    exec (.globalOrResult n) s = .next (s.setMicro n { s.micro n with gorPend := r, gor := b })) ∧
  (∀ (n : Fin 17) (s : State) (v : BitVec 32) (r : List (BitVec 32)), (s.micro n).gauPend = v :: r →
    ∃ t, exec (.gaugeResult n) s = .next t ∧ t = { s with micros := t.micros } ∧
      (t.micro n).gauPend = r ∧ (t.micro n).gauReady = (s.micro n).gauReady ++ [v] ∧ (t.micro n).gauLast = v ∧
      (t.micro n).op = (s.micro n).op ∧ ∀ m, m ≠ n → t.micro m = s.micro m) ∧
  (∀ (n : Fin 17) (p : Bool) (s : State),
    ∃ t, exec (.spanReset n p) s = .next t ∧ (t.array n).p = .zero ∧ (t.array n).q = .zero ∧
      (t.array n).c = .zero ∧ (t.array n).x = .zero ∧ (t.array n).t = .zero ∧ (t.array n).m = .ones ∧
      t.fld (Reg.ARR_STAT n) F.ARR_STAT_INIT_DONE = 0 ∧ (∀ m, m ≠ n → t.array m = s.array m) ∧
      t = { s with regs := t.regs, arrays := t.arrays, micros := t.micros, ctls := t.ctls, rx := t.rx }) ∧
  (∀ (n : Fin 17) (s : State), (s.array n).sweep.getLsbD 0 = true →
    ∃ t, exec (.initSweepDone n) s = .next t ∧ (t.array n).rows = [] ∧ (t.array n).parBad = [] ∧
      (t.array n).sweep.getLsbD 0 = false ∧ (t.array n).p = (s.array n).p ∧ (t.array n).m = (s.array n).m ∧
      t.mem = s.mem ∧ t.raises = s.raises) ∧
  (∀ (n : Fin 17) (t : Fin 16) (w : Fin 8) (val : BitVec 32) (s : State),
    spcState s (lead s n) = 3 →
    (∃ f ∈ bypFields, f.accepts (f.get val) = true ∧ f.get val ≠ s.fld (Reg.SPARE_MAP n t w) f) →
    ∃ t', exec (.spareMapWrite n t w val) s = .next t' ∧
      (∀ f ∈ bypFields, t'.fld (Reg.SPARE_MAP n t w) f =
        if f.accepts (f.get val) then f.get val else s.fld (Reg.SPARE_MAP n t w) f) ∧
      t'.fld (Reg.ARR_STAT n) F.ARR_STAT_INIT_DONE = 0 ∧ (t'.array n).sweep.getLsbD 1 = true ∧
      OnlyRegs [Reg.SPARE_MAP n t w, Reg.ARR_STAT n] s t' ∧ t' = { s with regs := t'.regs, arrays := t'.arrays }) ∧
  (∀ (n : Fin 17) (s : State), (s.array n).sweep.getLsbD 1 = true →
    ∃ t, exec (.paritySweepDone n) s = .next t ∧ (t.array n).rows = (s.array n).rows ∧ (t.array n).parBad = [] ∧
      (t.array n).sweep.getLsbD 1 = false ∧ t.mem = s.mem ∧ t.raises = s.raises)

/-- O8. When q is the first quantity of joint j that breaches its limit and holds no flag there yet, JOINT_BREACH
flags the span with the larger deviation of q, the eastern one when they are equal, and raises JOINT_BREACH at a
joint in use and JOINT_WATCH at any other; JOINT_FLAG_CLEAR of a quantity below its clear threshold, and so for 1 s,
takes the quantity's flags away, sets FLAGGED of a span to 0 that no other flag holds, and leaves it where another
flag of the span stands. Memory, arrays and controllers are unchanged. (R52, R54, R55) -/
def Obligations.JointMonitorCommandsComplete : Prop :=
  (∀ (j : Fin 16) (m : JointMeasure) (q : Fin 3) (s : State), (∀ f ∈ s.jointFlags, ¬ (f.1 = j ∧ f.2.1 = q)) →
    jointLimit q < jointValue m q →
    (∀ p : Fin 3, p < q → jointLimit p < jointValue m p → ∃ f ∈ s.jointFlags, f.1 = j ∧ f.2.1 = p) →
    let d := if q = 0 then m.devVolt else if q = 1 then m.devTemp else m.devPhase
    let n := if d.2 < d.1 then j.val else j.val + 1
    ∃ t, exec (.jointBreach j m) s = .next t ∧ t.fld (Reg.ARR_STAT n) F.ARR_STAT_FLAGGED = 1 ∧
      (∃ f ∈ t.jointFlags, f.1 = j ∧ f.2.1 = q ∧ f.2.2.val = n) ∧
      t.fld (Reg.ARR_JOINT_STAT j.val) F.ARR_JOINT_STAT_DVOLT = m.dvolt.toNat ∧
      Raised s t [(16 * j.val + (if jointInUse s j then 13 else 15), 0)] ∧
      t = { s with regs := t.regs, jointFlags := t.jointFlags, jointSpan := t.jointSpan, jointBelow := t.jointBelow,
                   raises := t.raises } ∧
      OnlyRegs [Reg.ARR_JOINT_STAT j.val, Reg.ARR_STAT n] s t) ∧
  ∀ (j : Fin 16) (q : Fin 3) (m : JointMeasure) (s : State) (since : BitVec 64), jointValue m q < jointClear q →
    (j, q, since) ∈ s.jointBelow → since.toNat + 1000000000 ≤ s.now.toNat →
    ∃ t, exec (.jointFlagClear j q m) s = .next t ∧
      t.jointFlags = s.jointFlags.filter (fun f => !(f.1 == j && f.2.1 == q)) ∧
      (∀ f ∈ t.jointFlags, t.reg (Reg.ARR_STAT f.2.2) = s.reg (Reg.ARR_STAT f.2.2)) ∧
      (∀ f ∈ s.jointFlags, f.1 = j → f.2.1 = q → (∀ g ∈ t.jointFlags, g.2.2 ≠ f.2.2) → f.2.2 ∉ s.fh.flagged →
        t.fld (Reg.ARR_STAT f.2.2) F.ARR_STAT_FLAGGED = 0) ∧
      t = { s with regs := t.regs, jointFlags := t.jointFlags, jointBelow := t.jointBelow }

/-- O9. OPERATION_START on an operation entry of a resident routine at the front of the issue queue takes it: the
address registers, loop counters and micro address are loaded, BUSY reads 1 and the queue is shorter by the entry;
MS_WAIT_LONG in a wait that has lasted a limit that is not 0 raises source 16n + 9 once for the wait. (R60, R73) -/
def Obligations.MicroSequencerCommandsComplete : Prop :=
  (∀ (n : Fin 17) (s : State) (o : ArrayOp) (q : List QueueEntry) (r : Routine),
    queueFront s n = some (.op o, q) → routineOf s n o.routine.toNat = some r →
    ∃ t, exec (.operationStart n) s = .next t ∧ (t.ctl n).queue = q ∧ (t.micro n).op = some o ∧
      (t.micro n).ar0 = o.b0 ∧ (t.micro n).ar1 = o.b1 ∧ (t.micro n).ar2 = o.b2 ∧ (t.micro n).ar3 = o.b3 ∧
      (t.micro n).lc0 = loopCount o.w ∧ (t.micro n).lc1 = loopCount o.w2 ∧
      t.fld (Reg.MS_STAT n) F.MS_STAT_BUSY = 1 ∧ t.fld (Reg.MS_STAT n) F.MS_STAT_PC = r.first % 2 ^ 14 ∧
      OnlyRegs [Reg.MS_STAT n, Reg.SPC_OPTRC n, Reg.MS_BUBBLE n] s t ∧ t.raises = s.raises) ∧
  (∀ (n : Fin 17) (s : State), s.fld (Reg.MS_STAT n) F.MS_STAT_WAIT = 1 →
    s.fld (Reg.MS_WAIT_LIMIT n) F.MS_WAIT_LIMIT_LIMIT ≠ 0 →
    s.fld (Reg.MS_WAIT_LIMIT n) F.MS_WAIT_LIMIT_LIMIT ≤ (s.micro n).waited → (s.micro n).waitLong = false →
    ∃ t, exec (.msWaitLong n) s = .next t ∧ Raised s t [(16 * n.val + 9, 0)] ∧
      exec (.msWaitLong n) t = .next t ∧ t = { s with micros := t.micros, raises := t.raises })

/-- O10. A gauge request whose window's last column lies beyond the domain gives the result of the window that ends
at the domain's last column; a window whose first column is greater than its last gives a popcount of 0, and NONE
with a value of 0 for first and last. (R109) -/
def Obligations.GaugeWindowEnds : Prop :=
  ∀ (kind : Nat) (ps : List (BitVec 16384)) (first last : Nat), ps ≠ [] → 1 ≤ kind → kind ≤ 3 →
    (16384 * ps.length ≤ last →
      gaugeResult kind ps first last = gaugeResult kind ps first (16384 * ps.length - 1)) ∧
    (last < first → gaugeResult kind ps first last = if kind = 1 then 0 else 0x80000000)

/-- O11. Let the bundle at SPC_PC of a running or draining controller of its own group be in order, with no
interrupt due and no cycle of a jump or call left. When every source of the moves that take place can be read and no
trigger of a move that no higher slot overrides waits, BUNDLE_EXECUTE executes it: without a call or return each
register v takes the start-of-cycle source of the highest slot whose guarded move takes place with it as destination
and keeps its value otherwise; without a load, store, jump, call or return SPC_PC names the next bundle, bundle 0
after bundle 1,364; and without a call, return or stop no byte of memory outside the data scratch changes. When a
source or a trigger waits, the registers v, SPC_PC and memory are unchanged and the bundle waits. (R90, R92, R93,
R94, R98, R104) -/
def Obligations.BundleMovesTakeEffect : Prop :=
  ∀ (n : Fin 17) (ups : List Upset) (s : State),
    let s1 := flushOut (applyUpsets s ups) n
    let c := s1.ctl n
    let bank := s1.fld (Reg.SPC_CTL n) F.SPC_CTL_BANK
    let pc := s1.fld (Reg.SPC_PC n) F.SPC_PC_INDEX
    let c1 := { c with lsuWait := c.lsuWait - 1, wdog := if spcState s1 n = 0 ∧ c.wdogFired = false then c.wdog + 1 else c.wdog }
    let s2 := s1.setCtl n c1
    let taken := ((bundleMoves s2 n bank pc).filter (fun m =>
        if m.gsel = 0 then !m.inv else 1 ≤ m.gsel && m.gsel ≤ 4 && (c.g.getLsbD (m.gsel - 1) != m.inv))).map
      (fun m => (⟨m, if m.si then readNow m.imm else readSock s2 n pc m.src⟩ : Taken))
    let waits := (∃ m ∈ taken, m.read.value = none) ∨
      ∃ m ∈ (effective taken).1, triggerWaits s2 n m.move.dst (m.read.value.getD 0) ≠ 0
    lead s1 n = n → spcState s1 n < 2 → c.drain = 0 → c.busy = 0 → interruptDue s2 n = false →
    s1.parity.contains (Win.bundle n bank pc) = false →
    (¬ waits → ∃ t, exec (.bundleExecute n ups) s = .next t ∧
      ((∀ m ∈ taken, sockUnit m.move.dst ≠ 5) → ∀ k : Fin 32,
        some ((t.ctl n).v[k]) = match taken.reverse.find? (fun m => m.move.dst == k.val) with
          | some m => m.read.value
          | none => some c.v[k]) ∧
      ((∀ m ∈ taken, sockUnit m.move.dst ≠ 3 ∧ sockUnit m.move.dst ≠ 4 ∧ sockUnit m.move.dst ≠ 5) →
        t.fld (Reg.SPC_PC n) F.SPC_PC_INDEX = (pc + 1) % 1365) ∧
      ((∀ m ∈ taken, sockUnit m.move.dst ≠ 5) → spcState t n < 2 → OnlyBytes (Win.scratch n) (Win.scratch n + 0x8000) s1 t)) ∧
    (waits → ∃ t, exec (.bundleExecute n ups) s = .next t ∧ (t.ctl n).waiting = true ∧ (t.ctl n).v = c.v ∧
      t.fld (Reg.SPC_PC n) F.SPC_PC_INDEX = pc ∧ t.mem = s1.mem)

/-- O12. For all operands: add and sub give the low 32 bits, with V exactly when the true signed result lies outside
the range and C the carry out or no borrow; shifts by 32 or more give 0 or the sign; division by 0 gives all ones
and remainder o with DZ set and V clear; MIN divided by -1 gives MIN with V set and remainder 0 with V clear;
division otherwise truncates toward zero; and no operation but these sets DZ. (R99, R100) -/
def Obligations.SpanAluArithmetic : Prop :=
  ∀ (o t : BitVec 32),
    let inRange (v : Int) : Prop := -2 ^ 31 ≤ v ∧ v < 2 ^ 31
    (∃ r, spanAlu 0 o t = some r ∧ r.value = o + t ∧ r.mask = 3 ∧
      (r.flags.getLsbD 1 = false ↔ inRange (o.toInt + t.toInt)) ∧ (r.flags.getLsbD 0 = true ↔ 2 ^ 32 ≤ o.toNat + t.toNat)) ∧
    (∃ r, spanAlu 1 o t = some r ∧ r.value = o - t ∧ r.mask = 3 ∧
      (r.flags.getLsbD 1 = false ↔ inRange (o.toInt - t.toInt)) ∧ (r.flags.getLsbD 0 = true ↔ t.toNat ≤ o.toNat)) ∧
    (32 ≤ t.toNat → ∃ r q p, spanAlu 6 o t = some r ∧ r.value = 0 ∧ spanAlu 7 o t = some q ∧ q.value = 0 ∧
      spanAlu 8 o t = some p ∧ ∀ i < 32, p.value.getLsbD i = o.msb) ∧
    (∀ code, 23 ≤ code → code ≤ 26 → t = 0 → ∃ r, spanAlu code o t = some r ∧
      r.value = (if code ≤ 24 then 0xFFFFFFFF else o) ∧ r.mask = 6 ∧ r.flags = 4) ∧
    (o = 0x80000000 → t = 0xFFFFFFFF → ∃ q r, spanAlu 23 o t = some q ∧ q.value = 0x80000000 ∧ q.mask = 2 ∧ q.flags = 2 ∧
      spanAlu 25 o t = some r ∧ r.value = 0 ∧ r.mask = 2 ∧ r.flags = 0) ∧
    (t ≠ 0 → ¬ (o = 0x80000000 ∧ t = 0xFFFFFFFF) → ∃ q r, spanAlu 23 o t = some q ∧ spanAlu 25 o t = some r ∧
      q.value.toInt = o.toInt.tdiv t.toInt ∧ r.value.toInt = o.toInt - t.toInt * q.value.toInt ∧
      q.mask = 2 ∧ q.flags = 0 ∧ r.mask = 2 ∧ r.flags = 0) ∧
    ∀ code r, spanAlu code o t = some r → r.mask.getLsbD 2 = true → t = 0 ∧ 23 ≤ code ∧ code ≤ 26

/-- O13. ALU_RESULT_READY makes the oldest result readable with its flags; LINE_SYNC, TOKEN_REACHED and
SNAPSHOT_ENTRY, with their entry at the front and nothing that holds it, take the entry and have the effect of R113,
R111 and R122; CHECKPOINT_COPY_DONE with the copy's accesses made leaves every span of the domain with a valid
checkpoint, in a span of its own with no complete slot before it that of the snapshot's line and count, and ends a
stop that waited for it; CW_MESSAGE_ARRIVE puts the oldest waiting message, of class 0 before the others, into an
inbox with room. (R98, R100, R111, R113, R121, R122, R124, R128, R291, R303) -/
def Obligations.SpanQueueCommandsComplete : Prop :=
  (∀ (n : Fin 17) (alu : Fin 2) (s : State) (p : AluResult) (r : List AluResult),
    (if alu = 0 then (s.ctl n).alu0 else (s.ctl n).alu1).pend = p :: r →
    ∃ t, exec (.aluResultReady n alu) s = .next t ∧ t = { s with ctls := t.ctls } ∧
      (∀ m, m ≠ n → t.ctl m = s.ctl m) ∧
      let a := if alu = 0 then (s.ctl n).alu0 else (s.ctl n).alu1
      let b := if alu = 0 then (t.ctl n).alu0 else (t.ctl n).alu1
      b.r = p.value ∧ b.pend = r ∧ b.o = a.o ∧
        ∀ i < 3, b.f.getLsbD i = if p.mask.getLsbD i then p.flags.getLsbD i else a.f.getLsbD i) ∧
  (∀ (n : Fin 17) (s : State) (q : List QueueEntry), queueFront s n = some (.lineSync, q) →
    (∀ m ∈ domainOf s n, ∀ c ∈ (s.ctl m).caps, c.count ≤ c.west.length) →
    ∃ t, exec (.lineSync n) s = .next t ∧ (t.ctl n).queue = q ∧ (t.ctl n).syncs = (s.ctl n).syncs + 1 ∧
      (t.ctl n).taken = 0 ∧ (t.ctl n).set = none ∧ (t.micro n).gorFresh = false ∧
      (∀ m ∈ domainOf s n, (t.array m).port = [] ∧ (t.array m).rows = (s.array m).rows ∧ (t.ext m).closed = false) ∧
      (∀ m, (t.ctl m).v = (s.ctl m).v ∧ (t.ctl m).g = (s.ctl m).g)) ∧
  (∀ (n : Fin 17) (s : State) (q : List QueueEntry) (v : BitVec 16), queueFront s n = some (.token v, q) →
    ∃ t, exec (.tokenReached n) s = .next t ∧ (t.ctl n).queue = q ∧ (t.ctl n).done = v ∧ t.mem = s.mem ∧
      (∀ m, (t.array m).rows = (s.array m).rows ∧ (t.array m).x = (s.array m).x)) ∧
  (∀ (n : Fin 17) (ups : List Upset) (s : State) (q : List QueueEntry) (b : BitVec 11) (k : BitVec 7) (l : GroupLine),
    let s1 := applyUpsets s ups
    queueFront s1 n = some (.snapshot b k, q) → (s1.ctl n).snap = none → (s1.ctl n).served = some l →
    ∃ t, exec (.snapshotEntry n ups) s = .next t ∧ (t.ctl n).queue = q ∧
      (∃ c, (t.ctl n).snap = some c ∧ c.base = b ∧ c.count = k.toNat ∧ c.line = l.index ∧ c.rows = []) ∧
      (∀ m ∈ domainOf s1 n, t.fld (Reg.CKPT_STAT m) F.CKPT_STAT_BUSY = 1) ∧ t.mem = s1.mem ∧ t.raises = s1.raises) ∧
  (∀ (n : Fin 17) (s : State) (c : Snapshot), (s.ctl n).snap = some c →
    (∀ m ∈ domainOf s n, copyThrough s false m = true) →
    ∃ t, exec (.checkpointCopyDone n) s = .next t ∧ (t.ctl n).snap = none ∧
      (spcState s n = 2 → spcState t n = 3) ∧
      (∀ m ∈ domainOf s n, t.fld (Reg.CKPT_STAT m) F.CKPT_STAT_VALID = 1 ∧ t.fld (Reg.CKPT_STAT m) F.CKPT_STAT_BUSY = 0) ∧
      let h := readHeaders (readRest n 64 s) (Win.piers + 4096 * s.fld (Reg.CKPT_CTL n) F.CKPT_CTL_BASE)
      (domainOf s n = [n] → h.1.good = false → h.2.1.good = false →
        t.fld (Reg.CKPT_STAT n) F.CKPT_STAT_COUNT = c.count % 128 ∧ t.fld (Reg.CKPT_STAT n) F.CKPT_STAT_SLOT = 0 ∧
        t.reg64 (Reg.CKPT_LINE_LO n) (Reg.CKPT_LINE_HI n) = c.line)) ∧
  (∀ (n : Fin 17) (s : State) (p : Packet), (s.cw.c0 ++ s.cw.msgs).find? (fun p => p.dst.val == n.val) = some p →
    (s.ctl n).inbox.length < 4 →
    ∃ t, exec (.cwMessageArrive n) s = .next t ∧ t = { s with ctls := t.ctls, cw := t.cw } ∧
      t.cw = (if p ∈ s.cw.c0 then { s.cw with c0 := s.cw.c0.erase p } else { s.cw with msgs := s.cw.msgs.erase p }) ∧ (∀ m, m ≠ n → t.ctl m = s.ctl m) ∧
      ∃ m, (t.ctl n).inbox = (s.ctl n).inbox ++ [m] ∧ m.tag = p.stag ∧
        ∀ i : Fin 8, m.words[i] = BitVec.ofNat 32 (leNat ((p.data.drop (4 * i.val)).take 4)))

/-- O14. INTERRUPT_ENTRY with an interrupt due and room for its frame pushes the link word with bit 31, the mask and
the masked registers, continues at IVEC and clears INT.ie; STOP_DRAIN of a running lead begins the drain;
DRAIN_COMPLETE after the drain's line sync stops with cause WRITE; STOP_NOW of a controller that is running or
draining ends its operation, empties the queue, stops with cause WRITE or FAULT and raises SPC_STOPPED; SPAN_START
of a stopped lead with INIT_DONE sets the start values and begins at ENTRY; SPC_WATCHDOG at the limit raises once;
CHECKPOINT_RESTORE of a stopped controller sets GO; RESTORE_DONE restores the rows of the newest slot that checks,
or fails with CKPT_FAIL when neither slot is complete. (R105, R107, R116, R124, R125, R126, R127, R128, R129, R131)
-/
def Obligations.SpanStopStartCommandsComplete : Prop :=
  (∀ (n : Fin 17) (ups : List Upset) (s : State),
    let s1 := applyUpsets s ups
    let top := (s1.ctl n).fp.toNat
    let regs := maskRegs (s1.reg (Reg.SPC_IMASK n))
    lead s1 n = n → interruptDue s1 n = true → 0x7000 + 4 * (2 + regs.length) ≤ top → top ≤ 0x8000 →
    ∃ t, exec (.interruptEntry n ups) s = .next t ∧ (t.ctl n).ie = false ∧
      (t.ctl n).fp = BitVec.ofNat 32 (top - 4 * (2 + regs.length)) ∧ (t.ctl n).v = (s1.ctl n).v ∧
      t.fld (Reg.SPC_PC n) F.SPC_PC_INDEX = s1.fld (Reg.SPC_ENTRY n) F.SPC_ENTRY_IVEC ∧
      t.readLE (Win.scratch n + (top - 4)) 4 = s1.fld (Reg.SPC_PC n) F.SPC_PC_INDEX + 2 ^ 31 ∧
      t.readLE (Win.scratch n + (top - 8)) 4 = (s1.reg (Reg.SPC_IMASK n)).toNat ∧
      (∀ p ∈ regs.zipIdx, t.readLE (Win.scratch n + (top - 12 - 4 * p.2)) 4 = ((s1.ctl n).v[p.1]).toNat) ∧
      OnlyBytes (Win.scratch n + (top - 4 * (2 + regs.length))) (Win.scratch n + top) s1 t ∧
      OnlyRegs [Reg.SPC_PC n] s1 t) ∧
  (∀ (n : Fin 17) (s : State), lead s n = n → spcState s n = 0 →
    ∃ t, exec (.stopDrain n) s = .next t ∧ spcState t n = 1 ∧ t.fld (Reg.SPC_CTL n) F.SPC_CTL_STOP = 1 ∧
      ((s.ctl n).queue.contains .lineSync = true → (t.ctl n).drain = 1) ∧ (t.ctl n).queue = (s.ctl n).queue ∧
      t = { s with regs := t.regs, ctls := t.ctls }) ∧
  (∀ (n : Fin 17) (s : State), spcState s n = 1 → (s.ctl n).drain = 2 →
    ∃ t, exec (.drainComplete n) s = .next t ∧ spcState t n = 3 ∧ t.fld (Reg.SPC_STAT n) F.SPC_STAT_CAUSE = 1 ∧
      (t.ctl n).queue = [] ∧ t.fld (Reg.SPC_STAT n) F.SPC_STAT_ABORTED = 0 ∧
      (∃ l, Raised s t ((16 * (lead s n).val, 0) :: l)) ∧ t = { s with regs := t.regs, ctls := t.ctls, raises := t.raises }) ∧
  (∀ (n : Fin 17) (f : Bool) (s : State),
    let m := if f then lead s n else n
    (f = false → lead s n = n) → spcState s m < 2 → (s.ctl m).snap = none →
    ∃ t, exec (.stopNow n f) s = .next t ∧ spcState t m = 3 ∧
      t.fld (Reg.SPC_STAT m) F.SPC_STAT_CAUSE = (if f then 2 else 1) ∧ t.fld (Reg.SPC_CTL m) F.SPC_CTL_STOP = 2 ∧
      (t.ctl m).queue = [] ∧ (t.micro m).op = none ∧ (t.ctl m).v = (s.ctl m).v ∧
      (t.fld (Reg.SPC_STAT m) F.SPC_STAT_ABORTED = 1 ↔ (s.micro m).op ≠ none) ∧
      ∃ l, Raised s t ((16 * (lead s m).val, 0) :: l)) ∧
  (∀ (n : Fin 17) (s : State), lead s n = n → spcState s n = 3 → sweepsDone s (n :: domainOf s n) = true →
    ∃ t, exec (.spanStart n) s = .next t ∧ spcState t n = 0 ∧ t.fld (Reg.SPC_CTL n) F.SPC_CTL_STOP = 0 ∧
      (t.ctl n).v = Vector.replicate 32 0 ∧ (t.ctl n).g = 0 ∧ (t.ctl n).ie = false ∧ (t.ctl n).fp = 0x8000 ∧
      (t.ctl n).ai.gwe = 0x7FFFF ∧ (t.ctl n).ai.gws = 0 ∧ (t.ctl n).inbox = [] ∧ (t.micro n).gauReady = [] ∧
      t.fld (Reg.SPC_PC n) F.SPC_PC_INDEX = s.fld (Reg.SPC_ENTRY n) F.SPC_ENTRY_ENTRY ∧
      t.fld (Reg.SPC_PC n) F.SPC_PC_BANK = s.fld (Reg.SPC_CTL n) F.SPC_CTL_BANK ∧
      t.fld (Reg.SPC_STAT n) F.SPC_STAT_ABORTED = 0 ∧ t.mem = s.mem ∧ t.raises = s.raises) ∧
  (∀ (n : Fin 17) (s : State), spcState s n = 0 → s.fld (Reg.SPC_WDOG n) F.SPC_WDOG_LIMIT ≠ 0 →
    s.fld (Reg.SPC_WDOG n) F.SPC_WDOG_LIMIT ≤ (s.ctl n).wdog → (s.ctl n).wdogFired = false →
    ∃ t, exec (.spcWatchdog n) s = .next t ∧ Raised s t [(16 * (lead s n).val + 1, 0)] ∧
      exec (.spcWatchdog n) t = .next t ∧ t = { s with ctls := t.ctls, raises := t.raises }) ∧
  (∀ (n : Fin 17) (s : State), spcState s n = 3 →
    exec (.checkpointRestore n) s = .next (s.setFld (Reg.CKPT_REST n) F.CKPT_REST_GO 1)) ∧
  ∀ (n : Fin 17) (ups : List Upset) (s : State),
    let s1 := applyUpsets s ups
    let r := readHeaders s1 (Win.piers + 4096 * s1.fld (Reg.CKPT_REST n) F.CKPT_REST_SRC)
    s1.fld (Reg.CKPT_REST n) F.CKPT_REST_GO = 1 → copyThrough s1 true n = true →
    (r.1.good = false → r.2.1.good = false →
      ∃ t, exec (.restoreDone n ups) s = .next t ∧ t.fld (Reg.CKPT_REST n) F.CKPT_REST_FAIL = 1 ∧
        t.fld (Reg.CKPT_REST n) F.CKPT_REST_GO = 0 ∧ t.arrays = s1.arrays ∧
        ∃ p, Raised r.2.2 t [(16 * (lead s1 n).val + 6, p)]) ∧
    ∀ (k : Fin 2) (d : List Byte),
      let h := if k = 0 then r.1 else r.2.1
      newestSlot r.1 r.2.1 = some k →
      (checkedSlot (r.2.2.setFld (Reg.CKPT_REST n) F.CKPT_REST_GO 0)
        (Win.piers + 4096 * s1.fld (Reg.CKPT_REST n) F.CKPT_REST_SRC) k h).1 = some d →
      ∃ t, exec (.restoreDone n ups) s = .next t ∧ t.fld (Reg.CKPT_REST n) F.CKPT_REST_GO = 0 ∧
        t.fld (Reg.CKPT_REST n) F.CKPT_REST_FAIL = 0 ∧ t.reg64 (Reg.CKPT_LINE_LO n) (Reg.CKPT_LINE_HI n) = h.line ∧
        (∀ i < h.count, (rowGet (t.array n).rows ((h.base.toNat + i) % 2048)).duty =
          BitVec.ofNat 16384 (leNat ((d.drop (2048 * i)).take 2048))) ∧
        ∀ m, m ≠ n → t.array m = s1.array m

/-- O15. While a port trains, a TRAIN word in order marks its lane and one out of order fails the attempt with
LANE_ORDER; the second of two consecutive agreeing ALIGN markers within the skew limit makes the port ready; IDLE
after READY makes it CONFIGURING with IDENT sent; a lock loss, on a lane in use, of a CONFIGURING or ACTIVE port
ends its packet, loses its outstanding lines, counts and retrains; 10 ms of training fail the attempt, the third in
a row leaving the port FAILED; 100 ms later training starts again. Other ports' states are unchanged. (R137, R138,
R139) -/
def Obligations.LinkTrainingCommandsComplete : Prop :=
  (∀ (h : Fin 16) (p : Fin 4) (num count : BitVec 8) (s : State), training s h = true → p.val < hpLanes s h →
    num.toNat = p.val → count.toNat = hpLanes s h →
    ∃ t, exec (.trainWordReceive h p num count) s = .next t ∧ (t.head h).laneOk.getLsbD p.val = true ∧
      (t.fld (Reg.HP_STAT h) F.HP_STAT_LOCK).testBit p.val = true ∧ training t h = true ∧
      OnlyRegs [Reg.HP_STAT h] s t ∧ t = { s with regs := t.regs, heads := t.heads } ∧ ∀ k, k ≠ h → t.head k = s.head k) ∧
  (∀ (h : Fin 16) (p : Fin 4) (num count : BitVec 8) (s : State), training s h = true → p.val < hpLanes s h →
    (num.toNat ≠ p.val ∨ count.toNat ≠ hpLanes s h) → (s.head h).fails < 2 →
    ∃ t, exec (.trainWordReceive h p num count) s = .next t ∧ t.fld (Reg.HP_STAT h) F.HP_STAT_CAUSE = 8 ∧
      (t.head h).retryWait = true ∧ (t.head h).fails = (s.head h).fails + 1 ∧ Raised s t [(545 + 4 * h.val, payLine 4 0)]) ∧
  (∀ (h : Fin 16) (q : BitVec 16) (late : List (BitVec 8)) (s : State),
    let lates := (List.range (hpLanes s h)).map (fun i => (late.getD i 0).toNat)
    let low := lates.foldl min (lates.headD 0)
    training s h = true → lanesChecked s h = true → (s.head h).ready = false → (s.head h).aligns = [q - 1] →
    1 ≤ (s.head h).alignRun → skewTooHigh s h ((lates.map (· - low)).foldl max 0) = false →
    ∃ t, exec (.alignReceive h (List.replicate (hpLanes s h) q) late) s = .next t ∧ (t.head h).ready = true ∧
      (t.head h).down = [(64, .train 0 (BitVec.ofNat 8 (hpLanes s h)) true true), (0, .idle)] ∧
      t.fld (Reg.HP_SKEW h) F.HP_SKEW_LANE0 = lates.getD 0 0 - low ∧ OnlyRegs [Reg.HP_SKEW h] s t ∧
      t = { s with regs := t.regs, heads := t.heads }) ∧
  (∀ (h : Fin 16) (s : State), training s h = true → (s.head h).ready = true →
    ∃ t, exec (.linkUp h) s = .next t ∧ hpState t h = 6 ∧ (t.head h).fails = 0 ∧ (t.head h).cfgStep = 0 ∧
      (t.head h).cc = some ⟨ccMessage 2 ((s.head h).ccTag + 1) [], 1, true, s.now⟩ ∧ t.raises = s.raises) ∧
  (∀ (h : Fin 16) (p : Fin 4) (s : State), hpState s h = 6 ∨ hpState s h = 7 → p.val < hpLanes s h →
    ∃ t, exec (.laneLockLoss h p) s = .next t ∧ hpState t h = 5 ∧ (t.head h).triggers = [] ∧ (t.head h).packet = none ∧
      t.fld (Reg.HP_STAT h) F.HP_STAT_CAUSE = 14 ∧
      t.fld (Reg.HP_ERR h) F.HP_ERR_LOCK_LOSS = min (s.fld (Reg.HP_ERR h) F.HP_ERR_LOCK_LOSS + 1) 15 ∧
      ∃ l, Raised s t ((545 + 4 * h.val, payLine 2 0) :: l)) ∧
  (∀ (h : Fin 16) (s : State), training s h = true → (s.head h).since.toNat + 10000000 ≤ s.now.toNat →
    ∃ t, exec (.trainingTimeout h) s = .next t ∧ t.fld (Reg.HP_STAT h) F.HP_STAT_CAUSE = 7 ∧
      ((s.head h).fails < 2 → hpState t h = 5 ∧ (t.head h).retryWait = true ∧ (t.head h).fails = (s.head h).fails + 1) ∧
      (2 ≤ (s.head h).fails → hpState t h = 11 ∧ t.fld (Reg.HP_STAT h) F.HP_STAT_HPEN = 0) ∧
      ∃ l, Raised s t ((545 + 4 * h.val, payLine 3 0) :: l)) ∧
  ∀ (h : Fin 16) (s : State), hpState s h = 5 → (s.head h).retryWait = true →
    (s.head h).since.toNat + 100000000 ≤ s.now.toNat →
    ∃ t, exec (.trainingRetry h) s = .next t ∧ training t h = true ∧ (t.head h).laneOk = 0 ∧
      (t.head h).ready = false ∧ t.raises = s.raises

/-- O16. At an ACTIVE port START words that agree and match an outstanding trigger begin the packet for its line,
every older outstanding line that has not started being lost; START words that match none count a stray packet and
affect no line; a block in order joins the packet, its CRC and the ingest queue; TERM words that close a packet in
order deliver the line good, and otherwise damage it with their cause; a data word outside a packet, and a control
word of a type that is none of the table's, count, the latter damaging a packet in progress; PKT_US after the oldest
trigger whose packet has not started its line is lost. (R135, R145, R146, R148, R149) -/
def Obligations.LinePacketCommandsComplete : Prop :=
  (∀ (h : Fin 16) (line total : BitVec 16) (x : Trigger) (s : State),
    let older := ((s.head h).triggers.filter (fun t => !t.started)).takeWhile (fun y => y != x)
    hpState s h = 7 → (s.head h).packet = none → (s.head h).skipping = false →
    ((s.head h).triggers.filter (fun t => !t.started)).find? (fun t => t.index.setWidth 16 == matchLine s h line) = some x →
    (∃ m ∈ regionsOf s h, rgState s m.val = 2) →
    ∃ t k, exec (.startWord h ((List.range (hpLanes s h)).map (fun i => (line, total, BitVec.ofNat 8 i)))) s = .next t ∧
      (t.head h).packet = some k ∧ k.trig.index = x.index ∧ k.total = total.toNat ∧ k.got = 0 ∧
      t.fld (Reg.HP_LOST h) F.HP_LOST_COUNT = min (s.fld (Reg.HP_LOST h) F.HP_LOST_COUNT + older.length) (2 ^ 32 - 1)) ∧
  (∀ (h : Fin 16) (line total : BitVec 16) (l : BitVec 8) (r : List (BitVec 16 × BitVec 16 × BitVec 8)) (s : State),
    6 ≤ hpState s h → hpState s h ≤ 8 → (s.head h).packet = none → (s.head h).skipping = false →
    ((s.head h).triggers.filter (fun t => !t.started)).find? (fun t => t.index.setWidth 16 == matchLine s h line) = none →
    ∃ t, exec (.startWord h ((line, total, l) :: r)) s = .next t ∧ (t.head h).skipping = true ∧
      (t.head h).triggers = (s.head h).triggers ∧ (t.head h).packet = none ∧ OnlyRegs [Reg.HP_ERR h] s t ∧
      t.fld (Reg.HP_ERR h) F.HP_ERR_STRAY_PKT = min (s.fld (Reg.HP_ERR h) F.HP_ERR_STRAY_PKT + 1) 255 ∧
      t = { s with regs := t.regs, heads := t.heads }) ∧
  (∀ (h : Fin 16) (data : List Byte) (k : HeadPacket) (s : State), data.length = 64 → (s.head h).packet = some k →
    k.got < k.total → (k.got = 0 → headerGood s h data = true) → ingestBlocks (s.head h) < 256 →
    ∃ t k', exec (.packetBlock h data true) s = .next t ∧ (t.head h).packet = some k' ∧ k'.got = k.got + 1 ∧
      k'.trig = k.trig ∧ k'.crc = (if k.got + 1 = k.total then k.crc else crcRun k.crc data) ∧
      ((takersOf s h).length ≠ 0 → ∃ g, (t.head h).ingest = (s.head h).ingest ++ [g] ∧ g.item = .block data) ∧
      t = { s with heads := t.heads } ∧ ∀ j, j ≠ h → t.head j = s.head j) ∧
  (∀ (h : Fin 16) (terms : List (BitVec 16 × BitVec 16)) (k : HeadPacket) (s : State), (s.head h).packet = some k →
    ∃ t, exec (.termWord h terms) s = .next t ∧ (t.head h).packet = none ∧ (t.head h).skipping = false ∧
      (endDamage s h k terms = 0 → Raised s t [] ∧
        t.fld (Reg.HP_PKT_OK h) F.HP_PKT_OK_COUNT = min (s.fld (Reg.HP_PKT_OK h) F.HP_PKT_OK_COUNT + 1) (2 ^ 32 - 1)) ∧
      (endDamage s h k terms ≠ 0 →
        Raised s t [(546 + 4 * h.val, payLine (endDamage s h k terms) k.trig.index)] ∧
        t.fld (Reg.HP_PKT_DMG h) F.HP_PKT_DMG_COUNT = min (s.fld (Reg.HP_PKT_DMG h) F.HP_PKT_DMG_COUNT + 1) (2 ^ 32 - 1))) ∧
  (∀ (h : Fin 16) (w : Option (List Byte)) (s : State), (s.head h).packet = none →
    (w = none ∧ (s.head h).skipping = false ∨ ∃ b, w = some b ∧ CtrlWord.ofBytes b = none) →
    ∃ t, exec (.badCtrl h w) s = .next t ∧ (t.head h).triggers = (s.head h).triggers ∧ OnlyRegs [Reg.HP_ERR h] s t ∧
      t.fld (Reg.HP_ERR h) F.HP_ERR_BAD_CTRL = min (s.fld (Reg.HP_ERR h) F.HP_ERR_BAD_CTRL + 1) 255 ∧
      t = { s with regs := t.regs, heads := t.heads }) ∧
  (∀ (h : Fin 16) (b : List Byte) (k : HeadPacket) (s : State), (s.head h).packet = some k → CtrlWord.ofBytes b = none →
    ∃ t, exec (.badCtrl h (some b)) s = .next t ∧ (t.head h).packet = none ∧ (t.head h).skipping = true ∧
      Raised s t [(546 + 4 * h.val, payLine 2 k.trig.index)] ∧
      t.fld (Reg.HP_ERR h) F.HP_ERR_BAD_CTRL = min (s.fld (Reg.HP_ERR h) F.HP_ERR_BAD_CTRL + 1) 255) ∧
  ∀ (h : Fin 16) (x : Trigger) (s : State), s.fld (Reg.HP_TMO h) F.HP_TMO_PKT_US ≠ 0 →
    (s.head h).triggers.find? (fun t => !t.started) = some x →
    x.time.toNat + 1000 * s.fld (Reg.HP_TMO h) F.HP_TMO_PKT_US ≤ s.now.toNat →
    ∃ t, exec (.packetTimeout h) s = .next t ∧ (t.head h).triggers = (s.head h).triggers.erase x ∧
      t.reports = s.reports ++ [⟨h, x.index⟩] ∧ Raised s t [(546 + 4 * h.val, payLine 1 x.index)] ∧
      t.fld (Reg.HP_LOST h) F.HP_LOST_COUNT = min (s.fld (Reg.HP_LOST h) F.HP_LOST_COUNT + 1) (2 ^ 32 - 1)

/-- O17. HP_CC_GO at an ACTIVE port with the channel free sends the request in HP_CC_TX under a new TAG with its CRC
and GO reads 1; a RESP in order with the TAG of software's request stands in HP_CC_RX with DONE, GO reading 0; an
ALERT in order with ALERT clear stands there with ALERT; a message whose CRC fails only counts; the messages go and
come in CTRL words of 6 bytes; 1 ms without a RESP the request is sent again, and after the third attempt it ends
with ERR and cause CC_TIMEOUT. (R153, R155, R156, R166) -/
def Obligations.ControlChannelCommandsComplete : Prop :=
  (∀ (h : Fin 16) (s : State), hpState s h = 7 → s.fld (Reg.HP_CC_CTL h) F.HP_CC_CTL_GO = 0 → (s.head h).cc = none →
    let body := s.readBytes (Win.ccTx h + 4) (s.fld (Reg.HP_CC_CTL h) F.HP_CC_CTL_TX_LEN)
    let msg := ccMessage (s.byte (Win.ccTx h)) ((s.head h).ccTag + 1) body
    ∃ t, exec (.hpCcGo h) s = .next t ∧ t.fld (Reg.HP_CC_CTL h) F.HP_CC_CTL_GO = 1 ∧
      (t.head h).cc = some ⟨msg, 1, false, s.now⟩ ∧ (t.head h).ccSent = ctrlWords (msg ++ leBytes 4 (crc32 msg).toNat) ∧
      OnlyRegs [Reg.HP_CC_CTL h] s t ∧ t = { s with regs := t.regs, heads := t.heads } ∧
      ∀ k, k ≠ h → t.head k = s.head k) ∧
  (∀ (h : Fin 16) (words : List (BitVec 8 × List Byte)) (msg : List Byte) (r : CcRequest) (s : State),
    words.map (fun w => CtrlWord.ctrl w.1 w.2) = ctrlWords (msg ++ leBytes 4 (crc32 msg).toNat) →
    (s.head h).packet = none → 4 ≤ msg.length →
    msg.length ≤ 62 → leNat ((msg.drop 2).take 2) = msg.length - 4 → msg.getD 0 0 = 0x81 → (s.head h).cc = some r →
    r.own = false → r.msg.getD 1 0 = msg.getD 1 0 →
    ∃ t, exec (.ccMessageReceive h words) s = .next t ∧
      t.fld (Reg.HP_CC_CTL h) F.HP_CC_CTL_DONE = 1 ∧ t.fld (Reg.HP_CC_CTL h) F.HP_CC_CTL_GO = 0 ∧
      t.fld (Reg.HP_CC_CTL h) F.HP_CC_CTL_RX_LEN = msg.length - 4 ∧
      t.readBytes (Win.ccRx h) 64 = (msg ++ List.replicate 64 0).take 64 ∧
      OnlyBytes (Win.ccRx h) (Win.ccRx h + 64) s t ∧ t.raises = s.raises) ∧
  (∀ (h : Fin 16) (words : List (BitVec 8 × List Byte)) (msg : List Byte) (s : State),
    words.map (fun w => CtrlWord.ctrl w.1 w.2) = ctrlWords (msg ++ leBytes 4 (crc32 msg).toNat) →
    (s.head h).packet = none → 4 ≤ msg.length →
    msg.length ≤ 62 → leNat ((msg.drop 2).take 2) = msg.length - 4 → msg.getD 0 0 = 0x82 →
    s.fld (Reg.HP_CC_CTL h) F.HP_CC_CTL_ALERT = 0 →
    ∃ t, exec (.ccMessageReceive h words) s = .next t ∧
      t.fld (Reg.HP_CC_CTL h) F.HP_CC_CTL_ALERT = 1 ∧ t.fld (Reg.HP_CC_CTL h) F.HP_CC_CTL_RX_LEN = msg.length - 4 ∧
      t.readBytes (Win.ccRx h) 64 = (msg ++ List.replicate 64 0).take 64 ∧ Raised s t [(547 + 4 * h.val, payLine 15 0)]) ∧
  (∀ (h : Fin 16) (words : List (BitVec 8 × List Byte)) (msg : List Byte) (c : BitVec 32) (s : State),
    words.map (fun w => CtrlWord.ctrl w.1 w.2) = ctrlWords (msg ++ leBytes 4 c.toNat) →
    (s.head h).packet = none → 4 ≤ msg.length →
    msg.length ≤ 62 → leNat ((msg.drop 2).take 2) = msg.length - 4 → c ≠ crc32 msg →
    exec (.ccMessageReceive h words) s = .next (s.bump (Reg.HP_ERR h) F.HP_ERR_CC_CRC)) ∧
  (∀ (h : Fin 16) (r : CcRequest) (s : State), (s.head h).cc = some r → r.sent.toNat + 1000000 ≤ s.now.toNat →
    r.attempt < 3 → exec (.ccRetryTimeout h) s =
      .next (s.setHead h { s.head h with cc := some { r with attempt := r.attempt + 1, sent := s.now } })) ∧
  ∀ (h : Fin 16) (r : CcRequest) (s : State), (s.head h).cc = some r → r.sent.toNat + 1000000 ≤ s.now.toNat →
    3 ≤ r.attempt → r.own = false →
    ∃ t, exec (.ccRetryTimeout h) s = .next t ∧ t.fld (Reg.HP_CC_CTL h) F.HP_CC_CTL_ERR = 1 ∧
      t.fld (Reg.HP_STAT h) F.HP_STAT_CAUSE = 11 ∧ Raised s t [(547 + 4 * h.val, payLine 11 0)] ∧ t.mem = s.mem

/-- O18. Each hot-plug command of a port, in the states of R161 that it acts in, leads to the state that R161 gives,
with HPEN, the cause and the event of R165: insertion, removal, a head fault, the end of the power wait, the
descriptor read, verification, retrain, release, the release timeout, the end of a release, attach, enable and
disable. (R157, R158, R160, R161, R162, R163, R164, R165, R166) -/
def Obligations.HotPlugCommandsComplete : Prop :=
  (∀ (h : Fin 16) (s : State), s.fld (Reg.HP_STAT h) F.HP_STAT_PRESENT = 0 →
    ∃ t, exec (.headInsertion h) s = .next t ∧ t.fld (Reg.HP_STAT h) F.HP_STAT_PRESENT = 1 ∧
      Raised s t [(544 + 4 * h.val, payLine 1 0)] ∧
      hpState t h = (if hpState s h = 1 ∧ s.fld (Reg.HP_CTL h) F.HP_CTL_AUTO = 1 ∧ h.val ∈ s.pads then 2 else hpState s h)) ∧
  (∀ (h : Fin 16) (s : State), s.fld (Reg.HP_STAT h) F.HP_STAT_PRESENT = 1 → 1 < hpState s h →
    ∃ t, exec (.headRemoval h) s = .next t ∧ t.fld (Reg.HP_STAT h) F.HP_STAT_PRESENT = 0 ∧ hpState t h = 1 ∧
      t.fld (Reg.HP_STAT h) F.HP_STAT_HPEN = 0 ∧ t.fld (Reg.HP_STAT h) F.HP_STAT_CAUSE = 12 ∧
      (t.head h).triggers = [] ∧ (t.head h).packet = none ∧ (t.head h).cc = none ∧
      (t.head h).htrg = [] ∧ ∃ l, Raised s t (l ++ [(544 + 4 * h.val, payLine 2 0)])) ∧
  (∀ (h : Fin 16) (s : State), s.fld (Reg.HP_STAT h) F.HP_STAT_PRESENT = 1 → s.fld (Reg.HP_STAT h) F.HP_STAT_FAULT = 0 →
    ∃ t, exec (.headFault h true) s = .next t ∧ t.fld (Reg.HP_STAT h) F.HP_STAT_FAULT = 1 ∧
      t.fld (Reg.HP_STAT h) F.HP_STAT_CAUSE = 13 ∧ (∃ l, Raised s t ((547 + 4 * h.val, payLine 13 0) :: l)) ∧
      hpState t h = (if s.fld (Reg.HP_CTL h) F.HP_CTL_FLT_OFF = 1 ∧ 1 < hpState s h then 11 else hpState s h)) ∧
  (∀ (h : Fin 16) (s : State),
    exec (.headFault h false) s = .next (s.setFld (Reg.HP_STAT h) F.HP_STAT_FAULT 0)) ∧
  (∀ (h : Fin 16) (s : State), hpState s h = 2 → (s.head h).since.toNat + powerWait s h ≤ s.now.toNat →
    ∃ t, exec (.powerWaitEnd h) s = .next t ∧
      (s.fld (Reg.HP_STAT h) F.HP_STAT_FAULT = 0 → hpState t h = 3 ∧ t.raises = s.raises) ∧
      (s.fld (Reg.HP_STAT h) F.HP_STAT_FAULT = 1 → hpState t h = 11 ∧ t.fld (Reg.HP_STAT h) F.HP_STAT_CAUSE = 1 ∧
        t.fld (Reg.HP_STAT h) F.HP_STAT_HPEN = 0 ∧ Raised s t [(547 + 4 * h.val, payLine 1 0)])) ∧
  (∀ (h : Fin 16) (bytes : List Byte) (good : Bool) (s : State), hpState s h = 3 →
    ∃ t, exec (.descriptorReadDone h bytes good) s = .next t ∧
      (good = true → hpState t h = 4 ∧ t.readBytes (Win.desc h) 1024 = (bytes ++ List.replicate 1024 0).take 1024 ∧
        OnlyBytes (Win.desc h) (Win.desc h + 1024) s t) ∧
      (good = false → hpState t h = 11 ∧ t.fld (Reg.HP_STAT h) F.HP_STAT_CAUSE = 2 ∧ t.mem = s.mem)) ∧
  (∀ (h : Fin 16) (s : State), hpState s h = 4 →
    ∃ t, exec (.descriptorVerified h) s = .next t ∧ t.mem = s.mem ∧
      (descriptorCause s h = 0 → training t h = true ∧
        (t.head h).pixels.toNat = s.readLE (Win.desc h + 60) 2 ∧ (t.head h).bits.toNat = s.readLE (Win.desc h + 62) 1) ∧
      (descriptorCause s h ≠ 0 → hpState t h = 10 ∧ t.fld (Reg.HP_STAT h) F.HP_STAT_CAUSE = descriptorCause s h ∧
        Raised s t [(547 + 4 * h.val, payLine (descriptorCause s h) 0)])) ∧
  (∀ (h : Fin 16) (s : State), hpState s h = 7 →
    (∃ t, exec (.hpRetrain h) s = .next t ∧ hpState t h = 5 ∧ (t.head h).triggers = [] ∧ (t.head h).packet = none) ∧
    ∃ t, exec (.hpRelease h) s = .next t ∧ hpState t h = 8 ∧ (t.head h).triggers = (s.head h).triggers ∧
      (t.head h).packet = (s.head h).packet ∧ t.raises = s.raises ∧
      ((s.head h).triggers = [] → (s.head h).packet = none → (s.head h).cc = none → (s.head h).streamOff = false →
        (t.head h).streamOff = true ∧ (t.head h).cc = some ⟨ccMessage 5 ((s.head h).ccTag + 1) [0], 1, true, s.now⟩)) ∧
  (∀ (h : Fin 16) (s : State), hpState s h = 8 → (s.head h).since.toNat + 1000000 ≤ s.now.toNat →
    ∃ t, exec (.releaseTimeout h) s = .next t ∧ hpState t h = 8 ∧ (t.head h).packet = none ∧
      ∀ x ∈ (t.head h).triggers, x.started = true) ∧
  (∀ (h : Fin 16) (s : State), hpState s h = 8 → (s.head h).streamOff = true → (s.head h).cc = none →
    (∀ u, relaying s h = some u → u.phase ≠ 2) →
    ∃ t, exec (.hpReleased h) s = .next t ∧ hpState t h = 9 ∧ t.fld (Reg.HP_STAT h) F.HP_STAT_HPEN = 0 ∧
      t.fld (Reg.HP_CTL h) F.HP_CTL_RELEASE = 0 ∧ t = { s with regs := t.regs, heads := t.heads }) ∧
  (∀ (h : Fin 16) (s : State), h.val ∈ s.pads →
    (hpState s h = 1 ∧ s.fld (Reg.HP_STAT h) F.HP_STAT_PRESENT = 1 ∨ 9 ≤ hpState s h ∧ hpState s h ≤ 11) →
    ∃ t, exec (.hpAttach h) s = .next t ∧ hpState t h = 2 ∧ t.fld (Reg.HP_STAT h) F.HP_STAT_HPEN = 1 ∧
      t.fld (Reg.HP_CTL h) F.HP_CTL_ATTACH = 1 ∧ t = { s with regs := t.regs, heads := t.heads }) ∧
  (∀ (h : Fin 16) (s : State), h.val ∈ s.pads → hpState s h = 0 →
    ∃ t, exec (.portEnable h) s = .next t ∧ t.fld (Reg.HP_CTL h) F.HP_CTL_ENABLE = 1 ∧
      hpState t h = (if s.fld (Reg.HP_STAT h) F.HP_STAT_PRESENT = 1 ∧ s.fld (Reg.HP_CTL h) F.HP_CTL_AUTO = 1 then 2 else 1) ∧
      t = { s with regs := t.regs, heads := t.heads }) ∧
  ∀ (h : Fin 16) (s : State), hpState s h ≠ 0 →
    ∃ t, exec (.portDisable h) s = .next t ∧ hpState t h = 0 ∧ t.fld (Reg.HP_CTL h) F.HP_CTL_ENABLE = 0 ∧
      t.fld (Reg.HP_STAT h) F.HP_STAT_HPEN = 0 ∧ t.fld (Reg.HP_STAT h) F.HP_STAT_PRESENT = s.fld (Reg.HP_STAT h) F.HP_STAT_PRESENT

/-- O19. For every pair of 16-bit operands, every carry in, F and R, the result of operations 0 to 23 is the one
that R173 gives for the numbers that the operands stand for, shifts by 16 or more included, and F is the carry, the
absence of a borrow or the comparison where the operation names it and otherwise unchanged. (R173, R174) -/
def Obligations.WordCellOperations : Prop :=
  ∀ (a b r : BitVec 16) (cin f : Bool),
    let op (k : Nat) := cellOp 16 k a b cin f r
    let c := cin.toNat
    (op 0 = (r, none)) ∧ (op 1 = (a, none)) ∧
    ((op 2).1.toNat = (a.toNat + b.toNat + c) % 65536 ∧ (op 2).2 = some (decide (65536 ≤ a.toNat + b.toNat + c))) ∧
    ((op 3).1.toNat = (a.toNat + (65536 - b.toNat) + 65535 + c) % 65536 ∧
      (op 3).2 = some (decide (b.toNat + 1 ≤ a.toNat + c))) ∧
    ((op 4).1 = a &&& b ∧ (op 5).1 = a ||| b ∧ (op 6).1 = a ^^^ b ∧ (op 7).1 = a &&& ~~~b) ∧
    ((op 8).1.toNat = (a.toNat * 2 ^ b.toNat) % 65536 ∧ (op 9).1.toNat = a.toNat / 2 ^ b.toNat ∧
      (op 10).1.toInt = a.toInt / 2 ^ b.toNat) ∧
    ((op 11).1.toNat + 65536 * (op 12).1.toNat = a.toNat * b.toNat) ∧
    ((op 13).1.toInt = (a.toInt * b.toInt) / 65536) ∧
    ((op 14).1.toInt = min a.toInt b.toInt ∧ (op 15).1.toInt = max a.toInt b.toInt) ∧
    ((op 16).1.toNat = min a.toNat b.toNat ∧ (op 17).1.toNat = max a.toNat b.toNat) ∧
    ((op 18).2 = some (decide (a.toInt < b.toInt)) ∧ (op 19).2 = some (decide (a.toNat < b.toNat)) ∧
      (op 20).2 = some (decide (a = b))) ∧
    (∀ k, k = 18 ∨ k = 19 ∨ k = 20 → (op k).1 = if (op k).2 = some true then 1 else 0) ∧
    ((op 21).1 = (if f then a else b)) ∧
    ((op 22).1.toNat = min 65535 (a.toNat + b.toNat) ∧ (op 23).1.toNat = a.toNat - b.toNat) ∧
    ∀ k, k < 24 → k ≠ 2 → k ≠ 3 → k ≠ 18 → k ≠ 19 → k ≠ 20 → (op k).2 = none

/-- O20. A write of RG_SRC selects the region's head port and is ignored as a whole when two other regions have that
port; a source change waits while a packet is in progress to the region; words enter the frame window in order from
offset 0; word 66 applies a good frame, the first one leading to LOADING, and counts a bad one; a good SEAL frame
leads to RUNNING with the pads live, and a bad one to SEAL_FAILED with cause COUNT, CRC or CONTENTION; UNSEAL,
DISABLE, ENABLE and the end of the drain move between the states that R189 names for them and have no effect in
others; the scrub reads one applied frame back, and counts, logs and raises a mismatch. (R168, R169, R183, R185,
R186, R189, R190) -/
def Obligations.RegionConfigurationCommandsComplete : Prop :=
  (∀ (m : Fin 17) (val : BitVec 32) (s : State),
    let h := Fin.ofNat 16 (F.RG_SRC_PORT.get val)
    let others := ((List.finRange 17).filter (fun k => k != m && srcWord (s.reg (Reg.RG_SRC k)) == some h)).length
    F.RG_SRC_EN.get val = 1 → (s.region m).taking = none → (s.region m).markers = [] →
    (2 ≤ others → exec (.rgSrcWrite m val) s = .next s) ∧
    (others < 2 → ∃ t, exec (.rgSrcWrite m val) s = .next t ∧ t.fld (Reg.RG_SRC m) F.RG_SRC_EN = 1 ∧
      t.fld (Reg.RG_SRC m) F.RG_SRC_PORT = F.RG_SRC_PORT.get val ∧ OnlyRegs [Reg.RG_SRC m] s t ∧
      t = { s with regs := t.regs, regions := t.regions } ∧ t.region m = { s.region m with source := some h } ∧
      ∀ k, k ≠ m → t.region k = s.region k)) ∧
  (∀ (m : Fin 17) (val : BitVec 32) (s : State), F.RG_SRC_EN.get val = 0 → (s.region m).taking = none →
    (s.region m).markers = [] → ∃ t, exec (.rgSrcWrite m val) s = .next t ∧ t.fld (Reg.RG_SRC m) F.RG_SRC_EN = 0 ∧
      t.region m = { s.region m with source := none } ∧ OnlyRegs [Reg.RG_SRC m] s t ∧
      t = { s with regs := t.regs, regions := t.regions }) ∧
  (∀ (m : Fin 17) (s : State), (s.region m).markers = [] →
    ((s.region m).taking ≠ none → exec (.sourceSwitch m) s = .next s) ∧
    ((s.region m).taking = none → exec (.sourceSwitch m) s =
      .next (s.setRegion m { s.region m with source := srcWord (s.reg (Reg.RG_SRC m)) }))) ∧
  (∀ (m : Fin 17) (w : BitVec 32) (s : State),
    exec (.frameWordWrite m 0 w) s = .next (s.setRegion m { s.region m with window := [w] })) ∧
  (∀ (m : Fin 17) (j : Fin 67) (w : BitVec 32) (s : State), 0 < j.val → j.val < 66 →
    exec (.frameWordWrite m j w) s = .next (s.setRegion m { s.region m with
      window := if (s.region m).window.length = j.val then (s.region m).window ++ [w] else [] })) ∧
  (∀ (m : Fin 17) (w : BitVec 32) (s : State),
    let ws := (s.region m).window ++ [w]
    let key := (ws.getD 0 0).toNat
    let sum := crc32 ((ws.take 66).flatMap (fun x => leBytes 4 x.toNat))
    let s0 := s.setRegion m { s.region m with window := [] }
    let f : Frame := ⟨key, ws.getD 1 0, (ws.drop 2).take 64, w, true⟩
    (s.region m).window.length = 66 →
    (w ≠ sum ∨ bits (ws.getD 1 0).toNat 31 24 ≠ 1 ∨ frameValid key = false ∨
        1 < rgState s m ∧ s.fld (Reg.RG_CTL m) F.RG_CTL_RAW = 0 →
      exec (.frameWordWrite m 66 w) s = .next (s0.bump (Reg.CFG_STAT m) F.CFG_STAT_BAD_FRAME)) ∧
    (w = sum → bits (ws.getD 1 0).toNat 31 24 = 1 → frameValid key = true → rgState s m ≤ 1 →
      (key / 2 ^ 28 ≠ 15 →
        ∃ t, exec (.frameWordWrite m 66 w) s = .next t ∧ (t.region m).frames = frameInsert (s.region m).frames f ∧
          rgState t m = 1 ∧ (key / 2 ^ 28 ≠ 2 → OnlyRegs [Reg.CFG_STAT m, Reg.RG_STAT m, Reg.RG_CTL m] s t ∧
          Raised s t (if rgState s m = 0 then [(272 + 16 * m.val, 0)] else []))) ∧
      (key / 2 ^ 28 = 15 →
        let listed := (s.region m).frames.filter (·.listed)
        let count := (ws.getD 2 0).toNat
        let sealCrc := crc32 (listed.flatMap (fun x => leBytes 4 x.crc.toNat))
        (listed.length = count → sealCrc = ws.getD 3 0 → (s.region m).guards = [] →
          ∃ t, exec (.frameWordWrite m 66 w) s = .next t ∧ rgState t m = 2 ∧
            t.fld (Reg.RG_STAT m) F.RG_STAT_PADS_LIVE = 1) ∧
        (listed.length = count → sealCrc = ws.getD 3 0 → (s.region m).guards ≠ [] →
          ∃ t, exec (.frameWordWrite m 66 w) s = .next t ∧ rgState t m = 5 ∧ t.fld (Reg.RG_STAT m) F.RG_STAT_CAUSE = 3) ∧
        (listed.length ≠ count ∨ sealCrc ≠ ws.getD 3 0 →
          ∃ t, exec (.frameWordWrite m 66 w) s = .next t ∧ rgState t m = 5 ∧
            let cause := if listed.length ≠ count then 1 else 2
            t.fld (Reg.RG_STAT m) F.RG_STAT_CAUSE = cause ∧ OnlyRegs [Reg.RG_STAT m, Reg.RG_CTL m] s t ∧
            Raised s t [(272 + 16 * m.val, 0), (273 + 16 * m.val, payCause cause)])))) ∧
  (∀ (m : Fin 17) (s : State),
    (rgState s m ≠ 4 → rgState s m ≠ 5 → exec (.rgUnseal m) s = .next s) ∧
    (rgState s m = 4 ∨ rgState s m = 5 → ∃ t, exec (.rgUnseal m) s = .next t ∧ rgState t m = 0 ∧
      (t.region m).frames = (s.region m).frames.map (fun f => { f with listed := false }) ∧
      t.fld (Reg.CFG_STAT m) F.CFG_STAT_FRAMES = 0 ∧ OnlyRegs [Reg.RG_STAT m, Reg.RG_CTL m, Reg.CFG_STAT m] s t ∧
      Raised s t [(272 + 16 * m.val, 0)] ∧ t.mem = s.mem)) ∧
  (∀ (m : Fin 17) (s : State),
    (rgState s m ≠ 2 → exec (.rgDisable m) s = .next s) ∧ (rgState s m ≠ 4 → exec (.rgEnable m) s = .next s) ∧
    (rgState s m = 2 → ∃ t, exec (.rgDisable m) s = .next t ∧ rgState t m = 3 ∧
      OnlyRegs [Reg.RG_STAT m, Reg.RG_CTL m] s t ∧ Raised s t [(272 + 16 * m.val, 0)] ∧
      t = { s with regs := t.regs, regions := t.regions, raises := t.raises }) ∧
    (rgState s m = 4 → ∃ t, exec (.rgEnable m) s = .next t ∧ rgState t m = 2 ∧
      OnlyRegs [Reg.RG_STAT m, Reg.RG_CTL m] s t ∧ Raised s t [(272 + 16 * m.val, 0)] ∧
      t = { s with regs := t.regs, raises := t.raises }) ∧
    (rgState s m ≠ 3 ∨ lineInProgress s m = true → exec (.regionDrainEnd m) s = .next s) ∧
    (rgState s m = 3 → lineInProgress s m = false → ∃ t, exec (.regionDrainEnd m) s = .next t ∧ rgState t m = 4 ∧
      t.fld (Reg.RG_CTL m) F.RG_CTL_DISABLE = 0 ∧ OnlyRegs [Reg.RG_STAT m, Reg.RG_CTL m] s t ∧
      Raised s t [(272 + 16 * m.val, 0)] ∧ t.mem = s.mem)) ∧
  ∀ (m : Fin 17) (flips : List (Nat × Nat)) (f : Frame) (s : State),
    let r := flips.foldl (fun (r : Region) p =>
      { r with frames := r.frames.map (fun f => if f.key = p.1 then flipFrame f p.2 else f) }) (s.region m)
    let sum := crc32 (leBytes 4 f.key ++ leBytes 4 f.fmt.toNat ++ f.words.flatMap (fun w => leBytes 4 w.toNat))
    s.fld (Reg.CFG_SCRUB m) F.CFG_SCRUB_EN = 1 → 2 ≤ rgState s m → rgState s m ≤ 4 →
    r.frames[r.scrub % max 1 r.frames.length]? = some f →
    ∃ t, exec (.configScrub m flips) s = .next t ∧ rgState t m = rgState s m ∧
      (t.region m) = { r with scrub := (r.scrub + 1) % r.frames.length } ∧
      (sum = f.crc → t = s.setRegion m (t.region m)) ∧
      (sum ≠ f.crc → Raised s t [(274 + 16 * m.val, 0)] ∧ OnlyRegs [Reg.CFG_SCRUB m, Reg.CFG_STAT m] s t ∧
        t.fld (Reg.CFG_STAT m) F.CFG_STAT_SCRUB_ERR = min (s.fld (Reg.CFG_STAT m) F.CFG_STAT_SCRUB_ERR + 1) 255 ∧
        t.fld (Reg.CFG_SCRUB m) F.CFG_SCRUB_VALID = 1 ∧ t.fld (Reg.CFG_SCRUB m) F.CFG_SCRUB_MAJOR = bits f.key 27 16 ∧
        t.fld (Reg.CFG_SCRUB m) F.CFG_SCRUB_MINOR = bits f.key 11 0)

/-- O21. A running region whose gearbox has nothing executes one cycle of its cells and memories, counts collisions
and raises the user events that rise; the transposer takes a beat's columns into the line's slot, packed in 12 bits,
and does nothing without VALID; the next plane of a complete line that the plane ports serve joins the truss queues
while they have room, bit for bit in the order of TP_CTL.ORDER; a valid RP_CTL.GO starts a copy; a line that the
source does not hold becomes a lost marker and counts in MISSING, one that it holds and that passes its checks lies
byte for byte in a slot of the destination, or is marked where it lies when the source is the destination, and the
last line ends the copy; the history-ring writer of a sealed region writes the metadata of a line with writing and,
when the pixels are stored, without it. (R171, R182, R191, R195, R196, R197, R199, R200, R201) -/
def Obligations.RegionDataPathCommandsComplete : Prop :=
  (∀ (m : Fin 17) (ups : List Upset) (s : State), let s1 := applyUpsets s ups
    rgRuns s1 m = true → (s1.region m).gear = none → takeItem s1 m = none → (s1.region m).ports.valid = false →
    let c := fabricCycle (s1.region m) .none s1.freeCtr
    ∃ t, exec (.wordCellCycle m ups) s = .next t ∧ t.region m = c.1 ∧ OnlyRegs [Reg.BM_COLL m] s1 t ∧
      t = { s1 with regs := t.regs, regions := t.regions, raises := t.raises, freeCtr := s1.freeCtr + cycleFree } ∧
      (∀ k, k ≠ m → t.region k = s1.region k) ∧
      Raised s1 t (((List.range 4).filter (fun i => c.1.ports.user.getLsbD i && !c.1.userPrev.getLsbD i)).map
        (fun i => (284 + 16 * m.val + i, 0)))) ∧
  (∀ (m : Fin 17) (s : State), (s.region m).ports.valid = false → exec (.transposerBeat m) s = .next s) ∧
  (∀ (m : Fin 17) (o : OutLine) (k : Fin 32) (s : State),
    let n := beatSize (s.fld (Reg.TP_CTL m) F.TP_CTL_BEAT)
    let wb := s.fld (Reg.TP_CTL m) F.TP_CTL_WB
    let a := Win.slot m k + o.cols / 2 * 3
    rgRuns s m = true → (s.region m).ports.valid = true → (s.region m).ports.eol = false → (s.region m).out = some o →
    o.slot = some k → o.cols + n ≤ 16384 → o.cols % n = 0 → wb ≤ 12 →
    ∃ t, exec (.transposerBeat m) s = .next t ∧ (t.region m).out = some { o with cols := o.cols + n } ∧
      (∀ i, i < n → ((unpack12 (t.readBytes a (n * 3 / 2))).getD i 0).toNat =
        ((s.region m).ports.words.getD i 0).toNat % 2 ^ wb) ∧
      OnlyBytes a (a + n * 3 / 2) s t ∧ t = { s with mem := t.mem, errs := t.errs, regions := t.regions }) ∧
  (∀ (m : Fin 17) (k : Fin 32) (ups : List Upset) (s : State), let s1 := applyUpsets s ups
    let i := (s1.region m).sent
    let wb := s1.fld (Reg.TP_CTL m) F.TP_CTL_WB
    let b := if s1.fld (Reg.TP_CTL m) F.TP_CTL_ORDER = 0 then i else wb - 1 - i
    servedSlot s1 (lead s1 m) (spanNumber s1 m) = some k → slotState s1 m k = 2 → s1.errs = [] →
    (4 ≤ (s1.array m).port.length → exec (.planeSend m ups) s = .next s1) ∧
    (2 ≤ rgState s1 m → rgState s1 m ≤ 4 → i < wb → (s1.array m).port.length < 4 →
      ∃ t p, exec (.planeSend m ups) s = .next t ∧ (t.array m).port = (s1.array m).port ++ [p] ∧
        (∀ j, j < 16384 → p.getLsbD j = ((unpack12 (s1.readBytes (Win.slot m k) slotBytes)).getD j 0).getLsbD b) ∧
        (t.region m).sent = i + 1 ∧ t = { s1 with arrays := t.arrays, regions := t.regions })) ∧
  (∀ (m : Fin 17) (val : BitVec 32) (s : State), F.RP_CTL_GO.get val = 1 → 1 ≤ F.RP_CTL_COUNT.get val →
    F.RP_CTL_COUNT.get val ≤ 8 → F.RP_CTL_NPRIME.get val ≤ F.RP_CTL_COUNT.get val → F.RP_CTL_SRC.get val ≤ 16 →
    s.fld (Reg.RP_STAT m) F.RP_STAT_BUSY = 0 → rgState s m = 2 →
    ∃ t, exec (.replayGo m val) s = .next t ∧ (t.region m).replay = some ⟨Fin.ofNat 17 (F.RP_CTL_SRC.get val),
        s.reg64 (Reg.RP_LINE_LO m) (Reg.RP_LINE_HI m), F.RP_CTL_COUNT.get val, F.RP_CTL_NPRIME.get val⟩ ∧
      t.fld (Reg.RP_STAT m) F.RP_STAT_BUSY = 1 ∧ t.fld (Reg.RP_STAT m) F.RP_STAT_COPIED = 0 ∧
      t.fld (Reg.RP_STAT m) F.RP_STAT_MISSING = 0 ∧ OnlyRegs [Reg.RP_CTL m, Reg.RP_STAT m] s t ∧
      t = { s with regs := t.regs, regions := t.regions }) ∧
  (∀ (m : Fin 17) (p : Replay) (ups : List Upset) (s : State), let s1 := applyUpsets s ups
    (s1.region m).replay = some p → epCut s1 (17 + p.src.val) = false → (s1.ctl (lead s1 m)).syncs = 0 →
    (∀ e ∈ (s1.region m).order, e.index ≠ p.next) →
    (slotOfLine s1 p.src p.next = none →
      ∃ t, exec (.replayLineCopied m ups) s = .next t ∧
        (t.region m).order = insertEntry (pinnedEntries s1 m) (s1.region m).order ⟨p.next, none⟩ ∧
        (1 < p.left →
          (t.region m).replay = some { p with next := p.next + 1, left := p.left - 1, prime := p.prime - 1 } ∧
          OnlyRegs [Reg.RP_STAT m] s1 t ∧ t = { s1 with regs := t.regs, regions := t.regions }) ∧
        (p.left ≤ 1 → (t.region m).replay = none ∧ t.fld (Reg.RP_STAT m) F.RP_STAT_DONE = 1 ∧
          t.fld (Reg.RP_STAT m) F.RP_STAT_BUSY = 0 ∧ Raised s1 t [(281 + 16 * m.val, 0)]) ∧
        t.fld (Reg.RP_STAT m) F.RP_STAT_MISSING = min (s1.fld (Reg.RP_STAT m) F.RP_STAT_MISSING + 1) 255) ∧
    (∀ k d : Fin 32, slotOfLine s1 p.src p.next = some k → s1.errs = [] → chooseSlot s1 m = some d → 1 < p.left →
      (crc32 (s1.readBytes (Win.slot p.src k) slotBytes)).toNat = s1.readLE (Win.slotDesc p.src k + 28) 4 →
      ∃ t, exec (.replayLineCopied m ups) s = .next t ∧
        t.fld (Reg.RP_STAT m) F.RP_STAT_COPIED = min (s1.fld (Reg.RP_STAT m) F.RP_STAT_COPIED + 1) 255 ∧
        OnlyRegs [Reg.RP_STAT m, Reg.LB_STAT m] s1 t ∧ t.raises = s1.raises ∧
        let e := if p.src = m then k else d
        t.readBytes (Win.slot m e) slotBytes = s1.readBytes (Win.slot p.src k) slotBytes ∧ slotState t m e = 2 ∧
          slotIndex t m e = slotIndex s1 p.src k ∧
          slotFlags t m e = slotFlags s1 p.src k % 2 + (if 0 < p.prime then 2 else 4))) ∧
  (∀ (m : Fin 17) (l : HistLine) (rest : List HistLine) (s : State),
    let a := ringBase s m + ringEntries s m * ringStride s m + 64 * (l.index.toNat % ringEntries s m)
    (s.region m).histDue = l :: rest → 2 ≤ rgState s m → rgState s m ≤ 4 → l.lost = false →
    (s.region m).hist.length < 4 → slotKept s m l = true → a % 64 = 0 → DdrReady s (a + 64) →
    ∃ t, exec (.historyLineWrite m) s = .next t ∧ (t.region m).histDue = rest ∧
      (t.region m).hist = (s.region m).hist ++ [l] ∧ t.readLE a 8 = l.index.toNat ∧ t.readLE (a + 8) 8 = l.coord.toNat ∧
      t.readLE (a + 16) 8 = l.time.toNat ∧
      (t.byte (a + 24)).toNat = l.damaged.toNat + 4 * (!l.stored).toNat + 8 ∧ OnlyBytes a (a + 64) s t ∧
      t = { s with mem := t.mem, regions := t.regions }) ∧
  ∀ (m : Fin 17) (l : HistLine) (k : Fin 32) (rest : List HistLine) (ups : List Upset) (s : State),
    let s1 := applyUpsets s ups
    let a := ringBase s1 m + ringEntries s1 m * ringStride s1 m + 64 * (l.index.toNat % ringEntries s1 m)
    let b := ringBase s1 m + l.index.toNat % ringEntries s1 m * ringStride s1 m
    let bs := ringPixels s1 m (s1.readBytes (Win.slot m k) slotBytes)
    (s1.region m).hist = l :: rest → 2 ≤ rgState s1 m → rgState s1 m ≤ 4 → l.slot = some k → slotKept s1 m l = true →
    DdrReady s1 (a + 64) →
    ∃ t, exec (.historyWriteDone m ups) s = .next t ∧ (t.region m).hist = rest ∧ t.readBytes b bs.length = bs ∧
      (t.byte (a + 24)).toNat = l.damaged.toNat + 2 * l.lost.toNat + 4 * (!l.stored).toNat ∧
      t.raises = s1.raises ∧ OnlyRegs [] s1 t ∧ t = { s1 with mem := t.mem, regions := t.regions }

/-- O22. For every extraction set with at most 4 class planes and 16 score planes and every truss, with the column's
class the sum of ci × 2^i over the class planes and its score the sum of si × 2^i over the score planes: the runs of
the truss lie within it in ascending order, every column of a run has m = 1 and the run's class, PEAK is the highest
score over the interval, no run can be extended to a neighbouring column of the truss, and a column lies in some run
exactly when its m is 1. (R203) -/
def Obligations.TrussRunsAreMaximal : Prop :=
  ∀ (e : ExtractSet) (t : Fin 16),
    let nc := e.fmt.toNat % 8
    let ns := (e.fmt.toNat >>> 4) % 32
    let bit (i c : Nat) : Nat := ((e.planes.getD i 0).getLsbD (1024 * t.val + c)).toNat
    let cls (c : Nat) : Nat := ((List.range nc).map (fun i => bit (1 + i) c * 2 ^ i)).sum
    let score (c : Nat) : Nat := ((List.range ns).map (fun i => bit (1 + nc + i) c * 2 ^ i)).sum
    let inside (r : Run) (c : Nat) : Prop := r.start ≤ c ∧ c ≤ r.stop
    let rs := trussRuns e t
    nc ≤ 4 → ns ≤ 16 →
    rs.Pairwise (fun a b => a.stop < b.start) ∧
    (∀ r ∈ rs, r.start ≤ r.stop ∧ r.stop < 1024 ∧
      (∀ c, inside r c → bit 0 c = 1 ∧ cls c = r.cls.toNat ∧ score c ≤ r.peak.toNat) ∧
      (∃ c, inside r c ∧ score c = r.peak.toNat) ∧
      (0 < r.start → ¬(bit 0 (r.start - 1) = 1 ∧ cls (r.start - 1) = r.cls.toNat)) ∧
      (r.stop < 1023 → ¬(bit 0 (r.stop + 1) = 1 ∧ cls (r.stop + 1) = r.cls.toNat))) ∧
    ∀ c, c < 1024 → (bit 0 c = 1 ↔ ∃ r ∈ rs, inside r c)

/-- O23. Extending a blob by a run adds the run's columns to AREA, their sum to the column sum and, for each, its
line's distance from FIRST_LINE to the line sum. When the line sums of two blobs are exact for weighted lines, the
line sum of their merge is exact for all of them from the lower FIRST_LINE, and MERGES is the sum of both counts
plus 1. (R213, R214, R225) -/
def Obligations.BlobFeaturesAreExact : Prop :=
  (∀ (m : BitVec 64) (r : LineRun) (b : Blob), r.run.start ≤ r.run.stop → b.first.toNat ≤ m.toNat →
    let cols := (List.range (r.run.stop - r.run.start + 1)).map (fun i => r.run.start + i)
    let y := extendBlob m r b
    y.area = b.area + cols.length ∧ y.sumCol = b.sumCol + cols.sum ∧
      y.sumLine = b.sumLine + (cols.map (fun _ => m.toNat - b.first.toNat)).sum ∧ y.runs = b.runs + 1 ∧ y.last = m ∧
      (0 < b.runs → y.minCol = min b.minCol r.run.start ∧ y.maxCol = max b.maxCol r.run.stop) ∧
      (b.runs = 0 → y.minCol = r.run.start ∧ y.maxCol = r.run.stop)) ∧
  ∀ (a b : Blob) (la lb : List (Nat × Nat)),
    let weight (l : List (Nat × Nat)) : Nat := (l.map Prod.fst).sum
    let moment (l : List (Nat × Nat)) (first : BitVec 64) : Nat := (l.map (fun q => q.1 * (q.2 - first.toNat))).sum
    (∀ q ∈ la, a.first.toNat ≤ q.2) → (∀ q ∈ lb, b.first.toNat ≤ q.2) →
    a.area = weight la → b.area = weight lb → a.sumLine = moment la a.first → b.sumLine = moment lb b.first →
    let y := mergeInto a b
    y.first.toNat = min a.first.toNat b.first.toNat ∧ y.area = weight (la ++ lb) ∧
      y.sumLine = moment (la ++ lb) y.first ∧ y.merges = a.merges + b.merges + 1

/-- O24. A scan of a closed set whose runs the truss queue has room for writes them all behind what the queue holds
and marks the truss scanned; the merger of an ONLINE span sends four words that it holds, or the mark of a set whose
trusses are all taken padded with fillers, in one class-1 packet to the tracker's role tag, each word of 64 bits,
while the tracker has credits, counts its run words, and otherwise holds and counts the cycle. (R10, R204, R206,
R207, R296) -/
def Obligations.RunExtractionCommandsComplete : Prop :=
  (∀ (m : Fin 17) (t : Fin 16) (e : ExtractSet) (s : State),
    let x := s.ext m
    x.sets.find? (fun e => e.closed && !e.scanned.getLsbD t.val) = some e → maskGet e.wrote t = 0 →
    s.fld (Reg.RM_STAT m) F.RM_STAT_BAND = 0 → (trussRuns e t).length + queuedRuns x.queues[t] ≤ 64 →
    ∃ u, exec (.extractorScan m t) s = .next u ∧
      (u.ext m).queues = x.queues.set t (x.queues[t] ++ (trussRuns e t).map some ++ [none]) ∧
      (∃ e' ∈ (u.ext m).sets, e'.scanned = e.scanned ||| (1#16 <<< t.val) ∧ e'.planes = e.planes ∧
        e'.runs = e.runs + (trussRuns e t).length) ∧
      u = { s with rx := u.rx } ∧ ∀ k, k ≠ m → u.ext k = s.ext k) ∧
  (∀ (m : Fin 17) (s : State),
    let x := s.ext m
    let n := creditWords (x.sent ++ wordsUnderWay s m)
    x.bandNext = none → x.truss = 16 → 4 ≤ x.out.length →
    (n ≤ 508 → epState s m = 0 →
      ∃ u q, exec (.mergerSend m) s = .next u ∧ u.ext m = { x with out := x.out.drop 4, hold := 0 } ∧
        u.cw.net = s.cw.net ++ [q] ∧ q.src.val = m.val ∧ q.dst = 34 ∧ q.dtag = 0x2000 ∧ q.cls = 1 ∧ q.kind = 5 ∧
        q.data = (x.out.take 4).flatMap (fun w => leBytes 8 w.bits.toNat) ∧
        OnlyRegs [Reg.RM_RUNS m] s u ∧ u.fld (Reg.RM_RUNS m) F.RM_RUNS_COUNT =
          min (s.fld (Reg.RM_RUNS m) F.RM_RUNS_COUNT + runWords (x.out.take 4)) (2 ^ 32 - 1) ∧
        u = { s with regs := u.regs, rx := u.rx, cw := u.cw }) ∧
    (512 ≤ n ∨ epState s m ≠ 0 →
      exec (.mergerSend m) s = .next ((s.setExt m { x with hold := x.hold + 1 }).bump (Reg.RM_HOLD m) F.RM_HOLD_COUNT))) ∧
  ∀ (m : Fin 17) (e : ExtractSet) (s : State),
    let x := s.ext m
    x.bandNext = none → x.truss = 16 → x.out = [] → x.joined = none → x.sets = [e] → e.closed = true →
    e.scanned = BitVec.allOnes 16 → e.ord = none → creditWords (x.sent ++ wordsUnderWay s m) < 512 → epState s m = 0 →
    ∃ u q, exec (.mergerSend m) s = .next u ∧ (u.ext m).sets = [] ∧ (u.ext m).truss = 0 ∧ (u.ext m).out = [] ∧
      u.cw.net = s.cw.net ++ [q] ∧ q.dst = 34 ∧
      q.data = [markOf e (s.flag (Reg.RM_STAT m) F.RM_STAT_BAND), .filler, .filler, .filler].flatMap
        (fun w => leBytes 8 w.bits.toNat) ∧
      OnlyRegs [Reg.RM_RUNS m] s u ∧ u = { s with regs := u.regs, rx := u.rx, cw := u.cw }

/-- O25. A run word joins the set that its span is delivering and counts; in FLOOD it is folded and takes no room of
the run store, and in an IDLE domain it is discarded and counted dropped; a mark above A ends the set, and one at or
below A discards it, its runs counting in TRK_DUP; the domain whose line's marks completed first has that line
processed and TRK_DOM_LINE raised to it; a merger that has held HOLD_MAX cycles puts its TRACKING domain into flood
with cause HOLD, its blobs closed, its staged runs out of the run store and its mergers in band mode; a line stamp
and a loss report are kept; a built record goes, its crop and marking steps done, to the ledger, and to the repeat
finder for a class with REPEAT_EN, with the same bytes to the crop engine, or holds while the ledger queue is full.
(R209, R210, R211, R217, R218, R219, R221, R222, R228) -/
def Obligations.TrackerCommandsComplete : Prop :=
  (∀ (m : Fin 17) (d : Fin 16) (p : Nat) (r : Run) (s : State), (s.ext m).sent = [.run r] →
    spanDomain s m = some (d, p) →
    (trkState s d = 0 → ∃ t, exec (.runIntake m) s = .next t ∧ (t.ext m).sent = [] ∧ t.trk = s.trk ∧
      OnlyRegs [Reg.TRK_RUNS_IN, Reg.TRK_RUNS_DROP] s t ∧
      t.fld Reg.TRK_RUNS_DROP F.TRK_RUNS_DROP_COUNT = min (s.fld Reg.TRK_RUNS_DROP F.TRK_RUNS_DROP_COUNT + 1) (2 ^ 32 - 1)) ∧
    (trkState s d = 2 → ∃ t st, exec (.runIntake m) s = .next t ∧ (t.ext m).sent = [] ∧ openSet t d p = some st ∧
      st.runs = ((openSet s d p).map (·.runs)).getD [] ∧
      st.fold.runs = ((openSet s d p).map (·.fold.runs)).getD 0 + 1 ∧ OnlyRegs [Reg.TRK_RUNS_IN] s t) ∧
    (trkState s d = 1 → storeFull s = false →
      (s.fld (Reg.TRK_DOM_FLOOD d) F.TRK_DOM_FLOOD_RUNS_MAX = 0 ∨
        lineRunsTaken (onOpenSet s d p (fun t => { t with runs := t.runs ++ [r] })) d p ≤
          s.fld (Reg.TRK_DOM_FLOOD d) F.TRK_DOM_FLOOD_RUNS_MAX) →
      ∃ t st, exec (.runIntake m) s = .next t ∧ (t.ext m).sent = [] ∧ openSet t d p = some st ∧
        st.runs = ((openSet s d p).map (·.runs)).getD [] ++ [r] ∧ (t.domain d).blobs = (s.domain d).blobs ∧
        OnlyRegs [Reg.TRK_RUNS_IN] s t ∧
        t.fld Reg.TRK_RUNS_IN F.TRK_RUNS_IN_COUNT = min (s.fld Reg.TRK_RUNS_IN F.TRK_RUNS_IN_COUNT + 1) (2 ^ 32 - 1))) ∧
  (∀ (m : Fin 17) (d : Fin 16) (p : Nat) (redo band extra : Bool) (runs : BitVec 16) (lag : BitVec 3) (line : BitVec 32)
      (st : SpanSet) (s : State), (s.ext m).sent = [.mark false redo band extra runs lag line] →
    spanDomain s m = some (d, p) → trkState s d = 1 → (s.domain d).resumeDue = false → openSet s d p = some st →
    let k := extendLine s d line
    ((s.domain d).applied = true → k.toNat ≤ (lastLine s d).toNat →
      ∃ t, exec (.runIntake m) s = .next t ∧ openSet t d p = none ∧ OnlyRegs [Reg.TRK_DUP] s t ∧
        t.fld Reg.TRK_DUP F.TRK_DUP_COUNT = min (s.fld Reg.TRK_DUP F.TRK_DUP_COUNT + setRuns st) (2 ^ 32 - 1)) ∧
    ((s.domain d).applied = false ∨ (lastLine s d).toNat < k.toNat →
      ∃ t, exec (.runIntake m) s = .next t ∧ openSet t d p = none ∧ OnlyRegs [] s t ∧
        ((t.domain d).staged.getD p []).getLast? = some { st with mark := some ⟨false, redo, band, runs.toNat, lag.toNat, k⟩ } ∧
        t.trk.ready = (if lineComplete t d k = true then s.trk.ready ++ [(d, k)] else s.trk.ready))) ∧
  (∀ (d : Fin 16) (ups : List TrackUpset) (fs : List (SpanSet × SetMark)) (f : SpanSet × SetMark) (s1 s : State),
    let s0 := showContexts (ups.foldl (trackUpset d) s)
    lineDue s0 = some d → alignFronts d (stagedSets s0 d + 1) s0 = (some (f :: fs), s1) →
    ∃ t, exec (.domainLine d ups) s = .next t ∧ lastLine t d = f.2.line ∧ (t.domain d).applied = true ∧
      (t.domain d).staged.map List.length = (s1.domain d).staged.map (fun q => q.length - 1)) ∧
  (∀ (m : Fin 17) (d : Fin 16) (p : Nat) (s : State), spanDomain s m = some (d, p) →
    let most := s.fld (Reg.TRK_DOM_FLOOD d) F.TRK_DOM_FLOOD_HOLD_MAX
    (trkState s d ≠ 1 ∨ (s.ext m).hold < most → exec (.floodHold m) s = .next s) ∧
    (trkState s d = 1 → most ≤ (s.ext m).hold → (s.ext m).hold ≠ 0 →
      ∃ t, exec (.floodHold m) s = .next t ∧ trkState t d = 2 ∧
        t.fld (Reg.TRK_DOM_STAT d) F.TRK_DOM_STAT_CAUSE = 2 ∧ (t.domain d).blobs = [] ∧
        (∀ q ∈ (t.domain d).staged, ∀ st ∈ q, st.runs = [] ∧ st.bands = []) ∧
        (∀ k ∈ domSpans s d, t.fld (Reg.RM_STAT k) F.RM_STAT_BAND = 1) ∧
        t.fld (Reg.TRK_DOM_FLOODS d) F.TRK_DOM_FLOODS_COUNT =
          min (s.fld (Reg.TRK_DOM_FLOODS d) F.TRK_DOM_FLOODS_COUNT + 1) (2 ^ 32 - 1) ∧
        ∃ l, Raised s t ((768, payCause 2 d.val) :: l))) ∧
  (∀ (k : GroupStamp) (rest : List GroupStamp) (s : State), s.tm.stamps = k :: rest →
    ∃ t, exec .stampReceive s = .next t ∧ t.tm.stamps = rest ∧ k ∈ t.trk.stamps ∧
      ((s.trk.stamps.filter (fun e => e.group == k.group)).length < 256 → t.trk.stamps = s.trk.stamps ++ [k]) ∧
      t = { s with tm := t.tm, trk := t.trk }) ∧
  (∀ (r : LossReport) (rest : List LossReport) (s : State), s.reports = r :: rest →
    ∃ t, exec .lineLossReport s = .next t ∧ t.reports = rest ∧ r ∈ t.trk.losses ∧
      (∀ e, e ∈ t.trk.losses ↔ (e = r ∨ e ∈ s.trk.losses) ∧ (e.head = r.head → r.line.toNat < e.line.toNat + 256)) ∧
      t = { s with reports := rest, trk := t.trk }) ∧
  ∀ (r : BuiltRecord) (rest : List BuiltRecord) (s : State), s.trk.built = r :: rest →
    (r.stepped = true ∨ classWants s r.classMask F.TRK_CLASS_MARK_EN = false ∧ (cropDue s r = true → cropCredit s = true)) →
    (s.lg.queue.length < 1024 → s.rf.queue.length < 256 →
      let rec1 : LedgerRec := ⟨s.trk.emitted, r.bytes, 0, 0, false⟩
      ∃ t, exec .recordEmit s = .next t ∧ t.trk.built = rest ∧ t.lg.queue = s.lg.queue ++ [rec1] ∧
        t.rf.queue = s.rf.queue ++ (if r.bytes.headD 0 = 1 ∧ r.area ≠ 0 ∧
          classWants s r.classMask F.TRK_CLASS_REPEAT_EN = true then [rec1] else []) ∧
        t.cr.queue = s.cr.queue ++ (if r.stepped = false ∧ cropDue s r = true then [cropRequest s r.domain r.bytes] else []) ∧
        t.fld Reg.TRK_RECORDS F.TRK_RECORDS_COUNT = min (s.fld Reg.TRK_RECORDS F.TRK_RECORDS_COUNT + 1) (2 ^ 32 - 1)) ∧
    (1024 ≤ s.lg.queue.length → r.stepped = true →
      ∃ t, exec .recordEmit s = .next t ∧ t.trk.built = s.trk.built ∧ t.lg = s.lg ∧ t.rf = s.rf ∧ t.trk.holding = true ∧
        t.fld Reg.TRK_LEDGER_HOLD F.TRK_LEDGER_HOLD_COUNT =
          min (s.fld Reg.TRK_LEDGER_HOLD F.TRK_LEDGER_HOLD_COUNT + 1) (2 ^ 32 - 1) ∧
        Raised s t (if s.trk.holding then [] else [(772, payCause 0 r.domain.val)]))

/-- O26. When a span of a domain stops with CAUSE WRITE the domain becomes IDLE with no blob open, and with any
other cause HELD with its blobs open; the oldest report of a completed takeover of a role of a domain marks its
blobs TAKEN_OVER, keeps the checkpoint age that placement reports, saturating at 255, and makes a HELD domain
TRACKING; a service stop makes the domain IDLE with a RESUMED record due; a head that leaves ACTIVE leaves no blob
open that meets its columns; once every span runs with EN = 1 an IDLE domain starts TRACKING at a line still to come
and a HELD one goes on. (R218, R219, R220) -/
def Obligations.TrackerNoticeCommandsComplete : Prop :=
  (∀ (m : Fin 17) (d : Fin 16) (p : Nat) (s : State), spanDomain s m = some (d, p) → spcState s m = 3 →
    (trkState s d ≠ 0 → s.fld (Reg.SPC_STAT m) F.SPC_STAT_CAUSE = 1 →
      ∃ t, exec (.spanStopNotice m) s = .next t ∧ trkState t d = 0 ∧ (t.domain d).blobs = []) ∧
    (trkState s d = 1 → s.fld (Reg.SPC_STAT m) F.SPC_STAT_CAUSE ≠ 1 →
      ∃ t, exec (.spanStopNotice m) s = .next t ∧ trkState t d = 3 ∧ (t.domain d).blobs = (s.domain d).blobs ∧
        (t.domain d).staged = (s.domain d).staged ∧ OnlyRegs [Reg.TRK_DOM_STAT d] s t ∧ t.raises = s.raises)) ∧
  (∀ (d : Fin 16) (age : BitVec 8) (r : Nat × Nat) (s : State),
    s.pl.reports.find? (fun r => roleDomain s r.1 == d.val && r.2 == age.toNat) = some r →
    ∃ t, exec (.takeoverNotice d age) s = .next t ∧ trkState t d = (if trkState s d = 3 then 1 else trkState s d) ∧
      (t.domain d).age = age ∧ t.pl.reports = s.pl.reports.erase r ∧
      (t.domain d).blobs = (s.domain d).blobs.map (fun b => { b with takenOver := true }) ∧
      (∀ q ∈ (t.domain d).staged, ∀ st ∈ q, ∀ k, st.mark = some k → k.aborted = false) ∧
      OnlyRegs [Reg.TRK_DOM_STAT d] s t) ∧
  (∀ (d : Fin 16) (s : State),
    ∃ t, exec (.serviceStopNotice d) s = .next t ∧ trkState t d = 0 ∧ (t.domain d).blobs = [] ∧
      (t.domain d).resumeDue = true ∧
      (t.trk.built.map (fun r => r.bytes.headD 0)).drop (t.trk.built.length - (domHeads s d).length) =
        (domHeads s d).map (fun _ => 3)) ∧
  (∀ (h : Fin 16) (s : State),
    ∃ t, exec (.headGoneNotice h) s = .next t ∧ t.mem = s.mem ∧
      ∀ (d : Fin 16), ((s.domain d).blobs.map (·.seq)).Nodup →
        (t.domain d).blobs = (s.domain d).blobs.filter (fun b =>
          (domHeads s d).all (fun q => q.2 != h || !meetsHead q.1 b))) ∧
  ∀ (d : Fin 16) (s : State), s.fld (Reg.TRK_DOM_CTL d) F.TRK_DOM_CTL_EN = 1 → domSpans s d ≠ [] →
    (∀ m ∈ domSpans s d, spcState s m = 0) →
    ((trkState s d = 1 ∨ trkState s d = 2) → exec (.spanRunningNotice d) s = .next s) ∧
    (trkState s d = 0 → ∃ t, exec (.spanRunningNotice d) s = .next t ∧ trkState t d = 1 ∧
      (t.domain d).applied = false ∧ (t.domain d).joining = true ∧ (t.domain d).staged = [] ∧
      OnlyRegs [Reg.TRK_DOM_STAT d] s t) ∧
    (trkState s d = 3 → ∃ t, exec (.spanRunningNotice d) s = .next t ∧ trkState t d = 1 ∧
      (t.domain d).blobs = (s.domain d).blobs ∧ lastLine t d = lastLine s d ∧ OnlyRegs [Reg.TRK_DOM_STAT d] s t)

/-- O27. An enabled and ready writer with room in flight takes a record, in turn where both queues hold one, gives
it LG_NEXT and writes LSEQ 0 in its slot's side entry, and LG_OLDEST moves on when the slot was the oldest's; the
oldest record in flight then stands in its slot, with its side entry, its PREV the bucket's old head, and its LSEQ
the bucket's head; EN going to 1 restarts LSEQ at 1 with READY at 0; the index clear leaves the index at 0 and READY
at 1; a segment boundary increments LG_SEG, takes LG_NEXT into LG_SEG_FIRST and, with CLEAR, into LG_OLDEST. (R233,
R234, R235, R236, R238, R239, R250) -/
def Obligations.LedgerCommandsComplete : Prop :=
  (∀ (r : LedgerRec) (rest : List LedgerRec) (s : State),
    let g := s.lg
    let fromChains := g.queue.isEmpty || (!g.chains.isEmpty && g.tookTracker)
    let l := lgNext s
    s.fld Reg.LG_CTL F.LG_CTL_EN = 1 → s.fld Reg.LG_STAT F.LG_STAT_READY = 1 → g.flight.length < 16 →
    (if fromChains then g.chains else g.queue) = r :: rest → DdrReady s (ledgerBase s + 0x80000000) →
    ∃ t, exec .ledgerTake s = .next t ∧ lgNext t = l + 1 ∧ t.readLE (sideAddr s l) 8 = 0 ∧
      t.lg.flight = g.flight ++ [{ r with lseq := l, segFirst := lgSegFirst s, straddle := straddles s r.bytes }] ∧
      t.lg.queue = (if fromChains then g.queue else rest) ∧ t.lg.chains = (if fromChains then rest else g.chains) ∧
      lgOldest t = (if l = lgOldest s + BitVec.ofNat 64 (2 ^ 24) then lgOldest s + 1 else lgOldest s) ∧
      OnlyBytes (sideAddr s l) (sideAddr s l + 8) s t) ∧
  (∀ (r : LedgerRec) (rest : List LedgerRec) (s : State),
    let b := bucketAddr s (bucketOf s (recWord r.bytes 16).toInt)
    s.lg.flight = r :: rest → r.bytes.length = 64 → DdrReady s (ledgerBase s + 0x80800000) →
    ∃ t, exec .ledgerWriteDone s = .next t ∧ t.lg.flight = rest ∧ t.readBytes (recordAddr s r.lseq) 64 = r.bytes ∧
      t.readLE (sideAddr s r.lseq) 8 = r.lseq.toNat ∧
      t.fld Reg.LG_WRITES F.LG_WRITES_COUNT = min (s.fld Reg.LG_WRITES F.LG_WRITES_COUNT + 1) (2 ^ 32 - 1) ∧
      (t.byte (sideAddr s r.lseq + 35)).toNat % 2 = r.straddle.toNat ∧
      (recIndexed r.bytes = true →
        t.readLE (sideAddr s r.lseq + 8) 8 = s.readLE b 8 ∧ t.readLE b 8 = r.lseq.toNat) ∧
      (recIndexed r.bytes = false → t.readLE (sideAddr s r.lseq + 8) 8 = 0 ∧ t.readLE b 8 = s.readLE b 8 ∧
        (t.byte (sideAddr s r.lseq + 35)).toNat / 2 % 2 = 1)) ∧
  (∀ s : State,
    (s.fld Reg.LG_CTL F.LG_CTL_EN = 1 → exec .ledgerEnable s = .next s) ∧
    (s.fld Reg.LG_CTL F.LG_CTL_EN = 0 → ∃ t, exec .ledgerEnable s = .next t ∧ t.fld Reg.LG_CTL F.LG_CTL_EN = 1 ∧
      t.fld Reg.LG_STAT F.LG_STAT_READY = 0 ∧ lgNext t = 1 ∧ lgOldest t = 1 ∧ lgSegFirst t = 1 ∧ t.mem = s.mem)) ∧
  (∀ s : State,
    let a := ledgerBase s + 0x80000000
    s.fld Reg.LG_CTL F.LG_CTL_EN = 1 → s.fld Reg.LG_STAT F.LG_STAT_READY = 0 → a + 0x800000 ≤ ddrCapacity s →
    ∃ t, exec .indexClearDone s = .next t ∧ t.fld Reg.LG_STAT F.LG_STAT_READY = 1 ∧ Raised s t [(786, 0)] ∧
      (∀ i, a ≤ i → i < a + 0x800000 → t.byte i = 0) ∧ OnlyBytes a (a + 0x800000) s t ∧ OnlyRegs [Reg.LG_STAT] s t) ∧
  ∀ (val : BitVec 32) (s : State), F.LG_SEG_CTL_GO.get val = 1 → s.fld Reg.LG_CTL F.LG_CTL_EN = 1 →
    ∃ t, exec (.segmentGo val) s = .next t ∧ t.reg Reg.LG_SEG = s.reg Reg.LG_SEG + 1 ∧ lgSegFirst t = lgNext s ∧
      lgNext t = lgNext s ∧ t.lg.cut = true ∧ lgOldest t = (if F.LG_SEG_CTL_MODE.get val = 1 then lgNext s else lgOldest s) ∧
      Raised s t [(784, s.reg Reg.LG_SEG + 1)] ∧ t.mem = s.mem

/-- O28. The oldest record that the ledger has written begins with the lowest slot that serves it, at period 1 and
the head of the bucket of its target less TOL_ALONG; a record that no slot serves, or that comes while the finder is
disabled, leaves the queue; a side entry that still holds its LSEQ is weighed and the walk goes on at its PREV, and
the best entry is one that fits the window, is lower in LSEQ than the record and of no greater error than the best
before it; a walk that meets a reused slot in the last bucket of the last period with too few hits and no later slot
ends the search without a record; a CHAIN write is made exactly where the slot still holds the named LSEQ. (R240,
R241, R243) -/
def Obligations.RepeatFinderCommandsComplete : Prop :=
  (∀ (r : LedgerRec) (rest : List LedgerRec) (s : State), s.rf.search = none → s.rf.queue = r :: rest →
    (r.lseq = 0 → exec .repeatSearch s = .next s) ∧
    (r.lseq ≠ 0 → (s.fld Reg.RF_CTL F.RF_CTL_EN = 0 ∨ ∀ j, j < 64 → slotServes s j r.bytes = false) →
      exec .repeatSearch s = .next { s with rf := { s.rf with queue := rest } }) ∧
    (∀ j, r.lseq ≠ 0 → s.fld Reg.RF_CTL F.RF_CTL_EN = 1 → j < 64 → slotServes s j r.bytes = true →
      (∀ i, i < j → slotServes s i r.bytes = false) → DdrReady s (ledgerBase s + 0x80800000) →
      let target := (recWord r.bytes 16).toInt - rfPitch s j
      let b := bucketOf s (target - rfAlong s j)
      let e := BitVec.ofNat 64 (s.readLE (bucketAddr s b) 8)
      e ≠ 0 → r.segFirst.toNat ≤ e.toNat → (lgOldest s).toNat ≤ e.toNat → s.fld Reg.RF_CTL F.RF_CTL_VISIT_MAX ≠ 0 →
      ∃ t q, exec .repeatSearch s = .next t ∧ t.rf.queue = rest ∧ t.rf.search = some q ∧ q.record = r ∧ q.slot = j ∧
        q.k = 1 ∧ q.b = b ∧ q.bLast = bucketOf s (target + rfAlong s j) ∧ q.e = e ∧ q.visits = 0 ∧ q.hits = 0 ∧
        q.best = none ∧ t = { s with rf := t.rf })) ∧
  (∀ (ups : List Upset) (q : Search) (s0 : State), let s := applyUpsets s0 ups
    s.rf.search = some q → q.emitting = false → q.e ≠ 0 → DdrReady s (ledgerBase s + 0x80800000) →
    let c := s.readBytes (sideAddr s q.e) 64
    let prev := recWord c 8
    (recWord c 0 = q.e → prev ≠ 0 → q.record.segFirst.toNat ≤ prev.toNat → (lgOldest s).toNat ≤ prev.toNat →
      q.visits + 1 ≠ s.fld Reg.RF_CTL F.RF_CTL_VISIT_MAX →
      ∃ t q', exec (.sideEntryRead ups) s0 = .next t ∧ t.rf.search = some q' ∧ q'.e = prev ∧ q'.visits = q.visits + 1 ∧
        q'.k = q.k ∧ q'.slot = q.slot ∧ q'.hits = q.hits ∧ t = { s with rf := t.rf } ∧
        (q'.best = q.best ∨ ∃ h, q'.best = some h ∧ h.lseq = q.e ∧ h.coord = recWord c 16 ∧
          q.e.toNat < q.record.lseq.toNat ∧ (h.err : Int) ≤ rfAlong s q.slot ∧
          (recNat c 32 2 &&& s.fld (Reg.RF_SLOT q.slot) F.RF_SLOT_CLASSES) ≠ 0 ∧
          ∀ o, q.best = some o → h.err ≤ o.err)) ∧
    (recWord c 0 ≠ q.e → q.b = q.bLast → q.best = none → s.fld (Reg.RF_SLOT q.slot) F.RF_SLOT_DEPTH ≤ q.k →
      q.hits < s.fld Reg.RF_CTL F.RF_CTL_MIN_HITS → q.trunc = false → q.part = false →
      (∀ j, q.slot < j → j < 64 → slotServes s j q.record.bytes = false) →
      exec (.sideEntryRead ups) s0 = .next { s with rf := { s.rf with search := none } })) ∧
  ∀ (l : BitVec 64) (id : BitVec 32) (rest : List (BitVec 64 × BitVec 32)) (s : State), s.rf.writes = (l, id) :: rest →
    DdrReady s (ledgerBase s + 0x80000000) →
    let holds := s.readLE (sideAddr s l) 8 = l.toNat
    ∃ t, exec .chainWrite s = .next t ∧ t.rf.writes = rest ∧ t = { s with mem := t.mem, rf := t.rf } ∧
      (holds → t.readLE (sideAddr s l + 28) 4 = id.toNat ∧ OnlyBytes (sideAddr s l + 28) (sideAddr s l + 32) s t) ∧
      (¬holds → t.mem = s.mem)

/-- O29. For every request: the factor is the smallest of 1, 2, 4 and 8 that brings both dimensions to at most
1,024, the cut of a dimension above 8,192 to 8,192 sets CLIPPED and keeps the interval within the window and about
the centroid, and no line or column outside the record's extent with its margin and the head's pixels is taken.
(R245, R246) -/
def Obligations.CropWindowAndFactor : Prop :=
  ∀ (s : State) (r : CropReq),
    let m := s.fld Reg.CR_CTL F.CR_CTL_MARGIN
    let first := recNat r.bytes 8 8
    let w := cropWindow s r
    let out (n f : Nat) : Nat := (n + f - 1) / f
    (w.factor = 1 ∨ w.factor = 2 ∨ w.factor = 4 ∨ w.factor = 8) ∧ out w.srcH w.factor ≤ 1024 ∧
      out w.srcW w.factor ≤ 1024 ∧
    (∀ f, f = 1 ∨ f = 2 ∨ f = 4 → f < w.factor → 1024 < out w.srcH f ∨ 1024 < out w.srcW f) ∧
    first - m ≤ w.firstLine ∧ w.firstLine + w.srcH ≤ max (first - m) (first + recNat r.bytes 40 2 + m) ∧
    (0 < w.srcW → w.firstCol + w.srcW ≤ r.pixels) ∧
    (w.clipped = false → w.firstLine = first - m ∧ w.srcH = first + recNat r.bytes 40 2 + m - (first - m)) ∧
    (w.clipped = true → w.srcH = 8192 ∨ w.srcW = 8192)

/-- O30. The engine takes the oldest request while it works on fewer than two, and drops and counts it when
disabled; a row of the ring whose metadata name the line and none of writing, lost and not stored is read pixel by
pixel, one that another line has overwritten is missing, and one that is being written is waited for; CR_TMO after
its start a crop that waits for a line has every remaining line read or missing and sets TIMEOUT; a finished crop is
written into the store at its pointer and handed on, or waits where there is too little free space and counts.
(R245, R247, R248, R249, R250) -/
def Obligations.CropEngineCommandsComplete : Prop :=
  (∀ (r : CropReq) (rest : List CropReq) (s : State), s.cr.queue = r :: rest →
    (s.fld Reg.CR_CTL F.CR_CTL_EN = 0 → exec .cropRequest s = .next { s with cr := { s.cr with queue := rest, skipped := s.cr.skipped + 1 } }) ∧
    (s.fld Reg.CR_CTL F.CR_CTL_EN = 1 → 2 ≤ s.cr.work.length → exec .cropRequest s = .next s) ∧
    (s.fld Reg.CR_CTL F.CR_CTL_EN = 1 → s.cr.work.length < 2 → exec .cropRequest s =
      .next { s with cr := { s.cr with queue := rest, work := s.cr.work ++ [cropWindow s r] } })) ∧
  (∀ (k : Fin 2) (ups : List Upset) (w : CropWork) (s0 : State),
    let s := applyUpsets s0 ups
    let i := w.firstLine + w.rows.length
    let entries := 2 ^ w.req.depth
    let meta' := w.req.base + entries * 16384 + 64 * (i % entries)
    let a := w.req.base + i % entries * 16384 + w.firstCol
    let idx := s.readLE meta' 8
    let fl := (s.byte (meta' + 24)).toNat
    s.cr.work[k.val]? = some w → w.rows.length < w.srcH → w.req.wide = false → w.firstCol + w.srcW ≤ 16384 →
    meta' % 64 = 0 → DdrReady s (meta' + 64) →
    (idx < i ∨ idx = i ∧ fl.testBit 3 = true → exec (.cropRowRead k ups) s0 = .next s) ∧
    (i < idx ∨ idx = i ∧ fl.testBit 3 = false ∧ (fl.testBit 1 = true ∨ fl.testBit 2 = true) →
      exec (.cropRowRead k ups) s0 = .next (setWork s k { w with rows := w.rows ++ [⟨none, false⟩] })) ∧
    (idx = i → fl.testBit 3 = false → fl.testBit 1 = false → fl.testBit 2 = false →
      exec (.cropRowRead k ups) s0 = .next (setWork s k { w with
        rows := w.rows ++ [⟨some ((s.readBytes a w.srcW).map (·.toNat)), fl.testBit 0⟩] }))) ∧
  (∀ (k : Fin 2) (w : CropWork) (s : State), s.cr.work[k.val]? = some w → w.rows.length < w.srcH →
    s.fld Reg.CR_TMO F.CR_TMO_US ≠ 0 → s.errs = [] →
    w.start.toNat + 1000 * s.fld Reg.CR_TMO F.CR_TMO_US ≤ s.now.toNat →
    (ringRow s w (w.firstLine + w.rows.length)).1 = none →
    ∃ t w', exec (.cropTimeout k) s = .next t ∧ t.cr.work[k.val]? = some w' ∧ w'.timeout = true ∧
      w'.rows.length = w.srcH ∧ w'.rows.take w.rows.length = w.rows ∧ t.mem = s.mem ∧
      Raised s t [(800, payCause 0 (recNat w.req.bytes 32 4 / 2 ^ 19 % 16))]) ∧
  ∀ (w : CropWork) (rest : List CropWork) (l : BitVec 64) (s : State), s.cr.work = w :: rest → w.req.lseq = some l →
    w.srcH ≤ w.rows.length →
    let bs := cropBytes s w l
    let a := storeBase s + s.cr.ptr
    (storeRoom s bs.length = false →
      exec .cropStoreWrite s = .next (s.bump Reg.CR_STORE_WAIT F.CR_STORE_WAIT_COUNT)) ∧
    (storeRoom s bs.length = true → s.cr.ptr + bs.length ≤ storeSize s → bs.length ≤ 2 ^ 24 → a % 4 = 0 →
      DdrReady s (storeBase s + storeSize s) →
      ∃ t, exec .cropStoreWrite s = .next t ∧ t.cr.work = rest ∧ t.readBytes a bs.length = bs ∧
        OnlyBytes a (a + bs.length) s t ∧ t.cr.ptr = (s.cr.ptr + bs.length) % storeSize s ∧ t.cr.next = s.cr.next + 1 ∧
        t.fld Reg.CR_CROPS F.CR_CROPS_COUNT = min (s.fld Reg.CR_CROPS F.CR_CROPS_COUNT + 1) (2 ^ 32 - 1) ∧
        OnlyRegs [Reg.CR_CROPS] s t)

/-- O31. With EN = 1 each accepted change of A and B along 00, 10, 11, 01 counts the coordinate forward by one with
INV = 0 and backward with INV = 1, and each change the other way the opposite, MOVING reading 1; a change of both
counts in SC_ERR.ILLEGAL and raises SC_ENC without a count, and with EN = 0 nothing counts; a stall clears MOVING
and raises SC_MOTION once SC_STALL.MS have passed; a rising edge of Z with Z_EN copies the coordinate into SC_ZCAP
and, when the difference to the capture before it lies more than ZTOL from ZPER, counts and raises SC_ENC; a level
is accepted after FILT + 1 samples that agree; the internal source makes a forward count of its group alone,
TG_INTRATE of them in a second. (R252, R253, R254, R255, R256, R283) -/
def Obligations.EncoderCommandsComplete : Prop :=
  (∀ (c : Fin 16) (x y : List Bool) (s : State),
    let a := levelA s c
    let b := levelB s c
    let lies (t : State) := OnlyRegs [Reg.SC_POS_LO c, Reg.SC_POS_HI c, Reg.SC_RATE c, Reg.SC_STAT c] s t ∧
      t.fld (Reg.SC_STAT c) F.SC_STAT_MOVING = 1 ∧ t = { s with regs := t.regs, tm := t.tm, raises := t.raises }
    let back := s.fld (Reg.SC_CTL c) F.SC_CTL_INV = 1
    let on := s.fld (Reg.SC_CTL c) F.SC_CTL_EN = 1
    (on → acceptAB s c x y = (!b, a) → ∃ t, exec (.encoderCount c x y) s = .next t ∧ levelA t c = !b ∧ levelB t c = a ∧
      lies t ∧ (back → chanPos t c = chanPos s c - 1) ∧ (¬back → chanPos t c = chanPos s c + 1)) ∧
    (on → acceptAB s c x y = (b, !a) → ∃ t, exec (.encoderCount c x y) s = .next t ∧ levelA t c = b ∧ levelB t c = !a ∧
      lies t ∧ (back → chanPos t c = chanPos s c + 1) ∧ (¬back → chanPos t c = chanPos s c - 1)) ∧
    (on → acceptAB s c x y = (!a, !b) → ∃ t, exec (.illegal ⟨c, x, y⟩) s = .next t ∧ levelA t c = !a ∧ levelB t c = !b ∧
      Raised s t [(608 + 4 * c.val, payCause 1)] ∧
      t.fld (Reg.SC_ERR c) F.SC_ERR_ILLEGAL = min (s.fld (Reg.SC_ERR c) F.SC_ERR_ILLEGAL + 1) 65535 ∧
      OnlyRegs [Reg.SC_ERR c, Reg.SC_STAT c] s t ∧ t = { s with regs := t.regs, raises := t.raises }) ∧
    (¬on → ∃ t, exec (.encoderCount c x y) s = .next t ∧ (levelA t c, levelB t c) = acceptAB s c x y ∧
      levelZ t c = levelZ s c ∧ OnlyRegs [Reg.SC_STAT c] s t ∧ t = { s with regs := t.regs })) ∧
  (∀ (c : Fin 16) (s : State), s.fld (Reg.SC_STALL c) F.SC_STALL_MS ≠ 0 → s.fld (Reg.SC_STAT c) F.SC_STAT_MOVING = 1 →
    (∀ e, (chan s c).edge = some e → e.1.toNat + 1000000 * s.fld (Reg.SC_STALL c) F.SC_STALL_MS ≤ s.now.toNat) →
    ∃ t, exec (.encoderStall c) s = .next t ∧ t.fld (Reg.SC_STAT c) F.SC_STAT_MOVING = 0 ∧ (chan t c).stalled = true ∧
      Raised s t [(609 + 4 * c.val, payCause 3)] ∧ OnlyRegs [Reg.SC_STAT c] s t) ∧
  (∀ (c : Fin 16) (z : List Bool) (s : State), s.fld (Reg.SC_CTL c) F.SC_CTL_EN = 1 →
    s.fld (Reg.SC_CTL c) F.SC_CTL_Z_EN = 1 → levelZ s c = false →
    s.fld (Reg.SC_CTL c) F.SC_CTL_FILT < z.length → (z.take (s.fld (Reg.SC_CTL c) F.SC_CTL_FILT + 1)).all id = true →
    let old : BitVec 48 := (s.reg (Reg.SC_ZCAP_HI c)).setWidth 16 ++ s.reg (Reg.SC_ZCAP_LO c)
    let per : Int := s.fld (Reg.SC_ZCHK c) F.SC_ZCHK_ZPER
    let off := ((((chanPos s c).toInt - old.toInt).natAbs : Int) - per).natAbs
    let bad := s.fld (Reg.SC_STAT c) F.SC_STAT_Z_VALID = 1 ∧ per ≠ 0 ∧ s.fld (Reg.SC_ZCHK c) F.SC_ZCHK_ZTOL < off
    ∃ t, exec (.zEdge c z) s = .next t ∧ t.reg (Reg.SC_ZCAP_LO c) = s.reg (Reg.SC_POS_LO c) ∧
      t.reg (Reg.SC_ZCAP_HI c) = s.reg (Reg.SC_POS_HI c) ∧ t.fld (Reg.SC_STAT c) F.SC_STAT_Z_VALID = 1 ∧
      levelZ t c = true ∧ chanPos t c = chanPos s c ∧
      OnlyRegs [Reg.SC_ZCAP_LO c, Reg.SC_ZCAP_HI c, Reg.SC_STAT c, Reg.SC_ERR c] s t ∧
      (bad → Raised s t [(608 + 4 * c.val, payCause 2)] ∧
        t.fld (Reg.SC_ERR c) F.SC_ERR_ZCOUNT = min (s.fld (Reg.SC_ERR c) F.SC_ERR_ZCOUNT + 1) 255) ∧
      (¬bad → t.raises = s.raises ∧ t.reg (Reg.SC_ERR c) = s.reg (Reg.SC_ERR c))) ∧
  ∀ (g : Fin 8) (at' : Nat) (s : State), s.fld (Reg.TG_CTL g) F.TG_CTL_SRC = 16 → s.reg (Reg.TG_INTRATE g) ≠ 0 →
    let rate := (s.reg (Reg.TG_INTRATE g)).toNat
    let n := 6400000000 + (grp s g).rem
    at' = ((grp s g).edge.map (· + n / rate)).getD (toSteps s.now) → at' ≤ toSteps s.now →
    ∃ t, exec (.internalCount g) s = .next t ∧ (grp t g).pos = (grp s g).pos + 65536 ∧ (grp t g).edge = some at' ∧
      (grp t g).rem = n % rate ∧ (grp t g).next = (grp s g).next ∧ t = { s with tm := t.tm } ∧
      ∀ k, k ≠ g → grp t k = grp s k

/-- O32. START of an IDLE group arms it at the smallest point of ORIGIN + j × PITCH, j ≥ 0, above the current
coordinate, and has no effect otherwise; STOP of a group that is not IDLE discards what waits without consuming an
index; a line point that comes as late as the floor allows is stamped with the next index and its coordinate and the
group is RUNNING; one that comes sooner is delayed, its index not yet consumed; one that comes while a trigger is
delayed consumes its index and counts in TG_SKIP with OVERSPEED; the delayed trigger fires the floor after the last
one, with its own point; the next point stands PITCH beyond each. (R256, R257, R258, R259, R260, R283) -/
def Obligations.LockstepGroupCommandsComplete : Prop :=
  (∀ (g : Fin 8) (s : State),
    let o := (s.reg64 (Reg.TG_ORIGIN_LO g) (Reg.TG_ORIGIN_HI g)).toInt
    let c := sourceCoord s g
    let pitch : Int := (tgPitch s g).toNat
    (tgState s g ≠ 0 → exec (.tgStart g) s = .next s) ∧
    (tgState s g = 0 → c + pitch < 2 ^ 63 → ∃ (t : State) (j : Nat), exec (.tgStart g) s = .next t ∧ tgState t g = 1 ∧
      (grp t g).next.toInt = o + j * pitch ∧ c < o + j * pitch ∧ (∀ i : Nat, i < j → o + i * pitch ≤ c) ∧
      (grp t g).edges = (lastEdge s g).toList ∧ (grp t g).since = toSteps s.now ∧ (grp t g).delayed = none ∧
      tgIndex t g = tgIndex s g ∧ Raised s t [(610 + 4 * g.val, payCause 1)] ∧ OnlyRegs [Reg.TG_STAT g] s t) ∧
    (tgState s g = 0 → exec (.tgStop g) s = .next s) ∧
    (tgState s g ≠ 0 → ∃ t, exec (.tgStop g) s = .next t ∧ tgState t g = 0 ∧ (grp t g).edges = [] ∧
      (grp t g).delayed = none ∧ t.fld (Reg.TG_STAT g) F.TG_STAT_DELAYED = 0 ∧
      Raised s t [(610 + 4 * g.val, payCause 2)] ∧ OnlyRegs [Reg.TG_STAT g] s t ∧ t.heads = s.heads)) ∧
  (∀ (g : Fin 8) (d : Nat) (s : State),
    let x := grp s g
    let floor := s.fld (Reg.TG_MINPER g) F.TG_MINPER_MINPER * 32
    let soon := floor ≠ 0 ∧ ∃ l, x.last = some l ∧ d < l + floor
    let p' := x.next + tgPitch s g
    nextInstant s g = some d → d ≤ toSteps s.now → tgState s g ≠ 0 → tmRole s = 0 →
    (x.delayed = none → ¬soon → ∃ t, exec (.lineTrigger g) s = .next t ∧ tgState t g = 2 ∧
      tgIndex t g = tgIndex s g + 1 ∧ (grp t g).next = p' ∧ (grp t g).last = some d ∧
      t.tm.stamps = s.tm.stamps ++ [⟨g, tgIndex s g, x.next, ofSteps d⟩]) ∧
    (x.delayed = none → soon → ∃ t, exec (.lineTrigger g) s = .next t ∧ (grp t g).delayed = some x.next ∧
      t.fld (Reg.TG_STAT g) F.TG_STAT_DELAYED = 1 ∧ tgIndex t g = tgIndex s g ∧ (grp t g).next = p' ∧
      t = { s with regs := t.regs, tm := t.tm } ∧ OnlyRegs [Reg.TG_STAT g] s t) ∧
    (x.delayed ≠ none → ∃ t, exec (.lineTrigger g) s = .next t ∧ tgIndex t g = tgIndex s g + 1 ∧
      (grp t g).delayed = x.delayed ∧ (grp t g).next = p' ∧
      t.tm.stamps = s.tm.stamps ++ [⟨g, tgIndex s g, x.next, ofSteps d⟩] ∧
      t.fld (Reg.TG_SKIP g) F.TG_SKIP_COUNT = min (s.fld (Reg.TG_SKIP g) F.TG_SKIP_COUNT + 1) (2 ^ 32 - 1) ∧
      ∃ l, Raised s t (l ++ [(610 + 4 * g.val, payCause 3)]))) ∧
  (∀ (g : Fin 8) (d : Nat) (s : State), nextInstant s g = some d → toSteps s.now < d → exec (.lineTrigger g) s = .next s) ∧
  ∀ (g : Fin 8) (p : BitVec 64) (l : Nat) (s : State), (grp s g).delayed = some p → (grp s g).last = some l →
    tmRole s = 0 →
    let at' := l + s.fld (Reg.TG_MINPER g) F.TG_MINPER_MINPER * 32
    (toSteps s.now < at' → exec (.delayedTrigger g) s = .next s) ∧
    (at' ≤ toSteps s.now → ∃ t, exec (.delayedTrigger g) s = .next t ∧ (grp t g).delayed = none ∧
      (grp t g).last = some at' ∧ t.fld (Reg.TG_STAT g) F.TG_STAT_DELAYED = 0 ∧ tgIndex t g = tgIndex s g + 1 ∧
      t.tm.stamps = s.tm.stamps ++ [⟨g, tgIndex s g, p, ofSteps at'⟩])

/-- O33. A marking message is handled by the output's mode and by where the coordinate stands between T_on and
T_off: it becomes pending, fires at once and counts late, or is dropped with NOT_ACTUATOR or DROPPED; a pending
action whose fire instant has come becomes active and counts fired; a gate whose T_off is reached and a pulse that
has lasted SO_WIDTH end and free their entry; FLUSH empties the scheduler and counts every pending action dropped; a
software post takes an entry with its coordinate as both ends and BLOB_ID all ones, or reads FULL. (R265, R266,
R267, R268, R270, R283) -/
def Obligations.ActuationCommandsComplete : Prop :=
  (∀ (m : MarkMsg) (rest : List MarkMsg) (s : State), s.tm.marks = m :: rest →
    let ch := m.out.val / 2
    let k := m.out.val % 2
    let mode := soMode s m.out
    let dist := (s.reg64 (Reg.ACT_DIST_LO ch k) (Reg.ACT_DIST_HI ch k)).toInt
    let pre : Int := if mode = 5 then s.fld (Reg.ACT_PREPOST ch k) F.ACT_PREPOST_PRE * 65536 else 0
    let post : Int := if mode = 5 then s.fld (Reg.ACT_PREPOST ch k) F.ACT_PREPOST_POST * 65536 else 0
    let tOn := m.start.toInt + dist - pre
    let tOff := m.stop.toInt + dist + post
    let c := sourceCoord s (soGroup s m.out)
    let late : Int := s.fld (Reg.ACT_LATE ch k) F.ACT_LATE_LATE * 65536
    let lead := s.fld (Reg.ACT_LEAD ch k) F.ACT_LEAD_LEAD
    let due := if lead = 0 then (lastEdge s (soGroup s m.out)).bind (edgeInstant true tOn) else none
    let now := toSteps s.now
    let pulse := now + s.fld (Reg.SO_WIDTH ch k) F.SO_WIDTH_WIDTH * 32
    let waits : Action := ⟨m.out, decide (mode = 5), tOn, tOff, lead, false, due, m.blob, none⟩
    let fires : Action := ⟨m.out, decide (mode = 5), tOn, tOff, lead, true, some now, m.blob,
      if mode = 5 then none else some pulse⟩
    let src := 611 + 4 * (m.out.val / 2)
    ∃ t, exec .markingMessage s = .next t ∧ t.tm.marks = rest ∧
      (mode ≠ 4 ∧ mode ≠ 5 → t.tm.actions = s.tm.actions ∧ Raised s t [(src, payCause 4 m.out.val)] ∧
        t.fld Reg.AS_DROP F.AS_DROP_COUNT = min (s.fld Reg.AS_DROP F.AS_DROP_COUNT + 1) (2 ^ 32 - 1)) ∧
      (mode = 4 ∨ mode = 5 → c < tOn → t.tm.actions = s.tm.actions ++ [waits] ∧ Raised s t [] ∧
        OnlyRegs [Reg.AS_STAT] s t) ∧
      (mode = 4 ∧ tOn ≤ c ∧ c - tOn ≤ late ∨ mode = 5 ∧ tOn ≤ c ∧ c < tOff →
        t.tm.actions = s.tm.actions ++ [fires] ∧ Raised s t [(src, payCause 2 m.out.val)] ∧
        t.fld Reg.AS_LATE F.AS_LATE_COUNT = min (s.fld Reg.AS_LATE F.AS_LATE_COUNT + 1) (2 ^ 32 - 1) ∧
        t.fld Reg.AS_FIRED F.AS_FIRED_COUNT = min (s.fld Reg.AS_FIRED F.AS_FIRED_COUNT + 1) (2 ^ 32 - 1)) ∧
      (mode = 4 ∧ tOn ≤ c ∧ late < c - tOn ∨ mode = 5 ∧ tOn ≤ c ∧ tOff ≤ c →
        t.tm.actions = s.tm.actions ∧ Raised s t [(src, payCause 3 m.out.val)] ∧
        t.fld Reg.AS_DROP F.AS_DROP_COUNT = min (s.fld Reg.AS_DROP F.AS_DROP_COUNT + 1) (2 ^ 32 - 1))) ∧
  (∀ (k : Fin 256) (a : Action) (s : State), s.tm.actions[k.val]? = some a →
    (∀ d, a.active = false → a.due = some d → toSteps s.now < d → exec (.actionFire k) s = .next s) ∧
    (∀ d, a.active = false → a.due = some d → d ≤ toSteps s.now →
      let pulse := d + s.fld (Reg.SO_WIDTH (a.out.val / 2) (a.out.val % 2)) F.SO_WIDTH_WIDTH * 32
      ∃ t, exec (.actionFire k) s = .next t ∧ t.tm.actions = s.tm.actions.set k.val
          { a with active := true, due := some d, until' := if a.gate then none else some pulse } ∧
        t.fld Reg.AS_FIRED F.AS_FIRED_COUNT = min (s.fld Reg.AS_FIRED F.AS_FIRED_COUNT + 1) (2 ^ 32 - 1) ∧
        OnlyRegs [Reg.AS_STAT, Reg.AS_FIRED] s t) ∧
    (a.active = true → a.gate = true → a.tOff ≤ sourceCoord s (soGroup s a.out) →
      ∃ t, exec (.gateEnd k) s = .next t ∧ t.tm.actions = s.tm.actions.eraseIdx k.val ∧ OnlyRegs [Reg.AS_STAT] s t) ∧
    (a.active = true → a.gate = true → sourceCoord s (soGroup s a.out) < a.tOff → exec (.gateEnd k) s = .next s) ∧
    (∀ d, a.active = true → a.until' = some d → toSteps s.now < d → exec (.actuatorPulseEnd k) s = .next s) ∧
    (∀ d, a.active = true → a.until' = some d → d ≤ toSteps s.now →
      ∃ t, exec (.actuatorPulseEnd k) s = .next t ∧ t.tm.actions = s.tm.actions.eraseIdx k.val ∧
        OnlyRegs [Reg.AS_STAT] s t)) ∧
  (∀ s : State, ∃ t, exec .flush s = .next t ∧ t.tm.actions = [] ∧ t.fld Reg.AS_STAT F.AS_STAT_PENDING = 0 ∧
    t.fld Reg.AS_DROP F.AS_DROP_COUNT =
      min (s.fld Reg.AS_DROP F.AS_DROP_COUNT + (s.tm.actions.filter (fun a => !a.active)).length) (2 ^ 32 - 1) ∧
    OnlyRegs [Reg.AS_STAT, Reg.AS_DROP] s t ∧ t.raises = s.raises) ∧
  ∀ (val : BitVec 32) (s : State), F.AS_POST_CTL_GO.get val = 1 →
    let o := F.AS_POST_CTL_OUT.get val
    (256 ≤ s.tm.actions.length + s.tm.marks.length →
      ∃ t, exec (.asPost val) s = .next t ∧ t.fld Reg.AS_POST_CTL F.AS_POST_CTL_RESULT = 2 ∧ t.tm = s.tm ∧
        Raised s t [(611 + 4 * (o / 2), payCause 5 o)]) ∧
    (s.tm.actions.length + s.tm.marks.length < 256 → soMode s o = 4 →
      sourceCoord s (soGroup s o) < (s.reg64 Reg.AS_POST_LO Reg.AS_POST_HI).toInt +
        (s.reg64 (Reg.ACT_DIST_LO (o / 2) (o % 2)) (Reg.ACT_DIST_HI (o / 2) (o % 2))).toInt →
      ∃ t a, exec (.asPost val) s = .next t ∧ t.fld Reg.AS_POST_CTL F.AS_POST_CTL_RESULT = 1 ∧
        t.tm.actions = s.tm.actions ++ [a] ∧ a.out.val = o ∧ a.active = false ∧ a.gate = false ∧ a.blob = 0xFFFFFFFF ∧ t.raises = s.raises)

/-- O34. A write of TM_EPOCH_HI applies both words, sets EPOCH_SET and raises TM_EPOCH, and is ignored on a strand
follower; an enabled port sends on each transport in use a Sync with its Follow_Up, and an Announce, with PTP time
and the fields of R274, and counts; a Delay_Req of the domain on such a transport is answered with its own identity
up to 256 a second and otherwise discarded and counted; an output in PPS mode whose pad is live pulses once at each
whole second of PTP time plus SO_DELAY for SO_WIDTH. (R272, R273, R274, R276) -/
def Obligations.TimeReferenceCommandsComplete : Prop :=
  (∀ (val : BitVec 32) (s : State),
    (tmRole s = 2 → exec (.epochWrite val) s = .next s) ∧
    (tmRole s ≠ 2 → ∃ t, exec (.epochWrite val) s = .next t ∧ t.reg64 Reg.TM_EPOCH_LO Reg.TM_EPOCH_HI = val ++ s.tm.epochLo ∧
      t.fld Reg.TM_STAT F.TM_STAT_EPOCH_SET = 1 ∧ Raised s t [(740, 0)] ∧ t.now = s.now ∧ tmRole t = tmRole s ∧
      OnlyRegs [Reg.TM_EPOCH_LO, Reg.TM_EPOCH_HI, Reg.TM_STAT] s t)) ∧
  (∀ (e : Fin 8) (s : State),
    let ways := ptpTransports s
    let msg (l : Bool) (kind : BitVec 2) (int : Fld) (time : BitVec 64) (f : List Byte) : PtpMsg :=
      ⟨e, l, kind, BitVec.ofNat 8 (s.fld Reg.PTP_CTL F.PTP_CTL_DOMAIN), BitVec.ofNat 8 (s.fld Reg.PTP_INT int), 0, time, f⟩
    ptpOn s e = true → ways ≠ [] →
    (∃ t, exec (.sync e) s = .next t ∧ OnlyRegs [Reg.PTP_SYNC_TX] s t ∧
      t.tm.ptpOut = ways.flatMap (fun l => [msg l 0 F.PTP_INT_LOG_SYNC 0 [], msg l 1 F.PTP_INT_LOG_SYNC (ptpTime s) []]) ∧
      t.fld Reg.PTP_SYNC_TX F.PTP_SYNC_TX_COUNT = min (s.fld Reg.PTP_SYNC_TX F.PTP_SYNC_TX_COUNT + ways.length) (2 ^ 32 - 1)) ∧
    (∃ t f, exec (.announce e) s = .next t ∧ t.tm.ptpOut = ways.map (fun l => msg l 2 F.PTP_INT_LOG_ANN (ptpTime s) f) ∧
      f.length = 23 ∧ f.getD 3 0 = 0xFF ∧ f.getD 4 0 = 0xFE ∧ (f.getD 9 0).toNat = 1 + e.val ∧ f.getD 18 0 = 0xA0 ∧
      t = { s with tm := t.tm }) ∧
    ∀ (l : Bool) (dom : BitVec 8) (ident : List Byte),
      (l ∈ ways → dom.toNat = s.fld Reg.PTP_CTL F.PTP_CTL_DOMAIN →
        (s.tm.dreq[e]).1 ≠ s.now.toNat / 1000000000 ∨ (s.tm.dreq[e]).2 < 256 →
        ∃ t, exec (.delayReq ⟨e, l, dom, ident⟩) s = .next t ∧ t.tm.ptpOut = [msg l 3 F.PTP_INT_LOG_DREQ (ptpTime s) ident] ∧
          (t.tm.dreq[e]).1 = s.now.toNat / 1000000000 ∧ OnlyRegs [Reg.PTP_DREQ_RX] s t) ∧
      (l ∉ ways ∨ dom.toNat ≠ s.fld Reg.PTP_CTL F.PTP_CTL_DOMAIN ∨
        (s.tm.dreq[e]).1 = s.now.toNat / 1000000000 ∧ 256 ≤ (s.tm.dreq[e]).2 →
        exec (.delayReq ⟨e, l, dom, ident⟩) s = .next (s.bump Reg.PTP_DISCARD F.PTP_DISCARD_COUNT))) ∧
  ∀ (o : Fin 32) (s : State),
    let past := (ptpTime s).toNat % 1000000000
    let r := (s.now.toNat - past) * 32 / 5 + s.fld (Reg.SO_DELAY (o.val / 2) (o.val % 2)) F.SO_DELAY_DELAY
    let w := s.fld (Reg.SO_WIDTH (o.val / 2) (o.val % 2)) F.SO_WIDTH_WIDTH * 32
    (soMode s o ≠ 6 ∨ 5 ≤ past → exec (.pps o) s = .next s) ∧
    (soMode s o = 6 → past < 5 → 16 + o.val ∈ s.pads → (∀ p ∈ s.tm.pulses[o], p.1 ≠ r) →
      ∃ t, exec (.pps o) s = .next t ∧ (t.tm.pulses[o]).getLast? = some (r, r + w) ∧
        (∀ p ∈ (t.tm.pulses[o]).dropLast, p.2 + 128 ≤ r ∨ r < 128) ∧ t = { s with tm := t.tm })

/-- O35. On a side that is UP, TIME waits to be sent with device time, the echo and the epoch, in the order of
kinds, and a received one is echoed and gives a follower the master's epoch and steers it toward its time, by one
step before its first lock; a LINE message from the master's side goes on to the farther side, advances the source
of its group, and is kept for its fire instant by a locked follower group and otherwise counts late and is lost for
the group's heads; the kept line fires at that instant with its own index, coordinate and time, or counts late where
the lock is gone; RED posts join their line and HALO rows their span's store of 4 lines; a message whose CRC fails
counts and does nothing else; a lane loss drops the lane, the side retraining or DOWN; training brings the side UP
on lanes that it has. (R277, R278, R279, R280, R281, R282, R283) -/
def Obligations.StrandCommandsComplete : Prop :=
  (∀ (east : Bool) (s : State), sideUp s east = true →
    let echo := if east then s.tm.echoE else s.tm.echoW
    let epochs := s.reg64 Reg.TM_EPOCH_LO Reg.TM_EPOCH_HI
    let locked := s.fld Reg.TM_STAT F.TM_STAT_LOCKED = 1
    let bad (m : StrandMsg) (crc : BitVec 32) := crc32 (Config.strandBytes m) ≠ crc
    (∃ t l r, exec (.strandTimeSend east) s = .next t ∧ s.slOut = l ++ r ∧
      t.slOut = l ++ ⟨east, false, .time s.now echo epochs⟩ :: r ∧ (∀ x ∈ l, strandRank x ≤ 1) ∧
      (∀ x, r.head? = some x → 1 < strandRank x) ∧ t = { s with slOut := t.slOut }) ∧
    (∀ sent back epoch offset crc, crc32 (Config.strandBytes (.time sent back epoch)) = crc →
      ∃ t, exec (.strandTimeMessage east ⟨sent, back, epoch, crc⟩ offset) s = .next t ∧
        (if east then t.tm.echoE else t.tm.echoW) = s.now ∧
        OnlyRegs [Reg.SL_OFFSET, Reg.TM_STAT, Reg.TM_EPOCH_LO, Reg.TM_EPOCH_HI] s t ∧
        (tmRole s ≠ 2 ∨ masterSide s east = false → t = { s with tm := t.tm }) ∧
        (tmRole s = 2 → masterSide s east = true → t.reg64 Reg.TM_EPOCH_LO Reg.TM_EPOCH_HI = epoch ∧ t.tm.stepped = true ∧
          (s.tm.stepped = false → t.now = s.now + BitVec.ofInt 64 (offset.toInt / 1000)) ∧
          (s.tm.stepped = true → t.now = s.now ∧ t.reg Reg.SL_OFFSET = offset ∧ t.tm.trim = 2 * offset.toInt ∧
            (locked → 10000 < offset.toInt.natAbs →
              t.fld Reg.TM_STAT F.TM_STAT_LOCKED = 0 ∧ Raised s t [(738, payCause 2)]) ∧
            (locked → offset.toInt.natAbs ≤ 10000 → t.fld Reg.TM_STAT F.TM_STAT_LOCKED = 1 ∧ t.raises = s.raises) ∧
            (∀ w : BitVec 64, ¬locked → offset.toInt.natAbs ≤ 2000 → s.tm.within = some w →
              w.toNat + 10000000 ≤ s.now.toNat →
              t.fld Reg.TM_STAT F.TM_STAT_LOCKED = 1 ∧ Raised s t [(738, payCause 1)])))) ∧
    (∀ sent back epoch crc offset, bad (.time sent back epoch) crc →
      exec (.strandTimeMessage east ⟨sent, back, epoch, crc⟩ offset) s = .next (s.bump Reg.SL_ERR F.SL_ERR_CRC)) ∧
    (∀ g i p t f e b crc, bad (.line g i p t f e b) crc →
      exec (.strandLineMessage east crc g i p t f e b) s = .next (s.bump Reg.SL_ERR F.SL_ERR_CRC)) ∧
    (∀ n i post crc, bad (.red n i post) crc →
      exec (.strandRedMessage east crc n i post) s = .next (s.bump Reg.SL_ERR F.SL_ERR_CRC)) ∧
    (∀ n i (cols : Fin 65) rows crc, bad (.halo n i cols.val rows) crc →
      exec (.haloMessage east crc n i cols rows) s = .next (s.bump Reg.SL_ERR F.SL_ERR_CRC)) ∧
    (∀ (n : Fin 17) (index : BitVec 64) (post : StrandPost) (r : RedLine), (s.ctl n).red = [r] → r.index = some index →
      (s.ctl n).redIn = [] → r.east = none → r.west = none →
      ∃ t r', exec (.strandRedMessage east (crc32 (Config.strandBytes (.red n index post))) n index post) s = .next t ∧
        (t.ctl n).red = [r'] ∧ (t.ctl n).redIn = [] ∧
        (if east then r'.east else r'.west) = some post ∧ r'.own = r.own ∧ t.regs = s.regs) ∧
    (∀ (n : Fin 17) (line : BitVec 64) (cols : Fin 65) (planes : List (BitVec 64)),
      (if east then strandEast s n else strandWest s n) = true →
      ∃ t, exec (.haloMessage east (crc32 (Config.strandBytes (.halo n line cols.val planes))) n line cols planes) s = .next t ∧
        let store := if east then (t.array n).halosE else (t.array n).halosW
        store.head? = some ⟨line, cols.val, planes.take 64⟩ ∧ store.length ≤ 4 ∧ t = { s with arrays := t.arrays })) ∧
  (∀ (east : Bool) (f : StrandFire) (s : State), sideUp s east = true → tmRole s = 2 → masterSide s east = true →
    s.fld (Reg.TG_CTL f.group) F.TG_CTL_SRC = 17 → tgState s f.group ≠ 0 →
    let m : StrandMsg := .line f.group f.index f.coord f.time f.fire f.expCode f.strobe
    let inTime := s.fld Reg.TM_STAT F.TM_STAT_LOCKED = 1 ∧ toSteps s.now ≤ f.fire.toNat
    ∃ t, exec (.strandLineMessage east (crc32 (Config.strandBytes m)) f.group f.index f.coord f.time f.fire f.expCode f.strobe) s =
        .next t ∧ (grp t f.group).pos = f.coord ∧
      (sideUp s (!east) = true → (⟨!east, true, m⟩ : StrandOut) ∈ t.slOut) ∧
      (sideUp s (!east) = false → t.slOut = s.slOut) ∧
      (inTime → t.tm.fires = s.tm.fires ++ [f] ∧ t.regs = s.regs ∧ t.raises = s.raises) ∧
      (¬inTime → t.tm.fires = s.tm.fires ∧ (∃ l, Raised s t ((739, payLine 0 f.index f.group.val) :: l)) ∧
        t.fld Reg.SL_LATE F.SL_LATE_COUNT = min (s.fld Reg.SL_LATE F.SL_LATE_COUNT + 1) (2 ^ 32 - 1))) ∧
  (∀ (f : StrandFire) (rest : List StrandFire) (s : State), s.tm.fires = f :: rest → tgState s f.group ≠ 0 →
    (toSteps s.now < f.fire.toNat → exec .followerFire s = .next s) ∧
    (f.fire.toNat ≤ toSteps s.now → ∃ t, exec .followerFire s = .next t ∧ t.tm.fires = rest ∧
      t.tm.stamps = s.tm.stamps ++ [⟨f.group, f.index, f.coord, f.time⟩] ∧
      (s.fld Reg.TM_STAT F.TM_STAT_LOCKED = 1 → tgState t f.group = 2 ∧ tgIndex t f.group = f.index + 1) ∧
      (s.fld Reg.TM_STAT F.TM_STAT_LOCKED = 0 → tgIndex t f.group = tgIndex s f.group ∧
        (∃ l, Raised s t ((739, payLine 0 f.index f.group.val) :: l)) ∧
        t.fld Reg.SL_LATE F.SL_LATE_COUNT = min (s.fld Reg.SL_LATE F.SL_LATE_COUNT + 1) (2 ^ 32 - 1)))) ∧
  (∀ (east : Bool) (lane : Fin 4) (s : State), slOn s = true → (s.fld Reg.SL_STAT (lanesFld east)).testBit lane.val = true →
    let left := s.fld Reg.SL_STAT (lanesFld east) - 2 ^ lane.val
    ∃ t, exec (.strandLaneLoss east lane) s = .next t ∧ t.fld Reg.SL_STAT (lanesFld east) = left ∧
      t.fld Reg.SL_STAT (sideFld east) = (if left = 0 then 0 else 1) ∧ (sideLanes t east).toNat = left ∧
      Raised s t [(if east then 736 else 737, payCause (if left = 0 then 2 else 3))] ∧
      OnlyRegs [Reg.SL_STAT, Reg.SL_ERR] s t) ∧
  ∀ (east : Bool) (lanes : BitVec 4) (s : State), slOn s = true → s.fld Reg.SL_STAT (sideFld east) = 1 → lanes ≠ 0 →
    lanes &&& ~~~(sideLanes s east) = 0 →
    ∃ t, exec (.strandLinkUp east lanes) s = .next t ∧ t.fld Reg.SL_STAT (sideFld east) = 2 ∧
      t.fld Reg.SL_STAT (lanesFld east) = lanes.toNat ∧ Raised s t [(if east then 736 else 737, payCause 1)] ∧
      OnlyRegs [Reg.SL_STAT] s t

/-- O36. At every address that holds a register, for every old value, every value written and a stopped or running
owner: an RW field takes the value if it accepts it and otherwise keeps its own, an RWS field does so only while its
owner is stopped, a W1C bit is cleared by a 1 and kept by a 0, an RO, SC or WO field is unchanged by the write
itself, and a bit in no field keeps its value. (R3, R5) -/
def Obligations.FieldWritesByAccessType : Prop :=
  ∀ (a : Nat) (d : RegDesc) (stopped : Bool) (old val : BitVec 32), regAt a = some d →
    let new := writtenWord stopped d old val
    (∀ f ∈ d.fields,
      (f.acc = .rw → f.get new = if f.accepts (f.get val) then f.get val else f.get old) ∧
      (f.acc = .rws → f.get new = if stopped && f.accepts (f.get val) then f.get val else f.get old) ∧
      (f.acc = .w1c → ∀ i, (f.get new).testBit i = ((f.get old).testBit i && !(f.get val).testBit i)) ∧
      (f.acc = .ro ∨ f.acc = .sc ∨ f.acc = .wo → f.get new = f.get old)) ∧
    ∀ i, i < 32 → (∀ f ∈ d.fields, i < f.lo ∨ f.hi < i) → new.getLsbD i = old.getLsbD i

/-- O37. A write of a whole aligned word to a register of an ONLINE unit writes that register with the requester's
role tag, and in the tracker's window changes only that register, by the access types of its fields; a write of part
of a register is ignored, and counted where it meets only reserved fields; a write to a unit that is DRAINING waits
at its router, and one to a unit that is ISOLATED or OFF counts; a write to an unmapped address counts in the stray
counter of the alias endpoint and changes nothing else; an access through an alias is sent as a request to the
physical span or region that holds the role, with the role's tag. (R2, R3, R5, R13, R16, R18) -/
def Obligations.RegisterAccessCommandsComplete : Prop :=
  (∀ (tag : BitVec 16) (a : BitVec 40) (ep : Nat) (d : RegDesc) (val : BitVec 32) (s : State), aliasAt a.toNat = none →
    windowAt a.toNat = .register d → a.toNat % 4 = 0 → 0x4100000000 ≤ a.toNat → unitOf s a.toNat = some ep →
    (epState s ep = 0 →
      exec (.registerWrite tag a 4 val) s = .next (registerWrite s tag d a.toNat val) ∧
      (0x4300000000 ≤ a.toNat → a.toNat < 0x4310000000 → exec (.registerWrite tag a 4 val) s =
        .next (s.setReg a.toNat (writtenWord (ownerStopped s a.toNat) d (s.reg a.toNat) val))) ∧
      ∀ n : Fin 5, n = 1 ∨ n = 2 →
        let none := d.fields.all (fun f => 8 * n.val ≤ f.lo)
        exec (.registerWrite tag a n val) s = .next (if none then s.bump (Reg.PRB_STRAY ep) F.PRB_STRAY_COUNT else s)) ∧
    (epState s ep = 1 → ∃ t p, exec (.registerWrite tag a 4 val) s = .next t ∧ t.cw.held = s.cw.held ++ [p] ∧ p.addr = a ∧
      p.kind = 1 ∧ p.count = 4 ∧ p.data = leBytes 4 val.toNat ∧ p.stag = tag ∧ p.dst.val = ep ∧ t = { s with cw := t.cw }) ∧
    (2 ≤ epState s ep → ∀ w : Fin 5, exec (.registerWrite tag a w val) s =
      .next (s.bump (Reg.PRB_ISO ep) F.PRB_ISO_COUNT))) ∧
  (∀ (tag : BitVec 16) (a : BitVec 40) (w : Fin 5) (val : BitVec 32) (s : State), aliasAt a.toNat = none →
    unitOf s a.toNat = none → exec (.registerWrite tag a w val) s = .next (s.bump (Reg.PRB_STRAY 78) F.PRB_STRAY_COUNT)) ∧
  ∀ (tag : BitVec 16) (write : Bool) (a : BitVec 40) (w : Fin 5) (val : BitVec 32) (x : Alias) (m : Fin 17) (s : State),
    w ≠ 0 → aliasAt a.toNat = some x → pairOf s x.role = some m →
    let target := x.target m
    ∃ t p, exec (.aliasAccess tag write a w val) s = .next t ∧ t.cw.net = s.cw.net ++ [p] ∧ p.addr.toNat = target.1 ∧
      p.dst.val = target.2.1 ∧ p.dtag.toNat = target.2.2 ∧ p.stag = tag ∧ p.kind = (if write then 1 else 0) ∧
      p.count = w.val ∧ p.data = (if write then leBytes w val.toNat else []) ∧ t = { s with cw := t.cw }

/-- O38. Of the heads at an endpoint's output that have nothing before them on their way one is granted, a class-0
head before any other, and reaches the endpoint: a message to an ONLINE one with its tag is delivered, one with
another tag counts stale, a read of an ISOLATED or OFF one is answered with zeros and STATUS ISOLATED and counts, an
uncorrectable link error discards the packet, counts and raises CW_LINK_ERR and CW_TRUNC, and a head that is not
granted at a DRAINING one waits there; a unit that is not ONLINE starts none; the shaper releases its oldest packet
once 64 FCLK cycles have passed; ISOLATE, the end of the drain and RELEASE move an endpoint between the states of
R296, OFF where its power domain goes down, and have no effect in others; after the limit an inbound worm is
discarded and counts and an outbound one is truncated, counted and raised; FLIP changes the route epoch and clears
DRAINED, and has no effect while DRAINED is 0; once no old worm remains DRAINED is set and CW_EPOCH raised. (R289,
R290, R291, R295, R296, R298, R301) -/
def Obligations.CausewayCommandsComplete : Prop :=
  (∀ (heads : List (Nat × Fin 8)) (h w : AtOutput) (turn : Nat × Nat) (s : State),
    let hs := heads.filterMap (fun x => (mayArrive s x.1).map (fun p => (⟨x.1, x.2, p⟩ : AtOutput)))
    let rivals := hs.filter (fun x => x.packet.dst == h.packet.dst)
    hs.head? = some h → grantHead s h.packet.dst rivals = some (w, turn) →
    let p := w.packet
    let net := s.cw.net.eraseIdx w.at'
    let go := exec (.causewayDelivery (.flight heads) true []) s
    let online := epState s p.dst = 0 ∧ (p.dst.val ≠ 77 ∨ linkUp s = true)
    ((∃ x ∈ rivals, x.packet.cls = 0) → p.cls = 0) ∧ w ∈ rivals ∧
    (online → malformed p = false → p.kind = 4 → p.cls ≠ 0 → p.dtag = 0xFFFF ∨ p.dtag = epTag s p.dst →
      ∃ t, go = .next t ∧ t.cw.net = net ∧ t.cw.msgs = s.cw.msgs ++ [p] ∧ t.cw.c0 = s.cw.c0) ∧
    (online → malformed p = false → p.kind = 4 → p.dtag ≠ 0xFFFF → p.dtag ≠ epTag s p.dst →
      ∃ t, go = .next t ∧ t.cw.net = net ∧ t.cw.msgs = s.cw.msgs ∧ t.cw.c0 = s.cw.c0 ∧
        t.fld (Reg.PRB_STALE p.dst) F.PRB_STALE_COUNT = min (s.fld (Reg.PRB_STALE p.dst) F.PRB_STALE_COUNT + 1) (2 ^ 32 - 1)) ∧
    (epCut s p.dst = true → p.kind = 0 →
      ∃ t q, go = .next t ∧ t.cw.net = net ++ [q] ∧ q.kind = 2 ∧ q.status = 2 ∧ q.dst = p.src ∧
        q.txn = p.txn ∧ q.dtag = p.stag ∧ q.data = List.replicate p.count 0 ∧
        t.fld (Reg.PRB_ISO p.dst) F.PRB_ISO_COUNT = min (s.fld (Reg.PRB_ISO p.dst) F.PRB_ISO_COUNT + 1) (2 ^ 32 - 1)) ∧
    (epState s p.dst = 0 → ∀ (r : Fin 48) (q : Fin 8),
      ∃ t l, exec (.causewayDelivery (.flight heads) true [.uncorrectable r q]) s = .next t ∧ t.cw.net = net ∧
        t.cw.msgs = s.cw.msgs ∧ t.cw.c0 = s.cw.c0 ∧ Raised s t (l ++ [(835, payCause 0 r q), (837, 0)]) ∧
        t.fld (Reg.PRB_STRAY p.dst) F.PRB_STRAY_COUNT = min (s.fld (Reg.PRB_STRAY p.dst) F.PRB_STRAY_COUNT + 1) (2 ^ 32 - 1)) ∧
    (epState s p.dst = 1 → ∃ t, exec (.causewayDelivery (.flight heads) false []) s = .next t ∧ t.cw.net = net ∧
      t.cw.held = s.cw.held ++ [p] ∧ t = { s with cw := t.cw })) ∧
  (∀ (p : Packet) (g : Bool) (es : List LinkError) (s : State),
    (epState s p.src ≠ 0 → exec (.causewayDelivery (.unit p) g es) s = .next s) ∧
    (epState s p.src = 0 → mayArrive (offerPacket s p) s.cw.net.length = none →
      exec (.causewayDelivery (.unit p) g es) s = .next (offerPacket s p))) ∧
  (∀ (i : Fin 80) (p : Packet) (rest : List Packet) (s : State), s.cw.shapers[i].waiting = p :: rest → p.src = i →
    i.val ≠ 77 ∨ linkUp s = true → epState s i = 0 →
    (∀ t, s.cw.shapers[i].last = some t → t.toNat + 80 ≤ s.now.toNat) →
    ∃ t q, exec (.class0Release i) s = .next t ∧ t.cw.shapers[i].waiting = rest ∧ t.cw.shapers[i].last = some s.now ∧
      t.cw.net = s.cw.net ++ [q] ∧ q.dst = p.dst ∧ q.data = p.data ∧ q.cls = p.cls ∧ t = { s with cw := t.cw }) ∧
  (∀ (i : Fin 80) (s : State),
    (epState s i ≠ 0 → exec (.isolate i) s = .next s) ∧
    (epState s i = 0 → ∃ t, exec (.isolate i) s = .next t ∧ epState t i = 1 ∧ Raised s t [(836, 0)] ∧
      t.cw = { s.cw with drainAt := s.cw.drainAt.set i s.now } ∧ OnlyRegs [Reg.CW_EP_STAT i, Reg.CW_EP_CTL i] s t) ∧
    (epState s i ≠ 1 ∨ (∃ p ∈ s.cw.net, p.src = i) → exec (.endpointIsolated i) s = .next s) ∧
    (epState s i = 1 → (∀ p ∈ s.cw.net, p.src ≠ i) → i.val ≠ 77 ∨ (s.cw.ucie[0]).worms ++ (s.cw.ucie[1]).worms = [] →
      ∃ t, exec (.endpointIsolated i) s = .next t ∧ epState t i = (if i ∈ s.cw.down then 3 else 2) ∧
        t.fld (Reg.CW_EP_CTL i) F.CW_EP_CTL_ISOLATE = 0 ∧ (∀ p ∈ t.cw.held, p.dst ≠ i) ∧ Raised s t [(836, 0)]) ∧
    (epState s i ≠ 2 → exec (.release i) s = .next s) ∧
    (epState s i = 2 → ∃ t, exec (.release i) s = .next t ∧ epState t i = 0 ∧ Raised s t [(836, 0)] ∧
      (∀ p ∈ t.cw.unsent, p.src ≠ i) ∧ ((∀ p ∈ s.cw.unsent, p.src ≠ i) → t.cw = s.cw) ∧
      OnlyRegs [Reg.CW_EP_STAT i] s t)) ∧
  (∀ (i : Fin 80) (k : Nat) (p : Packet) (s : State), epState s i = 1 → i.val ≠ 77 → s.cw.net[k]? = some p →
    let due := (s.cw.drainAt[i]).toNat * 4 + drainLimit s i * 5 ≤ s.now.toNat * 4
    (¬due → exec (.drainCut i [k]) s = .next s) ∧
    (due → p.dst = i → (∀ q ∈ s.cw.net, q.src ≠ i) →
      ∃ t, exec (.drainCut i [k]) s = .next t ∧ t.cw.net = s.cw.net.erase p ∧ epState t i = 1 ∧ t.raises = s.raises ∧
        t.fld (Reg.PRB_ISO i) F.PRB_ISO_COUNT = min (s.fld (Reg.PRB_ISO i) F.PRB_ISO_COUNT + 1) (2 ^ 32 - 1)) ∧
    (due → s.cw.net.filter (fun q => q.src == i) = [p] → p.dst ≠ i → p.dst.val ≠ 77 →
      ∃ t, exec (.drainCut i []) s = .next t ∧ t.cw.net = s.cw.net.erase p ∧ epState t i = 1 ∧ Raised s t [(837, 0)] ∧
        t.fld (Reg.PRB_STRAY p.dst) F.PRB_STRAY_COUNT =
          min (s.fld (Reg.PRB_STRAY p.dst) F.PRB_STRAY_COUNT + 1) (2 ^ 32 - 1))) ∧
  ∀ s : State,
    (s.fld Reg.CW_STAT F.CW_STAT_DRAINED = 0 → exec .flip s = .next s) ∧
    (s.fld Reg.CW_STAT F.CW_STAT_DRAINED = 1 → ∃ t, exec .flip s = .next t ∧ routeEpoch t = !routeEpoch s ∧
      t.fld Reg.CW_STAT F.CW_STAT_DRAINED = 0 ∧ t.cw = s.cw ∧ t.raises = s.raises) ∧
    (oldWorms s ≠ [] → exec .epochDrained s = .next s) ∧
    (s.fld Reg.CW_STAT F.CW_STAT_DRAINED = 0 → oldWorms s = [] → ∃ t, exec .epochDrained s = .next t ∧
      t.fld Reg.CW_STAT F.CW_STAT_DRAINED = 1 ∧ t.fld Reg.CW_CTL F.CW_CTL_FLIP = 0 ∧ routeEpoch t = routeEpoch s ∧
      (∀ r, r < 48 → t.fld (Reg.RT_DRAIN r) F.RT_DRAIN_COUNT = 0) ∧ Raised s t [(838, 0)])

/-- O39. A read of one aligned 64-bit pier word returns its data and leaves it clean when a single bit has flipped,
counting in PIER_ECC.CORR; after two flips it returns the stored bits as they lie, with the ECC flag, counting in
UNCORR; a partial write to such a word poisons it, so that the next read reports the error again; a write that
covers the whole word makes it clean. (R302) -/
def Obligations.PierErrorCorrection : Prop :=
  ∀ (a : Nat) (s : State), a % 8 = 0 →
    let p := pierOf a
    let m := s.errMask a
    (m = 0 → pierRead s a 8 = (s.readBytes a 8, false, s)) ∧
    (∀ i, i < 72 → m = 2 ^ i → let r := pierRead s a 8
      r.1 = s.readBytes a 8 ∧ r.2.1 = false ∧ r.2.2.errMask a = 0 ∧ Raised s r.2.2 [(839, BitVec.ofNat 32 p)] ∧
      r.2.2.fld (Reg.PIER_ECC p) F.PIER_ECC_CORR = min (s.fld (Reg.PIER_ECC p) F.PIER_ECC_CORR + 1) 65535) ∧
    (∀ i j, i < j → j < 72 → m = 2 ^ i + 2 ^ j →
      (let r := pierRead s a 8
       r.1 = storedBytes s 8 a 8 ∧ r.2.1 = true ∧ r.2.2.errMask a = m ∧ Raised s r.2.2 [(840, BitVec.ofNat 32 p)]) ∧
      ∀ b : Byte, let w := pierWrite s a [b]
        w.1 = true ∧ (pierRead w.2 a 8).2.1 = true) ∧
    ∀ bs : List Byte, bs.length = 8 → let w := pierWrite s a bs
      w.1 = false ∧ w.2.errMask a = 0 ∧ (pierRead w.2 a 8).1 = bs ∧ w.2.raises = s.raises

/-- O40. A pier serves the one request that waits: a write of whole words stores its bytes and is acknowledged, a
read is answered with the bytes, and span traffic that loses its cycle to a checkpoint access, a snapshot's to a
restore's, counts a stall and waits; a controller serves its oldest request of its own granules likewise, and one of
another channel's or at or above the mapped capacity is answered UNMAPPED and counted; refresh and calibration
change nothing that software sees; a change of the refresh rate shows in HOT and raises D5_TEMP; the end of training
of a channel that the board record populates sets STATE and the CAUSE that the board record or the module's SPD
gives, and raises D5_TRAIN; the scrub goes on by one unit or ends its pass; a spared row takes effect at a spare of
its subchannel and enters the repair record with it; a module's temperature is read. (R302, R303, R304, R305, R306,
R307, R308, R309, R310, R311) -/
def Obligations.MemoryCommandsComplete : Prop :=
  (∀ (p : Fin 16) (ups : List Upset) (j : MemJob) (s0 : State),
    let s := applyUpsets s0 ups
    let a := j.req.addr.toNat
    let x := s.cw.piers[p]
    let stalled (t : State) (n : Nat) := t.mem = s.mem ∧ t.fld (Reg.PIER_SPAN_STALL p) F.PIER_SPAN_STALL_COUNT =
      min (s.fld (Reg.PIER_SPAN_STALL p) F.PIER_SPAN_STALL_COUNT + n) (2 ^ 32 - 1)
    x.waiting = [j] → x.merge = none → x.ckpt = [] → j.done = 0 → j.data = [] → j.ecc = false → s.errs = [] →
    0 < j.req.count → a % 8 = 0 → j.req.count % 8 = 0 → a % 32 + j.req.count ≤ 32 → epState s j.req.dst = 0 →
    j.req.dst.val ≠ 77 →
    (j.req.kind = 1 → j.req.data.length = j.req.count →
      ∃ t q, exec (.pierAccess p [] ups) s0 = .next t ∧ t.readBytes a j.req.count = j.req.data ∧
        OnlyBytes a (a + j.req.count) s t ∧ t.cw.piers[p].waiting = [] ∧ t.cw.net = s.cw.net ++ [q] ∧ q.kind = 3 ∧
        q.status = 0 ∧ q.dst = j.req.src ∧ q.txn = j.req.txn ∧ t.raises = s.raises) ∧
    (j.req.kind = 0 →
      ∃ t q, exec (.pierAccess p [] ups) s0 = .next t ∧ t.mem = s.mem ∧ t.cw.piers[p].waiting = [] ∧
        t.cw.net = s.cw.net ++ [q] ∧ q.kind = 2 ∧ q.status = 0 ∧ q.dst = j.req.src ∧ q.txn = j.req.txn ∧
        q.data = s.readBytes a j.req.count) ∧
    (j.req.src.val < 17 → ∀ m n : Fin 17,
      (∀ restore, ∃ t, exec (.pierAccess p [(restore, n)] ups) s0 = .next t ∧ t.cw = s.cw ∧ stalled t 1) ∧
      ∃ t, exec (.pierAccess p [(false, m), (true, n)] ups) s0 = .next t ∧ t.cw.piers[p].waiting = [j] ∧
        t.cw.piers[p].ckpt = [(false, m)] ∧ stalled t 2)) ∧
  (∀ (c : Fin 8) (ups : List Upset) (j : MemJob) (rest : List MemJob) (s0 : State),
    let s := applyUpsets s0 ups
    let a := j.req.addr.toNat
    let ready := epState s j.req.dst = 0 ∧ j.req.dst.val ≠ 77 ∧ s.errs = [] ∧ a + j.req.count ≤ ddrCapacity s ∧
      (a / 128) % max 1 (ddrChannels s) = c.val ∧ a % 128 + j.req.count ≤ 128
    (ddrCtl s c).waiting = j :: rest →
    (j.req.kind = 1 → j.req.data.length = j.req.count → a % 4 = 0 → j.req.count % 4 = 0 → ready →
      ∃ t q, exec (.ddr5Access c ups) s0 = .next t ∧ t.readBytes a j.req.count = j.req.data ∧
        OnlyBytes a (a + j.req.count) s t ∧ (ddrCtl t c).waiting = rest ∧ t.cw.net = s.cw.net ++ [q] ∧ q.kind = 3 ∧
        q.status = 0 ∧ t.raises = s.raises) ∧
    (j.req.kind = 0 → ready →
      ∃ t q, exec (.ddr5Access c ups) s0 = .next t ∧ t.mem = s.mem ∧ (ddrCtl t c).waiting = rest ∧
        t.cw.net = s.cw.net ++ [q] ∧ q.kind = 2 ∧ q.status = 0 ∧ q.data = s.readBytes a j.req.count) ∧
    (j.req.kind = 0 → ddrCapacity s < a + j.req.count ∨ (a / 128) % max 1 (ddrChannels s) ≠ c.val →
      ∃ t q, exec (.ddr5Access c ups) s0 = .next t ∧ t.mem = s.mem ∧ t.cw.net = s.cw.net ++ [q] ∧ q.status = 1 ∧
        q.data = List.replicate j.req.count 0 ∧
        t.fld (Reg.PRB_STRAY 44) F.PRB_STRAY_COUNT = min (s.fld (Reg.PRB_STRAY 44) F.PRB_STRAY_COUNT + 1) (2 ^ 32 - 1))) ∧
  (∀ (c : Fin 8) (s : State), exec (.ddr5Refresh c) s = .next s ∧ exec (.zqCalibration c) s = .next s) ∧
  (∀ (c : Fin 8) (d : Bool) (s : State), s.fld (Reg.D5_STAT c) F.D5_STAT_STATE = 2 →
    (s.fld (Reg.D5_STAT c) F.D5_STAT_HOT = d.toNat → exec (.mr4Read c d) s = .next s) ∧
    (s.fld (Reg.D5_STAT c) F.D5_STAT_HOT ≠ d.toNat → ∃ t, exec (.mr4Read c d) s = .next t ∧
      t.fld (Reg.D5_STAT c) F.D5_STAT_HOT = d.toNat ∧ Raised s t [(901 + 8 * c.val, 0)] ∧ OnlyRegs [Reg.D5_STAT c] s t)) ∧
  (∀ (c : Fin 8) (trained : Bool) (spd : Spd) (s : State), s.fld (Reg.D5_STAT c) F.D5_STAT_STATE < 2 →
    c.val < boardByte s 9 →
    let modules := boardByte s 8 = 1
    let x := channelConfig s spd
    let gib := 2 * x.ranks * (32 / max 1 x.width) * x.density / 8
    let cause := if modules ∧ spdSupported s spd = false then 2
      else if modules ∧ c ≠ 0 ∧ (s.d5[0]).spd.any (· != spd) = true then 4
      else if trained = false then 1 else if 16 < gib then 3 else 0
    let ok := cause = 0 ∨ cause = 3
    ∃ t l, exec (.ddr5TrainingDone c trained spd.unbuffered spd.ecc spd.width spd.density spd.ranks spd.rate) s = .next t ∧
      t.fld (Reg.D5_STAT c) F.D5_STAT_STATE = (if ok then 2 else 3) ∧
      t.fld (Reg.D5_STAT c) F.D5_STAT_CAUSE = cause ∧ t.mem = s.mem ∧
      (modules → (ddrCtl t c).spd = some spd) ∧
      (ok → c = 0 → t.fld Reg.D5_MAP F.D5_MAP_USED_GIB = min gib 16) ∧
      Raised s t ((896 + 8 * c.val,
        payCause (if cause = 0 then 1 else if cause = 1 then 2 else if cause = 3 then 3 else if cause = 2 then 4 else 5)) :: l)) ∧
  (∀ (c : Fin 8) (ups : List Upset) (s0 : State),
    let s := applyUpsets s0 ups
    s.fld (Reg.D5_CTL c) F.D5_CTL_SCRUB_EN = 1 → s.fld Reg.D5_MAP F.D5_MAP_READY = 1 → c.val < ddrChannels s → s.errs = [] →
    let k := (ddrCtl s c).scrubAt
    (k + 1 < scrubUnits s → ∃ t, exec (.patrolScrub c ups) s0 = .next t ∧ (ddrCtl t c).scrubAt = k + 1 ∧
      t.raises = s.raises ∧ t.mem = s.mem ∧ OnlyRegs [Reg.D5_SCRUB c] s t) ∧
    (scrubUnits s ≤ k + 1 → ∃ t, exec (.patrolScrub c ups) s0 = .next t ∧ (ddrCtl t c).scrubAt = 0 ∧
      (ddrCtl t c).rowErrs = [] ∧ t.mem = s.mem ∧ Raised s t [(900 + 8 * c.val, 0)] ∧
      t.fld (Reg.D5_SCRUB c) F.D5_SCRUB_PASSES = min (s.fld (Reg.D5_SCRUB c) F.D5_SCRUB_PASSES + 1) 65535)) ∧
  (∀ (c : Fin 8) (r : DdrRow) (rest : List DdrRow) (s : State), (ddrCtl s c).sparing = r :: rest →
    (∀ m ∈ (ddrCtl s c).moved, m.1 ≠ r) → (ddrCtl s c).moved.length < 64 →
    ∃ t k, exec (.rowSpareDone c) s = .next t ∧ (ddrCtl t c).sparing = rest ∧ k < 32 ∧
      (ddrCtl t c).moved = (ddrCtl s c).moved ++ [(r, k)] ∧
      t.fld (Reg.D5_SPARE c) F.D5_SPARE_USED = (ddrCtl s c).moved.length + 1 ∧
      t.fld (Reg.D5_SPARE c) F.D5_SPARE_FREE = 63 - (ddrCtl s c).moved.length ∧
      (∃ e, t.fh.repairs.getLast? = some e ∧ e.kind = 2 ∧ e.unit = c.val ∧ e.b2 = r.place ∧ e.b3 = k ∧
        e.word = BitVec.ofNat 32 r.row) ∧ Raised s t [(899 + 8 * c.val, payCause 1)]) ∧
  ∀ (c : Fin 8) (x : BitVec 8) (s : State),
    (s.fld (Reg.D5_CFG c) F.D5_CFG_MODULE = 0 → exec (.hubTempRead c x) s = .next s) ∧
    (s.fld (Reg.D5_CFG c) F.D5_CFG_MODULE = 1 →
      exec (.hubTempRead c x) s = .next (s.setFld (Reg.D5_TEMP c) F.D5_TEMP_TEMP x.toNat))

/-- O41. The oldest raise reaches the hub: with no target enabled it counts in EH_UNROUTED alone; for the Keeper it
sets KPEND, counts in KCOUNT and, where nothing was pending, stores payload and time, while a raise that finds a bit
set counts in EH_COAL and keeps the stored payload; for a strip output in mode 4 it takes an entry and counts in
AS_FIRED or, with no entry, in EH_TGT_DROP.OUT; for a span it sets the line's bit of the controller that holds the
role, or counts in EH_TGT_DROP.SPC; the first pending abutment delivery leaves with its descriptor, payload and
time, and stays pending while the abutment die is away; EH_RAISE raises a software source; a write of EH_PEND clears
the bits written 1 and their counts; a write of EH_SRC that may not stand is ignored as a whole. (R329, R330, R332,
R333, R336, R340) -/
def Obligations.HubCommandsComplete : Prop :=
  (∀ (m : Nat) (r : Raise) (rest : List Raise) (s : State), s.raises = r :: rest → r.source < 1024 →
    let c := Reg.EH_SRC r.source
    let p := Reg.EH_PEND r.source
    let on (f : Fld) : Prop := s.fld c f = 1
    let pending : Prop := s.fld p F.EH_PEND_KPEND = 1 ∨ s.fld p F.EH_PEND_APEND = 1
    let left (t : State) : Prop := t.raises = dropRaises r.source m rest
    let kept (t : State) : Prop := if pending then
        t.fld Reg.EH_COAL F.EH_COAL_COUNT = min (s.fld Reg.EH_COAL F.EH_COAL_COUNT + 1) (2 ^ 32 - 1) ∧ t.eh = s.eh ∧
          t.reg (Reg.EH_PAY r.source) = s.reg (Reg.EH_PAY r.source)
      else t.reg (Reg.EH_PAY r.source) = r.pay ∧ heldRaise t r.source = ⟨r.source, r.time, r.role⟩
    (¬on F.EH_SRC_K_EN → ¬on F.EH_SRC_ABUT → ¬on F.EH_SRC_OUT_EN → ¬on F.EH_SRC_SPC_EN →
      ∃ t, exec (.eventRaise m) s = .next t ∧ left t ∧ OnlyRegs [Reg.EH_UNROUTED] s t ∧ t.eh = s.eh ∧
        t.fld Reg.EH_UNROUTED F.EH_UNROUTED_COUNT = min (s.fld Reg.EH_UNROUTED F.EH_UNROUTED_COUNT + 1) (2 ^ 32 - 1)) ∧
    (on F.EH_SRC_K_EN → ¬on F.EH_SRC_OUT_EN → ¬on F.EH_SRC_SPC_EN →
      ∃ t, exec (.eventRaise m) s = .next t ∧ left t ∧ kept t ∧ t.fld p F.EH_PEND_KPEND = 1 ∧
        t.fld p F.EH_PEND_KCOUNT = min (s.fld p F.EH_PEND_KCOUNT + 1) 255 ∧
        (on F.EH_SRC_ABUT → t.fld p F.EH_PEND_APEND = 1 ∧
          t.fld p F.EH_PEND_ACOUNT = min (s.fld p F.EH_PEND_ACOUNT + 1) 255) ∧
        (¬on F.EH_SRC_ABUT → t.fld p F.EH_PEND_APEND = s.fld p F.EH_PEND_APEND ∧
          t.fld p F.EH_PEND_ACOUNT = s.fld p F.EH_PEND_ACOUNT) ∧
        OnlyRegs [p, Reg.EH_PAY r.source, Reg.EH_COAL] s t) ∧
    (on F.EH_SRC_OUT_EN → ¬on F.EH_SRC_K_EN → ¬on F.EH_SRC_ABUT → ¬on F.EH_SRC_SPC_EN →
      let o : Fin 32 := Fin.ofNat 32 (s.fld c F.EH_SRC_OUT)
      (soMode s o = 4 → s.tm.actions.length + s.tm.marks.length < 256 →
        ∃ t a, exec (.eventRaise m) s = .next t ∧ left t ∧ kept t ∧ t.tm.actions = s.tm.actions ++ [a] ∧ a.out = o ∧
          a.active = true ∧ a.gate = false ∧
          t.fld Reg.AS_FIRED F.AS_FIRED_COUNT = min (s.fld Reg.AS_FIRED F.AS_FIRED_COUNT + 1) (2 ^ 32 - 1)) ∧
      (soMode s o ≠ 4 ∨ 256 ≤ s.tm.actions.length + s.tm.marks.length →
        ∃ t, exec (.eventRaise m) s = .next t ∧ left t ∧ kept t ∧ t.tm = s.tm ∧
          t.fld Reg.EH_TGT_DROP F.EH_TGT_DROP_OUT = min (s.fld Reg.EH_TGT_DROP F.EH_TGT_DROP_OUT + 1) 65535)) ∧
    (on F.EH_SRC_SPC_EN → ¬on F.EH_SRC_K_EN → ¬on F.EH_SRC_ABUT → ¬on F.EH_SRC_OUT_EN →
      (∀ n, pairOf s (s.fld c F.EH_SRC_ROLE) = some n →
        ∃ t, exec (.eventRaise m) s = .next t ∧ left t ∧ kept t ∧
          t.fld (Reg.SPC_INT n) F.SPC_INT_PEND = s.fld (Reg.SPC_INT n) F.SPC_INT_PEND ||| 2 ^ s.fld c F.EH_SRC_LINE) ∧
      (pairOf s (s.fld c F.EH_SRC_ROLE) = none →
        ∃ t, exec (.eventRaise m) s = .next t ∧ left t ∧ kept t ∧
          t.fld Reg.EH_TGT_DROP F.EH_TGT_DROP_SPC = min (s.fld Reg.EH_TGT_DROP F.EH_TGT_DROP_SPC + 1) 65535))) ∧
  (∀ s : State, s.ab.up = false ∨ epState s 77 ≠ 0 → exec .abutmentTarget s = .next s) ∧
  (∀ (x : Nat) (s : State), x < 1024 → s.fld (Reg.EH_PEND x) F.EH_PEND_APEND = 1 →
    (∀ y, y < 1024 → y ≠ x → s.fld (Reg.EH_PEND y) F.EH_PEND_APEND = 1 → sourceBefore s x y = true) →
    s.ab.up = true → epState s 77 = 0 → epState s 43 = 0 →
    ∃ t q, exec .abutmentTarget s = .next t ∧ t.fld (Reg.EH_PEND x) F.EH_PEND_APEND = 0 ∧
      t.fld (Reg.EH_PEND x) F.EH_PEND_ACOUNT = 0 ∧ OnlyRegs [Reg.EH_PEND x] s t ∧ t.cw.net = s.cw.net ++ [q] ∧
      q.src = 43 ∧ q.dst = 77 ∧ q.cls = 1 ∧ q.kind = 4 ∧
      q.data = leBytes 4 (descriptor s x (s.fld (Reg.EH_PEND x) F.EH_PEND_ACOUNT)).toNat ++
        leBytes 4 (s.reg (Reg.EH_PAY x)).toNat ++ leBytes 8 (heldRaise s x).time.toNat ++ List.replicate 16 0) ∧
  (∀ (val : BitVec 32) (s : State), ∃ t, exec (.ehRaise val) s = .next t ∧
    Raised s t [(1016 + val.toNat % 8, s.reg Reg.EH_RAISE_PAY)] ∧ t = { s with raises := t.raises }) ∧
  (∀ (x : Fin 1024) (val : BitVec 32) (s : State), ∃ t, exec (.pendClear x val) s = .next t ∧
    OnlyRegs [Reg.EH_PEND x] s t ∧ t = { s with regs := t.regs } ∧
    let cleared (bit : Nat) (f : Fld) : Prop :=
      t.fld (Reg.EH_PEND x) f = if val.getLsbD bit then 0 else s.fld (Reg.EH_PEND x) f
    cleared 31 F.EH_PEND_KPEND ∧ cleared 31 F.EH_PEND_KCOUNT ∧ cleared 30 F.EH_PEND_APEND ∧ cleared 30 F.EH_PEND_ACOUNT) ∧
  ∀ (x : Fin 1024) (val : BitVec 32) (s : State),
    let vec := F.EH_SRC_VEC.get val
    let bad := val.getLsbD 31 = true ∧ (vec = 0 ∨ eventClass x = 0 ∧ 64 ≤ vec) ∨ val.getLsbD 13 = true ∧ 16 < F.EH_SRC_ROLE.get val
    (bad → exec (.ehSrcWrite x val) s = .next s) ∧
    (¬bad → exec (.ehSrcWrite x val) s = .next (s.setReg (Reg.EH_SRC x) (val &&& 0xFFFFFFF8)))

/-- O42. A running Keeper takes the first eligible source where its level allows it (class 0 at BASE and LOW,
classes 1 to 3 at BASE with EI): A, X and Y take payload, descriptor and time, the level it leaves is saved, KPEND
and its count are cleared, KP_EVT, level, mode, vector and PC are those of the handler; an event of class 1 to 3
waits for a causeway read in progress, one of class 0 abandons it; with no eligible source, and while RUN is 0,
nothing happens; the standard handlers send the writes of PL_TAKE, after the stop-now, and of LG_SEG_CTL.GO, log,
and raise the abutment target; RUN starts a stopped Keeper at BASE level at vector 0, the standard firmware with its
stack and an empty event log, and has no effect on a running one; stopping leaves events pending; KP_C0_LONG is
raised once for a handler that has run for the limit, where that is not 0; a staged owner block is written once no
level is an owner's. (R325, R327, R328, R331, R332, R335, R337, R339, R499, R505) -/
def Obligations.KeeperLevelCommandsComplete : Prop :=
  (∀ (k : Fin 4) (x : Nat) (s : State), kpRun s k = true → x < 1024 → eligible s k x = true →
    (∀ y, y < 1024 → y ≠ x → eligible s k y = true → sourceBefore s x y = true) → LocalClean s k →
    let level := kpLevel s k
    let vec := s.fld (Reg.EH_SRC x) F.EH_SRC_VEC
    let p := Reg.EH_PEND x
    let d := descriptor s x (s.fld p F.EH_PEND_KCOUNT)
    let kp := keeper s k
    let busy := inAccess s k
    let standard := kp.firm = true ∧ standardVector k vec = true
    let goes := eventClass x = 0 ∧ (level = 1 ∨ level = 2) ∨
      eventClass x ≠ 0 ∧ busy = false ∧ level = 1 ∧ s.fld (Reg.KP_CTL k) F.KP_CTL_EI = 1
    let post (a : Nat) (w : BitVec 32) : Prop := busy = false → kp.posted.length < 8 → epState s (39 + k.val) = 0 →
      ∃ t q, exec (.keeperDispatch k) s = .next t ∧ t.cw.net = s.cw.net ++ [q] ∧ q.src.val = 39 + k.val ∧ q.kind = 1 ∧
        q.addr.toNat = a ∧ q.data = leBytes 4 w.toNat
    (¬goes → exec (.keeperDispatch k) s = .next s) ∧
    (goes → ¬standard → ∃ t, exec (.keeperDispatch k) s = .next t ∧ (keeper t k).a = s.reg (Reg.EH_PAY x) ∧ (keeper t k).x = d ∧
      (keeper t k).y = (heldRaise s x).time.setWidth 32 ∧ (keeper t k).f = kp.f ∧ (keeper t k).began = s.now ∧
      (keeper t k).frames = ⟨level, kpPc s k, kp.a, kp.x, kp.y, kp.f, kp.sp, kpOwner s k,
        s.fld (Reg.KP_STAT k) F.KP_STAT_VEC, kp.todo⟩ :: kp.frames ∧ inAccess t k = false ∧ (keeper t k).todo = [] ∧
      (64 ≤ vec → (keeper t k).sp = 0x00040000) ∧ (vec < 64 → kpOwner s k = false → (keeper t k).sp = kp.sp) ∧
      (vec < 64 → kpOwner s k = true → ∀ b, kp.frames.getLast? = some b → (keeper t k).sp = b.sp) ∧
      kpOwner t k = decide (64 ≤ vec) ∧ kpLevel t k = (if eventClass x = 0 then 3 else 2) ∧
      t.fld (Reg.KP_STAT k) F.KP_STAT_VEC = vec ∧ t.fld p F.EH_PEND_KPEND = 0 ∧ t.fld p F.EH_PEND_KCOUNT = 0 ∧
      t.reg (Reg.KP_EVT k) = d ∧
      t.fld (Reg.KP_DISPATCH k) F.KP_DISPATCH_COUNT = min (s.fld (Reg.KP_DISPATCH k) F.KP_DISPATCH_COUNT + 1) (2 ^ 32 - 1) ∧
      kpPc t k = BitVec.ofNat 32 (s.readLE (Win.keeper k + 4 * vec) 4) &&& ~~~3#32 ∧
      OnlyRegs [p, Reg.KP_EVT k, Reg.KP_DISPATCH k, Reg.KP_STAT k, Reg.KP_PC k] s t ∧
      t = { s with regs := t.regs, kp := t.kp, cw := t.cw, up := t.up } ∧ (busy = false → t.cw = s.cw) ∧
      (x ≠ 1023 → t.up = s.up) ∧ ∀ j, j ≠ k → keeper t j = keeper s j) ∧
    (goes → standard → kpOwner s k = false →
      (∀ n : Fin 17, vec = 2 → affectedPair s x = some n → s.pl.take = none → s.roleOf n < 16 → plUse s n ≠ 5 →
        standbyFree s = true → post Reg.PL_TAKE (F.PL_TAKE_ROLE.put (F.PL_TAKE_GO.put 0 1) (s.roleOf n)) ∧
        (spcState s (lead s n) < 2 → (s.ctl (lead s n)).snap = none → ∃ t, exec (.keeperDispatch k) s = .next t ∧
          spcState t (lead s n) = 3 ∧ t.fld (Reg.SPC_STAT (lead s n)) F.SPC_STAT_CAUSE = 2)) ∧
      (vec = 4 → ∃ t, exec (.keeperDispatch k) s = .next t ∧ (keeper t k).logged = kp.logged ++ [(d, s.reg (Reg.EH_PAY x))] ∧
        (s.fld (Reg.EH_SRC x) F.EH_SRC_ABUT = 0 → t.fld p F.EH_PEND_APEND = 1)) ∧
      (vec = 5 → post Reg.LG_SEG_CTL (F.LG_SEG_CTL_GO.put (s.reg Reg.LG_SEG_CTL) 1)) ∧
      (vec = 6 → ∃ t, exec (.keeperDispatch k) s = .next t ∧
        let i := s.readLE (Win.keeper k + 0x14000) 4 % 1024
        let e := Win.keeper k + 0x10000 + 16 * i
        t.readLE e 4 = d.toNat ∧ t.readLE (e + 4) 4 = (s.reg (Reg.EH_PAY x)).toNat ∧
        t.readLE (e + 8) 4 = (heldRaise s x).time.toNat % 2 ^ 32 ∧ t.readLE (e + 12) 4 = 0 ∧
        t.readLE (Win.keeper k + 0x14000) 4 = (i + 1) % 1024))) ∧
  (∀ (k : Fin 4) (s : State), kpRun s k = false ∨ (∀ y, y < 1024 → eligible s k y = false) →
    exec (.keeperDispatch k) s = .next s) ∧
  (∀ (k : Fin 4) (s : State),
    let limit := s.fld (Reg.KP_C0_LIMIT k) F.KP_C0_LIMIT_LIMIT
    let late := (keeper s k).began.toNat * 2 + limit * 5 ≤ s.now.toNat * 2
    (kpLevel s k = 3 → limit ≠ 0 → (keeper s k).long = false → late →
      ∃ t, exec (.kpC0Long k) s = .next t ∧ (keeper t k).long = true ∧ Raised s t [(1008 + k.val, 0)] ∧ t.regs = s.regs) ∧
    (kpLevel s k ≠ 3 ∨ limit = 0 ∨ (keeper s k).long = true ∨ ¬late → exec (.kpC0Long k) s = .next s)) ∧
  (∀ (k : Fin 4) (s : State),
    (kpRun s k = true → exec (.keeperRun k) s = .next s) ∧
    (kpRun s k = false → LocalClean s k → ∃ t, exec (.keeperRun k) s = .next t ∧ kpRun t k = true ∧ kpLevel t k = 1 ∧
      kpOwner t k = false ∧ (keeper t k).a = 0 ∧ (keeper t k).x = 0 ∧ (keeper t k).y = 0 ∧ (keeper t k).f = 0 ∧
      (keeper t k).frames = [] ∧ inAccess t k = false ∧ t.fld (Reg.KP_STAT k) F.KP_STAT_WAITING = 0 ∧
      (keeper t k).sp = (if (keeper s k).firm then Config.firmwareStack &&& 0x1FFFC else (keeper s k).sp) ∧
      t.fld (Reg.KP_STAT k) F.KP_STAT_VEC = 0 ∧ t.fld (Reg.KP_STAT k) F.KP_STAT_DEPTH = 0 ∧
      kpPc t k = BitVec.ofNat 32 (s.readLE (Win.keeper k) 4) &&& ~~~3#32 ∧
      OnlyRegs [Reg.KP_CTL k, Reg.KP_STAT k, Reg.KP_PC k] s t ∧
      t = { s with regs := t.regs, kp := t.kp, cw := t.cw, mem := t.mem } ∧ (inAccess s k = false → t.cw = s.cw) ∧
      ((keeper s k).firm = false ∨ k ≠ 2 → t.mem = s.mem) ∧
      ((keeper s k).firm = true → k = 2 → t.readLE (Win.keeper k + 0x14000) 4 = 0 ∧
        OnlyBytes (Win.keeper k + 0x14000) (Win.keeper k + 0x14004) s t)) ∧
    (inAccess s k = true → kpRun s k = true → ∃ t, exec (.keeperStop k) s = .next t ∧ kpRun t k = false ∧
      kpLevel t k = kpLevel s k ∧ OnlyRegs [Reg.KP_CTL k] s t ∧ t = { s with regs := t.regs }) ∧
    (kpRun s k = false → exec (.keeperStop k) s = .next s) ∧
    (inAccess s k = false → kpRun s k = true → ∃ t, exec (.keeperStop k) s = .next t ∧ kpRun t k = false ∧ kpLevel t k = 0 ∧
      OnlyRegs [Reg.KP_CTL k, Reg.KP_STAT k] s t ∧ t = { s with regs := t.regs })) ∧
  ∀ (k : Fin 4) (s : State),
    (s.ownerStage = none ∨ s.fld (Reg.KP_CTL k) F.KP_CTL_OWN_HOLD = 0 ∨ noOwnerLevel s k = false →
      exec (.ownerBlockReplace k) s = .next s) ∧
    ∀ b, s.ownerStage = some b → s.fld (Reg.KP_CTL k) F.KP_CTL_OWN_HOLD = 1 → noOwnerLevel s k = true →
      b.half.length ≤ 0x20000 → (∀ v ∈ b.vectors, 64 ≤ v.1 ∧ v.1 < 256) → (b.vectors.map (·.1)).Nodup →
      ∃ t, exec (.ownerBlockReplace k) s = .next t ∧ t.fld (Reg.KP_CTL k) F.KP_CTL_OWN_HOLD = 0 ∧
        (∀ i, i < 0x20000 → t.byte (Win.keeper k + 0x20000 + i) = b.half.getD i 0) ∧
        (∀ v ∈ b.vectors, t.readLE (Win.keeper k + 4 * v.1) 4 = v.2.toNat) ∧
        (∀ j, j < 8 → t.reg (Reg.KP_ORANGE_LO k j) = (b.ranges.getD j (0, 0)).1 &&& 0x80FFFFFF ∧
          t.reg (Reg.KP_ORANGE_HI k j) = (b.ranges.getD j (0, 0)).2 &&& 0x00FFFFFF) ∧
        OnlyBytes (Win.keeper k + 0x100) (Win.keeper k + 0x40000) s t ∧ t.raises = s.raises ∧ t.kp = s.kp

/-- O43. A Keeper instruction takes the value R319 gives it in A, X, Y, F or memory, sets the flags it names and no
others, and advances PC; a load or store acts at EA in local memory with its width and extension, a store changing
only its bytes; a misaligned load is made at EA with its low bits cleared and counts; an OWNER load of the firmware
half reads 0 and counts DENIED; an unmapped one reads 0 and counts ADDR; a causeway load sends a read and executes
with the data once that has come, and a causeway store is posted, waiting while 8 are outstanding. (R316, R317,
R318, R319, R321, R323, R326) -/
def Obligations.KeeperMoveInstructions : Prop :=
  (∀ (k : Fin 4) (ups : List Upset) (i : KeeperWord) (v c : Nat) (s0 : State), let s := applyUpsets s0 ups
    LocalClean s k → kpRun s k = true →
    s.fld (Reg.KP_STAT k) F.KP_STAT_WAITING = 0 → runsStandard s k = false → inCodeArea s k (kpPc s k).toNat = true →
    KeeperWord.ofNat (s.readLE (Win.keeper k + (kpPc s k).toNat) 4) = i → (keeper s k).wait = none →
    (keeper s k).reads = [v] → i.op = 5 → (keeperEa s k i).toNat % 4 = 0 → causewaySite s k (keeperEa s k i).toNat = some c →
    let x := keeper s k
    let r := BitVec.ofNat 32 v
    ∃ t, exec (.keeperLoad k ups) s0 = .next t ∧ KeeperDoes s t k { x with a := r, f := flagsZn x.f r, reads := [] } (kpNext s k)) ∧
  ∀ (k : Fin 4) (ups : List Upset) (i : KeeperWord) (s0 : State),
    let s := applyUpsets s0 ups
    KeeperAt s k i →
    let x := keeper s k
    let ea := keeperEa s k i
    let does (c : Instr) (y : Keeper) : Prop := ∃ t, exec c s0 = .next t ∧ KeeperDoes s t k y (kpNext s k)
    let acc (r : BitVec 32) : Keeper := { x with a := r, f := flagsZn x.f r }
    let stored (c : Instr) (n : Nat) (v : BitVec 32) : Prop := ∃ t, exec c s0 = .next t ∧
      t.readLE (Win.keeper k + ea.toNat) n = v.toNat % 2 ^ (8 * n) ∧
      OnlyBytes (Win.keeper k + ea.toNat) (Win.keeper k + ea.toNat + n) s t ∧ kpPc t k = kpNext s k ∧
      OnlyRegs [Reg.KP_PC k] s t ∧ t = { s with regs := t.regs, mem := t.mem }
    let fits (n : Nat) : Prop := ∃ v, KeeperReads s k ea n v
    (∀ v, i.op = 1 → KeeperReads s k ea 1 v → does (.keeperLoad k ups) (acc ((BitVec.ofNat 8 v).signExtend 32))) ∧
    (∀ v, i.op = 2 → KeeperReads s k ea 1 v → does (.keeperLoad k ups) (acc (BitVec.ofNat 32 v))) ∧
    (∀ v, i.op = 3 → KeeperReads s k ea 2 v → does (.keeperLoad k ups) (acc ((BitVec.ofNat 16 v).signExtend 32))) ∧
    (∀ v, i.op = 4 → KeeperReads s k ea 2 v → does (.keeperLoad k ups) (acc (BitVec.ofNat 32 v))) ∧
    (∀ v, i.op = 5 → KeeperReads s k ea 4 v → does (.keeperLoad k ups) (acc (BitVec.ofNat 32 v))) ∧
    (∀ v, i.op = 9 → KeeperReads s k ea 4 v → does (.loadIndex k ups) { x with x := BitVec.ofNat 32 v }) ∧
    (∀ v, i.op = 10 → KeeperReads s k ea 4 v → does (.loadIndex k ups) { x with y := BitVec.ofNat 32 v }) ∧
    (i.op = 6 → fits 1 → stored (.keeperStore k ups) 1 x.a) ∧ (i.op = 7 → fits 2 → stored (.keeperStore k ups) 2 x.a) ∧
    (i.op = 8 → fits 4 → stored (.keeperStore k ups) 4 x.a) ∧ (i.op = 11 → fits 4 → stored (.storeIndex k ups) 4 x.x) ∧
    (i.op = 12 → fits 4 → stored (.storeIndex k ups) 4 x.y) ∧
    (i.op = 5 → ea.toNat < 0x40000 → ea.toNat % 4 ≠ 0 → (kpOwner s k = true → 0x20000 ≤ ea.toNat) →
      ∃ t, exec (.keeperLoad k ups) s0 = .next t ∧
        (keeper t k).a = BitVec.ofNat 32 (s.readLE (Win.keeper k + ea.toNat / 4 * 4) 4) ∧ kpPc t k = kpNext s k ∧
        t.fld (Reg.KP_STRAY k) F.KP_STRAY_ADDR = min (s.fld (Reg.KP_STRAY k) F.KP_STRAY_ADDR + 1) 65535 ∧ t.mem = s.mem) ∧
    (i.op = 5 → ea.toNat < 0x20000 → ea.toNat % 4 = 0 → kpOwner s k = true →
      ∃ t, exec (.keeperLoad k ups) s0 = .next t ∧ keeper t k = acc 0 ∧ kpPc t k = kpNext s k ∧
        t.fld (Reg.KP_STRAY k) F.KP_STRAY_DENIED = min (s.fld (Reg.KP_STRAY k) F.KP_STRAY_DENIED + 1) 65535 ∧ t.mem = s.mem) ∧
    (i.op = 5 → ea.toNat % 4 = 0 → keeperSite s k ea.toNat = .unmapped →
      ∃ t, exec (.keeperLoad k ups) s0 = .next t ∧ keeper t k = acc 0 ∧ kpPc t k = kpNext s k ∧
        t.fld (Reg.KP_STRAY k) F.KP_STRAY_ADDR = min (s.fld (Reg.KP_STRAY k) F.KP_STRAY_ADDR + 1) 65535 ∧ t.mem = s.mem) ∧
    (∀ c, ea.toNat % 4 = 0 → causewaySite s k ea.toNat = some c → epState s (39 + k.val) = 0 →
      (i.op = 5 → ∃ t q, exec (.keeperLoad k ups) s0 = .next t ∧ t.cw.net = s.cw.net ++ [q] ∧ q.kind = 0 ∧ q.count = 4 ∧
        q.addr = BitVec.ofNat 40 c ∧ q.src.val = 39 + k.val ∧ (keeper t k).wait = some q.txn ∧
        t = { s with cw := t.cw, kp := t.kp }) ∧
      (i.op = 8 → x.posted.length < 8 → ∃ t q, exec (.keeperStore k ups) s0 = .next t ∧ t.cw.net = s.cw.net ++ [q] ∧ q.kind = 1 ∧
        q.addr = BitVec.ofNat 40 c ∧ q.src.val = 39 + k.val ∧ q.data = leBytes 4 x.a.toNat ∧
        (keeper t k).posted = x.posted ++ [q.txn] ∧ kpPc t k = kpNext s k ∧ t.mem = s.mem ∧ OnlyRegs [Reg.KP_PC k] s t) ∧
      (i.op = 8 → 8 ≤ x.posted.length → exec (.keeperStore k ups) s0 = .next s)) ∧
    (i.op = 0x0D → does (.lea k ups) { x with a := ea }) ∧
    (i.op = 0x40 → does (.ldi k ups) (acc i.simm)) ∧ (i.op = 0x41 → does (.lui k ups) (acc (i.uimm <<< 16))) ∧
    (i.op = 0x42 → does (.orl k ups) (acc (x.a ||| i.uimm))) ∧
    (i.op = 0x43 → does (.loadIndexImmediate k ups) { x with x := i.simm }) ∧
    (i.op = 0x44 → does (.loadIndexImmediate k ups) { x with y := i.simm }) ∧
    (i.op = 0x45 → does (.addIndexImmediate k ups) { x with x := x.x + i.simm }) ∧
    (i.op = 0x46 → does (.addIndexImmediate k ups) { x with y := x.y + i.simm }) ∧
    (i.op = 0x48 → i.sel < 16 →
      let v := if i.sel % 4 = 0 then x.a else if i.sel % 4 = 1 then x.x else if i.sel % 4 = 2 then x.y else x.sp
      does (.copy k ups) (if i.sel / 4 = i.sel % 4 then x else if i.sel / 4 = 0 then acc v
        else if i.sel / 4 = 1 then { x with x := v } else if i.sel / 4 = 2 then { x with y := v }
        else { x with sp := v &&& 0xFFFFFFFC })) ∧
    (i.op = 0x4E → does (.putf k ups) { x with f := x.a.setWidth 4 }) ∧
    (i.op = 0x4F → does (.getf k ups) { x with a := x.f.setWidth 32 }) ∧
    (∀ n, i.op = 0x50 ∧ n = i.uimm.toNat → does (.keeperShift k ups) (acc (x.a <<< n))) ∧
    (∀ n, i.op = 0x51 ∧ n = i.uimm.toNat → does (.keeperShift k ups) (acc (x.a >>> n))) ∧
    (∀ n, i.op = 0x52 ∧ n = i.uimm.toNat → does (.keeperShift k ups) (acc (x.a.sshiftRight n))) ∧
    (∀ n, i.op = 0x53 ∧ n = i.uimm.toNat → does (.keeperShift k ups) (acc (x.a.rotateLeft n))) ∧
    (i.op = 0x54 → does (.keeperShiftX k ups) (acc (x.a <<< x.x.toNat))) ∧
    (i.op = 0x55 → does (.keeperShiftX k ups) (acc (x.a >>> x.x.toNat))) ∧
    (i.op = 0x56 → does (.keeperShiftX k ups) (acc (x.a.sshiftRight x.x.toNat))) ∧
    (i.op = 0x57 → does (.keeperShiftX k ups) (acc (x.a.rotateLeft x.x.toNat))) ∧
    (i.op = 0x58 → does (.neg k ups) { x with a := -x.a, f := flagsOf (x.a == 0) (x.a == 0x80000000) (-x.a) }) ∧
    (i.op = 0x59 → does (.not k ups) (acc (~~~x.a))) ∧
    (i.op = 0x6F → does (.nop k ups) x) ∧
    (illegalWord s k i = true → ∃ t, exec (.keeperIllegal k ups) s0 = .next t ∧ kpPc t k = kpNext s k ∧ t.kp = s.kp ∧
      t.mem = s.mem ∧ OnlyRegs [Reg.KP_PC k, Reg.KEEPER_ILLEGAL k] s t ∧
      t.fld (Reg.KEEPER_ILLEGAL k) F.KEEPER_ILLEGAL_COUNT =
        min (s.fld (Reg.KEEPER_ILLEGAL k) F.KEEPER_ILLEGAL_COUNT + 1) (2 ^ 32 - 1))

/-- O44. With m the word at EA or the sign-extended DISP, ADD, ADC, SUB and SBC give A the wrapped true sum or
difference, with C the carry or the absence of a borrow and V the overflow of the signed result; CMP sets the same
flags and leaves A; AND, OR, XOR and the multiplications set Z and N alone; a division gives quotient or remainder
rounded toward zero, V on −2^31 by −1, and by zero all ones or A with the sticky DZ set. (R319, R321) -/
def Obligations.KeeperArithmeticInstructions : Prop :=
  ∀ (k : Fin 4) (ups : List Upset) (i : KeeperWord) (m : BitVec 32) (s0 : State),
    let s := applyUpsets s0 ups
    KeeperAt s k i → KeeperOperand s k i m →
    let x := keeper s k
    let a := x.a
    let b := i.op % 0x20
    let two : Prop := i.op = b ∨ i.op = b + 0x20
    let does (c : Instr) (y : Keeper) : Prop := ∃ t, exec c s0 = .next t ∧ KeeperDoes s t k y (kpNext s k)
    let acc (r : BitVec 32) : Keeper := { x with a := r, f := flagsZn x.f r }
    let out (v : Int) : Bool := decide (v < -2 ^ 31 ∨ 2 ^ 31 ≤ v)
    let cin : Nat := (x.f.getLsbD 0).toNat
    let sum (n : Nat) : Keeper :=
      let r := BitVec.ofNat 32 (a.toNat + m.toNat + n)
      { x with a := r, f := flagsOf (decide (2 ^ 32 ≤ a.toNat + m.toNat + n)) (out (a.toInt + m.toInt + n)) r }
    let dif (n : Nat) : BitVec 32 := BitVec.ofInt 32 (a.toInt - m.toInt - n)
    let difF (n : Nat) : BitVec 4 := flagsOf (decide (m.toNat + n ≤ a.toNat)) (out (a.toInt - m.toInt - n)) (dif n)
    let div (r : BitVec 32) (v : Bool) : Keeper := { x with a := r, f := flagsOf (x.f.getLsbD 0) v r }
    two → i.op < 0x40 →
    (b = 0x10 → does (.add k ups) (sum 0)) ∧ (b = 0x11 → does (.adc k ups) (sum cin)) ∧
    (b = 0x12 → does (.sub k ups) { x with a := dif 0, f := difF 0 }) ∧
    (b = 0x13 → does (.sbc k ups) { x with a := dif (1 - cin), f := difF (1 - cin) }) ∧
    (b = 0x14 → does (.keeperLogic k ups) (acc (a &&& m))) ∧ (b = 0x15 → does (.keeperLogic k ups) (acc (a ||| m))) ∧
    (b = 0x16 → does (.keeperLogic k ups) (acc (a ^^^ m))) ∧ (b = 0x17 → does (.cmp k ups) { x with f := difF 0 }) ∧
    (b = 0x18 → does (.keeperMultiply k ups) (acc (BitVec.ofInt 32 (a.toInt * m.toInt)))) ∧
    (b = 0x19 → does (.keeperMultiply k ups) (acc (BitVec.ofInt 32 (a.toInt * m.toInt / 2 ^ 32)))) ∧
    (b = 0x1A → does (.keeperMultiply k ups) (acc (BitVec.ofNat 32 (a.toNat * m.toNat / 2 ^ 32)))) ∧
    (m ≠ 0 →
      (b = 0x1B → does (.keeperDivide k ups) (div (BitVec.ofInt 32 (a.toInt.tdiv m.toInt)) (out (a.toInt.tdiv m.toInt)))) ∧
      (b = 0x1C → does (.keeperDivide k ups) (div (BitVec.ofNat 32 (a.toNat / m.toNat)) false)) ∧
      (b = 0x1D → does (.keeperDivide k ups) (div (BitVec.ofInt 32 (a.toInt.tmod m.toInt)) false)) ∧
      (b = 0x1E → does (.keeperDivide k ups) (div (BitVec.ofNat 32 (a.toNat % m.toNat)) false))) ∧
    (m = 0 → 0x1B ≤ b → b ≤ 0x1E → ∃ t, exec (.keeperDivide k ups) s0 = .next t ∧
      keeper t k = div (if b ≤ 0x1C then 0xFFFFFFFF else a) false ∧ kpPc t k = kpNext s k ∧
      t.fld (Reg.KP_STAT k) F.KP_STAT_DZ = 1 ∧ kpLevel t k = kpLevel s k ∧ OnlyRegs [Reg.KP_PC k, Reg.KP_STAT k] s t)

/-- O45. BR tests the flags as R320 lists them and jumps relative to the next instruction; JMP and CALL go to EA,
and a target outside local memory counts and does not take place; PUSHM stores the registers of its mask downward in
the order F, Y, X, A, CALL stores its link word after them, POPM and RET take them back in the order A, X, Y, F, RET
continuing at the return address; an OWNER CALL of a gate entry goes to the address it holds in FIRM mode; RETI
restores the top frame, or chains the next handler and leaves the frame; WAIT at BASE level waits; the standard
firmware waits so in its loop, and its handlers end with RETI once their stores are issued; a push below the limit
abandons a handler and raises KP_FAULT. (R320, R322, R324, R325, R331, R499, R505) -/
def Obligations.KeeperControlInstructions : Prop :=
  (∀ f : BitVec 4, brTaken f 0 = true ∧ brTaken f 1 = f.getLsbD 2 ∧ brTaken f 3 = f.getLsbD 0 ∧ brTaken f 5 = f.getLsbD 3 ∧
    brTaken f 7 = f.getLsbD 1 ∧ brTaken f 9 = (f.getLsbD 3 != f.getLsbD 1) ∧
    brTaken f 11 = (f.getLsbD 2 || f.getLsbD 3 != f.getLsbD 1) ∧ brTaken f 13 = (!f.getLsbD 0 || f.getLsbD 2) ∧
    ∀ n, 1 ≤ n → n ≤ 7 → brTaken f (2 * n) = !brTaken f (2 * n - 1)) ∧
  (∀ (k : Fin 4) (ups : List Upset) (s0 : State), runsStandard s0 k = true → kpRun s0 k = true →
    let s := applyUpsets s0 ups
    (kpLevel s0 k = 1 → ∃ t, exec (.wait k ups) s0 = .next t ∧ t.fld (Reg.KP_STAT k) F.KP_STAT_WAITING = 1 ∧
      kpPc t k = Config.firmwareLoop &&& 0x1FFFC ∧ t.kp = s.kp ∧ OnlyRegs [Reg.KP_PC k, Reg.KP_STAT k] s t) ∧
    (2 ≤ kpLevel s0 k → (keeper s0 k).todo ≠ [] → exec (.reti k ups) s0 = .next s0) ∧
    ∀ f rest, 2 ≤ kpLevel s0 k → (keeper s0 k).todo = [] → (keeper s k).frames = f :: rest → nextEvent s k f.level = none →
      f.level < 4 → f.vec < 256 → ∃ t, exec (.reti k ups) s0 = .next t ∧ kpPc t k = f.pc &&& ~~~3#32 ∧ kpOwner t k = f.owner ∧
        kpLevel t k = f.level ∧ (keeper t k).a = f.a ∧ (keeper t k).sp = f.sp ∧ (keeper t k).frames = rest ∧
        (keeper t k).todo = f.todo ∧ OnlyRegs [Reg.KP_PC k, Reg.KP_STAT k] s t) ∧
  ∀ (k : Fin 4) (ups : List Upset) (i : KeeperWord) (s0 : State),
    let s := applyUpsets s0 ups
    KeeperAt s k i →
    let x := keeper s k
    let w := Win.keeper k
    let ea := keeperEa s k i
    let does (c : Instr) (y : Keeper) (pc : BitVec 32) : Prop := ∃ t, exec c s0 = .next t ∧ KeeperDoes s t k y pc
    let turned (c : Instr) : Prop := ∃ t, exec c s0 = .next t ∧ t.kp = s.kp ∧ kpPc t k = kpNext s k ∧
      OnlyRegs [Reg.KP_PC k, Reg.KEEPER_ILLEGAL k] s t ∧ t.fld (Reg.KEEPER_ILLEGAL k) F.KEEPER_ILLEGAL_COUNT =
        min (s.fld (Reg.KEEPER_ILLEGAL k) F.KEEPER_ILLEGAL_COUNT + 1) (2 ^ 32 - 1)
    let pushed (t : State) (ws : List (BitVec 32)) : Prop := (keeper t k) = { x with sp := x.sp - BitVec.ofNat 32 (4 * ws.length) } ∧
      (∀ j, j < ws.length → t.readLE (w + x.sp.toNat - 4 * (j + 1)) 4 = (ws.getD j 0).toNat) ∧
      OnlyBytes (w + x.sp.toNat - 4 * ws.length) (w + x.sp.toNat) s t ∧ t.raises = s.raises
    let room (ws : List (BitVec 32)) : Prop := x.sp.toNat % 4 = 0 ∧ 4 * ws.length ≤ x.sp.toNat ∧
      ∀ j, j < ws.length → pushAllowed s k (x.sp - BitVec.ofNat 32 (4 * (j + 1))) = true
    let link := BitVec.ofNat 32 ((kpNext s k).toNat % 2 ^ 18 + i.sel * 2 ^ 24 + (kpOwner s k).toNat * 2 ^ 31)
    let holds (at' : Nat) (l : List Nat) (t : State) : Prop :=
      (keeper t k).sp = x.sp + BitVec.ofNat 32 (at' + 4 * l.length) ∧
      (∀ j b, l[j]? = some b → maskReg (keeper t k) b =
        (let v := BitVec.ofNat 32 (s.readLE (w + x.sp.toNat + at' + 4 * j) 4); if b = 3 then v &&& 15 else v)) ∧
      (∀ b, b < 4 → b ∉ l → maskReg (keeper t k) b = maskReg x b) ∧ t.mem = s.mem ∧ t.raises = s.raises
    let inside (n : Nat) : Prop := x.sp.toNat % 4 = 0 ∧ x.sp.toNat + n ≤ 0x40000 ∧ (kpOwner s k = true → 0x20000 ≤ x.sp.toNat)
    i.sel < 16 →
    (i.op = 0x60 → i.sel < 15 →
      let goal := kpNext s k + 4 * i.simm
      (brTaken x.f i.sel = false → does (.br k ups) x (kpNext s k)) ∧
      (brTaken x.f i.sel = true → goal.toNat < 0x40000 → does (.br k ups) x (goal &&& 0xFFFFFFFC)) ∧
      (brTaken x.f i.sel = true → 0x40000 ≤ goal.toNat → turned (.br k ups))) ∧
    (i.op = 0x61 → (ea.toNat < 0x40000 → does (.jmp k ups) x (ea &&& 0xFFFFFFFC)) ∧
      (0x40000 ≤ ea.toNat → turned (.jmp k ups))) ∧
    (i.op = 0x62 →
      (0x40000 ≤ ea.toNat → turned (.call k ups)) ∧
      (room (pushList x i.sel ++ [link]) → ea.toNat < 0x40000 → (kpOwner s k = true → ea.toNat < 0x400 ∨ 0x4FF < ea.toNat) →
        ∃ t, exec (.call k ups) s0 = .next t ∧ pushed t (pushList x i.sel ++ [link]) ∧ kpPc t k = ea &&& 0xFFFFFFFC ∧
          OnlyRegs [Reg.KP_PC k] s t) ∧
      (room (pushList x i.sel ++ [link]) → kpOwner s k = true → 0x400 ≤ ea.toNat → ea.toNat ≤ 0x4FF →
        let goal := BitVec.ofNat 32 (s.readLE (w + ea.toNat / 4 * 4) 4)
        (0x40000 ≤ goal.toNat → turned (.call k ups)) ∧
        (goal.toNat < 0x40000 → ∃ t, exec (.call k ups) s0 = .next t ∧ pushed t (pushList x i.sel ++ [link]) ∧
          kpPc t k = goal &&& 0xFFFFFFFC ∧ kpOwner t k = false ∧ OnlyRegs [Reg.KP_PC k, Reg.KP_STAT k] s t))) ∧
    (i.op = 0x66 → room (pushList x i.sel) → ∃ t, exec (.pushm k ups) s0 = .next t ∧ pushed t (pushList x i.sel) ∧
      kpPc t k = kpNext s k ∧ OnlyRegs [Reg.KP_PC k] s t) ∧
    (i.op = 0x66 → i.sel = 1 → pushAllowed s k (x.sp - 4) = false →
      (∀ f rest, kpLevel s k = 2 ∨ kpLevel s k = 3 → x.frames = f :: rest → f.level < 4 → f.vec < 256 →
        ∃ t, exec (.pushm k ups) s0 = .next t ∧ (keeper t k).a = f.a ∧ (keeper t k).sp = f.sp ∧ (keeper t k).frames = rest ∧
          kpPc t k = f.pc &&& ~~~3#32 ∧ kpLevel t k = f.level ∧ Raised s t [(1004 + k.val, payCause 3)] ∧ t.mem = s.mem) ∧
      (kpLevel s k = 1 → ∃ t, exec (.pushm k ups) s0 = .next t ∧ kpRun t k = false ∧ Raised s t [(1004 + k.val, payCause 3)] ∧
        t.mem = s.mem)) ∧
    (i.op = 0x67 → inside (4 * (popList i.sel).length) → ∃ t, exec (.popm k ups) s0 = .next t ∧ holds 0 (popList i.sel) t ∧
      kpPc t k = kpNext s k ∧ OnlyRegs [Reg.KP_PC k] s t) ∧
    (i.op = 0x63 →
      let v := s.readLE (w + x.sp.toNat) 4
      let l := popList (v / 2 ^ 24 % 16)
      inside (4 + 4 * l.length) → ∃ t, exec (.ret k ups) s0 = .next t ∧ holds 4 l t ∧
        kpPc t k = BitVec.ofNat 32 (v % 2 ^ 18 / 4 * 4) ∧ kpOwner t k = (kpOwner s k || v.testBit 31) ∧
        OnlyRegs [Reg.KP_PC k, Reg.KP_STAT k] s t) ∧
    (∀ f rest, i.op = 0x64 → kpLevel s k ≠ 1 → x.frames = f :: rest →
      (nextEvent s k f.level = none → f.level < 4 → f.vec < 256 →
        ∃ t, exec (.reti k ups) s0 = .next t ∧ kpPc t k = f.pc &&& ~~~3#32 ∧ kpOwner t k = f.owner ∧ kpLevel t k = f.level ∧
          t.fld (Reg.KP_STAT k) F.KP_STAT_VEC = f.vec ∧ 
          keeper t k = { x with a := f.a, x := f.x, y := f.y, f := f.f, sp := f.sp, frames := rest, long := false, todo := f.todo } ∧
          OnlyRegs [Reg.KP_PC k, Reg.KP_STAT k] s t) ∧
      (∀ y, nextEvent s k f.level = some y → ∃ t, exec (.reti k ups) s0 = .next t ∧ (keeper t k).frames = x.frames ∧
        (keeper t k).a = s.reg (Reg.EH_PAY y) ∧ t.fld (Reg.EH_PEND y) F.EH_PEND_KPEND = 0 ∧
        t.fld (Reg.KP_DISPATCH k) F.KP_DISPATCH_COUNT = min (s.fld (Reg.KP_DISPATCH k) F.KP_DISPATCH_COUNT + 1) (2 ^ 32 - 1))) ∧
    (i.op = 0x65 → kpLevel s k = 1 → ∃ t, exec (.wait k ups) s0 = .next t ∧ t.fld (Reg.KP_STAT k) F.KP_STAT_WAITING = 1 ∧
      kpPc t k = kpNext s k ∧ t.kp = s.kp ∧ OnlyRegs [Reg.KP_PC k, Reg.KP_STAT k] s t)

/-- O46. A whole image given while a role serves, before the device runs or while the abutment die is away, is not
taken; one that a check of R348 rejects writes nothing but PL_LOAD_STAT and raises PL_LOAD with the code; one that
passes is placed, stands in the image store, and sets code 0, and in NO_IMAGE boot goes on from MEMORY. A partial
image is rejected the same way; one that passes is staged for the target role on the standby pair: the change stands
in PRIMING, with SBY at PRIMING, where the standby region seals, and in STAGED where it does not. At boot, an image
is chosen only in MEMORY, from a good slot, or boot ends in NO_IMAGE. (R348, R349, R350, R351, R354, R359, R361,
R366, R367, R378) -/
def Obligations.ImageLoadCommandsComplete : Prop :=
  let rejected (c : Instr) (f : Nat × Nat) (s : State) : Prop := ∃ t, exec c s = .next t ∧
    t.fld Reg.PL_LOAD_STAT F.PL_LOAD_STAT_CODE = f.1 % 256 ∧ t.fld Reg.PL_LOAD_STAT F.PL_LOAD_STAT_SECTION = f.2 % 256 ∧
    OnlyRegs [Reg.PL_LOAD_STAT] s t ∧ t = { s with regs := t.regs, raises := t.raises } ∧ Raised s t [(986, payCause f.1)]
  (∀ (bs : List Byte) (s : State),
    let busy := ∃ l, l < 16 ∧ (roleState s l = 1 ∨ roleState s l = 3)
    (s.ab.up = false ∨ busy ∨ bootState s ≠ 5 ∧ bootState s ≠ 6 → exec (.wholeImageLoad (some bs)) s = .next s) ∧
    (s.ab.up = true → ¬busy → bootState s = 5 ∨ bootState s = 6 →
      (∀ f, wholeFault s bs = some f → rejected (.wholeImageLoad (some bs)) f s) ∧
      (headerFormed 0x314C5255 [1, 2] bs = false → wholeFault s bs = some (1, 255)) ∧
      (wholeFault s bs = none → ∃ t, exec (.wholeImageLoad (some bs)) s = .next t ∧
        t.pl.image = some (parseImage s bs) ∧ t.fld Reg.PL_LOAD_STAT F.PL_LOAD_STAT_CODE = 0))) ∧
  (∀ s : State,
    (bootState s ≠ 3 ∨ s.pl.image ≠ none → exec (.wholeImageLoad none) s = .next s) ∧
    let slot := (bootSlot (chooseRotation s) 2 (fun s bs => (wholeFault s bs).isNone)).1
    (∀ i, bootState s = 3 → s.pl.image = none → slot = some i → ∃ t, exec (.wholeImageLoad none) s = .next t ∧
      t.fld Reg.ABT_STAT F.ABT_STAT_ISLOT = i - 2 ∧ t.fld Reg.PL_LOAD_STAT F.PL_LOAD_STAT_CODE = 0) ∧
    (bootState s = 3 → s.pl.image = none → slot = none →
      ∃ t, exec (.wholeImageLoad none) s = .next t ∧ bootState t = 6 ∧ t.pl = s.pl ∧
        ∀ e : Fin 8, t.fld (Reg.LP_STAT e) F.LP_STAT_FALLBACK = 1)) ∧
  ∀ (bs : List Byte) (s : State),
    (s.ab.up = false → exec (.partialImageLoad bs) s = .next s) ∧
    (s.ab.up = true → ∀ f, partialFault s bs = .inl f → rejected (.partialImageLoad bs) f s) ∧
    (sby s ≠ 1 ∨ (∃ n, standby s = some n ∧ s.fld (Reg.ARR_STAT n) F.ARR_STAT_FLAGGED = 1) → ∃ f, partialFault s bs = .inl f) ∧
    ∀ bank old new, s.ab.up = true → partialFault s bs = .inr bank → pairOf s (parseImage s bs).target = some old → standby s = some new →
      ∃ t, exec (.partialImageLoad bs) s = .next t ∧
        t.pl.change = some ⟨parseImage s bs, Fin.ofNat 16 (parseImage s bs).target, old, new, bank, 0, false⟩ ∧
        (rgState t new = 2 → t.fld Reg.PL_CHANGE F.PL_CHANGE_STATE = 2 ∧ sby t = 3) ∧
        (rgState t new ≠ 2 → t.fld Reg.PL_CHANGE F.PL_CHANGE_STATE = 1 ∧ sby t = 2) ∧
        t.fld Reg.PL_CHANGE F.PL_CHANGE_ROLE = (Fin.ofNat 16 (parseImage s bs).target).val ∧ plState t = 2 ∧
        plUse t new = 3 ∧ t.fld Reg.PL_LOAD_STAT F.PL_LOAD_STAT_CODE = 0

/-- O47. A change becomes READY once the standby span has processed HIST lines, and goes on at once for a pair under
test or an update; GO of a READY change sets the switch line to the line after the newest one that the old span has
line-synced onto, mutes the old merger from it and the new one below it, and has no effect in other states; the
switch, once the new span has reached that line and the old one has sent what lies below and no operation is in
progress on either, gives the role and its tags to the new pair and makes the old pair the standby; an abort before
that returns the standby pair to READY and leaves the role where it was. (R17, R293, R356, R359, R360, R361, R366)
-/
def Obligations.PlannedChangeCommandsComplete : Prop :=
  (∀ s : State, s.pl.change = none → exec .changeReady s = .next s ∧ exec .changeGo s = .next s ∧
    exec .changeSwitch s = .next s ∧ exec .changeAbort s = .next s) ∧
  ∀ (c : Change) (s : State), s.pl.change = some c →
    let a := Reg.PL_CHANGE
    let st := s.fld a F.PL_CHANGE_STATE
    let hist := s.fld (Reg.PL_ROLE c.role) F.PL_ROLE_HIST
    (st ≠ 2 ∨ (s.ctl c.new).syncs < hist + 1 → exec .changeReady s = .next s) ∧
    let atOnce := s.pl.test ≠ none ∨ ∃ u, s.up.current = some u ∧ c.role.val ∈ u.left
    (st = 2 → hist + 1 ≤ (s.ctl c.new).syncs → atOnce → ∃ t, exec .changeReady s = .next t ∧
      t.fld a F.PL_CHANGE_STATE = 3 ∧ (c.going = false → t.pl.change = some { c with going := true }) ∧
      Raised s t [(985, payCause 2 c.role.val)]) ∧
    (st = 2 → hist + 1 ≤ (s.ctl c.new).syncs → ¬atOnce →
      ∃ t, exec .changeReady s = .next t ∧ t.fld a F.PL_CHANGE_STATE = 3 ∧ OnlyRegs [a] s t ∧
        Raised s t [(985, payCause 2 c.role.val)] ∧ t = { s with regs := t.regs, raises := t.raises }) ∧
    (st ≠ 3 → exec .changeGo s = .next s) ∧
    (st = 3 → c.going = false → ∃ t line, exec .changeGo s = .next t ∧ t.reg64 Reg.PL_SWITCH_LO Reg.PL_SWITCH_HI = line ∧
      (∀ l, (s.ctl (lead s c.old)).served = some l → line = l.index + 1) ∧
      t.pl.change = some { c with going := true } ∧ (c.old, true, line) ∈ t.muted ∧ (c.new, false, line) ∈ t.muted ∧
      OnlyRegs [Reg.PL_SWITCH_LO, Reg.PL_SWITCH_HI, a] s t) ∧
    (let line := s.reg64 Reg.PL_SWITCH_LO Reg.PL_SWITCH_HI
     let reached := ∃ l, (s.ctl (lead s c.new)).served = some l ∧ line.toNat ≤ l.index.toNat
     let below := (∃ e ∈ (s.ext c.old).sets, e.ord = none ∧ e.line.toNat < line.toNat) ∨ (s.ext c.old).out ≠ [] ∨
       (s.ext c.old).sent ≠ [] ∨ wordsUnderWay s c.old ≠ []
     let idle := (s.micro (lead s c.old)).op = none ∧ (s.micro (lead s c.new)).op = none
     (c.going = false ∨ ¬reached ∨ below ∨ ¬idle → exec .changeSwitch s = .next s) ∧
     (c.going = true → reached → ¬below → idle → c.old ≠ c.new → c.bank < 4 → s.pl.test = none → s.up.current = none →
       c.image.kind ≠ 2 ∨ allRegs c.image = [] →
       ∃ t, exec .changeSwitch s = .next t ∧ t.pl.change = none ∧ t.fld a F.PL_CHANGE_STATE = 4 ∧ plState t = 1 ∧
         pairOf t c.role = some c.new ∧ t.fld (Reg.PL_ROLE c.role) F.PL_ROLE_BANK = c.bank ∧ standby t = some c.old ∧
         t.roleOf c.new = c.role.val ∧ t.roleOf c.old = 16 ∧ plUse t c.new = 1 ∧ plUse t c.old = 2 ∧
         epTag t c.new = BitVec.ofNat 16 (0x1000 + c.role.val) ∧ epTag t (17 + c.new.val) = BitVec.ofNat 16 (0x1100 + c.role.val) ∧
         epTag t c.old = 0x1010 ∧ epTag t (17 + c.old.val) = 0x1110)) ∧
    ∃ t, exec .changeAbort s = .next t ∧ t.pl.change = none ∧ t.pl.test = none ∧ t.fld a F.PL_CHANGE_STATE = 5 ∧
      plState t = 1 ∧ sby t = 1 ∧ standby t = some c.new ∧ plUse t c.new = 2 ∧
      t.reg (Reg.PL_ROLE c.role) = s.reg (Reg.PL_ROLE c.role) ∧ ∃ l, Raised s t (l ++ [(985, payCause 4 c.role.val)])

/-- O48. A takeover of a role alone on its pair, with the standby READY, flags the pair and counts the fault, makes
SBY BUSY and the role TAKING_OVER, and gives the standby pair the role's settings; without a READY standby that is
not flagged the role stops with RESULT and STATE STOPPED; a planned change is aborted first, and the role stops
where its program was in the change's bank; it has no effect during a takeover. The regions run once the restores
are done, and a failed restore ends in STOPPED; copies go on from the next line; every role of the takeover moves at
the line sync beyond the checkpoint's line, between two operations, with the switch line, the age and the tags; the
end reads DONE and leaves no standby. With AUTO_RESUME and the standby READY, the lowest STOPPED role is taken over
again. (R361, R362, R363, R365, R366, R459) -/
def Obligations.TakeoverCommandsComplete : Prop :=
  (∀ (role : Fin 32) (s : State), plState s = 3 ∨ 16 ≤ role.val ∨ pairOf s role = none →
    exec (.takeoverGo role) s = .next (s.setFld Reg.PL_TAKE F.PL_TAKE_ROLE role.val)) ∧
  (∀ (l : Nat) (hl : l < 16) (pa : Fin 17) (s : State), plState s ≠ 3 → pairOf s l = some pa → domSize s l = 1 →
    s.fld (Reg.PL_ROLE l) F.PL_ROLE_POS = 0 → s.pl.change = none →
    let taken (t : State) (sb : Fin 17) : Prop := plState t = 3 ∧ sby t = 4 ∧ plUse t pa = 5 ∧ roleState t l = 3 ∧
      t.fld (Reg.PL_PHYS pa) F.PL_PHYS_FAULTS = min (s.fld (Reg.PL_PHYS pa) F.PL_PHYS_FAULTS + 1) 255 ∧
      t.fld Reg.PL_TAKE F.PL_TAKE_RESULT = 1 ∧ t.fld Reg.PL_TAKE F.PL_TAKE_GO = 1 ∧
      t.reg (Reg.SPC_ENTRY sb) = s.reg (Reg.SPC_ENTRY pa) ∧ t.reg (Reg.HR_BASE_LO sb) = s.reg (Reg.HR_BASE_LO pa) ∧
      t.reg (Reg.HR_BASE_HI sb) = s.reg (Reg.HR_BASE_HI pa) ∧ Raised s t [(984, payCause 1 l)] ∧
      ∃ k x, t.pl.take = some k ∧ k.role = l ∧ k.failed = pa ∧ k.start = s.now ∧ k.ready = false ∧ k.switched = false ∧
        k.line = s.reg64 (Reg.CKPT_LINE_LO pa) (Reg.CKPT_LINE_HI pa) ∧ k.shifts = [x] ∧ x.role = l ∧ x.old = pa ∧ x.new = sb ∧
        x.next.toNat = (k.line.toNat + 1 - min (k.line.toNat + 1) (s.fld (Reg.PL_ROLE l) F.PL_ROLE_HIST)) % 2 ^ 64
    let stopped (t : State) : Prop := roleState t l = 2 ∧ t.fld Reg.PL_TAKE F.PL_TAKE_RESULT = 3 ∧ plState t = 1 ∧
      Raised s t [(984, payCause 3 l)] ∧ t.fld Reg.PL_LAST F.PL_LAST_ROLE = l
    let free (sb : Fin 17) : Prop := sby s = 1 ∧ standby s = some sb ∧ s.fld (Reg.ARR_STAT sb) F.ARR_STAT_FLAGGED = 0
    (∀ sb, free sb → ∃ t, exec (.takeoverGo ⟨l, by omega⟩) s = .next t ∧ taken t sb) ∧
    ((∀ sb, ¬free sb) → ∃ t, exec (.takeoverGo ⟨l, by omega⟩) s = .next t ∧ stopped t) ∧
    ((∀ r, r < l → roleState s r ≠ 2) → roleState s l = 2 →
      (∀ sb, s.fld Reg.FH_CTL F.FH_CTL_AUTO_RESUME = 1 → free sb → ∃ t, exec .autoResume s = .next t ∧ taken t sb) ∧
      (s.fld Reg.FH_CTL F.FH_CTL_AUTO_RESUME = 0 ∨ (∀ sb, ¬free sb) → exec .autoResume s = .next s))) ∧
  (∀ (l : Nat) (hl : l < 16) (pa : Fin 17) (c : Change) (s : State), plState s ≠ 3 → pairOf s l = some pa → domSize s l = 1 →
    s.fld (Reg.PL_ROLE l) F.PL_ROLE_POS = 0 → s.pl.change = some c →
    s.fld (Reg.ARR_STAT c.new) F.ARR_STAT_FLAGGED = 0 →
    ∃ t, exec (.takeoverGo ⟨l, by omega⟩) s = .next t ∧ t.pl.change = none ∧ t.fld Reg.PL_CHANGE F.PL_CHANGE_STATE = 5 ∧
      (c.bank = s.fld (Reg.PL_ROLE l) F.PL_ROLE_BANK → plState t = 1 ∧ roleState t l = 2) ∧
      (c.bank ≠ s.fld (Reg.PL_ROLE l) F.PL_ROLE_BANK → plState t = 3 ∧ roleState t l = 3 ∧
        ∃ k, t.pl.take = some k ∧ k.role = l ∧ k.failed = pa)) ∧
  (∀ s : State, (∀ l, l < 16 → roleState s l ≠ 2) → exec .autoResume s = .next s) ∧
  (∀ s : State, s.pl.take = none → exec .takeoverRestored s = .next s ∧ exec .takeoverCopy s = .next s ∧
    exec .takeoverSwitch s = .next s ∧ exec .takeoverDone s = .next s) ∧
  ∀ (k : Takeover) (x : Shift) (rest : List Shift) (s : State), s.pl.take = some k → k.shifts = x :: rest →
    (∀ y ∈ k.shifts, y.role < 16) →
    let ended (t : State) (result cause : Nat) : Prop := t.pl.take = none ∧ plState t = 1 ∧
      t.fld Reg.PL_TAKE F.PL_TAKE_RESULT = result ∧ t.fld Reg.PL_TAKE F.PL_TAKE_GO = 0 ∧
      ∃ l, Raised s t (l ++ [(984, payCause cause k.role)])
    let restoring := ∃ y ∈ k.shifts, s.fld (Reg.CKPT_REST y.new) F.CKPT_REST_GO = 1
    let failed := ∃ y ∈ k.shifts, s.fld (Reg.CKPT_REST y.new) F.CKPT_REST_FAIL = 1
    (k.ready = true ∨ restoring → exec .takeoverRestored s = .next s) ∧
    (k.ready = false → ¬restoring →
      (failed → ∃ t, exec .takeoverRestored s = .next t ∧ ended t 3 3) ∧
      (¬failed → ∃ t, exec .takeoverRestored s = .next t ∧ t.pl.take = some { k with ready := true })) ∧
    (k.ready = false → exec .takeoverCopy s = .next s) ∧
    (k.ready = true → rest = [] → spcState s x.new ≠ 3 → x.done = false → s.fld (Reg.RP_STAT x.new) F.RP_STAT_BUSY = 0 →
      (headOfRole s x.role = none → ∃ t, exec .takeoverCopy s = .next t ∧
        t.pl.take = some { k with shifts := [{ x with done := true }] } ∧ t.regs = s.regs) ∧
      (headOfRole s x.role ≠ none →
        let live := x.live.or (firstLive s x.new)
        let n := copyCount s x.old live 8 x.next
        ((∃ i, live = some i ∧ i.toNat ≤ x.next.toNat) → ∃ t, exec .takeoverCopy s = .next t ∧
          t.pl.take = some { k with shifts := [{ x with live := live, done := true }] } ∧ t.regs = s.regs) ∧
        ((∀ i, live = some i → x.next.toNat < i.toNat) → 0 < n → ∃ t, exec .takeoverCopy s = .next t ∧
          t.reg64 (Reg.RP_LINE_LO x.new) (Reg.RP_LINE_HI x.new) = x.next ∧
          t.pl.take = some { k with shifts := [{ x with live := live, next := x.next + BitVec.ofNat 64 n }] }))) ∧
    (let synced := ∃ l, (s.ctl (lead s x.new)).served = some l ∧ k.line.toNat < l.index.toNat
     let idle := ∀ y ∈ k.shifts, (s.micro (lead s y.old)).op = none ∧ (s.micro (lead s y.new)).op = none
     (k.switched = true ∨ k.ready = false ∨ ¬synced ∨ ¬idle → exec .takeoverSwitch s = .next s) ∧
     (k.switched = false → k.ready = true → synced → idle → (∀ y ∈ k.shifts, k.failed ≠ y.new) →
       (k.shifts.map (·.role)).Nodup → (k.shifts.map (·.new)).Nodup →
       ∃ t, exec .takeoverSwitch s = .next t ∧
         (∀ y ∈ k.shifts, pairOf t y.role = some y.new ∧ t.roleOf y.new = y.role ∧ plUse t y.new = 1 ∧
           epTag t y.new = BitVec.ofNat 16 (0x1000 + y.role) ∧ epTag t (17 + y.new.val) = BitVec.ofNat 16 (0x1100 + y.role)) ∧
         t.roleOf k.failed = 31 ∧ epTag t k.failed = 0 ∧ standby t = none ∧
         t.reg64 Reg.PL_SWITCH_LO Reg.PL_SWITCH_HI = k.line + 1 ∧
         t.fld Reg.PL_LAST F.PL_LAST_AGE = min 255 (k.stop.toNat - k.line.toNat) ∧
         t.pl.take = some { k with switched := true } ∧ t.raises = s.raises)) ∧
    (k.switched = false ∨ (∃ y ∈ k.shifts, y.done = false) → exec .takeoverDone s = .next s) ∧
    (k.switched = true → (∀ y ∈ k.shifts, y.done = true) → ∃ t, exec .takeoverDone s = .next t ∧ ended t 2 2 ∧
      (∀ y ∈ k.shifts, roleState t y.role = 1) ∧ sby t = 0 ∧ (epState s k.failed = 0 → epState t k.failed = 1) ∧
      t.pl.reports = s.pl.reports ++ [(k.role, min 255 (k.stop.toNat - k.line.toNat))])

/-- O49. A test of an idle, standby or flagged pair with a READY standby runs: STATE TEST, USE TEST and RESULT
RUNNING; that of a duty pair first stages its role onto the standby; without a READY standby it reads REFUSED; at
its end a pass makes the pair the READY standby, unless its span is flagged, and a fail marks it FLAGGED, with
PL_TEST raised. (R55, R357, R366, R367) -/
def Obligations.PairTestCommandsComplete : Prop :=
  (∀ (n : Fin 17) (s : State), s.fld Reg.PL_TEST F.PL_TEST_GO = 0 →
    (sby s = 1 → plState s = 1 → plUse s n = 0 ∨ plUse s n = 2 ∨ plUse s n = 5 →
      ∃ t, exec (.pairTest n) s = .next t ∧ plState t = 4 ∧ plUse t n = 4 ∧ t.pl.test = some n ∧
        t.fld Reg.PL_TEST F.PL_TEST_RESULT = 1 ∧ t.fld Reg.PL_TEST F.PL_TEST_PHYS = n.val ∧
        (standby s = some n → sby t = 4)) ∧
    (∀ sb region g, sby s = 1 → plState s = 1 → plUse s n = 1 → domSize s (s.roleOf n) = 1 → standby s = some sb →
      s.fld (Reg.ARR_STAT sb) F.ARR_STAT_FLAGGED = 0 → storedRegion s (s.roleOf n) = some region → s.pl.image = some g →
      ∃ t c, exec (.pairTest n) s = .next t ∧ t.pl.test = some n ∧ t.pl.change = some c ∧ c.role.val = s.roleOf n % 16 ∧
        c.old = n ∧ c.new = sb ∧ t.fld Reg.PL_TEST F.PL_TEST_RESULT = 1 ∧ plState t = 2 ∧ plUse t sb = 3) ∧
    (sby s ≠ 1 ∨ plState s ≠ 1 ∨ plUse s n = 6 → ∃ t, exec (.pairTest n) s = .next t ∧ t.fld Reg.PL_TEST F.PL_TEST_RESULT = 4 ∧
      t.fld Reg.PL_TEST F.PL_TEST_PHYS = n.val ∧ OnlyRegs [Reg.PL_TEST] s t ∧ t = { s with regs := t.regs })) ∧
  ∀ (n : Fin 17) (s : State), s.pl.test = some n → plUse s n = 4 →
    (s.fld (Reg.ARR_STAT n) F.ARR_STAT_FLAGGED = 1 → ∃ t l, exec (.pairTestDone true) s = .next t ∧
      t.fld Reg.PL_TEST F.PL_TEST_RESULT = 2 ∧ plUse t n = 5 ∧ t.roleOf n = 31 ∧ Raised s t ((987, payCause 1) :: l)) ∧
    (s.fld (Reg.ARR_STAT n) F.ARR_STAT_FLAGGED = 0 → ∃ t l, exec (.pairTestDone true) s = .next t ∧ t.fld Reg.PL_TEST F.PL_TEST_RESULT = 2 ∧ sby t = 1 ∧
      standby t = some n ∧ plUse t n = 2 ∧ t.roleOf n = 16 ∧ plState t = 1 ∧ t.pl.test = none ∧
      Raised s t ((987, payCause 1) :: l)) ∧
    ∃ t l, exec (.pairTestDone false) s = .next t ∧ t.fld Reg.PL_TEST F.PL_TEST_RESULT = 3 ∧ plUse t n = 5 ∧
      t.roleOf n = 31 ∧ plState t = 1 ∧ t.pl.test = none ∧ (standby s = some n → sby t = 0) ∧
      Raised s t ((987, payCause 2) :: l)

/-- O50. ROM_DONE with a failing rail, or with no firmware slot to boot, ends in HALT, and otherwise the firmware
runs; with the link up, DECK follows, every island that is not retired idles at 700 mV, and the channels of the
board record train, or NO_IMAGE where the record is not good; once every region has sealed the roles serve and HEADS
or RUNNING follows; a group starts once due, and RUNNING follows the last; the watchdog takes the abutment die away,
ends sessions and debug, counts and drains endpoint 77; its return runs a good slot, or halts; retries while the
link is up, its loss and its return after boot show in UCIE_STAT and at endpoint 77, which drains for 32 cycles
while the link is away, and the flits that waited move again. Out of their states the commands have no effect.
(R378, R380, R381, R382, R395, R398, R399, R403, R404, R478, R483) -/
def Obligations.BootCommandsComplete : Prop :=
  (∀ (rail : Fin 9) (s : State),
    let off := s.pk.inReset = true ∨ s.ab.halt = true ∨ s.ab.up = true ∨ bootState s ≠ 0
    (off → exec (.romDone rail) s = .next s) ∧
    (¬off → rail.val ≠ 0 → ∃ t, exec (.romDone rail) s = .next t ∧ t.ab.halt = true ∧
      t.fld Reg.DC_RSTCAUSE F.DC_RSTCAUSE_RAIL = rail.val ∧ bootState t = 0 ∧ OnlyRegs [Reg.DC_RSTCAUSE, Reg.DC_CLKSTAT] s t) ∧
    (¬off → rail.val = 0 →
      let slot := (bootSlot s 0 firmwareGood).1
      ((∀ i, i < 2 → slotMark s i ≠ 1 ∧ slotMark s i ≠ 2 ∧ slotMark s i ≠ 3) → slot = none) ∧
      (slot = none → ∃ t, exec (.romDone rail) s = .next t ∧ t.ab.halt = true ∧ t.ab.up = false) ∧
      ∀ i, slot = some i → ∃ t, exec (.romDone rail) s = .next t ∧ t.ab.up = true ∧ bootState t = 1 ∧ t.ab.halt = false ∧
        t.fld Reg.ABT_STAT F.ABT_STAT_FSLOT = i ∧ t.fld Reg.DC_CLKSTAT F.DC_CLKSTAT_ROOT_LOCK = 1)) ∧
  (∀ (x8 : Bool) (s : State),
    (bootState s ≠ 1 ∨ s.ab.halt = true → exec (.firmwareLinkUp x8) s = .next s) ∧
    (bootState s = 1 → s.ab.halt = false → ∃ t, exec (.firmwareLinkUp x8) s = .next t ∧
      t.fld Reg.UCIE_STAT F.UCIE_STAT_STATE = 2 ∧ t.fld Reg.UCIE_STAT F.UCIE_STAT_WIDTH = x8.toNat ∧
      (∀ n, n < 17 → plUse t n ≠ 6 → islandState t n = 1 ∧ islandTarget t n = 700) ∧
      (boardGood s = true → bootState t = 2 ∧
        ∀ c, c < recNat s.ab.board 9 1 → c < 8 → t.fld (Reg.D5_STAT c) F.D5_STAT_STATE = 1) ∧
      (boardGood s = false → bootState t = 6))) ∧
  (∀ s : State,
    let sealed := ∀ l m, l < 16 → pairOf s l = some m → storedRegion s l ≠ none → rgState s m = 2
    let started := ∀ g : Fin 8, tgHeads s g ≠ [] → tgState s g ≠ 0
    (bootState s ≠ 3 ∨ s.pl.image = none ∨ ¬sealed → exec .memorySealed s = .next s) ∧
    (bootState s = 3 → s.pl.image ≠ none → sealed → ∃ t, exec .memorySealed s = .next t ∧
      t.ab.headsAt = s.now ∧ (∀ l, l < 16 → pairOf s l ≠ none → roleState t l = 1) ∧
      (started → bootState t = 5) ∧ (¬started → bootState t = 4))) ∧
  (∀ (g : Fin 8) (s : State),
    let due := (∀ h ∈ tgHeads s g, hpState s h = 7) ∨ s.ab.headsAt.toNat + 2000000000 ≤ s.now.toNat
    let others := ∀ k : Fin 8, k ≠ g → tgHeads s k ≠ [] → tgState s k ≠ 0
    (bootState s ≠ 4 ∨ tgHeads s g = [] ∨ ¬due → exec (.groupStart g) s = .next s) ∧
    (bootState s = 4 → tgHeads s g ≠ [] → due → tgState s g = 0 →
      ∃ t, exec (.groupStart g) s = .next t ∧ tgState t g = 1 ∧ (others → bootState t = 5) ∧ (¬others → bootState t = 4))) ∧
  (∀ s : State,
    (s.ab.up = false → exec .abutmentWatchdog s = .next s) ∧
    (s.ab.up = true → s.up.leases = [] → ∃ t, exec .abutmentWatchdog s = .next t ∧ t.ab.up = false ∧ t.ab.challenge = none ∧
      t.ab.scopes = 0 ∧ t.pk.flashReset = some s.now ∧ (t.cw.ucie[1]).worms = [] ∧ (∀ p ∈ t.cw.unsent, p.src ≠ 77) ∧ (∀ k, session t k = none) ∧ t.ab.quotes = [] ∧ t.ab.meas = s.ab.meas ∧
      t.fld Reg.ABT_STAT F.ABT_STAT_RESTARTS = min (s.fld Reg.ABT_STAT F.ABT_STAT_RESTARTS + 1) 15 ∧
      (epState s 77 = 0 → epState t 77 = 1))) ∧
  (∀ s : State,
    let r := bootSlot s 0 firmwareGood
    let off := s.ab.up = true ∨ bootState s = 0 ∨ s.ab.halt = true
    (off → exec .abutRestart s = .next s) ∧
    (¬off → r.1 = none → ∃ t, exec .abutRestart s = .next t ∧ t.ab.halt = true ∧ t.ab.up = false) ∧
    (∀ i, ¬off → r.1 = some i → ∃ t l, exec .abutRestart s = .next t ∧ t.ab.up = true ∧
      t.fld Reg.ABT_STAT F.ABT_STAT_FSLOT = i ∧ Raised s t (l ++ [(992, payCause 5)]) ∧
      (epState s 77 = 2 → s.fld Reg.UCIE_STAT F.UCIE_STAT_STATE = 2 → epState t 77 = 0))) ∧
  (∀ s : State,
    let u := Reg.UCIE_STAT
    let counted (t : State) : Prop := t.fld Reg.UCIE_RETRY F.UCIE_RETRY_COUNT =
      min (s.fld Reg.UCIE_RETRY F.UCIE_RETRY_COUNT + 1) (2 ^ 32 - 1)
    (∀ fourth, s.fld u F.UCIE_STAT_STATE ≠ 2 → exec (.ucieRetry fourth) s = .next s) ∧
    (s.fld u F.UCIE_STAT_STATE = 2 → ∃ t, exec (.ucieRetry false) s = .next t ∧ counted t ∧ OnlyRegs [Reg.UCIE_RETRY] s t ∧
      t = { s with regs := t.regs }) ∧
    (s.fld u F.UCIE_STAT_STATE = 2 → ∃ t, exec (.ucieRetry true) s = .next t ∧ counted t ∧ t.fld u F.UCIE_STAT_STATE = 1 ∧
      t.fld u F.UCIE_STAT_RETRAINS = min (s.fld u F.UCIE_STAT_RETRAINS + 1) 255 ∧ OnlyRegs [Reg.UCIE_RETRY, u] s t) ∧
    ((∃ t, s.ab.linkLost = some t ∧ s.now.toNat < t.toNat + 10000000) → exec .ucieDown s = .next s) ∧
    ((∀ t, s.ab.linkLost = some t → t.toNat + 10000000 ≤ s.now.toNat) → ∃ t, exec .ucieDown s = .next t ∧
      t.fld u F.UCIE_STAT_STATE = 0 ∧ drainLimit t 77 = 32 ∧ (epState s 77 = 0 → epState t 77 = 1)) ∧
    (∀ x8, s.fld u F.UCIE_STAT_STATE = 2 ∨ bootState s < 2 → exec (.ucieLinkUp x8) s = .next s) ∧
    (∀ x8, s.fld u F.UCIE_STAT_STATE ≠ 2 → 2 ≤ bootState s → ∃ t l m, exec (.ucieLinkUp x8) s = .next t ∧ t.fld u F.UCIE_STAT_STATE = 2 ∧
      (t.cw.ucie[0]).worms = [] ∧ (t.cw.ucie[1]).worms = [] ∧ t.ab.linkLost = none ∧
      t.fld u F.UCIE_STAT_WIDTH = x8.toNat ∧ (s.ab.up = true → epState s 77 = 2 → epState t 77 = 0) ∧
      Raised s t (l ++ (996, payCause 1) ::
        (if x8 = true ∧ s.fld u F.UCIE_STAT_WIDTH = 0 then [(996, payCause 2)] else []) ++ m)) ∧
    (bootState s = 1 → ∃ t, exec .ucieTrainingFailure s = .next t ∧ t.ab.halt = true ∧ t.regs = s.regs) ∧
    (bootState s ≠ 1 → exec .ucieTrainingFailure s = .next s))

/-- O51. The channels with a request take turns from the one after the channel served last. A request whose turn it
is and whose length is out of range is answered BAD_LEN; VERSION, IDENT, RANDOM and NOTIFY are answered with the
bodies of R401, NOTIFY DENIED on channels 4 to 7; a quote waits for the signature engine, or is answered LOCKED; the
engine signs the oldest; MB_DONE writes the answer to the response buffer, shows its STATUS, clears GO, sets DONE
and raises MB_DONE, and answers an unknown operation BAD_OP; debug closes once its duration has expired. (R385,
R390, R394, R395, R401, R402, R403) -/
def Obligations.MailboxCommandsComplete : Prop :=
  (∀ (c : Fin 8) (op : Nat) (s : State), mbWaits s c op = true →
    let answered (i : Instr) (status : Nat) (body : List Byte) : Prop := ∃ t, exec i s = .next t ∧
      t.ab.answers[c] = some (leBytes 1 (op + 0x80) ++ leBytes 1 status ++ leBytes 2 body.length ++ leBytes 4 (mbTag s c) ++ body) ∧
      t = { s with ab := t.ab, freeCtr := t.freeCtr } ∧ t.ab = { s.ab with answers := t.ab.answers, notes := t.ab.notes, turn := c }
    let len := mbLen s c
    (op = 1 → (len = 0 → answered (.version c) 0 (leBytes 4 (s.reg Reg.ABT_VER).toNat ++ leBytes 4 (s.reg Reg.ABT_SVN).toNat ++
        leBytes 4 s.ab.bootId.toNat)) ∧ (len ≠ 0 → answered (.version c) 2 [])) ∧
    (op = 2 → (len = 0 → answered (.ident c) 0 (fitBytes 240 Config.deviceCert)) ∧ (len ≠ 0 → answered (.ident c) 2 [])) ∧
    (op = 3 → (len ≠ 48 → answered (.mbQuote c) 2 []) ∧ (len = 48 → locked s = true → answered (.mbQuote c) 4 []) ∧
      (len = 48 → locked s = false → ∃ t, exec (.mbQuote c) s = .next t ∧
        t.ab.quotes = s.ab.quotes ++ [⟨c, BitVec.ofNat 32 (mbTag s c), s.readBytes (Win.mbReq c + 8) 48⟩] ∧
        t = { s with ab := t.ab } ∧ t.ab.answers = s.ab.answers ∧ t.ab.turn = c)) ∧
    (op = 4 → len = 1 →
      let n := s.readLE (Win.mbReq c + 8) 1
      (1 ≤ n → n ≤ 64 → ∃ b, b.length = n ∧ answered (.random c) 0 b) ∧ (n = 0 ∨ 64 < n → answered (.random c) 2 [])) ∧
    (op = 4 → len ≠ 1 → answered (.random c) 2 []) ∧
    (op = 5 → 1 ≤ len → len ≤ 64 → (4 ≤ c.val → answered (.notify c) 3 []) ∧
      (c.val < 4 → answered (.notify c) 0 [] ∧ ∃ t, exec (.notify c) s = .next t ∧
        t.ab.notes = s.ab.notes ++ [(c, s.readBytes (Win.mbReq c + 8) len)])) ∧
    (op = 5 → len = 0 ∨ 64 < len → answered (.notify c) 2 [])) ∧
  (∀ (q : QuoteJob) (rest : List QuoteJob) (s : State), s.ab.quotes = q :: rest →
    let body := if locked s = true then [] else quoteBytes s q.nonce
    ∃ t, exec .signatureDone s = .next t ∧ t.ab.quotes = rest ∧ t = { s with ab := t.ab } ∧
      t.ab.answers[q.channel] = some (leBytes 1 0x83 ++ leBytes 1 (if locked s = true then 4 else 0) ++ leBytes 2 body.length ++
        leBytes 4 q.tag.toNat ++ body)) ∧
  (∀ (c : Fin 8) (bs : List Byte) (s : State),
    let finished (i : Instr) (b : List Byte) : Prop := ∃ t, exec i s = .next t ∧ t.readBytes (Win.mbRsp c) b.length = b ∧
      OnlyBytes (Win.mbRsp c) (Win.mbRsp c + b.length) s t ∧ t.ab.answers[c] = none ∧
      t.fld (Reg.MB_STAT c) F.MB_STAT_STATUS = recNat b 1 1 ∧ t.fld (Reg.MB_DOORBELL c) F.MB_DOORBELL_GO = 0 ∧
      t.fld (Reg.MB_DOORBELL c) F.MB_DOORBELL_DONE = 1 ∧ Raised s t [(993, BitVec.ofNat 32 c.val)] ∧
      OnlyRegs [Reg.MB_STAT c, Reg.MB_DOORBELL c] s t
    (s.ab.answers[c] = some bs → finished (.mbDone c) bs) ∧
    (s.ab.answers[c] = none → mbWaits s c (mbOp s c) = true → (mbOp s c = 0 ∨ 5 < mbOp s c) →
      finished (.mbDone c) (leBytes 1 (mbOp s c + 0x80) ++ leBytes 1 1 ++ leBytes 2 0 ++ leBytes 4 (mbTag s c)))) ∧
  (∀ (c : Fin 8) (op : Nat) (s : State), mbWaits s c op = true →
    mbOpen s c = true ∧ mbOp s c = op ∧
      ∀ i : Nat, i < 8 → mbOpen s (s.ab.turn + 1 + Fin.ofNat 8 i) = true → ∀ j : Nat, j < 8 → c = s.ab.turn + 1 + Fin.ofNat 8 j → j ≤ i) ∧
  ∀ s : State,
    (s.now.toNat < s.ab.debugEnd.toNat ∨ s.ab.scopes = 0 → exec .debugExpiry s = .next s) ∧
    (s.ab.debugEnd.toNat ≤ s.now.toNat → s.ab.scopes ≠ 0 → ∃ t, exec .debugExpiry s = .next t ∧ t.ab.scopes = 0 ∧
      t.fld Reg.ABT_STAT F.ABT_STAT_DEBUG_DECK = 0 ∧ t.fld Reg.ABT_STAT F.ABT_STAT_DEBUG_ABUT = 0 ∧
      t.fld Reg.ABT_STAT F.ABT_STAT_LOCKED = s.fld Reg.ABT_STAT F.ABT_STAT_LOCKED ∧ Raised s t [(995, payCause 3)])

/-- O52. A COMMAND that no session accepts does nothing else; a repeated REQ_ID gets the kept response again; with
four requests queued the answer is BUSY; without its right an operation is DENIED; PING returns its body, CLOSE ends
the session, QUOTE, LOG and CERT answer their contents, with BAD_LEN for a body out of range and LOCKED quotes while
the secrets are locked; QUOTE and CERT are also served as queries, at most 16 a second on a port; READ, WRITE and
WRITE_MASK check alignment and count, then the credential's window, and then make their accesses word by word.
(R385, R413, R418, R419, R420, R421, R423) -/
def Obligations.RenerAccessCommandsComplete : Prop :=
  (∀ (r : Request) (body : List Byte) (s s1 : State), accept s r.dgram = (none, s1) → exec (.ping r body) s = .next s1) ∧
  (∀ (r : Request) (body : List Byte) (k : Fin 16) (x : Session) (s s1 : State), accept s r.dgram = (some k, s1) →
    session s1 k = some x →
    (∀ p, x.kept.find? (fun p => p.1 == r.reqId) = some p →
      exec (.ping r body) s = .next (sessionSend s1 k 0x11 0 true p.2)) ∧
    (x.kept.find? (fun p => p.1 == r.reqId) = none → 4 ≤ r.waiting →
      exec (.ping r body) s = .next (sessionSend s1 k 0x11 0 true (responseBytes 1 5 r.reqId [])))) ∧
  (∀ (r : Request) (body : List Byte) (k : Fin 16) (s s1 : State), RunsRequest s s1 r k →
    let replies (c : Instr) (op status : Nat) (b : List Byte) : Prop := ∃ t, exec c s = .next t ∧ Responded t k r op status b
    (body.length ≤ 64 → replies (.ping r body) 1 0 body) ∧ (64 < body.length → replies (.ping r body) 1 2 []) ∧
    (body = [] → ∃ t, exec (.close r body) s = .next t ∧ session t k = none ∧ t.reg (Reg.RN_SESS_STAT k) = 0 ∧
      t.reg (Reg.RN_SESS_ID k) = 0) ∧ (body ≠ [] → replies (.close r body) 2 2 []) ∧
    (body.length ≠ 48 → replies (.quote (.command r) body) 3 2 []) ∧
    (body.length = 48 → locked s = true → replies (.quote (.command r) body) 3 4 []) ∧
    (body.length = 48 → locked s = false → replies (.quote (.command r) body) 3 0 (quoteBytes s body)) ∧
    (body.length = 2 → replies (.log r body) 4 0 (((s.ab.log.drop (recNat body 0 2)).take 16).flatMap (fun e =>
      leBytes 1 e.1 ++ leBytes 1 e.2.1 ++ fitBytes 48 e.2.2))) ∧ (body.length ≠ 2 → replies (.log r body) 4 2 []) ∧
    (body = [] → replies (.cert (.command r) body) 5 0 (fitBytes 240 Config.deviceCert)) ∧
    (body ≠ [] → replies (.cert (.command r) body) 5 2 []) ∧
    (let a := recNat body 0 5
     let n := recNat body 6 2
     let ranged := a % 4 = 0 ∧ n % 4 = 0 ∧ 4 ≤ n ∧ n ≤ 1024
     ((sessRights s1 k).testBit 0 = false → replies (.read r body) 0x10 3 []) ∧
     ((sessRights s1 k).testBit 0 = true →
       (body.length ≠ 8 ∨ ¬ranged → replies (.read r body) 0x10 2 []) ∧
       (body.length = 8 → ranged → windowGranted s1 k 48 a n = false → replies (.read r body) 0x10 3 []) ∧
       (body.length = 8 → ranged → windowGranted s1 k 48 a n = true →
         let w := renerRead s1 a n
         exec (.read r body) s = .next (answer w.2.2 k 0x10 0 r.reqId (accessSummary w.2.1 ++ w.1)))) ∧
     ((sessRights s1 k).testBit 1 = false → replies (.write r body) 0x11 3 [] ∧ replies (.writeMask r body) 0x12 3 []) ∧
     ((sessRights s1 k).testBit 1 = true →
       (body.length ≠ 8 + n ∨ ¬ranged → replies (.write r body) 0x11 2 []) ∧
       (body.length = 8 + n → ranged → windowGranted s1 k 52 a n = false → replies (.write r body) 0x11 3 []) ∧
       (body.length = 8 + n → ranged → windowGranted s1 k 52 a n = true →
         let w := renerWrite s1 a (body.drop 8)
         exec (.write r body) s = .next (answer w.2 k 0x11 0 r.reqId (accessSummary w.1))) ∧
       (body.length ≠ 16 ∨ a % 4 ≠ 0 → replies (.writeMask r body) 0x12 2 []) ∧
       (body.length = 16 → a % 4 = 0 → windowGranted s1 k 52 a 4 = false → replies (.writeMask r body) 0x12 3 []) ∧
       (body.length = 16 → a % 4 = 0 → windowGranted s1 k 52 a 4 = true →
         let q := busRead s1 a 4
         let m := BitVec.ofNat 32 (recNat body 12 4)
         let v := (BitVec.ofNat 32 (leNat q.1) &&& ~~~m) ||| (BitVec.ofNat 32 (recNat body 8 4) &&& m)
         let w := busWrite q.2.2 0x7000 a (leBytes 4 v.toNat)
         exec (.writeMask r body) s = .next (answer w.2 k 0x12 0 r.reqId (accessSummary [max q.2.1 w.1])))))) ∧
  ∀ (port : Fin 8) (peer reqId : BitVec 32) (body : List Byte) (s : State), s.ab.up = true →
    (queryServed s port = false → exec (.cert (.query port peer reqId) body) s =
      .next (s.bump (Reg.LP_RX_DISCARD port) F.LP_RX_DISCARD_COUNT)) ∧
    (queryServed s port = true → lpUp s port = true → reachable s port peer = true →
      (body = [] → ∃ t, exec (.cert (.query port peer reqId) body) s = .next t ∧
        t.rn.out = some ⟨port, peer, 0, 5, 0, 0, false, responseBytes 5 0 reqId (fitBytes 240 Config.deviceCert)⟩) ∧
      (body.length = 48 → locked s = false → ∃ t, exec (.quote (.query port peer reqId) body) s = .next t ∧
        t.rn.out = some ⟨port, peer, 0, 5, 0, 0, false, responseBytes 3 0 reqId (quoteBytes s body)⟩))

/-- O53. SUBSCRIBE opens the stream of its kind toward DEST_PORT and UNSUBSCRIBE closes it, with the right of the
kind and a body in range; a challenge is 16 bytes, held with its time; a token is used once, and opens or is REFUSED
with its cause; DBG_CLOSE closes; a floor below the present one is REFUSED, and a new one is written and ends the
sessions below it; a release that verifies sets the owner slot RELEASED, ends every session and resets; an enrolment
without a cause takes the lowest unused slot, and one with a cause leaves the slots; an idle session and one whose
credential has expired end. (R388, R389, R392, R393, R394, R395, R417, R420, R423, R424) -/
def Obligations.RenerSessionCommandsComplete : Prop :=
  (∀ (r : Request) (body : List Byte) (k : Fin 16) (s s1 : State), RunsRequest s s1 r k →
    let replies (c : Instr) (op status : Nat) (b : List Byte) : Prop := ∃ t, exec c s = .next t ∧ Responded t k r op status b
    let right (b : Nat) : Prop := (sessRights s1 k).testBit b = true
    let kind := recNat body 0 1
    let dest := BitVec.ofNat 16 (recNat body 2 2)
    (body.length ≠ 12 → right 2 → right 3 → right 4 → replies (.subscribe r body) 0x20 2 []) ∧
    (kind = 1 → ¬right 2 → replies (.subscribe r body) 0x20 3 []) ∧
    (body.length = 12 → kind = 1 ∨ kind = 4 ∧ recNat body 10 2 ≠ 0 → right 2 →
      ∃ t x y, exec (.subscribe r body) s = .next t ∧ Responded t k r 0x20 0 [] ∧ session t k = some x ∧ x.records = some y ∧
        y.dest = dest ∧ (kind = 1 → y.records = true) ∧ (kind = 4 → y.lines = true ∧
          y.domains = BitVec.ofNat 16 (recNat body 8 2) ∧ y.decimate = BitVec.ofNat 16 (recNat body 10 2))) ∧
    (body.length = 12 → kind = 2 → right 3 → ∃ t x y, exec (.subscribe r body) s = .next t ∧ Responded t k r 0x20 0 [] ∧
      session t k = some x ∧ x.crops = some y ∧ y.dest = dest) ∧
    (body.length = 12 → kind = 3 → recNat body 4 2 ≤ recNat body 6 2 → recNat body 6 2 ≤ 1023 → right 4 →
      ∃ t x y, exec (.subscribe r body) s = .next t ∧ Responded t k r 0x20 0 [] ∧ session t k = some x ∧
        x.events = some y ∧ y.dest = dest ∧ y.first.toNat = recNat body 4 2 ∧ y.last.toNat = recNat body 6 2) ∧
    (body.length ≠ 1 ∨ kind = 0 ∨ 4 < kind → replies (.unsubscribe r body) 0x21 2 []) ∧
    (body.length = 1 → 1 ≤ kind → kind ≤ 4 → ∃ t x, exec (.unsubscribe r body) s = .next t ∧
      Responded t k r 0x21 0 [] ∧ session t k = some x ∧ (kind = 2 → x.crops = none) ∧ (kind = 3 → x.events = none) ∧
      (kind = 1 → ∀ y, x.records = some y → y.records = false) ∧ (kind = 4 → ∀ y, x.records = some y → y.lines = false)) ∧
    (¬right 8 → replies (.dbgChallenge r body) 0x30 3 [] ∧ replies (.dbgToken r body) 0x31 3 [] ∧ replies (.dbgClose r body) 0x32 3 []) ∧
    (right 8 →
      (body = [] → ∃ t b, exec (.dbgChallenge r body) s = .next t ∧ b.length = 16 ∧ t.ab.challenge = some (b, s.now) ∧
        Responded t k r 0x30 0 b) ∧
      (tokenCause s1 body ≠ 0 → ∃ t, exec (.dbgToken r body) s = .next t ∧ t.ab.challenge = none ∧
        t.ab.scopes = s.ab.scopes ∧ Responded t k r 0x31 6 (leBytes 2 (tokenCause s1 body))) ∧
      (tokenCause s1 body = 0 → recNat body 40 4 / 4 % 2 = 0 → ∃ t, exec (.dbgToken r body) s = .next t ∧
        t.ab.challenge = none ∧ t.ab.scopes = BitVec.ofNat 3 (recNat body 40 4) ∧ Responded t k r 0x31 0 []) ∧
      (tokenCause s1 body = 0 → recNat body 40 4 / 4 % 2 = 1 → (∀ l ∈ s.up.leases, l.comp < 24) → ∃ t, exec (.dbgToken r body) s = .next t ∧
        locked t = true ∧ t.ab.scopes = BitVec.ofNat 3 (recNat body 40 4) ∧ ∀ j, session t j = none) ∧
      (body = [] → ∃ t, exec (.dbgClose r body) s = .next t ∧ t.ab.scopes = 0 ∧ Responded t k r 0x32 0 [])) ∧
    (¬right 7 → replies (.setFloor r body) 0x40 3 [] ∧ replies (.ownerRelease r body) 0x41 3 []) ∧
    (right 7 →
      (body.length = 4 → recNat body 0 4 < (credentialFloor s).toNat →
        ∃ b, b.length = 2 ∧ replies (.setFloor r body) 0x40 6 b) ∧
      (body.length = 4 → (credentialFloor s).toNat ≤ recNat body 0 4 → ∃ t g, exec (.setFloor r body) s = .next t ∧
        some g ∈ t.up.gens.toList ∧ g.floor.toNat = recNat body 0 4 ∧
        ∀ j : Fin 16, (s.reg (Reg.RN_SESS_CRED j)).toNat < recNat body 0 4 → session t j = none) ∧
      (body.length ≠ 128 → replies (.ownerRelease r body) 0x41 2 []) ∧
      (body.length = 128 → anyLease s = true ∨ releaseGood s body = false →
        ∃ b t, b.length = 2 ∧ exec (.ownerRelease r body) s = .next t ∧ Responded t k r 0x41 6 b ∧ t.ab.owners = s.ab.owners ∧
          Raised s t [(994, payCause 3 (leNat b))]) ∧
      (∀ i, body.length = 128 → anyLease s = false → releaseGood s body = true → activeOwner s = some i → SeqRoom s →
        ∃ t, exec (.ownerRelease r body) s = .next t ∧ (t.ab.owners[i]).state = 2 ∧ bootState t = 0 ∧ t.mem = [] ∧
          (∀ j, session t j = none) ∧ slotMark t 2 = 0 ∧ slotMark t 3 = 0))) ∧
  (∀ (port : Fin 8) (peer reqId : BitVec 32) (g : List Byte) (s : State), s.ab.up = true → queryServed s port = true →
    g.length = 448 →
    (enrolCause s g ≠ 0 → ∃ t, exec (.enrol port peer reqId g) s = .next t ∧ t.ab.owners = s.ab.owners ∧
      Raised s t [(994, payCause 3 (enrolCause s g))]) ∧
    (enrolCause s g = 0 → ∃ t i, exec (.enrol port peer reqId g) s = .next t ∧ (s.ab.owners[i]).state = 0 ∧
      (∀ j : Fin 4, j < i → (s.ab.owners[j]).state ≠ 0) ∧ (t.ab.owners[i]).state = 1 ∧ (t.ab.owners[i]).key = (g.drop 32).take 97 ∧
      Raised s t [(994, payCause 1)])) ∧
  (∀ (k : Fin 16) (s : State),
    (session s k = none → exec (.sessionIdle k) s = .next s) ∧
    ∀ x, session s k = some x →
      (s.now.toNat < x.lastAccept.toNat + 30000000000 → exec (.sessionIdle k) s = .next s) ∧
      (x.lastAccept.toNat + 30000000000 ≤ s.now.toNat → ∃ t, exec (.sessionIdle k) s = .next t ∧ session t k = none ∧
        (∀ j, j ≠ k → session t j = session s j) ∧
        t.raises.head?.isSome = true ∧ (∀ l ∈ t.up.leases, l.session ≠ k))) ∧
  ∀ s : State,
    (s.fld Reg.TM_STAT F.TM_STAT_EPOCH_SET = 0 → exec .credentialExpiryCheck s = .next s) ∧
    (s.fld Reg.TM_STAT F.TM_STAT_EPOCH_SET = 1 → (∀ l ∈ s.up.leases, l.comp < 24) → ∃ t, exec .credentialExpiryCheck s = .next t ∧
      ∀ k x, session s k = some x → session t k = if recNat x.cred 32 8 < ptpSeconds s then none else some x)

/-- O54. A frame on an enabled port with its link up counts by what becomes of it: FCS errors in LP_RX_FCS, frames
that are not taken in LP_RX_DISCARD, taken ones in LP_RX_OK, and of these any that no row of R407 answers, or of an
unknown type, also in LP_RX_DISCARD; ARP and echo requests are answered to their sender; a link change shows in
LP_STAT and is raised; a session's datagram that fails its seal or its SEQ is counted and does nothing else, and an
unknown operation is answered BAD_OP; the fallback configuration without block lock for 2 s tries the other rate; a
HELLO without a cause opens the lowest free slot with the credential's rights and is answered with ACCEPT, one with
a cause with REFUSE and the cause. (R405, R406, R407, R409, R411, R413, R414, R415, R436) -/
def Obligations.LinePortCommandsComplete : Prop :=
  (∀ (e : Fin 8) (fcs : Bool) (corr uncorr : Nat) (f : List Byte) (s : State),
    let go := exec (.frameReceive e fcs corr uncorr f) s
    let ok (s : State) : State := s.bump (Reg.LP_RX_OK e) F.LP_RX_OK_COUNT
    let discard (s : State) : State := s.bump (Reg.LP_RX_DISCARD e) F.LP_RX_DISCARD_COUNT
    (lpUp s e = false → go = .next s) ∧
    (lpUp s e = true → s.fld (Reg.LP_CTL e) F.LP_CTL_FEC = 0 →
      (fcs = false → go = .next (s.bump (Reg.LP_RX_FCS e) F.LP_RX_FCS_COUNT)) ∧
      (fcs = true → frameTaken s e f = false → go = .next (discard s)) ∧
      (fcs = true → frameTaken s e f = true →
        (arpFor s e f = true ∨ echoFor s e f = true → go = .next (ok s)) ∧
        (arpFor s e f = false → echoFor s e f = false → ptpMessage f = none →
          (renerOf s e f = none → go = .next (discard (ok s))) ∧
          (∀ p b, renerOf s e f = some (p, b) →
            (s.ab.up = false → go = .next (ok s)) ∧
            (s.ab.up = true → datagramKnown p b = false → go = .next (discard (ok s))) ∧
            (s.ab.up = true → datagramKnown p b = true →
              let kind := recNat b 1 1
              let op := recNat b 16 2
              let peer := BitVec.ofNat 32 (beAt f 26 4)
              let d (auth : Bool) : Sealed := ⟨e, peer, BitVec.ofNat 32 (recNat b 4 4), recWord b 8, auth⟩
              (kind = 1 ∨ kind = 4 ∧ (op = 3 ∨ op = 5 ∨ op = 0x50) → go = .next (ok s)) ∧
              (kind = 4 → op ≠ 3 → op ≠ 5 → op ≠ 0x50 → queryServed s e = true → reachable s e peer = true → ∃ t, go = .next t ∧
                t.rn.out = some ⟨e, peer, 0, 5, 0, 0, false, responseBytes op 1 (BitVec.ofNat 32 (recNat b 20 4)) []⟩) ∧
              (kind ≠ 1 → kind ≠ 4 → (sessionOf s (d true) = none → go = .next (ok s)) ∧
                ∀ k x, sessionOf s (d true) = some k → session s k = some x →
                  (openDatagram x b = none → go = .next (accept (ok s) (d false)).2 ∧ ∃ t, go = .next t ∧ t.rn.sessions = s.rn.sessions ∧
                    t.fld (Reg.LP_RN_AUTH e) F.LP_RN_AUTH_COUNT = min (s.fld (Reg.LP_RN_AUTH e) F.LP_RN_AUTH_COUNT + 1) (2 ^ 32 - 1)) ∧
                  ∀ q, openDatagram x b = some q →
                    (seqFresh x (recWord b 8) = false → ∃ t, go = .next t ∧ t.rn.sessions = s.rn.sessions ∧
                      t.fld (Reg.LP_RN_REPLAY e) F.LP_RN_REPLAY_COUNT =
                        min (s.fld (Reg.LP_RN_REPLAY e) F.LP_RN_REPLAY_COUNT + 1) (2 ^ 32 - 1)) ∧
                    (seqFresh x (recWord b 8) = true → (kind ≠ 0x10 ∨ recNat q 0 2 ∈ knownOps) → go = .next (ok s)) ∧
                    (seqFresh x (recWord b 8) = true → kind = 0x10 → recNat q 0 2 ∉ knownOps →
                      (∀ p ∈ x.kept, p.1 ≠ BitVec.ofNat 32 (recNat q 4 4)) → ∃ t y, go = .next t ∧ session t k = some y ∧
                        y.kept.getLast? = some (BitVec.ofNat 32 (recNat q 4 4),
                          responseBytes (recNat q 0 2) 1 (BitVec.ofNat 32 (recNat q 4 4)) [])))))) ∧
        (arpFor s e f = false → echoFor s e f = false → ∀ m, ptpMessage f = some m →
          go = .next (if recNat m 0 1 % 16 = 1 then ok s else (ok s).bump Reg.PTP_DISCARD F.PTP_DISCARD_COUNT)))) ∧
    (lpUp s e = true → s.fld (Reg.LP_CTL e) F.LP_CTL_FEC = 1 → fcs = false → ∃ t, go = .next t ∧
      t.fld (Reg.LP_FEC e) F.LP_FEC_CORR = min (s.fld (Reg.LP_FEC e) F.LP_FEC_CORR + corr) 65535 ∧
      t.fld (Reg.LP_FEC e) F.LP_FEC_UNCORR = min (s.fld (Reg.LP_FEC e) F.LP_FEC_UNCORR + uncorr) 65535 ∧
      (0 < uncorr → s.rn.fecSec[e] ≠ some (secondOf s) → Raised s t [(673 + 8 * e.val, payCause 0)]))) ∧
  (∀ (e : Fin 8) (f : List Byte) (s : State),
    let sent (t : State) : Prop := t.fld (Reg.LP_TX_OK e) F.LP_TX_OK_COUNT =
      min (s.fld (Reg.LP_TX_OK e) F.LP_TX_OK_COUNT + 1) (2 ^ 32 - 1) ∧ OnlyRegs [Reg.LP_TX_OK e] s t
    (lpUp s e = true → frameTaken s e f = true → arpFor s e f = true → ∃ t g, exec (.arp e f) s = .next t ∧ sent t ∧
      t.rn.frameOut = some (e, g) ∧ g.length = 42 ∧ g.take 6 = (f.drop 6).take 6 ∧ beAt g 6 6 = macOf s e ∧ beAt g 20 2 = 2 ∧
      beAt g 22 6 = macOf s e ∧ beAt g 28 4 = (s.reg (Reg.LP_IP e)).toNat ∧ g.drop 32 = (f.drop 22).take 10) ∧
    (lpUp s e = true → frameTaken s e f = true → echoFor s e f = true → ∃ t g, exec (.icmpEcho e f) s = .next t ∧ sent t ∧
      t.rn.frameOut = some (e, g) ∧ g.take 6 = (f.drop 6).take 6 ∧ beAt g 26 4 = (s.reg (Reg.LP_IP e)).toNat ∧
      (g.drop 30).take 4 = (f.drop 26).take 4 ∧ beAt g 34 2 = 0 ∧ g.drop 38 = (ipv4Body f).drop 4) ∧
    (arpFor s e f = false → exec (.arp e f) s = .next s) ∧ (echoFor s e f = false → exec (.icmpEcho e f) s = .next s)) ∧
  (∀ (e : Fin 8) (up block fec : Bool) (s : State),
    let a := Reg.LP_STAT e
    (s.fld (Reg.LP_CTL e) F.LP_CTL_EN = 0 → exec (.lpLink e up block fec) s = .next s) ∧
    (s.fld (Reg.LP_CTL e) F.LP_CTL_EN = 1 → ∃ t, exec (.lpLink e up block fec) s = .next t ∧
      t.fld a F.LP_STAT_LINK = up.toNat ∧ t.fld a F.LP_STAT_BLOCK_LOCK = block.toNat ∧ OnlyRegs [a] s t ∧
      t.rn = { s.rn with rateAt := t.rn.rateAt } ∧ (∀ j : Fin 8, t.rn.rateAt[j] = if j = e ∧ block = true then none else s.rn.rateAt[j]) ∧
      Raised s t (if s.fld a F.LP_STAT_LINK = up.toNat then [] else [(672 + 8 * e.val, payCause (if up then 1 else 2))])) ∧
    (∀ t0, s.fld a F.LP_STAT_FALLBACK = 1 → s.fld a F.LP_STAT_BLOCK_LOCK = 0 → s.rn.rateAt[e] = some t0 →
      (t0.toNat + 2000000000 ≤ s.now.toNat → ∃ t, exec (.fallbackRateSwitch e) s = .next t ∧
        t.fld (Reg.LP_CTL e) F.LP_CTL_RATE = 1 - s.fld (Reg.LP_CTL e) F.LP_CTL_RATE ∧ OnlyRegs [Reg.LP_CTL e] s t ∧
        t.rn.rateAt[e] = some s.now) ∧
      (s.now.toNat < t0.toNat + 2000000000 → exec (.fallbackRateSwitch e) s = .next s)) ∧
    (s.fld a F.LP_STAT_FALLBACK = 0 ∨ s.fld a F.LP_STAT_BLOCK_LOCK = 1 ∨ s.rn.rateAt[e] = none →
      exec (.fallbackRateSwitch e) s = .next s)) ∧
  ∀ (port : Fin 8) (peer : BitVec 32) (w : Nat) (p : List Byte) (s : State), s.ab.up = true → lpUp s port = true →
    let c := helloCause s w p
    (∀ k, c = 0 → freeSession s = some k → ∃ t x, exec (.hello port peer w p) s = .next t ∧ session t k = some x ∧
      x.cred = p.take 256 ∧ x.rsp = 1 ∧ x.lastAccept = s.now ∧ sessPeer t k = peer ∧ (sessPort t k).val = port.val ∧
      sessRights t k = recNat p 44 4 ∧ Raised s t [(674 + 8 * port.val, payCause 1 k.val)] ∧
      (reachable s port peer = true → ∃ d, t.rn.out = some d ∧ d.type = 2 ∧ d.port = port ∧ d.peer = peer ∧
        (d.payload.drop 4).take 16 = (p.drop 360).take 16)) ∧
    (c ≠ 0 → ∃ t, exec (.hello port peer w p) s = .next t ∧ t.rn.sessions = s.rn.sessions ∧
      Raised s t [(674 + 8 * port.val, payCause 3 c)] ∧
      (reachable s port peer = true → ∃ d, t.rn.out = some d ∧ d.type = 3 ∧ (d.payload.drop 16) = leBytes 2 c))

/-- O55. A record joins every record stream with the next RSEQ, or finds the queue full, is dropped and counts;
RECORDS_SEND sends from the oldest entry not yet sent, once the entries fill a datagram or the oldest has waited 100
µs; an acknowledgement frees the entries below its CUM; the next chunk of a crop in flight leaves with its CSEQ and
offset; a crop acknowledged to its end leaves the stream, and so does one that is abandoned, which counts and raises
RN_STREAM; a raise for the abutment die goes to every event stream whose range holds its source, with the next NSEQ,
while fewer than 64 are outstanding; an acknowledgement frees notifications, and what is not acknowledged for RTO_MS
is sent again from CUM. (R424, R425, R427, R428, R429, R430, R431, R432, R433) -/
def Obligations.StreamCommandsComplete : Prop :=
  (∀ s : State, (s.rn.incoming = [] ∨ ∃ i rest, s.rn.incoming = i :: rest ∧ i.lseq = none) → exec .streamEntry s = .next s) ∧
  (∀ (i : StreamItem) (rest : List StreamItem) (l : BitVec 64) (s : State), s.rn.incoming = i :: rest → i.lseq = some l →
    i.line = none → ∃ t, exec .streamEntry s = .next t ∧ t.rn.incoming = rest ∧
      ∀ k r, recStream s k = some r → r.records = true →
        (r.held.length < 2048 → recStream t k = some { r with next := r.next + 1, held := r.held ++ [⟨r.next, l, i.bytes, s.now⟩] }) ∧
        (2048 ≤ r.held.length → ∃ r', recStream t k = some r' ∧ r'.next = r.next + 1 ∧ r'.held = r.held ∧
          (∃ g, r'.gap = some g ∧ (r.gap = none → g.first = r.next ∧ g.count = 1)) ∧
          t.fld (Reg.RN_SESS_DROP k) F.RN_SESS_DROP_RECORDS =
            min (s.fld (Reg.RN_SESS_DROP k) F.RN_SESS_DROP_RECORDS + 1) 65535)) ∧
  (∀ (k : Fin 16) (r : RecStream) (s : State), recStream s k = some r → r.again = [] →
    let unsent := r.held.filter (fun e => decide (r.toSend.toNat ≤ e.rseq.toNat))
    (canSend s k = false ∨ unsent = [] → exec (.recordsSend k) s = .next s) ∧
    (∀ e es, unsent = e :: es → unsent.length < recordRoom s k r → s.now.toNat < e.came.toNat + 100000 →
      exec (.recordsSend k) s = .next s) ∧
    (∀ e es, canSend s k = true → unsent = e :: es → 0 < recordRoom s k r →
      recordRoom s k r ≤ unsent.length ∨ e.came.toNat + 100000 ≤ s.now.toNat → ∃ t d, exec (.recordsSend k) s = .next t ∧
      t.rn.out = some d ∧ d.type = 0x20 ∧ d.dest = r.dest ∧ recWord d.payload 0 = e.rseq ∧
      ∃ r', recStream t k = some r' ∧ r'.held = r.held ∧ r'.gap = none)) ∧
  (∀ (d : Sealed) (p : List Byte) (k : Fin 16) (r : RecStream) (s s1 : State), accept s d = (some k, s1) →
    recStream s1 k = some r → recNat p 0 8 ≤ r.toSend.toNat → r.cum.toNat ≤ recNat p 0 8 → ∃ t r', exec (.recAck d p) s = .next t ∧
      recStream t k = some r' ∧ r'.cum.toNat = recNat p 0 8 ∧
      r'.held = r.held.filter (fun e => decide (recNat p 0 8 ≤ e.rseq.toNat)) ∧ r'.toSend = r.toSend ∧
      r'.again = r.again ++ (ackRanges p 8 8 8).map (fun q => (BitVec.ofNat 64 q.1, q.2)) ∧
      r'.since = (if r.cum.toNat < recNat p 0 8 then s.now else r.since) ∧ t.regs = s1.regs) ∧
  (∀ (k : Fin 16) (c : CropStream) (i : CropItem) (rest : List CropItem) (s : State), cropStream s k = some c →
    c.items = i :: rest → (∀ j ∈ c.items, j.again = []) → i.sentTo < i.size → i.size < 2 ^ 32 → canSend s k = true →
    let m := min (chunkSize s k) (i.size - i.sentTo)
    ∃ t d, exec (.cropChunkSend k) s = .next t ∧ t.rn.out = some d ∧ d.type = 0x30 ∧ d.dest = c.dest ∧
      recWord d.payload 0 = i.cseq ∧ recNat d.payload 8 4 = i.sentTo ∧ recNat d.payload 12 4 = i.size ∧
      ∃ c', cropStream t k = some c' ∧ c'.items.head? = some { i with sentTo := i.sentTo + m, since := if i.cum = i.sentTo then s.now else i.since }) ∧
  (∀ (d : Sealed) (p : List Byte) (k : Fin 16) (c : CropStream) (i : CropItem) (rest : List CropItem) (s s1 : State),
    accept s d = (some k, s1) → cropStream s1 k = some c → c.items = i :: rest → recWord p 0 = i.cseq →
    i.sentTo = i.size → i.cum ≤ i.size → recNat p 8 4 = i.size → ∃ t c', exec (.cropAck d p) s = .next t ∧
      cropStream t k = some c' ∧ c'.items = rest.filter (fun j => j.cseq != i.cseq)) ∧
  (∀ (k : Fin 16) (c : CropStream) (i : CropItem) (rest : List CropItem) (s : State), cropStream s k = some c →
    c.items = i :: rest → i.handed.toNat + s.fld Reg.RN_CTL F.RN_CTL_CROP_HOLD_MS * 1000000 ≤ s.now.toNat →
    ∃ t c', exec (.cropAbandoned k) s = .next t ∧ cropStream t k = some c' ∧
      c'.items = rest.filter (fun j => j.cseq != i.cseq) ∧
      t.fld (Reg.RN_SESS_DROP k) F.RN_SESS_DROP_CROPS = min (s.fld (Reg.RN_SESS_DROP k) F.RN_SESS_DROP_CROPS + 1) 255 ∧
      Raised s t [(676 + 8 * (sessPort s k).val, payCause 2 k.val)]) ∧
  (∀ (p : Packet) (s : State), s.ab.up = true →
    s.cw.msgs.find? (fun p => p.dst.val == 77 && p.src.val == 43) = some p → 16 ≤ p.data.length →
    let src := recNat p.data 0 4 % 1024
    ∃ t, exec .notifySend s = .next t ∧ t.cw.msgs = s.cw.msgs.erase p ∧
      ∀ k x, eventStream s k = some x → x.first.toNat ≤ src → src ≤ x.last.toNat →
        (x.held.length < 64 → ∃ x' q, eventStream t k = some x' ∧ x'.next = x.next + 1 ∧ x'.held = x.held ++ [(x.next, q)] ∧
          recWord q 0 = x.next ∧ recNat q 8 1 = 1 ∧ (q.drop 16).take 16 = p.data.take 16) ∧
        (64 ≤ x.held.length → eventStream t k = some { x with missed := x.missed + 1 } ∧
          t.fld (Reg.RN_SESS_DROP k) F.RN_SESS_DROP_NOTIFY = min (s.fld (Reg.RN_SESS_DROP k) F.RN_SESS_DROP_NOTIFY + 1) 255)) ∧
  (∀ (d : Sealed) (p : List Byte) (k : Fin 16) (x : EventStream) (s s1 : State), accept s d = (some k, s1) →
    eventStream s1 k = some x → x.missed = 0 → recNat p 0 8 ≤ x.next.toNat → ∃ t, exec (.notifyAck d p) s = .next t ∧
      eventStream t k = some { x with
        held := x.held.filter (fun h => decide (recNat p 0 8 ≤ h.1.toNat))
        since := if ∃ h ∈ x.held, h.1.toNat < recNat p 0 8 then s.now else x.since } ∧ t.regs = s1.regs) ∧
  ∀ (k : Fin 16) (kind : Fin 3) (s : State),
    let rto := s.fld Reg.RN_CTL F.RN_CTL_RTO_MS * 1000000
    (canSend s k = false → exec (.streamResend k kind) s = .next s) ∧
    (∀ x, eventStream s k = some x → s.now.toNat < x.since.toNat + rto → exec (.streamResend k 2) s = .next s) ∧
    (∀ r, recStream s k = some r → s.now.toNat < r.since.toNat + rto → exec (.streamResend k 0) s = .next s) ∧
    (∀ x h rest, canSend s k = true → eventStream s k = some x → x.held = h :: rest → x.since.toNat + rto ≤ s.now.toNat → ∃ t d,
      exec (.streamResend k 2) s = .next t ∧ t.rn.out = some d ∧ d.type = 0x40 ∧ d.payload = h.2 ∧
        eventStream t k = some { x with since := s.now }) ∧
    (∀ c i rest, canSend s k = true → cropStream s k = some c → c.items = i :: rest → i.cum < i.sentTo →
      i.since.toNat + rto ≤ s.now.toNat → i.cum < 2 ^ 32 → ∃ t d c', exec (.streamResend k 1) s = .next t ∧ t.rn.out = some d ∧
        d.type = 0x30 ∧ recWord d.payload 0 = i.cseq ∧ recNat d.payload 8 4 = i.cum ∧ cropStream t k = some c' ∧
        c'.items.head? = some { i with since := s.now }) ∧
    (∀ r e es, canSend s k = true → recStream s k = some r → r.since.toNat + rto ≤ s.now.toNat →
      r.held.filter (fun e => decide (e.rseq.toNat < r.toSend.toNat)) = e :: es → 0 < recordRoom s k r → ∃ t d,
        exec (.streamResend k 0) s = .next t ∧ t.rn.out = some d ∧ d.type = 0x20 ∧ recWord d.payload 0 = e.rseq)

/-- O56. Each update operation answers the first status of R443 that applies, raising UPD_REFUSED, and changes no
lease by a refused start; UPD_START takes the lease, UPD_BLOCK holds the block in place of one at its offset and
names the lease, UPD_STATUS answers UPD_COMP and the bytes held, UPD_ABORT and expiry end the lease, UPD_PLAN keeps
the order for the session, and a commit without a fault starts to be applied after its response. The end of applying
starts the window; a healthy and soaked component is confirmed with a new generation, slots, counter, M7 and the end
of its lease; UPD_REVERT, a due reason and a reset that cut the update short end in REVERTED with the reason. (R440,
R442, R443, R444, R445, R446, R447, R448, R450, R451, R452, R453) -/
def Obligations.UpdateCommandsComplete : Prop :=
  (∀ (r : Request) (body : List Byte) (k : Fin 16) (s s1 : State), RunsRequest s s1 r k →
    let refused (i : Instr) (op c st : Nat) (b : List Byte) : Prop := ∃ t, exec i s = .next t ∧ Responded t k r op st b ∧
      Raised s t [(1001, payCause st c)] ∧ t.up = s.up
    let plain (i : Instr) (op st : Nat) : Prop := ∃ t, exec i s = .next t ∧ Responded t k r op st [] ∧ Raised s t [] ∧ t.up = s.up
    let named := leaseNamed s1 k (recNat body 0 4)
    (let c := recNat body 0 2
     let w := if recNat body 12 2 = 0 then 300 else recNat body 12 2
     let soak := if recNat body 14 2 = 0 then min 60 (w / 2) else recNat body 14 2
     let wf := body.length = 64 ∧ 60 ≤ w ∧ w ≤ 3600 ∧ soak ≤ w / 2 ∧ (c = 7 → recNat body 2 1 ≤ 15)
     let held := leaseOf s c ≠ none ∨ ∃ u, s.up.current = some u ∧ u.comp = c
     (¬wf → plain (.updStart r body) 0x100 2) ∧
     (wf → compGranted s1 k c = false → plain (.updStart r body) 0x100 3) ∧
     (wf → compGranted s1 k c = true → compListed c = false → refused (.updStart r body) 0x100 c 27 []) ∧
     (wf → compGranted s1 k c = true → compListed c = true → held → refused (.updStart r body) 0x100 c 16 []) ∧
     (wf → compGranted s1 k c = true → compListed c = true → ¬held →
       (spaceOf c < recNat body 4 8 → refused (.updStart r body) 0x100 c 26 []) ∧
       (recNat body 4 8 ≤ spaceOf c → ∃ t id, exec (.updStart r body) s = .next t ∧
         Responded t k r 0x100 0 (leBytes 4 (id : BitVec 32).toNat) ∧ Raised s t [(997, payCause 1 c)] ∧
         t.up = { s.up with leases := s.up.leases ++
           [⟨c, id, k, recNat body 2 1, recNat body 4 8, w, soak, (body.drop 16).take 48, [], s.now⟩] } ∧ compState t c = 1 ∧
         t.fld (Reg.UPD_COMP c) F.UPD_COMP_SESSION = k.val ∧ t.fld (Reg.UPD_COMP c) F.UPD_COMP_HELD = 1 ∧
         t.fld (Reg.UPD_COMP c) F.UPD_COMP_PROGRESS = 0))) ∧
    (let off := recNat body 4 8
     let n := recNat body 12 2
     let data := body.drop 20
     (named = none → refused (.updBlock r body) 0x101 0 17 []) ∧
     ∀ l, named = some l → l.comp < 32 →
       let again (st : Nat) : Prop := ∃ t, exec (.updBlock r body) s = .next t ∧ Responded t k r 0x101 st [] ∧
         leaseNamed t k (recNat body 0 4) = some { l with named := s.now } ∧
         Raised s t (if st < 16 then [] else [(1001, payCause st l.comp)])
       let sized := 1 ≤ n ∧ n ≤ 8192 ∧ data.length = n
       let fits := off + n ≤ l.total ∧ 32 + n ≤ ((session s1 k).map (·.budget)).getD 0
       (¬sized → again 2) ∧ (sized → compGranted s1 k l.comp = false → again 3) ∧
       (sized → compGranted s1 k l.comp = true → (¬fits → again 18) ∧
         (fits → recNat body 16 4 ≠ (crc32 data).toNat → again 19) ∧
         (fits → recNat body 16 4 = (crc32 data).toNat → ∃ t l', exec (.updBlock r body) s = .next t ∧
           l' = { l with blocks := l.blocks.filter (fun b => b.1 != off) ++ [(off, data)], named := s.now } ∧
           Responded t k r 0x101 0 (leBytes 8 (heldFrom0 l')) ∧ leaseNamed t k (recNat body 0 4) = some l' ∧
           compState t l.comp = 1 ∧ Raised s t []))) ∧
    (let c := recNat body 0 2
     let w := if compListed c then (s.reg (Reg.UPD_COMP c)).toNat else 0
     (body.length ≠ 2 → plain (.updStatus r body) 0x102 2) ∧
     (body.length = 2 → compGranted s1 k c = false → plain (.updStatus r body) 0x102 3) ∧
     (body.length = 2 → compGranted s1 k c = true →
       (leaseOf s c = none → ∃ t, exec (.updStatus r body) s = .next t ∧ t.up = s.up ∧
         Responded t k r 0x102 0 (leBytes 4 w ++ leBytes 8 0)) ∧
       (∀ l, leaseOf s c = some l → ∃ t, exec (.updStatus r body) s = .next t ∧
         Responded t k r 0x102 0 (leBytes 4 w ++ leBytes 8 (heldFrom0 l)) ∧
         leaseOf t c = some (if l.session = k then { l with named := s.now } else l)))) ∧
    ((body.length ≠ 4 → plain (.updAbort r body) 0x104 2 ∧ plain (.updCommit r body) 0x103 2) ∧
     (body.length = 4 → named = none → refused (.updAbort r body) 0x104 0 17 [] ∧ refused (.updCommit r body) 0x103 0 17 []) ∧
     ∀ l, body.length = 4 → named = some l → l.comp < 32 →
       let s2 := setLease s1 { l with named := s1.now }
       let g := compGranted s1 k l.comp
       (g = false → plain (.updAbort r body) 0x104 3 ∧ ∃ t, exec (.updCommit r body) s = .next t ∧ Responded t k r 0x103 3 []) ∧
       (g = true → ∃ t, exec (.updAbort r body) s = .next t ∧ Responded t k r 0x104 0 [] ∧ leaseOf t l.comp = none ∧
         compState t l.comp = 0 ∧ t.fld (Reg.UPD_COMP l.comp) F.UPD_COMP_HELD = 0 ∧ Raised s t [(997, payCause 3 l.comp)]) ∧
       (g = true → heldFrom0 l < l.total → commitFault s2 k l = some (20, [])) ∧
       (∀ st b, g = true → commitFault s2 k l = some (st, b) → ∃ t q, exec (.updCommit r body) s = .next t ∧
         Responded t k r 0x103 st b ∧ Raised s t (q ++ [(1001, payCause st l.comp)]) ∧ t.up.current = s.up.current ∧
         (st = 21 ∨ st = 22 → compState t l.comp = 8)) ∧
       (g = true → commitFault s2 k l = none →
         exec (.updCommit r body) s = .next (beginApply (answer (commitLease (showLoad s2 l) k l) k 0x103 0 r.reqId [])) ∧
         (l.comp = 2 → ∃ t u, exec (.updCommit r body) s = .next t ∧ Responded t k r 0x103 0 [] ∧ t.up.current = some u ∧
           u.comp = 2 ∧ u.package = assembled l ∧ u.window = l.window ∧ u.soak = l.soak ∧ compState t 2 = 3 ∧
           leaseOf t 2 = none ∧ t.fld Reg.UPD_STAT F.UPD_STAT_COMP = 2 ∧ ∃ q, Raised s t ((998, payCause 1 2) :: q)))) ∧
    (let c := recNat body 0 2
     (body.length ≠ 2 → plain (.updRevert r body) 0x105 2) ∧
     (body.length = 2 → compGranted s1 k c = false → plain (.updRevert r body) 0x105 3) ∧
     (body.length = 2 → compGranted s1 k c = true → 0x10 ≤ c ∨ compState s c ≠ 4 ∨ (∀ u, s.up.current = some u → u.comp ≠ c) →
       refused (.updRevert r body) 0x105 c 27 []) ∧
     (∀ u, body.length = 2 → compGranted s1 k c = true → c < 0x10 → compState s c = 4 → s.up.current = some u → u.comp = c →
       exec (.updRevert r body) s = .next (startRevert (answer s1 k 0x105 0 r.reqId []) u 4))) ∧
    (let n := recNat body 0 1
     let ps := (List.range n).map (planEntry body)
     let wf := 1 ≤ n ∧ n ≤ 8 ∧ body.length = 8 + 64 * n ∧ ∀ p ∈ ps, p.entries.length ≤ 4
     let granted := ∀ p ∈ ps, compGranted s1 k p.comp = true
     (¬wf → plain (.updPlan r body) 0x106 2) ∧ (wf → ¬granted → plain (.updPlan r body) 0x106 3) ∧
     (∀ f, wf → granted → planOrder 8 (inForce s1) ps [] = .inr f →
       refused (.updPlan r body) 0x106 0 23 (leBytes 2 f.1 ++ leBytes 2 f.2)) ∧
     (∀ o, wf → granted → planOrder 8 (inForce s1) ps [] = .inl o → ∃ t, exec (.updPlan r body) s = .next t ∧
       Responded t k r 0x106 0 (o.flatMap (leBytes 1)) ∧
       t.up = { s.up with plans := s.up.plans.filter (fun p => p.1 != k) ++ [(k, o)] }))) ∧
  (∀ (c : Fin 32) (s : State),
    (leaseOf s c = none → exec (.leaseExpiry c) s = .next s) ∧
    ∀ l, leaseOf s c = some l →
      (s.now.toNat < l.named.toNat + 30000000000 → exec (.leaseExpiry c) s = .next s) ∧
      (l.named.toNat + 30000000000 ≤ s.now.toNat → ∃ t, exec (.leaseExpiry c) s = .next t ∧ leaseOf t c = none ∧
        compState t c = 0 ∧ t.fld (Reg.UPD_COMP c) F.UPD_COMP_HELD = 0 ∧ t.fld (Reg.UPD_COMP c) F.UPD_COMP_PROGRESS = 0 ∧
        Raised s t [(997, payCause 2 c.val)] ∧ OnlyRegs [Reg.UPD_COMP c] s t ∧
        t.up = { s.up with leases := s.up.leases.filter (fun l => l.comp != c.val) })) ∧
  (∀ s : State, s.up.current = none → exec .applied s = .next s ∧ exec .updConfirmed s = .next s) ∧
  (∀ (u : Update) (s : State), s.up.current = some u →
    let a := Reg.UPD_COMP u.comp
    let h := u.comp % 16
    let same := ∀ g, rolesImage s u = some g → unusedRoles s g = []
    let stopped := (u.comp = 1 ∨ u.comp = 6) → idleStopped s = true
    (s.ab.up = false ∨ compState s u.comp ≠ 3 ∨ (u.left = [] ∧ same ∧ (s.pl.change ≠ none ∨ ¬stopped)) ∨
      (u.left = [] ∧ 0x10 ≤ u.comp ∧ u.phase ≠ 3) → exec .applied s = .next s) ∧
    (s.ab.up = true → compState s u.comp = 3 → u.left = [] → same → s.pl.change = none → stopped → u.comp < 0x10 ∨ u.phase = 3 →
      ∃ t, exec .applied s = .next t ∧ compState t u.comp = 4 ∧ t.fld Reg.UPD_STAT F.UPD_STAT_LEFT = u.window % 65536 ∧
        t.raises.getLast?.map (fun r => (r.source, r.pay)) = some (998, payCause 3 u.comp) ∧
        (u.comp = 3 ∨ 0x10 ≤ u.comp → OnlyRegs [a, Reg.UPD_STAT] s t ∧
          t.up.current = some { u with since := s.now, soakSince := s.now })) ∧
    (let soaked := 0x10 ≤ u.comp ∨ (u.soakSince.toNat + u.soak * 1000000000 ≤ s.now.toNat ∧
       s.now.toNat < u.since.toNat + u.window * 1000000000)
     (s.ab.up = false ∨ compState s u.comp ≠ 4 ∨ healthy s u = false ∨ ¬soaked → exec .updConfirmed s = .next s) ∧
     (s.ab.up = true → compState s u.comp = 4 → healthy s u = true → soaked → ∃ t q, exec .updConfirmed s = .next t ∧
       t.up.current = none ∧ compState t u.comp = 5 ∧ t.fld a F.UPD_COMP_HELD = 0 ∧ t.reg Reg.UPD_STAT = 0 ∧
       (∃ x, some x ∈ t.up.gens.toList ∧ ∃ d ∈ x.installed, d.comp = u.comp ∧ d.version = packageVersion u.package) ∧
       t.ab.meas[(7 : Fin 8)] = hash48 (s.ab.meas[(7 : Fin 8)] ++ hash48 ((u.image s).header ++ (u.image s).manifest)) ∧
       (u.comp = 3 → SeqRoom s → (∀ i, i < 2 → (slotMark s i = 4 → slotMark t i = 2) ∧ (slotMark s i = 2 → slotMark t i = 1)) ∧
         (rollback s 0 < min (recNat u.package 12 4) 64 → rollback t 0 = min (recNat u.package 12 4) 64)) ∧
       (∃ x, some x ∈ t.up.gens.toList ∧ x.outcomes.getLast? = some (u.comp, 0)) ∧
       Raised s t (q ++ (999, payCause 0 u.comp) :: ((if 0x10 ≤ u.comp then [(1002, payCause 3 (0x10 + h) h)] else []) ++
         [(997, payCause 3 u.comp)])))) ∧
    ∀ reason : Fin 7,
      (s.ab.up = false ∨ (compState s u.comp ≠ 6 ∧ revertDue s u reason = false) → exec (.updateReverted reason) s = .next s) ∧
      (s.ab.up = true → compState s u.comp = 6 → u.left = [] → same → s.pl.change = none → stopped → u.reason < 16 →
        ∃ t, exec (.updateReverted reason) s = .next t ∧ t.up.current = none ∧ compState t u.comp = 7 ∧
          t.fld a F.UPD_COMP_REASON = u.reason ∧ t.reg Reg.UPD_STAT = 0 ∧ (u.comp, u.reason) ∈ t.up.outcomes ∧
          t.raises.getLast?.map (fun r => (r.source, r.pay)) = some (1000, payCause u.reason u.comp)) ∧
      (s.ab.up = true → compState s u.comp ≠ 6 → revertDue s u reason = true →
        exec (.updateReverted reason) s = .next (startRevert s u reason) ∧
        (0x10 ≤ u.comp → ∃ t, exec (.updateReverted reason) s = .next t ∧ t.up.current = none ∧ compState t (0x10 + h) = 8 ∧
          ∃ q, Raised s t (q ++ [(1001, payCause 29 (0x10 + h))])))) ∧
  ∀ (reason : Fin 7) (s : State), s.ab.up = true → s.up.current = none →
    (s.up.lost = none ∨ reason ≠ 6 → exec (.updateReverted reason) s = .next s) ∧
    ∀ u, reason = 6 → s.up.lost = some u → ∃ t, exec (.updateReverted reason) s = .next t ∧ t.up.lost = none ∧
      compState t u.comp = 7 ∧ t.fld (Reg.UPD_COMP u.comp) F.UPD_COMP_REASON = 6 ∧ OnlyRegs [Reg.UPD_COMP u.comp] s t ∧
      (u.comp, 6) ∈ t.up.outcomes ∧ Raised s t [(1000, payCause 6 u.comp)]

/-- O57. A sample of a powered island shows in FH_SPAN; a condition that the sample before showed too is a breach
once, sets TRIP and FLAGGED, raises SPAN_HEALTH, and flags an idle pair or the standby, which leaves no standby.
DEV_TEMP is raised at a rise above TJ_WARN. A FLAGGED pair without a role is diagnosed: passed, repaired by bypasses
and tested again, or retired, with FH_DIAG raised. The tables that avoid a degraded link go to the inactive epoch
and flip; where no such table exists, NO_ROUTE is counted and raised. A second of wear adds AF to each powered pair
and to the deck; the record goes to the older copy; WEAR_WARN comes once a day. ARM starts a trace unit and STOP
ends it. (R55, R458, R460, R461, R462, R463, R464, R465, R466, R468) -/
def Obligations.HealthCommandsComplete : Prop :=
  (∀ (n : Fin 17) (volt : BitVec 10) (temp : BitVec 8) (s : State),
    let a := Reg.FH_SPAN n
    let low := volt.toNat < s.fld (Reg.DC_ISLAND n) F.DC_ISLAND_TARGET - s.fld Reg.FH_LIMITS F.FH_LIMITS_VLOW_MV
    let hot := (s.fld Reg.FH_LIMITS F.FH_LIMITS_THOT : Int) < temp.toInt
    let breach (q : Fin 3) : Prop := (n, q) ∉ s.fh.breach ∧ ((q = 0 ∧ low ∧ s.fld a F.FH_SPAN_V_LOW = 1) ∨
      (q = 1 ∧ 830 < volt.toNat ∧ s.fld a F.FH_SPAN_V_HIGH = 1) ∨ (q = 2 ∧ hot ∧ s.fld a F.FH_SPAN_T_HOT = 1))
    let go := exec (.spanHealth n volt temp) s
    (s.fld (Reg.DC_ISLAND n) F.DC_ISLAND_STATE = 0 → go = .next s) ∧
    (s.fld (Reg.DC_ISLAND n) F.DC_ISLAND_STATE ≠ 0 → ∃ t, go = .next t ∧ t.fld a F.FH_SPAN_VOLT = volt.toNat ∧
      t.fld a F.FH_SPAN_TEMP = temp.toNat ∧ (t.fld a F.FH_SPAN_V_LOW = 1 ↔ low) ∧
      (t.fld a F.FH_SPAN_V_HIGH = 1 ↔ 830 < volt.toNat) ∧ (t.fld a F.FH_SPAN_T_HOT = 1 ↔ hot) ∧
      ((∀ q, ¬breach q) → OnlyRegs [a] s t ∧ Raised s t [] ∧ t.fld a F.FH_SPAN_TRIP = s.fld a F.FH_SPAN_TRIP) ∧
      (∀ q, breach q → t.fld a F.FH_SPAN_TRIP = 1 ∧ t.fld (Reg.ARR_STAT n) F.ARR_STAT_FLAGGED = 1 ∧ (n, q) ∈ t.fh.breach ∧
        (∃ r ∈ t.raises, r.source = 960 + n.val ∧ r.pay = payCause (q.val + 1)) ∧
        (plUse s n = 0 → plUse t n = 5) ∧
        (plUse s n ≠ 0 → standby s = some n → sby s = 1 →
          standby t = none ∧ sby t = 0 ∧ plUse t n = 5 ∧ t.roleOf n = 31)))) ∧
  (∀ (temp : BitVec 8) (s : State),
    let hot := (s.fld Reg.FH_LIMITS F.FH_LIMITS_TJ_WARN : Int) < temp.toInt
    ∃ t, exec (.devTemp temp) s = .next t ∧ (t.fh.hot = true ↔ hot) ∧ (hot → s.fh.hot = false → Raised s t [(977, 0)]) ∧
      (¬hot ∨ s.fh.hot = true → Raised s t []) ∧ t = { s with fh := { s.fh with hot := t.fh.hot }, raises := t.raises }) ∧
  (∀ (n : Fin 17) (s : State),
    let can := s.fld Reg.FH_CTL F.FH_CTL_DIAG_AUTO = 1 ∧ (plUse s n = 5 ∨ s.fld (Reg.ARR_STAT n) F.ARR_STAT_FLAGGED = 1) ∧
      s.roleOf n = 31 ∧ plUse s n ≠ 6 ∧ s.fh.diag = none ∧ ∀ f ∈ s.jointFlags, f.2.2 ≠ n
    (¬can → exec (.diagnosisStart n) s = .next s) ∧
    (can → ∃ t, exec (.diagnosisStart n) s = .next t ∧ t.fh = { s.fh with diag := some (n, false) } ∧ plUse t n = 4 ∧
      OnlyRegs [Reg.PL_PHYS n] s t ∧ t = { s with regs := t.regs, fh := t.fh })) ∧
  (∀ (n : Fin 17) (pass others : Bool) (cols : List (Fin 16 × Fin 32 × Fin 33)) (s : State),
    let go := exec (.fhDiag n pass others cols) s
    let retired := ∃ t q, go = .next t ∧ t.fh.diag = none ∧ plUse t n = 6 ∧ t.roleOf n = 31 ∧
      islandState t n = 0 ∧ islandTarget t n = 0 ∧ (∃ e ∈ t.fh.repairs, e.kind = 3 ∧ e.unit = n.val ∧ e.good = true) ∧
      Raised s t (q ++ [(979, payCause 3 n.val)])
    let byp (g : Fin 32) : Fld := bypFields.getD (g.val % 4) F.SPARE_MAP_BYP0
    let free := ∀ c ∈ cols, (byp c.2.1).get (s.reg (Reg.SPARE_MAP n c.1.val (c.2.1.val / 4))) = 32 ∧
      (cols.filter (fun d => d.1 == c.1 && d.2.1 == c.2.1)).length = 1
    (s.fh.diag = none → go = .next s) ∧ (∀ m b, s.fh.diag = some (m, b) → m ≠ n → go = .next s) ∧
    (∀ b, s.fh.diag = some (n, b) →
      (3 ≤ recentFaults s n → retired) ∧
      (recentFaults s n < 3 → pass = true → ∃ t q, go = .next t ∧ t.fh.diag = none ∧ n ∉ t.fh.flagged ∧
        t.fld (Reg.ARR_STAT n) F.ARR_STAT_FLAGGED = 0 ∧ Raised s t (q ++ [(979, payCause (if b = true then 2 else 1) n.val)]) ∧
        (standby s = none → sby s = 0 → standby t = some n ∧ sby t = 1 ∧ plUse t n = 2) ∧
        (standby s ≠ none → plUse t n = 0 ∧ standby t = standby s)) ∧
      (recentFaults s n < 3 → pass = false → cols ≠ [] → others = false → free → ∃ t, go = .next t ∧
        t.fh.diag = some (n, true) ∧ Raised s t [] ∧ (spcState s (lead s n) = 3 →
          ∀ c ∈ cols, (byp c.2.1).get (t.reg (Reg.SPARE_MAP n c.1.val (c.2.1.val / 4))) = c.2.2.val)) ∧
      (pass = false → cols = [] ∨ others = true ∨ ¬free → retired))) ∧
  (∀ (r : Fin 48) (p : Fin 8) (ts : List Word) (s : State),
    let l := (r.val, p.val)
    let avoid := s.fh.avoided ++ [l]
    let due := s.ab.up = true ∧ l ∈ s.fh.linkDue ∧ l ∉ s.fh.avoided ∧ l ∉ s.fh.noRoute
    let exist := p.val < 4 ∧ tableExists avoid = true
    let go := exec (.linkDegrade r p ts) s
    (¬due → go = .next s) ∧
    (due → ¬exist → ∃ t, go = .next t ∧ t.fh = { s.fh with noRoute := s.fh.noRoute ++ [l] } ∧
      t.fld Reg.FH_LINKS F.FH_LINKS_NO_ROUTE = min (s.fld Reg.FH_LINKS F.FH_LINKS_NO_ROUTE + 1) 255 ∧
      OnlyRegs [Reg.FH_LINKS] s t ∧ Raised s t [(978, payCause 2 r.val p.val)]) ∧
    (due → exist → tablesAvoid ts avoid = false ∨ s.fld Reg.CW_STAT F.CW_STAT_DRAINED = 0 → go = .next s) ∧
    (due → exist → tablesAvoid ts avoid = true → s.fld Reg.CW_STAT F.CW_STAT_DRAINED = 1 → ∃ t q, go = .next t ∧
      t.fh = { s.fh with avoided := avoid } ∧ routeEpoch t = !routeEpoch s ∧
      (∀ i, i < 288 → t.reg (Reg.RT_TABLE (i / 6) (!routeEpoch s).toNat (i % 6)) = ts.getD i 0) ∧
      t.fld Reg.FH_LINKS F.FH_LINKS_DEGRADED = min (s.fld Reg.FH_LINKS F.FH_LINKS_DEGRADED + 1) 255 ∧
      Raised s t (q ++ [(978, payCause 1 r.val p.val)]))) ∧
  (∀ (temp : BitVec 8) (ds : List (BitVec 16)) (s : State),
    let drift (n : Fin 17) : Nat := if (s.array n).powered = true then (ds[n.val]?.map (·.toNat)).getD (s.fh.wear[n.val]).drift
      else (s.fh.wear[n.val]).drift
    ((∀ n, drift n < 5000) → ∃ t, exec (.wearTick temp ds) s = .next t ∧ t.fh = { s.fh with wear := t.fh.wear, seconds := s.fh.seconds + 1 } ∧
      t.fh.wear[17] = wearSecond (acceleration temp.toInt 750) 0 s.fh.wear[17] ∧ Raised s t [] ∧
      t.reg Reg.WR_DEV_HRS = BitVec.ofNat 32 (min (2 ^ 32 - 1) ((t.fh.wear[17]).eq / 2 ^ 32 / 3600)) ∧
      ∀ n : Fin 17, t.fh.wear[n.val] = if (s.array n).powered = true then wearSecond
        (acceleration ((BitVec.ofNat 8 (s.fld (Reg.FH_SPAN n) F.FH_SPAN_TEMP)).toInt) (s.fld (Reg.FH_SPAN n) F.FH_SPAN_VOLT))
        (drift n) s.fh.wear[n.val] else s.fh.wear[n.val]) ∧
    ∀ n, (∀ m, m ≠ n → drift m < 5000) → 5000 ≤ drift n → plUse s n = 0 → s.roleOf n = 31 →
      ∃ t, exec (.wearTick temp ds) s = .next t ∧ plUse t n = 6 ∧ islandState t n = 0 ∧ islandTarget t n = 0) ∧
  (∀ s : State, ∃ t, exec .wearRecordWrite s = .next t ∧ t.fh.last ≠ s.fh.last ∧
    t.fh.records[t.fh.last] = ⟨s.fh.wear.toList, s.fh.seconds⟩ ∧ t.fh.records[s.fh.last] = s.fh.records[s.fh.last] ∧
    t = { s with fh := { s.fh with records := t.fh.records, last := t.fh.last } }) ∧
  (∀ s : State,
    let day := s.fh.seconds / 86400
    let warns := (s.reg Reg.WR_EOL).toNat < s.fld Reg.WR_CTL F.WR_CTL_WARN_DAYS ∧ s.fh.warned ≠ some day
    (¬warns → exec .wearWarn s = .next s) ∧
    (warns → ∃ t, exec .wearWarn s = .next t ∧ t.fh = { s.fh with warned := some day } ∧ t.regs = s.regs ∧
      Raised s t [(980, s.reg Reg.WR_EOL)])) ∧
  ∀ (k : Fin 4) (s : State),
    let a := Reg.TRC_STAT k
    (s.fld a F.TRC_STAT_ARMED = 1 → exec (.arm k) s = .next s ∧ ∃ t, exec (.stop k) s = .next t ∧
      t.fld a F.TRC_STAT_ARMED = 0 ∧ t.fld a F.TRC_STAT_NEXT = s.fld a F.TRC_STAT_NEXT ∧
      t.fld a F.TRC_STAT_TRIGGERED = s.fld a F.TRC_STAT_TRIGGERED ∧ t.fh = { s.fh with post := s.fh.post.set k none } ∧
      OnlyRegs [a] s t ∧ Raised s t [(981, payCause 0 k.val)]) ∧
    (s.fld a F.TRC_STAT_ARMED = 0 → exec (.stop k) s = .next s ∧ ∃ t, exec (.arm k) s = .next t ∧
      t.fld a F.TRC_STAT_ARMED = 1 ∧ t.fld a F.TRC_STAT_TRIGGERED = 0 ∧ t.fld a F.TRC_STAT_WRAPPED = 0 ∧
      t.fld a F.TRC_STAT_NEXT = 0 ∧ t.fh = { s.fh with post := s.fh.post.set k none } ∧ OnlyRegs [a] s t ∧ Raised s t [])

/-- O58. PORST#, a lost REFCLK, a thermal trip and a power loss reset both dies: every register but DC_RSTCAUSE and
every byte of memory reads as after reset, no session stays, and what fuses and flash hold stays, with wear as the
record written last has it. The cause that the next boot reads is POWER_ON, REFCLK_LOSS or THERMAL; THERMTRIP# stays
low until the power is lost. While TESTEN is high the device stays in reset. A glitch is counted. A write torn by a
power loss leaves the counter's value, the directory copy in force, the generation in force and the live repair
entries as they were. (R373, R376, R386, R440, R463, R465, R475, R480, R481, R484, R485, R487) -/
def Obligations.PackageCommandsComplete : Prop :=
  let wiped (s t : State) (pk : Package) : Prop := t.pk = pk ∧ (∀ a, a ≠ Reg.DC_RSTCAUSE → t.reg a = State.reset.reg a) ∧
    t.mem = [] ∧ t.errs = [] ∧ bootState t = 0 ∧ t.ab.up = false ∧ t.ab.halt = false ∧ (∀ k, session t k = none) ∧
    t.pending = s.pending ∧ t.ab.revoked = s.ab.revoked ∧ t.ab.board = s.ab.board ∧ t.ab.slots = s.ab.slots ∧
    t.fh.records = s.fh.records ∧ t.fh.last = s.fh.last ∧ t.fh.seconds = (s.fh.records[s.fh.last]).seconds ∧
    (∀ i : Fin 18, t.fh.wear[i] = (s.fh.records[s.fh.last]).wear.getD i.val .fresh)
  let kept (s t : State) : Prop := t.ab.owners = s.ab.owners ∧ t.ab.counters = s.ab.counters ∧ t.ab.dirs = s.ab.dirs ∧
    t.up.gens = s.up.gens ∧ t.fh.repairs = s.fh.repairs
  let cause (s : State) : Nat := if s.pk.inReset = true then s.pk.cause else 1
  (∀ s : State,
    (∃ t, exec .porstAssert s = .next t ∧ wiped s t ⟨true, s.pk.tripped, cause s, s.pk.testen, none⟩ ∧ kept s t) ∧
    (∃ t, exec .refclkLoss s = .next t ∧ wiped s t ⟨true, s.pk.tripped, 2, s.pk.testen, none⟩ ∧ kept s t) ∧
    (∃ t, exec .thermtrip s = .next t ∧ wiped s t ⟨true, true, 3, s.pk.testen, none⟩ ∧ kept s t ∧ thermtripLow t = true) ∧
    (∃ t, exec (.powerLoss none) s = .next t ∧ wiped s t ⟨true, false, cause s, s.pk.testen, none⟩ ∧ kept s t ∧ thermtripLow t = false) ∧
    (s.pk.testen = true → exec .porstRelease s = .next s) ∧
    (s.pk.testen = false → exec .porstRelease s = .next { s with pk := { s.pk with inReset := false } }) ∧
    (∃ t, exec .refclkGlitch s = .next t ∧ t.fld Reg.DC_CLKSTAT F.DC_CLKSTAT_GLITCH =
      min (s.fld Reg.DC_CLKSTAT F.DC_CLKSTAT_GLITCH + 1) 65535 ∧ OnlyRegs [Reg.DC_CLKSTAT] s t ∧ t = { s with regs := t.regs }) ∧
    (∀ rail : Fin 9, s.pk.inReset = false → s.ab.halt = false → s.ab.up = false → bootState s = 0 →
      ∃ t, exec (.romDone rail) s = .next t ∧ t.fld Reg.DC_RSTCAUSE F.DC_RSTCAUSE_CAUSE = s.pk.cause % 8)) ∧
  ∀ (w : TornWrite) (s : State), ∃ t, exec (.powerLoss (some w)) s = .next t ∧ wiped s t ⟨true, false, cause s, s.pk.testen, none⟩ ∧
    (∀ i : Fin 4, rollback t i = rollback s i) ∧
    (∀ i : Fin 4, (t.ab.counters[i]).half = true ↔ w = .fuse i ∨ (s.ab.counters[i]).half = true) ∧
    (∀ i : Fin 4, w ≠ .owner i ∨ (s.ab.owners[i]).state ≠ 0 → t.ab.owners[i] = s.ab.owners[i]) ∧
    (∀ i : Fin 4, w = .owner i → (s.ab.owners[i]).state = 0 → (t.ab.owners[i]).state = 2) ∧
    dirInForce t = dirInForce s ∧ (∀ k, dirInForce s = some k → t.ab.dirs[k.1] = s.ab.dirs[k.1]) ∧
    (∀ g, generation s = some g → s.up.gens[((g.gen.toNat + 1) % 8)]'(Nat.mod_lt _ (by omega)) ≠ some g → generation t = some g) ∧
    liveRepairs t.fh.repairs = liveRepairs s.fh.repairs

/-- O59. After reset the stores are canonical and empty and no command waits; a field reads its reset value, boot is
in ROM, no pair holds a role, no session is open, the groups are idle, the abutment firmware does not run, and no
image is loaded. That memory reads 0 where nothing has been written is the model's choice (assumption log, entry 4).
(R356, R378, 02_bit_processors.md, 12_images_placement.md, 13_abutment_security.md, 17_package_electrical.md) -/
def Obligations.ResetState : Prop :=
  State.reset.Canonical ∧ State.reset.pending = [] ∧ State.reset.mem = [] ∧ State.reset.raises = [] ∧
  bootState State.reset = 0 ∧ State.reset.ab.up = false ∧ State.reset.pl.image = none ∧ (∀ a, State.reset.byte a = 0) ∧
  (∀ n : Fin 17, State.reset.roleOf n = 31 ∧ spcState State.reset n = 3) ∧ (∀ k, session State.reset k = none) ∧
  (∀ g : Fin 8, tgState State.reset g = 0) ∧ State.reset.fld Reg.DC_RSTCAUSE F.DC_RSTCAUSE_CAUSE = 1 ∧
  State.reset.fld Reg.PL_STAT F.PL_STAT_SBY_PHYS = 31 ∧
  ∀ n : Fin 17, ∀ t w, t < 16 → w < 8 → State.reset.fld (Reg.SPARE_MAP n t w) F.SPARE_MAP_BYP0 = 32

/-- O60. From every state whose register store and memory are in canonical form, with addresses rising and no entry
equal to what an unlisted address reads as, every step gives a state whose stores are in canonical form. (R13,
01_architecture.md, 95_what_each_step_holds.md) -/
def Obligations.StepKeepsCanonicalForms : Prop :=
  ∀ s t : State, s.Canonical → step s = .next t → t.Canonical
end

