-- ==== Sys2Proof/Laws/State.lean ====
section
/-!
SUPPORT. What each named update of the state leaves unchanged, one lemma for each field and each accessor, all true by
unfolding; generated from the list of fields of `State`.
-/

namespace Sys2Proof.Machine.State

variable (s : State)

/-! ### setReg -/

@[simp] theorem setReg_mem (a : Nat) (w : BitVec 32) : (s.setReg a w).mem = s.mem := rfl
@[simp] theorem setReg_errs (a : Nat) (w : BitVec 32) : (s.setReg a w).errs = s.errs := rfl
@[simp] theorem setReg_parity (a : Nat) (w : BitVec 32) : (s.setReg a w).parity = s.parity := rfl
@[simp] theorem setReg_arrays (a : Nat) (w : BitVec 32) : (s.setReg a w).arrays = s.arrays := rfl
@[simp] theorem setReg_micros (a : Nat) (w : BitVec 32) : (s.setReg a w).micros = s.micros := rfl
@[simp] theorem setReg_ctls (a : Nat) (w : BitVec 32) : (s.setReg a w).ctls = s.ctls := rfl
@[simp] theorem setReg_heads (a : Nat) (w : BitVec 32) : (s.setReg a w).heads = s.heads := rfl
@[simp] theorem setReg_regions (a : Nat) (w : BitVec 32) : (s.setReg a w).regions = s.regions := rfl
@[simp] theorem setReg_rx (a : Nat) (w : BitVec 32) : (s.setReg a w).rx = s.rx := rfl
@[simp] theorem setReg_trk (a : Nat) (w : BitVec 32) : (s.setReg a w).trk = s.trk := rfl
@[simp] theorem setReg_jointFlags (a : Nat) (w : BitVec 32) : (s.setReg a w).jointFlags = s.jointFlags := rfl
@[simp] theorem setReg_jointSpan (a : Nat) (w : BitVec 32) : (s.setReg a w).jointSpan = s.jointSpan := rfl
@[simp] theorem setReg_jointBelow (a : Nat) (w : BitVec 32) : (s.setReg a w).jointBelow = s.jointBelow := rfl
@[simp] theorem setReg_cw (a : Nat) (w : BitVec 32) : (s.setReg a w).cw = s.cw := rfl
@[simp] theorem setReg_slOut (a : Nat) (w : BitVec 32) : (s.setReg a w).slOut = s.slOut := rfl
@[simp] theorem setReg_reports (a : Nat) (w : BitVec 32) : (s.setReg a w).reports = s.reports := rfl
@[simp] theorem setReg_trusted (a : Nat) (w : BitVec 32) : (s.setReg a w).trusted = s.trusted := rfl
@[simp] theorem setReg_pads (a : Nat) (w : BitVec 32) : (s.setReg a w).pads = s.pads := rfl
@[simp] theorem setReg_lg (a : Nat) (w : BitVec 32) : (s.setReg a w).lg = s.lg := rfl
@[simp] theorem setReg_rf (a : Nat) (w : BitVec 32) : (s.setReg a w).rf = s.rf := rfl
@[simp] theorem setReg_cr (a : Nat) (w : BitVec 32) : (s.setReg a w).cr = s.cr := rfl
@[simp] theorem setReg_tm (a : Nat) (w : BitVec 32) : (s.setReg a w).tm = s.tm := rfl
@[simp] theorem setReg_rn (a : Nat) (w : BitVec 32) : (s.setReg a w).rn = s.rn := rfl
@[simp] theorem setReg_d5 (a : Nat) (w : BitVec 32) : (s.setReg a w).d5 = s.d5 := rfl
@[simp] theorem setReg_kp (a : Nat) (w : BitVec 32) : (s.setReg a w).kp = s.kp := rfl
@[simp] theorem setReg_eh (a : Nat) (w : BitVec 32) : (s.setReg a w).eh = s.eh := rfl
@[simp] theorem setReg_ownerStage (a : Nat) (w : BitVec 32) : (s.setReg a w).ownerStage = s.ownerStage := rfl
@[simp] theorem setReg_muted (a : Nat) (w : BitVec 32) : (s.setReg a w).muted = s.muted := rfl
@[simp] theorem setReg_pl (a : Nat) (w : BitVec 32) : (s.setReg a w).pl = s.pl := rfl
@[simp] theorem setReg_ab (a : Nat) (w : BitVec 32) : (s.setReg a w).ab = s.ab := rfl
@[simp] theorem setReg_up (a : Nat) (w : BitVec 32) : (s.setReg a w).up = s.up := rfl
@[simp] theorem setReg_fh (a : Nat) (w : BitVec 32) : (s.setReg a w).fh = s.fh := rfl
@[simp] theorem setReg_pk (a : Nat) (w : BitVec 32) : (s.setReg a w).pk = s.pk := rfl
@[simp] theorem setReg_now (a : Nat) (w : BitVec 32) : (s.setReg a w).now = s.now := rfl
@[simp] theorem setReg_raises (a : Nat) (w : BitVec 32) : (s.setReg a w).raises = s.raises := rfl
@[simp] theorem setReg_freeCtr (a : Nat) (w : BitVec 32) : (s.setReg a w).freeCtr = s.freeCtr := rfl
@[simp] theorem setReg_pending (a : Nat) (w : BitVec 32) : (s.setReg a w).pending = s.pending := rfl
@[simp] theorem setReg_byte (a : Nat) (w : BitVec 32) (b : Nat) : (s.setReg a w).byte b = s.byte b := rfl
@[simp] theorem setReg_errMask (a : Nat) (w : BitVec 32) (b : Nat) : (s.setReg a w).errMask b = s.errMask b := rfl
@[simp] theorem setReg_array (a : Nat) (w : BitVec 32) (k : Fin 17) : (s.setReg a w).array k = s.array k := rfl
@[simp] theorem setReg_micro (a : Nat) (w : BitVec 32) (k : Fin 17) : (s.setReg a w).micro k = s.micro k := rfl
@[simp] theorem setReg_ctl (a : Nat) (w : BitVec 32) (k : Fin 17) : (s.setReg a w).ctl k = s.ctl k := rfl
@[simp] theorem setReg_head (a : Nat) (w : BitVec 32) (k : Fin 16) : (s.setReg a w).head k = s.head k := rfl
@[simp] theorem setReg_region (a : Nat) (w : BitVec 32) (k : Fin 17) : (s.setReg a w).region k = s.region k := rfl
@[simp] theorem setReg_ext (a : Nat) (w : BitVec 32) (k : Fin 17) : (s.setReg a w).ext k = s.ext k := rfl
@[simp] theorem setReg_domain (a : Nat) (w : BitVec 32) (k : Fin 16) : (s.setReg a w).domain k = s.domain k := rfl

/-! ### setFld -/

@[simp] theorem setFld_mem (a : Nat) (f : Fld) (v : Nat) : (s.setFld a f v).mem = s.mem := rfl
@[simp] theorem setFld_errs (a : Nat) (f : Fld) (v : Nat) : (s.setFld a f v).errs = s.errs := rfl
@[simp] theorem setFld_parity (a : Nat) (f : Fld) (v : Nat) : (s.setFld a f v).parity = s.parity := rfl
@[simp] theorem setFld_arrays (a : Nat) (f : Fld) (v : Nat) : (s.setFld a f v).arrays = s.arrays := rfl
@[simp] theorem setFld_micros (a : Nat) (f : Fld) (v : Nat) : (s.setFld a f v).micros = s.micros := rfl
@[simp] theorem setFld_ctls (a : Nat) (f : Fld) (v : Nat) : (s.setFld a f v).ctls = s.ctls := rfl
@[simp] theorem setFld_heads (a : Nat) (f : Fld) (v : Nat) : (s.setFld a f v).heads = s.heads := rfl
@[simp] theorem setFld_regions (a : Nat) (f : Fld) (v : Nat) : (s.setFld a f v).regions = s.regions := rfl
@[simp] theorem setFld_rx (a : Nat) (f : Fld) (v : Nat) : (s.setFld a f v).rx = s.rx := rfl
@[simp] theorem setFld_trk (a : Nat) (f : Fld) (v : Nat) : (s.setFld a f v).trk = s.trk := rfl
@[simp] theorem setFld_jointFlags (a : Nat) (f : Fld) (v : Nat) : (s.setFld a f v).jointFlags = s.jointFlags := rfl
@[simp] theorem setFld_jointSpan (a : Nat) (f : Fld) (v : Nat) : (s.setFld a f v).jointSpan = s.jointSpan := rfl
@[simp] theorem setFld_jointBelow (a : Nat) (f : Fld) (v : Nat) : (s.setFld a f v).jointBelow = s.jointBelow := rfl
@[simp] theorem setFld_cw (a : Nat) (f : Fld) (v : Nat) : (s.setFld a f v).cw = s.cw := rfl
@[simp] theorem setFld_slOut (a : Nat) (f : Fld) (v : Nat) : (s.setFld a f v).slOut = s.slOut := rfl
@[simp] theorem setFld_reports (a : Nat) (f : Fld) (v : Nat) : (s.setFld a f v).reports = s.reports := rfl
@[simp] theorem setFld_trusted (a : Nat) (f : Fld) (v : Nat) : (s.setFld a f v).trusted = s.trusted := rfl
@[simp] theorem setFld_pads (a : Nat) (f : Fld) (v : Nat) : (s.setFld a f v).pads = s.pads := rfl
@[simp] theorem setFld_lg (a : Nat) (f : Fld) (v : Nat) : (s.setFld a f v).lg = s.lg := rfl
@[simp] theorem setFld_rf (a : Nat) (f : Fld) (v : Nat) : (s.setFld a f v).rf = s.rf := rfl
@[simp] theorem setFld_cr (a : Nat) (f : Fld) (v : Nat) : (s.setFld a f v).cr = s.cr := rfl
@[simp] theorem setFld_tm (a : Nat) (f : Fld) (v : Nat) : (s.setFld a f v).tm = s.tm := rfl
@[simp] theorem setFld_rn (a : Nat) (f : Fld) (v : Nat) : (s.setFld a f v).rn = s.rn := rfl
@[simp] theorem setFld_d5 (a : Nat) (f : Fld) (v : Nat) : (s.setFld a f v).d5 = s.d5 := rfl
@[simp] theorem setFld_kp (a : Nat) (f : Fld) (v : Nat) : (s.setFld a f v).kp = s.kp := rfl
@[simp] theorem setFld_eh (a : Nat) (f : Fld) (v : Nat) : (s.setFld a f v).eh = s.eh := rfl
@[simp] theorem setFld_ownerStage (a : Nat) (f : Fld) (v : Nat) : (s.setFld a f v).ownerStage = s.ownerStage := rfl
@[simp] theorem setFld_muted (a : Nat) (f : Fld) (v : Nat) : (s.setFld a f v).muted = s.muted := rfl
@[simp] theorem setFld_pl (a : Nat) (f : Fld) (v : Nat) : (s.setFld a f v).pl = s.pl := rfl
@[simp] theorem setFld_ab (a : Nat) (f : Fld) (v : Nat) : (s.setFld a f v).ab = s.ab := rfl
@[simp] theorem setFld_up (a : Nat) (f : Fld) (v : Nat) : (s.setFld a f v).up = s.up := rfl
@[simp] theorem setFld_fh (a : Nat) (f : Fld) (v : Nat) : (s.setFld a f v).fh = s.fh := rfl
@[simp] theorem setFld_pk (a : Nat) (f : Fld) (v : Nat) : (s.setFld a f v).pk = s.pk := rfl
@[simp] theorem setFld_now (a : Nat) (f : Fld) (v : Nat) : (s.setFld a f v).now = s.now := rfl
@[simp] theorem setFld_raises (a : Nat) (f : Fld) (v : Nat) : (s.setFld a f v).raises = s.raises := rfl
@[simp] theorem setFld_freeCtr (a : Nat) (f : Fld) (v : Nat) : (s.setFld a f v).freeCtr = s.freeCtr := rfl
@[simp] theorem setFld_pending (a : Nat) (f : Fld) (v : Nat) : (s.setFld a f v).pending = s.pending := rfl
@[simp] theorem setFld_byte (a : Nat) (f : Fld) (v : Nat) (b : Nat) : (s.setFld a f v).byte b = s.byte b := rfl
@[simp] theorem setFld_errMask (a : Nat) (f : Fld) (v : Nat) (b : Nat) : (s.setFld a f v).errMask b = s.errMask b := rfl
@[simp] theorem setFld_array (a : Nat) (f : Fld) (v : Nat) (k : Fin 17) : (s.setFld a f v).array k = s.array k := rfl
@[simp] theorem setFld_micro (a : Nat) (f : Fld) (v : Nat) (k : Fin 17) : (s.setFld a f v).micro k = s.micro k := rfl
@[simp] theorem setFld_ctl (a : Nat) (f : Fld) (v : Nat) (k : Fin 17) : (s.setFld a f v).ctl k = s.ctl k := rfl
@[simp] theorem setFld_head (a : Nat) (f : Fld) (v : Nat) (k : Fin 16) : (s.setFld a f v).head k = s.head k := rfl
@[simp] theorem setFld_region (a : Nat) (f : Fld) (v : Nat) (k : Fin 17) : (s.setFld a f v).region k = s.region k := rfl
@[simp] theorem setFld_ext (a : Nat) (f : Fld) (v : Nat) (k : Fin 17) : (s.setFld a f v).ext k = s.ext k := rfl
@[simp] theorem setFld_domain (a : Nat) (f : Fld) (v : Nat) (k : Fin 16) : (s.setFld a f v).domain k = s.domain k := rfl

/-! ### bump -/

@[simp] theorem bump_mem (a : Nat) (f : Fld) (v : Nat) : (s.bump a f v).mem = s.mem := rfl
@[simp] theorem bump_errs (a : Nat) (f : Fld) (v : Nat) : (s.bump a f v).errs = s.errs := rfl
@[simp] theorem bump_parity (a : Nat) (f : Fld) (v : Nat) : (s.bump a f v).parity = s.parity := rfl
@[simp] theorem bump_arrays (a : Nat) (f : Fld) (v : Nat) : (s.bump a f v).arrays = s.arrays := rfl
@[simp] theorem bump_micros (a : Nat) (f : Fld) (v : Nat) : (s.bump a f v).micros = s.micros := rfl
@[simp] theorem bump_ctls (a : Nat) (f : Fld) (v : Nat) : (s.bump a f v).ctls = s.ctls := rfl
@[simp] theorem bump_heads (a : Nat) (f : Fld) (v : Nat) : (s.bump a f v).heads = s.heads := rfl
@[simp] theorem bump_regions (a : Nat) (f : Fld) (v : Nat) : (s.bump a f v).regions = s.regions := rfl
@[simp] theorem bump_rx (a : Nat) (f : Fld) (v : Nat) : (s.bump a f v).rx = s.rx := rfl
@[simp] theorem bump_trk (a : Nat) (f : Fld) (v : Nat) : (s.bump a f v).trk = s.trk := rfl
@[simp] theorem bump_jointFlags (a : Nat) (f : Fld) (v : Nat) : (s.bump a f v).jointFlags = s.jointFlags := rfl
@[simp] theorem bump_jointSpan (a : Nat) (f : Fld) (v : Nat) : (s.bump a f v).jointSpan = s.jointSpan := rfl
@[simp] theorem bump_jointBelow (a : Nat) (f : Fld) (v : Nat) : (s.bump a f v).jointBelow = s.jointBelow := rfl
@[simp] theorem bump_cw (a : Nat) (f : Fld) (v : Nat) : (s.bump a f v).cw = s.cw := rfl
@[simp] theorem bump_slOut (a : Nat) (f : Fld) (v : Nat) : (s.bump a f v).slOut = s.slOut := rfl
@[simp] theorem bump_reports (a : Nat) (f : Fld) (v : Nat) : (s.bump a f v).reports = s.reports := rfl
@[simp] theorem bump_trusted (a : Nat) (f : Fld) (v : Nat) : (s.bump a f v).trusted = s.trusted := rfl
@[simp] theorem bump_pads (a : Nat) (f : Fld) (v : Nat) : (s.bump a f v).pads = s.pads := rfl
@[simp] theorem bump_lg (a : Nat) (f : Fld) (v : Nat) : (s.bump a f v).lg = s.lg := rfl
@[simp] theorem bump_rf (a : Nat) (f : Fld) (v : Nat) : (s.bump a f v).rf = s.rf := rfl
@[simp] theorem bump_cr (a : Nat) (f : Fld) (v : Nat) : (s.bump a f v).cr = s.cr := rfl
@[simp] theorem bump_tm (a : Nat) (f : Fld) (v : Nat) : (s.bump a f v).tm = s.tm := rfl
@[simp] theorem bump_rn (a : Nat) (f : Fld) (v : Nat) : (s.bump a f v).rn = s.rn := rfl
@[simp] theorem bump_d5 (a : Nat) (f : Fld) (v : Nat) : (s.bump a f v).d5 = s.d5 := rfl
@[simp] theorem bump_kp (a : Nat) (f : Fld) (v : Nat) : (s.bump a f v).kp = s.kp := rfl
@[simp] theorem bump_eh (a : Nat) (f : Fld) (v : Nat) : (s.bump a f v).eh = s.eh := rfl
@[simp] theorem bump_ownerStage (a : Nat) (f : Fld) (v : Nat) : (s.bump a f v).ownerStage = s.ownerStage := rfl
@[simp] theorem bump_muted (a : Nat) (f : Fld) (v : Nat) : (s.bump a f v).muted = s.muted := rfl
@[simp] theorem bump_pl (a : Nat) (f : Fld) (v : Nat) : (s.bump a f v).pl = s.pl := rfl
@[simp] theorem bump_ab (a : Nat) (f : Fld) (v : Nat) : (s.bump a f v).ab = s.ab := rfl
@[simp] theorem bump_up (a : Nat) (f : Fld) (v : Nat) : (s.bump a f v).up = s.up := rfl
@[simp] theorem bump_fh (a : Nat) (f : Fld) (v : Nat) : (s.bump a f v).fh = s.fh := rfl
@[simp] theorem bump_pk (a : Nat) (f : Fld) (v : Nat) : (s.bump a f v).pk = s.pk := rfl
@[simp] theorem bump_now (a : Nat) (f : Fld) (v : Nat) : (s.bump a f v).now = s.now := rfl
@[simp] theorem bump_raises (a : Nat) (f : Fld) (v : Nat) : (s.bump a f v).raises = s.raises := rfl
@[simp] theorem bump_freeCtr (a : Nat) (f : Fld) (v : Nat) : (s.bump a f v).freeCtr = s.freeCtr := rfl
@[simp] theorem bump_pending (a : Nat) (f : Fld) (v : Nat) : (s.bump a f v).pending = s.pending := rfl
@[simp] theorem bump_byte (a : Nat) (f : Fld) (v : Nat) (b : Nat) : (s.bump a f v).byte b = s.byte b := rfl
@[simp] theorem bump_errMask (a : Nat) (f : Fld) (v : Nat) (b : Nat) : (s.bump a f v).errMask b = s.errMask b := rfl
@[simp] theorem bump_array (a : Nat) (f : Fld) (v : Nat) (k : Fin 17) : (s.bump a f v).array k = s.array k := rfl
@[simp] theorem bump_micro (a : Nat) (f : Fld) (v : Nat) (k : Fin 17) : (s.bump a f v).micro k = s.micro k := rfl
@[simp] theorem bump_ctl (a : Nat) (f : Fld) (v : Nat) (k : Fin 17) : (s.bump a f v).ctl k = s.ctl k := rfl
@[simp] theorem bump_head (a : Nat) (f : Fld) (v : Nat) (k : Fin 16) : (s.bump a f v).head k = s.head k := rfl
@[simp] theorem bump_region (a : Nat) (f : Fld) (v : Nat) (k : Fin 17) : (s.bump a f v).region k = s.region k := rfl
@[simp] theorem bump_ext (a : Nat) (f : Fld) (v : Nat) (k : Fin 17) : (s.bump a f v).ext k = s.ext k := rfl
@[simp] theorem bump_domain (a : Nat) (f : Fld) (v : Nat) (k : Fin 16) : (s.bump a f v).domain k = s.domain k := rfl

/-! ### setReg64 -/

@[simp] theorem setReg64_mem (a c : Nat) (v : BitVec 64) : (s.setReg64 a c v).mem = s.mem := rfl
@[simp] theorem setReg64_errs (a c : Nat) (v : BitVec 64) : (s.setReg64 a c v).errs = s.errs := rfl
@[simp] theorem setReg64_parity (a c : Nat) (v : BitVec 64) : (s.setReg64 a c v).parity = s.parity := rfl
@[simp] theorem setReg64_arrays (a c : Nat) (v : BitVec 64) : (s.setReg64 a c v).arrays = s.arrays := rfl
@[simp] theorem setReg64_micros (a c : Nat) (v : BitVec 64) : (s.setReg64 a c v).micros = s.micros := rfl
@[simp] theorem setReg64_ctls (a c : Nat) (v : BitVec 64) : (s.setReg64 a c v).ctls = s.ctls := rfl
@[simp] theorem setReg64_heads (a c : Nat) (v : BitVec 64) : (s.setReg64 a c v).heads = s.heads := rfl
@[simp] theorem setReg64_regions (a c : Nat) (v : BitVec 64) : (s.setReg64 a c v).regions = s.regions := rfl
@[simp] theorem setReg64_rx (a c : Nat) (v : BitVec 64) : (s.setReg64 a c v).rx = s.rx := rfl
@[simp] theorem setReg64_trk (a c : Nat) (v : BitVec 64) : (s.setReg64 a c v).trk = s.trk := rfl
@[simp] theorem setReg64_jointFlags (a c : Nat) (v : BitVec 64) : (s.setReg64 a c v).jointFlags = s.jointFlags := rfl
@[simp] theorem setReg64_jointSpan (a c : Nat) (v : BitVec 64) : (s.setReg64 a c v).jointSpan = s.jointSpan := rfl
@[simp] theorem setReg64_jointBelow (a c : Nat) (v : BitVec 64) : (s.setReg64 a c v).jointBelow = s.jointBelow := rfl
@[simp] theorem setReg64_cw (a c : Nat) (v : BitVec 64) : (s.setReg64 a c v).cw = s.cw := rfl
@[simp] theorem setReg64_slOut (a c : Nat) (v : BitVec 64) : (s.setReg64 a c v).slOut = s.slOut := rfl
@[simp] theorem setReg64_reports (a c : Nat) (v : BitVec 64) : (s.setReg64 a c v).reports = s.reports := rfl
@[simp] theorem setReg64_trusted (a c : Nat) (v : BitVec 64) : (s.setReg64 a c v).trusted = s.trusted := rfl
@[simp] theorem setReg64_pads (a c : Nat) (v : BitVec 64) : (s.setReg64 a c v).pads = s.pads := rfl
@[simp] theorem setReg64_lg (a c : Nat) (v : BitVec 64) : (s.setReg64 a c v).lg = s.lg := rfl
@[simp] theorem setReg64_rf (a c : Nat) (v : BitVec 64) : (s.setReg64 a c v).rf = s.rf := rfl
@[simp] theorem setReg64_cr (a c : Nat) (v : BitVec 64) : (s.setReg64 a c v).cr = s.cr := rfl
@[simp] theorem setReg64_tm (a c : Nat) (v : BitVec 64) : (s.setReg64 a c v).tm = s.tm := rfl
@[simp] theorem setReg64_rn (a c : Nat) (v : BitVec 64) : (s.setReg64 a c v).rn = s.rn := rfl
@[simp] theorem setReg64_d5 (a c : Nat) (v : BitVec 64) : (s.setReg64 a c v).d5 = s.d5 := rfl
@[simp] theorem setReg64_kp (a c : Nat) (v : BitVec 64) : (s.setReg64 a c v).kp = s.kp := rfl
@[simp] theorem setReg64_eh (a c : Nat) (v : BitVec 64) : (s.setReg64 a c v).eh = s.eh := rfl
@[simp] theorem setReg64_ownerStage (a c : Nat) (v : BitVec 64) : (s.setReg64 a c v).ownerStage = s.ownerStage := rfl
@[simp] theorem setReg64_muted (a c : Nat) (v : BitVec 64) : (s.setReg64 a c v).muted = s.muted := rfl
@[simp] theorem setReg64_pl (a c : Nat) (v : BitVec 64) : (s.setReg64 a c v).pl = s.pl := rfl
@[simp] theorem setReg64_ab (a c : Nat) (v : BitVec 64) : (s.setReg64 a c v).ab = s.ab := rfl
@[simp] theorem setReg64_up (a c : Nat) (v : BitVec 64) : (s.setReg64 a c v).up = s.up := rfl
@[simp] theorem setReg64_fh (a c : Nat) (v : BitVec 64) : (s.setReg64 a c v).fh = s.fh := rfl
@[simp] theorem setReg64_pk (a c : Nat) (v : BitVec 64) : (s.setReg64 a c v).pk = s.pk := rfl
@[simp] theorem setReg64_now (a c : Nat) (v : BitVec 64) : (s.setReg64 a c v).now = s.now := rfl
@[simp] theorem setReg64_raises (a c : Nat) (v : BitVec 64) : (s.setReg64 a c v).raises = s.raises := rfl
@[simp] theorem setReg64_freeCtr (a c : Nat) (v : BitVec 64) : (s.setReg64 a c v).freeCtr = s.freeCtr := rfl
@[simp] theorem setReg64_pending (a c : Nat) (v : BitVec 64) : (s.setReg64 a c v).pending = s.pending := rfl
@[simp] theorem setReg64_byte (a c : Nat) (v : BitVec 64) (b : Nat) : (s.setReg64 a c v).byte b = s.byte b := rfl
@[simp] theorem setReg64_errMask (a c : Nat) (v : BitVec 64) (b : Nat) : (s.setReg64 a c v).errMask b = s.errMask b := rfl
@[simp] theorem setReg64_array (a c : Nat) (v : BitVec 64) (k : Fin 17) : (s.setReg64 a c v).array k = s.array k := rfl
@[simp] theorem setReg64_micro (a c : Nat) (v : BitVec 64) (k : Fin 17) : (s.setReg64 a c v).micro k = s.micro k := rfl
@[simp] theorem setReg64_ctl (a c : Nat) (v : BitVec 64) (k : Fin 17) : (s.setReg64 a c v).ctl k = s.ctl k := rfl
@[simp] theorem setReg64_head (a c : Nat) (v : BitVec 64) (k : Fin 16) : (s.setReg64 a c v).head k = s.head k := rfl
@[simp] theorem setReg64_region (a c : Nat) (v : BitVec 64) (k : Fin 17) : (s.setReg64 a c v).region k = s.region k := rfl
@[simp] theorem setReg64_ext (a c : Nat) (v : BitVec 64) (k : Fin 17) : (s.setReg64 a c v).ext k = s.ext k := rfl
@[simp] theorem setReg64_domain (a c : Nat) (v : BitVec 64) (k : Fin 16) : (s.setReg64 a c v).domain k = s.domain k := rfl

/-! ### writeLE -/

@[simp] theorem writeLE_regs (a n v : Nat) : (s.writeLE a n v).regs = s.regs := rfl
@[simp] theorem writeLE_errs (a n v : Nat) : (s.writeLE a n v).errs = s.errs := rfl
@[simp] theorem writeLE_parity (a n v : Nat) : (s.writeLE a n v).parity = s.parity := rfl
@[simp] theorem writeLE_arrays (a n v : Nat) : (s.writeLE a n v).arrays = s.arrays := rfl
@[simp] theorem writeLE_micros (a n v : Nat) : (s.writeLE a n v).micros = s.micros := rfl
@[simp] theorem writeLE_ctls (a n v : Nat) : (s.writeLE a n v).ctls = s.ctls := rfl
@[simp] theorem writeLE_heads (a n v : Nat) : (s.writeLE a n v).heads = s.heads := rfl
@[simp] theorem writeLE_regions (a n v : Nat) : (s.writeLE a n v).regions = s.regions := rfl
@[simp] theorem writeLE_rx (a n v : Nat) : (s.writeLE a n v).rx = s.rx := rfl
@[simp] theorem writeLE_trk (a n v : Nat) : (s.writeLE a n v).trk = s.trk := rfl
@[simp] theorem writeLE_jointFlags (a n v : Nat) : (s.writeLE a n v).jointFlags = s.jointFlags := rfl
@[simp] theorem writeLE_jointSpan (a n v : Nat) : (s.writeLE a n v).jointSpan = s.jointSpan := rfl
@[simp] theorem writeLE_jointBelow (a n v : Nat) : (s.writeLE a n v).jointBelow = s.jointBelow := rfl
@[simp] theorem writeLE_cw (a n v : Nat) : (s.writeLE a n v).cw = s.cw := rfl
@[simp] theorem writeLE_slOut (a n v : Nat) : (s.writeLE a n v).slOut = s.slOut := rfl
@[simp] theorem writeLE_reports (a n v : Nat) : (s.writeLE a n v).reports = s.reports := rfl
@[simp] theorem writeLE_trusted (a n v : Nat) : (s.writeLE a n v).trusted = s.trusted := rfl
@[simp] theorem writeLE_pads (a n v : Nat) : (s.writeLE a n v).pads = s.pads := rfl
@[simp] theorem writeLE_lg (a n v : Nat) : (s.writeLE a n v).lg = s.lg := rfl
@[simp] theorem writeLE_rf (a n v : Nat) : (s.writeLE a n v).rf = s.rf := rfl
@[simp] theorem writeLE_cr (a n v : Nat) : (s.writeLE a n v).cr = s.cr := rfl
@[simp] theorem writeLE_tm (a n v : Nat) : (s.writeLE a n v).tm = s.tm := rfl
@[simp] theorem writeLE_rn (a n v : Nat) : (s.writeLE a n v).rn = s.rn := rfl
@[simp] theorem writeLE_d5 (a n v : Nat) : (s.writeLE a n v).d5 = s.d5 := rfl
@[simp] theorem writeLE_kp (a n v : Nat) : (s.writeLE a n v).kp = s.kp := rfl
@[simp] theorem writeLE_eh (a n v : Nat) : (s.writeLE a n v).eh = s.eh := rfl
@[simp] theorem writeLE_ownerStage (a n v : Nat) : (s.writeLE a n v).ownerStage = s.ownerStage := rfl
@[simp] theorem writeLE_muted (a n v : Nat) : (s.writeLE a n v).muted = s.muted := rfl
@[simp] theorem writeLE_pl (a n v : Nat) : (s.writeLE a n v).pl = s.pl := rfl
@[simp] theorem writeLE_ab (a n v : Nat) : (s.writeLE a n v).ab = s.ab := rfl
@[simp] theorem writeLE_up (a n v : Nat) : (s.writeLE a n v).up = s.up := rfl
@[simp] theorem writeLE_fh (a n v : Nat) : (s.writeLE a n v).fh = s.fh := rfl
@[simp] theorem writeLE_pk (a n v : Nat) : (s.writeLE a n v).pk = s.pk := rfl
@[simp] theorem writeLE_now (a n v : Nat) : (s.writeLE a n v).now = s.now := rfl
@[simp] theorem writeLE_raises (a n v : Nat) : (s.writeLE a n v).raises = s.raises := rfl
@[simp] theorem writeLE_freeCtr (a n v : Nat) : (s.writeLE a n v).freeCtr = s.freeCtr := rfl
@[simp] theorem writeLE_pending (a n v : Nat) : (s.writeLE a n v).pending = s.pending := rfl
@[simp] theorem writeLE_reg (a n v : Nat) (b : Nat) : (s.writeLE a n v).reg b = s.reg b := rfl
@[simp] theorem writeLE_fld (a n v : Nat) (b : Nat) (g : Fld) : (s.writeLE a n v).fld b g = s.fld b g := rfl
@[simp] theorem writeLE_flag (a n v : Nat) (b : Nat) (g : Fld) : (s.writeLE a n v).flag b g = s.flag b g := rfl
@[simp] theorem writeLE_errMask (a n v : Nat) (b : Nat) : (s.writeLE a n v).errMask b = s.errMask b := rfl
@[simp] theorem writeLE_array (a n v : Nat) (k : Fin 17) : (s.writeLE a n v).array k = s.array k := rfl
@[simp] theorem writeLE_micro (a n v : Nat) (k : Fin 17) : (s.writeLE a n v).micro k = s.micro k := rfl
@[simp] theorem writeLE_ctl (a n v : Nat) (k : Fin 17) : (s.writeLE a n v).ctl k = s.ctl k := rfl
@[simp] theorem writeLE_head (a n v : Nat) (k : Fin 16) : (s.writeLE a n v).head k = s.head k := rfl
@[simp] theorem writeLE_region (a n v : Nat) (k : Fin 17) : (s.writeLE a n v).region k = s.region k := rfl
@[simp] theorem writeLE_ext (a n v : Nat) (k : Fin 17) : (s.writeLE a n v).ext k = s.ext k := rfl
@[simp] theorem writeLE_domain (a n v : Nat) (k : Fin 16) : (s.writeLE a n v).domain k = s.domain k := rfl

/-! ### writeBytes -/

@[simp] theorem writeBytes_regs (a : Nat) (bs : List Byte) : (s.writeBytes a bs).regs = s.regs := rfl
@[simp] theorem writeBytes_errs (a : Nat) (bs : List Byte) : (s.writeBytes a bs).errs = s.errs := rfl
@[simp] theorem writeBytes_parity (a : Nat) (bs : List Byte) : (s.writeBytes a bs).parity = s.parity := rfl
@[simp] theorem writeBytes_arrays (a : Nat) (bs : List Byte) : (s.writeBytes a bs).arrays = s.arrays := rfl
@[simp] theorem writeBytes_micros (a : Nat) (bs : List Byte) : (s.writeBytes a bs).micros = s.micros := rfl
@[simp] theorem writeBytes_ctls (a : Nat) (bs : List Byte) : (s.writeBytes a bs).ctls = s.ctls := rfl
@[simp] theorem writeBytes_heads (a : Nat) (bs : List Byte) : (s.writeBytes a bs).heads = s.heads := rfl
@[simp] theorem writeBytes_regions (a : Nat) (bs : List Byte) : (s.writeBytes a bs).regions = s.regions := rfl
@[simp] theorem writeBytes_rx (a : Nat) (bs : List Byte) : (s.writeBytes a bs).rx = s.rx := rfl
@[simp] theorem writeBytes_trk (a : Nat) (bs : List Byte) : (s.writeBytes a bs).trk = s.trk := rfl
@[simp] theorem writeBytes_jointFlags (a : Nat) (bs : List Byte) : (s.writeBytes a bs).jointFlags = s.jointFlags := rfl
@[simp] theorem writeBytes_jointSpan (a : Nat) (bs : List Byte) : (s.writeBytes a bs).jointSpan = s.jointSpan := rfl
@[simp] theorem writeBytes_jointBelow (a : Nat) (bs : List Byte) : (s.writeBytes a bs).jointBelow = s.jointBelow := rfl
@[simp] theorem writeBytes_cw (a : Nat) (bs : List Byte) : (s.writeBytes a bs).cw = s.cw := rfl
@[simp] theorem writeBytes_slOut (a : Nat) (bs : List Byte) : (s.writeBytes a bs).slOut = s.slOut := rfl
@[simp] theorem writeBytes_reports (a : Nat) (bs : List Byte) : (s.writeBytes a bs).reports = s.reports := rfl
@[simp] theorem writeBytes_trusted (a : Nat) (bs : List Byte) : (s.writeBytes a bs).trusted = s.trusted := rfl
@[simp] theorem writeBytes_pads (a : Nat) (bs : List Byte) : (s.writeBytes a bs).pads = s.pads := rfl
@[simp] theorem writeBytes_lg (a : Nat) (bs : List Byte) : (s.writeBytes a bs).lg = s.lg := rfl
@[simp] theorem writeBytes_rf (a : Nat) (bs : List Byte) : (s.writeBytes a bs).rf = s.rf := rfl
@[simp] theorem writeBytes_cr (a : Nat) (bs : List Byte) : (s.writeBytes a bs).cr = s.cr := rfl
@[simp] theorem writeBytes_tm (a : Nat) (bs : List Byte) : (s.writeBytes a bs).tm = s.tm := rfl
@[simp] theorem writeBytes_rn (a : Nat) (bs : List Byte) : (s.writeBytes a bs).rn = s.rn := rfl
@[simp] theorem writeBytes_d5 (a : Nat) (bs : List Byte) : (s.writeBytes a bs).d5 = s.d5 := rfl
@[simp] theorem writeBytes_kp (a : Nat) (bs : List Byte) : (s.writeBytes a bs).kp = s.kp := rfl
@[simp] theorem writeBytes_eh (a : Nat) (bs : List Byte) : (s.writeBytes a bs).eh = s.eh := rfl
@[simp] theorem writeBytes_ownerStage (a : Nat) (bs : List Byte) : (s.writeBytes a bs).ownerStage = s.ownerStage := rfl
@[simp] theorem writeBytes_muted (a : Nat) (bs : List Byte) : (s.writeBytes a bs).muted = s.muted := rfl
@[simp] theorem writeBytes_pl (a : Nat) (bs : List Byte) : (s.writeBytes a bs).pl = s.pl := rfl
@[simp] theorem writeBytes_ab (a : Nat) (bs : List Byte) : (s.writeBytes a bs).ab = s.ab := rfl
@[simp] theorem writeBytes_up (a : Nat) (bs : List Byte) : (s.writeBytes a bs).up = s.up := rfl
@[simp] theorem writeBytes_fh (a : Nat) (bs : List Byte) : (s.writeBytes a bs).fh = s.fh := rfl
@[simp] theorem writeBytes_pk (a : Nat) (bs : List Byte) : (s.writeBytes a bs).pk = s.pk := rfl
@[simp] theorem writeBytes_now (a : Nat) (bs : List Byte) : (s.writeBytes a bs).now = s.now := rfl
@[simp] theorem writeBytes_raises (a : Nat) (bs : List Byte) : (s.writeBytes a bs).raises = s.raises := rfl
@[simp] theorem writeBytes_freeCtr (a : Nat) (bs : List Byte) : (s.writeBytes a bs).freeCtr = s.freeCtr := rfl
@[simp] theorem writeBytes_pending (a : Nat) (bs : List Byte) : (s.writeBytes a bs).pending = s.pending := rfl
@[simp] theorem writeBytes_reg (a : Nat) (bs : List Byte) (b : Nat) : (s.writeBytes a bs).reg b = s.reg b := rfl
@[simp] theorem writeBytes_fld (a : Nat) (bs : List Byte) (b : Nat) (g : Fld) : (s.writeBytes a bs).fld b g = s.fld b g := rfl
@[simp] theorem writeBytes_flag (a : Nat) (bs : List Byte) (b : Nat) (g : Fld) : (s.writeBytes a bs).flag b g = s.flag b g := rfl
@[simp] theorem writeBytes_errMask (a : Nat) (bs : List Byte) (b : Nat) : (s.writeBytes a bs).errMask b = s.errMask b := rfl
@[simp] theorem writeBytes_array (a : Nat) (bs : List Byte) (k : Fin 17) : (s.writeBytes a bs).array k = s.array k := rfl
@[simp] theorem writeBytes_micro (a : Nat) (bs : List Byte) (k : Fin 17) : (s.writeBytes a bs).micro k = s.micro k := rfl
@[simp] theorem writeBytes_ctl (a : Nat) (bs : List Byte) (k : Fin 17) : (s.writeBytes a bs).ctl k = s.ctl k := rfl
@[simp] theorem writeBytes_head (a : Nat) (bs : List Byte) (k : Fin 16) : (s.writeBytes a bs).head k = s.head k := rfl
@[simp] theorem writeBytes_region (a : Nat) (bs : List Byte) (k : Fin 17) : (s.writeBytes a bs).region k = s.region k := rfl
@[simp] theorem writeBytes_ext (a : Nat) (bs : List Byte) (k : Fin 17) : (s.writeBytes a bs).ext k = s.ext k := rfl
@[simp] theorem writeBytes_domain (a : Nat) (bs : List Byte) (k : Fin 16) : (s.writeBytes a bs).domain k = s.domain k := rfl

/-! ### setErr -/

@[simp] theorem setErr_regs (a m : Nat) : (s.setErr a m).regs = s.regs := rfl
@[simp] theorem setErr_mem (a m : Nat) : (s.setErr a m).mem = s.mem := rfl
@[simp] theorem setErr_parity (a m : Nat) : (s.setErr a m).parity = s.parity := rfl
@[simp] theorem setErr_arrays (a m : Nat) : (s.setErr a m).arrays = s.arrays := rfl
@[simp] theorem setErr_micros (a m : Nat) : (s.setErr a m).micros = s.micros := rfl
@[simp] theorem setErr_ctls (a m : Nat) : (s.setErr a m).ctls = s.ctls := rfl
@[simp] theorem setErr_heads (a m : Nat) : (s.setErr a m).heads = s.heads := rfl
@[simp] theorem setErr_regions (a m : Nat) : (s.setErr a m).regions = s.regions := rfl
@[simp] theorem setErr_rx (a m : Nat) : (s.setErr a m).rx = s.rx := rfl
@[simp] theorem setErr_trk (a m : Nat) : (s.setErr a m).trk = s.trk := rfl
@[simp] theorem setErr_jointFlags (a m : Nat) : (s.setErr a m).jointFlags = s.jointFlags := rfl
@[simp] theorem setErr_jointSpan (a m : Nat) : (s.setErr a m).jointSpan = s.jointSpan := rfl
@[simp] theorem setErr_jointBelow (a m : Nat) : (s.setErr a m).jointBelow = s.jointBelow := rfl
@[simp] theorem setErr_cw (a m : Nat) : (s.setErr a m).cw = s.cw := rfl
@[simp] theorem setErr_slOut (a m : Nat) : (s.setErr a m).slOut = s.slOut := rfl
@[simp] theorem setErr_reports (a m : Nat) : (s.setErr a m).reports = s.reports := rfl
@[simp] theorem setErr_trusted (a m : Nat) : (s.setErr a m).trusted = s.trusted := rfl
@[simp] theorem setErr_pads (a m : Nat) : (s.setErr a m).pads = s.pads := rfl
@[simp] theorem setErr_lg (a m : Nat) : (s.setErr a m).lg = s.lg := rfl
@[simp] theorem setErr_rf (a m : Nat) : (s.setErr a m).rf = s.rf := rfl
@[simp] theorem setErr_cr (a m : Nat) : (s.setErr a m).cr = s.cr := rfl
@[simp] theorem setErr_tm (a m : Nat) : (s.setErr a m).tm = s.tm := rfl
@[simp] theorem setErr_rn (a m : Nat) : (s.setErr a m).rn = s.rn := rfl
@[simp] theorem setErr_d5 (a m : Nat) : (s.setErr a m).d5 = s.d5 := rfl
@[simp] theorem setErr_kp (a m : Nat) : (s.setErr a m).kp = s.kp := rfl
@[simp] theorem setErr_eh (a m : Nat) : (s.setErr a m).eh = s.eh := rfl
@[simp] theorem setErr_ownerStage (a m : Nat) : (s.setErr a m).ownerStage = s.ownerStage := rfl
@[simp] theorem setErr_muted (a m : Nat) : (s.setErr a m).muted = s.muted := rfl
@[simp] theorem setErr_pl (a m : Nat) : (s.setErr a m).pl = s.pl := rfl
@[simp] theorem setErr_ab (a m : Nat) : (s.setErr a m).ab = s.ab := rfl
@[simp] theorem setErr_up (a m : Nat) : (s.setErr a m).up = s.up := rfl
@[simp] theorem setErr_fh (a m : Nat) : (s.setErr a m).fh = s.fh := rfl
@[simp] theorem setErr_pk (a m : Nat) : (s.setErr a m).pk = s.pk := rfl
@[simp] theorem setErr_now (a m : Nat) : (s.setErr a m).now = s.now := rfl
@[simp] theorem setErr_raises (a m : Nat) : (s.setErr a m).raises = s.raises := rfl
@[simp] theorem setErr_freeCtr (a m : Nat) : (s.setErr a m).freeCtr = s.freeCtr := rfl
@[simp] theorem setErr_pending (a m : Nat) : (s.setErr a m).pending = s.pending := rfl
@[simp] theorem setErr_reg (a m : Nat) (b : Nat) : (s.setErr a m).reg b = s.reg b := rfl
@[simp] theorem setErr_fld (a m : Nat) (b : Nat) (g : Fld) : (s.setErr a m).fld b g = s.fld b g := rfl
@[simp] theorem setErr_flag (a m : Nat) (b : Nat) (g : Fld) : (s.setErr a m).flag b g = s.flag b g := rfl
@[simp] theorem setErr_byte (a m : Nat) (b : Nat) : (s.setErr a m).byte b = s.byte b := rfl
@[simp] theorem setErr_array (a m : Nat) (k : Fin 17) : (s.setErr a m).array k = s.array k := rfl
@[simp] theorem setErr_micro (a m : Nat) (k : Fin 17) : (s.setErr a m).micro k = s.micro k := rfl
@[simp] theorem setErr_ctl (a m : Nat) (k : Fin 17) : (s.setErr a m).ctl k = s.ctl k := rfl
@[simp] theorem setErr_head (a m : Nat) (k : Fin 16) : (s.setErr a m).head k = s.head k := rfl
@[simp] theorem setErr_region (a m : Nat) (k : Fin 17) : (s.setErr a m).region k = s.region k := rfl
@[simp] theorem setErr_ext (a m : Nat) (k : Fin 17) : (s.setErr a m).ext k = s.ext k := rfl
@[simp] theorem setErr_domain (a m : Nat) (k : Fin 16) : (s.setErr a m).domain k = s.domain k := rfl

/-! ### clearErrs -/

@[simp] theorem clearErrs_regs (lo hi : Nat) : (s.clearErrs lo hi).regs = s.regs := rfl
@[simp] theorem clearErrs_mem (lo hi : Nat) : (s.clearErrs lo hi).mem = s.mem := rfl
@[simp] theorem clearErrs_parity (lo hi : Nat) : (s.clearErrs lo hi).parity = s.parity := rfl
@[simp] theorem clearErrs_arrays (lo hi : Nat) : (s.clearErrs lo hi).arrays = s.arrays := rfl
@[simp] theorem clearErrs_micros (lo hi : Nat) : (s.clearErrs lo hi).micros = s.micros := rfl
@[simp] theorem clearErrs_ctls (lo hi : Nat) : (s.clearErrs lo hi).ctls = s.ctls := rfl
@[simp] theorem clearErrs_heads (lo hi : Nat) : (s.clearErrs lo hi).heads = s.heads := rfl
@[simp] theorem clearErrs_regions (lo hi : Nat) : (s.clearErrs lo hi).regions = s.regions := rfl
@[simp] theorem clearErrs_rx (lo hi : Nat) : (s.clearErrs lo hi).rx = s.rx := rfl
@[simp] theorem clearErrs_trk (lo hi : Nat) : (s.clearErrs lo hi).trk = s.trk := rfl
@[simp] theorem clearErrs_jointFlags (lo hi : Nat) : (s.clearErrs lo hi).jointFlags = s.jointFlags := rfl
@[simp] theorem clearErrs_jointSpan (lo hi : Nat) : (s.clearErrs lo hi).jointSpan = s.jointSpan := rfl
@[simp] theorem clearErrs_jointBelow (lo hi : Nat) : (s.clearErrs lo hi).jointBelow = s.jointBelow := rfl
@[simp] theorem clearErrs_cw (lo hi : Nat) : (s.clearErrs lo hi).cw = s.cw := rfl
@[simp] theorem clearErrs_slOut (lo hi : Nat) : (s.clearErrs lo hi).slOut = s.slOut := rfl
@[simp] theorem clearErrs_reports (lo hi : Nat) : (s.clearErrs lo hi).reports = s.reports := rfl
@[simp] theorem clearErrs_trusted (lo hi : Nat) : (s.clearErrs lo hi).trusted = s.trusted := rfl
@[simp] theorem clearErrs_pads (lo hi : Nat) : (s.clearErrs lo hi).pads = s.pads := rfl
@[simp] theorem clearErrs_lg (lo hi : Nat) : (s.clearErrs lo hi).lg = s.lg := rfl
@[simp] theorem clearErrs_rf (lo hi : Nat) : (s.clearErrs lo hi).rf = s.rf := rfl
@[simp] theorem clearErrs_cr (lo hi : Nat) : (s.clearErrs lo hi).cr = s.cr := rfl
@[simp] theorem clearErrs_tm (lo hi : Nat) : (s.clearErrs lo hi).tm = s.tm := rfl
@[simp] theorem clearErrs_rn (lo hi : Nat) : (s.clearErrs lo hi).rn = s.rn := rfl
@[simp] theorem clearErrs_d5 (lo hi : Nat) : (s.clearErrs lo hi).d5 = s.d5 := rfl
@[simp] theorem clearErrs_kp (lo hi : Nat) : (s.clearErrs lo hi).kp = s.kp := rfl
@[simp] theorem clearErrs_eh (lo hi : Nat) : (s.clearErrs lo hi).eh = s.eh := rfl
@[simp] theorem clearErrs_ownerStage (lo hi : Nat) : (s.clearErrs lo hi).ownerStage = s.ownerStage := rfl
@[simp] theorem clearErrs_muted (lo hi : Nat) : (s.clearErrs lo hi).muted = s.muted := rfl
@[simp] theorem clearErrs_pl (lo hi : Nat) : (s.clearErrs lo hi).pl = s.pl := rfl
@[simp] theorem clearErrs_ab (lo hi : Nat) : (s.clearErrs lo hi).ab = s.ab := rfl
@[simp] theorem clearErrs_up (lo hi : Nat) : (s.clearErrs lo hi).up = s.up := rfl
@[simp] theorem clearErrs_fh (lo hi : Nat) : (s.clearErrs lo hi).fh = s.fh := rfl
@[simp] theorem clearErrs_pk (lo hi : Nat) : (s.clearErrs lo hi).pk = s.pk := rfl
@[simp] theorem clearErrs_now (lo hi : Nat) : (s.clearErrs lo hi).now = s.now := rfl
@[simp] theorem clearErrs_raises (lo hi : Nat) : (s.clearErrs lo hi).raises = s.raises := rfl
@[simp] theorem clearErrs_freeCtr (lo hi : Nat) : (s.clearErrs lo hi).freeCtr = s.freeCtr := rfl
@[simp] theorem clearErrs_pending (lo hi : Nat) : (s.clearErrs lo hi).pending = s.pending := rfl
@[simp] theorem clearErrs_reg (lo hi : Nat) (b : Nat) : (s.clearErrs lo hi).reg b = s.reg b := rfl
@[simp] theorem clearErrs_fld (lo hi : Nat) (b : Nat) (g : Fld) : (s.clearErrs lo hi).fld b g = s.fld b g := rfl
@[simp] theorem clearErrs_flag (lo hi : Nat) (b : Nat) (g : Fld) : (s.clearErrs lo hi).flag b g = s.flag b g := rfl
@[simp] theorem clearErrs_byte (lo hi : Nat) (b : Nat) : (s.clearErrs lo hi).byte b = s.byte b := rfl
@[simp] theorem clearErrs_array (lo hi : Nat) (k : Fin 17) : (s.clearErrs lo hi).array k = s.array k := rfl
@[simp] theorem clearErrs_micro (lo hi : Nat) (k : Fin 17) : (s.clearErrs lo hi).micro k = s.micro k := rfl
@[simp] theorem clearErrs_ctl (lo hi : Nat) (k : Fin 17) : (s.clearErrs lo hi).ctl k = s.ctl k := rfl
@[simp] theorem clearErrs_head (lo hi : Nat) (k : Fin 16) : (s.clearErrs lo hi).head k = s.head k := rfl
@[simp] theorem clearErrs_region (lo hi : Nat) (k : Fin 17) : (s.clearErrs lo hi).region k = s.region k := rfl
@[simp] theorem clearErrs_ext (lo hi : Nat) (k : Fin 17) : (s.clearErrs lo hi).ext k = s.ext k := rfl
@[simp] theorem clearErrs_domain (lo hi : Nat) (k : Fin 16) : (s.clearErrs lo hi).domain k = s.domain k := rfl

/-! ### draw -/

@[simp] theorem draw_regs (w : Nat) : ((s.draw w).2).regs = s.regs := rfl
@[simp] theorem draw_mem (w : Nat) : ((s.draw w).2).mem = s.mem := rfl
@[simp] theorem draw_errs (w : Nat) : ((s.draw w).2).errs = s.errs := rfl
@[simp] theorem draw_parity (w : Nat) : ((s.draw w).2).parity = s.parity := rfl
@[simp] theorem draw_arrays (w : Nat) : ((s.draw w).2).arrays = s.arrays := rfl
@[simp] theorem draw_micros (w : Nat) : ((s.draw w).2).micros = s.micros := rfl
@[simp] theorem draw_ctls (w : Nat) : ((s.draw w).2).ctls = s.ctls := rfl
@[simp] theorem draw_heads (w : Nat) : ((s.draw w).2).heads = s.heads := rfl
@[simp] theorem draw_regions (w : Nat) : ((s.draw w).2).regions = s.regions := rfl
@[simp] theorem draw_rx (w : Nat) : ((s.draw w).2).rx = s.rx := rfl
@[simp] theorem draw_trk (w : Nat) : ((s.draw w).2).trk = s.trk := rfl
@[simp] theorem draw_jointFlags (w : Nat) : ((s.draw w).2).jointFlags = s.jointFlags := rfl
@[simp] theorem draw_jointSpan (w : Nat) : ((s.draw w).2).jointSpan = s.jointSpan := rfl
@[simp] theorem draw_jointBelow (w : Nat) : ((s.draw w).2).jointBelow = s.jointBelow := rfl
@[simp] theorem draw_cw (w : Nat) : ((s.draw w).2).cw = s.cw := rfl
@[simp] theorem draw_slOut (w : Nat) : ((s.draw w).2).slOut = s.slOut := rfl
@[simp] theorem draw_reports (w : Nat) : ((s.draw w).2).reports = s.reports := rfl
@[simp] theorem draw_trusted (w : Nat) : ((s.draw w).2).trusted = s.trusted := rfl
@[simp] theorem draw_pads (w : Nat) : ((s.draw w).2).pads = s.pads := rfl
@[simp] theorem draw_lg (w : Nat) : ((s.draw w).2).lg = s.lg := rfl
@[simp] theorem draw_rf (w : Nat) : ((s.draw w).2).rf = s.rf := rfl
@[simp] theorem draw_cr (w : Nat) : ((s.draw w).2).cr = s.cr := rfl
@[simp] theorem draw_tm (w : Nat) : ((s.draw w).2).tm = s.tm := rfl
@[simp] theorem draw_rn (w : Nat) : ((s.draw w).2).rn = s.rn := rfl
@[simp] theorem draw_d5 (w : Nat) : ((s.draw w).2).d5 = s.d5 := rfl
@[simp] theorem draw_kp (w : Nat) : ((s.draw w).2).kp = s.kp := rfl
@[simp] theorem draw_eh (w : Nat) : ((s.draw w).2).eh = s.eh := rfl
@[simp] theorem draw_ownerStage (w : Nat) : ((s.draw w).2).ownerStage = s.ownerStage := rfl
@[simp] theorem draw_muted (w : Nat) : ((s.draw w).2).muted = s.muted := rfl
@[simp] theorem draw_pl (w : Nat) : ((s.draw w).2).pl = s.pl := rfl
@[simp] theorem draw_ab (w : Nat) : ((s.draw w).2).ab = s.ab := rfl
@[simp] theorem draw_up (w : Nat) : ((s.draw w).2).up = s.up := rfl
@[simp] theorem draw_fh (w : Nat) : ((s.draw w).2).fh = s.fh := rfl
@[simp] theorem draw_pk (w : Nat) : ((s.draw w).2).pk = s.pk := rfl
@[simp] theorem draw_now (w : Nat) : ((s.draw w).2).now = s.now := rfl
@[simp] theorem draw_raises (w : Nat) : ((s.draw w).2).raises = s.raises := rfl
@[simp] theorem draw_pending (w : Nat) : ((s.draw w).2).pending = s.pending := rfl
@[simp] theorem draw_reg (w : Nat) (b : Nat) : ((s.draw w).2).reg b = s.reg b := rfl
@[simp] theorem draw_fld (w : Nat) (b : Nat) (g : Fld) : ((s.draw w).2).fld b g = s.fld b g := rfl
@[simp] theorem draw_flag (w : Nat) (b : Nat) (g : Fld) : ((s.draw w).2).flag b g = s.flag b g := rfl
@[simp] theorem draw_byte (w : Nat) (b : Nat) : ((s.draw w).2).byte b = s.byte b := rfl
@[simp] theorem draw_errMask (w : Nat) (b : Nat) : ((s.draw w).2).errMask b = s.errMask b := rfl
@[simp] theorem draw_array (w : Nat) (k : Fin 17) : ((s.draw w).2).array k = s.array k := rfl
@[simp] theorem draw_micro (w : Nat) (k : Fin 17) : ((s.draw w).2).micro k = s.micro k := rfl
@[simp] theorem draw_ctl (w : Nat) (k : Fin 17) : ((s.draw w).2).ctl k = s.ctl k := rfl
@[simp] theorem draw_head (w : Nat) (k : Fin 16) : ((s.draw w).2).head k = s.head k := rfl
@[simp] theorem draw_region (w : Nat) (k : Fin 17) : ((s.draw w).2).region k = s.region k := rfl
@[simp] theorem draw_ext (w : Nat) (k : Fin 17) : ((s.draw w).2).ext k = s.ext k := rfl
@[simp] theorem draw_domain (w : Nat) (k : Fin 16) : ((s.draw w).2).domain k = s.domain k := rfl

/-! ### raise -/

@[simp] theorem raise_regs (src : Nat) (pay : BitVec 32) : (s.raise src pay).regs = s.regs := rfl
@[simp] theorem raise_mem (src : Nat) (pay : BitVec 32) : (s.raise src pay).mem = s.mem := rfl
@[simp] theorem raise_errs (src : Nat) (pay : BitVec 32) : (s.raise src pay).errs = s.errs := rfl
@[simp] theorem raise_parity (src : Nat) (pay : BitVec 32) : (s.raise src pay).parity = s.parity := rfl
@[simp] theorem raise_arrays (src : Nat) (pay : BitVec 32) : (s.raise src pay).arrays = s.arrays := rfl
@[simp] theorem raise_micros (src : Nat) (pay : BitVec 32) : (s.raise src pay).micros = s.micros := rfl
@[simp] theorem raise_ctls (src : Nat) (pay : BitVec 32) : (s.raise src pay).ctls = s.ctls := rfl
@[simp] theorem raise_heads (src : Nat) (pay : BitVec 32) : (s.raise src pay).heads = s.heads := rfl
@[simp] theorem raise_regions (src : Nat) (pay : BitVec 32) : (s.raise src pay).regions = s.regions := rfl
@[simp] theorem raise_rx (src : Nat) (pay : BitVec 32) : (s.raise src pay).rx = s.rx := rfl
@[simp] theorem raise_trk (src : Nat) (pay : BitVec 32) : (s.raise src pay).trk = s.trk := rfl
@[simp] theorem raise_jointFlags (src : Nat) (pay : BitVec 32) : (s.raise src pay).jointFlags = s.jointFlags := rfl
@[simp] theorem raise_jointSpan (src : Nat) (pay : BitVec 32) : (s.raise src pay).jointSpan = s.jointSpan := rfl
@[simp] theorem raise_jointBelow (src : Nat) (pay : BitVec 32) : (s.raise src pay).jointBelow = s.jointBelow := rfl
@[simp] theorem raise_cw (src : Nat) (pay : BitVec 32) : (s.raise src pay).cw = s.cw := rfl
@[simp] theorem raise_slOut (src : Nat) (pay : BitVec 32) : (s.raise src pay).slOut = s.slOut := rfl
@[simp] theorem raise_reports (src : Nat) (pay : BitVec 32) : (s.raise src pay).reports = s.reports := rfl
@[simp] theorem raise_trusted (src : Nat) (pay : BitVec 32) : (s.raise src pay).trusted = s.trusted := rfl
@[simp] theorem raise_pads (src : Nat) (pay : BitVec 32) : (s.raise src pay).pads = s.pads := rfl
@[simp] theorem raise_lg (src : Nat) (pay : BitVec 32) : (s.raise src pay).lg = s.lg := rfl
@[simp] theorem raise_rf (src : Nat) (pay : BitVec 32) : (s.raise src pay).rf = s.rf := rfl
@[simp] theorem raise_cr (src : Nat) (pay : BitVec 32) : (s.raise src pay).cr = s.cr := rfl
@[simp] theorem raise_tm (src : Nat) (pay : BitVec 32) : (s.raise src pay).tm = s.tm := rfl
@[simp] theorem raise_rn (src : Nat) (pay : BitVec 32) : (s.raise src pay).rn = s.rn := rfl
@[simp] theorem raise_d5 (src : Nat) (pay : BitVec 32) : (s.raise src pay).d5 = s.d5 := rfl
@[simp] theorem raise_kp (src : Nat) (pay : BitVec 32) : (s.raise src pay).kp = s.kp := rfl
@[simp] theorem raise_eh (src : Nat) (pay : BitVec 32) : (s.raise src pay).eh = s.eh := rfl
@[simp] theorem raise_ownerStage (src : Nat) (pay : BitVec 32) : (s.raise src pay).ownerStage = s.ownerStage := rfl
@[simp] theorem raise_muted (src : Nat) (pay : BitVec 32) : (s.raise src pay).muted = s.muted := rfl
@[simp] theorem raise_pl (src : Nat) (pay : BitVec 32) : (s.raise src pay).pl = s.pl := rfl
@[simp] theorem raise_ab (src : Nat) (pay : BitVec 32) : (s.raise src pay).ab = s.ab := rfl
@[simp] theorem raise_up (src : Nat) (pay : BitVec 32) : (s.raise src pay).up = s.up := rfl
@[simp] theorem raise_fh (src : Nat) (pay : BitVec 32) : (s.raise src pay).fh = s.fh := rfl
@[simp] theorem raise_pk (src : Nat) (pay : BitVec 32) : (s.raise src pay).pk = s.pk := rfl
@[simp] theorem raise_now (src : Nat) (pay : BitVec 32) : (s.raise src pay).now = s.now := rfl
@[simp] theorem raise_freeCtr (src : Nat) (pay : BitVec 32) : (s.raise src pay).freeCtr = s.freeCtr := rfl
@[simp] theorem raise_pending (src : Nat) (pay : BitVec 32) : (s.raise src pay).pending = s.pending := rfl
@[simp] theorem raise_reg (src : Nat) (pay : BitVec 32) (b : Nat) : (s.raise src pay).reg b = s.reg b := rfl
@[simp] theorem raise_fld (src : Nat) (pay : BitVec 32) (b : Nat) (g : Fld) : (s.raise src pay).fld b g = s.fld b g := rfl
@[simp] theorem raise_flag (src : Nat) (pay : BitVec 32) (b : Nat) (g : Fld) : (s.raise src pay).flag b g = s.flag b g := rfl
@[simp] theorem raise_byte (src : Nat) (pay : BitVec 32) (b : Nat) : (s.raise src pay).byte b = s.byte b := rfl
@[simp] theorem raise_errMask (src : Nat) (pay : BitVec 32) (b : Nat) : (s.raise src pay).errMask b = s.errMask b := rfl
@[simp] theorem raise_array (src : Nat) (pay : BitVec 32) (k : Fin 17) : (s.raise src pay).array k = s.array k := rfl
@[simp] theorem raise_micro (src : Nat) (pay : BitVec 32) (k : Fin 17) : (s.raise src pay).micro k = s.micro k := rfl
@[simp] theorem raise_ctl (src : Nat) (pay : BitVec 32) (k : Fin 17) : (s.raise src pay).ctl k = s.ctl k := rfl
@[simp] theorem raise_head (src : Nat) (pay : BitVec 32) (k : Fin 16) : (s.raise src pay).head k = s.head k := rfl
@[simp] theorem raise_region (src : Nat) (pay : BitVec 32) (k : Fin 17) : (s.raise src pay).region k = s.region k := rfl
@[simp] theorem raise_ext (src : Nat) (pay : BitVec 32) (k : Fin 17) : (s.raise src pay).ext k = s.ext k := rfl
@[simp] theorem raise_domain (src : Nat) (pay : BitVec 32) (k : Fin 16) : (s.raise src pay).domain k = s.domain k := rfl

/-! ### setArray -/

@[simp] theorem setArray_regs (n : Fin 17) (x : SpanArray) : (s.setArray n x).regs = s.regs := rfl
@[simp] theorem setArray_mem (n : Fin 17) (x : SpanArray) : (s.setArray n x).mem = s.mem := rfl
@[simp] theorem setArray_errs (n : Fin 17) (x : SpanArray) : (s.setArray n x).errs = s.errs := rfl
@[simp] theorem setArray_parity (n : Fin 17) (x : SpanArray) : (s.setArray n x).parity = s.parity := rfl
@[simp] theorem setArray_micros (n : Fin 17) (x : SpanArray) : (s.setArray n x).micros = s.micros := rfl
@[simp] theorem setArray_ctls (n : Fin 17) (x : SpanArray) : (s.setArray n x).ctls = s.ctls := rfl
@[simp] theorem setArray_heads (n : Fin 17) (x : SpanArray) : (s.setArray n x).heads = s.heads := rfl
@[simp] theorem setArray_regions (n : Fin 17) (x : SpanArray) : (s.setArray n x).regions = s.regions := rfl
@[simp] theorem setArray_rx (n : Fin 17) (x : SpanArray) : (s.setArray n x).rx = s.rx := rfl
@[simp] theorem setArray_trk (n : Fin 17) (x : SpanArray) : (s.setArray n x).trk = s.trk := rfl
@[simp] theorem setArray_jointFlags (n : Fin 17) (x : SpanArray) : (s.setArray n x).jointFlags = s.jointFlags := rfl
@[simp] theorem setArray_jointSpan (n : Fin 17) (x : SpanArray) : (s.setArray n x).jointSpan = s.jointSpan := rfl
@[simp] theorem setArray_jointBelow (n : Fin 17) (x : SpanArray) : (s.setArray n x).jointBelow = s.jointBelow := rfl
@[simp] theorem setArray_cw (n : Fin 17) (x : SpanArray) : (s.setArray n x).cw = s.cw := rfl
@[simp] theorem setArray_slOut (n : Fin 17) (x : SpanArray) : (s.setArray n x).slOut = s.slOut := rfl
@[simp] theorem setArray_reports (n : Fin 17) (x : SpanArray) : (s.setArray n x).reports = s.reports := rfl
@[simp] theorem setArray_trusted (n : Fin 17) (x : SpanArray) : (s.setArray n x).trusted = s.trusted := rfl
@[simp] theorem setArray_pads (n : Fin 17) (x : SpanArray) : (s.setArray n x).pads = s.pads := rfl
@[simp] theorem setArray_lg (n : Fin 17) (x : SpanArray) : (s.setArray n x).lg = s.lg := rfl
@[simp] theorem setArray_rf (n : Fin 17) (x : SpanArray) : (s.setArray n x).rf = s.rf := rfl
@[simp] theorem setArray_cr (n : Fin 17) (x : SpanArray) : (s.setArray n x).cr = s.cr := rfl
@[simp] theorem setArray_tm (n : Fin 17) (x : SpanArray) : (s.setArray n x).tm = s.tm := rfl
@[simp] theorem setArray_rn (n : Fin 17) (x : SpanArray) : (s.setArray n x).rn = s.rn := rfl
@[simp] theorem setArray_d5 (n : Fin 17) (x : SpanArray) : (s.setArray n x).d5 = s.d5 := rfl
@[simp] theorem setArray_kp (n : Fin 17) (x : SpanArray) : (s.setArray n x).kp = s.kp := rfl
@[simp] theorem setArray_eh (n : Fin 17) (x : SpanArray) : (s.setArray n x).eh = s.eh := rfl
@[simp] theorem setArray_ownerStage (n : Fin 17) (x : SpanArray) : (s.setArray n x).ownerStage = s.ownerStage := rfl
@[simp] theorem setArray_muted (n : Fin 17) (x : SpanArray) : (s.setArray n x).muted = s.muted := rfl
@[simp] theorem setArray_pl (n : Fin 17) (x : SpanArray) : (s.setArray n x).pl = s.pl := rfl
@[simp] theorem setArray_ab (n : Fin 17) (x : SpanArray) : (s.setArray n x).ab = s.ab := rfl
@[simp] theorem setArray_up (n : Fin 17) (x : SpanArray) : (s.setArray n x).up = s.up := rfl
@[simp] theorem setArray_fh (n : Fin 17) (x : SpanArray) : (s.setArray n x).fh = s.fh := rfl
@[simp] theorem setArray_pk (n : Fin 17) (x : SpanArray) : (s.setArray n x).pk = s.pk := rfl
@[simp] theorem setArray_now (n : Fin 17) (x : SpanArray) : (s.setArray n x).now = s.now := rfl
@[simp] theorem setArray_raises (n : Fin 17) (x : SpanArray) : (s.setArray n x).raises = s.raises := rfl
@[simp] theorem setArray_freeCtr (n : Fin 17) (x : SpanArray) : (s.setArray n x).freeCtr = s.freeCtr := rfl
@[simp] theorem setArray_pending (n : Fin 17) (x : SpanArray) : (s.setArray n x).pending = s.pending := rfl
@[simp] theorem setArray_reg (n : Fin 17) (x : SpanArray) (b : Nat) : (s.setArray n x).reg b = s.reg b := rfl
@[simp] theorem setArray_fld (n : Fin 17) (x : SpanArray) (b : Nat) (g : Fld) : (s.setArray n x).fld b g = s.fld b g := rfl
@[simp] theorem setArray_flag (n : Fin 17) (x : SpanArray) (b : Nat) (g : Fld) : (s.setArray n x).flag b g = s.flag b g := rfl
@[simp] theorem setArray_byte (n : Fin 17) (x : SpanArray) (b : Nat) : (s.setArray n x).byte b = s.byte b := rfl
@[simp] theorem setArray_errMask (n : Fin 17) (x : SpanArray) (b : Nat) : (s.setArray n x).errMask b = s.errMask b := rfl
@[simp] theorem setArray_micro (n : Fin 17) (x : SpanArray) (k : Fin 17) : (s.setArray n x).micro k = s.micro k := rfl
@[simp] theorem setArray_ctl (n : Fin 17) (x : SpanArray) (k : Fin 17) : (s.setArray n x).ctl k = s.ctl k := rfl
@[simp] theorem setArray_head (n : Fin 17) (x : SpanArray) (k : Fin 16) : (s.setArray n x).head k = s.head k := rfl
@[simp] theorem setArray_region (n : Fin 17) (x : SpanArray) (k : Fin 17) : (s.setArray n x).region k = s.region k := rfl
@[simp] theorem setArray_ext (n : Fin 17) (x : SpanArray) (k : Fin 17) : (s.setArray n x).ext k = s.ext k := rfl
@[simp] theorem setArray_domain (n : Fin 17) (x : SpanArray) (k : Fin 16) : (s.setArray n x).domain k = s.domain k := rfl

/-! ### setMicro -/

@[simp] theorem setMicro_regs (n : Fin 17) (x : MicroSeq) : (s.setMicro n x).regs = s.regs := rfl
@[simp] theorem setMicro_mem (n : Fin 17) (x : MicroSeq) : (s.setMicro n x).mem = s.mem := rfl
@[simp] theorem setMicro_errs (n : Fin 17) (x : MicroSeq) : (s.setMicro n x).errs = s.errs := rfl
@[simp] theorem setMicro_parity (n : Fin 17) (x : MicroSeq) : (s.setMicro n x).parity = s.parity := rfl
@[simp] theorem setMicro_arrays (n : Fin 17) (x : MicroSeq) : (s.setMicro n x).arrays = s.arrays := rfl
@[simp] theorem setMicro_ctls (n : Fin 17) (x : MicroSeq) : (s.setMicro n x).ctls = s.ctls := rfl
@[simp] theorem setMicro_heads (n : Fin 17) (x : MicroSeq) : (s.setMicro n x).heads = s.heads := rfl
@[simp] theorem setMicro_regions (n : Fin 17) (x : MicroSeq) : (s.setMicro n x).regions = s.regions := rfl
@[simp] theorem setMicro_rx (n : Fin 17) (x : MicroSeq) : (s.setMicro n x).rx = s.rx := rfl
@[simp] theorem setMicro_trk (n : Fin 17) (x : MicroSeq) : (s.setMicro n x).trk = s.trk := rfl
@[simp] theorem setMicro_jointFlags (n : Fin 17) (x : MicroSeq) : (s.setMicro n x).jointFlags = s.jointFlags := rfl
@[simp] theorem setMicro_jointSpan (n : Fin 17) (x : MicroSeq) : (s.setMicro n x).jointSpan = s.jointSpan := rfl
@[simp] theorem setMicro_jointBelow (n : Fin 17) (x : MicroSeq) : (s.setMicro n x).jointBelow = s.jointBelow := rfl
@[simp] theorem setMicro_cw (n : Fin 17) (x : MicroSeq) : (s.setMicro n x).cw = s.cw := rfl
@[simp] theorem setMicro_slOut (n : Fin 17) (x : MicroSeq) : (s.setMicro n x).slOut = s.slOut := rfl
@[simp] theorem setMicro_reports (n : Fin 17) (x : MicroSeq) : (s.setMicro n x).reports = s.reports := rfl
@[simp] theorem setMicro_trusted (n : Fin 17) (x : MicroSeq) : (s.setMicro n x).trusted = s.trusted := rfl
@[simp] theorem setMicro_pads (n : Fin 17) (x : MicroSeq) : (s.setMicro n x).pads = s.pads := rfl
@[simp] theorem setMicro_lg (n : Fin 17) (x : MicroSeq) : (s.setMicro n x).lg = s.lg := rfl
@[simp] theorem setMicro_rf (n : Fin 17) (x : MicroSeq) : (s.setMicro n x).rf = s.rf := rfl
@[simp] theorem setMicro_cr (n : Fin 17) (x : MicroSeq) : (s.setMicro n x).cr = s.cr := rfl
@[simp] theorem setMicro_tm (n : Fin 17) (x : MicroSeq) : (s.setMicro n x).tm = s.tm := rfl
@[simp] theorem setMicro_rn (n : Fin 17) (x : MicroSeq) : (s.setMicro n x).rn = s.rn := rfl
@[simp] theorem setMicro_d5 (n : Fin 17) (x : MicroSeq) : (s.setMicro n x).d5 = s.d5 := rfl
@[simp] theorem setMicro_kp (n : Fin 17) (x : MicroSeq) : (s.setMicro n x).kp = s.kp := rfl
@[simp] theorem setMicro_eh (n : Fin 17) (x : MicroSeq) : (s.setMicro n x).eh = s.eh := rfl
@[simp] theorem setMicro_ownerStage (n : Fin 17) (x : MicroSeq) : (s.setMicro n x).ownerStage = s.ownerStage := rfl
@[simp] theorem setMicro_muted (n : Fin 17) (x : MicroSeq) : (s.setMicro n x).muted = s.muted := rfl
@[simp] theorem setMicro_pl (n : Fin 17) (x : MicroSeq) : (s.setMicro n x).pl = s.pl := rfl
@[simp] theorem setMicro_ab (n : Fin 17) (x : MicroSeq) : (s.setMicro n x).ab = s.ab := rfl
@[simp] theorem setMicro_up (n : Fin 17) (x : MicroSeq) : (s.setMicro n x).up = s.up := rfl
@[simp] theorem setMicro_fh (n : Fin 17) (x : MicroSeq) : (s.setMicro n x).fh = s.fh := rfl
@[simp] theorem setMicro_pk (n : Fin 17) (x : MicroSeq) : (s.setMicro n x).pk = s.pk := rfl
@[simp] theorem setMicro_now (n : Fin 17) (x : MicroSeq) : (s.setMicro n x).now = s.now := rfl
@[simp] theorem setMicro_raises (n : Fin 17) (x : MicroSeq) : (s.setMicro n x).raises = s.raises := rfl
@[simp] theorem setMicro_freeCtr (n : Fin 17) (x : MicroSeq) : (s.setMicro n x).freeCtr = s.freeCtr := rfl
@[simp] theorem setMicro_pending (n : Fin 17) (x : MicroSeq) : (s.setMicro n x).pending = s.pending := rfl
@[simp] theorem setMicro_reg (n : Fin 17) (x : MicroSeq) (b : Nat) : (s.setMicro n x).reg b = s.reg b := rfl
@[simp] theorem setMicro_fld (n : Fin 17) (x : MicroSeq) (b : Nat) (g : Fld) : (s.setMicro n x).fld b g = s.fld b g := rfl
@[simp] theorem setMicro_flag (n : Fin 17) (x : MicroSeq) (b : Nat) (g : Fld) : (s.setMicro n x).flag b g = s.flag b g := rfl
@[simp] theorem setMicro_byte (n : Fin 17) (x : MicroSeq) (b : Nat) : (s.setMicro n x).byte b = s.byte b := rfl
@[simp] theorem setMicro_errMask (n : Fin 17) (x : MicroSeq) (b : Nat) : (s.setMicro n x).errMask b = s.errMask b := rfl
@[simp] theorem setMicro_array (n : Fin 17) (x : MicroSeq) (k : Fin 17) : (s.setMicro n x).array k = s.array k := rfl
@[simp] theorem setMicro_ctl (n : Fin 17) (x : MicroSeq) (k : Fin 17) : (s.setMicro n x).ctl k = s.ctl k := rfl
@[simp] theorem setMicro_head (n : Fin 17) (x : MicroSeq) (k : Fin 16) : (s.setMicro n x).head k = s.head k := rfl
@[simp] theorem setMicro_region (n : Fin 17) (x : MicroSeq) (k : Fin 17) : (s.setMicro n x).region k = s.region k := rfl
@[simp] theorem setMicro_ext (n : Fin 17) (x : MicroSeq) (k : Fin 17) : (s.setMicro n x).ext k = s.ext k := rfl
@[simp] theorem setMicro_domain (n : Fin 17) (x : MicroSeq) (k : Fin 16) : (s.setMicro n x).domain k = s.domain k := rfl

/-! ### setCtl -/

@[simp] theorem setCtl_regs (n : Fin 17) (x : SpanCtl) : (s.setCtl n x).regs = s.regs := rfl
@[simp] theorem setCtl_mem (n : Fin 17) (x : SpanCtl) : (s.setCtl n x).mem = s.mem := rfl
@[simp] theorem setCtl_errs (n : Fin 17) (x : SpanCtl) : (s.setCtl n x).errs = s.errs := rfl
@[simp] theorem setCtl_parity (n : Fin 17) (x : SpanCtl) : (s.setCtl n x).parity = s.parity := rfl
@[simp] theorem setCtl_arrays (n : Fin 17) (x : SpanCtl) : (s.setCtl n x).arrays = s.arrays := rfl
@[simp] theorem setCtl_micros (n : Fin 17) (x : SpanCtl) : (s.setCtl n x).micros = s.micros := rfl
@[simp] theorem setCtl_heads (n : Fin 17) (x : SpanCtl) : (s.setCtl n x).heads = s.heads := rfl
@[simp] theorem setCtl_regions (n : Fin 17) (x : SpanCtl) : (s.setCtl n x).regions = s.regions := rfl
@[simp] theorem setCtl_rx (n : Fin 17) (x : SpanCtl) : (s.setCtl n x).rx = s.rx := rfl
@[simp] theorem setCtl_trk (n : Fin 17) (x : SpanCtl) : (s.setCtl n x).trk = s.trk := rfl
@[simp] theorem setCtl_jointFlags (n : Fin 17) (x : SpanCtl) : (s.setCtl n x).jointFlags = s.jointFlags := rfl
@[simp] theorem setCtl_jointSpan (n : Fin 17) (x : SpanCtl) : (s.setCtl n x).jointSpan = s.jointSpan := rfl
@[simp] theorem setCtl_jointBelow (n : Fin 17) (x : SpanCtl) : (s.setCtl n x).jointBelow = s.jointBelow := rfl
@[simp] theorem setCtl_cw (n : Fin 17) (x : SpanCtl) : (s.setCtl n x).cw = s.cw := rfl
@[simp] theorem setCtl_slOut (n : Fin 17) (x : SpanCtl) : (s.setCtl n x).slOut = s.slOut := rfl
@[simp] theorem setCtl_reports (n : Fin 17) (x : SpanCtl) : (s.setCtl n x).reports = s.reports := rfl
@[simp] theorem setCtl_trusted (n : Fin 17) (x : SpanCtl) : (s.setCtl n x).trusted = s.trusted := rfl
@[simp] theorem setCtl_pads (n : Fin 17) (x : SpanCtl) : (s.setCtl n x).pads = s.pads := rfl
@[simp] theorem setCtl_lg (n : Fin 17) (x : SpanCtl) : (s.setCtl n x).lg = s.lg := rfl
@[simp] theorem setCtl_rf (n : Fin 17) (x : SpanCtl) : (s.setCtl n x).rf = s.rf := rfl
@[simp] theorem setCtl_cr (n : Fin 17) (x : SpanCtl) : (s.setCtl n x).cr = s.cr := rfl
@[simp] theorem setCtl_tm (n : Fin 17) (x : SpanCtl) : (s.setCtl n x).tm = s.tm := rfl
@[simp] theorem setCtl_rn (n : Fin 17) (x : SpanCtl) : (s.setCtl n x).rn = s.rn := rfl
@[simp] theorem setCtl_d5 (n : Fin 17) (x : SpanCtl) : (s.setCtl n x).d5 = s.d5 := rfl
@[simp] theorem setCtl_kp (n : Fin 17) (x : SpanCtl) : (s.setCtl n x).kp = s.kp := rfl
@[simp] theorem setCtl_eh (n : Fin 17) (x : SpanCtl) : (s.setCtl n x).eh = s.eh := rfl
@[simp] theorem setCtl_ownerStage (n : Fin 17) (x : SpanCtl) : (s.setCtl n x).ownerStage = s.ownerStage := rfl
@[simp] theorem setCtl_muted (n : Fin 17) (x : SpanCtl) : (s.setCtl n x).muted = s.muted := rfl
@[simp] theorem setCtl_pl (n : Fin 17) (x : SpanCtl) : (s.setCtl n x).pl = s.pl := rfl
@[simp] theorem setCtl_ab (n : Fin 17) (x : SpanCtl) : (s.setCtl n x).ab = s.ab := rfl
@[simp] theorem setCtl_up (n : Fin 17) (x : SpanCtl) : (s.setCtl n x).up = s.up := rfl
@[simp] theorem setCtl_fh (n : Fin 17) (x : SpanCtl) : (s.setCtl n x).fh = s.fh := rfl
@[simp] theorem setCtl_pk (n : Fin 17) (x : SpanCtl) : (s.setCtl n x).pk = s.pk := rfl
@[simp] theorem setCtl_now (n : Fin 17) (x : SpanCtl) : (s.setCtl n x).now = s.now := rfl
@[simp] theorem setCtl_raises (n : Fin 17) (x : SpanCtl) : (s.setCtl n x).raises = s.raises := rfl
@[simp] theorem setCtl_freeCtr (n : Fin 17) (x : SpanCtl) : (s.setCtl n x).freeCtr = s.freeCtr := rfl
@[simp] theorem setCtl_pending (n : Fin 17) (x : SpanCtl) : (s.setCtl n x).pending = s.pending := rfl
@[simp] theorem setCtl_reg (n : Fin 17) (x : SpanCtl) (b : Nat) : (s.setCtl n x).reg b = s.reg b := rfl
@[simp] theorem setCtl_fld (n : Fin 17) (x : SpanCtl) (b : Nat) (g : Fld) : (s.setCtl n x).fld b g = s.fld b g := rfl
@[simp] theorem setCtl_flag (n : Fin 17) (x : SpanCtl) (b : Nat) (g : Fld) : (s.setCtl n x).flag b g = s.flag b g := rfl
@[simp] theorem setCtl_byte (n : Fin 17) (x : SpanCtl) (b : Nat) : (s.setCtl n x).byte b = s.byte b := rfl
@[simp] theorem setCtl_errMask (n : Fin 17) (x : SpanCtl) (b : Nat) : (s.setCtl n x).errMask b = s.errMask b := rfl
@[simp] theorem setCtl_array (n : Fin 17) (x : SpanCtl) (k : Fin 17) : (s.setCtl n x).array k = s.array k := rfl
@[simp] theorem setCtl_micro (n : Fin 17) (x : SpanCtl) (k : Fin 17) : (s.setCtl n x).micro k = s.micro k := rfl
@[simp] theorem setCtl_head (n : Fin 17) (x : SpanCtl) (k : Fin 16) : (s.setCtl n x).head k = s.head k := rfl
@[simp] theorem setCtl_region (n : Fin 17) (x : SpanCtl) (k : Fin 17) : (s.setCtl n x).region k = s.region k := rfl
@[simp] theorem setCtl_ext (n : Fin 17) (x : SpanCtl) (k : Fin 17) : (s.setCtl n x).ext k = s.ext k := rfl
@[simp] theorem setCtl_domain (n : Fin 17) (x : SpanCtl) (k : Fin 16) : (s.setCtl n x).domain k = s.domain k := rfl

/-! ### setHead -/

@[simp] theorem setHead_regs (n : Fin 16) (x : HeadPort) : (s.setHead n x).regs = s.regs := rfl
@[simp] theorem setHead_mem (n : Fin 16) (x : HeadPort) : (s.setHead n x).mem = s.mem := rfl
@[simp] theorem setHead_errs (n : Fin 16) (x : HeadPort) : (s.setHead n x).errs = s.errs := rfl
@[simp] theorem setHead_parity (n : Fin 16) (x : HeadPort) : (s.setHead n x).parity = s.parity := rfl
@[simp] theorem setHead_arrays (n : Fin 16) (x : HeadPort) : (s.setHead n x).arrays = s.arrays := rfl
@[simp] theorem setHead_micros (n : Fin 16) (x : HeadPort) : (s.setHead n x).micros = s.micros := rfl
@[simp] theorem setHead_ctls (n : Fin 16) (x : HeadPort) : (s.setHead n x).ctls = s.ctls := rfl
@[simp] theorem setHead_regions (n : Fin 16) (x : HeadPort) : (s.setHead n x).regions = s.regions := rfl
@[simp] theorem setHead_rx (n : Fin 16) (x : HeadPort) : (s.setHead n x).rx = s.rx := rfl
@[simp] theorem setHead_trk (n : Fin 16) (x : HeadPort) : (s.setHead n x).trk = s.trk := rfl
@[simp] theorem setHead_jointFlags (n : Fin 16) (x : HeadPort) : (s.setHead n x).jointFlags = s.jointFlags := rfl
@[simp] theorem setHead_jointSpan (n : Fin 16) (x : HeadPort) : (s.setHead n x).jointSpan = s.jointSpan := rfl
@[simp] theorem setHead_jointBelow (n : Fin 16) (x : HeadPort) : (s.setHead n x).jointBelow = s.jointBelow := rfl
@[simp] theorem setHead_cw (n : Fin 16) (x : HeadPort) : (s.setHead n x).cw = s.cw := rfl
@[simp] theorem setHead_slOut (n : Fin 16) (x : HeadPort) : (s.setHead n x).slOut = s.slOut := rfl
@[simp] theorem setHead_reports (n : Fin 16) (x : HeadPort) : (s.setHead n x).reports = s.reports := rfl
@[simp] theorem setHead_trusted (n : Fin 16) (x : HeadPort) : (s.setHead n x).trusted = s.trusted := rfl
@[simp] theorem setHead_pads (n : Fin 16) (x : HeadPort) : (s.setHead n x).pads = s.pads := rfl
@[simp] theorem setHead_lg (n : Fin 16) (x : HeadPort) : (s.setHead n x).lg = s.lg := rfl
@[simp] theorem setHead_rf (n : Fin 16) (x : HeadPort) : (s.setHead n x).rf = s.rf := rfl
@[simp] theorem setHead_cr (n : Fin 16) (x : HeadPort) : (s.setHead n x).cr = s.cr := rfl
@[simp] theorem setHead_tm (n : Fin 16) (x : HeadPort) : (s.setHead n x).tm = s.tm := rfl
@[simp] theorem setHead_rn (n : Fin 16) (x : HeadPort) : (s.setHead n x).rn = s.rn := rfl
@[simp] theorem setHead_d5 (n : Fin 16) (x : HeadPort) : (s.setHead n x).d5 = s.d5 := rfl
@[simp] theorem setHead_kp (n : Fin 16) (x : HeadPort) : (s.setHead n x).kp = s.kp := rfl
@[simp] theorem setHead_eh (n : Fin 16) (x : HeadPort) : (s.setHead n x).eh = s.eh := rfl
@[simp] theorem setHead_ownerStage (n : Fin 16) (x : HeadPort) : (s.setHead n x).ownerStage = s.ownerStage := rfl
@[simp] theorem setHead_muted (n : Fin 16) (x : HeadPort) : (s.setHead n x).muted = s.muted := rfl
@[simp] theorem setHead_pl (n : Fin 16) (x : HeadPort) : (s.setHead n x).pl = s.pl := rfl
@[simp] theorem setHead_ab (n : Fin 16) (x : HeadPort) : (s.setHead n x).ab = s.ab := rfl
@[simp] theorem setHead_up (n : Fin 16) (x : HeadPort) : (s.setHead n x).up = s.up := rfl
@[simp] theorem setHead_fh (n : Fin 16) (x : HeadPort) : (s.setHead n x).fh = s.fh := rfl
@[simp] theorem setHead_pk (n : Fin 16) (x : HeadPort) : (s.setHead n x).pk = s.pk := rfl
@[simp] theorem setHead_now (n : Fin 16) (x : HeadPort) : (s.setHead n x).now = s.now := rfl
@[simp] theorem setHead_raises (n : Fin 16) (x : HeadPort) : (s.setHead n x).raises = s.raises := rfl
@[simp] theorem setHead_freeCtr (n : Fin 16) (x : HeadPort) : (s.setHead n x).freeCtr = s.freeCtr := rfl
@[simp] theorem setHead_pending (n : Fin 16) (x : HeadPort) : (s.setHead n x).pending = s.pending := rfl
@[simp] theorem setHead_reg (n : Fin 16) (x : HeadPort) (b : Nat) : (s.setHead n x).reg b = s.reg b := rfl
@[simp] theorem setHead_fld (n : Fin 16) (x : HeadPort) (b : Nat) (g : Fld) : (s.setHead n x).fld b g = s.fld b g := rfl
@[simp] theorem setHead_flag (n : Fin 16) (x : HeadPort) (b : Nat) (g : Fld) : (s.setHead n x).flag b g = s.flag b g := rfl
@[simp] theorem setHead_byte (n : Fin 16) (x : HeadPort) (b : Nat) : (s.setHead n x).byte b = s.byte b := rfl
@[simp] theorem setHead_errMask (n : Fin 16) (x : HeadPort) (b : Nat) : (s.setHead n x).errMask b = s.errMask b := rfl
@[simp] theorem setHead_array (n : Fin 16) (x : HeadPort) (k : Fin 17) : (s.setHead n x).array k = s.array k := rfl
@[simp] theorem setHead_micro (n : Fin 16) (x : HeadPort) (k : Fin 17) : (s.setHead n x).micro k = s.micro k := rfl
@[simp] theorem setHead_ctl (n : Fin 16) (x : HeadPort) (k : Fin 17) : (s.setHead n x).ctl k = s.ctl k := rfl
@[simp] theorem setHead_region (n : Fin 16) (x : HeadPort) (k : Fin 17) : (s.setHead n x).region k = s.region k := rfl
@[simp] theorem setHead_ext (n : Fin 16) (x : HeadPort) (k : Fin 17) : (s.setHead n x).ext k = s.ext k := rfl
@[simp] theorem setHead_domain (n : Fin 16) (x : HeadPort) (k : Fin 16) : (s.setHead n x).domain k = s.domain k := rfl

/-! ### setRegion -/

@[simp] theorem setRegion_regs (n : Fin 17) (x : Region) : (s.setRegion n x).regs = s.regs := rfl
@[simp] theorem setRegion_mem (n : Fin 17) (x : Region) : (s.setRegion n x).mem = s.mem := rfl
@[simp] theorem setRegion_errs (n : Fin 17) (x : Region) : (s.setRegion n x).errs = s.errs := rfl
@[simp] theorem setRegion_parity (n : Fin 17) (x : Region) : (s.setRegion n x).parity = s.parity := rfl
@[simp] theorem setRegion_arrays (n : Fin 17) (x : Region) : (s.setRegion n x).arrays = s.arrays := rfl
@[simp] theorem setRegion_micros (n : Fin 17) (x : Region) : (s.setRegion n x).micros = s.micros := rfl
@[simp] theorem setRegion_ctls (n : Fin 17) (x : Region) : (s.setRegion n x).ctls = s.ctls := rfl
@[simp] theorem setRegion_heads (n : Fin 17) (x : Region) : (s.setRegion n x).heads = s.heads := rfl
@[simp] theorem setRegion_rx (n : Fin 17) (x : Region) : (s.setRegion n x).rx = s.rx := rfl
@[simp] theorem setRegion_trk (n : Fin 17) (x : Region) : (s.setRegion n x).trk = s.trk := rfl
@[simp] theorem setRegion_jointFlags (n : Fin 17) (x : Region) : (s.setRegion n x).jointFlags = s.jointFlags := rfl
@[simp] theorem setRegion_jointSpan (n : Fin 17) (x : Region) : (s.setRegion n x).jointSpan = s.jointSpan := rfl
@[simp] theorem setRegion_jointBelow (n : Fin 17) (x : Region) : (s.setRegion n x).jointBelow = s.jointBelow := rfl
@[simp] theorem setRegion_cw (n : Fin 17) (x : Region) : (s.setRegion n x).cw = s.cw := rfl
@[simp] theorem setRegion_slOut (n : Fin 17) (x : Region) : (s.setRegion n x).slOut = s.slOut := rfl
@[simp] theorem setRegion_reports (n : Fin 17) (x : Region) : (s.setRegion n x).reports = s.reports := rfl
@[simp] theorem setRegion_trusted (n : Fin 17) (x : Region) : (s.setRegion n x).trusted = s.trusted := rfl
@[simp] theorem setRegion_pads (n : Fin 17) (x : Region) : (s.setRegion n x).pads = s.pads := rfl
@[simp] theorem setRegion_lg (n : Fin 17) (x : Region) : (s.setRegion n x).lg = s.lg := rfl
@[simp] theorem setRegion_rf (n : Fin 17) (x : Region) : (s.setRegion n x).rf = s.rf := rfl
@[simp] theorem setRegion_cr (n : Fin 17) (x : Region) : (s.setRegion n x).cr = s.cr := rfl
@[simp] theorem setRegion_tm (n : Fin 17) (x : Region) : (s.setRegion n x).tm = s.tm := rfl
@[simp] theorem setRegion_rn (n : Fin 17) (x : Region) : (s.setRegion n x).rn = s.rn := rfl
@[simp] theorem setRegion_d5 (n : Fin 17) (x : Region) : (s.setRegion n x).d5 = s.d5 := rfl
@[simp] theorem setRegion_kp (n : Fin 17) (x : Region) : (s.setRegion n x).kp = s.kp := rfl
@[simp] theorem setRegion_eh (n : Fin 17) (x : Region) : (s.setRegion n x).eh = s.eh := rfl
@[simp] theorem setRegion_ownerStage (n : Fin 17) (x : Region) : (s.setRegion n x).ownerStage = s.ownerStage := rfl
@[simp] theorem setRegion_muted (n : Fin 17) (x : Region) : (s.setRegion n x).muted = s.muted := rfl
@[simp] theorem setRegion_pl (n : Fin 17) (x : Region) : (s.setRegion n x).pl = s.pl := rfl
@[simp] theorem setRegion_ab (n : Fin 17) (x : Region) : (s.setRegion n x).ab = s.ab := rfl
@[simp] theorem setRegion_up (n : Fin 17) (x : Region) : (s.setRegion n x).up = s.up := rfl
@[simp] theorem setRegion_fh (n : Fin 17) (x : Region) : (s.setRegion n x).fh = s.fh := rfl
@[simp] theorem setRegion_pk (n : Fin 17) (x : Region) : (s.setRegion n x).pk = s.pk := rfl
@[simp] theorem setRegion_now (n : Fin 17) (x : Region) : (s.setRegion n x).now = s.now := rfl
@[simp] theorem setRegion_raises (n : Fin 17) (x : Region) : (s.setRegion n x).raises = s.raises := rfl
@[simp] theorem setRegion_freeCtr (n : Fin 17) (x : Region) : (s.setRegion n x).freeCtr = s.freeCtr := rfl
@[simp] theorem setRegion_pending (n : Fin 17) (x : Region) : (s.setRegion n x).pending = s.pending := rfl
@[simp] theorem setRegion_reg (n : Fin 17) (x : Region) (b : Nat) : (s.setRegion n x).reg b = s.reg b := rfl
@[simp] theorem setRegion_fld (n : Fin 17) (x : Region) (b : Nat) (g : Fld) : (s.setRegion n x).fld b g = s.fld b g := rfl
@[simp] theorem setRegion_flag (n : Fin 17) (x : Region) (b : Nat) (g : Fld) : (s.setRegion n x).flag b g = s.flag b g := rfl
@[simp] theorem setRegion_byte (n : Fin 17) (x : Region) (b : Nat) : (s.setRegion n x).byte b = s.byte b := rfl
@[simp] theorem setRegion_errMask (n : Fin 17) (x : Region) (b : Nat) : (s.setRegion n x).errMask b = s.errMask b := rfl
@[simp] theorem setRegion_array (n : Fin 17) (x : Region) (k : Fin 17) : (s.setRegion n x).array k = s.array k := rfl
@[simp] theorem setRegion_micro (n : Fin 17) (x : Region) (k : Fin 17) : (s.setRegion n x).micro k = s.micro k := rfl
@[simp] theorem setRegion_ctl (n : Fin 17) (x : Region) (k : Fin 17) : (s.setRegion n x).ctl k = s.ctl k := rfl
@[simp] theorem setRegion_head (n : Fin 17) (x : Region) (k : Fin 16) : (s.setRegion n x).head k = s.head k := rfl
@[simp] theorem setRegion_ext (n : Fin 17) (x : Region) (k : Fin 17) : (s.setRegion n x).ext k = s.ext k := rfl
@[simp] theorem setRegion_domain (n : Fin 17) (x : Region) (k : Fin 16) : (s.setRegion n x).domain k = s.domain k := rfl

/-! ### setExt -/

@[simp] theorem setExt_regs (n : Fin 17) (x : Extraction) : (s.setExt n x).regs = s.regs := rfl
@[simp] theorem setExt_mem (n : Fin 17) (x : Extraction) : (s.setExt n x).mem = s.mem := rfl
@[simp] theorem setExt_errs (n : Fin 17) (x : Extraction) : (s.setExt n x).errs = s.errs := rfl
@[simp] theorem setExt_parity (n : Fin 17) (x : Extraction) : (s.setExt n x).parity = s.parity := rfl
@[simp] theorem setExt_arrays (n : Fin 17) (x : Extraction) : (s.setExt n x).arrays = s.arrays := rfl
@[simp] theorem setExt_micros (n : Fin 17) (x : Extraction) : (s.setExt n x).micros = s.micros := rfl
@[simp] theorem setExt_ctls (n : Fin 17) (x : Extraction) : (s.setExt n x).ctls = s.ctls := rfl
@[simp] theorem setExt_heads (n : Fin 17) (x : Extraction) : (s.setExt n x).heads = s.heads := rfl
@[simp] theorem setExt_regions (n : Fin 17) (x : Extraction) : (s.setExt n x).regions = s.regions := rfl
@[simp] theorem setExt_trk (n : Fin 17) (x : Extraction) : (s.setExt n x).trk = s.trk := rfl
@[simp] theorem setExt_jointFlags (n : Fin 17) (x : Extraction) : (s.setExt n x).jointFlags = s.jointFlags := rfl
@[simp] theorem setExt_jointSpan (n : Fin 17) (x : Extraction) : (s.setExt n x).jointSpan = s.jointSpan := rfl
@[simp] theorem setExt_jointBelow (n : Fin 17) (x : Extraction) : (s.setExt n x).jointBelow = s.jointBelow := rfl
@[simp] theorem setExt_cw (n : Fin 17) (x : Extraction) : (s.setExt n x).cw = s.cw := rfl
@[simp] theorem setExt_slOut (n : Fin 17) (x : Extraction) : (s.setExt n x).slOut = s.slOut := rfl
@[simp] theorem setExt_reports (n : Fin 17) (x : Extraction) : (s.setExt n x).reports = s.reports := rfl
@[simp] theorem setExt_trusted (n : Fin 17) (x : Extraction) : (s.setExt n x).trusted = s.trusted := rfl
@[simp] theorem setExt_pads (n : Fin 17) (x : Extraction) : (s.setExt n x).pads = s.pads := rfl
@[simp] theorem setExt_lg (n : Fin 17) (x : Extraction) : (s.setExt n x).lg = s.lg := rfl
@[simp] theorem setExt_rf (n : Fin 17) (x : Extraction) : (s.setExt n x).rf = s.rf := rfl
@[simp] theorem setExt_cr (n : Fin 17) (x : Extraction) : (s.setExt n x).cr = s.cr := rfl
@[simp] theorem setExt_tm (n : Fin 17) (x : Extraction) : (s.setExt n x).tm = s.tm := rfl
@[simp] theorem setExt_rn (n : Fin 17) (x : Extraction) : (s.setExt n x).rn = s.rn := rfl
@[simp] theorem setExt_d5 (n : Fin 17) (x : Extraction) : (s.setExt n x).d5 = s.d5 := rfl
@[simp] theorem setExt_kp (n : Fin 17) (x : Extraction) : (s.setExt n x).kp = s.kp := rfl
@[simp] theorem setExt_eh (n : Fin 17) (x : Extraction) : (s.setExt n x).eh = s.eh := rfl
@[simp] theorem setExt_ownerStage (n : Fin 17) (x : Extraction) : (s.setExt n x).ownerStage = s.ownerStage := rfl
@[simp] theorem setExt_muted (n : Fin 17) (x : Extraction) : (s.setExt n x).muted = s.muted := rfl
@[simp] theorem setExt_pl (n : Fin 17) (x : Extraction) : (s.setExt n x).pl = s.pl := rfl
@[simp] theorem setExt_ab (n : Fin 17) (x : Extraction) : (s.setExt n x).ab = s.ab := rfl
@[simp] theorem setExt_up (n : Fin 17) (x : Extraction) : (s.setExt n x).up = s.up := rfl
@[simp] theorem setExt_fh (n : Fin 17) (x : Extraction) : (s.setExt n x).fh = s.fh := rfl
@[simp] theorem setExt_pk (n : Fin 17) (x : Extraction) : (s.setExt n x).pk = s.pk := rfl
@[simp] theorem setExt_now (n : Fin 17) (x : Extraction) : (s.setExt n x).now = s.now := rfl
@[simp] theorem setExt_raises (n : Fin 17) (x : Extraction) : (s.setExt n x).raises = s.raises := rfl
@[simp] theorem setExt_freeCtr (n : Fin 17) (x : Extraction) : (s.setExt n x).freeCtr = s.freeCtr := rfl
@[simp] theorem setExt_pending (n : Fin 17) (x : Extraction) : (s.setExt n x).pending = s.pending := rfl
@[simp] theorem setExt_reg (n : Fin 17) (x : Extraction) (b : Nat) : (s.setExt n x).reg b = s.reg b := rfl
@[simp] theorem setExt_fld (n : Fin 17) (x : Extraction) (b : Nat) (g : Fld) : (s.setExt n x).fld b g = s.fld b g := rfl
@[simp] theorem setExt_flag (n : Fin 17) (x : Extraction) (b : Nat) (g : Fld) : (s.setExt n x).flag b g = s.flag b g := rfl
@[simp] theorem setExt_byte (n : Fin 17) (x : Extraction) (b : Nat) : (s.setExt n x).byte b = s.byte b := rfl
@[simp] theorem setExt_errMask (n : Fin 17) (x : Extraction) (b : Nat) : (s.setExt n x).errMask b = s.errMask b := rfl
@[simp] theorem setExt_array (n : Fin 17) (x : Extraction) (k : Fin 17) : (s.setExt n x).array k = s.array k := rfl
@[simp] theorem setExt_micro (n : Fin 17) (x : Extraction) (k : Fin 17) : (s.setExt n x).micro k = s.micro k := rfl
@[simp] theorem setExt_ctl (n : Fin 17) (x : Extraction) (k : Fin 17) : (s.setExt n x).ctl k = s.ctl k := rfl
@[simp] theorem setExt_head (n : Fin 17) (x : Extraction) (k : Fin 16) : (s.setExt n x).head k = s.head k := rfl
@[simp] theorem setExt_region (n : Fin 17) (x : Extraction) (k : Fin 17) : (s.setExt n x).region k = s.region k := rfl
@[simp] theorem setExt_domain (n : Fin 17) (x : Extraction) (k : Fin 16) : (s.setExt n x).domain k = s.domain k := rfl

/-! ### setDomain -/

@[simp] theorem setDomain_regs (n : Fin 16) (x : Domain) : (s.setDomain n x).regs = s.regs := rfl
@[simp] theorem setDomain_mem (n : Fin 16) (x : Domain) : (s.setDomain n x).mem = s.mem := rfl
@[simp] theorem setDomain_errs (n : Fin 16) (x : Domain) : (s.setDomain n x).errs = s.errs := rfl
@[simp] theorem setDomain_parity (n : Fin 16) (x : Domain) : (s.setDomain n x).parity = s.parity := rfl
@[simp] theorem setDomain_arrays (n : Fin 16) (x : Domain) : (s.setDomain n x).arrays = s.arrays := rfl
@[simp] theorem setDomain_micros (n : Fin 16) (x : Domain) : (s.setDomain n x).micros = s.micros := rfl
@[simp] theorem setDomain_ctls (n : Fin 16) (x : Domain) : (s.setDomain n x).ctls = s.ctls := rfl
@[simp] theorem setDomain_heads (n : Fin 16) (x : Domain) : (s.setDomain n x).heads = s.heads := rfl
@[simp] theorem setDomain_regions (n : Fin 16) (x : Domain) : (s.setDomain n x).regions = s.regions := rfl
@[simp] theorem setDomain_rx (n : Fin 16) (x : Domain) : (s.setDomain n x).rx = s.rx := rfl
@[simp] theorem setDomain_jointFlags (n : Fin 16) (x : Domain) : (s.setDomain n x).jointFlags = s.jointFlags := rfl
@[simp] theorem setDomain_jointSpan (n : Fin 16) (x : Domain) : (s.setDomain n x).jointSpan = s.jointSpan := rfl
@[simp] theorem setDomain_jointBelow (n : Fin 16) (x : Domain) : (s.setDomain n x).jointBelow = s.jointBelow := rfl
@[simp] theorem setDomain_cw (n : Fin 16) (x : Domain) : (s.setDomain n x).cw = s.cw := rfl
@[simp] theorem setDomain_slOut (n : Fin 16) (x : Domain) : (s.setDomain n x).slOut = s.slOut := rfl
@[simp] theorem setDomain_reports (n : Fin 16) (x : Domain) : (s.setDomain n x).reports = s.reports := rfl
@[simp] theorem setDomain_trusted (n : Fin 16) (x : Domain) : (s.setDomain n x).trusted = s.trusted := rfl
@[simp] theorem setDomain_pads (n : Fin 16) (x : Domain) : (s.setDomain n x).pads = s.pads := rfl
@[simp] theorem setDomain_lg (n : Fin 16) (x : Domain) : (s.setDomain n x).lg = s.lg := rfl
@[simp] theorem setDomain_rf (n : Fin 16) (x : Domain) : (s.setDomain n x).rf = s.rf := rfl
@[simp] theorem setDomain_cr (n : Fin 16) (x : Domain) : (s.setDomain n x).cr = s.cr := rfl
@[simp] theorem setDomain_tm (n : Fin 16) (x : Domain) : (s.setDomain n x).tm = s.tm := rfl
@[simp] theorem setDomain_rn (n : Fin 16) (x : Domain) : (s.setDomain n x).rn = s.rn := rfl
@[simp] theorem setDomain_d5 (n : Fin 16) (x : Domain) : (s.setDomain n x).d5 = s.d5 := rfl
@[simp] theorem setDomain_kp (n : Fin 16) (x : Domain) : (s.setDomain n x).kp = s.kp := rfl
@[simp] theorem setDomain_eh (n : Fin 16) (x : Domain) : (s.setDomain n x).eh = s.eh := rfl
@[simp] theorem setDomain_ownerStage (n : Fin 16) (x : Domain) : (s.setDomain n x).ownerStage = s.ownerStage := rfl
@[simp] theorem setDomain_muted (n : Fin 16) (x : Domain) : (s.setDomain n x).muted = s.muted := rfl
@[simp] theorem setDomain_pl (n : Fin 16) (x : Domain) : (s.setDomain n x).pl = s.pl := rfl
@[simp] theorem setDomain_ab (n : Fin 16) (x : Domain) : (s.setDomain n x).ab = s.ab := rfl
@[simp] theorem setDomain_up (n : Fin 16) (x : Domain) : (s.setDomain n x).up = s.up := rfl
@[simp] theorem setDomain_fh (n : Fin 16) (x : Domain) : (s.setDomain n x).fh = s.fh := rfl
@[simp] theorem setDomain_pk (n : Fin 16) (x : Domain) : (s.setDomain n x).pk = s.pk := rfl
@[simp] theorem setDomain_now (n : Fin 16) (x : Domain) : (s.setDomain n x).now = s.now := rfl
@[simp] theorem setDomain_raises (n : Fin 16) (x : Domain) : (s.setDomain n x).raises = s.raises := rfl
@[simp] theorem setDomain_freeCtr (n : Fin 16) (x : Domain) : (s.setDomain n x).freeCtr = s.freeCtr := rfl
@[simp] theorem setDomain_pending (n : Fin 16) (x : Domain) : (s.setDomain n x).pending = s.pending := rfl
@[simp] theorem setDomain_reg (n : Fin 16) (x : Domain) (b : Nat) : (s.setDomain n x).reg b = s.reg b := rfl
@[simp] theorem setDomain_fld (n : Fin 16) (x : Domain) (b : Nat) (g : Fld) : (s.setDomain n x).fld b g = s.fld b g := rfl
@[simp] theorem setDomain_flag (n : Fin 16) (x : Domain) (b : Nat) (g : Fld) : (s.setDomain n x).flag b g = s.flag b g := rfl
@[simp] theorem setDomain_byte (n : Fin 16) (x : Domain) (b : Nat) : (s.setDomain n x).byte b = s.byte b := rfl
@[simp] theorem setDomain_errMask (n : Fin 16) (x : Domain) (b : Nat) : (s.setDomain n x).errMask b = s.errMask b := rfl
@[simp] theorem setDomain_array (n : Fin 16) (x : Domain) (k : Fin 17) : (s.setDomain n x).array k = s.array k := rfl
@[simp] theorem setDomain_micro (n : Fin 16) (x : Domain) (k : Fin 17) : (s.setDomain n x).micro k = s.micro k := rfl
@[simp] theorem setDomain_ctl (n : Fin 16) (x : Domain) (k : Fin 17) : (s.setDomain n x).ctl k = s.ctl k := rfl
@[simp] theorem setDomain_head (n : Fin 16) (x : Domain) (k : Fin 16) : (s.setDomain n x).head k = s.head k := rfl
@[simp] theorem setDomain_region (n : Fin 16) (x : Domain) (k : Fin 17) : (s.setDomain n x).region k = s.region k := rfl
@[simp] theorem setDomain_ext (n : Fin 16) (x : Domain) (k : Fin 17) : (s.setDomain n x).ext k = s.ext k := rfl

end Sys2Proof.Machine.State
end

