-- ==== Sys2Proof/Laws/Ops.lean ====
section
/-!
SUPPORT. What the shared operations do: read after write of the register store, of fields and of memory; that they
keep the canonical forms; and what a read of an accessor finds after an update of its own kind.
-/

namespace Sys2Proof.Machine

/-! ## The register store -/

theorem RegStore.find_erase (m : RegStore) (a b : Nat) :
    (m.erase a).find? b = if b = a then none else m.find? b := by
  induction m with
  | nil => simp [erase, find?]
  | cons p r ih =>
    obtain ⟨k, v⟩ := p
    by_cases hk : k = a <;> by_cases hb : k = b <;> simp_all [erase, find?]

theorem RegStore.find_insert (m : RegStore) (a b : Nat) (w : BitVec 32) :
    (m.insert a w).find? b = if b = a then some w else m.find? b := by
  induction m with
  | nil => by_cases h : a = b <;> simp [insert, find?, h, eq_comm]
  | cons p r ih =>
    obtain ⟨k, v⟩ := p
    unfold insert
    split
    · by_cases h : b = a <;> simp_all [find?, eq_comm]
    · split <;> by_cases h : b = a <;> simp_all [find?, eq_comm]

/-- A read after a write: the value written at its address, what stood there everywhere else. -/
theorem RegStore.get_set (m : RegStore) (a b : Nat) (w : BitVec 32) :
    (m.set a w).get b = if b = a then w else m.get b := by
  unfold set get
  split
  · rename_i h; rw [find_erase]; split <;> simp_all
  · rw [find_insert]; split <;> simp_all

theorem RegStore.mem_erase {m : RegStore} {a : Nat} {p : Nat × BitVec 32} (h : p ∈ m.erase a) : p ∈ m := by
  induction m with
  | nil => simp [erase] at h
  | cons q r ih =>
    obtain ⟨k, v⟩ := q
    unfold erase at h
    split at h
    · exact List.mem_cons_of_mem _ (ih h)
    · rcases List.mem_cons.1 h with h | h
      · simp [h]
      · exact List.mem_cons_of_mem _ (ih h)

theorem RegStore.mem_insert {m : RegStore} {a : Nat} {w : BitVec 32} {p : Nat × BitVec 32} (h : p ∈ m.insert a w) :
    p = (a, w) ∨ p ∈ m := by
  induction m with
  | nil => simpa [insert] using h
  | cons q r ih =>
    obtain ⟨k, v⟩ := q
    unfold insert at h
    split at h
    · rcases List.mem_cons.1 h with h | h <;> simp [h]
    · split at h
      · rcases List.mem_cons.1 h with h | h <;> simp_all
      · rcases List.mem_cons.1 h with h | h
        · simp [h]
        · rcases ih h with h | h <;> simp [h]

theorem RegStore.wf_erase {m : RegStore} (h : m.wf) (a : Nat) : (m.erase a).wf := by
  refine ⟨?_, fun p hp => h.2 p (mem_erase hp)⟩
  have h1 := h.1
  clear h
  induction m with
  | nil => simp [erase]
  | cons q r ih =>
    obtain ⟨k, v⟩ := q
    rw [List.pairwise_cons] at h1
    unfold erase
    split
    · exact ih h1.2
    · exact List.pairwise_cons.2 ⟨fun p hp => h1.1 p (mem_erase hp), ih h1.2⟩

theorem RegStore.wf_insert {m : RegStore} (h : m.wf) (a : Nat) (w : BitVec 32) (hw : w ≠ resetWord a) :
    (m.insert a w).wf := by
  refine ⟨?_, fun p hp => (mem_insert hp).elim (fun e => by simpa [e] using hw) (h.2 p)⟩
  have h1 := h.1
  clear h
  induction m with
  | nil => simp [insert]
  | cons q r ih =>
    obtain ⟨k, v⟩ := q
    rw [List.pairwise_cons] at h1
    unfold insert
    split
    · rename_i e; subst e; exact List.pairwise_cons.2 ⟨h1.1, h1.2⟩
    · split
      · rename_i hk
        refine List.pairwise_cons.2 ⟨fun p hp => ?_, List.pairwise_cons.2 h1⟩
        rcases List.mem_cons.1 hp with e | hp
        · simpa [e] using hk
        · exact Nat.lt_trans hk (h1.1 p hp)
      · rename_i hne hk
        refine List.pairwise_cons.2 ⟨fun p hp => ?_, ih h1.2⟩
        rcases mem_insert hp with e | hp
        · simp only [e]; omega
        · exact h1.1 p hp

/-- A write keeps the canonical form. -/
theorem RegStore.wf_set {m : RegStore} (h : m.wf) (a : Nat) (w : BitVec 32) : (m.set a w).wf := by
  unfold set
  split
  · exact wf_erase h a
  · exact wf_insert h a w ‹_›

theorem RegStore.wf_filter {m : RegStore} (h : m.wf) (p : Nat × BitVec 32 → Bool) : RegStore.wf (m.filter p) :=
  ⟨h.1.filter p, fun q hq => h.2 q (List.mem_of_mem_filter hq)⟩

/-! ## Memory -/

theorem Memory.read_erase (m : Memory) (a b : Nat) : (m.erase a).read b = if b = a then 0 else m.read b := by
  induction m with
  | nil => simp [erase, read]
  | cons p r ih =>
    obtain ⟨k, v⟩ := p
    by_cases hk : k = a <;> by_cases hb : k = b <;> simp_all [erase, read]

theorem Memory.read_insert (m : Memory) (a b : Nat) (w : Byte) :
    (m.insert a w).read b = if b = a then w else m.read b := by
  induction m with
  | nil => by_cases h : a = b <;> simp_all [insert, read, Ne.symm]
  | cons p r ih =>
    obtain ⟨k, v⟩ := p
    unfold insert
    split
    · by_cases h : b = a
      · simp [read, h]
      · have : ¬ a = b := fun e => h e.symm
        simp_all [read]
    · split
      · by_cases h : b = a
        · simp [read, h]
        · have : ¬ a = b := fun e => h e.symm
          simp_all [read]
      · by_cases h : b = a <;> simp_all [read]

/-- A read after a write: the byte written at its address, what stood there everywhere else. -/
theorem Memory.read_write (m : Memory) (a b : Nat) (w : Byte) :
    (m.write a w).read b = if b = a then w else m.read b := by
  unfold write
  split
  · rename_i h; rw [read_erase, h]
  · rw [read_insert]

theorem Memory.read_writeBytes (bs : List Byte) (m : Memory) (a b : Nat) :
    (m.writeBytes a bs).read b = if a ≤ b ∧ b < a + bs.length then bs.getD (b - a) 0 else m.read b := by
  induction bs generalizing m a with
  | nil =>
    have : ¬ (a ≤ b ∧ b < a + ([] : List Byte).length) := by simp only [List.length_nil]; omega
    rw [if_neg this]; rfl
  | cons x r ih =>
    rw [writeBytes, ih, read_write]
    by_cases h : b = a
    · subst h; simp
    · by_cases h2 : a ≤ b ∧ b < a + (x :: r).length
      · obtain ⟨c, rfl⟩ : ∃ c, b = a + 1 + c := ⟨b - a - 1, by omega⟩
        have h3 : a + 1 + c - a = c + 1 := by omega
        simp only [List.length_cons] at h2
        rw [if_pos (by omega), if_pos (by simp only [List.length_cons]; omega), h3]
        simp
      · rw [if_neg h2, if_neg (by simp only [List.length_cons] at h2; omega), if_neg h]

theorem Memory.mem_erase {m : Memory} {a : Nat} {p : Host.Cell} (h : p ∈ m.erase a) : p ∈ m := by
  induction m with
  | nil => simp [erase] at h
  | cons q r ih =>
    obtain ⟨k, v⟩ := q
    unfold erase at h
    split at h
    · exact List.mem_cons_of_mem _ (ih h)
    · rcases List.mem_cons.1 h with h | h
      · simp [h]
      · exact List.mem_cons_of_mem _ (ih h)

theorem Memory.mem_insert {m : Memory} {a : Nat} {w : Byte} {p : Host.Cell} (h : p ∈ m.insert a w) :
    p = (a, w) ∨ p ∈ m := by
  induction m with
  | nil => simpa [insert] using h
  | cons q r ih =>
    obtain ⟨k, v⟩ := q
    unfold insert at h
    split at h
    · rcases List.mem_cons.1 h with h | h <;> simp [h]
    · split at h
      · rcases List.mem_cons.1 h with h | h <;> simp_all
      · rcases List.mem_cons.1 h with h | h
        · simp [h]
        · rcases ih h with h | h <;> simp [h]

theorem Memory.wf_erase {m : Memory} (h : m.wf) (a : Nat) : (m.erase a).wf := by
  refine ⟨?_, fun p hp => h.2 p (mem_erase hp)⟩
  have h1 := h.1
  clear h
  induction m with
  | nil => simp [erase]
  | cons q r ih =>
    obtain ⟨k, v⟩ := q
    rw [List.pairwise_cons] at h1
    unfold erase
    split
    · exact ih h1.2
    · exact List.pairwise_cons.2 ⟨fun p hp => h1.1 p (mem_erase hp), ih h1.2⟩

theorem Memory.wf_insert {m : Memory} (h : m.wf) (a : Nat) (w : Byte) (hw : w ≠ 0) : (m.insert a w).wf := by
  refine ⟨?_, fun p hp => (mem_insert hp).elim (fun e => by simpa [e] using hw) (h.2 p)⟩
  have h1 := h.1
  clear h
  induction m with
  | nil => simp [insert]
  | cons q r ih =>
    obtain ⟨k, v⟩ := q
    rw [List.pairwise_cons] at h1
    unfold insert
    split
    · rename_i e; subst e; exact List.pairwise_cons.2 ⟨h1.1, h1.2⟩
    · split
      · rename_i hk
        refine List.pairwise_cons.2 ⟨fun p hp => ?_, List.pairwise_cons.2 h1⟩
        rcases List.mem_cons.1 hp with e | hp
        · simpa [e] using hk
        · exact Nat.lt_trans hk (h1.1 p hp)
      · rename_i hne hk
        refine List.pairwise_cons.2 ⟨fun p hp => ?_, ih h1.2⟩
        rcases mem_insert hp with e | hp
        · simp only [e]; omega
        · exact h1.1 p hp

/-- A write keeps the canonical form. -/
theorem Memory.wf_write {m : Memory} (h : m.wf) (a : Nat) (b : Byte) : (m.write a b).wf := by
  unfold write
  split
  · exact wf_erase h a
  · exact wf_insert h a b ‹_›

theorem Memory.wf_writeBytes {m : Memory} (h : m.wf) (a : Nat) (bs : List Byte) : (m.writeBytes a bs).wf := by
  induction bs generalizing m a with
  | nil => exact h
  | cons b r ih => exact ih (wf_write h a b) (a + 1)

theorem Memory.wf_writeLE {m : Memory} (h : m.wf) (a n v : Nat) : (m.writeLE a n v).wf := wf_writeBytes h a _

theorem Memory.wf_filter {m : Memory} (h : m.wf) (p : Host.Cell → Bool) : Memory.wf (m.filter p) :=
  ⟨h.1.filter p, fun q hq => h.2 q (List.mem_of_mem_filter hq)⟩

theorem Memory.wf_clear {m : Memory} (h : m.wf) (lo hi : Nat) : (m.clear lo hi).wf := wf_filter h _

/-- The running CRC over two byte strings, one behind the other (R143). -/
theorem crcRun_append (c : BitVec 32) (a b : List Byte) : crcRun c (a ++ b) = crcRun (crcRun c a) b := by
  simp [crcRun, List.foldl_append]

@[simp] theorem length_leBytes (n v : Nat) : (leBytes n v).length = n := by
  induction n generalizing v with
  | zero => rfl
  | succ n ih => simp [leBytes, ih]

/-- What was written little-endian reads back, cut to its bytes. -/
theorem leNat_leBytes (n v : Nat) : leNat (leBytes n v) = v % 256 ^ n := by
  induction n generalizing v with
  | zero => simp [leBytes, leNat, Nat.mod_one]
  | succ n ih =>
    simp only [leBytes, leNat, ih, BitVec.toNat_ofNat]
    exact (Nat.mod_mul (x := v) (a := 256) (b := 256 ^ n)).symm ▸ by rw [Nat.pow_succ']

theorem Memory.readBytes_eq (m m' : Memory) (n a : Nat) (h : ∀ i < n, m.read (a + i) = m'.read (a + i)) :
    m.readBytes a n = m'.readBytes a n := by
  induction n generalizing a with
  | zero => rfl
  | succ n ih =>
    simp only [readBytes]
    have h0 : m.read a = m'.read a := by simpa using h 0 (by omega)
    rw [h0]
    congr 1
    refine ih (a + 1) fun i hi => ?_
    have := h (i + 1) (by omega)
    rwa [show a + (i + 1) = a + 1 + i by omega] at this

theorem Memory.readBytes_writeBytes (m : Memory) (a : Nat) (bs : List Byte) :
    (m.writeBytes a bs).readBytes a bs.length = bs := by
  induction bs generalizing m a with
  | nil => rfl
  | cons b r ih =>
    simp only [writeBytes, List.length_cons, readBytes, ih]
    rw [read_writeBytes, if_neg (by omega), read_write, if_pos rfl]

theorem Memory.readLE_writeLE (m : Memory) (a n v : Nat) : (m.writeLE a n v).readLE a n = v % 256 ^ n := by
  unfold readLE writeLE
  have := readBytes_writeBytes m a (leBytes n v)
  rw [length_leBytes] at this
  rw [this, leNat_leBytes]

/-! ## Registers and fields of a state -/

namespace State

variable (s : State)

@[simp] theorem setReg_reg_self (a : Nat) (w : BitVec 32) : (s.setReg a w).reg a = w := by
  simp [reg, setReg, RegStore.get_set]

theorem setReg_reg_ne {a b : Nat} (w : BitVec 32) (h : b ≠ a) : (s.setReg a w).reg b = s.reg b := by
  simp [reg, setReg, RegStore.get_set, h]

theorem setFld_reg_ne {a b : Nat} (f : Fld) (v : Nat) (h : b ≠ a) : (s.setFld a f v).reg b = s.reg b :=
  setReg_reg_ne s _ h

theorem setFld_reg_self (a : Nat) (f : Fld) (v : Nat) : (s.setFld a f v).reg a = f.put (s.reg a) v :=
  setReg_reg_self s a _

theorem setFld_fld_ne {a b : Nat} (f g : Fld) (v : Nat) (h : b ≠ a) : (s.setFld a f v).fld b g = s.fld b g := by
  simp [fld, setFld_reg_ne s f v h]

theorem setReg_fld_ne {a b : Nat} (w : BitVec 32) (g : Fld) (h : b ≠ a) : (s.setReg a w).fld b g = s.fld b g := by
  simp [fld, setReg_reg_ne s w h]

theorem bump_reg_ne {a b : Nat} (f : Fld) (k : Nat) (h : b ≠ a) : (s.bump a f k).reg b = s.reg b :=
  setFld_reg_ne s f _ h

theorem bump_fld_ne {a b : Nat} (f g : Fld) (k : Nat) (h : b ≠ a) : (s.bump a f k).fld b g = s.fld b g :=
  setFld_fld_ne s f g _ h

end State

/-- A field is in order: its bits lie in a word, low bit not above the high one. -/
def Fld.Ok (f : Fld) : Prop := f.lo ≤ f.hi ∧ f.hi < 32

theorem Fld.get_testBit (f : Fld) (w : BitVec 32) (i : Nat) :
    (f.get w).testBit i = (decide (i < f.hi - f.lo + 1) && w.getLsbD (f.lo + i)) := by
  simp [Fld.get, Nat.testBit_mod_two_pow, Nat.testBit_shiftRight, BitVec.getLsbD]

theorem Fld.mask_getLsbD (f : Fld) (h : f.Ok) (i : Nat) :
    f.mask.getLsbD i = (decide (f.lo ≤ i) && decide (i ≤ f.hi)) := by
  obtain ⟨h1, h2⟩ := h
  simp only [Fld.mask, BitVec.getLsbD_ofNat, Nat.testBit_shiftLeft, Nat.testBit_two_pow_sub_one]
  by_cases ha : f.lo ≤ i <;> by_cases hb : i ≤ f.hi <;> simp [ha, hb] <;> omega

/-- What a field reads after it was written: the value, cut to its bits. -/
theorem Fld.get_put (f : Fld) (h : f.Ok) (w : BitVec 32) (v : Nat) :
    f.get (f.put w v) = v % 2 ^ (f.hi - f.lo + 1) := by
  have h1 := h.1
  have h2 := h.2
  apply Nat.eq_of_testBit_eq
  intro i
  rw [Fld.get_testBit, Nat.testBit_mod_two_pow]
  by_cases hi : i < f.hi - f.lo + 1
  · simp only [hi, decide_true, Bool.true_and, Fld.put, BitVec.getLsbD_or, BitVec.getLsbD_and, BitVec.getLsbD_not,
      Fld.mask_getLsbD f h, BitVec.getLsbD_ofNat, Nat.testBit_shiftLeft]
    simp [show f.lo + i ≤ f.hi by omega, show f.lo + i < 32 by omega]
  · simp [hi]

/-- A field reads as before when a field that shares no bit with it is written. -/
theorem Fld.get_put_disjoint (f g : Fld) (hf : f.Ok) (hg : g.lo ≤ g.hi) (h : g.hi < f.lo ∨ f.hi < g.lo) (w : BitVec 32)
    (v : Nat) : g.get (f.put w v) = g.get w := by
  have hf2 := hf.2
  apply Nat.eq_of_testBit_eq
  intro i
  rw [Fld.get_testBit, Fld.get_testBit]
  by_cases hi : i < g.hi - g.lo + 1
  · have hm : f.mask.getLsbD (g.lo + i) = false := by
      rw [Fld.mask_getLsbD f hf]
      by_cases ha : f.lo ≤ g.lo + i <;> by_cases hb : g.lo + i ≤ f.hi <;> simp [ha, hb] <;> omega
    by_cases h32 : g.lo + i < 32
    · simp only [hi, decide_true, Bool.true_and, Fld.put, BitVec.getLsbD_or, BitVec.getLsbD_and, BitVec.getLsbD_not, hm]
      simp [h32]
    · simp [BitVec.getLsbD_of_ge, show 32 ≤ g.lo + i by omega]
  · simp [hi]

namespace State

variable (s : State)

theorem setFld_fld_self (a : Nat) (f : Fld) (h : f.Ok) (v : Nat) :
    (s.setFld a f v).fld a f = v % 2 ^ (f.hi - f.lo + 1) := by
  simp [fld, setFld_reg_self, Fld.get_put f h]

theorem setFld_fld_disjoint (a : Nat) (f g : Fld) (hf : f.Ok) (hg : g.lo ≤ g.hi) (h : g.hi < f.lo ∨ f.hi < g.lo) (v : Nat) :
    (s.setFld a f v).fld a g = s.fld a g := by
  simp [fld, setFld_reg_self, Fld.get_put_disjoint f g hf hg h]

/-- A counter field after it has counted `k`: the sum, or its largest value. -/
theorem bump_fld_self (a : Nat) (f : Fld) (h : f.Ok) (k : Nat) :
    (s.bump a f k).fld a f = min (s.fld a f + k) (2 ^ (f.hi - f.lo + 1) - 1) := by
  unfold bump
  rw [setFld_fld_self s a f h, Nat.mod_eq_of_lt]
  have : 0 < 2 ^ (f.hi - f.lo + 1) := Nat.two_pow_pos _
  omega

@[simp] theorem raise_raises (src : Nat) (pay : BitVec 32) :
    (s.raise src pay).raises = s.raises ++ [⟨src, pay, BitVec.ofNat 5 (s.raiseRole src), s.now⟩] := rfl

@[simp] theorem draw_fst (w : Nat) : (s.draw w).1 = Config.free w s.freeCtr := rfl
@[simp] theorem draw_freeCtr (w : Nat) : (s.draw w).2.freeCtr = s.freeCtr + 1 := rfl

/-! ## Units after an update of their own kind -/

@[simp] theorem setArray_array_self (n : Fin 17) (x : SpanArray) : (s.setArray n x).array n = x := by
  simp [setArray, array]
theorem setArray_array_ne {n k : Fin 17} (x : SpanArray) (h : k ≠ n) : (s.setArray n x).array k = s.array k := by
  have : n.val ≠ k.val := fun e => h (Fin.ext e.symm)
  simp [setArray, array, this]
@[simp] theorem setMicro_micro_self (n : Fin 17) (x : MicroSeq) : (s.setMicro n x).micro n = x := by
  simp [setMicro, micro]
theorem setMicro_micro_ne {n k : Fin 17} (x : MicroSeq) (h : k ≠ n) : (s.setMicro n x).micro k = s.micro k := by
  have : n.val ≠ k.val := fun e => h (Fin.ext e.symm)
  simp [setMicro, micro, this]
@[simp] theorem setCtl_ctl_self (n : Fin 17) (x : SpanCtl) : (s.setCtl n x).ctl n = x := by simp [setCtl, ctl]
theorem setCtl_ctl_ne {n k : Fin 17} (x : SpanCtl) (h : k ≠ n) : (s.setCtl n x).ctl k = s.ctl k := by
  have : n.val ≠ k.val := fun e => h (Fin.ext e.symm)
  simp [setCtl, ctl, this]
@[simp] theorem setHead_head_self (n : Fin 16) (x : HeadPort) : (s.setHead n x).head n = x := by simp [setHead, head]
theorem setHead_head_ne {n k : Fin 16} (x : HeadPort) (h : k ≠ n) : (s.setHead n x).head k = s.head k := by
  have : n.val ≠ k.val := fun e => h (Fin.ext e.symm)
  simp [setHead, head, this]
@[simp] theorem setRegion_region_self (n : Fin 17) (x : Region) : (s.setRegion n x).region n = x := by
  simp [setRegion, region]
theorem setRegion_region_ne {n k : Fin 17} (x : Region) (h : k ≠ n) : (s.setRegion n x).region k = s.region k := by
  have : n.val ≠ k.val := fun e => h (Fin.ext e.symm)
  simp [setRegion, region, this]
@[simp] theorem setExt_ext_self (n : Fin 17) (x : Extraction) : (s.setExt n x).ext n = x := by simp [setExt, ext]
theorem setExt_ext_ne {n k : Fin 17} (x : Extraction) (h : k ≠ n) : (s.setExt n x).ext k = s.ext k := by
  have : n.val ≠ k.val := fun e => h (Fin.ext e.symm)
  simp [setExt, ext, this]
@[simp] theorem setDomain_domain_self (d : Fin 16) (x : Domain) : (s.setDomain d x).domain d = x := by
  simp [setDomain, domain]
theorem setDomain_domain_ne {d k : Fin 16} (x : Domain) (h : k ≠ d) : (s.setDomain d x).domain k = s.domain k := by
  have : d.val ≠ k.val := fun e => h (Fin.ext e.symm)
  simp [setDomain, domain, this]

/-! ## Memory of a state -/

theorem writeBytes_byte (a b : Nat) (bs : List Byte) :
    (s.writeBytes a bs).byte b = if a ≤ b ∧ b < a + bs.length then bs.getD (b - a) 0 else s.byte b :=
  Memory.read_writeBytes bs s.mem a b

theorem writeLE_byte_outside {a n b : Nat} (v : Nat) (h : b < a ∨ a + n ≤ b) : (s.writeLE a n v).byte b = s.byte b := by
  refine (Memory.read_writeBytes _ s.mem a b).trans ?_
  rw [length_leBytes, if_neg (by omega)]; rfl

theorem writeLE_readLE (a n v : Nat) : (s.writeLE a n v).readLE a n = v % 256 ^ n := Memory.readLE_writeLE s.mem a n v

end State

/-! ## Canonical forms -/

namespace State.Canonical

variable {s : State}

theorem setReg (h : s.Canonical) (a : Nat) (w : BitVec 32) : (s.setReg a w).Canonical := ⟨RegStore.wf_set h.1 a w, h.2⟩
theorem setFld (h : s.Canonical) (a : Nat) (f : Fld) (v : Nat) : (s.setFld a f v).Canonical := h.setReg a _
theorem bump (h : s.Canonical) (a : Nat) (f : Fld) (k : Nat) : (s.bump a f k).Canonical := h.setReg a _
theorem setReg64 (h : s.Canonical) (a c : Nat) (v : BitVec 64) : (s.setReg64 a c v).Canonical :=
  (h.setReg a _).setReg c _
theorem writeLE (h : s.Canonical) (a n v : Nat) : (s.writeLE a n v).Canonical := ⟨h.1, Memory.wf_writeLE h.2 a n v⟩
theorem writeBytes (h : s.Canonical) (a : Nat) (bs : List Byte) : (s.writeBytes a bs).Canonical :=
  ⟨h.1, Memory.wf_writeBytes h.2 a bs⟩
theorem of_eq {t : State} (h : s.Canonical) (hr : t.regs = s.regs) (hm : t.mem = s.mem) : t.Canonical := by
  unfold State.Canonical at *; rw [hr, hm]; exact h

end State.Canonical

end Sys2Proof.Machine
end

