-- ==== Sys2Proof/Laws/Shared.lean ====
section
/-!
SUPPORT. What the shared operations do: a step, raises, frames over registers and memory, requests of a session, packets,
and that they keep the canonical forms.
-/

namespace Sys2Proof.Machine

/-! ## A step -/

theorem step_front (c : Instr) (rest : List Instr) (s : State) :
    step { s with pending := c :: rest } = exec c { s with pending := rest } := rfl

/-- All that a step can be: the front command on the queue's rest, or what a TCLK cycle brings on an empty queue. -/
theorem step_cases {s t : State} (h : step s = .next t) :
    (s.pending = [] ∧ t = tick s) ∨
      ∃ c rest, s.pending = c :: rest ∧ exec c { s with pending := rest } = .next t := by
  unfold step at h
  split at h
  · rename_i e
    exact .inl ⟨e, (Host.Outcome.next.inj h).symm⟩
  · rename_i c rest e
    exact .inr ⟨c, rest, e, h⟩

/-! ## Raises -/

theorem Raised.refl (s : State) : Raised s s [] := by simp [Raised]

theorem Raised.raise (s : State) (src : Nat) (pay : BitVec 32) : Raised s (s.raise src pay) [(src, pay)] := by
  simp [Raised]

theorem Raised.trans {s t u : State} {l m : List (Nat × BitVec 32)} (h : Raised s t l) (k : Raised t u m) :
    Raised s u (l ++ m) := by
  unfold Raised at *
  rw [k, h, List.append_assoc]

theorem Raised.of_eq {s t : State} (h : t.raises = s.raises) : Raised s t [] := by simp [Raised, h]

/-! ## Frames -/

theorem OnlyRegs.refl (l : List Nat) (s : State) : OnlyRegs l s s := fun _ _ => rfl

theorem OnlyRegs.trans {l : List Nat} {s t u : State} (h : OnlyRegs l s t) (k : OnlyRegs l t u) : OnlyRegs l s u :=
  fun a ha => (k a ha).trans (h a ha)

theorem OnlyRegs.mono {l m : List Nat} {s t : State} (h : OnlyRegs l s t) (k : ∀ a ∈ l, a ∈ m) : OnlyRegs m s t :=
  fun a ha => h a (fun e => ha (k a e))

theorem OnlyRegs.of_eq {l : List Nat} {s t : State} (h : t.regs = s.regs) : OnlyRegs l s t := fun a _ => by
  rw [State.reg, State.reg, h]

theorem OnlyRegs.setReg {l : List Nat} {a : Nat} (s : State) (w : BitVec 32) (h : a ∈ l) : OnlyRegs l s (s.setReg a w) :=
  fun _ hb => State.setReg_reg_ne s w (fun e => hb (e ▸ h))

theorem OnlyRegs.setFld {l : List Nat} {a : Nat} (s : State) (f : Fld) (v : Nat) (h : a ∈ l) : OnlyRegs l s (s.setFld a f v) :=
  OnlyRegs.setReg s _ h

theorem OnlyRegs.bump {l : List Nat} {a : Nat} (s : State) (f : Fld) (k : Nat) (h : a ∈ l) : OnlyRegs l s (s.bump a f k) :=
  OnlyRegs.setReg s _ h

theorem OnlyRegs.raise {l : List Nat} (s : State) (src : Nat) (pay : BitVec 32) : OnlyRegs l s (s.raise src pay) :=
  OnlyRegs.of_eq rfl

theorem OnlyBytes.refl (lo hi : Nat) (s : State) : OnlyBytes lo hi s s := fun _ _ => rfl

theorem OnlyBytes.trans {lo hi : Nat} {s t u : State} (h : OnlyBytes lo hi s t) (k : OnlyBytes lo hi t u) :
    OnlyBytes lo hi s u := fun a ha => (k a ha).trans (h a ha)

theorem OnlyBytes.of_eq {lo hi : Nat} {s t : State} (h : t.mem = s.mem) : OnlyBytes lo hi s t := fun a _ => by
  rw [State.byte, State.byte, h]

theorem OnlyBytes.writeBytes {lo hi a : Nat} (s : State) (bs : List Byte) (hl : lo ≤ a) (hh : a + bs.length ≤ hi) :
    OnlyBytes lo hi s (s.writeBytes a bs) := fun b hb => by
  rw [State.writeBytes_byte, if_neg (by omega)]

theorem OnlyBytes.writeLE {lo hi a n : Nat} (s : State) (v : Nat) (hl : lo ≤ a) (hh : a + n ≤ hi) :
    OnlyBytes lo hi s (s.writeLE a n v) := fun _ hb => State.writeLE_byte_outside s v (by omega)

/-! ## Packets -/

/-! Sending a packet changes nothing but the causeway. -/

theorem sendPayload_only (s : State) (d : Fin 2) (f : Option LinkFlit) : ∃ c, sendPayload s d f = { s with cw := c } := ⟨_, rfl⟩

theorem crossFlit_only (d : Fin 2) (s : State) (f : LinkFlit) : ∃ c, crossFlit d s f = { s with cw := c } := by
  unfold crossFlit
  split <;> exact ⟨_, rfl⟩

theorem crossFold_only (d : Fin 2) : ∀ (fs : List LinkFlit) (s : State), ∃ c, fs.foldl (crossFlit d) s = { s with cw := c }
  | [], s => ⟨s.cw, rfl⟩
  | f :: fs, s => by
    obtain ⟨c, hc⟩ := crossFlit_only d s f
    obtain ⟨e, he⟩ := crossFold_only d fs (crossFlit d s f)
    exact ⟨e, by rw [List.foldl_cons, he, hc]⟩

theorem crossFlits_only (s : State) (d : Fin 2) (fs : List LinkFlit) : ∃ c, crossFlits s d fs = { s with cw := c } := by
  obtain ⟨c, hc⟩ := crossFold_only d fs (modifyWay (modifyWay s 0 (fun w => { w with wire := [] })) 1 (fun w => { w with wire := [] }))
  exact ⟨c, hc⟩

theorem leaveEndpoint_only (s : State) (p : Packet) : ∃ c, leaveEndpoint s p = { s with cw := c } := by
  unfold leaveEndpoint crossInto
  split
  · split
    · obtain ⟨c, hc⟩ := crossFlits_only s 1 (linkFlits s p)
      rw [hc]
      exact ⟨_, rfl⟩
    · exact ⟨_, rfl⟩
  · exact ⟨_, rfl⟩

theorem sendPacket_only (s : State) (p : Packet) : ∃ c, sendPacket s p = { s with cw := c } := by
  unfold sendPacket
  split
  · exact leaveEndpoint_only s p
  · exact ⟨_, rfl⟩

/-- A packet of an ONLINE endpoint of the deck enters the mesh at once. -/
theorem sendPacket_online {s : State} {p : Packet} (h : epState s p.src = 0) (d : p.src ≠ 77) : sendPacket s p = enterMesh s p := by
  rw [sendPacket, if_pos h, leaveEndpoint, if_neg d]

/-- All that the mesh takes of a packet: its fields, and outside class 0 its TXN. -/
theorem enterMesh_net (s : State) (p : Packet) : ∃ q, (enterMesh s p).cw.net = s.cw.net ++ [q] ∧ q.src = p.src ∧ q.dst = p.dst ∧
    q.cls = p.cls ∧ q.kind = p.kind ∧ q.status = p.status ∧ q.dtag = p.dtag ∧ q.stag = p.stag ∧ q.addr = p.addr ∧ q.count = p.count ∧
    q.data = p.data ∧ (p.cls ≠ 0 → q.txn = p.txn) :=
  ⟨{ p with epoch := routeEpoch s, txn := if p.cls = 0 then BitVec.ofNat 8 (s.now.toNat * 4 / 5) else p.txn },
    rfl, rfl, rfl, rfl, rfl, rfl, rfl, rfl, rfl, rfl, rfl, fun h => if_neg h⟩

/-! ## Islands -/

theorem setIsland_only (s : State) (n st mv : Nat) : ∃ regs, setIsland s n st mv = { s with regs := regs } := ⟨_, rfl⟩

theorem settleFold_only : ∀ (ms : List Nat) (s : State), ∃ regs,
    ms.foldl (fun s m => if islandState s m = 1 then setIsland s m 1 (idleTarget s m) else s) s = { s with regs := regs }
  | [], s => ⟨s.regs, rfl⟩
  | m :: ms, s => by
    rw [List.foldl_cons]
    split
    · obtain ⟨r, hr⟩ := settleFold_only ms (setIsland s m 1 (idleTarget s m))
      exact ⟨r, hr⟩
    · exact settleFold_only ms s

/-- An island that takes or leaves a role changes nothing but the island registers and the counter of free values. -/
theorem refreshIsland_only (s : State) (n : Nat) (held : Bool) : ∃ regs c,
    refreshIsland s n held = { s with regs := regs, freeCtr := c } := by
  unfold refreshIsland
  split
  · exact ⟨s.regs, s.freeCtr, rfl⟩
  · split
    · obtain ⟨r, hr⟩ := settleFold_only (islandsBeside n) (setIsland (runTarget s n).2 n 2 (runTarget s n).1)
      exact ⟨r, _, hr⟩
    · obtain ⟨r, hr⟩ := settleFold_only (islandsBeside n) (setIsland s n 1 (idleTarget s n))
      exact ⟨r, _, hr⟩

theorem holdRole_only (s : State) (n r : Nat) : ∃ regs c, holdRole s n r = { s with regs := regs, freeCtr := c } := by
  obtain ⟨g, c, h⟩ := refreshIsland_only (s.setFld (Reg.PL_PHYS n) F.PL_PHYS_ROLE r) n (r != 31)
  exact ⟨_, c, by unfold holdRole; rw [h]; rfl⟩

/-! ## Requests of a session -/

theorem session_setSession (s : State) (k : Fin 16) (x : Session) : session (setSession s k x) k = some x := by
  simp [session, setSession, modifyRn]

theorem session_setSession_ne (s : State) {k j : Fin 16} (x : Session) (h : j ≠ k) :
    session (setSession s k x) j = session s j := by
  have : k.val ≠ j.val := fun e => h (Fin.ext e.symm)
  simp [session, setSession, modifyRn, this]

/-- Resolving an address sends at most one frame, and keeps the address; no session changes. -/
theorem resolve_only (s : State) (e : Fin 8) (ip : BitVec 32) : ∃ regs c f r,
    (resolve s e ip).2 = { s with regs := regs, freeCtr := c, rn := { s.rn with frameOut := f, resolved := r } } := by
  unfold resolve
  split <;> exact ⟨_, _, _, _, rfl⟩

theorem session_resolve (s : State) (e : Fin 8) (ip : BitVec 32) (k : Fin 16) :
    session (resolve s e ip).2 k = session s k := by
  obtain ⟨_, _, _, _, h⟩ := resolve_only s e ip
  rw [h]
  rfl

theorem session_transmit (s : State) (d : Datagram) (keys : Option (List Byte)) (k : Fin 16) :
    session (transmit s d keys) k = session s k := by
  unfold transmit
  split
  · exact session_resolve s d.port (nextHop s d.port d.peer) k
  · rfl

/-- Sending counts the SEQ of the type's key and leaves the rest of the session. -/
theorem session_sessionSend {s : State} {k : Fin 16} {x : Session} (h : session s k = some x) (type : BitVec 8) (dest : BitVec 16)
    (enc : Bool) (p : List Byte) : ∃ y, session (sessionSend s k type dest enc p) k = some y ∧ y.kept = x.kept ∧
      y.records = x.records ∧ y.crops = x.crops ∧ y.events = x.events ∧ y.cred = x.cred := by
  simp only [sessionSend, h, session_transmit, session_setSession]
  split
  · exact ⟨_, rfl, rfl, rfl, rfl, rfl, rfl⟩
  · split
    · exact ⟨_, rfl, rfl, rfl, rfl, rfl, rfl⟩
    · split <;> exact ⟨_, rfl, rfl, rfl, rfl, rfl, rfl⟩

/-- An answered request is the last one that its session keeps. -/
theorem responded_answer {s : State} {k : Fin 16} {x : Session} (h : session s k = some x) (r : Request) (op status : Nat)
    (body : List Byte) : Responded (answer s k op status r.reqId body) k r op status body := by
  obtain ⟨y, hy, hk, -⟩ := session_sessionSend (session_setSession s k { x with
    kept := (x.kept ++ [(r.reqId, responseBytes op status r.reqId body)]).drop
      ((x.kept ++ [(r.reqId, responseBytes op status r.reqId body)]).length - 8) }) 0x11 0 true
    (responseBytes op status r.reqId body)
  refine ⟨y, ?_, ?_⟩
  · simp only [answer, h]
    exact hy
  · rw [hk, List.getLast?_drop, if_neg]
    · simp
    · simp

/-- What a COMMAND comes to once it is accepted and finds room: DENIED without its right, else the work of the operation,
its response, and what follows the response. -/
theorem runCommand_runs {s s1 : State} {r : Request} {k : Fin 16} (h : RunsRequest s s1 r k) (op : Nat) (right : Option Nat)
    (f : Work) (after : After) : runCommand op right r f s after =
      if right.any (fun b => !(sessRights s1 k).testBit b) then answer s1 k op 3 r.reqId []
      else after k (f k s1).1 (answer (f k s1).2.2 k op (f k s1).1 r.reqId (f k s1).2.1) := by
  obtain ⟨ha, hw, hk⟩ := h
  have n : (session s1 k).bind (fun x => x.kept.find? (fun p => p.1 == r.reqId)) = none := by
    cases hx : session s1 k with
    | none => rfl
    | some x => exact List.find?_eq_none.mpr (fun p hp e => hk x hx p hp (beq_iff_eq.mp e))
  simp only [runCommand, ha, n]
  rw [if_neg (by omega)]

/-! ## Canonical forms -/

namespace State.Canonical

variable {s : State}

theorem raise (h : s.Canonical) (src : Nat) (pay : BitVec 32) : (s.raise src pay).Canonical := h
theorem setArray (h : s.Canonical) (n : Fin 17) (x : SpanArray) : (s.setArray n x).Canonical := h
theorem setMicro (h : s.Canonical) (n : Fin 17) (x : MicroSeq) : (s.setMicro n x).Canonical := h
theorem setCtl (h : s.Canonical) (n : Fin 17) (x : SpanCtl) : (s.setCtl n x).Canonical := h
theorem setHead (h : s.Canonical) (n : Fin 16) (x : HeadPort) : (s.setHead n x).Canonical := h
theorem setRegion (h : s.Canonical) (n : Fin 17) (x : Region) : (s.setRegion n x).Canonical := h
theorem setExt (h : s.Canonical) (n : Fin 17) (x : Extraction) : (s.setExt n x).Canonical := h
theorem setDomain (h : s.Canonical) (d : Fin 16) (x : Domain) : (s.setDomain d x).Canonical := h
theorem sendPacket (h : s.Canonical) (p : Packet) : (Machine.sendPacket s p).Canonical := by
  obtain ⟨c, e⟩ := sendPacket_only s p
  rw [e]
  exact h

/-- A fold of an operation that keeps the forms keeps them. -/
theorem foldl {α : Type} {f : State → α → State} (hf : ∀ t a, t.Canonical → (f t a).Canonical) :
    ∀ (l : List α) (s : State), s.Canonical → (l.foldl f s).Canonical
  | [], _, h => h
  | a :: l, s, h => foldl hf l (f s a) (hf s a h)

theorem applyUpset (h : s.Canonical) (u : Upset) : (Machine.applyUpset s u).Canonical := by
  cases u with
  | word a b =>
    simp only [Machine.applyUpset]
    split
    · refine of_eq (s := if b < 96 then s.writeLE (a + b / 8) 1 ((s.byte (a + b / 8)).toNat ^^^ 2 ^ (b % 8)) else s) ?_ rfl rfl
      split
      · exact h.writeLE _ _ _
      · exact h
    · exact h
  | cell n row col => exact h
  | group n row g => exact h

theorem applyUpsets (h : s.Canonical) (ups : List Upset) : (Machine.applyUpsets s ups).Canonical :=
  foldl (fun _ u k => k.applyUpset u) ups s h

end State.Canonical

end Sys2Proof.Machine
end

