-- ==== Sys2Proof/Tests/Slice0.lean ====
section
/-!
SUPPORT. Tests: for each statement a state and operands that meet its hypotheses; an ill-formed term for each operand
check; and steps with values taken from the spec's worked examples and rules.
-/

namespace Sys2Proof.Tests
set_option Elab.async false
open Sys2Proof Sys2Proof.Machine

/-- Fields of registers set one after another. -/
def put (l : List (Nat × Fld × Nat)) (s : State) : State := l.foldl (fun s x => s.setFld x.1 x.2.1 x.2.2) s

/-- The state after reset, under a short name. -/
abbrev zero : State := State.reset

/-- A state at another device time. -/
def late (t : Nat) (s : State) : State := { s with now := BitVec.ofNat 64 t }

/-! ## Hypotheses of the statements on the array, the micro-sequencer and the span controller -/

theorem witness_StepRunsFrontCommand : zero.pending = [] := rfl

theorem witness_BitProcessorCycle : ((Nano.ofNat 0).ds ≠ (Nano.ofNat 0).dk ∨ (Nano.ofNat 0).ds = 0) ∧ 16383 < 16384 := by
  decide +kernel

theorem witness_NeighbourMoves :
    (∃ xm j : Nat, 1 ≤ xm ∧ xm ≤ 4 ∧ j < 16384 ∧ xm = 1 ∧ 1 ≤ j) ∧ (∃ xm j : Nat, xm = 4 ∧ j + 32 < 16384 ∧ j = 16351) ∧
      ∃ xm j : Nat, xm = 3 ∧ j < 32 ∧ j = 31 := ⟨⟨1, 1, by decide⟩, ⟨4, 16351, by decide⟩, ⟨3, 31, by decide⟩⟩

/-- Span 0 expects coupling to the east and span 1 does not answer. -/
def halfCoupled : State := put [(Reg.ARR_COUPLE 0, F.ARR_COUPLE_GSIZE_LOG, 1)] zero

theorem witness_JointsInUse : 0 < 2 ^ halfCoupled.fld (Reg.ARR_COUPLE 0) F.ARR_COUPLE_GSIZE_LOG - 1 ∧
    jointInUse halfCoupled 0 = false ∧
    0 < (put [(Reg.ARR_COUPLE 1, F.ARR_COUPLE_POS, 1)] zero).fld (Reg.ARR_COUPLE 1) F.ARR_COUPLE_POS := by decide +kernel

theorem witness_GatedRowWriteParity : 511 < 512 ∧ 2047 * 512 + 511 ∈ [2047 * 512 + 511] := by decide

/-- An operation of the nano-word and microword 0 is in progress on a span that has been swept. -/
def busySpan : State :=
  (put [(Reg.ARR_STAT 0, F.ARR_STAT_INIT_DONE, 1), (Reg.PL_PHYS 0, F.PL_PHYS_ROLE, 0)] zero).setMicro 0
    { zero.micro 0 with op := some .start }

theorem witness_NanoWordIssues :
    let u := microAt busySpan 0 0
    let w := Nano.ofNat (nanoAt busySpan 0 u.nptr)
    (busySpan.micro 0).op = some .start ∧ busySpan.roleOf 0 ≠ 31 ∧ domainOf busySpan 0 = [0] ∧ sweepsDone busySpan (domainOf busySpan 0) = true ∧
      busySpan.parity.contains (Win.micro 0 0) = false ∧ busySpan.parity.contains (Win.nano 0 u.nptr) = false ∧
      microWaits busySpan 0 u = false ∧ w.xm ≠ 5 ∧ w.gau = 0 ∧ extractHolds busySpan 0 w = false ∧ w.mop ≠ 2 := by
  decide +kernel

theorem witness_ArrayCommandsComplete :
    ((zero.setMicro 0 { zero.micro 0 with gorPend := [true] }).micro 0).gorPend = [true] ∧
    ((zero.setMicro 0 { zero.micro 0 with gauPend := [5] }).micro 0).gauPend = [5] ∧
    ((zero.setArray 0 { zero.array 0 with sweep := 1 }).array 0).sweep.getLsbD 0 = true ∧
    ((zero.setArray 0 { zero.array 0 with sweep := 2 }).array 0).sweep.getLsbD 1 = true ∧
    spcState zero (lead zero 0) = 3 ∧
    F.SPARE_MAP_BYP0.accepts (F.SPARE_MAP_BYP0.get 0) = true ∧
    F.SPARE_MAP_BYP0.get 0 ≠ zero.fld (Reg.SPARE_MAP 0 0 0) F.SPARE_MAP_BYP0 := by decide +kernel

/-- A measurement in which the voltage alone breaches, the western span deviating more. -/
def breachMeasure : JointMeasure := ⟨31, 0, 0, (9, 3), (0, 0), (0, 0)⟩

/-- A measurement at the clear thresholds less one step. -/
def quietMeasure : JointMeasure := ⟨24, 24, 37, (0, 0), (0, 0), (0, 0)⟩

theorem witness_JointMonitorCommandsComplete :
    zero.jointFlags.all (fun f => f.1 != (0 : Fin 16)) = true ∧ jointLimit 0 < jointValue breachMeasure 0 ∧
    (∀ p : Fin 3, p < 0 → ¬ jointLimit p < jointValue breachMeasure p) ∧
    (∀ q : Fin 3, jointValue quietMeasure q < jointClear q) ∧
    (let s := { late 1000000000 zero with jointBelow := [(0, 0, 0)] }
     ((0, 0, 0) : Fin 16 × Fin 3 × BitVec 64) ∈ s.jointBelow ∧ 0 + 1000000000 ≤ s.now.toNat) := by decide +kernel

/-- Span 0 with an issue queue. -/
def queued (q : List QueueEntry) : State := zero.setCtl 0 { zero.ctl 0 with queue := q }

/-- Span 0 waits, under a limit, with routine 0 resident and an operation at the front of its queue. -/
def waitingSpan : State :=
  (put [(Reg.MS_STAT 0, F.MS_STAT_WAIT, 1), (Reg.MS_WAIT_LIMIT 0, F.MS_WAIT_LIMIT_LIMIT, 1)] (queued [.op .start])).setMicro 0
    { zero.micro 0 with routines := [⟨0, 0, 1⟩], waited := 1 }

theorem witness_MicroSequencerCommandsComplete :
    queueFront waitingSpan 0 = some (.op .start, []) ∧ routineOf waitingSpan 0 0 = some ⟨0, 0, 1⟩ ∧
    waitingSpan.fld (Reg.MS_STAT 0) F.MS_STAT_WAIT = 1 ∧ waitingSpan.fld (Reg.MS_WAIT_LIMIT 0) F.MS_WAIT_LIMIT_LIMIT ≠ 0 ∧
    waitingSpan.fld (Reg.MS_WAIT_LIMIT 0) F.MS_WAIT_LIMIT_LIMIT ≤ (waitingSpan.micro 0).waited ∧
    (waitingSpan.micro 0).waitLong = false := by decide +kernel

theorem witness_GaugeWindowEnds : ([0] : List (BitVec 16384)) ≠ [] ∧ 1 ≤ 3 ∧ 3 ≤ 3 ∧
    16384 * ([0] : List (BitVec 16384)).length ≤ 16384 ∧ 0 < 1 := by decide +kernel

/-- Controller 0 runs at bundle 0. -/
def runningSpan : State := put [(Reg.SPC_STAT 0, F.SPC_STAT_STATE, 0)] zero

theorem witness_BundleMovesTakeEffect :
    let s1 := flushOut (applyUpsets runningSpan []) 0
    let c := s1.ctl 0
    lead s1 0 = 0 ∧ spcState s1 0 < 2 ∧ c.drain = 0 ∧ c.busy = 0 ∧ interruptDue s1 0 = false ∧
    s1.parity.contains (Win.bundle 0 (s1.fld (Reg.SPC_CTL 0) F.SPC_CTL_BANK) (s1.fld (Reg.SPC_PC 0) F.SPC_PC_INDEX)) = false := by
  decide +kernel

theorem witness_SpanAluArithmetic :
    32 ≤ (32#32).toNat ∧ (23 ≤ 26 ∧ 26 ≤ 26) ∧ (1#32 ≠ 0 ∧ ¬(0x80000000#32 = 0x80000000 ∧ 1#32 = 0xFFFFFFFF)) ∧
    (∃ r, spanAlu 23 1 0 = some r ∧ r.mask.getLsbD 2 = true) := ⟨by decide, by decide, by decide, ⟨_, rfl, by decide⟩⟩

/-- Line 7 of a group of one span, in slot 0. -/
def someLine : GroupLine := ⟨7, 0, 0, false, 0, 0, [some 0]⟩

/-- A message of class 1 for span controller 0. -/
def message : Packet := ⟨1, 0, 1, 4, 0, 0, false, 0xFFFF, 0x1001, 0, 0, 0, List.replicate 32 7⟩

theorem witness_SpanQueueCommandsComplete :
    ((zero.setCtl 0 { zero.ctl 0 with alu0 := { zero.ctl 0 |>.alu0 with pend := [⟨1, 3, 0, false⟩] } }).ctl 0).alu0.pend =
      [⟨1, 3, 0, false⟩] ∧
    queueFront (queued [.lineSync]) 0 = some (.lineSync, []) ∧
    (∀ m ∈ domainOf (queued [.lineSync]) 0, ∀ c ∈ ((queued [.lineSync]).ctl m).caps, c.count ≤ c.west.length) ∧
    queueFront (queued [.token 5]) 0 = some (.token 5, []) ∧
    (let s := (queued [.snapshot 0 64]).setCtl 0 { (queued [.snapshot 0 64]).ctl 0 with served := some someLine }
     queueFront (applyUpsets s []) 0 = some (.snapshot 0 64, []) ∧ (s.ctl 0).snap = none ∧ (s.ctl 0).served = some someLine) ∧
    (let s := zero.setCtl 0 { zero.ctl 0 with snap := some ⟨0, 1, 7, 0, []⟩ }
     (s.ctl 0).snap = some ⟨0, 1, 7, 0, []⟩ ∧ domainOf s 0 = [0] ∧ copyThrough s false 0 = true ∧
       (readHeaders (readRest 0 64 s) Win.piers).1.good = false ∧ (readHeaders (readRest 0 64 s) Win.piers).2.1.good = false) ∧
    (let s : State := { zero with cw := { zero.cw with msgs := [message] } }
     (s.cw.c0 ++ s.cw.msgs).find? (fun p => p.dst.val == (0 : Fin 17).val) = some message ∧ (s.ctl 0).inbox.length < 4) := by
  decide +kernel

/-- Controller 0 runs with an interrupt pending and enabled, and with the smallest room for its frame. -/
def interrupted : State :=
  (put [(Reg.SPC_INT 0, F.SPC_INT_PEND, 1), (Reg.SPC_INT 0, F.SPC_INT_EN, 1)] runningSpan).setCtl 0
    { zero.ctl 0 with ie := true, fp := 0x7008 }

/-- Controller 0 drains, the line sync complete. -/
def drained : State := (put [(Reg.SPC_STAT 0, F.SPC_STAT_STATE, 1)] zero).setCtl 0 { zero.ctl 0 with drain := 2 }

/-- Span 0 is stopped and swept. -/
def stoppedSpan : State := put [(Reg.ARR_STAT 0, F.ARR_STAT_INIT_DONE, 1)] zero

/-- Controller 0 runs and its watchdog has reached its limit. -/
def lateSpan : State := (put [(Reg.SPC_WDOG 0, F.SPC_WDOG_LIMIT, 3)] runningSpan).setCtl 0 { zero.ctl 0 with wdog := 3 }

/-- A restore from page 0 of pier space, with nothing in it. -/
def restoring : State := put [(Reg.CKPT_REST 0, F.CKPT_REST_GO, 1)] zero

/-- The same with one row of zeros as the checkpoint of line 9 in slot 0. -/
def restorable : State :=
  restoring.writeBytes Win.piers (leBytes 8 9 ++ leBytes 2 0 ++ [1, 1] ++ leBytes 2 0x1000 ++ leBytes 2 0 ++
    leBytes 4 0xf1e8ba9e)

theorem witness_SpanStopStartCommandsComplete :
    (lead interrupted 0 = 0 ∧ interruptDue interrupted 0 = true ∧
      maskRegs (interrupted.reg (Reg.SPC_IMASK 0)) = [] ∧ 0x7000 + 4 * (2 + 0) ≤ (interrupted.ctl 0).fp.toNat ∧
      (interrupted.ctl 0).fp.toNat ≤ 0x8000) ∧
    (lead runningSpan 0 = 0 ∧ spcState runningSpan 0 = 0 ∧ (runningSpan.ctl 0).snap = none) ∧
    (spcState drained 0 = 1 ∧ (drained.ctl 0).drain = 2) ∧
    (lead stoppedSpan 0 = 0 ∧ spcState stoppedSpan 0 = 3 ∧ sweepsDone stoppedSpan (0 :: domainOf stoppedSpan 0) = true) ∧
    (spcState lateSpan 0 = 0 ∧ lateSpan.fld (Reg.SPC_WDOG 0) F.SPC_WDOG_LIMIT ≠ 0 ∧
      lateSpan.fld (Reg.SPC_WDOG 0) F.SPC_WDOG_LIMIT ≤ (lateSpan.ctl 0).wdog ∧ (lateSpan.ctl 0).wdogFired = false) ∧
    (let r := readHeaders restoring Win.piers
     restoring.fld (Reg.CKPT_REST 0) F.CKPT_REST_GO = 1 ∧ copyThrough restoring true 0 = true ∧ restoring.fld (Reg.CKPT_REST 0) F.CKPT_REST_SRC = 0 ∧
       r.1.good = false ∧ r.2.1.good = false) := by decide +kernel

/-- 64 zero bytes. -/
def zeros64 : List Byte := List.replicate 64 0

/-- The CRC over blocks of 64 zeros, from the values after each block. -/
theorem crcRun_zeros : ∀ (ks : List Word) (c : Word), List.IsChain (fun a b => crcRun a zeros64 = b) (c :: ks) →
    crcRun c (List.replicate (64 * ks.length) 0) = ks.getLastD c
  | [], _, _ => rfl
  | k :: ks, c, h => by
    obtain ⟨h1, h2⟩ := List.isChain_cons_cons.mp h
    have e : List.replicate (64 * (k :: ks).length) (0 : Byte) = zeros64 ++ List.replicate (64 * ks.length) 0 := by
      rw [zeros64, List.replicate_append_replicate, List.length_cons, Nat.mul_succ, Nat.add_comm]
    rw [e, crcRun_append, h1, crcRun_zeros ks k h2]
    cases ks <;> rfl

/-- The running CRC after each 64 of 2,048 zero bytes (R143). -/
def rowCrcs : List Word :=
  [0x8a729cc9, 0x3d570562, 0x7400f70d, 0xf2697aa7, 0x5238a8b2, 0x77452eb8, 0xb975e9bc, 0x4d558a87, 0xbc13e70c,
    0xb488e925, 0x2e2c27d3, 0xa5f0bea, 0x3cdfb301, 0xadc28140, 0xc71dff84, 0x104a50d1, 0x39017da7, 0x5ea3a7cf,
    0x4a122a12, 0x33c629a, 0xdd701589, 0xcf58d1a8, 0x1d45bc41, 0x93e31e81, 0x3aee82ca, 0x40106a3f, 0xa1bda574,
    0x81c49ef7, 0xc9cae558, 0xd548cbd4, 0x690c9d8a, 0xe174561]

theorem crc32_row : crc32 (List.replicate 2048 0) = 0xf1e8ba9e := by
  have h : List.IsChain (fun a b => crcRun a zeros64 = b) (0xFFFFFFFF :: rowCrcs) := by decide +kernel
  have e := crcRun_zeros rowCrcs 0xFFFFFFFF h
  rw [show 64 * rowCrcs.length = 2048 from rfl] at e
  rw [crc32, e]
  rfl

theorem checkedSlot_of {s : State} {a : Nat} {k : Fin 2} {h : CkptHeader} {d : List Byte} (g : h.good = true)
    (ha : (areaRead 512 s (slotRows a k) (2048 * h.count)).1 = d) (hc : crc32 d = h.crc) :
    (checkedSlot s a k h).1 = some d := by
  subst ha
  simp [checkedSlot, g, hc]

theorem witness_RestoreOfASlot :
    let r := readHeaders restorable Win.piers
    restorable.fld (Reg.CKPT_REST 0) F.CKPT_REST_GO = 1 ∧ copyThrough restorable true 0 = true ∧ newestSlot r.1 r.2.1 = some 0 ∧
      (checkedSlot (r.2.2.setFld (Reg.CKPT_REST 0) F.CKPT_REST_GO 0) Win.piers 0 r.1).1 = some (List.replicate 2048 0) := by
  refine ⟨by decide +kernel, by decide +kernel, by decide +kernel, ?_⟩
  have g : (readHeaders restorable Win.piers).1.good = true := by decide +kernel
  have n : (readHeaders restorable Win.piers).1.count = 1 := by decide +kernel
  have k : (readHeaders restorable Win.piers).1.crc = 0xf1e8ba9e := by decide +kernel
  have a : (areaRead 512 ((readHeaders restorable Win.piers).2.2.setFld (Reg.CKPT_REST 0) F.CKPT_REST_GO 0)
      (slotRows Win.piers 0) (2048 * 1)).1 = List.replicate 2048 0 := by decide +kernel
  exact checkedSlot_of g (by rw [n]; exact a) (by rw [k, crc32_row])

/-! ## Hypotheses of the statements on the head ports -/

/-- Port 0 in a state of R161. -/
def port (st : Nat) : State := put [(Reg.HP_STAT 0, F.HP_STAT_STATE, st)] zero

/-- Port 0 of a state with other contents. -/
def onPort (s : State) (f : HeadPort → HeadPort) : State := s.setHead 0 (f (s.head 0))

/-- Port 0 trains on one lane that has passed, with one ALIGN marker before sequence 5. -/
def aligning : State := onPort (port 5) (fun p => { p with laneOk := 1, aligns := [4], alignRun := 1 })

theorem witness_LinkTrainingCommandsComplete :
    (training (port 5) 0 = true ∧ (0 : Fin 4).val < hpLanes (port 5) 0 ∧ (0 : BitVec 8).toNat = (0 : Fin 4).val ∧
      (1 : BitVec 8).toNat = hpLanes (port 5) 0) ∧
    ((2 : BitVec 8).toNat ≠ hpLanes (port 5) 0 ∧ ((port 5).head 0).fails < 2) ∧
    (training aligning 0 = true ∧ lanesChecked aligning 0 = true ∧ (aligning.head 0).ready = false ∧
      (aligning.head 0).aligns = [(5 : BitVec 16) - 1] ∧ 1 ≤ (aligning.head 0).alignRun ∧ skewTooHigh aligning 0 0 = false) ∧
    (let s := onPort (port 5) (fun p => { p with ready := true })
     training s 0 = true ∧ (s.head 0).ready = true) ∧
    (hpState (port 6) 0 = 6 ∧ hpState (port 7) 0 = 7) ∧
    (let s := late 10000000 (onPort (port 5) (fun p => { p with fails := 2 }))
     training s 0 = true ∧ 2 ≤ (s.head 0).fails ∧ (s.head 0).since.toNat + 10000000 ≤ s.now.toNat) ∧
    (let s := late 100000000 (onPort (port 5) (fun p => { p with retryWait := true }))
     hpState s 0 = 5 ∧ (s.head 0).retryWait = true ∧ (s.head 0).since.toNat + 100000000 ≤ s.now.toNat) := by decide +kernel

/-- An outstanding trigger of a line. -/
def trigger (i : Nat) : Trigger := ⟨BitVec.ofNat 64 i, 0, 0, false⟩

/-- Port 0 is ACTIVE with lines 4 and 5 outstanding, and region 0 runs from it. -/
def active : State :=
  onPort ((put [(Reg.RG_STAT 0, F.RG_STAT_STATE, 2)] (port 7)).setRegion 0 { zero.region 0 with source := some 0 })
    (fun p => { p with triggers := [trigger 4, trigger 5] })

/-- A header block that agrees with a descriptor that gives nothing. -/
def headerBlock : List Byte := [1] ++ List.replicate 63 0

/-- Packet of line 4: its header block received, or complete with matching and with other TERM words. -/
def packetOf (total got : Nat) (crc : BitVec 32) : HeadPacket := ⟨trigger 4, total, headerBlock, got, crc, leBytes 4 (2 ^ 32 - 1) ++ List.replicate 60 0⟩

theorem witness_LinePacketCommandsComplete :
    (hpState active 0 = 7 ∧ (active.head 0).packet = none ∧ (active.head 0).skipping = false ∧
      ((active.head 0).triggers.filter (fun t => !t.started)).find? (fun t => t.index.setWidth 16 == matchLine active 0 5) =
        some (trigger 5) ∧ (0 ∈ regionsOf active 0 ∧ rgState active 0 = 2)) ∧
    ((active.head 0).triggers.filter (fun t => !t.started)).find? (fun t => t.index.setWidth 16 == matchLine active 0 6) = none ∧
    (6 ≤ hpState (port 6) 0 ∧ hpState (port 8) 0 ≤ 8 ∧ ((port 6).head 0).packet = none ∧ ((port 6).head 0).skipping = false) ∧
    CtrlWord.ofBytes [0x1F] = none ∧
    (let s := onPort (port 7) (fun p => { p with packet := some (packetOf 3 0 0) })
     headerBlock.length = 64 ∧ (s.head 0).packet = some (packetOf 3 0 0) ∧ (packetOf 3 0 0).got < (packetOf 3 0 0).total ∧
      headerGood s 0 headerBlock = true ∧ ingestBlocks (s.head 0) < 256) ∧
    (endDamage (port 7) 0 (packetOf 3 3 0) [(0, BitVec.ofNat 16 (laneShare 3 1 0))] = 0 ∧
      endDamage (port 7) 0 (packetOf 3 3 0) [] = 2 ∧
      endDamage (port 7) 0 (packetOf 3 3 1) [(0, BitVec.ofNat 16 (laneShare 3 1 0))] = 4) ∧
    (let s := late 1000 (put [(Reg.HP_TMO 0, F.HP_TMO_PKT_US, 1)] active)
     s.fld (Reg.HP_TMO 0) F.HP_TMO_PKT_US ≠ 0 ∧
       (trigger 4).time.toNat + 1000 * s.fld (Reg.HP_TMO 0) F.HP_TMO_PKT_US ≤ s.now.toNat ∧ (s.head 0).triggers.find? (fun t => !t.started) = some (trigger 4)) := by
  decide +kernel

/-- A control message of a type with TAG 7 and no body. -/
def control (type : Nat) : List Byte := [BitVec.ofNat 8 type, 7, 0, 0]

/-- The operands of the CTRL words of a message with a CRC. -/
def wordsOf (msg : List Byte) (c : BitVec 32) : List (BitVec 8 × List Byte) :=
  (ctrlWords (msg ++ leBytes 4 c.toNat)).map (fun w => match w with
    | .ctrl p b => (p, b)
    | _ => (0, []))

theorem witness_ControlChannelCommandsComplete :
    (hpState (port 7) 0 = 7 ∧ (port 7).fld (Reg.HP_CC_CTL 0) F.HP_CC_CTL_GO = 0 ∧ ((port 7).head 0).cc = none) ∧
    (let s := onPort (port 7) (fun p => { p with cc := some ⟨control 1, 1, false, 0⟩ })
     (s.head 0).packet = none ∧ 4 ≤ (control 0x81).length ∧ (control 0x81).length ≤ 62 ∧
       leNat (((control 0x81).drop 2).take 2) = (control 0x81).length - 4 ∧ (control 0x81).getD 0 0 = 0x81 ∧
       (s.head 0).cc = some ⟨control 1, 1, false, 0⟩ ∧ (control 1).getD 1 0 = (control 0x81).getD 1 0 ∧
       (wordsOf (control 0x81) (crc32 (control 0x81))).map (fun w => CtrlWord.ctrl w.1 w.2) =
         ctrlWords (control 0x81 ++ leBytes 4 (crc32 (control 0x81)).toNat) ∧
       (wordsOf (control 0x81) (crc32 (control 0x81) + 1)).map (fun w => CtrlWord.ctrl w.1 w.2) =
         ctrlWords (control 0x81 ++ leBytes 4 (crc32 (control 0x81) + 1).toNat)) ∧
    ((wordsOf (control 0x82) (crc32 (control 0x82))).map (fun w => CtrlWord.ctrl w.1 w.2) =
      ctrlWords (control 0x82 ++ leBytes 4 (crc32 (control 0x82)).toNat)) ∧
    ((control 0x82).getD 0 0 = 0x82 ∧ (port 7).fld (Reg.HP_CC_CTL 0) F.HP_CC_CTL_ALERT = 0) ∧
    crc32 (control 0x81) + 1 ≠ crc32 (control 0x81) ∧
    (let s := late 1000000 (onPort (port 7) (fun p => { p with cc := some ⟨control 1, 3, false, 0⟩ }))
     (⟨control 1, 3, false, 0⟩ : CcRequest).sent.toNat + 1000000 ≤ s.now.toNat ∧ (s.head 0).cc = some ⟨control 1, 3, false, 0⟩ ∧ 3 ≤ (⟨control 1, 3, false, 0⟩ : CcRequest).attempt) := by decide +kernel

theorem witness_HotPlugCommandsComplete :
    (zero.fld (Reg.HP_STAT 0) F.HP_STAT_PRESENT = 0) ∧
    (let s := put [(Reg.HP_STAT 0, F.HP_STAT_PRESENT, 1)] (port 2)
     s.fld (Reg.HP_STAT 0) F.HP_STAT_PRESENT = 1 ∧ 1 < hpState s 0 ∧ s.fld (Reg.HP_STAT 0) F.HP_STAT_FAULT = 0) ∧
    (let s := late 100000000 (port 2)
     hpState s 0 = 2 ∧ (s.head 0).since.toNat + powerWait s 0 ≤ s.now.toNat) ∧
    (let s := late 1000000 (port 8)
     hpState (port 3) 0 = 3 ∧ hpState s 0 = 8 ∧ (s.head 0).since.toNat + 1000000 ≤ s.now.toNat) ∧
    (put [(Reg.HP_STAT 0, F.HP_STAT_FAULT, 1)] (port 2)).fld (Reg.HP_STAT 0) F.HP_STAT_FAULT = 1 ∧
    (hpState (port 4) 0 = 4 ∧ descriptorCause (port 4) 0 = 3) ∧
    (let s := onPort (port 8) (fun p => { p with streamOff := true })
     hpState s 0 = 8 ∧ (s.head 0).streamOff = true ∧ (s.head 0).cc = none ∧ relaying s 0 = none) ∧
    (let s := { put [(Reg.HP_STAT 0, F.HP_STAT_PRESENT, 1)] (port 1) with pads := [0] }
     (0 : Fin 16).val ∈ s.pads ∧ hpState s 0 = 1 ∧ s.fld (Reg.HP_STAT 0) F.HP_STAT_PRESENT = 1) ∧
    (9 ≤ hpState (port 11) 0 ∧ hpState (port 11) 0 ≤ 11) ∧ hpState (port 0) 0 = 0 ∧ hpState (port 11) 0 ≠ 0 := by
  decide +kernel

/-! ## Hypotheses of the statements on the regions, the extractors and the tracker -/

/-- Region 0 in a state of R189. -/
def region (st : Nat) : State := put [(Reg.RG_STAT 0, F.RG_STAT_STATE, st)] zero

/-- Region 0 of a state with other contents. -/
def onRegion (s : State) (f : Region → Region) : State := s.setRegion 0 (f (s.region 0))

/-- The first two words of a SEAL frame that names no frame, then its 64 data words. -/
def sealWords (count sum : Nat) : List (BitVec 32) :=
  [0xF0000000, 0x01000000, BitVec.ofNat 32 count, BitVec.ofNat 32 sum] ++ List.replicate 62 0

/-- A frame of TYPE 1. -/
def cellWords : List (BitVec 32) := [0x10000000, 0x01000000] ++ List.replicate 64 0

/-- A frame as applied, with a CRC. -/
def frame (crc : BitVec 32) : Frame := ⟨0x10000000, 0x01000000, List.replicate 64 0, crc, true⟩

/-- The CRC of a frame's words. -/
def sumOf (ws : List (BitVec 32)) : BitVec 32 := crc32 (ws.flatMap (fun x => leBytes 4 x.toNat))

/-- The CRC of the frame, so that word 66 may agree with it or not (R183). -/
theorem sumOf_cellWords : sumOf cellWords = 0x51d114cb := by
  have h : List.IsChain (fun a b => crcRun a zeros64 = b) (0x8d3a8782 :: [0x4deaef01, 0x30f9055b, 0xe7a590ad, 0xae2eeb34]) := by decide +kernel
  have e := crcRun_zeros _ _ h
  have b : cellWords.flatMap (fun x => leBytes 4 x.toNat) =
      (leBytes 4 0x10000000 ++ leBytes 4 0x01000000) ++ List.replicate 256 0 := by decide +kernel
  have f : crcRun 0xFFFFFFFF (leBytes 4 0x10000000 ++ leBytes 4 0x01000000) = 0x8d3a8782 := by decide +kernel
  rw [sumOf, b, crc32, crcRun_append, f]
  exact congrArg (~~~·) e

/-- Two regions other than 0 have head port 0 as their source. -/
def sharedPort : State :=
  put [(Reg.RG_SRC 1, F.RG_SRC_EN, 1), (Reg.RG_SRC 2, F.RG_SRC_EN, 1)] zero

theorem witness_RegionConfigurationCommandsComplete :
    (F.RG_SRC_EN.get (F.RG_SRC_EN.put 0 1) = 1 ∧ Fin.ofNat 16 (F.RG_SRC_PORT.get (F.RG_SRC_EN.put 0 1)) = 0 ∧
      (zero.region 0).taking = none ∧ (zero.region 0).markers = [] ∧
      ((List.finRange 17).filter (fun k => k != 0 && srcWord (sharedPort.reg (Reg.RG_SRC k)) == some 0)).length = 2 ∧
      ((List.finRange 17).filter (fun k => k != 0 && srcWord (zero.reg (Reg.RG_SRC k)) == some 0)).length < 2) ∧
    (onRegion zero (fun r => { r with taking := some 0 }) |>.region 0).taking ≠ none ∧
    (0 < (65 : Fin 67).val ∧ (65 : Fin 67).val < 66) ∧
    (cellWords.length = 66 ∧ bits ((cellWords ++ [0]).getD 1 0).toNat 31 24 = 1 ∧ frameValid 0x10000000 = true ∧
      rgState (region 1) 0 ≤ 1 ∧ 0x10000000 / 2 ^ 28 ≠ 15 ∧ 0x10000000 / 2 ^ 28 ≠ 2) ∧
    ((sealWords 0 0).length = 66 ∧ ((sealWords 0 0).getD 0 0).toNat / 2 ^ 28 = 15 ∧
      ((zero.region 0).frames.filter (·.listed)).length = (((sealWords 0 0) ++ [0]).getD 2 0).toNat ∧
      crc32 [] = ((sealWords 0 0) ++ [0]).getD 3 0 ∧ (zero.region 0).guards = [] ∧
      ((zero.region 0).frames.filter (·.listed)).length ≠ (((sealWords 1 0) ++ [0]).getD 2 0).toNat ∧
      crc32 [] ≠ ((sealWords 0 1) ++ [0]).getD 3 0) ∧
    (∀ st : Fin 6, rgState (region st.val) 0 = st.val) ∧ lineInProgress (region 3) 0 = false ∧
    lineInProgress (onRegion (region 3) (fun r => { r with taking := some 0 })) 0 = true ∧
    (let s := onRegion (put [(Reg.CFG_SCRUB 0, F.CFG_SCRUB_EN, 1)] (region 4)) (fun r => { r with frames := [frame 1] })
     s.fld (Reg.CFG_SCRUB 0) F.CFG_SCRUB_EN = 1 ∧ 2 ≤ rgState s 0 ∧ rgState s 0 ≤ 4 ∧
       (s.region 0).frames[(s.region 0).scrub % max 1 (s.region 0).frames.length]? = some (frame 1) ∧
       (frame 1).crc ≠ (frame 0x51d114cb).crc) := by decide +kernel

/-- A stamp of line 7 of head 0. -/
def stamp7 : StampIn := ⟨7, 0, 0, false, [], 0⟩

/-- Region 0 runs, its user logic gives a valid beat, and slot 3 takes the columns from 16,376. -/
def lastBeat : State :=
  onRegion (put [(Reg.TP_CTL 0, F.TP_CTL_WB, 12)] (region 2)) (fun r => { r with
    ports := { r.ports with valid := true }, out := some ⟨stamp7, some 3, 16376, false⟩ })

/-- Slot 3 of region 0 is complete and served by span 0, twelve planes of it to be sent. -/
def served : State :=
  setSlotState ((put [(Reg.TP_CTL 0, F.TP_CTL_WB, 12)] (region 2)).setCtl 0
    { zero.ctl 0 with served := some ⟨7, 0, 0, false, 0, 0, [some 3]⟩ }) 0 3 2

/-- Region 0 copies the last two lines of a replay from region 1. -/
def copying : State := onRegion (region 2) (fun r => { r with replay := some ⟨1, 7, 2, 1⟩ })

/-- A line of region 0 for the history ring, in slot 3. -/
def histLine : HistLine := ⟨some 3, 7, 0, 0, false, false, true⟩

/-- DDR5 of two channels is mapped. -/
def mapped (s : State) : State :=
  put [(Reg.D5_MAP, F.D5_MAP_READY, 1), (Reg.D5_MAP, F.D5_MAP_CHANNELS, 1), (Reg.D5_MAP, F.D5_MAP_USED_GIB, 16)] s

/-- Slot 3 of region 0 holds line 7, with a ring in mapped DDR5. -/
def ringed : State := setSlotState ((mapped (region 2)).writeLE (Win.slotDesc 0 3) 8 7) 0 3 2

theorem witness_RegionDataPathCommandsComplete :
    (rgRuns (region 2) 0 = true ∧ ((region 2).region 0).gear = none ∧ takeItem (region 2) 0 = none ∧
      ((region 2).region 0).ports.valid = false) ∧
    (rgRuns lastBeat 0 = true ∧ (lastBeat.region 0).ports.valid = true ∧ (lastBeat.region 0).ports.eol = false ∧
      (lastBeat.region 0).out = some ⟨stamp7, some 3, 16376, false⟩ ∧
      16376 + beatSize (lastBeat.fld (Reg.TP_CTL 0) F.TP_CTL_BEAT) ≤ 16384 ∧
      16376 % beatSize (lastBeat.fld (Reg.TP_CTL 0) F.TP_CTL_BEAT) = 0 ∧ lastBeat.fld (Reg.TP_CTL 0) F.TP_CTL_WB ≤ 12) ∧
    (servedSlot served (lead served 0) (spanNumber served 0) = some 3 ∧ slotState served 0 3 = 2 ∧ served.errs = [] ∧
      2 ≤ rgState served 0 ∧ rgState served 0 ≤ 4 ∧
      (served.region 0).sent < served.fld (Reg.TP_CTL 0) F.TP_CTL_WB ∧ (served.array 0).port.length < 4) ∧
    (let v := F.RP_CTL_GO.put (F.RP_CTL_COUNT.put (F.RP_CTL_NPRIME.put (F.RP_CTL_SRC.put 0 16) 8) 8) 1
     F.RP_CTL_GO.get v = 1 ∧ 1 ≤ F.RP_CTL_COUNT.get v ∧ F.RP_CTL_COUNT.get v ≤ 8 ∧
       F.RP_CTL_NPRIME.get v ≤ F.RP_CTL_COUNT.get v ∧ F.RP_CTL_SRC.get v ≤ 16 ∧
       (region 2).fld (Reg.RP_STAT 0) F.RP_STAT_BUSY = 0 ∧ rgState (region 2) 0 = 2) ∧
    ((copying.region 0).replay = some ⟨1, 7, 2, 1⟩ ∧ epCut copying (17 + 1) = false ∧
      (copying.ctl (lead copying 0)).syncs = 0 ∧ 1 < (⟨1, 7, 2, 1⟩ : Replay).left ∧ slotOfLine copying 1 7 = none ∧
      (∀ e ∈ (copying.region 0).order, e.index ≠ 7) ∧
      slotOfLine (setSlotState (copying.writeLE (Win.slotDesc 1 3) 8 7) 1 3 2) 1 7 = some 3 ∧
      copying.errs = [] ∧ chooseSlot copying 0 = some 0) ∧
    (let s := onRegion ringed (fun r => { r with histDue := [histLine], hist := [histLine] })
     let a := ringBase s 0 + ringEntries s 0 * ringStride s 0 + 64 * (histLine.index.toNat % ringEntries s 0)
     (s.region 0).histDue = [histLine] ∧ histLine.lost = false ∧ (s.region 0).hist.length < 4 ∧
       slotKept s 0 histLine = true ∧ s.errs = [] ∧ a % 64 = 0 ∧ a + 64 ≤ ddrCapacity s ∧
       (∀ c : Fin 8, epState s (44 + c.val) < 2) ∧ (s.region 0).hist = [histLine] ∧ histLine.slot = some 3 ∧
       a + 64 + 64 ≤ ddrCapacity s ∧ 2 ≤ rgState s 0 ∧ rgState s 0 ≤ 4) := by
  decide +kernel

/-- Slot 3 of region 1 holds line 7, which region 0 copies. -/
def holding : State := setSlotState (copying.writeLE (Win.slotDesc 1 3) 8 7) 1 3 2

/-- A state with the CRC of the first `n` bytes of the slot's words in its descriptor (R202). -/
def placeCrc (n : Nat) (s : State) : State := s.writeLE (Win.slotDesc 1 3 + 28) 4 (crc32 (s.readBytes (Win.slot 1 3) n)).toNat

theorem placeCrc_byte (l : Nat) (s : State) {b : Nat} (h : b < 0x42014000dc ∨ 0x42014000e0 ≤ b) :
    (placeCrc l s).byte b = s.byte b :=
  State.writeLE_byte_outside s _ h

theorem placeCrc_readLE (l : Nat) (s : State) {a n : Nat} (h : a + n ≤ 0x42014000dc ∨ 0x42014000e0 ≤ a) :
    (placeCrc l s).readLE a n = s.readLE a n :=
  congrArg leNat (Memory.readBytes_eq _ _ n a fun _ _ => placeCrc_byte l s (by omega))

theorem placeCrc_slot (l : Nat) (s : State) (k : Fin 32) : slotState (placeCrc l s) 1 k = slotState s 1 k ∧
    slotIndex (placeCrc l s) 1 k = slotIndex s 1 k ∧ slotState (placeCrc l s) 0 k = slotState s 0 k := by
  unfold slotState slotIndex
  rw [placeCrc_readLE l s (a := Win.slotDesc 1 k + 24) (by unfold Win.slotDesc; omega),
    placeCrc_readLE l s (a := Win.slotDesc 1 k) (by unfold Win.slotDesc; omega),
    placeCrc_readLE l s (a := Win.slotDesc 0 k + 24) (by unfold Win.slotDesc; omega)]
  exact ⟨rfl, rfl, rfl⟩

theorem placeCrc_agrees (l : Nat) (s : State) :
    (crc32 ((placeCrc l s).readBytes (Win.slot 1 3) l)).toNat = (placeCrc l s).readLE (Win.slotDesc 1 3 + 28) 4 := by
  rw [show (placeCrc l s).readBytes (Win.slot 1 3) l = s.readBytes (Win.slot 1 3) l from
    Memory.readBytes_eq _ _ _ _ fun _ hi => placeCrc_byte l s (by unfold Win.slot; omega)]
  unfold placeCrc
  rw [State.writeLE_readLE]
  exact (Nat.mod_eq_of_lt (BitVec.isLt _)).symm

theorem placeCrc_slotOfLine (l : Nat) (s : State) (i : BitVec 64) : slotOfLine (placeCrc l s) 1 i = slotOfLine s 1 i := by
  unfold slotOfLine
  simp only [placeCrc_slot]

theorem placeCrc_chooseSlot (l : Nat) (s : State) : chooseSlot (placeCrc l s) 0 = chooseSlot s 0 := by
  unfold chooseSlot
  simp only [Fin.val_zero, placeCrc_slot]
  rfl

theorem placeCrc_rest (l : Nat) (s : State) :
    (placeCrc l s).regs = s.regs ∧ (placeCrc l s).regions = s.regions ∧ (placeCrc l s).errs = s.errs := ⟨rfl, rfl, rfl⟩

theorem holding_slots : slotOfLine holding 1 7 = some 3 ∧ chooseSlot holding 0 = some 0 := by decide +kernel

theorem witness_ReplayOfAHeldLine :
    slotOfLine (placeCrc slotBytes holding) 1 7 = some 3 ∧ chooseSlot (placeCrc slotBytes holding) 0 = some 0 ∧
      (crc32 ((placeCrc slotBytes holding).readBytes (Win.slot 1 3) slotBytes)).toNat =
        (placeCrc slotBytes holding).readLE (Win.slotDesc 1 3 + 28) 4 := by
  rw [placeCrc_slotOfLine, placeCrc_chooseSlot]
  exact ⟨holding_slots.1, holding_slots.2, placeCrc_agrees slotBytes holding⟩

/-- A closed set of one mask plane, and the same scanned by every truss. -/
def closedSet (scanned : BitVec 16) : ExtractSet := ⟨0, [5], true, false, 7, false, false, scanned, 0, none, []⟩

/-- Span 0's extraction in other contents. -/
def onExt (s : State) (f : Extraction → Extraction) : State := s.setExt 0 (f (s.ext 0))

theorem witness_TrussRunsAreMaximal :
    (closedSet 0).fmt.toNat % 8 ≤ 4 ∧ ((closedSet 0).fmt.toNat >>> 4) % 32 ≤ 16 ∧ trussRuns (closedSet 0) 0 ≠ [] := by
  decide +kernel

/-- A blob of one run on line 7, columns 3 to 5. -/
def blob : Blob :=
  { id := 1, seq := 1, head := 0, first := 7, last := 7, coord := 0, time := 0, minCol := 3, maxCol := 5, area := 3, runs := 1,
    classMask := 1, peak := 0, sumCol := 12, sumLine := 0, merges := 0, contd := false, gap := false, takenOver := false,
    aborted := false, postFlood := false, stamped := true, empty := 0, extent := (3, 5), prev := [], now := [(3, 5)] }

theorem witness_BlobFeaturesAreExact :
    (5 ≤ 5 ∧ blob.first.toNat ≤ (7 : BitVec 64).toNat ∧ 0 < blob.runs) ∧
    ((∀ q ∈ [(3, 7)], blob.first.toNat ≤ q.2) ∧ blob.area = (([(3, 7)] : List (Nat × Nat)).map Prod.fst).sum ∧
      blob.sumLine = (([(3, 7)] : List (Nat × Nat)).map (fun q => q.1 * (q.2 - blob.first.toNat))).sum) := by decide

theorem witness_RunExtractionCommandsComplete :
    (let s := onExt zero (fun x => { x with sets := [closedSet 0] })
     (s.ext 0).sets.find? (fun e => e.closed && !e.scanned.getLsbD (0 : Fin 16).val) = some (closedSet 0) ∧
       maskGet (closedSet 0).wrote 0 = 0 ∧ s.fld (Reg.RM_STAT 0) F.RM_STAT_BAND = 0 ∧
       (trussRuns (closedSet 0) 0).length + queuedRuns (s.ext 0).queues[0] ≤ 64) ∧
    (let words := List.replicate 4 (MergerWord.run ⟨3, 5, 0, 0⟩)
     let s := onExt zero (fun x => { x with truss := 16, out := words, sent := List.replicate 508 (MergerWord.run ⟨3, 5, 0, 0⟩) })
     (s.ext 0).bandNext = none ∧ (s.ext 0).truss = 16 ∧ 4 ≤ (s.ext 0).out.length ∧ epState s 0 = 0 ∧
       creditWords ((s.ext 0).sent ++ wordsUnderWay s 0) ≤ 508 ∧
       512 ≤ creditWords (List.replicate 512 (MergerWord.run ⟨3, 5, 0, 0⟩)) ∧
       epState (put [(Reg.CW_EP_STAT 0, F.CW_EP_STAT_STATE, 1)] s) 0 ≠ 0) ∧
    (let s := onExt zero (fun x => { x with truss := 16, sets := [closedSet (BitVec.allOnes 16)] })
     (s.ext 0).bandNext = none ∧ (s.ext 0).truss = 16 ∧ (s.ext 0).out = [] ∧ (s.ext 0).joined = none ∧
       (s.ext 0).sets = [closedSet (BitVec.allOnes 16)] ∧ (closedSet (BitVec.allOnes 16)).closed = true ∧
       (closedSet (BitVec.allOnes 16)).scanned = BitVec.allOnes 16 ∧ (closedSet (BitVec.allOnes 16)).ord = none ∧
       creditWords ((s.ext 0).sent ++ wordsUnderWay s 0) < 512 ∧ epState s 0 = 0) := by decide +kernel

/-- Role 0 serves on pair 0, its domain in a state of R208. -/
def tracked (st : Nat) : State :=
  put [(Reg.PL_ROLE 0, F.PL_ROLE_PHYS, 0), (Reg.PL_ROLE 0, F.PL_ROLE_STATE, 1), (Reg.PL_PHYS 0, F.PL_PHYS_ROLE, 0),
    (Reg.TRK_DOM_CTL 0, F.TRK_DOM_CTL_EN, 1), (Reg.TRK_DOM_STAT 0, F.TRK_DOM_STAT_STATE, st),
    (Reg.TRK_DOM_FLOOD 0, F.TRK_DOM_FLOOD_RUNS_MAX, 100), (Reg.TRK_DOM_FLOOD 0, F.TRK_DOM_FLOOD_HOLD_MAX, 8)] zero

/-- A run word, a mark of line 9, and a set that waits for its mark. -/
def runWord : MergerWord := .run ⟨3, 5, 0, 0⟩
def markWord : MergerWord := .mark false false false false 1 0 9
def delivering : SpanSet := ⟨[⟨3, 5, 0, 0⟩], [], .empty, none⟩

/-- The domain of a state with other contents. -/
def onDomain (s : State) (f : Domain → Domain) : State := modifyDomain s 0 f

/-- A complete line 9 of one run. -/
def lineSet : SpanSet := ⟨[⟨3, 5, 0, 0⟩], [], .empty, some ⟨false, false, false, 1, 0, 9⟩⟩

/-- A record whose crop and marking steps are done. -/
def stepped : BuiltRecord := ⟨List.replicate 64 0, 0, 0, 0, false, 0, true⟩

theorem witness_TrackerCommandsComplete :
    (let s (st : Nat) := onExt (tracked st) (fun x => { x with sent := [runWord] })
     ((s 0).ext 0).sent = [runWord] ∧ spanDomain (s 0) 0 = some (0, 0) ∧ trkState (s 0) 0 = 0 ∧ trkState (s 1) 0 = 1 ∧
       trkState (s 2) 0 = 2 ∧ storeFull (s 1) = false ∧
       lineRunsTaken (onOpenSet (s 1) 0 0 (fun t => { t with runs := t.runs ++ [⟨3, 5, 0, 0⟩] })) 0 0 ≤
         (s 1).fld (Reg.TRK_DOM_FLOOD 0) F.TRK_DOM_FLOOD_RUNS_MAX) ∧
    (let s := onDomain (onExt (tracked 1) (fun x => { x with sent := [markWord] })) (fun d =>
       { d with staged := [[delivering]], applied := true })
     (s.ext 0).sent = [markWord] ∧ spanDomain s 0 = some (0, 0) ∧ trkState s 0 = 1 ∧ (s.domain 0).resumeDue = false ∧
       openSet s 0 0 = some delivering ∧ (lastLine s 0).toNat < (extendLine s 0 9).toNat ∧ (s.domain 0).applied = true ∧
       lineComplete (onDomain s (fun d => { d with staged := [[lineSet]] })) 0 9 = true ∧
       (extendLine s 0 0).toNat ≤ (lastLine s 0).toNat) ∧
    (let s := onDomain (tracked 1) (fun d => { d with staged := [[lineSet]] })
     let s0 := showContexts { s with trk := { s.trk with ready := [(0, 9)] } }
     lineDue s0 = some 0 ∧ (alignFronts 0 (stagedSets s0 0 + 1) s0).1 = some [(lineSet, ⟨false, false, false, 1, 0, 9⟩)]) ∧
    (let s := onExt (tracked 1) (fun x => { x with hold := 8 })
     spanDomain s 0 = some (0, 0) ∧ trkState s 0 = 1 ∧
       s.fld (Reg.TRK_DOM_FLOOD 0) F.TRK_DOM_FLOOD_HOLD_MAX ≤ (s.ext 0).hold ∧ (s.ext 0).hold ≠ 0) ∧
    stepped.stepped = true ∧
    (classWants zero 1 F.TRK_CLASS_MARK_EN = false ∧ cropDue zero { stepped with stepped := false } = false) ∧
    (let s := put [(Reg.TRK_CLASS 0, F.TRK_CLASS_CROP_EN, 1)] zero
     let r : BuiltRecord := { stepped with bytes := 1 :: List.replicate 63 0, classMask := 1, area := 1, stepped := false }
     cropDue s r = true ∧ cropCredit s = true ∧ classWants s 1 F.TRK_CLASS_MARK_EN = false) ∧
    zero.lg.queue.length < 1024 ∧ zero.rf.queue.length < 256 ∧
    1024 ≤ (List.replicate 1024 (⟨0, [], 0, 0, false⟩ : LedgerRec)).length := by decide +kernel

theorem witness_TrackerNoticeCommandsComplete :
    (let s := put [(Reg.SPC_STAT 0, F.SPC_STAT_CAUSE, 1)] (tracked 1)
     spanDomain s 0 = some (0, 0) ∧ spcState s 0 = 3 ∧ trkState s 0 ≠ 0 ∧ s.fld (Reg.SPC_STAT 0) F.SPC_STAT_CAUSE = 1) ∧
    (trkState (tracked 1) 0 = 1 ∧ (tracked 1).fld (Reg.SPC_STAT 0) F.SPC_STAT_CAUSE ≠ 1) ∧
    (let s (st : Nat) := put [(Reg.SPC_STAT 0, F.SPC_STAT_STATE, 0)] (tracked st)
     (s 0).fld (Reg.TRK_DOM_CTL 0) F.TRK_DOM_CTL_EN = 1 ∧ domSpans (s 0) 0 = [0] ∧ spcState (s 0) 0 = 0 ∧
       trkState (s 0) 0 = 0 ∧ trkState (s 1) 0 = 1 ∧ trkState (s 3) 0 = 3) ∧
    (let s := { tracked 1 with pl := { (tracked 1).pl with reports := [(0, 7)] } }
     s.pl.reports.find? (fun r => roleDomain s r.1 == (0 : Fin 16).val && r.2 == (7 : BitVec 8).toNat) = some (0, 7)) ∧
    (([blob].map (·.seq)).Nodup) := by decide +kernel

/-! ## Hypotheses of the statements on the ledger, the repeat finder, the crop engine, strip time and the strand -/

/-- The ledger is enabled and ready, in mapped DDR5, with other contents. -/
def ledger (f : Ledger → Ledger) : State :=
  let s := mapped (put [(Reg.LG_CTL, F.LG_CTL_EN, 1), (Reg.LG_STAT, F.LG_STAT_READY, 1)] zero)
  { s with lg := f s.lg }

/-- A record with LSEQ 2 in a segment that begins at LSEQ 1, of a TYPE and with an area. -/
def ledgerRecord (type area : Byte) : LedgerRec :=
  ⟨0, [type] ++ List.replicate 41 0 ++ [1, 0, area] ++ List.replicate 19 0, 2, 1, false⟩

theorem witness_LedgerCommandsComplete :
    (let s := ledger (fun g => { g with queue := [ledgerRecord 1 1], chains := [ledgerRecord 0x81 0], tookTracker := true })
     s.fld Reg.LG_CTL F.LG_CTL_EN = 1 ∧ s.fld Reg.LG_STAT F.LG_STAT_READY = 1 ∧ s.lg.flight.length < 16 ∧
       (if s.lg.queue.isEmpty || (!s.lg.chains.isEmpty && s.lg.tookTracker) then s.lg.chains else s.lg.queue) =
         ledgerRecord 0x81 0 :: [] ∧ DdrReady s (ledgerBase s + 0x80000000)) ∧
    (let s := ledger (fun g => { g with flight := [ledgerRecord 1 1] })
     s.lg.flight = [ledgerRecord 1 1] ∧ (ledgerRecord 1 1).bytes.length = 64 ∧ DdrReady s (ledgerBase s + 0x80800000) ∧
       recIndexed (ledgerRecord 1 1).bytes = true ∧ recIndexed (ledgerRecord 1 0).bytes = false) ∧
    (ledger id).fld Reg.LG_CTL F.LG_CTL_EN = 1 ∧ zero.fld Reg.LG_CTL F.LG_CTL_EN = 0 ∧
    (let s := put [(Reg.LG_STAT, F.LG_STAT_READY, 0)] (ledger id)
     s.fld Reg.LG_CTL F.LG_CTL_EN = 1 ∧ s.fld Reg.LG_STAT F.LG_STAT_READY = 0 ∧
       ledgerBase s + 0x80000000 + 0x800000 ≤ ddrCapacity s) ∧
    F.LG_SEG_CTL_GO.get (F.LG_SEG_CTL_GO.put 0 1) = 1 := by
  simp only [DdrReady]
  decide +kernel

/-- The repeat finder is enabled, its slot 1 serves class 0, and the bucket at coordinate 0 begins at LSEQ 1. -/
def finder (f : RepeatFinder → RepeatFinder) : State :=
  let s := put [(Reg.RF_CTL, F.RF_CTL_EN, 1), (Reg.RF_CTL, F.RF_CTL_VISIT_MAX, 9), (Reg.RF_CTL, F.RF_CTL_MIN_HITS, 2),
    (Reg.RF_SLOT 1, F.RF_SLOT_EN, 1), (Reg.RF_SLOT 1, F.RF_SLOT_CLASSES, 1)] (ledger id)
  let s := s.writeLE (bucketAddr s 0) 8 1
  { s with rf := f s.rf }

/-- A search at entry 1 of the only bucket of the only period of a slot. -/
def atEntry : Search :=
  { record := ledgerRecord 1 1, slot := 1, k := 1, b := 0, bLast := 0, e := 1, visits := 0, best := none, hits := 0, mask := 0,
    near := none, far := none, kfar := 0, trunc := false, part := false, chained := false, emitting := false }

theorem witness_RepeatFinderCommandsComplete :
    (let s := finder (fun f => { f with queue := [ledgerRecord 1 1] })
     let r := ledgerRecord 1 1
     let target := (recWord r.bytes 16).toInt - rfPitch s 1
     let e := BitVec.ofNat 64 (s.readLE (bucketAddr s (bucketOf s (target - rfAlong s 1))) 8)
     s.rf.search = none ∧ s.rf.queue = [r] ∧ r.lseq ≠ 0 ∧ s.fld Reg.RF_CTL F.RF_CTL_EN = 1 ∧
       slotServes s 1 r.bytes = true ∧ slotServes s 0 r.bytes = false ∧ DdrReady s (ledgerBase s + 0x80800000) ∧
       e ≠ 0 ∧ r.segFirst.toNat ≤ e.toNat ∧ (lgOldest s).toNat ≤ e.toNat ∧ s.fld Reg.RF_CTL F.RF_CTL_VISIT_MAX ≠ 0) ∧
    zero.fld Reg.RF_CTL F.RF_CTL_EN = 0 ∧ ({ ledgerRecord 1 1 with lseq := 0 }).lseq = 0 ∧
    (let q := atEntry
     let s := (finder (fun f => { f with search := some q }))
     let held := s.writeLE (sideAddr s 1) 16 (1 + 2 ^ 64)
     s.rf.search = some q ∧ q.emitting = false ∧ q.e ≠ 0 ∧ DdrReady s (ledgerBase s + 0x80800000) ∧
       recWord (s.readBytes (sideAddr s q.e) 64) 0 ≠ q.e ∧ q.b = q.bLast ∧ q.best = none ∧
       s.fld (Reg.RF_SLOT q.slot) F.RF_SLOT_DEPTH ≤ q.k ∧ q.hits < s.fld Reg.RF_CTL F.RF_CTL_MIN_HITS ∧ q.trunc = false ∧
       q.part = false ∧ (∀ j, j < 64 → q.slot < j → slotServes s j q.record.bytes = false) ∧
       DdrReady held (ledgerBase held + 0x80800000) ∧
       (let c := held.readBytes (sideAddr held q.e) 64
        recWord c 0 = q.e ∧ recWord c 8 ≠ 0 ∧ q.record.segFirst.toNat ≤ (recWord c 8).toNat ∧
          (lgOldest held).toNat ≤ (recWord c 8).toNat ∧ q.visits + 1 ≠ held.fld Reg.RF_CTL F.RF_CTL_VISIT_MAX)) ∧
    (let s := finder (fun f => { f with writes := [(1, 5)] })
     s.rf.writes = [(1, 5)] ∧ DdrReady s (ledgerBase s + 0x80000000) ∧
       ¬ s.readLE (sideAddr s 1) 8 = 1 ∧ (s.writeLE (sideAddr s 1) 8 1).readLE (sideAddr s 1) 8 = 1) := by
  simp only [DdrReady]
  decide +kernel

/-- A request and a crop of one column and two lines, some of which have been read. -/
def cropReq : CropReq := ⟨0, List.replicate 64 0, some 1, 0, 4, false, 0, 16384⟩
def cropping (rows : List CropRow) : CropWork := ⟨cropReq, 0, 2, 16383, 1, 1, false, false, rows, 0⟩

/-- The crop engine is enabled in mapped DDR5, with a timeout and a store of 4 MiB. -/
def engine (f : CropEngine → CropEngine) : State :=
  let s := mapped (put [(Reg.CR_CTL, F.CR_CTL_EN, 1), (Reg.CR_TMO, F.CR_TMO_US, 1), (Reg.CR_STORE, F.CR_STORE_SIZE_LOG, 22)] zero)
  { s with cr := f s.cr }

theorem witness_CropEngineCommandsComplete :
    (let s (w : List CropWork) := engine (fun c => { c with queue := [cropReq], work := w })
     (s []).cr.queue = [cropReq] ∧ (s []).fld Reg.CR_CTL F.CR_CTL_EN = 1 ∧ (s []).cr.work.length < 2 ∧
       2 ≤ (s [cropping [], cropping []]).cr.work.length ∧ zero.fld Reg.CR_CTL F.CR_CTL_EN = 0) ∧
    (let w := cropping [⟨none, false⟩]
     let s := engine (fun c => { c with work := [cropping [], w] })
     let m := 2 ^ 4 * 16384 + 64 * (1 % 2 ^ 4)
     let row (i fl : Nat) := ((s.writeLE m 8 i).writeLE (m + 24) 1 fl)
     s.cr.work[(1 : Fin 2).val]? = some w ∧ w.rows.length < w.srcH ∧ w.req.wide = false ∧ w.firstCol + w.srcW ≤ 16384 ∧
       w.req.base + 2 ^ w.req.depth * 16384 + 64 * ((w.firstLine + w.rows.length) % 2 ^ w.req.depth) = m ∧
       m % 64 = 0 ∧ DdrReady s (m + 64) ∧ DdrReady (row 1 9) (m + 64) ∧
       s.readLE m 8 < 1 ∧ ((row 1 9).readLE m 8 = 1 ∧ ((row 1 9).byte (m + 24)).toNat.testBit 3 = true) ∧
       1 < (row 2 0).readLE m 8 ∧ ((row 1 4).readLE m 8 = 1 ∧ ((row 1 4).byte (m + 24)).toNat.testBit 2 = true) ∧
       ((row 1 1).readLE m 8 = 1 ∧ ((row 1 1).byte (m + 24)).toNat.testBit 3 = false ∧
         ((row 1 1).byte (m + 24)).toNat.testBit 1 = false ∧ ((row 1 1).byte (m + 24)).toNat.testBit 2 = false) ∧
       s.fld Reg.CR_TMO F.CR_TMO_US ≠ 0 ∧ s.errs = [] ∧ (ringRow s w (w.firstLine + w.rows.length)).1 = none ∧
       w.start.toNat + 1000 * s.fld Reg.CR_TMO F.CR_TMO_US ≤ (late 1000 s).now.toNat) ∧
    (let w := cropping [⟨none, false⟩, ⟨some [7], false⟩]
     let s := engine (fun c => { c with work := [w] })
     let full := engine (fun c => { c with work := [w], store := [⟨0, 64, 2 ^ 22 - 64, 1⟩] })
     s.cr.work = [w] ∧ w.req.lseq = some 1 ∧ w.srcH ≤ w.rows.length ∧ storeRoom full (cropBytes full w 1).length = false ∧
       storeRoom s (cropBytes s w 1).length = true ∧ s.cr.ptr + (cropBytes s w 1).length ≤ storeSize s ∧
       (cropBytes s w 1).length ≤ 2 ^ 24 ∧ (storeBase s + s.cr.ptr) % 4 = 0 ∧
       DdrReady s (storeBase s + storeSize s)) := by
  simp only [DdrReady]
  decide +kernel

/-- Channel 0 counts, with its stall limit set and Z enabled. -/
def channel (l : List (Nat × Fld × Nat)) : State :=
  put ([(Reg.SC_CTL 0, F.SC_CTL_EN, 1), (Reg.SC_CTL 0, F.SC_CTL_Z_EN, 1), (Reg.SC_STALL 0, F.SC_STALL_MS, 1),
    (Reg.SC_STAT 0, F.SC_STAT_MOVING, 1)] ++ l) zero

theorem witness_EncoderCommandsComplete :
    (channel []).fld (Reg.SC_CTL 0) F.SC_CTL_EN = 1 ∧ (channel []).fld (Reg.SC_CTL 0) F.SC_CTL_INV ≠ 1 ∧
    (levelA (channel []) 0 = false ∧ levelB (channel []) 0 = false ∧ acceptAB (channel []) 0 [true] [] = (true, false) ∧
      acceptAB (channel []) 0 [] [true] = (false, true) ∧ acceptAB (channel []) 0 [true] [true] = (true, true)) ∧
    zero.fld (Reg.SC_CTL 0) F.SC_CTL_EN ≠ 1 ∧
    (let s := late 1000000 (channel [])
     let t := setChan s 0 { chan s 0 with edge := some (0, true) }
     (chan t 0).edge = some (0, true) ∧ 0 + 1000000 * t.fld (Reg.SC_STALL 0) F.SC_STALL_MS ≤ t.now.toNat) ∧
    ((channel []).fld (Reg.SC_CTL 0) F.SC_CTL_FILT < [true].length ∧
      ([true].take ((channel []).fld (Reg.SC_CTL 0) F.SC_CTL_FILT + 1)).all id = true) ∧
    (channel [(Reg.SC_CTL 0, F.SC_CTL_INV, 1)]).fld (Reg.SC_CTL 0) F.SC_CTL_INV = 1 ∧
    (channel []).fld (Reg.SC_STALL 0) F.SC_STALL_MS ≠ 0 ∧ (channel []).fld (Reg.SC_STAT 0) F.SC_STAT_MOVING = 1 ∧
    (channel []).fld (Reg.SC_CTL 0) F.SC_CTL_Z_EN = 1 ∧ levelZ (channel []) 0 = false ∧
    (channel []).fld (Reg.SC_STAT 0) F.SC_STAT_Z_VALID ≠ 1 ∧
    (let s := channel [(Reg.SC_STAT 0, F.SC_STAT_Z_VALID, 1), (Reg.SC_ZCHK 0, F.SC_ZCHK_ZPER, 5)]
     let old : BitVec 48 := (s.reg (Reg.SC_ZCAP_HI 0)).setWidth 16 ++ s.reg (Reg.SC_ZCAP_LO 0)
     let per : Int := s.fld (Reg.SC_ZCHK 0) F.SC_ZCHK_ZPER
     s.fld (Reg.SC_STAT 0) F.SC_STAT_Z_VALID = 1 ∧ per ≠ 0 ∧
       s.fld (Reg.SC_ZCHK 0) F.SC_ZCHK_ZTOL < ((((chanPos s 0).toInt - old.toInt).natAbs : Int) - per).natAbs) ∧
    (let s := (put [(Reg.TG_CTL 7, F.TG_CTL_SRC, 16)] zero).setReg (Reg.TG_INTRATE 7) 1
     s.fld (Reg.TG_CTL 7) F.TG_CTL_SRC = 16 ∧ s.reg (Reg.TG_INTRATE 7) ≠ 0 ∧ (grp s 7).edge = none ∧
       toSteps s.now ≤ toSteps s.now) := by decide +kernel

/-- Group 0 in a state of R256, with its floor at 32 steps and other contents. -/
def grouped (st : Nat) (f : Group → Group) : State :=
  let s := put [(Reg.TG_STAT 0, F.TG_STAT_STATE, st), (Reg.TG_MINPER 0, F.TG_MINPER_MINPER, 1)] zero
  setGrp s 0 (f (grp s 0))

theorem witness_LockstepGroupCommandsComplete :
    (tgState (grouped 0 id) 0 = 0 ∧ sourceCoord (grouped 0 id) 0 + (tgPitch (grouped 0 id) 0).toNat < 2 ^ 63 ∧
      tgState (grouped 2 id) 0 ≠ 0) ∧
    (let s (last : Option Nat) (delayed : Option (BitVec 64)) :=
       late 21 (grouped 1 (fun x => { x with next := 5, edges := [⟨5, 131, none⟩], last := last, delayed := delayed }))
     let floor := (s none none).fld (Reg.TG_MINPER 0) F.TG_MINPER_MINPER * 32
     nextInstant (s none none) 0 = some 131 ∧ 131 ≤ toSteps (s none none).now ∧ tgState (s none none) 0 ≠ 0 ∧
       tmRole (s none none) = 0 ∧ toSteps (late 20 (s none none)).now < 131 ∧
       (grp (s none none) 0).delayed = none ∧ (grp (s none none) 0).last = none ∧ floor ≠ 0 ∧
       ((grp (s (some 99) none) 0).last = some 99 ∧ ¬ 131 < 99 + floor) ∧
       ((grp (s (some 100) none) 0).last = some 100 ∧ 131 < 100 + floor) ∧
       (grp (s (some 99) (some 4)) 0).delayed ≠ none) ∧
    (let s := late 21 (grouped 2 (fun x => { x with delayed := some 4, last := some 99 }))
     (grp s 0).delayed = some 4 ∧ (grp s 0).last = some 99 ∧ tmRole s = 0 ∧
       99 + s.fld (Reg.TG_MINPER 0) F.TG_MINPER_MINPER * 32 ≤ toSteps s.now ∧
       toSteps (late 20 s).now < 99 + s.fld (Reg.TG_MINPER 0) F.TG_MINPER_MINPER * 32) := by decide +kernel

/-- A message for output 31, from coordinate 0 to coordinate 1. -/
def marking : MarkMsg := ⟨31, 0, 65536, 1, 1⟩

/-- Output 31 in a mode, its distance and late limit as given, and the internal source of group 0 at coordinate `c`. -/
def outputIn (mode dist late c : Nat) : State :=
  let s := put [(Reg.SO_CTL 15 1, F.SO_CTL_MODE, mode), (Reg.ACT_LATE 15 1, F.ACT_LATE_LATE, late), (Reg.TG_CTL 0, F.TG_CTL_SRC, 16)]
    zero
  let s := s.setReg (Reg.ACT_DIST_LO 15 1) (BitVec.ofNat 32 (65536 * dist))
  let s := setGrp s 0 { grp s 0 with pos := BitVec.ofNat 64 (65536 * c) }
  { s with tm := { s.tm with marks := [marking] } }

/-- What `witness_ActuationCommandsComplete` uses of a state: the mode, T_on, T_off without PRE and POST, the coordinate. -/
def markView (s : State) : List Int :=
  let dist := (s.reg64 (Reg.ACT_DIST_LO 15 1) (Reg.ACT_DIST_HI 15 1)).toInt
  [soMode s 31, marking.start.toInt + dist, marking.stop.toInt + dist, sourceCoord s (soGroup s 31),
    s.fld (Reg.ACT_LATE 15 1) F.ACT_LATE_LATE * 65536]

/-- An action of output 31 in the scheduler. -/
def withAction (a : Action) : State :=
  let s := outputIn 4 0 0 1
  { s with tm := { s.tm with actions := [a] } }

theorem witness_MarkingMessages :
    (outputIn 0 0 0 0).tm.marks = [marking] ∧ soMode (outputIn 0 0 0 0) 31 ≠ 4 ∧ soMode (outputIn 0 0 0 0) 31 ≠ 5 ∧
    markView (outputIn 4 1 0 0) = [4, 65536, 131072, 0, 0] ∧ markView (outputIn 5 1 0 0) = [5, 65536, 131072, 0, 0] ∧
    markView (outputIn 4 0 1 1) = [4, 0, 65536, 65536, 65536] ∧ markView (outputIn 5 0 0 0) = [5, 0, 65536, 0, 0] ∧
    markView (outputIn 4 0 1 2) = [4, 0, 65536, 131072, 65536] ∧ markView (outputIn 5 0 0 1) = [5, 0, 65536, 65536, 0] ∧
    (outputIn 5 0 0 1).fld (Reg.ACT_PREPOST 15 1) F.ACT_PREPOST_PRE = 0 ∧
    (outputIn 5 0 0 1).fld (Reg.ACT_PREPOST 15 1) F.ACT_PREPOST_POST = 0 := by decide +kernel

theorem witness_ActuationCommandsComplete :
    (let a (gate active : Bool) (off : Int) : Action :=
       ⟨31, gate, 65536, off, 0, active, if active then none else some 64, 0, if gate then none else some 64⟩
     (withAction (a false false 0)).tm.actions[(0 : Fin 256).val]? = some (a false false 0) ∧
       (a false false 0).due = some 64 ∧ (a false true 0).until' = some 64 ∧
       64 ≤ toSteps (late 10 zero).now ∧ toSteps (late 9 zero).now < 64 ∧
       65536 ≤ sourceCoord (withAction (a true true 65536)) (soGroup (withAction (a true true 65536)) 31) ∧
       sourceCoord (withAction (a true true 65537)) (soGroup (withAction (a true true 65537)) 31) < 65537) ∧
    F.AS_POST_CTL_GO.get (F.AS_POST_CTL_GO.put (F.AS_POST_CTL_OUT.put 0 31) 1) = 1 ∧
    256 ≤ (List.replicate 256 marking).length ∧
    (let s := outputIn 4 1 0 0
     let o := F.AS_POST_CTL_OUT.get (F.AS_POST_CTL_GO.put (F.AS_POST_CTL_OUT.put 0 31) 1)
     s.tm.actions.length + s.tm.marks.length < 256 ∧ soMode s o = 4 ∧
       sourceCoord s (soGroup s o) < (s.reg64 Reg.AS_POST_LO Reg.AS_POST_HI).toInt +
         (s.reg64 (Reg.ACT_DIST_LO (o / 2) (o % 2)) (Reg.ACT_DIST_HI (o / 2) (o % 2))).toInt) := by decide +kernel

/-- The device's place in time and on the strand: TM_STAT.ROLE, POS and MASTER of an enabled strand, the state of its sides. -/
def onStrand (role pos master stE stW : Nat) : State :=
  put [(Reg.TM_STAT, F.TM_STAT_ROLE, role), (Reg.SL_CTL, F.SL_CTL_EN, 1), (Reg.SL_CTL, F.SL_CTL_POS, pos),
    (Reg.SL_CTL, F.SL_CTL_MASTER, master), (Reg.SL_STAT, F.SL_STAT_STATE_E, stE), (Reg.SL_STAT, F.SL_STAT_STATE_W, stW)] zero

/-- PTP runs on port 0, and pad 16 is live for output 0 in PPS mode. -/
def clocked : State :=
  { put [(Reg.PTP_CTL, F.PTP_CTL_PORTS, 1), (Reg.PTP_CTL, F.PTP_CTL_TRANSPORT, 1), (Reg.SO_CTL 0 0, F.SO_CTL_MODE, 6)] zero with
    pads := [16] }

theorem witness_TimeReferenceCommandsComplete :
    tmRole (onStrand 2 0 0 0 0) = 2 ∧ tmRole zero ≠ 2 ∧ ptpOn clocked 0 = true ∧
    ptpTransports clocked = [false] ∧ true ∉ ptpTransports clocked ∧ clocked.fld Reg.PTP_CTL F.PTP_CTL_DOMAIN = (0 : BitVec 8).toNat ∧
    (clocked.tm.dreq[(0 : Fin 8)]).2 < 256 ∧
    (let s := { clocked with tm := { clocked.tm with dreq := clocked.tm.dreq.set 0 (0, 256) } }
     ptpOn s 0 = true ∧ (s.tm.dreq[(0 : Fin 8)]).1 = s.now.toNat / 1000000000 ∧ 256 ≤ (s.tm.dreq[(0 : Fin 8)]).2) ∧
    soMode zero (0 : Fin 32) ≠ 6 ∧ soMode clocked (0 : Fin 32) = 6 ∧ 16 + (0 : Fin 32).val ∈ clocked.pads ∧
    (ptpTime clocked).toNat % 1000000000 < 5 ∧ 5 ≤ (ptpTime (late 5 clocked)).toNat % 1000000000 ∧
    clocked.tm.pulses[(0 : Fin 32)] = [] := by decide +kernel

/-- A line of the master for group 0, to fire at 10 ns, 64 steps. -/
def masterLine : StrandFire := ⟨0, 7, 0, 0, 64, 0, false⟩

/-- A follower, the master to its west, locked or not, whose group 0 takes its lines from the strand. -/
def following (locked : Nat) : State :=
  let s := put [(Reg.TM_STAT, F.TM_STAT_LOCKED, locked), (Reg.TG_CTL 0, F.TG_CTL_SRC, 17), (Reg.TG_STAT 0, F.TG_STAT_STATE, 2)]
    (onStrand 2 1 0 0 2)
  { s with now := 10, tm := { s.tm with stepped := true, fires := [masterLine] } }

theorem witness_StrandCommandsComplete :
    sideUp (onStrand 0 0 1 2 0) true = true ∧ sideUp (following 1) false = true ∧
    (tmRole (following 1) = 2 ∧ masterSide (following 1) false = true ∧ (following 1).tm.stepped = true ∧
      (following 1).fld Reg.TM_STAT F.TM_STAT_LOCKED = 1 ∧ 10000 < (10001 : BitVec 32).toInt.natAbs ∧
      (-10000 : BitVec 32).toInt.natAbs ≤ 10000) ∧
    (let r : RedLine := ⟨0, some 7, StrandPost.nothing, none, none, false, false, false, false⟩
     let s := (onStrand 0 0 1 2 0).setCtl 0 { zero.ctl 0 with red := [r] }
     sideUp s true = true ∧ (s.ctl 0).red = [r] ∧ r.index = some 7 ∧ (s.ctl 0).redIn = [] ∧ r.east = none ∧ r.west = none) ∧
    (let s := put [(Reg.ARR_COUPLE 16, F.ARR_COUPLE_OUTER_E, 2)] (onStrand 0 0 1 2 0)
     sideUp s true = true ∧ strandEast s (16 : Fin 17) = true) ∧
    (sideUp (following 1) true = false ∧ (following 1).fld (Reg.TG_CTL masterLine.group) F.TG_CTL_SRC = 17 ∧
      tgState (following 1) masterLine.group ≠ 0 ∧ toSteps (following 1).now ≤ masterLine.fire.toNat ∧
      (following 0).fld Reg.TM_STAT F.TM_STAT_LOCKED = 0 ∧
      masterLine.fire.toNat < toSteps ({ following 1 with now := 11 } : State).now) ∧
    ((following 1).tm.fires = [masterLine] ∧ masterLine.fire.toNat ≤ toSteps (following 1).now ∧
      toSteps ({ following 1 with now := 9 } : State).now < masterLine.fire.toNat) ∧
    (let s := { late 10000000 (following 0) with tm := { (following 0).tm with within := some 0 } }
     s.tm.within = some 0 ∧ (0 : BitVec 64).toNat + 10000000 ≤ s.now.toNat ∧ (2000 : BitVec 32).toInt.natAbs ≤ 2000 ∧
       ({ s with tm := { s.tm with stepped := false } } : State).tm.stepped = false) ∧
    (let s := put [(Reg.SL_STAT, F.SL_STAT_LANES_UP_W, 8), (Reg.SL_CTL, F.SL_CTL_LANES_W, 15)] (onStrand 0 1 0 0 2)
     slOn s = true ∧ (s.fld Reg.SL_STAT (lanesFld false)).testBit (3 : Fin 4).val = true ∧
       s.fld Reg.SL_CTL F.SL_CTL_LANES_W ≠ 0) ∧
    (let s := put [(Reg.SL_STAT, F.SL_STAT_STATE_W, 1), (Reg.SL_CTL, F.SL_CTL_LANES_W, 15)] (onStrand 0 1 0 0 0)
     let t : State := { s with tm := { s.tm with lanesW := 15 } }
     slOn t = true ∧ t.fld Reg.SL_STAT (sideFld false) = 1 ∧ (0xF : BitVec 4) ≠ 0 ∧ 0xF &&& ~~~(sideLanes t false) = 0) := by
  decide +kernel

/-! ## Hypotheses of the statements on registers, the causeway, the memories, the hub and the Keepers -/

theorem witness_FieldWritesByAccessType : (regAt (Reg.KP_STAT 3)).isSome = true := by decide +kernel

/-- The last register of a unit, and role 15 on pair 16. -/
def placed : State := put [(Reg.PL_ROLE 15, F.PL_ROLE_PHYS, 16)] zero

theorem witness_RegisterAccessCommandsComplete :
    (let a : BitVec 40 := BitVec.ofNat 40 (Reg.TRK_DOM_STAT 15)
     aliasAt a.toNat = none ∧ (windowAt a.toNat matches .register _) = true ∧ a.toNat % 4 = 0 ∧ 0x4300000000 ≤ a.toNat ∧
       a.toNat < 0x4310000000 ∧ unitOf zero a.toNat = some 34 ∧ epState zero 34 = 0 ∧
       epState (put [(Reg.CW_EP_STAT 34, F.CW_EP_STAT_STATE, 1)] zero) 34 = 1 ∧
       2 ≤ epState (put [(Reg.CW_EP_STAT 34, F.CW_EP_STAT_STATE, 2)] zero) 34) ∧
    (aliasAt 0x4111000000 = none ∧ unitOf zero 0x4111000000 = none) ∧
    (aliasAt 0x418F000004 = some ⟨15, false, 4⟩ ∧ pairOf placed 15 = some 16 ∧ aliasAt 0x4280000000 = some ⟨0, true, 0⟩) := by decide +kernel

/-- A packet of class 1 from endpoint 43 to endpoint 5, north of it, and endpoint 5 in a state of R296. -/
def toEndpoint (kind dtag : Nat) : Packet :=
  ⟨43, 5, 1, BitVec.ofNat 4 kind, 0, 0, false, BitVec.ofNat 16 dtag, 0x1001, 3, 0, 4, List.replicate (8 * kind) 7⟩
def atEndpoint (st : Nat) (ps : List Packet) : State :=
  let s := put [(Reg.CW_EP_STAT 5, F.CW_EP_STAT_STATE, st), (Reg.CW_EP_TAG 5, F.CW_EP_TAG_TAG, 0x1000)] zero
  { s with cw := { s.cw with net := ps } }

/-- The head of packet `p` at the output to endpoint 5, from input port 2. -/
def headOf (p : Packet) : AtOutput := ⟨0, 2, p⟩

/-- A packet that endpoint 5 sends. -/
def fromEndpoint : Packet := { toEndpoint 4 0xFFFF with src := 5, dst := 43, cls := 0 }

theorem witness_CausewayDelivery :
    (∀ p ∈ [toEndpoint 4 0x1000, toEndpoint 4 0x1002, toEndpoint 0 0x1000, { toEndpoint 4 0xFFFF with cls := 0 }],
      (List.filterMap (fun x : Nat × Fin 8 => (mayArrive (atEndpoint 0 [p]) x.1).map (fun q => (⟨x.1, x.2, q⟩ : AtOutput))) [(0, 2)]) =
        [headOf p] ∧
      ((grantHead (atEndpoint 0 [p]) 5 [headOf p]).map Prod.fst) = some (headOf p) ∧ malformed p = false) ∧
    (epState (atEndpoint 0 []) 5 = 0 ∧ (5 : Fin 80).val ≠ 77 ∧ (toEndpoint 4 0x1000).kind = 4 ∧ (toEndpoint 4 0x1000).cls ≠ 0 ∧
      (toEndpoint 4 0x1000).dtag = epTag (atEndpoint 0 []) 5 ∧ (toEndpoint 4 0x1002).dtag ≠ 0xFFFF ∧
      (toEndpoint 4 0x1002).dtag ≠ epTag (atEndpoint 0 []) 5 ∧ epCut (atEndpoint 2 []) 5 = true ∧ (toEndpoint 0 0x1000).kind = 0 ∧
      epState (atEndpoint 1 []) 5 = 1) := by decide +kernel

theorem witness_CausewayCommandsComplete :
    (let s : State := { zero with cw := { zero.cw with c0 := [] } }
     epState s (toEndpoint 4 0).src = 0 ∧ mayArrive (offerPacket s fromEndpoint) s.cw.net.length = none ∧
       epState (put [(Reg.CW_EP_STAT 5, F.CW_EP_STAT_STATE, 1)] s) fromEndpoint.src ≠ 0) ∧
    (let x : Shaper := ⟨[fromEndpoint], some 0, none⟩
     let s : State := { zero with now := 80, cw := { zero.cw with shapers := zero.cw.shapers.set 5 x } }
     s.cw.shapers[(5 : Fin 80)].waiting = [fromEndpoint] ∧ fromEndpoint.src = 5 ∧ epState s 5 = 0 ∧ (5 : Fin 80).val ≠ 77 ∧
       s.cw.shapers[(5 : Fin 80)].last = some 0 ∧ (0 : BitVec 64).toNat + 80 ≤ s.now.toNat) ∧
    (epState (atEndpoint 0 []) 5 = 0 ∧ epState (atEndpoint 1 []) 5 = 1 ∧ epState (atEndpoint 2 []) 5 = 2 ∧
      (atEndpoint 1 []).cw.net = [] ∧ (atEndpoint 2 []).cw.unsent = []) ∧
    (let s (p : Packet) := late 1000 (put [(Reg.CW_EP_CTL 5, F.CW_EP_CTL_DRAIN_LIMIT, 800)] (atEndpoint 1 [p]))
     let due (s : State) := (s.cw.drainAt[(5 : Fin 80)]).toNat * 4 + drainLimit s 5 * 5 ≤ s.now.toNat * 4
     epState (s fromEndpoint) 5 = 1 ∧ due (s fromEndpoint) ∧ ¬ due (late 999 (s fromEndpoint)) ∧
       ((s (toEndpoint 4 0)).cw.net[0]? = some (toEndpoint 4 0) ∧ (toEndpoint 4 0).dst = 5 ∧ (toEndpoint 4 0).src ≠ 5) ∧
       ((s fromEndpoint).cw.net.filter (fun q => q.src == 5) = [fromEndpoint] ∧ fromEndpoint.dst ≠ 5 ∧ fromEndpoint.dst.val ≠ 77)) ∧
    (put [(Reg.CW_STAT, F.CW_STAT_DRAINED, 0)] zero).fld Reg.CW_STAT F.CW_STAT_DRAINED = 0 ∧
    (put [(Reg.CW_STAT, F.CW_STAT_DRAINED, 1)] zero).fld Reg.CW_STAT F.CW_STAT_DRAINED = 1 ∧ oldWorms zero = [] ∧
    oldWorms (put [(Reg.CW_STAT, F.CW_STAT_EPOCH, 1)] (atEndpoint 0 [toEndpoint 4 0xFFFF])) ≠ [] := by decide +kernel

theorem witness_PierErrorCorrection :
    (Win.piers + 8) % 8 = 0 ∧ zero.errMask (Win.piers + 8) = 0 ∧
    (zero.setErr (Win.piers + 8) (2 ^ 71)).errMask (Win.piers + 8) = 2 ^ 71 ∧
    (zero.setErr (Win.piers + 8) (2 ^ 0 + 2 ^ 71)).errMask (Win.piers + 8) = 2 ^ 0 + 2 ^ 71 ∧
    ([1, 2, 3, 4, 5, 6, 7, 8] : List Byte).length = 8 := by decide +kernel

/-- An access of one or two words at an address, from the crop engine's endpoint. -/
def access (kind src a n : Nat) : MemJob :=
  ⟨⟨Fin.ofNat 80 src, 52, 0, BitVec.ofNat 4 kind, BitVec.ofNat 5 kind, 0, false, 0xFFFF, 0xFFFF, 3, BitVec.ofNat 40 a, n,
    List.replicate (n * kind) 7⟩, 0, [], false⟩

theorem witness_MemoryCommandsComplete :
    (let s (j : MemJob) : State := { zero with cw := { zero.cw with piers := zero.cw.piers.set 15 { zero.cw.piers[15] with waiting := [j] } } }
     let w := access 1 36 (0x4000800000 - 8) 8
     (s w).cw.piers[(15 : Fin 16)].waiting = [w] ∧ (s w).cw.piers[(15 : Fin 16)].merge = none ∧ (s w).cw.piers[(15 : Fin 16)].ckpt = [] ∧ (s w).errs = [] ∧
       w.done = 0 ∧ w.data = [] ∧ w.ecc = false ∧ 0 < w.req.count ∧ epState (s w) w.req.dst = 0 ∧ w.req.dst.val ≠ 77 ∧
       w.req.addr.toNat % 8 = 0 ∧ w.req.count % 8 = 0 ∧ w.req.addr.toNat % 32 + w.req.count ≤ 32 ∧ w.req.kind = 1 ∧
       w.req.data.length = w.req.count ∧ (access 0 36 (0x4000800000 - 8) 8).req.kind = 0 ∧
       (access 0 16 (0x4000800000 - 8) 8).req.src.val < 17) ∧
    (let s (j : MemJob) := mapped (setDdr zero 7 { ddrCtl zero 7 with waiting := [j] })
     let w := access 1 36 4 4
     (ddrCtl (s w) (7 : Fin 8)).waiting = [w] ∧ w.req.kind = 1 ∧ (access 0 36 4 4).req.kind = 0 ∧
       ddrCapacity (s w) < (access 0 36 0x1000000000 4).req.addr.toNat + 4 ∧ (4 / 128) % max 1 (ddrChannels (s w)) ≠ (7 : Fin 8).val) ∧
    (let w := access 1 36 132 4
     let s := mapped (setDdr zero 1 { ddrCtl zero 1 with waiting := [w] })
     (ddrCtl s (1 : Fin 8)).waiting = [w] ∧ w.req.kind = 1 ∧ w.req.data.length = w.req.count ∧ w.req.addr.toNat % 4 = 0 ∧
       w.req.count % 4 = 0 ∧ s.errs = [] ∧ w.req.addr.toNat + w.req.count ≤ ddrCapacity s ∧ epState s w.req.dst = 0 ∧
       w.req.dst.val ≠ 77 ∧ (w.req.addr.toNat / 128) % max 1 (ddrChannels s) = (1 : Fin 8).val ∧
       w.req.addr.toNat % 128 + w.req.count ≤ 128 ∧ (access 0 36 132 4).req.kind = 0) ∧
    (let s := put [(Reg.D5_STAT 7, F.D5_STAT_STATE, 2)] zero
     s.fld (Reg.D5_STAT 7) F.D5_STAT_STATE = 2 ∧ s.fld (Reg.D5_STAT 7) F.D5_STAT_HOT = false.toNat ∧
       s.fld (Reg.D5_STAT 7) F.D5_STAT_HOT ≠ true.toNat) ∧
    (let spd : Spd := ⟨true, true, 8, 16, 1, 2⟩
     let s (modules channels width density : Nat) : State :=
       { zero with ab := { zero.ab with board := List.replicate 8 0 ++ [BitVec.ofNat 8 modules, BitVec.ofNat 8 channels,
         BitVec.ofNat 8 width, BitVec.ofNat 8 density, 1, 0] } }
     let gib (s : State) := let x := channelConfig s spd; 2 * x.ranks * (32 / max 1 x.width) * x.density / 8
     zero.fld (Reg.D5_STAT 7) F.D5_STAT_STATE < 2 ∧ (7 : Fin 8).val < boardByte (s 0 8 8 16) 9 ∧
       (boardByte (s 0 8 8 16) 8 ≠ 1 ∧ gib (s 0 8 8 16) ≤ 16 ∧ 16 < gib (s 0 8 8 32)) ∧
       (boardByte (s 1 8 8 16) 8 = 1 ∧ spdSupported (s 1 8 8 16) spd = true ∧ spdSupported (s 1 8 8 16) { spd with width := 16 } = false ∧
         ((setDdr (s 1 8 8 16) 0 { ddrCtl zero 0 with spd := some { spd with density := 24 } }).d5[(0 : Fin 8)]).spd.any (· != spd) = true)) ∧
    (let s (k : Nat) := mapped (setDdr (put [(Reg.D5_CTL 1, F.D5_CTL_SCRUB_EN, 1)] zero) 1
       { ddrCtl zero 1 with scrubAt := k, sparing := [⟨0, 5⟩] })
     (s 0).fld (Reg.D5_CTL 1) F.D5_CTL_SCRUB_EN = 1 ∧ (s 0).fld Reg.D5_MAP F.D5_MAP_READY = 1 ∧ 1 < ddrChannels (s 0) ∧
       (ddrCtl (s 0) 1).scrubAt + 1 < scrubUnits (s 0) ∧
       scrubUnits (s (scrubUnits (s 0) - 1)) ≤ (ddrCtl (s (scrubUnits (s 0) - 1)) 1).scrubAt + 1 ∧
       (ddrCtl (s 0) 1).sparing = [⟨0, 5⟩] ∧ (ddrCtl (s 0) 1).moved = [] ∧ (s 0).errs = []) ∧
    zero.fld (Reg.D5_CFG 7) F.D5_CFG_MODULE = 0 ∧
    (put [(Reg.D5_CFG 7, F.D5_CFG_MODULE, 1)] zero).fld (Reg.D5_CFG 7) F.D5_CFG_MODULE = 1 := by decide +kernel

/-- A raise of source 1,023, the hub with fields of that source set. -/
def raised (l : List (Nat × Fld × Nat)) : State :=
  { put l zero with raises := [⟨1023, 9, 31, 5⟩] }

/-- Source 1,023 is pending for the Keeper and for the abutment. -/
def pendingBoth : State := raised [(Reg.EH_SRC 1023, F.EH_SRC_K_EN, 1), (Reg.EH_PEND 1023, F.EH_PEND_KPEND, 1),
  (Reg.EH_PEND 1023, F.EH_PEND_APEND, 1), (Reg.EH_SRC 1023, F.EH_SRC_VEC, 64)]

theorem witness_HubCommandsComplete :
    ((raised []).raises = [⟨1023, 9, 31, 5⟩] ∧ 
      (raised []).fld (Reg.EH_SRC 1023) F.EH_SRC_K_EN = 0 ∧ (raised []).fld (Reg.EH_SRC 1023) F.EH_SRC_ABUT = 0 ∧
      (raised []).fld (Reg.EH_SRC 1023) F.EH_SRC_OUT_EN = 0 ∧ (raised []).fld (Reg.EH_SRC 1023) F.EH_SRC_SPC_EN = 0) ∧
    (pendingBoth.fld (Reg.EH_SRC 1023) F.EH_SRC_K_EN = 1 ∧ pendingBoth.fld (Reg.EH_SRC 1023) F.EH_SRC_OUT_EN ≠ 1 ∧
      pendingBoth.fld (Reg.EH_SRC 1023) F.EH_SRC_SPC_EN ≠ 1) ∧
    (let s := raised [(Reg.EH_SRC 1023, F.EH_SRC_OUT_EN, 1), (Reg.EH_SRC 1023, F.EH_SRC_OUT, 31), (Reg.SO_CTL 15 1, F.SO_CTL_MODE, 4)]
     s.fld (Reg.EH_SRC 1023) F.EH_SRC_OUT_EN = 1 ∧ soMode s (Fin.ofNat 32 (s.fld (Reg.EH_SRC 1023) F.EH_SRC_OUT)) = 4 ∧
       s.tm.actions.length + s.tm.marks.length < 256 ∧ s.fld (Reg.EH_SRC 1023) F.EH_SRC_K_EN ≠ 1 ∧
       s.fld (Reg.EH_SRC 1023) F.EH_SRC_ABUT ≠ 1 ∧ s.fld (Reg.EH_SRC 1023) F.EH_SRC_SPC_EN ≠ 1) ∧
    soMode (raised []) (Fin.ofNat 32 ((raised []).fld (Reg.EH_SRC 1023) F.EH_SRC_OUT)) ≠ 4 ∧
    (let s (n : Nat) := raised [(Reg.EH_SRC 1023, F.EH_SRC_SPC_EN, 1), (Reg.EH_SRC 1023, F.EH_SRC_ROLE, 15), (Reg.PL_ROLE 15, F.PL_ROLE_PHYS, n)]
     (s 16).fld (Reg.EH_SRC 1023) F.EH_SRC_SPC_EN = 1 ∧ pairOf (s 16) ((s 16).fld (Reg.EH_SRC 1023) F.EH_SRC_ROLE) = some 16 ∧
       pairOf (s 31) ((s 31).fld (Reg.EH_SRC 1023) F.EH_SRC_ROLE) = none ∧ (s 16).fld (Reg.EH_SRC 1023) F.EH_SRC_K_EN ≠ 1) ∧
    (pendingBoth.fld (Reg.EH_PEND 1023) F.EH_PEND_APEND = 1 ∧
      (∀ y, y < 1024 → y ≠ 1023 → pendingBoth.fld (Reg.EH_PEND y) F.EH_PEND_APEND = 1 → sourceBefore pendingBoth 1023 y = true)) ∧
    (let s : State := { pendingBoth with ab := { pendingBoth.ab with up := true } }
     s.ab.up = true ∧ epState s 77 = 0 ∧ epState s 43 = 0 ∧ ({ s with ab := { s.ab with up := false } } : State).ab.up = false) ∧
    ((0x80000000 : BitVec 32).getLsbD 31 = true ∧ F.EH_SRC_VEC.get 0x80000000 = 0) ∧
    (eventClass (1023 : Fin 1024) = 0 ∨ ¬ (F.EH_SRC_VEC.get (F.EH_SRC_VEC.put 0x80000000 1) = 0)) := by decide +kernel

/-- Keeper 0 runs at a level, source 1,023 being eligible there with vector 64. -/
def called (level ei src : Nat) : State :=
  put [(Reg.KP_CTL 0, F.KP_CTL_RUN, 1), (Reg.KP_CTL 0, F.KP_CTL_EI, ei), (Reg.KP_STAT 0, F.KP_STAT_LEVEL, level),
    (Reg.EH_SRC src, F.EH_SRC_K_EN, 1), (Reg.EH_PEND src, F.EH_PEND_KPEND, 1), (Reg.EH_SRC src, F.EH_SRC_VEC, 64),
    (Reg.KP_C0_LIMIT 0, F.KP_C0_LIMIT_LIMIT, 1)] zero

/-- A staged block of the owner, and Keeper 0 held for it. -/
def ownerBlock : OwnerBlock := ⟨[1, 2, 3], [(64, 0x20000), (255, 0x20004)], []⟩
def held : State := { put [(Reg.KP_CTL 0, F.KP_CTL_OWN_HOLD, 1)] zero with ownerStage := some ownerBlock }

theorem witness_KeeperLevelCommandsComplete :
    (kpRun (called 1 1 1016) 0 = true ∧ eligible (called 1 1 1016) 0 1016 = true ∧
      (∀ y, y < 1024 → y ≠ 1016 → eligible (called 1 1 1016) 0 y = true → sourceBefore (called 1 1 1016) 1016 y = true) ∧
      LocalClean (called 1 1 1016) 0 ∧ inAccess (called 1 1 1016) 0 = false ∧ (keeper (called 1 1 1016) 0).firm = false ∧ eventClass 1016 ≠ 0 ∧ kpLevel (called 1 1 1016) 0 = 1 ∧
      (called 1 1 1016).fld (Reg.KP_CTL 0) F.KP_CTL_EI = 1 ∧ kpLevel (called 2 1 1016) 0 ≠ 1) ∧
    (eventClass 1 = 0 ∧ eligible (called 2 0 1) 0 1 = true ∧ kpLevel (called 2 0 1) 0 = 2) ∧
    kpRun zero 0 = false ∧ (∀ y, y < 1024 → eligible zero 0 y = false) ∧
    (let s := late 3 (called 3 0 0)
     kpLevel s 0 = 3 ∧ s.fld (Reg.KP_C0_LIMIT 0) F.KP_C0_LIMIT_LIMIT ≠ 0 ∧ (keeper s 0).long = false ∧
       (keeper s 0).began.toNat * 2 + s.fld (Reg.KP_C0_LIMIT 0) F.KP_C0_LIMIT_LIMIT * 5 ≤ s.now.toNat * 2 ∧
       ¬ (keeper s 0).began.toNat * 2 + s.fld (Reg.KP_C0_LIMIT 0) F.KP_C0_LIMIT_LIMIT * 5 ≤ (late 2 s).now.toNat * 2) ∧
    LocalClean zero 0 ∧ zero.ownerStage = none ∧ inAccess zero 0 = false ∧
    (held.ownerStage = some ownerBlock ∧ held.fld (Reg.KP_CTL 0) F.KP_CTL_OWN_HOLD = 1 ∧ noOwnerLevel held 0 = true ∧
      ownerBlock.half.length ≤ 0x20000 ∧ (∀ v ∈ ownerBlock.vectors, 64 ≤ v.1 ∧ v.1 < 256) ∧
      (ownerBlock.vectors.map (·.1)).Nodup) := by
  simp only [LocalClean]
  decide +kernel

/-- Keeper 2 runs the standard firmware at BASE level, an event of class 0 eligible for one of its vectors. -/
def standardCalled (src vec : Nat) : State :=
  let s := put [(Reg.KP_CTL 2, F.KP_CTL_RUN, 1), (Reg.KP_STAT 2, F.KP_STAT_LEVEL, 1), (Reg.EH_SRC src, F.EH_SRC_K_EN, 1),
    (Reg.EH_SRC src, F.EH_SRC_KEEPER, 2), (Reg.EH_PEND src, F.EH_PEND_KPEND, 1), (Reg.EH_SRC src, F.EH_SRC_VEC, vec),
    (Reg.PL_PHYS 0, F.PL_PHYS_ROLE, 3), (Reg.PL_ROLE 16, F.PL_ROLE_PHYS, 16), (Reg.PL_STAT, F.PL_STAT_SBY, 2), (Reg.SPC_STAT 0, F.SPC_STAT_STATE, 0)] zero
  { s with kp := s.kp.set 2 { keeper s 2 with firm := true } }

theorem witness_StandardHandlers :
    (∀ v ∈ [2, 4, 5, 6], let s := standardCalled 1 v
      kpRun s 2 = true ∧ eligible s 2 1 = true ∧
      (∀ y, y < 1024 → y ≠ 1 → eligible s 2 y = true → sourceBefore s 1 y = true) ∧ LocalClean s 2 ∧ eventClass 1 = 0 ∧ kpLevel s 2 = 1 ∧
      (keeper s 2).firm = true ∧ standardVector 2 v = true ∧ kpOwner s 2 = false ∧ inAccess s 2 = false ∧
      (keeper s 2).posted = [] ∧ epState s (39 + 2) = 0) ∧
    (let s := standardCalled 1 2
     affectedPair s 1 = some 0 ∧ s.pl.take = none ∧ s.roleOf 0 < 16 ∧ plUse s 0 ≠ 5 ∧ standbyFree s = true ∧
       spcState s (lead s 0) < 2 ∧ (s.ctl (lead s 0)).snap = none) := by
  simp only [LocalClean]
  decide +kernel

/-- Keeper 0 runs a word at PC 0x800 (firmware) or 0x20800 (owner), at a level, with other contents. -/
def running (own : Bool) (level w : Nat) (f : Keeper → Keeper) : State :=
  let pc := if own then 0x20800 else 0x800
  let s := put [(Reg.KP_CTL 0, F.KP_CTL_RUN, 1), (Reg.KP_STAT 0, F.KP_STAT_LEVEL, level), (Reg.KP_STAT 0, F.KP_STAT_MODE, own.toNat)] zero
  let s := (s.writeLE (Win.keeper 0 + pc) 4 w).setReg (Reg.KP_PC 0) (BitVec.ofNat 32 pc)
  { s with kp := s.kp.set 0 (f (keeper s 0)) }

/-- A word of an operation, with MODE, SEL and DISP. -/
def kw (op mode sel disp : Nat) : Nat := op * 2 ^ 24 + mode * 2 ^ 22 + sel * 2 ^ 16 + disp

/-- `KeeperAt` of a running Keeper and the word it runs. -/
abbrev runs (own : Bool) (level w : Nat) (f : Keeper → Keeper) : Prop :=
  KeeperAt (running own level w f) 0 (KeeperWord.ofNat w)

theorem witness_KeeperMoves :
    (∀ op ∈ [1, 2, 3, 4, 5, 6, 7, 8, 9, 10, 11, 12, 0x0D, 0x40, 0x41, 0x42, 0x43, 0x44, 0x45, 0x46, 0x48, 0x4E, 0x4F, 0x50, 0x51,
      0x52, 0x53, 0x54, 0x55, 0x56, 0x57, 0x58, 0x59, 0x6F], runs false 1 (kw op 0 15 0xFFFC) id ∧
      (KeeperWord.ofNat (kw op 0 15 0xFFFC)).op = op ∧ (KeeperWord.ofNat (kw op 0 15 0xFFFC)).sel < 16) ∧
    KeeperReads (running false 1 (kw 5 0 0 0xFFFC) id) 0 (keeperEa (running false 1 (kw 5 0 0 0xFFFC) id) 0 (KeeperWord.ofNat (kw 5 0 0 0xFFFC))) 4 0 ∧
    (runs false 1 0xFF000000 id ∧ illegalWord (running false 1 0xFF000000 id) 0 (KeeperWord.ofNat 0xFF000000) = true) := by
  simp only [runs, KeeperAt, KeeperReads, LocalClean]
  decide +kernel

/-- Keeper 0 loads through X, with stores posted and words read. -/
def loading (own : Bool) (disp x : Nat) (p : List (BitVec 8)) (r : List Nat) : State :=
  running own 1 (kw 5 1 0 disp) (fun y => { y with x := BitVec.ofNat 32 x, posted := p, reads := r })

/-- Its effective address. -/
def loadsAt (disp : Nat) (s : State) : Nat := (keeperEa s 0 (KeeperWord.ofNat (kw 5 1 0 disp))).toNat

theorem witness_KeeperLoads :
    (∀ c ∈ [(true, 0xFFFF, 0x40000), (true, 0xFFFC, 0x20000), (false, 0, 0x40100), (false, 0, 0xBFFFFFFC)],
      KeeperAt (loading c.1 c.2.1 c.2.2 [] []) 0 (KeeperWord.ofNat (kw 5 1 0 c.2.1))) := by
  simp only [KeeperAt, LocalClean]
  decide +kernel

theorem witness_KeeperMoveInstructions :
    (let a := loadsAt 0xFFFF (loading true 0xFFFF 0x40000 [] [])
     a < 0x40000 ∧ a % 4 ≠ 0 ∧ 0x20000 ≤ a) ∧
    (let s := loading true 0xFFFC 0x20000 [] []
     loadsAt 0xFFFC s < 0x20000 ∧ loadsAt 0xFFFC s % 4 = 0 ∧ kpOwner s 0 = true) ∧
    (let s := loading false 0 0x40100 [] []
     keeperSite s 0 (loadsAt 0 s) = .unmapped ∧ loadsAt 0 s % 4 = 0) ∧
    (let s := loading false 0 0xBFFFFFFC [] []
     loadsAt 0 s % 4 = 0 ∧ (causewaySite s 0 (loadsAt 0 s)).isSome = true ∧ epState s (39 + (0 : Fin 4).val) = 0 ∧
       (keeper (loading false 0 0xBFFFFFFC (List.replicate 8 0) []) 0).posted.length = 8) ∧
    (let s := loading false 0 0xBFFFFFFC [] [7]
     (keeper s 0).wait = none ∧ (keeper s 0).reads = [7] ∧ kpRun s 0 = true ∧ runsStandard s 0 = false ∧ s.errs = [] ∧
       s.fld (Reg.KP_STAT 0) F.KP_STAT_WAITING = 0 ∧ inCodeArea s 0 (kpPc s 0).toNat = true ∧
       KeeperWord.ofNat (s.readLE (Win.keeper 0 + (kpPc s 0).toNat) 4) = KeeperWord.ofNat (kw 5 1 0 0)) := by decide +kernel

theorem witness_KeeperArithmeticInstructions :
    (∀ b < 0x0F, let op := 0x30 + b
      runs false 1 (kw op 0 0 0xFFFF) id ∧ ¬ op < 0x20 ∧ (KeeperWord.ofNat (kw op 0 0 0xFFFF)).simm = 0xFFFFFFFF ∧ op < 0x40) ∧
    (let w := kw 0x1B 0 0 0x900
     let s := running false 1 w id
     KeeperAt s 0 (KeeperWord.ofNat w) ∧ (KeeperWord.ofNat w).op < 0x20 ∧
       KeeperReads s 0 (keeperEa s 0 (KeeperWord.ofNat w)) 4 0) := by
  simp only [runs, KeeperAt, KeeperReads, LocalClean]
  decide +kernel

/-- A frame of BASE level. -/
def baseFrame : KeeperFrame := ⟨1, 0x900, 0, 0, 0, 0, 0x8000, false, 0, []⟩

theorem witness_KeeperControlWords :
    (∀ op ∈ [0x60, 0x61, 0x62, 0x63, 0x66, 0x67], runs false 1 (kw op 0 1 8) (fun x => { x with sp := 0x10000 }) ∧
      (KeeperWord.ofNat (kw op 0 1 8)).sel < 15) ∧
    runs false 1 (kw 0x61 1 0 0) (fun x => { x with x := 0x40000 }) ∧
    runs true 1 (kw 0x62 1 0 0) (fun x => { x with sp := 0x40000, x := 0x4FF }) ∧
    runs false 2 (kw 0x66 0 1 0) (fun x => { x with sp := 0, frames := [baseFrame] }) ∧
    runs false 2 (kw 0x64 0 0 0) (fun x => { x with frames := [baseFrame] }) ∧ runs false 1 (kw 0x65 0 0 0) id := by
  simp only [runs, KeeperAt, LocalClean]
  decide +kernel

theorem witness_KeeperControlInstructions :
    (let s := running false 1 (kw 0x60 0 1 8) (fun x => { x with f := 4 })
     brTaken (keeper s 0).f 1 = true ∧ (kpNext s 0 + 4 * (KeeperWord.ofNat (kw 0x60 0 1 8)).simm).toNat < 0x40000 ∧
       brTaken (keeper (running false 1 (kw 0x60 0 1 8) id) 0).f 1 = false ∧
       0x40000 ≤ (kpNext s 0 + 4 * (KeeperWord.ofNat (kw 0x60 0 1 0x8000)).simm).toNat) ∧
    (let s := running false 1 (kw 0x61 1 0 0) (fun x => { x with x := 0x40000 })
     0x40000 ≤ (keeperEa s 0 (KeeperWord.ofNat (kw 0x61 1 0 0))).toNat) ∧
    (let s := running false 1 (kw 0x62 0 15 8) (fun x => { x with sp := 0x10000 })
     (keeper s 0).sp.toNat % 4 = 0 ∧ 4 * 5 ≤ (keeper s 0).sp.toNat ∧ (pushList (keeper s 0) 15).length = 4 ∧
       ∀ j, j < 5 → pushAllowed s 0 ((keeper s 0).sp - BitVec.ofNat 32 (4 * (j + 1))) = true) ∧
    (let w := kw 0x62 1 0 0
     let s := running true 1 w (fun x => { x with sp := 0x40000, x := 0x4FF })
     let bad := s.writeLE (Win.keeper 0 + 0x4FC) 4 0x40000
     kpOwner s 0 = true ∧
       0x400 ≤ (keeperEa s 0 (KeeperWord.ofNat w)).toNat ∧ (keeperEa s 0 (KeeperWord.ofNat w)).toNat ≤ 0x4FF ∧
       pushAllowed s 0 (0x40000 - 4) = true ∧ s.readLE (Win.keeper 0 + 0x4FC) 4 < 0x40000 ∧
       0x40000 ≤ bad.readLE (Win.keeper 0 + 0x4FC) 4) ∧
    (let w := kw 0x66 0 1 0
     let s (level : Nat) := running false level w (fun x => { x with sp := 0, frames := [baseFrame] })
     pushAllowed (s 2) 0 ((keeper (s 2) 0).sp - 4) = false ∧
       kpLevel (s 2) 0 = 2 ∧ (keeper (s 2) 0).frames = [baseFrame] ∧ baseFrame.level < 4 ∧ baseFrame.vec < 256 ∧ kpLevel (s 1) 0 = 1) ∧
    (let s := running false 1 (kw 0x67 0 15 0) (fun x => { x with sp := 0x40000 - 16 })
     (keeper s 0).sp.toNat + 4 * (popList 15).length ≤ 0x40000 ∧ (keeper s 0).sp.toNat % 4 = 0 ∧ kpOwner s 0 = false) ∧
    (let s := (running false 1 (kw 0x63 0 0 0) (fun x => { x with sp := 0x10000 })).writeLE (Win.keeper 0 + 0x10000) 4 0x8F000903
     s.readLE (Win.keeper 0 + (keeper s 0).sp.toNat) 4 / 2 ^ 24 % 16 = 15 ∧ (keeper s 0).sp.toNat + 4 + 4 * (popList 15).length ≤ 0x40000) ∧
    (let w := kw 0x64 0 0 0
     let s := running false 2 w (fun x => { x with frames := [baseFrame] })
     kpLevel s 0 ≠ 1 ∧ (keeper s 0).frames = [baseFrame] ∧
       nextEvent s 0 baseFrame.level = none) ∧
    kpLevel (running false 1 (kw 0x65 0 0 0) id) 0 = 1 ∧
    (let s (level vec : Nat) (todo : List (Nat × List Byte)) := put [(Reg.KP_STAT 0, F.KP_STAT_VEC, vec)] (running false level (kw 0x65 0 0 0)
       (fun x => { x with firm := true, todo := todo, frames := [baseFrame] }))
     runsStandard (s 1 0 []) 0 = true ∧ kpRun (s 1 0 []) 0 = true ∧ kpLevel (s 1 0 []) 0 = 1 ∧ runsStandard (s 2 3 []) 0 = true ∧
       2 ≤ kpLevel (s 2 3 []) 0 ∧ (keeper (s 2 3 []) 0).todo = [] ∧ (keeper (s 2 3 [(0, [])]) 0).todo ≠ [] ∧
       (keeper (s 2 3 []) 0).frames = [baseFrame] ∧ nextEvent (s 2 3 []) 0 baseFrame.level = none) := by decide +kernel

/-! ## Hypotheses of the statements on images, placement, boot and the mailbox -/

/-- Boot stands in a state of R380. -/
def booted (st : Nat) : State := put [(Reg.ABT_STAT, F.ABT_STAT_BOOT, st)] zero

/-- A whole image as it stands in the store, without sections. -/
def wholeImage : Image := ⟨1, 0, 1, 0, 0, [], [], []⟩

theorem witness_ImageLoadCommandsComplete :
    (∀ l, l < 16 → roleState (booted 6) l ≠ 1 ∧ roleState (booted 6) l ≠ 3) ∧
    (let s := put [(Reg.PL_ROLE 15, F.PL_ROLE_STATE, 3)] (booted 5)
     roleState s 15 = 3 ∧ bootState s = 5) ∧ bootState (booted 6) = 6 ∧ bootState zero ≠ 5 ∧ bootState zero ≠ 6 ∧
    headerFormed 0x314C5255 [1, 2] [] = false ∧
    (let s : State := { booted 6 with ab := { zero.ab with up := true } }
     s.ab.up = true ∧ bootState s = 6 ∧ wholeFault s [] = some (1, 255) ∧ zero.ab.up = false) ∧
    (let s := put [(Reg.PL_ROLE 16, F.PL_ROLE_PHYS, 16), (Reg.ARR_STAT 16, F.ARR_STAT_FLAGGED, 1)] zero
     standby s = some 16 ∧ s.fld (Reg.ARR_STAT 16) F.ARR_STAT_FLAGGED = 1) ∧
    (bootState (booted 3) = 3 ∧ (booted 3).pl.image = none ∧
      (bootSlot (chooseRotation (booted 3)) 2 (fun s bs => (wholeFault s bs).isNone)).1 = none) ∧
    bootState zero ≠ 3 ∧ sby zero ≠ 1 ∧ partialFault zero [] = .inl (1, 255) := by decide +kernel

/-- A change of role 0 from pair 3 to pair 16 stands in a state of PL_CHANGE; span 16 has processed lines. -/
def changeTo (going : Bool) : Change := ⟨⟨2, 0, 1, 0, 0, [], [], []⟩, 0, 3, 16, 2, 0, going⟩
def changing (st syncs : Nat) (going : Bool) : State :=
  let s := put [(Reg.PL_CHANGE, F.PL_CHANGE_STATE, st), (Reg.PL_ROLE 0, F.PL_ROLE_PHYS, 3), (Reg.PL_ROLE 0, F.PL_ROLE_HIST, 8)] zero
  let s := (s.setReg Reg.PL_SWITCH_LO 7).setCtl 16 { zero.ctl 16 with syncs := syncs, served := some someLine }
  { s with pl := { s.pl with change := some (changeTo going) } }

theorem witness_PlannedChangeCommandsComplete :
    zero.pl.change = none ∧
    (let c := changeTo false
     (changing 2 8 false).pl.change = some c ∧ (changing 2 8 false).fld Reg.PL_CHANGE F.PL_CHANGE_STATE = 2 ∧
       ((changing 2 8 false).ctl c.new).syncs < (changing 2 8 false).fld (Reg.PL_ROLE c.role) F.PL_ROLE_HIST + 1 ∧
       (changing 2 9 false).fld (Reg.PL_ROLE c.role) F.PL_ROLE_HIST + 1 ≤ ((changing 2 9 false).ctl c.new).syncs ∧
       (changing 2 9 false).pl.test = none ∧ (changing 2 9 false).up.current = none ∧
       ({ changing 2 9 false with pl := { (changing 2 9 false).pl with test := some 3 } } : State).pl.test ≠ none ∧
       (changing 3 9 false).fld Reg.PL_CHANGE F.PL_CHANGE_STATE = 3 ∧ c.going = false) ∧
    (let c := changeTo true
     let s := changing 3 9 true
     s.pl.change = some c ∧ c.going = true ∧ (s.ctl (lead s c.new)).served = some someLine ∧
       (s.reg64 Reg.PL_SWITCH_LO Reg.PL_SWITCH_HI).toNat ≤ someLine.index.toNat ∧
       (∀ e ∈ (s.ext c.old).sets, ¬(e.ord = none ∧ e.line.toNat < 7)) ∧ (s.ext c.old).out = [] ∧ (s.ext c.old).sent = [] ∧
       wordsUnderWay s c.old = [] ∧ (s.micro (lead s c.old)).op = none ∧ (s.micro (lead s c.new)).op = none ∧ c.old ≠ c.new ∧ c.bank < 4 ∧
       allRegs c.image = []) := by decide +kernel

/-- Role 0 on pair 3, the standby on pair 16, SBY and STATE as given, the role in a state. -/
def placedRole (sb st role : Nat) : State :=
  put [(Reg.PL_ROLE 0, F.PL_ROLE_PHYS, 3), (Reg.PL_ROLE 16, F.PL_ROLE_PHYS, 16), (Reg.PL_STAT, F.PL_STAT_SBY, sb),
    (Reg.PL_STAT, F.PL_STAT_STATE, st), (Reg.PL_ROLE 0, F.PL_ROLE_STATE, role)] zero

/-- A takeover of role 0 from pair 3 to pair 16. -/
def taking (ready switched done fail go : Bool) : State :=
  let s := put [(Reg.CKPT_REST 16, F.CKPT_REST_GO, go.toNat), (Reg.CKPT_REST 16, F.CKPT_REST_FAIL, fail.toNat)] (placedRole 4 3 3)
  let s := (s.setCtl 16 { zero.ctl 16 with served := some someLine })
  { s with pl := { s.pl with take := some ⟨0, 3, 0, 6, 9, [⟨0, 3, 16, 7, none, done⟩], ready, switched⟩ } }

theorem witness_TakeoverCommandsComplete :
    (plState (placedRole 1 3 1) = 3 ∧ 16 ≤ (16 : Fin 32).val ∧ pairOf zero 0 = none) ∧
    (let s := placedRole 1 1 2
     plState s ≠ 3 ∧ pairOf s 0 = some 3 ∧ domSize s 0 = 1 ∧ s.fld (Reg.PL_ROLE 0) F.PL_ROLE_POS = 0 ∧ s.pl.change = none ∧
       sby s = 1 ∧ standby s = some 16 ∧ s.fld (Reg.ARR_STAT 16) F.ARR_STAT_FLAGGED = 0 ∧ sby (placedRole 2 1 2) ≠ 1 ∧
       (put [(Reg.FH_CTL, F.FH_CTL_AUTO_RESUME, 1)] s).fld Reg.FH_CTL F.FH_CTL_AUTO_RESUME = 1 ∧
       zero.fld Reg.FH_CTL F.FH_CTL_AUTO_RESUME = 0 ∧ roleState s 0 = 2 ∧ (∀ r, r < 0 → roleState s r ≠ 2)) ∧
    (let s (bank : Nat) := put [(Reg.PL_ROLE 0, F.PL_ROLE_BANK, bank)] { placedRole 2 2 1 with pl := { zero.pl with change := some (changeTo false) } }
     plState (s 2) ≠ 3 ∧ pairOf (s 2) 0 = some 3 ∧ domSize (s 2) 0 = 1 ∧ (s 2).fld (Reg.PL_ROLE 0) F.PL_ROLE_POS = 0 ∧
       (s 2).pl.change = some (changeTo false) ∧ (s 2).fld (Reg.ARR_STAT (changeTo false).new) F.ARR_STAT_FLAGGED = 0 ∧
       (changeTo false).bank = (s 2).fld (Reg.PL_ROLE 0) F.PL_ROLE_BANK ∧ (changeTo false).bank ≠ (s 1).fld (Reg.PL_ROLE 0) F.PL_ROLE_BANK) ∧
    (∀ l, l < 16 → roleState zero l ≠ 2) ∧ zero.pl.take = none := by decide +kernel

theorem witness_TakeoverSteps :
    (∃ k x, (taking false false false true false).pl.take = some k ∧ k.shifts = [x] ∧ x.role < 16 ∧ k.ready = false ∧
      (taking false false false true false).fld (Reg.CKPT_REST x.new) F.CKPT_REST_GO = 0 ∧
      (taking false false false true false).fld (Reg.CKPT_REST x.new) F.CKPT_REST_FAIL = 1 ∧
      (taking false false false false false).fld (Reg.CKPT_REST x.new) F.CKPT_REST_FAIL = 0 ∧
      (taking false false false false true).fld (Reg.CKPT_REST x.new) F.CKPT_REST_GO = 1) ∧
    (∃ k x, (taking true false false false false).pl.take = some k ∧ k.shifts = [x] ∧ k.ready = true ∧ x.done = false ∧
      (let s := put [(Reg.SPC_STAT 16, F.SPC_STAT_STATE, 0)] (taking true false false false false)
       let h := put [(Reg.PL_ROLE 0, F.PL_ROLE_HEAD_EN, 1)] s
       let live := h.setRegion 16 { zero.region 16 with stamps := [⟨7, 0, 0, false, [], 0⟩] }
       let src := setSlotState (h.writeLE (Win.slotDesc 3 0) 8 7) 3 0 2
       spcState s x.new ≠ 3 ∧ s.fld (Reg.RP_STAT x.new) F.RP_STAT_BUSY = 0 ∧ headOfRole s x.role = none ∧
         headOfRole h x.role ≠ none ∧ x.live.or (firstLive live x.new) = some 7 ∧ (7 : BitVec 64).toNat ≤ x.next.toNat ∧
         x.live.or (firstLive src x.new) = none ∧ 0 < copyCount src x.old none 8 x.next) ∧
      k.switched = false ∧ k.failed ≠ x.new ∧
      ((taking true false false false false).ctl (lead (taking true false false false false) x.new)).served = some someLine ∧
      k.line.toNat < someLine.index.toNat ∧ (k.shifts.map (·.role)).Nodup ∧ (k.shifts.map (·.new)).Nodup ∧
      (∀ y ∈ k.shifts, ((taking true false false false false).micro (lead (taking true false false false false) y.old)).op = none ∧
        ((taking true false false false false).micro (lead (taking true false false false false) y.new)).op = none)) ∧
    (∃ k x, (taking true true true false false).pl.take = some k ∧ k.shifts = [x] ∧ k.switched = true ∧ x.done = true ∧
      epState (taking true true true false false) k.failed = 0) :=
  ⟨⟨_, _, rfl, rfl, by decide +kernel⟩, ⟨_, _, rfl, rfl, by decide +kernel⟩, ⟨_, _, rfl, rfl, by decide +kernel⟩⟩

theorem witness_PairTestCommandsComplete :
    (let s := placedRole 1 1 1
     s.fld Reg.PL_TEST F.PL_TEST_GO = 0 ∧ sby s = 1 ∧ plState s = 1 ∧ plUse s 16 = 0 ∧ standby s = some 16 ∧
       plUse (put [(Reg.PL_PHYS 16, F.PL_PHYS_USE, 2)] s) 16 = 2 ∧ sby (placedRole 2 1 1) ≠ 1 ∧
       plUse (put [(Reg.PL_PHYS 16, F.PL_PHYS_USE, 6)] s) 16 = 6) ∧
    (let s := { put [(Reg.PL_PHYS 16, F.PL_PHYS_USE, 4)] (placedRole 1 4 1) with pl := ⟨none, none, none, some 16, [], []⟩ }
     s.pl.test = some 16 ∧ plUse s 16 = 4 ∧ s.fld (Reg.ARR_STAT 16) F.ARR_STAT_FLAGGED = 0 ∧
       (put [(Reg.ARR_STAT 16, F.ARR_STAT_FLAGGED, 1)] s).fld (Reg.ARR_STAT 16) F.ARR_STAT_FLAGGED = 1) ∧
    (let g : Image := ⟨1, 0, 1, 0, 0, [], [], [⟨4, 0, [], []⟩]⟩
     let s := { put [(Reg.PL_PHYS 3, F.PL_PHYS_USE, 1), (Reg.PL_PHYS 3, F.PL_PHYS_ROLE, 0)] (placedRole 1 1 1) with
       pl := { zero.pl with image := some g } }
     plUse s 3 = 1 ∧ s.roleOf 3 = 0 ∧ domSize s (s.roleOf 3) = 1 ∧ standby s = some 16 ∧ (storedRegion s (s.roleOf 3)).isSome = true ∧
       s.pl.image = some g) := by decide +kernel

/-- The die in other contents, boot in a state. -/
def die (st : Nat) (f : Abut → Abut) : State := { booted st with ab := f zero.ab }

/-- The firmware runs. -/
def dieUp : State := die 5 (fun a => { a with up := true })

/-- A board record of two channels that the device accepts while it has no owner. -/
def boardRecord : List Byte :=
  leBytes 4 0x31445242 ++ leBytes 2 1 ++ leBytes 2 256 ++ [1, 2, 0, 0, 0, 0] ++ List.replicate 242 0

/-- Group 0 has head 0, which is not yet ready, and HEADS began at time 0. -/
def awaiting : State := (booted 4).setReg (Reg.TG_HEADS 0) 1

theorem witness_BootCommandsComplete :
    (zero.pk.inReset = false ∧ zero.ab.halt = false ∧ zero.ab.up = false ∧ bootState zero = 0 ∧
      (∀ i, i < 2 → slotMark zero i ≠ 1 ∧ slotMark zero i ≠ 2 ∧ slotMark zero i ≠ 3)) ∧ (8 : Fin 9).val ≠ 0 ∧
    (bootState (die 1 id) = 1 ∧ (die 1 id).ab.halt = false ∧ (die 1 id).fh.repairs = [] ∧ boardGood (die 1 id) = false ∧
      boardGood (die 1 (fun a => { a with board := boardRecord })) = true ∧ recNat boardRecord 9 1 = 2) := by decide +kernel

theorem witness_BootOfRolesAndGroups :
    (let s := { booted 3 with pl := { zero.pl with image := some wholeImage } }
     bootState s = 3 ∧ s.pl.image ≠ none ∧ (∀ l, l < 16 → ∀ m, pairOf s l = some m → storedRegion s l ≠ none → rgState s m = 2) ∧
       s.up.lost = none ∧ (∀ g : Fin 8, tgHeads s g ≠ [] → tgState s g ≠ 0)) ∧
    (let s := awaiting
     bootState s = 4 ∧ tgHeads s 0 = [0] ∧ s.up.lost = none ∧ tgState s 0 = 0 ∧ hpState s 0 ≠ 7 ∧
       ¬ s.ab.headsAt.toNat + 2000000000 ≤ s.now.toNat ∧
       s.ab.headsAt.toNat + 2000000000 ≤ ({ s with now := 2000000000 } : State).now.toNat ∧
       (∀ h ∈ tgHeads s 0, hpState (put [(Reg.HP_STAT 0, F.HP_STAT_STATE, 7)] s) h = 7) ∧
       (∀ k : Fin 8, k ≠ 0 → tgHeads s k ≠ [] → tgState s k ≠ 0)) := by decide +kernel

theorem witness_BootLink :
    (dieUp.ab.up = true ∧ dieUp.up.leases = [] ∧ epState zero 77 = 0) ∧
    (let s := late 10000000 (die 5 (fun a => { a with linkLost := some 0 }))
     s.ab.linkLost = some 0 ∧ (0 : BitVec 64).toNat + 10000000 ≤ s.now.toNat ∧ (late 9999999 s).now.toNat < (0 : BitVec 64).toNat + 10000000) ∧
    bootState (die 1 id) = 1 ∧
    ((die 5 id).ab.up = false ∧ bootState (die 5 id) ≠ 0 ∧ (die 5 id).ab.halt = false ∧ (bootSlot (die 5 id) 0 firmwareGood).1 = none) ∧
    (put [(Reg.UCIE_STAT, F.UCIE_STAT_STATE, 2)] zero).fld Reg.UCIE_STAT F.UCIE_STAT_STATE = 2 ∧
    (die 5 id).fld Reg.UCIE_STAT F.UCIE_STAT_STATE ≠ 2 ∧ 2 ≤ bootState (die 5 id) ∧ bootState zero < 2 ∧
    epState (put [(Reg.CW_EP_STAT 77, F.CW_EP_STAT_STATE, 2)] dieUp) 77 = 2 := by decide +kernel

/-- A request in the request buffer of channel 7: OP, LEN, TAG 5 and a first byte; GO is set and the die runs. -/
def asked (op len first : Nat) : State :=
  let s := put [(Reg.MB_DOORBELL 7, F.MB_DOORBELL_GO, 1)] dieUp
  (((s.writeLE (Win.mbReq 7) 1 op).writeLE (Win.mbReq 7 + 2) 2 len).writeLE (Win.mbReq 7 + 4) 4 5).writeLE (Win.mbReq 7 + 8) 1 first

theorem witness_MailboxCommandsComplete :
    (∀ op ∈ [1, 2, 3, 4, 5], mbWaits (asked op 0 0) 7 op = true ∧ mbLen (asked op 0 0) 7 = 0) ∧
    (mbWaits (asked 3 48 0) 7 3 = true ∧ mbLen (asked 3 48 0) 7 = 48 ∧ locked (asked 3 48 0) = false ∧
      locked (put [(Reg.ABT_STAT, F.ABT_STAT_LOCKED, 1)] (asked 3 48 0)) = true) ∧
    (mbLen (asked 4 1 64) 7 = 1 ∧ (asked 4 1 64).readLE (Win.mbReq 7 + 8) 1 = 64 ∧ (asked 4 1 65).readLE (Win.mbReq 7 + 8) 1 = 65) ∧
    (mbLen (asked 5 64 0) 7 = 64 ∧ mbLen (asked 5 65 0) 7 = 65 ∧ 4 ≤ (7 : Fin 8).val) ∧
    (die 5 (fun a => { a with quotes := [⟨7, 5, []⟩] })).ab.quotes = [⟨7, 5, []⟩] ∧
    (die 5 (fun a => { a with answers := a.answers.set 7 (some [0x81, 0]) })).ab.answers[(7 : Fin 8)] = some [0x81, 0] ∧
    ((asked 6 0 0).ab.answers[(7 : Fin 8)] = none ∧ mbGo (asked 6 0 0) 7 = true ∧ (asked 6 0 0).ab.up = true ∧
      5 < mbOp (asked 6 0 0) 7 ∧ mbWaits (asked 6 0 0) 7 (mbOp (asked 6 0 0) 7) = true) ∧
    (let s := die 5 (fun a => { a with scopes := 1, debugEnd := 9 })
     s.now.toNat < s.ab.debugEnd.toNat ∧ s.ab.debugEnd.toNat ≤ ({ s with now := 9 } : State).now.toNat ∧ s.ab.scopes ≠ 0) := by
  decide +kernel

/-! ## Hypotheses of the statements on the line ports, the sessions and the streams -/

/-- An open session on port 0, with every window of WIN_R and WIN_W. -/
def session0 : Session :=
  { keys := [], cred := List.replicate 256 0xFF, budget := 1400, high := 0, seen := [], lastAccept := 0, rsp := 1, ntf := 1,
    recSeq := 1, crp := 1, kept := [], records := none, crops := none, events := none }

/-- Port 0 is enabled with its link up at 10.0.0.1/24, the firmware runs, and session 0 of peer 10.0.0.2 has rights. -/
def opened (rights : Nat) (f : Session → Session) : State :=
  let s := put [(Reg.LP_CTL 0, F.LP_CTL_EN, 1), (Reg.LP_STAT 0, F.LP_STAT_LINK, 1), (Reg.LP_CTL 0, F.LP_CTL_ICMP, 1),
    (Reg.RN_SESS_STAT 0, F.RN_SESS_STAT_RIGHTS, rights)] dieUp
  let s := (((s.setReg (Reg.LP_IP 0) 0x0A000001).setReg (Reg.LP_MASK 0) 0xFFFFFF00).setReg (Reg.RN_SESS_ID 0) 5).setReg
    (Reg.RN_SESS_PEER 0) 0x0A000002
  { s with rn := { s.rn with sessions := s.rn.sessions.set 0 (some (f session0)) } }

/-- A datagram of that session, and a COMMAND in it with REQ_ID 9. -/
def datagram (auth : Bool) : Sealed := ⟨0, 0x0A000002, 5, 1, auth⟩
def request (waiting : Nat) : Request := ⟨datagram true, 9, waiting⟩

/-- The state once the datagram has been accepted. -/
abbrev taken (s : State) : State := (accept s (datagram true)).2

theorem runsRequest_of {s : State} (h : (accept s (datagram true)).1 = some 0)
    (e : (session (taken s) 0).map (·.kept) = some []) : RunsRequest s (taken s) (request 3) 0 := by
  refine ⟨Prod.ext h rfl, by decide, fun x hx p hp => ?_⟩
  rw [hx, Option.map_some, Option.some.injEq] at e
  rw [e] at hp
  exact absurd hp List.not_mem_nil

theorem witness_RenerAccessCommandsComplete :
    (accept (opened 3 id) (datagram false)).1 = none ∧
    ((accept (opened 3 (fun x => { x with kept := [(9, [1])] })) (datagram true)).1 = some 0 ∧
      ((session (taken (opened 3 (fun x => { x with kept := [(9, [1])] }))) 0).map (·.kept.find? (fun p => p.1 == 9))) = some (some (9, [1]))) ∧
    RunsRequest (opened 3 id) (taken (opened 3 id)) (request 3) 0 ∧
    (let s1 := taken (opened 3 id)
     let body := leBytes 6 0x4000000000 ++ leBytes 2 1024
     body.length = 8 ∧ recNat body 0 5 = 0x4000000000 ∧ recNat body 6 2 = 1024 ∧ (sessRights s1 0).testBit 0 = true ∧
       (sessRights s1 0).testBit 1 = true ∧ windowGranted s1 0 48 0x4000000000 1024 = true ∧
       windowGranted s1 0 52 0x4000000000 1024 = true ∧ windowGranted s1 0 52 0x4000000000 4 = true ∧
       windowGranted s1 0 48 0x2000000000 4 = false ∧ windowGranted s1 0 52 0x2000000000 4 = false ∧ locked s1 = false ∧
       (sessRights (taken (opened 0 id)) 0).testBit 0 = false ∧ (sessRights (taken (opened 0 id)) 0).testBit 1 = false) ∧
    ((opened 0 id).ab.up = true ∧ queryServed (opened 0 id) 0 = true ∧ lpUp (opened 0 id) (0 : Fin 8) = true ∧
      reachable (opened 0 id) (0 : Fin 8) 0x0A000002 = true ∧
      (let s := { opened 0 id with rn := { zero.rn with queries := zero.rn.queries.set 0 (0, 16) } }
       queryServed s 0 = false)) :=
  ⟨by decide +kernel, by decide +kernel, runsRequest_of (by decide +kernel) (by decide +kernel), by decide +kernel, by decide +kernel⟩

/-- A settings generation with a credential floor. -/
def generation0 (floor : Nat) : Generation := ⟨1, 0, BitVec.ofNat 32 floor, [], [], [], [], true⟩

/-- A lease of a component by session 0, with blocks. -/
def lease (c : Nat) (blocks : List (Nat × List Byte)) : Lease := ⟨c, 7, 0, 0, 8, 300, 60, [], blocks, 0⟩

/-- The update service of a state in other contents. -/
def withUp (s : State) (f : Updates → Updates) : State := { s with up := f s.up }

theorem witness_RenerSessionCommandsComplete :
    RunsRequest (opened 0x1FF id) (taken (opened 0x1FF id)) (request 3) 0 ∧
    (∀ b, b < 9 → (sessRights (taken (opened 0x1FF id)) 0).testBit b = true ∧
      (sessRights (taken (opened 0 id)) 0).testBit b = false) ∧
    (let body := leBytes 1 4 ++ leBytes 9 0 ++ leBytes 2 1
     body.length = 12 ∧ recNat body 0 1 = 4 ∧ recNat body 10 2 ≠ 0) ∧
    (let body := leBytes 1 3 ++ leBytes 3 0 ++ leBytes 2 1023 ++ leBytes 2 1023 ++ leBytes 4 0
     body.length = 12 ∧ recNat body 0 1 = 3 ∧ recNat body 4 2 ≤ recNat body 6 2 ∧ recNat body 6 2 ≤ 1023) ∧
    tokenCause (taken (opened 0x1FF id)) [] ≠ 0 ∧
    (let s := withUp (opened 0x1FF id) (fun u => { u with gens := u.gens.set 3 (some (generation0 5)) })
     (leBytes 4 4).length = 4 ∧ recNat (leBytes 4 4) 0 4 < (credentialFloor s).toNat ∧
       (credentialFloor s).toNat ≤ recNat (leBytes 4 5) 0 4) ∧
    (∀ l ∈ (withUp zero (fun u => { u with leases := [lease 2 []] })).up.leases, l.comp < 24) ∧
    dirInForce zero = none ∧
    anyLease (withUp zero (fun u => { u with leases := [lease 2 []] })) = true ∧ anyLease zero = false ∧
    (let g : List Byte := List.replicate 448 0
     g.length = 448 ∧ (opened 0 id).ab.up = true ∧ queryServed (opened 0 id) 0 = true ∧ enrolCause (opened 0 id) g ≠ 0) ∧
    (session zero 0 = none ∧ session (opened 0 id) 0 = some session0 ∧
      (opened 0 id).now.toNat < session0.lastAccept.toNat + 30000000000 ∧
      session0.lastAccept.toNat + 30000000000 ≤ ({ opened 0 id with now := 30000000000 } : State).now.toNat) ∧
    (zero.fld Reg.TM_STAT F.TM_STAT_EPOCH_SET = 0 ∧
      (put [(Reg.TM_STAT, F.TM_STAT_EPOCH_SET, 1)] (opened 0 id)).fld Reg.TM_STAT F.TM_STAT_EPOCH_SET = 1 ∧
      (opened 0 id).up.leases = [] ∧ ¬ recNat session0.cred 32 8 < ptpSeconds (opened 0 id)) :=
  ⟨runsRequest_of (by decide +kernel) (by decide +kernel), by decide +kernel⟩

/-- An ARP request for 10.0.0.1. -/
def arpFrame : List Byte :=
  [0xFF, 0xFF, 0xFF, 0xFF, 0xFF, 0xFF, 2, 0, 0, 0, 0, 9, 8, 6, 0, 1, 8, 0, 6, 4, 0, 1, 2, 0, 0, 0, 0, 9, 10, 0, 0, 2,
    0, 0, 0, 0, 0, 0, 10, 0, 0, 1]

/-- An Ethernet and an IPv4 header to 10.0.0.1: total length, protocol, header checksum. -/
def ipFrame (len proto : Nat) (c0 c1 : Byte) : List Byte :=
  [0xFF, 0xFF, 0xFF, 0xFF, 0xFF, 0xFF, 2, 0, 0, 0, 0, 9, 8, 0, 0x45, 0, 0, BitVec.ofNat 8 len, 0, 0, 0, 0, 64, BitVec.ofNat 8 proto,
    c0, c1, 10, 0, 0, 2, 10, 0, 0, 1]

/-- A datagram for port 47100 in a UDP datagram: a header of 16 bytes of a TYPE with FLAGS, session 5 and SEQ 1, and 8 bytes that
begin with an operation. -/
def renerFrame (type flags op : Nat) : List Byte :=
  ipFrame 52 17 0x66 0xB7 ++ [0, 1, 0xB7, 0xFC, 0, 32, 0, 0] ++
    [1, BitVec.ofNat 8 type, BitVec.ofNat 8 flags, 0, 5, 0, 0, 0, 1, 0, 0, 0, 0, 0, 0, 0, BitVec.ofNat 8 op, 0, 0, 0, 9, 0, 0, 0]

/-- A PTP message of a TYPE in a frame of its own. -/
def ptpFrame (type : Byte) : List Byte :=
  [0x01, 0x1B, 0x19, 0, 0, 0, 2, 0, 0, 0, 0, 9, 0x88, 0xF7, type] ++ List.replicate 43 0

/-- An echo request of 8 bytes, and a UDP datagram for port 47100 of 4 bytes. -/
def echoFrame : List Byte := ipFrame 28 1 0x66 0xDF ++ [8, 0, 0xF7, 0xFF, 0, 0, 0, 0]
def udpFrame : List Byte := ipFrame 32 17 0x66 0xCB ++ [0, 1, 0xB7, 0xFC, 0, 12, 0, 0, 1, 2, 3, 4]

theorem witness_RenerDatagrams : let s := opened 0 id
    let frames := [renerFrame 1 0 0, renerFrame 4 0 3, renerFrame 4 0 9, renerFrame 0x10 0 9]
    (∀ f ∈ frames, frameTaken s 0 f = true ∧ arpFor s 0 f = false ∧ echoFor s 0 f = false ∧ ptpMessage f = none ∧
      (renerOf s 0 f).any (fun x => x.1 == 47100 && datagramKnown x.1 x.2) = true) ∧
      (renerOf s 0 (renerFrame 4 0 9)).map (fun x => (recNat x.2 1 1, recNat x.2 16 2)) = some (4, 9) ∧
      queryServed s 0 = true ∧ reachable s (0 : Fin 8) 0x0A000002 = true ∧
      (renerOf s 0 (renerFrame 0x10 0 9)).map (fun x => (recNat x.2 1 1, recNat x.2 4 4, openDatagram session0 x.2)) = some (0x10, 5, none) ∧
      sessionOf s (datagram true) = some 0 ∧ sessionOf zero (datagram true) = none ∧ seqFresh session0 0 = false ∧
      seqFresh session0 1 = true ∧ 9 ∉ knownOps ∧ 1 ∈ knownOps ∧
      frameTaken s 0 (ptpFrame 1) = true ∧ arpFor s 0 (ptpFrame 1) = false ∧ echoFor s 0 (ptpFrame 1) = false ∧
      (ptpMessage (ptpFrame 1)).map (fun m => recNat m 0 1 % 16) = some 1 ∧ (ptpMessage (ptpFrame 0)).map (fun m => recNat m 0 1 % 16) = some 0 := by
  decide +kernel

theorem witness_LinePortCommandsComplete :
    (let s := opened 0 id
     lpUp zero (0 : Fin 8) = false ∧ lpUp s (0 : Fin 8) = true ∧ s.fld (Reg.LP_CTL 0) F.LP_CTL_FEC = 0 ∧
       frameTaken s 0 [] = false ∧ frameTaken s 0 arpFrame = true ∧ arpFor s 0 arpFrame = true ∧
       frameTaken s 0 echoFrame = true ∧ echoFor s 0 echoFrame = true) ∧
    (let s := opened 0 id
     let f := ipFrame 20 99 0x66 0x85
     frameTaken s 0 f = true ∧ arpFor s 0 f = false ∧ echoFor s 0 f = false ∧ ptpMessage f = none ∧ renerOf s 0 f = none) ∧
    (let s := opened 0 id
     let off := { s with ab := zero.ab }
     frameTaken s 0 udpFrame = true ∧ arpFor s 0 udpFrame = false ∧ echoFor s 0 udpFrame = false ∧ ptpMessage udpFrame = none ∧
       renerOf s 0 udpFrame = some (47100, [1, 2, 3, 4]) ∧ off.ab.up = false ∧ s.ab.up = true ∧ datagramKnown 47100 [1, 2, 3, 4] = false) ∧
    (let s := put [(Reg.LP_CTL 0, F.LP_CTL_FEC, 1)] (opened 0 id)
     lpUp s (0 : Fin 8) = true ∧ s.fld (Reg.LP_CTL 0) F.LP_CTL_FEC = 1 ∧ s.rn.fecSec[(0 : Fin 8)] ≠ some (secondOf s)) ∧
    (zero.fld (Reg.LP_CTL 7) F.LP_CTL_EN = 0 ∧ (put [(Reg.LP_CTL 7, F.LP_CTL_EN, 1)] zero).fld (Reg.LP_CTL 7) F.LP_CTL_EN = 1) ∧
    (let s := put [(Reg.LP_STAT 7, F.LP_STAT_FALLBACK, 1)] zero
     s.fld (Reg.LP_STAT 7) F.LP_STAT_FALLBACK = 1 ∧ s.fld (Reg.LP_STAT 7) F.LP_STAT_BLOCK_LOCK = 0 ∧
       (let t := late 2000000000 { s with rn := { s.rn with rateAt := s.rn.rateAt.set 7 (some 0) } }
        t.rn.rateAt[(7 : Fin 8)] = some 0 ∧ (0 : BitVec 64).toNat + 2000000000 ≤ t.now.toNat ∧
          (late 1999999999 t).now.toNat < (0 : BitVec 64).toNat + 2000000000) ∧
       zero.rn.rateAt[(7 : Fin 8)] = none ∧ zero.fld (Reg.LP_STAT 7) F.LP_STAT_FALLBACK = 0) ∧
    freeSession (opened 0 id) = some 1 ∧ helloCause (opened 0 id) 4 [] ≠ 0 ∧ reachable (opened 0 id) (0 : Fin 8) 0x0A000002 = true := by decide +kernel

/-- A record stream, a crop stream and an event stream, as open and with what they hold. -/
def recordStream (held : List RecEntry) (toSend : BitVec 64) : RecStream :=
  ⟨100, true, false, 0, 1, 2, held, toSend, 0, [], none, false, 0, 0⟩
def cropStream0 (sentTo : Nat) : CropStream := ⟨101, 2, [⟨1, 0, 136, 0, sentTo, [], 0, 0⟩]⟩
def eventStream0 : EventStream := ⟨102, 1008, 1023, 2, [(1, [7])], 0, 0⟩

/-- Session 0 with a record stream of one entry, a crop in flight and an event stream with a notification outstanding. -/
def streaming (toSend : BitVec 64) (sentTo : Nat) : State :=
  opened 0 (fun x => { x with records := some (recordStream [⟨1, 4, List.replicate 64 0, 0⟩] toSend), crops := some (cropStream0 sentTo), events := some eventStream0 })

/-- An event of source 1,008 on its way to the abutment die. -/
def eventMsg : Packet := ⟨43, 77, 1, 4, 0, 0, false, 0xFFFF, 0x1001, 0, 0, 0, leBytes 4 1008 ++ List.replicate 28 0⟩

theorem witness_StreamCommandsComplete :
    zero.rn.incoming = [] ∧
    (let s := { streaming 1 0 with rn := { (streaming 1 0).rn with incoming := [⟨none, some 4, [1], none⟩] } }
     s.rn.incoming = [⟨none, some 4, [1], none⟩] ∧ recStream s 0 = some (recordStream [⟨1, 4, List.replicate 64 0, 0⟩] 1) ∧
       (recordStream [⟨1, 4, List.replicate 64 0, 0⟩] 1).held.length < 2048) ∧
    2048 ≤ (recordStream (List.replicate 2048 ⟨1, 4, [], 0⟩) 1).held.length ∧
    (let s := streaming 1 0
     let r := recordStream [⟨1, 4, List.replicate 64 0, 0⟩] 1
     recStream s 0 = some r ∧ r.again = [] ∧ canSend s 0 = true ∧
       r.held.filter (fun e => decide (r.toSend.toNat ≤ e.rseq.toNat)) = ⟨1, 4, List.replicate 64 0, 0⟩ :: [] ∧ 1 < recordRoom s 0 r ∧
       (late 99999 s).now.toNat < (0 : BitVec 64).toNat + 100000 ∧ (0 : BitVec 64).toNat + 100000 ≤ (late 100000 s).now.toNat ∧
       canSend (late 100000 s) 0 = true ∧
       canSend zero 0 = false) ∧
    (let s := streaming 2 0
     let r := recordStream [⟨1, 4, List.replicate 64 0, 0⟩] 2
     (accept s (datagram true)).1 = some 0 ∧ recStream (taken s) 0 = some r ∧ recNat (leBytes 8 2) 0 8 ≤ r.toSend.toNat ∧
       r.cum.toNat ≤ recNat (leBytes 8 2) 0 8 ∧ canSend s 0 = true ∧ 0 < recordRoom s 0 r ∧
       r.held.filter (fun e => decide (e.rseq.toNat < r.toSend.toNat)) ≠ []) ∧
    (let c := cropStream0 0
     cropStream (streaming 1 0) 0 = some c ∧ (∀ j ∈ c.items, j.again = []) ∧ c.items = [⟨1, 0, 136, 0, 0, [], 0, 0⟩] ∧
       canSend (streaming 1 0) 0 = true) ∧
    (let s := put [(Reg.RN_CTL, F.RN_CTL_RTO_MS, 1)] (streaming 1 136)
     let rto := s.fld Reg.RN_CTL F.RN_CTL_RTO_MS * 1000000
     canSend (late rto s) 0 = true ∧ 0 + rto ≤ (late rto s).now.toNat ∧ (late (rto - 1) s).now.toNat < 0 + rto ∧
       (late rto s).now.toNat = rto ∧ (0 : Nat) < 136) ∧
    (let s := streaming 1 136
     let p := leBytes 8 1 ++ leBytes 4 136
     (accept s (datagram true)).1 = some 0 ∧ cropStream (taken s) 0 = some (cropStream0 136) ∧
       (cropStream0 136).items = [⟨1, 0, 136, 0, 136, [], 0, 0⟩] ∧ recWord p 0 = 1 ∧ recNat p 8 4 = 136) ∧
    (let s : State := { streaming 1 136 with now := BitVec.ofNat 64 ((streaming 1 136).fld Reg.RN_CTL F.RN_CTL_CROP_HOLD_MS * 1000000) }
     cropStream s 0 = some (cropStream0 136) ∧ 0 + s.fld Reg.RN_CTL F.RN_CTL_CROP_HOLD_MS * 1000000 ≤ s.now.toNat) ∧
    (let s := { streaming 1 0 with cw := { zero.cw with msgs := [eventMsg] } }
     s.ab.up = true ∧ s.cw.msgs.find? (fun p => p.dst.val == 77 && p.src.val == 43) = some eventMsg ∧ 16 ≤ eventMsg.data.length ∧
       eventStream s 0 = some eventStream0 ∧ eventStream0.first.toNat ≤ recNat eventMsg.data 0 4 % 1024 ∧
       recNat eventMsg.data 0 4 % 1024 ≤ eventStream0.last.toNat ∧ eventStream0.held.length < 64 ∧ eventStream0.missed = 0 ∧
       recNat (leBytes 8 2) 0 8 ≤ eventStream0.next.toNat ∧ eventStream0.held = [(1, [7])] ∧ eventStream (taken s) 0 = some eventStream0) := by
  refine ⟨by decide +kernel, by decide +kernel, ?_, by decide +kernel⟩
  rw [recordStream, List.length_replicate]

/-! ## Hypotheses of the statements on updates, health, the package and the invariant -/

/-- The body of UPD_START: component, total length, WINDOW_S and SOAK_S. -/
def startBody (c total w soak : Nat) : List Byte :=
  leBytes 2 c ++ [0, 0] ++ leBytes 8 total ++ leBytes 2 w ++ leBytes 2 soak ++ List.replicate 48 0

/-- The body of UPD_BLOCK of lease 7: four bytes at an offset, with a CRC. -/
def blockBody (off : Nat) (crc : BitVec 32) : List Byte :=
  leBytes 4 7 ++ leBytes 8 off ++ leBytes 2 4 ++ [0, 0] ++ leBytes 4 crc.toNat ++ [1, 2, 3, 4]

/-- The body of UPD_PLAN of one component with no entries. -/
def planBody (c : Nat) : List Byte := [1] ++ List.replicate 7 0 ++ leBytes 2 c ++ List.replicate 62 0

/-- Session 0 with both update rights holds lease 7 of component 2. -/
def leased (blocks : List (Nat × List Byte)) : State := withUp (opened 0x60 id) (fun u => { u with leases := [lease 2 blocks] })

/-- An update of a component, as committed. -/
def update (c reason : Nat) : Update := ⟨c, 7, [], 300, 60, 0, 0, none, [], reason, [], 0, 3, [], 0, [], 0, false⟩

/-- A component in a state of R442 with its update current, at a time. -/
def updating (c st now : Nat) : State :=
  { withUp (put [(Reg.UPD_COMP c, F.UPD_COMP_STATE, st)] dieUp) (fun u => { u with current := some (update c 4) }) with
    now := BitVec.ofNat 64 now }

theorem witness_UpdateStart :
    RunsRequest (leased []) (taken (leased [])) (request 3) 0 ∧ RunsRequest (opened 0 id) (taken (opened 0 id)) (request 3) 0 ∧
    (∀ w ∈ [0, 60, 3600], (startBody 3 0x800000 w (w / 2)).length = 64 ∧ recNat (startBody 3 0x800000 w (w / 2)) 0 2 = 3 ∧
      recNat (startBody 3 0x800000 w (w / 2)) 4 8 = spaceOf 3 ∧ recNat (startBody 3 0x800000 w (w / 2)) 12 2 = w) ∧
    (compGranted (taken (leased [])) 0 3 = true ∧ compGranted (taken (opened 0 id)) 0 3 = false ∧ compListed 3 = true ∧
      compListed 4 = false ∧ leaseOf (leased []) 3 = none ∧ leaseOf (leased []) 2 ≠ none ∧ (leased []).up.current = none ∧
      spaceOf 3 < recNat (startBody 3 0x800001 0 0) 4 8 ∧ (¬ 60 ≤ 59 ∧ ¬ 3601 ≤ 3600)) :=
  ⟨runsRequest_of (by decide +kernel) (by decide +kernel), runsRequest_of (by decide +kernel) (by decide +kernel), by decide +kernel,
    by decide +kernel⟩

theorem witness_UpdateCommandsComplete :
    RunsRequest (leased []) (taken (leased [])) (request 3) 0 ∧
    (let s1 := taken (leased [])
     let body := blockBody 4 (crc32 [1, 2, 3, 4])
     let data := body.drop 20
     leaseNamed s1 0 (recNat body 0 4) = some (lease 2 []) ∧ leaseNamed (taken (opened 0x60 id)) 0 7 = none ∧
       recNat body 12 2 = 4 ∧ data.length = 4 ∧ compGranted s1 0 2 = true ∧ recNat body 4 8 + 4 ≤ (lease 2 []).total ∧
       32 + 4 ≤ ((session s1 0).map (·.budget)).getD 0 ∧ recNat body 16 4 = (crc32 data).toNat ∧
       recNat (blockBody 4 0) 16 4 ≠ (crc32 data).toNat ∧ ¬ recNat (blockBody 5 0) 4 8 + 4 ≤ (lease 2 []).total) ∧
    (leaseOf (leased []) (recNat (leBytes 2 2) 0 2) = some (lease 2 []) ∧ (leBytes 2 2).length = 2 ∧ (leBytes 4 7).length = 4 ∧
      heldFrom0 (lease 2 []) < (lease 2 []).total ∧
      commitFault (setLease (taken (leased [])) { lease 2 [] with named := 0 }) 0 (lease 2 []) = some (20, []) ∧
      (let s := withUp (leased []) (fun u => { u with current := some (update 3 0) })
       commitFault (setLease (taken s) { lease 2 [(0, [1, 2, 3, 4, 5, 6, 7, 8])] with named := 0 }) 0
         (lease 2 [(0, [1, 2, 3, 4, 5, 6, 7, 8])]) = some (24, []))) ∧
    (let s := withUp (put [(Reg.UPD_COMP 2, F.UPD_COMP_STATE, 4)] (opened 0x60 id)) (fun u => { u with current := some (update 2 0) })
     compGranted (taken s) 0 2 = true ∧ 2 < 0x10 ∧ compState s 2 = 4 ∧ s.up.current = some (update 2 0) ∧ compState zero 2 ≠ 4) ∧
    (let s1 := taken (opened 0x60 id)
     let body := planBody 2
     let ps := (List.range (recNat body 0 1)).map (planEntry body)
     recNat body 0 1 = 1 ∧ body.length = 8 + 64 * 1 ∧ (∀ p ∈ ps, p.entries.length ≤ 4) ∧ (∀ p ∈ ps, compGranted s1 0 p.comp = true)) ∧
    (let s := { leased [] with now := 30000000000 }
     leaseOf s 2 = some (lease 2 []) ∧ (lease 2 []).named.toNat + 30000000000 ≤ s.now.toNat ∧ leaseOf s 31 = none) :=
  ⟨runsRequest_of (by decide +kernel) (by decide +kernel), by decide +kernel⟩

theorem witness_UpdateProgress :
    zero.up.current = none ∧
    (let s := updating 3 3 0
     s.up.current = some (update 3 4) ∧ s.ab.up = true ∧ compState s 3 = 3 ∧ (update 3 4).left = [] ∧ s.pl.change = none ∧
       compState (updating 3 4 0) 3 ≠ 3 ∧ (update 31 4).phase = 3) ∧
    (let u := { update 2 4 with tested := [0, 1, 2, 3] }
     let s := withUp (updating 2 4 60000000000) (fun x => { x with current := some u })
     s.up.current = some u ∧ compState s 2 = 4 ∧ healthy s u = true ∧ u.soakSince.toNat + u.soak * 1000000000 ≤ s.now.toNat ∧
       s.now.toNat < u.since.toNat + u.window * 1000000000 ∧ healthy (updating 2 4 0) (update 2 4) = false) ∧
    (rolesImage (updating 3 3 0) (update 3 4) = none ∧ idleStopped zero = true) ∧
    (let s := updating 3 6 0
     compState s 3 = 6 ∧ (update 3 4).left = [] ∧ s.pl.change = none ∧ (update 3 4).reason < 16) ∧
    (revertDue (updating 31 4 300000000000) (update 31 4) 3 = true ∧ revertDue (updating 31 4 299999999999) (update 31 4) 3 = false ∧
      compState (updating 31 4 300000000000) 31 ≠ 6) ∧
    (let s := withUp dieUp (fun u => { u with lost := some (update 2 0) })
     s.ab.up = true ∧ s.up.current = none ∧ s.up.lost = some (update 2 0)) := by decide +kernel

/-- Pair 0 is idle, its island at 750 mV is in a state of DC_ISLAND, and its sample before showed all three conditions. -/
def sampled (use st : Nat) : State :=
  put [(Reg.PL_PHYS 0, F.PL_PHYS_USE, use), (Reg.DC_ISLAND 0, F.DC_ISLAND_STATE, st), (Reg.DC_ISLAND 0, F.DC_ISLAND_TARGET, 750),
    (Reg.FH_SPAN 0, F.FH_SPAN_V_LOW, 1), (Reg.FH_SPAN 0, F.FH_SPAN_V_HIGH, 1), (Reg.FH_SPAN 0, F.FH_SPAN_T_HOT, 1)] zero

/-- The health service of a state in other contents. -/
def onHealth (s : State) (f : Health → Health) : State := { s with fh := f s.fh }

theorem witness_HealthCommandsComplete :
    (zero.fld (Reg.DC_ISLAND 0) F.DC_ISLAND_STATE = 0 ∧ (sampled 0 2).fld (Reg.DC_ISLAND 0) F.DC_ISLAND_STATE ≠ 0 ∧
      (sampled 0 2).fh.breach = [] ∧ (sampled 0 2).fld (Reg.FH_SPAN 0) F.FH_SPAN_V_LOW = 1 ∧
      (500 : BitVec 10).toNat < (sampled 0 2).fld (Reg.DC_ISLAND 0) F.DC_ISLAND_TARGET - (sampled 0 2).fld Reg.FH_LIMITS F.FH_LIMITS_VLOW_MV ∧
      830 < (831 : BitVec 10).toNat ∧ ((sampled 0 2).fld Reg.FH_LIMITS F.FH_LIMITS_THOT : Int) < (127 : BitVec 8).toInt ∧
      ¬ (830 : BitVec 10).toNat < (sampled 0 2).fld (Reg.DC_ISLAND 0) F.DC_ISLAND_TARGET - (sampled 0 2).fld Reg.FH_LIMITS F.FH_LIMITS_VLOW_MV ∧
      plUse (sampled 0 2) 0 = 0) ∧
    (let s := put [(Reg.PL_ROLE 16, F.PL_ROLE_PHYS, 0), (Reg.PL_STAT, F.PL_STAT_SBY, 1)] (sampled 2 2)
     plUse s 0 ≠ 0 ∧ standby s = some 0 ∧ sby s = 1) ∧
    ((zero.fld Reg.FH_LIMITS F.FH_LIMITS_TJ_WARN : Int) < (127 : BitVec 8).toInt ∧
      ¬ (zero.fld Reg.FH_LIMITS F.FH_LIMITS_TJ_WARN : Int) < (-128 : BitVec 8).toInt ∧ zero.fh.hot = false) ∧
    (let s := put [(Reg.FH_CTL, F.FH_CTL_DIAG_AUTO, 1)] (sampled 5 2)
     s.fld Reg.FH_CTL F.FH_CTL_DIAG_AUTO = 1 ∧ plUse s 0 = 5 ∧ s.roleOf 0 = 31 ∧ plUse s 0 ≠ 6 ∧ s.fh.diag = none ∧ s.jointFlags = [] ∧
       plUse (sampled 6 2) 0 = 6) ∧
    (let s (k : Nat) := onHealth zero (fun h => { h with diag := some (0, true), faults := List.replicate k (0, 0) })
     (s 2).fh.diag = some (0, true) ∧ recentFaults (s 2) 0 = 2 ∧ recentFaults (s 3) 0 = 3 ∧ standby (s 2) = none ∧ sby (s 2) = 0 ∧
       F.SPARE_MAP_BYP3.get ((s 2).reg (Reg.SPARE_MAP 0 15 7)) = 32 ∧ spcState (s 2) (lead (s 2) 0) = 3) ∧
    (let s := { onHealth zero (fun h => { h with linkDue := [(1, 3)] }) with ab := { zero.ab with up := true } }
     s.ab.up = true ∧ (1, 3) ∈ s.fh.linkDue ∧ (1, 3) ∉ s.fh.avoided ∧ (1, 3) ∉ s.fh.noRoute ∧ zero.fh.linkDue = [] ∧
       tablesAvoid [] (s.fh.avoided ++ [(1, 3)]) = false ∧ ¬ (7 : Fin 8).val < 4 ∧ s.fld Reg.CW_STAT F.CW_STAT_DRAINED ≤ 1) ∧
    (∀ n : Fin 17, (zero.fh.wear[n.val]).drift < 5000) ∧
    (let s := onHealth zero (fun h => { h with wear := h.wear.set 0 { Wear.fresh with drift := 5000 } })
     5000 ≤ (s.fh.wear[(0 : Fin 17).val]).drift ∧ (s.array 0).powered = false ∧ plUse s 0 = 0 ∧ s.roleOf 0 = 31) := by decide +kernel

theorem witness_WearAndTrace :
    (let s := put [(Reg.WR_CTL, F.WR_CTL_WARN_DAYS, 90)] zero
     (s.setReg Reg.WR_EOL 89).fld Reg.WR_CTL F.WR_CTL_WARN_DAYS = 90 ∧ ((s.setReg Reg.WR_EOL 89).reg Reg.WR_EOL).toNat < 90 ∧
       s.fh.warned ≠ some (s.fh.seconds / 86400) ∧ ¬ ((s.setReg Reg.WR_EOL 90).reg Reg.WR_EOL).toNat < 90) ∧
    (zero.fld (Reg.TRC_STAT 3) F.TRC_STAT_ARMED = 0 ∧
      (put [(Reg.TRC_STAT 3, F.TRC_STAT_ARMED, 1)] zero).fld (Reg.TRC_STAT 3) F.TRC_STAT_ARMED = 1) := by decide +kernel

/-- A copy of a directory with SEQ 7 and no slot in use (R373). -/
def dirHead : List Byte := leBytes 4 0x31524944 ++ leBytes 8 7 ++ leBytes 4 0
def dirCopy : List Byte := dirHead ++ zeros64 ++ leBytes 4 1932793567

theorem crc32_dirCopy : crc32 (dirHead ++ zeros64) = 1932793567 := by
  have h : crcRun 0xFFFFFFFF dirHead = 1032892624 := by decide +kernel
  rw [crc32, crcRun_append, h]
  decide +kernel

theorem dirCopy_good : (Directory.ofBytes dirCopy).isSome = true := by
  have c : dirCopy.length = 84 ∧ recNat dirCopy 0 4 = 0x31524944 ∧ recNat dirCopy 80 4 = 1932793567 ∧
      dirCopy.take 80 = dirHead ++ zeros64 := by decide +kernel
  rw [Directory.ofBytes, c.2.2.2, crc32_dirCopy, if_pos ⟨c.1, c.2.1, c.2.2.1⟩]
  rfl

theorem dirInForce_second {b : List Byte} (h : (Directory.ofBytes b).isSome = true) :
    (dirInForce { zero with ab := { zero.ab with dirs := zero.ab.dirs.set 1 b } }).isSome = true := by
  obtain ⟨d, e⟩ := Option.isSome_iff_exists.mp h
  have z : Directory.ofBytes zero.ab.dirs[(0 : Fin 2)] = none := by decide +kernel
  unfold dirInForce
  simp only [show (zero.ab.dirs.set 1 b)[(0 : Fin 2)] = zero.ab.dirs[(0 : Fin 2)] from rfl,
    show (zero.ab.dirs.set 1 b)[(1 : Fin 2)] = b from rfl, z, e, Option.isSome_some]

theorem witness_DirectoryInForce :
    (dirInForce { zero with ab := { zero.ab with dirs := zero.ab.dirs.set 1 dirCopy } }).isSome = true :=
  dirInForce_second dirCopy_good

theorem witness_PackageCommandsComplete :
    (zero.pk.inReset = false ∧ zero.ab.halt = false ∧ zero.ab.up = false ∧ bootState zero = 0) ∧
    (TornWrite.owner 3 = .owner 3 ∧ (zero.ab.owners[(3 : Fin 4)]).state = 0 ∧ zero.pk.testen = false ∧
      (let s : State := { zero with pk := { zero.pk with testen := true } }
       s.pk.testen = true)) ∧
    (let s := withUp zero (fun u => { u with gens := u.gens.set 3 (some (generation0 5)) })
     generation s = some (generation0 5) ∧ s.up.gens[2] ≠ some (generation0 5) ∧ (generation0 5).gen.toNat + 1 = 2) := by decide +kernel

theorem witness_StepKeepsCanonicalForms : State.reset.Canonical ∧ step State.reset = .next { State.reset with now := 5 } :=
  ⟨⟨by decide +kernel, by decide +kernel⟩, rfl⟩

/-- Tables that route in X and then in Y, but for router 0, which sends everything in Y (R299). -/
def detour : List Word :=
  let out (r d : Nat) : Nat :=
    if r = d then 4 else if r = 0 then 0 else if r % 8 < d % 8 then 1 else if d % 8 < r % 8 then 3 else if r / 8 < d / 8 then 0 else 2
  (List.range 288).map (fun i => BitVec.ofNat 32 ((List.range 8).foldl (fun n j => n + out (i / 6) (8 * (i % 6) + j) * 16 ^ j) 0))

/-- The routes of R299 from any router to `d`, by a function that gives the output of each router. -/
def routeBy (f : Nat → Nat → Nat) (d : Nat) : Nat → Nat → Bool → Bool
  | 0, _, _ => false
  | fuel + 1, r, moved =>
    if r = d then true
    else if f r d = 3 ∧ moved then false
    else match routeStep r (f r d) with
      | none => false
      | some x => routeBy f d fuel x (f r d ≠ 3)

theorem routeGood_eq {bs : List Byte} {f : Nat → Nat → Nat} (h : ∀ r d, routeOut bs r d = f r d) (d : Nat) :
    ∀ fuel r moved, routeGood bs d fuel r moved = routeBy f d fuel r moved
  | 0, _, _ => rfl
  | fuel + 1, r, moved => by
    simp only [routeGood, routeBy, h]
    split
    · rfl
    · split
      · rfl
      · split <;> simp_all [routeGood_eq h]

theorem recNat_words : ∀ (ts : List Word) (i : Nat),
    recNat (ts.flatMap (fun w => leBytes 4 w.toNat)) (4 * i) 4 = (ts.getD i 0).toNat
  | [], i => by simp [recNat, leNat]
  | w :: ts, 0 => by
    have h : (leBytes 4 w.toNat ++ ts.flatMap (fun w => leBytes 4 w.toNat)).take 4 = leBytes 4 w.toNat :=
      List.take_left' (length_leBytes 4 w.toNat)
    rw [List.flatMap_cons, recNat, Nat.mul_zero, List.drop_zero, h, leNat_leBytes]
    simp [Nat.mod_eq_of_lt w.isLt]
  | w :: ts, i + 1 => by
    have h : (leBytes 4 w.toNat ++ ts.flatMap (fun w => leBytes 4 w.toNat)).drop (4 * (i + 1)) =
        (ts.flatMap (fun w => leBytes 4 w.toNat)).drop (4 * i) := by
      rw [Nat.mul_succ, Nat.add_comm, ← List.drop_drop, List.drop_left' (length_leBytes 4 w.toNat)]
    rw [List.flatMap_cons, recNat, h, List.getD_cons_succ]
    exact recNat_words ts i

theorem routesBad_words (ends : List Nat) (ts : List Word) : routesBad ends (ts.flatMap (fun w => leBytes 4 w.toNat)) =
    (let rs := (ends.map (fun i => 8 * (endpointPlace i).2.1 + (endpointPlace i).1)).dedup
     (List.range 48).any (fun r => (List.range 48).any (fun d =>
       (r != d && 4 ≤ wordsOut ts r d) || (rs.contains d && !routeBy (wordsOut ts) d 48 r false)))) := by
  have h : ∀ r d, routeOut (ts.flatMap (fun w => leBytes 4 w.toNat)) r d = wordsOut ts r d := by
    intro r d
    rw [routeOut, recNat_words, wordsOut]
  simp only [routesBad, routeGood_eq h, h]

theorem witness_LinkDegradeAvoided : tablesAvoid detour [(1, 3)] = true ∧ tableExists [(1, 3)] = true := by
  rw [tablesAvoid, routesBad_words]
  decide +kernel

/-! ## Operand checks: one ill-formed term for each check (WellFormed) -/

theorem test_wf_accepts : (Instr.registerWrite 0x1001 0x4100000004 4 1).wf = true ∧ Instr.flip.wf = true := by decide +kernel
theorem test_wf_access : (Instr.registerWrite 0 0x4100000000 3 1).wf = false ∧ (Instr.registerWrite 0 0x4100000002 4 1).wf = false ∧
    (Instr.aliasAccess 0 true 0x4180000000 0 1).wf = false ∧ (Instr.aliasAccess 0 true 0x4180000001 2 1).wf = false := by decide +kernel
theorem test_wf_upsets : (Instr.nanoWordIssue 0 [.word (2 ^ 40) 0] []).wf = false ∧ (Instr.nanoWordIssue 0 [.word 0 97] []).wf = false ∧
    (Instr.nanoWordIssue 0 [] [⟨0, 0, (0, 0)⟩]).wf = false := by decide +kernel
theorem test_wf_lanes : (Instr.alignReceive 0 [1, 2, 3, 4, 5] []).wf = false ∧ (Instr.alignReceive 0 [] [1, 2, 3, 4, 5]).wf = false ∧
    (Instr.startWord 0 (List.replicate 5 (0, 0, 0))).wf = false ∧ (Instr.termWord 0 (List.replicate 5 (0, 0))).wf = false := by
  decide +kernel
theorem test_wf_head_bytes : (Instr.packetBlock 0 (List.replicate 65 0) true).wf = false ∧
    (Instr.ccMessageReceive 0 [(0b01, [1, 2, 3])]).wf = false ∧
    (Instr.ccMessageReceive 0 (List.replicate 12 (0, [0, 0, 0, 0, 0, 0]))).wf = false ∧
    (Instr.descriptorReadDone 0 (List.replicate 1025 0) true).wf = false := by
  refine ⟨by decide +kernel, by decide +kernel, by decide +kernel, ?_⟩
  rw [Instr.wf, List.length_replicate]
  rfl
theorem test_wf_ddr : (Instr.ddr5TrainingDone 0 true true true 8 16 1 3).wf = false := by decide +kernel
theorem test_wf_samples : (Instr.encoderCount 0 (List.replicate 5 true) []).wf = false ∧ (Instr.zEdge 0 (List.replicate 5 true)).wf = false ∧
    (Instr.delayReq ⟨0, false, 0, []⟩).wf = false := by decide +kernel
theorem test_wf_frames : (Instr.frameReceive 0 true 0 0 (List.replicate 13 0)).wf = false ∧ (Instr.arp 0 []).wf = false ∧
    (Instr.icmpEcho 0 []).wf = false := by decide +kernel
theorem test_wf_payloads : (Instr.hello 0 0 0 (List.replicate 8941 0)).wf = false ∧
    (Instr.recAck (datagram true) (List.replicate 8941 0)).wf = false ∧ (Instr.cropAck (datagram true) (List.replicate 8941 0)).wf = false ∧
    (Instr.notifyAck (datagram true) (List.replicate 8941 0)).wf = false := by
  refine ⟨?_, ?_, ?_, ?_⟩ <;> rw [Instr.wf, List.length_replicate] <;> rfl
theorem test_wf_reason : (Instr.updateReverted 0).wf = false := by decide +kernel
theorem test_wf_drifts : (Instr.wearTick 80 (List.replicate 18 0)).wf = false := by decide +kernel

/-! ## The queue and the interface -/

/-- The table gives its rows no bits. -/
theorem test_decode_none : decodeTableWord 32 0 = none ∧ zero.withFetchWord 32 0 = zero := ⟨rfl, rfl⟩

/-- The command at the front runs first, on the queue's rest. -/
theorem test_step_front : ∃ t, step { zero with pending := [.ehRaise 0, .flip] } = .next t ∧ t.pending = [.flip] ∧
    t.raises.map (·.source) = [1016] := ⟨_, rfl, rfl, rfl⟩

/-- Reset values that the spec gives: SBY_PHYS none, no bypass, cause POWER_ON. -/
theorem test_reset_values : zero.fld Reg.PL_STAT F.PL_STAT_SBY_PHYS = 31 ∧ zero.fld (Reg.SPARE_MAP 16 15 7) F.SPARE_MAP_BYP0 = 32 ∧
    zero.fld Reg.DC_RSTCAUSE F.DC_RSTCAUSE_CAUSE = 1 := by decide +kernel

/-! ## Values of the spec's worked examples -/

/-- The nano-word of 03 at nano address 0x122, and the microword at e + 5. -/
theorem test_nano_fields : Nano.ofNat 0x00101AE896540005 =
    { Nano.ofNat 0 with mop := 1, mar := 1, ib := 5, ic := 2, fs := 0x96, fk := 0xE8, ds := 2, dk := 3, gate := true } := by
  decide +kernel
theorem test_micro_fields : Micro.ofNat 0x123DF080 = { Micro.ofNat 0 with nptr := 0x123, seq := 6, disp := -2, step2 := 1 } := by
  decide +kernel

/-- The 12-bit add of 02, bit 3: A = 1, B = 1 and C in 0 give D = 0 and C out 1; an inactive column keeps both. -/
theorem test_add_bit3 :
    let x := { SpanArray.reset with p := ⟨3, 0⟩, q := ⟨3, 0⟩, m := ⟨1, 0⟩, rows := [(203, ⟨3, 0⟩)] }
    let y := (bpCycle (Nano.ofNat 0x00101AE896540005) 203 false x).1
    y.q.duty.getLsbD 0 = false ∧ y.c.duty.getLsbD 0 = true ∧ y.q.duty.getLsbD 1 = true ∧ y.c.duty.getLsbD 1 = false := by
  decide +kernel

/-- The truth tables of 02: sum, carry and S = a, on operands that run through i = 4a + 2b + c. -/
theorem test_truth_tables : (lut 8 0x96 0xF0 0xCC 0xAA).toNat = 0x96 ∧ (lut 8 0xE8 0xF0 0xCC 0xAA).toNat = 0xE8 ∧
    (lut 8 0xF0 0xF0 0xCC 0xAA).toNat = 0xF0 := by decide +kernel

/-- The span ALU wraps (R100): an add with carry out, a difference with a borrow, a division by 0. -/
theorem test_alu : (spanAlu 0 0xFFFFFFFF 1).map (·.value) = some 0 ∧ (spanAlu 1 0 1).map (·.value) = some 0xFFFFFFFF ∧
    (spanAlu 23 5 0).map (·.value) = some 0xFFFFFFFF := by decide +kernel

/-- The record of the branched scratch of 07: CENT_COL, CENT_LINE and LINES. -/
theorem test_scratch_record :
    let b := { blob with
      first := 1000, last := 1002, minCol := 5000, maxCol := 5011, area := 16, runs := 4, merges := 1, classMask := 6,
      peak := 60, sumCol := 80084, sumLine := 13, id := 0x4A10 }
    ((blobRecord zero 0 b 0 false).trk.built.map (fun r => (recNat r.bytes 56 4, recNat r.bytes 60 4, recNat r.bytes 40 2))) =
      [(0x0271A800, 0xD000, 3)] := by decide +kernel

/-- The crop of that scratch in 08: lines 968 to 1,034, columns 4,968 to 5,043, factor 1, and 5,552 bytes. -/
def scratchReq : CropReq :=
  { cropReq with
    bytes := leBytes 8 0 ++ leBytes 8 1000 ++ leBytes 16 0 ++ leBytes 4 5000 ++ leBytes 4 5011 ++ leBytes 2 3 ++ leBytes 14 0 ++ leBytes 4 0x0271A800 ++ leBytes 4 0xD000 }
theorem test_scratch_crop :
    let s := put [(Reg.CR_CTL, F.CR_CTL_MARGIN, 32)] zero
    let w := cropWindow s scratchReq
    (w.firstLine, w.srcH, w.firstCol, w.srcW, w.factor, w.clipped) = (968, 67, 4968, 76, 1, false) ∧
      (cropBytes s { w with rows := List.replicate 67 ⟨none, false⟩ } 17).length = 5552 := by decide +kernel

/-- The same scratch over 9,000 lines from line 1,000 is cut to 8,192. -/
theorem witness_CropWindowAndFactor :
    (cropWindow zero scratchReq).clipped = false ∧ 0 < (cropWindow zero scratchReq).srcW ∧
    (let r := { scratchReq with bytes := scratchReq.bytes.set 40 0x28 }
     let w := cropWindow zero { r with bytes := r.bytes.set 41 0x23 }
     w.clipped = true ∧ w.srcH = 8192 ∧ w.factor = 8) := by decide +kernel

/-- The roll mark of 08: the pitch of slot 0 and the buckets of the first period. -/
theorem test_roll_mark :
    let s := put [(Reg.LG_CTL, F.LG_CTL_BUCKET_LOG, 9), (Reg.RF_TOL 0, F.RF_TOL_TOL_ALONG, 160)]
      ((zero.setReg (Reg.RF_PITCH_LO 0) 0xC4580000).setReg (Reg.RF_PITCH_HI 0) 0)
    let target := 2513400 * 65536 - rfPitch s 0
    bucketOf s (target - rfAlong s 0) = 4810 ∧ bucketOf s (target + rfAlong s 0) = 4811 := by decide +kernel

/-- The ledger's addresses in 14: BASE 16 GiB, LSEQ 1,204,117. -/
theorem test_ledger_addresses :
    let s := put [(Reg.LG_BASE, F.LG_BASE_BASE, 16)] zero
    recordAddr s 1204117 = 0x040497E540 ∧ sideAddr s 1204117 = 0x044497E540 := by decide +kernel

/-- The mapped capacity of Example P in 10: eight channels of 16 GiB less 256 KiB. -/
theorem test_capacity :
    let s := put [(Reg.D5_MAP, F.D5_MAP_READY, 1), (Reg.D5_MAP, F.D5_MAP_CHANNELS, 3), (Reg.D5_MAP, F.D5_MAP_USED_GIB, 16)] zero
    ddrCapacity s = 8 * (16 * 2 ^ 30 - 256 * 2 ^ 10) := by decide +kernel

/-- The pier of 10 at t0 + 1: after m = 5 the round robin serves K1's read before E0's write; the span waits. -/
theorem test_pier_round :
    let w := [access 1 68 (0x4000000000 + 5 * 0x80000) 32, access 0 40 (0x4000000000 + 5 * 0x80000) 32]
    let s : State := { zero with cw := { zero.cw with piers := zero.cw.piers.set 5 ⟨w, 5, none, []⟩ } }
    (match exec (.pierAccess 5 [(true, 3)] []) s with
     | .next t => (t.cw.net.map (fun q => (q.kind, q.dst)), t.fld (Reg.PIER_CONF 5 5) F.PIER_CONF_COUNT,
         t.fld (Reg.PIER_SPAN_STALL 5) F.PIER_SPAN_STALL_COUNT)
     | _ => ([], 0, 0)) = ([(2, 40)], 1, 1) := by decide +kernel

/-- P_3 of Example G in 09: 16.486 µs after the edge to count 7 with a count interval of 19.073 µs (steps of 156.25 ps). -/
theorem test_interpolated_point :
    (pointInstant true [⟨7 * 65536, 0, some 122067⟩] 515397).all (fun i => 105507 ≤ i && i ≤ 105513) = true ∧
    (pointInstant true [⟨7 * 65536, 0, some 122067⟩] 515397).isSome = true := by decide +kernel

/-- The marker of 09: output 6 in mode 4 at 80,000 counts, a record that begins at 2,000.0, the line at 2,013: pending at 82,000.0. -/
theorem test_marker :
    let s := put [(Reg.SO_CTL 3 0, F.SO_CTL_MODE, 4), (Reg.TG_CTL 0, F.TG_CTL_SRC, 16)] zero
    let s := (s.setReg (Reg.ACT_DIST_LO 3 0) 0x38800000).setReg (Reg.ACT_DIST_HI 3 0) 1
    let s := setGrp s 0 { grp s 0 with pos := 2013 }
    let s := { s with tm := { s.tm with marks := [⟨6, 2000 * 65536, 2000 * 65536, 2, 0x4A10⟩] } }
    (match exec .markingMessage s with
     | .next t => (t.tm.actions.map (fun a => (a.tOn, a.active)), t.fld Reg.AS_STAT F.AS_STAT_PENDING)
     | _ => ([], 0)) = ([((82000 * 65536 : Int), false)], 1) := by decide +kernel

/-- The handler of 11: the descriptor of source 60 with one raise, STX 0x0800, and CALL 0x1200 saving A and X. -/
theorem test_descriptor : descriptor { zero with eh := [⟨60, 0, 0⟩] } 60 1 = 0x0002003C := by decide +kernel
theorem test_stx :
    (match exec (.storeIndex 0 []) (running false 3 0x0B000800 (fun x => { x with x := 0x0002003C })) with
     | .next t => (t.readLE (Win.keeper 0 + 0x800) 4, (kpPc t 0).toNat)
     | _ => (0, 0)) = (0x0002003C, 0x804) := by decide +kernel
theorem test_call_word : KeeperWord.ofNat 0x62031200 = ⟨0x62, 0, 3, 0x1200⟩ := by decide +kernel

/-- The three components of 15: the plan's order, and ORDER with declarer 6 and component 1. -/
def compatible (max : Nat) : List Declared :=
  [⟨1, 0x02040000, [(3, 0x07000000, 0x08FFFFFF)]⟩, ⟨3, 0x07020000, []⟩, ⟨6, 0, [(1, 0x02000000, max), (3, 0x07000000, 0x08FFFFFF)]⟩]
def offered : List Declared :=
  [⟨3, 0x08000000, [(1, 0x02040000, 0x03FFFFFF)]⟩, ⟨1, 0x03000000, [(3, 0x08000000, 0x08FFFFFF)]⟩, ⟨6, 0, [(1, 0x03000000, 0x03FFFFFF)]⟩]
theorem test_plan_order : planOrder 8 (compatible 0x03FFFFFF) offered [] = .inl [3, 1, 6] ∧
    planOrder 8 (compatible 0x02FFFFFF) offered [] = .inr (6, 1) := by decide +kernel

/-- The diagnosis of P3 in 16: physical position 9 of group 17 of truss 5 is bypassed and recorded. -/
theorem test_repair :
    (match exec (.fhDiag 3 false false [(5, 17, 9)]) (onHealth zero (fun h => { h with diag := some (3, false) })) with
     | .next t => (t.fh.repairs.map (fun e => [e.kind, e.unit, e.b2, e.b3, e.word.toNat]),
         F.SPARE_MAP_BYP1.get (t.reg (Reg.SPARE_MAP 3 5 4)))
     | _ => ([], 0)) = ([[0x01, 0x03, 0x05, 0x11, 0x09]], 9) := by decide +kernel

/-- AF of 16 at 80 °C and 0.74 V is 0.308, and 1 at 95 °C and 0.75 V. -/
theorem test_acceleration : acceleration 95 750 = 2 ^ 32 ∧ 3075 * 2 ^ 32 < acceleration 80 740 * 10000 ∧
    acceleration 80 740 * 10000 < 3085 * 2 ^ 32 := by decide +kernel

/-- Two records in one datagram are 16 + 2 × 72 = 160 payload bytes (14). -/
theorem test_record_datagram :
    let r := recordStream [⟨500000, 4, List.replicate 64 0, 0⟩, ⟨500001, 5, List.replicate 64 0, 0⟩] 500000
    (match exec (.recordsSend 0) { opened 0 (fun x => { x with records := some r }) with now := 100000 } with
     | .next t => t.rn.out.map (fun d => (d.payload.length, recNat d.payload 0 8))
     | _ => none) = some (160, 500000) := by decide +kernel

/-- The check value of CRC-32 (IEEE 802.3, R143): the nine digits give 0xCBF43926. -/
theorem test_crc : crc32 [0x31, 0x32, 0x33, 0x34, 0x35, 0x36, 0x37, 0x38, 0x39] = 0xCBF43926 := by decide +kernel

/-! ## Single steps of some families, with values from their rules -/

/-- From 00, A rises: a forward count (R253). -/
theorem test_encoder_forward :
    (match exec (.encoderCount 0 [true] []) (put [(Reg.SC_CTL 0, F.SC_CTL_EN, 1)] zero) with
     | .next t => (chanPos t 0).toInt
     | _ => 0) = 1 := by decide +kernel

/-- A raise for the Keeper alone: KPEND and a count of 1, the payload stored (R329, R330). -/
theorem test_event_raise :
    (match exec (.eventRaise 0) (raised [(Reg.EH_SRC 1023, F.EH_SRC_K_EN, 1)]) with
     | .next t => (t.fld (Reg.EH_PEND 1023) F.EH_PEND_KPEND, t.fld (Reg.EH_PEND 1023) F.EH_PEND_KCOUNT, (t.reg (Reg.EH_PAY 1023)).toNat)
     | _ => (0, 0, 0)) = (1, 1, 9) := by decide +kernel

/-- 0x7FFFFFFF + 1 overflows: V and N, no C, no Z (R319). -/
theorem test_keeper_add :
    (match exec (.add 0 []) (running false 1 (kw 0x30 0 0 1) (fun x => { x with a := 0x7FFFFFFF })) with
     | .next t => ((keeper t 0).a.toNat, (keeper t 0).f.toNat)
     | _ => (0, 0)) = (0x80000000, 0b1010) := by decide +kernel

/-- PING answers its body with STATUS 0 (R420). -/
theorem test_ping :
    (match exec (.ping (request 0) [1, 2]) (opened 0 id) with
     | .next t => (session t 0).map (fun x => x.kept.map (fun p => (p.1.toNat, p.2.drop 12)))
     | _ => none) = some [(9, [1, 2])] := by decide +kernel


/-- An idle island beside one at 790 mV has a target of 740 mV; without powered neighbours above 750 mV, 700 mV (R478). -/
theorem test_idle_island :
    (let s := put [(Reg.DC_ISLAND 4, F.DC_ISLAND_STATE, 2), (Reg.DC_ISLAND 4, F.DC_ISLAND_TARGET, 790)] zero
     islandTarget (holdRole s 3 31) 3 = 740 ∧ islandTarget (holdRole s 9 31) 9 = 700) := by decide +kernel

/-- The first datagram to a peer is preceded by an ARP request for it (R407). -/
theorem test_arp_request :
    ((resolve (opened 0 id) 0 0x0A000002).2.rn.frameOut.map (fun f => (beAt f.2 0 6, beAt f.2 20 2, beAt f.2 38 4))) =
      some (0xFFFFFFFFFFFF, 1, 0x0A000002) := by decide +kernel

end Sys2Proof.Tests
end

