-- ==== Sys2Proof/Proofs/FieldWrites.lean ====
section
/-!
The fields of a register word under a write (R3). The register tables are in order, so the fold of `writtenWord` over the
fields settles each field on its own; what a field then reads is said once for every access type.
-/

namespace Sys2Proof.Machine

/-! ## The register tables -/

/-- Two fields share no bit. -/
abbrev Fld.Apart (f g : Fld) : Prop := g.hi < f.lo ∨ f.hi < g.lo

theorem Fld.Apart.symm {f g : Fld} (h : f.Apart g) : g.Apart f := Or.symm h

/-- Every field of the register lies in a word, and no two of them share a bit. -/
abbrev RegDesc.FieldsOk (d : RegDesc) : Prop :=
  (∀ f ∈ d.fields, f.lo ≤ f.hi ∧ f.hi < 32) ∧ d.fields.Pairwise Fld.Apart

/-- The register tables that `Desc.window` chooses from. -/
def Desc.tables : List (List RegDesc) :=
  [[], Desc.spanRegs, Desc.regionRegs, Desc.trackerRegs, Desc.ledgerRegs, Desc.timingRegs, Desc.causewayRegs,
   Desc.keeperRegs, Desc.hubRegs, Desc.headRegs, Desc.lineRegs, Desc.strandRegs, Desc.ddrRegs, Desc.deviceRegs,
   Desc.abutmentRegs]

theorem Desc.window_mem_tables (a : Nat) : Desc.window a ∈ Desc.tables := by
  unfold Desc.window
  repeat' refine iteInduction (motive := (· ∈ Desc.tables)) (fun _ => ?_) (fun _ => ?_)
  all_goals simp only [Desc.tables, List.mem_cons, true_or, or_true]

theorem Desc.tables_fieldsOk : ∀ l ∈ Desc.tables, ∀ d ∈ l, d.FieldsOk := by decide +kernel

theorem fieldsOk_of_regAt {a : Nat} {d : RegDesc} (h : regAt a = some d) : d.FieldsOk :=
  Desc.tables_fieldsOk _ (Desc.window_mem_tables a) d (List.mem_of_find?_eq_some h)

/-! ## One field -/

/-- A value no larger than one that the field can read is read back unchanged. -/
theorem Fld.get_put_of_le_get (f : Fld) (h : f.Ok) (w x : BitVec 32) {v : Nat} (hv : v ≤ f.get x) :
    f.get (f.put w v) = v := by
  rw [f.get_put h, Nat.mod_eq_of_lt (hv.trans_lt (Nat.mod_lt _ (Nat.two_pow_pos _)))]

/-- A write of a field leaves the bits outside it. -/
theorem Fld.put_getLsbD_outside (f : Fld) (h : f.Ok) (w : BitVec 32) (v : Nat) {i : Nat} (hi : i < f.lo ∨ f.hi < i) :
    (f.put w v).getLsbD i = w.getLsbD i := by
  have hm : f.mask.getLsbD i = false := by
    rw [f.mask_getLsbD h]
    simp only [Bool.and_eq_false_iff, decide_eq_false_iff_not]
    omega
  simp only [Fld.put, BitVec.getLsbD_or, BitVec.getLsbD_and, BitVec.getLsbD_not, hm, Bool.and_false, Bool.not_false,
    Bool.and_true, Bool.or_false, Bool.and_eq_left_iff_imp, decide_eq_true_eq]
  exact BitVec.lt_of_getLsbD

/-- Taking the common part of `x` and `y` away from `x` clears exactly the bits of `y`. -/
theorem testBit_sub_and (x y i : Nat) : (x - (x &&& y)).testBit i = (x.testBit i && !y.testBit i) := by
  have hle : x &&& y ≤ x := Nat.and_le_left
  have hlow : (x &&& y) % 2 = x % 2 &&& y % 2 := Nat.and_mod_two_pow (n := 1)
  have hlow_le : (x &&& y) % 2 ≤ x % 2 := hlow ▸ Nat.and_le_left
  induction i generalizing x y with
  | zero =>
    have hbit : (x - (x &&& y)) % 2 = x % 2 - (x % 2 &&& y % 2) := by omega
    simp only [Nat.testBit_zero, hbit]
    rcases Nat.mod_two_eq_zero_or_one x with hx | hx <;> rcases Nat.mod_two_eq_zero_or_one y with hy | hy <;>
      simp [hx, hy]
  | succ i ih =>
    have hdiv : (x &&& y) / 2 = x / 2 &&& y / 2 := Nat.and_div_two
    have hhalf : (x - (x &&& y)) / 2 = x / 2 - (x / 2 &&& y / 2) := by omega
    have hlow' : (x / 2 &&& y / 2) % 2 = x / 2 % 2 &&& y / 2 % 2 := Nat.and_mod_two_pow (n := 1)
    simp only [Nat.testBit_succ, hhalf]
    exact ih _ _ Nat.and_le_left hlow' (hlow' ▸ Nat.and_le_left)

/-! ## A write, field by field -/

/-- The word `w` once field `f` has taken its part of a write of `val` over `old`: one step of `writtenWord`. -/
def writeField (stopped : Bool) (old val w : BitVec 32) (f : Fld) : BitVec 32 :=
  match f.acc with
  | .rw => if f.accepts (f.get val) then f.put w (f.get val) else w
  | .rws => if stopped && f.accepts (f.get val) then f.put w (f.get val) else w
  | .w1c => f.put w (f.get old - (f.get old &&& f.get val))
  | _ => w

/-- What field `f` reads after a write of `val` over `old`. -/
def fieldAfter (stopped : Bool) (old val : BitVec 32) (f : Fld) : Nat :=
  match f.acc with
  | .rw => if f.accepts (f.get val) then f.get val else f.get old
  | .rws => if stopped && f.accepts (f.get val) then f.get val else f.get old
  | .w1c => f.get old - (f.get old &&& f.get val)
  | _ => f.get old

section

variable (stopped : Bool) (d : RegDesc) (old val w : BitVec 32) (f : Fld)

theorem writtenWord_eq_foldl : writtenWord stopped d old val = d.fields.foldl (writeField stopped old val) old := rfl

/-- A step of the write leaves the word or puts a value in the field. -/
theorem writeField_cases : writeField stopped old val w f = w ∨ ∃ v, writeField stopped old val w f = f.put w v := by
  unfold writeField
  cases f.acc
  case rw | rws => split_ifs <;> simp
  case w1c => exact .inr ⟨_, rfl⟩
  all_goals exact .inl rfl

variable {w f}

theorem get_writeField_self (hf : f.Ok) (hw : f.get w = f.get old) :
    f.get (writeField stopped old val w f) = fieldAfter stopped old val f := by
  unfold writeField fieldAfter
  cases f.acc
  case rw | rws => simp only [apply_ite f.get, f.get_put_of_le_get hf w val le_rfl, hw]
  case w1c => exact f.get_put_of_le_get hf w old (Nat.sub_le _ _)
  all_goals exact hw

theorem get_writeField_apart {g : Fld} (hf : f.Ok) (hg : g.Ok) (h : f.Apart g) :
    g.get (writeField stopped old val w f) = g.get w := by
  obtain hw | ⟨v, hw⟩ := writeField_cases stopped old val w f
  · rw [hw]
  · rw [hw, f.get_put_disjoint g hf hg.1 h]

theorem writeField_getLsbD_outside (hf : f.Ok) {i : Nat} (hi : i < f.lo ∨ f.hi < i) :
    (writeField stopped old val w f).getLsbD i = w.getLsbD i := by
  obtain hw | ⟨v, hw⟩ := writeField_cases stopped old val w f
  · rw [hw]
  · rw [hw, f.put_getLsbD_outside hf w v hi]

theorem get_foldl_writeField_apart {g : Fld} (hg : g.Ok) (fs : List Fld) (hfs : ∀ f ∈ fs, f.Ok ∧ f.Apart g) :
    g.get (fs.foldl (writeField stopped old val) w) = g.get w := by
  induction fs generalizing w with
  | nil => rfl
  | cons f fs ih =>
    obtain ⟨⟨hf, hfg⟩, hfs⟩ := List.forall_mem_cons.1 hfs
    rw [List.foldl_cons, ih hfs, get_writeField_apart stopped old val hf hg hfg]

/-- Fields that share no bit are written independently of one another. -/
theorem get_foldl_writeField (fs : List Fld) (hok : ∀ f ∈ fs, f.Ok) (hapart : fs.Pairwise Fld.Apart) (hf : f ∈ fs)
    (hw : f.get w = f.get old) : f.get (fs.foldl (writeField stopped old val) w) = fieldAfter stopped old val f := by
  induction fs generalizing w with
  | nil => simp at hf
  | cons g fs ih =>
    obtain ⟨hg, htail⟩ := List.forall_mem_cons.1 hok
    obtain ⟨hgfs, hrest⟩ := List.pairwise_cons.1 hapart
    rw [List.foldl_cons]
    obtain rfl | hmem := List.mem_cons.1 hf
    · rw [get_foldl_writeField_apart stopped old val hg fs fun k h => ⟨htail k h, (hgfs k h).symm⟩,
        get_writeField_self stopped old val hg hw]
    · exact ih htail hrest hmem ((get_writeField_apart stopped old val hg (htail f hmem) (hgfs f hmem)).trans hw)

theorem foldl_writeField_getLsbD_outside {i : Nat} (fs : List Fld) (hok : ∀ f ∈ fs, f.Ok)
    (hi : ∀ f ∈ fs, i < f.lo ∨ f.hi < i) : (fs.foldl (writeField stopped old val) w).getLsbD i = w.getLsbD i := by
  induction fs generalizing w with
  | nil => rfl
  | cons f fs ih =>
    obtain ⟨hf, hok⟩ := List.forall_mem_cons.1 hok
    obtain ⟨hif, hi⟩ := List.forall_mem_cons.1 hi
    rw [List.foldl_cons, ih hok hi, writeField_getLsbD_outside stopped old val hf hif]

variable {d}

theorem get_writtenWord (hd : d.FieldsOk) (hf : f ∈ d.fields) :
    f.get (writtenWord stopped d old val) = fieldAfter stopped old val f :=
  get_foldl_writeField stopped old val d.fields hd.1 hd.2 hf rfl

theorem writtenWord_getLsbD_outside (hd : d.FieldsOk) {i : Nat} (hi : ∀ f ∈ d.fields, i < f.lo ∨ f.hi < i) :
    (writtenWord stopped d old val).getLsbD i = old.getLsbD i :=
  foldl_writeField_getLsbD_outside stopped old val d.fields hd.1 hi

end

/-- Settles O36: each field reads what `fieldAfter` gives its access type, and the other bits are untouched. -/
theorem fieldWritesByAccessType : Obligations.FieldWritesByAccessType := by
  intro a d stopped old val hreg
  have hd := fieldsOk_of_regAt hreg
  refine ⟨fun f hf => ?_, fun i _ hi => writtenWord_getLsbD_outside stopped old val hd hi⟩
  rw [get_writtenWord stopped old val hd hf]
  refine ⟨fun h => ?rw, fun h => ?rws, fun h i => ?w1c, fun h => ?unchanged⟩
  case rw | rws => simp only [fieldAfter, h]
  case w1c => simp only [fieldAfter, h, testBit_sub_and]
  case unchanged => obtain h | h | h := h <;> simp only [fieldAfter, h]

end Sys2Proof.Machine
end

