-- ==== Sys2Proof/Proofs/RegisterAccess.lean ====
section
/-!
REGISTER_WRITE and ALIAS_ACCESS (R2, R3, R5, R13, R16–R18): where a write goes, what an aligned write of one to four bytes
meets, and the request that an aliased access becomes.
-/

namespace Sys2Proof.Machine

theorem exec_registerWrite (tag : BitVec 16) (a : BitVec 40) (w : Fin 5) (val : BitVec 32) (s : State) :
    exec (.registerWrite tag a w val) s = execRegisterWrite tag a w val s := rfl

theorem exec_aliasAccess (tag : BitVec 16) (write : Bool) (a : BitVec 40) (w : Fin 5) (val : BitVec 32) (s : State) :
    exec (.aliasAccess tag write a w val) s = execAliasAccess tag write a w val s := rfl

/-! ## The bytes of an access -/

theorem ofNat_leNat_leBytes (v : BitVec 32) : BitVec.ofNat 32 (leNat (leBytes 4 v.toNat)) = v := by
  have hlt : v.toNat < 256 ^ 4 := v.isLt
  rw [leNat_leBytes, Nat.mod_eq_of_lt hlt, BitVec.ofNat_toNat, BitVec.setWidth_eq]

/-- An access that begins at an aligned address and ends in the same word is one piece. -/
theorem pieces_aligned {a n : Nat} (ha : a % 4 = 0) (hn : 0 < n) (hn4 : n ≤ 4) : pieces 4 a n = [(a, n)] := by
  have hone : (a + n - 1) / 4 - a / 4 + 1 = 1 := by omega
  have hword : a / 4 * 4 = a := by omega
  have hne : n ≠ 0 := by omega
  simp only [pieces, wordsOf, if_neg hne, hone, List.range_one, List.map_cons, List.map_nil, Nat.add_zero, hword,
    max_self, min_eq_left (Nat.add_le_add_left hn4 a), Nat.add_sub_cancel_left]

/-! ## Where an access goes -/

/-- Every unit's number is that of an endpoint (R285). -/
theorem unitOf_lt {s : State} {a ep : Nat} (h : unitOf s a = some ep) (ha : 0x4100000000 ≤ a) : ep < 80 := by
  revert h
  unfold unitOf
  dsimp only
  repeat' refine iteInduction (motive := fun o : Option Nat => o = some ep → ep < 80) (fun _ => ?_) (fun _ => ?_)
  all_goals
    intro h
    simp only [Option.some.injEq, reduceCtorEq] at h <;> omega

theorem endpointAt_of_not_alias {s : State} {a : Nat} (h : aliasAt a = none) : endpointAt s a = unitOf s a := by
  simp only [endpointAt, h]

theorem busWrite_of_not_alias {s : State} {a : Nat} (h : aliasAt a = none) (tag : BitVec 16) (bs : List Byte) :
    busWrite s tag a bs = physWrite s tag a bs := by
  simp only [busWrite, h]

theorem physWrite_unmapped {s : State} {a : Nat} (h : unitOf s a = none) (tag : BitVec 16) (bs : List Byte) :
    physWrite s tag a bs = (1, probeStray s 78) := by
  simp only [physWrite, h]

/-- Above the memories an access goes to the unit, unless the unit's endpoint is cut off. -/
theorem physWrite_unit {s : State} {a ep : Nat} (h : unitOf s a = some ep) (ha : 0x4100000000 ≤ a) (tag : BitVec 16)
    (bs : List Byte) :
    physWrite s tag a bs = if epCut s ep then (2, probeIso s ep) else unitWrite s tag ep a bs := by
  have hddr : ¬ a < 0x2000000000 := by omega
  have hpier : inPiers a = false := by
    have hend : ¬ a < Win.piers + 0x800000 := by
      unfold Win.piers
      omega
    simp only [inPiers, hend, decide_false, Bool.and_false]
  simp only [physWrite, h, if_neg hddr, hpier, Bool.false_eq_true, if_false]

theorem execRegisterWrite_not_draining {s : State} {a : BitVec 40} {ep : Nat} (halias : aliasAt a.toNat = none)
    (hunit : unitOf s a.toNat = some ep) (hep : epState s ep ≠ 1) (tag : BitVec 16) (w : Fin 5) (val : BitVec 32) :
    exec (.registerWrite tag a w val) s = .next (physWrite s tag a.toNat (leBytes w val.toNat)).2 := by
  simp only [exec_registerWrite, execRegisterWrite, endpointAt_of_not_alias halias, hunit, if_neg hep,
    busWrite_of_not_alias halias]

theorem execRegisterWrite_unmapped {s : State} {a : BitVec 40} (halias : aliasAt a.toNat = none)
    (hunit : unitOf s a.toNat = none) (tag : BitVec 16) (w : Fin 5) (val : BitVec 32) :
    exec (.registerWrite tag a w val) s = .next (probeStray s 78) := by
  simp only [exec_registerWrite, execRegisterWrite, endpointAt_of_not_alias halias, hunit, busWrite_of_not_alias halias,
    physWrite_unmapped hunit]

/-! ## What an aligned write meets -/

section

variable {a : Nat} {d : RegDesc} (hreg : windowAt a = .register d) (ha : a % 4 = 0)

include hreg ha

theorem wordWrite_register (s : State) (tag : BitVec 16) (bs : List Byte) :
    wordWrite s tag a bs =
      (0, if bs.length = 4 then registerWrite s tag d a (BitVec.ofNat 32 (leNat bs)) else s) := by
  have hword : a / 4 * 4 = a := by omega
  simp only [wordWrite, hword, hreg]

theorem reservedOnly_register (n : Nat) :
    reservedOnly a n = (decide (n < 4) && d.fields.all (fun f => 8 * n ≤ f.lo)) := by
  have hword : a / 4 * 4 = a := by omega
  simp [reservedOnly, hword, hreg, ha]

/-- A write of a whole word at a register's address writes the register. -/
theorem unitWrite_word (s : State) (tag : BitVec 16) (ep : Nat) (val : BitVec 32) :
    unitWrite s tag ep a (leBytes 4 val.toNat) = (0, registerWrite s tag d a val) := by
  simp [unitWrite, pieces_aligned ha, wordWrite_register hreg ha, reservedOnly_register hreg ha, joinStatus,
    ofNat_leNat_leBytes, List.take_of_length_le]

/-- A write of the low bytes of a register leaves it, and counts where all of these lie in reserved bits. -/
theorem unitWrite_part (s : State) (tag : BitVec 16) (ep : Nat) {n v : Nat} (hpos : 0 < n) (hlt : n < 4) :
    unitWrite s tag ep a (leBytes n v) =
      (0, if d.fields.all (fun f => 8 * n ≤ f.lo) then probeStray s ep else s) := by
  simp only [unitWrite, length_leBytes, pieces_aligned ha hpos hlt.le, List.foldl_cons, List.foldl_nil,
    List.any_cons, List.any_nil, wordWrite_register hreg ha, reservedOnly_register hreg ha, joinStatus, hlt,
    Nat.sub_self, List.drop_zero, List.length_take, min_self, hlt.ne, if_true, if_false, decide_true, Bool.true_and,
    Bool.or_false, zero_ne_one]
  split_ifs <;> rfl

end

/-- Outside the windows whose writes act, a write takes effect by the access types alone: the tracker's registers. -/
theorem registerWrite_tracker {a : Nat} (hlo : 0x4300000000 ≤ a) (hhi : a < 0x4310000000) (s : State) (tag : BitVec 16)
    (d : RegDesc) (val : BitVec 32) : registerWrite s tag d a val = plainWrite s d a val := by
  have hspan : ¬ a < 0x4200000000 := by omega
  have hregion : ¬ a < 0x4300000000 := by omega
  have hctl : a ≠ Reg.LG_CTL := by unfold Reg.LG_CTL; omega
  have hseg : a ≠ Reg.LG_SEG_CTL := by unfold Reg.LG_SEG_CTL; omega
  have htop : a < 0x4400000000 := by omega
  simp only [registerWrite, hspan, hregion, hctl, hseg, htop, if_false, if_true]

/-! ## Aliased accesses -/

theorem Alias.target_lt {x : Alias} {a : Nat} (h : aliasAt a = some x) (m : Fin 17) :
    (x.target m).1 < 2 ^ 40 ∧ (x.target m).2.1 < 80 ∧ (x.target m).2.2 < 2 ^ 16 := by
  obtain ⟨r, g, o⟩ := x
  have ho : o < 0x1000000 := by
    unfold aliasAt at h
    split_ifs at h <;> cases h <;> omega
  cases g
  all_goals
    simp only [Alias.target, spanTag, regionTag, if_true, if_false, Bool.false_eq_true]
    split_ifs <;> omega

/-- An aliased access whose role is placed leaves as a request to the pair that holds the role, with the role's tag. -/
theorem execAliasAccess_placed {a : BitVec 40} {x : Alias} {m : Fin 17} {s : State} {w : Fin 5} (hw : w ≠ 0)
    (halias : aliasAt a.toNat = some x) (hpair : pairOf s x.role = some m) (tag : BitVec 16) (write : Bool)
    (val : BitVec 32) :
    ∃ t p, exec (.aliasAccess tag write a w val) s = .next t ∧ t.cw.net = s.cw.net ++ [p] ∧
      p.addr = BitVec.ofNat 40 (x.target m).1 ∧ p.dst = Fin.ofNat 80 (x.target m).2.1 ∧
      p.dtag = BitVec.ofNat 16 (x.target m).2.2 ∧ p.stag = tag ∧ p.kind = (if write then 1 else 0) ∧ p.count = w.val ∧
      p.data = (if write then leBytes w val.toNat else []) ∧ t = { s with cw := t.cw } := by
  have hpair' (f : Causeway → Causeway) : pairOf (modifyCw s f) x.role = some m := hpair
  simp only [exec_aliasAccess, execAliasAccess, halias, hw, Option.isNone_some, Bool.false_eq_true, or_false, if_false,
    aliasForward, Option.bind_some, hpair', Option.map_some]
  exact ⟨_, _, rfl, rfl, rfl, rfl, rfl, rfl, rfl, rfl, rfl, rfl⟩

/-! ## REGISTER_WRITE by the state of the endpoint (R295, R296) -/

/-- A write to a register of an ONLINE unit: a whole word writes it, one or two low bytes leave it (R2, R5). -/
theorem execRegisterWrite_online {a : BitVec 40} {ep : Nat} {d : RegDesc} {s : State} (halias : aliasAt a.toNat = none)
    (hreg : windowAt a.toNat = .register d) (hmod : a.toNat % 4 = 0) (ha : 0x4100000000 ≤ a.toNat)
    (hunit : unitOf s a.toNat = some ep) (hep : epState s ep = 0) (tag : BitVec 16) (val : BitVec 32) :
    exec (.registerWrite tag a 4 val) s = .next (registerWrite s tag d a.toNat val) ∧
      ∀ n : Fin 5, n = 1 ∨ n = 2 → exec (.registerWrite tag a n val) s =
        .next (if d.fields.all (fun f => 8 * n.val ≤ f.lo) then probeStray s ep else s) := by
  have hcut : epCut s ep = false := by simp [epCut, hep]
  have hexec (w : Fin 5) : exec (.registerWrite tag a w val) s =
      .next (unitWrite s tag ep a.toNat (leBytes w val.toNat)).2 := by
    rw [execRegisterWrite_not_draining halias hunit (by omega), physWrite_unit hunit ha, hcut]
    rfl
  refine ⟨?_, fun n hn => ?_⟩
  · rw [hexec]
    exact congrArg (fun r : Nat × State => Host.Outcome.next r.2) (unitWrite_word hreg hmod s tag ep val)
  · rw [hexec, unitWrite_part hreg hmod s tag ep (by omega) (by omega)]

/-- A write to a unit that is ISOLATED or OFF counts at its probe (R295). -/
theorem execRegisterWrite_cut {a : BitVec 40} {ep : Nat} {s : State} (halias : aliasAt a.toNat = none)
    (ha : 0x4100000000 ≤ a.toNat) (hunit : unitOf s a.toNat = some ep) (hep : 2 ≤ epState s ep) (tag : BitVec 16)
    (w : Fin 5) (val : BitVec 32) : exec (.registerWrite tag a w val) s = .next (probeIso s ep) := by
  have hcut : epCut s ep = true := by simp [epCut, hep]
  rw [execRegisterWrite_not_draining halias hunit (by omega), physWrite_unit hunit ha, hcut]
  rfl

/-- A write to a unit that is DRAINING waits at its router (R296). -/
theorem execRegisterWrite_draining {a : BitVec 40} {ep : Nat} {s : State} (halias : aliasAt a.toNat = none)
    (hunit : unitOf s a.toNat = some ep) (hep : epState s ep = 1) (tag : BitVec 16) (w : Fin 5) (val : BitVec 32) :
    ∃ t p, exec (.registerWrite tag a w val) s = .next t ∧ t.cw.held = s.cw.held ++ [p] ∧ p.addr = a ∧ p.kind = 1 ∧
      p.count = w.val ∧ p.data = leBytes w val.toNat ∧ p.stag = tag ∧ p.dst = Fin.ofNat 80 ep ∧
      t = { s with cw := t.cw } := by
  simp only [exec_registerWrite, execRegisterWrite, endpointAt_of_not_alias halias, hunit, hep, if_true]
  exact ⟨_, _, rfl, rfl, rfl, rfl, rfl, rfl, rfl, rfl, rfl⟩

/-- Settles O37: an access goes by the state of the endpoint it leads to; an aliased one becomes a request. -/
theorem registerAccessCommandsComplete : Obligations.RegisterAccessCommandsComplete := by
  refine ⟨fun tag a ep d val s halias hreg hmod ha hunit => ⟨fun hep => ?online, fun hep => ?draining, fun hep w => ?cut⟩,
    fun tag a w val s halias hunit => execRegisterWrite_unmapped halias hunit tag w val,
    fun tag write a w val x m s hw halias hpair => ?placed⟩
  case online =>
    obtain ⟨hword, hpart⟩ := execRegisterWrite_online halias hreg hmod ha hunit hep tag val
    refine ⟨hword, fun hlo hhi => ?_, hpart⟩
    rw [hword, registerWrite_tracker hlo hhi]
    rfl
  case draining =>
    obtain ⟨t, p, hexec, hheld, haddr, hkind, hcount, hdata, htag, hdst, hframe⟩ :=
      execRegisterWrite_draining halias hunit hep tag 4 val
    refine ⟨t, p, hexec, hheld, haddr, hkind, hcount, hdata, htag, ?_, hframe⟩
    rw [hdst, Fin.val_ofNat, Nat.mod_eq_of_lt (unitOf_lt hunit ha)]
  case cut => exact execRegisterWrite_cut halias ha hunit hep tag w val
  case placed =>
    obtain ⟨t, p, hexec, hnet, haddr, hdst, hdtag, hstag, hkind, hcount, hdata, hframe⟩ :=
      execAliasAccess_placed hw halias hpair tag write val
    obtain ⟨haddr_lt, hdst_lt, hdtag_lt⟩ := Alias.target_lt halias m
    refine ⟨t, p, hexec, hnet, ?_, ?_, ?_, hstag, hkind, hcount, hdata, hframe⟩
    · rw [haddr, BitVec.toNat_ofNat, Nat.mod_eq_of_lt haddr_lt]
    · rw [hdst, Fin.val_ofNat, Nat.mod_eq_of_lt hdst_lt]
    · rw [hdtag, BitVec.toNat_ofNat, Nat.mod_eq_of_lt hdtag_lt]

end Sys2Proof.Machine
end

