-- ==== Sys2Proof/Proofs/CanonicalForms.lean ====
section
/-!
PROOFS. Canonical form (State.Canonical) through the ways a function of the model is put together: updates of other fields,
choices, results with several parts and folds. `NextCanonical` is what each instruction is shown to meet; the files after
this one have one lemma for each function of the model, named after it, in the order of the model's files.
-/

namespace Sys2Proof.Machine
/-- An outcome that goes on does so in canonical form. -/
def NextCanonical (o : Host.Outcome State Fault Refusal) : Prop := ∀ t, o = .next t → t.Canonical

namespace NextCanonical

theorem next {t : State} (h : t.Canonical) : NextCanonical (.next t) := fun _ e => Host.Outcome.next.inj e ▸ h

theorem ite {c : Prop} [Decidable c] {a b : Host.Outcome State Fault Refusal} (ha : NextCanonical a)
    (hb : NextCanonical b) : NextCanonical (if c then a else b) := by
  split <;> assumption

end NextCanonical

namespace State.Canonical

variable {c : Prop} {_ : Decidable c} {s t u : State} {α β γ : Type}

/-- An update of any fields other than the two stores. -/
theorem update (hs : s.Canonical) {errs parity arrays micros ctls heads regions rx trk jointFlags jointSpan jointBelow cw
    slOut reports trusted pads lg rf cr tm rn d5 kp eh ownerStage muted pl ab up fh pk now raises freeCtr pending} :
    State.Canonical ⟨s.regs, s.mem, errs, parity, arrays, micros, ctls, heads, regions, rx, trk, jointFlags, jointSpan,
      jointBelow, cw, slOut, reports, trusted, pads, lg, rf, cr, tm, rn, d5, kp, eh, ownerStage, muted, pl, ab, up, fh,
      pk, now, raises, freeCtr, pending⟩ := hs

theorem clear (hs : s.Canonical) {lo hi : Nat} : State.Canonical { s with mem := s.mem.clear lo hi } :=
  ⟨hs.1, Memory.wf_clear hs.2 lo hi⟩

theorem ofReset : State.reset.Canonical := ⟨⟨.nil, by simp [State.reset]⟩, .nil, by simp [State.reset]⟩

/-! ## The state in a result with several parts -/

theorem ofSnd {x : α × State} {a : α} (h : x.2.Canonical) (e : x = (a, t)) : t.Canonical := by
  rw [e] at h
  exact h

theorem ofSnd2 {x : α × β × State} {a : α} {b : β} (h : x.2.2.Canonical) (e : x = (a, b, t)) : t.Canonical := by
  rw [e] at h
  exact h

/-! ## Choices -/

theorem ite (ht : t.Canonical) (hu : u.Canonical) : (if c then t else u).Canonical := by
  split <;> assumption

/-- Both branches go on from the one state. -/
theorem branch (h : s.Canonical) (ht : s.Canonical → t.Canonical) (hu : s.Canonical → u.Canonical) :
    (if c then t else u).Canonical := ite (ht h) (hu h)

theorem ifThen (h : s.Canonical) (ht : s.Canonical → t.Canonical) : (if c then t else s).Canonical := ite (ht h) h

theorem ifElse (h : s.Canonical) (ht : s.Canonical → t.Canonical) : (if c then s else t).Canonical := ite h (ht h)

theorem dite {t : c → State} {u : ¬c → State} (ht : ∀ h, (t h).Canonical) (hu : ∀ h, (u h).Canonical) :
    (if h : c then t h else u h).Canonical := by
  split <;> apply_assumption

theorem iteSnd {x y : α × State} (hx : x.2.Canonical) (hy : y.2.Canonical) : (if c then x else y).2.Canonical := by
  split <;> assumption

theorem iteFst {x y : State × α} (hx : x.1.Canonical) (hy : y.1.Canonical) : (if c then x else y).1.Canonical := by
  split <;> assumption

theorem iteSnd2 {x y : α × β × State} (hx : x.2.2.Canonical) (hy : y.2.2.Canonical) :
    (if c then x else y).2.2.Canonical := by
  split <;> assumption

/-! ## Folds that carry the state in an accumulator -/

theorem foldlFst {f : State × β → α → State × β} (hf : ∀ x a, x.1.Canonical → (f x a).1.Canonical) {l : List α}
    {x : State × β} (h : x.1.Canonical) : (l.foldl f x).1.Canonical :=
  List.foldlRecOn (motive := fun x => x.1.Canonical) l f h (fun x hx a _ => hf x a hx)

theorem foldlSnd {f : β × State → α → β × State} (hf : ∀ x a, x.2.Canonical → (f x a).2.Canonical) {l : List α}
    {x : β × State} (h : x.2.Canonical) : (l.foldl f x).2.Canonical :=
  List.foldlRecOn (motive := fun x => x.2.Canonical) l f h (fun x hx a _ => hf x a hx)

theorem foldlSnd2 {f : γ × β × State → α → γ × β × State} (hf : ∀ x a, x.2.2.Canonical → (f x a).2.2.Canonical)
    {l : List α} {x : γ × β × State} (h : x.2.2.Canonical) : (l.foldl f x).2.2.Canonical :=
  List.foldlRecOn (motive := fun x => x.2.2.Canonical) l f h (fun x hx a _ => hf x a hx)

end State.Canonical

end Sys2Proof.Machine
end

