-- ==== Sys2Proof/Proofs/CanonicalSpans.lean ====
section
/-!
PROOFS. The functions of spans keep the stores canonical: operations, arrays, micro-programs, control and lease.
-/

namespace Sys2Proof.Machine.State.Canonical

variable {s x1 : State} {n m : Fin 17} {a k c cause i x0 x row x2 ord next : Nat} {j : Fin 16} {w : Nano}
  {ups : List Upset} {flips : List JointFlip} {d : Fin 2} {p : Packet} {v : BitVec 32} {east : Bool} {o : ArrayOp}
  {bs : List Byte} {f : Flow}

/-! ## Ops -/

theorem setErr {m : Nat} (hs : s.Canonical) : (State.setErr s a m).Canonical := hs.update

theorem clearErrs {lo hi : Nat} (hs : s.Canonical) : (State.clearErrs s lo hi).Canonical := hs.update

theorem draw {w : Nat} (hs : s.Canonical) : (State.draw s w).2.Canonical := hs.update

/-! ## Array -/

theorem refreshJoints (hs : s.Canonical) : (Machine.refreshJoints s).Canonical :=
  .foldl (fun _ _ h1 => (h1.setFld _ _ _).setFld _ _ _) _ _ hs

theorem parityReport {m : Nat} {groups : List Nat} {onWrite : Bool} (hs : s.Canonical) :
    (Machine.parityReport s m row groups onWrite).Canonical := by
  unfold Machine.parityReport
  split
  · exact hs
  · exact ((hs.bump _ _ _).branch (·.setFld _ _ _) (fun h1 =>
      ((((h1.setFld _ _ _).setFld _ _ _).setFld _ _ _).setFld _ _ _).setFld _ _ _)).raise _ _

theorem readRow (hs : s.Canonical) : (Machine.readRow s m row).2.Canonical := hs.parityReport

theorem handPlane {c : SpanCtl} {fmt : BitVec 15} {t : BitVec 16384} (hs : s.Canonical) :
    (Machine.handPlane s m c fmt t).Canonical :=
  .ite (hs.bump _ _ _) (.ite ((hs.bump _ _ _).setExt _ _) (.ite (hs.setExt _ _) (hs.setExt _ _)))

theorem extract {fmt : BitVec 15} {last : Bool} {ts : List (Fin 17 × BitVec 16384)} (hs : s.Canonical) :
    (Machine.extract s n fmt last ts).Canonical :=
  .ite hs ((foldl (fun _ _ h1 => h1.handPlane) _ _ hs).ifElse (fun h2 => (ite (h2.bump _ _ _) h2).branch (fun h3 =>
    (foldl (fun _ _ h4 => h4.setExt _ _) _ _ h3).setCtl _ _) (·.setCtl _ _)))

theorem retime {ms : List (Fin 17)} (hs : s.Canonical) : (Machine.retime s ms).Canonical :=
  .foldl (fun _ _ h1 => h1.setArray _ _) _ _ hs

/-! ## SpanOps -/

theorem snapRowRead (hs : s.Canonical) : (Machine.snapRowRead s n).Canonical := by
  unfold Machine.snapRowRead
  split
  · exact hs
  · refine .ite hs (setCtl ?_ _ _)
    refine foldlSnd (fun _ _ h => ?_) hs
    exact h.readRow

theorem readRest {k : Nat} (hs : s.Canonical) : (Machine.readRest n k s).Canonical := by
  induction k generalizing s with
  | zero => exact hs
  | succ k ih => exact ih hs.snapRowRead

theorem undefineRow {gated : Bool} (hs : s.Canonical) : (Machine.undefineRow s m row gated).Canonical := by
  unfold Machine.undefineRow
  split
  have h1 := hs.draw.ofSnd ‹_›
  split
  have h2 := h1.draw.ofSnd ‹_›
  exact h2.setArray _ _

theorem drawPlane (hs : s.Canonical) : (Machine.drawPlane s).2.Canonical := by
  unfold Machine.drawPlane
  split
  have h1 := hs.draw.ofSnd ‹_›
  split
  have h2 := h1.draw.ofSnd ‹_›
  exact h2

theorem undefineRegs {mToo : Bool} (hs : s.Canonical) : (Machine.undefineRegs s m mToo).Canonical := by
  unfold Machine.undefineRegs
  split
  have h1 := hs.drawPlane.ofSnd ‹_›
  split
  have h2 := h1.drawPlane.ofSnd ‹_›
  split
  have h3 := h2.drawPlane.ofSnd ‹_›
  split
  have h4 := h3.drawPlane.ofSnd ‹_›
  split
  have h5 := h4.drawPlane.ofSnd ‹_›
  split
  have h6 := h5.draw.ofSnd ‹_›
  split
  have h7 := h6.draw.ofSnd ‹_›
  split
  have h8 := ofSnd (.iteSnd h7.drawPlane h7) ‹_›
  exact h8.setArray _ _

theorem abortSets (hs : s.Canonical) : (Machine.abortSets s n).Canonical :=
  .ite hs ((foldl (fun _ _ h1 => (h1.setExt _ _).bump _ _ _) _ _ hs).setCtl _ _)

theorem traceMark {bit : Nat} (hs : s.Canonical) : (Machine.traceMark s n bit).Canonical := by
  unfold Machine.traceMark
  split
  · exact hs
  · exact hs.writeLE _ _ _

theorem abortOp (hs : s.Canonical) : (Machine.abortOp s n).Canonical := by
  unfold Machine.abortOp
  split
  · exact hs.setFld _ _ _
  · exact (((((foldl (fun _ _ h1 => (foldl (fun _ _ h2 => h2.undefineRow) _ _ h1).undefineRegs) _ _
      (((hs.traceMark.setFld _ _ _).setFld _ _ _).setFld _ _ _)).setFld _ _ _).setFld _ _ _).setFld _ _ _).setFld _ _ _).setMicro _ _

theorem showStop {state stop : Nat} (hs : s.Canonical) : (Machine.showStop s n state cause stop).Canonical :=
  .foldl (fun _ _ h1 => ((h1.setFld _ _ _).setFld _ _ _).setFld _ _ _) _ _ hs

theorem raiseSpc {pay : BitVec 32} (hs : s.Canonical) : (Machine.raiseSpc s m k pay).Canonical := hs.raise _ _

theorem becomeStopped {stop : Nat} (hs : s.Canonical) : (Machine.becomeStopped s n cause stop).Canonical :=
  hs.showStop.raiseSpc.ifThen (fun h1 => (h1.setFld _ _ _).raise _ _)

theorem stopNow (hs : s.Canonical) : (Machine.stopNow s n cause).Canonical := by
  unfold Machine.stopNow
  refine .ite hs ((setCtl ?_ _ _).branch (·.showStop) (·.becomeStopped))
  split
  · exact hs.readRest.abortOp.abortSets.bump _ _ _
  · exact (hs.readRest.abortOp.abortSets.bump _ _ _).update

theorem stopNowFault (hs : s.Canonical) : (Machine.stopNowFault s m).Canonical := hs.stopNow

theorem setSlotState {n v : Nat} (hs : s.Canonical) : (Machine.setSlotState s n k v).Canonical := hs.writeLE _ _ _

theorem setSlotFlags {n v : Nat} (hs : s.Canonical) : (Machine.setSlotFlags s n k v).Canonical := hs.writeLE _ _ _

theorem showSlots (hs : s.Canonical) : (Machine.showSlots s n).Canonical :=
  ((hs.setFld _ _ _).setFld _ _ _).setFld _ _ _

theorem consumeEntries (hs : s.Canonical) : (Machine.consumeEntries s m k).Canonical :=
  ((foldl (fun _ _ h1 => h1.setSlotState) _ _ hs).setRegion _ _).showSlots

theorem nameLine {l : GroupLine} (hs : s.Canonical) : (Machine.nameLine s n ord l).Canonical :=
  (foldl (fun _ _ h1 => (h1.setExt _ _).setCtl _ _) _ _ hs).setCtl _ _

theorem refreshServed {fuel : Nat} (hs : s.Canonical) : (Machine.refreshServed fuel s n).Canonical := by
  induction fuel generalizing s with
  | zero => exact hs
  | succ fuel ih =>
    unfold Machine.refreshServed
    refine .ite hs ?_
    dsimp only
    split
    · exact hs
    · exact .branch (foldl (fun _ _ h => h.consumeEntries) _ _ hs).nameLine (·.setCtl _ _)
        (fun h => ih ((foldl (fun _ _ h => h.consumeEntries) _ _ h).setCtl _ _))

theorem startSpan (hs : s.Canonical) : (Machine.startSpan s n).Canonical :=
  (((foldl (fun _ _ h1 => (((((h1.setCtl _ _).setArray _ _).setExt _ _).setRegion _ _).setMicro _ _).setFld _ _ _) _ _
    hs).setFld _ _ _).setFld _ _ _).showStop

theorem startWaiting (hs : s.Canonical) : (Machine.startWaiting s n).Canonical := .ite hs.startSpan hs

theorem scratchCheck (hs : s.Canonical) : (Machine.scratchCheck s n a).Canonical := by
  unfold Machine.scratchCheck
  split
  · exact hs
  · exact hs.setErr.bump _ _ _
  · exact hs.stopNow.raiseSpc

/-! ## Micro -/

theorem strandQueue {forwarded : Bool} {msg : StrandMsg} (hs : s.Canonical) :
    (Machine.strandQueue s east forwarded msg).Canonical :=
  hs.update

theorem strandSend {msg : StrandMsg} (hs : s.Canonical) : (Machine.strandSend s east msg).Canonical := hs.strandQueue

theorem captureSend (hs : s.Canonical) : (Machine.captureSend s m).Canonical :=
  .foldl (fun _ _ h1 => (ite h1.strandSend h1).ifThen (·.strandSend)) _ _ (hs.setCtl _ _)

theorem captureRead (hs : s.Canonical) : (Machine.captureRead s n).Canonical :=
  .foldl (fun _ _ h1 => by split; exacts [h1.captureSend, (h1.readRow.setCtl _ _).captureSend]) _ _ hs

theorem snapRead (hs : s.Canonical) : (Machine.snapRead s n).Canonical := by
  unfold Machine.snapRead
  split
  · exact .ite hs.snapRowRead hs.captureRead
  · exact hs.captureRead

theorem idleCycle {wait hold : Bool} {cond : Nat} (hs : s.Canonical) :
    (Machine.idleCycle s n wait hold cond).Canonical :=
  (((((hs.setFld _ _ _).setFld _ _ _).setFld _ _ _).setMicro _ _).ifThen (·.traceMark)).retime.snapRead

theorem storeParity {nano : Bool} {addr : Nat} (hs : s.Canonical) : (Machine.storeParity s n nano addr).Canonical :=
  ((hs.bump _ _ _).raise _ _).stopNow

theorem flagJoint {q : Fin 3} (hs : s.Canonical) : (Machine.flagJoint s j q n).Canonical :=
  .ite hs (hs.update.setFld _ _ _)

theorem jointParityError {d : Nat × Nat} (hs : s.Canonical) : (Machine.jointParityError s j d).Canonical :=
  (hs.bump _ _ _).flagJoint.update.raise _ _

theorem jointParity {ms : List (Fin 17)} (hs : s.Canonical) : (Machine.jointParity s ms flips).Canonical :=
  .foldl (fun _ _ h1 => .dite (fun _ => by split; exacts [h1, .ite h1.jointParityError h1]) (fun _ => h1)) _ _ hs

theorem haloPlane {h : Option Halo} (hs : s.Canonical) : (Machine.haloPlane s h i).2.Canonical := by
  unfold Machine.haloPlane
  split
  · exact hs
  · split
    · exact hs
    · exact hs.draw

theorem loadHalo (hs : s.Canonical) : (Machine.loadHalo s n m i).Canonical :=
  (ite ((ite (hs.bump _ _ _) hs).haloPlane.setArray _ _) hs).ifThen (fun h1 => (ite (h1.bump _ _ _)
    h1).haloPlane.setArray _ _)

theorem issueSpan {s0 : State} {con : Bool} {im : Fin 17 × Nat} (ht : s.Canonical) :
    (Machine.issueSpan s0 n w row con flips s im).Canonical := by
  unfold Machine.issueSpan
  refine .ite ((((ite ht.parityReport ht).ifThen (·.parityReport)).ifElse (·.draw)).setArray _ _) (.ite ((((ite
    ht.parityReport ht).ifThen (·.parityReport)).ifElse (·.draw)).setArray _ _) (.ite (.ite (((((ite ht.parityReport
    ht).ifThen (·.parityReport)).ifElse (·.draw)).setArray _ _).bump _ _ _) ?_) ((((ite ht.parityReport ht).ifThen
    (·.parityReport)).ifElse (·.draw)).setArray _ _)))
  split
  · exact (((ite ht.parityReport ht).ifThen (·.parityReport)).ifElse (·.draw)).setArray _ _
  · exact (((ite ht.parityReport ht).ifThen (·.parityReport)).ifElse (·.draw)).setArray _ _

theorem issueRequests (hs : s.Canonical) : (Machine.issueRequests s n w o).Canonical := hs.setMicro _ _

theorem issueNext {next : Option PathState} (hs : s.Canonical) : (Machine.issueNext s n w next).Canonical := by
  unfold Machine.issueNext
  extract_lets
  split <;> exact ((((hs.setFld _ _ _).setFld _ _ _).setFld _ _ _).setFld _ _ _).setMicro _ _

theorem issue {u : Micro} (hs : s.Canonical) : (Machine.issue s n o u w flips).Canonical :=
  (((((foldl (fun _ _ h2 => h2.setArray _ _) _ _ (.foldl (fun _ _ h1 => h1.issueSpan) _ _ hs)).ifThen
    (·.setCtl _ _)).ifThen (fun h4 => .foldl (fun _ _ h5 => h5.loadHalo) _ _ h4)).issueRequests.ifThen
    (·.extract)).ifThen (·.snapRead)).issueNext

theorem countHolds (hs : s.Canonical) : (Machine.countHolds s n w).Canonical :=
  (foldl (fun _ _ h4 => .foldl (fun _ _ h5 => h5.bump _ _ _) _ _ h4) _ _ ((ite (.foldl (fun _ _ h1 =>
    h1.bump _ _ _) _ _ hs) hs).ifThen (fun h2 => .foldl (fun _ _ h3 => h3.bump _ _ _) _ _ h2))).ifThen (·.bump _ _ _)

theorem execNanoWordIssue (hs : s.Canonical) : NextCanonical (Machine.execNanoWordIssue n ups flips s) := by
  unfold Machine.execNanoWordIssue
  refine .ite (.next (hs.applyUpsets _)) ?_
  extract_lets
  split
  · exact .next ((hs.applyUpsets _).jointParity.bump _ _ _).retime.snapRead
  · exact .ite (.next (hs.applyUpsets _).jointParity.retime) (.ite (.next (hs.applyUpsets _).jointParity.storeParity)
      (.ite (.next (hs.applyUpsets _).jointParity.storeParity) (.ite (.next
      ((hs.applyUpsets _).jointParity.bump _ _ _).idleCycle) (.ite (.next
      (hs.applyUpsets _).jointParity.countHolds.idleCycle) (.next (hs.applyUpsets _).jointParity.issue)))))

theorem execGlobalOrResult (hs : s.Canonical) : NextCanonical (Machine.execGlobalOrResult n s) := by
  unfold Machine.execGlobalOrResult
  extract_lets
  split
  · exact .next hs
  · exact .next (hs.setMicro _ _)

theorem execGaugeResult (hs : s.Canonical) : NextCanonical (Machine.execGaugeResult n s) := by
  unfold Machine.execGaugeResult
  extract_lets
  split
  · exact .next hs
  · exact .next (hs.setMicro _ _)

theorem resetSpanRegs {n : Nat} (hs : s.Canonical) : (Machine.resetSpanRegs s n).Canonical :=
  ⟨RegStore.wf_filter hs.1 _, hs.2⟩

theorem execSpanReset {powerUp : Bool} (hs : s.Canonical) : NextCanonical (Machine.execSpanReset n powerUp s) :=
  .next (((hs.setArray _ _).ifElse (fun h1 =>
    (((h1.resetSpanRegs.setMicro _ _).setCtl _ _).setExt _ _).refreshJoints)).setFld _ _ _)

theorem sweepEnd {x : SpanArray} (hs : s.Canonical) : (Machine.sweepEnd s n x).Canonical :=
  (hs.setArray _ _).ifThen (fun h1 => (h1.setFld _ _ _).startWaiting)

theorem execInitSweepDone (hs : s.Canonical) : NextCanonical (Machine.execInitSweepDone n s) :=
  .ite (.next hs.sweepEnd) (.next hs)

theorem writeSpareMap {t w : Nat} {val : BitVec 32} (hs : s.Canonical) :
    (Machine.writeSpareMap s n t w val).Canonical :=
  .ite hs (.ite hs (((hs.setReg _ _).setArray _ _).setFld _ _ _))

theorem execSpareMapWrite {t : Fin 16} {w : Fin 8} {val : BitVec 32} (hs : s.Canonical) :
    NextCanonical (Machine.execSpareMapWrite n t w val s) :=
  .next hs.writeSpareMap

theorem execParitySweepDone (hs : s.Canonical) : NextCanonical (Machine.execParitySweepDone n s) :=
  .ite (.next hs.sweepEnd) (.next hs)

theorem showMeasure {m : JointMeasure} (hs : s.Canonical) : (Machine.showMeasure s j m).Canonical :=
  (((((hs.update.setFld _ _ _).setFld _ _ _).setFld _ _ _).setFld _ _ _).setFld _ _ _).setFld _ _ _

theorem execJointBreach {m : JointMeasure} (hs : s.Canonical) : NextCanonical (Machine.execJointBreach j m s) := by
  unfold Machine.execJointBreach
  dsimp only
  split
  · exact .next hs.showMeasure
  · exact .next ((hs.showMeasure.update.setFld _ _ _).raise _ _)

theorem execJointFlagClear {q : Fin 3} {m : JointMeasure} (hs : s.Canonical) :
    NextCanonical (Machine.execJointFlagClear j q m s) :=
  .ite (.next hs.showMeasure) (.next (.foldl (fun _ _ h1 => .ite h1 (h1.setFld _ _ _)) _ _ hs.showMeasure.update))

theorem traceOp (hs : s.Canonical) : (Machine.traceOp s n o).Canonical :=
  .ite (hs.setMicro _ _) ((((hs.writeLE _ _ _).ifThen (·.setFld _ _ _)).setFld _ _ _).setMicro _ _)

theorem execOperationStart (hs : s.Canonical) : NextCanonical (Machine.execOperationStart n s) := by
  unfold Machine.execOperationStart
  split
  · extract_lets
    split
    · exact .next (((hs.setCtl _ _).traceOp.setFld _ _ _).bump _ _ _).retime
    · exact .next ((((((hs.setCtl _ _).traceOp.setFld _ _ _).setFld _ _ _).setFld _ _ _).ifThen (fun h1 =>
        (h1.bump _ _ _).retime)).setMicro _ _)
  · exact .next hs

theorem execMsWaitLong (hs : s.Canonical) : NextCanonical (Machine.execMsWaitLong n s) :=
  .ite (.next ((hs.setMicro _ _).raise _ _)) (.next hs)

/-! ## NetOps -/

theorem probeStray (hs : s.Canonical) : (Machine.probeStray s i).Canonical := hs.bump _ _ _

theorem probeIso (hs : s.Canonical) : (Machine.probeIso s i).Canonical := hs.bump _ _ _

theorem probeStale (hs : s.Canonical) : (Machine.probeStale s i).Canonical := hs.bump _ _ _

theorem modifyCw {f : Causeway → Causeway} (hs : s.Canonical) : (Machine.modifyCw s f).Canonical := hs.update

theorem modifyWay {f : UcieWay → UcieWay} (hs : s.Canonical) : (Machine.modifyWay s d f).Canonical := hs.modifyCw

theorem sendPayload {f : Option LinkFlit} (hs : s.Canonical) : (Machine.sendPayload s d f).Canonical :=
  hs.modifyWay.modifyWay

theorem crossFlit {f : LinkFlit} (hs : s.Canonical) : (Machine.crossFlit d s f).Canonical :=
  (ite hs.sendPayload hs).sendPayload

theorem crossFlits {fs : List LinkFlit} (hs : s.Canonical) : (Machine.crossFlits s d fs).Canonical :=
  .foldl (fun _ _ h1 => h1.crossFlit) _ _ hs.modifyWay.modifyWay

theorem crossInto {enter : State → Packet → State} (hs : s.Canonical)
    (hfenter : ∀ a0 a1, a0.Canonical → (enter a0 a1).Canonical) :
    (Machine.crossInto s p enter).Canonical :=
  .ite (hfenter _ _ hs.crossFlits) hs.modifyWay

theorem enterMesh (hs : s.Canonical) : (Machine.enterMesh s p).Canonical := hs.modifyCw

theorem leaveEndpoint (hs : s.Canonical) : (Machine.leaveEndpoint s p).Canonical :=
  .ite (hs.crossInto (fun _ _ h1 => h1.enterMesh)) hs.enterMesh

theorem sendKept (hs : s.Canonical) : (Machine.sendKept s i).Canonical :=
  .foldl (fun _ _ h1 => h1.leaveEndpoint) _ _ hs.modifyCw

theorem offerPacket (hs : s.Canonical) : (Machine.offerPacket s p).Canonical :=
  .ite (hs.sendPacket _) (.ite ((hs.bump _ _ _).sendPacket _) (.ite (hs.modifyCw.sendPacket _) ((hs.bump _ _ _).ifElse
    (·.raise _ _)).modifyCw))

theorem poisonWord {w : Nat} (hs : s.Canonical) : (Machine.poisonWord s w x).Canonical := (hs.writeBytes _ _).setErr

theorem pierCheck (hs : s.Canonical) : (Machine.pierCheck s x).Canonical := by
  unfold Machine.pierCheck
  extract_lets
  split
  · exact hs
  · exact (hs.setErr.bump _ _ _).raise _ _
  · exact (hs.bump _ _ _).raise _ _

theorem pierRead {n : Nat} (hs : s.Canonical) : (Machine.pierRead s a n).2.2.Canonical :=
  .foldl (fun _ _ h1 => h1.pierCheck) _ _ hs

theorem pierWrite (hs : s.Canonical) : (Machine.pierWrite s a bs).2.Canonical :=
  (foldl (fun _ _ h3 => .ite h3 h3.setErr) _ _ (.foldl (fun _ _ h2 => h2.poisonWord) _ _ (.foldl (fun _ _ h1 => .ite
    h1 h1.pierCheck) _ _ hs))).writeBytes _ _

theorem areaWrite {fuel a : Nat} {bs : List Byte} (hs : s.Canonical) : (Machine.areaWrite fuel s a bs).Canonical := by
  induction fuel generalizing s a bs with
  | zero => exact hs
  | succ fuel ih => exact .ite hs (ih (.ite hs.probeStray (.ite hs.probeIso hs.pierWrite)))

theorem areaRead {fuel a n : Nat} (hs : s.Canonical) : (Machine.areaRead fuel s a n).2.Canonical := by
  induction fuel generalizing s a n with
  | zero => exact hs
  | succ fuel ih => exact .iteSnd hs (ih (.iteSnd hs.probeStray (.iteSnd hs.probeIso hs.pierRead)))

theorem setDdr {x : Ddr} (hs : s.Canonical) : (Machine.setDdr s c x).Canonical := hs.update

theorem ddrCandidate {r : DdrRow} (hs : s.Canonical) : (Machine.ddrCandidate s c r).Canonical :=
  .ite hs (.ite (hs.setDdr.raise _ _) hs.setDdr)

theorem ddrRowError {uncorr : Bool} (hs : s.Canonical) : (Machine.ddrRowError s x uncorr).Canonical :=
  .ite hs.ddrCandidate (hs.setDdr.ifThen (·.ddrCandidate))

theorem ddrReport {uncorr scrub : Bool} (hs : s.Canonical) : (Machine.ddrReport s x uncorr scrub).Canonical :=
  (((hs.bump _ _ _).ifElse (fun h1 =>
    ((((h1.setFld _ _ _).setFld _ _ _).setFld _ _ _).setFld _ _ _).setReg _ _)).raise _ _).ddrRowError

theorem ddrCheck (hs : s.Canonical) : (Machine.ddrCheck s x).Canonical := by
  unfold Machine.ddrCheck
  split
  · exact hs
  · exact hs.ddrReport
  · exact hs.ddrReport

theorem ddrRead {n : Nat} (hs : s.Canonical) : (Machine.ddrRead s a n).2.2.Canonical :=
  .foldl (fun _ _ h1 => h1.ddrCheck) _ _ hs

theorem ddrWrite (hs : s.Canonical) : (Machine.ddrWrite s a bs).2.Canonical :=
  (foldl (fun _ _ h3 => .ite h3 h3.setErr) _ _ (.foldl (fun _ _ h2 => h2.poisonWord) _ _ (.foldl (fun _ _ h1 => .ite
    h1 h1.ddrCheck) _ _ hs))).writeBytes _ _

theorem ddrUnitWrite (hs : s.Canonical) : (Machine.ddrUnitWrite s a bs).Canonical :=
  .ite hs (.ite hs.probeStray (.ite hs.probeIso hs.ddrWrite))

theorem ddrUnitRead {n : Nat} (hs : s.Canonical) : (Machine.ddrUnitRead s a n).2.2.Canonical :=
  .iteSnd2 hs (.iteSnd2 hs.probeStray (.iteSnd2 hs.probeIso hs.ddrRead))

theorem ddrAreaWrite {fuel a : Nat} {bs : List Byte} (hs : s.Canonical) :
    (Machine.ddrAreaWrite fuel s a bs).Canonical := by
  induction fuel generalizing s a bs with
  | zero => exact hs
  | succ fuel ih => exact .ite hs (ih hs.ddrUnitWrite)

theorem ddrAreaRead {fuel a n : Nat} (hs : s.Canonical) : (Machine.ddrAreaRead fuel s a n).2.2.Canonical := by
  induction fuel generalizing s a n with
  | zero => exact hs
  | succ fuel ih => exact .iteSnd2 hs (ih hs.ddrUnitRead)

/-! ## SpanCtl -/

theorem redSend (hs : s.Canonical) : (Machine.redSend s n ord).Canonical := by
  unfold Machine.redSend
  split
  · exact hs
  · split
    · exact hs
    · exact ((ite hs.strandSend hs).ifThen (·.strandSend)).setCtl _ _

theorem rollPosts (hs : s.Canonical) : (Machine.rollPosts s n).Canonical := hs.setCtl _ _

theorem redCut (hs : s.Canonical) : (Machine.redCut s east n).Canonical := hs.setCtl _ _

theorem redLeave (hs : s.Canonical) : (Machine.redLeave s n).Canonical :=
  .foldl (fun _ _ h1 => h1.redSend) _ _ (hs.setCtl _ _)

theorem afterRead (hs : s.Canonical) : (Machine.afterRead s n k).Canonical := by
  unfold Machine.afterRead
  refine .ite ?_ (.ite (hs.setCtl _ _) hs)
  split
  · exact hs.setMicro _ _
  · exact hs.bump _ _ _

theorem strayMove (hs : s.Canonical) : (Machine.strayMove s n).Canonical := hs.bump _ _ _

theorem strayAddr (hs : s.Canonical) : (Machine.strayAddr s n).Canonical := hs.bump _ _ _

theorem writeSock (hs : s.Canonical) : (Machine.writeSock s n k v).Canonical :=
  .ite (hs.setCtl _ _) (.ite (hs.setCtl _ _) (.ite (hs.setCtl _ _) (.ite (hs.setCtl _ _) (.ite (hs.setCtl _ _) (.ite
    (hs.setCtl _ _) (.ite (hs.setCtl _ _) (.ite (hs.setCtl _ _) (.ite (hs.setCtl _ _) (.ite (hs.setCtl _ _) (.ite
    (hs.setCtl _ _) (.ite (.ite hs.strayMove (hs.setCtl _ _)) (.ite (hs.setCtl _ _) (.ite (hs.setCtl _ _) (.ite
    (hs.setCtl _ _) (.ite (hs.setCtl _ _) (.ite (hs.setCtl _ _) (.ite (hs.setCtl _ _) (.ite (hs.setCtl _ _) (.ite
    (hs.setCtl _ _) hs)))))))))))))))))))

theorem scratchRead (hs : s.Canonical) : (Machine.scratchRead s n a).2.Canonical := by
  unfold Machine.scratchRead
  split
  · exact hs
  · exact hs.setErr.bump _ _ _
  · exact hs

theorem pierRequest {write : Bool} {off size : Nat} {data : List Byte} (hs : s.Canonical) :
    (Machine.pierRequest s n write off size data).Canonical :=
  hs.setCtl _ _

theorem lsuTrigger (hs : s.Canonical) : (Machine.lsuTrigger s n f k v).1.Canonical :=
  .iteFst hs (.iteFst (hs.strayAddr.ifThen (·.setCtl _ _)) (.iteFst (.iteFst (.iteSnd (ite hs
    hs.strayAddr).scratchRead (.ite hs hs.strayAddr)) (.iteFst (setCtl (.iteSnd (ite hs hs.strayAddr).scratchRead
    (.ite hs hs.strayAddr)) _ _) (setErr (writeLE (.iteSnd (ite hs hs.strayAddr).scratchRead (.ite hs
    hs.strayAddr)) _ _ _)))) (.iteFst ((ite hs hs.strayAddr).pierRequest.setCtl _ _) ((ite hs
    hs.strayAddr).pierRequest.setCtl _ _))))

theorem enqueue {e : QueueEntry} (hs : s.Canonical) : (Machine.enqueue s n e).Canonical := hs.setCtl _ _

theorem sendMessage {cls : Nat} (hs : s.Canonical) : (Machine.sendMessage s n cls).Canonical := hs.setCtl _ _

theorem fireSock {sf : State × Flow} (hs : sf.1.Canonical) : (Machine.fireSock n sf k v).1.Canonical := by
  unfold Machine.fireSock
  refine .iteFst (hs.setCtl _ _) (.iteFst (hs.setCtl _ _) (.iteFst hs.lsuTrigger (.iteFst (.iteFst hs.strayMove hs)
    (.iteFst (.iteFst hs.strayMove hs) (.iteFst (.iteFst hs.strayMove hs) (.iteFst (hs.setFld _ _ _) (.iteFst
    hs.enqueue (.iteFst hs.enqueue (.iteFst (hs.enqueue.rollPosts.ifThen (·.setCtl _ _)) (.iteFst (.iteFst hs.enqueue
    hs.strayMove) (.iteFst (.iteFst hs.strayMove hs.sendMessage) (.iteFst ?_ (.iteFst hs.raiseSpc hs)))))))))))))
  split
  · exact hs.strayMove
  · exact hs.setCtl _ _

theorem putScratch (hs : s.Canonical) : (Machine.putScratch s n a v).Canonical := (hs.writeLE _ _ _).setErr

theorem setPc (hs : s.Canonical) : (Machine.setPc s n i).Canonical := (hs.setFld _ _ _).setFld _ _ _

theorem callFrame {target : Nat} {mask : BitVec 32} {ret : Nat} {irq : Bool} (hs : s.Canonical) :
    (Machine.callFrame s n target mask ret irq).Canonical :=
  .ite hs.raiseSpc.stopNow ((foldl (fun _ _ h1 => h1.putScratch) _ _ hs.putScratch.putScratch).setCtl _ _).setPc

theorem frameWord (hs : s.Canonical) : (Machine.frameWord s n a).2.Canonical := hs.scratchRead

theorem frameRegs {l : List (Fin 32 × Nat)} (hs : s.Canonical) : (Machine.frameRegs n l s).2.Canonical := by
  induction l generalizing s with
  | nil => exact hs
  | cons p l ih =>
    unfold Machine.frameRegs
    split
    · exact hs.frameWord.ofSnd ‹_›
    · split
      · exact (ih (hs.frameWord.ofSnd ‹_›)).ofSnd ‹_›
      · exact (ih (hs.frameWord.ofSnd ‹_›)).ofSnd ‹_›

theorem callReturn (hs : s.Canonical) : (Machine.callReturn s n next).Canonical := by
  unfold Machine.callReturn
  extract_lets
  split
  · exact hs.setPc
  · split
    · have h1 := hs.frameWord.ofSnd ‹_›
      exact h1.setPc.raiseSpc.stopNow
    · have h2 := hs.frameWord.ofSnd ‹_›
      split
      · have h3 := h2.frameWord.ofSnd ‹_›
        exact h3.setPc.raiseSpc.stopNow
      · have h4 := h2.frameWord.ofSnd ‹_›
        extract_lets
        split
        · have h5 := h4.frameRegs.ofSnd ‹_›
          exact h5.setPc.raiseSpc.stopNow
        · have h6 := h4.frameRegs.ofSnd ‹_›
          exact (h6.setCtl _ _).branch (·.strayMove.setPc) (·.setPc)

theorem takeInterrupt (hs : s.Canonical) : (Machine.takeInterrupt s n).Canonical := (hs.setCtl _ _).callFrame

theorem countWait {queue plane : Bool} (hs : s.Canonical) : (Machine.countWait s n queue plane).Canonical :=
  .ite (hs.bump _ _ _) (.ite (hs.bump _ _ _) hs)

theorem bundleFlow (hs : s.Canonical) : (Machine.bundleFlow s n f next).Canonical := by
  unfold Machine.bundleFlow
  split
  · exact hs.setPc.callFrame
  · refine .ite hs.callReturn ?_
    split
    · exact hs.setPc.setCtl _ _
    · exact hs.setPc

theorem bundleEnd (hs : s.Canonical) : (Machine.bundleEnd s n f next).Canonical := by
  unfold Machine.bundleEnd
  extract_lets
  split
  · exact hs.bundleFlow.raiseSpc.stopNow
  · exact hs.bundleFlow

theorem countSource {t : Taken} {before after : State} (hsafter : after.Canonical) :
    (Machine.countSource n t before after).Canonical :=
  .ite hsafter.strayMove hsafter

theorem runBundle {bank pc : Nat} (hs : s.Canonical) : (Machine.runBundle s n bank pc).Canonical :=
  .ite (hs.countWait.setCtl _ _) (bundleEnd (.foldlFst (fun _ _ h5 => h5.fireSock.countSource) (.foldl (fun _ _ h4 =>
    h4.writeSock.countSource) _ _ (.foldl (fun _ _ h3 => .ite h3.strayMove h3) _ _ (.foldl (fun _ _ h2 =>
    h2.afterRead) _ _ (.foldl (fun _ _ h1 => .ite h1 h1.strayMove) _ _ ((hs.setCtl _ _).bump _ _ _)))))))

theorem flushOut (hs : s.Canonical) : (Machine.flushOut s n).Canonical := by
  unfold Machine.flushOut
  extract_lets
  split
  · exact hs
  · exact .ite (hs.setCtl _ _).offerPacket hs

theorem execBundleExecute (hs : s.Canonical) : NextCanonical (Machine.execBundleExecute n ups s) :=
  .ite (.next ((hs.applyUpsets _).flushOut.setCtl _ _)) (.ite (.next ((hs.applyUpsets _).flushOut.setCtl _ _)) (.ite
    (.next ((hs.applyUpsets _).flushOut.setCtl _ _).takeInterrupt) (.ite (.next
    ((hs.applyUpsets _).flushOut.setCtl _ _).raiseSpc.stopNow) (.next
    ((hs.applyUpsets _).flushOut.setCtl _ _).runBundle))))

theorem execAluResultReady {alu : Fin 2} (hs : s.Canonical) : NextCanonical (Machine.execAluResultReady n alu s) :=
  .next (hs.setCtl _ _)

theorem execInterruptEntry (hs : s.Canonical) : NextCanonical (Machine.execInterruptEntry n ups s) :=
  .ite (.next (hs.applyUpsets _).takeInterrupt) (.next (hs.applyUpsets _))

theorem leaveSet (hs : s.Canonical) : (Machine.leaveSet s n).Canonical :=
  .ite hs (.foldl (fun _ _ h1 => .ite h1 (.ite (h1.setExt _ _) (h1.setExt _ _))) _ _ (.ite (hs.bump _ _ _) hs))

theorem startCapture {line : Option (BitVec 64)} (hs : s.Canonical) : (Machine.startCapture s m ord line).Canonical :=
  .ite (hs.setCtl _ _) hs

theorem ageCheckpoints (hs : s.Canonical) : (Machine.ageCheckpoints s n).Canonical :=
  (foldl (fun _ _ h1 => .ite (h1.bump _ _ _) h1) _ _ hs).setCtl _ _

theorem skipTo (hs : s.Canonical) : (Machine.skipTo s n).Canonical := by
  unfold Machine.skipTo
  split
  · exact hs
  · exact (foldl (fun _ _ h1 => h1.consumeEntries) _ _ hs).setCtl _ _

theorem execLineSync (hs : s.Canonical) : NextCanonical (Machine.execLineSync n s) := by
  unfold Machine.execLineSync
  split
  · refine .ite (.next (hs.bump _ _ _).retime.snapRead) (.next (foldl (fun _ _ h3 => h3.startCapture) _ _ (((foldl
      (fun _ _ h2 => (h2.setExt _ _).setArray _ _) _ _ (redLeave
      ?_).ageCheckpoints).setCtl _ _).setMicro _ _).refreshServed).retime.snapRead)
    split
    · exact .ite hs.skipTo hs.leaveSet
    · exact .foldl (fun _ _ h1 => h1.consumeEntries) _ _ ((ite hs.skipTo hs.leaveSet).setCtl _ _)
  · exact .next hs

theorem execTokenReached (hs : s.Canonical) : NextCanonical (Machine.execTokenReached n s) := by
  unfold Machine.execTokenReached
  split
  · exact .next (hs.setCtl _ _).retime.snapRead
  · exact .next hs

theorem execSnapshotEntry (hs : s.Canonical) : NextCanonical (Machine.execSnapshotEntry n ups s) := by
  unfold Machine.execSnapshotEntry
  extract_lets
  split
  · split
    · exact .next (foldl (fun _ _ h1 => h1.setFld _ _ _) _ _ ((hs.applyUpsets _).setCtl _ _)).retime
    · exact .next ((hs.applyUpsets _).bump _ _ _).retime.snapRead
  · exact .next (hs.applyUpsets _)

theorem readHeaders (hs : s.Canonical) : (Machine.readHeaders s a).2.2.Canonical := hs.areaRead.areaRead

theorem writeCheckpoint {c : Snapshot} {rows : List (BitVec 16384)} (hs : s.Canonical) :
    (Machine.writeCheckpoint s m c rows).Canonical := by
  unfold Machine.writeCheckpoint
  extract_lets
  split
  have h1 := hs.readHeaders.ofSnd2 ‹_›
  exact (((((h1.areaWrite.areaWrite.areaWrite.setFld _ _ _).setFld _ _ _).setFld _ _ _).setFld _ _ _).ifThen
    (·.setFld _ _ _)).setReg64 _ _ _

theorem execCheckpointCopyDone (hs : s.Canonical) : NextCanonical (Machine.execCheckpointCopyDone n s) := by
  unfold Machine.execCheckpointCopyDone
  refine .ite (.next hs) ?_
  extract_lets
  split
  · exact .next hs.readRest
  · exact .next (((foldl (fun _ _ h1 => h1.writeCheckpoint) _ _ hs.readRest).setCtl _ _).ifThen (·.becomeStopped))

theorem stopDrain (hs : s.Canonical) : (Machine.stopDrain s n).Canonical :=
  .ite hs (hs.showStop.ifThen (·.setCtl _ _))

theorem execStopDrain (hs : s.Canonical) : NextCanonical (Machine.execStopDrain n s) := .next hs.stopDrain

theorem execDrainComplete (hs : s.Canonical) : NextCanonical (Machine.execDrainComplete n s) :=
  .ite (.next (((hs.bump _ _ _).setCtl _ _).setFld _ _ _).becomeStopped) (.next hs)

theorem stopWritten (hs : s.Canonical) : (Machine.stopWritten s n).Canonical := .ite hs.stopNow hs

theorem execStopNow {byFault : Bool} (hs : s.Canonical) : NextCanonical (Machine.execStopNow n byFault s) :=
  .next (.ite hs.stopNowFault hs.stopWritten)

theorem startWritten (hs : s.Canonical) : (Machine.startWritten s n).Canonical :=
  .ite hs (.ite hs.startSpan (hs.setCtl _ _))

theorem execSpanStart (hs : s.Canonical) : NextCanonical (Machine.execSpanStart n s) := .next hs.startWritten

theorem execSpcWatchdog (hs : s.Canonical) : NextCanonical (Machine.execSpcWatchdog n s) :=
  .ite (.next (hs.setCtl _ _).raiseSpc) (.next hs)

theorem startRestore (hs : s.Canonical) : (Machine.startRestore s n).Canonical := .ite (hs.setFld _ _ _) hs

theorem execCheckpointRestore (hs : s.Canonical) : NextCanonical (Machine.execCheckpointRestore n s) :=
  .next hs.startRestore

theorem checkedSlot {k : Fin 2} {h : CkptHeader} (hs : s.Canonical) : (Machine.checkedSlot s a k h).2.Canonical :=
  .iteSnd hs hs.areaRead

theorem restoreRows {h : CkptHeader} {data : List Byte} (hs : s.Canonical) :
    (Machine.restoreRows s n h data).Canonical :=
  .foldl (fun _ _ h1 => h1.setArray _ _) _ _ hs

theorem execRestoreDone (hs : s.Canonical) : NextCanonical (Machine.execRestoreDone n ups s) := by
  unfold Machine.execRestoreDone
  extract_lets
  refine .ite (.next (hs.applyUpsets _)) ?_
  split
  have h1 := (hs.applyUpsets _).readHeaders.ofSnd2 ‹_›
  extract_lets
  split
  · exact .next (((h1.setFld _ _ _).setFld _ _ _).setFld _ _ _).raiseSpc
  · split
    · have h2 := (h1.setFld _ _ _).checkedSlot.ofSnd ‹_›
      exact .next (((h2.setFld _ _ _).setFld _ _ _).restoreRows.setReg64 _ _ _)
    · have h2 := (h1.setFld _ _ _).checkedSlot.ofSnd ‹_›
      extract_lets
      split
      · have h3 := h2.checkedSlot.ofSnd ‹_›
        exact .next (((h3.setFld _ _ _).setFld _ _ _).restoreRows.setReg64 _ _ _)
      · have h3 := h2.checkedSlot.ofSnd ‹_›
        exact .next (((h3.setFld _ _ _).setFld _ _ _).raiseSpc)

theorem execCwMessageArrive (hs : s.Canonical) : NextCanonical (Machine.execCwMessageArrive n s) := by
  unfold Machine.execCwMessageArrive
  extract_lets
  split
  · exact .next hs
  · exact .ite (.next hs) (.next (hs.modifyCw.setCtl _ _))

/-! ## LeaseOps -/

theorem modifyUp {f : Updates → Updates} (hs : s.Canonical) : (Machine.modifyUp s f).Canonical := hs.update

theorem setCompState {v : Nat} (hs : s.Canonical) : (Machine.setCompState s c v).Canonical := hs.setFld _ _ _

theorem raiseLease (hs : s.Canonical) : (Machine.raiseLease s c cause).Canonical := hs.raise _ _

theorem endLease (hs : s.Canonical) : (Machine.endLease s c cause).Canonical :=
  (((hs.modifyUp.setCompState.setFld _ _ _).setFld _ _ _).setFld _ _ _).raiseLease

theorem modifyUpdate {f : Update → Update} (hs : s.Canonical) : (Machine.modifyUpdate s f).Canonical := hs.modifyUp

theorem addOutcome {reason : Nat} (hs : s.Canonical) : (Machine.addOutcome s c reason).Canonical := hs.modifyUp

theorem endUpdate {st : Nat} (hs : s.Canonical) : (Machine.endUpdate s c st).Canonical :=
  ((hs.modifyUp.setCompState.setFld _ _ _).setReg _ _).raiseLease

theorem raiseRefused {status : Nat} (hs : s.Canonical) : (Machine.raiseRefused s c status).Canonical := hs.raise _ _

theorem raiseHeadUpdate {h : Nat} (hs : s.Canonical) : (Machine.raiseHeadUpdate s h cause).Canonical := hs.raise _ _

theorem failHeadUpdate {h : Nat} (hs : s.Canonical) : (Machine.failHeadUpdate s h cause).Canonical :=
  hs.raiseHeadUpdate.endUpdate.raiseRefused

end Sys2Proof.Machine.State.Canonical
end

