-- ==== Sys2Proof/Proofs/CanonicalLines.lean ====
section
/-!
PROOFS. The functions that lines and runs pass through keep the stores canonical: line operations, heads and tracker.
-/

namespace Sys2Proof.Machine.State.Canonical

variable {s x2 : State} {h d : Fin 16} {m : Fin 17} {cause p st flags x1 : Nat} {b : Blob} {r : BuiltRecord}
  {i : BitVec 64} {k : StampIn} {data : List Byte}

/-! ## LineOps -/

theorem raiseRg {k : Nat} {pay : BitVec 32} (hs : s.Canonical) : (Machine.raiseRg s m k pay).Canonical := hs.raise _ _

theorem enterOrder {e : LineEntry} (hs : s.Canonical) : (Machine.enterOrder s m e).Canonical :=
  (hs.setRegion _ _).refreshServed

theorem flushMarkers {fuel : Nat} (hs : s.Canonical) : (Machine.flushMarkers fuel s m).Canonical := by
  induction fuel generalizing s with
  | zero => exact hs
  | succ fuel ih =>
    unfold Machine.flushMarkers
    dsimp only
    split
    · exact hs
    · exact .ite hs (ih (hs.setRegion _ _).enterOrder)

theorem flushPort (hs : s.Canonical) : (Machine.flushPort s h).Canonical :=
  .foldl (fun _ _ h1 => h1.flushMarkers) _ _ hs

theorem addMarker (hs : s.Canonical) : (Machine.addMarker s m k).Canonical := .ite (hs.setRegion _ _).flushMarkers hs

theorem reportLine (hs : s.Canonical) : (Machine.reportLine s h i).Canonical := hs.update

theorem declareLost (hs : s.Canonical) : (Machine.declareLost s h k).Canonical :=
  .foldl (fun _ _ h1 => h1.addMarker) _ _ ((hs.bump _ _ _).raise _ _).reportLine

theorem loseTriggers {ts : List Trigger} (hs : s.Canonical) : (Machine.loseTriggers s h ts).Canonical :=
  .foldl (fun _ _ h1 => (h1.setHead _ _).declareLost) _ _ hs

theorem pushIngest {i : IngestItem} (hs : s.Canonical) : (Machine.pushIngest s h i).Canonical := by
  unfold Machine.pushIngest
  split
  · exact hs
  · exact hs.setHead _ _

theorem endPacket {k : HeadPacket} {damaged : Bool} (hs : s.Canonical) :
    (Machine.endPacket s h k damaged).Canonical :=
  ((foldl (fun _ _ h1 => h1.setRegion _ _) _ _ hs.pushIngest).setHead _ _).flushPort

theorem damagePacket (hs : s.Canonical) : (Machine.damagePacket s h cause).Canonical := by
  unfold Machine.damagePacket
  split
  · exact hs
  · exact (((hs.bump _ _ _).ifThen (·.bump _ _ _)).raise _ _).reportLine.endPacket.setHead _ _

/-! ## HeadPort -/

theorem raiseHp {k : Nat} {line : optParam (BitVec 64) 0} (hs : s.Canonical) :
    (Machine.raiseHp s h k cause line).Canonical :=
  hs.raise _ _

theorem hpEnter (hs : s.Canonical) : (Machine.hpEnter s h st).Canonical :=
  (((((((hs.setFld _ _ _).setFld _ _ _).ifElse (·.setFld _ _ _)).ifThen (·.setFld _ _ _)).ifElse
    (·.setFld _ _ _)).ifThen (·.setFld _ _ _)).setHead _ _).ifElse (fun h5 => (h5.setHead _ _).setFld _ _ _)

theorem hpCause (hs : s.Canonical) : (Machine.hpCause s h cause).Canonical := hs.setFld _ _ _

theorem hpFail (hs : s.Canonical) : (Machine.hpFail s h st cause).Canonical := hs.hpEnter.hpCause.raiseHp

theorem hpPower (hs : s.Canonical) : (Machine.hpPower s h).Canonical := .ite (hs.setHead _ _).hpEnter hs

theorem stopLink (hs : s.Canonical) : (Machine.stopLink s h cause).Canonical :=
  hs.damagePacket.loseTriggers.setHead _ _

theorem hpTrain (hs : s.Canonical) : (Machine.hpTrain s h).Canonical := hs.hpEnter.setHead _ _

theorem trainFail (hs : s.Canonical) : (Machine.trainFail s h cause).Canonical :=
  hs.raiseHp.hpCause.branch (fun h1 => (h1.setHead _ _).hpFail) (·.setHead _ _)

theorem execTrainWordReceive {p : Fin 4} {num count : BitVec 8} (hs : s.Canonical) :
    NextCanonical (Machine.execTrainWordReceive h p num count s) :=
  .ite (.next hs) (.ite (.ite (.next ((hs.setFld _ _ _).setHead _ _)) (.next (hs.setFld _ _ _).trainFail)) (.next
    hs.damagePacket))

theorem showSkew {late : List Nat} (hs : s.Canonical) : (Machine.showSkew s h late).Canonical :=
  (((hs.setFld _ _ _).setFld _ _ _).setFld _ _ _).setFld _ _ _

theorem execAlignReceive {seqs : List (BitVec 16)} {late : List (BitVec 8)} (hs : s.Canonical) :
    NextCanonical (Machine.execAlignReceive h seqs late s) :=
  .ite (.next hs) (.ite (.next (hs.setHead _ _)) (.ite (.next (hs.setHead _ _)) (.ite (.next
    (hs.setHead _ _).showSkew.trainFail) (.next ((hs.setHead _ _).showSkew.setHead _ _)))))

theorem ccSend {op : Byte} {body : List Byte} {own : Bool} (hs : s.Canonical) :
    (Machine.ccSend s h op body own).Canonical :=
  hs.setHead _ _

theorem ccSendUser (hs : s.Canonical) : (Machine.ccSendUser s h).Canonical := (hs.setHead _ _).ccSend

theorem ccGo (hs : s.Canonical) : (Machine.ccGo s h).Canonical :=
  .ite hs ((hs.setFld _ _ _).branch (·.setHead _ _) (·.ccSendUser))

theorem execHpCcGo (hs : s.Canonical) : NextCanonical (Machine.execHpCcGo h s) := .next hs.ccGo

theorem cfgSend (hs : s.Canonical) : (Machine.cfgSend s h).Canonical := by
  unfold Machine.cfgSend
  refine .ite hs.ccSend ?_
  split <;> exact hs.ccSend

theorem checkRelease (hs : s.Canonical) : (Machine.checkRelease s h).Canonical := .ite (hs.ccSend.setHead _ _) hs

theorem hpRelease (hs : s.Canonical) : (Machine.hpRelease s h).Canonical :=
  .ite (hs.hpEnter.setFld _ _ _).checkRelease hs

theorem hpAttach (hs : s.Canonical) : (Machine.hpAttach s h).Canonical := .ite (.ite (hs.hpPower.setFld _ _ _) hs) hs

theorem relayNext (hs : s.Canonical) : (Machine.relayNext s h).Canonical := by
  unfold Machine.relayNext
  refine .ite hs ?_
  split
  · exact hs
  · exact .ite hs.ccSend (.ite hs.draw.ccSend hs)

theorem relayAnswer {msg : List Byte} {status : Nat} (hs : s.Canonical) :
    (Machine.relayAnswer s h msg status data).Canonical :=
  .ite hs (.ite hs.failHeadUpdate (.ite hs.modifyUpdate.hpRelease (.ite hs.modifyUpdate.raiseHeadUpdate
    hs.modifyUpdate)))

theorem ccFree (hs : s.Canonical) : (Machine.ccFree s h).Canonical := .ite hs.ccSendUser hs.relayNext

theorem hpActive (hs : s.Canonical) : (Machine.hpActive s h).Canonical :=
  (hs.hpEnter.raiseHp.setHead _ _).branch (·.ccSendUser) (·.relayNext)

theorem execLinkUp (hs : s.Canonical) : NextCanonical (Machine.execLinkUp h s) :=
  .ite (.next ((hs.setHead _ _).hpEnter.setFld _ _ _).cfgSend) (.next hs)

theorem execLaneLockLoss {p : Fin 4} (hs : s.Canonical) : NextCanonical (Machine.execLaneLockLoss h p s) :=
  .ite (.next hs) (.ite (.next ((hs.setFld _ _ _).bump _ _ _).raiseHp.hpCause.stopLink.hpTrain) (.ite (.next
    ((hs.setFld _ _ _).bump _ _ _).raiseHp.hpCause.stopLink.checkRelease) (.ite (.next
    ((hs.setFld _ _ _).setHead _ _)) (.next (hs.setFld _ _ _)))))

theorem execTrainingTimeout (hs : s.Canonical) : NextCanonical (Machine.execTrainingTimeout h s) :=
  .ite (.next hs.trainFail) (.next hs)

theorem execTrainingRetry (hs : s.Canonical) : NextCanonical (Machine.execTrainingRetry h s) :=
  .ite (.next hs.hpTrain) (.next hs)

theorem beginPacket {t : Trigger} {total : Nat} (hs : s.Canonical) : (Machine.beginPacket s h t total).Canonical :=
  (foldl (fun _ _ h1 => (h1.bump _ _ _).raiseRg) _ _ hs).branch (fun h2 => (h2.setHead _ _).declareLost) (fun h2 =>
    (foldl (fun _ _ h3 => h3.setRegion _ _) _ _ (h2.setHead _ _)).pushIngest)

theorem execStartWord {starts : List (BitVec 16 × BitVec 16 × BitVec 8)} (hs : s.Canonical) :
    NextCanonical (Machine.execStartWord h starts s) := by
  unfold Machine.execStartWord
  refine .ite (.next hs) (.ite (.next hs.damagePacket.checkRelease) (.ite (.next hs) ?_))
  split
  extract_lets
  split
  · exact .next ((hs.bump _ _ _).setHead _ _)
  · exact .next (hs.loseTriggers.beginPacket.ifElse (·.damagePacket)).checkRelease

theorem execPacketBlock {clean : Bool} (hs : s.Canonical) :
    NextCanonical (Machine.execPacketBlock h data clean s) := by
  unfold Machine.execPacketBlock
  extract_lets
  split
  · exact .ite (.next hs) (.next (hs.bump _ _ _))
  · exact .next (ite hs.damagePacket (.ite hs.damagePacket (.ite hs.damagePacket
      (hs.setHead _ _).pushIngest))).checkRelease

theorem execTermWord {terms : List (BitVec 16 × BitVec 16)} (hs : s.Canonical) :
    NextCanonical (Machine.execTermWord h terms s) := by
  unfold Machine.execTermWord
  extract_lets
  split
  · exact .next (hs.setHead _ _)
  · exact .next ((ite (hs.bump _ _ _).endPacket hs.damagePacket).setHead _ _).checkRelease

theorem execBadCtrl {word : Option (List Byte)} (hs : s.Canonical) :
    NextCanonical (Machine.execBadCtrl h word s) := by
  unfold Machine.execBadCtrl
  extract_lets
  split
  · exact .next (.ite hs (hs.bump _ _ _))
  · exact .next (.ite hs (hs.bump _ _ _).damagePacket.checkRelease)

theorem execPacketTimeout (hs : s.Canonical) : NextCanonical (Machine.execPacketTimeout h s) := by
  unfold Machine.execPacketTimeout
  refine .ite (.next hs) ?_
  split
  · exact .next hs
  · exact .next (.ite hs.loseTriggers.checkRelease hs)

theorem cfgAnswer (hs : s.Canonical) : (Machine.cfgAnswer s h data).Canonical :=
  .ite hs.hpFail (.ite hs.hpActive (hs.setHead _ _).cfgSend)

theorem ccStore {msg : List Byte} (hs : s.Canonical) : (Machine.ccStore s h msg).Canonical :=
  (hs.writeBytes _ _).setFld _ _ _

theorem execCcMessageReceive {words : List (BitVec 8 × List Byte)} (hs : s.Canonical) :
    NextCanonical (Machine.execCcMessageReceive h words s) := by
  unfold Machine.execCcMessageReceive
  extract_lets
  split
  · exact .next (hs.damagePacket.bump _ _ _)
  · refine .ite (.ite (.next (hs.damagePacket.bump _ _ _)) (.next (hs.damagePacket.ccStore.setFld _ _ _).raiseHp))
      (.ite ?_ (.next hs.damagePacket))
    split
    · exact .next hs.damagePacket
    · exact .ite (.next hs.damagePacket) (.ite (.ite (.next (hs.damagePacket.setHead _ _)) (.ite (.next
        (hs.damagePacket.setHead _ _).cfgAnswer) (.next
        (hs.damagePacket.setHead _ _).relayAnswer.ccFree.checkRelease))) (.next
        (((hs.damagePacket.setHead _ _).ccStore.setFld _ _ _).setFld _ _ _).relayNext.checkRelease))

theorem execCcRetryTimeout (hs : s.Canonical) : NextCanonical (Machine.execCcRetryTimeout h s) := by
  unfold Machine.execCcRetryTimeout
  extract_lets
  split
  · exact .next hs
  · exact .ite (.next hs) (.ite (.next (hs.setHead _ _)) (.ite (.next ((hs.setHead _ _).hpFail.setFld _ _ _)) (.next
      ((((hs.setHead _ _).setFld _ _ _).ifElse (·.setFld _ _ _)).hpCause.raiseHp.branch (·.failHeadUpdate)
      (·.ccFree)).checkRelease)))

theorem execHeadInsertion (hs : s.Canonical) : NextCanonical (Machine.execHeadInsertion h s) :=
  .ite (.next hs) (.next ((hs.setFld _ _ _).raiseHp.ifThen (·.hpPower)))

theorem dropHead (hs : s.Canonical) : (Machine.dropHead s h st cause).Canonical := hs.stopLink.hpEnter.hpCause.raiseHp

theorem execHeadRemoval (hs : s.Canonical) : NextCanonical (Machine.execHeadRemoval h s) :=
  .ite (.next hs) (.next (((hs.setHead _ _).setFld _ _ _).branch (·.raiseHp) (·.dropHead)))

theorem execHeadFault {low : Bool} (hs : s.Canonical) : NextCanonical (Machine.execHeadFault h low s) :=
  .ite (.next (hs.setFld _ _ _)) (.next ((hs.setFld _ _ _).hpCause.raiseHp.ifThen (·.dropHead)))

theorem execPowerWaitEnd (hs : s.Canonical) : NextCanonical (Machine.execPowerWaitEnd h s) :=
  .ite (.next hs) (.ite (.next hs.hpFail) (.next hs.hpEnter))

theorem execDescriptorReadDone {bytes : List Byte} {good : Bool} (hs : s.Canonical) :
    NextCanonical (Machine.execDescriptorReadDone h bytes good s) :=
  .ite (.next hs) (.ite (.next hs.hpFail) (.next ((hs.setHead _ _).writeBytes _ _).hpEnter))

theorem execDescriptorVerified (hs : s.Canonical) : NextCanonical (Machine.execDescriptorVerified h s) :=
  .ite (.next hs) (.ite (.next hs.hpFail) (.next (hs.setHead _ _).hpTrain))

theorem hpRetrain (hs : s.Canonical) : (Machine.hpRetrain s h).Canonical := .ite (hs.stopLink.hpTrain.setFld _ _ _) hs

theorem execHpRetrain (hs : s.Canonical) : NextCanonical (Machine.execHpRetrain h s) := .next hs.hpRetrain

theorem execHpRelease (hs : s.Canonical) : NextCanonical (Machine.execHpRelease h s) := .next hs.hpRelease

theorem execReleaseTimeout (hs : s.Canonical) : NextCanonical (Machine.execReleaseTimeout h s) :=
  .ite (.next hs) (.next hs.loseTriggers.damagePacket.checkRelease)

theorem execHpReleased (hs : s.Canonical) : NextCanonical (Machine.execHpReleased h s) := by
  refine .ite ?_ (.next hs)
  split
  · exact .next (hs.hpEnter.ifThen (·.modifyUpdate.hpAttach))
  · exact .next hs.hpEnter

theorem execHpAttach (hs : s.Canonical) : NextCanonical (Machine.execHpAttach h s) := .next hs.hpAttach

theorem hpEnable (hs : s.Canonical) : (Machine.hpEnable s h).Canonical :=
  (hs.setFld _ _ _).ifElse (fun h1 => h1.hpEnter.ifThen (·.hpPower))

theorem execPortEnable (hs : s.Canonical) : NextCanonical (Machine.execPortEnable h s) := .next hs.hpEnable

theorem hpDisable (hs : s.Canonical) : (Machine.hpDisable s h).Canonical :=
  (hs.setFld _ _ _).ifElse (fun h1 => .ite h1.hpEnter h1.dropHead)

theorem execPortDisable (hs : s.Canonical) : NextCanonical (Machine.execPortDisable h s) := .next hs.hpDisable

theorem triggerPort {at' : Nat} {expCode : BitVec 16} {strobe : Bool} (hs : s.Canonical) :
    (Machine.triggerPort s h k at' expCode strobe).Canonical := by
  unfold Machine.triggerPort
  refine .ite (.ite hs.declareLost hs) ?_
  extract_lets
  split
  have h1 := ofSnd (.iteSnd (ite (hs.bump _ _ _) hs).draw (.ite (hs.bump _ _ _) hs)) ‹_›
  exact (h1.setHead _ _).branch (fun h2 => (h2.bump _ _ _).declareLost) (·.setHead _ _)

/-! ## Runs -/

theorem execExtractorScan {t : Fin 16} (hs : s.Canonical) : NextCanonical (Machine.execExtractorScan m t s) := by
  unfold Machine.execExtractorScan
  extract_lets
  split
  · exact .next hs
  · exact .next (hs.setExt _ _)

theorem leaveBand (hs : s.Canonical) : (Machine.leaveBand s m).Canonical := .ite ((hs.setExt _ _).setFld _ _ _) hs

theorem discardMuted {fuel : Nat} (hs : s.Canonical) : (Machine.discardMuted m fuel s).Canonical := by
  induction fuel generalizing s with
  | zero => exact hs
  | succ fuel ih =>
    unfold Machine.discardMuted
    dsimp only
    split
    · exact hs
    · exact .ite (ih ((hs.setExt _ _).bump _ _ _)) hs

theorem execMergerSend (hs : s.Canonical) : NextCanonical (Machine.execMergerSend m s) :=
  .ite (.next (hs.leaveBand.discardMuted.setExt _ _)) (.ite (.next
    ((hs.leaveBand.discardMuted.setExt _ _).bump _ _ _)) (.next
    (((hs.leaveBand.discardMuted.bump _ _ _).setExt _ _).sendPacket _)))

theorem enterBand (hs : s.Canonical) : (Machine.enterBand s m).Canonical := (hs.setExt _ _).setFld _ _ _

theorem exitBand (hs : s.Canonical) : (Machine.exitBand s m).Canonical := hs.setExt _ _

/-! ## TrackOps -/

theorem setTrkState {d : Nat} (hs : s.Canonical) : (Machine.setTrkState s d st).Canonical := hs.setFld _ _ _

theorem setLastLine {d : Nat} (hs : s.Canonical) : (Machine.setLastLine s d i).Canonical := hs.setReg64 _ _ _

theorem modifyDomain {f : Domain → Domain} (hs : s.Canonical) : (Machine.modifyDomain s d f).Canonical :=
  hs.setDomain _ _

theorem stampOr {d : Nat} (hs : s.Canonical) : (Machine.stampOr s d i).2.Canonical := by
  unfold Machine.stampOr
  split
  · exact hs
  · split
    have h1 := hs.draw.ofSnd ‹_›
    split
    have h2 := h1.draw.ofSnd ‹_›
    exact h2

theorem blobStamp {d : Nat} (hs : s.Canonical) : (Machine.blobStamp s d b).2.Canonical := .iteSnd hs hs.stampOr

theorem showContexts (hs : s.Canonical) : (Machine.showContexts s).Canonical :=
  (foldl (fun _ _ h1 => h1.setFld _ _ _) _ _ ((hs.setFld _ _ _).setFld _ _ _)).ifThen (·.raise _ _)

theorem takeId (hs : s.Canonical) : (Machine.takeId s).2.Canonical := hs.setReg _ _

theorem pushRecord (hs : s.Canonical) : (Machine.pushRecord s r).Canonical := hs.update

theorem blobRecord {context : Bool} (hs : s.Canonical) : (Machine.blobRecord s d b flags context).Canonical := by
  unfold Machine.blobRecord
  extract_lets
  split
  have h1 := hs.stampOr.ofSnd ‹_›
  exact h1.pushRecord

theorem chainEnd {into : Option (BitVec 32)} {context : Bool} (hs : s.Canonical) :
    (Machine.chainEnd s d b flags into context).Canonical := by
  unfold Machine.chainEnd
  split
  have h1 := hs.blobStamp.ofSnd ‹_›
  exact h1.pushRecord

theorem closeBlob (hs : s.Canonical) : (Machine.closeBlob s d flags b).Canonical :=
  hs.modifyDomain.branch (fun h1 => .ite h1.chainEnd h1) (·.blobRecord)

theorem closeAll (hs : s.Canonical) : (Machine.closeAll s d flags).Canonical :=
  .foldl (fun _ _ h1 => h1.closeBlob) _ _ hs

theorem serviceRecord {line : BitVec 64} (hs : s.Canonical) : (Machine.serviceRecord s d h cause line).Canonical := by
  unfold Machine.serviceRecord
  split
  have h1 := hs.stampOr.ofSnd ‹_›
  exact h1.pushRecord

theorem serviceRecords {line : BitVec 64} (hs : s.Canonical) : (Machine.serviceRecords s d cause line).Canonical :=
  .foldl (fun _ _ h1 => h1.serviceRecord) _ _ hs

theorem openBlob {m : BitVec 64} {r : LineRun} (hs : s.Canonical) : (Machine.openBlob s d m r).Canonical := by
  unfold Machine.openBlob
  split
  have h1 := hs.takeId.ofSnd ‹_›
  split
  have h2 := h1.stampOr.ofSnd ‹_›
  exact h2.update.modifyDomain

theorem mergeBlobs {a : Blob} {l : List Blob} (hs : s.Canonical) : (Machine.mergeBlobs s d a l).Canonical := by
  induction l generalizing s a with
  | nil => exact hs
  | cons b l ih => exact ih (hs.modifyDomain.ifThen (·.chainEnd))

theorem onAlarm {f : Alarm → Alarm} (hs : s.Canonical) : (Machine.onAlarm s d p f).Canonical := hs.modifyDomain

theorem alarmRecord {cont : Bool} {a : Alarm} (hs : s.Canonical) : (Machine.alarmRecord s d cont p a).Canonical := by
  unfold Machine.alarmRecord
  refine .ite hs ?_
  split
  have h1 := hs.takeId.ofSnd ‹_›
  extract_lets
  split
  have h2 := h1.stampOr.ofSnd ‹_›
  extract_lets
  split
  have h3 := h2.stampOr.ofSnd ‹_›
  exact h3.pushRecord

theorem emitAlarms {cont : Bool} (hs : s.Canonical) : (Machine.emitAlarms s d cont).Canonical :=
  (foldl (fun _ _ h1 => h1.alarmRecord) _ _ hs).modifyDomain

theorem enterFlood (hs : s.Canonical) : (Machine.enterFlood s d cause).Canonical :=
  (foldl (fun _ _ h1 => h1.enterBand) _ _
    (((hs.setTrkState.setFld _ _ _).bump _ _ _).raise _ _).closeAll.modifyDomain).showContexts

theorem foldRun {m : BitVec 64} {r : LineRun} (hs : s.Canonical) : (Machine.foldRun s d m r).Canonical := hs.onAlarm

theorem countWindow {m : BitVec 64} {gap : Bool} (hs : s.Canonical) : (Machine.countWindow s d m gap).Canonical :=
  hs.modifyDomain

theorem floodLineEnd {total : Nat} (hs : s.Canonical) : (Machine.floodLineEnd s d total).Canonical :=
  hs.modifyDomain.branch (fun h1 => (foldl (fun _ _ h2 => h2.exitBand) _ _
    (h1.emitAlarms.setTrkState.raise _ _)).modifyDomain) (fun h1 => .ite h1.emitAlarms h1)

/-! ## Tracker -/

theorem onOpenSet {f : SpanSet → SpanSet} (hs : s.Canonical) : (Machine.onOpenSet s d p f).Canonical :=
  hs.modifyDomain

theorem dropHeld (hs : s.Canonical) : (Machine.dropHeld s d p).Canonical := (hs.bump _ _ _).modifyDomain

theorem intakeRun {r : Run} (hs : s.Canonical) : (Machine.intakeRun s d p r).Canonical :=
  (hs.bump _ _ _).branch (·.bump _ _ _) (fun h1 => .ite h1.onOpenSet (.ite (.ite h1.dropHeld h1.onOpenSet) (.ite
    h1.enterFlood.onOpenSet (h1.onOpenSet.ifThen (·.enterFlood)))))

theorem intakeBand {b : Band} (hs : s.Canonical) : (Machine.intakeBand s d p b).Canonical :=
  (hs.bump _ _ _).branch (·.bump _ _ _) (fun h1 => .ite h1.onOpenSet (.ite h1 h1.onOpenSet))

theorem keepReady (hs : s.Canonical) : (Machine.keepReady s).Canonical := hs.update

theorem intakeMark {k : SetMark} (hs : s.Canonical) : (Machine.intakeMark s d p k).Canonical :=
  (ite (hs.raise _ _) hs).ifElse (fun h1 => (ite h1.serviceRecords.modifyDomain h1).branch (fun h2 =>
    (h2.bump _ _ _).modifyDomain) (fun h2 => h2.modifyDomain.onOpenSet.ifThen (·.update)))

theorem intakeWord {w : MergerWord} (hs : s.Canonical) : (Machine.intakeWord m s w).Canonical := by
  unfold Machine.intakeWord
  split
  · exact hs
  · exact hs
  · exact (hs.bump _ _ _).bump _ _ _
  · exact hs.intakeRun
  · exact hs.intakeBand
  · exact hs.intakeMark

theorem execRunIntake (hs : s.Canonical) : NextCanonical (Machine.execRunIntake m s) :=
  .next (.foldl (fun _ _ h1 => h1.intakeWord) _ _ (hs.setExt _ _))

theorem dropBelow (hs : s.Canonical) : (Machine.dropBelow s d i).Canonical := (hs.bump _ _ _).modifyDomain

theorem alignFronts {fuel : Nat} (hs : s.Canonical) : (Machine.alignFronts d fuel s).2.Canonical := by
  induction fuel generalizing s with
  | zero => exact hs
  | succ fuel ih =>
    unfold Machine.alignFronts
    split
    · exact hs
    · exact .iteSnd hs (ih hs.dropBelow)

theorem handleRun {m : BitVec 64} {r : LineRun} (hs : s.Canonical) : (Machine.handleRun d m s r).Canonical := by
  unfold Machine.handleRun
  refine .ite hs.foldRun ?_
  split
  · exact .ite hs.openBlob hs.enterFlood.modifyDomain.foldRun
  · exact hs.mergeBlobs.modifyDomain

theorem settleBlob {m : BitVec 64} {hit : Blob → Bool} (hs : s.Canonical) :
    (Machine.settleBlob d m hit s b).Canonical :=
  hs.modifyDomain.branch (·.closeBlob) (fun h1 => .ite h1.blobRecord.modifyDomain h1)

theorem stampSegments {m : BitVec 64} (hs : s.Canonical) : (Machine.stampSegments s d m).Canonical :=
  .foldl (fun _ _ h1 => .ite h1 (by split; have h2 := h1.stampOr.ofSnd ‹_›; exact h2.modifyDomain)) _ _ hs

theorem lineRecord {m : BitVec 64} {lost impaired : Bool} {runs : Nat} (hs : s.Canonical) :
    (Machine.lineRecord s d m lost impaired runs).Canonical := by
  unfold Machine.lineRecord
  refine .ite hs ?_
  split
  have h1 := hs.stampOr.ofSnd ‹_›
  exact h1.update

theorem lostLines {a m : BitVec 64} (hs : s.Canonical) : (Machine.lostLines s d a m).Canonical :=
  .ite hs (.foldl (fun _ _ h1 => h1.lineRecord) _ _ hs.modifyDomain)

theorem processLine {fs : List (SpanSet × SetMark)} (hs : s.Canonical) : (Machine.processLine s d fs).Canonical :=
  (((ite hs.lostLines hs).stampSegments.modifyDomain.bump _ _ _).ifElse (fun h1 => (foldl (fun _ _ h2 =>
    h2.handleRun) _ _ (.ite h1.modifyDomain h1)).branch (fun h3 => (foldl (fun _ _ h5 => h5.onAlarm) _ _ (.foldl
    (fun _ _ h4 => h4.onAlarm) _ _ h3)).countWindow.floodLineEnd) (fun h3 => (foldl (fun _ _ h6 => h6.settleBlob) _ _
    h3).modifyDomain))).modifyDomain.setLastLine.lineRecord.showContexts

theorem nextLine {t : State} {b : Bool} (hs : s.Canonical) (h : Machine.nextLine s d b = some t) : t.Canonical := by
  unfold Machine.nextLine at h
  split at h
  · cases h
  · split at h
    · cases h
    · split at h
      · cases h
      · obtain rfl := Option.some.inj h
        exact (hs.alignFronts.ofSnd ‹_›).processLine.keepReady

theorem drainLines {fuel : Nat} (hs : s.Canonical) : (Machine.drainLines d fuel s).Canonical := by
  induction fuel generalizing s with
  | zero => exact hs
  | succ fuel ih =>
    unfold Machine.drainLines
    split
    · exact hs
    · exact ih (hs.nextLine ‹_›)

theorem trackUpset {u : TrackUpset} (hs : s.Canonical) : (Machine.trackUpset d s u).Canonical := by
  unfold Machine.trackUpset
  extract_lets
  split
  · exact (hs.bump _ _ _).raise _ _
  · exact .foldl (fun _ _ h1 => h1.modifyDomain) _ _ ((hs.bump _ _ _).raise _ _).update
  · exact (hs.bump _ _ _).raise _ _
  · exact ((hs.bump _ _ _).raise _ _).modifyDomain
  · exact (hs.bump _ _ _).raise _ _
  · exact ((hs.bump _ _ _).raise _ _).modifyDomain

theorem execDomainLine {ups : List TrackUpset} (hs : s.Canonical) : NextCanonical (Machine.execDomainLine d ups s) := by
  have h := (foldl (f := Machine.trackUpset d) (fun _ _ h => h.trackUpset) ups s hs).showContexts
  refine .next (.ite ?_ h)
  cases hn : Machine.nextLine (Machine.showContexts (ups.foldl (Machine.trackUpset d) s)) d false with
  | none => exact h
  | some t => exact h.nextLine hn

theorem execFloodHold (hs : s.Canonical) : NextCanonical (Machine.execFloodHold m s) := by
  unfold Machine.execFloodHold
  split
  · exact .next hs
  · exact .next (.ite hs.enterFlood hs)

theorem execStampReceive (hs : s.Canonical) : NextCanonical (Machine.execStampReceive s) := by
  unfold Machine.execStampReceive
  split
  · exact .next hs
  · exact .next hs.update

theorem execLineLossReport (hs : s.Canonical) : NextCanonical (Machine.execLineLossReport s) := by
  unfold Machine.execLineLossReport
  split
  · exact .next hs
  · exact .next hs.update

theorem domainIdle (hs : s.Canonical) : (Machine.domainIdle s d).Canonical :=
  (foldl (fun _ _ h1 => .ite h1.exitBand h1) _ _ (ite hs.setTrkState
    hs).drainLines.closeAll).setTrkState.modifyDomain.keepReady.showContexts

theorem dropAborted (hs : s.Canonical) : (Machine.dropAborted s d).Canonical := hs.modifyDomain.keepReady

theorem execSpanStopNotice (hs : s.Canonical) : NextCanonical (Machine.execSpanStopNotice m s) := by
  unfold Machine.execSpanStopNotice
  split
  · exact .next hs
  · exact .ite (.next hs) (.ite (.next hs.domainIdle) (.next (ite (.foldl (fun _ _ h1 => h1.exitBand) _ _ hs)
      hs).modifyDomain.setTrkState))

theorem followTakeover {age : Nat} (hs : s.Canonical) : (Machine.followTakeover s d age).Canonical :=
  hs.dropAborted.modifyDomain.update.ifThen (·.setTrkState)

theorem execTakeoverNotice {age : BitVec 8} (hs : s.Canonical) :
    NextCanonical (Machine.execTakeoverNotice d age s) := by
  unfold Machine.execTakeoverNotice
  split
  · exact .next hs
  · exact .next hs.update.followTakeover

theorem execServiceStopNotice (hs : s.Canonical) : NextCanonical (Machine.execServiceStopNotice d s) :=
  .next hs.domainIdle.serviceRecords.modifyDomain

theorem execHeadGoneNotice (hs : s.Canonical) : NextCanonical (Machine.execHeadGoneNotice h s) :=
  .next (foldl (fun _ _ h1 => .foldl (fun _ _ h2 => .ite h2 (.foldl (fun _ _ h3 => h3.closeBlob) _ _ h2)) _ _ h1) _ _
    hs).showContexts

theorem execSpanRunningNotice (hs : s.Canonical) : NextCanonical (Machine.execSpanRunningNotice d s) :=
  .ite (.next hs) (.ite (.next hs.dropAborted.setTrkState) (.ite (.next hs.setTrkState.modifyDomain) (.next hs)))

theorem emitCrop (hs : s.Canonical) : (Machine.emitCrop s r).2.Canonical := .iteSnd hs.update hs

theorem queueCrop (hs : s.Canonical) : (Machine.queueCrop s r).Canonical := .ite hs.update hs

theorem emitMark (hs : s.Canonical) : (Machine.emitMark s r).2.Canonical := by
  unfold Machine.emitMark
  dsimp only
  split
  · exact hs
  · exact .iteSnd hs.update ((hs.bump _ _ _).raise _ _)

theorem emitOut (hs : s.Canonical) : (Machine.emitOut s r).Canonical :=
  (((hs.update.ifThen (·.update)).ifThen (·.update)).bump _ _ _).ifThen (·.raise _ _)

theorem execRecordEmit (hs : s.Canonical) : NextCanonical (Machine.execRecordEmit s) := by
  unfold Machine.execRecordEmit
  split
  · exact .next hs
  · refine .ite (.next hs) ?_
    split
    rename_i t e
    have ht : t.Canonical := by
      split at e
      · exact (Prod.mk.inj e).2 ▸ hs
      · split at e
        have h1 := hs.emitCrop.ofSnd ‹_›
        split at e
        have h2 := ofSnd (iteSnd h1.emitMark h1) ‹_›
        exact (Prod.mk.inj e).2 ▸ h2.queueCrop
    exact .ite (.next (((ite ht (ht.raise _ _)).ifThen (·.bump _ _ _)).ifThen (·.bump _ _ _)).update)
      (.next ht.update.emitOut.showContexts)

end Sys2Proof.Machine.State.Canonical
end

