-- ==== Sys2Proof/Proofs/CanonicalTiming.lean ====
section
/-!
PROOFS. The functions of timing, strands, causeway and hub keep the stores canonical.
-/

namespace Sys2Proof.Machine.State.Canonical

variable {s : State} {g : Fin 8} {k : Fin 4} {east strobe : Bool} {val crc : BitVec 32} {i : Fin 80} {c p : Fin 16}
  {cause at' st x : Nat} {o : Fin 32} {ups : List Upset}

/-! ## Timing -/

theorem modifyTm {f : Timing → Timing} (hs : s.Canonical) : (Machine.modifyTm s f).Canonical := hs.update

theorem setChan {x : Channel} (hs : s.Canonical) : (Machine.setChan s c x).Canonical := hs.modifyTm

theorem setGrp {x : Group} (hs : s.Canonical) : (Machine.setGrp s g x).Canonical := hs.modifyTm

theorem setChanPos {c : Nat} {v : BitVec 48} (hs : s.Canonical) : (Machine.setChanPos s c v).Canonical :=
  (hs.setReg _ _).setReg _ _

theorem raiseMotion {c : Nat} (hs : s.Canonical) : (Machine.raiseMotion s c cause).Canonical := hs.raise _ _

theorem trackDirection (hs : s.Canonical) : (Machine.trackDirection s c).Canonical :=
  .ite (hs.setChan.setFld _ _ _).raiseMotion hs.setChan

theorem rollRate (hs : s.Canonical) : (Machine.rollRate s c).Canonical := .ite hs (hs.setChan.setReg _ _)

theorem setTgState {g : Nat} (hs : s.Canonical) : (Machine.setTgState s g st).Canonical := hs.setFld _ _ _

theorem raiseTg {g : Nat} (hs : s.Canonical) : (Machine.raiseTg s g cause).Canonical := hs.raise _ _

theorem groupCount {e : Edge} (hs : s.Canonical) : (Machine.groupCount s g e).Canonical := .ite hs hs.setGrp

theorem advanceActions {mine : Fin 8 → Bool} {e : Option Edge} {gaps : List (Nat × Nat)} (hs : s.Canonical) :
    (Machine.advanceActions s mine e gaps).Canonical :=
  hs.modifyTm

theorem countEdge {fwd : Bool} (hs : s.Canonical) : (Machine.countEdge s c fwd).Canonical :=
  (hs.setChanPos.rollRate.ifElse (fun h1 => (h1.setFld _ _ _).ifThen (·.raiseMotion))).setChan.trackDirection.branch
    (fun h3 => (foldl (fun _ _ h4 => h4.groupCount) _ _ h3).advanceActions) (·.advanceActions)

theorem setLevels {c : Nat} {a b z : Bool} (hs : s.Canonical) : (Machine.setLevels s c a b z).Canonical :=
  hs.setFld _ _ _

theorem execEncoderCount {a b : List Bool} (hs : s.Canonical) : NextCanonical (Machine.execEncoderCount c a b s) := by
  unfold Machine.execEncoderCount
  refine .ite (.next hs.setLevels) ?_
  split
  · exact .next hs
  · exact .next hs.setLevels.countEdge

theorem execIllegal {x : ChannelSamples} (hs : s.Canonical) : NextCanonical (Machine.execIllegal x s) :=
  .ite (.next hs) (.next (hs.setLevels.ifElse (fun h1 => (h1.bump _ _ _).raise _ _)))

theorem execEncoderStall (hs : s.Canonical) : NextCanonical (Machine.execEncoderStall c s) :=
  .ite (.next hs) (.next (hs.setChan.setFld _ _ _).raiseMotion)

theorem execZEdge {z : List Bool} (hs : s.Canonical) : NextCanonical (Machine.execZEdge c z s) :=
  .ite (.next hs.setLevels) (.next ((((hs.setLevels.setReg _ _).setReg _ _).setFld _ _ _).ifThen (fun h1 =>
    (h1.bump _ _ _).raise _ _)))

theorem groupAdvance {pos : BitVec 64} {interp : Bool} (hs : s.Canonical) :
    (Machine.groupAdvance s g pos at' interp).Canonical :=
  hs.setGrp.groupCount.advanceActions

theorem execInternalCount (hs : s.Canonical) : NextCanonical (Machine.execInternalCount g s) :=
  .ite (.next hs) (.next hs.setGrp.groupAdvance)

theorem addPulse {rise : Nat} (hs : s.Canonical) : (Machine.addPulse s o rise).Canonical := .ite hs hs.modifyTm

theorem pulseOutputs (hs : s.Canonical) : (Machine.pulseOutputs s g at' strobe).Canonical :=
  .foldl (fun _ _ h1 => .ite h1.addPulse h1) _ _ hs

theorem setTgIndex {g : Nat} {v : BitVec 64} (hs : s.Canonical) : (Machine.setTgIndex s g v).Canonical :=
  hs.setReg64 _ _ _

theorem sendStamp {k : GroupStamp} (hs : s.Canonical) : (Machine.sendStamp s k).Canonical := hs.modifyTm

theorem triggerGroup {k : GroupStamp} {expCode : BitVec 16} (hs : s.Canonical) :
    (Machine.triggerGroup s g k at' expCode strobe).Canonical :=
  (foldl (fun _ _ h1 => h1.triggerPort) _ _ hs.sendStamp).pulseOutputs

theorem loseGroupLine {k : GroupStamp} (hs : s.Canonical) : (Machine.loseGroupLine s g k).Canonical :=
  .foldl (fun _ _ h1 => .ite h1.declareLost h1) _ _ hs.sendStamp

theorem fireLine {p : BitVec 64} (hs : s.Canonical) : (Machine.fireLine s g p at').Canonical := by
  unfold Machine.fireLine
  extract_lets
  split
  exact (hs.setTgState.setTgIndex.setGrp.triggerGroup.ifThen (·.strandSend)).ifThen (·.strandSend)

theorem skipLine {p : BitVec 64} (hs : s.Canonical) : (Machine.skipLine s g p at').Canonical :=
  (hs.setTgIndex.loseGroupLine.bump _ _ _).raiseTg

theorem nextPoint (hs : s.Canonical) : (Machine.nextPoint s g).Canonical := hs.setGrp

theorem execLineTrigger (hs : s.Canonical) : NextCanonical (Machine.execLineTrigger g s) := by
  unfold Machine.execLineTrigger
  extract_lets
  split
  · exact .next hs
  · exact .ite (.next hs) (.ite (.next hs.nextPoint.skipLine) (.ite (.next (hs.nextPoint.setGrp.setFld _ _ _)) (.next
      hs.nextPoint.fireLine)))

theorem execDelayedTrigger (hs : s.Canonical) : NextCanonical (Machine.execDelayedTrigger g s) := by
  unfold Machine.execDelayedTrigger
  extract_lets
  split
  · exact .next hs
  · exact .ite (.next hs) (.next (hs.setGrp.setFld _ _ _).fireLine)

theorem tgStart (hs : s.Canonical) : (Machine.tgStart s g).Canonical := .ite hs hs.setGrp.setTgState.raiseTg

theorem execTgStart (hs : s.Canonical) : NextCanonical (Machine.execTgStart g s) := .next hs.tgStart

theorem tgStop (hs : s.Canonical) : (Machine.tgStop s g).Canonical :=
  .ite hs (hs.setGrp.setTgState.setFld _ _ _).raiseTg

theorem execTgStop (hs : s.Canonical) : NextCanonical (Machine.execTgStop g s) := .next hs.tgStop

theorem raiseAs {o : Nat} (hs : s.Canonical) : (Machine.raiseAs s o cause).Canonical := hs.raise _ _

theorem setActions {as : List Action} (hs : s.Canonical) : (Machine.setActions s as).Canonical :=
  hs.modifyTm.setFld _ _ _

theorem arriveAction {start stop : BitVec 64} {blob : BitVec 32} (hs : s.Canonical) :
    (Machine.arriveAction s o start stop blob).Canonical :=
  .ite (hs.bump _ _ _).raiseAs (.ite hs.setActions (.ite ((hs.setActions.bump _ _ _).bump _ _ _).raiseAs
    (hs.bump _ _ _).raiseAs))

theorem execMarkingMessage (hs : s.Canonical) : NextCanonical (Machine.execMarkingMessage s) := by
  unfold Machine.execMarkingMessage
  split
  · exact .next hs
  · exact .next hs.modifyTm.arriveAction

theorem execActionFire {k : Fin 256} (hs : s.Canonical) : NextCanonical (Machine.execActionFire k s) := by
  unfold Machine.execActionFire
  split
  · exact .next hs
  · split
    · exact .next hs
    · exact .ite (.next hs) (.next (hs.setActions.bump _ _ _))

theorem endAction {k : Nat} (hs : s.Canonical) : (Machine.endAction s k).Canonical := hs.setActions

theorem execGateEnd {k : Fin 256} (hs : s.Canonical) : NextCanonical (Machine.execGateEnd k s) := by
  unfold Machine.execGateEnd
  split
  · exact .next hs
  · exact .next (.ite hs.endAction hs)

theorem execActuatorPulseEnd {k : Fin 256} (hs : s.Canonical) : NextCanonical (Machine.execActuatorPulseEnd k s) := by
  unfold Machine.execActuatorPulseEnd
  split
  · exact .next hs
  · exact .next (.ite hs.endAction hs)

theorem asFlush (hs : s.Canonical) : (Machine.asFlush s).Canonical := hs.setActions.bump _ _ _

theorem execFlush (hs : s.Canonical) : NextCanonical (Machine.execFlush s) := .next hs.asFlush

theorem asPost (hs : s.Canonical) : (Machine.asPost s val).Canonical :=
  (hs.setFld _ _ _).ifElse (fun h1 => .ite (h1.setFld _ _ _).raiseAs (h1.setFld _ _ _).arriveAction)

theorem execAsPost (hs : s.Canonical) : NextCanonical (Machine.execAsPost val s) := .next hs.asPost

theorem writeEpochHi (hs : s.Canonical) : (Machine.writeEpochHi s val).Canonical :=
  .ite hs ((((hs.setReg _ _).setReg _ _).setFld _ _ _).raise _ _)

theorem writeEpochLo (hs : s.Canonical) : (Machine.writeEpochLo s val).Canonical := .ite hs hs.modifyTm

theorem execEpochWrite (hs : s.Canonical) : NextCanonical (Machine.execEpochWrite val s) := .next hs.writeEpochHi

theorem sendPtp {ms : List PtpMsg} (hs : s.Canonical) : (Machine.sendPtp s ms).Canonical := hs.modifyTm

theorem execSync {e : Fin 8} (hs : s.Canonical) : NextCanonical (Machine.execSync e s) :=
  .ite (.next hs) (.next (hs.bump _ _ _).sendPtp)

theorem execAnnounce {e : Fin 8} (hs : s.Canonical) : NextCanonical (Machine.execAnnounce e s) :=
  .next (.ite hs.sendPtp hs)

theorem execDelayReq {q : DelayRequest} (hs : s.Canonical) : NextCanonical (Machine.execDelayReq q s) :=
  .ite (.next (hs.bump _ _ _)) (.next (hs.modifyTm.bump _ _ _).sendPtp)

theorem execPps (hs : s.Canonical) : NextCanonical (Machine.execPps o s) := .next (.ite hs.addPulse hs)

/-! ## Strand -/

theorem raiseLink (hs : s.Canonical) : (Machine.raiseLink s east cause).Canonical := hs.raise _ _

theorem takeMessage {m : StrandMsg} {f : State → State} (hs : s.Canonical)
    (hf : ∀ a0, a0.Canonical → (f a0).Canonical) :
    (Machine.takeMessage s east m crc f).Canonical :=
  .ite hs (.ite (hs.bump _ _ _) (hf _ hs))

theorem execStrandTimeSend (hs : s.Canonical) : NextCanonical (Machine.execStrandTimeSend east s) :=
  .next (.ite hs.strandSend hs)

theorem steer {offset : BitVec 32} (hs : s.Canonical) : (Machine.steer s offset).Canonical :=
  ((ite hs.update hs).setReg _ _).modifyTm.branch (fun h1 => .ite ((h1.setFld _ _ _).raise _ _) h1) (fun h1 => .ite
    ((h1.setFld _ _ _).raise _ _) h1)

theorem followEpoch {epoch : BitVec 64} (hs : s.Canonical) : (Machine.followEpoch s epoch).Canonical :=
  hs.setReg64 _ _ _

theorem execStrandTimeMessage {m : TimeMessage} {offset : BitVec 32} (hs : s.Canonical) :
    NextCanonical (Machine.execStrandTimeMessage east m offset s) :=
  .next (hs.takeMessage (fun _ h1 => h1.modifyTm.ifThen (·.followEpoch.steer)))

theorem lateLine {f : StrandFire} (hs : s.Canonical) : (Machine.lateLine s f).Canonical :=
  ((hs.bump _ _ _).raise _ _).loseGroupLine

theorem followLine {f : StrandFire} (hs : s.Canonical) : (Machine.followLine s f).Canonical :=
  .ite hs (hs.groupAdvance.ifElse (fun h1 => .ite h1.modifyTm h1.lateLine))

theorem execStrandLineMessage {group : Fin 8} {index coord time fire : BitVec 64} {expCode : BitVec 16}
    (hs : s.Canonical) :
    NextCanonical (Machine.execStrandLineMessage east crc group index coord time fire expCode strobe s) :=
  .next (hs.takeMessage (fun _ h1 => .ite h1 (ite h1.strandQueue h1).followLine))

theorem execFollowerFire (hs : s.Canonical) : NextCanonical (Machine.execFollowerFire s) := by
  unfold Machine.execFollowerFire
  split
  · exact .next hs
  · exact .ite (.next hs) (.ite (.next hs.modifyTm) (.ite (.next hs.modifyTm.lateLine) (.next
      hs.modifyTm.setTgState.setTgIndex.triggerGroup)))

theorem execStrandRedMessage {n : Fin 17} {index : BitVec 64} {post : StrandPost} (hs : s.Canonical) :
    NextCanonical (Machine.execStrandRedMessage east crc n index post s) :=
  .next (hs.takeMessage (fun _ h1 => (h1.setCtl _ _).redLeave))

theorem execHaloMessage {n : Fin 17} {line : BitVec 64} {cols : Fin 65} {planes : List (BitVec 64)} (hs : s.Canonical)
    :
    NextCanonical (Machine.execHaloMessage east crc n line cols planes s) :=
  .next (hs.takeMessage (fun _ h1 => .ite (.ite (h1.setArray _ _) h1) (.ite (h1.setArray _ _) h1)))

theorem sideLost (hs : s.Canonical) : (Machine.sideLost s east).Canonical :=
  .foldl (fun _ _ h1 => h1.redLeave.redCut.redLeave) _ _ hs

theorem setSideLanes {l : BitVec 4} (hs : s.Canonical) : (Machine.setSideLanes s east l).Canonical := hs.modifyTm

theorem execStrandLaneLoss {lane : Fin 4} (hs : s.Canonical) :
    NextCanonical (Machine.execStrandLaneLoss east lane s) :=
  .ite (.next hs) (.ite (.next ((hs.setFld _ _ _).setSideLanes.setFld _ _ _).raiseLink.sideLost) (.next
    (((hs.setFld _ _ _).setSideLanes.setFld _ _ _).bump _ _ _).raiseLink.sideLost))

theorem execStrandLinkUp {lanes : BitVec 4} (hs : s.Canonical) :
    NextCanonical (Machine.execStrandLinkUp east lanes s) :=
  .ite (.next hs) (.next ((hs.setSideLanes.setFld _ _ _).setFld _ _ _).sideLost.raiseLink)

theorem enableSide (hs : s.Canonical) : (Machine.enableSide s east).Canonical :=
  .ite (.ite hs (hs.setFld _ _ _).setSideLanes) (((hs.setFld _ _ _).setFld _ _ _).ifThen (·.raiseLink.sideLost))

theorem refreshRole (hs : s.Canonical) : (Machine.refreshRole s).Canonical := hs.setFld _ _ _

theorem strandControl {was : Bool} (hs : s.Canonical) : (Machine.strandControl s was).Canonical :=
  hs.refreshRole.ifElse (·.enableSide.enableSide)

theorem advanceTime (hs : s.Canonical) : (Machine.advanceTime s).Canonical := hs.update

theorem strandLeave (hs : s.Canonical) : (Machine.strandLeave s east).Canonical := by
  unfold Machine.strandLeave
  split
  · exact hs
  · exact .ite hs hs.update.modifyTm

theorem tick (hs : s.Canonical) : (Machine.tick s).Canonical := hs.advanceTime.strandLeave.strandLeave

/-! ## Causeway -/

theorem refreshDrain (hs : s.Canonical) : (Machine.refreshDrain s).Canonical :=
  .ite hs (.foldl (fun _ _ h1 => h1.setFld _ _ _) _ _ hs)

theorem routeFlip (hs : s.Canonical) : (Machine.routeFlip s).Canonical :=
  .ite hs (((hs.setFld _ _ _).setFld _ _ _).setFld _ _ _).refreshDrain

theorem execFlip (hs : s.Canonical) : NextCanonical (Machine.execFlip s) := .next hs.routeFlip

theorem execEpochDrained (hs : s.Canonical) : NextCanonical (Machine.execEpochDrained s) :=
  .ite (.next hs) (.next (((hs.refreshDrain.setFld _ _ _).setFld _ _ _).raise _ _))

theorem execClass0Release (hs : s.Canonical) : NextCanonical (Machine.execClass0Release i s) := by
  unfold Machine.execClass0Release
  extract_lets
  split
  · exact .next hs
  · exact .ite (.next (hs.modifyCw.sendPacket _)) (.next hs)

theorem answerPacket {p : Packet} {status : BitVec 3} {data : List Byte} (hs : s.Canonical) :
    (Machine.answerPacket s p status data).Canonical :=
  hs.sendPacket _

theorem absorb {p : Packet} {status : BitVec 3} (hs : s.Canonical) : (Machine.absorb s p status).Canonical :=
  .ite hs.enterMesh (.ite hs.enterMesh hs)

theorem enterEpState {i : Nat} (hs : s.Canonical) : (Machine.enterEpState s i st).Canonical :=
  (hs.setFld _ _ _).raise _ _

theorem startDrain {i : Nat} (hs : s.Canonical) : (Machine.startDrain s i).Canonical := hs.enterEpState.modifyCw

theorem isolateEp {i : Nat} (hs : s.Canonical) : (Machine.isolateEp s i).Canonical :=
  .ite (hs.startDrain.setFld _ _ _) hs

theorem execIsolate (hs : s.Canonical) : NextCanonical (Machine.execIsolate i s) := .next hs.isolateEp

theorem cutWorm {p : Packet} (hs : s.Canonical) : (Machine.cutWorm s i p).Canonical :=
  hs.modifyCw.branch (·.probeIso) (fun h1 => (ite h1.crossFlits (.ite h1.crossFlits h1)).probeStray.raise _ _)

theorem cutModule (hs : s.Canonical) : (Machine.cutModule s).Canonical :=
  (foldl (fun _ _ h1 => h1.probeIso) _ _ hs.modifyWay.modifyWay).modifyCw

theorem execDrainCut {cuts : List Nat} (hs : s.Canonical) : NextCanonical (Machine.execDrainCut i cuts s) :=
  .ite (.next hs) (.next ((foldl (fun _ _ h1 => h1.cutWorm) _ _ hs).ifThen (·.cutModule)).refreshDrain)

theorem finishIsolation (hs : s.Canonical) : (Machine.finishIsolation s i st).Canonical :=
  .foldl (fun _ _ h1 => h1.probeIso.absorb) _ _ (hs.enterEpState.setFld _ _ _).modifyCw

theorem execEndpointIsolated (hs : s.Canonical) : NextCanonical (Machine.execEndpointIsolated i s) :=
  .ite (.next hs) (.ite (.next hs.finishIsolation.modifyCw) (.next hs.finishIsolation))

theorem releaseEp {i : Nat} (hs : s.Canonical) : (Machine.releaseEp s i).Canonical := .ite hs.enterEpState.sendKept hs

theorem execRelease (hs : s.Canonical) : NextCanonical (Machine.execRelease i s) := .next hs.releaseEp

theorem powerDownEp (hs : s.Canonical) : (Machine.powerDownEp s i).Canonical :=
  .ite hs (.ite hs.enterEpState (.ite hs.modifyCw hs.startDrain.modifyCw))

theorem setPier {x : Pier} (hs : s.Canonical) : (Machine.setPier s p x).Canonical := hs.modifyCw

theorem serveJob {j : MemJob} (hs : s.Canonical) : (Machine.serveJob s p j).Canonical := by
  unfold Machine.serveJob
  split
  exact branch (.iteSnd2 hs.pierWrite hs.pierRead) (·.setPier.answerPacket) (·.setPier)

theorem countStalls {served : Option MemJob} (hs : s.Canonical) : (Machine.countStalls s p served).Canonical :=
  hs.bump _ _ _

theorem countConflicts {m : Nat} (hs : s.Canonical) : (Machine.countConflicts s p m).Canonical :=
  .foldl (fun _ _ h1 => .ite (h1.bump _ _ _) h1) _ _ hs

theorem execPierAccess {ckpt : List (Bool × Fin 17)} (hs : s.Canonical) :
    NextCanonical (Machine.execPierAccess p ckpt ups s) := by
  unfold Machine.execPierAccess
  extract_lets
  split
  · split
    · exact .next (hs.applyUpsets _).setPier.setPier
    · refine .next (countStalls ?_).serveJob
      split
      · exact (hs.applyUpsets _).setPier.countConflicts
      · exact (hs.applyUpsets _).setPier
  · split
    · exact .next ((hs.applyUpsets _).setPier.countStalls.countConflicts.setPier.branch (·.setPier) (·.serveJob))
    · split
      · exact .next (hs.applyUpsets _).setPier.setPier.countStalls
      · split
        · exact .next (hs.applyUpsets _).setPier
        · exact .next ((hs.applyUpsets _).setPier.countStalls.branch (·.setPier) (·.serveJob))

theorem execDdr5Access {c : Fin 8} (hs : s.Canonical) : NextCanonical (Machine.execDdr5Access c ups s) := by
  unfold Machine.execDdr5Access
  extract_lets
  split
  · exact .next (hs.applyUpsets _)
  · exact .ite (.next (hs.applyUpsets _).setDdr.probeStray.absorb) (.ite (.next
      (hs.applyUpsets _).setDdr.ddrWrite.answerPacket) (.next (hs.applyUpsets _).setDdr.ddrRead.answerPacket))

theorem execDdr5Refresh {_c : Fin 8} (hs : s.Canonical) : NextCanonical (Machine.execDdr5Refresh _c s) := .next hs

theorem execMr4Read {c : Fin 8} {doubled : Bool} (hs : s.Canonical) :
    NextCanonical (Machine.execMr4Read c doubled s) :=
  .ite (.next hs) (.next ((hs.setFld _ _ _).raise _ _))

theorem setBoot {v : Nat} (hs : s.Canonical) : (Machine.setBoot s v).Canonical := hs.setFld _ _ _

theorem raiseBoot (hs : s.Canonical) : (Machine.raiseBoot s cause x).Canonical := hs.raise _ _

theorem fallbackPorts (hs : s.Canonical) : (Machine.fallbackPorts s).Canonical :=
  .foldl (fun _ _ h1 => ((((h1.setReg _ _).setReg _ _).setReg _ _).setReg _ _).setFld _ _ _) _ _ hs.update

theorem noImage (hs : s.Canonical) : (Machine.noImage s cause).Canonical := hs.setBoot.fallbackPorts.raiseBoot

theorem appendRepair {kind unit b2 b3 : Nat} {word : BitVec 32} (hs : s.Canonical) :
    (Machine.appendRepair s kind unit b2 b3 word).Canonical :=
  .ite hs.update hs.update

theorem ddrMap (hs : s.Canonical) : (Machine.ddrMap s).Canonical :=
  .ite hs ((((foldl (fun _ _ h1 => (h1.setDdr.setFld _ _ _).setFld _ _ _) _ _ hs).setFld _ _ _).setFld _ _ _).ifElse
    (fun h2 => .ite h2.noImage h2.setBoot))

theorem execDdr5TrainingDone {c : Fin 8} {trained unbuffered ecc : Bool} {width density ranks rate : Nat}
    (hs : s.Canonical) :
    NextCanonical (Machine.execDdr5TrainingDone c trained unbuffered ecc width density ranks rate s) :=
  .ite (.next hs) (.next
    ((((((((((hs.setFld _ _ _).setFld _ _ _).setFld _ _ _).setFld _ _ _).setFld _ _ _).setFld _ _ _).setFld _ _ _).ifThen
    (·.setDdr)).ifThen (·.setFld _ _ _)).raise _ _).ddrMap)

theorem execZqCalibration {_c : Fin 8} (hs : s.Canonical) : NextCanonical (Machine.execZqCalibration _c s) := .next hs

theorem scrubBeat (hs : s.Canonical) : (Machine.scrubBeat s x).Canonical := by
  unfold Machine.scrubBeat
  split
  · exact hs
  · exact hs.setErr.ddrReport
  · exact hs.ddrReport

theorem execPatrolScrub {c : Fin 8} (hs : s.Canonical) : NextCanonical (Machine.execPatrolScrub c ups s) :=
  .ite (.next (hs.applyUpsets _)) (.ite (.next ((((foldl (fun _ _ h1 => h1.scrubBeat) _ _
    (hs.applyUpsets _)).setDdr.bump _ _ _).setFld _ _ _).raise _ _)) (.next ((foldl (fun _ _ h2 => h2.scrubBeat) _ _
    (hs.applyUpsets _)).setDdr.setFld _ _ _)))

theorem execRowSpareDone {c : Fin 8} (hs : s.Canonical) : NextCanonical (Machine.execRowSpareDone c s) := by
  unfold Machine.execRowSpareDone
  extract_lets
  split
  · exact .next hs
  · exact .next ((((foldl (fun _ _ h1 => .ite h1.poisonWord h1.setErr) _ _
      hs).setDdr.setFld _ _ _).setFld _ _ _).appendRepair.raise _ _)

theorem execHubTempRead {c : Fin 8} {temp : BitVec 8} (hs : s.Canonical) :
    NextCanonical (Machine.execHubTempRead c temp s) :=
  .next (.ite (hs.setFld _ _ _) hs)

/-! ## Hub -/

theorem hubOutput (hs : s.Canonical) : (Machine.hubOutput s o).Canonical :=
  .ite (hs.setActions.bump _ _ _) (hs.bump _ _ _)

theorem hubSpan {role line : Nat} (hs : s.Canonical) : (Machine.hubSpan s role line).Canonical := by
  unfold Machine.hubSpan
  split
  · exact hs.bump _ _ _
  · exact hs.setFld _ _ _

theorem hubRaise {r : Raise} (hs : s.Canonical) : (Machine.hubRaise s r).Canonical :=
  hs.modifyUpdate.branch (·.bump _ _ _) (fun h1 => ((((ite (h1.bump _ _ _) (h1.setReg _ _).update).ifThen (fun h2 =>
    (h2.setFld _ _ _).bump _ _ _)).ifThen (fun h3 => (h3.setFld _ _ _).bump _ _ _)).ifThen (·.hubOutput)).ifThen
    (·.hubSpan))

theorem execEventRaise {merged : Nat} (hs : s.Canonical) : NextCanonical (Machine.execEventRaise merged s) := by
  unfold Machine.execEventRaise
  split
  · exact .next hs
  · exact .next hs.update.hubRaise

theorem execAbutmentTarget (hs : s.Canonical) : NextCanonical (Machine.execAbutmentTarget s) := by
  unfold Machine.execAbutmentTarget
  split
  · exact .next hs
  · exact .next ((hs.offerPacket.setFld _ _ _).setFld _ _ _)

theorem ehRaise (hs : s.Canonical) : (Machine.ehRaise s val).Canonical := hs.raise _ _

theorem execEhRaise (hs : s.Canonical) : NextCanonical (Machine.execEhRaise val s) := .next hs.ehRaise

theorem pendClear {src : Nat} (hs : s.Canonical) : (Machine.pendClear s src val).Canonical :=
  (ite hs ((hs.setFld _ _ _).setFld _ _ _)).ifElse (fun h1 => (h1.setFld _ _ _).setFld _ _ _)

theorem execPendClear {src : Fin 1024} (hs : s.Canonical) : NextCanonical (Machine.execPendClear src val s) :=
  .next hs.pendClear

theorem srcWrite {src : Nat} (hs : s.Canonical) : (Machine.srcWrite s src val).Canonical := .ite hs (hs.setReg _ _)

theorem execEhSrcWrite {src : Fin 1024} (hs : s.Canonical) : NextCanonical (Machine.execEhSrcWrite src val s) :=
  .next hs.srcWrite

theorem setKeeper {x : Keeper} (hs : s.Canonical) : (Machine.setKeeper s k x).Canonical := hs.update

theorem setKpPc {k : Nat} {v : BitVec 32} (hs : s.Canonical) : (Machine.setKpPc s k v).Canonical := hs.setReg _ _

theorem setKpMode {k : Nat} {owner : Bool} (hs : s.Canonical) : (Machine.setKpMode s k owner).Canonical :=
  hs.setFld _ _ _

theorem setKpLevel {k l vec : Nat} (hs : s.Canonical) : (Machine.setKpLevel s k l vec).Canonical :=
  (hs.setFld _ _ _).setFld _ _ _

theorem showDepth (hs : s.Canonical) : (Machine.showDepth s k).Canonical := hs.setFld _ _ _

theorem raiseKp {k : Nat} (hs : s.Canonical) : (Machine.raiseKp s k cause).Canonical := hs.raise _ _

theorem localCheck {a : Nat} (hs : s.Canonical) : (Machine.localCheck s k a).2.Canonical := by
  unfold Machine.localCheck
  extract_lets
  split
  · exact hs
  · exact hs.setErr.bump _ _ _
  · exact (hs.bump _ _ _).raiseKp

theorem localWrite {a n v : Nat} (hs : s.Canonical) : (Machine.localWrite s k a n v).Canonical :=
  .ite (hs.writeLE _ _ _).setErr ((hs.localCheck.ifThen (·.poisonWord)).writeLE _ _ _)

theorem restoreFrame (hs : s.Canonical) : (Machine.restoreFrame s k).Canonical := by
  unfold Machine.restoreFrame
  extract_lets
  split
  · exact hs
  · exact hs.setKeeper.setKpPc.setKpMode.setKpLevel.showDepth

theorem abandonAccess (hs : s.Canonical) : (Machine.abandonAccess s k).Canonical := by
  unfold Machine.abandonAccess
  extract_lets
  split
  · exact hs.setKeeper
  · exact hs.setKeeper.modifyCw

theorem haltKeeper {k : Nat} (hs : s.Canonical) : (Machine.haltKeeper s k).Canonical :=
  ((hs.setFld _ _ _).setFld _ _ _).setFld _ _ _

theorem abandon (hs : s.Canonical) : (Machine.abandon s k).Canonical := .ite hs.haltKeeper hs.restoreFrame

theorem beginHandler (hs : s.Canonical) : (Machine.beginHandler s k x).Canonical :=
  (((((hs.setKeeper.setFld _ _ _).setFld _ _ _).setReg _ _).bump _ _ _).setKpMode.setKpLevel.setFld _ _ _).localCheck.setKpPc.showDepth

theorem execKpC0Long (hs : s.Canonical) : NextCanonical (Machine.execKpC0Long k s) :=
  .ite (.next (hs.setKeeper.raise _ _)) (.next hs)

theorem firmwareInit (hs : s.Canonical) : (Machine.firmwareInit s k).Canonical :=
  .ite hs (hs.setKeeper.ifThen (·.localWrite))

theorem keeperRun (hs : s.Canonical) : (Machine.keeperRun s k).Canonical :=
  .ite hs
    ((hs.abandonAccess.setFld _ _ _).setKeeper.setKpLevel.setKpMode.setFld _ _ _).localCheck.setKpPc.showDepth.firmwareInit

theorem execKeeperRun (hs : s.Canonical) : NextCanonical (Machine.execKeeperRun k s) := .next hs.keeperRun

theorem keeperStop (hs : s.Canonical) : (Machine.keeperStop s k).Canonical :=
  .ite hs (.ite (hs.setFld _ _ _) hs.haltKeeper)

theorem execKeeperStop (hs : s.Canonical) : NextCanonical (Machine.execKeeperStop k s) := .next hs.keeperStop

end Sys2Proof.Machine.State.Canonical
end

