-- ==== Sys2Proof/Proofs/CanonicalFabric.lean ====
section
/-!
PROOFS. The functions of ledger, crops and regions keep the stores canonical.
-/

namespace Sys2Proof.Machine.State.Canonical

variable {s : State} {m : Fin 17} {val : BitVec 32} {ups : List Upset} {q : Search} {k : Fin 32} {i : BitVec 64}
  {ws : List Word}

/-! ## Ledger -/

theorem setLgOldest {v : BitVec 64} (hs : s.Canonical) : (Machine.setLgOldest s v).Canonical := hs.setReg64 _ _ _

theorem modifyLg {f : Ledger → Ledger} (hs : s.Canonical) : (Machine.modifyLg s f).Canonical := hs.update

theorem showFlight (hs : s.Canonical) : (Machine.showFlight s).Canonical := hs.setFld _ _ _

theorem joinLseq {tag : Nat} {l : BitVec 64} (hs : s.Canonical) : (Machine.joinLseq s tag l).Canonical := hs.update

theorem execLedgerTake (hs : s.Canonical) : NextCanonical (Machine.execLedgerTake s) := by
  unfold Machine.execLedgerTake
  refine .ite (.next hs) ?_
  split
  · exact .next hs
  · exact .next ((hs.setReg64 _ _ _).ifThen (fun h1 => h1.setLgOldest.ifElse (fun h2 =>
      (h2.raise _ _).modifyLg))).modifyLg.ddrUnitWrite.joinLseq.showFlight

theorem execLedgerWriteDone (hs : s.Canonical) : NextCanonical (Machine.execLedgerWriteDone s) := by
  unfold Machine.execLedgerWriteDone
  split
  · exact .next hs
  · refine .next ((ite ?_ hs.modifyLg.ddrUnitWrite.ddrUnitWrite).update.bump _ _ _).showFlight
    split
    have h1 := hs.modifyLg.ddrUnitWrite.ddrUnitRead.ofSnd2 ‹_›
    exact h1.ddrUnitWrite.ddrUnitWrite

theorem ledgerEnable (hs : s.Canonical) : (Machine.ledgerEnable s).Canonical :=
  .ite hs ((((hs.setFld _ _ _).setFld _ _ _).setReg64 _ _ _).setReg64 _ _ _).setLgOldest.modifyLg

theorem ledgerDisable (hs : s.Canonical) : (Machine.ledgerDisable s).Canonical := (hs.setFld _ _ _).setFld _ _ _

theorem execLedgerEnable (hs : s.Canonical) : NextCanonical (Machine.execLedgerEnable s) := .next hs.ledgerEnable

theorem execIndexClearDone (hs : s.Canonical) : NextCanonical (Machine.execIndexClearDone s) :=
  .ite (.next hs) (.next (((hs.ifThen (·.clear.clearErrs)).setFld _ _ _).raise _ _))

theorem segmentWrite (hs : s.Canonical) : (Machine.segmentWrite s val).Canonical :=
  (hs.setFld _ _ _).ifElse (fun h1 => (((h1.modifyLg.setReg _ _).setReg64 _ _ _).ifThen
    (·.setLgOldest.modifyLg)).raise _ _)

theorem execSegmentGo (hs : s.Canonical) : NextCanonical (Machine.execSegmentGo val s) := .next hs.segmentWrite

/-- The read is made a variable before the body is looked at: the kernel evaluates a call that stands in a `match`
when it compares the function with its body. -/
theorem enterBucket {b : Int} (hs : s.Canonical) : (Machine.enterBucket s q b).2.Canonical := by
  obtain ⟨f, hf⟩ : ∃ f, f = @Machine.enterBucket := ⟨_, rfl⟩
  rw [← hf]
  delta Machine.enterBucket at hf
  obtain ⟨read, hread⟩ : ∃ read, read = @Machine.ddrUnitRead := ⟨_, rfl⟩
  have h1 {s : State} {a n : Nat} (hs : s.Canonical) : (read s a n).2.2.Canonical := hread ▸ hs.ddrUnitRead
  rw [← hread] at hf
  subst hf
  exact .ite ((h1 hs).bump _ _ _) (h1 hs)

theorem enterPeriod {k : Nat} (hs : s.Canonical) : (Machine.enterPeriod s q k).2.Canonical := by
  unfold Machine.enterPeriod
  extract_lets
  exact hs.enterBucket

/-- The call in the body is made a variable first, as in `enterBucket`. -/
theorem enterSlot {k : Nat} (hs : s.Canonical) : (Machine.enterSlot s q k).2.Canonical := by
  obtain ⟨f, hf⟩ : ∃ f, f = @Machine.enterSlot := ⟨_, rfl⟩
  rw [← hf]
  delta Machine.enterSlot at hf
  obtain ⟨enter, henter⟩ : ∃ enter, enter = @Machine.enterPeriod := ⟨_, rfl⟩
  have h1 {q : Search} {k : Nat} : (enter s q k).2.Canonical := henter ▸ hs.enterPeriod
  rw [← henter] at hf
  subst hf
  dsimp only
  split
  · exact hs
  · exact h1

theorem emitChain {near far : SideHit} (hs : s.Canonical) : (Machine.emitChain s q near far).2.Canonical :=
  (hs.update.modifyLg.update.update.bump _ _ _).ifThen (·.raise _ _)

theorem leaveSlot (hs : s.Canonical) : (Machine.leaveSlot s q).2.Canonical :=
  ((ite (hs.bump _ _ _) hs).ifThen (·.raise _ _)).enterSlot

/-- One unfolding of the recursion, with its functional `F` held as a variable. -/
theorem advance_succ (F) (hF : F = @Machine.advance._f) (n : Nat) :
    ∃ b, Machine.advance (n + 1) = F (n + 1) ⟨Machine.advance n, b⟩ := by
  obtain ⟨f, hf⟩ : ∃ f, f = Machine.advance := ⟨_, rfl⟩
  rw [← hf]
  delta Machine.advance at hf
  rw [← hF] at hf
  subst hf
  exact ⟨_, rfl⟩

/-- The calls in the body are made variables first, as in `enterBucket`. -/
theorem advance {fuel : Nat} (hs : s.Canonical) : (Machine.advance fuel s q).2.Canonical := by
  induction fuel generalizing s q with
  | zero => exact hs
  | succ n ih =>
    obtain ⟨emit, hemit⟩ : ∃ emit, emit = @Machine.emitChain := ⟨_, rfl⟩
    obtain ⟨bucket, hbucket⟩ : ∃ bucket, bucket = @Machine.enterBucket := ⟨_, rfl⟩
    obtain ⟨period, hperiod⟩ : ∃ period, period = @Machine.enterPeriod := ⟨_, rfl⟩
    obtain ⟨leave, hleave⟩ : ∃ leave, leave = @Machine.leaveSlot := ⟨_, rfl⟩
    have h1 {s : State} {q : Search} {n f : SideHit} (hs : s.Canonical) : (emit s q n f).2.Canonical :=
      hemit ▸ hs.emitChain
    have h2 {s : State} {q : Search} {b : Int} (hs : s.Canonical) : (bucket s q b).2.Canonical :=
      hbucket ▸ hs.enterBucket
    have h3 {s : State} {q : Search} {k : Nat} (hs : s.Canonical) : (period s q k).2.Canonical :=
      hperiod ▸ hs.enterPeriod
    have h4 {s : State} {q : Search} (hs : s.Canonical) : (leave s q).2.Canonical := hleave ▸ hs.leaveSlot
    obtain ⟨F, hF⟩ : ∃ F, F = @Machine.advance._f := ⟨_, rfl⟩
    obtain ⟨b, hb⟩ := advance_succ F hF n
    rw [hb]
    clear hb
    delta Machine.advance._f at hF
    rw [← hemit, ← hbucket, ← hperiod, ← hleave] at hF
    subst hF
    dsimp only
    split
    · split
      · refine .iteSnd hs ?_
        split
        · exact (h4 (h1 hs)).ofSnd ‹_›
        · exact ih ((h4 (h1 hs)).ofSnd ‹_›)
      · split
        · exact (h4 hs).ofSnd ‹_›
        · exact ih ((h4 hs).ofSnd ‹_›)
    · refine .iteSnd hs (.iteSnd (ih (h2 hs)) (.iteSnd (ih (h3 hs)) (.iteSnd (ih hs) ?_)))
      split
      · exact (h4 hs).ofSnd ‹_›
      · exact ih ((h4 hs).ofSnd ‹_›)

theorem setSearch {r : Option Search × State} (hs : r.2.Canonical) : (Machine.setSearch r).Canonical := hs.update

theorem execRepeatSearch (hs : s.Canonical) : NextCanonical (Machine.execRepeatSearch s) := by
  unfold Machine.execRepeatSearch
  split
  · exact .next hs.advance.setSearch
  · split
    · exact .next hs
    · refine .ite (.next hs) (.ite (.next hs.update) ?_)
      extract_lets
      split
      · have h1 := hs.update.enterSlot.ofSnd ‹_›
        exact .next h1
      · have h2 := hs.update.enterSlot.ofSnd ‹_›
        exact .next h2.advance.setSearch

theorem execSideEntryRead (hs : s.Canonical) : NextCanonical (Machine.execSideEntryRead ups s) := by
  unfold Machine.execSideEntryRead
  extract_lets
  split
  · exact .next (hs.applyUpsets _)
  · refine .ite (.next (hs.applyUpsets _)) ?_
    split
    have h1 := (hs.applyUpsets _).ddrUnitRead.ofSnd2 ‹_›
    extract_lets
    exact .next (ite (h1.bump _ _ _) h1).advance.setSearch

/-- The read in the body is made a variable first, as in `enterBucket`. -/
theorem execChainWrite (hs : s.Canonical) : NextCanonical (Machine.execChainWrite s) := by
  obtain ⟨f, hf⟩ : ∃ f, f = @Machine.execChainWrite := ⟨_, rfl⟩
  rw [← hf]
  delta Machine.execChainWrite at hf
  obtain ⟨read, hread⟩ : ∃ read, read = @Machine.ddrUnitRead := ⟨_, rfl⟩
  have h1 {s : State} {a n : Nat} (hs : s.Canonical) : (read s a n).2.2.Canonical := hread ▸ hs.ddrUnitRead
  rw [← hread] at hf
  subst hf
  dsimp only
  split
  · exact .next hs
  · exact .next (.ite (h1 hs.update).ddrUnitWrite (h1 hs.update))

theorem execCropRequest (hs : s.Canonical) : NextCanonical (Machine.execCropRequest s) := by
  unfold Machine.execCropRequest
  split
  · exact .next hs
  · exact .ite (.next hs.update) (.ite (.next hs) (.next hs.update))

theorem ringRow {w : CropWork} {i : Nat} (hs : s.Canonical) : (Machine.ringRow s w i).2.Canonical := by
  unfold Machine.ringRow
  extract_lets
  split
  have h1 := hs.ddrUnitRead.ofSnd2 ‹_›
  refine .iteSnd h1 (.iteSnd h1 (.iteSnd h1 ?_))
  extract_lets
  split
  have h2 := h1.ddrAreaRead.ofSnd2 ‹_›
  exact .iteSnd h2 h2

theorem setWork {k : Nat} {w : CropWork} (hs : s.Canonical) : (Machine.setWork s k w).Canonical := hs.update

theorem execCropRowRead {k : Fin 2} (hs : s.Canonical) : NextCanonical (Machine.execCropRowRead k ups s) := by
  unfold Machine.execCropRowRead
  extract_lets
  split
  · exact .next (hs.applyUpsets _)
  · refine .ite (.next (hs.applyUpsets _)) ?_
    split
    · have h1 := (hs.applyUpsets _).ringRow.ofSnd ‹_›
      exact .next h1
    · have h2 := (hs.applyUpsets _).ringRow.ofSnd ‹_›
      exact .next h2.setWork

theorem readRemaining {k : Nat} {w : CropWork} (hs : s.Canonical) : (Machine.readRemaining k s w).2.Canonical := by
  induction k generalizing s w with
  | zero => exact hs
  | succ k ih => exact ih hs.ringRow

theorem execCropTimeout {k : Fin 2} (hs : s.Canonical) : NextCanonical (Machine.execCropTimeout k s) := by
  unfold Machine.execCropTimeout
  split
  · exact .next hs
  · refine .ite (.next hs) ?_
    split
    have h1 := hs.readRemaining.ofSnd ‹_›
    exact .next (h1.setWork.raise _ _)

theorem storeWrite {bs : List Byte} (hs : s.Canonical) : (Machine.storeWrite s bs).Canonical :=
  hs.ddrAreaWrite.ddrAreaWrite

theorem handCrop {num size : Nat} (hs : s.Canonical) : (Machine.handCrop s num size).Canonical := hs.update

theorem execCropStoreWrite (hs : s.Canonical) : NextCanonical (Machine.execCropStoreWrite s) := by
  unfold Machine.execCropStoreWrite
  split
  · exact .next hs
  · split
    · exact .next hs
    · exact .ite (.next hs) (.ite (.next (hs.bump _ _ _)) (.next ((hs.storeWrite.update.bump _ _ _).ifThen
        (·.raise _ _)).handCrop))

/-! ## Region -/

theorem rgEnter {st : Nat} (hs : s.Canonical) : (Machine.rgEnter s m st).Canonical := by
  unfold Machine.rgEnter
  refine raiseRg ?_
  split
  · exact (((hs.setFld _ _ _).branch (·.setFld _ _ _) (fun h1 => .ite (h1.setFld _ _ _) h1)).ifElse
      (·.setFld _ _ _)).ifElse (·.setRegion _ _)
  · exact ((hs.setFld _ _ _).branch (·.setFld _ _ _) (fun h4 => .ite (h4.setFld _ _ _) h4)).ifElse (·.setFld _ _ _)

theorem switchSource (hs : s.Canonical) : (Machine.switchSource s m).Canonical :=
  (ite hs (hs.setRegion _ _)).flushMarkers

theorem writeRgSrc (hs : s.Canonical) : (Machine.writeRgSrc s m val).Canonical := by
  unfold Machine.writeRgSrc
  extract_lets
  split
  · exact .ite hs (hs.setReg _ _).switchSource
  · exact (hs.setReg _ _).switchSource

theorem execRgSrcWrite (hs : s.Canonical) : NextCanonical (Machine.execRgSrcWrite m val s) := .next hs.writeRgSrc

theorem execSourceSwitch (hs : s.Canonical) : NextCanonical (Machine.execSourceSwitch m s) := .next hs.switchSource

theorem queueStamp {k : StampIn} (hs : s.Canonical) : (Machine.queueStamp s m k).Canonical := by
  unfold Machine.queueStamp
  extract_lets
  split
  · exact .ite ((hs.setRegion _ _).bump _ _ _).raiseRg.reportLine.addMarker (hs.setRegion _ _)
  · exact hs.setRegion _ _

theorem markDamaged (hs : s.Canonical) : (Machine.markDamaged s m i).Canonical :=
  .foldl (fun _ _ h1 => .ite h1.setSlotFlags h1) _ _ hs

theorem gearEnd {g : GearLine} {damaged : Bool} (hs : s.Canonical) : (Machine.gearEnd s m g damaged).Canonical :=
  (hs.setRegion _ _).ifThen (·.markDamaged)

theorem takeItem {t : State} {i : IngestItem} (hs : s.Canonical) (h : Machine.takeItem s m = some (i, t)) : t.Canonical := by
  unfold Machine.takeItem at h
  split at h
  · cases h
  · dsimp only at h
    split at h
    · cases h
    · obtain ⟨-, rfl⟩ := Prod.mk.inj (Option.some.inj h)
      exact (hs.setHead _ _).ifThen (·.setRegion _ _)

theorem gearTake (hs : s.Canonical) : (Machine.gearTake s m).Canonical := by
  unfold Machine.gearTake
  extract_lets begin block finish
  have hbegin {t : State} (ht : t.Canonical) : (begin t).Canonical := by
    refine .ite ht ?_
    split
    · exact (ht.takeItem ‹_›).setRegion _ _
    · exact ht
  have hblock {t : State} (ht : t.Canonical) : (block t).Canonical := by
    unfold block
    split
    · exact ht
    · refine .ite ht ?_
      split
      · exact (ht.takeItem ‹_›).setRegion _ _
      · exact ht
  have hfinish {t : State} (ht : t.Canonical) : (finish t).Canonical := by
    unfold finish
    split
    · exact ht
    · refine .ite ht ?_
      split
      · exact (ht.takeItem ‹_›).gearEnd
      · exact ht
  exact hfinish (hblock (hbegin hs))

theorem gearSend (hs : s.Canonical) : (Machine.gearSend s m).2.Canonical := by
  unfold Machine.gearSend
  extract_lets
  split
  · exact hs
  · exact .iteSnd ((ite hs.queueStamp hs).setRegion _ _) hs

theorem beginSlot {k : Fin 32} {st : StampIn} (hs : s.Canonical) : (Machine.beginSlot s m k st).Canonical :=
  ((((hs.clear.clear).update.writeLE _ _ _).writeLE _ _ _).writeLE _ _ _).setSlotState

theorem takeSlot (hs : s.Canonical) : (Machine.takeSlot s m k).Canonical := hs.setRegion _ _

theorem beginLine (hs : s.Canonical) : (Machine.beginLine s m).Canonical := by
  unfold Machine.beginLine
  extract_lets
  split
  · exact ((hs.setRegion _ _).bump _ _ _).raiseRg
  · refine .ite (hs.setRegion _ _) ?_
    split
    · exact ((hs.setRegion _ _).bump _ _ _).raiseRg.reportLine.addMarker
    · exact ((hs.setRegion _ _).takeSlot.beginSlot.setRegion _ _).enterOrder.showSlots

theorem completeLine {o : OutLine} {damaged : Bool} (hs : s.Canonical) :
    (Machine.completeLine s m o k damaged).Canonical :=
  ((((hs.writeLE _ _ _).writeLE _ _ _).writeBytes _ _).setSlotFlags.setSlotState.ifThen
    (·.setRegion _ _)).refreshServed.showSlots

theorem takeBeat (hs : s.Canonical) : (Machine.takeBeat s m).Canonical := by
  unfold Machine.takeBeat
  refine .ite hs ?_
  extract_lets
  split
  · exact (hs.setRegion _ _).ifThen (·.beginLine)
  · refine .ite (flushMarkers ?_) (setRegion ?_ _ _)
    · split
      · refine (setRegion ?_ _ _).completeLine
        split
        · exact (((hs.setRegion _ _).ifThen (·.beginLine)).ifThen (fun h3 => (h3.bump _ _ _).raiseRg)).ifElse (fun h4
            => (h4.writeLE _ _ _).clearErrs)
        · exact ((hs.setRegion _ _).ifThen (·.beginLine)).ifThen (fun h6 => (h6.bump _ _ _).raiseRg)
      · refine setRegion ?_ _ _
        split
        · exact (((hs.setRegion _ _).ifThen (·.beginLine)).ifThen (fun h8 => (h8.bump _ _ _).raiseRg)).ifElse (fun h9
            => (h9.writeLE _ _ _).clearErrs)
        · exact ((hs.setRegion _ _).ifThen (·.beginLine)).ifThen (fun h11 => (h11.bump _ _ _).raiseRg)
    · split
      · exact (((hs.setRegion _ _).ifThen (·.beginLine)).ifThen (fun h13 => (h13.bump _ _ _).raiseRg)).ifElse (fun h14
          => (h14.writeLE _ _ _).clearErrs)
      · exact ((hs.setRegion _ _).ifThen (·.beginLine)).ifThen (fun h16 => (h16.bump _ _ _).raiseRg)

theorem execTransposerBeat (hs : s.Canonical) : NextCanonical (Machine.execTransposerBeat m s) := .next hs.takeBeat

theorem userEvents (hs : s.Canonical) : (Machine.userEvents s m).Canonical :=
  .foldl (fun _ _ h1 => .ite h1.raiseRg h1) _ _ hs

theorem execWordCellCycle (hs : s.Canonical) : NextCanonical (Machine.execWordCellCycle m ups s) := by
  unfold Machine.execWordCellCycle
  refine .ite (.next (hs.applyUpsets _)) ?_
  split
  have h1 := (hs.applyUpsets _).takeBeat.gearSend.ofSnd ‹_›
  extract_lets _ _ t
  have ht : t.Canonical := by
    unfold t
    split
    · exact .ite h1.gearTake h1
    · exact h1.gearTake
  split
  exact .next ((ht.setRegion _ _).update.bump _ _ _).userEvents

theorem putImg {a : Nat} {fs : List Fld} {w : BitVec 32} (hs : s.Canonical) : (Machine.putImg s a fs w).Canonical :=
  .foldl (fun _ _ h1 => .ite (h1.setFld _ _ _) h1) _ _ hs

theorem loadRegs (hs : s.Canonical) : (Machine.loadRegs s m ws).Canonical := hs.putImg.putImg.putImg

theorem freePad {p : Nat} (hs : s.Canonical) : (Machine.freePad s p).Canonical :=
  .ite hs (.dite (fun _ => hs.update.ifElse (fun h1 => .ite h1.hpEnable (.ite h1.hpPower h1))) (fun _ => hs.update))

theorem sealFail {cause : Nat} (hs : s.Canonical) : (Machine.sealFail s m cause).Canonical :=
  (hs.setFld _ _ _).rgEnter.raiseRg

theorem sealRegion (hs : s.Canonical) : (Machine.sealRegion s m ws).Canonical :=
  .ite hs.sealFail (.ite hs.sealFail (.ite hs.sealFail ((foldl (fun _ _ h1 => h1.freePad) _ _
    ((hs.setRegion _ _).loadRegs.setReg _ _)).setFld _ _ _).rgEnter))

theorem tripGuards (hs : s.Canonical) : (Machine.tripGuards s m).Canonical :=
  ((foldl (fun _ _ h1 => (ite h1 ((h1.setReg _ _).setFld _ _ _)).raiseRg) _ _ hs).setRegion _ _).setFld _ _ _

theorem badFrame {m : Nat} (hs : s.Canonical) : (Machine.badFrame s m).Canonical := hs.bump _ _ _

theorem commitFrame (hs : s.Canonical) : (Machine.commitFrame s m ws).Canonical :=
  .ite hs.badFrame (.ite hs.badFrame (.ite hs.sealRegion ((((hs.setRegion _ _).setFld _ _ _).ifThen
    (·.tripGuards)).ifThen (·.rgEnter))))

theorem frameWordWrite {i : Nat} {w : BitVec 32} (hs : s.Canonical) : (Machine.frameWordWrite s m i w).Canonical :=
  .ite (hs.setRegion _ _) (.ite (.ite (hs.setRegion _ _).commitFrame (hs.setRegion _ _)) ((hs.setRegion _ _).ifThen
    (·.badFrame)))

theorem execFrameWordWrite {i : Fin 67} {word : BitVec 32} (hs : s.Canonical) :
    NextCanonical (Machine.execFrameWordWrite m i word s) :=
  .next hs.frameWordWrite

theorem rgUnseal (hs : s.Canonical) : (Machine.rgUnseal s m).Canonical :=
  .ite ((hs.setRegion _ _).setFld _ _ _).rgEnter hs

theorem execRgUnseal (hs : s.Canonical) : NextCanonical (Machine.execRgUnseal m s) := .next hs.rgUnseal

theorem rgDisable (hs : s.Canonical) : (Machine.rgDisable s m).Canonical := .ite (hs.setFld _ _ _).rgEnter hs

theorem execRgDisable (hs : s.Canonical) : NextCanonical (Machine.execRgDisable m s) := .next hs.rgDisable

theorem rgEnable (hs : s.Canonical) : (Machine.rgEnable s m).Canonical := .ite hs.rgEnter hs

theorem execRgEnable (hs : s.Canonical) : NextCanonical (Machine.execRgEnable m s) := .next hs.rgEnable

theorem execRegionDrainEnd (hs : s.Canonical) : NextCanonical (Machine.execRegionDrainEnd m s) :=
  .next (.ite hs.rgEnter hs)

theorem execConfigScrub {flips : List (Nat × Nat)} (hs : s.Canonical) :
    NextCanonical (Machine.execConfigScrub m flips s) := by
  unfold Machine.execConfigScrub
  refine .ite (.next (hs.setRegion _ _)) ?_
  split
  · exact .next (hs.setRegion _ _)
  · exact .ite (.next ((hs.setRegion _ _).setRegion _ _)) (.next
      (((((((hs.setRegion _ _).setRegion _ _).bump _ _ _).setFld _ _ _).setFld _ _ _).setFld _ _ _).setFld _ _ _).raiseRg)

theorem slotCheck {k : Nat} {known : optParam (List Nat) []} (hs : s.Canonical) :
    (Machine.slotCheck s m k known).2.Canonical :=
  .foldlSnd (fun _ _ h1 => by split; exacts [h1, (h1.setErr.bump _ _ _).raiseRg, h1.bump _ _ _]) hs

theorem slotWordCheck {a : Nat} (hs : s.Canonical) : (Machine.slotWordCheck s m a).Canonical := by
  unfold Machine.slotWordCheck
  split
  · exact (hs.setErr.bump _ _ _).raiseRg
  · exact hs
  · exact hs

theorem execPlaneSend (hs : s.Canonical) : NextCanonical (Machine.execPlaneSend m ups s) := by
  unfold Machine.execPlaneSend
  extract_lets
  split
  · exact .next (hs.applyUpsets _)
  · refine .ite (.next (hs.applyUpsets _)) ?_
    split
    have h1 := (hs.applyUpsets _).slotCheck.ofSnd ‹_›
    exact .next (((ite (h1.setSlotFlags.raiseRg.setCtl _ _) h1).setArray _ _).setRegion _ _)

theorem writeRpCtl (hs : s.Canonical) : (Machine.writeRpCtl s m val).Canonical :=
  .ite hs (hs.putImg.ifElse (fun h1 => ((((h1.setFld _ _ _).setFld _ _ _).setFld _ _ _).setFld _ _ _).setRegion _ _))

theorem execReplayGo (hs : s.Canonical) : NextCanonical (Machine.execReplayGo m val s) := .next hs.writeRpCtl

theorem enterCopied {e : LineEntry} (hs : s.Canonical) : (Machine.enterCopied s m e).Canonical := by
  unfold Machine.enterCopied
  extract_lets
  split
  · exact hs.enterOrder
  · refine setRegion ?_ _ _
    split
    · exact .ite hs hs.setSlotState
    · exact hs

theorem copyMissing (hs : s.Canonical) : (Machine.copyMissing s m i).Canonical := hs.enterCopied.bump _ _ _

theorem copyEnd (hs : s.Canonical) : (Machine.copyEnd s m).Canonical :=
  ((((hs.setRegion _ _).setFld _ _ _).setFld _ _ _).setFld _ _ _).raiseRg

theorem remark {prime : Bool} (hs : s.Canonical) : (Machine.remark s m k i prime).Canonical :=
  ((hs.setSlotFlags.setSlotState.takeSlot.ifElse (·.enterOrder)).bump _ _ _).showSlots

theorem copySlot {src : Fin 17} {prime : Bool} (hs : s.Canonical) :
    (Machine.copySlot s m src k i prime).Canonical := by
  unfold Machine.copySlot
  split
  · refine copyMissing ?_
    split
    · exact (hs.bump _ _ _).raiseRg.reportLine
    · exact (hs.bump _ _ _).raiseRg
  · exact
      (((hs.takeSlot.clearErrs.writeBytes _ _).writeBytes _ _).setSlotFlags.setSlotState.enterCopied.bump _ _ _).showSlots

theorem copyLine {p : Replay} (hs : s.Canonical) : (Machine.copyLine s m p).Canonical := by
  unfold Machine.copyLine
  extract_lets
  split
  · exact hs.copyMissing
  · split
    have h1 := hs.slotCheck.ofSnd ‹_›
    exact .ite h1.copyMissing (.ite h1.remark h1.copySlot)

theorem copyCut {k : Nat} {i : BitVec 64} (hs : s.Canonical) : (Machine.copyCut m k i s).Canonical := by
  induction k generalizing s i with
  | zero => exact hs
  | succ k ih => exact ih hs.copyMissing

theorem execReplayLineCopied (hs : s.Canonical) : NextCanonical (Machine.execReplayLineCopied m ups s) := by
  unfold Machine.execReplayLineCopied
  extract_lets
  split
  · exact .next (hs.applyUpsets _)
  · exact .ite (.next (hs.applyUpsets _).copyCut.copyEnd) (.ite (.next
      ((hs.applyUpsets _).copyLine.setRegion _ _).copyEnd) (.next ((hs.applyUpsets _).copyLine.setRegion _ _)))

theorem ringMeta {m : Nat} {l : HistLine} {writing : Bool} (hs : s.Canonical) :
    (Machine.ringMeta s m l writing).Canonical :=
  hs.ddrAreaWrite

theorem ringSkip {l : HistLine} (hs : s.Canonical) : (Machine.ringSkip s m l).Canonical :=
  (hs.ringMeta.bump _ _ _).raiseRg

theorem execHistoryLineWrite (hs : s.Canonical) : NextCanonical (Machine.execHistoryLineWrite m s) := by
  unfold Machine.execHistoryLineWrite
  extract_lets
  split
  · exact .next hs
  · exact .ite (.next hs) (.ite (.next (hs.setRegion _ _).ringMeta) (.ite (.next (hs.setRegion _ _).ringSkip) (.next
      ((hs.setRegion _ _).ringMeta.setRegion _ _))))

theorem execHistoryWriteDone (hs : s.Canonical) : NextCanonical (Machine.execHistoryWriteDone m ups s) := by
  unfold Machine.execHistoryWriteDone
  extract_lets
  split
  · exact .next (hs.applyUpsets _)
  · refine .ite (.next (hs.applyUpsets _)) ?_
    extract_lets
    split
    · exact .next ((hs.applyUpsets _).setRegion _ _)
    · refine .ite (.next ((hs.applyUpsets _).setRegion _ _).ringSkip) ?_
      split
      have h1 := ((hs.applyUpsets _).setRegion _ _).slotCheck.ofSnd ‹_›
      exact .ite (.next h1.ringSkip) (.next h1.ddrAreaWrite.ringMeta)

end Sys2Proof.Machine.State.Canonical
end

