-- ==== Sys2Proof/Proofs/CanonicalDevice.lean ====
section
/-!
PROOFS. The functions of images, placement, abutment, health and package keep the stores canonical.
-/

namespace Sys2Proof.Machine.State.Canonical

variable {s : State} {n m : Fin 17} {c e : Fin 8} {l cause op st v i : Nat} {k : Fin 16} {t : Fin 4} {x : Shift}
  {temp : BitVec 8}

/-! ## Placement -/

theorem modifyPl {f : Place → Place} (hs : s.Canonical) : (Machine.modifyPl s f).Canonical := hs.update

theorem setPlState (hs : s.Canonical) : (Machine.setPlState s st).Canonical := hs.setFld _ _ _

theorem setSby (hs : s.Canonical) : (Machine.setSby s v).Canonical :=
  (hs.setFld _ _ _).ifElse (fun h1 => .ite (h1.raise _ _) (.ite (h1.raise _ _) h1))

theorem setUse {n u : Nat} (hs : s.Canonical) : (Machine.setUse s n u).Canonical := hs.setFld _ _ _

theorem setRoleState (hs : s.Canonical) : (Machine.setRoleState s l v).Canonical := hs.setFld _ _ _

theorem setIsland {n mv : Nat} (hs : s.Canonical) : (Machine.setIsland s n st mv).Canonical :=
  (hs.setFld _ _ _).setFld _ _ _

theorem settleBeside {n : Nat} (hs : s.Canonical) : (Machine.settleBeside s n).Canonical :=
  .foldl (fun _ _ h1 => .ite h1.setIsland h1) _ _ hs

theorem runTarget {n : Nat} (hs : s.Canonical) : (Machine.runTarget s n).2.Canonical := hs.update

theorem refreshIsland {n : Nat} {held : Bool} (hs : s.Canonical) : (Machine.refreshIsland s n held).Canonical :=
  .ite hs (.ite hs.runTarget.setIsland.settleBeside hs.setIsland.settleBeside)

theorem holdRole {n r : Nat} (hs : s.Canonical) : (Machine.holdRole s n r).Canonical :=
  ((hs.setFld _ _ _).refreshIsland.setFld _ _ _).setFld _ _ _

theorem setStandby {n : Option (Fin 17)} (hs : s.Canonical) : (Machine.setStandby s n).Canonical := by
  unfold Machine.setStandby
  extract_lets
  split
  · exact ((hs.setFld _ _ _).setFld _ _ _).holdRole.setUse.setSby
  · exact ((hs.setFld _ _ _).setFld _ _ _).setSby

theorem placePair {n pos log : Nat} (hs : s.Canonical) : (Machine.placePair s l n pos log).Canonical :=
  (((hs.setFld _ _ _).setFld _ _ _).setFld _ _ _).setFld _ _ _

theorem setProgram {n bank entry ivec : Nat} (hs : s.Canonical) :
    (Machine.setProgram s n bank entry ivec).Canonical :=
  ((hs.setFld _ _ _).setFld _ _ _).setFld _ _ _

theorem routeHead {h : Option (Fin 16)} (hs : s.Canonical) : (Machine.routeHead s m h).Canonical :=
  (hs.setReg _ _).switchSource

theorem placeRole {g : Image} {n : Nat} (hs : s.Canonical) : (Machine.placeRole s g l n).Canonical :=
  ((((((((hs.setFld _ _ _).setFld _ _ _).setFld _ _ _).setFld _ _ _).setFld _ _ _).setFld _ _ _).setFld _ _ _).setFld _ _ _).setProgram.holdRole.setUse.placePair

theorem fixedTags (hs : s.Canonical) : (Machine.fixedTags s).Canonical :=
  .foldl (fun _ _ h1 => h1.setFld _ _ _) _ _ hs

theorem clearPlacement (hs : s.Canonical) : (Machine.clearPlacement s).Canonical :=
  (foldl (fun _ _ h3 => h3.setReg _ _) _ _ (.foldl (fun _ _ h1 => ((h1.holdRole.setFld _ _ _).setFld _ _ _).ifElse
    (·.setUse)) _ _ hs)).setStandby.update

theorem applyPlacement {g : Image} {roles : List (Nat × Nat)} {sb : Option Nat} (hs : s.Canonical) :
    (Machine.applyPlacement s g roles sb).Canonical :=
  (foldl (fun _ _ h1 => h1.placeRole) _ _ hs.clearPlacement.fixedTags).setStandby.refreshJoints.setPlState

theorem endTake {result age : Nat} {t0 : BitVec 64} (hs : s.Canonical) :
    (Machine.endTake s l result age t0).Canonical :=
  (((((hs.setFld _ _ _).setFld _ _ _).setFld _ _ _).setFld _ _ _).setFld _ _ _).modifyPl.setPlState

theorem stopRoles (hs : s.Canonical) : (Machine.stopRoles s l).Canonical :=
  .foldl (fun _ _ h1 => h1.setRoleState) _ _ hs

theorem stopService {t0 : BitVec 64} (hs : s.Canonical) : (Machine.stopService s l t0).Canonical :=
  hs.stopRoles.endTake.raise _ _

theorem returnStandby (hs : s.Canonical) : (Machine.returnStandby s n).Canonical :=
  hs.stopNow.routeHead.placePair.rgDisable.update.refreshJoints.setStandby

theorem changeAbort (hs : s.Canonical) : (Machine.changeAbort s).Canonical := by
  unfold Machine.changeAbort
  split
  · exact hs
  · exact (((hs.returnStandby.ifThen (fun h1 =>
      (h1.setFld _ _ _).setFld _ _ _)).setFld _ _ _).modifyPl.update.setFld _ _ _).setPlState.raise _ _

theorem takeValues {old new : Fin 17} (hs : s.Canonical) : (Machine.takeValues s old new).Canonical :=
  ((hs.setFld _ _ _).setReg _ _).setReg _ _

theorem takeSettings (hs : s.Canonical) : (Machine.takeSettings s x).Canonical :=
  (((((((hs.takeValues.setReg _ _).setFld _ _ _).setReg _ _).setFld _ _ _).setFld _ _ _).setReg _ _).setReg _ _).startRestore

theorem takeGo (hs : s.Canonical) : (Machine.takeGo s l).Canonical := by
  unfold Machine.takeGo
  split
  · exact hs
  · refine .ite hs ?_
    extract_lets
    split
    · exact hs.changeAbort.stopService
    · exact (foldl (fun _ _ h2 => h2.takeSettings) _ _ (foldl (fun _ _ h1 => h1.setRoleState) _ _
        (((hs.changeAbort.setPlState.setSby.setUse.bump _ _ _).update.modifyUpdate.setFld _ _ _).setFld _ _ _)).modifyPl).refreshJoints.raise _ _

theorem writeTake {val : BitVec 32} (hs : s.Canonical) : (Machine.writeTake s val).Canonical :=
  (hs.setFld _ _ _).ifThen (·.takeGo)

theorem execTakeoverGo {role : Fin 32} (hs : s.Canonical) : NextCanonical (Machine.execTakeoverGo role s) :=
  .next hs.writeTake

theorem dropIngest (hs : s.Canonical) : (Machine.dropIngest s m).Canonical :=
  .foldl (fun _ _ h1 => h1.setHead _ _) _ _ hs

theorem emptySlots (hs : s.Canonical) : (Machine.emptySlots s m).Canonical :=
  ((hs.ifThen (·.copyEnd)).dropIngest.clear.setRegion _ _).showSlots

theorem streamRegion {sec : List Byte} (hs : s.Canonical) : (Machine.streamRegion s m sec).Canonical :=
  .foldl (fun _ _ h1 => h1.commitFrame) _ _ (hs.emptySlots.setRegion _ _).rgEnter

theorem carryLines (hs : s.Canonical) : (Machine.carryLines s x).Canonical :=
  (((hs.writeBytes _ _).writeBytes _ _).setRegion _ _).showSlots

theorem readyRegion {slide : Bool} (hs : s.Canonical) : (Machine.readyRegion slide s x).Canonical := by
  unfold Machine.readyRegion
  refine .ite hs (ifThen ?_ (·.carryLines)).routeHead
  split
  · exact hs.streamRegion
  · exact hs.emptySlots

theorem execTakeoverRestored (hs : s.Canonical) : NextCanonical (Machine.execTakeoverRestored s) := by
  unfold Machine.execTakeoverRestored
  split
  · exact .next hs
  · refine .ite (.next hs) (.ite (.next (stopService ?_)) (.next (foldl (fun _ _ h1 => h1.readyRegion) _ _
      hs).modifyPl))
    split
    · exact hs.returnStandby
    · exact hs

theorem startTaken {t : Takeover} (hs : s.Canonical) : (Machine.startTaken s t).Canonical := by
  unfold Machine.startTaken
  split
  · exact hs
  · exact .ite (hs.setCtl _ _).startWritten hs

theorem nextCopy {t : Takeover} (hs : s.Canonical) : (Machine.nextCopy s t x).2.Canonical :=
  .iteSnd hs (.iteSnd hs (.iteSnd hs (.iteSnd hs (hs.setReg64 _ _ _).writeRpCtl)))

theorem execTakeoverCopy (hs : s.Canonical) : NextCanonical (Machine.execTakeoverCopy s) := by
  unfold Machine.execTakeoverCopy
  split
  · exact .next hs
  · refine .ite (.next hs) (.next (modifyPl ?_))
    refine foldlSnd (fun _ _ h => ?_) hs.startTaken
    exact h.nextCopy

theorem execTakeoverSwitch (hs : s.Canonical) : NextCanonical (Machine.execTakeoverSwitch s) := by
  unfold Machine.execTakeoverSwitch
  split
  · exact .next hs
  · split
    · exact .next hs
    · exact .ite (.next hs) (.next (((foldl (fun _ _ h1 => (h1.setFld _ _ _).holdRole.setUse) _ _
        ((hs.holdRole.setFld _ _ _).setFld _ _ _)).setFld _ _ _).setReg64 _ _ _).modifyPl)

theorem execTakeoverDone (hs : s.Canonical) : NextCanonical (Machine.execTakeoverDone s) := by
  unfold Machine.execTakeoverDone
  split
  · exact .next hs
  · exact .ite (.next hs) (.next ((foldl (fun _ _ h1 => h1.setRoleState) _ _
      hs.routeHead.rgDisable.isolateEp).modifyPl.endTake.setStandby.raise _ _))

theorem execAutoResume (hs : s.Canonical) : NextCanonical (Machine.execAutoResume s) := by
  unfold Machine.execAutoResume
  split
  · exact .next hs
  · exact .next (.ite hs.takeGo hs)

theorem changeGo (hs : s.Canonical) : (Machine.changeGo s).Canonical := by
  unfold Machine.changeGo
  split
  · exact hs
  · exact .ite hs ((hs.setReg64 _ _ _).setFld _ _ _).modifyPl.update

theorem execChangeGo (hs : s.Canonical) : NextCanonical (Machine.execChangeGo s) := .next hs.changeGo

theorem execChangeAbort (hs : s.Canonical) : NextCanonical (Machine.execChangeAbort s) := .next hs.changeAbort

theorem execChangeReady (hs : s.Canonical) : NextCanonical (Machine.execChangeReady s) := by
  unfold Machine.execChangeReady
  split
  · exact .next hs
  · exact .ite (.next hs) (.next (((hs.setFld _ _ _).raise _ _).ifThen (·.changeGo)))

theorem setRing {m : Nat} (hs : s.Canonical) : (Machine.setRing s m l).Canonical := by
  unfold Machine.setRing
  split
  · exact hs
  · exact (hs.setFld _ _ _).setFld _ _ _

theorem stageChange {c : Change} {region : List Byte} {entry ivec : Nat} {carry : Bool} (hs : s.Canonical) :
    (Machine.stageChange s c region entry ivec carry).Canonical := by
  unfold Machine.stageChange
  extract_lets a s1 s2 s3 s4 s5 s6 s7 s8
  have h7 : s7.Canonical :=
    (((hs.setPlState.setUse.setSby.setFld _ _ _).setFld _ _ _).raise _ _).setRing.streamRegion.modifyPl.takeValues.placePair.setProgram
  have h8 : s8.Canonical := by
    unfold s8
    split
    · split
      · exact h7.startRestore.execRestoreDone _ ‹_›
      · exact h7
    · exact h7
  exact .ite h8 (h8.setFld _ _ _).setSby.routeHead.startWritten

theorem beginTest (hs : s.Canonical) : (Machine.beginTest s n).Canonical :=
  (ite hs.setSby hs).stopNow.setPlState.setUse.modifyPl

theorem showTest (hs : s.Canonical) : (Machine.showTest s).Canonical := (hs.setFld _ _ _).setFld _ _ _

theorem refuseTest (hs : s.Canonical) : (Machine.refuseTest s).Canonical := hs.setFld _ _ _

theorem testGo (hs : s.Canonical) : (Machine.testGo s n).Canonical := by
  unfold Machine.testGo
  refine .ite hs (.ite hs.refuseTest (.ite hs.showTest.beginTest ?_))
  extract_lets
  split
  · exact .ite hs.refuseTest hs.showTest.modifyPl.stageChange
  · exact hs.refuseTest

theorem writeTest {val : BitVec 32} (hs : s.Canonical) : (Machine.writeTest s val).Canonical :=
  (ite (hs.setFld _ _ _) hs).ifThen (·.testGo)

theorem execPairTest (hs : s.Canonical) : NextCanonical (Machine.execPairTest n s) := .next hs.writeTest

theorem execPairTestDone {pass : Bool} (hs : s.Canonical) : NextCanonical (Machine.execPairTestDone pass s) := by
  unfold Machine.execPairTestDone
  split
  · exact .next hs
  · refine .ite (.next hs) (.ite (.next (setStandby ?_)) (.next
      ((((hs.setPlState.modifyPl.setFld _ _ _).setFld _ _ _).raise _ _).ifThen (·.setStandby)).holdRole.setUse))
    split
    · exact (((hs.setPlState.modifyPl.setFld _ _ _).setFld _ _ _).raise _ _).ifElse (·.holdRole.setUse)
    · exact ((hs.setPlState.modifyPl.setFld _ _ _).setFld _ _ _).raise _ _

/-! ## RenerOps -/

theorem modifyRn {f : Rener → Rener} (hs : s.Canonical) : (Machine.modifyRn s f).Canonical := hs.update

theorem portSends {f : List Byte} (hs : s.Canonical) : (Machine.portSends s e f).Canonical := hs.modifyRn.bump _ _ _

theorem resolve {ip : BitVec 32} (hs : s.Canonical) : (Machine.resolve s e ip).2.Canonical := by
  unfold Machine.resolve
  split
  · exact hs
  · exact hs.portSends.draw.modifyRn

theorem transmit {d : Datagram} {keys : Option (List Byte)} (hs : s.Canonical) :
    (Machine.transmit s d keys).Canonical :=
  .ite (hs.resolve.draw.modifyRn.bump _ _ _) hs

theorem transmitPlain {port : Fin 8} {peer : BitVec 32} {type : BitVec 8} {payload : List Byte} (hs : s.Canonical) :
    (Machine.transmitPlain s port peer type payload).Canonical :=
  hs.transmit

theorem setSession {x : Session} (hs : s.Canonical) : (Machine.setSession s k x).Canonical := hs.modifyRn

theorem raiseRn {e k x : Nat} (hs : s.Canonical) : (Machine.raiseRn s e k cause x).Canonical := hs.raise _ _

theorem sessionSend {type : BitVec 8} {dest : BitVec 16} {enc : Bool} {payload : List Byte} (hs : s.Canonical) :
    (Machine.sessionSend s k type dest enc payload).Canonical := by
  unfold Machine.sessionSend
  split
  · exact hs
  · split
    exact hs.setSession.transmit

theorem showSubs (hs : s.Canonical) : (Machine.showSubs s k).Canonical := by
  unfold Machine.showSubs
  split
  · exact hs
  · exact hs.setFld _ _ _

theorem dropClaims (hs : s.Canonical) : (Machine.dropClaims s k).Canonical := hs.update

theorem endSession (hs : s.Canonical) : (Machine.endSession s k cause).Canonical := by
  unfold Machine.endSession
  split
  · exact hs
  · exact (((((foldl (fun _ _ h1 => h1.endLease) _ _
      hs.raiseRn.dropClaims).modifyUp.setReg _ _).setReg _ _).setReg _ _).setReg _ _).modifyRn

theorem endSessions (hs : s.Canonical) : (Machine.endSessions s cause).Canonical :=
  .foldl (fun _ _ h1 => h1.endSession) _ _ hs

theorem authFail (hs : s.Canonical) : (Machine.authFail s e).Canonical := .ite hs hs.modifyRn.raiseRn

theorem accept {d : Sealed} (hs : s.Canonical) : (Machine.accept s d).2.Canonical := by
  unfold Machine.accept
  split
  · exact hs
  · split
    · exact hs
    · exact .iteSnd (hs.bump _ _ _).authFail (.iteSnd (hs.bump _ _ _).authFail hs.setSession)

theorem answer {status : Nat} {reqId : BitVec 32} {body : List Byte} (hs : s.Canonical) :
    (Machine.answer s k op status reqId body).Canonical := by
  unfold Machine.answer
  split
  · exact hs
  · exact hs.setSession.sessionSend

theorem runCommand {right : Option Nat} {r : Request} {f : Work} {after : After} (hs : s.Canonical)
    (hf : ∀ a0 a1, a1.Canonical → (f a0 a1).2.2.Canonical)
    (hfafter : ∀ a0 a1 a2, a2.Canonical → (after a0 a1 a2).Canonical) :
    (Machine.runCommand op right r f s after).Canonical := by
  unfold Machine.runCommand
  split
  · have h1 := hs.accept.ofSnd ‹_›
    exact h1
  · have h2 := hs.accept.ofSnd ‹_›
    split
    · exact h2.sessionSend
    · exact .ite h2.sessionSend (.ite h2.answer (hfafter _ _ _ (hf _ _ h2).answer))

theorem runQuery {port : Fin 8} {peer reqId : BitVec 32} {f : State → Nat × List Byte × State} (hs : s.Canonical)
    (hf : ∀ a0, a0.Canonical → (f a0).2.2.Canonical) :
    (Machine.runQuery op port peer reqId f s).Canonical :=
  .ite hs (.ite (hs.bump _ _ _) (hf _ hs.modifyRn).transmitPlain)

/-! ## Abutment -/

theorem modifyAb {f : Abut → Abut} (hs : s.Canonical) : (Machine.modifyAb s f).Canonical := hs.update

theorem extend {i : Fin 8} {d : List Byte} (hs : s.Canonical) : (Machine.extend s i d).Canonical := hs.modifyAb

theorem showOwner (hs : s.Canonical) : (Machine.showOwner s).Canonical := (hs.setFld _ _ _).setFld _ _ _

theorem showCounters (hs : s.Canonical) : (Machine.showCounters s).Canonical :=
  (((hs.setFld _ _ _).setFld _ _ _).setFld _ _ _).setFld _ _ _

theorem advanceCounter {comp : Nat} {i : Fin 4} (hs : s.Canonical) : (Machine.advanceCounter s comp i v).Canonical :=
  .ite hs (hs.modifyAb.showCounters.raise _ _)

theorem setDirEntry {e : SlotEntry} (hs : s.Canonical) : (Machine.setDirEntry s i e).Canonical := hs.modifyAb

theorem setSlotMark (hs : s.Canonical) : (Machine.setSlotMark s i st).Canonical := hs.setDirEntry

theorem failBooted {base : Nat} (hs : s.Canonical) : (Machine.failBooted s base).Canonical :=
  .foldl (fun _ _ h1 => .ite h1.setSlotMark h1) _ _ hs

theorem bootSlot {base : Nat} {check : State → List Byte → Bool} (hs : s.Canonical) :
    (Machine.bootSlot s base check).2.2.Canonical := by
  unfold Machine.bootSlot
  extract_lets s1 pick
  have h1 : s1.Canonical := hs.failBooted
  split
  · exact h1
  · extract_lets s2 s3 j
    have h2 : s2.Canonical := h1.ifThen (·.setSlotMark)
    have h3 : s3.Canonical := h2.setSlotMark
    clear_value s2 s3
    exact .iteSnd2 h2 (.iteSnd2 h3 (.iteSnd2 h3 h3.setSlotMark))

theorem writeGeneration {f : Generation → Generation} (hs : s.Canonical) : (Machine.writeGeneration s f).Canonical :=
  hs.modifyUp.setReg _ _

theorem setAllow (hs : s.Canonical) : (Machine.setAllow s).Canonical := .foldl (fun _ _ h1 => h1.setFld _ _ _) _ _ hs

theorem setScopes {v : BitVec 3} (hs : s.Canonical) : (Machine.setScopes s v).Canonical :=
  ((hs.modifyAb.setFld _ _ _).setFld _ _ _).setAllow

theorem raiseDebug {x : Nat} (hs : s.Canonical) : (Machine.raiseDebug s cause x).Canonical := hs.raise _ _

theorem closeDebug (hs : s.Canonical) : (Machine.closeDebug s).Canonical := .ite hs hs.setScopes.raiseDebug

theorem lockSecrets (hs : s.Canonical) : (Machine.lockSecrets s).Canonical := (hs.setFld _ _ _).endSessions

theorem presentToken {t : List Byte} (hs : s.Canonical) : (Machine.presentToken s t).2.Canonical :=
  .iteSnd hs.modifyAb.raiseDebug (hs.modifyAb.ifThen (·.lockSecrets)).setScopes.modifyAb.extend.raiseDebug

theorem execDebugExpiry (hs : s.Canonical) : NextCanonical (Machine.execDebugExpiry s) :=
  .next (.ite hs.closeDebug hs)

theorem resetDies {cause : Nat} {held : Bool} : (Machine.resetDies s cause held).Canonical :=
  ofReset.update.branch (·.setFld _ _ _) id

theorem enrol {g : List Byte} (hs : s.Canonical) : (Machine.enrol s g).2.Canonical := by
  unfold Machine.enrol
  refine .iteSnd (hs.raise _ _) ?_
  split
  · exact hs.modifyAb.showOwner.extend.raise _ _
  · exact hs

theorem release (hs : s.Canonical) : (Machine.release s).Canonical := by
  unfold Machine.release
  split
  · exact hs
  · exact resetDies

theorem runFirmware {measured : Bool} (hs : s.Canonical) : (Machine.runFirmware s i measured).Canonical :=
  (((hs.setFld _ _ _).setReg _ _).ifThen (·.extend)).modifyAb.setAllow

theorem halt (hs : s.Canonical) : (Machine.halt s).Canonical := hs.modifyAb

theorem execRomDone {rail : Fin 9} (hs : s.Canonical) : NextCanonical (Machine.execRomDone rail s) := by
  unfold Machine.execRomDone
  refine .ite (.next hs) ?_
  extract_lets c s1 s2 ser s3 s4 r
  have h2 : s2.Canonical := ((hs.setFld _ _ _).setFld _ _ _).setFld _ _ _
  have h4 : s4.Canonical := ((((h2.setReg _ _).setReg _ _).setReg _ _).setReg _ _).showOwner.showCounters.extend
  have hr : r = Machine.bootSlot s4 0 firmwareGood := rfl
  replace hr : r.2.2.Canonical := hr ▸ h4.bootSlot
  clear_value r
  refine .ite (.next (h2.setFld _ _ _).halt) ?_
  split
  · exact .next hr.halt
  · exact .next ((hr.runFirmware.setBoot.setReg _ _).ifThen (·.raiseBoot))

theorem applyRepairs (hs : s.Canonical) : (Machine.applyRepairs s).Canonical :=
  .foldl (fun _ _ h1 => .ite h1.writeSpareMap (.ite (h1.setUse.setFld _ _ _) h1)) _ _ hs

theorem showWear (hs : s.Canonical) : (Machine.showWear s).Canonical :=
  (foldl (fun _ _ h1 => (h1.setReg _ _).setFld _ _ _) _ _ hs).setReg _ _

theorem firstTargets (hs : s.Canonical) : (Machine.firstTargets s).Canonical :=
  .foldl (fun _ _ h1 => .ite h1 h1.setIsland) _ _ hs

theorem releaseDeck (hs : s.Canonical) : (Machine.releaseDeck s).Canonical :=
  .foldl (fun _ _ h => by split; exacts [h.execSpanReset _ ‹_›, h]) _ _ hs

theorem execFirmwareLinkUp {x8 : Bool} (hs : s.Canonical) : NextCanonical (Machine.execFirmwareLinkUp x8 s) :=
  .ite (.next hs) (.ite (.next
    ((hs.setFld _ _ _).setFld _ _ _).setBoot.releaseDeck.applyRepairs.firstTargets.showWear.noImage) (.next (foldl
    (fun _ _ h2 => h2.setFld _ _ _) _ _ (.foldl (fun _ _ h1 => (h1.setReg _ _).setFld _ _ _) _ _
    ((hs.setFld _ _ _).setFld _ _ _).setBoot.releaseDeck.applyRepairs.firstTargets.showWear)).extend))

theorem startRoles (hs : s.Canonical) : (Machine.startRoles s).Canonical :=
  .foldl (fun _ _ h1 => by split; exacts [h1, h1.startWritten.setRoleState]) _ _ hs

theorem resumeTrial (hs : s.Canonical) : (Machine.resumeTrial s).Canonical := by
  unfold Machine.resumeTrial
  split
  · exact hs
  · exact .ite (((hs.modifyUp.setCompState.setFld _ _ _).setFld _ _ _).setFld _ _ _) hs

theorem enterRunning (hs : s.Canonical) : (Machine.enterRunning s).Canonical :=
  .ite hs.setBoot.raiseBoot.resumeTrial hs

theorem execMemorySealed (hs : s.Canonical) : NextCanonical (Machine.execMemorySealed s) :=
  .ite (.next hs) (.next hs.setBoot.modifyAb.startRoles.enterRunning)

theorem execGroupStart {g : Fin 8} (hs : s.Canonical) : NextCanonical (Machine.execGroupStart g s) :=
  .ite (.next hs) (.next hs.tgStart.enterRunning)

theorem mbAnswer {status tag : Nat} {body : List Byte} (hs : s.Canonical) :
    (Machine.mbAnswer s c op status tag body).Canonical :=
  hs.modifyAb

theorem mbTake (hs : s.Canonical) : (Machine.mbTake s c).Canonical := hs.modifyAb

theorem mbServe {good : Bool} {f : State → State} (hs : s.Canonical) (hf : ∀ a0, a0.Canonical → (f a0).Canonical) :
    (Machine.mbServe s c op good f).Canonical :=
  .ite hs (.ite hs.mbTake.mbAnswer (hf _ hs.mbTake))

theorem execVersion (hs : s.Canonical) : NextCanonical (Machine.execVersion c s) :=
  .next (hs.mbServe (fun _ h1 => h1.mbAnswer))

theorem execIdent (hs : s.Canonical) : NextCanonical (Machine.execIdent c s) :=
  .next (hs.mbServe (fun _ h1 => h1.mbAnswer))

theorem execMbQuote (hs : s.Canonical) : NextCanonical (Machine.execMbQuote c s) :=
  .next (hs.mbServe (fun _ h1 => .ite h1.mbAnswer h1.modifyAb))

theorem drawBytes {k : Nat} (hs : s.Canonical) : (Machine.drawBytes k s).2.Canonical := by
  induction k generalizing s with
  | zero => exact hs
  | succ k ih => exact ih hs.draw

theorem execRandom (hs : s.Canonical) : NextCanonical (Machine.execRandom c s) :=
  .next (hs.mbServe (fun _ h1 => h1.drawBytes.mbAnswer))

theorem execNotify (hs : s.Canonical) : NextCanonical (Machine.execNotify c s) :=
  .next (hs.mbServe (fun _ h1 => .ite h1.mbAnswer h1.modifyAb.mbAnswer))

theorem execSignatureDone (hs : s.Canonical) : NextCanonical (Machine.execSignatureDone s) := by
  unfold Machine.execSignatureDone
  split
  · exact .next hs
  · exact .next (hs.modifyAb.branch (·.mbAnswer) (·.mbAnswer))

theorem mbFinish {bs : List Byte} (hs : s.Canonical) : (Machine.mbFinish s c bs).Canonical :=
  ((((hs.writeBytes _ _).modifyAb.setFld _ _ _).setFld _ _ _).setFld _ _ _).raise _ _

theorem execMbDone (hs : s.Canonical) : NextCanonical (Machine.execMbDone c s) := by
  unfold Machine.execMbDone
  split
  · exact .next hs.mbFinish
  · exact .ite (.next hs.mbTake.mbFinish) (.next hs)

theorem mbRestart (hs : s.Canonical) : (Machine.mbRestart s).Canonical :=
  .foldl (fun _ _ h1 => .ite h1.mbFinish h1) _ _ hs.modifyAb

theorem cut77 (hs : s.Canonical) : (Machine.cut77 s).Canonical := hs.isolateEp

theorem abutmentDown (hs : s.Canonical) : (Machine.abutmentDown s).Canonical :=
  (hs.endSessions.mbRestart.closeDebug.bump _ _ _).modifyAb.update.modifyCw.modifyWay.cut77

theorem execAbutmentWatchdog (hs : s.Canonical) : NextCanonical (Machine.execAbutmentWatchdog s) :=
  .next (.ite hs.abutmentDown hs)

theorem execAbutRestart (hs : s.Canonical) : NextCanonical (Machine.execAbutRestart s) := by
  unfold Machine.execAbutRestart
  refine .ite (.next hs) ?_
  have hr := hs.bootSlot (base := 0) (check := firmwareGood)
  generalize Machine.bootSlot s 0 firmwareGood = r at hr
  extract_lets
  split
  · exact .next hr.halt
  · exact .next (hr.runFirmware.ifThen (·.releaseEp)).raiseBoot

/-! ## Health -/

theorem modifyFh {f : Health → Health} (hs : s.Canonical) : (Machine.modifyFh s f).Canonical := hs.update

theorem standbyFault (hs : s.Canonical) : (Machine.standbyFault s n).Canonical :=
  .ite hs.setStandby.holdRole.setUse hs

theorem islandBreach {q : Fin 3} (hs : s.Canonical) : (Machine.islandBreach s n q).Canonical :=
  (((hs.modifyFh.setFld _ _ _).setFld _ _ _).raise _ _).branch (·.setUse) (·.standbyFault)

theorem execSpanHealth {volt : BitVec 10} (hs : s.Canonical) : NextCanonical (Machine.execSpanHealth n volt temp s) :=
  .ite (.next hs) (.next (.foldl (fun _ _ h2 => h2.islandBreach) _ _ (((foldl (fun _ _ h1 => h1.setFld _ _ _) _ _
    hs.modifyFh).setFld _ _ _).setFld _ _ _)))

theorem execDevTemp (hs : s.Canonical) : NextCanonical (Machine.execDevTemp temp s) :=
  .next (hs.modifyFh.ifThen (·.raise _ _))

theorem execDiagnosisStart (hs : s.Canonical) : NextCanonical (Machine.execDiagnosisStart n s) :=
  .ite (.next hs.setUse.modifyFh) (.next hs)

theorem retirePair (hs : s.Canonical) : (Machine.retirePair s n).Canonical :=
  ((hs.appendRepair.holdRole.setUse.setIsland.settleBeside.setArray _ _).setFld _ _ _).powerDownEp.powerDownEp.refreshJoints

theorem clearPair (hs : s.Canonical) : (Machine.clearPair s n).Canonical :=
  (hs.modifyFh.setFld _ _ _).setUse.ifThen (·.setStandby)

theorem bypassColumn {c : Fin 16 × Fin 32 × Fin 33} (hs : s.Canonical) : (Machine.bypassColumn s n c).Canonical :=
  hs.appendRepair.writeSpareMap

theorem execFhDiag {pass others : Bool} {cols : List (Fin 16 × Fin 32 × Fin 33)} (hs : s.Canonical) :
    NextCanonical (Machine.execFhDiag n pass others cols s) := by
  unfold Machine.execFhDiag
  split
  · exact .next hs
  · exact .ite (.next hs) (.ite (.next (hs.modifyFh.retirePair.raise _ _)) (.ite (.next (hs.clearPair.raise _ _))
      (.ite (.next (foldl (fun _ _ h1 => h1.bypassColumn) _ _ hs).modifyFh) (.next
      (hs.modifyFh.retirePair.raise _ _)))))

theorem execLinkDegrade {r : Fin 48} {p : Fin 8} {tables : List Word} (hs : s.Canonical) :
    NextCanonical (Machine.execLinkDegrade r p tables s) :=
  .ite (.next hs) (.ite (.next ((hs.modifyFh.bump _ _ _).raise _ _)) (.ite (.next hs) (.next (((foldl (fun _ _ h1 =>
    h1.setReg _ _) _ _ hs).routeFlip.modifyFh.bump _ _ _).raise _ _))))

theorem showEol (hs : s.Canonical) : (Machine.showEol s).Canonical := hs.setReg _ _

theorem drifted (hs : s.Canonical) : (Machine.drifted s n).Canonical :=
  .ite hs (.ite (.ite hs.testGo hs) (.ite hs.setStandby.retirePair (.ite hs.retirePair hs)))

theorem execWearTick {drifts : List (BitVec 16)} (hs : s.Canonical) :
    NextCanonical (Machine.execWearTick temp drifts s) :=
  .next (.foldl (fun _ _ h1 => h1.drifted) _ _ hs.modifyFh.showWear.showEol)

theorem execWearRecordWrite (hs : s.Canonical) : NextCanonical (Machine.execWearRecordWrite s) := .next hs.modifyFh

theorem execWearWarn (hs : s.Canonical) : NextCanonical (Machine.execWearWarn s) :=
  .ite (.next (hs.modifyFh.raise _ _)) (.next hs)

theorem stopTrace (hs : s.Canonical) : (Machine.stopTrace s t).Canonical := (hs.modifyFh.setFld _ _ _).raise _ _

theorem armTrace (hs : s.Canonical) : (Machine.armTrace s t).Canonical := .ite hs (hs.setReg _ _).modifyFh

theorem execArm (hs : s.Canonical) : NextCanonical (Machine.execArm t s) := .next hs.armTrace

theorem stopWrite (hs : s.Canonical) : (Machine.stopWrite s t).Canonical := .ite hs.stopTrace hs

theorem execStop (hs : s.Canonical) : NextCanonical (Machine.execStop t s) := .next hs.stopWrite

theorem traceHead {router port : Nat} {p : Packet} {corrected : Bool} (hs : s.Canonical) :
    (Machine.traceHead router port p corrected s t).Canonical := by
  unfold Machine.traceHead
  refine .ite hs ?_
  extract_lets
  split
  · exact (ite hs (((hs.writeBytes _ _).ifThen (·.setFld _ _ _)).setFld _ _ _)).ifElse (fun h2 => .ite h2.stopTrace
      h2.modifyFh)
  · exact (ite hs (((hs.writeBytes _ _).ifThen (·.setFld _ _ _)).setFld _ _ _)).ifElse (fun h4 =>
      (h4.setFld _ _ _).branch (·.stopTrace) (·.modifyFh))

theorem probeHead {p : Packet} {corrected : Nat × Nat → Bool} {hop : Nat × Nat} (hs : s.Canonical) :
    (Machine.probeHead p corrected s hop).Canonical :=
  .foldl (fun _ _ h2 => h2.traceHead) _ _ (.foldl (fun _ _ h1 => .ite ((h1.bump _ _ _).bump _ _ _) h1) _ _ hs)

/-! ## Package -/

theorem execPorstAssert : NextCanonical (Machine.execPorstAssert s) := .next resetDies

theorem execPorstRelease (hs : s.Canonical) : NextCanonical (Machine.execPorstRelease s) := .next (.ite hs hs.update)

theorem execRefclkGlitch (hs : s.Canonical) : NextCanonical (Machine.execRefclkGlitch s) := .next (hs.bump _ _ _)

theorem execRefclkLoss : NextCanonical (Machine.execRefclkLoss s) := .next resetDies

theorem execThermtrip : NextCanonical (Machine.execThermtrip s) := .next resetDies.update

theorem execPowerLoss {torn : Option TornWrite} : NextCanonical (Machine.execPowerLoss torn s) := .next resetDies.update

end Sys2Proof.Machine.State.Canonical
end

