-- ==== Sys2Proof/Proofs/CanonicalService.lean ====
section
/-!
PROOFS. The functions of the service bus, its commands, delivery and keepers keep the stores canonical.
-/

namespace Sys2Proof.Machine.State.Canonical

variable {s s0 : State} {k : Fin 4} {ups : List Upset} {a n x : Nat} {body bs frame : List Byte}
  {val peer : BitVec 32} {r : Request} {d : RegDesc} {p : Packet} {tag : BitVec 16} {e port : Fin 8} {v : Via}
  {errs : List LinkError}

/-! ## Bus -/

theorem registerRead (hs : s.Canonical) : (Machine.registerRead s d a).2.Canonical := by
  unfold Machine.registerRead
  split
  · exact hs.modifyTm
  · exact .ite hs.modifyTm hs

theorem wordRead {w : Nat} (hs : s.Canonical) : (Machine.wordRead s w).2.2.Canonical := by
  unfold Machine.wordRead
  split
  · exact hs
  · exact hs.registerRead
  · exact hs
  · exact hs
  · exact hs
  · exact hs.scratchCheck
  · exact hs.slotWordCheck
  · exact hs.update
  · exact hs.localCheck

theorem unitRead {ep a n : Nat} (hs : s.Canonical) : (Machine.unitRead s ep a n).2.2.Canonical := by
  have h : ((pieces 4 a n).foldl (fun (acc : List Byte × Nat × State) p =>
      let w := Machine.wordRead acc.2.2 (p.1 / 4 * 4)
      (acc.1 ++ ((leBytes 4 w.1).drop (p.1 % 4)).take p.2, joinStatus acc.2.1 w.2.1, w.2.2)) ([], 0, s)).2.2.Canonical :=
    foldlSnd2 (fun _ _ h => by exact h.wordRead) hs
  exact .iteSnd2 h.probeStray (.iteSnd2 h.probeStray h)

theorem ddrBusRead {a n : Nat} (hs : s.Canonical) : (Machine.ddrBusRead s a n).2.2.Canonical := by
  unfold Machine.ddrBusRead
  refine foldlSnd2 (fun _ _ h => ?_) hs
  exact h.ddrUnitRead

theorem pierBusRead {a n : Nat} (hs : s.Canonical) : (Machine.pierBusRead s a n).2.2.Canonical := by
  unfold Machine.pierBusRead
  refine foldlSnd2 (fun _ _ h => ?_) hs
  exact .iteSnd2 h.probeIso h.pierRead

theorem physRead (hs : s.Canonical) : (Machine.physRead s a n).2.2.Canonical := by
  unfold Machine.physRead
  split
  · exact hs.probeStray
  · exact .iteSnd2 hs.ddrBusRead (.iteSnd2 hs.pierBusRead (.iteSnd2 hs.probeIso hs.unitRead))

theorem busRead (hs : s.Canonical) : (Machine.busRead s a n).2.2.Canonical := by
  unfold Machine.busRead
  split
  · exact hs.physRead
  · split
    · exact hs.probeStray
    · split
      exact .iteSnd2 hs.probeIso (.iteSnd2 hs.probeStale hs.physRead)

theorem plainWrite (hs : s.Canonical) : (Machine.plainWrite s d a val).Canonical := hs.setReg _ _

theorem spanWrite {n : Fin 17} (hs : s.Canonical) : (Machine.spanWrite s d n a val).Canonical :=
  .ite ((hs.plainWrite.setFld _ _ _).branch (·.startWritten) (fun h1 => .ite h1.stopDrain (.ite h1.stopWritten h1)))
    (.ite (hs.plainWrite.ifThen (·.startRestore)) (.ite (.ite hs hs.plainWrite.refreshJoints) (.ite hs.writeSpareMap
    hs.plainWrite)))

theorem regionWrite {m : Fin 17} (hs : s.Canonical) : (Machine.regionWrite s d m a val).Canonical :=
  .ite ((((hs.setFld _ _ _).ifThen (·.rgUnseal)).ifThen (·.rgDisable)).ifThen (·.rgEnable)) (.ite hs.writeRgSrc (.ite
    hs.writeRpCtl hs.plainWrite))

theorem restartSource {t : State} {g : Fin 8} (hst : t.Canonical) : (Machine.restartSource s t g).Canonical :=
  .ite hst hst.setGrp

theorem timingWrite (hs : s.Canonical) : (Machine.timingWrite s d a val).Canonical := by
  unfold Machine.timingWrite
  split
  · exact (hs.plainWrite.restartSource.ifThen (·.tgStart)).ifThen (·.tgStop)
  · split
    · exact .ite hs.plainWrite hs
    · split
      · exact hs.plainWrite.restartSource
      · exact .ite hs.writeEpochLo (.ite hs.writeEpochHi (.ite (.ite hs.asFlush hs) (.ite hs.asPost hs.plainWrite)))

theorem causewayWrite (hs : s.Canonical) : (Machine.causewayWrite s d a val).Canonical := by
  unfold Machine.causewayWrite
  refine .ite (.ite hs.routeFlip hs) ?_
  split
  · exact (hs.plainWrite.ifThen (·.isolateEp)).ifThen (·.releaseEp)
  · split
    · exact hs.plainWrite.ifThen (fun h3 => (h3.setReg _ _).setReg _ _)
    · split
      · exact (hs.plainWrite.ifThen (·.armTrace)).ifThen (·.stopWrite)
      · exact hs.plainWrite

theorem keeperWrite (hs : s.Canonical) : (Machine.keeperWrite s d a val).Canonical := by
  unfold Machine.keeperWrite
  split
  · exact hs.plainWrite
  · exact (hs.plainWrite.setFld _ _ _).branch (·.keeperRun) (·.keeperStop)

theorem hubWrite (hs : s.Canonical) : (Machine.hubWrite s d a val).Canonical := by
  unfold Machine.hubWrite
  refine .ite hs.ehRaise ?_
  split
  · exact hs.srcWrite
  · split
    · exact hs.pendClear
    · exact hs.plainWrite

theorem headWrite {h : Fin 16} (hs : s.Canonical) : (Machine.headWrite s d h a val).Canonical :=
  hs.plainWrite.branch (fun h1 => (h1.setFld _ _ _).branch (·.hpDisable) (fun h2 => ((h2.hpEnable.ifThen
    (·.hpAttach)).ifThen (·.hpRelease)).ifThen (·.hpRetrain))) (fun h1 => .ite (.ite h1.ccGo h1) h1)

theorem lineWrite (hs : s.Canonical) : (Machine.lineWrite s d a val).Canonical := by
  unfold Machine.lineWrite
  split
  · exact hs.plainWrite
  · exact hs.plainWrite.ifElse (·.setFld _ _ _)

theorem deviceWrite (hs : s.Canonical) : (Machine.deviceWrite s d a val).Canonical :=
  .ite hs.writeTake (.ite hs.writeTest (.ite ((ite hs.changeGo hs).ifThen (·.changeAbort)) hs.plainWrite))

theorem doorbellWrite {c : Nat} (hs : s.Canonical) : (Machine.doorbellWrite s tag c val).Canonical :=
  .ite (hs.bump _ _ _) ((ite (hs.bump _ _ _) (.ite (hs.setFld _ _ _) hs)).ifThen (·.setFld _ _ _))

theorem registerWrite (hs : s.Canonical) : (Machine.registerWrite s tag d a val).Canonical := by
  unfold Machine.registerWrite
  refine .ite hs.spanWrite (.ite hs.regionWrite (.ite ((hs.plainWrite.setFld _ _ _).branch (·.ledgerEnable)
    (·.ledgerDisable)) (.ite hs.segmentWrite (.ite hs.plainWrite (.ite hs.timingWrite (.ite hs.causewayWrite (.ite
    hs.keeperWrite (.ite hs.hubWrite (.ite hs.headWrite (.ite hs.lineWrite (.ite hs.plainWrite.strandControl (.ite
    hs.plainWrite (.ite hs.deviceWrite ?_)))))))))))))
  split
  · exact hs.doorbellWrite
  · exact hs.plainWrite

theorem wordWrite (hs : s.Canonical) : (Machine.wordWrite s tag a bs).2.Canonical := by
  unfold Machine.wordWrite
  extract_lets
  split
  · exact hs
  · exact hs
  · exact hs
  · exact .ite hs.registerWrite hs
  · exact hs.writeBytes _ _
  · exact .ite (hs.writeBytes _ _).setErr hs
  · exact .ite hs.frameWordWrite hs
  · exact .foldl (fun _ _ h1 => h1.localWrite) _ _ (.ite hs.setErr hs)
  · exact .iteSnd (hs.bump _ _ _) (hs.writeBytes _ _)

theorem unitWrite {tag : BitVec 16} {ep a : Nat} {bs : List Byte} (hs : s.Canonical) :
    (Machine.unitWrite s tag ep a bs).2.Canonical := by
  have h : ((pieces 4 a bs.length).foldl (fun (acc : Nat × State) p =>
      let w := Machine.wordWrite acc.2 tag p.1 ((bs.drop (p.1 - a)).take p.2)
      (joinStatus acc.1 w.1, w.2)) (0, s)).2.Canonical :=
    foldlSnd (fun _ _ h => by exact h.wordWrite) hs
  exact .iteSnd h.probeStray (.iteSnd h.probeStray h)

theorem ddrBusWrite {a : Nat} {bs : List Byte} (hs : s.Canonical) : (Machine.ddrBusWrite s a bs).2.Canonical := by
  unfold Machine.ddrBusWrite
  refine foldlSnd (fun _ _ h => ?_) hs
  exact .iteSnd h.probeStray (.iteSnd h.probeIso h.ddrWrite)

theorem pierBusWrite {a : Nat} {bs : List Byte} (hs : s.Canonical) : (Machine.pierBusWrite s a bs).2.Canonical := by
  unfold Machine.pierBusWrite
  refine foldlSnd (fun _ _ h => ?_) hs
  exact .iteSnd h.probeIso h.pierWrite

theorem physWrite (hs : s.Canonical) : (Machine.physWrite s tag a bs).2.Canonical := by
  unfold Machine.physWrite
  split
  · exact hs.probeStray
  · exact .iteSnd hs.ddrBusWrite (.iteSnd hs.pierBusWrite (.iteSnd hs.probeIso hs.unitWrite))

theorem busWrite (hs : s.Canonical) : (Machine.busWrite s tag a bs).2.Canonical := by
  unfold Machine.busWrite
  split
  · exact hs.physWrite
  · split
    · exact hs.probeStray
    · split
      exact .iteSnd hs.probeIso (.iteSnd hs.probeStale hs.physWrite)

theorem execRegisterWrite {addr : BitVec 40} {width : Fin 5} (hs : s.Canonical) :
    NextCanonical (Machine.execRegisterWrite tag addr width val s) := by
  unfold Machine.execRegisterWrite
  extract_lets
  split
  · exact .next hs.busWrite
  · exact .ite (.next hs.modifyCw) (.next hs.busWrite)

theorem aliasForward (hs : s.Canonical) : (Machine.aliasForward s p).Canonical := by
  unfold Machine.aliasForward
  split
  · exact hs.probeStray.absorb
  · exact hs.modifyCw

theorem execAliasAccess {write : Bool} {addr : BitVec 40} {width : Fin 5} (hs : s.Canonical) :
    NextCanonical (Machine.execAliasAccess tag write addr width val s) :=
  .ite (.next hs) (.next hs.modifyCw.aliasForward)

/-! ## LinePort -/

theorem sessionDatagram {b : List Byte} (hs : s.Canonical) : (Machine.sessionDatagram s e peer b).Canonical := by
  unfold Machine.sessionDatagram
  extract_lets
  split
  · exact hs
  · split
    · exact hs.accept
    · exact .ite hs.accept (.ite (hs.runCommand (fun _ _ h1 => h1) (fun _ _ _ h2 => h2)) hs)

theorem renerDatagram {p : Nat} {b : List Byte} (hs : s.Canonical) : (Machine.renerDatagram s e peer p b).Canonical :=
  .ite (hs.bump _ _ _) (.ite hs (.ite (.ite hs (hs.runQuery (fun _ h1 => h1))) hs.sessionDatagram))

theorem fecCount {corr uncorr : Nat} (hs : s.Canonical) : (Machine.fecCount s e corr uncorr).Canonical :=
  .ite hs (((hs.bump _ _ _).bump _ _ _).ifElse (·.modifyRn.raiseRn))

theorem execFrameReceive {fcs : Bool} {corr uncorr : Nat} (hs : s.Canonical) :
    NextCanonical (Machine.execFrameReceive e fcs corr uncorr frame s) := by
  unfold Machine.execFrameReceive
  refine .ite (.next hs) (.ite (.next (hs.fecCount.bump _ _ _)) (.ite (.next (hs.fecCount.bump _ _ _)) (.ite (.next
    (hs.fecCount.bump _ _ _)) ?_)))
  split
  · exact .next ((hs.fecCount.bump _ _ _).ifElse (·.bump _ _ _))
  · split
    · exact .next ((hs.fecCount.bump _ _ _).ifThen (·.renerDatagram))
    · exact .next ((hs.fecCount.bump _ _ _).bump _ _ _)

theorem execArp (hs : s.Canonical) : NextCanonical (Machine.execArp e frame s) := .ite (.next hs.portSends) (.next hs)

theorem execIcmpEcho (hs : s.Canonical) : NextCanonical (Machine.execIcmpEcho e frame s) :=
  .ite (.next hs.draw.draw.portSends) (.next hs)

theorem execLpLink {up blockLock fecLock : Bool} (hs : s.Canonical) :
    NextCanonical (Machine.execLpLink e up blockLock fecLock s) :=
  .ite (.next hs) (.next (((((ite hs.modifyRn hs).setFld _ _ _).setFld _ _ _).setFld _ _ _).ifElse (·.raiseRn)))

theorem execFallbackRateSwitch (hs : s.Canonical) : NextCanonical (Machine.execFallbackRateSwitch e s) :=
  .ite (.next (hs.modifyRn.setFld _ _ _)) (.next hs)

theorem openSession {k : Fin 16} {p : List Byte} (hs : s.Canonical) :
    (Machine.openSession s port peer k p).Canonical :=
  ((((((hs.draw.drawBytes.setFld _ _ _).setFld _ _ _).setFld _ _ _).setReg _ _).setReg _ _).setReg _ _).setSession.transmitPlain.raiseRn

theorem execHello {waiting : Nat} {payload : List Byte} (hs : s.Canonical) :
    NextCanonical (Machine.execHello port peer waiting payload s) := by
  unfold Machine.execHello
  refine .ite (.next hs) ?_
  extract_lets
  split
  · exact .ite (.next hs.openSession) (.next hs.transmitPlain.raiseRn)
  · exact .next hs.transmitPlain.raiseRn

/-! ## Commands -/

theorem execPing (hs : s.Canonical) : NextCanonical (Machine.execPing r body s) :=
  .next (hs.runCommand (fun _ _ h1 => .iteSnd2 h1 h1) (fun _ _ _ h2 => h2))

theorem execClose (hs : s.Canonical) : NextCanonical (Machine.execClose r body s) :=
  .next (hs.runCommand (fun _ _ h1 => .iteSnd2 h1 h1) (fun _ _ _ h2 => .ite h2.endSession h2))

theorem runVia {op : Nat} {f : State → Nat × List Byte × State} (hs : s.Canonical)
    (hf : ∀ a0, a0.Canonical → (f a0).2.2.Canonical) :
    (Machine.runVia op v f s).Canonical := by
  unfold Machine.runVia
  split
  · exact hs.runCommand (fun _ _ h1 => hf _ h1) (fun _ _ _ h2 => h2)
  · exact hs.runQuery (fun _ h3 => hf _ h3)

theorem execQuote (hs : s.Canonical) : NextCanonical (Machine.execQuote v body s) :=
  .next (hs.runVia (fun _ h1 => .iteSnd2 h1 (.iteSnd2 h1 h1)))

theorem execLog (hs : s.Canonical) : NextCanonical (Machine.execLog r body s) :=
  .next (hs.runCommand (fun _ _ h1 => .iteSnd2 h1 h1) (fun _ _ _ h2 => h2))

theorem execCert (hs : s.Canonical) : NextCanonical (Machine.execCert v body s) :=
  .next (hs.runVia (fun _ h1 => .iteSnd2 h1 h1))

theorem renerRead (hs : s.Canonical) : (Machine.renerRead s a n).2.2.Canonical := by
  unfold Machine.renerRead
  refine foldlSnd2 (fun _ _ h => ?_) hs
  exact h.busRead

theorem renerWrite (hs : s.Canonical) : (Machine.renerWrite s a bs).2.Canonical := by
  unfold Machine.renerWrite
  refine foldlSnd (fun _ _ h => ?_) hs
  exact h.busWrite

theorem execRead (hs : s.Canonical) : NextCanonical (Machine.execRead r body s) :=
  .next (hs.runCommand (fun _ _ h1 => .iteSnd2 h1 (.iteSnd2 h1 h1.renerRead)) (fun _ _ _ h2 => h2))

theorem execWrite (hs : s.Canonical) : NextCanonical (Machine.execWrite r body s) :=
  .next (hs.runCommand (fun _ _ h1 => .iteSnd2 h1 (.iteSnd2 h1 h1.renerWrite)) (fun _ _ _ h2 => h2))

theorem execWriteMask (hs : s.Canonical) : NextCanonical (Machine.execWriteMask r body s) :=
  .next (hs.runCommand (fun _ _ h1 => .iteSnd2 h1 (.iteSnd2 h1 h1.busRead.busWrite)) (fun _ _ _ h2 => h2))

theorem execSubscribe (hs : s.Canonical) : NextCanonical (Machine.execSubscribe r body s) :=
  .next (hs.runCommand (fun _ _ h1 => .iteSnd2 h1 (by split; exacts [h1, h1.setSession.showSubs])) (fun _ _ _ h2 =>
    h2))

theorem unsubscribe {k : Fin 16} {x : Session} {kind : Nat} (hs : s.Canonical) :
    (Machine.unsubscribe s k x kind).Canonical :=
  .ite hs.setSession (.ite hs.setSession (.ite hs.setSession.dropClaims hs.setSession))

theorem execUnsubscribe (hs : s.Canonical) : NextCanonical (Machine.execUnsubscribe r body s) :=
  .next (hs.runCommand (fun _ _ h1 => .iteSnd2 h1 (by split; exacts [h1, h1.unsubscribe.showSubs])) (fun _ _ _ h2 =>
    h2))

theorem execDbgChallenge (hs : s.Canonical) : NextCanonical (Machine.execDbgChallenge r body s) :=
  .next (hs.runCommand (fun _ _ h1 => .iteSnd2 h1 h1.drawBytes.modifyAb.raiseDebug) (fun _ _ _ h2 => h2))

theorem execDbgToken (hs : s.Canonical) : NextCanonical (Machine.execDbgToken r body s) :=
  .next (hs.runCommand (fun _ _ h1 => .iteSnd2 h1.presentToken h1.presentToken) (fun _ _ _ h2 => h2))

theorem execDbgClose (hs : s.Canonical) : NextCanonical (Machine.execDbgClose r body s) :=
  .next (hs.runCommand (fun _ _ h1 => .iteSnd2 h1.closeDebug h1) (fun _ _ _ h2 => h2))

theorem endBelowFloor {v : Nat} (hs : s.Canonical) : (Machine.endBelowFloor s v).Canonical :=
  .foldl (fun _ _ h1 => .ite h1.endSession h1) _ _ hs

theorem execSetFloor (hs : s.Canonical) : NextCanonical (Machine.execSetFloor r body s) :=
  .next (hs.runCommand (fun _ _ h1 => .iteSnd2 h1 (.iteSnd2 h1.update h1.writeGeneration))
    (fun _ _ _ h2 => .ite h2.endBelowFloor h2))

theorem execOwnerRelease (hs : s.Canonical) : NextCanonical (Machine.execOwnerRelease r body s) :=
  .next (hs.runCommand (fun _ _ h1 => .iteSnd2 h1 (.iteSnd2 (h1.draw.raise _ _) h1)) (fun _ _ _ h2 => .ite h2.release
    h2))

theorem execEnrol {reqId : BitVec 32} (hs : s.Canonical) : NextCanonical (Machine.execEnrol port peer reqId body s) :=
  .next (hs.runQuery (fun _ h1 => .iteSnd2 h1 (.iteSnd2 h1.enrol h1.enrol)))

theorem execSessionIdle {k : Fin 16} (hs : s.Canonical) : NextCanonical (Machine.execSessionIdle k s) := by
  unfold Machine.execSessionIdle
  split
  · exact .next hs
  · exact .next (.ite hs.endSession hs)

theorem execCredentialExpiryCheck (hs : s.Canonical) : NextCanonical (Machine.execCredentialExpiryCheck s) :=
  .ite (.next hs) (.next (.foldl (fun _ _ h1 => by split; exacts [h1, .ite h1.endSession h1]) _ _ hs))

/-! ## Deliver -/

theorem keeperSend {write : Bool} (hs : s.Canonical) : (Machine.keeperSend s k write a n bs).Canonical :=
  hs.offerPacket.setKeeper

theorem keeperPost (hs : s.Canonical) : (Machine.keeperPost s k a bs).Canonical := .ite hs.setKeeper hs.keeperSend

theorem keeperAnswer (hs : s.Canonical) : (Machine.keeperAnswer s k p).Canonical := by
  unfold Machine.keeperAnswer
  refine .ite hs.setKeeper ?_
  extract_lets
  split
  · exact hs.setKeeper
  · exact hs.setKeeper.keeperSend

theorem deliverResponse (hs : s.Canonical) : (Machine.deliverResponse s p).Canonical := by
  unfold Machine.deliverResponse
  refine .ite hs.probeStray (.dite (fun _ => ?_) (fun _ => .dite (fun _ => hs.modifyCw.keeperAnswer)
    (fun _ => hs.modifyCw.modifyCw)))
  extract_lets
  split
  · exact hs.modifyCw.branch (·.setCtl _ _) (·.setCtl _ _)
  · exact hs.modifyCw.setCtl _ _

theorem deliverRequest (hs : s.Canonical) : (Machine.deliverRequest s p).Canonical :=
  .ite hs.setPier (.ite hs.setDdr (.ite hs.aliasForward (.ite hs.probeStray.absorb (.ite hs.unitRead.answerPacket
    hs.unitWrite.answerPacket))))

theorem deliverMessage (hs : s.Canonical) : (Machine.deliverMessage s p).Canonical :=
  .dite (fun _ => hs.setExt _ _) (fun _ => .ite hs.modifyCw (.ite ((hs.bump _ _ _).raise _ _) hs.modifyCw))

theorem takePacket (hs : s.Canonical) : (Machine.takePacket s p).Canonical :=
  .ite hs.deliverRequest (.ite hs.deliverResponse hs.deliverMessage)

theorem settlePacket (hs : s.Canonical) : (Machine.settlePacket s p).Canonical :=
  .ite hs.probeIso.absorb (.ite hs.probeStray (.ite hs.probeStale.absorb (.ite hs.takePacket (.ite
    hs.crossFlits.takePacket hs.modifyWay))))

theorem noteLinkError {r q : Nat} (hs : s.Canonical) : (Machine.noteLinkError s r q).Canonical := hs.update

theorem runWorm (hs : s.Canonical) : (Machine.runWorm s p errs).Canonical :=
  (foldl (fun _ _ h2 => by split; exacts [h2.raise _ _, h2.noteLinkError.raise _ _]) _ _ (.foldl (fun _ _ h1 =>
    h1.probeHead) _ _ hs)).branch (·.settlePacket) (fun h3 => .ite h3.probeIso (h3.probeStray.raise _ _))

theorem arrive {k : Nat} {granted : Bool} (hs : s.Canonical) : (Machine.arrive s k p granted errs).Canonical :=
  hs.modifyCw.branch (·.modifyCw) (·.runWorm.refreshDrain)

theorem execCausewayDelivery {src : PacketFrom} {granted : Bool} (hs : s.Canonical) :
    NextCanonical (Machine.execCausewayDelivery src granted errs s) := by
  unfold Machine.execCausewayDelivery
  split
  · refine .ite (.next hs) ?_
    extract_lets
    split
    · exact .next hs.offerPacket
    · exact .next hs.offerPacket.arrive
  · dsimp only
    split
    · exact .next hs
    · split
      · exact .next hs
      · exact .next hs.modifyCw.arrive

/-! ## Keeper -/

theorem strayKp {k : Nat} (hs : s.Canonical) : (Machine.strayKp s k).Canonical := hs.bump _ _ _

theorem deniedKp {k : Nat} (hs : s.Canonical) : (Machine.deniedKp s k).Canonical := hs.bump _ _ _

theorem alignKp {a : BitVec 32} (hs : s.Canonical) : (Machine.alignKp s k a n).2.Canonical := .iteSnd hs hs.strayKp

theorem keeperRead (hs : s.Canonical) : (Machine.keeperRead s k a n).2.2.Canonical := by
  unfold Machine.keeperRead
  split
  · exact .iteSnd2 hs.deniedKp hs.localCheck
  · split
    · exact hs
    · exact hs.strayKp
  · exact hs.deniedKp
  · exact hs.strayKp

theorem keeperStore {v : Nat} (hs : s.Canonical) : (Machine.keeperStore s k a n v).Canonical := by
  unfold Machine.keeperStore
  split
  · exact .ite hs.deniedKp hs.localWrite
  · exact .ite hs.deniedKp (hs.wordWrite.ifThen (·.strayKp))
  · exact hs.deniedKp
  · exact hs.strayKp

theorem useRead {addr : BitVec 32} {f : Nat → State → State} (hs : s0.Canonical) (ht : s.Canonical)
    (hf : ∀ a0 a1, a1.Canonical → (f a0 a1).Canonical) :
    (Machine.useRead s0 s k addr n f).Canonical := by
  unfold Machine.useRead
  split
  have h1 := ht.alignKp.ofSnd ‹_›
  split
  · split
    have h2 := h1.keeperRead.ofSnd2 ‹_›
    exact .ite h2.abandon (hf _ _ h2)
  · split
    · exact hf _ _ ht.setKeeper
    · exact .ite hs hs.alignKp.keeperSend

theorem useStore {addr : BitVec 32} {v : Nat} (hs : s0.Canonical) (ht : s.Canonical) :
    (Machine.useStore s0 s k addr n v).Canonical := by
  unfold Machine.useStore
  split
  have h1 := ht.alignKp.ofSnd ‹_›
  split
  · exact h1.keeperStore
  · exact .ite hs h1.keeperSend

theorem countIllegal {k : Nat} (hs : s.Canonical) : (Machine.countIllegal s k).Canonical := hs.bump _ _ _

theorem endInstruction (hs : s.Canonical) : (Machine.endInstruction k s).Canonical :=
  .ite hs (hs.setKeeper.ifElse (·.haltKeeper))

theorem keeperStep {p : State → KeeperWord → Bool} {f : KeeperWord → State → State → State} (hs : s0.Canonical)
    (hf : ∀ a0 a1 a2, a1.Canonical → a2.Canonical → (f a0 a1 a2).Canonical) :
    (Machine.keeperStep k ups p f s0).Canonical :=
  .ite hs (.ite (hs.applyUpsets _).raiseKp.abandon (.ite (hs.applyUpsets _).localCheck.abandon (.ite (hf _ _ _
    (hs.applyUpsets _).localCheck (hs.applyUpsets _).localCheck.setKpPc).endInstruction hs)))

theorem setAcc {v : BitVec 32} {mask f : optParam (BitVec 4) 0} (hs : s.Canonical) :
    (Machine.setAcc s k v mask f).Canonical :=
  hs.setKeeper

theorem withOperand {i : KeeperWord} {f : BitVec 32 → State → State} (hs : s0.Canonical) (ht : s.Canonical)
    (hf : ∀ a0 a1, a1.Canonical → (f a0 a1).Canonical) :
    (Machine.withOperand k i s0 s f).Canonical :=
  .ite (hs.useRead ht (fun _ _ h1 => hf _ _ h1)) (hf _ _ ht)

theorem keeperAlu {code : Nat} {m : BitVec 32} (hs : s.Canonical) : (Machine.keeperAlu s k code m).Canonical := by
  unfold Machine.keeperAlu
  split
  · exact hs
  · exact (ite (hs.setFld _ _ _) hs).branch (·.setAcc) (·.setAcc)

theorem jumpTo {target : BitVec 32} (hs : s.Canonical) : (Machine.jumpTo s k target).Canonical :=
  .ite hs.setKpPc hs.countIllegal

theorem pushWords {k : Fin 4} {l : List (BitVec 32)} (hs : s.Canonical) : (Machine.pushWords k l s).2.Canonical := by
  induction l generalizing s with
  | nil => exact hs
  | cons v l ih => exact .iteSnd (ih hs.setKeeper.localWrite) hs

theorem pushThen {ws : List (BitVec 32)} {f : State → State} (hs : s.Canonical)
    (hf : ∀ a0, a0.Canonical → (f a0).Canonical) :
    (Machine.pushThen k ws f s).Canonical :=
  .ite (hf _ hs.pushWords) hs.pushWords.raiseKp.abandon

theorem popRegs {s0 t : State} {k : Fin 4} {f : State → State} {l : List Nat} (hs : s0.Canonical) (ht : t.Canonical)
    (hf : ∀ a, a.Canonical → (f a).Canonical) : (Machine.popRegs s0 k f l t).Canonical := by
  induction l generalizing t with
  | nil => exact hf _ ht
  | cons b l ih => exact hs.useRead ht (fun _ _ h => ih h.setKeeper)

theorem faultOnStandby {t : Takeover} {n : Fin 17} (hs : s.Canonical) : (Machine.faultOnStandby s t n).Canonical :=
  hs.stopService.routeHead.rgDisable.placePair.refreshJoints.setStandby.holdRole.setUse

theorem faultOutcome {n : Fin 17} (hs : s.Canonical) : (Machine.faultOutcome s k n).Canonical := by
  unfold Machine.faultOutcome
  extract_lets
  split
  · exact .ite hs.faultOnStandby (.ite hs (hs.stopRoles.raise _ _))
  · exact .ite hs.changeAbort.standbyFault (.ite hs (.ite hs.keeperPost hs.stopService))

theorem handleFault (hs : s.Canonical) : (Machine.handleFault s k x).Canonical := by
  unfold Machine.handleFault
  extract_lets
  split
  · exact hs.localWrite
  · exact hs.localWrite.stopNowFault.faultOutcome

theorem orStay {o : Host.Outcome State Fault Refusal} (hs : s.Canonical) (ho : NextCanonical o) :
    (Machine.orStay s o).Canonical := by
  unfold Machine.orStay
  split
  · exact ho _ rfl
  · exact hs

theorem handleAdvance (hs : s.Canonical) : (Machine.handleAdvance s x).Canonical :=
  hs.orStay (.ite hs.execTakeoverRestored hs.execTakeoverCopy)

theorem handleLog (hs : s.Canonical) : (Machine.handleLog s k x).Canonical :=
  hs.setKeeper.ifElse (fun h1 => (h1.setFld _ _ _).bump _ _ _)

theorem handleMark (hs : s.Canonical) : (Machine.handleMark s k).Canonical := hs.keeperPost

theorem handleEventLog (hs : s.Canonical) : (Machine.handleEventLog s k).Canonical :=
  hs.localWrite.localWrite.localWrite.localWrite.localWrite

theorem noteTest (hs : s.Canonical) : (Machine.noteTest s k x).Canonical := hs.modifyUpdate

theorem enterHandler (hs : s.Canonical) : (Machine.enterHandler s k x).Canonical :=
  hs.beginHandler.noteTest.ifElse (fun h1 => .ite h1.handleFault (.ite h1.handleAdvance (.ite h1.handleLog (.ite
    h1.handleMark h1.handleEventLog))))

theorem execKeeperDispatch (hs : s.Canonical) : NextCanonical (Machine.execKeeperDispatch k s) := by
  unfold Machine.execKeeperDispatch
  refine .ite (.next hs) ?_
  split
  · exact .next hs
  · exact .ite (.next hs) (.next hs.abandonAccess.setKeeper.enterHandler)

theorem execKeeperLoad (hs : s.Canonical) : NextCanonical (Machine.execKeeperLoad k ups s) :=
  .next (hs.keeperStep (fun _ _ _ h1 h2 => h1.useRead h2 (fun _ _ h3 => h3.setAcc)))

theorem execKeeperStore (hs : s.Canonical) : NextCanonical (Machine.execKeeperStore k ups s) :=
  .next (hs.keeperStep (fun _ _ _ h1 h2 => h1.useStore h2))

theorem execLoadIndex (hs : s.Canonical) : NextCanonical (Machine.execLoadIndex k ups s) :=
  .next (hs.keeperStep (fun _ _ _ h1 h2 => h1.useRead h2 (fun _ _ h3 => h3.setKeeper)))

theorem execStoreIndex (hs : s.Canonical) : NextCanonical (Machine.execStoreIndex k ups s) :=
  .next (hs.keeperStep (fun _ _ _ h1 h2 => h1.useStore h2))

theorem execLea (hs : s.Canonical) : NextCanonical (Machine.execLea k ups s) :=
  .next (hs.keeperStep (fun _ _ _ _ h2 => h2.setKeeper))

theorem execAdd (hs : s.Canonical) : NextCanonical (Machine.execAdd k ups s) :=
  .next (hs.keeperStep (fun _ _ _ h1 h2 => h1.withOperand h2 (fun _ _ h3 => h3.setAcc)))

theorem execAdc (hs : s.Canonical) : NextCanonical (Machine.execAdc k ups s) :=
  .next (hs.keeperStep (fun _ _ _ h1 h2 => h1.withOperand h2 (fun _ _ h3 => h3.setAcc)))

theorem execSub (hs : s.Canonical) : NextCanonical (Machine.execSub k ups s) :=
  .next (hs.keeperStep (fun _ _ _ h1 h2 => h1.withOperand h2 (fun _ _ h3 => h3.setAcc)))

theorem execSbc (hs : s.Canonical) : NextCanonical (Machine.execSbc k ups s) :=
  .next (hs.keeperStep (fun _ _ _ h1 h2 => h1.withOperand h2 (fun _ _ h3 => h3.setAcc)))

theorem execKeeperLogic (hs : s.Canonical) : NextCanonical (Machine.execKeeperLogic k ups s) :=
  .next (hs.keeperStep (fun _ _ _ h1 h2 => h1.withOperand h2 (fun _ _ h3 => h3.keeperAlu)))

theorem execCmp (hs : s.Canonical) : NextCanonical (Machine.execCmp k ups s) :=
  .next (hs.keeperStep (fun _ _ _ h1 h2 => h1.withOperand h2 (fun _ _ h3 => h3.setKeeper)))

theorem execKeeperMultiply (hs : s.Canonical) : NextCanonical (Machine.execKeeperMultiply k ups s) :=
  .next (hs.keeperStep (fun _ _ _ h1 h2 => h1.withOperand h2 (fun _ _ h3 => h3.keeperAlu)))

theorem execKeeperDivide (hs : s.Canonical) : NextCanonical (Machine.execKeeperDivide k ups s) :=
  .next (hs.keeperStep (fun _ _ _ h1 h2 => h1.withOperand h2 (fun _ _ h3 => h3.keeperAlu)))

theorem execLdi (hs : s.Canonical) : NextCanonical (Machine.execLdi k ups s) :=
  .next (hs.keeperStep (fun _ _ _ _ h2 => h2.setAcc))

theorem execLui (hs : s.Canonical) : NextCanonical (Machine.execLui k ups s) :=
  .next (hs.keeperStep (fun _ _ _ _ h2 => h2.setAcc))

theorem execOrl (hs : s.Canonical) : NextCanonical (Machine.execOrl k ups s) :=
  .next (hs.keeperStep (fun _ _ _ _ h2 => h2.setAcc))

theorem execLoadIndexImmediate (hs : s.Canonical) : NextCanonical (Machine.execLoadIndexImmediate k ups s) :=
  .next (hs.keeperStep (fun _ _ _ _ h2 => h2.setKeeper))

theorem execAddIndexImmediate (hs : s.Canonical) : NextCanonical (Machine.execAddIndexImmediate k ups s) :=
  .next (hs.keeperStep (fun _ _ _ _ h2 => h2.setKeeper))

theorem execCopy (hs : s.Canonical) : NextCanonical (Machine.execCopy k ups s) :=
  .next (hs.keeperStep (fun _ _ _ _ h2 => .ite h2 (.ite h2.setAcc (.ite h2.setKeeper h2.setKeeper))))

theorem execPutf (hs : s.Canonical) : NextCanonical (Machine.execPutf k ups s) :=
  .next (hs.keeperStep (fun _ _ _ _ h2 => h2.setKeeper))

theorem execGetf (hs : s.Canonical) : NextCanonical (Machine.execGetf k ups s) :=
  .next (hs.keeperStep (fun _ _ _ _ h2 => h2.setKeeper))

theorem execKeeperShift (hs : s.Canonical) : NextCanonical (Machine.execKeeperShift k ups s) :=
  .next (hs.keeperStep (fun _ _ _ _ h2 => h2.keeperAlu))

theorem execKeeperShiftX (hs : s.Canonical) : NextCanonical (Machine.execKeeperShiftX k ups s) :=
  .next (hs.keeperStep (fun _ _ _ _ h2 => h2.keeperAlu))

theorem execNeg (hs : s.Canonical) : NextCanonical (Machine.execNeg k ups s) :=
  .next (hs.keeperStep (fun _ _ _ _ h2 => h2.setAcc))

theorem execNot (hs : s.Canonical) : NextCanonical (Machine.execNot k ups s) :=
  .next (hs.keeperStep (fun _ _ _ _ h2 => h2.setAcc))

theorem callTo {mask : Nat} {target : BitVec 32} {firm : Bool} (hs : s.Canonical) :
    (Machine.callTo k mask target firm s).Canonical :=
  hs.pushThen (fun _ h1 => (ite h1.setKpMode h1).setKpPc)

theorem execBr (hs : s.Canonical) : NextCanonical (Machine.execBr k ups s) :=
  .next (hs.keeperStep (fun _ _ _ _ h2 => .ite h2.jumpTo h2))

theorem execJmp (hs : s.Canonical) : NextCanonical (Machine.execJmp k ups s) :=
  .next (hs.keeperStep (fun _ _ _ _ h2 => h2.jumpTo))

theorem execCall (hs : s.Canonical) : NextCanonical (Machine.execCall k ups s) :=
  .next (hs.keeperStep (fun _ _ _ _ h2 => .ite (h2.localCheck.branch (·.abandon) (fun h3 => .ite h3.countIllegal
    h3.callTo)) (.ite h2.countIllegal h2.callTo)))

theorem execRet (hs : s.Canonical) : NextCanonical (Machine.execRet k ups s) :=
  .next (hs.keeperStep (fun _ _ _ h1 h2 => h1.useRead h2 (fun _ _ h3 => h1.popRegs h3.setKeeper (fun _ h4 =>
    h4.setKpPc.ifElse (·.setKpMode)))))

theorem endHandler (hs : s.Canonical) : (Machine.endHandler s k).Canonical := by
  unfold Machine.endHandler
  split
  · exact hs
  · split
    · exact hs.enterHandler
    · exact hs.restoreFrame

theorem execReti (hs : s.Canonical) : NextCanonical (Machine.execReti k ups s) :=
  .ite (.next (.ite (hs.applyUpsets _).endHandler hs)) (.next (hs.keeperStep (fun _ _ _ _ h2 => h2.endHandler)))

theorem execWait (hs : s.Canonical) : NextCanonical (Machine.execWait k ups s) :=
  .ite (.next (.ite ((hs.applyUpsets _).setFld _ _ _).setKpPc hs)) (.next (hs.keeperStep (fun _ _ _ _ h2 =>
    h2.setFld _ _ _)))

theorem execPushm (hs : s.Canonical) : NextCanonical (Machine.execPushm k ups s) :=
  .next (hs.keeperStep (fun _ _ _ _ h2 => h2.pushThen (fun _ h3 => h3)))

theorem execPopm (hs : s.Canonical) : NextCanonical (Machine.execPopm k ups s) :=
  .next (hs.keeperStep (fun _ _ _ h1 h2 => h1.popRegs h2 (fun _ h3 => h3)))

theorem execNop (hs : s.Canonical) : NextCanonical (Machine.execNop k ups s) :=
  .next (hs.keeperStep (fun _ _ _ _ h2 => h2))

theorem execKeeperIllegal (hs : s.Canonical) : NextCanonical (Machine.execKeeperIllegal k ups s) :=
  .next (hs.keeperStep (fun _ _ _ _ h2 => h2.countIllegal))

theorem writeOwner {k : Fin 4} {b : OwnerBlock} (hs : s.Canonical) : (Machine.writeOwner s k b).Canonical :=
  .foldl (fun _ _ h => (h.setReg _ _).setReg _ _) _ _
    (.foldl (fun _ _ h => (h.writeLE _ _ _).setErr) _ _ (hs.clear.writeBytes _ _).clearErrs)

theorem execOwnerBlockReplace (hs : s.Canonical) : NextCanonical (Machine.execOwnerBlockReplace k s) := by
  unfold Machine.execOwnerBlockReplace
  split
  · exact .next hs
  · exact .ite (.next (hs.writeOwner.setFld _ _ _)) (.next hs)

end Sys2Proof.Machine.State.Canonical
end

