-- ==== Sys2Proof/Proofs/CanonicalUpdates.lean ====
section
/-!
PROOFS. The functions of image loads, link, streams and updates keep the stores canonical.
-/

namespace Sys2Proof.Machine.State.Canonical

variable {s : State} {k : Fin 16} {u : Update} {g : Image} {l n offset : Nat} {r : Request}
  {body bs payload : List Byte} {c : CropStream} {i : CropItem} {b : MicroBlock} {d : Sealed} {x : EventStream}

/-! ## ImageLoad -/

theorem writeStore {a : Nat} (hs : s.Canonical) : (Machine.writeStore s a bs).Canonical := (hs.writeBytes _ _).update

theorem writeProgram {bank : Nat} {p : Program} (hs : s.Canonical) : (Machine.writeProgram s n bank p).Canonical :=
  hs.writeStore

theorem writeMicro {n : Fin 17} {m w : Nat} (hs : s.Canonical) : (Machine.writeMicro s n b m w).Canonical :=
  hs.writeStore.writeStore.setMicro _ _

theorem showMicro (hs : s.Canonical) : (Machine.showMicro s n b).Canonical :=
  .ite (((hs.setReg _ _).setReg _ _).setFld _ _ _) (((hs.setFld _ _ _).setFld _ _ _).setFld _ _ _)

theorem loadMicro {n : Fin 17} {bs : List MicroBlock} (hs : s.Canonical) : (Machine.loadMicro s n bs).Canonical :=
  .foldl (fun _ _ h1 => (ite h1.writeMicro h1.writeMicro).showMicro) _ _ (((hs.setMicro _ _).setReg _ _).setReg _ _)

theorem writeFirmware {k : Fin 4} {p : KeeperParts} (hs : s.Canonical) : (Machine.writeFirmware s k p).Canonical :=
  .foldl (fun _ _ h => h.writeLE _ _ _) _ _ ((hs.clear.writeBytes _ _).writeBytes _ _).clearErrs.setKeeper

theorem loadKeeper {p : KeeperParts} {k : Fin 4} (hs : s.Canonical) : (Machine.loadKeeper p s k).Canonical :=
  .ite (.ite (hs.update.setFld _ _ _) hs) (hs.writeFirmware.ifThen (·.writeOwner))

theorem mendKeeper {k : Fin 4} (hs : s.Canonical) : (Machine.mendKeeper s k).Canonical := by
  unfold Machine.mendKeeper
  split
  · exact hs
  · exact (foldl (fun _ _ h1 => (h1.writeBytes _ _).setErr) _ _ hs).keeperRun

theorem routesTo {epoch : Nat} (hs : s.Canonical) : (Machine.routesTo s epoch bs).Canonical :=
  .foldl (fun _ _ h3 => h3.setFld _ _ _) _ _ (foldl (fun _ _ h1 => .foldl (fun _ _ h2 => h2.setReg _ _) _ _ h1) _ _
    hs).putImg

theorem loadRoutes (hs : s.Canonical) : (Machine.loadRoutes s bs).Canonical := hs.routesTo

theorem applyEntry {e : RegsEntry} (hs : s.Canonical) : (Machine.applyEntry s e).Canonical := hs.busRead.busWrite

theorem applyRegs (hs : s.Canonical) : (Machine.applyRegs s g).Canonical :=
  .foldl (fun _ _ h1 => h1.applyEntry) _ _ hs

theorem standardRouting (hs : s.Canonical) : (Machine.standardRouting s g).Canonical :=
  .ite hs (.foldl (fun _ _ h2 => h2.setFld _ _ _) _ _ (.foldl (fun _ _ h1 => h1.setReg _ _) _ _ hs))

theorem applyHead {p : HeadParts} (hs : s.Canonical) : (Machine.applyHead s p).Canonical :=
  ((hs.setHead _ _).setFld _ _ _).setFld _ _ _

theorem applyHeads (hs : s.Canonical) : (Machine.applyHeads s bs).Canonical :=
  .foldl (fun _ _ h2 => h2.applyHead) _ _ (foldl (fun _ _ h1 => h1.setHead _ _) _ _ hs).update

theorem placeAreas (hs : s.Canonical) : (Machine.placeAreas s).Canonical :=
  .foldl (fun _ _ h1 => by split; exacts [h1, h1.setRing]) _ _ ((hs.setFld _ _ _).setFld _ _ _).modifyPl

theorem loadResult {code sect : Nat} (hs : s.Canonical) : (Machine.loadResult s code sect).Canonical :=
  ((hs.setFld _ _ _).setFld _ _ _).raise _ _

theorem chooseRotation (hs : s.Canonical) : (Machine.chooseRotation s).Canonical := hs.setFld _ _ _

theorem loadRegions (hs : s.Canonical) : (Machine.loadRegions s g).Canonical :=
  .foldl (fun _ _ h3 => by split; exacts [h3, h3.routeHead]) _ _ (.foldl (fun _ _ h2 => .ite h2 h2.rgDisable) _ _
    (.foldl (fun _ _ h1 => by split; exacts [h1, h1.streamRegion]) _ _ hs))

theorem applyWhole {boot : Bool} (hs : s.Canonical) : (Machine.applyWhole s g boot).Canonical := by
  unfold Machine.applyWhole
  split
  · exact hs
  · exact (foldl (fun _ _ h5 => h5.keeperRun) _ _ (foldl (fun _ _ h3 => .foldl (fun _ _ h4 => h4.writeProgram) _ _
      h3) _ _ (.foldl (fun _ _ h2 => h2.loadMicro) _ _ (.foldl (fun _ _ h1 => h1.loadKeeper) _ _
      hs.applyPlacement))).loadRoutes.applyRegs.standardRouting).applyHeads.modifyPl.loadRegions.placeAreas

theorem measureBoot (hs : s.Canonical) : (Machine.measureBoot s g).Canonical := hs.extend.extend.extend.modifyAb

theorem bootImage (hs : s.Canonical) : (Machine.bootImage s).Canonical := by
  unfold Machine.bootImage
  extract_lets
  split
  have h1 := hs.chooseRotation.bootSlot.ofSnd2 ‹_›
  split
  · exact h1.loadResult.noImage
  · exact ((ite h1.raiseBoot h1).applyWhole.measureBoot.setFld _ _ _).loadResult

theorem execWholeImageLoad {image : Option (List Byte)} (hs : s.Canonical) :
    NextCanonical (Machine.execWholeImageLoad image s) := by
  unfold Machine.execWholeImageLoad
  split
  · exact .next (.ite hs.bootImage hs)
  · refine .ite (.next hs) ?_
    split
    · exact .next hs.loadResult
    · exact .ite (.next hs.applyWhole.loadResult.setBoot) (.next (.foldl (fun _ _ h1 => h1.tgStart) _ _
        hs.applyWhole.loadResult.startRoles))

theorem execPartialImageLoad {image : List Byte} (hs : s.Canonical) :
    NextCanonical (Machine.execPartialImageLoad image s) := by
  unfold Machine.execPartialImageLoad
  refine .ite (.next hs) ?_
  split
  · exact .next hs.loadResult
  · extract_lets g p
    clear_value p
    split
    · extract_lets s1 s2
      have h1 : s1.Canonical := by
        unfold s1
        refine foldl ?_ _ _ hs
        intro _ _ h
        extract_lets r t
        have ht : t.Canonical := foldl (fun _ _ h => h.writeMicro.showMicro) _ _ h
        split
        · exact ht.ifElse (·.writeProgram)
        · exact ht
      have h2 : s2.Canonical := h1.loadResult
      exact .next h2.stageChange
    · exact .next hs.loadResult

theorem applyPartial {c : Change} (hs : s.Canonical) : (Machine.applyPartial s c).Canonical := by
  unfold Machine.applyPartial
  refine (applyRegs ?_).modifyPl
  split
  · exact (foldl (fun _ _ h1 => h1.applyHead) _ _ hs.update).writeProgram
  · exact .foldl (fun _ _ h2 => h2.applyHead) _ _ hs.update

/-! ## Link -/

theorem execUcieRetry {fourth : Bool} (hs : s.Canonical) : NextCanonical (Machine.execUcieRetry fourth s) :=
  .ite (.next hs) (.ite (.next (hs.bump _ _ _)) (.next (((hs.bump _ _ _).modifyAb.setFld _ _ _).bump _ _ _)))

theorem execUcieDown (hs : s.Canonical) : NextCanonical (Machine.execUcieDown s) :=
  .ite (.next hs) (.next (hs.setFld _ _ _).modifyAb.cut77)

theorem moveWaiting (hs : s.Canonical) : (Machine.moveWaiting s).Canonical :=
  .foldl (fun _ _ h2 => h2.sendPacket _) _ _ (.foldl (fun _ _ h1 => h1.settlePacket) _ _ hs.modifyWay.modifyWay)

theorem execUcieLinkUp {x8 : Bool} (hs : s.Canonical) : NextCanonical (Machine.execUcieLinkUp x8 s) :=
  .ite (.next hs) (.next (((((hs.setFld _ _ _).setFld _ _ _).modifyAb.ifThen (·.releaseEp)).raise _ _).ifThen
    (·.raise _ _)).moveWaiting)

theorem execUcieTrainingFailure (hs : s.Canonical) : NextCanonical (Machine.execUcieTrainingFailure s) :=
  .ite (.next hs.modifyAb.halt) (.next hs)

/-! ## Streams -/

theorem modifySession {f : Session → Session} (hs : s.Canonical) : (Machine.modifySession s k f).Canonical := by
  unfold Machine.modifySession
  split
  · exact hs
  · exact hs.setSession

theorem setRecStream {r : RecStream} (hs : s.Canonical) : (Machine.setRecStream s k r).Canonical := hs.modifySession

theorem raiseStream {cause : Nat} (hs : s.Canonical) : (Machine.raiseStream s k cause).Canonical := hs.raiseRn

theorem joinStream {r : RecStream} {line : Option (Fin 16)} {lseq : BitVec 64} {bytes : List Byte} (hs : s.Canonical)
    :
    (Machine.joinStream s k r line lseq bytes).Canonical :=
  .ite hs.setRecStream ((hs.setRecStream.bump _ _ _).ifElse (·.raiseStream))

theorem execStreamEntry (hs : s.Canonical) : NextCanonical (Machine.execStreamEntry s) := by
  unfold Machine.execStreamEntry
  split
  · exact .next hs
  · split
    · exact .next hs
    · exact .next (.foldl (fun _ _ h1 => by split; exacts [h1, by split; exacts [h1, h1.joinStream]]) _ _ hs.modifyRn)

theorem sendRecords {r : RecStream} {es : List RecEntry} (hs : s.Canonical) :
    (Machine.sendRecords s k r es).Canonical := by
  unfold Machine.sendRecords
  dsimp only
  split
  · exact hs
  · exact hs.setRecStream.sessionSend

theorem execRecordsSend (hs : s.Canonical) : NextCanonical (Machine.execRecordsSend k s) := by
  unfold Machine.execRecordsSend
  split
  · exact .next hs
  · refine .ite (.next hs) ?_
    split
    · exact .next hs.setRecStream.sendRecords
    · exact .next (.ite hs.sendRecords hs)

theorem applyCum {cum next : Nat} (hs : s.Canonical) : (Machine.applyCum s k cum next).2.Canonical :=
  .iteSnd (hs.bump _ _ _) hs

theorem execRecAck (hs : s.Canonical) : NextCanonical (Machine.execRecAck d payload s) := by
  unfold Machine.execRecAck
  split
  · have h1 := hs.accept.ofSnd ‹_›
    exact .next h1
  · have h2 := hs.accept.ofSnd ‹_›
    split
    · exact .next h2
    · exact .next h2.applyCum.setRecStream

theorem setCropStream (hs : s.Canonical) : (Machine.setCropStream s k c).Canonical := hs.modifySession

theorem setCropItem (hs : s.Canonical) : (Machine.setCropItem s k c i).Canonical := hs.setCropStream

theorem sendCrop {chunk : List Byte} (hs : s.Canonical) : (Machine.sendCrop s k c i offset chunk).Canonical :=
  hs.sessionSend

theorem cropData {num : Nat} (hs : s.Canonical) : (Machine.cropData s num offset n).2.Canonical := by
  unfold Machine.cropData
  split
  · exact hs
  · exact hs.ddrAreaRead.ddrAreaRead

theorem sendChunk (hs : s.Canonical) : (Machine.sendChunk s k c i offset n).Canonical := hs.cropData.sendCrop

theorem execCropChunkSend (hs : s.Canonical) : NextCanonical (Machine.execCropChunkSend k s) := by
  unfold Machine.execCropChunkSend
  split
  · exact .next hs
  · refine .ite (.next hs) ?_
    split
    · split
      · exact .next hs
      · exact .next (hs.setCropItem.ifElse (·.sendChunk))
    · split
      · exact .next hs
      · exact .next hs.setCropItem.sendChunk

theorem releaseCrop {num : Nat} (hs : s.Canonical) : (Machine.releaseCrop s k num).Canonical := hs.update

theorem dropCrop (hs : s.Canonical) : (Machine.dropCrop s k c i).Canonical := hs.setCropStream.releaseCrop

theorem execCropAck (hs : s.Canonical) : NextCanonical (Machine.execCropAck d payload s) := by
  unfold Machine.execCropAck
  split
  · have h1 := hs.accept.ofSnd ‹_›
    exact .next h1
  · have h2 := hs.accept.ofSnd ‹_›
    split
    · exact .next h2
    · exact .ite (.next h2.applyCum.dropCrop) (.next h2.applyCum.setCropItem)

theorem execCropAbandoned (hs : s.Canonical) : NextCanonical (Machine.execCropAbandoned k s) := by
  unfold Machine.execCropAbandoned
  extract_lets
  split
  · exact .next hs
  · exact .next (hs.sendCrop.dropCrop.bump _ _ _).raiseStream

theorem setEventStream (hs : s.Canonical) : (Machine.setEventStream s k x).Canonical := hs.modifySession

theorem sendNotify {kind : Nat} {content : List Byte} (hs : s.Canonical) :
    (Machine.sendNotify s k x kind content).Canonical :=
  hs.setEventStream.sessionSend

theorem notify {kind : Nat} {content : List Byte} (hs : s.Canonical) :
    (Machine.notify s k x kind content).Canonical :=
  .ite hs.sendNotify (hs.setEventStream.bump _ _ _).raiseStream

theorem keeperFault {src cause : Nat} (hs : s.Canonical) : (Machine.keeperFault s src cause).Canonical :=
  .dite (fun _ => hs.mendKeeper) (fun _ => hs)

theorem execNotifySend (hs : s.Canonical) : NextCanonical (Machine.execNotifySend s) := by
  unfold Machine.execNotifySend
  refine .ite (.next hs) ?_
  split
  · exact .next (.foldl (fun _ _ h1 => by split; exacts [h1, .ite h1.notify h1]) _ _ hs.modifyCw.keeperFault)
  · split
    · exact .next hs
    · exact .next (.foldl (fun _ _ h2 => by split; exacts [h2, h2.notify]) _ _ hs.modifyAb)

theorem execNotifyAck (hs : s.Canonical) : NextCanonical (Machine.execNotifyAck d payload s) := by
  unfold Machine.execNotifyAck
  split
  · have h1 := hs.accept.ofSnd ‹_›
    exact .next h1
  · have h2 := hs.accept.ofSnd ‹_›
    split
    · exact .next h2
    · exact .ite (.next h2.applyCum.sendNotify) (.next h2.applyCum.setEventStream)

theorem execStreamResend {kind : Fin 3} (hs : s.Canonical) : NextCanonical (Machine.execStreamResend k kind s) := by
  unfold Machine.execStreamResend
  refine .ite (.next hs) (.ite ?_ (.ite ?_ ?_))
  · split
    · exact .next hs
    · exact .next (.ite hs.sendRecords hs)
  · split
    · exact .next hs
    · exact .next hs.setCropItem.sendChunk
  · split
    · exact .next hs
    · exact .ite (.next hs.setEventStream.sessionSend) (.next hs)

/-! ## UpdateApply -/

theorem loadLibrary {n : Fin 17} (hs : s.Canonical) : (Machine.loadLibrary s n b).Canonical :=
  (hs.setMicro _ _).writeMicro.showMicro

theorem prepPair {n : Fin 17} (hs : s.Canonical) : (Machine.prepPair s u n).Canonical := by
  unfold Machine.prepPair
  refine .ite (.foldl (fun _ _ h1 => h1.loadLibrary) _ _ hs) ?_
  split
  · exact hs
  · exact .foldl (fun _ _ h2 => h2.writeProgram) _ _ hs.loadMicro

theorem applyScoped (hs : s.Canonical) : (Machine.applyScoped s g l).Canonical :=
  .foldl (fun _ _ h1 => h1.applyEntry) _ _ hs

theorem applyUnscoped (hs : s.Canonical) : (Machine.applyUnscoped s g).Canonical :=
  .foldl (fun _ _ h1 => h1.applyEntry) _ _ hs

theorem roleSettings (hs : s.Canonical) : (Machine.roleSettings s g l).Canonical :=
  ((hs.setFld _ _ _).setFld _ _ _).setFld _ _ _

theorem roleSwitched (hs : s.Canonical) : (Machine.roleSwitched s u l).Canonical :=
  (hs.modifyUpdate.bump _ _ _).raise _ _

theorem beginRole {old new : Fin 17} (hs : s.Canonical) : (Machine.beginRole s u l old new).Canonical := by
  unfold Machine.beginRole
  split
  · exact hs.prepPair.stageChange
  · exact hs

theorem inPlace (hs : s.Canonical) : (Machine.inPlace s u l).Canonical :=
  .ite (.foldl (fun _ _ h1 => h1.stopDrain) _ _ hs) (.foldl (fun _ _ h4 => h4.roleSwitched) _ _ (.foldl (fun _ _ h3 =>
    h3.startWritten) _ _ (.foldl (fun _ _ h2 => .ite h2.prepPair
    (by split; exacts [h2.prepPair, (setProgram
          (by split; exacts [h2.prepPair.streamRegion, h2.prepPair])).roleSettings.applyScoped])) _ _ hs)))

theorem advanceRole (hs : s.Canonical) : (Machine.advanceRole s).Canonical := by
  unfold Machine.advanceRole
  split
  · exact hs
  · split
    · exact hs
    · split
      · exact hs.modifyUpdate
      · refine .ite hs (.ite ?_ (.ite hs.inPlace hs))
        split
        · exact hs.beginRole
        · exact hs

theorem advanceRoles (hs : s.Canonical) : (Machine.advanceRoles s).Canonical :=
  .foldl (fun _ _ h1 => h1.advanceRole) _ _ hs

theorem updateSwitched (hs : s.Canonical) : (Machine.updateSwitched s l).Canonical := by
  unfold Machine.updateSwitched
  split
  · exact hs
  · refine .ite hs (roleSwitched ?_).advanceRoles
    split
    · exact hs
    · exact hs.roleSettings.applyScoped

theorem execChangeSwitch (hs : s.Canonical) : NextCanonical (Machine.execChangeSwitch s) := by
  unfold Machine.execChangeSwitch
  split
  · exact .next hs
  · exact .ite (.next hs) (.ite (.next
      ((((((((hs.holdRole.setUse.setFld _ _ _).setFld _ _ _).holdRole.setUse.update.routeHead.rgDisable.ifThen
      (·.applyPartial)).extend.setFld _ _ _).setFld _ _ _).setPlState.modifyPl.raise _ _).setFld _ _ _).setFld _ _ _).holdRole.setUse.setSby.beginTest)
      (.next (((((((((hs.holdRole.setUse.setFld _ _ _).setFld _ _ _).holdRole.setUse.update.routeHead.rgDisable.ifThen
      (·.applyPartial)).extend.setFld _ _ _).setFld _ _ _).setPlState.modifyPl.raise _ _).setFld _ _ _).setFld _ _ _).holdRole.setUse.setSby.stopDrain.placePair.ifThen
      (·.setSby)).updateSwitched))

theorem dropRole (hs : s.Canonical) : (Machine.dropRole s l).Canonical := by
  unfold Machine.dropRole
  split
  · exact hs
  · exact hs.stopDrain.ifElse (·.routeHead.rgDisable.holdRole.setUse.setReg _ _)

theorem matchRoles (hs : s.Canonical) : (Machine.matchRoles s u g).Canonical := by
  unfold Machine.matchRoles
  extract_lets
  split
  · exact .foldl (fun _ _ h1 => h1.dropRole) _ _ hs
  · exact .foldl (fun _ _ h4 => by split; exacts [h4, (routeHead
      (by split; exacts [h4.prepPair.streamRegion, h4.prepPair])).applyScoped.startWritten.setRoleState]) _ _ (foldl
      (fun _ _ h3 => h3.placeRole) _ _ (.foldl (fun _ _ h2 => h2.dropRole) _ _ hs)).refreshJoints

theorem applyShared (hs : s.Canonical) : (Machine.applyShared s u g).Canonical :=
  hs.routesTo.routeFlip.applyUnscoped.applyHeads.matchRoles

theorem ownerBlockFollows (hs : s.Canonical) : (Machine.ownerBlockFollows s g).Canonical :=
  .ite (.foldl (fun _ _ h1 => h1.loadKeeper) _ _ hs) hs

theorem routeTo {xs : List Nat} {k : Nat} (hs : s.Canonical) : (Machine.routeTo s xs k).Canonical :=
  .foldl (fun _ _ h1 => h1.setFld _ _ _) _ _ hs

theorem advanceKeeper (hs : s.Canonical) : (Machine.advanceKeeper s).Canonical := by
  unfold Machine.advanceKeeper
  split
  · exact hs
  · split
    · exact hs
    · exact .ite hs.routeTo.modifyUpdate (.ite (.ite hs
        (((hs.keeperStop.writeFirmware.keeperRun.routeTo.modifyUpdate.setFld _ _ _).setFld _ _ _).raise _ _)) (.ite
        (hs.setReg _ _).modifyUpdate hs))

theorem advanceKeepers (hs : s.Canonical) : (Machine.advanceKeepers s).Canonical :=
  .foldl (fun _ _ h1 => h1.advanceKeeper) _ _ hs

theorem beginKeepers (hs : s.Canonical) : (Machine.beginKeepers s).Canonical := hs.modifyUpdate.advanceKeepers

theorem advanceUpdate (hs : s.Canonical) : (Machine.advanceUpdate s u).Canonical := by
  unfold Machine.advanceUpdate
  refine .ite hs.advanceKeepers (advanceRoles ?_)
  split
  · exact .ite hs hs.matchRoles
  · exact hs

theorem prepIdle (hs : s.Canonical) : (Machine.prepIdle s u).Canonical :=
  .foldl (fun _ _ h1 => .ite h1 h1.prepPair) _ _ hs

theorem writeTrial {slot : Nat} (hs : s.Canonical) : (Machine.writeTrial s slot bs).Canonical :=
  hs.modifyAb.setDirEntry

theorem beginApply (hs : s.Canonical) : (Machine.beginApply s).Canonical := by
  unfold Machine.beginApply
  split
  · exact hs
  · exact .ite hs.modifyUpdate.advanceRoles (.ite hs.beginKeepers (.ite hs.writeTrial.abutmentDown (.ite
      hs.writeTrial.applyShared.modifyUpdate.advanceRoles (.ite hs.relayNext hs))))

theorem startWindow (hs : s.Canonical) : (Machine.startWindow s u).Canonical :=
  (hs.modifyUpdate.setCompState.setFld _ _ _).raise _ _

theorem finishApply (hs : s.Canonical) : (Machine.finishApply s u).Canonical :=
  .ite hs.prepIdle (.ite hs.prepIdle.ownerBlockFollows.modifyPl.modifyAb hs)

theorem execApplied (hs : s.Canonical) : NextCanonical (Machine.execApplied s) := by
  unfold Machine.execApplied
  split
  · exact .next hs
  · exact .ite (.next hs) (.next (hs.advanceUpdate.ifThen (·.finishApply.startWindow)))

theorem confirmSlot {base : Nat} (hs : s.Canonical) : (Machine.confirmSlot s base).Canonical :=
  .foldl (fun _ _ h1 => .ite h1.setSlotMark (.ite h1.setSlotMark h1)) _ _ hs

theorem confirm (hs : s.Canonical) : (Machine.confirm s u).Canonical := by
  unfold Machine.confirm
  refine (((extend ?_).raise _ _).ifThen (·.raiseHeadUpdate)).endUpdate
  split
  · exact (hs.addOutcome.writeGeneration.branch (·.confirmSlot) (fun h1 => .ite (h1.confirmSlot.setFld _ _ _)
      h1)).advanceCounter
  · exact hs.addOutcome.writeGeneration.branch (·.confirmSlot) (fun h2 => .ite (h2.confirmSlot.setFld _ _ _) h2)

theorem execUpdConfirmed (hs : s.Canonical) : NextCanonical (Machine.execUpdConfirmed s) := by
  unfold Machine.execUpdConfirmed
  split
  · exact .next hs
  · exact .ite (.next hs.confirm) (.next hs)

theorem finishRevert (hs : s.Canonical) : (Machine.finishRevert s u).Canonical := by
  unfold Machine.finishRevert
  refine (((ite hs ?_).ifThen (·.prepIdle)).addOutcome.endUpdate.setFld _ _ _).raise _ _
  extract_lets
  split
  · exact .ite hs.setSlotMark hs
  · exact (ite hs.setSlotMark hs).prepIdle.ownerBlockFollows.modifyPl.modifyAb

theorem startRevert {reason : Nat} (hs : s.Canonical) : (Machine.startRevert s u reason).Canonical := by
  unfold Machine.startRevert
  refine .ite hs.modifyUpdate.setCompState.failHeadUpdate (.ite hs.modifyUpdate.setCompState.beginKeepers (.ite
    (hs.modifyUpdate.setCompState.branch (·.abutmentDown) (·.finishRevert)) (modifyUpdate ?_).advanceRoles))
  split
  · exact hs.modifyUpdate.setCompState.applyShared
  · exact hs.modifyUpdate.setCompState

theorem execUpdateReverted {reason : Fin 7} (hs : s.Canonical) :
    NextCanonical (Machine.execUpdateReverted reason s) := by
  unfold Machine.execUpdateReverted
  refine .ite (.next hs) ?_
  split
  · split
    · exact .ite (.next ((hs.modifyUp.addOutcome.setCompState.setFld _ _ _).raise _ _)) (.next hs)
    · exact .next hs
  · exact .ite (.next (hs.advanceUpdate.ifThen (·.finishRevert))) (.next (.ite hs.startRevert hs))

/-! ## Updates -/

theorem refuseOp {c status : Nat} {body : optParam (List Byte) []} (hs : s.Canonical) :
    (Machine.refuseOp s c status body).2.2.Canonical :=
  hs.raiseRefused

theorem setLease {l : Lease} (hs : s.Canonical) : (Machine.setLease s l).Canonical := hs.modifyUp

theorem execUpdStart (hs : s.Canonical) : NextCanonical (Machine.execUpdStart r body s) :=
  .next (hs.runCommand (fun _ _ h1 => .iteSnd2 h1 (.iteSnd2 h1 (.iteSnd2 h1.refuseOp (.iteSnd2 h1.refuseOp (.iteSnd2
    h1.refuseOp (((h1.draw.modifyUp.setCompState.setFld _ _ _).setFld _ _ _).setFld _ _ _).raiseLease))))) (fun _ _ _
    h2 => h2))

theorem execUpdBlock (hs : s.Canonical) : NextCanonical (Machine.execUpdBlock r body s) :=
  .next (hs.runCommand (fun _ _ h1 => by split; exacts [h1.refuseOp, .iteSnd2 h1.setLease (.iteSnd2 h1.setLease
    (.iteSnd2 h1.setLease.refuseOp (.iteSnd2 h1.setLease.refuseOp
    (h1.setLease.setLease.setCompState.setFld _ _ _))))]) (fun _ _ _ h2 => h2))

theorem execUpdStatus (hs : s.Canonical) : NextCanonical (Machine.execUpdStatus r body s) :=
  .next (hs.runCommand (fun _ _ h1 => .iteSnd2 h1 (.iteSnd2 h1
    (by extract_lets; split; exacts [h1, .ite h1.setLease h1]))) (fun _ _ _ h2 => h2))

theorem execUpdAbort (hs : s.Canonical) : NextCanonical (Machine.execUpdAbort r body s) :=
  .next (hs.runCommand (fun _ _ h1 => .iteSnd2 h1 (by split; exacts [h1.refuseOp, .iteSnd2 h1 h1.endLease]))
    (fun _ _ _ h2 => h2))

theorem execLeaseExpiry {comp : Fin 32} (hs : s.Canonical) : NextCanonical (Machine.execLeaseExpiry comp s) := by
  unfold Machine.execLeaseExpiry
  split
  · exact .next hs
  · exact .next (.ite hs.endLease hs)

theorem execUpdPlan (hs : s.Canonical) : NextCanonical (Machine.execUpdPlan r body s) :=
  .next (hs.runCommand (fun _ _ h1 => .iteSnd2 h1 (.iteSnd2 h1 (by split; exacts [h1.modifyUp, h1.refuseOp])))
    (fun _ _ _ h2 => h2))

theorem showLoad {l : Lease} (hs : s.Canonical) : (Machine.showLoad s l).Canonical := by
  unfold Machine.showLoad
  refine .ite hs ?_
  split
  · exact hs.loadResult
  · exact .ite hs.loadResult hs

theorem commitLease {k : Fin 16} {l : Lease} (hs : s.Canonical) : (Machine.commitLease s k l).Canonical := by
  unfold Machine.commitLease
  refine .branch (hs.modifyUp.raise _ _) (fun h => ?_)
    (fun h => (((h.modifyUp.setCompState.setFld _ _ _).setFld _ _ _).setFld _ _ _))
  split
  · exact (h.execPartialImageLoad _ ‹_›).endLease
  · exact h

theorem execUpdCommit (hs : s.Canonical) : NextCanonical (Machine.execUpdCommit r body s) :=
  .next (hs.runCommand (fun _ _ h1 => .iteSnd2 h1
    (by split; exacts [h1.refuseOp, .iteSnd2 h1.setLease
          (by split; exacts [((h1.setLease.ifThen (·.setCompState)).ifThen (·.showLoad)).refuseOp,
                h1.setLease.showLoad.commitLease])])) (fun _ _ _ h4 => .ite h4.beginApply h4))

theorem execUpdRevert (hs : s.Canonical) : NextCanonical (Machine.execUpdRevert r body s) :=
  .next (hs.runCommand (fun _ _ h1 => .iteSnd2 h1 (.iteSnd2 h1 (.iteSnd2 h1.refuseOp h1))) (fun _ _ _ h2 => .ite h2
    (by split; exacts [h2.startRevert, h2])))

end Sys2Proof.Machine.State.Canonical
end

