-- ==== Sys2Proof/Proofs/CanonicalStep.lean ====
section
/-!
PROOFS. Every instruction, and so every step, keeps the stores canonical.
-/

namespace Sys2Proof.Machine

namespace State.Canonical

/-- Each instruction has its lemma. -/
theorem exec {s : State} (hs : s.Canonical) (i : Instr) : NextCanonical (Machine.exec i s) := by
  unfold Machine.exec
  cases i with
  | registerWrite => exact hs.execRegisterWrite
  | aliasAccess => exact hs.execAliasAccess
  | nanoWordIssue => exact hs.execNanoWordIssue
  | globalOrResult => exact hs.execGlobalOrResult
  | gaugeResult => exact hs.execGaugeResult
  | spanReset => exact hs.execSpanReset
  | initSweepDone => exact hs.execInitSweepDone
  | spareMapWrite => exact hs.execSpareMapWrite
  | paritySweepDone => exact hs.execParitySweepDone
  | jointBreach => exact hs.execJointBreach
  | jointFlagClear => exact hs.execJointFlagClear
  | operationStart => exact hs.execOperationStart
  | msWaitLong => exact hs.execMsWaitLong
  | bundleExecute => exact hs.execBundleExecute
  | aluResultReady => exact hs.execAluResultReady
  | interruptEntry => exact hs.execInterruptEntry
  | lineSync => exact hs.execLineSync
  | tokenReached => exact hs.execTokenReached
  | snapshotEntry => exact hs.execSnapshotEntry
  | checkpointCopyDone => exact hs.execCheckpointCopyDone
  | stopDrain => exact hs.execStopDrain
  | drainComplete => exact hs.execDrainComplete
  | stopNow => exact hs.execStopNow
  | spanStart => exact hs.execSpanStart
  | spcWatchdog => exact hs.execSpcWatchdog
  | checkpointRestore => exact hs.execCheckpointRestore
  | restoreDone => exact hs.execRestoreDone
  | cwMessageArrive => exact hs.execCwMessageArrive
  | trainWordReceive => exact hs.execTrainWordReceive
  | alignReceive => exact hs.execAlignReceive
  | linkUp => exact hs.execLinkUp
  | laneLockLoss => exact hs.execLaneLockLoss
  | trainingTimeout => exact hs.execTrainingTimeout
  | trainingRetry => exact hs.execTrainingRetry
  | startWord => exact hs.execStartWord
  | packetBlock => exact hs.execPacketBlock
  | termWord => exact hs.execTermWord
  | badCtrl => exact hs.execBadCtrl
  | packetTimeout => exact hs.execPacketTimeout
  | hpCcGo => exact hs.execHpCcGo
  | ccMessageReceive => exact hs.execCcMessageReceive
  | ccRetryTimeout => exact hs.execCcRetryTimeout
  | headInsertion => exact hs.execHeadInsertion
  | headRemoval => exact hs.execHeadRemoval
  | headFault => exact hs.execHeadFault
  | powerWaitEnd => exact hs.execPowerWaitEnd
  | descriptorReadDone => exact hs.execDescriptorReadDone
  | descriptorVerified => exact hs.execDescriptorVerified
  | hpRetrain => exact hs.execHpRetrain
  | hpRelease => exact hs.execHpRelease
  | releaseTimeout => exact hs.execReleaseTimeout
  | hpReleased => exact hs.execHpReleased
  | hpAttach => exact hs.execHpAttach
  | portEnable => exact hs.execPortEnable
  | portDisable => exact hs.execPortDisable
  | rgSrcWrite => exact hs.execRgSrcWrite
  | sourceSwitch => exact hs.execSourceSwitch
  | wordCellCycle => exact hs.execWordCellCycle
  | frameWordWrite => exact hs.execFrameWordWrite
  | rgUnseal => exact hs.execRgUnseal
  | rgDisable => exact hs.execRgDisable
  | rgEnable => exact hs.execRgEnable
  | regionDrainEnd => exact hs.execRegionDrainEnd
  | configScrub => exact hs.execConfigScrub
  | transposerBeat => exact hs.execTransposerBeat
  | planeSend => exact hs.execPlaneSend
  | replayGo => exact hs.execReplayGo
  | replayLineCopied => exact hs.execReplayLineCopied
  | historyLineWrite => exact hs.execHistoryLineWrite
  | historyWriteDone => exact hs.execHistoryWriteDone
  | extractorScan => exact hs.execExtractorScan
  | mergerSend => exact hs.execMergerSend
  | runIntake => exact hs.execRunIntake
  | domainLine => exact hs.execDomainLine
  | floodHold => exact hs.execFloodHold
  | stampReceive => exact hs.execStampReceive
  | lineLossReport => exact hs.execLineLossReport
  | spanStopNotice => exact hs.execSpanStopNotice
  | takeoverNotice => exact hs.execTakeoverNotice
  | serviceStopNotice => exact hs.execServiceStopNotice
  | headGoneNotice => exact hs.execHeadGoneNotice
  | spanRunningNotice => exact hs.execSpanRunningNotice
  | recordEmit => exact hs.execRecordEmit
  | ledgerTake => exact hs.execLedgerTake
  | ledgerWriteDone => exact hs.execLedgerWriteDone
  | ledgerEnable => exact hs.execLedgerEnable
  | indexClearDone => exact hs.execIndexClearDone
  | segmentGo => exact hs.execSegmentGo
  | repeatSearch => exact hs.execRepeatSearch
  | sideEntryRead => exact hs.execSideEntryRead
  | chainWrite => exact hs.execChainWrite
  | cropRequest => exact hs.execCropRequest
  | cropRowRead => exact hs.execCropRowRead
  | cropTimeout => exact hs.execCropTimeout
  | cropStoreWrite => exact hs.execCropStoreWrite
  | encoderCount => exact hs.execEncoderCount
  | illegal => exact hs.execIllegal
  | encoderStall => exact hs.execEncoderStall
  | zEdge => exact hs.execZEdge
  | internalCount => exact hs.execInternalCount
  | tgStart => exact hs.execTgStart
  | tgStop => exact hs.execTgStop
  | lineTrigger => exact hs.execLineTrigger
  | delayedTrigger => exact hs.execDelayedTrigger
  | markingMessage => exact hs.execMarkingMessage
  | actionFire => exact hs.execActionFire
  | gateEnd => exact hs.execGateEnd
  | flush => exact hs.execFlush
  | asPost => exact hs.execAsPost
  | epochWrite => exact hs.execEpochWrite
  | sync => exact hs.execSync
  | announce => exact hs.execAnnounce
  | delayReq => exact hs.execDelayReq
  | pps => exact hs.execPps
  | strandTimeSend => exact hs.execStrandTimeSend
  | strandTimeMessage => exact hs.execStrandTimeMessage
  | strandLineMessage => exact hs.execStrandLineMessage
  | followerFire => exact hs.execFollowerFire
  | strandRedMessage => exact hs.execStrandRedMessage
  | haloMessage => exact hs.execHaloMessage
  | strandLaneLoss => exact hs.execStrandLaneLoss
  | causewayDelivery => exact hs.execCausewayDelivery
  | class0Release => exact hs.execClass0Release
  | isolate => exact hs.execIsolate
  | drainCut => exact hs.execDrainCut
  | endpointIsolated => exact hs.execEndpointIsolated
  | release => exact hs.execRelease
  | flip => exact hs.execFlip
  | epochDrained => exact hs.execEpochDrained
  | pierAccess => exact hs.execPierAccess
  | ddr5Access => exact hs.execDdr5Access
  | ddr5Refresh => exact hs.execDdr5Refresh
  | mr4Read => exact hs.execMr4Read
  | ddr5TrainingDone => exact hs.execDdr5TrainingDone
  | zqCalibration => exact hs.execZqCalibration
  | patrolScrub => exact hs.execPatrolScrub
  | rowSpareDone => exact hs.execRowSpareDone
  | hubTempRead => exact hs.execHubTempRead
  | eventRaise => exact hs.execEventRaise
  | abutmentTarget => exact hs.execAbutmentTarget
  | keeperDispatch => exact hs.execKeeperDispatch
  | kpC0Long => exact hs.execKpC0Long
  | keeperRun => exact hs.execKeeperRun
  | keeperStop => exact hs.execKeeperStop
  | keeperLoad => exact hs.execKeeperLoad
  | keeperStore => exact hs.execKeeperStore
  | loadIndex => exact hs.execLoadIndex
  | storeIndex => exact hs.execStoreIndex
  | lea => exact hs.execLea
  | add => exact hs.execAdd
  | adc => exact hs.execAdc
  | sub => exact hs.execSub
  | sbc => exact hs.execSbc
  | keeperLogic => exact hs.execKeeperLogic
  | cmp => exact hs.execCmp
  | keeperMultiply => exact hs.execKeeperMultiply
  | keeperDivide => exact hs.execKeeperDivide
  | ldi => exact hs.execLdi
  | lui => exact hs.execLui
  | orl => exact hs.execOrl
  | loadIndexImmediate => exact hs.execLoadIndexImmediate
  | addIndexImmediate => exact hs.execAddIndexImmediate
  | copy => exact hs.execCopy
  | putf => exact hs.execPutf
  | getf => exact hs.execGetf
  | keeperShift => exact hs.execKeeperShift
  | keeperShiftX => exact hs.execKeeperShiftX
  | neg => exact hs.execNeg
  | not => exact hs.execNot
  | br => exact hs.execBr
  | jmp => exact hs.execJmp
  | call => exact hs.execCall
  | ret => exact hs.execRet
  | reti => exact hs.execReti
  | wait => exact hs.execWait
  | pushm => exact hs.execPushm
  | popm => exact hs.execPopm
  | nop => exact hs.execNop
  | keeperIllegal => exact hs.execKeeperIllegal
  | ehRaise => exact hs.execEhRaise
  | pendClear => exact hs.execPendClear
  | ehSrcWrite => exact hs.execEhSrcWrite
  | ownerBlockReplace => exact hs.execOwnerBlockReplace
  | wholeImageLoad => exact hs.execWholeImageLoad
  | partialImageLoad => exact hs.execPartialImageLoad
  | changeReady => exact hs.execChangeReady
  | changeGo => exact hs.execChangeGo
  | changeSwitch => exact hs.execChangeSwitch
  | changeAbort => exact hs.execChangeAbort
  | takeoverGo => exact hs.execTakeoverGo
  | takeoverRestored => exact hs.execTakeoverRestored
  | takeoverCopy => exact hs.execTakeoverCopy
  | takeoverSwitch => exact hs.execTakeoverSwitch
  | takeoverDone => exact hs.execTakeoverDone
  | pairTest => exact hs.execPairTest
  | pairTestDone => exact hs.execPairTestDone
  | autoResume => exact hs.execAutoResume
  | romDone => exact hs.execRomDone
  | firmwareLinkUp => exact hs.execFirmwareLinkUp
  | memorySealed => exact hs.execMemorySealed
  | groupStart => exact hs.execGroupStart
  | abutmentWatchdog => exact hs.execAbutmentWatchdog
  | abutRestart => exact hs.execAbutRestart
  | signatureDone => exact hs.execSignatureDone
  | debugExpiry => exact hs.execDebugExpiry
  | ucieRetry => exact hs.execUcieRetry
  | ucieDown => exact hs.execUcieDown
  | version => exact hs.execVersion
  | ident => exact hs.execIdent
  | mbQuote => exact hs.execMbQuote
  | random => exact hs.execRandom
  | notify => exact hs.execNotify
  | mbDone => exact hs.execMbDone
  | frameReceive => exact hs.execFrameReceive
  | arp => exact hs.execArp
  | icmpEcho => exact hs.execIcmpEcho
  | lpLink => exact hs.execLpLink
  | fallbackRateSwitch => exact hs.execFallbackRateSwitch
  | hello => exact hs.execHello
  | ping => exact hs.execPing
  | close => exact hs.execClose
  | quote => exact hs.execQuote
  | log => exact hs.execLog
  | cert => exact hs.execCert
  | read => exact hs.execRead
  | write => exact hs.execWrite
  | writeMask => exact hs.execWriteMask
  | subscribe => exact hs.execSubscribe
  | unsubscribe => exact hs.execUnsubscribe
  | dbgChallenge => exact hs.execDbgChallenge
  | dbgToken => exact hs.execDbgToken
  | dbgClose => exact hs.execDbgClose
  | setFloor => exact hs.execSetFloor
  | ownerRelease => exact hs.execOwnerRelease
  | enrol => exact hs.execEnrol
  | sessionIdle => exact hs.execSessionIdle
  | credentialExpiryCheck => exact hs.execCredentialExpiryCheck
  | streamEntry => exact hs.execStreamEntry
  | recordsSend => exact hs.execRecordsSend
  | recAck => exact hs.execRecAck
  | streamResend => exact hs.execStreamResend
  | cropChunkSend => exact hs.execCropChunkSend
  | cropAck => exact hs.execCropAck
  | cropAbandoned => exact hs.execCropAbandoned
  | notifySend => exact hs.execNotifySend
  | notifyAck => exact hs.execNotifyAck
  | updStart => exact hs.execUpdStart
  | updBlock => exact hs.execUpdBlock
  | updStatus => exact hs.execUpdStatus
  | updCommit => exact hs.execUpdCommit
  | updAbort => exact hs.execUpdAbort
  | updRevert => exact hs.execUpdRevert
  | updPlan => exact hs.execUpdPlan
  | leaseExpiry => exact hs.execLeaseExpiry
  | applied => exact hs.execApplied
  | updConfirmed => exact hs.execUpdConfirmed
  | updateReverted => exact hs.execUpdateReverted
  | spanHealth => exact hs.execSpanHealth
  | devTemp => exact hs.execDevTemp
  | diagnosisStart => exact hs.execDiagnosisStart
  | fhDiag => exact hs.execFhDiag
  | linkDegrade => exact hs.execLinkDegrade
  | wearTick => exact hs.execWearTick
  | wearRecordWrite => exact hs.execWearRecordWrite
  | wearWarn => exact hs.execWearWarn
  | arm => exact hs.execArm
  | stop => exact hs.execStop
  | porstAssert => exact execPorstAssert
  | porstRelease => exact hs.execPorstRelease
  | refclkGlitch => exact hs.execRefclkGlitch
  | refclkLoss => exact execRefclkLoss
  | thermtrip => exact execThermtrip
  | powerLoss => exact execPowerLoss
  | strandLinkUp => exact hs.execStrandLinkUp
  | ucieLinkUp => exact hs.execUcieLinkUp
  | ucieTrainingFailure => exact hs.execUcieTrainingFailure
  | actuatorPulseEnd => exact hs.execActuatorPulseEnd

end State.Canonical

/-- Settles O60: the front command keeps the forms (`State.Canonical.exec`), and so does time going on. -/
theorem stepKeepsCanonicalForms : Obligations.StepKeepsCanonicalForms := by
  intro s t hs ht
  obtain ⟨-, rfl⟩ | ⟨c, rest, -, hc⟩ := step_cases ht
  · exact hs.tick
  · exact State.Canonical.exec hs.update c t hc

end Sys2Proof.Machine
end

