-- ==== Sys2Proof/Proofs/PlacementFrame.lean ====
section
/-!
PROOFS. The frame of the placement (R359-R361): which commands of the spans, the regions and the islands leave the
registers of the roles, the pairs and the endpoint tags as they were, with the events raised so far.
-/

namespace Sys2Proof.Machine

/-- A register of the placement unit, or an endpoint's tag. -/
def PlacementReg (a : Nat) : Prop := 0x4900100000 ≤ a ∨ 0x4500020000 ≤ a ∧ a < 0x4600000000

/-- The registers in which a pair's role and tags stand. -/
def pairRegs (n : Nat) : List Nat := [Reg.PL_PHYS n, Reg.CW_EP_TAG n, Reg.CW_EP_TAG (17 + n)]

/-- What a command leaves of the placement that is not its own: the registers outside `l`, a pair's test, the change, the
update and the events raised so far. -/
structure KeepsPlacement (l : List Nat) (s t : State) : Prop where
  reg : ∀ a, PlacementReg a → a ∉ l → t.reg a = s.reg a
  test : t.pl.test = s.pl.test
  change : t.pl.change = s.pl.change
  up : t.up = s.up
  raised : ∃ es, Raised s t es

namespace KeepsPlacement

variable {l k : List Nat} {s t u : State}

/-! ## Updates of the state -/

theorem refl (l : List Nat) (s : State) : KeepsPlacement l s s := ⟨fun _ _ _ => rfl, rfl, rfl, rfl, [], .refl s⟩

theorem mono (h : KeepsPlacement l s t) (hlk : ∀ a ∈ l, a ∈ k) : KeepsPlacement k s t :=
  ⟨fun a ha hk => h.reg a ha (fun hl => hk (hlk a hl)), h.test, h.change, h.up, h.raised⟩

theorem of_eq (h : KeepsPlacement l s t) (hregs : u.regs = t.regs) (htest : u.pl.test = t.pl.test)
    (hchange : u.pl.change = t.pl.change) (hup : u.up = t.up)
    (hraises : u.raises = t.raises) : KeepsPlacement l s u := by
  obtain ⟨es, hes⟩ := h.raised
  refine ⟨fun a ha hl => ?_, htest.trans h.test, hchange.trans h.change, hup.trans h.up, es, ?_⟩
  · rw [State.reg, hregs]
    exact h.reg a ha hl
  · rw [Raised, hraises]
    exact hes

theorem setReg_of (h : KeepsPlacement l s t) {a : Nat} (w : BitVec 32) (ha : PlacementReg a → a ∈ l) :
    KeepsPlacement l s (t.setReg a w) := by
  refine ⟨fun b hb hl => ?_, h.test, h.change, h.up, h.raised⟩
  rw [State.setReg_reg_ne]
  · exact h.reg b hb hl
  · rintro rfl
    exact hl (ha hb)

/-- A write of a register that the frame leaves free. -/
theorem setFld_of_mem (h : KeepsPlacement l s t) {a : Nat} (f : Fld) (v : Nat) (ha : a ∈ l) :
    KeepsPlacement l s (t.setFld a f v) := h.setReg_of _ (fun _ => ha)

/-- A write of a register of another unit. -/
theorem setReg (h : KeepsPlacement l s t) (a : Nat) (w : BitVec 32)
    (ha : ¬PlacementReg a := by simp only [PlacementReg, Reg.RG_SRC]; omega) : KeepsPlacement l s (t.setReg a w) :=
  h.setReg_of w (fun hp => absurd hp ha)

theorem setFld (h : KeepsPlacement l s t) (a : Nat) (f : Fld) (v : Nat)
    (ha : ¬PlacementReg a := by
      simp only [PlacementReg, Reg.SPC_STAT, Reg.SPC_CTL, Reg.SPC_DISCARD, Reg.MS_STAT, Reg.RX_ABORT, Reg.ARR_PAR_STAT,
        Reg.ARR_PAR_COUNT, Reg.ARR_COUPLE, Reg.ARR_JOINT_STAT, Reg.CKPT_CTL, Reg.CKPT_REST, Reg.LB_STAT, Reg.RG_CTL,
        Reg.RG_STAT, Reg.HP_CTL, Reg.DC_ISLAND]
      omega) : KeepsPlacement l s (t.setFld a f v) :=
  h.setReg a _ ha

theorem bump (h : KeepsPlacement l s t) (a : Nat) (f : Fld) (n : Nat)
    (ha : ¬PlacementReg a := by
      simp only [PlacementReg, Reg.SPC_DISCARD, Reg.RX_ABORT, Reg.ARR_PAR_COUNT]
      omega) : KeepsPlacement l s (t.bump a f n) :=
  h.setFld a f _ ha

theorem raise (h : KeepsPlacement l s t) (src : Nat) (pay : BitVec 32) : KeepsPlacement l s (t.raise src pay) := by
  obtain ⟨es, hes⟩ := h.raised
  exact ⟨h.reg, h.test, h.change, h.up, _, hes.trans (.raise t src pay)⟩

theorem setArray (h : KeepsPlacement l s t) (n : Fin 17) (x : SpanArray) : KeepsPlacement l s (t.setArray n x) :=
  h.of_eq rfl rfl rfl rfl rfl

theorem setMicro (h : KeepsPlacement l s t) (n : Fin 17) (x : MicroSeq) : KeepsPlacement l s (t.setMicro n x) :=
  h.of_eq rfl rfl rfl rfl rfl

theorem setCtl (h : KeepsPlacement l s t) (n : Fin 17) (x : SpanCtl) : KeepsPlacement l s (t.setCtl n x) :=
  h.of_eq rfl rfl rfl rfl rfl

theorem setExt (h : KeepsPlacement l s t) (n : Fin 17) (x : Extraction) : KeepsPlacement l s (t.setExt n x) :=
  h.of_eq rfl rfl rfl rfl rfl

theorem setHead (h : KeepsPlacement l s t) (n : Fin 16) (x : HeadPort) : KeepsPlacement l s (t.setHead n x) :=
  h.of_eq rfl rfl rfl rfl rfl

theorem setRegion (h : KeepsPlacement l s t) (m : Fin 17) (x : Region) : KeepsPlacement l s (t.setRegion m x) :=
  h.of_eq rfl rfl rfl rfl rfl

theorem writeLE (h : KeepsPlacement l s t) (a n v : Nat) : KeepsPlacement l s (t.writeLE a n v) :=
  h.of_eq rfl rfl rfl rfl rfl

theorem ite {c : Prop} {_ : Decidable c} (ht : KeepsPlacement l s t) (hu : KeepsPlacement l s u) :
    KeepsPlacement l s (if c then t else u) := by
  split <;> assumption

theorem foldl {α : Type} {f : State → α → State} {xs : List α} (h : KeepsPlacement l s t)
    (hf : ∀ t, ∀ x ∈ xs, KeepsPlacement l s t → KeepsPlacement l s (f t x)) : KeepsPlacement l s (xs.foldl f t) :=
  List.foldlRecOn xs f h (fun t ht x hx => hf t x hx ht)

/-! ## Regions and their lines -/

theorem showSlots (h : KeepsPlacement l s t) (n : Fin 17) : KeepsPlacement l s (Machine.showSlots t n) :=
  ((h.setFld _ _ _).setFld _ _ _).setFld _ _ _

theorem consumeEntries (h : KeepsPlacement l s t) (m : Fin 17) (n : Nat) :
    KeepsPlacement l s (Machine.consumeEntries t m n) :=
  ((h.foldl (fun _ _ _ h => h.writeLE _ _ _)).setRegion _ _).showSlots m

theorem nameLine (h : KeepsPlacement l s t) (n : Fin 17) (ord : Nat) (g : GroupLine) :
    KeepsPlacement l s (Machine.nameLine t n ord g) :=
  (h.foldl (fun _ _ _ h => (h.setExt _ _).setCtl _ _)).setCtl _ _

theorem refreshServed (h : KeepsPlacement l s t) (fuel : Nat) (n : Fin 17) :
    KeepsPlacement l s (Machine.refreshServed fuel t n) := by
  induction fuel generalizing t with
  | zero => exact h
  | succ fuel ih =>
    unfold Machine.refreshServed
    refine .ite h ?_
    extract_lets ms
    split
    · exact h
    · extract_lets taken named
      have hnamed : KeepsPlacement l s named := (h.foldl (fun _ m _ h => h.consumeEntries m _)).nameLine _ _ _
      exact .ite (hnamed.setCtl _ _) (ih ((hnamed.foldl (fun _ m _ h => h.consumeEntries m 1)).setCtl _ _))

theorem enterOrder (h : KeepsPlacement l s t) (m : Fin 17) (e : LineEntry) :
    KeepsPlacement l s (Machine.enterOrder t m e) := (h.setRegion _ _).refreshServed _ _

theorem flushMarkers (h : KeepsPlacement l s t) (fuel : Nat) (m : Fin 17) :
    KeepsPlacement l s (Machine.flushMarkers fuel t m) := by
  induction fuel generalizing t with
  | zero => exact h
  | succ fuel ih =>
    unfold Machine.flushMarkers
    dsimp only
    split
    · exact h
    · exact .ite h (ih ((h.setRegion _ _).enterOrder _ _))

theorem routeHead (h : KeepsPlacement l s t) (m : Fin 17) (port : Option (Fin 16)) :
    KeepsPlacement l s (Machine.routeHead t m port) :=
  (ite (h.setReg _ _) ((h.setReg _ _).setRegion _ _)).flushMarkers _ _

theorem rgEnter (h : KeepsPlacement l s t) (m : Fin 17) (st : Nat) : KeepsPlacement l s (Machine.rgEnter t m st) := by
  unfold Machine.rgEnter
  extract_lets c stat ended ctl r entered
  have hstat : KeepsPlacement l s stat := h.setFld _ _ _
  have hc : ¬PlacementReg c := by simp only [c, PlacementReg, Reg.RG_CTL]; omega
  have hended : KeepsPlacement l s ended := .ite (hstat.setFld _ _ _ hc) (.ite (hstat.setFld _ _ _ hc) hstat)
  have hctl : KeepsPlacement l s ctl := .ite hended (hended.setFld _ _ _ hc)
  refine raise ?_ _ _
  unfold entered
  split
  · exact .ite hctl (hctl.setRegion _ _)
  · exact hctl

theorem rgDisable (h : KeepsPlacement l s t) (m : Fin 17) : KeepsPlacement l s (Machine.rgDisable t m) :=
  .ite ((h.setFld _ _ _).rgEnter _ _) h

/-! ## Spans -/

theorem parityReport (h : KeepsPlacement l s t) (m : Fin 17) (row : Nat) (groups : List Nat) (onWrite : Bool) :
    KeepsPlacement l s (Machine.parityReport t m row groups onWrite) := by
  unfold Machine.parityReport
  split
  · exact h
  · extract_lets a counted shown
    have hcounted : KeepsPlacement l s counted := h.bump _ _ _
    have ha : ¬PlacementReg a := by simp only [a, PlacementReg, Reg.ARR_PAR_STAT]; omega
    have hshown : KeepsPlacement l s shown := .ite (hcounted.setFld _ _ _ ha)
      (((((hcounted.setFld _ _ _ ha).setFld _ _ _ ha).setFld _ _ _ ha).setFld _ _ _ ha).setFld _ _ _ ha)
    exact hshown.raise _ _

theorem snapRowRead (h : KeepsPlacement l s t) (n : Fin 17) : KeepsPlacement l s (Machine.snapRowRead t n) := by
  unfold Machine.snapRowRead
  split
  · exact h
  · refine .ite h (setCtl ?_ _ _)
    exact List.foldlRecOn (motive := fun x : List (BitVec 16384) × State => KeepsPlacement l s x.2) _ _ h
      (fun _ hx m _ => hx.parityReport m _ _ _)

theorem readRest (h : KeepsPlacement l s t) (n : Fin 17) (k : Nat) : KeepsPlacement l s (Machine.readRest n k t) := by
  induction k generalizing t with
  | zero => exact h
  | succ k ih => exact ih (h.snapRowRead n)

theorem traceMark (h : KeepsPlacement l s t) (n : Fin 17) (bit : Nat) :
    KeepsPlacement l s (Machine.traceMark t n bit) := by
  unfold Machine.traceMark
  split
  · exact h
  · exact h.writeLE _ _ _

theorem drawPlane (h : KeepsPlacement l s t) : KeepsPlacement l s (Machine.drawPlane t).2 := h.of_eq rfl rfl rfl rfl rfl

theorem undefineRow (h : KeepsPlacement l s t) (m : Fin 17) (row : Nat) (gated : Bool) :
    KeepsPlacement l s (Machine.undefineRow t m row gated) := h.of_eq rfl rfl rfl rfl rfl

theorem undefineRegs (h : KeepsPlacement l s t) (m : Fin 17) (mToo : Bool) :
    KeepsPlacement l s (Machine.undefineRegs t m mToo) := by
  cases mToo <;> exact h.of_eq rfl rfl rfl rfl rfl

theorem abortOp (h : KeepsPlacement l s t) (n : Fin 17) : KeepsPlacement l s (Machine.abortOp t n) := by
  unfold Machine.abortOp
  split
  · exact h.setFld _ _ _
  · extract_lets a marked shown r rows mToo gated undefined st ended
    have ha : ¬PlacementReg a := by simp only [a, PlacementReg, Reg.SPC_STAT]; omega
    have hst : ¬PlacementReg st := by simp only [st, PlacementReg, Reg.MS_STAT]; omega
    have hshown : KeepsPlacement l s shown :=
      (((h.traceMark n 59).setFld _ _ _ ha).setFld _ _ _ ha).setFld _ _ _ ha
    have hundefined : KeepsPlacement l s undefined :=
      hshown.foldl (fun _ m _ h => (h.foldl (fun _ row _ h => h.undefineRow m row _)).undefineRegs m _)
    have hended : KeepsPlacement l s ended :=
      (((hundefined.setFld _ _ _ hst).setFld _ _ _ hst).setFld _ _ _ hst).setFld _ _ _ hst
    exact hended.setMicro _ _

theorem abortSets (h : KeepsPlacement l s t) (n : Fin 17) : KeepsPlacement l s (Machine.abortSets t n) :=
  .ite h ((h.foldl (fun _ _ _ h => (h.setExt _ _).bump _ _ _)).setCtl _ _)

theorem showStop (h : KeepsPlacement l s t) (n : Fin 17) (st cause stop : Nat) :
    KeepsPlacement l s (Machine.showStop t n st cause stop) :=
  h.foldl (fun _ m hm h => by
    obtain ⟨k, -, rfl⟩ : ∃ k ∈ n :: domainOf t n, k.val = m := by
      simpa only [List.bind_eq_flatMap, List.pure_def, List.mem_flatMap, List.mem_singleton, eq_comm] using hm
    exact ((h.setFld _ _ _).setFld _ _ _).setFld _ _ _)

theorem stopDrain (h : KeepsPlacement l s t) (n : Fin 17) : KeepsPlacement l s (Machine.stopDrain t n) :=
  .ite h (.ite ((h.showStop _ _ _ _).setCtl _ _) (h.showStop _ _ _ _))

/-- A span that stops may leave the standby READY. -/
theorem becomeStopped (h : KeepsPlacement l s t) (n : Fin 17) (cause stop : Nat) (hl : Reg.PL_STAT ∈ l) :
    KeepsPlacement l s (Machine.becomeStopped t n cause stop) := by
  have hstop := (h.showStop n 3 cause stop).raise (16 * (lead (Machine.showStop t n 3 cause stop) n).val + 0) 0
  exact .ite ((hstop.setFld_of_mem _ _ hl).raise _ _) hstop

theorem stopNow (h : KeepsPlacement l s t) (n : Fin 17) (cause : Nat) (hl : Reg.PL_STAT ∈ l) :
    KeepsPlacement l s (Machine.stopNow t n cause) := by
  unfold Machine.stopNow
  refine .ite h ?_
  extract_lets aborted c counted ep cw dropped cleared
  have haborted : KeepsPlacement l s aborted := ((h.readRest n 64).abortOp n).abortSets n
  have hcounted : KeepsPlacement l s counted := haborted.bump _ _ _
  clear_value counted
  have hdropped : KeepsPlacement l s dropped := by
    unfold dropped
    split
    · exact hcounted
    · exact hcounted.of_eq rfl rfl rfl rfl rfl
  have hcleared : KeepsPlacement l s cleared := hdropped.setCtl _ _
  clear_value cleared
  exact .ite (hcleared.showStop _ _ _ _) (hcleared.becomeStopped _ _ _ hl)

/-! ## Pairs -/

theorem refreshJoints (h : KeepsPlacement l s t) : KeepsPlacement l s (Machine.refreshJoints t) :=
  h.foldl (fun _ j hj h => by
    have := List.mem_range.1 hj
    exact (h.setFld _ _ _).setFld _ _ _)

theorem placePair (h : KeepsPlacement l s t) (r : Nat) (n : Fin 17) (pos log : Nat) :
    KeepsPlacement l s (Machine.placePair t r n pos log) :=
  (((h.setFld _ _ _).setFld _ _ _).setFld _ _ _).setFld _ _ _

theorem setIsland (h : KeepsPlacement l s t) {n : Nat} (hn : n < 17) (st mv : Nat) :
    KeepsPlacement l s (Machine.setIsland t n st mv) := (h.setFld _ _ _).setFld _ _ _

theorem settleBeside (h : KeepsPlacement l s t) (n : Nat) : KeepsPlacement l s (Machine.settleBeside t n) := by
  refine h.foldl (fun _ m hm h => .ite (h.setIsland ?_ _ _) h)
  have := List.of_mem_filter hm
  simp only [Bool.and_eq_true, decide_eq_true_eq] at this
  exact this.2

theorem refreshIsland (h : KeepsPlacement l s t) (n : Fin 17) (held : Bool) :
    KeepsPlacement l s (Machine.refreshIsland t n held) := by
  have hdraw : KeepsPlacement l s (runTarget t n).2 := h.of_eq rfl rfl rfl rfl rfl
  exact .ite h (.ite ((hdraw.setIsland n.isLt _ _).settleBeside _) ((h.setIsland n.isLt _ _).settleBeside _))

theorem holdRole (h : KeepsPlacement l s t) (n : Fin 17) (r : Nat) (hl : ∀ a ∈ pairRegs n, a ∈ l) :
    KeepsPlacement l s (Machine.holdRole t n r) := by
  simp only [pairRegs, List.forall_mem_cons] at hl
  obtain ⟨hphys, hspan, hregion, -⟩ := hl
  exact (((h.setFld_of_mem _ _ hphys).refreshIsland n _).setFld_of_mem _ _ hspan).setFld_of_mem _ _ hregion

theorem setUse (h : KeepsPlacement l s t) (n u : Nat) (hl : ∀ a ∈ pairRegs n, a ∈ l) :
    KeepsPlacement l s (Machine.setUse t n u) := h.setFld_of_mem _ _ (hl _ (List.mem_cons_self ..))

theorem setSby (h : KeepsPlacement l s t) (v : Nat) (hl : Reg.PL_STAT ∈ l) :
    KeepsPlacement l s (Machine.setSby t v) :=
  .ite (h.setFld_of_mem _ _ hl)
    (.ite ((h.setFld_of_mem _ _ hl).raise _ _) (.ite ((h.setFld_of_mem _ _ hl).raise _ _) (h.setFld_of_mem _ _ hl)))

/-! ## A change's program and settings -/

theorem applyHead (h : KeepsPlacement l s t) (p : HeadParts) : KeepsPlacement l s (Machine.applyHead t p) :=
  ((h.setHead _ _).setFld _ _ _).setFld _ _ _

theorem applyPartial (h : KeepsPlacement l s t) (c : Change) (hregs : allRegs c.image = []) :
    KeepsPlacement l s (Machine.applyPartial t c) := by
  unfold Machine.applyPartial
  extract_lets g heads routed stored applied
  have hrouted : KeepsPlacement l s routed := by
    have htrusted : KeepsPlacement l s _ := h.of_eq (u := { t with trusted := (t.trusted ++ heads.1).dedup }) rfl rfl rfl rfl rfl
    exact htrusted.foldl (fun _ p _ h => h.applyHead p)
  have hstored : KeepsPlacement l s stored := by
    unfold stored
    split
    · exact hrouted.of_eq rfl rfl rfl rfl rfl
    · exact hrouted
  have happlied : applied = stored := by
    unfold applied Machine.applyRegs
    rw [hregs]
    rfl
  rw [happlied]
  exact hstored.of_eq rfl rfl rfl rfl rfl

end KeepsPlacement
end Sys2Proof.Machine
end

