-- ==== Sys2Proof/Proofs/PlannedChange.lean ====
section
/-!
PROOFS. A planned change (R17, R293, R356, R359-R361, R366): READY, GO, the switch in its stages and the abort, each
as what it shows in the registers of the placement.
-/

namespace Sys2Proof.Machine

namespace KeepsPlacement

variable {l : List Nat} {s t : State}

theorem fld (h : KeepsPlacement l s t) (a : Nat) (f : Fld)
    (ha : PlacementReg a := by
      simp only [PlacementReg, Reg.PL_STAT, Reg.PL_CHANGE, Reg.PL_ROLE, Reg.PL_PHYS, Reg.CW_EP_TAG]
      omega)
    (hl : a ∉ l := by
      simp only [pairRegs, List.mem_cons, List.mem_append, List.not_mem_nil, or_false, not_or, not_false_eq_true,
        Reg.PL_STAT, Reg.PL_CHANGE, Reg.PL_ROLE, Reg.PL_PHYS, Reg.CW_EP_TAG] <;> omega) : t.fld a f = s.fld a f := by
  rw [State.fld, State.fld, h.reg a ha hl]

end KeepsPlacement

/-! ## Fields of the placement after their own updates -/

section

variable (s : State)

theorem reg64_setReg64 {lo hi : Nat} (v : BitVec 64) (h : lo ≠ hi) : (s.setReg64 lo hi v).reg64 lo hi = v := by
  rw [State.reg64, State.setReg64, State.setReg_reg_self, State.setReg_reg_ne _ _ h, State.setReg_reg_self]
  exact (BitVec.extractLsb'_append_extractLsb'_eq_extractLsb' rfl).trans BitVec.extractLsb'_eq_self

theorem plState_setPlState {v : Nat} (hv : v < 16) : plState (setPlState s v) = v :=
  (s.setFld_fld_self _ _ ⟨by decide, by decide⟩ v).trans (Nat.mod_eq_of_lt hv)

theorem sby_setPlState (v : Nat) : sby (setPlState s v) = sby s :=
  s.setFld_fld_disjoint _ _ _ ⟨by decide, by decide⟩ (by decide) (by decide) v

/-- SBY is written whether or not its change is raised. -/
theorem setSby_cases (v : Nat) : (setSby s v).regs = (s.setFld Reg.PL_STAT F.PL_STAT_SBY v).regs := by
  simp only [setSby]
  split_ifs <;> rfl

theorem plState_setSby (v : Nat) : plState (setSby s v) = plState s := by
  rw [plState, State.fld, State.reg, setSby_cases]
  exact s.setFld_fld_disjoint _ _ _ ⟨by decide, by decide⟩ (by decide) (by decide) v

theorem sby_setSby {v : Nat} (hv : v < 16) : sby (setSby s v) = v := by
  rw [sby, State.fld, State.reg, setSby_cases]
  exact (s.setFld_fld_self _ _ ⟨by decide, by decide⟩ v).trans (Nat.mod_eq_of_lt hv)

theorem plUse_setUse (n : Nat) {u : Nat} (hu : u < 16) : plUse (setUse s n u) n = u :=
  (s.setFld_fld_self _ _ ⟨by decide, by decide⟩ u).trans (Nat.mod_eq_of_lt hu)

theorem roleOf_setUse (n u : Nat) : (setUse s n u).roleOf n = s.roleOf n :=
  s.setFld_fld_disjoint _ _ _ ⟨by decide, by decide⟩ (by decide) (by decide) u

theorem epTag_setUse (n : Fin 17) (u : Nat) {i : Nat} (hi : i < 80) : epTag (setUse s n u) i = epTag s i := by
  rw [epTag, setUse, State.setFld_fld_ne]
  · rfl
  · simp only [Reg.PL_PHYS, Reg.CW_EP_TAG]
    omega

theorem pairOf_setFld (r : Nat) (n : Fin 17) : pairOf (s.setFld (Reg.PL_ROLE r) F.PL_ROLE_PHYS n.val) r = some n := by
  have hphys : (s.setFld (Reg.PL_ROLE r) F.PL_ROLE_PHYS n.val).fld (Reg.PL_ROLE r) F.PL_ROLE_PHYS = n.val :=
    (s.setFld_fld_self _ _ ⟨by decide, by decide⟩ n.val).trans (Nat.mod_eq_of_lt (by have := n.isLt; show n.val < 32; omega))
  simp only [pairOf, hphys, n.isLt, dif_pos]

theorem pairOf_congr {s t : State} {r : Nat} (h : t.fld (Reg.PL_ROLE r) F.PL_ROLE_PHYS = s.fld (Reg.PL_ROLE r) F.PL_ROLE_PHYS) :
    pairOf t r = pairOf s r := by
  simp only [pairOf, h]

/-- A pair that takes a role shows it, and its endpoints have the role's tags. -/
theorem holdRole_shows (n : Fin 17) {r : Nat} (hr : r ≤ 16) :
    (holdRole s n r).roleOf n = r ∧ epTag (holdRole s n r) n = BitVec.ofNat 16 (0x1000 + r) ∧
      epTag (holdRole s n r) (17 + n.val) = BitVec.ofNat 16 (0x1100 + r) := by
  have hn := n.isLt
  have hisland : KeepsPlacement [] (s.setFld (Reg.PL_PHYS n) F.PL_PHYS_ROLE r)
    (refreshIsland (s.setFld (Reg.PL_PHYS n) F.PL_PHYS_ROLE r) n (r != 31)) := (KeepsPlacement.refl _ _).refreshIsland n _
  have hne : Reg.CW_EP_TAG n.val ≠ Reg.CW_EP_TAG (17 + n.val) := by simp only [Reg.CW_EP_TAG]; omega
  have hspan : Reg.PL_PHYS n.val ≠ Reg.CW_EP_TAG n.val := by simp only [Reg.PL_PHYS, Reg.CW_EP_TAG]; omega
  have hregion : Reg.PL_PHYS n.val ≠ Reg.CW_EP_TAG (17 + n.val) := by simp only [Reg.PL_PHYS, Reg.CW_EP_TAG]; omega
  refine ⟨?_, ?_, ?_⟩
  · rw [State.roleOf, holdRole, State.setFld_fld_ne _ _ _ _ hregion, State.setFld_fld_ne _ _ _ _ hspan,
      hisland.fld (Reg.PL_PHYS n) F.PL_PHYS_ROLE, State.setFld_fld_self _ _ _ ⟨by decide, by decide⟩]
    exact Nat.mod_eq_of_lt (by show r < 32; omega)
  · rw [epTag, holdRole, State.setFld_fld_ne _ _ _ _ hne, State.setFld_fld_self _ _ _ ⟨by decide, by decide⟩, spanTag, if_pos hr,
      Nat.mod_eq_of_lt (by show _ < 65536; omega)]
  · rw [epTag, holdRole, State.setFld_fld_self _ _ _ ⟨by decide, by decide⟩, regionTag, if_pos hr,
      Nat.mod_eq_of_lt (by show _ < 65536; omega)]

end

/-! ## GO -/

/-- The line from which the new pair serves (R359). -/
def switchLine (s : State) (c : Change) : BitVec 64 :=
  match (s.ctl (lead s c.old)).served with
  | some g => g.index + 1
  | none => lastLine s c.role + 1

/-- The state with the switch line shown and GO set. -/
def showSwitch (s : State) (c : Change) : State :=
  (s.setReg64 Reg.PL_SWITCH_LO Reg.PL_SWITCH_HI (switchLine s c)).setFld Reg.PL_CHANGE F.PL_CHANGE_GO 1

/-- The mergers with the old one muted from the switch line and the new one below it. -/
def muteAt (s : State) (c : Change) : List (Fin 17 × Bool × BitVec 64) :=
  s.muted.filter (fun p => p.1 != c.old && p.1 != c.new) ++ [(c.old, true, switchLine s c), (c.new, false, switchLine s c)]

theorem changeGo_ready {s : State} {c : Change} (hc : s.pl.change = some c)
    (hready : s.fld Reg.PL_CHANGE F.PL_CHANGE_STATE = 3) (hgoing : c.going = false) :
    changeGo s = { modifyPl (showSwitch s c) (fun p => { p with change := some { c with going := true } }) with
      muted := muteAt s c } := by
  have hgo : ¬(s.fld Reg.PL_CHANGE F.PL_CHANGE_STATE ≠ 3 ∨ c.going = true) := by simp [hready, hgoing]
  unfold changeGo
  rw [hc]
  exact if_neg hgo

theorem changeGo_idle {s : State} {c : Change} (hc : s.pl.change = some c)
    (h : s.fld Reg.PL_CHANGE F.PL_CHANGE_STATE ≠ 3 ∨ c.going = true) : changeGo s = s := by
  unfold changeGo
  rw [hc]
  exact if_pos h

theorem changeGo_none {s : State} (hc : s.pl.change = none) : changeGo s = s := by
  unfold changeGo
  rw [hc]

theorem showSwitch_line (s : State) (c : Change) :
    (showSwitch s c).reg64 Reg.PL_SWITCH_LO Reg.PL_SWITCH_HI = switchLine s c := by
  rw [← reg64_setReg64 s (switchLine s c) (show Reg.PL_SWITCH_LO ≠ Reg.PL_SWITCH_HI by decide), showSwitch, State.reg64,
    State.setFld_reg_ne _ _ _ (by decide), State.setFld_reg_ne _ _ _ (by decide), State.reg64]

theorem showSwitch_onlyRegs (s : State) (c : Change) :
    OnlyRegs [Reg.PL_SWITCH_LO, Reg.PL_SWITCH_HI, Reg.PL_CHANGE] s (showSwitch s c) :=
  (((OnlyRegs.setReg s _ (by simp)).trans (OnlyRegs.setReg _ _ (by simp))).trans (OnlyRegs.setFld _ _ _ (by simp)))

theorem showSwitch_state (s : State) (c : Change) :
    (showSwitch s c).fld Reg.PL_CHANGE F.PL_CHANGE_STATE = s.fld Reg.PL_CHANGE F.PL_CHANGE_STATE := by
  rw [showSwitch, State.setFld_fld_disjoint _ _ _ _ ⟨by decide, by decide⟩ (by decide) (by decide), State.setReg64,
    State.setReg_fld_ne _ _ _ (by decide), State.setReg_fld_ne _ _ _ (by decide)]

/-! ## READY -/

/-- The state of a change that becomes READY. -/
def showReady (s : State) (c : Change) : State :=
  (s.setFld Reg.PL_CHANGE F.PL_CHANGE_STATE 3).raise 985 (payCause 2 c.role.val)

theorem showReady_state (s : State) (c : Change) : (showReady s c).fld Reg.PL_CHANGE F.PL_CHANGE_STATE = 3 :=
  s.setFld_fld_self _ _ ⟨by decide, by decide⟩ 3

theorem execChangeReady_early {s : State} {c : Change} (hc : s.pl.change = some c)
    (h : s.fld Reg.PL_CHANGE F.PL_CHANGE_STATE ≠ 2 ∨
      (s.ctl c.new).syncs < s.fld (Reg.PL_ROLE c.role) F.PL_ROLE_HIST + 1) :
    execChangeReady s = .next s := by
  unfold execChangeReady
  rw [hc]
  exact if_pos h

theorem execChangeReady_ready {s : State} {c : Change} (hc : s.pl.change = some c)
    (hstate : s.fld Reg.PL_CHANGE F.PL_CHANGE_STATE = 2)
    (hlines : s.fld (Reg.PL_ROLE c.role) F.PL_ROLE_HIST + 1 ≤ (s.ctl c.new).syncs) :
    execChangeReady s = .next (if s.pl.test.isSome || s.up.current.any (fun u => u.left.contains c.role.val)
      then changeGo (showReady s c) else showReady s c) := by
  have h : ¬(s.fld Reg.PL_CHANGE F.PL_CHANGE_STATE ≠ 2 ∨
    (s.ctl c.new).syncs < s.fld (Reg.PL_ROLE c.role) F.PL_ROLE_HIST + 1) := by omega
  unfold execChangeReady
  rw [hc]
  exact if_neg h

/-! ## The switch -/

section

variable (s : State) (c : Change)

/-- The new pair has the role, with its program in the change's bank, and the old one has none. -/
def moveRole : State :=
  let s := setUse (holdRole s c.old 31) c.old 0
  let s := (s.setFld (Reg.PL_ROLE c.role) F.PL_ROLE_PHYS c.new.val).setFld (Reg.PL_ROLE c.role) F.PL_ROLE_BANK c.bank
  setUse (holdRole s c.new c.role) c.new 1

/-- The mergers, the old region and the change's settings follow. -/
def carryOver : State :=
  let s := { s with muted := s.muted.filter (fun p => p.1 != c.old && p.1 != c.new) }
  let s := rgDisable (routeHead s c.old none) c.old
  let s := if c.image.kind = 2 then applyPartial s c else s
  extend s 7 (hash48 (c.image.header ++ c.image.manifest))

/-- The change reads SWITCHED and ends. -/
def endChange : State :=
  let s := setPlState ((s.setFld Reg.PL_CHANGE F.PL_CHANGE_STATE 4).setFld Reg.PL_CHANGE F.PL_CHANGE_GO 0) 1
  (modifyPl s (fun p => { p with change := none })).raise 985 (payCause 3 c.role)

/-- The old pair is the standby. -/
def standOld : State :=
  let s := (s.setFld Reg.PL_STAT F.PL_STAT_SBY_PHYS c.old.val).setFld (Reg.PL_ROLE 16) F.PL_ROLE_PHYS c.old.val
  setSby (setUse (holdRole s c.old 16) c.old 2) 4

/-- The old span drains, and the standby is READY where it had stopped. -/
def drainOld : State :=
  let s := placePair (stopDrain s c.old) 0 c.old 0 0
  if spcState s c.old = 3 ∧ sby s = 4 then setSby s 1 else s

end

/-- The state after the switch. -/
def switched (s : State) (c : Change) : State :=
  drainOld (standOld (endChange (carryOver (moveRole s c) c) c) c) c

/-- Nothing that the switch waits for is left (R361). -/
def SwitchDue (s : State) (c : Change) : Prop :=
  ¬(!c.going ∨ !(s.ctl (lead s c.new)).served.any (fun g => (s.reg64 Reg.PL_SWITCH_LO Reg.PL_SWITCH_HI).toNat ≤ g.index.toNat) ∨
    ((s.ext c.old).sets.any (fun e => e.ord.isNone && e.line.toNat < (s.reg64 Reg.PL_SWITCH_LO Reg.PL_SWITCH_HI).toNat) ||
      !(s.ext c.old).out.isEmpty || !(s.ext c.old).sent.isEmpty || !(wordsUnderWay s c.old).isEmpty) ∨
    !opsIdle s [c.old, c.new])

theorem switchDue_iff (s : State) (c : Change) : SwitchDue s c ↔ c.going = true ∧
    (∃ g, (s.ctl (lead s c.new)).served = some g ∧ (s.reg64 Reg.PL_SWITCH_LO Reg.PL_SWITCH_HI).toNat ≤ g.index.toNat) ∧
    ¬((∃ e ∈ (s.ext c.old).sets, e.ord = none ∧ e.line.toNat < (s.reg64 Reg.PL_SWITCH_LO Reg.PL_SWITCH_HI).toNat) ∨
      (s.ext c.old).out ≠ [] ∨ (s.ext c.old).sent ≠ [] ∨ wordsUnderWay s c.old ≠ []) ∧
    ((s.micro (lead s c.old)).op = none ∧ (s.micro (lead s c.new)).op = none) := by
  simp only [SwitchDue, opsIdle, not_or, Bool.not_eq_eq_eq_not, Bool.not_true, Bool.not_eq_false, Bool.or_eq_true,
    Bool.and_eq_true, Bool.and_true, Option.any_eq_true, List.any_eq_true, List.all_cons, List.all_nil, decide_eq_true_eq,
    Option.isNone_iff_eq_none, List.isEmpty_iff, ne_eq, not_not, and_assoc]

theorem execChangeSwitch_waits {s : State} {c : Change} (hc : s.pl.change = some c) (h : ¬SwitchDue s c) :
    execChangeSwitch s = .next s := by
  unfold execChangeSwitch
  rw [hc]
  exact if_pos (not_not.1 h)

section

variable {s : State} {c : Change}

theorem carryOver_keeps (hregs : c.image.kind ≠ 2 ∨ allRegs c.image = []) : KeepsPlacement [] s (carryOver s c) := by
  unfold carryOver
  extract_lets muted closed applied
  have hclosed : KeepsPlacement [] s closed :=
    (((KeepsPlacement.refl [] s).of_eq (u := muted) rfl rfl rfl rfl rfl).routeHead _ _).rgDisable _
  have happlied : KeepsPlacement [] s applied := by
    unfold applied
    split
    · exact hclosed.applyPartial c (hregs.resolve_left (not_not_intro ‹_›))
    · exact hclosed
  exact happlied.of_eq rfl rfl rfl rfl rfl

theorem moveRole_keeps (s : State) (c : Change) :
    KeepsPlacement (Reg.PL_ROLE c.role :: (pairRegs c.old ++ pairRegs c.new)) s (moveRole s c) := by
  have hold : ∀ a ∈ pairRegs c.old, a ∈ Reg.PL_ROLE c.role :: (pairRegs c.old ++ pairRegs c.new) := by simp +contextual
  have hnew : ∀ a ∈ pairRegs c.new, a ∈ Reg.PL_ROLE c.role :: (pairRegs c.old ++ pairRegs c.new) := by simp +contextual
  have hleft := ((KeepsPlacement.refl _ s).holdRole c.old 31 hold).setUse c.old 0 hold
  have hrole := (hleft.setFld_of_mem F.PL_ROLE_PHYS c.new.val (List.mem_cons_self ..)).setFld_of_mem F.PL_ROLE_BANK c.bank
    (List.mem_cons_self ..)
  exact (hrole.holdRole c.new c.role hnew).setUse c.new 1 hnew

theorem standOld_keeps (s : State) (c : Change) :
    KeepsPlacement (Reg.PL_STAT :: Reg.PL_ROLE 16 :: pairRegs c.old) s (standOld s c) := by
  have hold : ∀ a ∈ pairRegs c.old, a ∈ Reg.PL_STAT :: Reg.PL_ROLE 16 :: pairRegs c.old := by simp +contextual
  have hshown := ((KeepsPlacement.refl (Reg.PL_STAT :: Reg.PL_ROLE 16 :: pairRegs c.old) s).setFld_of_mem (a := Reg.PL_STAT)
    F.PL_STAT_SBY_PHYS c.old.val (by simp)).setFld_of_mem (a := Reg.PL_ROLE 16) F.PL_ROLE_PHYS c.old.val (by simp)
  exact ((hshown.holdRole c.old 16 hold).setUse c.old 2 hold).setSby 4 (by simp)

theorem drainOld_keeps (s : State) (c : Change) : KeepsPlacement [Reg.PL_STAT] s (drainOld s c) := by
  have hplaced := ((KeepsPlacement.refl [Reg.PL_STAT] s).stopDrain c.old).placePair 0 c.old 0 0
  exact .ite (hplaced.setSby 1 (by simp)) hplaced

theorem updateSwitched_none {s : State} (hup : s.up.current = none) (r : Nat) : updateSwitched s r = s := by
  unfold updateSwitched
  rw [hup]

/-- What the new pair shows once it has the role. -/
theorem moveRole_shows (s : State) {c : Change} (hbank : c.bank < 4) :
    pairOf (moveRole s c) c.role = some c.new ∧
      (moveRole s c).fld (Reg.PL_ROLE c.role) F.PL_ROLE_BANK = c.bank ∧ (moveRole s c).roleOf c.new = c.role.val ∧
      plUse (moveRole s c) c.new = 1 ∧ epTag (moveRole s c) c.new = BitVec.ofNat 16 (0x1000 + c.role.val) ∧
      epTag (moveRole s c) (17 + c.new.val) = BitVec.ofNat 16 (0x1100 + c.role.val) := by
  have hnew := c.new.isLt
  have hrole : c.role.val ≤ 16 := c.role.isLt.le
  unfold moveRole
  extract_lets left placed
  have hplaced : KeepsPlacement (pairRegs c.new) placed (setUse (holdRole placed c.new c.role) c.new 1) :=
    ((KeepsPlacement.refl _ placed).holdRole c.new c.role (fun _ h => h)).setUse c.new 1 (fun _ h => h)
  obtain ⟨hshown, hspan, hregion⟩ := holdRole_shows placed c.new hrole
  refine ⟨?_, ?_, ?_, plUse_setUse _ _ (by decide), ?_, ?_⟩
  · rw [pairOf_congr (hplaced.fld _ _), ← pairOf_setFld left c.role c.new]
    exact pairOf_congr (State.setFld_fld_disjoint _ _ _ _ ⟨by decide, by decide⟩ (by decide) (by decide) _)
  · rw [hplaced.fld (Reg.PL_ROLE c.role) F.PL_ROLE_BANK, State.setFld_fld_self _ _ _ ⟨by decide, by decide⟩]
    exact Nat.mod_eq_of_lt hbank
  · rw [roleOf_setUse, hshown]
  · rw [epTag_setUse _ _ _ (by omega), hspan]
  · rw [epTag_setUse _ _ _ (by omega), hregion]

theorem endChange_reg (s : State) (c : Change) {a : Nat} (hchange : a ≠ Reg.PL_CHANGE) (hstat : a ≠ Reg.PL_STAT) :
    (endChange s c).reg a = s.reg a :=
  (State.setFld_reg_ne _ _ _ hstat).trans ((State.setFld_reg_ne _ _ _ hchange).trans (State.setFld_reg_ne _ _ _ hchange))

theorem endChange_state (s : State) (c : Change) : (endChange s c).fld Reg.PL_CHANGE F.PL_CHANGE_STATE = 4 :=
  (State.setFld_fld_ne _ _ _ _ (by decide)).trans
    ((State.setFld_fld_disjoint _ _ _ _ ⟨by decide, by decide⟩ (by decide) (by decide) _).trans
      (State.setFld_fld_self _ _ _ ⟨by decide, by decide⟩ 4))

theorem endChange_plState (s : State) (c : Change) : plState (endChange s c) = 1 := plState_setPlState _ (by decide)

/-- What the old pair shows once it is the standby. -/
theorem standOld_shows (s : State) (c : Change) :
    standby (standOld s c) = some c.old ∧ (standOld s c).roleOf c.old = 16 ∧ plUse (standOld s c) c.old = 2 ∧
      epTag (standOld s c) c.old = 0x1010 ∧ epTag (standOld s c) (17 + c.old.val) = 0x1110 := by
  have hold := c.old.isLt
  unfold standOld
  extract_lets shown
  have hstood := ((KeepsPlacement.refl (pairRegs c.old) shown).holdRole c.old 16 (fun _ h => h)).setUse c.old 2 (fun _ h => h)
  have hsby := (KeepsPlacement.refl [Reg.PL_STAT] (setUse (holdRole shown c.old 16) c.old 2)).setSby 4 (by simp)
  obtain ⟨hshown, hspan, hregion⟩ := holdRole_shows shown c.old (r := 16) (by decide)
  refine ⟨?_, ?_, ?_, ?_, ?_⟩
  · rw [standby, pairOf_congr (hsby.fld _ _), pairOf_congr (hstood.fld _ _)]
    exact pairOf_setFld _ 16 c.old
  · exact (hsby.fld _ _).trans ((roleOf_setUse _ _ _).trans hshown)
  · exact (hsby.fld _ _).trans (plUse_setUse _ _ (by decide))
  · rw [epTag, hsby.fld (Reg.CW_EP_TAG c.old) F.CW_EP_TAG_TAG]
    exact (epTag_setUse _ _ _ (by omega)).trans hspan
  · rw [epTag, hsby.fld (Reg.CW_EP_TAG (17 + c.old)) F.CW_EP_TAG_TAG]
    exact (epTag_setUse _ _ _ (by omega)).trans hregion

theorem standOld_plState (s : State) (c : Change) : plState (standOld s c) = plState s := by
  have hold := c.old.isLt
  unfold standOld
  extract_lets shown
  have hstood := ((KeepsPlacement.refl (pairRegs c.old) shown).holdRole c.old 16 (fun _ h => h)).setUse c.old 2 (fun _ h => h)
  rw [plState_setSby, plState, hstood.fld Reg.PL_STAT F.PL_STAT_STATE, State.setFld_fld_ne _ _ _ _ (by decide)]
  exact State.setFld_fld_disjoint _ _ _ _ ⟨by decide, by decide⟩ (by decide) (by decide) _

theorem drainOld_plState (s : State) (c : Change) : plState (drainOld s c) = plState s := by
  have hplaced := ((KeepsPlacement.refl [] s).stopDrain c.old).placePair 0 c.old 0 0
  unfold drainOld
  extract_lets placed
  split
  · rw [plState_setSby]
    exact hplaced.fld _ _
  · exact hplaced.fld _ _

theorem execChangeSwitch_due (hc : s.pl.change = some c) (h : SwitchDue s c) (htest : s.pl.test = none)
    (hup : s.up.current = none) (hregs : c.image.kind ≠ 2 ∨ allRegs c.image = []) :
    execChangeSwitch s = .next (switched s c) := by
  have hmoved := moveRole_keeps s c
  have hcarried := carryOver_keeps (s := moveRole s c) hregs
  have hstood := standOld_keeps (endChange (carryOver (moveRole s c) c) c) c
  have hdrained := drainOld_keeps (standOld (endChange (carryOver (moveRole s c) c) c) c) c
  have htest' : (standOld (endChange (carryOver (moveRole s c) c) c) c).pl.test ≠ some c.old := by
    rw [hstood.test, show (endChange (carryOver (moveRole s c) c) c).pl.test = _ from hcarried.test.trans hmoved.test, htest]
    exact nofun
  have hup' : (drainOld (standOld (endChange (carryOver (moveRole s c) c) c) c) c).up.current = none := by
    rw [hdrained.up, hstood.up, show (endChange (carryOver (moveRole s c) c) c).up = _ from hcarried.up.trans hmoved.up, hup]
  unfold execChangeSwitch
  rw [hc]
  refine (if_neg h).trans ((if_neg htest').trans ?_)
  exact congrArg _ (updateSwitched_none hup' _)

end

/-! ## The abort -/

section

variable (s : State) (n : Fin 17)

/-- The span and region of a pair at rest, with nothing placed on them. -/
def restPair : State :=
  let s := placePair (routeHead (stopNow s n 1) n none) 0 n 0 0
  refreshJoints { rgDisable s n with muted := s.muted.filter (fun p => p.1 != n) }

theorem restPair_keeps {l : List Nat} (hl : Reg.PL_STAT ∈ l) : KeepsPlacement l s (restPair s n) := by
  unfold restPair
  extract_lets placed closed
  have hplaced : KeepsPlacement l s placed :=
    (((KeepsPlacement.refl _ s).stopNow n 1 hl).routeHead n none).placePair 0 n 0 0
  have hclosed : KeepsPlacement l s closed := hplaced.rgDisable n
  clear_value closed
  exact KeepsPlacement.refreshJoints (hclosed.of_eq rfl rfl rfl rfl rfl)

theorem setStandby_keeps {t : State} (h : KeepsPlacement (Reg.PL_STAT :: Reg.PL_ROLE 16 :: pairRegs n) s t) :
    KeepsPlacement (Reg.PL_STAT :: Reg.PL_ROLE 16 :: pairRegs n) s (setStandby t (some n)) := by
  have hn : ∀ a ∈ pairRegs n, a ∈ Reg.PL_STAT :: Reg.PL_ROLE 16 :: pairRegs n := by simp +contextual
  have hshown := (h.setFld_of_mem (a := Reg.PL_STAT) F.PL_STAT_SBY_PHYS n.val (by simp)).setFld_of_mem
    (a := Reg.PL_ROLE 16) F.PL_ROLE_PHYS n.val (by simp)
  exact ((hshown.holdRole n 16 hn).setUse n 2 hn).setSby 1 (by simp)

theorem setStandby_shows : sby (setStandby s (some n)) = 1 ∧ standby (setStandby s (some n)) = some n ∧
    plUse (setStandby s (some n)) n = 2 := by
  have hlt := n.isLt
  unfold setStandby
  extract_lets v shown
  have hstood := ((KeepsPlacement.refl (pairRegs n) shown).holdRole n 16 (fun _ h => h)).setUse n 2 (fun _ h => h)
  have hsby := (KeepsPlacement.refl [Reg.PL_STAT] (setUse (holdRole shown n 16) n 2)).setSby 1 (by simp)
  refine ⟨sby_setSby _ (by decide), ?_, (hsby.fld _ _).trans (plUse_setUse _ _ (by decide))⟩
  rw [standby, pairOf_congr (hsby.fld _ _), pairOf_congr (hstood.fld _ _)]
  exact pairOf_setFld _ 16 n

end

theorem changeAbort_none {s : State} (hc : s.pl.change = none) : changeAbort s = s := by
  unfold changeAbort
  rw [hc]

section

variable (s : State) (c : Change)

/-- The test that the change was for reads its result. -/
def endTest : State :=
  if s.pl.test.isSome then (s.setFld Reg.PL_TEST F.PL_TEST_RESULT 4).setFld Reg.PL_TEST F.PL_TEST_GO 0 else s

/-- The change reads ABORTED and ends. -/
def endAborted : State :=
  let s := (endTest s).setFld Reg.PL_CHANGE F.PL_CHANGE_GO 0
  let s := { modifyPl s (fun p => { p with change := none, test := none }) with
             muted := s.muted.filter (fun p => p.1 != c.old && p.1 != c.new) }
  (setPlState (s.setFld Reg.PL_CHANGE F.PL_CHANGE_STATE 5) 1).raise 985 (payCause 4 c.role.val)

theorem endTest_onlyRegs : OnlyRegs [Reg.PL_TEST] s (endTest s) := by
  unfold endTest
  split
  · exact (OnlyRegs.setFld s _ _ (by simp)).trans (OnlyRegs.setFld _ _ _ (by simp))
  · exact .refl _ s

theorem endTest_raises : (endTest s).raises = s.raises := by
  unfold endTest
  split <;> rfl

theorem endAborted_reg {a : Nat} (ha : a ∉ [Reg.PL_TEST, Reg.PL_CHANGE, Reg.PL_STAT]) :
    (endAborted s c).reg a = s.reg a := by
  simp only [List.mem_cons, List.not_mem_nil, or_false, not_or] at ha
  obtain ⟨htest, hchange, hstat⟩ := ha
  calc (endAborted s c).reg a
      = (((endTest s).setFld Reg.PL_CHANGE F.PL_CHANGE_GO 0).setFld Reg.PL_CHANGE F.PL_CHANGE_STATE 5).reg a :=
        State.setFld_reg_ne _ _ _ hstat
    _ = (endTest s).reg a := by rw [State.setFld_reg_ne _ _ _ hchange, State.setFld_reg_ne _ _ _ hchange]
    _ = s.reg a := endTest_onlyRegs s a (by simpa using htest)

theorem endAborted_fld {a : Nat} (f : Fld) (ha : a ∉ [Reg.PL_TEST, Reg.PL_CHANGE, Reg.PL_STAT]) :
    (endAborted s c).fld a f = s.fld a f := by
  rw [State.fld, State.fld, endAborted_reg s c ha]

theorem endAborted_raised : Raised s (endAborted s c) [(985, payCause 4 c.role.val)] := by
  simp only [Raised, endAborted, State.raise_raises, setPlState, State.setFld_raises, modifyPl, endTest_raises,
    List.map_append, List.map_cons, List.map_nil]

theorem endAborted_state : (endAborted s c).fld Reg.PL_CHANGE F.PL_CHANGE_STATE = 5 :=
  (State.setFld_fld_ne _ _ _ _ (by decide)).trans (State.setFld_fld_self _ _ _ ⟨by decide, by decide⟩ 5)

theorem endAborted_sby : sby (endAborted s c) = sby s := by
  calc sby (endAborted s c)
      = (((endTest s).setFld Reg.PL_CHANGE F.PL_CHANGE_GO 0).setFld Reg.PL_CHANGE F.PL_CHANGE_STATE 5).fld Reg.PL_STAT
          F.PL_STAT_SBY := sby_setPlState _ 1
    _ = (endTest s).fld Reg.PL_STAT F.PL_STAT_SBY := by
        rw [State.setFld_fld_ne _ _ _ _ (by decide), State.setFld_fld_ne _ _ _ _ (by decide)]
    _ = sby s := by rw [sby, State.fld, State.fld, endTest_onlyRegs s _ (by decide)]

end

theorem changeAbort_some {s : State} {c : Change} (hc : s.pl.change = some c) :
    changeAbort s = endAborted (setStandby (restPair s c.new) (some c.new)) c := by
  unfold changeAbort
  rw [hc]
  rfl

theorem PL_ROLE_not_mem (r : Nat) : Reg.PL_ROLE r ∉ [Reg.PL_TEST, Reg.PL_CHANGE, Reg.PL_STAT] := by
  simp only [List.mem_cons, List.not_mem_nil, or_false, not_or, Reg.PL_ROLE, Reg.PL_TEST, Reg.PL_CHANGE, Reg.PL_STAT]
  omega

theorem PL_PHYS_not_mem (n : Nat) : Reg.PL_PHYS n ∉ [Reg.PL_TEST, Reg.PL_CHANGE, Reg.PL_STAT] := by
  simp only [List.mem_cons, List.not_mem_nil, or_false, not_or, Reg.PL_PHYS, Reg.PL_TEST, Reg.PL_CHANGE, Reg.PL_STAT]
  omega

/-- The end of a planned change as its abort leaves it, with the standby back. -/
structure Aborted (s t : State) (c : Change) : Prop where
  change : t.pl.change = none
  test : t.pl.test = none
  state : t.fld Reg.PL_CHANGE F.PL_CHANGE_STATE = 5
  plState : plState t = 1
  sby : sby t = 1
  standby : standby t = some c.new
  use : plUse t c.new = 2
  role : t.reg (Reg.PL_ROLE c.role) = s.reg (Reg.PL_ROLE c.role)
  raised : ∃ l, Raised s t (l ++ [(985, payCause 4 c.role.val)])

theorem changeAbort_aborted {s : State} {c : Change} (hc : s.pl.change = some c) : Aborted s (changeAbort s) c := by
  have hnew := c.new.isLt
  have hrole := c.role.isLt
  obtain ⟨hsby, hstandby, huse⟩ := setStandby_shows (restPair s c.new) c.new
  have hback := setStandby_keeps s c.new (restPair_keeps s c.new (List.mem_cons_self ..))
  obtain ⟨l, hl⟩ := hback.raised
  rw [changeAbort_some hc]
  refine ⟨rfl, rfl, endAborted_state _ c, plState_setPlState _ (by decide), (endAborted_sby _ c).trans hsby, ?_, ?_, ?_, l, ?_⟩
  · exact (pairOf_congr (endAborted_fld _ c _ (PL_ROLE_not_mem 16))).trans hstandby
  · exact (endAborted_fld _ c _ (PL_PHYS_not_mem _)).trans huse
  · rw [endAborted_reg _ c (PL_ROLE_not_mem _), hback.reg]
    · simp only [PlacementReg, Reg.PL_ROLE]
      omega
    · simp only [pairRegs, List.mem_cons, List.not_mem_nil, or_false, not_or, Reg.PL_STAT, Reg.PL_ROLE, Reg.PL_PHYS,
        Reg.CW_EP_TAG]
      omega
  · exact hl.trans (endAborted_raised _ c)

/-! ## The four commands -/

theorem execChangeReady_atOnce {s : State} {c : Change} (hc : s.pl.change = some c)
    (hstate : s.fld Reg.PL_CHANGE F.PL_CHANGE_STATE = 2)
    (hlines : s.fld (Reg.PL_ROLE c.role) F.PL_ROLE_HIST + 1 ≤ (s.ctl c.new).syncs)
    (hgo : s.pl.test ≠ none ∨ ∃ u, s.up.current = some u ∧ c.role.val ∈ u.left) :
    execChangeReady s = .next (changeGo (showReady s c)) := by
  rw [execChangeReady_ready hc hstate hlines, if_pos]
  simpa [Option.isSome_iff_ne_none, Option.any_eq_true] using hgo

theorem execChangeReady_onGo {s : State} {c : Change} (hc : s.pl.change = some c)
    (hstate : s.fld Reg.PL_CHANGE F.PL_CHANGE_STATE = 2)
    (hlines : s.fld (Reg.PL_ROLE c.role) F.PL_ROLE_HIST + 1 ≤ (s.ctl c.new).syncs)
    (hgo : ¬(s.pl.test ≠ none ∨ ∃ u, s.up.current = some u ∧ c.role.val ∈ u.left)) :
    execChangeReady s = .next (showReady s c) := by
  rw [execChangeReady_ready hc hstate hlines, if_neg]
  simpa [Option.isSome_iff_ne_none, Option.any_eq_true] using hgo

/-- A READY change that goes on at once, with the switch line shown where it has not gone on before. -/
theorem changeGo_showReady {s : State} {c : Change} (hc : s.pl.change = some c) :
    (changeGo (showReady s c)).fld Reg.PL_CHANGE F.PL_CHANGE_STATE = 3 ∧
      (c.going = false → (changeGo (showReady s c)).pl.change = some { c with going := true }) ∧
      Raised s (changeGo (showReady s c)) [(985, payCause 2 c.role.val)] := by
  cases hgoing : c.going with
  | false =>
    rw [changeGo_ready (s := showReady s c) hc (showReady_state s c) hgoing]
    exact ⟨(showSwitch_state _ c).trans (showReady_state s c), fun _ => rfl, Raised.raise _ _ _⟩
  | true =>
    rw [changeGo_idle (s := showReady s c) hc (.inr hgoing)]
    exact ⟨showReady_state s c, nofun, Raised.raise _ _ _⟩

section

variable {s : State} {c : Change} (hregs : c.image.kind ≠ 2 ∨ allRegs c.image = [])

include hregs

/-- What the move gave stays to the end of the switch. -/
theorem switched_fld (a : Nat) (f : Fld)
    (ha : PlacementReg a := by
      simp only [PlacementReg, Reg.PL_ROLE, Reg.PL_PHYS, Reg.CW_EP_TAG]
      omega)
    (hl : a ∉ Reg.PL_CHANGE :: Reg.PL_STAT :: Reg.PL_ROLE 16 :: pairRegs c.old := by
      simp only [pairRegs, List.mem_cons, List.not_mem_nil, or_false, not_or, Reg.PL_STAT, Reg.PL_CHANGE, Reg.PL_ROLE,
        Reg.PL_PHYS, Reg.CW_EP_TAG]
      omega) : (switched s c).fld a f = (moveRole s c).fld a f := by
  obtain ⟨hchange, hstat, hpair⟩ : a ≠ Reg.PL_CHANGE ∧ a ≠ Reg.PL_STAT ∧ a ∉ Reg.PL_ROLE 16 :: pairRegs c.old := by
    simpa only [List.mem_cons, not_or] using hl
  have hended : (endChange (carryOver (moveRole s c) c) c).fld a f = (carryOver (moveRole s c) c).fld a f := by
    rw [State.fld, State.fld, endChange_reg _ _ hchange hstat]
  rw [switched, (drainOld_keeps _ c).fld a f ha (by simpa using hstat), (standOld_keeps _ c).fld a f ha (List.not_mem_cons_of_ne_of_not_mem hstat hpair), hended,
    (carryOver_keeps hregs).fld a f ha List.not_mem_nil]

theorem switched_new (hne : c.old ≠ c.new) (hbank : c.bank < 4) :
    pairOf (switched s c) c.role = some c.new ∧ (switched s c).fld (Reg.PL_ROLE c.role) F.PL_ROLE_BANK = c.bank ∧
      (switched s c).roleOf c.new = c.role.val ∧ plUse (switched s c) c.new = 1 ∧
      epTag (switched s c) c.new = BitVec.ofNat 16 (0x1000 + c.role.val) ∧
      epTag (switched s c) (17 + c.new.val) = BitVec.ofNat 16 (0x1100 + c.role.val) := by
  have hold := c.old.isLt
  have hnew := c.new.isLt
  have hrole := c.role.isLt
  have hpairs : c.old.val ≠ c.new.val := fun h => hne (Fin.ext h)
  obtain ⟨hpair, hbankof, hroleof, huse, hspan, hregion⟩ := moveRole_shows s hbank
  refine ⟨(pairOf_congr (switched_fld hregs _ _)).trans hpair, (switched_fld hregs _ _).trans hbankof,
    (switched_fld hregs _ _).trans hroleof, (switched_fld hregs _ _).trans huse, ?_, ?_⟩
  · exact (congrArg _ (switched_fld hregs _ _)).trans hspan
  · exact (congrArg _ (switched_fld hregs _ _)).trans hregion

end

theorem switched_old (s : State) (c : Change) :
    standby (switched s c) = some c.old ∧ (switched s c).roleOf c.old = 16 ∧ plUse (switched s c) c.old = 2 ∧
      epTag (switched s c) c.old = 0x1010 ∧ epTag (switched s c) (17 + c.old.val) = 0x1110 := by
  have hold := c.old.isLt
  obtain ⟨hstandby, hroleof, huse, hspan, hregion⟩ := standOld_shows (endChange (carryOver (moveRole s c) c) c) c
  have hdrained := drainOld_keeps (standOld (endChange (carryOver (moveRole s c) c) c) c) c
  refine ⟨(pairOf_congr (hdrained.fld _ _)).trans hstandby, (hdrained.fld _ _).trans hroleof, (hdrained.fld _ _).trans huse,
    ?_, ?_⟩
  · exact (congrArg _ (hdrained.fld _ _)).trans hspan
  · exact (congrArg _ (hdrained.fld _ _)).trans hregion

theorem switched_change (s : State) (c : Change) : (switched s c).pl.change = none ∧
    (switched s c).fld Reg.PL_CHANGE F.PL_CHANGE_STATE = 4 ∧ plState (switched s c) = 1 := by
  have hold := c.old.isLt
  have hstood := standOld_keeps (endChange (carryOver (moveRole s c) c) c) c
  have hdrained := drainOld_keeps (standOld (endChange (carryOver (moveRole s c) c) c) c) c
  refine ⟨hdrained.change.trans hstood.change, ?_, ?_⟩
  · exact (hdrained.fld _ _).trans ((hstood.fld _ _).trans (endChange_state _ c))
  · exact (drainOld_plState _ c).trans ((standOld_plState _ c).trans (endChange_plState _ c))

theorem exec_changeReady (s : State) : exec .changeReady s = execChangeReady s := rfl

theorem exec_changeGo (s : State) : exec .changeGo s = .next (changeGo s) := rfl

theorem exec_changeSwitch (s : State) : exec .changeSwitch s = execChangeSwitch s := rfl

theorem exec_changeAbort (s : State) : exec .changeAbort s = .next (changeAbort s) := rfl

/-- Settles O47: each command by what its function comes to, the switch by the state that it hands to each pair. -/
theorem plannedChangeCommandsComplete : Obligations.PlannedChangeCommandsComplete := by
  refine ⟨fun s hc => ?none, fun c s hc => ?some⟩
  case none =>
    refine ⟨?_, ?_, ?_, ?_⟩
    · simp only [exec_changeReady, execChangeReady, hc]
    · rw [exec_changeGo, changeGo_none hc]
    · simp only [exec_changeSwitch, execChangeSwitch, hc]
    · rw [exec_changeAbort, changeAbort_none hc]
  case some =>
    refine ⟨fun h => execChangeReady_early hc h, ?atOnce, ?ready, ?notReady, ?go, ⟨?waits, ?switch⟩, ?abort⟩
    case atOnce =>
      intro hstate hlines hgo
      exact ⟨_, execChangeReady_atOnce hc hstate hlines hgo, changeGo_showReady hc⟩
    case ready =>
      intro hstate hlines hgo
      exact ⟨_, execChangeReady_onGo hc hstate hlines hgo, showReady_state s c,
        (OnlyRegs.setFld s _ _ (by simp)).trans (OnlyRegs.raise _ _ _), Raised.raise _ _ _, rfl⟩
    case notReady =>
      intro hstate
      rw [exec_changeGo, changeGo_idle hc (.inl hstate)]
    case go =>
      intro hstate hgoing
      rw [exec_changeGo, changeGo_ready hc hstate hgoing]
      refine ⟨_, switchLine s c, rfl, showSwitch_line s c, fun g hg => ?_, rfl, ?_, ?_, showSwitch_onlyRegs s c⟩
      · simp only [switchLine, hg]
      · simp [muteAt]
      · simp [muteAt]
    case waits =>
      intro h
      refine execChangeSwitch_waits hc fun hdue => ?_
      obtain ⟨hgoing, hreached, hbelow, hidle⟩ := (switchDue_iff s c).1 hdue
      obtain h | h | h | h := h
      · exact Bool.false_ne_true (h.symm.trans hgoing)
      · exact h hreached
      · exact hbelow h
      · exact h hidle
    case switch =>
      intro hgoing hreached hbelow hidle hne hbank htest hup hregs
      refine ⟨_, execChangeSwitch_due hc ((switchDue_iff s c).2 ⟨hgoing, hreached, hbelow, hidle⟩) htest hup hregs, ?_⟩
      obtain ⟨hchange, hstate, hpl⟩ := switched_change s c
      obtain ⟨hpair, hbankof, hrole, huse, hspan, hregion⟩ := switched_new (s := s) hregs hne hbank
      obtain ⟨hstandby, hrole', huse', hspan', hregion'⟩ := switched_old s c
      exact ⟨hchange, hstate, hpl, hpair, hbankof, hstandby, hrole, hrole', huse, huse', hspan, hregion, hspan', hregion'⟩
    case abort =>
      obtain ⟨hchange, htest, hstate, hpl, hsby, hstandby, huse, hrole, hraised⟩ := changeAbort_aborted hc
      exact ⟨_, rfl, hchange, htest, hstate, hpl, hsby, hstandby, huse, hrole, hraised⟩

end Sys2Proof.Machine
end

