-- ==== Sys2Proof/Proofs/RunExtraction.lean ====
section
/-!
PROOFS. Run extraction (R10, R204, R206, R207, R296): the scan of a truss that finds room, and the flit that a merger
sends or holds.
-/

namespace Sys2Proof.Machine

/-! ## The scan of a truss -/

/-- The first element that meets `p` is replaced. -/
theorem mem_replaceFirst {α : Type} {p : α → Bool} (f : α → α) {l : List α} {x : α} (h : l.find? p = some x) :
    f x ∈ replaceFirst p f l := by
  induction l with
  | nil => cases h
  | cons y l ih =>
    unfold replaceFirst
    by_cases hy : p y = true
    · rw [if_pos hy]
      rw [List.find?_cons_of_pos hy] at h
      exact Option.some.inj h ▸ List.mem_cons_self ..
    · rw [if_neg hy]
      rw [List.find?_cons_of_neg hy] at h
      exact List.mem_cons_of_mem _ (ih h)

/-- The set whose runs of truss `t` are all written. -/
def scannedSet (e : ExtractSet) (t : Fin 16) : ExtractSet :=
  { e with scanned := e.scanned ||| (1#16 <<< t.val), runs := e.runs + (trussRuns e t).length, wrote := maskSet e.wrote t 0 }

/-- The extraction after a scan that wrote every run of the truss. -/
def scannedExt (x : Extraction) (e : ExtractSet) (t : Fin 16) : Extraction :=
  { x with
    queues := x.queues.set t (x.queues[t] ++ (trussRuns e t).map some ++ [none])
    sets := replaceFirst (fun e => e.closed && !e.scanned.getLsbD t.val) (fun _ => scannedSet e t) x.sets }

theorem execExtractorScan_room {m : Fin 17} {t : Fin 16} {e : ExtractSet} {s : State}
    (he : (s.ext m).sets.find? (fun e => e.closed && !e.scanned.getLsbD t.val) = some e) (hwrote : maskGet e.wrote t = 0)
    (hband : s.fld (Reg.RM_STAT m) F.RM_STAT_BAND = 0)
    (hroom : (trussRuns e t).length + queuedRuns (s.ext m).queues[t] ≤ 64) :
    execExtractorScan m t s = .next (s.setExt m (scannedExt (s.ext m) e t)) := by
  have hflag : s.flag (Reg.RM_STAT m) F.RM_STAT_BAND = false := by simp [State.flag, hband]
  have hnow : (trussRuns e t).take (64 - queuedRuns (s.ext m).queues[t]) = trussRuns e t :=
    List.take_of_length_le (by omega)
  unfold execExtractorScan
  simp only [he, hwrote, hflag, List.drop_zero, Bool.false_eq_true, if_false, hnow, Nat.zero_add, if_true]
  rfl

/-! ## The merger -/

section

variable {m : Fin 17} {s : State}

/-- A merger with words of its set left leaves band and mutes as they are. -/
theorem mergerReady_eq (hband : (s.ext m).bandNext = none) (htruss : (s.ext m).truss = 16) :
    discardMuted m 64 (leaveBand s m) = s := by
  have hleave : leaveBand s m = s := if_neg (by simp [hband])
  rw [hleave, discardMuted]
  dsimp only
  split
  · rfl
  · exact if_neg (by simp [htruss])

/-- A merger that holds a flit takes no more runs. -/
theorem mergeFlit_full {mute : BitVec 64 → Bool} {x : Extraction} (hout : 4 ≤ x.out.length) (fuel pos : Nat) (band : Bool) :
    mergeFlit mute fuel x pos band = x := by
  cases fuel with
  | zero => rfl
  | succ fuel => exact if_pos (.inl hout)

/-- The merger with the mark of the set `e` to send, the set ended. -/
def markedExt (x : Extraction) (e : ExtractSet) (band : Bool) : Extraction :=
  { x with sets := [], truss := 0, joined := none, out := [markOf e band] }

/-- A set whose trusses are all taken gives its mark. -/
theorem mergeFlit_mark {mute : BitVec 64 → Bool} {x : Extraction} {e : ExtractSet} (htruss : x.truss = 16)
    (hout : x.out = []) (hjoined : x.joined = none) (hsets : x.sets = [e]) (hclosed : e.closed = true)
    (hscanned : e.scanned = BitVec.allOnes 16) (hord : e.ord = none) (fuel pos : Nat) (band : Bool) :
    mergeFlit mute (fuel + 1) x pos band = markedExt x e band := by
  have hstep : mergeStep x pos band = some (markedExt x e band) := by
    simp [mergeStep, markedExt, htruss, hout, hjoined, hsets, hclosed, hscanned, hord]
  have hend (y : Extraction) (hy : y.sets = []) (hout : ¬4 ≤ y.out.length) : mergeFlit mute fuel y pos band = y := by
    cases fuel with
    | zero => rfl
    | succ fuel => simp [mergeFlit, mergeStep, hy]
  rw [mergeFlit, if_neg (by simp [hout, htruss]), hstep]
  exact hend _ rfl (by simp [markedExt])

/-- The words that a merger with `x` can send now. -/
def flitWords (s : State) (m : Fin 17) (x : Extraction) : Nat :=
  min (min 4 x.out.length) (512 - creditWords (x.sent ++ wordsUnderWay s m))

/-- The words counted and taken off the merger. -/
def takeWords (s : State) (m : Fin 17) (x : Extraction) (n : Nat) : State :=
  (s.bump (Reg.RM_RUNS m) F.RM_RUNS_COUNT (runWords (x.out.take n))).setExt m { x with out := x.out.drop n, hold := 0 }

/-- `n` words of the merger with `x` sent as a flit. -/
def sendFlit (s : State) (m : Fin 17) (x : Extraction) (n : Nat) : State :=
  sendPacket (takeWords s m x n)
    (runsPacket (takeWords s m x n) m (x.out.take n ++ List.replicate (4 - n) .filler))

section

variable {x : Extraction} (hready : discardMuted m 64 (leaveBand s m) = s)
  (hx : mergeFlit (setMuted s m) 4096 (s.ext m) (spanPos s m) (s.flag (Reg.RM_STAT m) F.RM_STAT_BAND) = x)
  (hout : x.out ≠ [])

include hready hx hout

theorem execMergerSend_sends (hn : flitWords s m x ≠ 0) (hep : epState s m = 0) :
    execMergerSend m s = .next (sendFlit s m x (flitWords s m x)) := by
  unfold execMergerSend
  simp only [hready, hx]
  exact (if_neg (by simpa using hout)).trans (if_neg (not_or.2 ⟨hn, not_not_intro hep⟩))

theorem execMergerSend_holds (h : flitWords s m x = 0 ∨ epState s m ≠ 0) :
    execMergerSend m s =
      .next ((s.setExt m { x with hold := x.hold + 1 }).bump (Reg.RM_HOLD m) F.RM_HOLD_COUNT) := by
  unfold execMergerSend
  simp only [hready, hx]
  exact (if_neg (by simpa using hout)).trans (if_pos h)

end

/-- A flit of an ONLINE span enters the mesh as one class-1 packet to the tracker. -/
theorem sendPacket_runs {t : State} (hep : epState t m = 0) (ws : List MergerWord) :
    ∃ q c, sendPacket t (runsPacket t m ws) = { t with cw := c } ∧ c.net = t.cw.net ++ [q] ∧ q.src.val = m.val ∧
      q.dst = 34 ∧ q.dtag = 0x2000 ∧ q.cls = 1 ∧ q.kind = 5 ∧ q.data = ws.flatMap (fun w => leBytes 8 w.bits.toNat) := by
  have hsend : sendPacket t (runsPacket t m ws) = enterMesh t (runsPacket t m ws) :=
    sendPacket_online hep fun h => absurd (congrArg Fin.val h) (by simp only [runsPacket]; omega)
  obtain ⟨c, hc⟩ := sendPacket_only t (runsPacket t m ws)
  obtain ⟨q, hnet, hsrc, hdst, hcls, hkind, -, hdtag, -, -, -, hdata, -⟩ := enterMesh_net t (runsPacket t m ws)
  have hcw : (enterMesh t (runsPacket t m ws)).cw = c := by rw [← hsend, hc]
  rw [hcw] at hnet
  exact ⟨q, c, hc, hnet, congrArg Fin.val hsrc, hdst, hdtag, hcls, hkind, hdata⟩

theorem epState_takeWords (s : State) (m : Fin 17) (x : Extraction) (n : Nat) :
    epState (takeWords s m x n) m = epState s m := by
  refine State.bump_fld_ne s _ _ _ ?_
  simp only [Reg.CW_EP_STAT, Reg.RM_RUNS]
  omega

theorem takeWords_onlyRegs (s : State) (m : Fin 17) (x : Extraction) (n : Nat) :
    OnlyRegs [Reg.RM_RUNS m] s (takeWords s m x n) := OnlyRegs.bump s _ _ (by simp)

theorem takeWords_count (s : State) (m : Fin 17) (x : Extraction) (n : Nat) :
    (takeWords s m x n).fld (Reg.RM_RUNS m) F.RM_RUNS_COUNT =
      min (s.fld (Reg.RM_RUNS m) F.RM_RUNS_COUNT + runWords (x.out.take n)) (2 ^ 32 - 1) :=
  s.bump_fld_self _ _ ⟨by decide, by decide⟩ _

/-- What a flit of `n` words is and leaves. -/
theorem execMergerSend_flit {x : Extraction} {n : Nat} (hready : discardMuted m 64 (leaveBand s m) = s)
    (hx : mergeFlit (setMuted s m) 4096 (s.ext m) (spanPos s m) (s.flag (Reg.RM_STAT m) F.RM_STAT_BAND) = x)
    (hout : x.out ≠ []) (hflit : flitWords s m x = n) (hn : n ≠ 0) (hep : epState s m = 0) :
    ∃ u q, execMergerSend m s = .next u ∧ u.ext m = { x with out := x.out.drop n, hold := 0 } ∧
      u.cw.net = s.cw.net ++ [q] ∧ q.src.val = m.val ∧ q.dst = 34 ∧ q.dtag = 0x2000 ∧ q.cls = 1 ∧ q.kind = 5 ∧
      q.data = (x.out.take n ++ List.replicate (4 - n) MergerWord.filler).flatMap (fun w => leBytes 8 w.bits.toNat) ∧
      OnlyRegs [Reg.RM_RUNS m] s u ∧ u.fld (Reg.RM_RUNS m) F.RM_RUNS_COUNT =
        min (s.fld (Reg.RM_RUNS m) F.RM_RUNS_COUNT + runWords (x.out.take n)) (2 ^ 32 - 1) ∧
      u = { s with regs := u.regs, rx := u.rx, cw := u.cw } := by
  subst hflit
  obtain ⟨q, c, hsend, hnet, hsrc, hdst, hdtag, hcls, hkind, hdata⟩ := sendPacket_runs
    ((epState_takeWords s m x (flitWords s m x)).trans hep)
    (x.out.take (flitWords s m x) ++ List.replicate (4 - flitWords s m x) .filler)
  refine ⟨_, q, (execMergerSend_sends hready hx hout hn hep).trans (congrArg _ hsend), ?_, hnet, hsrc, hdst, hdtag, hcls,
    hkind, hdata, takeWords_onlyRegs s m x _, takeWords_count s m x _, rfl⟩
  exact State.setExt_ext_self _ m _

end

theorem extractorScan_settled {m : Fin 17} {t : Fin 16} {e : ExtractSet} {s : State}
    (he : (s.ext m).sets.find? (fun e => e.closed && !e.scanned.getLsbD t.val) = some e) (hwrote : maskGet e.wrote t = 0)
    (hband : s.fld (Reg.RM_STAT m) F.RM_STAT_BAND = 0)
    (hroom : (trussRuns e t).length + queuedRuns (s.ext m).queues[t] ≤ 64) :
    ∃ u, exec (.extractorScan m t) s = .next u ∧
      (u.ext m).queues = (s.ext m).queues.set t ((s.ext m).queues[t] ++ (trussRuns e t).map some ++ [none]) ∧
      (∃ e' ∈ (u.ext m).sets, e'.scanned = e.scanned ||| (1#16 <<< t.val) ∧ e'.planes = e.planes ∧
        e'.runs = e.runs + (trussRuns e t).length) ∧
      u = { s with rx := u.rx } ∧ ∀ k, k ≠ m → u.ext k = s.ext k := by
  refine ⟨_, execExtractorScan_room he hwrote hband hroom, ?_, ⟨scannedSet e t, ?_, rfl, rfl, rfl⟩, rfl,
    fun k hk => State.setExt_ext_ne s _ hk⟩
  · rw [State.setExt_ext_self]
    rfl
  · rw [State.setExt_ext_self]
    exact mem_replaceFirst (fun _ => scannedSet e t) he

/-- Settles O24: a scan by the room its runs find, the merger by the words it can send (`flitWords`). -/
theorem runExtractionCommandsComplete : Obligations.RunExtractionCommandsComplete := by
  refine ⟨fun m t e s => extractorScan_settled, ?full, ?mark⟩
  case full =>
    intro m s x n hband htruss hout
    have hready := mergerReady_eq hband htruss
    have hx := mergeFlit_full (mute := setMuted s m) hout 4096 (spanPos s m) (s.flag (Reg.RM_STAT m) F.RM_STAT_BAND)
    have hne : x.out ≠ [] := List.ne_nil_of_length_pos (by omega)
    refine ⟨fun hn hep => ?_, fun h => execMergerSend_holds hready hx hne ?_⟩
    · have hflit : flitWords s m x = 4 := by
        unfold flitWords
        omega
      obtain ⟨u, q, hu⟩ := execMergerSend_flit hready hx hne hflit (by decide) hep
      simp only [Nat.sub_self, List.replicate_zero, List.append_nil] at hu
      exact ⟨u, q, hu⟩
    · refine h.imp_left fun hn => ?_
      unfold flitWords
      omega
  case mark =>
    intro m e s x hband htruss hout hjoined hsets hclosed hscanned hord hcredit hep
    have hready := mergerReady_eq hband htruss
    have hx := mergeFlit_mark (mute := setMuted s m) htruss hout hjoined hsets hclosed hscanned hord 4095 (spanPos s m)
      (s.flag (Reg.RM_STAT m) F.RM_STAT_BAND)
    have hflit : flitWords s m (markedExt x e (s.flag (Reg.RM_STAT m) F.RM_STAT_BAND)) = 1 := by
      simp only [flitWords, markedExt, List.length_singleton]
      omega
    obtain ⟨u, q, hu, hext, hnet, -, hdst, -, -, -, hdata, hregs, -, hframe⟩ :=
      execMergerSend_flit hready hx (List.cons_ne_nil _ _) hflit (by decide) hep
    exact ⟨u, q, hu, congrArg Extraction.sets hext, congrArg Extraction.truss hext, congrArg Extraction.out hext, hnet, hdst,
      hdata, hregs, hframe⟩

end Sys2Proof.Machine
end

