-- ==== Sys2Proof/Proofs/BitProcessors.lean ====
section
/-!
PROOFS. The cycle of a bit processor (R22-R26), the moves of X (R41-R43) and the row parity of a gated write (R28, R30),
each said for one duty column or one group.
-/

namespace Sys2Proof.Machine

/-! ## One column of a cycle -/

/-- Bit `j` of a truth table's result is the bit of the table that the three operand bits select. -/
theorem lut_getLsbD {w j : Nat} (hj : j < w) (f : Nat) (x y z : BitVec w) :
    (lut w f x y z).getLsbD j =
      f.testBit (4 * (x.getLsbD j).toNat + 2 * (y.getLsbD j).toNat + (z.getLsbD j).toNat) := by
  have hterm (p : Prop) [Decidable p] (v : BitVec w) : (if p then v else 0)[j] = (decide p && v[j]) := by
    by_cases hp : p <;> simp [hp]
  simp only [BitVec.getLsbD_eq_getElem hj, lut, BitVec.getElem_or, hterm]
  cases hx : x[j] <;> cases hy : y[j] <;> cases hz : z[j] <;> simp [hx, hy, hz, Nat.testBit_eq_decide_div_mod_eq]

theorem Plane.merge_getLsbD (en x y : Plane) {j : Nat} (hj : j < 16384) :
    (Plane.merge en x y).duty.getLsbD j = if en.duty.getLsbD j then y.duty.getLsbD j else x.duty.getLsbD j := by
  simp only [Plane.merge, Plane.and, Plane.or, Plane.not, BitVec.getLsbD_or, BitVec.getLsbD_and, BitVec.getLsbD_not, hj,
    decide_true, Bool.true_and]
  cases en.duty.getLsbD j <;> simp

/-- A column is enabled without gating, or where M is 1. -/
theorem gate_getLsbD (gate : Bool) (m : Plane) {j : Nat} (hj : j < 16384) :
    (if gate then m else Plane.ones).duty.getLsbD j = (!gate || m.duty.getLsbD j) := by
  cases gate
  · exact (BitVec.getLsbD_allOnes).trans (decide_eq_true hj)
  · rfl

/-! ## The stored rows -/

theorem rowGet_filter_ne (rs : List (Nat × Plane)) (a r : Nat) :
    rowGet (rs.filter (fun e => e.1 != a)) r = if r = a then .zero else rowGet rs r := by
  induction rs with
  | nil => simp [rowGet]
  | cons e rs ih =>
    obtain ⟨k, v⟩ := e
    by_cases hk : k = a <;> by_cases hr : k = r <;> simp_all [rowGet]

theorem rowGet_rowInsert (rs : List (Nat × Plane)) (a r : Nat) (p : Plane) :
    rowGet (rowInsert rs a p) r = if r = a then p else rowGet rs r := by
  induction rs with
  | nil => simp only [rowInsert, rowGet, eq_comm]
  | cons e rs ih =>
    obtain ⟨k, v⟩ := e
    simp only [rowInsert, apply_ite (rowGet · r), rowGet, ih]
    by_cases hk : k = a
    · subst hk
      by_cases hr : k = r
      · simp [hr]
      · simp [hr, Ne.symm hr]
    · by_cases hr : r = a
      · subst hr
        simp [hk]
      · simp [hk, hr, Ne.symm hr]

/-- A row read after a row was stored. -/
theorem rowGet_rowSet (rs : List (Nat × Plane)) (a r : Nat) (p : Plane) :
    rowGet (rowSet rs a p) r = if r = a then p else rowGet rs r := by
  unfold rowSet
  split
  · rw [rowGet_filter_ne, ‹p = _›]
  · exact rowGet_rowInsert rs a r p

theorem writeRow_rows_getLsbD (x : SpanArray) (row r : Nat) (en v : Plane) {j : Nat} (hj : j < 16384) :
    (rowGet (writeRow x row en v).rows r).duty.getLsbD j =
      if r = row ∧ en.duty.getLsbD j = true then v.duty.getLsbD j else (rowGet x.rows r).duty.getLsbD j := by
  simp only [writeRow, rowGet_rowSet]
  by_cases hr : r = row
  · simp only [hr, if_true, true_and, Plane.merge_getLsbD _ _ _ hj]
  · simp only [hr, if_false, false_and]

/-! ## The registers that a cycle writes -/

section

variable (x : SpanArray) (sel : Nat) (en v : Plane)

theorem nanoWriteReg_p : (nanoWriteReg x sel en v).p = if sel = 1 then Plane.merge en x.p v else x.p := by
  unfold nanoWriteReg
  split_ifs <;> rfl

theorem nanoWriteReg_q : (nanoWriteReg x sel en v).q = if sel = 2 then Plane.merge en x.q v else x.q := by
  unfold nanoWriteReg
  split_ifs <;> simp_all

theorem nanoWriteReg_c : (nanoWriteReg x sel en v).c = if sel = 3 then Plane.merge en x.c v else x.c := by
  unfold nanoWriteReg
  split_ifs <;> simp_all

theorem nanoWriteReg_x : (nanoWriteReg x sel en v).x = if sel = 4 then Plane.merge en x.x v else x.x := by
  unfold nanoWriteReg
  split_ifs <;> simp_all

theorem nanoWriteReg_t : (nanoWriteReg x sel en v).t = if sel = 5 then Plane.merge en x.t v else x.t := by
  unfold nanoWriteReg
  split_ifs <;> simp_all

theorem nanoWriteReg_m : (nanoWriteReg x sel en v).m = if sel = 6 then v else x.m := by
  unfold nanoWriteReg
  split_ifs <;> simp_all

theorem nanoWriteReg_rows : (nanoWriteReg x sel en v).rows = x.rows := by
  unfold nanoWriteReg
  split_ifs <;> rfl

end

/-- The memory write source in a column: S, K, or a register as the cycle found it. -/
theorem nanoWriteSource_getLsbD (x : SpanArray) (s k : Plane) (sel j : Nat) :
    (nanoWriteSource x s k sel).duty.getLsbD j =
      if sel = 0 then s.duty.getLsbD j else if sel = 1 then k.duty.getLsbD j
      else (nanoWriteSource x .zero .zero sel).duty.getLsbD j := by
  unfold nanoWriteSource
  by_cases hs : sel = 0
  · simp only [hs, if_true]
  · by_cases hk : sel = 1
    · simp [hk]
    · simp only [hs, hk, if_false]

/-! ## The cycle -/

section

variable (w : Nano) (row : Nat) (con : Bool) (x : SpanArray)

/-- What the truth table `f` gives of the operands at the start of the cycle: S for FS, K for FK. -/
def bpResult (f : Nat) : Plane :=
  let mem := if w.mop = 1 then rowGet x.rows row else .zero
  Plane.lut f (nanoOperand x mem con w.ia) (nanoOperand x mem con w.ib) (nanoOperand x mem con w.ic)

/-- The columns in which the cycle writes. -/
def bpEnabled : Plane := if w.gate then x.m else .ones

/-- The array between the row write and the register writes of the cycle. -/
def bpRowWritten : SpanArray :=
  if w.mop = 2 then writeRow x row (bpEnabled w x)
    (nanoWriteSource x (bpResult w row con x w.fs) (bpResult w row con x w.fk) w.wsrc) else x

theorem bpCycle_eq : bpCycle w row con x =
    (nanoWriteReg (nanoWriteReg (bpRowWritten w row con x) w.ds (bpEnabled w x) (bpResult w row con x w.fs)) w.dk
      (bpEnabled w x) (bpResult w row con x w.fk), bpResult w row con x w.fs) := rfl

/-- A row write leaves the registers. -/
theorem bpRowWritten_regs : bpRowWritten w row con x =
    { x with rows := (bpRowWritten w row con x).rows, parBad := (bpRowWritten w row con x).parBad } := by
  unfold bpRowWritten
  split <;> rfl

/-- What register `r`, with `old` in it, holds after the writes of DS and of DK. -/
def bpDest (r : Nat) (old : Plane) : Plane :=
  let y := if w.ds = r then Plane.merge (bpEnabled w x) old (bpResult w row con x w.fs) else old
  if w.dk = r then Plane.merge (bpEnabled w x) y (bpResult w row con x w.fk) else y

theorem bpCycle_regs :
    let y := (bpCycle w row con x).1
    y.p = bpDest w row con x 1 x.p ∧ y.q = bpDest w row con x 2 x.q ∧ y.c = bpDest w row con x 3 x.c ∧
      y.x = bpDest w row con x 4 x.x ∧ y.t = bpDest w row con x 5 x.t := by
  simp only [bpCycle_eq, nanoWriteReg_p, nanoWriteReg_q, nanoWriteReg_c, nanoWriteReg_x, nanoWriteReg_t]
  rw [bpRowWritten_regs]
  exact ⟨rfl, rfl, rfl, rfl, rfl⟩

theorem bpCycle_m : (bpCycle w row con x).1.m =
    if w.dk = 6 then bpResult w row con x w.fk else if w.ds = 6 then bpResult w row con x w.fs else x.m := by
  simp only [bpCycle_eq, nanoWriteReg_m]
  rw [bpRowWritten_regs]

theorem bpCycle_rows : (bpCycle w row con x).1.rows = (bpRowWritten w row con x).rows := by
  simp only [bpCycle_eq, nanoWriteReg_rows]

variable {w row con x} {j : Nat}

theorem bpResult_getLsbD (hj : j < 16384) (f : Nat) :
    let mem := if w.mop = 1 then rowGet x.rows row else .zero
    (bpResult w row con x f).duty.getLsbD j = f.testBit (4 * ((nanoOperand x mem con w.ia).duty.getLsbD j).toNat +
      2 * ((nanoOperand x mem con w.ib).duty.getLsbD j).toNat + ((nanoOperand x mem con w.ic).duty.getLsbD j).toNat) :=
  lut_getLsbD hj _ _ _ _

theorem bpDest_getLsbD (hj : j < 16384) (hne : w.ds ≠ w.dk ∨ w.ds = 0) {r : Nat} (hr : r ≠ 0) (old : Plane) :
    (bpDest w row con x r old).duty.getLsbD j =
      if w.ds = r ∧ (bpEnabled w x).duty.getLsbD j = true then (bpResult w row con x w.fs).duty.getLsbD j
      else if w.dk = r ∧ (bpEnabled w x).duty.getLsbD j = true then (bpResult w row con x w.fk).duty.getLsbD j
      else old.duty.getLsbD j := by
  unfold bpDest
  by_cases hs : w.ds = r
  · have hk : w.dk ≠ r := by omega
    simp only [hs, hk, if_true, if_false, true_and, false_and, Plane.merge_getLsbD _ _ _ hj]
  · by_cases hk : w.dk = r
    · simp only [hs, hk, if_true, if_false, true_and, false_and, Plane.merge_getLsbD _ _ _ hj]
    · simp only [hs, hk, if_false, false_and]

theorem bpRowWritten_getLsbD (hj : j < 16384) (r : Nat) :
    (rowGet (bpRowWritten w row con x).rows r).duty.getLsbD j =
      if w.mop = 2 ∧ r = row ∧ (bpEnabled w x).duty.getLsbD j = true then
        (if w.wsrc = 0 then (bpResult w row con x w.fs).duty.getLsbD j
         else if w.wsrc = 1 then (bpResult w row con x w.fk).duty.getLsbD j
         else (nanoWriteSource x .zero .zero w.wsrc).duty.getLsbD j)
      else (rowGet x.rows r).duty.getLsbD j := by
  unfold bpRowWritten
  by_cases hw : w.mop = 2
  · simp only [hw, if_true, true_and, writeRow_rows_getLsbD _ _ _ _ _ hj, nanoWriteSource_getLsbD x (bpResult _ _ _ _ _)]
  · simp only [hw, if_false, false_and]

end

/-- Settles O2: each register by the writes of DS and DK (`bpDest`), the rows by the gated row write. -/
theorem bitProcessorCycle : Obligations.BitProcessorCycle := by
  intro w row con x j hj hne
  extract_lets bit mem i sv kv en y takes source
  have hs : (bpResult w row con x w.fs).duty.getLsbD j = sv := bpResult_getLsbD hj _
  have hk : (bpResult w row con x w.fk).duty.getLsbD j = kv := bpResult_getLsbD hj _
  have hen : (bpEnabled w x).duty.getLsbD j = en := gate_getLsbD _ _ hj
  have htakes (r : Nat) (hr : r ≠ 0) (old : Plane) : bit (bpDest w row con x r old) = takes r old := by
    simp only [bit, takes, bpDest_getLsbD hj hne hr, hs, hk, hen]
  obtain ⟨hp, hq, hc, hx, ht⟩ := bpCycle_regs w row con x
  refine ⟨hs, ?_, ?_, ?_, ?_, ?_, ?m, fun r => ?row⟩
  case m =>
    have hm : w.ds = 6 → w.dk ≠ 6 := by omega
    simp only [bit, y, bpCycle_m, apply_ite Plane.duty, apply_ite (BitVec.getLsbD · j), hs, hk]
    by_cases h : w.ds = 6
    · rw [if_pos h, if_neg (hm h), if_pos h]
    · rw [if_neg h, if_neg h]
  case row => simp only [bit, y, bpCycle_rows, bpRowWritten_getLsbD hj, hs, hk, hen, source]
  · exact hp ▸ htakes 1 (by decide) x.p
  · exact hq ▸ htakes 2 (by decide) x.q
  · exact hc ▸ htakes 3 (by decide) x.c
  · exact hx ▸ htakes 4 (by decide) x.x
  · exact ht ▸ htakes 5 (by decide) x.t

/-! ## Moves of X (R41-R43) -/

/-- What a column takes of beyond an edge without coupling: 0, 1, or the span's own column `k` (R43). -/
def edgeBit (bnd : Nat) (x : BitVec 16384) (k : Nat) : Bool := if bnd = 0 then false else if bnd = 1 then true else x.getLsbD k

section

variable (s : State) (m : Fin 17) {bnd : Nat} (f : BitVec 32) {j : Nat}

theorem westBeyond_getLsbD (hb : bnd ≤ 2) (hj : j < 32) :
    (westBeyond s m bnd f).getLsbD j = edgeBit bnd (s.array m).x.duty (16352 + j) := by
  unfold westBeyond edgeBit
  obtain rfl | rfl | rfl : bnd = 0 ∨ bnd = 1 ∨ bnd = 2 := by omega
  · simp
  · exact BitVec.getLsbD_allOnes.trans (decide_eq_true hj)
  · simp [hj]

theorem eastBeyond_getLsbD (hb : bnd ≤ 2) (hj : j < 32) :
    (eastBeyond s m bnd f).getLsbD j = edgeBit bnd (s.array m).x.duty j := by
  unfold eastBeyond edgeBit
  obtain rfl | rfl | rfl : bnd = 0 ∨ bnd = 1 ∨ bnd = 2 := by omega
  · simp
  · exact BitVec.getLsbD_allOnes.trans (decide_eq_true hj)
  · simp [hj]

/-- A move by `d` towards the east: inner columns take their western neighbours, the first `d` what lies beyond. -/
theorem shiftEast_getLsbD {d : Nat} (x : BitVec 16384) (e : BitVec d) (hj : j < 16384) :
    (x <<< d ||| e.setWidth 16384).getLsbD j = if j < d then e.getLsbD j else x.getLsbD (j - d) := by
  simp only [BitVec.getLsbD_or, BitVec.getLsbD_shiftLeft, BitVec.getLsbD_setWidth, hj, decide_true, Bool.true_and]
  by_cases h : j < d
  · simp [h]
  · simp [h, BitVec.getLsbD_of_ge e j (by omega)]

/-- A move by `d` towards the west: inner columns take their eastern neighbours, the last `d` what lies beyond. -/
theorem shiftWest_getLsbD {d k : Nat} (x : BitVec 16384) (e : BitVec d) (hk : k + d = 16384) (hj : j < 16384) :
    (x >>> d ||| (e.setWidth 16384 <<< k)).getLsbD j = if j + d < 16384 then x.getLsbD (j + d) else e.getLsbD (j - k) := by
  simp only [BitVec.getLsbD_or, BitVec.getLsbD_ushiftRight, BitVec.getLsbD_shiftLeft, BitVec.getLsbD_setWidth, hj,
    decide_true, Bool.true_and]
  by_cases h : j + d < 16384
  · simp [h, show j < k by omega, Nat.add_comm]
  · simp [h, show ¬j < k by omega, show j - k < 16384 by omega, BitVec.getLsbD_of_ge x (d + j) (by omega)]

variable (fw fe : BitVec 32) {xm d : Nat}

theorem moveX_east (hx : xm = 1 ∧ d = 1 ∨ xm = 3 ∧ d = 32) (hj : j < 16384) :
    (moveX s m xm bnd fw fe).getLsbD j =
      if j < d then (westBeyond s m bnd fw).getLsbD (32 - d + j) else (s.array m).x.duty.getLsbD (j - d) := by
  obtain ⟨rfl, rfl⟩ | ⟨rfl, rfl⟩ := hx
  · refine (shiftEast_getLsbD _ _ hj).trans ?_
    by_cases h : j < 1 <;> simp [h]
  · refine (shiftEast_getLsbD _ _ hj).trans ?_
    simp only [Nat.sub_self, Nat.zero_add]

theorem moveX_west (hx : xm = 2 ∧ d = 1 ∨ xm = 4 ∧ d = 32) (hj : j < 16384) :
    (moveX s m xm bnd fw fe).getLsbD j = if j + d < 16384 then (s.array m).x.duty.getLsbD (j + d)
      else (eastBeyond s m bnd fe).getLsbD (j + d - 16384) := by
  obtain ⟨rfl, rfl⟩ | ⟨rfl, rfl⟩ := hx
  · refine (shiftWest_getLsbD _ _ rfl hj).trans ?_
    by_cases h : j + 1 < 16384
    · simp only [h, if_true]
    · simp [show j = 16383 by omega]
  · refine (shiftWest_getLsbD _ _ rfl hj).trans ?_
    simp only [show j + 32 - 16384 = j - 16352 by omega]

end

/-- Settles O3: inner columns by the shift (`moveX_east`, `moveX_west`), the edge columns by what lies beyond. -/
theorem neighbourMoves : Obligations.NeighbourMoves := by
  intro s m xm bnd fw fe j hj h1 h4 x d y
  have hedge {k : Nat} (hb : bnd ≤ 2 → y = edgeBit bnd x k) :
      (bnd = 0 → y = false) ∧ (bnd = 1 → y = true) ∧ (bnd = 2 → y = x.getLsbD k) := by
    refine ⟨?_, ?_, ?_⟩ <;> rintro rfl <;> exact hb (by decide)
  have hd : (xm = 1 ∨ xm = 2) ∧ d = 1 ∨ (xm = 3 ∨ xm = 4) ∧ d = 32 := by
    simp only [d]
    split <;> omega
  clear_value d
  by_cases heast : xm = 1 ∨ xm = 3
  · have hy := moveX_east s m (bnd := bnd) fw fe (xm := xm) (d := d) (by omega) hj
    refine ⟨fun _ h => hy.trans (if_neg (by omega)), fun h => by omega, fun h => ?_⟩
    have hlt : j < d := by omega
    rw [if_pos heast, show j + 16384 - d = 16352 + (32 - d + j) by omega]
    exact hedge fun hb => hy.trans ((if_pos hlt).trans (westBeyond_getLsbD s m fw hb (by omega)))
  · have hy := moveX_west s m (bnd := bnd) fw fe (xm := xm) (d := d) (by omega) hj
    refine ⟨fun h => by omega, fun _ h => hy.trans (if_pos h), fun h => ?_⟩
    have hge : ¬j + d < 16384 := by omega
    rw [if_neg heast]
    exact hedge fun hb => hy.trans ((if_neg hge).trans (eastBeyond_getLsbD s m fe hb (by omega)))

/-! ## Row parity (R28, R30) -/

theorem groupBits_getLsbD (v : BitVec 16384) (g : Nat) {j : Nat} (hj : j < 32) :
    (groupBits v g).getLsbD j = v.getLsbD (32 * g + j) := by
  simp [groupBits, hj]

theorem groupBits_eq_allOnes_iff (v : BitVec 16384) (g : Nat) :
    groupBits v g = BitVec.allOnes 32 ↔ ∀ j < 32, v.getLsbD (32 * g + j) = true := by
  refine ⟨fun h j hj => ?_, fun h => BitVec.eq_of_getLsbD_eq fun j hj => ?_⟩
  · rw [← groupBits_getLsbD v g hj, h, BitVec.getLsbD_allOnes, decide_eq_true hj]
  · rw [groupBits_getLsbD v g hj, h j hj, BitVec.getLsbD_allOnes, decide_eq_true hj]

theorem groupBits_eq_zero_iff (v : BitVec 16384) (g : Nat) :
    groupBits v g = 0 ↔ ∀ j < 32, v.getLsbD (32 * g + j) = false := by
  refine ⟨fun h j hj => ?_, fun h => BitVec.eq_of_getLsbD_eq fun j hj => ?_⟩
  · rw [← groupBits_getLsbD v g hj, h]
    exact BitVec.getLsbD_zero
  · rw [groupBits_getLsbD v g hj, h j hj]
    exact BitVec.getLsbD_zero.symm

theorem mem_badGroups_iff (x : SpanArray) (row : Nat) {g : Nat} (hg : g < 512) :
    g ∈ badGroups x row ↔ row * 512 + g ∈ x.parBad := by
  simp only [badGroups, List.mem_map, List.mem_filter, beq_iff_eq]
  refine ⟨?_, fun h => ⟨_, ⟨h, by omega⟩, by omega⟩⟩
  rintro ⟨e, ⟨he, rfl⟩, rfl⟩
  rwa [Nat.mul_comm, Nat.div_add_mod]

/-- Settles O5: a group's enable bits are all 1, all 0, or mixed (`groupBits_eq_allOnes_iff`, `groupBits_eq_zero_iff`). -/
theorem gatedRowWriteParity : Obligations.GatedRowWriteParity := by
  intro x row r g en v hg
  have hrow : (r * 512 + g) / 512 = r := by omega
  have hgroup : (r * 512 + g) % 512 = g := by omega
  refine ⟨?_, ?_⟩
  · simp only [writeRow, parityAfterWrite, List.mem_filter, hrow, hgroup, Bool.not_eq_true', Bool.and_eq_false_iff,
      ← groupBits_eq_allOnes_iff]
    simp [imp_iff_not_or]
  · simp only [writeReported, List.mem_filter, mem_badGroups_iff x row hg, Bool.and_eq_true, bne_iff_ne, ne_eq,
      groupBits_eq_allOnes_iff, groupBits_eq_zero_iff]
    simp

end Sys2Proof.Machine
end

