-- ==== Sys2Proof/Proofs/Joints.lean ====
section
/-!
PROOFS. Joints: which are in use and what a refused coupling receives (R45), and their monitors: a breach flags a span,
and the flag clears (R52, R54, R55).
-/

namespace Sys2Proof.Machine

/-! ## States that differ in their registers alone -/

/-- Nothing but registers differs. -/
def RegsOnly (s t : State) : Prop := ∃ regs, t = { s with regs := regs }

namespace RegsOnly

variable {s t u : State}

theorem refl (s : State) : RegsOnly s s := ⟨s.regs, rfl⟩

theorem trans (h : RegsOnly s t) (k : RegsOnly t u) : RegsOnly s u := by
  obtain ⟨r, rfl⟩ := h
  obtain ⟨r', rfl⟩ := k
  exact ⟨r', rfl⟩

theorem eq (h : RegsOnly s t) : t = { s with regs := t.regs } := by
  obtain ⟨r, rfl⟩ := h
  rfl

theorem setReg (h : RegsOnly s t) (a : Nat) (w : BitVec 32) : RegsOnly s (t.setReg a w) := h.trans ⟨_, rfl⟩

theorem setFld (h : RegsOnly s t) (a : Nat) (f : Fld) (v : Nat) : RegsOnly s (t.setFld a f v) := h.setReg a _

theorem bump (h : RegsOnly s t) (a : Nat) (f : Fld) (k : Nat) : RegsOnly s (t.bump a f k) := h.setReg a _

theorem ite {c : Prop} {_ : Decidable c} (ht : RegsOnly s t) (hu : RegsOnly s u) : RegsOnly s (if c then t else u) := by
  split <;> assumption

theorem foldl {α : Type} {f : State → α → State} (hf : ∀ t x, RegsOnly t (f t x)) (h : RegsOnly s t) (xs : List α) :
    RegsOnly s (xs.foldl f t) :=
  List.foldlRecOn xs f h (fun t ht x _ => ht.trans (hf t x))

end RegsOnly

/-! ## Settings of the coupled groups -/

/-- The settings of every span's group read as before. -/
def SameCouple (s t : State) : Prop := ∀ m, t.reg (Reg.ARR_COUPLE m) = s.reg (Reg.ARR_COUPLE m)

namespace SameCouple

variable {s t u : State}

theorem refl (s : State) : SameCouple s s := fun _ => rfl

theorem trans (h : SameCouple s t) (k : SameCouple t u) : SameCouple s u := fun m => (k m).trans (h m)

theorem of_onlyRegs {l : List Nat} (h : OnlyRegs l s t) (hl : ∀ m, Reg.ARR_COUPLE m ∉ l) : SameCouple s t :=
  fun m => h _ (hl m)

section

variable (h : SameCouple s t)

include h

theorem fld (m : Nat) (f : Fld) : t.fld (Reg.ARR_COUPLE m) f = s.fld (Reg.ARR_COUPLE m) f := congrArg f.get (h m)

theorem spanPos (m : Nat) : Machine.spanPos t m = Machine.spanPos s m := h.fld m _

theorem spanSizeLog (m : Nat) : Machine.spanSizeLog t m = Machine.spanSizeLog s m := h.fld m _

theorem expectsEast (m : Nat) : Machine.expectsEast t m = Machine.expectsEast s m := by
  unfold Machine.expectsEast
  rw [h.spanPos, h.spanSizeLog]

theorem expectsWest (m : Nat) : Machine.expectsWest t m = Machine.expectsWest s m := by
  unfold Machine.expectsWest
  rw [h.spanPos]

theorem jointInUse (j : Nat) : Machine.jointInUse t j = Machine.jointInUse s j := by
  simp only [Machine.jointInUse, h.expectsEast, h.expectsWest, h.spanPos, h.spanSizeLog]

theorem jointMismatch (j : Nat) : Machine.jointMismatch t j = Machine.jointMismatch s j := by
  simp only [Machine.jointMismatch, h.expectsEast, h.expectsWest, h.jointInUse]

end

end SameCouple

/-! ## Joints in use (R45) -/

theorem expectsEast_iff (s : State) (m : Nat) : expectsEast s m = true ↔ spanPos s m < 2 ^ spanSizeLog s m - 1 := by
  simp only [expectsEast, decide_eq_true_eq]
  omega

theorem expectsWest_iff (s : State) (m : Nat) : expectsWest s m = true ↔ 0 < spanPos s m := decide_eq_true_iff

theorem jointInUse_iff (s : State) {j : Nat} (hj : j < 16) : jointInUse s j = true ↔
    expectsEast s j = true ∧ expectsWest s (j + 1) = true ∧ spanSizeLog s j = spanSizeLog s (j + 1) ∧
      spanPos s j + 1 = spanPos s (j + 1) := by
  simp only [jointInUse, hj, decide_true, Bool.true_and, Bool.and_eq_true, beq_iff_eq, and_assoc]

/-- A coupled move takes 0 from a refused edge. -/
theorem eastBeyond_refused {s : State} {m : Fin 17} {j : Nat} (hm : m.val = j) (he : expectsEast s j = true)
    (hu : jointInUse s j = false) (f : BitVec 32) : eastBeyond s m 3 f = 0 := by
  subst hm
  simp [eastBeyond, he, hu]

theorem westBeyond_refused {s : State} {m : Fin 17} {j : Nat} (hm : m.val = j + 1) (he : expectsWest s (j + 1) = true)
    (hu : jointInUse s j = false) (f : BitVec 32) : westBeyond s m 3 f = 0 := by
  simp [westBeyond, hm, he, hu]

/-- `ARR_JOINT_STAT` of one joint shows IN_USE and MISMATCH. -/
def showJoint (s : State) (j : Nat) : State :=
  (s.setFld (Reg.ARR_JOINT_STAT j) F.ARR_JOINT_STAT_IN_USE (jointInUse s j).toNat).setFld (Reg.ARR_JOINT_STAT j)
    F.ARR_JOINT_STAT_MISMATCH (jointMismatch s j).toNat

theorem refreshJoints_eq (s : State) : refreshJoints s = (List.range 16).foldl showJoint s := rfl

theorem showJoint_onlyRegs (s : State) (j : Nat) : OnlyRegs [Reg.ARR_JOINT_STAT j] s (showJoint s j) :=
  (OnlyRegs.setFld s _ _ (by simp)).trans (OnlyRegs.setFld _ _ _ (by simp))

theorem ARR_COUPLE_ne_ARR_JOINT_STAT (m j : Nat) : Reg.ARR_COUPLE m ≠ Reg.ARR_JOINT_STAT j := by
  simp only [Reg.ARR_COUPLE, Reg.ARR_JOINT_STAT]
  omega

theorem showJoint_sameCouple (s : State) (j : Nat) : SameCouple s (showJoint s j) :=
  .of_onlyRegs (showJoint_onlyRegs s j) fun m => by simpa using ARR_COUPLE_ne_ARR_JOINT_STAT m j

/-- Joint `j` of `t` shows what the settings of `s` make of it. -/
def ShowsJoint (s t : State) (j : Nat) : Prop :=
  t.fld (Reg.ARR_JOINT_STAT j) F.ARR_JOINT_STAT_IN_USE = (jointInUse s j).toNat ∧
    t.fld (Reg.ARR_JOINT_STAT j) F.ARR_JOINT_STAT_MISMATCH = (jointMismatch s j).toNat

theorem showJoint_shows (s : State) (j : Nat) : ShowsJoint s (showJoint s j) j := by
  have hbit (b : Bool) : b.toNat % 2 = b.toNat := by cases b <;> rfl
  refine ⟨?_, (State.setFld_fld_self _ _ _ ⟨by decide, by decide⟩ _).trans (hbit _)⟩
  refine (State.setFld_fld_disjoint _ _ _ _ ⟨by decide, by decide⟩ (by decide) (by decide) _).trans ?_
  exact (State.setFld_fld_self _ _ _ ⟨by decide, by decide⟩ _).trans (hbit _)

theorem showJoint_keeps {s t : State} {j : Nat} (h : ShowsJoint s t j) (hc : SameCouple s t) (k : Nat) :
    ShowsJoint s (showJoint t k) j := by
  by_cases hk : j = k
  · subst hk
    obtain ⟨hin, hmis⟩ := showJoint_shows t j
    exact ⟨hin.trans (by rw [hc.jointInUse]), hmis.trans (by rw [hc.jointMismatch])⟩
  · have hreg : (showJoint t k).reg (Reg.ARR_JOINT_STAT j) = t.reg (Reg.ARR_JOINT_STAT j) :=
      showJoint_onlyRegs t k _ (by simp only [List.mem_singleton, Reg.ARR_JOINT_STAT]; omega)
    exact ⟨(congrArg _ hreg).trans h.1, (congrArg _ hreg).trans h.2⟩

/-- The settings do not change under the fold, so every joint of the list shows what the first state makes of it. -/
theorem foldl_showJoint_shows {s t : State} {j : Nat} (l : List Nat) (hc : SameCouple s t) (h : j ∈ l ∨ ShowsJoint s t j) :
    ShowsJoint s (l.foldl showJoint t) j := by
  induction l generalizing t with
  | nil => exact h.resolve_left List.not_mem_nil
  | cons k l ih =>
    refine ih (hc.trans (showJoint_sameCouple t k)) ?_
    obtain hmem | hshows := h
    · obtain rfl | hmem := List.mem_cons.1 hmem
      · obtain ⟨hin, hmis⟩ := showJoint_shows t j
        exact .inr ⟨hin.trans (by rw [hc.jointInUse]), hmis.trans (by rw [hc.jointMismatch])⟩
      · exact .inl hmem
    · exact .inr (showJoint_keeps hshows hc k)

theorem refreshJoints_shows (s : State) {j : Nat} (hj : j < 16) : ShowsJoint s (refreshJoints s) j :=
  foldl_showJoint_shows (List.range 16) (.refl s) (.inl (List.mem_range.2 hj))

/-- Settles O4: the settings by the definitions, the register by the fold that shows every joint. -/
theorem jointsInUse : Obligations.JointsInUse := by
  intro s j fl w e pos size east west used
  have hj := j.isLt
  have heast : expectsEast s j = true ↔ east := expectsEast_iff s j
  have hwest : expectsWest s (j + 1) = true ↔ west := expectsWest_iff s (j + 1)
  have hused : jointInUse s j = true ↔ used := by
    rw [jointInUse_iff s hj, heast, hwest]
    rfl
  obtain ⟨hin, hmis⟩ := refreshJoints_shows s hj
  have hnot : ¬used → jointInUse s j = false := fun hu => Bool.eq_false_iff.2 (mt hused.1 hu)
  have hmismatch : jointMismatch s j = true ↔ (east ∨ west) ∧ ¬used := by
    rw [← heast, ← hwest, ← hused]
    simp [jointMismatch, hj]
  clear_value east west used
  refine ⟨hused, fun h hu => eastBeyond_refused (j := j) rfl (heast.2 h) (hnot hu) fl,
    fun h hu => westBeyond_refused (j := j) rfl (hwest.2 h) (hnot hu) fl, ?_, ?_⟩
  · rw [hmis, Bool.toNat_eq_one, hmismatch]
  · rw [hin, Bool.toNat_eq_one, hused]

/-! ## Joint monitors (R52, R54, R55) -/

theorem ARR_STAT_ne_ARR_JOINT_STAT (m j : Nat) : Reg.ARR_STAT m ≠ Reg.ARR_JOINT_STAT j := by
  simp only [Reg.ARR_STAT, Reg.ARR_JOINT_STAT]
  omega

theorem ARR_COUPLE_ne_ARR_STAT (m j : Nat) : Reg.ARR_COUPLE m ≠ Reg.ARR_STAT j := by
  simp only [Reg.ARR_COUPLE, Reg.ARR_STAT]
  omega

section

variable (s : State) (j : Fin 16) (m : JointMeasure)

theorem showMeasure_only : ∃ regs below, showMeasure s j m = { s with regs := regs, jointBelow := below } := by
  unfold showMeasure
  extract_lets a low kept new below isOver
  have hbelow : RegsOnly below (((((((below.setFld a F.ARR_JOINT_STAT_DVOLT m.dvolt.toNat).setFld a F.ARR_JOINT_STAT_DTEMP
    m.dtemp.toNat).setFld a F.ARR_JOINT_STAT_PHASE m.phase.toNat).setFld a F.ARR_JOINT_STAT_V_OVER (isOver 0)).setFld a
    F.ARR_JOINT_STAT_T_OVER (isOver 1)).setFld a F.ARR_JOINT_STAT_PH_OVER (isOver 2))) :=
    ((((((RegsOnly.refl below).setFld _ _ _).setFld _ _ _).setFld _ _ _).setFld _ _ _).setFld _ _ _).setFld _ _ _
  obtain ⟨regs, hregs⟩ := hbelow
  exact ⟨regs, _, hregs⟩

theorem showMeasure_onlyRegs : OnlyRegs [Reg.ARR_JOINT_STAT j] s (showMeasure s j m) := by
  have hmem : Reg.ARR_JOINT_STAT j ∈ [Reg.ARR_JOINT_STAT j.val] := by simp
  unfold showMeasure
  extract_lets a low kept new below isOver
  have hbelow : OnlyRegs [Reg.ARR_JOINT_STAT j] s below := .of_eq rfl
  exact (((((hbelow.trans (.setFld _ _ _ hmem)).trans (.setFld _ _ _ hmem)).trans (.setFld _ _ _ hmem)).trans
    (.setFld _ _ _ hmem)).trans (.setFld _ _ _ hmem)).trans (.setFld _ _ _ hmem)

theorem showMeasure_dvolt :
    (showMeasure s j m).fld (Reg.ARR_JOINT_STAT j) F.ARR_JOINT_STAT_DVOLT = m.dvolt.toNat := by
  unfold showMeasure
  extract_lets a low kept new below isOver
  have hlater (t : State) (f : Fld) (hf : f.Ok) (hlo : 8 ≤ f.lo) (v : Nat) :
      (t.setFld a f v).fld a F.ARR_JOINT_STAT_DVOLT = t.fld a F.ARR_JOINT_STAT_DVOLT :=
    t.setFld_fld_disjoint a f _ hf (by decide) (.inl (Nat.lt_of_lt_of_le (by decide) hlo)) v
  rw [hlater _ _ ⟨by decide, by decide⟩ (by decide), hlater _ _ ⟨by decide, by decide⟩ (by decide),
    hlater _ _ ⟨by decide, by decide⟩ (by decide), hlater _ _ ⟨by decide, by decide⟩ (by decide),
    hlater _ _ ⟨by decide, by decide⟩ (by decide), State.setFld_fld_self _ _ _ ⟨by decide, by decide⟩]
  exact Nat.mod_eq_of_lt m.dvolt.isLt

/-- A quantity that stays below its clear threshold stays so since the same moment. -/
theorem mem_showMeasure_jointBelow {q : Fin 3} {since : BitVec 64} (hq : jointValue m q < jointClear q)
    (h : (j, q, since) ∈ s.jointBelow) : (j, q, since) ∈ (showMeasure s j m).jointBelow := by
  refine List.mem_append_left _ (List.mem_filter.2 ⟨h, ?_⟩)
  simp [hq]

end

/-- The first of three quantities that meets a condition heads the list of those that do. -/
theorem filter_finRange_cons {p : Fin 3 → Bool} {q : Fin 3} (hq : p q = true) (hlt : ∀ r < q, p r = false) :
    ∃ l, (List.finRange 3).filter p = q :: l := by
  have hlist : List.finRange 3 = [0, 1, 2] := by decide
  rw [hlist]
  obtain rfl | rfl | rfl : q = 0 ∨ q = 1 ∨ q = 2 := by omega
  · exact ⟨_, by rw [List.filter_cons_of_pos hq]⟩
  · have h0 := hlt 0 (by decide)
    exact ⟨_, by rw [List.filter_cons_of_neg (by simp [h0]), List.filter_cons_of_pos hq]⟩
  · have h0 := hlt 0 (by decide)
    have h1 := hlt 1 (by decide)
    exact ⟨_, by rw [List.filter_cons_of_neg (by simp [h0]), List.filter_cons_of_neg (by simp [h1]),
      List.filter_cons_of_pos hq]⟩

/-- Joint `j` holds a flag for quantity `q`. -/
def holdsFlag (s : State) (j : Fin 16) (q : Fin 3) : Bool := s.jointFlags.any (fun f => f.1 == j && f.2.1 == q)

theorem holdsFlag_iff (s : State) (j : Fin 16) (q : Fin 3) :
    holdsFlag s j q = true ↔ ∃ f ∈ s.jointFlags, f.1 = j ∧ f.2.1 = q := by
  simp [holdsFlag]

/-- The quantities of a measurement that breach and hold no flag yet. -/
def newBreaches (s : State) (j : Fin 16) (m : JointMeasure) : List (Fin 3) :=
  (List.finRange 3).filter (fun q => jointLimit q < jointValue m q && !holdsFlag s j q)

/-- The state in which joint `j` has flagged span `n` for the quantities `qs`. -/
def flagSpan (s : State) (j : Fin 16) (n : Fin 17) (qs : List (Fin 3)) : State :=
  { s with jointFlags := s.jointFlags ++ qs.map (fun q => (j, q, n)), jointSpan := s.jointSpan.set j (some n) }.setFld
    (Reg.ARR_STAT n) F.ARR_STAT_FLAGGED 1

theorem newBreaches_first {s : State} {j : Fin 16} {m : JointMeasure} {q : Fin 3}
    (hfree : ∀ f ∈ s.jointFlags, ¬(f.1 = j ∧ f.2.1 = q)) (hq : jointLimit q < jointValue m q)
    (hheld : ∀ p : Fin 3, p < q → jointLimit p < jointValue m p → ∃ f ∈ s.jointFlags, f.1 = j ∧ f.2.1 = p) :
    ∃ qs, newBreaches s j m = q :: qs := by
  refine filter_finRange_cons ?_ fun p hp => ?_
  · have hnot : holdsFlag s j q = false := by
      rw [← Bool.not_eq_true, holdsFlag_iff]
      exact fun ⟨f, hf, hjq⟩ => hfree f hf hjq
    simp [hq, hnot]
  · by_cases hover : jointLimit p < jointValue m p
    · simp [(holdsFlag_iff s j p).2 (hheld p hp hover)]
    · simp [hover]

theorem deviant_val (j : Fin 16) (d : Nat × Nat) : (deviant j d).val = if d.2 < d.1 then j.val else j.val + 1 := by
  unfold deviant
  split <;> rfl

section

variable (s : State) (j : Fin 16) (m : JointMeasure) (n : Fin 17) (qs : List (Fin 3))

theorem flagSpan_onlyRegs : OnlyRegs [Reg.ARR_STAT n] s (flagSpan s j n qs) :=
  (OnlyRegs.of_eq (t := { s with jointFlags := s.jointFlags ++ qs.map (fun q => (j, q, n)),
                                 jointSpan := s.jointSpan.set j (some n) }) rfl).trans (.setFld _ _ _ (by simp))

theorem flagSpan_flagged : (flagSpan s j n qs).fld (Reg.ARR_STAT n) F.ARR_STAT_FLAGGED = 1 :=
  State.setFld_fld_self _ _ _ ⟨by decide, by decide⟩ 1

/-- The registers that a breach of joint `j` writes when it flags span `n`. -/
theorem flagSpan_showMeasure_onlyRegs :
    OnlyRegs [Reg.ARR_JOINT_STAT j, Reg.ARR_STAT n] s (flagSpan (showMeasure s j m) j n qs) :=
  ((showMeasure_onlyRegs s j m).mono (by simp)).trans ((flagSpan_onlyRegs _ j n qs).mono (by simp))

theorem flagSpan_showMeasure_sameCouple : SameCouple s (flagSpan (showMeasure s j m) j n qs) := by
  refine .of_onlyRegs (flagSpan_showMeasure_onlyRegs s j m n qs) fun k => ?_
  simp [ARR_COUPLE_ne_ARR_JOINT_STAT, ARR_COUPLE_ne_ARR_STAT]

theorem flagSpan_showMeasure_dvolt : (flagSpan (showMeasure s j m) j n qs).fld (Reg.ARR_JOINT_STAT j)
    F.ARR_JOINT_STAT_DVOLT = m.dvolt.toNat := by
  rw [← showMeasure_dvolt s j m, State.fld, State.fld, flagSpan_onlyRegs _ j n qs]
  simpa using (ARR_STAT_ne_ARR_JOINT_STAT n j).symm

end

/-- A new breach flags the span that R55 chooses and raises the event of the joint as the settings have it. -/
theorem execJointBreach_new {s : State} {j : Fin 16} {m : JointMeasure} {q : Fin 3} {qs : List (Fin 3)}
    (h : newBreaches s j m = q :: qs) :
    execJointBreach j m s = .next ((flagSpan (showMeasure s j m) j (flaggedSpan j q m) (q :: qs)).raise
      (16 * j.val + (if jointInUse s j then 13 else 15)) 0) := by
  have h' : newBreaches (showMeasure s j m) j m = q :: qs := h
  rw [← (flagSpan_showMeasure_sameCouple s j m (flaggedSpan j q m) (q :: qs)).jointInUse]
  unfold execJointBreach
  simp only [newBreaches, holdsFlag] at h'
  simp only [h']
  rfl

theorem jointBreach_settled (j : Fin 16) (m : JointMeasure) (q : Fin 3) (s : State)
    (hfree : ∀ f ∈ s.jointFlags, ¬(f.1 = j ∧ f.2.1 = q)) (hq : jointLimit q < jointValue m q)
    (hheld : ∀ p : Fin 3, p < q → jointLimit p < jointValue m p → ∃ f ∈ s.jointFlags, f.1 = j ∧ f.2.1 = p) :
    let n := flaggedSpan j q m
    ∃ t, exec (.jointBreach j m) s = .next t ∧ t.fld (Reg.ARR_STAT n) F.ARR_STAT_FLAGGED = 1 ∧
      (∃ f ∈ t.jointFlags, f.1 = j ∧ f.2.1 = q ∧ f.2.2 = n) ∧
      t.fld (Reg.ARR_JOINT_STAT j.val) F.ARR_JOINT_STAT_DVOLT = m.dvolt.toNat ∧
      Raised s t [(16 * j.val + (if jointInUse s j then 13 else 15), 0)] ∧
      t = { s with regs := t.regs, jointFlags := t.jointFlags, jointSpan := t.jointSpan, jointBelow := t.jointBelow,
                   raises := t.raises } ∧
      OnlyRegs [Reg.ARR_JOINT_STAT j.val, Reg.ARR_STAT n] s t := by
  intro n
  obtain ⟨qs, hnew⟩ := newBreaches_first hfree hq hheld
  refine ⟨_, execJointBreach_new hnew, ?_, ⟨(j, q, n), ?_, rfl, rfl, rfl⟩, ?_, ?_, ?_, ?_⟩
  · rw [State.raise_fld]
    exact flagSpan_flagged _ j n _
  · rw [State.raise_jointFlags]
    exact List.mem_append_right _ (List.mem_map.2 ⟨q, List.mem_cons_self .., rfl⟩)
  · rw [State.raise_fld]
    exact flagSpan_showMeasure_dvolt s j m n _
  · obtain ⟨regs, below, hshow⟩ := showMeasure_only s j m
    rw [hshow]
    exact Raised.raise _ _ _
  · obtain ⟨regs, below, hshow⟩ := showMeasure_only s j m
    rw [hshow]
    rfl
  · exact (flagSpan_showMeasure_onlyRegs s j m n _).trans (.raise _ _ _)

/-! ## A flag clears -/

/-- The flag of a span falls unless another quantity or its island's health holds it. -/
def dropFlag (s : State) (f : Fin 16 × Fin 3 × Fin 17) : State :=
  if s.jointFlags.any (fun g => g.2.2 == f.2.2) ∨ s.fh.flagged.contains f.2.2 then s
  else s.setFld (Reg.ARR_STAT f.2.2) F.ARR_STAT_FLAGGED 0

theorem dropFlag_regsOnly (s : State) (f : Fin 16 × Fin 3 × Fin 17) : RegsOnly s (dropFlag s f) :=
  .ite (.refl s) ((RegsOnly.refl s).setFld _ _ _)

theorem foldl_dropFlag_regsOnly (l : List (Fin 16 × Fin 3 × Fin 17)) (s : State) : RegsOnly s (l.foldl dropFlag s) :=
  .foldl dropFlag_regsOnly (.refl s) l

/-- A span that a flag still holds keeps FLAGGED. -/
theorem foldl_dropFlag_reg_held (l : List (Fin 16 × Fin 3 × Fin 17)) {s : State} {g : Fin 16 × Fin 3 × Fin 17}
    (hg : g ∈ s.jointFlags) : (l.foldl dropFlag s).reg (Reg.ARR_STAT g.2.2) = s.reg (Reg.ARR_STAT g.2.2) := by
  induction l generalizing s with
  | nil => rfl
  | cons f l ih =>
    obtain ⟨r, hr⟩ := dropFlag_regsOnly s f
    refine (ih (by rw [hr]; exact hg)).trans ?_
    unfold dropFlag
    split
    · rfl
    · rename_i h
      refine State.setFld_reg_ne s _ _ fun he => h (.inl (List.any_eq_true.2 ⟨g, hg, ?_⟩))
      simp only [Reg.ARR_STAT] at he
      exact beq_iff_eq.2 (Fin.ext (by omega))

/-- FLAGGED of a span that nothing holds reads 0 once one of its flags has gone. -/
theorem foldl_dropFlag_cleared (l : List (Fin 16 × Fin 3 × Fin 17)) {s : State} {n : Fin 17}
    (hfree : ∀ g ∈ s.jointFlags, g.2.2 ≠ n) (hfh : n ∉ s.fh.flagged)
    (h : (∃ f ∈ l, f.2.2 = n) ∨ s.fld (Reg.ARR_STAT n) F.ARR_STAT_FLAGGED = 0) :
    (l.foldl dropFlag s).fld (Reg.ARR_STAT n) F.ARR_STAT_FLAGGED = 0 := by
  induction l generalizing s with
  | nil => exact h.resolve_left (by simp)
  | cons f l ih =>
    have hstep : (f.2.2 = n ∨ s.fld (Reg.ARR_STAT n) F.ARR_STAT_FLAGGED = 0) →
        (dropFlag s f).fld (Reg.ARR_STAT n) F.ARR_STAT_FLAGGED = 0 := by
      intro hf
      by_cases hn : f.2.2 = n
      · subst hn
        have hnone : ¬(s.jointFlags.any (fun g => g.2.2 == f.2.2) = true ∨ s.fh.flagged.contains f.2.2 = true) := by
          simpa using ⟨fun a b hg => hfree (a, b, f.2.2) hg rfl, hfh⟩
        rw [dropFlag, if_neg hnone]
        exact State.setFld_fld_self _ _ _ ⟨by decide, by decide⟩ 0
      · have hzero := hf.resolve_left hn
        unfold dropFlag
        split
        · exact hzero
        · refine (State.setFld_fld_ne s _ _ _ fun he => hn ?_).trans hzero
          simp only [Reg.ARR_STAT] at he
          exact Fin.ext (by omega)
    obtain ⟨r, hr⟩ := dropFlag_regsOnly s f
    refine ih (by rw [hr]; exact hfree) (by rw [hr]; exact hfh) ?_
    obtain ⟨g, hg, hgn⟩ | hzero := h
    · obtain rfl | hmem := List.mem_cons.1 hg
      · exact .inr (hstep (.inl hgn))
      · exact .inl ⟨g, hmem, hgn⟩
    · exact .inr (hstep (.inr hzero))

/-- The state in which quantity `q` of joint `j` holds no flag. -/
def unflagJoint (s : State) (j : Fin 16) (q : Fin 3) : State :=
  { s with jointFlags := s.jointFlags.filter (fun f => !(f.1 == j && f.2.1 == q)) }

@[simp] theorem unflagJoint_reg (s : State) (j : Fin 16) (q : Fin 3) (a : Nat) : (unflagJoint s j q).reg a = s.reg a := rfl

/-- The flags that quantity `q` of joint `j` holds. -/
def flagsOfJoint (s : State) (j : Fin 16) (q : Fin 3) : List (Fin 16 × Fin 3 × Fin 17) :=
  s.jointFlags.filter (fun f => f.1 == j && f.2.1 == q)

theorem execJointFlagClear_due {s : State} {j : Fin 16} {q : Fin 3} {m : JointMeasure}
    (h : ∃ b ∈ (showMeasure s j m).jointBelow, b.1 = j ∧ b.2.1 = q ∧
      b.2.2.toNat + 1000000000 ≤ (showMeasure s j m).now.toNat) :
    execJointFlagClear j q m s = .next
      ((flagsOfJoint (showMeasure s j m) j q).foldl dropFlag (unflagJoint (showMeasure s j m) j q)) := by
  have hdue : ¬(!(showMeasure s j m).jointBelow.any
      (fun b => b.1 == j && b.2.1 == q && b.2.2.toNat + 1000000000 ≤ (showMeasure s j m).now.toNat)) = true := by
    simpa [and_assoc] using h
  exact if_neg hdue

/-- Settles O8: a breach by the span it flags, a clear by the fold over the flags that go (`dropFlag`). -/
theorem jointMonitorCommandsComplete : Obligations.JointMonitorCommandsComplete := by
  refine ⟨?breach, ?clear⟩
  case breach =>
    intro j m q s hfree hq hheld d n
    have hn : (flaggedSpan j q m).val = n := deviant_val j d
    obtain ⟨t, hexec, hflag, ⟨f, hf, hj, hfq, hfn⟩, hdvolt, hraised, hframe, hregs⟩ := jointBreach_settled j m q s hfree hq hheld
    rw [hn] at hflag hregs
    exact ⟨t, hexec, hflag, ⟨f, hf, hj, hfq, hfn ▸ hn⟩, hdvolt, hraised, hframe, hregs⟩
  case clear =>
    intro j q m s since hq hbelow hsince
    obtain ⟨regs, below, hshow⟩ := showMeasure_only s j m
    obtain ⟨r, hr⟩ := foldl_dropFlag_regsOnly (flagsOfJoint (showMeasure s j m) j q) (unflagJoint (showMeasure s j m) j q)
    have hflags : (unflagJoint (showMeasure s j m) j q).jointFlags =
        s.jointFlags.filter (fun f => !(f.1 == j && f.2.1 == q)) := by rw [hshow]; rfl
    have hfhs : (unflagJoint (showMeasure s j m) j q).fh = s.fh := by rw [hshow]; rfl
    have hgone : flagsOfJoint (showMeasure s j m) j q = flagsOfJoint s j q := by rw [hshow]; rfl
    have hkept (k : Nat) : (unflagJoint (showMeasure s j m) j q).reg (Reg.ARR_STAT k) = s.reg (Reg.ARR_STAT k) := by
      rw [unflagJoint_reg]
      exact showMeasure_onlyRegs s j m _ (by simpa using ARR_STAT_ne_ARR_JOINT_STAT k j)
    have hleft : ((flagsOfJoint (showMeasure s j m) j q).foldl dropFlag (unflagJoint (showMeasure s j m) j q)).jointFlags =
        (unflagJoint (showMeasure s j m) j q).jointFlags := by rw [hr]
    refine ⟨_, execJointFlagClear_due ⟨_, mem_showMeasure_jointBelow s j m hq hbelow, rfl, rfl, ?_⟩, hleft.trans hflags,
      fun f hf => ?_, fun f hf hj hfq hfree hfh => ?_, ?_⟩
    · rw [hshow]
      exact hsince
    · rw [hleft] at hf
      exact (foldl_dropFlag_reg_held _ hf).trans (hkept _)
    · rw [hleft] at hfree
      refine foldl_dropFlag_cleared _ hfree (by rwa [hfhs]) (.inl ⟨f, ?_, rfl⟩)
      rw [hgone]
      exact List.mem_filter.2 ⟨hf, by simp [hj, hfq]⟩
    · rw [hr, hshow]
      rfl

end Sys2Proof.Machine
end

