-- ==== Sys2Proof/Proofs/ArraySweeps.lean ====
section
/-!
PROOFS. Results, resets, sweeps and the spare map of the array (R27, R33, R35, R50, R51, R57).
-/

namespace Sys2Proof.Machine

/-! ## Results of reductions -/

theorem execGlobalOrResult_cons {n : Fin 17} {s : State} {b : Bool} {r : List Bool} (h : (s.micro n).gorPend = b :: r) :
    execGlobalOrResult n s = .next (s.setMicro n { s.micro n with gorPend := r, gor := b }) := by
  simp only [execGlobalOrResult, h]

theorem execGaugeResult_cons {n : Fin 17} {s : State} {v : BitVec 32} {r : List (BitVec 32)}
    (h : (s.micro n).gauPend = v :: r) : execGaugeResult n s = .next (s.setMicro n { s.micro n with
      gauPend := r, gauReady := (s.micro n).gauReady ++ [v], gauLast := v }) := by
  simp only [execGaugeResult, h]

/-! ## The reset of a span -/

theorem showJoint_regsOnly (s : State) (j : Nat) : RegsOnly s (showJoint s j) := ((RegsOnly.refl s).setFld _ _ _).setFld _ _ _

theorem refreshJoints_regsOnly (s : State) : RegsOnly s (refreshJoints s) :=
  .foldl showJoint_regsOnly (.refl s) (List.range 16)

/-- Every bit processor of span `n` has its reset registers, and the clearing sweep runs. -/
def resetArray (s : State) (n : Fin 17) : State :=
  s.setArray n { SpanArray.reset with rows := (s.array n).rows, parBad := (s.array n).parBad, sweep := 1, powered := true }

/-- The registers and the controller of span `n` are as after reset. -/
def resetCtl (s : State) (n : Fin 17) : State :=
  refreshJoints ((((resetSpanRegs s n).setMicro n .reset).setCtl n .start).setExt n .reset)

theorem execSpanReset_eq (n : Fin 17) (p : Bool) (s : State) : execSpanReset n p s =
    .next ((if p then resetArray s n else resetCtl (resetArray s n) n).setFld (Reg.ARR_STAT n) F.ARR_STAT_INIT_DONE 0) := rfl

theorem resetCtl_only (s : State) (n : Fin 17) :
    ∃ regs micros ctls rx, resetCtl s n = { s with regs := regs, micros := micros, ctls := ctls, rx := rx } := by
  obtain ⟨r, hr⟩ := refreshJoints_regsOnly ((((resetSpanRegs s n).setMicro n .reset).setCtl n .start).setExt n .reset)
  exact ⟨r, _, _, _, hr⟩

theorem resetSpan_only (n : Fin 17) (p : Bool) (s : State) : ∃ regs micros ctls rx,
    (if p then resetArray s n else resetCtl (resetArray s n) n).setFld (Reg.ARR_STAT n) F.ARR_STAT_INIT_DONE 0 =
      { resetArray s n with regs := regs, micros := micros, ctls := ctls, rx := rx } := by
  cases p
  · obtain ⟨r, mi, c, x, h⟩ := resetCtl_only (resetArray s n) n
    exact ⟨_, mi, c, x, by rw [if_neg Bool.false_ne_true, h]; rfl⟩
  · exact ⟨_, _, _, _, rfl⟩

/-! ## The end of a sweep -/

/-- Arrays differ at most in the plane ports; memory and the events raised so far are the same. -/
structure KeepsArrays (s t : State) : Prop where
  array : ∀ m, t.array m = { s.array m with port := (t.array m).port }
  mem : t.mem = s.mem
  raises : t.raises = s.raises

namespace KeepsArrays

variable {s t u : State}

theorem refl (s : State) : KeepsArrays s s := ⟨fun _ => rfl, rfl, rfl⟩

theorem trans (h : KeepsArrays s t) (k : KeepsArrays t u) : KeepsArrays s u := by
  refine ⟨fun m => ?_, k.mem.trans h.mem, k.raises.trans h.raises⟩
  rw [k.array m, h.array m]

theorem of_eq (harrays : t.arrays = s.arrays) (hmem : t.mem = s.mem) (hraises : t.raises = s.raises) : KeepsArrays s t :=
  ⟨fun m => by simp only [State.array, harrays], hmem, hraises⟩

theorem setFld (h : KeepsArrays s t) (a : Nat) (f : Fld) (v : Nat) : KeepsArrays s (t.setFld a f v) :=
  h.trans (.of_eq rfl rfl rfl)

theorem clearPort (h : KeepsArrays s t) (n : Fin 17) : KeepsArrays s (t.setArray n { t.array n with port := [] }) := by
  refine h.trans ⟨fun m => ?_, rfl, rfl⟩
  by_cases hm : m = n
  · rw [hm, State.setArray_array_self]
  · rw [State.setArray_array_ne _ _ hm]

theorem foldl {α : Type} {f : State → α → State} (h : KeepsArrays s t) (hf : ∀ t x, KeepsArrays t (f t x)) (xs : List α) :
    KeepsArrays s (xs.foldl f t) :=
  List.foldlRecOn xs f h (fun t ht x _ => ht.trans (hf t x))

theorem showStop (h : KeepsArrays s t) (n : Fin 17) (st cause stop : Nat) :
    KeepsArrays s (Machine.showStop t n st cause stop) :=
  h.foldl (fun t _ => (((refl t).setFld _ _ _).setFld _ _ _).setFld _ _ _) _

theorem setCtl (h : KeepsArrays s t) (n : Fin 17) (c : SpanCtl) : KeepsArrays s (t.setCtl n c) := h.trans (.of_eq rfl rfl rfl)

theorem setExt (h : KeepsArrays s t) (n : Fin 17) (x : Extraction) : KeepsArrays s (t.setExt n x) :=
  h.trans (.of_eq rfl rfl rfl)

theorem setRegion (h : KeepsArrays s t) (n : Fin 17) (r : Region) : KeepsArrays s (t.setRegion n r) :=
  h.trans (.of_eq rfl rfl rfl)

theorem setMicro (h : KeepsArrays s t) (n : Fin 17) (u : MicroSeq) : KeepsArrays s (t.setMicro n u) :=
  h.trans (.of_eq rfl rfl rfl)

theorem startSpan (h : KeepsArrays s t) (n : Fin 17) : KeepsArrays s (Machine.startSpan t n) := by
  unfold Machine.startSpan
  extract_lets started placed
  have hstarted : KeepsArrays s started := by
    refine h.foldl (fun t m => ?_) _
    exact ((((((refl t).setCtl m _).clearPort m).setExt m _).setRegion m _).setMicro m _).setFld _ _ _
  exact ((hstarted.setFld _ _ _).setFld _ _ _).showStop _ _ _ _

theorem startWaiting (h : KeepsArrays s t) (n : Fin 17) : KeepsArrays s (Machine.startWaiting t n) := by
  unfold Machine.startWaiting
  split
  · exact h.startSpan n
  · exact h

end KeepsArrays

/-- The end of a sweep changes nothing of the arrays but the span's own, and the plane ports of a start. -/
theorem sweepEnd_keeps (s : State) (n : Fin 17) (x : SpanArray) : KeepsArrays (s.setArray n x) (sweepEnd s n x) := by
  unfold sweepEnd
  split
  · exact ((KeepsArrays.refl _).setFld _ _ _).startWaiting _
  · exact .refl _

theorem sweepEnd_array (s : State) (n : Fin 17) (x : SpanArray) :
    (sweepEnd s n x).array n = { x with port := ((sweepEnd s n x).array n).port } := by
  have h := (sweepEnd_keeps s n x).array n
  rwa [State.setArray_array_self] at h

theorem execInitSweepDone_runs {n : Fin 17} {s : State} (h : (s.array n).sweep.getLsbD 0 = true) :
    execInitSweepDone n s =
      .next (sweepEnd s n { s.array n with rows := [], parBad := [], sweep := (s.array n).sweep &&& 2 }) := if_pos h

theorem execParitySweepDone_runs {n : Fin 17} {s : State} (h : (s.array n).sweep.getLsbD 1 = true) :
    execParitySweepDone n s = .next (sweepEnd s n { s.array n with parBad := [], sweep := (s.array n).sweep &&& 1 }) :=
  if_pos h

/-! ## The spare map -/

/-- A `SPARE_MAP` word with the legal indices of a write taken. -/
def spareWord (old val : BitVec 32) : BitVec 32 :=
  bypFields.foldl (fun v f => if f.accepts (f.get val) then f.put v (f.get val) else v) old

theorem bypFields_ok : ∀ f ∈ bypFields, f.Ok := (by decide : ∀ f ∈ bypFields, f.lo ≤ f.hi ∧ f.hi < 32)

theorem bypFields_apart : bypFields.Pairwise Fld.Apart := by decide

theorem bypFields_acc : ∀ f ∈ bypFields, f.acc = .rws := by decide

theorem spareWord_eq_foldl (old val : BitVec 32) : spareWord old val = bypFields.foldl (writeField true old val) old := rfl

/-- Each index of the word is the one written where that is legal. -/
theorem get_spareWord (old val : BitVec 32) {f : Fld} (hf : f ∈ bypFields) :
    f.get (spareWord old val) = if f.accepts (f.get val) then f.get val else f.get old := by
  rw [spareWord_eq_foldl, get_foldl_writeField true old val bypFields bypFields_ok bypFields_apart hf rfl, fieldAfter,
    bypFields_acc f hf]
  rfl

/-- The columns of the array follow a change of the word for groups 4w to 4w + 3 of truss t. -/
def remapWord (x : SpanArray) (t w : Nat) (old new : BitVec 32) : SpanArray :=
  bypFields.zipIdx.foldl (fun x p => remapGroup x (32 * t + 4 * w + p.2) (p.1.get old) (p.1.get new)) x

/-- The state with a word of the spare map changed and a parity sweep begun. -/
def changeSpare (s : State) (n : Fin 17) (t w : Nat) (new : BitVec 32) : State :=
  let x := remapWord (s.array n) t w (s.reg (Reg.SPARE_MAP n t w)) new
  ((s.setReg (Reg.SPARE_MAP n t w) new).setArray n { x with sweep := x.sweep ||| 2 }).setFld (Reg.ARR_STAT n)
    F.ARR_STAT_INIT_DONE 0

theorem writeSpareMap_stopped {s : State} {n : Fin 17} (hstop : spcState s (lead s n) = 3) (t w : Nat) (val : BitVec 32) :
    writeSpareMap s n t w val =
      if spareWord (s.reg (Reg.SPARE_MAP n t w)) val = s.reg (Reg.SPARE_MAP n t w) then s
      else changeSpare s n t w (spareWord (s.reg (Reg.SPARE_MAP n t w)) val) :=
  if_neg (not_not_intro hstop)

theorem SPARE_MAP_ne_ARR_STAT (n : Fin 17) (t : Fin 16) (w : Fin 8) : Reg.SPARE_MAP n t w ≠ Reg.ARR_STAT n := by
  simp only [Reg.SPARE_MAP, Reg.ARR_STAT]
  omega

theorem changeSpare_onlyRegs (s : State) (n : Fin 17) (t w : Nat) (new : BitVec 32) :
    OnlyRegs [Reg.SPARE_MAP n t w, Reg.ARR_STAT n] s (changeSpare s n t w new) :=
  (OnlyRegs.setReg s new (by simp)).trans ((OnlyRegs.of_eq rfl).trans (OnlyRegs.setFld _ _ _ (by simp)))

theorem changeSpare_reg (s : State) (n : Fin 17) (t : Fin 16) (w : Fin 8) (new : BitVec 32) :
    (changeSpare s n t w new).reg (Reg.SPARE_MAP n t w) = new := by
  unfold changeSpare
  rw [State.setFld_reg_ne _ _ _ (SPARE_MAP_ne_ARR_STAT n t w), State.setArray_reg, State.setReg_reg_self]

/-- Settles O7: each command by the state it hands on; a sweep's end keeps the arrays (`sweepEnd_array`). -/
theorem arrayCommandsComplete : Obligations.ArrayCommandsComplete := by
  refine ⟨fun n s b r h => execGlobalOrResult_cons h, ?gauge, ?reset, ?init, ?spare, ?parity⟩
  case gauge =>
    intro n s v r h
    refine ⟨_, execGaugeResult_cons h, rfl, ?_, ?_, ?_, ?_, fun m hm => State.setMicro_micro_ne s _ hm⟩ <;>
      rw [State.setMicro_micro_self]
  case reset =>
    intro n p s
    obtain ⟨regs, micros, ctls, rx, h⟩ := resetSpan_only n p s
    have harray : ({ resetArray s n with regs := regs, micros := micros, ctls := ctls, rx := rx } : State).array n =
        { SpanArray.reset with rows := (s.array n).rows, parBad := (s.array n).parBad, sweep := 1, powered := true } :=
      State.setArray_array_self s n _
    refine ⟨_, execSpanReset_eq n p s, ?_, ?_, ?_, ?_, ?_, ?_, State.setFld_fld_self _ _ _ ⟨by decide, by decide⟩ 0,
      fun m hm => ?_, ?_⟩
    case refine_7 =>
      rw [h]
      exact State.setArray_array_ne s _ hm
    case refine_8 =>
      rw [h]
      rfl
    all_goals rw [h, harray]; rfl
  case init =>
    intro n s h
    refine ⟨_, execInitSweepDone_runs h, ?_, ?_, ?_, ?_, ?_, (sweepEnd_keeps s n _).mem, (sweepEnd_keeps s n _).raises⟩ <;>
      rw [sweepEnd_array]
    simp
  case spare =>
    intro n t w val s hstop ⟨f, hf, hacc, hne⟩
    have hnew : spareWord (s.reg (Reg.SPARE_MAP n t w)) val ≠ s.reg (Reg.SPARE_MAP n t w) := by
      intro heq
      have hget := get_spareWord (s.reg (Reg.SPARE_MAP n t w)) val hf
      rw [heq, if_pos hacc] at hget
      exact hne hget.symm
    refine ⟨_, congrArg Host.Outcome.next ((writeSpareMap_stopped hstop t w val).trans (if_neg hnew)), fun g hg => ?_,
      State.setFld_fld_self _ _ _ ⟨by decide, by decide⟩ 0, ?_, changeSpare_onlyRegs s n t w _, rfl⟩
    · rw [State.fld, changeSpare_reg, get_spareWord _ _ hg]
      rfl
    · unfold changeSpare
      rw [State.setFld_array, State.setArray_array_self]
      simp
  case parity =>
    intro n s h
    refine ⟨_, execParitySweepDone_runs h, ?_, ?_, ?_, (sweepEnd_keeps s n _).mem, (sweepEnd_keeps s n _).raises⟩ <;>
      rw [sweepEnd_array]
    simp

end Sys2Proof.Machine
end

