-- ==== Sys2Proof/Proofs/PairTests.lean ====
section
/-!
PROOFS. A test of the standby (R357): the stop of its span against the state the test shows.
-/

namespace Sys2Proof

open Machine

/-- The counterexample: the state after reset with the placement PLACED, pair 0 the READY standby in role 16, and its
span still running. -/
def runningStandby : State :=
  let s := (State.reset.setFld Reg.PL_STAT F.PL_STAT_STATE 1).setFld Reg.PL_STAT F.PL_STAT_SBY 1
  let s := (s.setFld (Reg.PL_PHYS 0) F.PL_PHYS_ROLE 16).setFld (Reg.PL_PHYS 0) F.PL_PHYS_USE 2
  (s.setFld (Reg.PL_ROLE 16) F.PL_ROLE_PHYS 0).setFld (Reg.SPC_STAT 0) F.SPC_STAT_STATE 0

/-- The hypotheses of O49's first clause hold of it. -/
theorem runningStandby_ready : runningStandby.fld Reg.PL_TEST F.PL_TEST_GO = 0 ∧ sby runningStandby = 1 ∧
    plState runningStandby = 1 ∧ plUse runningStandby 0 = 2 ∧ standby runningStandby = some 0 := by decide +kernel

/-- The stop of the running span leaves its pair as the standby of role 16 stopped, which shows SBY 1 again. -/
theorem sby_test_runningStandby :
    sby (writeTest runningStandby (F.PL_TEST_PHYS.put (F.PL_TEST_GO.put 0 1) 0)) = 1 := by decide +kernel

/-- Refutes O49: a test of the READY standby whose span still runs leaves SBY at READY (1), not TEST (4). PAIR_TEST
sets SBY to 4 and then stops the span, and the stop of a span in role 16 sets SBY to READY again. -/
theorem not_pairTestCommandsComplete : ¬ Obligations.PairTestCommandsComplete := by
  unfold Obligations.PairTestCommandsComplete
  rintro ⟨hstart, -⟩
  obtain ⟨hgo, hsby, hstate, huse, hstandby⟩ := runningStandby_ready
  obtain ⟨t, hnext, -, -, -, -, -, htest⟩ := (hstart 0 runningStandby hgo).1 hsby hstate (.inr (.inl huse))
  have ht : t = writeTest runningStandby (F.PL_TEST_PHYS.put (F.PL_TEST_GO.put 0 1) 0) := (Host.Outcome.next.inj hnext).symm
  have hready : sby t = 1 := ht ▸ sby_test_runningStandby
  have hfour := htest hstandby
  omega

end Sys2Proof

end

