-- ==== Sys2Proof/Proofs/NanoFrame.lean ====
section
/-!
PROOFS. Around the issue of a nano-word (R24, R61): what the upsets and the joints' parity of its cycle leave as it was
(R53), and what the parts of the cycle leave of the arrays.
-/

namespace Sys2Proof.Machine

/-! ## The upsets of a command -/

/-- Upsets flip stored bits alone. -/
def StoreOnly (s t : State) : Prop := ∃ mem errs parity arrays, t = { s with mem := mem, errs := errs, parity := parity, arrays := arrays }

theorem StoreOnly.trans {s t u : State} (h : StoreOnly s t) (k : StoreOnly t u) : StoreOnly s u := by
  obtain ⟨_, _, _, _, rfl⟩ := h
  obtain ⟨m, e, p, a, rfl⟩ := k
  exact ⟨m, e, p, a, rfl⟩

theorem applyUpset_storeOnly (s : State) (u : Upset) : StoreOnly s (applyUpset s u) := by
  cases u with
  | word a b =>
    simp only [applyUpset]
    split
    · split
      · exact ⟨_, _, _, _, rfl⟩
      · exact ⟨_, _, _, _, rfl⟩
    · exact ⟨_, _, _, _, rfl⟩
  | cell n row col => exact ⟨_, _, _, _, rfl⟩
  | group n row g => exact ⟨_, _, _, _, rfl⟩

theorem applyUpsets_storeOnly (s : State) (ups : List Upset) : StoreOnly s (applyUpsets s ups) :=
  List.foldlRecOn ups applyUpset ⟨s.mem, s.errs, s.parity, s.arrays, rfl⟩ (fun t h u _ => h.trans (applyUpset_storeOnly t u))

/-! ## The parity of the joints -/

/-- What a parity error at a joint leaves: registers but its counter and FLAGGED of a span, and everything that is not a
register, a flag of a joint or a raise. -/
structure JointsSeen (s t : State) : Prop where
  only : ∃ regs flags span raises, t = { s with regs := regs, jointFlags := flags, jointSpan := span, raises := raises }
  reg : ∀ a, (∀ k, a ≠ Reg.ARR_STAT k) → (∀ k, a ≠ Reg.ARR_JOINT_ERR k) → t.reg a = s.reg a
  init : ∀ k, t.fld (Reg.ARR_STAT k) F.ARR_STAT_INIT_DONE = s.fld (Reg.ARR_STAT k) F.ARR_STAT_INIT_DONE

namespace JointsSeen

variable {s t u : State}

theorem refl (s : State) : JointsSeen s s := ⟨⟨s.regs, s.jointFlags, s.jointSpan, s.raises, rfl⟩, fun _ _ _ => rfl, fun _ => rfl⟩

theorem trans (h : JointsSeen s t) (k : JointsSeen t u) : JointsSeen s u := by
  refine ⟨?_, fun a ha hb => (k.reg a ha hb).trans (h.reg a ha hb), fun m => (k.init m).trans (h.init m)⟩
  obtain ⟨_, _, _, _, hs⟩ := h.only
  obtain ⟨r, f, j, e, ht⟩ := k.only
  exact ⟨r, f, j, e, by rw [ht, hs]⟩

theorem of_eq (hregs : t.regs = s.regs)
    (h : t = { s with regs := t.regs, jointFlags := t.jointFlags, jointSpan := t.jointSpan, raises := t.raises }) :
    JointsSeen s t :=
  ⟨⟨_, _, _, _, h⟩, fun a _ _ => by rw [State.reg, State.reg, hregs], fun k => by rw [State.fld, State.fld, State.reg, State.reg, hregs]⟩

theorem countError (s : State) (j : Nat) : JointsSeen s (s.bump (Reg.ARR_JOINT_ERR j) F.ARR_JOINT_ERR_COUNT) := by
  refine ⟨⟨_, _, _, _, rfl⟩, fun a _ h => State.bump_reg_ne s _ _ (h j), fun k => State.bump_fld_ne s _ _ _ ?_⟩
  simp only [Reg.ARR_STAT, Reg.ARR_JOINT_ERR]
  omega

theorem setFlagged (s : State) (n : Nat) : JointsSeen s (s.setFld (Reg.ARR_STAT n) F.ARR_STAT_FLAGGED 1) := by
  refine ⟨⟨_, _, _, _, rfl⟩, fun a h _ => State.setFld_reg_ne s _ _ (h n), fun k => ?_⟩
  by_cases hk : Reg.ARR_STAT k = Reg.ARR_STAT n
  · rw [hk]
    exact State.setFld_fld_disjoint s _ _ _ ⟨by decide, by decide⟩ (by decide) (by decide) 1
  · exact State.setFld_fld_ne s _ _ _ hk

theorem flagJoint (s : State) (j : Fin 16) (q : Fin 3) (n : Fin 17) : JointsSeen s (Machine.flagJoint s j q n) := by
  unfold Machine.flagJoint
  split
  · exact refl s
  · exact (of_eq (s := s) (t := { s with jointFlags := s.jointFlags ++ [(j, q, n)] }) rfl rfl).trans (setFlagged _ n)

theorem jointParityError (s : State) (j : Fin 16) (d : Nat × Nat) : JointsSeen s (Machine.jointParityError s j d) := by
  unfold Machine.jointParityError
  extract_lets n flagged
  have hflagged : JointsSeen s flagged := (countError s j).trans (flagJoint _ j 0 n)
  exact (hflagged.trans (of_eq (t := { flagged with jointSpan := flagged.jointSpan.set j (some n) }) rfl rfl)).trans
    (of_eq rfl rfl)

theorem jointParity (s : State) (ms : List (Fin 17)) (flips : List JointFlip) :
    JointsSeen s (Machine.jointParity s ms flips) := by
  refine List.foldlRecOn ms _ (refl s) fun t h m _ => h.trans ?_
  split
  · split
    · exact refl t
    · split
      · exact jointParityError t _ _
      · exact refl t
  · exact refl t

section

variable (h : JointsSeen s t)

include h

theorem mem : t.mem = s.mem := by obtain ⟨_, _, _, _, h⟩ := h.only; rw [h]
theorem parity : t.parity = s.parity := by obtain ⟨_, _, _, _, h⟩ := h.only; rw [h]
theorem array (m : Fin 17) : t.array m = s.array m := by obtain ⟨_, _, _, _, h⟩ := h.only; rw [h]; rfl
theorem micro (n : Fin 17) : t.micro n = s.micro n := by obtain ⟨_, _, _, _, h⟩ := h.only; rw [h]; rfl
theorem ctl (n : Fin 17) : t.ctl n = s.ctl n := by obtain ⟨_, _, _, _, h⟩ := h.only; rw [h]; rfl
theorem ext (n : Fin 17) : t.ext n = s.ext n := by obtain ⟨_, _, _, _, h⟩ := h.only; rw [h]; rfl
theorem now : t.now = s.now := by obtain ⟨_, _, _, _, h⟩ := h.only; rw [h]
theorem pending : t.pending = s.pending := by obtain ⟨_, _, _, _, h⟩ := h.only; rw [h]

theorem readLE (a n : Nat) : t.readLE a n = s.readLE a n := by rw [State.readLE, h.mem]; rfl

theorem sameCouple : SameCouple s t := fun m => h.reg _
  (fun k => by simp only [Reg.ARR_COUPLE, Reg.ARR_STAT]; omega)
  (fun k => by simp only [Reg.ARR_COUPLE, Reg.ARR_JOINT_ERR]; omega)

theorem domainOf (n : Fin 17) : Machine.domainOf t n = Machine.domainOf s n := by
  simp only [Machine.domainOf, driver, h.sameCouple.spanPos]

theorem strandWest (m : Nat) : Machine.strandWest t m = Machine.strandWest s m := by
  simp only [Machine.strandWest, h.sameCouple.expectsWest, h.sameCouple.fld]

theorem strandEast (m : Nat) : Machine.strandEast t m = Machine.strandEast s m := by
  simp only [Machine.strandEast, h.sameCouple.expectsEast, h.sameCouple.fld]

theorem sweepsDone (ms : List (Fin 17)) : Machine.sweepsDone t ms = Machine.sweepsDone s ms := by
  simp only [Machine.sweepsDone, State.flag, h.init]

theorem msStat (n : Fin 17) (f : Fld) : t.fld (Reg.MS_STAT n) f = s.fld (Reg.MS_STAT n) f :=
  congrArg f.get (h.reg _ (fun k => by simp only [Reg.MS_STAT, Reg.ARR_STAT]; omega)
    (fun k => by simp only [Reg.MS_STAT, Reg.ARR_JOINT_ERR]; omega))

theorem microAt (n a : Nat) : Machine.microAt t n a = Machine.microAt s n a := by simp only [Machine.microAt, h.readLE]

theorem nanoAt (n a : Nat) : Machine.nanoAt t n a = Machine.nanoAt s n a := by simp only [Machine.nanoAt, h.readLE]

theorem placeOf (n : Fin 17) : Machine.placeOf t n = Machine.placeOf s n := by
  simp only [Machine.placeOf, h.msStat, h.micro]

theorem lineReady (n : Fin 17) : Machine.lineReady t n = Machine.lineReady s n := by
  simp only [Machine.lineReady, slotState, h.ctl, h.domainOf, h.readLE]

theorem servedSlot (n : Fin 17) (i : Nat) : Machine.servedSlot t n i = Machine.servedSlot s n i := by
  simp only [Machine.servedSlot, h.ctl]

theorem planeReady (n : Fin 17) : Machine.planeReady t n = Machine.planeReady s n := by
  simp only [Machine.planeReady, h.ctl, h.domainOf, h.servedSlot, h.array]

theorem haloArrived (n : Fin 17) : Machine.haloArrived t n = Machine.haloArrived s n := by
  simp only [Machine.haloArrived, haloOf, h.ctl, h.domainOf, h.strandWest, h.strandEast, h.array]

theorem condMet (n : Fin 17) (c : Nat) : Machine.condMet t n c = Machine.condMet s n c := by
  simp only [Machine.condMet, h.lineReady, h.planeReady, h.haloArrived, h.micro, h.ctl]

theorem condValue (n : Fin 17) (c : Nat) : Machine.condValue t n c = Machine.condValue s n c := by
  simp only [Machine.condValue, h.condMet, h.micro]

theorem microWaits (n : Fin 17) (u : Micro) : Machine.microWaits t n u = Machine.microWaits s n u := by
  simp only [Machine.microWaits, h.condMet]

theorem planeOver (n m : Fin 17) : Machine.planeOver t n m = Machine.planeOver s n m := by
  have hplanes : linePlanes t m = linePlanes s m := congrArg F.TP_CTL_WB.get (h.reg _
    (fun k => by simp only [Reg.TP_CTL, Reg.ARR_STAT]; omega) (fun k => by simp only [Reg.TP_CTL, Reg.ARR_JOINT_ERR]; omega))
  simp only [Machine.planeOver, h.ctl, hplanes]

theorem planeMissing (n m : Fin 17) (i : Nat) : Machine.planeMissing t n i m = Machine.planeMissing s n i m := by
  simp only [Machine.planeMissing, h.planeOver, h.ctl, h.servedSlot, h.array]

theorem extractHolds (n : Fin 17) (w : Nano) : Machine.extractHolds t n w = Machine.extractHolds s n w := by
  simp only [Machine.extractHolds, extractBlocked, h.domainOf, h.ctl, h.ext]

theorem nanoHeld (n : Fin 17) (w : Nano) : Machine.nanoHeld t n w = Machine.nanoHeld s n w := by
  simp only [Machine.nanoHeld, planeHolds, gaugeHolds, rowHolds, snapHolds, captureHolds, h.extractHolds, h.domainOf,
    h.planeMissing, h.micro, h.ctl, h.placeOf]

theorem westBeyond (m : Fin 17) (b : Nat) (f : BitVec 32) : Machine.westBeyond t m b f = Machine.westBeyond s m b f := by
  simp only [Machine.westBeyond, h.array, h.sameCouple.expectsWest, h.sameCouple.jointInUse, h.sameCouple.fld]

theorem eastBeyond (m : Fin 17) (b : Nat) (f : BitVec 32) : Machine.eastBeyond t m b f = Machine.eastBeyond s m b f := by
  simp only [Machine.eastBeyond, h.array, h.sameCouple.expectsEast, h.sameCouple.jointInUse, h.sameCouple.fld]

theorem moveX (m : Fin 17) (xm b : Nat) (fw fe : BitVec 32) : Machine.moveX t m xm b fw fe = Machine.moveX s m xm b fw fe := by
  simp only [Machine.moveX, h.array, h.westBeyond, h.eastBeyond]

end

end JointsSeen

end Sys2Proof.Machine
end

