-- ==== Sys2Proof/Proofs/NanoIssue.lean ====
section
/-!
PROOFS. The issue of a nano-word (R24, R36, R41, R48, R61, R62, R69): what the parts of its cycle leave as it was, the
arrays after the cycle, and the micro-sequencer's next place.
-/

namespace Sys2Proof.Machine

/-! ## What the parts of an issuing cycle leave -/

/-- The arrays but those of `ms`, the micro-sequencers, G and V of the controllers, memory, time and the queue stand as
they were. -/
structure KeepsRest (ms : List (Fin 17)) (s t : State) : Prop where
  array : ∀ m, m ∉ ms → t.array m = s.array m
  micro : ∀ n, t.micro n = s.micro n
  ctl : ∀ m, (t.ctl m).g = (s.ctl m).g ∧ (t.ctl m).v = (s.ctl m).v
  mem : t.mem = s.mem
  now : t.now = s.now
  pending : t.pending = s.pending

namespace KeepsRest

variable {ms : List (Fin 17)} {s t u : State}

theorem refl (s : State) : KeepsRest ms s s := ⟨fun _ _ => rfl, fun _ => rfl, fun _ => ⟨rfl, rfl⟩, rfl, rfl, rfl⟩

theorem trans (h : KeepsRest ms s t) (k : KeepsRest ms t u) : KeepsRest ms s u :=
  ⟨fun m hm => (k.array m hm).trans (h.array m hm), fun n => (k.micro n).trans (h.micro n),
    fun m => ⟨(k.ctl m).1.trans (h.ctl m).1, (k.ctl m).2.trans (h.ctl m).2⟩, k.mem.trans h.mem, k.now.trans h.now,
    k.pending.trans h.pending⟩

theorem mono {ms' : List (Fin 17)} (h : KeepsRest ms s t) (hms : ∀ m ∈ ms, m ∈ ms') : KeepsRest ms' s t :=
  { h with array := fun m hm => h.array m (fun k => hm (hms m k)) }

theorem ite {p : Prop} [Decidable p] (ht : KeepsRest ms s t) (hu : KeepsRest ms s u) : KeepsRest ms s (if p then t else u) := by
  split
  · exact ht
  · exact hu

theorem foldl {α : Type} {f : State → α → State} (l : List α) (h : KeepsRest ms s t)
    (hf : ∀ u a, a ∈ l → KeepsRest ms s u → KeepsRest ms s (f u a)) : KeepsRest ms s (l.foldl f t) :=
  List.foldlRecOn l f h (fun u hu a ha => hf u a ha hu)

section

variable (h : KeepsRest ms s t)

include h

theorem setFld (a : Nat) (f : Fld) (v : Nat) : KeepsRest ms s (t.setFld a f v) :=
  ⟨h.array, h.micro, h.ctl, h.mem, h.now, h.pending⟩

theorem bump (a : Nat) (f : Fld) (k : Nat := 1) : KeepsRest ms s (t.bump a f k) :=
  ⟨h.array, h.micro, h.ctl, h.mem, h.now, h.pending⟩

theorem raise (c : Nat) (v : BitVec 32) : KeepsRest ms s (t.raise c v) :=
  ⟨h.array, h.micro, h.ctl, h.mem, h.now, h.pending⟩

theorem draw (w : Nat) : KeepsRest ms s (t.draw w).2 := ⟨h.array, h.micro, h.ctl, h.mem, h.now, h.pending⟩

theorem setExt (m : Fin 17) (x : Extraction) : KeepsRest ms s (t.setExt m x) :=
  ⟨h.array, h.micro, h.ctl, h.mem, h.now, h.pending⟩

theorem strandSend (east : Bool) (msg : StrandMsg) : KeepsRest ms s (Machine.strandSend t east msg) :=
  ⟨h.array, h.micro, h.ctl, h.mem, h.now, h.pending⟩

theorem setCtl {n : Fin 17} {c : SpanCtl} (hg : c.g = (t.ctl n).g) (hv : c.v = (t.ctl n).v) : KeepsRest ms s (t.setCtl n c) := by
  refine ⟨h.array, h.micro, fun m => ?_, h.mem, h.now, h.pending⟩
  by_cases hm : m = n
  · subst hm
    rw [State.setCtl_ctl_self, hg, hv]
    exact h.ctl m
  · rw [State.setCtl_ctl_ne _ _ hm]
    exact h.ctl m

theorem setArray {n : Fin 17} (x : SpanArray) (hn : n ∈ ms) : KeepsRest ms s (t.setArray n x) :=
  ⟨fun m hm => (State.setArray_array_ne _ _ (ne_of_mem_of_not_mem hn hm).symm).trans (h.array m hm), h.micro, h.ctl, h.mem, h.now, h.pending⟩

/-! ### Rows that the checkpoint unit and the strand interface read -/

theorem parityReport (m row : Nat) (groups : List Nat) (onWrite : Bool) :
    KeepsRest ms s (Machine.parityReport t m row groups onWrite) := by
  unfold Machine.parityReport
  split
  · exact h
  · extract_lets a counted shown
    have hcounted : KeepsRest ms s counted := h.bump _ _ _
    have hshown : KeepsRest ms s shown := .ite (hcounted.setFld _ _ _)
      (((((hcounted.setFld _ _ _).setFld _ _ _).setFld _ _ _).setFld _ _ _).setFld _ _ _)
    exact hshown.raise _ _

theorem snapRowRead (n : Fin 17) : KeepsRest ms s (Machine.snapRowRead t n) := by
  unfold Machine.snapRowRead
  split
  · exact h
  · refine .ite h (setCtl ?_ rfl rfl)
    exact List.foldlRecOn (motive := fun x : List (BitVec 16384) × State => KeepsRest ms s x.2) _ _ h
      (fun _ hx m _ => hx.parityReport m _ _ _)

theorem captureSend (m : Fin 17) : KeepsRest ms s (Machine.captureSend t m) := by
  unfold Machine.captureSend
  extract_lets done caps c kept
  have hkept : KeepsRest ms s kept := h.setCtl rfl rfl
  refine foldl _ hkept fun u c _ hu => ?_
  have hwest := KeepsRest.ite (p := strandWest u m) (hu.strandSend false (.halo m (c.line.getD 0) c.cols c.west)) hu
  exact .ite (hwest.strandSend _ _) hwest

theorem captureRead (n : Fin 17) : KeepsRest ms s (Machine.captureRead t n) := by
  refine foldl _ h fun u m _ hu => ?_
  split
  · exact hu.captureSend m
  · extract_lets r c put c'
    refine captureSend ?_ m
    exact (hu.parityReport m _ _ _).setCtl rfl rfl

theorem snapRead (n : Fin 17) : KeepsRest ms s (Machine.snapRead t n) := by
  unfold Machine.snapRead
  split
  · exact .ite (h.snapRowRead n) (h.captureRead n)
  · exact h.captureRead n

/-! ### Planes handed to the extractors -/

theorem handPlane (m : Fin 17) (c : SpanCtl) (fmt : BitVec 15) (p : BitVec 16384) :
    KeepsRest ms s (Machine.handPlane t m c fmt p) :=
  .ite (h.bump _ _) (.ite ((h.bump _ _).setExt _ _) (.ite (h.setExt _ _) (h.setExt _ _)))

theorem extract (n : Fin 17) (fmt : BitVec 15) (last : Bool) (ts : List (Fin 17 × BitVec 16384)) :
    KeepsRest ms s (Machine.extract t n fmt last ts) := by
  unfold Machine.extract
  extract_lets c ignored handed fmt0 k misfit counted closed
  have hhanded : KeepsRest ms s handed := foldl _ h fun u p _ hu => hu.handPlane p.1 c fmt p.2
  have hcounted : KeepsRest ms s counted := .ite (hhanded.bump _ _) hhanded
  have hclosed : KeepsRest ms s closed := foldl _ hcounted fun u p _ hu => hu.setExt _ _
  exact .ite h (.ite hhanded (.ite (hclosed.setCtl rfl rfl) (hcounted.setCtl rfl rfl)))

end

end KeepsRest

/-! ## The cycle in one span -/

/-- The array `y` of span `m` after the cycle of nano-word `w` that began in state `s`. -/
def NanoDone (s : State) (w : Nano) (row : Nat) (con : Bool) (flips : List JointFlip) (m : Fin 17) (y : SpanArray) : Prop :=
  let c := bpCycle w row con (s.array m)
  y.p = c.1.p ∧ y.q = c.1.q ∧ y.c = c.1.c ∧ y.t = c.1.t ∧ y.m = c.1.m ∧ y.rows = c.1.rows ∧ y.parBad = c.1.parBad ∧
    (w.xm = 0 → y.x = c.1.x) ∧ (w.xm = 6 → y.x = c.2) ∧
    (1 ≤ w.xm → w.xm ≤ 4 → y.x.duty = moveX s m w.xm w.bnd (flipOf flips (m.val - 1)) (flipOf flips m.val))

/-- The X and the port of a span whose nano-word takes a plane are free of R41. -/
theorem nanoDone_plane {s : State} {w : Nano} (hw : w.xm = 5) (row : Nat) (con : Bool) (flips : List JointFlip) (m : Fin 17)
    (x : Plane) (port : List (BitVec 16384)) (cw ce : BitVec 64) :
    NanoDone s w row con flips m
      { (bpCycle w row con (s.array m)).1 with x := x, port := port, chainW := cw, chainE := ce } :=
  ⟨rfl, rfl, rfl, rfl, rfl, rfl, rfl, fun h => by omega, fun h => by omega, fun _ h => by omega⟩

/-- A span takes its new array, and of other arrays and the rest that R24 leaves nothing moves. -/
theorem issueSpan_shows (s0 : State) (n : Fin 17) (w : Nano) (row : Nat) (con : Bool) (flips : List JointFlip) (s : State)
    (m : Fin 17) (i : Nat) :
    KeepsRest [m] s (issueSpan s0 n w row con flips s (m, i)) ∧
      NanoDone s0 w row con flips m ((issueSpan s0 n w row con flips s (m, i)).array m) := by
  unfold issueSpan
  extract_lets m' x read en reported c y free drawn chains y'
  have hread : KeepsRest [m] s read := .ite ((KeepsRest.refl s).parityReport _ _ _ _) (.refl s)
  have hreported : KeepsRest [m] s reported := .ite (hread.parityReport _ _ _ _) hread
  have hdrawn : KeepsRest [m] s drawn := .ite hreported (hreported.draw 512)
  have hset (z : SpanArray) : KeepsRest [m] s (drawn.setArray m z) := hdrawn.setArray z (List.mem_singleton_self m)
  split
  · next hnone =>
    refine ⟨hset y', ?_⟩
    rw [State.setArray_array_self]
    exact ⟨rfl, rfl, rfl, rfl, rfl, rfl, rfl, fun _ => rfl, fun h => by omega, fun h => by omega⟩
  next hxm0 =>
  split
  · next hload =>
    refine ⟨hset _, ?_⟩
    rw [State.setArray_array_self]
    exact ⟨rfl, rfl, rfl, rfl, rfl, rfl, rfl, fun h => by omega, fun _ => rfl, fun _ h => by omega⟩
  next hxm6 =>
  split
  · next hplane =>
    split
    · refine ⟨(hset _).bump _ _ _, ?_⟩
      rw [State.bump_array, State.setArray_array_self]
      exact nanoDone_plane hplane row con flips m _ _ _ _
    · split
      · refine ⟨hset _, ?_⟩
        rw [State.setArray_array_self]
        exact nanoDone_plane hplane row con flips m _ _ _ _
      · refine ⟨hset _, ?_⟩
        rw [State.setArray_array_self]
        exact nanoDone_plane hplane row con flips m _ _ _ _
  · refine ⟨hset _, ?_⟩
    rw [State.setArray_array_self]
    exact ⟨rfl, rfl, rfl, rfl, rfl, rfl, rfl, fun h => absurd h hxm0, fun h => absurd h hxm6, fun _ _ => rfl⟩

theorem issueSpans_shows (s0 : State) (n : Fin 17) (w : Nano) (row : Nat) (con : Bool) (flips : List JointFlip)
    (l : List (Fin 17 × Nat)) (s : State) :
    KeepsRest (l.map Prod.fst) s (l.foldl (issueSpan s0 n w row con flips) s) ∧
      ∀ m ∈ l.map Prod.fst, NanoDone s0 w row con flips m ((l.foldl (issueSpan s0 n w row con flips) s).array m) := by
  induction l generalizing s with
  | nil => exact ⟨.refl s, fun m hm => absurd hm List.not_mem_nil⟩
  | cons p l ih =>
    obtain ⟨m, i⟩ := p
    obtain ⟨hfirst, hdone⟩ := issueSpan_shows s0 n w row con flips s m i
    obtain ⟨hrest, hothers⟩ := ih (issueSpan s0 n w row con flips s (m, i))
    rw [List.foldl_cons, List.map_cons]
    refine ⟨(hfirst.mono fun k hk => ?_).trans (hrest.mono fun k hk => .tail _ hk), fun k hk => ?_⟩
    · exact List.mem_singleton.mp hk ▸ .head _
    · by_cases hmem : k ∈ l.map Prod.fst
      · exact hothers k hmem
      · have hkm : k = m := (List.mem_cons.mp hk).resolve_right hmem
        rw [hrest.array k hmem, hkm]
        exact hdone

/-! ## The edges of the arrays -/

/-- Of the arrays nothing but what the joints deliver next and the halo chains moves. -/
def EdgesOnly (s t : State) : Prop :=
  ∀ m, ∃ e w c, t.array m = { s.array m with xPrev := e, chainW := w, chainE := c }

namespace EdgesOnly

variable {s t u : State}

theorem refl (s : State) : EdgesOnly s s := fun _ => ⟨_, _, _, rfl⟩

theorem trans (h : EdgesOnly s t) (k : EdgesOnly t u) : EdgesOnly s u := fun m => by
  obtain ⟨_, _, _, hm⟩ := h m
  obtain ⟨e, w, c, km⟩ := k m
  exact ⟨e, w, c, by rw [km, hm]⟩

theorem of_keeps (h : KeepsRest [] s t) : EdgesOnly s t := fun m => ⟨_, _, _, h.array m List.not_mem_nil⟩

theorem setArray (s : State) (n : Fin 17) (e w c) :
    EdgesOnly s (s.setArray n { s.array n with xPrev := e, chainW := w, chainE := c }) := fun m => by
  by_cases hm : m = n
  · exact ⟨e, w, c, by rw [hm, State.setArray_array_self]⟩
  · exact ⟨_, _, _, State.setArray_array_ne _ _ hm⟩

theorem nanoDone {s0 : State} {w : Nano} {row : Nat} {con : Bool} {flips : List JointFlip} {m : Fin 17} (h : EdgesOnly s t)
    (hm : NanoDone s0 w row con flips m (s.array m)) : NanoDone s0 w row con flips m (t.array m) := by
  obtain ⟨_, _, _, ht⟩ := h m
  rw [ht]
  exact hm

end EdgesOnly

/-- A part of the cycle that moves edges of the domain's arrays alone. -/
abbrev MovesEdges (ms : List (Fin 17)) (s t : State) : Prop := KeepsRest ms s t ∧ EdgesOnly s t

theorem movesEdges_foldl {ms : List (Fin 17)} {f : State → Fin 17 → State} (s : State)
    (hf : ∀ t, ∀ m ∈ ms, MovesEdges ms t (f t m)) : MovesEdges ms s (ms.foldl f s) :=
  List.foldlRecOn ms f ⟨.refl s, .refl s⟩ (fun t ht m hm =>
    ⟨ht.1.trans (hf t m hm).1, ht.2.trans (hf t m hm).2⟩)

theorem haloPlane_keeps {ms : List (Fin 17)} (s : State) (h : Option Halo) (i : Nat) : KeepsRest ms s (haloPlane s h i).2 := by
  unfold haloPlane
  split
  · exact .refl s
  · split
    · exact .refl s
    · exact (KeepsRest.refl s).draw 64

theorem loadHalo_edges {ms : List (Fin 17)} (s : State) (n : Fin 17) {m : Fin 17} (hm : m ∈ ms) (i : Nat) :
    MovesEdges ms s (loadHalo s n m i) := by
  unfold loadHalo
  extract_lets edge west
  have hedge (t : State) (east : Bool) : MovesEdges ms t (edge t east) := by
    unfold edge
    extract_lets h counted r
    have hcounted {l} : KeepsRest l t counted := .ite ((KeepsRest.refl t).bump _ _) (.refl t)
    have hr {l} : KeepsRest l t r.2 := hcounted.trans (haloPlane_keeps _ _ _)
    refine ⟨hr.setArray _ hm, (EdgesOnly.of_keeps hr).trans ?_⟩
    split
    · exact .setArray _ _ _ _ _
    · exact .setArray _ _ _ _ _
  have hwest : MovesEdges ms s west := by
    unfold west
    split
    · exact hedge s false
    · exact ⟨.refl s, .refl s⟩
  split
  · exact ⟨hwest.1.trans (hedge west true).1, hwest.2.trans (hedge west true).2⟩
  · exact hwest

/-! ## The requests and the next place -/

/-- A request is on its way for each reduction that the nano-word asks for. -/
theorem issueRequests_shows (s : State) (n : Fin 17) (w : Nano) (o : ArrayOp) :
    ∃ u, issueRequests s n w o = s.setMicro n u ∧ u.op = (s.micro n).op ∧
      u.gorPend.length = (s.micro n).gorPend.length + (if w.gor = 1 ∨ w.gor = 2 then 1 else 0) ∧
      u.gauPend.length = (s.micro n).gauPend.length + (if w.gau = 0 then 0 else 1) := by
  unfold issueRequests
  extract_lets ms u asked gauged
  have hasked : asked.op = u.op ∧ asked.gauPend = u.gauPend ∧
      asked.gorPend.length = u.gorPend.length + (if w.gor = 1 ∨ w.gor = 2 then 1 else 0) := by
    unfold asked
    by_cases h1 : w.gor = 1
    · simp [h1]
    · by_cases h2 : w.gor = 2
      · simp [h2]
      · simp [h1, h2]
  obtain ⟨hop, hgau, hgor⟩ := hasked
  refine ⟨gauged, rfl, ?_⟩
  unfold gauged
  split
  · exact ⟨hop, hgor, congrArg List.length hgau⟩
  · refine ⟨hop, hgor, ?_⟩
    rw [List.length_append, hgau]
    rfl

/-- The micro-sequencer takes the next place, or has no operation any more. -/
theorem issueNext_shows {s : State} {n : Fin 17} (hop : (s.micro n).op ≠ none) (w : Nano) (next : Option PathState) :
    let t := issueNext s n w next
    (∃ regs micros, t = { s with regs := regs, micros := micros }) ∧ (t.micro n).gorPend = (s.micro n).gorPend ∧
      (t.micro n).gauPend = (s.micro n).gauPend ∧ ((t.micro n).op = none ↔ next = none) ∧
      ∀ p, next = some p → t.fld (Reg.MS_STAT n) F.MS_STAT_PC = p.pc % 2 ^ 14 ∧ (t.micro n).lc0 = p.lc0 ∧ (t.micro n).ar0 = p.ar0 := by
  unfold issueNext
  extract_lets a shown u
  cases next with
  | none =>
    rw [State.setMicro_micro_self]
    exact ⟨⟨_, _, rfl⟩, rfl, rfl, ⟨fun _ => rfl, fun _ => rfl⟩, fun p hp => absurd hp (by simp)⟩
  | some p =>
    rw [State.setMicro_micro_self]
    refine ⟨⟨_, _, rfl⟩, rfl, rfl, ⟨fun h => absurd h hop, fun h => absurd h (by simp)⟩, fun q hq => ?_⟩
    obtain rfl : p = q := Option.some.inj hq
    refine ⟨?_, rfl, rfl⟩
    rw [State.setMicro_fld]
    exact State.setFld_fld_self _ _ _ ⟨by decide, by decide⟩ _

/-! ## The whole cycle -/

/-- The nano-word `w` of microword `u` has issued in the domain of micro-sequencer `n`: `s` before, `t` after. -/
structure Issued (n : Fin 17) (o : ArrayOp) (u : Micro) (w : Nano) (flips : List JointFlip) (s t : State) : Prop where
  done : ∀ m ∈ domainOf s n,
    NanoDone s w (nanoRow w (placeOf s n)) (conBit o (placeOf s n).lc0) flips m (t.array m)
  gor : (t.micro n).gorPend.length = (s.micro n).gorPend.length + (if w.gor = 1 ∨ w.gor = 2 then 1 else 0)
  gau : (t.micro n).gauPend.length = (s.micro n).gauPend.length + (if w.gau = 0 then 0 else 1)
  op : (t.micro n).op = none ↔ microNext u o (placeOf s n) (condValue s n u.cond) = none
  place : ∀ p, microNext u o (placeOf s n) (condValue s n u.cond) = some p →
    t.fld (Reg.MS_STAT n) F.MS_STAT_PC = p.pc % 2 ^ 14 ∧ (t.micro n).lc0 = p.lc0 ∧ (t.micro n).ar0 = p.ar0
  array : ∀ m, m ∉ domainOf s n → t.array m = s.array m
  ctl : ∀ m, (t.ctl m).g = (s.ctl m).g ∧ (t.ctl m).v = (s.ctl m).v
  mem : t.mem = s.mem
  now : t.now = s.now
  pending : t.pending = s.pending

theorem retimed_edges {t : State} {m : Fin 17} {ms : List (Fin 17)} (hm : m ∈ ms) (e : BitVec 64) :
    MovesEdges ms t (t.setArray m { t.array m with xPrev := e }) :=
  ⟨(KeepsRest.refl t).setArray _ hm, .setArray t m e _ _⟩

theorem issue_issued {s : State} {n : Fin 17} {o : ArrayOp} (hop : (s.micro n).op = some o) (u : Micro) (w : Nano)
    (flips : List JointFlip) : Issued n o u w flips s (issue s n o u w flips) := by
  unfold issue
  extract_lets ms p row next con cycled retimed c taken haloed asked extracted read
  obtain ⟨hcycled, hdone⟩ : KeepsRest ms s cycled ∧ ∀ m ∈ ms, NanoDone s w row con flips m (cycled.array m) := by
    have h := issueSpans_shows s n w row con flips ms.zipIdx s
    rwa [List.zipIdx_map_fst] at h
  have hretimed : MovesEdges ms cycled retimed := movesEdges_foldl _ fun t m hm => retimed_edges hm _
  have htaken : KeepsRest [] retimed taken := .ite ((KeepsRest.refl _).setCtl rfl rfl) (.refl _)
  have hhaloed : MovesEdges ms taken haloed := by
    unfold haloed
    split
    · exact movesEdges_foldl _ fun t m hm => loadHalo_edges t n hm _
    · exact ⟨.refl _, .refl _⟩
  have hrest : KeepsRest ms s haloed :=
    (hcycled.trans hretimed.1).trans ((htaken.mono (fun _ h => absurd h List.not_mem_nil)).trans hhaloed.1)
  have hedges : EdgesOnly cycled haloed := (hretimed.2.trans (.of_keeps htaken)).trans hhaloed.2
  obtain ⟨x, hasked, hxop, hxgor, hxgau⟩ := issueRequests_shows haloed n w o
  have hasked : asked = haloed.setMicro n x := hasked
  have hextracted : KeepsRest [] asked extracted := .ite ((KeepsRest.refl _).extract _ _ _ _) (.refl _)
  have hread : KeepsRest [] asked read := .ite (hextracted.snapRead n) hextracted
  have hmicro : read.micro n = x := by rw [hread.micro, hasked, State.setMicro_micro_self]
  have harray (m : Fin 17) : read.array m = haloed.array m := by
    rw [hread.array m List.not_mem_nil, hasked, State.setMicro_array]
  have hreadop : (read.micro n).op ≠ none := by
    rw [hmicro, hxop, hrest.micro, hop]
    exact Option.some_ne_none o
  obtain ⟨⟨regs, micros, ht⟩, hgor, hgau, hnone, hplace⟩ := issueNext_shows hreadop w next
  have hlast (m : Fin 17) : (issueNext read n w next).array m = haloed.array m := by
    rw [← harray m, ht]
    rfl
  refine ⟨fun m hm => ?_, ?_, ?_, hnone, hplace, fun m hm => (hlast m).trans (hrest.array m hm), fun m => ?_, ?_, ?_, ?_⟩
  · rw [hlast m]
    exact hedges.nanoDone (hdone m hm)
  · rw [hgor, hmicro, hxgor, hrest.micro]
  · rw [hgau, hmicro, hxgau, hrest.micro]
  · have hctl := hread.ctl m
    rw [hasked, State.setMicro_ctl] at hctl
    rw [ht]
    exact ⟨hctl.1.trans (hrest.ctl m).1, hctl.2.trans (hrest.ctl m).2⟩
  · rw [ht]
    exact (hread.mem.trans (hasked ▸ rfl)).trans hrest.mem
  · rw [ht]
    exact (hread.now.trans (hasked ▸ rfl)).trans hrest.now
  · rw [ht]
    exact (hread.pending.trans (hasked ▸ rfl)).trans hrest.pending

/-- The command of a cycle in which nothing keeps the nano-word back. -/
theorem execNanoWordIssue_issue {n : Fin 17} {ups : List Upset} {flips : List JointFlip} {s s1 : State} {o : ArrayOp}
    {u : Micro} {w : Nano} (hs : applyUpsets s ups = s1) (hop : (s1.micro n).op = some o) (hrole : s1.roleOf n ≠ 31)
    (hsweeps : sweepsDone s1 (domainOf s1 n) = true) (hu : microAt s1 n (s1.fld (Reg.MS_STAT n) F.MS_STAT_PC) = u)
    (hw : Nano.ofNat (nanoAt s1 n u.nptr) = w)
    (hmicro : s1.parity.contains (Win.micro n (s1.fld (Reg.MS_STAT n) F.MS_STAT_PC)) = false)
    (hnano : s1.parity.contains (Win.nano n u.nptr) = false) (hwait : microWaits s1 n u = false)
    (hheld : nanoHeld s1 n w = false) :
    execNanoWordIssue n ups flips s = .next (issue (jointParity s1 (domainOf s1 n) flips) n o u w flips) := by
  have h := JointsSeen.jointParity s1 (domainOf s1 n) flips
  have hclock : aclkGated s1 n = false := beq_eq_false_iff_ne.mpr hrole
  unfold execNanoWordIssue
  simp only [hs, hclock, h.micro, hop, h.sweepsDone, hsweeps, h.msStat, h.microAt, hu, h.nanoAt, hw, h.parity, hmicro,
    hnano, h.microWaits, hwait, h.nanoHeld, hheld, Bool.not_true, Bool.false_eq_true, if_false]

theorem nanoHeld_eq_false {s : State} {n : Fin 17} {w : Nano}
    (hplane : w.xm = 5 → ∀ p ∈ (domainOf s n).zipIdx, planeMissing s n p.2 p.1 = false)
    (hgauge : w.gau = 0 ∨ (s.micro n).gauPend.length + (s.micro n).gauReady.length < 32)
    (hextract : extractHolds s n w = false)
    (hrow : w.mop = 2 → snapHolds s n (nanoRow w (placeOf s n)) = false ∧ captureHolds s n (nanoRow w (placeOf s n)) = false) :
    nanoHeld s n w = false := by
  have hplanes : planeHolds s n w = false := by
    rw [planeHolds, Bool.and_eq_false_imp, decide_eq_true_iff]
    exact fun hxm => List.any_eq_false.mpr fun p hp => by rw [hplane hxm p hp]; exact Bool.false_ne_true
  have hgauges : gaugeHolds s n w = false := by
    rw [gaugeHolds, Bool.and_eq_false_imp, bne_iff_ne]
    exact fun hgau => decide_eq_false (by omega)
  have hrows : rowHolds s n w = false := by
    rw [rowHolds, Bool.and_eq_false_imp, decide_eq_true_iff]
    exact fun hmop => by rw [(hrow hmop).1, (hrow hmop).2]; rfl
  rw [nanoHeld, hplanes, hgauges, hextract, hrows]
  rfl

/-- What a nano-word issues over the joints of its cycle, it issues over the state before them (R53). -/
theorem Issued.before_joints {n : Fin 17} {o : ArrayOp} {u : Micro} {w : Nano} {flips : List JointFlip} {s t r : State}
    (h : JointsSeen s t) (k : Issued n o u w flips t r) : Issued n o u w flips s r := by
  obtain ⟨hdone, hgor, hgau, hop, hplace, harray, hctl, hmem, hnow, hpending⟩ := k
  simp only [NanoDone, h.domainOf, h.placeOf, h.array, h.moveX] at hdone harray
  simp only [h.micro, h.placeOf, h.condValue] at hgor hgau hop hplace
  simp only [h.ctl, h.mem, h.now, h.pending] at hctl hmem hnow hpending
  exact ⟨hdone, hgor, hgau, hop, hplace, harray, hctl, hmem, hnow, hpending⟩

end Sys2Proof.Machine

namespace Sys2Proof

open Machine

/-- Settles O6: nothing keeps the nano-word back, so the command is the issue of R24, whose parts each leave what the
statement leaves. -/
theorem nanoWordIssues : Obligations.NanoWordIssues := by
  unfold Obligations.NanoWordIssues
  intro n ups flips s o s1 ms pc u w hop hrole hsweeps hmicro hnano hwait hplane hgauge hextract hrow
  have hheld : nanoHeld s1 n w = false := nanoHeld_eq_false hplane hgauge hextract hrow
  have hexec := execNanoWordIssue_issue (flips := flips) rfl hop hrole hsweeps rfl rfl hmicro hnano hwait hheld
  have hjoints := JointsSeen.jointParity s1 ms flips
  obtain ⟨hdone, hgor, hgau, hend, hplace, harray, hctl, hmem, hnow, hpending⟩ :=
    (issue_issued ((hjoints.micro n ▸ hop)) u w flips).before_joints hjoints
  obtain ⟨_, _, _, _, hups⟩ := applyUpsets_storeOnly s ups
  have hups : s1 = _ := hups
  refine ⟨_, hexec, hdone, hgor, hgau, hend, hplace, harray, fun m => ?_, hmem, hnow.trans (by rw [hups]),
    hpending.trans (by rw [hups])⟩
  have hs : s1.ctl m = s.ctl m := by rw [hups]; rfl
  exact hs ▸ hctl m

end Sys2Proof
end

