-- ==== Sys2Proof/Proofs/HealthFrame.lean ====
section
/-!
PROOFS. The frame of the fault path (R458, R461, R478): what moving a pair out of service leaves of a set of registers, of
the health state and of the events raised so far, and what a pair shows once it is retired.
-/

namespace Sys2Proof.Machine

theorem mem_islandsBeside {n m : Nat} : m ∈ islandsBeside n ↔ (m = n - 1 ∨ m = n + 1) ∧ m ≠ n ∧ m < 17 := by
  simp [islandsBeside]

/-- The registers of `R` and the health state stand as they were, and no event raised so far is lost. -/
structure KeepsHealth (R : Nat → Prop) (s t : State) : Prop where
  reg : ∀ a, R a → t.reg a = s.reg a
  fh : t.fh = s.fh
  raised : ∃ es, Raised s t es

namespace KeepsHealth

variable {R : Nat → Prop} {s t u : State}

theorem refl (s : State) : KeepsHealth R s s := ⟨fun _ _ => rfl, rfl, [], .refl s⟩

theorem of_eq (hregs : t.regs = s.regs) (hfh : t.fh = s.fh) (hraises : t.raises = s.raises) : KeepsHealth R s t :=
  ⟨fun a _ => by rw [State.reg, State.reg, hregs], hfh, [], .of_eq hraises⟩

theorem trans (h : KeepsHealth R s t) (k : KeepsHealth R t u) : KeepsHealth R s u := by
  obtain ⟨es, hes⟩ := h.raised
  obtain ⟨fs, hfs⟩ := k.raised
  exact ⟨fun a ha => (k.reg a ha).trans (h.reg a ha), k.fh.trans h.fh, es ++ fs, hes.trans hfs⟩

theorem fld (h : KeepsHealth R s t) {a : Nat} (ha : R a) (f : Fld) : t.fld a f = s.fld a f := congrArg f.get (h.reg a ha)

theorem ite {c : Prop} {_ : Decidable c} (ht : KeepsHealth R s t) (hu : KeepsHealth R s u) :
    KeepsHealth R s (if c then t else u) := by
  split
  · exact ht
  · exact hu

theorem foldl {α : Type} {f : State → α → State} (l : List α) (hf : ∀ t, ∀ a ∈ l, KeepsHealth R t (f t a)) (s : State) :
    KeepsHealth R s (l.foldl f s) :=
  List.foldlRecOn l f (refl s) (fun t ht a ha => ht.trans (hf t a ha))

theorem setReg (s : State) {a : Nat} (w : BitVec 32) (ha : ¬R a) : KeepsHealth R s (s.setReg a w) :=
  ⟨fun _ hb => State.setReg_reg_ne _ _ (fun hab => ha (hab ▸ hb)), rfl, [], .of_eq rfl⟩

theorem setFld (s : State) {a : Nat} (f : Fld) (v : Nat) (ha : ¬R a) : KeepsHealth R s (s.setFld a f v) := setReg s _ ha

theorem raise (s : State) (src : Nat) (pay : BitVec 32) : KeepsHealth R s (s.raise src pay) :=
  ⟨fun _ _ => rfl, rfl, _, .raise s src pay⟩

/-! ### Islands -/

theorem setIsland (s : State) {n : Nat} (st mv : Nat) (hn : ¬R (Reg.DC_ISLAND n)) :
    KeepsHealth R s (Machine.setIsland s n st mv) :=
  (setFld s _ _ hn).trans (setFld _ _ _ hn)

theorem settleBeside (s : State) {n : Nat} (hn : ∀ m ∈ islandsBeside n, ¬R (Reg.DC_ISLAND m)) :
    KeepsHealth R s (Machine.settleBeside s n) :=
  foldl _ (fun t m hm => .ite (setIsland t _ _ (hn m hm)) (refl t)) s

theorem refreshIsland (s : State) (n : Fin 17) (held : Bool) (hR : ∀ m, m < 17 → ¬R (Reg.DC_ISLAND m)) :
    KeepsHealth R s (Machine.refreshIsland s n held) := by
  have hdraw : KeepsHealth R s (runTarget s n).2 := of_eq rfl rfl rfl
  have hset (t : State) (st mv : Nat) : KeepsHealth R t (Machine.settleBeside (Machine.setIsland t n st mv) n) :=
    (setIsland t st mv (hR n n.isLt)).trans (settleBeside _ (fun m hm => hR m (mem_islandsBeside.mp hm).2.2))
  exact .ite (refl s) (.ite (hdraw.trans (hset _ _ _)) (hset _ _ _))

/-! ### Pairs -/

theorem holdRole (s : State) (n : Fin 17) (r : Nat) (hisland : ∀ m, m < 17 → ¬R (Reg.DC_ISLAND m))
    (hl : ∀ a ∈ pairRegs n, ¬R a) : KeepsHealth R s (Machine.holdRole s n r) := by
  simp only [pairRegs, List.forall_mem_cons] at hl
  obtain ⟨hphys, hspan, hregion, -⟩ := hl
  exact (((setFld s _ _ hphys).trans (refreshIsland _ n _ hisland)).trans (setFld _ _ _ hspan)).trans (setFld _ _ _ hregion)

theorem setUse (s : State) {n : Nat} (u : Nat) (hn : ¬R (Reg.PL_PHYS n)) : KeepsHealth R s (Machine.setUse s n u) :=
  setFld s _ _ hn

theorem setSby (s : State) (v : Nat) (hR : ¬R Reg.PL_STAT) : KeepsHealth R s (Machine.setSby s v) := by
  have hset := setFld s F.PL_STAT_SBY v hR
  exact .ite hset (.ite (hset.trans (raise _ _ _)) (.ite (hset.trans (raise _ _ _)) hset))

/-! ### Endpoints -/

theorem modifyCw (s : State) (f : Causeway → Causeway) : KeepsHealth R s (Machine.modifyCw s f) := of_eq rfl rfl rfl

theorem enterEpState (s : State) {i : Nat} (st : Nat) (hi : ¬R (Reg.CW_EP_STAT i)) :
    KeepsHealth R s (Machine.enterEpState s i st) := (setFld s _ _ hi).trans (raise _ _ _)

theorem powerDownEp (s : State) {i : Fin 80} (hi : ¬R (Reg.CW_EP_STAT i)) : KeepsHealth R s (Machine.powerDownEp s i) := by
  have hdrain : KeepsHealth R s (startDrain s i) := (enterEpState s 1 hi).trans (modifyCw _ _)
  exact .ite (refl s) (.ite (enterEpState s 3 hi) (.ite (modifyCw s _) (hdrain.trans (modifyCw _ _))))

theorem refreshJoints (s : State) (hR : ∀ j, j < 16 → ¬R (Reg.ARR_JOINT_STAT j)) :
    KeepsHealth R s (Machine.refreshJoints s) :=
  foldl _ (fun t j hj => (setFld t _ _ (hR j (List.mem_range.mp hj))).trans (setFld _ _ _ (hR j (List.mem_range.mp hj)))) s

end KeepsHealth

/-! ## A role leaves a pair -/

/-- A register of the spans, or of the health, wear and probe units: no move of a role writes it. -/
def HealthReg (a : Nat) : Prop := a < 0x4500000000 ∨ 0x4900300000 ≤ a

theorem not_healthReg_island {m : Nat} (hm : m < 17) : ¬HealthReg (Reg.DC_ISLAND m) := by
  simp only [HealthReg, Reg.DC_ISLAND]
  omega

theorem not_healthReg_pair (n : Fin 17) : ∀ a ∈ pairRegs n, ¬HealthReg a := by
  simp only [pairRegs, List.forall_mem_cons, HealthReg, Reg.PL_PHYS, Reg.CW_EP_TAG]
  refine ⟨by omega, by omega, by omega, fun a ha => absurd ha List.not_mem_nil⟩

theorem keepsHealth_setUse (s : State) (n : Fin 17) (u : Nat) : KeepsHealth HealthReg s (setUse s n u) :=
  .setUse s u (not_healthReg_pair n _ (List.mem_cons_self ..))

theorem keepsHealth_holdRole (s : State) (n : Fin 17) (r : Nat) : KeepsHealth HealthReg s (holdRole s n r) :=
  .holdRole s n r (fun _ => not_healthReg_island) (not_healthReg_pair n)

theorem keepsHealth_setStandby (s : State) (n : Option (Fin 17)) : KeepsHealth HealthReg s (setStandby s n) := by
  have hstat : ¬HealthReg Reg.PL_STAT := by simp only [HealthReg, Reg.PL_STAT]; omega
  have hrole : ¬HealthReg (Reg.PL_ROLE 16) := by simp only [HealthReg, Reg.PL_ROLE]; omega
  unfold setStandby
  extract_lets v shown
  have hshown : KeepsHealth HealthReg s shown := (KeepsHealth.setFld s _ _ hstat).trans (.setFld _ _ _ hrole)
  cases n with
  | none => exact hshown.trans (.setSby _ 0 hstat)
  | some n =>
    exact hshown.trans (((keepsHealth_holdRole shown n 16).trans (keepsHealth_setUse _ n 2)).trans (.setSby _ 1 hstat))

/-- A pair that leaves its role shows none. -/
theorem roleOf_holdRole (s : State) (n : Fin 17) {r : Nat} (hr : r < 32) : (holdRole s n r).roleOf n = r := by
  have hspan : Reg.PL_PHYS n.val ≠ Reg.CW_EP_TAG n.val := by simp only [Reg.PL_PHYS, Reg.CW_EP_TAG]; omega
  have hregion : Reg.PL_PHYS n.val ≠ Reg.CW_EP_TAG (17 + n.val) := by simp only [Reg.PL_PHYS, Reg.CW_EP_TAG]; omega
  have hisland : KeepsPlacement [] (s.setFld (Reg.PL_PHYS n) F.PL_PHYS_ROLE r)
    (refreshIsland (s.setFld (Reg.PL_PHYS n) F.PL_PHYS_ROLE r) n (r != 31)) := (KeepsPlacement.refl _ _).refreshIsland n _
  rw [State.roleOf, holdRole, State.setFld_fld_ne _ _ _ _ hregion, State.setFld_fld_ne _ _ _ _ hspan,
    hisland.fld (Reg.PL_PHYS n) F.PL_PHYS_ROLE, State.setFld_fld_self _ _ _ ⟨by decide, by decide⟩]
  exact Nat.mod_eq_of_lt hr

theorem setStandby_none (s : State) : sby (setStandby s none) = 0 ∧ standby (setStandby s none) = none := by
  unfold setStandby
  extract_lets v shown
  refine ⟨sby_setSby _ (by decide), ?_⟩
  have hsby : KeepsPlacement [Reg.PL_STAT] shown (setSby shown 0) := (KeepsPlacement.refl _ shown).setSby 0 (by simp)
  have hphys : shown.fld (Reg.PL_ROLE 16) F.PL_ROLE_PHYS = 31 := State.setFld_fld_self _ _ _ ⟨by decide, by decide⟩ _
  rw [standby, pairOf_congr (hsby.fld _ _), pairOf, hphys]
  rfl

/-- The standby stands apart from the pair's own registers. -/
theorem standby_setUse (s : State) (n : Fin 17) (u : Nat) : standby (setUse s n u) = standby s :=
  pairOf_congr (State.setFld_fld_ne _ _ _ _ (by simp only [Reg.PL_ROLE, Reg.PL_PHYS]; omega))

theorem sby_setUse (s : State) (n : Fin 17) (u : Nat) : sby (setUse s n u) = sby s :=
  State.setFld_fld_ne _ _ _ _ (by simp only [Reg.PL_STAT, Reg.PL_PHYS]; omega)

theorem standby_holdRole (s : State) (n : Fin 17) (r : Nat) : standby (holdRole s n r) = standby s :=
  pairOf_congr (((KeepsPlacement.refl (pairRegs n) s).holdRole n r (fun _ h => h)).fld _ _)

theorem sby_holdRole (s : State) (n : Fin 17) (r : Nat) : sby (holdRole s n r) = sby s :=
  ((KeepsPlacement.refl (pairRegs n) s).holdRole n r (fun _ h => h)).fld _ _

/-- The standby pair leaves service: there is no standby, and the pair is FLAGGED without a role. -/
theorem standbyFault_shows {s : State} {n : Fin 17} (hn : standby s = some n) (hsby : sby s = 1) :
    standby (standbyFault s n) = none ∧ sby (standbyFault s n) = 0 ∧ plUse (standbyFault s n) n = 5 ∧
      (standbyFault s n).roleOf n = 31 := by
  obtain ⟨hnone, hstand⟩ := setStandby_none s
  rw [standbyFault, if_pos ⟨hn, hsby⟩, standby_setUse, standby_holdRole, sby_setUse, sby_holdRole, roleOf_setUse]
  exact ⟨hstand, hnone, plUse_setUse _ _ (by decide), roleOf_holdRole _ n (by decide)⟩

theorem standbyFault_other {s : State} {n : Fin 17} (h : ¬(standby s = some n ∧ sby s = 1)) : standbyFault s n = s := if_neg h

theorem keepsHealth_standbyFault (s : State) (n : Fin 17) : KeepsHealth HealthReg s (standbyFault s n) :=
  .ite (((keepsHealth_setStandby s none).trans (keepsHealth_holdRole _ n 31)).trans (keepsHealth_setUse _ n 5)) (.refl s)

/-! ## A pair is retired (R461, R463, R478) -/

/-- The repair record takes the entry; of the health state nothing else moves. -/
theorem appendRepair_only (s : State) (kind unit b2 b3 : Nat) (word : BitVec 32) :
    ∃ repairs seq, appendRepair s kind unit b2 b3 word = { s with fh := { s.fh with repairs := repairs, repairSeq := seq } } ∧
      ⟨kind, unit, b2, b3, word, operatingHours s, true⟩ ∈ repairs := by
  unfold appendRepair
  extract_lets e h
  split
  · exact ⟨_, _, rfl, List.mem_append_right _ (List.mem_singleton_self e)⟩
  · exact ⟨_, _, rfl, List.mem_append_right _ (List.mem_singleton_self e)⟩

/-- The registers in which a retired pair shows. -/
def retiredRegs (n : Fin 17) (a : Nat) : Prop := a = Reg.PL_PHYS n ∨ a = Reg.DC_ISLAND n

/-- The pair's role, island and endpoints go; what it shows stands from the moment it is off. -/
def takeOut (s : State) (n : Fin 17) : State := setIsland (setUse (holdRole s n 31) n 6) n 0 0

theorem takeOut_shows (s : State) (n : Fin 17) : plUse (takeOut s n) n = 6 ∧ (takeOut s n).roleOf n = 31 ∧
    islandState (takeOut s n) n = 0 ∧ islandTarget (takeOut s n) n = 0 := by
  have hkeeps : KeepsPlacement [] (setUse (holdRole s n 31) n 6) (takeOut s n) := (KeepsPlacement.refl _ _).setIsland n.isLt 0 0
  refine ⟨(hkeeps.fld _ _).trans (plUse_setUse _ _ (by decide)), ?_, ?_, State.setFld_fld_self _ _ _ ⟨by decide, by decide⟩ _⟩
  · exact ((hkeeps.fld (Reg.PL_PHYS n) F.PL_PHYS_ROLE).trans (roleOf_setUse _ n 6)).trans (roleOf_holdRole _ n (by decide))
  · exact (State.setFld_fld_disjoint _ _ _ _ ⟨by decide, by decide⟩ (by decide) (by decide) _).trans
      (State.setFld_fld_self _ _ _ ⟨by decide, by decide⟩ _)

theorem keepsHealth_takeOut (s : State) (n : Fin 17) : KeepsHealth (fun _ => False) s (takeOut s n) :=
  ((KeepsHealth.holdRole s n 31 (fun _ _ => id) (fun _ _ => id)).trans (.setUse _ 6 id)).trans (.setIsland _ 0 0 id)

/-- What follows the loss of the island in `retirePair`. -/
def closeDown (s : State) (n : Fin 17) : State :=
  let s := ((settleBeside s n).setArray n .reset).setFld (Reg.ARR_STAT n) F.ARR_STAT_INIT_DONE 0
  refreshJoints (powerDownEp (powerDownEp s ⟨n.val, by omega⟩) ⟨17 + n.val, by omega⟩)

theorem retirePair_eq (s : State) (n : Fin 17) :
    retirePair s n = closeDown (takeOut (appendRepair s 3 n.val 0 0 0) n) n := rfl

theorem keepsHealth_closeDown (s : State) (n : Fin 17) : KeepsHealth (retiredRegs n) s (closeDown s n) := by
  have hbeside : ∀ m ∈ islandsBeside n, ¬retiredRegs n (Reg.DC_ISLAND m) := fun m hm => by
    obtain ⟨-, hne, hlt⟩ := mem_islandsBeside.mp hm
    simp only [retiredRegs, Reg.DC_ISLAND, Reg.PL_PHYS]
    omega
  have hstat : ¬retiredRegs n (Reg.ARR_STAT n) := by simp only [retiredRegs, Reg.DC_ISLAND, Reg.PL_PHYS, Reg.ARR_STAT]; omega
  have hep (i : Fin 80) : ¬retiredRegs n (Reg.CW_EP_STAT i) := by
    simp only [retiredRegs, Reg.DC_ISLAND, Reg.PL_PHYS, Reg.CW_EP_STAT]
    omega
  have hjoint : ∀ j, j < 16 → ¬retiredRegs n (Reg.ARR_JOINT_STAT j) := fun j hj => by
    simp only [retiredRegs, Reg.DC_ISLAND, Reg.PL_PHYS, Reg.ARR_JOINT_STAT]
    omega
  have harray : KeepsHealth (retiredRegs n) (settleBeside s n) ((settleBeside s n).setArray n .reset) := .of_eq rfl rfl rfl
  exact (((((KeepsHealth.settleBeside s hbeside).trans harray).trans (.setFld _ _ _ hstat)).trans
    (.powerDownEp _ (hep _))).trans (.powerDownEp _ (hep _))).trans (.refreshJoints _ hjoint)

/-- The pair `n` is retired in `t`, with an entry in the repair record, and of the health state of `s` nothing else moves. -/
structure Retired (n : Fin 17) (s t : State) : Prop where
  use : plUse t n = 6
  role : t.roleOf n = 31
  island : islandState t n = 0
  target : islandTarget t n = 0
  fh : ∃ repairs seq, t.fh = { s.fh with repairs := repairs, repairSeq := seq } ∧
    ∃ e ∈ repairs, e.kind = 3 ∧ e.unit = n.val ∧ e.good = true
  raised : ∃ es, Raised s t es

theorem retirePair_retired (s : State) (n : Fin 17) : Retired n s (retirePair s n) := by
  obtain ⟨repairs, seq, hrecord, hmem⟩ := appendRepair_only s 3 n.val 0 0 0
  rw [retirePair_eq, hrecord]
  obtain ⟨huse, hrole, hstate, htarget⟩ :=
    takeOut_shows { s with fh := { s.fh with repairs := repairs, repairSeq := seq } } n
  have hout := keepsHealth_takeOut { s with fh := { s.fh with repairs := repairs, repairSeq := seq } } n
  generalize takeOut { s with fh := { s.fh with repairs := repairs, repairSeq := seq } } n = t at *
  have hdown := keepsHealth_closeDown t n
  obtain ⟨es, hes⟩ := hout.raised
  obtain ⟨ds, hds⟩ := hdown.raised
  exact ⟨(hdown.fld (.inl rfl) _).trans huse, (hdown.fld (.inl rfl) _).trans hrole, (hdown.fld (.inr rfl) _).trans hstate,
    (hdown.fld (.inr rfl) _).trans htarget, ⟨repairs, seq, hdown.fh.trans hout.fh, _, hmem, rfl, rfl, rfl⟩, es ++ ds, hes.trans hds⟩

end Sys2Proof.Machine
end

