-- ==== Sys2Proof/Proofs/HealthSamples.lean ====
section
/-!
PROOFS. The samples of the islands' monitors (R458, R460): what a sample shows, which conditions are new breaches, and
what a breach leaves of the pair.
-/

namespace Sys2Proof.Machine

/-! ## Fields written together -/

/-- A field of one bit is set as a flag exactly when it reads 1. -/
theorem flag_iff_fld_eq_one (s : State) (a : Nat) {f : Fld} (hf : f.hi = f.lo) : s.flag a f = true ↔ s.fld a f = 1 := by
  have hlt : s.fld a f < 2 := by
    rw [State.fld, Fld.get, hf, Nat.sub_self]
    exact Nat.mod_lt _ (by decide)
  rw [State.flag, bne_iff_ne]
  omega

/-- Values written into fields of one register, one after another. -/
def setFlds (s : State) (a : Nat) (l : List (Fld × Nat)) : State := l.foldl (fun s p => s.setFld a p.1 p.2) s

theorem setFlds_fld_apart (s : State) (a : Nat) {l : List (Fld × Nat)} {g : Fld} (hg : g.lo ≤ g.hi)
    (hl : ∀ p ∈ l, p.1.Ok ∧ p.1.Apart g) : (setFlds s a l).fld a g = s.fld a g := by
  induction l generalizing s with
  | nil => rfl
  | cons p l ih =>
    obtain ⟨⟨hp, hapart⟩, hrest⟩ := List.forall_mem_cons.mp hl
    exact (ih (s.setFld a p.1 p.2) hrest).trans (State.setFld_fld_disjoint s a _ _ hp hg hapart _)

/-- Each of several fields that share no bit shows the value written into it. -/
theorem setFlds_fld (s : State) (a : Nat) {l : List (Fld × Nat)} (hok : ∀ p ∈ l, p.1.Ok)
    (hapart : l.Pairwise (fun p q => p.1.Apart q.1)) {p : Fld × Nat} (hp : p ∈ l) :
    (setFlds s a l).fld a p.1 = p.2 % 2 ^ (p.1.hi - p.1.lo + 1) := by
  induction l generalizing s with
  | nil => exact absurd hp List.not_mem_nil
  | cons q l ih =>
    obtain ⟨hq, hrest⟩ := List.forall_mem_cons.mp hok
    obtain ⟨hql, hpairs⟩ := List.pairwise_cons.mp hapart
    obtain rfl | hmem := List.mem_cons.mp hp
    · exact (setFlds_fld_apart _ a hq.1 (fun r hr => ⟨hrest r hr, (hql r hr).symm⟩)).trans (State.setFld_fld_self s a _ hq _)
    · exact ih (s.setFld a q.1 q.2) hrest hpairs hmem

theorem setFlds_onlyRegs (s : State) (a : Nat) (l : List (Fld × Nat)) : OnlyRegs [a] s (setFlds s a l) :=
  List.foldlRecOn (motive := OnlyRegs [a] s) l _ (.refl _ s) (fun _ ht _ _ => ht.trans (.setFld _ _ _ (List.mem_singleton_self a)))

theorem setFlds_raises (s : State) (a : Nat) (l : List (Fld × Nat)) : (setFlds s a l).raises = s.raises :=
  List.foldlRecOn (motive := fun t : State => t.raises = s.raises) l _ rfl (fun _ ht _ _ => ht)

/-! ## A sample -/

/-- The conditions that a sample shows (R460): 0 supply low, 1 supply high, 2 temperature. -/
def sampleShows (s : State) (n : Fin 17) (volt : BitVec 10) (temp : BitVec 8) (q : Fin 3) : Bool :=
  if q = 0 then volt.toNat < s.fld (Reg.DC_ISLAND n) F.DC_ISLAND_TARGET - s.fld Reg.FH_LIMITS F.FH_LIMITS_VLOW_MV
  else if q = 1 then 830 < volt.toNat else (s.fld Reg.FH_LIMITS F.FH_LIMITS_THOT : Int) < temp.toInt

/-- The field in which a condition shows. -/
def conditionFld (q : Fin 3) : Fld := if q = 0 then F.FH_SPAN_V_LOW else if q = 1 then F.FH_SPAN_V_HIGH else F.FH_SPAN_T_HOT

/-- The conditions that the sample before showed too. -/
def lastingConditions (s : State) (n : Fin 17) (volt : BitVec 10) (temp : BitVec 8) : List (Fin 3) :=
  (List.finRange 3).filter (fun q => sampleShows s n volt temp q && s.flag (Reg.FH_SPAN n) (conditionFld q))

/-- The breaches that a sample begins: conditions that last and were not yet in breach. -/
def sampleBreaches (s : State) (n : Fin 17) (volt : BitVec 10) (temp : BitVec 8) : List (Fin 3) :=
  (lastingConditions s n volt temp).filter (fun q => !s.fh.breach.contains (n, q))

/-- The fields of FH_SPAN that a sample writes. -/
def sampleFlds (shown : Fin 3 → Bool) (volt temp : Nat) : List (Fld × Nat) :=
  [(F.FH_SPAN_V_LOW, (shown 0).toNat), (F.FH_SPAN_V_HIGH, (shown 1).toNat), (F.FH_SPAN_T_HOT, (shown 2).toNat),
    (F.FH_SPAN_VOLT, volt), (F.FH_SPAN_TEMP, temp)]

/-- The state with the sample in FH_SPAN, and the breaches that last no more forgotten. -/
def showSample (s : State) (n : Fin 17) (volt : BitVec 10) (temp : BitVec 8) : State :=
  let lasting := lastingConditions s n volt temp
  setFlds (modifyFh s (fun h => { h with breach := h.breach.filter (fun b => b.1 != n || lasting.contains b.2) }))
    (Reg.FH_SPAN n) (sampleFlds (sampleShows s n volt temp) volt.toNat temp.toNat)

theorem execSpanHealth_on {s : State} {n : Fin 17} (h : s.fld (Reg.DC_ISLAND n) F.DC_ISLAND_STATE ≠ 0) (volt : BitVec 10)
    (temp : BitVec 8) : execSpanHealth n volt temp s =
      .next ((sampleBreaches s n volt temp).foldl (fun s q => islandBreach s n q) (showSample s n volt temp)) := by
  unfold execSpanHealth
  rw [if_neg h]
  rfl

section

variable (s : State) (n : Fin 17) (volt : BitVec 10) (temp : BitVec 8)

theorem sampleFlds_ok (shown : Fin 3 → Bool) (v t : Nat) : ∀ p ∈ sampleFlds shown v t, p.1.Ok := by
  simp only [sampleFlds, List.forall_mem_cons]
  exact ⟨⟨by decide, by decide⟩, ⟨by decide, by decide⟩, ⟨by decide, by decide⟩, ⟨by decide, by decide⟩,
    ⟨by decide, by decide⟩, fun _ h => absurd h List.not_mem_nil⟩

theorem sampleFlds_apart (shown : Fin 3 → Bool) (v t : Nat) :
    (sampleFlds shown v t).Pairwise (fun p q => p.1.Apart q.1) := by
  have h : ((sampleFlds shown v t).map Prod.fst).Pairwise Fld.Apart :=
    (by decide : [F.FH_SPAN_V_LOW, F.FH_SPAN_V_HIGH, F.FH_SPAN_T_HOT, F.FH_SPAN_VOLT, F.FH_SPAN_TEMP].Pairwise Fld.Apart)
  exact List.pairwise_map.mp h

/-- A field that the sample writes shows its value. -/
theorem showSample_fld {p : Fld × Nat} (hp : p ∈ sampleFlds (sampleShows s n volt temp) volt.toNat temp.toNat) :
    (showSample s n volt temp).fld (Reg.FH_SPAN n) p.1 = p.2 % 2 ^ (p.1.hi - p.1.lo + 1) :=
  setFlds_fld _ _ (sampleFlds_ok _ _ _) (sampleFlds_apart _ _ _) hp

theorem showSample_volt : (showSample s n volt temp).fld (Reg.FH_SPAN n) F.FH_SPAN_VOLT = volt.toNat :=
  (showSample_fld s n volt temp (p := (F.FH_SPAN_VOLT, volt.toNat)) (by simp [sampleFlds])).trans (Nat.mod_eq_of_lt volt.isLt)

theorem showSample_temp : (showSample s n volt temp).fld (Reg.FH_SPAN n) F.FH_SPAN_TEMP = temp.toNat :=
  (showSample_fld s n volt temp (p := (F.FH_SPAN_TEMP, temp.toNat)) (by simp [sampleFlds])).trans (Nat.mod_eq_of_lt temp.isLt)

/-- A condition shows in its field exactly when the sample shows it. -/
theorem showSample_condition (q : Fin 3) :
    (showSample s n volt temp).fld (Reg.FH_SPAN n) (conditionFld q) = 1 ↔ sampleShows s n volt temp q = true := by
  have hfld : (showSample s n volt temp).fld (Reg.FH_SPAN n) (conditionFld q) = (sampleShows s n volt temp q).toNat % 2 := by
    fin_cases q
    · exact showSample_fld s n volt temp (p := (F.FH_SPAN_V_LOW, (sampleShows s n volt temp 0).toNat)) (.head _)
    · exact showSample_fld s n volt temp (p := (F.FH_SPAN_V_HIGH, (sampleShows s n volt temp 1).toNat)) (.tail _ (.head _))
    · exact showSample_fld s n volt temp (p := (F.FH_SPAN_T_HOT, (sampleShows s n volt temp 2).toNat)) (.tail _ (.tail _ (.head _)))
  rw [hfld]
  cases sampleShows s n volt temp q <;> decide

theorem showSample_trip :
    (showSample s n volt temp).fld (Reg.FH_SPAN n) F.FH_SPAN_TRIP = s.fld (Reg.FH_SPAN n) F.FH_SPAN_TRIP :=
  setFlds_fld_apart _ _ (by decide) (by
    simp only [sampleFlds, List.forall_mem_cons]
    exact ⟨⟨⟨by decide, by decide⟩, by decide⟩, ⟨⟨by decide, by decide⟩, by decide⟩, ⟨⟨by decide, by decide⟩, by decide⟩,
      ⟨⟨by decide, by decide⟩, by decide⟩, ⟨⟨by decide, by decide⟩, by decide⟩, fun _ h => absurd h List.not_mem_nil⟩)

theorem showSample_onlyRegs : OnlyRegs [Reg.FH_SPAN n] s (showSample s n volt temp) := setFlds_onlyRegs _ _ _

theorem showSample_raised : Raised s (showSample s n volt temp) [] := .of_eq (setFlds_raises _ _ _)

theorem mem_sampleBreaches (q : Fin 3) : q ∈ sampleBreaches s n volt temp ↔
    (n, q) ∉ s.fh.breach ∧ sampleShows s n volt temp q = true ∧ s.fld (Reg.FH_SPAN n) (conditionFld q) = 1 := by
  have hbit : (conditionFld q).hi = (conditionFld q).lo := by
    fin_cases q <;> decide
  simp only [sampleBreaches, lastingConditions, List.mem_filter, List.mem_finRange, Bool.and_eq_true, Bool.not_eq_true',
    List.contains_eq_mem, decide_eq_false_iff_not, true_and, flag_iff_fld_eq_one _ _ hbit]
  tauto

end

/-! ## A breach -/

/-- A breach as it shows before the pair leaves service. -/
def markBreach (s : State) (n : Fin 17) (q : Fin 3) : State :=
  let s := modifyFh s (fun h => { h with breach := h.breach ++ [(n, q)],
                                         flagged := if h.flagged.contains n then h.flagged else h.flagged ++ [n] })
  ((s.setFld (Reg.FH_SPAN n) F.FH_SPAN_TRIP 1).setFld (Reg.ARR_STAT n) F.ARR_STAT_FLAGGED 1).raise (960 + n.val)
    (payCause (q.val + 1))

/-- An idle pair is FLAGGED, and the standby leaves service. -/
def leaveService (s : State) (n : Fin 17) : State := if plUse s n = 0 then setUse s n 5 else standbyFault s n

theorem islandBreach_eq (s : State) (n : Fin 17) (q : Fin 3) : islandBreach s n q = leaveService (markBreach s n q) n := rfl

theorem keepsHealth_leaveService (s : State) (n : Fin 17) : KeepsHealth HealthReg s (leaveService s n) :=
  .ite (keepsHealth_setUse s n 5) (keepsHealth_standbyFault s n)

theorem healthReg_span (n : Fin 17) : HealthReg (Reg.FH_SPAN n) ∧ HealthReg (Reg.ARR_STAT n) := by
  simp only [HealthReg, Reg.FH_SPAN, Reg.ARR_STAT]
  omega

theorem FH_SPAN_ne_ARR_STAT (n : Fin 17) : Reg.FH_SPAN n ≠ Reg.ARR_STAT n := by
  simp only [Reg.FH_SPAN, Reg.ARR_STAT]
  omega

section

variable (s : State) (n : Fin 17) (q : Fin 3)

theorem markBreach_fld {g : Fld} (hg : g.lo ≤ g.hi) (hlow : g.hi < 31) :
    (markBreach s n q).fld (Reg.FH_SPAN n) g = s.fld (Reg.FH_SPAN n) g := by
  unfold markBreach
  rw [State.raise_fld, State.setFld_fld_ne _ _ _ _ (FH_SPAN_ne_ARR_STAT n),
    State.setFld_fld_disjoint _ _ _ _ ⟨by decide, by decide⟩ hg (.inl hlow)]
  rfl

theorem markBreach_trip : (markBreach s n q).fld (Reg.FH_SPAN n) F.FH_SPAN_TRIP = 1 := by
  unfold markBreach
  rw [State.raise_fld, State.setFld_fld_ne _ _ _ _ (FH_SPAN_ne_ARR_STAT n),
    State.setFld_fld_self _ _ _ ⟨by decide, by decide⟩]
  rfl

theorem markBreach_flagged : (markBreach s n q).fld (Reg.ARR_STAT n) F.ARR_STAT_FLAGGED = 1 := by
  unfold markBreach
  rw [State.raise_fld, State.setFld_fld_self _ _ _ ⟨by decide, by decide⟩]
  rfl

theorem markBreach_onlyRegs : OnlyRegs [Reg.FH_SPAN n, Reg.ARR_STAT n] s (markBreach s n q) := by
  unfold markBreach
  extract_lets marked
  have hmarked : OnlyRegs [Reg.FH_SPAN n, Reg.ARR_STAT n] s marked := .of_eq rfl
  exact (hmarked.trans ((OnlyRegs.setFld _ _ _ (.head _)).trans (.setFld _ _ _ (.tail _ (.head _))))).trans (.raise _ _ _)

theorem markBreach_raised : Raised s (markBreach s n q) [(960 + n.val, payCause (q.val + 1))] := by
  unfold markBreach
  extract_lets marked
  exact Raised.trans (t := (marked.setFld (Reg.FH_SPAN n) F.FH_SPAN_TRIP 1).setFld (Reg.ARR_STAT n) F.ARR_STAT_FLAGGED 1) (.of_eq rfl)
    (.raise _ _ _)

theorem markBreach_breach : (markBreach s n q).fh.breach = s.fh.breach ++ [(n, q)] := rfl

/-- The registers of the placement stand apart from those of a breach. -/
theorem markBreach_reg {a : Nat} (hlo : 0x4900000000 ≤ a) (hhi : a < 0x4900300000) : (markBreach s n q).reg a = s.reg a :=
  markBreach_onlyRegs s n q a (by
    simp only [List.mem_cons, List.not_mem_nil, or_false, Reg.FH_SPAN, Reg.ARR_STAT]
    omega)

theorem markBreach_pair (f : Fld) : (markBreach s n q).fld (Reg.PL_PHYS n) f = s.fld (Reg.PL_PHYS n) f :=
  congrArg f.get (markBreach_reg s n q (by simp only [Reg.PL_PHYS]; omega) (by simp only [Reg.PL_PHYS]; omega))

/-- What a breach leaves to the pair is decided on the placement as it was. -/
theorem markBreach_placement : plUse (markBreach s n q) n = plUse s n ∧ standby (markBreach s n q) = standby s ∧
    sby (markBreach s n q) = sby s :=
  ⟨markBreach_pair s n q _, pairOf_congr (congrArg F.PL_ROLE_PHYS.get (markBreach_reg s n q (by decide) (by decide))),
    congrArg F.PL_STAT_SBY.get (markBreach_reg s n q (by decide) (by decide))⟩

end

/-- The breaches `qs` of island `n` show in `t`, and FH_SPAN reads as in `s` but for TRIP. -/
structure Breached (n : Fin 17) (qs : List (Fin 3)) (s t : State) : Prop where
  sample : ∀ g : Fld, g.lo ≤ g.hi → g.hi < 31 → t.fld (Reg.FH_SPAN n) g = s.fld (Reg.FH_SPAN n) g
  kept : ∀ b ∈ s.fh.breach, b ∈ t.fh.breach
  breach : ∀ q ∈ qs, (n, q) ∈ t.fh.breach
  trip : qs ≠ [] → t.fld (Reg.FH_SPAN n) F.FH_SPAN_TRIP = 1 ∧ t.fld (Reg.ARR_STAT n) F.ARR_STAT_FLAGGED = 1
  raised : ∃ es, Raised s t es ∧ ∀ q ∈ qs, (960 + n.val, payCause (q.val + 1)) ∈ es

theorem Breached.refl (n : Fin 17) (s : State) : Breached n [] s s :=
  ⟨fun _ _ _ => rfl, fun _ h => h, fun _ h => absurd h List.not_mem_nil, fun h => absurd rfl h,
    [], .refl s, fun _ h => absurd h List.not_mem_nil⟩

theorem islandBreach_breached (s : State) (n : Fin 17) (q : Fin 3) : Breached n [q] s (islandBreach s n q) := by
  have h := keepsHealth_leaveService (markBreach s n q) n
  obtain ⟨hspan, hstat⟩ := healthReg_span n
  obtain ⟨es, hes⟩ := h.raised
  have hmark := markBreach_raised s n q
  rw [islandBreach_eq]
  refine ⟨fun g hg hlow => (h.fld hspan g).trans (markBreach_fld s n q hg hlow), fun b hb => ?_, fun r hr => ?_, fun _ => ?_,
    _, hmark.trans hes, fun r hr => ?_⟩
  · rw [h.fh, markBreach_breach]
    exact List.mem_append_left _ hb
  · rw [h.fh, markBreach_breach, List.mem_singleton.mp hr]
    exact List.mem_append_right _ (List.mem_singleton_self _)
  · exact ⟨(h.fld hspan _).trans (markBreach_trip s n q), (h.fld hstat _).trans (markBreach_flagged s n q)⟩
  · rw [List.mem_singleton.mp hr]
    exact List.mem_append_left _ (List.mem_singleton_self _)

theorem Breached.cons {n : Fin 17} {q : Fin 3} {qs : List (Fin 3)} {s t u : State} (h : Breached n [q] s t)
    (k : Breached n qs t u) (hu : qs = [] → u = t) : Breached n (q :: qs) s u := by
  obtain ⟨es, hes, hq⟩ := h.raised
  obtain ⟨fs, hfs, hqs⟩ := k.raised
  have hq' := h.breach q (List.mem_singleton_self q)
  refine ⟨fun g hg hlow => (k.sample g hg hlow).trans (h.sample g hg hlow), fun b hb => k.kept b (h.kept b hb),
    List.forall_mem_cons.mpr ⟨k.kept _ hq', k.breach⟩, fun _ => ?_, es ++ fs, hes.trans hfs,
    List.forall_mem_cons.mpr ⟨List.mem_append_left _ (hq q (List.mem_singleton_self q)),
      fun r hr => List.mem_append_right _ (hqs r hr)⟩⟩
  by_cases hnil : qs = []
  · rw [hu hnil]
    exact h.trip (List.cons_ne_nil _ _)
  · exact k.trip hnil

theorem islandBreaches_breached (n : Fin 17) (qs : List (Fin 3)) (s : State) :
    Breached n qs s (qs.foldl (fun s q => islandBreach s n q) s) := by
  induction qs generalizing s with
  | nil => exact .refl n s
  | cons q qs ih => exact (islandBreach_breached s n q).cons (ih _) (fun h => by rw [h]; rfl)

/-! ### The pair leaves service -/

theorem islandBreach_idle {s : State} {n : Fin 17} (h : plUse s n = 0) (q : Fin 3) : plUse (islandBreach s n q) n = 5 := by
  obtain ⟨huse, -, -⟩ := markBreach_placement s n q
  rw [islandBreach_eq, leaveService, if_pos (huse.trans h)]
  exact plUse_setUse _ _ (by decide)

theorem islandBreach_standby {s : State} {n : Fin 17} (huse : plUse s n ≠ 0) (hn : standby s = some n) (hsby : sby s = 1)
    (q : Fin 3) : standby (islandBreach s n q) = none ∧ sby (islandBreach s n q) = 0 ∧ plUse (islandBreach s n q) n = 5 ∧
      (islandBreach s n q).roleOf n = 31 := by
  obtain ⟨huse', hn', hsby'⟩ := markBreach_placement s n q
  rw [islandBreach_eq, leaveService, if_neg (huse' ▸ huse)]
  exact standbyFault_shows (hn'.trans hn) (hsby'.trans hsby)

/-- A pair that is FLAGGED stays so at another breach. -/
theorem islandBreach_flaggedPair {s : State} {n : Fin 17} (h : plUse s n = 5) (q : Fin 3) : plUse (islandBreach s n q) n = 5 := by
  obtain ⟨huse, hn, hsby⟩ := markBreach_placement s n q
  by_cases hstand : standby s = some n ∧ sby s = 1
  · exact (islandBreach_standby (by omega) hstand.1 hstand.2 q).2.2.1
  · rw [islandBreach_eq, leaveService, if_neg (by omega), standbyFault_other (by rwa [hn, hsby]), huse, h]

theorem islandBreach_gone {s : State} {n : Fin 17} (huse : plUse s n = 5) (hn : standby s = none) (q : Fin 3) :
    islandBreach s n q = markBreach s n q := by
  obtain ⟨huse', hn', -⟩ := markBreach_placement s n q
  rw [islandBreach_eq, leaveService, if_neg (by omega), standbyFault_other]
  rw [hn', hn]
  exact fun h => absurd h.1 (by simp)

theorem islandBreaches_flagged {n : Fin 17} (qs : List (Fin 3)) {s : State} (h : plUse s n = 5) :
    plUse (qs.foldl (fun s q => islandBreach s n q) s) n = 5 :=
  List.foldlRecOn (motive := fun t : State => plUse t n = 5) qs _ h (fun _ ht q _ => islandBreach_flaggedPair ht q)

/-- The former standby, FLAGGED without a role, and no standby. -/
def StandbyGone (n : Fin 17) (s : State) : Prop := standby s = none ∧ sby s = 0 ∧ plUse s n = 5 ∧ s.roleOf n = 31

theorem islandBreaches_gone {n : Fin 17} (qs : List (Fin 3)) {s : State} (h : StandbyGone n s) :
    StandbyGone n (qs.foldl (fun s q => islandBreach s n q) s) := by
  refine List.foldlRecOn (motive := StandbyGone n) qs _ h (fun t ht q _ => ?_)
  obtain ⟨hstand, hsby, huse, hrole⟩ := ht
  obtain ⟨huse', hstand', hsby'⟩ := markBreach_placement t n q
  rw [islandBreach_gone huse hstand]
  exact ⟨hstand'.trans hstand, hsby'.trans hsby, huse'.trans huse, (markBreach_pair t n q _).trans hrole⟩

/-! ## The commands of the samples -/

/-- A condition of island `n` that the sample begins as a breach. -/
def BeginsBreach (s : State) (n : Fin 17) (volt : BitVec 10) (temp : BitVec 8) (q : Fin 3) : Prop :=
  let a := Reg.FH_SPAN n
  let low := volt.toNat < s.fld (Reg.DC_ISLAND n) F.DC_ISLAND_TARGET - s.fld Reg.FH_LIMITS F.FH_LIMITS_VLOW_MV
  let hot := (s.fld Reg.FH_LIMITS F.FH_LIMITS_THOT : Int) < temp.toInt
  (n, q) ∉ s.fh.breach ∧ ((q = 0 ∧ low ∧ s.fld a F.FH_SPAN_V_LOW = 1) ∨
    (q = 1 ∧ 830 < volt.toNat ∧ s.fld a F.FH_SPAN_V_HIGH = 1) ∨ (q = 2 ∧ hot ∧ s.fld a F.FH_SPAN_T_HOT = 1))

theorem beginsBreach_iff (s : State) (n : Fin 17) (volt : BitVec 10) (temp : BitVec 8) (q : Fin 3) :
    BeginsBreach s n volt temp q ↔ q ∈ sampleBreaches s n volt temp := by
  rw [mem_sampleBreaches, BeginsBreach]
  fin_cases q <;> simp [sampleShows, conditionFld]

/-- What a pair shows after the breaches of a sample; `s` is the state before it. -/
theorem sampleBreaches_service {s : State} {n : Fin 17} {volt : BitVec 10} {temp : BitVec 8} {q : Fin 3}
    (hq : q ∈ sampleBreaches s n volt temp) :
    let t := (sampleBreaches s n volt temp).foldl (fun s q => islandBreach s n q) (showSample s n volt temp)
    (plUse s n = 0 → plUse t n = 5) ∧ (plUse s n ≠ 0 → standby s = some n → sby s = 1 → StandbyGone n t) := by
  have h := showSample_onlyRegs s n volt temp
  have hout {a : Nat} (ha : a < 0x4900300000) : a ∉ [Reg.FH_SPAN n] := by
    simp only [List.mem_singleton, Reg.FH_SPAN]
    omega
  have huse : plUse (showSample s n volt temp) n = plUse s n :=
    congrArg F.PL_PHYS_USE.get (h _ (hout (by simp only [Reg.PL_PHYS]; omega)))
  have hstand : standby (showSample s n volt temp) = standby s :=
    pairOf_congr (congrArg F.PL_ROLE_PHYS.get (h _ (hout (by decide))))
  have hsby : sby (showSample s n volt temp) = sby s := congrArg F.PL_STAT_SBY.get (h _ (hout (by decide)))
  obtain ⟨r, rs, hlist⟩ := List.exists_cons_of_ne_nil (List.ne_nil_of_mem hq)
  rw [hlist, List.foldl_cons]
  exact ⟨fun hidle => islandBreaches_flagged rs (islandBreach_idle (huse.trans hidle) r),
    fun hduty hn hready => islandBreaches_gone rs
      (islandBreach_standby (huse ▸ hduty) (hstand.trans hn) (hsby.trans hready) r)⟩

theorem Raised.exists_mem {s t : State} {l : List (Nat × BitVec 32)} {src : Nat} {pay : BitVec 32} (h : Raised s t l)
    (hmem : (src, pay) ∈ l) : ∃ r ∈ t.raises, r.source = src ∧ r.pay = pay := by
  have hraises : (src, pay) ∈ t.raises.map (fun r => (r.source, r.pay)) := h ▸ List.mem_append_right _ hmem
  obtain ⟨r, hr, heq⟩ := List.mem_map.mp hraises
  exact ⟨r, hr, congrArg Prod.fst heq, congrArg Prod.snd heq⟩

/-- SPAN_HEALTH (R460). -/
theorem spanHealth_settled (n : Fin 17) (volt : BitVec 10) (temp : BitVec 8) (s : State)
    (hon : s.fld (Reg.DC_ISLAND n) F.DC_ISLAND_STATE ≠ 0) :
    let a := Reg.FH_SPAN n
    let low := volt.toNat < s.fld (Reg.DC_ISLAND n) F.DC_ISLAND_TARGET - s.fld Reg.FH_LIMITS F.FH_LIMITS_VLOW_MV
    let hot := (s.fld Reg.FH_LIMITS F.FH_LIMITS_THOT : Int) < temp.toInt
    ∃ t, execSpanHealth n volt temp s = .next t ∧ t.fld a F.FH_SPAN_VOLT = volt.toNat ∧ t.fld a F.FH_SPAN_TEMP = temp.toNat ∧
      (t.fld a F.FH_SPAN_V_LOW = 1 ↔ low) ∧ (t.fld a F.FH_SPAN_V_HIGH = 1 ↔ 830 < volt.toNat) ∧
      (t.fld a F.FH_SPAN_T_HOT = 1 ↔ hot) ∧
      ((∀ q, ¬BeginsBreach s n volt temp q) → OnlyRegs [a] s t ∧ Raised s t [] ∧ t.fld a F.FH_SPAN_TRIP = s.fld a F.FH_SPAN_TRIP) ∧
      ∀ q, BeginsBreach s n volt temp q →
        t.fld a F.FH_SPAN_TRIP = 1 ∧ t.fld (Reg.ARR_STAT n) F.ARR_STAT_FLAGGED = 1 ∧ (n, q) ∈ t.fh.breach ∧
        (∃ r ∈ t.raises, r.source = 960 + n.val ∧ r.pay = payCause (q.val + 1)) ∧ (plUse s n = 0 → plUse t n = 5) ∧
        (plUse s n ≠ 0 → standby s = some n → sby s = 1 → standby t = none ∧ sby t = 0 ∧ plUse t n = 5 ∧ t.roleOf n = 31) := by
  intro a low hot
  have h := islandBreaches_breached n (sampleBreaches s n volt temp) (showSample s n volt temp)
  let t := (sampleBreaches s n volt temp).foldl (fun s q => islandBreach s n q) (showSample s n volt temp)
  have hcondition (q : Fin 3) : t.fld a (conditionFld q) = 1 ↔ sampleShows s n volt temp q = true := by
    rw [h.sample (conditionFld q) (by fin_cases q <;> decide) (by fin_cases q <;> decide)]
    exact showSample_condition s n volt temp q
  refine ⟨t, execSpanHealth_on hon volt temp, (h.sample _ (by decide) (by decide)).trans (showSample_volt s n volt temp),
    (h.sample _ (by decide) (by decide)).trans (showSample_temp s n volt temp), (hcondition 0).trans decide_eq_true_iff,
    (hcondition 1).trans decide_eq_true_iff, (hcondition 2).trans decide_eq_true_iff, fun hnone => ?_, fun q hq => ?_⟩
  · have hnil : sampleBreaches s n volt temp = [] :=
      List.eq_nil_iff_forall_not_mem.mpr (fun q hq => hnone q ((beginsBreach_iff s n volt temp q).mpr hq))
    have ht : t = showSample s n volt temp := by
      unfold t
      rw [hnil, List.foldl_nil]
    rw [ht]
    exact ⟨showSample_onlyRegs s n volt temp, showSample_raised s n volt temp, showSample_trip s n volt temp⟩
  · have hmem := (beginsBreach_iff s n volt temp q).mp hq
    obtain ⟨htrip, hflagged⟩ := h.trip (List.ne_nil_of_mem hmem)
    obtain ⟨es, hes, hraises⟩ := h.raised
    exact ⟨htrip, hflagged, h.breach q hmem, hes.exists_mem (hraises q hmem), sampleBreaches_service hmem⟩

end Sys2Proof.Machine
end

