-- ==== Sys2Proof/Proofs/Diagnosis.lean ====
section
/-!
PROOFS. Diagnosis and repair of a pair (R461, R463): the start, the bypasses of failing columns, the pass and the
retirement; and the deck's temperature (R460).
-/

namespace Sys2Proof.Machine

/-! ## The deck's temperature -/

/-- DEV_TEMP (R460). -/
theorem devTemp_settled (temp : BitVec 8) (s : State) :
    let hot := (s.fld Reg.FH_LIMITS F.FH_LIMITS_TJ_WARN : Int) < temp.toInt
    ∃ t, execDevTemp temp s = .next t ∧ (t.fh.hot = true ↔ hot) ∧ (hot → s.fh.hot = false → Raised s t [(977, 0)]) ∧
      (¬hot ∨ s.fh.hot = true → Raised s t []) ∧ t = { s with fh := { s.fh with hot := t.fh.hot }, raises := t.raises } := by
  intro hot
  unfold execDevTemp
  extract_lets shown t
  have hshown : t.fh.hot = true ↔ hot := decide_eq_true_iff
  by_cases hrise : shown = true ∧ (!s.fh.hot) = true
  · have hhot : hot := decide_eq_true_iff.mp hrise.1
    have hcool : s.fh.hot = false := by simpa using hrise.2
    refine ⟨t.raise 977 0, by rw [if_pos hrise], hshown, fun _ _ => .raise t 977 0, fun h => ?_, rfl⟩
    exact absurd (h.resolve_left (not_not_intro hhot)) (by rw [hcool]; exact Bool.false_ne_true)
  · refine ⟨t, by rw [if_neg hrise], hshown, fun hhot hcool => ?_, fun _ => .of_eq rfl, rfl⟩
    exact absurd ⟨decide_eq_true_iff.mpr hhot, by rw [hcool]; rfl⟩ hrise

/-! ## The start of a diagnosis -/

/-- A pair that may be diagnosed (R461). -/
def Diagnosable (s : State) (n : Fin 17) : Prop :=
  s.fld Reg.FH_CTL F.FH_CTL_DIAG_AUTO = 1 ∧ (plUse s n = 5 ∨ s.fld (Reg.ARR_STAT n) F.ARR_STAT_FLAGGED = 1) ∧
    s.roleOf n = 31 ∧ plUse s n ≠ 6 ∧ s.fh.diag = none ∧ ∀ f ∈ s.jointFlags, f.2.2 ≠ n

theorem diagnosable_iff (s : State) (n : Fin 17) : Diagnosable s n ↔
    s.flag Reg.FH_CTL F.FH_CTL_DIAG_AUTO = true ∧ (plUse s n = 5 ∨ s.flag (Reg.ARR_STAT n) F.ARR_STAT_FLAGGED = true) ∧
      s.roleOf n = 31 ∧ plUse s n ≠ 6 ∧ s.fh.diag = none ∧ (!s.jointFlags.any (fun f => f.2.2 == n)) = true := by
  rw [Diagnosable, flag_iff_fld_eq_one _ _ (by decide), flag_iff_fld_eq_one _ _ (by decide)]
  simp only [Bool.not_eq_true', List.any_eq_false, beq_iff_eq, ne_eq]

/-- DIAGNOSIS_START (R461). -/
theorem diagnosisStart_settled (n : Fin 17) (s : State) :
    (¬Diagnosable s n → execDiagnosisStart n s = .next s) ∧
    (Diagnosable s n → ∃ t, execDiagnosisStart n s = .next t ∧ t.fh = { s.fh with diag := some (n, false) } ∧ plUse t n = 4 ∧
      OnlyRegs [Reg.PL_PHYS n] s t ∧ t = { s with regs := t.regs, fh := t.fh }) := by
  rw [diagnosable_iff]
  refine ⟨fun h => if_neg h, fun h => ⟨_, if_pos h, rfl, plUse_setUse s n (by decide), ?_, rfl⟩⟩
  exact (OnlyRegs.setFld s F.PL_PHYS_USE 4 (List.mem_singleton_self _)).trans (.of_eq rfl)

/-! ## Bypasses -/

/-- The field of group `g` of a truss in its `SPARE_MAP` word. -/
def bypFld (g : Fin 32) : Fld := bypFields.getD (g.val % 4) F.SPARE_MAP_BYP0

/-- The column of group `g` of truss `t` that is bypassed, 32 for none. -/
def bypOf (s : State) (n : Fin 17) (t : Fin 16) (g : Fin 32) : Nat := (bypFld g).get (s.reg (Reg.SPARE_MAP n t.val (g.val / 4)))

theorem bypFld_mem (g : Fin 32) : bypFld g ∈ bypFields := by
  revert g
  decide

theorem bypFld_accepts (g : Fin 32) (v : Fin 33) : (bypFld g).accepts v.val = true := by
  revert g v
  decide

theorem bypFld_apart {g h : Fin 32} (hword : g.val / 4 = h.val / 4) (hne : g ≠ h) : (bypFld g).Apart (bypFld h) := by
  revert g h
  decide

/-- The word that bypasses column `v` of group `g`, written over `old`. -/
theorem get_put_bypFld (old : BitVec 32) (g : Fin 32) (v : Fin 33) : (bypFld g).get ((bypFld g).put old v.val) = v.val := by
  rw [Fld.get_put _ (bypFields_ok _ (bypFld_mem g))]
  revert g v
  decide

theorem spareWord_bypass_self (old : BitVec 32) (g : Fin 32) (v : Fin 33) :
    (bypFld g).get (spareWord old ((bypFld g).put old v.val)) = v.val := by
  rw [get_spareWord _ _ (bypFld_mem g), get_put_bypFld, if_pos (bypFld_accepts g v)]

theorem spareWord_bypass_other (old : BitVec 32) {g h : Fin 32} (hword : g.val / 4 = h.val / 4) (hne : g ≠ h) (v : Nat) :
    (bypFld h).get (spareWord old ((bypFld g).put old v)) = (bypFld h).get old := by
  rw [get_spareWord _ _ (bypFld_mem h), Fld.get_put_disjoint _ _ (bypFields_ok _ (bypFld_mem g))
    (bypFields_ok _ (bypFld_mem h)).1 (bypFld_apart hword hne), ite_self]

/-- The registers after a word of the spare map is written, with the span stopped. -/
theorem writeSpareMap_reg {s : State} {n : Fin 17} (hstop : spcState s (lead s n) = 3) (t : Fin 16) (w : Fin 8) (val : BitVec 32) :
    (writeSpareMap s n t.val w.val val).reg (Reg.SPARE_MAP n t.val w.val) = spareWord (s.reg (Reg.SPARE_MAP n t.val w.val)) val := by
  rw [writeSpareMap_stopped hstop]
  split
  · next h => exact h.symm
  · exact changeSpare_reg s n t w _

theorem writeSpareMap_onlyRegs (s : State) (n : Fin 17) (t w : Nat) (val : BitVec 32) :
    OnlyRegs [Reg.SPARE_MAP n t w, Reg.ARR_STAT n] s (writeSpareMap s n t w val) := by
  by_cases hstop : spcState s (lead s n) = 3
  · rw [writeSpareMap_stopped hstop]
    split
    · exact .refl _ s
    · exact changeSpare_onlyRegs s n t w _
  · rw [writeSpareMap, if_pos hstop]
    exact .refl _ s

theorem writeSpareMap_raises (s : State) (n : Fin 17) (t w : Nat) (val : BitVec 32) :
    (writeSpareMap s n t w val).raises = s.raises := by
  by_cases hstop : spcState s (lead s n) = 3
  · rw [writeSpareMap_stopped hstop]
    split <;> rfl
  · rw [writeSpareMap, if_pos hstop]

/-- A failing column: its truss, its group and its place in the group. -/
abbrev FailedColumn := Fin 16 × Fin 32 × Fin 33

theorem bypassColumn_eq (s : State) (n : Fin 17) (c : FailedColumn) : ∃ t : State, t.regs = s.regs ∧ t.raises = s.raises ∧
    bypassColumn s n c = writeSpareMap t n c.1.val (c.2.1.val / 4)
      ((bypFld c.2.1).put (t.reg (Reg.SPARE_MAP n c.1.val (c.2.1.val / 4))) c.2.2.val) := by
  obtain ⟨repairs, seq, hrecord, -⟩ := appendRepair_only s 1 n.val c.1.val c.2.1.val (BitVec.ofNat 32 c.2.2.val)
  refine ⟨{ s with fh := { s.fh with repairs := repairs, repairSeq := seq } }, rfl, rfl, ?_⟩
  rw [← hrecord]
  rfl

theorem bypassColumn_raises (s : State) (n : Fin 17) (c : FailedColumn) : (bypassColumn s n c).raises = s.raises := by
  obtain ⟨t, -, hraises, h⟩ := bypassColumn_eq s n c
  rw [h, writeSpareMap_raises, hraises]

theorem bypassColumn_onlyRegs (s : State) (n : Fin 17) (c : FailedColumn) :
    OnlyRegs [Reg.SPARE_MAP n c.1.val (c.2.1.val / 4), Reg.ARR_STAT n] s (bypassColumn s n c) := by
  obtain ⟨t, hregs, -, h⟩ := bypassColumn_eq s n c
  rw [h]
  exact (OnlyRegs.of_eq hregs).trans (writeSpareMap_onlyRegs t n _ _ _)

/-- The span's function is stopped. -/
def SpanStopped (n : Fin 17) (s : State) : Prop := spcState s (lead s n) = 3

theorem SpanStopped.of_onlyRegs {n : Fin 17} {s t : State} {w : Nat} (k : Fin 16) (hw : w < 8)
    (h : OnlyRegs [Reg.SPARE_MAP n k.val w, Reg.ARR_STAT n] s t) (hs : SpanStopped n s) : SpanStopped n t := by
  have hcouple : t.reg (Reg.ARR_COUPLE n) = s.reg (Reg.ARR_COUPLE n) := h _ (by
    simp only [List.mem_cons, List.not_mem_nil, or_false, Reg.ARR_COUPLE, Reg.SPARE_MAP, Reg.ARR_STAT]
    omega)
  have hlead : lead t n = lead s n := Fin.ext (congrArg (fun w => n.val - F.ARR_COUPLE_POS.get w) hcouple)
  have hstat : t.reg (Reg.SPC_STAT (lead s n)) = s.reg (Reg.SPC_STAT (lead s n)) := h _ (by
    simp only [List.mem_cons, List.not_mem_nil, or_false, Reg.SPC_STAT, Reg.SPARE_MAP, Reg.ARR_STAT]
    omega)
  rw [SpanStopped, hlead]
  exact (congrArg F.SPC_STAT_STATE.get hstat).trans hs

theorem bypassColumn_stopped {n : Fin 17} {s : State} (hs : SpanStopped n s) (c : FailedColumn) :
    SpanStopped n (bypassColumn s n c) := hs.of_onlyRegs c.1 (by omega) (bypassColumn_onlyRegs s n c)

theorem bypOf_bypassColumn_self {n : Fin 17} {s : State} (hs : SpanStopped n s) (c : FailedColumn) :
    bypOf (bypassColumn s n c) n c.1 c.2.1 = c.2.2.val := by
  obtain ⟨t, hregs, -, h⟩ := bypassColumn_eq s n c
  have ht : SpanStopped n t := hs.of_onlyRegs c.1 (w := 0) (by decide) (.of_eq hregs)
  rw [bypOf, h, writeSpareMap_reg ht c.1 ⟨c.2.1.val / 4, by omega⟩]
  exact spareWord_bypass_self _ _ _

theorem bypOf_bypassColumn_other {n : Fin 17} {s : State} (hs : SpanStopped n s) (c : FailedColumn) {t : Fin 16} {g : Fin 32}
    (hne : (c.1, c.2.1) ≠ (t, g)) : bypOf (bypassColumn s n c) n t g = bypOf s n t g := by
  obtain ⟨u, hregs, -, h⟩ := bypassColumn_eq s n c
  by_cases hword : t = c.1 ∧ g.val / 4 = c.2.1.val / 4
  · obtain ⟨rfl, hg⟩ := hword
    have hu : SpanStopped n u := hs.of_onlyRegs c.1 (w := 0) (by decide) (.of_eq hregs)
    have hgroup : c.2.1 ≠ g := fun e => hne (by rw [e])
    rw [bypOf, h, hg, writeSpareMap_reg hu c.1 ⟨c.2.1.val / 4, by omega⟩, spareWord_bypass_other _ hg.symm hgroup, bypOf, hg,
      State.reg, State.reg, hregs]
  · refine congrArg (bypFld g).get (bypassColumn_onlyRegs s n c _ ?_)
    have hword : t.val ≠ c.1.val ∨ g.val / 4 ≠ c.2.1.val / 4 := by
      rw [Fin.ext_iff] at hword
      omega
    simp only [List.mem_cons, List.not_mem_nil, or_false, Reg.SPARE_MAP, Reg.ARR_STAT]
    omega

/-- Where no group fails twice, every failing column is bypassed. -/
theorem bypassColumns_shows {n : Fin 17} (cols : List FailedColumn) (hcols : (cols.map (fun c => (c.1, c.2.1))).Nodup) {s : State}
    (hs : SpanStopped n s) : ∀ c ∈ cols, bypOf (cols.foldl (fun s c => bypassColumn s n c) s) n c.1 c.2.1 = c.2.2.val := by
  induction cols generalizing s with
  | nil => exact fun c hc => absurd hc List.not_mem_nil
  | cons c cols ih =>
    obtain ⟨hc, hrest⟩ := List.nodup_cons.mp hcols
    refine List.forall_mem_cons.mpr ⟨?_, ih hrest (bypassColumn_stopped hs c)⟩
    have hkept : SpanStopped n (cols.foldl (fun s c => bypassColumn s n c) (bypassColumn s n c)) ∧
        bypOf (cols.foldl (fun s c => bypassColumn s n c) (bypassColumn s n c)) n c.1 c.2.1 = c.2.2.val :=
      List.foldlRecOn (motive := fun t => SpanStopped n t ∧ bypOf t n c.1 c.2.1 = c.2.2.val) cols _
        ⟨bypassColumn_stopped hs c, bypOf_bypassColumn_self hs c⟩ (fun t ht d hd =>
          ⟨bypassColumn_stopped ht.1 d, (bypOf_bypassColumn_other ht.1 d (fun e => hc (List.mem_map.mpr ⟨d, hd, e⟩))).trans ht.2⟩)
    exact hkept.2

theorem bypassColumns_raises (s : State) (n : Fin 17) (cols : List FailedColumn) :
    (cols.foldl (fun s c => bypassColumn s n c) s).raises = s.raises :=
  List.foldlRecOn (motive := fun t : State => t.raises = s.raises) cols _ rfl
    (fun t ht c _ => (bypassColumn_raises t n c).trans ht)

/-- A group that fails in one column is listed once. -/
theorem nodup_groups {cols : List FailedColumn}
    (h : ∀ c ∈ cols, (cols.filter (fun d => d.1 == c.1 && d.2.1 == c.2.1)).length = 1) :
    (cols.map (fun c => (c.1, c.2.1))).Nodup := by
  refine List.nodup_iff_count_eq_one.mpr (List.forall_mem_map.mpr fun c hc => ?_)
  rw [List.count_eq_countP, List.countP_map, List.countP_eq_length_filter, ← h c hc]
  rfl

/-! ## The end of a diagnosis -/

/-- No pair is under diagnosis. -/
def endDiagnosis (s : State) : State := modifyFh s (fun h => { h with diag := none })

/-- The pair leaves service with FH_DIAG raised. -/
def retireDiagnosed (s : State) (n : Fin 17) : State := (retirePair (endDiagnosis s) n).raise 979 (payCause 3 n.val)

/-- Column `c` can be bypassed: its group has none yet, and fails in no other column. -/
def CanBypass (s : State) (n : Fin 17) (cols : List FailedColumn) (c : FailedColumn) : Prop :=
  bypOf s n c.1 c.2.1 = 32 ∧ (cols.filter (fun d => d.1 == c.1 && d.2.1 == c.2.1)).length = 1

section

variable {s : State} {n : Fin 17} {b : Bool} (hdiag : s.fh.diag = some (n, b))

include hdiag

theorem execFhDiag_worn (h : 3 ≤ recentFaults s n) (pass others : Bool) (cols : List FailedColumn) :
    execFhDiag n pass others cols s = .next (retireDiagnosed s n) := by
  unfold execFhDiag
  rw [hdiag]
  dsimp only
  rw [if_neg (not_not_intro rfl), if_pos h]
  rfl

theorem execFhDiag_pass (h : recentFaults s n < 3) (others : Bool) (cols : List FailedColumn) :
    execFhDiag n true others cols s = .next ((clearPair s n).raise 979 (payCause (if b then 2 else 1) n.val)) := by
  unfold execFhDiag
  rw [hdiag]
  dsimp only
  rw [if_neg (not_not_intro rfl), if_neg (Nat.not_le.mpr h), if_pos rfl]

theorem execFhDiag_repair (h : recentFaults s n < 3) {cols : List FailedColumn} (hcols : cols ≠ [])
    (hfree : ∀ c ∈ cols, CanBypass s n cols c) : execFhDiag n false false cols s =
      .next (modifyFh (cols.foldl (fun s c => bypassColumn s n c) s) (fun h => { h with diag := some (n, true) })) := by
  unfold execFhDiag
  rw [hdiag]
  dsimp only
  rw [if_neg (not_not_intro rfl), if_neg (Nat.not_le.mpr h), if_neg Bool.false_ne_true, if_pos]
  refine ⟨hcols, rfl, List.all_eq_true.mpr fun c hc => ?_⟩
  obtain ⟨hbyp, hone⟩ := hfree c hc
  exact Bool.and_eq_true_iff.mpr ⟨beq_iff_eq.mpr hbyp, beq_iff_eq.mpr hone⟩

theorem execFhDiag_fail {others : Bool} {cols : List FailedColumn}
    (h : cols = [] ∨ others = true ∨ ¬∀ c ∈ cols, CanBypass s n cols c) :
    execFhDiag n false others cols s = .next (retireDiagnosed s n) := by
  by_cases hworn : 3 ≤ recentFaults s n
  · exact execFhDiag_worn hdiag hworn false others cols
  unfold execFhDiag
  rw [hdiag]
  dsimp only
  rw [if_neg (not_not_intro rfl), if_neg hworn, if_neg Bool.false_ne_true, if_neg]
  · rfl
  · rintro ⟨hcols, hothers, hfree⟩
    refine h.elim hcols (fun h => h.elim (fun h => ?_) (fun h => h fun c hc => ?_))
    · rw [h] at hothers
      exact Bool.false_ne_true hothers
    · obtain ⟨hbyp, hone⟩ := Bool.and_eq_true_iff.mp (List.all_eq_true.mp hfree c hc)
      exact ⟨beq_iff_eq.mp hbyp, beq_iff_eq.mp hone⟩

end

/-- The pair under diagnosis is retired and FH_DIAG raised, in `t`. -/
structure OutOfDiagnosis (n : Fin 17) (s t : State) : Prop where
  diag : t.fh.diag = none
  use : plUse t n = 6
  role : t.roleOf n = 31
  island : islandState t n = 0
  target : islandTarget t n = 0
  record : ∃ e ∈ t.fh.repairs, e.kind = 3 ∧ e.unit = n.val ∧ e.good = true
  raised : ∃ q, Raised s t (q ++ [(979, payCause 3 n.val)])

theorem Retired.outOfDiagnosis {n : Fin 17} {s t : State} (h : Retired n (endDiagnosis s) t) :
    OutOfDiagnosis n s (t.raise 979 (payCause 3 n.val)) := by
  obtain ⟨repairs, seq, hfh, hentry⟩ := h.fh
  obtain ⟨q, hq⟩ := h.raised
  have hrepairs : t.fh.repairs = repairs := congrArg Health.repairs hfh
  have hdone : t.fh.diag = none := congrArg Health.diag hfh
  have hstart : Raised s t q := hq
  exact ⟨hdone, h.use, h.role, h.island, h.target, hrepairs ▸ hentry, q, hstart.trans (.raise t 979 _)⟩

theorem retireDiagnosed_out (s : State) (n : Fin 17) : OutOfDiagnosis n s (retireDiagnosed s n) :=
  (retirePair_retired (endDiagnosis s) n).outOfDiagnosis

/-- The pair's flags are cleared and it is idle. -/
def unflagPair (s : State) (n : Fin 17) : State :=
  let s := modifyFh s (fun h => { h with diag := none, flagged := h.flagged.filter (· != n) })
  setUse (s.setFld (Reg.ARR_STAT n) F.ARR_STAT_FLAGGED 0) n 0

theorem clearPair_eq (s : State) (n : Fin 17) : clearPair s n =
    if (standby (unflagPair s n)).isNone ∧ sby (unflagPair s n) = 0 then setStandby (unflagPair s n) (some n)
    else unflagPair s n := rfl

theorem unflagPair_onlyRegs (s : State) (n : Fin 17) : OnlyRegs [Reg.ARR_STAT n, Reg.PL_PHYS n] s (unflagPair s n) := by
  unfold unflagPair
  extract_lets cleared
  have hcleared : OnlyRegs [Reg.ARR_STAT n, Reg.PL_PHYS n] s cleared := .of_eq rfl
  exact (hcleared.trans (.setFld _ _ _ (.head _))).trans (.setFld _ _ _ (.tail _ (.head _)))

theorem unflagPair_flagged (s : State) (n : Fin 17) : (unflagPair s n).fld (Reg.ARR_STAT n) F.ARR_STAT_FLAGGED = 0 := by
  unfold unflagPair
  rw [setUse, State.setFld_fld_ne _ _ _ _ (by simp only [Reg.ARR_STAT, Reg.PL_PHYS]; omega),
    State.setFld_fld_self _ _ _ ⟨by decide, by decide⟩, Nat.zero_mod]

theorem unflagPair_standby (s : State) (n : Fin 17) : standby (unflagPair s n) = standby s ∧ sby (unflagPair s n) = sby s := by
  have h := unflagPair_onlyRegs s n
  refine ⟨pairOf_congr (congrArg F.PL_ROLE_PHYS.get (h _ ?_)), congrArg F.PL_STAT_SBY.get (h _ ?_)⟩
  · simp only [List.mem_cons, List.not_mem_nil, or_false, Reg.PL_ROLE, Reg.ARR_STAT, Reg.PL_PHYS]
    omega
  · simp only [List.mem_cons, List.not_mem_nil, or_false, Reg.PL_STAT, Reg.ARR_STAT, Reg.PL_PHYS]
    omega

theorem keepsHealth_clearPair (s : State) (n : Fin 17) : KeepsHealth HealthReg (unflagPair s n) (clearPair s n) := by
  rw [clearPair_eq]
  exact .ite (keepsHealth_setStandby _ _) (.refl _)

theorem clearPair_shows (s : State) (n : Fin 17) : (clearPair s n).fh.diag = none ∧ n ∉ (clearPair s n).fh.flagged ∧
    (clearPair s n).fld (Reg.ARR_STAT n) F.ARR_STAT_FLAGGED = 0 ∧ (∃ q, Raised s (clearPair s n) q) ∧
    (standby s = none → sby s = 0 → standby (clearPair s n) = some n ∧ sby (clearPair s n) = 1 ∧ plUse (clearPair s n) n = 2) ∧
    (standby s ≠ none → plUse (clearPair s n) n = 0 ∧ standby (clearPair s n) = standby s) := by
  have h := keepsHealth_clearPair s n
  obtain ⟨hstand, hsby⟩ := unflagPair_standby s n
  obtain ⟨q, hq⟩ := h.raised
  have hunflag : Raised s (unflagPair s n) [] := .of_eq rfl
  refine ⟨by rw [h.fh]; rfl, ?_, (h.fld (healthReg_span n).2 _).trans (unflagPair_flagged s n), ⟨_, hunflag.trans hq⟩,
    fun hnone hzero => ?_, fun hsome => ?_⟩
  · rw [h.fh]
    exact fun hmem => absurd rfl (bne_iff_ne.mp (List.of_mem_filter (p := (· != n)) hmem))
  · rw [clearPair_eq, if_pos ⟨by rw [hstand, hnone]; rfl, hsby.trans hzero⟩]
    obtain ⟨hready, hstands, huse⟩ := setStandby_shows (unflagPair s n) n
    exact ⟨hstands, hready, huse⟩
  · rw [clearPair_eq, if_neg]
    · exact ⟨plUse_setUse _ _ (by decide), hstand⟩
    · rw [hstand]
      exact fun hc => hsome (Option.isNone_iff_eq_none.mp hc.1)

/-- The pair under diagnosis leaves service: what FH_DIAG then shows. -/
def DiagnosedOut (n : Fin 17) (pass others : Bool) (cols : List FailedColumn) (s : State) : Prop :=
  ∃ t q, execFhDiag n pass others cols s = .next t ∧ t.fh.diag = none ∧ plUse t n = 6 ∧ t.roleOf n = 31 ∧
    islandState t n = 0 ∧ islandTarget t n = 0 ∧ (∃ e ∈ t.fh.repairs, e.kind = 3 ∧ e.unit = n.val ∧ e.good = true) ∧
    Raised s t (q ++ [(979, payCause 3 n.val)])

theorem diagnosedOut {n : Fin 17} {pass others : Bool} {cols : List FailedColumn} {s : State}
    (h : execFhDiag n pass others cols s = .next (retireDiagnosed s n)) : DiagnosedOut n pass others cols s := by
  obtain ⟨hdone, huse, hrole, hstate, htarget, hrecord, q, hq⟩ := retireDiagnosed_out s n
  exact ⟨_, q, h, hdone, huse, hrole, hstate, htarget, hrecord, hq⟩

theorem fhDiag_other {n : Fin 17} {s : State} (h : ∀ b, s.fh.diag ≠ some (n, b)) (pass others : Bool) (cols : List FailedColumn) :
    execFhDiag n pass others cols s = .next s := by
  unfold execFhDiag
  split
  · rfl
  · next m b hm => exact if_pos (fun e => h b (by rw [hm, e]))

theorem fhDiag_passed {n : Fin 17} {s : State} {b : Bool} (hdiag : s.fh.diag = some (n, b)) (hnew : recentFaults s n < 3)
    (others : Bool) (cols : List FailedColumn) : ∃ t q, execFhDiag n true others cols s = .next t ∧ t.fh.diag = none ∧
      n ∉ t.fh.flagged ∧ t.fld (Reg.ARR_STAT n) F.ARR_STAT_FLAGGED = 0 ∧
      Raised s t (q ++ [(979, payCause (if b = true then 2 else 1) n.val)]) ∧
      (standby s = none → sby s = 0 → standby t = some n ∧ sby t = 1 ∧ plUse t n = 2) ∧
      (standby s ≠ none → plUse t n = 0 ∧ standby t = standby s) := by
  obtain ⟨hdone, hclear, hflag, ⟨q, hq⟩, hnone, hsome⟩ := clearPair_shows s n
  exact ⟨_, q, execFhDiag_pass hdiag hnew others cols, hdone, hclear, hflag, hq.trans (.raise _ _ _), hnone, hsome⟩

theorem fhDiag_repaired {n : Fin 17} {s : State} {b : Bool} (hdiag : s.fh.diag = some (n, b)) (hnew : recentFaults s n < 3)
    {cols : List FailedColumn} (hcols : cols ≠ []) (hfree : ∀ c ∈ cols, CanBypass s n cols c) :
    ∃ t, execFhDiag n false false cols s = .next t ∧ t.fh.diag = some (n, true) ∧ Raised s t [] ∧
      (spcState s (lead s n) = 3 → ∀ c ∈ cols, bypOf t n c.1 c.2.1 = c.2.2.val) :=
  ⟨_, execFhDiag_repair hdiag hnew hcols hfree, rfl, .of_eq (bypassColumns_raises s n cols),
    fun hstop => bypassColumns_shows cols (nodup_groups fun c hc => (hfree c hc).2) hstop⟩

end Sys2Proof.Machine
end

