-- ==== Sys2Proof/Proofs/LinksAndWear.lean ====
section
/-!
PROOFS. Degraded links (R462), wear (R464-R466) and the trace units (R468); and with the samples and the diagnosis, the
statement on the health unit as a whole.
-/

namespace Sys2Proof.Machine

/-! ## The routing tables -/

/-- Words written into registers at distinct addresses stand in them. -/
theorem foldl_setReg_reg (s : State) {addr : Nat → Nat} (v : Nat → BitVec 32) {k : Nat}
    (haddr : ∀ i < k, ∀ j < k, addr i = addr j → i = j) {i : Nat} (hi : i < k) :
    ((List.range k).foldl (fun s i => s.setReg (addr i) (v i)) s).reg (addr i) = v i := by
  induction k with
  | zero => exact absurd hi (Nat.not_lt_zero i)
  | succ k ih =>
    rw [List.range_succ, List.foldl_append, List.foldl_cons, List.foldl_nil]
    by_cases hk : i = k
    · rw [hk, State.setReg_reg_self]
    · rw [State.setReg_reg_ne _ _ (fun e => hk (haddr i hi k (Nat.lt_succ_self k) e))]
      exact ih (fun a ha b hb => haddr a (Nat.lt_succ_of_lt ha) b (Nat.lt_succ_of_lt hb)) (by omega)

/-- The address of word `i` of the 288 of a table. -/
def tableAddr (e i : Nat) : Nat := Reg.RT_TABLE (i / 6) e (i % 6)

theorem tableAddr_inj {e : Nat} : ∀ i < 288, ∀ j < 288, tableAddr e i = tableAddr e j → i = j := by
  intro i _ j _ h
  simp only [tableAddr, Reg.RT_TABLE] at h
  omega

/-- The words of a table, written for epoch `e`. -/
def writeTable (s : State) (e : Nat) (ts : List Word) : State :=
  (List.range 288).foldl (fun s i => s.setReg (tableAddr e i) (ts.getD i 0)) s

/-- The register of the epoch, or the counters of the links. -/
def EpochReg (a : Nat) : Prop := a = Reg.CW_STAT ∨ a = Reg.FH_LINKS

/-- A word of a routing table, or the counters of the links. -/
def TableReg (a : Nat) : Prop := a = Reg.FH_LINKS ∨ 0x4500010000 ≤ a ∧ a < 0x4500020000 ∧ 0x40 ≤ a % 0x100

theorem tableReg_tableAddr {e i : Nat} (he : e < 2) (hi : i < 288) : TableReg (tableAddr e i) := by
  have haddr : tableAddr e i = 0x100 * (0x45000100 + i / 6) + (0x40 + 0x20 * e + 4 * (i % 6)) := by
    simp only [tableAddr, Reg.RT_TABLE]
    omega
  have hmod : tableAddr e i % 0x100 = 0x40 + 0x20 * e + 4 * (i % 6) := by
    rw [haddr, Nat.mul_add_mod, Nat.mod_eq_of_lt (show 0x40 + 0x20 * e + 4 * (i % 6) < 0x100 by omega)]
  rw [TableReg, hmod, haddr]
  omega

theorem not_epochReg_tableAddr {e : Nat} (he : e < 2) (i : Nat) : ¬EpochReg (tableAddr e i) := by
  simp only [EpochReg, tableAddr, Reg.RT_TABLE, Reg.CW_STAT, Reg.FH_LINKS]
  omega

theorem keepsHealth_writeTable (s : State) {e : Nat} (he : e < 2) (ts : List Word) :
    KeepsHealth EpochReg s (writeTable s e ts) :=
  .foldl _ (fun t i _ => .setReg t _ (not_epochReg_tableAddr he i)) s

theorem keepsHealth_refreshDrain {R : Nat → Prop} (s : State) (hR : ∀ r < 48, ¬R (Reg.RT_DRAIN r)) :
    KeepsHealth R s (refreshDrain s) :=
  .ite (.refl s) (.foldl _ (fun t r hr => .setFld t _ _ (hR r (List.mem_range.mp hr))) s)

/-- The registers after the epoch has turned, before the drain counters follow. -/
def turnEpoch (s : State) : State :=
  ((s.setFld Reg.CW_STAT F.CW_STAT_EPOCH (!routeEpoch s).toNat).setFld Reg.CW_STAT F.CW_STAT_DRAINED 0).setFld Reg.CW_CTL
    F.CW_CTL_FLIP 1

theorem routeFlip_drained {s : State} (h : s.flag Reg.CW_STAT F.CW_STAT_DRAINED = true) :
    routeFlip s = refreshDrain (turnEpoch s) := by
  unfold routeFlip
  rw [h]
  rfl

theorem routeEpoch_turnEpoch (s : State) : routeEpoch (turnEpoch s) = !routeEpoch s := by
  have hfld : (turnEpoch s).fld Reg.CW_STAT F.CW_STAT_EPOCH = (!routeEpoch s).toNat % 2 := by
    unfold turnEpoch
    rw [State.setFld_fld_ne _ _ _ _ (by decide), State.setFld_fld_disjoint _ _ _ _ ⟨by decide, by decide⟩ (by decide) (by decide),
      State.setFld_fld_self _ _ _ ⟨by decide, by decide⟩]
    rfl
  rw [routeEpoch, State.flag, hfld]
  cases routeEpoch s <;> rfl

/-- A flip turns the epoch and leaves the tables. -/
theorem routeFlip_shows {s : State} (h : s.flag Reg.CW_STAT F.CW_STAT_DRAINED = true) :
    routeEpoch (routeFlip s) = (!routeEpoch s) ∧ KeepsHealth TableReg s (routeFlip s) := by
  rw [routeFlip_drained h]
  have hepoch : KeepsHealth EpochReg (turnEpoch s) (refreshDrain (turnEpoch s)) := keepsHealth_refreshDrain _ (fun r hr => by
    simp only [EpochReg, Reg.RT_DRAIN, Reg.CW_STAT, Reg.FH_LINKS]
    omega)
  have htable : KeepsHealth TableReg (turnEpoch s) (refreshDrain (turnEpoch s)) := keepsHealth_refreshDrain _ (fun r hr => by
    simp only [TableReg, Reg.RT_DRAIN, Reg.FH_LINKS]
    omega)
  have hstat : ¬TableReg Reg.CW_STAT := by simp only [TableReg, Reg.CW_STAT, Reg.FH_LINKS]; omega
  have hctl : ¬TableReg Reg.CW_CTL := by simp only [TableReg, Reg.CW_CTL, Reg.FH_LINKS]; omega
  refine ⟨?_, (((KeepsHealth.setFld s _ _ hstat).trans (.setFld _ _ _ hstat)).trans (.setFld _ _ _ hctl)).trans htable⟩
  rw [routeEpoch, State.flag, hepoch.fld (.inl rfl)]
  exact routeEpoch_turnEpoch s

/-! ## Degraded links -/

section

variable (r : Fin 48) (p : Fin 8) (ts : List Word) (s : State)

/-- The link is due and not yet dealt with (R462). -/
def LinkDue : Prop := s.ab.up = true ∧ (r.val, p.val) ∈ s.fh.linkDue ∧ (r.val, p.val) ∉ s.fh.avoided ∧ (r.val, p.val) ∉ s.fh.noRoute

/-- Some table avoids the link and those avoided so far. -/
def AvoidanceExists : Prop := p.val < 4 ∧ tableExists (s.fh.avoided ++ [(r.val, p.val)]) = true

theorem not_linkDue_iff : ¬LinkDue r p s ↔ ((!s.ab.up) = true ∨ (!s.fh.linkDue.contains (r.val, p.val)) = true ∨
    s.fh.avoided.contains (r.val, p.val) = true ∨ s.fh.noRoute.contains (r.val, p.val) = true) := by
  simp only [LinkDue, Bool.not_eq_true', List.contains_eq_mem, decide_eq_true_eq, ← Bool.not_eq_true]
  tauto

theorem not_avoidanceExists_iff : ¬AvoidanceExists r p s ↔
    (4 ≤ p.val ∨ (!tableExists (s.fh.avoided ++ [(r.val, p.val)])) = true) := by
  rw [AvoidanceExists, not_and_or, Nat.not_lt, Bool.not_eq_true, Bool.not_eq_true']

theorem linkDegrade_none (h : ¬LinkDue r p s) : execLinkDegrade r p ts s = .next s :=
  if_pos ((not_linkDue_iff r p s).mp h)

/-- The state in which the link has no table that avoids it. -/
def markNoRoute : State :=
  ((modifyFh s (fun h => { h with noRoute := h.noRoute ++ [(r.val, p.val)] })).bump Reg.FH_LINKS F.FH_LINKS_NO_ROUTE).raise 978
    (payCause 2 r.val p.val)

/-- The tables written for the other epoch, the flip, and the link among those avoided. -/
def avoidLink : State :=
  ((modifyFh (routeFlip (writeTable s (!routeEpoch s).toNat ts))
    (fun h => { h with avoided := s.fh.avoided ++ [(r.val, p.val)] })).bump Reg.FH_LINKS F.FH_LINKS_DEGRADED).raise 978
    (payCause 1 r.val p.val)

end

section

variable {r : Fin 48} {p : Fin 8} {ts : List Word} {s : State} (hdue : LinkDue r p s)

include hdue

theorem linkDegrade_noRoute (h : ¬AvoidanceExists r p s) : execLinkDegrade r p ts s = .next (markNoRoute r p s) := by
  have hgo := mt (not_linkDue_iff r p s).mpr (not_not_intro hdue)
  unfold execLinkDegrade
  extract_lets l avoid
  rw [if_neg hgo, if_pos ((not_avoidanceExists_iff r p s).mp h)]
  rfl

theorem linkDegrade_waits (h : AvoidanceExists r p s)
    (hwait : tablesAvoid ts (s.fh.avoided ++ [(r.val, p.val)]) = false ∨ s.fld Reg.CW_STAT F.CW_STAT_DRAINED = 0) :
    execLinkDegrade r p ts s = .next s := by
  have hgo := mt (not_linkDue_iff r p s).mpr (not_not_intro hdue)
  have hexist := mt (not_avoidanceExists_iff r p s).mpr (not_not_intro h)
  unfold execLinkDegrade
  extract_lets l avoid
  rw [if_neg hgo, if_neg hexist, if_pos]
  refine hwait.imp (fun h => by rw [h]; rfl) (fun h => ?_)
  rw [State.flag, h]
  rfl

theorem linkDegrade_avoids (h : AvoidanceExists r p s) (hts : tablesAvoid ts (s.fh.avoided ++ [(r.val, p.val)]) = true)
    (hdrained : s.fld Reg.CW_STAT F.CW_STAT_DRAINED = 1) : execLinkDegrade r p ts s = .next (avoidLink r p ts s) := by
  have hgo := mt (not_linkDue_iff r p s).mpr (not_not_intro hdue)
  have hexist := mt (not_avoidanceExists_iff r p s).mpr (not_not_intro h)
  unfold execLinkDegrade
  extract_lets l avoid
  rw [if_neg hgo, if_neg hexist, if_neg]
  · rfl
  · rw [hts, State.flag, hdrained]
    decide

end

theorem markNoRoute_shows (r : Fin 48) (p : Fin 8) (s : State) : let t := markNoRoute r p s
    t.fh = { s.fh with noRoute := s.fh.noRoute ++ [(r.val, p.val)] } ∧
    t.fld Reg.FH_LINKS F.FH_LINKS_NO_ROUTE = min (s.fld Reg.FH_LINKS F.FH_LINKS_NO_ROUTE + 1) 255 ∧
    OnlyRegs [Reg.FH_LINKS] s t ∧ Raised s t [(978, payCause 2 r.val p.val)] := by
  unfold markNoRoute
  generalize hmarked : modifyFh s (fun h => { h with noRoute := h.noRoute ++ [(r.val, p.val)] }) = u
  have hregs : u.regs = s.regs := hmarked ▸ rfl
  have hraises : u.raises = s.raises := hmarked ▸ rfl
  refine ⟨hmarked ▸ rfl, ?_, ((OnlyRegs.of_eq hregs).trans (.bump _ _ _ (.head _))).trans (.raise _ _ _),
    (Raised.of_eq (t := u.bump Reg.FH_LINKS F.FH_LINKS_NO_ROUTE) hraises).trans (.raise _ _ _)⟩
  rw [State.raise_fld, State.bump_fld_self _ _ _ ⟨by decide, by decide⟩, State.fld, State.reg, hregs]
  rfl

theorem avoidLink_shows {s : State} (hdrained : s.fld Reg.CW_STAT F.CW_STAT_DRAINED = 1) (r : Fin 48) (p : Fin 8) (ts : List Word) :
    let t := avoidLink r p ts s
    ∃ q, t.fh = { s.fh with avoided := s.fh.avoided ++ [(r.val, p.val)] } ∧ routeEpoch t = (!routeEpoch s) ∧
      (∀ i, i < 288 → t.reg (Reg.RT_TABLE (i / 6) (!routeEpoch s).toNat (i % 6)) = ts.getD i 0) ∧
      t.fld Reg.FH_LINKS F.FH_LINKS_DEGRADED = min (s.fld Reg.FH_LINKS F.FH_LINKS_DEGRADED + 1) 255 ∧
      Raised s t (q ++ [(978, payCause 1 r.val p.val)]) := by
  have he : (!routeEpoch s).toNat < 2 := Bool.toNat_lt _
  have htable := keepsHealth_writeTable s he ts
  have hword (i : Nat) (hi : i < 288) := foldl_setReg_reg s (fun i => ts.getD i 0) (tableAddr_inj (e := (!routeEpoch s).toNat)) hi
  have hflag : (writeTable s (!routeEpoch s).toNat ts).flag Reg.CW_STAT F.CW_STAT_DRAINED = true := by
    rw [State.flag, htable.fld (.inl rfl), hdrained]
    rfl
  have hepoch : routeEpoch (writeTable s (!routeEpoch s).toNat ts) = routeEpoch s := by
    rw [routeEpoch, State.flag, htable.fld (.inl rfl)]
    rfl
  obtain ⟨hturned, hflip⟩ := routeFlip_shows hflag
  change ∀ i < 288, (writeTable s (!routeEpoch s).toNat ts).reg (tableAddr (!routeEpoch s).toNat i) = ts.getD i 0 at hword
  unfold avoidLink
  generalize writeTable s (!routeEpoch s).toNat ts = u at *
  generalize routeFlip u = v at *
  generalize hmarked : modifyFh v (fun h => { h with avoided := s.fh.avoided ++ [(r.val, p.val)] }) = w
  have hregs : w.regs = v.regs := hmarked ▸ rfl
  have hreg (a : Nat) : w.reg a = v.reg a := by rw [State.reg, State.reg, hregs]
  have hlinks (a : Nat) (ha : a ≠ Reg.FH_LINKS) :
      ((w.bump Reg.FH_LINKS F.FH_LINKS_DEGRADED).raise 978 (payCause 1 r.val p.val)).reg a = v.reg a :=
    (State.bump_reg_ne w _ _ ha).trans (hreg a)
  obtain ⟨q, hq⟩ := htable.raised
  obtain ⟨q', hq'⟩ := hflip.raised
  have hraised : Raised v (w.bump Reg.FH_LINKS F.FH_LINKS_DEGRADED) [] := .of_eq (hmarked ▸ rfl)
  refine ⟨q ++ q' ++ [], ?_, ?_, fun i hi => ?_, ?_, ((hq.trans hq').trans hraised).trans (.raise _ _ _)⟩
  · have hfh : w.fh = { v.fh with avoided := s.fh.avoided ++ [(r.val, p.val)] } := hmarked ▸ rfl
    rw [State.raise_fh, State.bump_fh, hfh, hflip.fh, htable.fh]
  · rw [← hepoch, ← hturned, routeEpoch, routeEpoch, State.flag, State.flag, State.fld, State.fld, hlinks _ (by decide)]
  · have hne : Reg.RT_TABLE (i / 6) (!routeEpoch s).toNat (i % 6) ≠ Reg.FH_LINKS := fun e =>
      not_epochReg_tableAddr he i (.inr e)
    rw [hlinks _ hne]
    exact (hflip.reg _ (tableReg_tableAddr he hi)).trans (hword i hi)
  · rw [State.raise_fld, State.bump_fld_self _ _ _ ⟨by decide, by decide⟩, State.fld, hreg, hflip.reg _ (.inl rfl),
      htable.reg _ (.inr rfl)]
    rfl

/-! ## Wear -/

theorem wearSecond_drift (af d : Nat) (w : Wear) : (wearSecond af d w).drift = d := by
  unfold wearSecond
  extract_lets u ms ds
  split <;> rfl

/-- The delay drift of pair `n` that a second of wear leaves. -/
def driftAfter (s : State) (ds : List (BitVec 16)) (n : Fin 17) : Nat :=
  if (s.array n).powered = true then (ds[n.val]?.map (·.toNat)).getD (s.fh.wear[n.val]).drift else (s.fh.wear[n.val]).drift

/-- The wear of pair `n` after a second. -/
def pairWear (s : State) (ds : List (BitVec 16)) (n : Fin 17) : Wear :=
  if (s.array n).powered = true then wearSecond
    (acceleration ((BitVec.ofNat 8 (s.fld (Reg.FH_SPAN n) F.FH_SPAN_TEMP)).toInt) (s.fld (Reg.FH_SPAN n) F.FH_SPAN_VOLT))
    (driftAfter s ds n) s.fh.wear[n.val] else s.fh.wear[n.val]

/-- The wear of the pairs and of the deck after a second. -/
def wearAfter (s : State) (temp : BitVec 8) (ds : List (BitVec 16)) : Vector Wear 18 :=
  Vector.ofFn (fun i => if h : i.val < 17 then pairWear s ds ⟨i.val, h⟩ else wearSecond (acceleration temp.toInt 750) 0 s.fh.wear[i])

theorem wearAfter_pair (s : State) (temp : BitVec 8) (ds : List (BitVec 16)) (n : Fin 17) :
    (wearAfter s temp ds)[n.val] = pairWear s ds n := by
  rw [wearAfter, Vector.getElem_ofFn]
  exact dif_pos n.isLt

theorem wearAfter_deck (s : State) (temp : BitVec 8) (ds : List (BitVec 16)) :
    (wearAfter s temp ds)[17] = wearSecond (acceleration temp.toInt 750) 0 s.fh.wear[17] := by
  rw [wearAfter, Vector.getElem_ofFn]
  rfl

theorem pairWear_drift (s : State) (ds : List (BitVec 16)) (n : Fin 17) : (pairWear s ds n).drift = driftAfter s ds n := by
  unfold pairWear
  split
  · exact wearSecond_drift _ _ _
  · next h => rw [driftAfter, if_neg h]

/-- The state a second on, with the wear `ws`. -/
def wearTicked (s : State) (ws : Vector Wear 18) : State := modifyFh s (fun h => { h with wear := ws, seconds := h.seconds + 1 })

/-- The state with a second of wear, shown in the registers. -/
def wearShown (s : State) (ws : Vector Wear 18) : State := showEol (showWear (wearTicked s ws))

theorem execWearTick_eq (temp : BitVec 8) (ds : List (BitVec 16)) (s : State) :
    execWearTick temp ds s = .next ((List.finRange 17).foldl drifted (wearShown s (wearAfter s temp ds))) := by
  have hwear : (Vector.ofFn fun i : Fin 18 => if h : i.val < 17 then
      (if (s.array ⟨i.val, h⟩).powered = true then wearSecond (acceleration
        ((BitVec.ofNat 8 (s.fld (Reg.FH_SPAN i.val) F.FH_SPAN_TEMP)).toInt) (s.fld (Reg.FH_SPAN i.val) F.FH_SPAN_VOLT))
        ((ds[i.val]?.map (·.toNat)).getD (s.fh.wear[i]).drift) s.fh.wear[i] else s.fh.wear[i])
      else wearSecond (acceleration temp.toInt 750) 0 s.fh.wear[i]) = wearAfter s temp ds := by
    refine congrArg Vector.ofFn (funext fun i => ?_)
    split
    · next h =>
      unfold pairWear driftAfter
      by_cases hp : (s.array ⟨i.val, h⟩).powered = true
      · rw [if_pos hp, if_pos hp, if_pos hp]
        rfl
      · rw [if_neg hp, if_neg hp]
        rfl
    · rfl
  unfold execWearTick wearShown wearTicked
  extract_lets pair ws t
  have hws : ws = wearAfter s temp ds := hwear
  unfold t
  rw [hws]

/-- Showing the wear writes registers alone. -/
theorem showWear_regsOnly (s : State) : RegsOnly s (showWear s) :=
  (RegsOnly.foldl (fun t _ => ((RegsOnly.refl t).setReg _ _).setFld _ _ _) (.refl s) (List.finRange 17)).setReg _ _

theorem showEol_regsOnly (s : State) : RegsOnly s (showEol s) := (RegsOnly.refl s).setReg _ _

theorem wearShown_regsOnly (s : State) (ws : Vector Wear 18) :
    RegsOnly (wearTicked s ws) (wearShown s ws) := (showWear_regsOnly _).trans (showEol_regsOnly _)

/-- A register below those of wear. -/
def BelowWear (a : Nat) : Prop := a < 0x4900400000

theorem keepsHealth_showEol (s : State) : KeepsHealth BelowWear s (showEol s) :=
  .setReg s _ (by simp only [BelowWear, Reg.WR_EOL]; omega)

theorem keepsHealth_showWear (s : State) : KeepsHealth BelowWear s (showWear s) := by
  have hpair (t : State) (n : Fin 17) (w : BitVec 32) (d : Nat) : KeepsHealth BelowWear t
      ((t.setReg (Reg.WR_PAIR_HRS n) w).setFld (Reg.WR_PAIR_DRIFT n) F.WR_PAIR_DRIFT_DRIFT d) :=
    (KeepsHealth.setReg t _ (by simp only [BelowWear, Reg.WR_PAIR_HRS]; omega)).trans
      (.setFld _ _ _ (by simp only [BelowWear, Reg.WR_PAIR_DRIFT]; omega))
  exact (KeepsHealth.foldl _ (fun t n _ => hpair t n _ _) s).trans
    (.setReg _ _ (by simp only [BelowWear, Reg.WR_DEV_HRS]; omega))

theorem wearTicked_reg (s : State) (ws : Vector Wear 18) (a : Nat) :
    (wearTicked s ws).reg a = s.reg a := rfl

theorem keepsHealth_wearShown (s : State) (ws : Vector Wear 18) :
    KeepsHealth BelowWear (wearTicked s ws) (wearShown s ws) :=
  (keepsHealth_showWear _).trans (keepsHealth_showEol _)

theorem wearShown_pair (s : State) (ws : Vector Wear 18) (n : Fin 17) (f : Fld) :
    (wearShown s ws).fld (Reg.PL_PHYS n) f = s.fld (Reg.PL_PHYS n) f := by
  have hlow : BelowWear (Reg.PL_PHYS n) := by simp only [BelowWear, Reg.PL_PHYS]; omega
  rw [State.fld, State.fld, (keepsHealth_wearShown s ws).reg _ hlow, wearTicked_reg]

theorem wearShown_fh (s : State) (ws : Vector Wear 18) :
    (wearShown s ws).fh = { s.fh with wear := ws, seconds := s.fh.seconds + 1 } :=
  (keepsHealth_wearShown s ws).fh

theorem wearShown_wear (s : State) (ws : Vector Wear 18) : (wearShown s ws).fh.wear = ws := by rw [wearShown_fh]

theorem wearShown_raised (s : State) (ws : Vector Wear 18) : Raised s (wearShown s ws) [] := by
  obtain ⟨regs, h⟩ := wearShown_regsOnly s ws
  have hticked : (wearTicked s ws).raises = s.raises := rfl
  exact .of_eq ((congrArg State.raises h).trans hticked)

/-- The hours that a unit's wear shows (R465). -/
def wearHours (w : Wear) : BitVec 32 := BitVec.ofNat 32 (min (2 ^ 32 - 1) (w.eq / 2 ^ 32 / 3600))

theorem showWear_deck (s : State) : (showWear s).reg Reg.WR_DEV_HRS = wearHours s.fh.wear[17] := by
  unfold showWear
  extract_lets hrs shown
  have hshown : RegsOnly s shown :=
    RegsOnly.foldl (fun t _ => ((RegsOnly.refl t).setReg _ _).setFld _ _ _) (.refl s) (List.finRange 17)
  rw [State.setReg_reg_self, hshown.eq]
  rfl

theorem wearShown_deck (s : State) (ws : Vector Wear 18) :
    (wearShown s ws).reg Reg.WR_DEV_HRS = wearHours ws[17] := by
  unfold wearShown showEol
  extract_lets units days
  rw [State.setReg_reg_ne _ _ (by decide), showWear_deck, wearTicked]
  rfl

/-! ### Pairs that have drifted out of range -/

theorem drifted_fresh {s : State} {n : Fin 17} (h : (s.fh.wear[n.val]).drift < 5000) : drifted s n = s := if_pos (.inl h)

theorem drifted_idle {s : State} {n : Fin 17} (h : 5000 ≤ (s.fh.wear[n.val]).drift) (huse : plUse s n = 0) (hrole : s.roleOf n = 31) :
    drifted s n = retirePair s n := by
  unfold drifted
  rw [if_neg (by omega), if_neg (by omega), if_neg (by omega), if_pos ⟨hrole, .inl huse⟩]

theorem foldl_drifted_fresh {s : State} (l : List (Fin 17)) (h : ∀ m ∈ l, (s.fh.wear[m.val]).drift < 5000) : l.foldl drifted s = s := by
  induction l with
  | nil => rfl
  | cons m l ih =>
    obtain ⟨hm, hl⟩ := List.forall_mem_cons.mp h
    rw [List.foldl_cons, drifted_fresh hm, ih hl]

/-- One idle pair has drifted: it alone is retired. -/
theorem foldl_drifted_one {s : State} {n : Fin 17} (hn : 5000 ≤ (s.fh.wear[n.val]).drift) (huse : plUse s n = 0)
    (hrole : s.roleOf n = 31) (hothers : ∀ m, m ≠ n → (s.fh.wear[m.val]).drift < 5000) :
    (List.finRange 17).foldl drifted s = retirePair s n := by
  obtain ⟨before, after, hlist⟩ := List.append_of_mem (List.mem_finRange n)
  have hnodup := List.nodup_finRange 17
  rw [hlist, List.nodup_middle, List.nodup_cons, List.mem_append, not_or] at hnodup
  obtain ⟨⟨hbefore, hafter⟩, -⟩ := hnodup
  have hrest (l : List (Fin 17)) (hl : n ∉ l) {t : State} (ht : t.fh.wear = s.fh.wear) : l.foldl drifted t = t :=
    foldl_drifted_fresh l (fun m hm => by
      rw [ht]
      exact hothers m (ne_of_mem_of_not_mem hm hl))
  obtain ⟨repairs, seq, hfh, -⟩ := (retirePair_retired s n).fh
  rw [hlist, List.foldl_append, List.foldl_cons, hrest before hbefore rfl, drifted_idle hn huse hrole]
  exact hrest after hafter (by rw [hfh])

theorem wearShown_drift (s : State) (temp : BitVec 8) (ds : List (BitVec 16)) (n : Fin 17) :
    ((wearShown s (wearAfter s temp ds)).fh.wear[n.val]).drift = driftAfter s ds n := by
  rw [wearShown_wear, wearAfter_pair, pairWear_drift]

theorem wearTick_fresh (temp : BitVec 8) (ds : List (BitVec 16)) (s : State) (h : ∀ n, driftAfter s ds n < 5000) :
    execWearTick temp ds s = .next (wearShown s (wearAfter s temp ds)) := by
  rw [execWearTick_eq, foldl_drifted_fresh _ (fun m _ => (wearShown_drift s temp ds m).trans_lt (h m))]

theorem wearTick_drifted (temp : BitVec 8) (ds : List (BitVec 16)) {s : State} {n : Fin 17}
    (hothers : ∀ m, m ≠ n → driftAfter s ds m < 5000) (hn : 5000 ≤ driftAfter s ds n) (huse : plUse s n = 0) (hrole : s.roleOf n = 31) :
    ∃ t, execWearTick temp ds s = .next t ∧ plUse t n = 6 ∧ islandState t n = 0 ∧ islandTarget t n = 0 := by
  have hone := foldl_drifted_one (hn.trans_eq (wearShown_drift s temp ds n).symm) ((wearShown_pair s _ n _).trans huse)
    ((wearShown_pair s _ n _).trans hrole) (fun m hm => (wearShown_drift s temp ds m).trans_lt (hothers m hm))
  have h := retirePair_retired (wearShown s (wearAfter s temp ds)) n
  exact ⟨_, execWearTick_eq temp ds s, hone ▸ h.use, hone ▸ h.island, hone ▸ h.target⟩

/-! ### The record and the warning -/

/-- WEAR_RECORD_WRITE (R465). -/
theorem wearRecordWrite_settled (s : State) : ∃ t, execWearRecordWrite s = .next t ∧ t.fh.last ≠ s.fh.last ∧
    t.fh.records[t.fh.last] = ⟨s.fh.wear.toList, s.fh.seconds⟩ ∧ t.fh.records[s.fh.last] = s.fh.records[s.fh.last] ∧
    t = { s with fh := { s.fh with records := t.fh.records, last := t.fh.last } } := by
  unfold execWearRecordWrite
  extract_lets h k
  have hk : k ≠ h.last := by
    have hcases : ∀ i : Fin 2, (if i = 0 then 1 else 0 : Fin 2) ≠ i := by decide
    exact hcases h.last
  exact ⟨_, rfl, hk, Vector.getElem_set_self k.isLt, Vector.getElem_set_ne k.isLt h.last.isLt (fun e => hk (Fin.ext e)), rfl⟩

/-- WEAR_WARN (R466). -/
theorem wearWarn_settled (s : State) :
    let day := s.fh.seconds / 86400
    let warns := (s.reg Reg.WR_EOL).toNat < s.fld Reg.WR_CTL F.WR_CTL_WARN_DAYS ∧ s.fh.warned ≠ some day
    (¬warns → execWearWarn s = .next s) ∧
    (warns → ∃ t, execWearWarn s = .next t ∧ t.fh = { s.fh with warned := some day } ∧ t.regs = s.regs ∧
      Raised s t [(980, s.reg Reg.WR_EOL)]) := by
  intro day warns
  refine ⟨fun h => if_neg h, fun h => ⟨_, if_pos h, rfl, rfl, ?_⟩⟩
  exact Raised.trans (t := modifyFh s (fun h => { h with warned := some day })) (.of_eq rfl) (.raise _ _ _)

/-! ## Trace units -/

/-- ARM and STOP of an armed unit (R468). -/
theorem trace_armed {k : Fin 4} {s : State} (h : s.fld (Reg.TRC_STAT k) F.TRC_STAT_ARMED = 1) : let a := Reg.TRC_STAT k
    execArm k s = .next s ∧ ∃ t, execStop k s = .next t ∧ t.fld a F.TRC_STAT_ARMED = 0 ∧
      t.fld a F.TRC_STAT_NEXT = s.fld a F.TRC_STAT_NEXT ∧ t.fld a F.TRC_STAT_TRIGGERED = s.fld a F.TRC_STAT_TRIGGERED ∧
      t.fh = { s.fh with post := s.fh.post.set k none } ∧ OnlyRegs [a] s t ∧ Raised s t [(981, payCause 0 k.val)] := by
  intro a
  have hflag : s.flag a F.TRC_STAT_ARMED = true := (flag_iff_fld_eq_one s a (by decide)).mpr h
  have hstop : stopWrite s k = stopTrace s k := if_pos hflag
  refine ⟨congrArg Host.Outcome.next (if_pos hflag), _, congrArg Host.Outcome.next hstop, ?_⟩
  unfold stopTrace
  extract_lets u
  have hu : u.fh = { s.fh with post := s.fh.post.set k none } := rfl
  have hregs : u.regs = s.regs := rfl
  have hraises : u.raises = s.raises := rfl
  clear_value u
  have hfld (f : Fld) : u.fld a f = s.fld a f := by rw [State.fld, State.fld, State.reg, State.reg, hregs]
  refine ⟨?_, ?_, ?_, hu, ((OnlyRegs.of_eq hregs).trans (.setFld _ _ _ (.head _))).trans (.raise _ _ _),
    (Raised.of_eq (t := u.setFld a F.TRC_STAT_ARMED 0) hraises).trans (.raise _ _ _)⟩
  · rw [State.raise_fld, State.setFld_fld_self _ _ _ ⟨by decide, by decide⟩, Nat.zero_mod]
  · rw [State.raise_fld, State.setFld_fld_disjoint _ _ _ _ ⟨by decide, by decide⟩ (by decide) (by decide), hfld]
  · rw [State.raise_fld, State.setFld_fld_disjoint _ _ _ _ ⟨by decide, by decide⟩ (by decide) (by decide), hfld]

/-- ARM and STOP of a unit at rest (R468). -/
theorem trace_atRest {k : Fin 4} {s : State} (h : s.fld (Reg.TRC_STAT k) F.TRC_STAT_ARMED = 0) : let a := Reg.TRC_STAT k
    execStop k s = .next s ∧ ∃ t, execArm k s = .next t ∧ t.fld a F.TRC_STAT_ARMED = 1 ∧ t.fld a F.TRC_STAT_TRIGGERED = 0 ∧
      t.fld a F.TRC_STAT_WRAPPED = 0 ∧ t.fld a F.TRC_STAT_NEXT = 0 ∧ t.fh = { s.fh with post := s.fh.post.set k none } ∧
      OnlyRegs [a] s t ∧ Raised s t [] := by
  intro a
  have hflag : ¬s.flag a F.TRC_STAT_ARMED = true := by
    rw [flag_iff_fld_eq_one s a (by decide), h]
    decide
  have harm : armTrace s k = modifyFh (s.setReg a (F.TRC_STAT_ARMED.put 0 1)) (fun h => { h with post := h.post.set k none }) :=
    if_neg hflag
  have hword (f : Fld) : (armTrace s k).fld a f = f.get (F.TRC_STAT_ARMED.put 0 1) := by
    rw [harm]
    exact congrArg f.get (State.setReg_reg_self s a _)
  refine ⟨congrArg Host.Outcome.next (if_neg hflag), _, rfl, (hword _).trans (by decide), (hword _).trans (by decide),
    (hword _).trans (by decide), (hword _).trans (by decide), ?_, ?_, ?_⟩
  · rw [harm]
    rfl
  · rw [harm]
    exact (OnlyRegs.setReg s _ (.head _)).trans (.of_eq rfl)
  · rw [harm]
    exact .of_eq rfl

end Sys2Proof.Machine
end

