-- ==== Sys2Proof/Proofs/HealthCommands.lean ====
section
/-!
PROOFS. The statement on the health unit (R458-R468), a clause per command from the lemmas on its parts.
-/

namespace Sys2Proof

open Machine

/-- The clause of LINK_DEGRADE. -/
theorem linkDegrade_settled (r : Fin 48) (p : Fin 8) (ts : List Word) (s : State) :
    let l := (r.val, p.val)
    let avoid := s.fh.avoided ++ [l]
    let go := exec (.linkDegrade r p ts) s
    (¬LinkDue r p s → go = .next s) ∧
    (LinkDue r p s → ¬AvoidanceExists r p s → ∃ t, go = .next t ∧ t.fh = { s.fh with noRoute := s.fh.noRoute ++ [l] } ∧
      t.fld Reg.FH_LINKS F.FH_LINKS_NO_ROUTE = min (s.fld Reg.FH_LINKS F.FH_LINKS_NO_ROUTE + 1) 255 ∧
      OnlyRegs [Reg.FH_LINKS] s t ∧ Raised s t [(978, payCause 2 r.val p.val)]) ∧
    (LinkDue r p s → AvoidanceExists r p s → tablesAvoid ts avoid = false ∨ s.fld Reg.CW_STAT F.CW_STAT_DRAINED = 0 →
      go = .next s) ∧
    (LinkDue r p s → AvoidanceExists r p s → tablesAvoid ts avoid = true → s.fld Reg.CW_STAT F.CW_STAT_DRAINED = 1 →
      ∃ t q, go = .next t ∧ t.fh = { s.fh with avoided := avoid } ∧ routeEpoch t = !routeEpoch s ∧
      (∀ i, i < 288 → t.reg (Reg.RT_TABLE (i / 6) (!routeEpoch s).toNat (i % 6)) = ts.getD i 0) ∧
      t.fld Reg.FH_LINKS F.FH_LINKS_DEGRADED = min (s.fld Reg.FH_LINKS F.FH_LINKS_DEGRADED + 1) 255 ∧
      Raised s t (q ++ [(978, payCause 1 r.val p.val)])) := by
  refine ⟨linkDegrade_none r p ts s, fun hdue hexist => ⟨_, linkDegrade_noRoute hdue hexist, markNoRoute_shows r p s⟩,
    fun hdue hexist hwait => linkDegrade_waits hdue hexist hwait, fun hdue hexist hts hdrained => ?_⟩
  obtain ⟨q, hshows⟩ := avoidLink_shows hdrained r p ts
  exact ⟨_, q, linkDegrade_avoids hdue hexist hts hdrained, hshows⟩

/-- Settles O57, a clause per command. -/
theorem healthCommandsComplete : Obligations.HealthCommandsComplete := by
  unfold Obligations.HealthCommandsComplete
  refine ⟨fun n volt temp s => ⟨fun hoff => if_pos hoff, fun hon => spanHealth_settled n volt temp s hon⟩,
    devTemp_settled, diagnosisStart_settled, fun n pass others cols s => ⟨fun hnone => ?idle, fun m b hm hne => ?other,
      fun b hdiag => ⟨?worn, ?passed, ?repaired, ?failed⟩⟩, linkDegrade_settled, fun temp ds s => ⟨?fresh, ?drifted⟩,
    wearRecordWrite_settled, wearWarn_settled, fun k s => ⟨trace_armed, trace_atRest⟩⟩
  case idle => exact fhDiag_other (fun b h => by rw [hnone] at h; exact absurd h (by simp)) pass others cols
  case other =>
    refine fhDiag_other (fun b' h => hne ?_) pass others cols
    rw [hm] at h
    exact congrArg Prod.fst (Option.some.inj h)
  case worn => exact fun h => diagnosedOut (execFhDiag_worn hdiag h pass others cols)
  case passed =>
    rintro hnew rfl
    exact fhDiag_passed hdiag hnew others cols
  case repaired =>
    rintro hnew rfl hcols rfl hfree
    exact fhDiag_repaired hdiag hnew hcols hfree
  case failed =>
    rintro rfl h
    exact diagnosedOut (execFhDiag_fail hdiag h)
  case fresh =>
    intro h
    refine ⟨_, wearTick_fresh temp ds s h, ?_, ?_, wearShown_raised s _, ?_, fun n => ?_⟩
    · rw [wearShown_wear]
      exact wearShown_fh s _
    · rw [wearShown_wear]
      exact wearAfter_deck s temp ds
    · rw [wearShown_wear]
      exact wearShown_deck s _
    · rw [wearShown_wear]
      exact wearAfter_pair s temp ds n
  case drifted => exact fun n hothers hn huse hrole => wearTick_drifted temp ds hothers hn huse hrole

end Sys2Proof
end

