-- ==== Sys2Proof/Proofs/MicroSequencer.lean ====
section
/-!
PROOFS. The micro-sequencer takes an operation entry (R60, R63, R64), and its long wait (R73).
-/

namespace Sys2Proof.Machine

/-! ## What the parts of a start leave -/

theorem retime_only (s : State) (ms : List (Fin 17)) : ∃ arrays, retime s ms = { s with arrays := arrays } :=
  List.foldlRecOn (motive := fun t : State => ∃ arrays, t = { s with arrays := arrays }) ms _ ⟨s.arrays, rfl⟩ fun t ht m _ => by
    obtain ⟨_, rfl⟩ := ht
    exact ⟨_, rfl⟩

/-- Entry `k` of the operation trace of span `n` is the word `v`, and the next start finds the entry behind it. -/
def recordTrace (s : State) (n : Fin 17) (k v : Nat) : State :=
  let a := Reg.SPC_OPTRC n
  let s := s.writeLE (Win.optrace n k) 8 v
  let s := if k = 255 then s.setFld a F.SPC_OPTRC_WRAPPED 1 else s
  s.setFld a F.SPC_OPTRC_NEXT ((k + 1) % 256)

theorem traceOp_eq (s : State) (n : Fin 17) (o : ArrayOp) : ∃ v, traceOp s n o =
    if !s.flag (Reg.SPC_OPTRC n) F.SPC_OPTRC_EN then s.setMicro n { s.micro n with traced := none }
    else
      let k := s.fld (Reg.SPC_OPTRC n) F.SPC_OPTRC_NEXT
      (recordTrace s n k v).setMicro n { (recordTrace s n k v).micro n with traced := some k } := ⟨_, rfl⟩

theorem recordTrace_shows (s : State) (n : Fin 17) (k v : Nat) :
    (∃ regs mem, recordTrace s n k v = { s with regs := regs, mem := mem }) ∧
      OnlyRegs [Reg.SPC_OPTRC n] s (recordTrace s n k v) := by
  have hmem : Reg.SPC_OPTRC n ∈ [Reg.SPC_OPTRC n] := List.mem_singleton_self _
  have hwritten : OnlyRegs [Reg.SPC_OPTRC n] s (s.writeLE (Win.optrace n k) 8 v) := .of_eq rfl
  unfold recordTrace
  split
  · exact ⟨⟨_, _, rfl⟩, (hwritten.trans (.setFld _ _ _ hmem)).trans (.setFld _ _ _ hmem)⟩
  · exact ⟨⟨_, _, rfl⟩, hwritten.trans (.setFld _ _ _ hmem)⟩

/-- The trace of an operation's start (R469) writes its own register, memory, and which entry traces the operation. -/
theorem traceOp_shows (s : State) (n : Fin 17) (o : ArrayOp) :
    (∃ regs mem k, traceOp s n o = { s with regs := regs, mem := mem }.setMicro n { s.micro n with traced := k }) ∧
      OnlyRegs [Reg.SPC_OPTRC n] s (traceOp s n o) := by
  obtain ⟨v, htrace⟩ := traceOp_eq s n o
  rw [htrace]
  split
  · exact ⟨⟨_, _, none, rfl⟩, .of_eq rfl⟩
  · obtain ⟨⟨_, _, h⟩, hregs⟩ := recordTrace_shows s n (s.fld (Reg.SPC_OPTRC n) F.SPC_OPTRC_NEXT) v
    refine ⟨?_, hregs.trans (.of_eq rfl)⟩
    simp only [h]
    exact ⟨_, _, some _, rfl⟩

/-- `MS_STAT` shows an operation on routine `r` in progress, at the routine's first microword. -/
def showTaken (s : State) (n : Fin 17) (o : ArrayOp) (r : Routine) : State :=
  let a := Reg.MS_STAT n
  ((s.setFld a F.MS_STAT_BUSY 1).setFld a F.MS_STAT_ROUTINE o.routine.toNat).setFld a F.MS_STAT_PC r.first

theorem showTaken_regsOnly (s : State) (n : Fin 17) (o : ArrayOp) (r : Routine) : RegsOnly s (showTaken s n o r) :=
  (((RegsOnly.refl s).setFld _ _ _).setFld _ _ _).setFld _ _ _

theorem showTaken_onlyRegs (s : State) (n : Fin 17) (o : ArrayOp) (r : Routine) :
    OnlyRegs [Reg.MS_STAT n] s (showTaken s n o r) :=
  have hmem : Reg.MS_STAT n ∈ [Reg.MS_STAT n] := List.mem_singleton_self _
  ((OnlyRegs.setFld s _ _ hmem).trans (.setFld _ _ _ hmem)).trans (.setFld _ _ _ hmem)

theorem showTaken_busy (s : State) (n : Fin 17) (o : ArrayOp) (r : Routine) :
    (showTaken s n o r).fld (Reg.MS_STAT n) F.MS_STAT_BUSY = 1 := by
  unfold showTaken
  rw [State.setFld_fld_disjoint _ _ F.MS_STAT_PC _ ⟨by decide, by decide⟩ (by decide) (by decide),
    State.setFld_fld_disjoint _ _ F.MS_STAT_ROUTINE _ ⟨by decide, by decide⟩ (by decide) (by decide),
    State.setFld_fld_self _ _ F.MS_STAT_BUSY ⟨by decide, by decide⟩]
  rfl

theorem showTaken_pc (s : State) (n : Fin 17) (o : ArrayOp) (r : Routine) :
    (showTaken s n o r).fld (Reg.MS_STAT n) F.MS_STAT_PC = r.first % 2 ^ 14 :=
  State.setFld_fld_self _ _ _ ⟨by decide, by decide⟩ _

/-- The joint bubble of R64, where one is due: it is counted, and a cycle passes for the joints. -/
def jointBubble (s : State) (n : Fin 17) (due : Bool) : State :=
  if due then retime (s.bump (Reg.MS_BUBBLE n) F.MS_BUBBLE_COUNT) (domainOf s n) else s

theorem jointBubble_shows (s : State) (n : Fin 17) (due : Bool) :
    (∃ regs arrays, jointBubble s n due = { s with regs := regs, arrays := arrays }) ∧
      OnlyRegs [Reg.MS_BUBBLE n] s (jointBubble s n due) := by
  unfold jointBubble
  split
  · obtain ⟨_, h⟩ := retime_only (s.bump (Reg.MS_BUBBLE n) F.MS_BUBBLE_COUNT) (domainOf s n)
    rw [h]
    exact ⟨⟨_, _, rfl⟩, (OnlyRegs.bump s _ _ (List.mem_singleton_self _)).trans (.of_eq rfl)⟩
  · exact ⟨⟨_, _, rfl⟩, .refl _ _⟩

/-! ## The start of an operation -/

/-- The micro-sequencer with operation `o` in progress, at the beginning of its routine (R60). -/
def loadOp (u : MicroSeq) (o : ArrayOp) : MicroSeq :=
  { u with op := some o, ar0 := o.b0, ar1 := o.b1, ar2 := o.b2, ar3 := o.b3, lc0 := loopCount o.w, lc1 := loopCount o.w2,
           waited := 0, waitLong := false }

/-- The state with operation `o` off the issue queue and in the operation trace. -/
def dequeued (s : State) (n : Fin 17) (o : ArrayOp) (q : List QueueEntry) : State :=
  traceOp (s.setCtl n { s.ctl n with queue := q }) n o

theorem dequeued_shows (s : State) (n : Fin 17) (o : ArrayOp) (q : List QueueEntry) :
    (∃ regs mem k, dequeued s n o q = ({ s with regs := regs, mem := mem }.setCtl n { s.ctl n with queue := q }).setMicro n
        { s.micro n with traced := k }) ∧
      OnlyRegs [Reg.SPC_OPTRC n] s (dequeued s n o q) := by
  obtain ⟨hshows, hregs⟩ := traceOp_shows (s.setCtl n { s.ctl n with queue := q }) n o
  exact ⟨hshows, OnlyRegs.trans (.of_eq rfl) hregs⟩

theorem routineOf_dequeued (s : State) (n : Fin 17) (o : ArrayOp) (q : List QueueEntry) (k : Nat) :
    routineOf (dequeued s n o q) n k = routineOf s n k := by
  obtain ⟨⟨_, _, _, h⟩, -⟩ := dequeued_shows s n o q
  rw [routineOf, h, State.setMicro_micro_self]
  rfl

/-- A resident routine's operation is taken, shown, and loaded, behind a joint bubble or not. -/
theorem execOperationStart_resident {n : Fin 17} {s : State} {o : ArrayOp} {q : List QueueEntry} {r : Routine}
    (hfront : queueFront s n = some (.op o, q)) (hroutine : routineOf s n o.routine.toNat = some r) :
    ∃ due, execOperationStart n s = .next ((jointBubble (showTaken (dequeued s n o q) n o r) n due).setMicro n
      (loadOp ((dequeued s n o q).micro n) o)) := by
  have hroutine : routineOf (dequeued s n o q) n o.routine.toNat = some r := routineOf_dequeued s n o q _ ▸ hroutine
  unfold dequeued at hroutine
  simp only [execOperationStart, hfront, hroutine]
  exact ⟨_, rfl⟩

/-- What a taken operation shows, with `due` a joint bubble or none. -/
theorem operationTaken_shows (s : State) (n : Fin 17) (o : ArrayOp) (q : List QueueEntry) (r : Routine) (due : Bool) :
    let t := (jointBubble (showTaken (dequeued s n o q) n o r) n due).setMicro n (loadOp ((dequeued s n o q).micro n) o)
    (t.ctl n).queue = q ∧ t.micro n = loadOp ((dequeued s n o q).micro n) o ∧
      t.fld (Reg.MS_STAT n) F.MS_STAT_BUSY = 1 ∧ t.fld (Reg.MS_STAT n) F.MS_STAT_PC = r.first % 2 ^ 14 ∧
      OnlyRegs [Reg.MS_STAT n, Reg.SPC_OPTRC n, Reg.MS_BUBBLE n] s t ∧ t.raises = s.raises := by
  obtain ⟨⟨_, _, _, hqueue⟩, hqueueRegs⟩ := dequeued_shows s n o q
  obtain ⟨_, hshown⟩ := showTaken_regsOnly (dequeued s n o q) n o r
  obtain ⟨⟨_, _, hbubble⟩, hbubbleRegs⟩ := jointBubble_shows (showTaken (dequeued s n o q) n o r) n due
  have hstat (f : Fld) : (jointBubble (showTaken (dequeued s n o q) n o r) n due).fld (Reg.MS_STAT n) f =
      (showTaken (dequeued s n o q) n o r).fld (Reg.MS_STAT n) f :=
    congrArg f.get (hbubbleRegs _ (by simp only [List.mem_singleton, Reg.MS_STAT, Reg.MS_BUBBLE]; omega))
  intro t
  refine ⟨?_, State.setMicro_micro_self _ _ _, (hstat _).trans (showTaken_busy _ n o r), (hstat _).trans (showTaken_pc _ n o r),
    .trans (hqueueRegs.mono (by simp)) (.trans ((showTaken_onlyRegs _ n o r).mono (by simp))
      (.trans (hbubbleRegs.mono (by simp)) (.of_eq rfl))), ?_⟩
  · have hctl : t.ctl n = { s.ctl n with queue := q } := by
      simp only [t, State.setMicro_ctl]
      rw [hbubble, hshown, hqueue]
      exact State.setCtl_ctl_self s n _
    rw [hctl]
  · simp only [t, State.setMicro_raises]
    rw [hbubble, hshown, hqueue]
    rfl

/-! ## The long wait -/

/-- The wait of micro-sequencer `n` is due to be raised: it has lasted a limit that is not 0. -/
theorem execMsWaitLong_due {n : Fin 17} {s : State} (hwait : s.fld (Reg.MS_STAT n) F.MS_STAT_WAIT = 1)
    (hlimit : s.fld (Reg.MS_WAIT_LIMIT n) F.MS_WAIT_LIMIT_LIMIT ≠ 0)
    (hlasted : s.fld (Reg.MS_WAIT_LIMIT n) F.MS_WAIT_LIMIT_LIMIT ≤ (s.micro n).waited)
    (honce : (s.micro n).waitLong = false) :
    execMsWaitLong n s = .next ((s.setMicro n { s.micro n with waitLong := true }).raise (16 * n + 9) 0) := by
  simp [execMsWaitLong, State.flag, hwait, hlimit, hlasted, honce]

/-- A wait that has been raised is not raised again. -/
theorem execMsWaitLong_raised {n : Fin 17} {s : State} (h : (s.micro n).waitLong = true) :
    execMsWaitLong n s = .next s := by
  simp [execMsWaitLong, h]

end Sys2Proof.Machine

namespace Sys2Proof

open Machine

/-- Settles O9: a start by the parts that it is made of, a long wait by the mark that it leaves on the wait. -/
theorem microSequencerCommandsComplete : Obligations.MicroSequencerCommandsComplete := by
  unfold Obligations.MicroSequencerCommandsComplete
  refine ⟨fun n s o q r hfront hroutine => ?start, fun n s hwait hlimit hlasted honce => ?long⟩
  case start =>
    obtain ⟨due, hexec⟩ := execOperationStart_resident hfront hroutine
    obtain ⟨hqueue, hmicro, hbusy, hpc, hregs, hraises⟩ := operationTaken_shows s n o q r due
    refine ⟨_, hexec, hqueue, ?_⟩
    rw [hmicro]
    exact ⟨rfl, rfl, rfl, rfl, rfl, rfl, rfl, hbusy, hpc, hregs, hraises⟩
  case long =>
    have hmarked : (((s.setMicro n { s.micro n with waitLong := true }).raise (16 * n + 9) 0).micro n).waitLong = true :=
      congrArg MicroSeq.waitLong (State.setMicro_micro_self s n _)
    exact ⟨_, execMsWaitLong_due hwait hlimit hlasted honce, .raise _ _ _, execMsWaitLong_raised hmarked, rfl⟩

end Sys2Proof
end

