-- ==== Sys2Proof/Proofs/SpanAlu.lean ====
section
/-!
PROOFS. The ALUs of the span controllers (R99, R100): the flags of sums and differences, shifts by 32 or more, and
divisions with their edges.
-/

namespace Sys2Proof.Machine

/-! ## Flags -/

theorem flags3_getLsbD_zero (c v dz : Bool) : (flags3 c v dz).getLsbD 0 = c := by
  cases c <;> cases v <;> cases dz <;> rfl

theorem flags3_getLsbD_one (c v dz : Bool) : (flags3 c v dz).getLsbD 1 = v := by
  cases c <;> cases v <;> cases dz <;> rfl

theorem outOfRange_eq_false_iff (v : Int) : outOfRange 32 v = false ↔ -2 ^ 31 ≤ v ∧ v < 2 ^ 31 := by
  simp only [outOfRange, Bool.or_eq_false_iff, decide_eq_false_iff_not, not_lt, not_le]

/-! ## The operations at their edges -/

section

variable (o t : BitVec 32)

theorem spanAlu_add :
    spanAlu 0 o t = some ⟨o + t, 3, flags3 (carryOut 32 o t false) (outOfRange 32 (o.toInt + t.toInt)) false⟩ := rfl

theorem spanAlu_sub :
    spanAlu 1 o t = some ⟨o - t, 3, flags3 (t.toNat ≤ o.toNat) (outOfRange 32 (o.toInt - t.toInt)) false⟩ := rfl

variable {t}

/-- A shift by 32 or more gives 0, or the sign in every bit. -/
theorem spanAlu_shift_far (h : 32 ≤ t.toNat) : spanAlu 6 o t = some ⟨0, 0, 0⟩ ∧ spanAlu 7 o t = some ⟨0, 0, 0⟩ ∧
    spanAlu 8 o t = some ⟨if o.msb then BitVec.allOnes 32 else 0, 0, 0⟩ := by
  simp only [spanAlu, if_pos h, and_self]

theorem allOnes_if_getLsbD (b : Bool) {i : Nat} (hi : i < 32) :
    (if b then BitVec.allOnes 32 else 0).getLsbD i = b := by
  cases b with
  | false => exact BitVec.getLsbD_zero
  | true => exact BitVec.getLsbD_allOnes.trans (decide_eq_true hi)

/-- Signed division by a divisor that is not 0 sets V by the one quotient that does not fit. -/
theorem spanAlu_div (h : t ≠ 0) : spanAlu 23 o t = some ⟨BitVec.ofInt 32 (o.toInt.tdiv t.toInt), 2,
    flags3 false (o = 0x80000000 && t = BitVec.allOnes 32) false⟩ := if_neg h

theorem spanAlu_rem (h : t ≠ 0) : spanAlu 25 o t = some ⟨BitVec.ofInt 32 (o.toInt.tmod t.toInt), 2, 0⟩ := if_neg h

theorem ofInt_tdiv_toInt (h : o ≠ BitVec.intMin 32 ∨ t ≠ -1#32) :
    (BitVec.ofInt 32 (o.toInt.tdiv t.toInt)).toInt = o.toInt.tdiv t.toInt := by
  rw [BitVec.toInt_ofInt, ← BitVec.toInt_sdiv, BitVec.toInt_sdiv_of_ne_or_ne _ _ h]

theorem ofInt_tmod_toInt (t : BitVec 32) : (BitVec.ofInt 32 (o.toInt.tmod t.toInt)).toInt = o.toInt.tmod t.toInt := by
  rw [BitVec.toInt_ofInt, ← BitVec.toInt_srem, BitVec.toInt_bmod_cancel]

/-- Every division by 0 gives all ones or the operand, and sets DZ with V clear. -/
theorem spanAlu_by_zero {code : Nat} (hlo : 23 ≤ code) (hhi : code ≤ 26) :
    spanAlu code o 0 = some ⟨if code ≤ 24 then 0xFFFFFFFF else o, 6, 4⟩ := by
  obtain rfl | rfl | rfl | rfl : code = 23 ∨ code = 24 ∨ code = 25 ∨ code = 26 := by omega
  all_goals rfl

/-- An operation sets no flags, V, or C and V, unless it is a division by 0. -/
theorem spanAlu_mask (t : BitVec 32) {code : Nat} {r : Flagged 32 3} (h : spanAlu code o t = some r) :
    r.mask ∈ [0#3, 2#3, 3#3] ∨ (t = 0 ∧ 23 ≤ code ∧ code ≤ 26) := by
  by_cases hdiv : t = 0 ∧ 23 ≤ code ∧ code ≤ 26
  · exact .inr hdiv
  · left
    unfold spanAlu at h
    split at h
    case h_24 | h_25 | h_26 | h_27 =>
      rw [if_neg (by simpa using hdiv)] at h
      cases h
      simp
    case h_29 => exact absurd h (by simp)
    all_goals
      cases h
      simp

end

end Sys2Proof.Machine

namespace Sys2Proof

open Machine

/-- Settles O12: each operation by its result and flags; the quotient fits but for MIN by -1, the remainder always. -/
theorem spanAluArithmetic : Obligations.SpanAluArithmetic := by
  unfold Obligations.SpanAluArithmetic
  intro o t inRange
  refine ⟨⟨_, spanAlu_add o t, rfl, rfl, ?_, ?_⟩, ⟨_, spanAlu_sub o t, rfl, rfl, ?_, ?_⟩, fun h => ?shift,
    fun code hlo hhi h => ⟨_, h ▸ spanAlu_by_zero o hlo hhi, rfl, rfl, rfl⟩, fun ho ht => ?min, fun ht hmin => ?divide,
    fun code r hr hmask => ?mask⟩
  · rw [flags3_getLsbD_one, outOfRange_eq_false_iff]
  · rw [flags3_getLsbD_zero, carryOut, decide_eq_true_iff]
    rfl
  · rw [flags3_getLsbD_one, outOfRange_eq_false_iff]
  · rw [flags3_getLsbD_zero, decide_eq_true_iff]
  case shift =>
    obtain ⟨hleft, hright, hsigned⟩ := spanAlu_shift_far o h
    exact ⟨_, _, _, hleft, rfl, hright, rfl, hsigned, fun i hi => allOnes_if_getLsbD o.msb hi⟩
  case min =>
    subst ho ht
    exact ⟨_, _, spanAlu_div _ (by decide), by decide, rfl, by decide, spanAlu_rem _ (by decide), by decide, rfl, rfl⟩
  case divide =>
    have hfits : o ≠ BitVec.intMin 32 ∨ t ≠ -1#32 := not_and_or.mp hmin
    refine ⟨_, _, spanAlu_div o ht, spanAlu_rem o ht, ofInt_tdiv_toInt o hfits, ?_, rfl, ?_, rfl, rfl⟩
    · rw [ofInt_tmod_toInt, ofInt_tdiv_toInt o hfits, Int.tmod_def]
    · have hflag : (decide (o = 0x80000000) && decide (t = BitVec.allOnes 32)) = false := by
        rw [← Bool.decide_and, decide_eq_false_iff_not]
        exact hmin
      rw [hflag]
      rfl
  case mask =>
    have hdz : ∀ m ∈ [0#3, 2#3, 3#3], m.getLsbD 2 ≠ true := by decide
    exact (spanAlu_mask o t hr).resolve_left fun h => hdz _ h hmask

end Sys2Proof
end

