-- ==== Sys2Proof/Proofs/PierAccess.lean ====
section
/-!
PROOFS. The frame of the accesses that a unit of the deck makes to pier space (R288, R302): what the copies of checkpoints
and the reads of their headers leave as it was (R124, R125).
-/

namespace Sys2Proof.Machine

/-- Accesses to pier space write memory, its check bits, counters of the causeway and the piers, and raise events. -/
structure PierAccess (s t : State) : Prop where
  only : ∃ regs mem errs raises, t = { s with regs := regs, mem := mem, errs := errs, raises := raises }
  reg : ∀ a, a < 0x4500000000 → t.reg a = s.reg a

namespace PierAccess

variable {s t u : State}

theorem refl (s : State) : PierAccess s s := ⟨⟨s.regs, s.mem, s.errs, s.raises, rfl⟩, fun _ _ => rfl⟩

theorem trans (h : PierAccess s t) (k : PierAccess t u) : PierAccess s u := by
  refine ⟨?_, fun a ha => (k.reg a ha).trans (h.reg a ha)⟩
  obtain ⟨_, _, _, _, rfl⟩ := h.only
  obtain ⟨r, m, e, p, rfl⟩ := k.only
  exact ⟨r, m, e, p, rfl⟩

theorem ite {c : Prop} {_ : Decidable c} (ht : PierAccess s t) (hu : PierAccess s u) : PierAccess s (if c then t else u) := by
  split <;> assumption

theorem foldl {α : Type} {f : State → α → State} (h : PierAccess s t) (hf : ∀ t x, PierAccess t (f t x)) (xs : List α) :
    PierAccess s (xs.foldl f t) :=
  List.foldlRecOn xs f h (fun t ht x _ => ht.trans (hf t x))

section

variable (h : PierAccess s t)

include h

theorem bump {a : Nat} (ha : 0x4500000000 ≤ a) (f : Fld) (k : Nat) : PierAccess s (t.bump a f k) :=
  h.trans ⟨⟨_, _, _, _, rfl⟩, fun b hb => State.bump_reg_ne t f k (by omega)⟩

theorem raise (src : Nat) (pay : BitVec 32) : PierAccess s (t.raise src pay) := h.trans ⟨⟨_, _, _, _, rfl⟩, fun _ _ => rfl⟩

theorem setErr (a m : Nat) : PierAccess s (t.setErr a m) := h.trans ⟨⟨_, _, _, _, rfl⟩, fun _ _ => rfl⟩

theorem writeBytes (a : Nat) (bs : List Byte) : PierAccess s (t.writeBytes a bs) :=
  h.trans ⟨⟨_, _, _, _, rfl⟩, fun _ _ => rfl⟩

theorem pierCheck (x : Nat) : PierAccess s (Machine.pierCheck t x) := by
  have hecc : 0x4500000000 ≤ Reg.PIER_ECC (pierOf x) := by
    unfold Reg.PIER_ECC
    omega
  unfold Machine.pierCheck
  dsimp only
  split
  · exact h
  · exact ((h.setErr _ _).bump hecc _ _).raise _ _
  · exact (h.bump hecc _ _).raise _ _

theorem pierRead (a n : Nat) : PierAccess s (Machine.pierRead t a n).2.2 := h.foldl (fun t => (refl t).pierCheck) _

theorem pierWrite (a : Nat) (bs : List Byte) : PierAccess s (Machine.pierWrite t a bs).2 := by
  have hchecked := h.foldl (f := fun s x => if (decide (a ≤ x) && decide (x + 8 ≤ a + bs.length)) = true then s
    else Machine.pierCheck s x) (fun t x => .ite (refl t) ((refl t).pierCheck x)) (wordsOf 8 a bs.length)
  have hpoisoned := hchecked.foldl (f := fun s x => poisonWord s 8 x) (fun t x => ((refl t).writeBytes _ _).setErr _ _)
  exact ((hpoisoned _).foldl (fun t x => .ite (refl t) ((refl t).setErr x 0)) _).writeBytes _ _

theorem probeStray (i : Nat) : PierAccess s (Machine.probeStray t i) :=
  h.bump (by unfold Reg.PRB_STRAY; omega) _ _

theorem probeIso (i : Nat) : PierAccess s (Machine.probeIso t i) := h.bump (by unfold Reg.PRB_ISO; omega) _ _

end

theorem areaWrite (fuel : Nat) (h : PierAccess s t) (a : Nat) (bs : List Byte) :
    PierAccess s (Machine.areaWrite fuel t a bs) := by
  induction fuel generalizing t a bs with
  | zero => exact h
  | succ fuel ih => exact .ite h (ih (.ite (h.probeStray _) (.ite (h.probeIso _) (h.pierWrite _ _))) _ _)

theorem areaRead (fuel : Nat) (h : PierAccess s t) (a n : Nat) : PierAccess s (Machine.areaRead fuel t a n).2 := by
  induction fuel generalizing t a n with
  | zero => exact h
  | succ fuel ih =>
    unfold Machine.areaRead
    extract_lets k p r rest
    have hr : PierAccess s r.2 := by
      unfold r
      split
      · exact h.probeStray _
      · split
        · exact h.probeIso _
        · exact h.pierRead _ _
    split
    · exact h
    · exact ih hr _ _

section

variable (h : PierAccess s t)

include h

theorem readHeaders (a : Nat) : PierAccess s (Machine.readHeaders t a).2.2 := (h.areaRead 4 _ _).areaRead 4 _ _

theorem checkedSlot (a : Nat) (k : Fin 2) (d : CkptHeader) : PierAccess s (Machine.checkedSlot t a k d).2 := by
  unfold Machine.checkedSlot
  split
  · exact h
  · exact h.areaRead 512 _ _

theorem fld {a : Nat} (ha : a < 0x4500000000) (f : Fld) : t.fld a f = s.fld a f := congrArg f.get (h.reg a ha)

theorem array (n : Fin 17) : t.array n = s.array n := by obtain ⟨_, _, _, _, rfl⟩ := h.only; rfl

theorem arrays : t.arrays = s.arrays := by obtain ⟨_, _, _, _, rfl⟩ := h.only; rfl

theorem ctls : t.ctls = s.ctls := by obtain ⟨_, _, _, _, rfl⟩ := h.only; rfl

end

end PierAccess

end Sys2Proof.Machine
end

