-- ==== Sys2Proof/Proofs/SpanStates.lean ====
section
/-!
PROOFS. The states that a span controller shows (R126, R128, R132, R506): STATE, CAUSE and STOP over the spans of a
domain, and a controller that becomes stopped.
-/

namespace Sys2Proof.Machine

/-! ## Folds and fields -/

/-- What each step of a fold brings about for its own element, and no step undoes, holds of every element at the end. -/
theorem foldl_each {α β : Type} {f : β → α → β} {P : α → β → Prop} (hself : ∀ t x, P x (f t x))
    (hkeep : ∀ t x y, P y t → P y (f t x)) (xs : List α) (t : β) : ∀ x ∈ xs, P x (xs.foldl f t) := by
  induction xs generalizing t with
  | nil => exact fun x hx => absurd hx List.not_mem_nil
  | cons y xs ih =>
    intro x hx
    obtain rfl | hmem := List.mem_cons.1 hx
    · exact List.foldlRecOn (motive := P x) xs f (hself t x) (fun u hu z _ => hkeep u z x hu)
    · exact ih (f t y) x hmem

/-- A list of spans where the model takes their numbers. -/
theorem mem_coe_of_mem {ms : List (Fin 17)} {m : Fin 17} (h : m ∈ ms) : m.val ∈ (ms : List Nat) := by
  simpa only [List.bind_eq_flatMap, List.pure_def, List.mem_flatMap, List.mem_singleton, Fin.val_inj, exists_eq_right']
    using h

/-- A field that shares no bit with the one written, in the form of hypotheses that `decide` settles. -/
theorem setFld_fld_apart (s : State) (a : Nat) (f g : Fld) (v : Nat) (hf : f.lo ≤ f.hi ∧ f.hi < 32) (hg : g.lo ≤ g.hi)
    (h : g.hi < f.lo ∨ f.hi < g.lo) : (s.setFld a f v).fld a g = s.fld a g := s.setFld_fld_disjoint a f g hf hg h v

/-- A field that takes a value which fits. -/
theorem setFld_fld_fits (s : State) (a : Nat) (f : Fld) (v : Nat) (hf : f.lo ≤ f.hi ∧ f.hi < 32)
    (hv : v < 2 ^ (f.hi - f.lo + 1)) : (s.setFld a f v).fld a f = v :=
  (s.setFld_fld_self a f hf v).trans (Nat.mod_eq_of_lt hv)

/-! ## Groups whose settings stand -/

section

variable {s t : State} (h : ∀ m : Fin 17, t.reg (Reg.ARR_COUPLE m) = s.reg (Reg.ARR_COUPLE m))

include h

theorem spanPos_congr (m : Fin 17) : spanPos t m = spanPos s m := congrArg F.ARR_COUPLE_POS.get (h m)

theorem domainOf_congr (n : Fin 17) : domainOf t n = domainOf s n := by
  simp only [domainOf, driver, spanPos_congr h]

theorem lead_congr (n : Fin 17) : lead t n = lead s n := by simp only [lead, spanPos_congr h]

end

theorem PierAccess.couple {s t : State} (h : PierAccess s t) (m : Fin 17) :
    t.reg (Reg.ARR_COUPLE m) = s.reg (Reg.ARR_COUPLE m) :=
  h.reg _ (by simp only [Reg.ARR_COUPLE]; omega)

/-! ## STATE, CAUSE and STOP -/

/-- STATE, CAUSE and STOP of one span. -/
def showStopOf (state cause stop : Nat) (s : State) (m : Nat) : State :=
  ((s.setFld (Reg.SPC_STAT m) F.SPC_STAT_STATE state).setFld (Reg.SPC_STAT m) F.SPC_STAT_CAUSE cause).setFld (Reg.SPC_CTL m)
    F.SPC_CTL_STOP stop

theorem showStop_eq (s : State) (n : Fin 17) (state cause stop : Nat) :
    showStop s n state cause stop = ((n :: domainOf s n : List (Fin 17)) : List Nat).foldl (showStopOf state cause stop) s := rfl

/-- `SPC_STAT` and `SPC_CTL` of the span with number `m` show a STATE, a CAUSE and a STOP. -/
def ShowsStop (state cause stop m : Nat) (s : State) : Prop :=
  spcState s m = state ∧ s.fld (Reg.SPC_STAT m) F.SPC_STAT_CAUSE = cause ∧ s.fld (Reg.SPC_CTL m) F.SPC_CTL_STOP = stop

theorem SPC_STAT_ne_SPC_CTL (k m : Nat) : Reg.SPC_STAT k ≠ Reg.SPC_CTL m := by
  simp only [Reg.SPC_STAT, Reg.SPC_CTL]
  omega

theorem SPC_STAT_ne {k m : Nat} (h : k ≠ m) : Reg.SPC_STAT k ≠ Reg.SPC_STAT m := by
  simp only [Reg.SPC_STAT]
  omega

theorem SPC_CTL_ne {k m : Nat} (h : k ≠ m) : Reg.SPC_CTL k ≠ Reg.SPC_CTL m := by
  simp only [Reg.SPC_CTL]
  omega

section

variable {state cause stop : Nat} (s : State)

theorem showStopOf_onlyRegs (m : Nat) : OnlyRegs [Reg.SPC_STAT m, Reg.SPC_CTL m] s (showStopOf state cause stop s m) :=
  ((OnlyRegs.setFld s _ _ (by simp)).trans (OnlyRegs.setFld _ _ _ (by simp))).trans (OnlyRegs.setFld _ _ _ (by simp))

theorem showStopOf_shows (hstate : state < 4) (hcause : cause < 8) (hstop : stop < 4) (m : Nat) :
    ShowsStop state cause stop m (showStopOf state cause stop s m) := by
  unfold showStopOf ShowsStop spcState
  have hne := SPC_STAT_ne_SPC_CTL m m
  refine ⟨?_, ?_, setFld_fld_fits _ _ _ _ (by decide) hstop⟩
  · rw [State.setFld_fld_ne _ _ _ _ hne, setFld_fld_apart _ _ _ _ _ (by decide) (by decide) (by decide)]
    exact setFld_fld_fits _ _ _ _ (by decide) hstate
  · rw [State.setFld_fld_ne _ _ _ _ hne]
    exact setFld_fld_fits _ _ _ _ (by decide) hcause

theorem showStopOf_keeps (hstate : state < 4) (hcause : cause < 8) (hstop : stop < 4) (m k : Nat)
    (h : ShowsStop state cause stop k s) : ShowsStop state cause stop k (showStopOf state cause stop s m) := by
  by_cases hk : k = m
  · exact hk ▸ showStopOf_shows s hstate hcause hstop m
  · obtain ⟨hstat, hcaused, hctl⟩ := h
    have hs : (showStopOf state cause stop s m).reg (Reg.SPC_STAT k) = s.reg (Reg.SPC_STAT k) :=
      showStopOf_onlyRegs s m _ (by simp [SPC_STAT_ne hk, SPC_STAT_ne_SPC_CTL])
    have hc : (showStopOf state cause stop s m).reg (Reg.SPC_CTL k) = s.reg (Reg.SPC_CTL k) :=
      showStopOf_onlyRegs s m _ (by simp [SPC_CTL_ne hk, (SPC_STAT_ne_SPC_CTL m k).symm])
    exact ⟨(congrArg _ hs).trans hstat, (congrArg _ hs).trans hcaused, (congrArg _ hc).trans hctl⟩

theorem showStopOf_aborted (m k : Nat) :
    (showStopOf state cause stop s m).fld (Reg.SPC_STAT k) F.SPC_STAT_ABORTED = s.fld (Reg.SPC_STAT k) F.SPC_STAT_ABORTED := by
  unfold showStopOf
  rw [State.setFld_fld_ne _ _ _ _ (SPC_STAT_ne_SPC_CTL k m)]
  by_cases hk : k = m
  · subst hk
    rw [setFld_fld_apart _ _ _ _ _ (by decide) (by decide) (by decide),
      setFld_fld_apart _ _ _ _ _ (by decide) (by decide) (by decide)]
  · rw [State.setFld_fld_ne _ _ _ _ (SPC_STAT_ne hk), State.setFld_fld_ne _ _ _ _ (SPC_STAT_ne hk)]

variable (n : Fin 17)

theorem showStop_regsOnly : RegsOnly s (showStop s n state cause stop) :=
  .foldl (fun t _ => (((RegsOnly.refl t).setFld _ _ _).setFld _ _ _).setFld _ _ _) (.refl s) _

theorem showStop_shows (hstate : state < 4) (hcause : cause < 8) (hstop : stop < 4) {m : Fin 17}
    (hm : m ∈ n :: domainOf s n) : ShowsStop state cause stop m (showStop s n state cause stop) :=
  foldl_each (P := ShowsStop state cause stop) (fun t => showStopOf_shows t hstate hcause hstop)
    (fun t => showStopOf_keeps t hstate hcause hstop) _ s m.val (mem_coe_of_mem hm)

theorem showStop_aborted (k : Nat) :
    (showStop s n state cause stop).fld (Reg.SPC_STAT k) F.SPC_STAT_ABORTED = s.fld (Reg.SPC_STAT k) F.SPC_STAT_ABORTED := by
  rw [showStop_eq]
  exact List.foldlRecOn (motive := fun t : State => t.fld (Reg.SPC_STAT k) F.SPC_STAT_ABORTED =
    s.fld (Reg.SPC_STAT k) F.SPC_STAT_ABORTED) _ _ rfl fun t ht m _ => (showStopOf_aborted t m k).trans ht

theorem showStop_reg {a : Nat} (ha : ∀ m, a ≠ Reg.SPC_STAT m ∧ a ≠ Reg.SPC_CTL m) :
    (showStop s n state cause stop).reg a = s.reg a := by
  rw [showStop_eq]
  exact List.foldlRecOn (motive := fun t : State => t.reg a = s.reg a) _ _ rfl fun t ht m _ =>
    (showStopOf_onlyRegs t m a (by simpa using ha m)).trans ht

theorem showStop_couple (m : Fin 17) : (showStop s n state cause stop).reg (Reg.ARR_COUPLE m) = s.reg (Reg.ARR_COUPLE m) :=
  showStop_reg s n fun k => by
    simp only [Reg.ARR_COUPLE, Reg.SPC_STAT, Reg.SPC_CTL]
    omega

end

/-! ## A controller becomes stopped -/

/-- Controller `n` has become stopped: what it shows and raises, and what it leaves. -/
structure BecomesStopped (n : Fin 17) (cause stop : Nat) (s t : State) : Prop where
  only : ∃ regs raises, t = { s with regs := regs, raises := raises }
  shows : ShowsStop 3 cause stop n t
  aborted : ∀ k, t.fld (Reg.SPC_STAT k) F.SPC_STAT_ABORTED = s.fld (Reg.SPC_STAT k) F.SPC_STAT_ABORTED
  raised : ∃ l, Raised s t ((16 * (lead s n).val, 0) :: l)
  reg : ∀ a, a ≠ Reg.PL_STAT → (∀ m, a ≠ Reg.SPC_STAT m ∧ a ≠ Reg.SPC_CTL m) → t.reg a = s.reg a

/-- The standby's READY, where the stop brings it about, touches `PL_STAT` alone and raises behind SPC_STOPPED. -/
theorem BecomesStopped.readied {n : Fin 17} {cause stop : Nat} {s t : State} (h : BecomesStopped n cause stop s t) (v src : Nat)
    (pay : BitVec 32) : BecomesStopped n cause stop s ((t.setFld Reg.PL_STAT F.PL_STAT_SBY v).raise src pay) := by
  obtain ⟨⟨regs, raises, honly⟩, ⟨hstate, hcause, hstop⟩, haborted, ⟨l, hraised⟩, hreg⟩ := h
  have hne : ∀ m : Fin 17, Reg.SPC_STAT m ≠ Reg.PL_STAT ∧ Reg.SPC_CTL m ≠ Reg.PL_STAT := by
    intro m
    simp only [Reg.SPC_STAT, Reg.SPC_CTL, Reg.PL_STAT]
    omega
  have hfar (k : Nat) : Reg.SPC_STAT k ≠ Reg.PL_STAT := by
    simp only [Reg.SPC_STAT, Reg.PL_STAT]
    omega
  refine ⟨⟨_, _, by rw [honly]; rfl⟩, ⟨?_, ?_, ?_⟩, fun k => ?_, ⟨l ++ [(src, pay)], hraised.trans (.raise (t.setFld _ _ v) src pay)⟩,
    fun a ha hb => (State.setFld_reg_ne t _ _ ha).trans (hreg a ha hb)⟩
  · exact (State.setFld_fld_ne t _ _ _ (hne n).1).trans hstate
  · exact (State.setFld_fld_ne t _ _ _ (hne n).1).trans hcause
  · exact (State.setFld_fld_ne t _ _ _ (hne n).2).trans hstop
  · exact (State.setFld_fld_ne t _ _ _ (hfar k)).trans (haborted k)

theorem becomeStopped_shows (s : State) (n : Fin 17) {cause stop : Nat} (hcause : cause < 8) (hstop : stop < 4) :
    BecomesStopped n cause stop s (becomeStopped s n cause stop) := by
  obtain ⟨regs, hregs⟩ := showStop_regsOnly (state := 3) (cause := cause) (stop := stop) s n
  have hshows := showStop_shows (state := 3) s n (by decide) hcause hstop (List.mem_cons_self ..)
  have haborted := showStop_aborted (state := 3) (cause := cause) (stop := stop) s n
  have hreg (a : Nat) := showStop_reg (state := 3) (cause := cause) (stop := stop) s n (a := a)
  have hlead := lead_congr (showStop_couple (state := 3) (cause := cause) (stop := stop) s n) n
  unfold becomeStopped
  generalize showStop s n 3 cause stop = u at *
  have hraised : Raised s (raiseSpc u n 0 0) [(16 * (lead s n).val, 0)] :=
    hlead ▸ (Raised.of_eq (by rw [hregs])).trans (.raise u _ 0)
  have hstopped : BecomesStopped n cause stop s (raiseSpc u n 0 0) :=
    ⟨⟨_, _, by rw [hregs]; rfl⟩, hshows, haborted, ⟨[], hraised⟩, fun a _ ha => hreg a ha⟩
  extract_lets raised a
  split
  · exact hstopped.readied _ _ _
  · exact hstopped

end Sys2Proof.Machine
end

