-- ==== Sys2Proof/Proofs/LineFrame.lean ====
section
/-!
PROOFS. The frame of the parts of a line sync (R113, R123, R278, R281): what the lines consumed and served, the posts, the
captures and the rows that the checkpoint unit reads leave as it was.
-/

namespace Sys2Proof.Machine

/-- A controller without the parts that lines, posts, captures and snapshots keep in it. -/
def SpanCtl.lineless (c : SpanCtl) : SpanCtl :=
  { c with behind := 0, served := none, snap := none, caps := [], red := [], redIn := [], firstLine := none }

/-- Of the arrays nothing but what the joints deliver next changes, the micro-sequencers stand, and so do the controllers
but for their lines and which spans' sets are closed. -/
structure LineKeeps (s t : State) : Prop where
  array : ∀ m, ∃ e, t.array m = { s.array m with xPrev := e }
  micros : t.micros = s.micros
  ctl : ∀ m, (t.ctl m).lineless = (s.ctl m).lineless
  closed : ∀ m, (t.ext m).closed = (s.ext m).closed

namespace LineKeeps

variable {s t u : State}

/-! ## Updates of the state -/

theorem of_eq (harrays : t.arrays = s.arrays) (hmicros : t.micros = s.micros) (hctls : t.ctls = s.ctls) (hrx : t.rx = s.rx) :
    LineKeeps s t :=
  ⟨fun m => ⟨(s.array m).xPrev, by rw [State.array, harrays]; rfl⟩, hmicros, fun m => by rw [State.ctl, hctls]; rfl,
    fun m => by rw [State.ext, hrx]; rfl⟩

theorem refl (s : State) : LineKeeps s s := .of_eq rfl rfl rfl rfl

theorem trans (h : LineKeeps s t) (k : LineKeeps t u) : LineKeeps s u := by
  refine ⟨fun m => ?_, k.micros.trans h.micros, fun m => (k.ctl m).trans (h.ctl m), fun m => (k.closed m).trans (h.closed m)⟩
  obtain ⟨_, hm⟩ := h.array m
  obtain ⟨e, km⟩ := k.array m
  exact ⟨e, by rw [km, hm]⟩

theorem ite {c : Prop} {_ : Decidable c} (ht : LineKeeps s t) (hu : LineKeeps s u) : LineKeeps s (if c then t else u) := by
  split <;> assumption

theorem foldl {α : Type} {f : State → α → State} (h : LineKeeps s t) (hf : ∀ t x, LineKeeps t (f t x)) (xs : List α) :
    LineKeeps s (xs.foldl f t) :=
  List.foldlRecOn xs f h (fun t ht x _ => ht.trans (hf t x))

section

variable (h : LineKeeps s t)

include h

theorem setFld (a : Nat) (f : Fld) (v : Nat) : LineKeeps s (t.setFld a f v) := h.trans (.of_eq rfl rfl rfl rfl)

theorem bump (a : Nat) (f : Fld) (k : Nat := 1) : LineKeeps s (t.bump a f k) := h.trans (.of_eq rfl rfl rfl rfl)

theorem raise (src : Nat) (pay : BitVec 32) : LineKeeps s (t.raise src pay) := h.trans (.of_eq rfl rfl rfl rfl)

theorem writeLE (a n v : Nat) : LineKeeps s (t.writeLE a n v) := h.trans (.of_eq rfl rfl rfl rfl)

theorem setRegion (m : Fin 17) (x : Region) : LineKeeps s (t.setRegion m x) := h.trans (.of_eq rfl rfl rfl rfl)

theorem strandSend (east : Bool) (msg : StrandMsg) : LineKeeps s (Machine.strandSend t east msg) :=
  h.trans (.of_eq rfl rfl rfl rfl)

theorem setCtl {n : Fin 17} {c : SpanCtl} (hc : c.lineless = (t.ctl n).lineless := by rfl) : LineKeeps s (t.setCtl n c) := by
  refine h.trans ⟨fun m => ⟨_, rfl⟩, rfl, fun m => ?_, fun m => rfl⟩
  by_cases hm : m = n
  · rw [hm, State.setCtl_ctl_self, hc]
  · rw [State.setCtl_ctl_ne _ _ hm]

theorem setExt {n : Fin 17} {x : Extraction} (hx : x.closed = (t.ext n).closed := by rfl) : LineKeeps s (t.setExt n x) := by
  refine h.trans ⟨fun m => ⟨_, rfl⟩, rfl, fun m => rfl, fun m => ?_⟩
  by_cases hm : m = n
  · rw [hm, State.setExt_ext_self, hx]
  · rw [State.setExt_ext_ne _ _ hm]

theorem setXPrev (n : Fin 17) (e : BitVec 64) : LineKeeps s (t.setArray n { t.array n with xPrev := e }) := by
  refine h.trans ⟨fun m => ?_, rfl, fun m => rfl, fun m => rfl⟩
  by_cases hm : m = n
  · exact ⟨e, by rw [hm, State.setArray_array_self]⟩
  · exact ⟨_, State.setArray_array_ne _ _ hm⟩

/-! ## Rows that the checkpoint unit and the strand interface read -/

theorem parityReport (m row : Nat) (groups : List Nat) (onWrite : Bool) :
    LineKeeps s (Machine.parityReport t m row groups onWrite) := by
  unfold Machine.parityReport
  split
  · exact h
  · extract_lets a counted shown
    have hcounted : LineKeeps s counted := h.bump _ _ _
    have hshown : LineKeeps s shown := .ite (hcounted.setFld _ _ _)
      (((((hcounted.setFld _ _ _).setFld _ _ _).setFld _ _ _).setFld _ _ _).setFld _ _ _)
    exact hshown.raise _ _

theorem snapRowRead (n : Fin 17) : LineKeeps s (Machine.snapRowRead t n) := by
  unfold Machine.snapRowRead
  split
  · exact h
  · refine .ite h (setCtl ?_)
    exact List.foldlRecOn (motive := fun x : List (BitVec 16384) × State => LineKeeps s x.2) _ _ h
      (fun _ hx m _ => hx.parityReport m _ _ _)

theorem retime (ms : List (Fin 17)) : LineKeeps s (Machine.retime t ms) := h.foldl (fun t m => (refl t).setXPrev m _) ms

theorem captureSend (m : Fin 17) : LineKeeps s (Machine.captureSend t m) :=
  h.setCtl.foldl (fun t _ => .ite (strandSend (.ite ((refl t).strandSend _ _) (refl t)) _ _)
    (.ite ((refl t).strandSend _ _) (refl t))) _

theorem captureRead (n : Fin 17) : LineKeeps s (Machine.captureRead t n) := by
  refine h.foldl (fun t m => ?_) _
  split
  · exact (refl t).captureSend m
  · exact ((refl t).parityReport m _ _ _).setCtl.captureSend m

theorem snapRead (n : Fin 17) : LineKeeps s (Machine.snapRead t n) := by
  unfold Machine.snapRead
  split
  · exact .ite (h.snapRowRead n) (h.captureRead n)
  · exact h.captureRead n

/-! ## Lines -/

theorem consumeEntries (m : Fin 17) (k : Nat) : LineKeeps s (Machine.consumeEntries t m k) :=
  (((((h.foldl (fun t _ => (refl t).writeLE _ _ _) _).setRegion _ _).setFld _ _ _).setFld _ _ _).setFld _ _ _)

theorem consumeAll (ms : List (Fin 17)) (k : Nat) :
    LineKeeps s (ms.foldl (fun s m => Machine.consumeEntries s m k) t) :=
  h.foldl (fun t m => (refl t).consumeEntries m k) ms

theorem nameLine (n : Fin 17) (ord : Nat) (l : GroupLine) : LineKeeps s (Machine.nameLine t n ord l) :=
  (h.foldl (fun t m => (refl t).setExt.setCtl) _).setCtl

theorem skipTo (n : Fin 17) : LineKeeps s (Machine.skipTo t n) := by
  unfold Machine.skipTo
  split
  · exact h
  · exact (h.foldl (fun t m => (refl t).consumeEntries m _) _).setCtl

theorem ageCheckpoints (n : Fin 17) : LineKeeps s (Machine.ageCheckpoints t n) :=
  (h.foldl (fun t _ => .ite ((refl t).bump _ _) (refl t)) _).setCtl

theorem startCapture (m : Fin 17) (ord : Nat) (line : Option (BitVec 64)) :
    LineKeeps s (Machine.startCapture t m ord line) := .ite h.setCtl h

theorem redSend (n : Fin 17) (ord : Nat) : LineKeeps s (Machine.redSend t n ord) := by
  unfold Machine.redSend
  split
  · exact h
  · split
    · exact h
    · exact setCtl (.ite (strandSend (.ite (h.strandSend _ _) h) _ _) (.ite (h.strandSend _ _) h))

theorem redLeave (n : Fin 17) : LineKeeps s (Machine.redLeave t n) :=
  h.setCtl.foldl (fun t k => (refl t).redSend n k) _

end

theorem readRest (h : LineKeeps s t) (n : Fin 17) (k : Nat) : LineKeeps s (Machine.readRest n k t) := by
  induction k generalizing t with
  | zero => exact h
  | succ k ih => exact ih (h.snapRowRead n)

theorem refreshServed (h : LineKeeps s t) (fuel : Nat) (n : Fin 17) : LineKeeps s (Machine.refreshServed fuel t n) := by
  induction fuel generalizing t with
  | zero => exact h
  | succ fuel ih =>
    unfold Machine.refreshServed
    refine .ite h ?_
    extract_lets ms
    split
    · exact h
    · extract_lets taken named
      have hnamed : LineKeeps s named := (h.consumeAll ms _).nameLine n _ _
      exact .ite hnamed.setCtl (ih (hnamed.consumeAll ms 1).setCtl)

/-! ## What the frame keeps -/

section

variable (h : LineKeeps s t)

include h

theorem rows (m : Fin 17) : (t.array m).rows = (s.array m).rows := by
  obtain ⟨_, hm⟩ := h.array m
  rw [hm]

theorem x (m : Fin 17) : (t.array m).x = (s.array m).x := by
  obtain ⟨_, hm⟩ := h.array m
  rw [hm]

theorem port (m : Fin 17) : (t.array m).port = (s.array m).port := by
  obtain ⟨_, hm⟩ := h.array m
  rw [hm]

theorem micro (m : Fin 17) : t.micro m = s.micro m := by rw [State.micro, h.micros]; rfl

/-- A part of a controller that the frame keeps. -/
theorem ctlPart {α : Type} (part : SpanCtl → α) (hpart : ∀ c, part c.lineless = part c := by intro; rfl) (m : Fin 17) :
    part (t.ctl m) = part (s.ctl m) := by rw [← hpart, h.ctl, hpart]

end

end LineKeeps

end Sys2Proof.Machine
end

