-- ==== Sys2Proof/Proofs/SpanQueue.lean ====
section
/-!
PROOFS. Entries of the issue queue, results of the ALUs, checkpoints and messages of a span controller (R98, R100, R111,
R113, R121-R124, R128).
-/

namespace Sys2Proof.Machine

/-! ## Results of the ALUs -/

/-- The oldest result under way in an ALU lands. -/
def Alu.land (a : Alu) (p : AluResult) (r : List AluResult) : Alu :=
  { a with r := p.value, f := applyFlags a.f p.mask p.flags, pend := r }

theorem applyFlags_getLsbD (old mask flags : BitVec 3) {i : Nat} (hi : i < 3) :
    (applyFlags old mask flags).getLsbD i = if mask.getLsbD i then flags.getLsbD i else old.getLsbD i := by
  simp only [applyFlags, BitVec.getLsbD_or, BitVec.getLsbD_and, BitVec.getLsbD_not, hi, decide_true, Bool.true_and]
  cases mask.getLsbD i <;> simp

theorem execAluResultReady_alu0 {n : Fin 17} {s : State} {p : AluResult} {r : List AluResult}
    (h : (s.ctl n).alu0.pend = p :: r) :
    execAluResultReady n 0 s = .next (s.setCtl n { s.ctl n with alu0 := (s.ctl n).alu0.land p r }) := by
  simp only [execAluResultReady, h]
  rfl

theorem execAluResultReady_alu1 {n : Fin 17} {s : State} {p : AluResult} {r : List AluResult}
    (h : (s.ctl n).alu1.pend = p :: r) :
    execAluResultReady n 1 s = .next (s.setCtl n { s.ctl n with alu1 := (s.ctl n).alu1.land p r }) := by
  simp only [execAluResultReady, h]
  rfl

/-! ## Line syncs -/

theorem leaveSet_only (s : State) (n : Fin 17) : ∃ regs rx, leaveSet s n = { s with regs := regs, rx := rx } := by
  unfold leaveSet
  extract_lets c counted
  have hcounted : ∃ regs, counted = { s with regs := regs } := by
    unfold counted
    split
    · exact ⟨_, rfl⟩
    · exact ⟨s.regs, rfl⟩
  obtain ⟨regs, hcounted⟩ := hcounted
  split
  · exact ⟨_, _, rfl⟩
  · refine List.foldlRecOn (motive := fun t : State => ∃ regs rx, t = { s with regs := regs, rx := rx }) _ _
      ⟨regs, s.rx, hcounted⟩ fun t ht m _ => ?_
    obtain ⟨r, x, rfl⟩ := ht
    dsimp only
    split
    · exact ⟨_, _, rfl⟩
    · split
      · exact ⟨_, _, rfl⟩
      · exact ⟨_, _, rfl⟩

/-- The array leaves its line: the line served is consumed with its set, its posts leave, and the checkpoints age. -/
def leaveLine (s : State) (n : Fin 17) : State :=
  let c := s.ctl n
  let left := if c.syncs = 0 then skipTo s n else leaveSet s n
  let consumed := match c.served with
    | none => left
    | some l =>
      let named (r : RedLine) : RedLine := if r.ord = c.syncs then { r with index := some l.index } else r
      (domainOf s n).foldl (fun s m => consumeEntries s m 1) (left.setCtl n { left.ctl n with red := c.red.map named })
  ageCheckpoints (redLeave consumed n) n

/-- The plane ports of the spans `ms` are empty and take planes of a new set. -/
def openPorts (s : State) (ms : List (Fin 17)) : State :=
  ms.foldl (fun s m => (s.setExt m { s.ext m with closed := false }).setArray m { s.array m with port := [] }) s

/-- The entry leaves the queue `q` behind it, and the controller counts the line sync. -/
def countSync (s : State) (n : Fin 17) (q : List QueueEntry) : State :=
  let c := s.ctl n
  let late := c.syncs ≠ 0 && c.served.isNone
  let s := s.setCtl n { c with queue := q, syncs := c.syncs + 1, served := none, taken := 0, set := none,
                               behind := if late then c.behind + 1 else c.behind,
                               drain := if c.drain = 1 then 2 else c.drain }
  s.setMicro n { s.micro n with gorFresh := false }

/-- The plane ports turn to the next line, and its captures start. -/
def takeLine (s : State) (n : Fin 17) (ms : List (Fin 17)) : State :=
  let s := refreshServed 600 s n
  let label := (s.ctl n).served.map (·.index)
  snapRead (retime (ms.foldl (fun s m => startCapture s m (s.ctl n).syncs label) s) ms) n

theorem execLineSync_front {n : Fin 17} {s : State} {q : List QueueEntry} (hfront : queueFront s n = some (.lineSync, q))
    (hcaps : ∀ m ∈ domainOf s n, ∀ c ∈ (s.ctl m).caps, c.count ≤ c.west.length) :
    execLineSync n s =
      .next (takeLine (countSync (openPorts (leaveLine s n) (domainOf s n)) n q) n (domainOf s n)) := by
  have hread : ((domainOf s n).any fun m => (s.ctl m).caps.any fun c => decide (c.west.length < c.count)) = false := by
    simp only [List.any_eq_false, List.any_eq_true, decide_eq_true_eq, not_exists, not_and, not_lt]
    exact hcaps
  unfold execLineSync
  simp only [hfront, hread, Bool.false_eq_true, if_false]
  rfl

theorem leaveLine_keeps (s : State) (n : Fin 17) : ∃ rx, LineKeeps { s with rx := rx } (leaveLine s n) := by
  unfold leaveLine
  extract_lets c left named consumed
  have hleft : ∃ rx, LineKeeps { s with rx := rx } left := by
    unfold left
    split
    · exact ⟨s.rx, (LineKeeps.refl s).skipTo n⟩
    · obtain ⟨regs, rx, h⟩ := leaveSet_only s n
      exact ⟨rx, h ▸ .of_eq rfl rfl rfl rfl⟩
  obtain ⟨rx, hleft⟩ := hleft
  refine ⟨rx, (LineKeeps.redLeave ?_ n).ageCheckpoints n⟩
  unfold consumed
  split
  · exact hleft
  · exact hleft.setCtl.consumeAll _ 1

theorem openPorts_only (s : State) (ms : List (Fin 17)) :
    ∃ arrays rx, openPorts s ms = { s with arrays := arrays, rx := rx } :=
  List.foldlRecOn (motive := fun t : State => ∃ arrays rx, t = { s with arrays := arrays, rx := rx }) ms _
    ⟨s.arrays, s.rx, rfl⟩ fun t ht m _ => by
      obtain ⟨_, _, rfl⟩ := ht
      exact ⟨_, _, rfl⟩

theorem openPorts_rows (s : State) (ms : List (Fin 17)) (k : Fin 17) : ((openPorts s ms).array k).rows = (s.array k).rows :=
  List.foldlRecOn (motive := fun t : State => (t.array k).rows = (s.array k).rows) ms _ rfl fun t ht m _ => by
    by_cases hk : k = m
    · subst hk
      rw [State.setArray_array_self]
      exact ht
    · rw [State.setArray_array_ne _ _ hk]
      exact ht

theorem openPorts_open (s : State) (ms : List (Fin 17)) :
    ∀ m ∈ ms, ((openPorts s ms).array m).port = [] ∧ ((openPorts s ms).ext m).closed = false := by
  refine foldl_each (P := fun m (t : State) => (t.array m).port = [] ∧ (t.ext m).closed = false) (fun t m => ?_)
    (fun t m k h => ?_) ms s
  · rw [State.setArray_array_self, State.setArray_ext, State.setExt_ext_self]
    exact ⟨rfl, rfl⟩
  · by_cases hk : k = m
    · rw [hk, State.setArray_array_self, State.setArray_ext, State.setExt_ext_self]
      exact ⟨rfl, rfl⟩
    · rw [State.setArray_array_ne _ _ hk, State.setArray_ext, State.setExt_ext_ne _ _ hk]
      exact h

theorem countSync_ctl_self (s : State) (n : Fin 17) (q : List QueueEntry) :
    ((countSync s n q).ctl n).queue = q ∧ ((countSync s n q).ctl n).syncs = (s.ctl n).syncs + 1 ∧
      ((countSync s n q).ctl n).taken = 0 ∧ ((countSync s n q).ctl n).set = none := by
  simp only [countSync, State.setMicro_ctl, State.setCtl_ctl_self, and_self]

theorem countSync_ctl_vg (s : State) (n : Fin 17) (q : List QueueEntry) (m : Fin 17) :
    ((countSync s n q).ctl m).v = (s.ctl m).v ∧ ((countSync s n q).ctl m).g = (s.ctl m).g := by
  unfold countSync
  rw [State.setMicro_ctl]
  by_cases hm : m = n
  · subst hm
    rw [State.setCtl_ctl_self]
    exact ⟨rfl, rfl⟩
  · rw [State.setCtl_ctl_ne _ _ hm]
    exact ⟨rfl, rfl⟩

theorem takeLine_keeps (s : State) (n : Fin 17) (ms : List (Fin 17)) : LineKeeps s (takeLine s n ms) :=
  ((((LineKeeps.refl s).refreshServed 600 n).foldl (fun t m => (LineKeeps.refl t).startCapture m _ _) ms).retime ms).snapRead n

/-! ## Tokens and snapshots -/

theorem execTokenReached_front {n : Fin 17} {s : State} {q : List QueueEntry} {v : BitVec 16}
    (hfront : queueFront s n = some (.token v, q)) :
    execTokenReached n s = .next (snapRead (retime (s.setCtl n { s.ctl n with queue := q, done := v })
      (domainOf (s.setCtl n { s.ctl n with queue := q, done := v }) n)) n) := by
  simp only [execTokenReached, hfront]

/-- `CKPT_STAT` of the spans `ms` shows a snapshot being copied. -/
def showCopying (s : State) (ms : List (Fin 17)) : State :=
  ms.foldl (fun s m => s.setFld (Reg.CKPT_STAT m) F.CKPT_STAT_BUSY 1) s

theorem showCopying_regsOnly (s : State) (ms : List (Fin 17)) : RegsOnly s (showCopying s ms) :=
  .foldl (fun t _ => (RegsOnly.refl t).setFld _ _ _) (.refl s) _

theorem showCopying_busy (s : State) (ms : List (Fin 17)) :
    ∀ m ∈ ms, (showCopying s ms).fld (Reg.CKPT_STAT m) F.CKPT_STAT_BUSY = 1 := by
  have hself (t : State) (m : Nat) :
      (t.setFld (Reg.CKPT_STAT m) F.CKPT_STAT_BUSY 1).fld (Reg.CKPT_STAT m) F.CKPT_STAT_BUSY = 1 :=
    t.setFld_fld_self _ _ ⟨by decide, by decide⟩ 1
  intro m hm
  refine foldl_each (P := fun m (t : State) => t.fld (Reg.CKPT_STAT m) F.CKPT_STAT_BUSY = 1) hself (fun t m k h => ?_) _ s
    m.val (mem_coe_of_mem hm)
  by_cases hk : k = m
  · exact hk ▸ hself t m
  · rw [State.setFld_fld_ne _ _ _ _ (by simp only [Reg.CKPT_STAT]; omega)]
    exact h

/-- A cycle in which a snapshot's copy begins. -/
theorem retime_showCopying_shows (s : State) (ms : List (Fin 17)) :
    (retime (showCopying s ms) ms).ctls = s.ctls ∧ (retime (showCopying s ms) ms).mem = s.mem ∧
      (retime (showCopying s ms) ms).raises = s.raises ∧
      ∀ m ∈ ms, (retime (showCopying s ms) ms).fld (Reg.CKPT_STAT m) F.CKPT_STAT_BUSY = 1 := by
  have hbusy := showCopying_busy s ms
  obtain ⟨_, hshown⟩ := showCopying_regsOnly s ms
  obtain ⟨_, hretimed⟩ := retime_only (showCopying s ms) ms
  rw [hretimed]
  refine ⟨?_, ?_, ?_, hbusy⟩ <;> rw [hshown]

/-- The snapshot of rows `b` to `b + k - 1` that takes line `l` as its label, no row read as yet (R122, R123). -/
def snapshotOf (b : BitVec 11) (k : BitVec 7) (l : GroupLine) : Snapshot :=
  { base := b, count := k.toNat, line := l.index, age := 0, rows := [] }

theorem execSnapshotEntry_taken {n : Fin 17} {ups : List Upset} {s s1 : State} {q : List QueueEntry} {b : BitVec 11}
    {k : BitVec 7} {l : GroupLine} (hs : applyUpsets s ups = s1) (hfront : queueFront s1 n = some (.snapshot b k, q))
    (hsnap : (s1.ctl n).snap = none) (hserved : (s1.ctl n).served = some l) :
    execSnapshotEntry n ups s = .next (retime (showCopying
      (s1.setCtl n { s1.ctl n with queue := q, snap := some (snapshotOf b k l) }) (domainOf s1 n)) (domainOf s1 n)) := by
  unfold execSnapshotEntry
  simp only [hs, hfront, hsnap, hserved]
  rfl

/-! ## Messages -/

/-- The message of the span controllers that a packet brings (R121). -/
def spanMsgOf (p : Packet) : SpanMsg :=
  { tag := p.stag, words := Vector.ofFn (fun i => BitVec.ofNat 32 (leNat ((p.data.drop (4 * i.val)).take 4))) }

/-- The causeway with a packet taken from its inbox. -/
def Causeway.takeMessage (w : Causeway) (p : Packet) : Causeway :=
  if w.c0.contains p then { w with c0 := w.c0.erase p } else { w with msgs := w.msgs.erase p }

theorem execCwMessageArrive_room {n : Fin 17} {s : State} {p : Packet}
    (hp : (s.cw.c0 ++ s.cw.msgs).find? (fun p => p.dst.val == n.val) = some p) (hroom : (s.ctl n).inbox.length < 4) :
    execCwMessageArrive n s = .next ((modifyCw s (·.takeMessage p)).setCtl n
      { s.ctl n with inbox := (s.ctl n).inbox ++ [spanMsgOf p] }) := by
  unfold execCwMessageArrive
  simp only [hp, if_neg (show ¬4 ≤ (s.ctl n).inbox.length by omega)]
  rfl

/-! ## Checkpoints -/

/-- The checkpoint unit reads rows of a snapshot: it writes the rows into the snapshot and reports their parity. -/
structure RowsRead (n : Fin 17) (s t : State) : Prop where
  only : ∃ regs ctls raises, t = { s with regs := regs, ctls := ctls, raises := raises }
  reg : ∀ a, (∀ m, a ≠ Reg.ARR_PAR_STAT m ∧ a ≠ Reg.ARR_PAR_COUNT m) → t.reg a = s.reg a
  snap : ∀ c, (s.ctl n).snap = some c → ∃ rows, (t.ctl n).snap = some { c with rows := rows }

theorem RowsRead.refl (n : Fin 17) (s : State) : RowsRead n s s := ⟨⟨_, _, _, rfl⟩, fun _ _ => rfl, fun c h => ⟨c.rows, h⟩⟩

theorem RowsRead.trans {n : Fin 17} {s t u : State} (h : RowsRead n s t) (k : RowsRead n t u) : RowsRead n s u := by
  refine ⟨?_, fun a ha => (k.reg a ha).trans (h.reg a ha), fun c hc => ?_⟩
  · obtain ⟨_, _, _, rfl⟩ := h.only
    obtain ⟨r, c, e, rfl⟩ := k.only
    exact ⟨r, c, e, rfl⟩
  · obtain ⟨_, ht⟩ := h.snap c hc
    obtain ⟨rows, hu⟩ := k.snap _ ht
    exact ⟨rows, hu⟩

theorem parityReport_rowsRead (n : Fin 17) (s : State) (m row : Nat) (groups : List Nat) (onWrite : Bool) :
    RowsRead n s (parityReport s m row groups onWrite) ∧ (parityReport s m row groups onWrite).ctls = s.ctls := by
  have hset (t : State) (f : Fld) (v : Nat) : RowsRead n t (t.setFld (Reg.ARR_PAR_STAT m) f v) :=
    ⟨⟨_, _, _, rfl⟩, fun a ha => State.setFld_reg_ne t f v (ha m).1, fun c h => ⟨c.rows, h⟩⟩
  unfold parityReport
  split
  · exact ⟨.refl n s, rfl⟩
  · extract_lets a counted shown
    have hcounted : RowsRead n s counted :=
      ⟨⟨_, _, _, rfl⟩, fun a ha => State.bump_reg_ne s _ _ (ha m).2, fun c h => ⟨c.rows, h⟩⟩
    have hshown : RowsRead n counted shown ∧ shown.ctls = s.ctls := by
      unfold shown
      split
      · exact ⟨hset _ _ _, rfl⟩
      · exact ⟨((((hset _ _ _).trans (hset _ _ _)).trans (hset _ _ _)).trans (hset _ _ _)).trans (hset _ _ _), rfl⟩
    exact ⟨(hcounted.trans hshown.1).trans ⟨⟨_, _, _, rfl⟩, fun _ _ => rfl, fun c h => ⟨c.rows, h⟩⟩, hshown.2⟩

theorem snapRowRead_rowsRead (n : Fin 17) (s : State) : RowsRead n s (snapRowRead s n) := by
  unfold snapRowRead
  split
  · exact .refl n s
  · next c hc =>
    split
    · exact .refl n s
    · extract_lets row r
      have hr : RowsRead n s r.2 ∧ r.2.ctls = s.ctls := by
        refine List.foldlRecOn (motive := fun x : List (BitVec 16384) × State => RowsRead n s x.2 ∧ x.2.ctls = s.ctls) _ _
          ⟨.refl n s, rfl⟩ fun x hx m _ => ?_
        obtain ⟨hread, hctls⟩ := parityReport_rowsRead n x.2 m row (badGroups (x.2.array m) row) false
        exact ⟨hx.1.trans hread, hctls.trans hx.2⟩
      obtain ⟨⟨⟨_, _, _, honly⟩, hreg, -⟩, -⟩ := hr
      refine ⟨⟨_, _, _, by rw [honly]; rfl⟩, hreg, fun d hd => ⟨c.rows ++ [r.1], ?_⟩⟩
      rw [State.setCtl_ctl_self, ← Option.some.inj (hc.symm.trans hd)]

theorem readRest_rowsRead (n : Fin 17) (k : Nat) (s : State) : RowsRead n s (readRest n k s) := by
  induction k generalizing s with
  | zero => exact .refl n s
  | succ k ih => exact (snapRowRead_rowsRead n s).trans (ih _)

/-- `CKPT_STAT` and `CKPT_LINE` of span `m` show slot `j` with header `h`; the age is that of the checkpoint just written
where `k` is its slot (R132). -/
def showCheckpoint (s : State) (m : Fin 17) (j k : Fin 2) (h : CkptHeader) (age : Nat) : State :=
  let st := Reg.CKPT_STAT m
  let s := (((s.setFld st F.CKPT_STAT_VALID 1).setFld st F.CKPT_STAT_SLOT j.val).setFld st F.CKPT_STAT_BUSY 0).setFld st
    F.CKPT_STAT_COUNT h.count
  let s := if j = k then s.setFld st F.CKPT_STAT_AGE age else s
  s.setReg64 (Reg.CKPT_LINE_LO m) (Reg.CKPT_LINE_HI m) h.line

/-- The registers that show the checkpoint of span `m`. -/
def checkpointRegs (m : Nat) : List Nat := [Reg.CKPT_STAT m, Reg.CKPT_LINE_LO m, Reg.CKPT_LINE_HI m]

/-- The slot that a checkpoint goes into: the one that is not the newest (R124). -/
def freeSlot (h0 h1 : CkptHeader) : Fin 2 := if newestSlot h0 h1 = some 0 then 1 else 0

/-- The newest slot of an area in whose slot `k` header `h` has taken its place. -/
def shownSlot (h0 h1 h : CkptHeader) (k : Fin 2) : Fin 2 := (if k = 0 then newestSlot h h1 else newestSlot h0 h).getD k

/-- The header of that newest slot. -/
def shownHeader (h0 h1 h : CkptHeader) (k : Fin 2) : CkptHeader :=
  if shownSlot h0 h1 h k = k then h else if shownSlot h0 h1 h k = 0 then h0 else h1

/-- In an area without a complete slot, slot 0 is taken and then shown. -/
theorem shownSlot_first {h0 h1 : CkptHeader} (h : CkptHeader) (hzero : h0.good = false) (hone : h1.good = false) :
    freeSlot h0 h1 = 0 ∧ shownSlot h0 h1 h 0 = 0 ∧ shownHeader h0 h1 h 0 = h := by
  have hslot : shownSlot h0 h1 h 0 = 0 := by
    cases hgood : h.good <;> simp [shownSlot, newestSlot, hone, hgood]
  exact ⟨by simp [freeSlot, newestSlot, hzero, hone], hslot, if_pos hslot⟩

/-- A checkpoint's rows and header go to the piers, and then the registers show the newest slot. -/
theorem writeCheckpoint_shows (s : State) (m : Fin 17) (c : Snapshot) (rows : List (BitVec 16384)) :
    ∃ t h, PierAccess s t ∧ h.count = c.count ∧ h.line = c.line ∧
      let r := readHeaders s (Win.piers + 4096 * s.fld (Reg.CKPT_CTL m) F.CKPT_CTL_BASE)
      let k := freeSlot r.1 r.2.1
      writeCheckpoint s m c rows =
        showCheckpoint t m (shownSlot r.1 r.2.1 h k) k (shownHeader r.1 r.2.1 h k) (min c.age 0xFFFF) :=
  ⟨_, { line := c.line, base := c.base, count := c.count, complete := true, tag := _, seq := _, crc := _ },
    ((((PierAccess.refl s).readHeaders _).areaWrite 2 _ _).areaWrite 512 _ _).areaWrite 2 _ _, rfl, rfl, rfl⟩

section

variable (s : State) (m : Fin 17) (j k : Fin 2) (h : CkptHeader) (age : Nat)

theorem showCheckpoint_onlyRegs : OnlyRegs (checkpointRegs m) s (showCheckpoint s m j k h age) := by
  have hst : Reg.CKPT_STAT m ∈ checkpointRegs m := by simp [checkpointRegs]
  have hlo : Reg.CKPT_LINE_LO m ∈ checkpointRegs m := by simp [checkpointRegs]
  have hhi : Reg.CKPT_LINE_HI m ∈ checkpointRegs m := by simp [checkpointRegs]
  unfold showCheckpoint
  extract_lets st shown aged
  have hshown : OnlyRegs (checkpointRegs m) s shown :=
    (((OnlyRegs.setFld s _ _ hst).trans (.setFld _ _ _ hst)).trans (.setFld _ _ _ hst)).trans (.setFld _ _ _ hst)
  have haged : OnlyRegs (checkpointRegs m) s aged := by
    unfold aged
    split
    · exact hshown.trans (.setFld _ _ _ hst)
    · exact hshown
  exact haged.trans ((OnlyRegs.setReg _ _ hlo).trans (.setReg _ _ hhi))

theorem showCheckpoint_stat : (showCheckpoint s m j k h age).fld (Reg.CKPT_STAT m) F.CKPT_STAT_VALID = 1 ∧
    (showCheckpoint s m j k h age).fld (Reg.CKPT_STAT m) F.CKPT_STAT_BUSY = 0 ∧
    (showCheckpoint s m j k h age).fld (Reg.CKPT_STAT m) F.CKPT_STAT_SLOT = j.val ∧
    (showCheckpoint s m j k h age).fld (Reg.CKPT_STAT m) F.CKPT_STAT_COUNT = h.count % 128 := by
  have hlo : Reg.CKPT_STAT m ≠ Reg.CKPT_LINE_LO m := by simp only [Reg.CKPT_STAT, Reg.CKPT_LINE_LO]; omega
  have hhi : Reg.CKPT_STAT m ≠ Reg.CKPT_LINE_HI m := by simp only [Reg.CKPT_STAT, Reg.CKPT_LINE_HI]; omega
  have hage (t : State) (f : Fld) (hf : f.lo ≤ f.hi) (h16 : 16 ≤ f.lo) :
      (if j = k then t.setFld (Reg.CKPT_STAT m) F.CKPT_STAT_AGE age else t).fld (Reg.CKPT_STAT m) f =
        t.fld (Reg.CKPT_STAT m) f := by
    split
    · exact setFld_fld_apart _ _ _ _ _ (by decide) hf (.inr h16)
    · rfl
  unfold showCheckpoint State.setReg64
  simp only [State.setReg_fld_ne _ _ _ hlo, State.setReg_fld_ne _ _ _ hhi]
  simp (disch := decide) only [hage, setFld_fld_apart, setFld_fld_fits, true_and]
  exact ⟨setFld_fld_fits _ _ _ _ (by decide) j.isLt, State.setFld_fld_self _ _ _ ⟨by decide, by decide⟩ _⟩

theorem showCheckpoint_line :
    (showCheckpoint s m j k h age).reg64 (Reg.CKPT_LINE_LO m) (Reg.CKPT_LINE_HI m) = h.line :=
  reg64_setReg64 _ _ (by simp only [Reg.CKPT_LINE_LO, Reg.CKPT_LINE_HI]; omega)

end

theorem writeCheckpoint_reg (s : State) (m : Fin 17) (c : Snapshot) (rows : List (BitVec 16384)) {a : Nat}
    (ha : a < 0x4500000000) (hm : a ∉ checkpointRegs m) : (writeCheckpoint s m c rows).reg a = s.reg a := by
  obtain ⟨u, h, hu, -, -, hw⟩ := writeCheckpoint_shows s m c rows
  rw [hw]
  exact (showCheckpoint_onlyRegs u m _ _ _ _ a hm).trans (hu.reg a ha)

/-- A span shows a valid checkpoint and no copy under way. -/
def ShowsValid (m : Fin 17) (s : State) : Prop :=
  s.fld (Reg.CKPT_STAT m) F.CKPT_STAT_VALID = 1 ∧ s.fld (Reg.CKPT_STAT m) F.CKPT_STAT_BUSY = 0

theorem writeCheckpoint_valid (s : State) (m : Fin 17) (c : Snapshot) (rows : List (BitVec 16384)) :
    ShowsValid m (writeCheckpoint s m c rows) := by
  obtain ⟨u, h, -, -, -, hw⟩ := writeCheckpoint_shows s m c rows
  obtain ⟨hvalid, hbusy, -, -⟩ := showCheckpoint_stat u m _ _ _ _
  exact hw ▸ ⟨hvalid, hbusy⟩

theorem CKPT_STAT_lt (m : Fin 17) : Reg.CKPT_STAT m < 0x4500000000 := by
  simp only [Reg.CKPT_STAT]
  omega

/-- Every span of the list writes its checkpoint of snapshot `c`, from its own planes of the rows. -/
def copyAll (c : Snapshot) (l : List (Fin 17 × Nat)) (s : State) : State :=
  l.foldl (fun s p => writeCheckpoint s p.1 c (c.rows.map (fun r => r.getD p.2 0))) s

section

variable (c : Snapshot) (l : List (Fin 17 × Nat)) (s : State)

theorem copyAll_reg {a : Nat} (ha : a < 0x4500000000) (hm : ∀ m, a ∉ checkpointRegs m) : (copyAll c l s).reg a = s.reg a :=
  List.foldlRecOn (motive := fun t : State => t.reg a = s.reg a) l _ rfl fun t ht p _ =>
    (writeCheckpoint_reg t p.1 c _ ha (hm p.1)).trans ht

theorem copyAll_valid : ∀ p ∈ l, ShowsValid p.1 (copyAll c l s) := by
  refine foldl_each (P := fun (p : Fin 17 × Nat) t => ShowsValid p.1 t) (fun t p => writeCheckpoint_valid t p.1 c _)
    (fun t p k h => ?_) l s
  by_cases hk : k.1 = p.1
  · show ShowsValid k.1 _
    rw [hk]
    exact writeCheckpoint_valid t p.1 c _
  · have hstat : (writeCheckpoint t p.1 c (c.rows.map (fun r => r.getD p.2 0))).reg (Reg.CKPT_STAT k.1) =
        t.reg (Reg.CKPT_STAT k.1) := by
      refine writeCheckpoint_reg t p.1 c _ (CKPT_STAT_lt k.1) ?_
      simp only [checkpointRegs, List.mem_cons, List.not_mem_nil, or_false, Reg.CKPT_STAT, Reg.CKPT_LINE_LO, Reg.CKPT_LINE_HI]
      omega
    exact ⟨(congrArg _ hstat).trans h.1, (congrArg _ hstat).trans h.2⟩

/-- A span of its own whose area held no complete slot shows slot 0 with the snapshot's line and count. -/
theorem copyAll_single (m : Fin 17) (i : Nat)
    (hzero : (readHeaders s (Win.piers + 4096 * s.fld (Reg.CKPT_CTL m) F.CKPT_CTL_BASE)).1.good = false)
    (hone : (readHeaders s (Win.piers + 4096 * s.fld (Reg.CKPT_CTL m) F.CKPT_CTL_BASE)).2.1.good = false) :
    (copyAll c [(m, i)] s).fld (Reg.CKPT_STAT m) F.CKPT_STAT_COUNT = c.count % 128 ∧
      (copyAll c [(m, i)] s).fld (Reg.CKPT_STAT m) F.CKPT_STAT_SLOT = 0 ∧
      (copyAll c [(m, i)] s).reg64 (Reg.CKPT_LINE_LO m) (Reg.CKPT_LINE_HI m) = c.line := by
  obtain ⟨u, h, -, hcount, hline, hw⟩ := writeCheckpoint_shows s m c (c.rows.map (fun r => r.getD i 0))
  obtain ⟨hfree, hslot, hheader⟩ := shownSlot_first h hzero hone
  have hall : copyAll c [(m, i)] s = showCheckpoint u m 0 0 h (min c.age 0xFFFF) := by
    refine hw.trans ?_
    rw [hfree, hslot, hheader]
  obtain ⟨-, -, hshown, hcounted⟩ := showCheckpoint_stat u m 0 0 h (min c.age 0xFFFF)
  exact hall ▸ ⟨hcount ▸ hcounted, hshown, hline ▸ showCheckpoint_line u m 0 0 h _⟩

end

/-- The snapshot of controller `n` is no longer being copied, and a stop that waited for it comes about (R128). -/
def endCopy (s : State) (n : Fin 17) : State :=
  let s := s.setCtl n { s.ctl n with snap := none }
  if spcState s n = 2 then becomeStopped s n (s.fld (Reg.SPC_STAT n) F.SPC_STAT_CAUSE) 2 else s

theorem execCheckpointCopyDone_through {n : Fin 17} {s : State} {c : Snapshot}
    (hthrough : ∀ m ∈ domainOf s n, copyThrough s false m = true) (hsnap : ((readRest n 64 s).ctl n).snap = some c) :
    execCheckpointCopyDone n s =
      .next (endCopy (copyAll c (domainOf (readRest n 64 s) n).zipIdx (readRest n 64 s)) n) := by
  have hany : ((domainOf s n).any fun m => !copyThrough s false m) = false := by
    simpa only [List.any_eq_false, Bool.not_eq_true', Bool.not_eq_false] using hthrough
  unfold execCheckpointCopyDone
  simp only [hany, hsnap, Bool.false_eq_true, if_false]
  rfl

theorem endCopy_shows (s : State) (n : Fin 17) :
    ((endCopy s n).ctl n).snap = none ∧ (spcState s n = 2 → spcState (endCopy s n) n = 3) ∧
      ∀ a, a ≠ Reg.PL_STAT → (∀ m, a ≠ Reg.SPC_STAT m ∧ a ≠ Reg.SPC_CTL m) → (endCopy s n).reg a = s.reg a := by
  have hcause : (s.setCtl n { s.ctl n with snap := none }).fld (Reg.SPC_STAT n) F.SPC_STAT_CAUSE < 8 :=
    Nat.mod_lt _ (by decide)
  have hnone : ((s.setCtl n { s.ctl n with snap := none }).ctl n).snap = none := by rw [State.setCtl_ctl_self]
  have hstop := becomeStopped_shows (s.setCtl n { s.ctl n with snap := none }) n (stop := 2) hcause (by decide)
  unfold endCopy
  extract_lets u
  split
  · obtain ⟨⟨_, _, honly⟩, hshows, -, -, hreg⟩ := hstop
    refine ⟨?_, fun _ => hshows.1, hreg⟩
    rw [honly]
    exact hnone
  · next hnot => exact ⟨hnone, fun h => absurd h hnot, fun _ _ _ => rfl⟩

/-- A register of a span that is none of those in which the copy of a checkpoint shows. -/
theorem checkpointRegs_far {a : Nat} (h : ∀ m, a ≠ Reg.CKPT_STAT m ∧ a ≠ Reg.CKPT_LINE_LO m ∧ a ≠ Reg.CKPT_LINE_HI m) (m : Nat) :
    a ∉ checkpointRegs m := by
  simpa only [checkpointRegs, List.mem_cons, List.not_mem_nil, or_false, not_or] using h m

theorem checkpointCopy_settled {n : Fin 17} {s : State} {c : Snapshot} (hsnap : (s.ctl n).snap = some c)
    (hthrough : ∀ m ∈ domainOf s n, copyThrough s false m = true) :
    ∃ t, execCheckpointCopyDone n s = .next t ∧ (t.ctl n).snap = none ∧ (spcState s n = 2 → spcState t n = 3) ∧
      (∀ m ∈ domainOf s n, ShowsValid m t) ∧
      let h := readHeaders (readRest n 64 s) (Win.piers + 4096 * s.fld (Reg.CKPT_CTL n) F.CKPT_CTL_BASE)
      (domainOf s n = [n] → h.1.good = false → h.2.1.good = false →
        t.fld (Reg.CKPT_STAT n) F.CKPT_STAT_COUNT = c.count % 128 ∧ t.fld (Reg.CKPT_STAT n) F.CKPT_STAT_SLOT = 0 ∧
        t.reg64 (Reg.CKPT_LINE_LO n) (Reg.CKPT_LINE_HI n) = c.line) := by
  have hread := readRest_rowsRead n 64 s
  obtain ⟨rows, hsnapped⟩ := hread.snap c hsnap
  have hexec := execCheckpointCopyDone_through hthrough hsnapped
  generalize readRest n 64 s = u at *
  have hdomain : domainOf u n = domainOf s n := domainOf_congr (fun m => hread.reg _ fun k => by
    simp only [Reg.ARR_COUPLE, Reg.ARR_PAR_STAT, Reg.ARR_PAR_COUNT]
    omega) n
  rw [hdomain] at hexec
  obtain ⟨hnone, hstop, hreg⟩ := endCopy_shows (copyAll { c with rows := rows } (domainOf s n).zipIdx u) n
  have hstat : (copyAll { c with rows := rows } (domainOf s n).zipIdx u).reg (Reg.SPC_STAT n) = s.reg (Reg.SPC_STAT n) := by
    refine (copyAll_reg _ _ u ?_ (checkpointRegs_far fun m => ?_)).trans (hread.reg _ fun m => ?_)
    all_goals
      simp only [Reg.SPC_STAT, Reg.CKPT_STAT, Reg.CKPT_LINE_LO, Reg.CKPT_LINE_HI, Reg.ARR_PAR_STAT, Reg.ARR_PAR_COUNT]
      omega
  have hshown {a : Nat} (m : Fin 17) (ha : a ∈ checkpointRegs m) :
      (endCopy (copyAll { c with rows := rows } (domainOf s n).zipIdx u) n).reg a =
        (copyAll { c with rows := rows } (domainOf s n).zipIdx u).reg a := by
    simp only [checkpointRegs, List.mem_cons, List.not_mem_nil, or_false, Reg.CKPT_STAT, Reg.CKPT_LINE_LO,
      Reg.CKPT_LINE_HI] at ha
    refine hreg a ?_ fun k => ?_
    all_goals
      simp only [Reg.PL_STAT, Reg.SPC_STAT, Reg.SPC_CTL]
      omega
  have hbase : u.fld (Reg.CKPT_CTL n) F.CKPT_CTL_BASE = s.fld (Reg.CKPT_CTL n) F.CKPT_CTL_BASE :=
    congrArg _ (hread.reg _ fun m => by
      simp only [Reg.CKPT_CTL, Reg.ARR_PAR_STAT, Reg.ARR_PAR_COUNT]
      omega)
  refine ⟨_, hexec, hnone, fun h => hstop ((congrArg F.SPC_STAT_STATE.get hstat).trans h), fun m hm => ?_,
    fun hsingle hzero hone => ?_⟩
  · obtain ⟨i, hi⟩ := List.mem_iff_getElem?.mp hm
    obtain ⟨hvalid, hbusy⟩ := copyAll_valid { c with rows := rows } (domainOf s n).zipIdx u (m, i)
      (List.mk_mem_zipIdx_iff_getElem?.mpr hi)
    have hm := hshown m (List.mem_cons_self ..)
    exact ⟨(congrArg _ hm).trans hvalid, (congrArg _ hm).trans hbusy⟩
  · have hzipped : (domainOf s n).zipIdx = [(n, 0)] := by rw [hsingle]; rfl
    rw [← hbase] at hzero hone
    obtain ⟨hcount, hslot, hline⟩ := copyAll_single { c with rows := rows } u n 0 hzero hone
    rw [← hzipped] at hcount hslot hline
    have hst := hshown n (a := Reg.CKPT_STAT n) (by simp [checkpointRegs])
    have hlo := hshown n (a := Reg.CKPT_LINE_LO n) (by simp [checkpointRegs])
    have hhi := hshown n (a := Reg.CKPT_LINE_HI n) (by simp [checkpointRegs])
    refine ⟨(congrArg _ hst).trans hcount, (congrArg _ hst).trans hslot, ?_⟩
    rw [State.reg64, hlo, hhi]
    exact hline

end Sys2Proof.Machine

namespace Sys2Proof

open Machine

/-- Settles O13: each entry by the parts that its command is made of and the frames of those parts. -/
theorem spanQueueCommandsComplete : Obligations.SpanQueueCommandsComplete := by
  unfold Obligations.SpanQueueCommandsComplete
  refine ⟨fun n alu s p r h => ?result, fun n s q hfront hcaps => ?lineSync, fun n s q v hfront => ?token,
    fun n ups s q b k l => ?snapshot, fun n s c hsnap hthrough => ?copy,
    fun n s p hp hroom => ?message⟩
  case result =>
    have hland (a b : Alu) (hb : b = a.land p r) : b.r = p.value ∧ b.pend = r ∧ b.o = a.o ∧
        ∀ i < 3, b.f.getLsbD i = if p.mask.getLsbD i then p.flags.getLsbD i else a.f.getLsbD i := by
      subst hb
      exact ⟨rfl, rfl, rfl, fun i hi => applyFlags_getLsbD a.f p.mask p.flags hi⟩
    obtain rfl | rfl : alu = 0 ∨ alu = 1 := by omega
    · rw [if_pos rfl] at h
      exact ⟨_, execAluResultReady_alu0 h, rfl, fun m hm => State.setCtl_ctl_ne s _ hm,
        hland (s.ctl n).alu0 _ (congrArg SpanCtl.alu0 (State.setCtl_ctl_self s n _))⟩
    · rw [if_neg (by decide)] at h
      exact ⟨_, execAluResultReady_alu1 h, rfl, fun m hm => State.setCtl_ctl_ne s _ hm,
        hland (s.ctl n).alu1 _ (congrArg SpanCtl.alu1 (State.setCtl_ctl_self s n _))⟩
  case lineSync =>
    obtain ⟨rx, hleft⟩ := leaveLine_keeps s n
    obtain ⟨_, _, hopened⟩ := openPorts_only (leaveLine s n) (domainOf s n)
    have hctl (m : Fin 17) : (openPorts (leaveLine s n) (domainOf s n)).ctl m = (leaveLine s n).ctl m := by rw [hopened]; rfl
    have hrows := openPorts_rows (leaveLine s n) (domainOf s n)
    have hopen := openPorts_open (leaveLine s n) (domainOf s n)
    have hexec := execLineSync_front hfront hcaps
    generalize openPorts (leaveLine s n) (domainOf s n) = u at *
    obtain ⟨hqueue, hsyncs, htaken, hset⟩ := countSync_ctl_self u n q
    have htake := takeLine_keeps (countSync u n q) n (domainOf s n)
    refine ⟨_, hexec, (htake.ctlPart SpanCtl.queue (fun _ => rfl) n).trans hqueue, ?_,
      (htake.ctlPart SpanCtl.taken (fun _ => rfl) n).trans htaken, (htake.ctlPart SpanCtl.set (fun _ => rfl) n).trans hset, ?_,
      fun m hm => ⟨?_, ?_, ?_⟩, fun m => ⟨?_, ?_⟩⟩
    · rw [htake.ctlPart SpanCtl.syncs (fun _ => rfl) n, hsyncs, hctl, hleft.ctlPart SpanCtl.syncs (fun _ => rfl) n]
      rfl
    · rw [htake.micro, countSync, State.setMicro_micro_self]
    · rw [htake.port]
      exact (hopen m hm).1
    · rw [htake.rows]
      exact (hrows m).trans (hleft.rows m)
    · rw [htake.closed]
      exact (hopen m hm).2
    · rw [htake.ctlPart SpanCtl.v (fun _ => rfl) m, (countSync_ctl_vg u n q m).1, hctl, hleft.ctlPart SpanCtl.v (fun _ => rfl) m]
      rfl
    · rw [htake.ctlPart SpanCtl.g (fun _ => rfl) m, (countSync_ctl_vg u n q m).2, hctl, hleft.ctlPart SpanCtl.g (fun _ => rfl) m]
      rfl
  case token =>
    have hexec := execTokenReached_front hfront
    have hself := State.setCtl_ctl_self s n { s.ctl n with queue := q, done := v }
    generalize domainOf (s.setCtl n { s.ctl n with queue := q, done := v }) n = ms at hexec
    have hkeeps := ((LineKeeps.refl (s.setCtl n { s.ctl n with queue := q, done := v })).retime ms).snapRead n
    have hmem := ((KeepsRest.refl (ms := []) (retime (s.setCtl n { s.ctl n with queue := q, done := v }) ms)).snapRead n).mem
    obtain ⟨_, hretimed⟩ := retime_only (s.setCtl n { s.ctl n with queue := q, done := v }) ms
    refine ⟨_, hexec, ?_, ?_, ?_, fun m => ⟨(hkeeps.rows m).trans rfl, (hkeeps.x m).trans rfl⟩⟩
    · rw [hkeeps.ctlPart SpanCtl.queue (fun _ => rfl) n, hself]
    · rw [hkeeps.ctlPart SpanCtl.done (fun _ => rfl) n, hself]
    · rw [hmem, hretimed]
      rfl
  case snapshot =>
    intro s1 hfront hsnap hserved
    obtain ⟨hctls, hmem, hraises, hbusy⟩ := retime_showCopying_shows
      (s1.setCtl n { s1.ctl n with queue := q, snap := some (snapshotOf b k l) }) (domainOf s1 n)
    have hctl := (congrArg (·[n]) hctls).trans (State.setCtl_ctl_self s1 n _)
    exact ⟨_, execSnapshotEntry_taken rfl hfront hsnap hserved, congrArg SpanCtl.queue hctl,
      ⟨snapshotOf b k l, congrArg SpanCtl.snap hctl, rfl, rfl, rfl, rfl⟩, hbusy, hmem, hraises⟩
  case copy =>
    obtain ⟨t, hexec, hnone, hstop, hvalid, hsingle⟩ := checkpointCopy_settled hsnap hthrough
    exact ⟨t, hexec, hnone, hstop, hvalid, hsingle⟩
  case message =>
    refine ⟨_, execCwMessageArrive_room hp hroom, rfl, ?_, fun m hm => State.setCtl_ctl_ne _ _ hm, spanMsgOf p, ?_, rfl,
      fun i => ?_⟩
    · simp only [← List.contains_iff_mem]
      rfl
    · rw [State.setCtl_ctl_self]
    · simp [spanMsgOf]

end Sys2Proof
end

