-- ==== Sys2Proof/Proofs/SpanStops.lean ====
section
/-!
PROOFS. A stop-now of a span controller (R81, R82, R126, R128, R506): what the abort of its operation and of its open sets
leaves, and the controller that has stopped.
-/

namespace Sys2Proof.Machine

/-! ## The abort of an operation -/

/-- The array's contents become free values, and nothing else changes. -/
def UndefinesArrays (s t : State) : Prop := ∃ arrays ctr, t = { s with arrays := arrays, freeCtr := ctr }

theorem UndefinesArrays.trans {s t u : State} (h : UndefinesArrays s t) (k : UndefinesArrays t u) : UndefinesArrays s u := by
  obtain ⟨_, _, rfl⟩ := h
  obtain ⟨a, c, rfl⟩ := k
  exact ⟨a, c, rfl⟩

theorem UndefinesArrays.foldl {α : Type} {f : State → α → State} (hf : ∀ t x, UndefinesArrays t (f t x)) (xs : List α) (s : State) :
    UndefinesArrays s (xs.foldl f s) :=
  List.foldlRecOn xs f ⟨s.arrays, s.freeCtr, rfl⟩ (fun t ht x _ => ht.trans (hf t x))

theorem undefineRow_undefines (s : State) (m : Fin 17) (row : Nat) (gated : Bool) :
    UndefinesArrays s (undefineRow s m row gated) := ⟨_, _, rfl⟩

theorem undefineRegs_undefines (s : State) (m : Fin 17) (mToo : Bool) : UndefinesArrays s (undefineRegs s m mToo) := by
  cases mToo <;> exact ⟨_, _, rfl⟩

/-- What the abort of the operation at micro-sequencer `n` shows and leaves. -/
structure OpAborted (n : Fin 17) (s t : State) : Prop where
  only : ∃ regs mem arrays micros ctr,
    t = { s with regs := regs, mem := mem, arrays := arrays, micros := micros, freeCtr := ctr }
  op : (t.micro n).op = none
  aborted : t.fld (Reg.SPC_STAT n) F.SPC_STAT_ABORTED = 1 ↔ (s.micro n).op ≠ none
  reg : ∀ a, a ≠ Reg.SPC_STAT n → a ≠ Reg.MS_STAT n → t.reg a = s.reg a

theorem traceMark_only (s : State) (n : Fin 17) (bit : Nat) : ∃ mem, traceMark s n bit = { s with mem := mem } := by
  unfold traceMark
  split
  · exact ⟨s.mem, rfl⟩
  · exact ⟨_, rfl⟩

/-- `SPC_STAT` records the operation that is aborted. -/
def showAborted (s : State) (n : Fin 17) (o : ArrayOp) : State :=
  let a := Reg.SPC_STAT n
  ((s.setFld a F.SPC_STAT_ABORTED 1).setFld a F.SPC_STAT_ROUTINE o.routine.toNat).setFld a F.SPC_STAT_MPC
    (s.fld (Reg.MS_STAT n) F.MS_STAT_PC)

/-- `MS_STAT` shows no operation, and none is in progress. -/
def endOp (s : State) (n : Fin 17) : State :=
  let a := Reg.MS_STAT n
  let s := (((s.setFld a F.MS_STAT_BUSY 0).setFld a F.MS_STAT_WAIT 0).setFld a F.MS_STAT_HOLD 0).setFld a F.MS_STAT_COND 0
  s.setMicro n { s.micro n with op := none, waited := 0, waitLong := false, traced := none }

theorem showAborted_shows (s : State) (n : Fin 17) (o : ArrayOp) : RegsOnly s (showAborted s n o) ∧
    (showAborted s n o).fld (Reg.SPC_STAT n) F.SPC_STAT_ABORTED = 1 ∧ OnlyRegs [Reg.SPC_STAT n] s (showAborted s n o) := by
  have hmem : Reg.SPC_STAT n ∈ [Reg.SPC_STAT n.val] := List.mem_singleton_self _
  refine ⟨(((RegsOnly.refl s).setFld _ _ _).setFld _ _ _).setFld _ _ _, ?_,
    ((OnlyRegs.setFld s _ _ hmem).trans (.setFld _ _ _ hmem)).trans (.setFld _ _ _ hmem)⟩
  simp (disch := decide) only [showAborted, setFld_fld_apart, setFld_fld_fits]

theorem endOp_shows (s : State) (n : Fin 17) : (∃ regs micros, endOp s n = { s with regs := regs, micros := micros }) ∧
    ((endOp s n).micro n).op = none ∧ OnlyRegs [Reg.MS_STAT n] s (endOp s n) := by
  have hmem : Reg.MS_STAT n ∈ [Reg.MS_STAT n.val] := List.mem_singleton_self _
  obtain ⟨_, hshown⟩ : RegsOnly s ((((s.setFld (Reg.MS_STAT n) F.MS_STAT_BUSY 0).setFld (Reg.MS_STAT n) F.MS_STAT_WAIT
    0).setFld (Reg.MS_STAT n) F.MS_STAT_HOLD 0).setFld (Reg.MS_STAT n) F.MS_STAT_COND 0) :=
    ((((RegsOnly.refl s).setFld _ _ _).setFld _ _ _).setFld _ _ _).setFld _ _ _
  refine ⟨⟨_, _, by rw [endOp, hshown]; rfl⟩, ?_, ((((OnlyRegs.setFld s _ _ hmem).trans (.setFld _ _ _ hmem)).trans (.setFld _ _ _ hmem)).trans
    (.setFld _ _ _ hmem)).trans (.of_eq rfl)⟩
  simp only [endOp, State.setMicro_micro_self]

theorem abortOp_of_none {s : State} {n : Fin 17} (h : (s.micro n).op = none) :
    abortOp s n = s.setFld (Reg.SPC_STAT n) F.SPC_STAT_ABORTED 0 := by simp only [abortOp, h]

/-- An operation is recorded, what it can write becomes undefined, and it ends. -/
theorem abortOp_of_some {s : State} {n : Fin 17} {o : ArrayOp} (h : (s.micro n).op = some o) :
    ∃ u, UndefinesArrays (showAborted (traceMark s n 59) n o) u ∧ abortOp s n = endOp u n := by
  unfold abortOp
  simp only [h]
  exact ⟨_, .foldl (fun t m => .trans (.foldl (fun t row => undefineRow_undefines t m row _) _ t)
    (undefineRegs_undefines _ m _)) _ _, rfl⟩

theorem abortOp_aborted (s : State) (n : Fin 17) : OpAborted n s (abortOp s n) := by
  cases hop : (s.micro n).op with
  | none =>
    rw [abortOp_of_none hop]
    refine ⟨⟨_, _, _, _, _, rfl⟩, hop, ?_, fun a ha _ => State.setFld_reg_ne s _ _ ha⟩
    rw [setFld_fld_fits _ _ _ _ (by decide) (by decide), hop]
    simp
  | some o =>
    obtain ⟨u, hundefined, habort⟩ := abortOp_of_some hop
    obtain ⟨_, hmarked⟩ := traceMark_only s n 59
    obtain ⟨⟨_, hshown⟩, haborted, hstat⟩ := showAborted_shows (traceMark s n 59) n o
    obtain ⟨⟨_, _, hended⟩, hnone, hms⟩ := endOp_shows u n
    obtain ⟨_, _, hu⟩ := hundefined
    have hne : Reg.SPC_STAT n ∉ [Reg.MS_STAT n.val] := by
      simp only [List.mem_singleton, Reg.SPC_STAT, Reg.MS_STAT]
      omega
    have hreg (a : Nat) : u.reg a = (showAborted (traceMark s n 59) n o).reg a := by rw [hu]; rfl
    rw [habort]
    refine ⟨⟨_, _, _, _, _, by rw [hended, hu, hshown, hmarked]⟩, hnone, ?_, fun a ha hb => ?_⟩
    · rw [State.fld, hms _ hne, hreg, hop]
      exact iff_of_true haborted (Option.some_ne_none o)
    · rw [hms a (by simpa using hb), hreg, hstat a (by simpa using ha), hmarked]
      rfl

/-! ## The abort of open sets -/

/-- What the abort of the extraction sets of controller `n` leaves (R82, R205). -/
structure SetsAborted (s t : State) : Prop where
  only : ∃ regs ctls rx, t = { s with regs := regs, ctls := ctls, rx := rx }
  ctl : ∀ m, (t.ctl m).v = (s.ctl m).v ∧ (t.ctl m).snap = (s.ctl m).snap
  reg : ∀ a, (∀ m, a ≠ Reg.RX_ABORT m) → t.reg a = s.reg a

theorem abortSets_aborted (s : State) (n : Fin 17) : SetsAborted s (abortSets s n) := by
  unfold abortSets
  split
  · exact ⟨⟨_, _, _, rfl⟩, fun _ => ⟨rfl, rfl⟩, fun _ _ => rfl⟩
  · extract_lets closed
    obtain ⟨⟨regs, rx, hclosed⟩, hreg⟩ : (∃ regs rx, closed = { s with regs := regs, rx := rx }) ∧
        ∀ a, (∀ m, a ≠ Reg.RX_ABORT m) → closed.reg a = s.reg a := by
      refine List.foldlRecOn (motive := fun t : State => (∃ regs rx, t = { s with regs := regs, rx := rx }) ∧
        ∀ a, (∀ m, a ≠ Reg.RX_ABORT m) → t.reg a = s.reg a) _ _ ⟨⟨_, _, rfl⟩, fun _ _ => rfl⟩ fun t ht m _ => ?_
      obtain ⟨⟨_, _, rfl⟩, hreg⟩ := ht
      exact ⟨⟨_, _, rfl⟩, fun a ha => (State.bump_reg_ne _ _ _ (ha m)).trans (hreg a ha)⟩
    have hctl (m : Fin 17) : closed.ctl m = s.ctl m := by rw [hclosed]; rfl
    refine ⟨⟨_, _, _, by rw [hclosed]; rfl⟩, fun m => ?_, hreg⟩
    by_cases hm : m = n
    · rw [hm, State.setCtl_ctl_self]
      exact ⟨(congrArg SpanCtl.v (hctl n) :), (congrArg SpanCtl.snap (hctl n) :)⟩
    · rw [State.setCtl_ctl_ne _ _ hm, hctl]
      exact ⟨rfl, rfl⟩

/-! ## Stop-now -/

/-- The rows that a snapshot has reached are read, and the operation and its sets are aborted. -/
def abortAll (s : State) (n : Fin 17) : State := abortSets (abortOp (readRest n 64 s) n) n

/-- The queue's entries are counted and gone, and a pier load under way is dropped with its transaction. -/
def emptyCtl (s : State) (n : Fin 17) : State :=
  let c := s.ctl n
  let s := s.bump (Reg.SPC_DISCARD n) F.SPC_DISCARD_COUNT c.queue.length
  let ep : Fin 80 := ⟨n.val, by omega⟩
  let s := match c.lsuPier with
    | none => s
    | some l => { s with cw := { s.cw with txns := s.cw.txns.filter (fun t => t != (ep, l.txn)) } }
  s.setCtl n { c with queue := [], lsuPier := none, lsuWait := 0, busy := 0, waiting := false, drain := 0 }

theorem stopNow_eq {s : State} {n : Fin 17} (h : spcState s n < 2) (cause : Nat) :
    stopNow s n cause = if ((abortAll s n).ctl n).snap.isSome then showStop (emptyCtl (abortAll s n) n) n 2 cause 2
      else becomeStopped (emptyCtl (abortAll s n) n) n cause 2 := by
  rw [stopNow, if_neg (Nat.not_le.mpr h), abortAll]
  generalize abortSets (abortOp (readRest n 64 s) n) n = u
  rfl

theorem emptyCtl_only (s : State) (n : Fin 17) :
    ∃ cw, emptyCtl s n = { s.bump (Reg.SPC_DISCARD n) F.SPC_DISCARD_COUNT (s.ctl n).queue.length with cw := cw }.setCtl n
      { s.ctl n with queue := [], lsuPier := none, lsuWait := 0, busy := 0, waiting := false, drain := 0 } := by
  unfold emptyCtl
  dsimp only
  split
  · exact ⟨_, rfl⟩
  · exact ⟨_, rfl⟩

theorem emptyCtl_reg (s : State) (n : Fin 17) {a : Nat} (ha : a ≠ Reg.SPC_DISCARD n) : (emptyCtl s n).reg a = s.reg a := by
  obtain ⟨_, h⟩ := emptyCtl_only s n
  rw [h]
  exact State.bump_reg_ne s _ _ ha

theorem emptyCtl_queue (s : State) (n : Fin 17) : ((emptyCtl s n).ctl n).queue = [] := by
  obtain ⟨_, h⟩ := emptyCtl_only s n
  rw [h, State.setCtl_ctl_self]

theorem emptyCtl_v (s : State) (n m : Fin 17) : ((emptyCtl s n).ctl m).v = (s.ctl m).v := by
  obtain ⟨_, h⟩ := emptyCtl_only s n
  rw [h]
  by_cases hm : m = n
  · rw [hm, State.setCtl_ctl_self]
  · rw [State.setCtl_ctl_ne _ _ hm]
    rfl

theorem abortAll_v (s : State) (n m : Fin 17) : ((abortAll s n).ctl m).v = (s.ctl m).v := by
  have hread := ((LineKeeps.refl s).readRest n 64).ctlPart SpanCtl.v (fun _ => rfl) m
  unfold abortAll
  generalize readRest n 64 s = u at *
  obtain ⟨_, _, _, _, _, hop⟩ := (abortOp_aborted u n).only
  rw [((abortSets_aborted _ n).ctl m).1, hop]
  exact hread

theorem showStop_ctl (s : State) (n : Fin 17) (state cause stop : Nat) (m : Fin 17) :
    (showStop s n state cause stop).ctl m = s.ctl m := by
  obtain ⟨_, h⟩ := showStop_regsOnly (state := state) (cause := cause) (stop := stop) s n
  rw [h]
  rfl

/-- A stop-now leaves the registers v of every controller. -/
theorem stopNow_v (s : State) (n : Fin 17) {cause : Nat} (hcause : cause < 8) (m : Fin 17) :
    ((stopNow s n cause).ctl m).v = (s.ctl m).v := by
  have hempty := (emptyCtl_v (abortAll s n) n m).trans (abortAll_v s n m)
  by_cases h : spcState s n < 2
  · rw [stopNow_eq h]
    generalize emptyCtl (abortAll s n) n = u at *
    split
    · rw [showStop_ctl]
      exact hempty
    · obtain ⟨_, _, honly⟩ := (becomeStopped_shows u n hcause (stop := 2) (by decide)).only
      rw [honly]
      exact hempty
  · rw [stopNow, if_pos (Nat.not_lt.mp h)]

/-- After a stop-now a controller is stopping or stopped. -/
theorem stopNow_state (s : State) (n : Fin 17) {cause : Nat} (hcause : cause < 8) : 2 ≤ spcState (stopNow s n cause) n := by
  by_cases h : spcState s n < 2
  · rw [stopNow_eq h]
    split
    · exact (showStop_shows _ n (by decide) hcause (by decide) (List.mem_cons_self ..)).1.ge
    · rw [(becomeStopped_shows _ n hcause (by decide)).shows.1]
      decide
  · rw [stopNow, if_pos (Nat.not_lt.mp h)]
    exact Nat.not_lt.mp h

/-! ## A stop-now without a snapshot -/

theorem readRest_none {s : State} {n : Fin 17} (h : (s.ctl n).snap = none) (k : Nat) : readRest n k s = s := by
  induction k with
  | zero => rfl
  | succ k ih =>
    have hrow : snapRowRead s n = s := by simp only [snapRowRead, h]
    rw [readRest, hrow, ih]

/-- A controller without a snapshot under way stops at once. -/
theorem stopNow_stops {s : State} {n : Fin 17} (hstate : spcState s n < 2) (hsnap : (s.ctl n).snap = none) {cause : Nat}
    (hcause : cause < 8) : ∃ u, BecomesStopped n cause 2 u (stopNow s n cause) ∧ (u.ctl n).queue = [] ∧ (u.micro n).op = none ∧
      (u.ctl n).v = (s.ctl n).v ∧ (u.fld (Reg.SPC_STAT n) F.SPC_STAT_ABORTED = 1 ↔ (s.micro n).op ≠ none) ∧
      u.raises = s.raises ∧ lead u n = lead s n := by
  have hop := abortOp_aborted s n
  have hsets := abortSets_aborted (abortOp s n) n
  have hall : abortAll s n = abortSets (abortOp s n) n := by rw [abortAll, readRest_none hsnap]
  obtain ⟨_, _, _, _, _, honly⟩ := hop.only
  obtain ⟨_, _, _, hsetsOnly⟩ := hsets.only
  have hnone : ((abortAll s n).ctl n).snap.isSome = false := by
    rw [hall, (hsets.ctl n).2, honly]
    exact Option.isSome_eq_false_iff.mpr (Option.isNone_iff_eq_none.mpr hsnap)
  obtain ⟨_, hempty⟩ := emptyCtl_only (abortAll s n) n
  refine ⟨emptyCtl (abortAll s n) n, ?_, emptyCtl_queue _ n, ?_, (emptyCtl_v _ n n).trans (abortAll_v s n n), ?_, ?_, ?_⟩
  · rw [stopNow_eq hstate, hnone]
    exact becomeStopped_shows _ n hcause (by decide)
  · have hmicro : (emptyCtl (abortAll s n) n).micro n = (abortOp s n).micro n := by rw [hempty, hall, hsetsOnly]; rfl
    rw [hmicro, hop.op]
  · have hstat : (emptyCtl (abortAll s n) n).reg (Reg.SPC_STAT n) = (abortOp s n).reg (Reg.SPC_STAT n) := by
      rw [emptyCtl_reg _ n (by simp only [Reg.SPC_STAT, Reg.SPC_DISCARD]; omega), hall]
      exact hsets.reg _ fun m => by simp only [Reg.SPC_STAT, Reg.RX_ABORT]; omega
    rw [State.fld, hstat]
    exact hop.aborted
  · rw [hempty, hall, hsetsOnly, honly]
    rfl
  · refine lead_congr (fun m => ?_) n
    rw [emptyCtl_reg _ n (by simp only [Reg.ARR_COUPLE, Reg.SPC_DISCARD]; omega), hall,
      hsets.reg _ fun k => by simp only [Reg.ARR_COUPLE, Reg.RX_ABORT]; omega]
    exact hop.reg _ (by simp only [Reg.ARR_COUPLE, Reg.SPC_STAT]; omega) (by simp only [Reg.ARR_COUPLE, Reg.MS_STAT]; omega)

end Sys2Proof.Machine
end

