-- ==== Sys2Proof/Proofs/SpanStarts.lean ====
section
/-!
PROOFS. Drains and starts of a span controller, its watchdog and its restores (R116, R125 to R129).
-/

namespace Sys2Proof.Machine

/-! ## A drain -/

theorem stopDrain_shows {n : Fin 17} {s : State} (hlead : lead s n = n) (hstate : spcState s n = 0) :
    spcState (stopDrain s n) n = 1 ∧ (stopDrain s n).fld (Reg.SPC_CTL n) F.SPC_CTL_STOP = 1 ∧
      ((s.ctl n).queue.contains .lineSync = true → ((stopDrain s n).ctl n).drain = 1) ∧
      ((stopDrain s n).ctl n).queue = (s.ctl n).queue ∧
      stopDrain s n = { s with regs := (stopDrain s n).regs, ctls := (stopDrain s n).ctls } := by
  have hshows := showStop_shows (state := 1) (cause := s.fld (Reg.SPC_STAT n) F.SPC_STAT_CAUSE) (stop := 1) s n (by decide)
    (Nat.mod_lt _ (by decide)) (by decide) (List.mem_cons_self ..)
  obtain ⟨_, hregs⟩ := showStop_regsOnly (state := 1) (cause := s.fld (Reg.SPC_STAT n) F.SPC_STAT_CAUSE) (stop := 1) s n
  unfold stopDrain
  rw [if_neg (by simp [hlead, hstate])]
  generalize showStop s n 1 _ 1 = u at *
  have hctl : u.ctl n = s.ctl n := by rw [hregs]; rfl
  obtain ⟨hstate', -, hstop⟩ := hshows
  dsimp only
  split
  · exact ⟨hstate', hstop, fun _ => by simp only [State.setCtl_ctl_self],
      by simp only [State.setCtl_ctl_self, hctl], by rw [hregs]; rfl⟩
  · next hnone => exact ⟨hstate', hstop, fun h => absurd (hctl ▸ h) hnone, by rw [hctl], by rw [hregs]⟩

/-- The drained controller: what waits in the queue is counted and gone. -/
def drainedCtl (s : State) (n : Fin 17) : State :=
  ((s.bump (Reg.SPC_DISCARD n) F.SPC_DISCARD_COUNT (s.ctl n).queue.length).setCtl n
    { s.ctl n with queue := [], drain := 0, busy := 0, waiting := false }).setFld (Reg.SPC_STAT n) F.SPC_STAT_ABORTED 0

theorem execDrainComplete_drained {n : Fin 17} {s : State} (hstate : spcState s n = 1) (hdrain : (s.ctl n).drain = 2) :
    execDrainComplete n s = .next (becomeStopped (drainedCtl s n) n 1 1) :=
  if_pos ⟨hstate, hdrain⟩

theorem drainedCtl_couple (s : State) (n m : Fin 17) :
    (drainedCtl s n).reg (Reg.ARR_COUPLE m) = s.reg (Reg.ARR_COUPLE m) := by
  refine (State.setFld_reg_ne _ _ _ ?_).trans (State.bump_reg_ne s _ _ ?_)
  · simp only [Reg.ARR_COUPLE, Reg.SPC_STAT]
    omega
  · simp only [Reg.ARR_COUPLE, Reg.SPC_DISCARD]
    omega

theorem drainedCtl_aborted (s : State) (n : Fin 17) : (drainedCtl s n).fld (Reg.SPC_STAT n) F.SPC_STAT_ABORTED = 0 :=
  setFld_fld_fits _ _ _ _ (by decide) (by decide)

theorem drainedCtl_queue (s : State) (n : Fin 17) : ((drainedCtl s n).ctl n).queue = [] := by
  rw [drainedCtl]
  generalize s.bump _ _ _ = u
  rw [State.setFld_ctl, State.setCtl_ctl_self]

theorem drainedCtl_only (s : State) (n : Fin 17) : ∃ regs ctls, drainedCtl s n = { s with regs := regs, ctls := ctls } :=
  ⟨_, _, rfl⟩

theorem drainComplete_stops {n : Fin 17} {s : State} (hstate : spcState s n = 1) (hdrain : (s.ctl n).drain = 2) :
    ∃ t, execDrainComplete n s = .next t ∧ spcState t n = 3 ∧ t.fld (Reg.SPC_STAT n) F.SPC_STAT_CAUSE = 1 ∧
      (t.ctl n).queue = [] ∧ t.fld (Reg.SPC_STAT n) F.SPC_STAT_ABORTED = 0 ∧
      (∃ l, Raised s t ((16 * (lead s n).val, 0) :: l)) ∧ t = { s with regs := t.regs, ctls := t.ctls, raises := t.raises } := by
  have hstopped := becomeStopped_shows (drainedCtl s n) n (cause := 1) (stop := 1) (by decide) (by decide)
  have hlead := lead_congr (drainedCtl_couple s n) n
  have haborted := drainedCtl_aborted s n
  have hqueue := drainedCtl_queue s n
  obtain ⟨_, _, honly⟩ := drainedCtl_only s n
  refine ⟨_, execDrainComplete_drained hstate hdrain, ?_⟩
  generalize drainedCtl s n = u at *
  generalize becomeStopped u n 1 1 = t at *
  obtain ⟨l, hraised⟩ := hstopped.raised
  obtain ⟨_, _, hstop⟩ := hstopped.only
  obtain ⟨hthree, hcause, -⟩ := hstopped.shows
  refine ⟨hthree, hcause, ?_, (hstopped.aborted n).trans haborted, ⟨l, ?_⟩, ?_⟩
  · rw [hstop]
    exact hqueue
  · rw [← hlead]
    exact (Raised.of_eq (by rw [honly])).trans hraised
  · rw [hstop, honly]

/-! ## A start -/

/-- One span of the domain takes its start values. -/
def startOne (s : State) (m : Fin 17) : State :=
  let s := (s.setCtl m (s.ctl m).startFrom).setArray m { s.array m with port := [] }
  let s := s.setExt m { s.ext m with closed := false }
  let s := s.setRegion m { s.region m with sent := 0 }
  (s.setMicro m { s.micro m with gauPend := [], gauReady := [], gorFresh := false }).setFld (Reg.SPC_STAT m)
    F.SPC_STAT_ABORTED 0

/-- `SPC_PC` names ENTRY in the bank of `SPC_CTL`. -/
def beginAtEntry (s : State) (n : Fin 17) : State :=
  (s.setFld (Reg.SPC_PC n) F.SPC_PC_BANK (s.fld (Reg.SPC_CTL n) F.SPC_CTL_BANK)).setFld (Reg.SPC_PC n)
    F.SPC_PC_INDEX (s.fld (Reg.SPC_ENTRY n) F.SPC_ENTRY_ENTRY)

theorem startSpan_eq (s : State) (n : Fin 17) :
    startSpan s n = showStop (beginAtEntry ((n :: domainOf s n).foldl startOne s) n) n 0
      ((beginAtEntry ((n :: domainOf s n).foldl startOne s) n).fld (Reg.SPC_STAT n) F.SPC_STAT_CAUSE) 0 := rfl

/-- The values of a span whose controller has started. -/
def HasStarted (m : Fin 17) (s : State) : Prop :=
  (∃ c, s.ctl m = SpanCtl.startFrom c) ∧ (s.micro m).gauReady = [] ∧ s.fld (Reg.SPC_STAT m) F.SPC_STAT_ABORTED = 0

theorem startOne_started (s : State) (m : Fin 17) : HasStarted m (startOne s m) :=
  ⟨⟨s.ctl m, s.setCtl_ctl_self m _⟩, congrArg MicroSeq.gauReady (State.setMicro_micro_self _ m _),
    setFld_fld_fits _ _ _ _ (by decide) (by decide)⟩

theorem startOne_keeps (s : State) (m k : Fin 17) (h : HasStarted k s) : HasStarted k (startOne s m) := by
  by_cases hk : k = m
  · exact hk ▸ startOne_started s m
  · obtain ⟨⟨c, hctl⟩, hgauge, haborted⟩ := h
    refine ⟨⟨c, (s.setCtl_ctl_ne _ hk).trans hctl⟩, (congrArg MicroSeq.gauReady (State.setMicro_micro_ne _ _ hk)).trans hgauge, ?_⟩
    exact (State.setFld_fld_ne _ _ _ _ (SPC_STAT_ne (fun h => hk (Fin.ext h)))).trans haborted

theorem startOne_reg (s : State) (m : Fin 17) {a : Nat} (ha : ∀ m, a ≠ Reg.SPC_STAT m) : (startOne s m).reg a = s.reg a :=
  State.setFld_reg_ne _ _ _ (ha m)

theorem startAll_reg (ms : List (Fin 17)) (s : State) {a : Nat} (ha : ∀ m, a ≠ Reg.SPC_STAT m) :
    (ms.foldl startOne s).reg a = s.reg a :=
  List.foldlRecOn (motive := fun t : State => t.reg a = s.reg a) _ _ rfl fun t ht m _ => (startOne_reg t m ha).trans ht

theorem beginAtEntry_pc (s : State) (n : Fin 17) :
    (beginAtEntry s n).fld (Reg.SPC_PC n) F.SPC_PC_INDEX = s.fld (Reg.SPC_ENTRY n) F.SPC_ENTRY_ENTRY ∧
      (beginAtEntry s n).fld (Reg.SPC_PC n) F.SPC_PC_BANK = s.fld (Reg.SPC_CTL n) F.SPC_CTL_BANK := by
  unfold beginAtEntry
  refine ⟨setFld_fld_fits _ _ _ _ (by decide) (Nat.mod_lt _ (by decide)), ?_⟩
  rw [setFld_fld_apart _ _ _ _ _ (by decide) (by decide) (by decide)]
  exact setFld_fld_fits _ _ _ _ (by decide) (Nat.mod_lt _ (by decide))

theorem beginAtEntry_started {m : Fin 17} {s : State} (n : Fin 17) (h : HasStarted m s) : HasStarted m (beginAtEntry s n) := by
  obtain ⟨hctl, hgauge, haborted⟩ := h
  have hne : Reg.SPC_STAT m ≠ Reg.SPC_PC n := by
    simp only [Reg.SPC_STAT, Reg.SPC_PC]
    omega
  refine ⟨hctl, hgauge, ?_⟩
  rw [beginAtEntry, State.setFld_fld_ne _ _ _ _ hne, State.setFld_fld_ne _ _ _ _ hne]
  exact haborted

theorem startSpan_starts (s : State) (n : Fin 17) : HasStarted n (startSpan s n) ∧ spcState (startSpan s n) n = 0 ∧
    (startSpan s n).fld (Reg.SPC_CTL n) F.SPC_CTL_STOP = 0 ∧
    (startSpan s n).fld (Reg.SPC_PC n) F.SPC_PC_INDEX = s.fld (Reg.SPC_ENTRY n) F.SPC_ENTRY_ENTRY ∧
    (startSpan s n).fld (Reg.SPC_PC n) F.SPC_PC_BANK = s.fld (Reg.SPC_CTL n) F.SPC_CTL_BANK := by
  have hstarted : HasStarted n ((n :: domainOf s n).foldl startOne s) :=
    foldl_each startOne_started startOne_keeps _ s n (List.mem_cons_self ..)
  have hentry := startAll_reg (n :: domainOf s n) s (a := Reg.SPC_ENTRY n) (by simp only [Reg.SPC_ENTRY, Reg.SPC_STAT]; omega)
  have hbank := startAll_reg (n :: domainOf s n) s (a := Reg.SPC_CTL n) (fun m => (SPC_STAT_ne_SPC_CTL m n).symm)
  rw [startSpan_eq]
  generalize (n :: domainOf s n).foldl startOne s = u at *
  obtain ⟨hctl, hgauge, haborted⟩ := beginAtEntry_started n hstarted
  obtain ⟨hindex, hb⟩ := beginAtEntry_pc u n
  have hcause : (beginAtEntry u n).fld (Reg.SPC_STAT n) F.SPC_STAT_CAUSE < 8 := Nat.mod_lt _ (by decide)
  generalize beginAtEntry u n = w at *
  generalize w.fld (Reg.SPC_STAT n) F.SPC_STAT_CAUSE = cause at *
  obtain ⟨hstate, -, hstop⟩ := showStop_shows (state := 0) (stop := 0) w n (by decide) hcause (by decide) (List.mem_cons_self ..)
  have hpc := showStop_reg (state := 0) (cause := cause) (stop := 0) w n (a := Reg.SPC_PC n)
    (by simp only [Reg.SPC_PC, Reg.SPC_STAT, Reg.SPC_CTL]; omega)
  have hshown := showStop_aborted (state := 0) (cause := cause) (stop := 0) w n n
  obtain ⟨_, hregs⟩ := showStop_regsOnly (state := 0) (cause := cause) (stop := 0) w n
  refine ⟨⟨?_, ?_, hshown.trans haborted⟩, hstate, hstop, ?_, ?_⟩
  · rw [hregs]
    exact hctl
  · rw [hregs]
    exact hgauge
  · exact (congrArg _ hpc).trans (hindex.trans (congrArg F.SPC_ENTRY_ENTRY.get hentry))
  · exact (congrArg _ hpc).trans (hb.trans (congrArg F.SPC_CTL_BANK.get hbank))

/-! ## The watchdog -/

theorem spcWatchdog_fires {n : Fin 17} {s : State} (hstate : spcState s n = 0)
    (hlimit : s.fld (Reg.SPC_WDOG n) F.SPC_WDOG_LIMIT ≠ 0) (hreached : s.fld (Reg.SPC_WDOG n) F.SPC_WDOG_LIMIT ≤ (s.ctl n).wdog)
    (hquiet : (s.ctl n).wdogFired = false) :
    execSpcWatchdog n s = .next (raiseSpc (s.setCtl n { s.ctl n with wdogFired := true }) n 1 0) := by
  simp [execSpcWatchdog, hstate, hlimit, hreached, hquiet]

theorem spcWatchdog_fired {n : Fin 17} {s : State} (h : (s.ctl n).wdogFired = true) : execSpcWatchdog n s = .next s := by
  simp [execSpcWatchdog, h]

/-! ## A restore -/

theorem rowGet_writeRowFresh (x : SpanArray) (row r : Nat) (v : BitVec 16384) :
    (rowGet (writeRowFresh x row v).rows r).duty = if r = row then v else (rowGet x.rows r).duty := by
  rw [writeRowFresh, rowGet_rowSet]
  split <;> rfl

/-- Row `k` of a slot goes into the span. -/
def restoreRow (n : Fin 17) (h : CkptHeader) (data : List Byte) (s : State) (k : Nat) : State :=
  s.setArray n (writeRowFresh (s.array n) ((h.base.toNat + k) % 2048)
    (BitVec.ofNat 16384 (leNat ((data.drop (2048 * k)).take 2048))))

theorem restoreRows_eq (s : State) (n : Fin 17) (h : CkptHeader) (data : List Byte) :
    restoreRows s n h data = (List.range h.count).foldl (restoreRow n h data) s := rfl

theorem restoreRows_only (s : State) (n : Fin 17) (h : CkptHeader) (data : List Byte) :
    (∃ arrays, restoreRows s n h data = { s with arrays := arrays }) ∧
      ∀ m, m ≠ n → (restoreRows s n h data).array m = s.array m := by
  rw [restoreRows_eq]
  refine List.foldlRecOn (motive := fun t : State => (∃ arrays, t = { s with arrays := arrays }) ∧
    ∀ m, m ≠ n → t.array m = s.array m) _ _ ⟨⟨_, rfl⟩, fun _ _ => rfl⟩ fun t ht k _ => ?_
  obtain ⟨⟨_, rfl⟩, hother⟩ := ht
  exact ⟨⟨_, rfl⟩, fun m hm => (State.setArray_array_ne _ _ hm).trans (hother m hm)⟩

theorem restoreRow_foldl_duty (n : Fin 17) (h : CkptHeader) (data : List Byte) (s : State) (c : Nat) (hc : c ≤ 2048) :
    ∀ i < c, (rowGet (((List.range c).foldl (restoreRow n h data) s).array n).rows ((h.base.toNat + i) % 2048)).duty =
      BitVec.ofNat 16384 (leNat ((data.drop (2048 * i)).take 2048)) := by
  induction c with
  | zero => exact fun i hi => absurd hi (Nat.not_lt_zero i)
  | succ c ih =>
    intro i hi
    rw [List.range_succ, List.foldl_concat, restoreRow, State.setArray_array_self, rowGet_writeRowFresh]
    obtain hlt | rfl := Nat.lt_succ_iff_lt_or_eq.mp hi
    · rw [if_neg (by omega)]
      exact ih (by omega) i hlt
    · rw [if_pos rfl]

theorem checkedSlot_count {s : State} {a : Nat} {k : Fin 2} {h : CkptHeader} {d : List Byte}
    (hchecked : (checkedSlot s a k h).1 = some d) : h.count ≤ 64 := by
  have hgood : h.good = true := by
    by_contra hbad
    simp [checkedSlot, Bool.eq_false_iff.mpr hbad] at hchecked
  simp only [CkptHeader.good, Bool.and_eq_true, decide_eq_true_eq] at hgood
  exact hgood.2

/-- Address of the checkpoint area that a restore of span `n` reads. -/
def restoreArea (s : State) (n : Fin 17) : Nat := Win.piers + 4096 * s.fld (Reg.CKPT_REST n) F.CKPT_REST_SRC

/-- The restore fails with CKPT_FAIL. -/
def failRestore (s : State) (n : Fin 17) (pay : BitVec 32) : State :=
  raiseSpc ((s.setFld (Reg.CKPT_REST n) F.CKPT_REST_FAIL 1).setFld (Reg.CKPT_REST n) F.CKPT_REST_OLDER 0) n 6 pay

/-- The rows of a slot with header `h` are restored. -/
def useSlot (s : State) (n : Fin 17) (h : CkptHeader) (older : Nat) (d : List Byte) : State :=
  (restoreRows ((s.setFld (Reg.CKPT_REST n) F.CKPT_REST_FAIL 0).setFld (Reg.CKPT_REST n) F.CKPT_REST_OLDER older) n h
    d).setReg64 (Reg.CKPT_LINE_LO n) (Reg.CKPT_LINE_HI n) h.line

section

variable {n : Fin 17} {ups : List Upset} {s s1 t : State} {h0 h1 : CkptHeader}

theorem execRestoreDone_neither (hups : applyUpsets s ups = s1) (hgo : s1.fld (Reg.CKPT_REST n) F.CKPT_REST_GO = 1)
    (hthrough : copyThrough s1 true n = true) (hread : readHeaders s1 (restoreArea s1 n) = (h0, h1, t))
    (hnone : newestSlot h0 h1 = none) :
    ∃ p, execRestoreDone n ups s = .next (failRestore (t.setFld (Reg.CKPT_REST n) F.CKPT_REST_GO 0) n p) := by
  refine ⟨BitVec.ofNat 32 (s1.fld (Reg.CKPT_REST n) F.CKPT_REST_SRC * 2 ^ 12), ?_⟩
  rw [restoreArea] at hread
  simp only [execRestoreDone, hups, State.flag, hgo, hthrough, hread, hnone]
  rfl

theorem execRestoreDone_slot (hups : applyUpsets s ups = s1) (hgo : s1.fld (Reg.CKPT_REST n) F.CKPT_REST_GO = 1)
    (hthrough : copyThrough s1 true n = true) (hread : readHeaders s1 (restoreArea s1 n) = (h0, h1, t))
    {k : Fin 2} (hnew : newestSlot h0 h1 = some k) {u : State} {d : List Byte}
    (hchecked : checkedSlot (t.setFld (Reg.CKPT_REST n) F.CKPT_REST_GO 0) (restoreArea s1 n) k (if k = 0 then h0 else h1) =
      (some d, u)) : execRestoreDone n ups s = .next (useSlot u n (if k = 0 then h0 else h1) 0 d) := by
  rw [restoreArea] at hread hchecked
  simp only [execRestoreDone, hups, State.flag, hgo, hthrough, hread, hnew, hchecked]
  rfl

end

theorem failRestore_fails (s : State) (n : Fin 17) (p : BitVec 32) :
    (failRestore s n p).fld (Reg.CKPT_REST n) F.CKPT_REST_FAIL = 1 ∧
      (failRestore s n p).fld (Reg.CKPT_REST n) F.CKPT_REST_GO = s.fld (Reg.CKPT_REST n) F.CKPT_REST_GO ∧
      (failRestore s n p).arrays = s.arrays ∧ Raised s (failRestore s n p) [(16 * (lead s n).val + 6, p)] := by
  have hmem : Reg.CKPT_REST n ∈ [Reg.CKPT_REST n.val] := List.mem_singleton_self _
  have honly := (OnlyRegs.setFld s F.CKPT_REST_FAIL 1 hmem).trans (.setFld _ F.CKPT_REST_OLDER 0 hmem)
  have hfail : ((s.setFld (Reg.CKPT_REST n) F.CKPT_REST_FAIL 1).setFld (Reg.CKPT_REST n) F.CKPT_REST_OLDER 0).fld
      (Reg.CKPT_REST n) F.CKPT_REST_FAIL = 1 := by
    simp (disch := decide) only [setFld_fld_apart, setFld_fld_fits]
  have hgo : ((s.setFld (Reg.CKPT_REST n) F.CKPT_REST_FAIL 1).setFld (Reg.CKPT_REST n) F.CKPT_REST_OLDER 0).fld
      (Reg.CKPT_REST n) F.CKPT_REST_GO = s.fld (Reg.CKPT_REST n) F.CKPT_REST_GO := by
    simp (disch := decide) only [setFld_fld_apart]
  have hregs : RegsOnly s ((s.setFld (Reg.CKPT_REST n) F.CKPT_REST_FAIL 1).setFld (Reg.CKPT_REST n) F.CKPT_REST_OLDER 0) :=
    ((RegsOnly.refl s).setFld _ _ _).setFld _ _ _
  unfold failRestore
  generalize (s.setFld (Reg.CKPT_REST n) F.CKPT_REST_FAIL 1).setFld (Reg.CKPT_REST n) F.CKPT_REST_OLDER 0 = u at *
  have hlead : lead u n = lead s n := lead_congr (fun m => honly _ (by
    simp only [List.mem_singleton, Reg.ARR_COUPLE, Reg.CKPT_REST]
    omega)) n
  obtain ⟨_, hu⟩ := hregs
  refine ⟨hfail, hgo, by rw [hu]; rfl, ?_⟩
  rw [← hlead]
  exact (Raised.of_eq (by rw [hu])).trans (.raise u _ p)

theorem useSlot_restores (s : State) (n : Fin 17) (h : CkptHeader) (d : List Byte) (hcount : h.count ≤ 2048) :
    (useSlot s n h 0 d).fld (Reg.CKPT_REST n) F.CKPT_REST_GO = s.fld (Reg.CKPT_REST n) F.CKPT_REST_GO ∧
      (useSlot s n h 0 d).fld (Reg.CKPT_REST n) F.CKPT_REST_FAIL = 0 ∧
      (useSlot s n h 0 d).reg64 (Reg.CKPT_LINE_LO n) (Reg.CKPT_LINE_HI n) = h.line ∧
      (∀ i < h.count, (rowGet ((useSlot s n h 0 d).array n).rows ((h.base.toNat + i) % 2048)).duty =
        BitVec.ofNat 16384 (leNat ((d.drop (2048 * i)).take 2048))) ∧
      ∀ m, m ≠ n → (useSlot s n h 0 d).array m = s.array m := by
  have hfail : ((s.setFld (Reg.CKPT_REST n) F.CKPT_REST_FAIL 0).setFld (Reg.CKPT_REST n) F.CKPT_REST_OLDER 0).fld
      (Reg.CKPT_REST n) F.CKPT_REST_FAIL = 0 := by
    simp (disch := decide) only [setFld_fld_apart, setFld_fld_fits]
  have hgo : ((s.setFld (Reg.CKPT_REST n) F.CKPT_REST_FAIL 0).setFld (Reg.CKPT_REST n) F.CKPT_REST_OLDER 0).fld
      (Reg.CKPT_REST n) F.CKPT_REST_GO = s.fld (Reg.CKPT_REST n) F.CKPT_REST_GO := by
    simp (disch := decide) only [setFld_fld_apart]
  have harray (m : Fin 17) : ((s.setFld (Reg.CKPT_REST n) F.CKPT_REST_FAIL 0).setFld (Reg.CKPT_REST n) F.CKPT_REST_OLDER
    0).array m = s.array m := rfl
  have hlo : Reg.CKPT_REST n ≠ Reg.CKPT_LINE_LO n := by
    simp only [Reg.CKPT_REST, Reg.CKPT_LINE_LO]
    omega
  have hhi : Reg.CKPT_REST n ≠ Reg.CKPT_LINE_HI n := by
    simp only [Reg.CKPT_REST, Reg.CKPT_LINE_HI]
    omega
  unfold useSlot
  generalize (s.setFld (Reg.CKPT_REST n) F.CKPT_REST_FAIL 0).setFld (Reg.CKPT_REST n) F.CKPT_REST_OLDER 0 = u at *
  obtain ⟨⟨_, honly⟩, hother⟩ := restoreRows_only u n h d
  have hduty := restoreRow_foldl_duty n h d u h.count hcount
  rw [← restoreRows_eq] at hduty
  generalize restoreRows u n h d = w at *
  have hreg : (w.setReg64 (Reg.CKPT_LINE_LO n) (Reg.CKPT_LINE_HI n) h.line).reg (Reg.CKPT_REST n) = u.reg (Reg.CKPT_REST n) := by
    rw [State.setReg64, State.setReg_reg_ne _ _ hhi, State.setReg_reg_ne _ _ hlo, honly]
    rfl
  refine ⟨(congrArg _ hreg).trans hgo, (congrArg _ hreg).trans hfail, reg64_setReg64 w _ ?_, hduty, fun m hm =>
    (hother m hm).trans (harray m)⟩
  simp only [Reg.CKPT_LINE_LO, Reg.CKPT_LINE_HI]
  omega

section

variable {n : Fin 17} {ups : List Upset} {s s1 : State} {r : CkptHeader × CkptHeader × State} (hups : applyUpsets s ups = s1)
  (hgo : s1.fld (Reg.CKPT_REST n) F.CKPT_REST_GO = 1) (hthrough : copyThrough s1 true n = true)
  (hread : readHeaders s1 (restoreArea s1 n) = r)

include hread in
theorem readHeaders_access : PierAccess s1 r.2.2 := by
  have h := (PierAccess.refl s1).readHeaders (restoreArea s1 n)
  rwa [hread] at h

theorem goCleared (s : State) (n : Fin 17) :
    (s.setFld (Reg.CKPT_REST n) F.CKPT_REST_GO 0).fld (Reg.CKPT_REST n) F.CKPT_REST_GO = 0 :=
  setFld_fld_fits _ _ _ _ (by decide) (by decide)

theorem goCleared_lead (s : State) (n : Fin 17) : lead (s.setFld (Reg.CKPT_REST n) F.CKPT_REST_GO 0) n = lead s n :=
  lead_congr (fun m => State.setFld_reg_ne s _ _ (by simp only [Reg.ARR_COUPLE, Reg.CKPT_REST]; omega)) n

include hups hgo hthrough hread

theorem restoreDone_fails (hzero : r.1.good = false) (hone : r.2.1.good = false) :
    ∃ u, execRestoreDone n ups s = .next u ∧ u.fld (Reg.CKPT_REST n) F.CKPT_REST_FAIL = 1 ∧
      u.fld (Reg.CKPT_REST n) F.CKPT_REST_GO = 0 ∧ u.arrays = s1.arrays ∧
      ∃ p, Raised r.2.2 u [(16 * (lead s1 n).val + 6, p)] := by
  have haccess := readHeaders_access hread
  obtain ⟨p, hexec⟩ := execRestoreDone_neither hups hgo hthrough hread (by simp only [newestSlot, hzero, hone])
  obtain ⟨hfail, hgone, harrays, hraised⟩ := failRestore_fails (r.2.2.setFld (Reg.CKPT_REST n) F.CKPT_REST_GO 0) n p
  rw [goCleared_lead, lead_congr haccess.couple] at hraised
  exact ⟨_, hexec, hfail, hgone.trans (goCleared r.2.2 n), harrays.trans haccess.arrays, p, (Raised.of_eq rfl).trans hraised⟩

theorem restoreDone_restores {k : Fin 2} {d : List Byte} (hnew : newestSlot r.1 r.2.1 = some k)
    (hchecked : (checkedSlot (r.2.2.setFld (Reg.CKPT_REST n) F.CKPT_REST_GO 0) (restoreArea s1 n) k (if k = 0 then r.1 else r.2.1)).1 =
      some d) :
    ∃ u, execRestoreDone n ups s = .next u ∧ u.fld (Reg.CKPT_REST n) F.CKPT_REST_GO = 0 ∧
      u.fld (Reg.CKPT_REST n) F.CKPT_REST_FAIL = 0 ∧
      u.reg64 (Reg.CKPT_LINE_LO n) (Reg.CKPT_LINE_HI n) = (if k = 0 then r.1 else r.2.1).line ∧
      (∀ i < (if k = 0 then r.1 else r.2.1).count,
        (rowGet (u.array n).rows (((if k = 0 then r.1 else r.2.1).base.toNat + i) % 2048)).duty =
          BitVec.ofNat 16384 (leNat ((d.drop (2048 * i)).take 2048))) ∧
      ∀ m, m ≠ n → u.array m = s1.array m := by
  have haccess := readHeaders_access hread
  have hcount := checkedSlot_count hchecked
  obtain ⟨w, hw⟩ : ∃ w, checkedSlot (r.2.2.setFld (Reg.CKPT_REST n) F.CKPT_REST_GO 0) (restoreArea s1 n) k
    (if k = 0 then r.1 else r.2.1) = (some d, w) := ⟨_, Prod.ext hchecked rfl⟩
  have hexec := execRestoreDone_slot hups hgo hthrough hread hnew hw
  have hslot := (PierAccess.refl (r.2.2.setFld (Reg.CKPT_REST n) F.CKPT_REST_GO 0)).checkedSlot (restoreArea s1 n) k
    (if k = 0 then r.1 else r.2.1)
  rw [hw] at hslot
  generalize (if k = 0 then r.1 else r.2.1) = h at *
  obtain ⟨hgone, hfail, hline, hduty, hother⟩ := useSlot_restores w n h d (by omega)
  refine ⟨_, hexec, ?_, hfail, hline, hduty, fun m hm => (hother m hm).trans ((hslot.array m).trans (haccess.array m))⟩
  rw [hgone, hslot.fld (by simp only [Reg.CKPT_REST]; omega), goCleared]

end

end Sys2Proof.Machine
end

