-- ==== Sys2Proof/Proofs/CallFrames.lean ====
section
/-!
PROOFS. The frames that calls push into data scratch (R105, R107), and SPC_PC.
-/

namespace Sys2Proof.Machine

theorem OnlyBytes.readLE {lo hi a k : Nat} {s t : State} (h : OnlyBytes lo hi s t) (ha : a + k ≤ lo ∨ hi ≤ a) :
    t.readLE a k = s.readLE a k :=
  congrArg leNat (Memory.readBytes_eq _ _ k a fun i hi => h (a + i) (by omega))

/-! ## Words of a frame -/

theorem putScratch_only (s : State) (n : Fin 17) (a : Nat) (v : BitVec 32) :
    ∃ mem errs, putScratch s n a v = { s with mem := mem, errs := errs } := ⟨_, _, rfl⟩

theorem putScratch_onlyBytes {lo hi a : Nat} (s : State) (n : Fin 17) (v : BitVec 32) (hlo : lo ≤ Win.scratch n + a)
    (hhi : Win.scratch n + a + 4 ≤ hi) : OnlyBytes lo hi s (putScratch s n a v) :=
  (OnlyBytes.writeLE s _ hlo hhi).trans (.of_eq rfl)

theorem putScratch_readLE (s : State) (n : Fin 17) (a : Nat) (v : BitVec 32) :
    (putScratch s n a v).readLE (Win.scratch n + a) 4 = v.toNat :=
  (s.writeLE_readLE _ 4 _).trans (Nat.mod_eq_of_lt v.isLt)

/-- Words put into data scratch in order, each at its offset. -/
def putWords (n : Fin 17) (ws : List (Nat × BitVec 32)) (s : State) : State :=
  ws.foldl (fun s w => putScratch s n w.1 w.2) s

/-- The words at two offsets share no byte. -/
def WordsApart (p q : Nat × BitVec 32) : Prop := p.1 + 4 ≤ q.1 ∨ q.1 + 4 ≤ p.1

theorem putWords_only (n : Fin 17) (ws : List (Nat × BitVec 32)) (s : State) :
    ∃ mem errs, putWords n ws s = { s with mem := mem, errs := errs } := by
  refine List.foldlRecOn (motive := fun t : State => ∃ mem errs, t = { s with mem := mem, errs := errs }) _ _
    ⟨_, _, rfl⟩ fun t ht w _ => ?_
  obtain ⟨_, _, rfl⟩ := ht
  exact putScratch_only _ n w.1 w.2

theorem putWords_onlyBytes {lo hi : Nat} (n : Fin 17) (ws : List (Nat × BitVec 32)) (s : State)
    (h : ∀ w ∈ ws, lo ≤ w.1 ∧ w.1 + 4 ≤ hi) : OnlyBytes (Win.scratch n + lo) (Win.scratch n + hi) s (putWords n ws s) := by
  refine List.foldlRecOn (motive := OnlyBytes _ _ s) _ _ (.refl _ _ s) fun t ht w hw => ht.trans ?_
  obtain ⟨hlo, hhi⟩ := h w hw
  exact putScratch_onlyBytes t n w.2 (by omega) (by omega)

theorem putWords_keeps (n : Fin 17) (ws : List (Nat × BitVec 32)) (s : State) (w : Nat × BitVec 32)
    (h : ∀ x ∈ ws, WordsApart w x) : (putWords n ws s).readLE (Win.scratch n + w.1) 4 = s.readLE (Win.scratch n + w.1) 4 := by
  refine List.foldlRecOn (motive := fun t : State => t.readLE (Win.scratch n + w.1) 4 = s.readLE (Win.scratch n + w.1) 4) _ _
    rfl fun t ht x hx => (OnlyBytes.readLE (putScratch_onlyBytes t n x.2 (Nat.le_refl _) (Nat.le_refl _)) ?_).trans ht
  have := h x hx
  unfold WordsApart at this
  omega

/-- Words that share no byte are all read back. -/
theorem putWords_readLE (n : Fin 17) (ws : List (Nat × BitVec 32)) (s : State) (h : ws.Pairwise WordsApart) :
    ∀ w ∈ ws, (putWords n ws s).readLE (Win.scratch n + w.1) 4 = w.2.toNat := by
  induction ws generalizing s with
  | nil => exact fun w hw => absurd hw List.not_mem_nil
  | cons x ws ih =>
    obtain ⟨hx, hws⟩ := List.pairwise_cons.mp h
    intro w hw
    obtain rfl | hmem := List.mem_cons.mp hw
    · exact (putWords_keeps n ws _ w hx).trans (putScratch_readLE s n w.1 w.2)
    · exact ih _ hws w hmem

/-! ## The frame of a call -/

/-- The words of the frame that a call pushes below offset `top`: the link, the mask and the masked registers. -/
def frameWords (top : Nat) (link mask : BitVec 32) (v : Vector (BitVec 32) 32) : List (Nat × BitVec 32) :=
  (top - 4, link) :: (top - 8, mask) :: (maskRegs mask).zipIdx.map (fun p => (top - 12 - 4 * p.2, v.getD p.1 0))

theorem snd_lt_of_mem_zipIdx {α : Type} {l : List α} {p : α × Nat} (h : p ∈ l.zipIdx) : p.2 < l.length := by
  simpa using List.snd_lt_of_mem_zipIdx h

theorem zipIdx_pairwise_lt {α : Type} (l : List α) : l.zipIdx.Pairwise (fun p q => p.2 < q.2) := by
  have hindices : (l.zipIdx.map Prod.snd).Pairwise (· < ·) := by
    rw [List.zipIdx_map_snd]
    exact List.pairwise_lt_range'
  exact List.pairwise_map.mp hindices

section

variable {top : Nat} {mask : BitVec 32} (link : BitVec 32) (v : Vector (BitVec 32) 32)
  (htop : 4 * (2 + (maskRegs mask).length) ≤ top)

include htop

theorem frameWords_bounds : ∀ w ∈ frameWords top link mask v, top - 4 * (2 + (maskRegs mask).length) ≤ w.1 ∧ w.1 + 4 ≤ top := by
  intro w hw
  simp only [frameWords, List.mem_cons, List.mem_map] at hw
  obtain rfl | rfl | ⟨p, hp, rfl⟩ := hw
  · dsimp only
    omega
  · dsimp only
    omega
  · have := snd_lt_of_mem_zipIdx hp
    dsimp only
    omega

theorem frameWords_apart : (frameWords top link mask v).Pairwise WordsApart := by
  have hregs : ((maskRegs mask).zipIdx.map (fun p => (top - 12 - 4 * p.2, v.getD p.1 0))).Pairwise WordsApart := by
    refine List.pairwise_map.mpr ((zipIdx_pairwise_lt _).imp_of_mem fun hp hq hlt => ?_)
    have := snd_lt_of_mem_zipIdx hq
    unfold WordsApart
    omega
  have hbelow : ∀ w ∈ (maskRegs mask).zipIdx.map (fun p => (top - 12 - 4 * p.2, v.getD p.1 0)), w.1 + 12 ≤ top := by
    intro w hw
    obtain ⟨p, hp, rfl⟩ := List.mem_map.mp hw
    have := snd_lt_of_mem_zipIdx hp
    dsimp only
    omega
  refine List.pairwise_cons.mpr ⟨fun w hw => ?_, List.pairwise_cons.mpr ⟨fun w hw => ?_, hregs⟩⟩
  · unfold WordsApart
    obtain rfl | hmem := List.mem_cons.mp hw
    · dsimp only
      omega
    · have := hbelow w hmem
      dsimp only
      omega
  · have := hbelow w hw
    unfold WordsApart
    dsimp only
    omega

end

theorem putWords_frameWords (s : State) (n : Fin 17) (top : Nat) (link mask : BitVec 32) (v : Vector (BitVec 32) 32) :
    (maskRegs mask).zipIdx.foldl (fun s p => putScratch s n (top - 12 - 4 * p.2) (v.getD p.1 0))
      (putScratch (putScratch s n (top - 4) link) n (top - 8) mask) = putWords n (frameWords top link mask v) s := by
  rw [putWords, frameWords, List.foldl_cons, List.foldl_cons, List.foldl_map]

/-- The link word of a call (R105, R107). -/
def linkWord (ret : Nat) (irq : Bool) : BitVec 32 := BitVec.ofNat 32 (ret + irq.toNat * 2 ^ 31)

theorem linkWord_irq {ret : Nat} (h : ret < 2048) : (linkWord ret true).toNat = ret + 2 ^ 31 := by
  rw [linkWord, BitVec.toNat_ofNat, Bool.toNat_true, Nat.one_mul]
  exact Nat.mod_eq_of_lt (by omega)

/-- The frame of a call of controller `n` stands in its data scratch. -/
def pushFrame (s : State) (n : Fin 17) (link mask : BitVec 32) : State :=
  putWords n (frameWords (s.ctl n).fp.toNat link mask (s.ctl n).v) s

/-- The controller after a call with mask `mask`. -/
def SpanCtl.called (c : SpanCtl) (mask : BitVec 32) (irq : Bool) : SpanCtl :=
  { c with fp := BitVec.ofNat 32 (c.fp.toNat - 4 * (2 + (maskRegs mask).length)), frames := c.fp.toNat :: c.frames,
           busy := 1 + (maskRegs mask).length, ie := c.ie && !irq }

theorem pushFrame_only (s : State) (n : Fin 17) (link mask : BitVec 32) :
    ∃ mem errs, pushFrame s n link mask = { s with mem := mem, errs := errs } := putWords_only n _ s

theorem callFrame_eq {s : State} {n : Fin 17} {mask : BitVec 32}
    (hroom : 0x7000 + 4 * (2 + (maskRegs mask).length) ≤ (s.ctl n).fp.toNat) (target ret : Nat) (irq : Bool) :
    callFrame s n target mask ret irq =
      setPc ((pushFrame s n (linkWord ret irq) mask).setCtl n ((s.ctl n).called mask irq)) n target := by
  have hctl : (pushFrame s n (linkWord ret irq) mask).ctl n = s.ctl n := by
    obtain ⟨_, _, honly⟩ := pushFrame_only s n (linkWord ret irq) mask
    rw [honly]
    rfl
  rw [callFrame, if_neg (Nat.not_lt.mpr hroom)]
  dsimp only
  rw [putWords_frameWords, ← linkWord, ← pushFrame, hctl]
  rfl

/-! ## SPC_PC -/

theorem setPc_only (s : State) (n : Fin 17) (i : Nat) : RegsOnly s (setPc s n i) := ((RegsOnly.refl s).setFld _ _ _).setFld _ _ _

theorem setPc_onlyRegs (s : State) (n : Fin 17) (i : Nat) : OnlyRegs [Reg.SPC_PC n] s (setPc s n i) :=
  (OnlyRegs.setFld s _ _ (List.mem_singleton_self _)).trans (.setFld _ _ _ (List.mem_singleton_self _))

theorem setPc_index (s : State) (n : Fin 17) {i : Nat} (hi : i < 2048) :
    (setPc s n i).fld (Reg.SPC_PC n) F.SPC_PC_INDEX = i := setFld_fld_fits _ _ _ _ (by decide) hi

/-! ## An interrupt -/

/-- A call of controller `n` has been made from `s`: its frame, its PC and what it leaves. -/
structure Called (n : Fin 17) (target : Nat) (link mask : BitVec 32) (irq : Bool) (s t : State) : Prop where
  ctl : t.ctl n = (s.ctl n).called mask irq
  pc : t.fld (Reg.SPC_PC n) F.SPC_PC_INDEX = target
  words : ∀ w ∈ frameWords (s.ctl n).fp.toNat link mask (s.ctl n).v, t.readLE (Win.scratch n + w.1) 4 = w.2.toNat
  bytes : OnlyBytes (Win.scratch n + ((s.ctl n).fp.toNat - 4 * (2 + (maskRegs mask).length)))
    (Win.scratch n + (s.ctl n).fp.toNat) s t
  regs : OnlyRegs [Reg.SPC_PC n] s t

theorem setPc_called {n : Fin 17} {target : Nat} (ht : target < 2048) {link mask : BitVec 32} (irq : Bool) {s : State}
    (hroom : 4 * (2 + (maskRegs mask).length) ≤ (s.ctl n).fp.toNat) :
    Called n target link mask irq s (setPc ((pushFrame s n link mask).setCtl n ((s.ctl n).called mask irq)) n target) := by
  have hread := putWords_readLE n _ s (frameWords_apart link (s.ctl n).v hroom)
  have hbytes := putWords_onlyBytes n _ s (frameWords_bounds link (s.ctl n).v hroom)
  have honly : OnlyRegs [Reg.SPC_PC n] s (pushFrame s n link mask) := by
    obtain ⟨_, _, honly⟩ := pushFrame_only s n link mask
    exact .of_eq (by rw [honly])
  rw [← pushFrame] at hread hbytes
  generalize pushFrame s n link mask = u at *
  obtain ⟨_, hpc⟩ := setPc_only (u.setCtl n ((s.ctl n).called mask irq)) n target
  refine ⟨?_, setPc_index _ n ht, fun w hw => ?_, hbytes.trans (.of_eq ?_),
    (honly.trans (.of_eq rfl)).trans (setPc_onlyRegs _ n target)⟩
  · rw [hpc]
    exact State.setCtl_ctl_self ..
  · rw [hpc]
    exact hread w hw
  · rw [hpc]
    rfl

theorem execInterruptEntry_due {n : Fin 17} {ups : List Upset} {s s1 : State} (hups : applyUpsets s ups = s1)
    (hlead : lead s1 n = n) (hdue : interruptDue s1 n = true) : execInterruptEntry n ups s = .next (takeInterrupt s1 n) := by
  subst hups
  exact if_pos ⟨hlead, hdue⟩

theorem takeInterrupt_called {n : Fin 17} {s : State}
    (hroom : 0x7000 + 4 * (2 + (maskRegs (s.reg (Reg.SPC_IMASK n))).length) ≤ (s.ctl n).fp.toNat) :
    Called n (s.fld (Reg.SPC_ENTRY n) F.SPC_ENTRY_IVEC) (linkWord (s.fld (Reg.SPC_PC n) F.SPC_PC_INDEX) true)
      (s.reg (Reg.SPC_IMASK n)) true (s.setCtl n { s.ctl n with waiting := false }) (takeInterrupt s n) := by
  have hctl : ((s.setCtl n { s.ctl n with waiting := false }).ctl n).fp = (s.ctl n).fp := by rw [State.setCtl_ctl_self]
  have hivec : s.fld (Reg.SPC_ENTRY n) F.SPC_ENTRY_IVEC < 2048 := Nat.mod_lt _ (by decide)
  have htake : takeInterrupt s n = callFrame (s.setCtl n { s.ctl n with waiting := false }) n
    (s.fld (Reg.SPC_ENTRY n) F.SPC_ENTRY_IVEC) (s.reg (Reg.SPC_IMASK n)) (s.fld (Reg.SPC_PC n) F.SPC_PC_INDEX) true := rfl
  rw [← hctl] at hroom
  rw [htake, callFrame_eq hroom]
  exact setPc_called hivec true (by omega)

/-- An interrupt is taken: its frame is pushed, interrupts are masked, and IVEC is next. -/
theorem takeInterrupt_enters {n : Fin 17} {s : State}
    (hroom : 0x7000 + 4 * (2 + (maskRegs (s.reg (Reg.SPC_IMASK n))).length) ≤ (s.ctl n).fp.toNat) :
    let top := (s.ctl n).fp.toNat
    let regs := maskRegs (s.reg (Reg.SPC_IMASK n))
    ((takeInterrupt s n).ctl n).ie = false ∧
      ((takeInterrupt s n).ctl n).fp = BitVec.ofNat 32 (top - 4 * (2 + regs.length)) ∧
      ((takeInterrupt s n).ctl n).v = (s.ctl n).v ∧
      (takeInterrupt s n).fld (Reg.SPC_PC n) F.SPC_PC_INDEX = s.fld (Reg.SPC_ENTRY n) F.SPC_ENTRY_IVEC ∧
      (takeInterrupt s n).readLE (Win.scratch n + (top - 4)) 4 = s.fld (Reg.SPC_PC n) F.SPC_PC_INDEX + 2 ^ 31 ∧
      (takeInterrupt s n).readLE (Win.scratch n + (top - 8)) 4 = (s.reg (Reg.SPC_IMASK n)).toNat ∧
      (∀ p ∈ regs.zipIdx, (takeInterrupt s n).readLE (Win.scratch n + (top - 12 - 4 * p.2)) 4 = ((s.ctl n).v[p.1]).toNat) ∧
      OnlyBytes (Win.scratch n + (top - 4 * (2 + regs.length))) (Win.scratch n + top) s (takeInterrupt s n) ∧
      OnlyRegs [Reg.SPC_PC n] s (takeInterrupt s n) := by
  obtain ⟨hctl, hpc, hwords, hbytes, hregs⟩ := takeInterrupt_called hroom
  have hindex : s.fld (Reg.SPC_PC n) F.SPC_PC_INDEX < 2048 := Nat.mod_lt _ (by decide)
  have hlink := linkWord_irq hindex
  rw [State.setCtl_ctl_self] at hctl hwords hbytes
  generalize takeInterrupt s n = t at *
  generalize linkWord (s.fld (Reg.SPC_PC n) F.SPC_PC_INDEX) true = link at *
  simp only [frameWords, List.forall_mem_cons, List.forall_mem_map] at hwords
  obtain ⟨hlinked, hmask, hmasked⟩ := hwords
  refine ⟨by rw [hctl, SpanCtl.called, Bool.not_true, Bool.and_false], by rw [hctl]; rfl, by rw [hctl]; rfl, hpc,
    hlinked.trans hlink, hmask, fun p hp => (hmasked p hp).trans ?_, (OnlyBytes.of_eq rfl).trans hbytes,
    (OnlyRegs.of_eq rfl).trans hregs⟩
  simp [Vector.getD]

end Sys2Proof.Machine

namespace Sys2Proof

open Machine

/-- Settles O14: a frame of words that share no byte reads back; a stop shows in every span of the domain, and so does a
start; and the accesses of a restore leave all registers below the piers and all arrays. -/
theorem spanStopStartCommandsComplete : Obligations.SpanStopStartCommandsComplete := by
  unfold Obligations.SpanStopStartCommandsComplete
  refine ⟨?interrupt, ?drain, ?drained, ?stop, ?start, ?watchdog, ?restore, ?restored⟩
  case interrupt =>
    intro n ups s s1 top regs hlead hdue hroom _
    exact ⟨takeInterrupt s1 n, execInterruptEntry_due rfl hlead hdue, takeInterrupt_enters hroom⟩
  case drain =>
    intro n s hlead hstate
    exact ⟨stopDrain s n, rfl, stopDrain_shows hlead hstate⟩
  case drained => exact fun n s hstate hdrain => drainComplete_stops hstate hdrain
  case stop =>
    intro n f s m hlead hstate hsnap
    have happly : exec (.stopNow n f) s = .next (if f then stopNowFault s n else stopWritten s n) := rfl
    have hexec : exec (.stopNow n f) s = .next (stopNow s m (if f then 2 else 1)) := by
      rw [happly]
      cases f with
      | false => simp only [m, stopWritten, hlead, if_true, if_false, Bool.false_eq_true]
      | true => simp only [m, stopNowFault, if_true]
    have hcause : (if f then 2 else 1) < 8 := by split <;> decide
    obtain ⟨u, hstopped, hqueue, hop, hv, haborted, hraises, hled⟩ := stopNow_stops hstate hsnap hcause
    generalize stopNow s m (if f then 2 else 1) = t at *
    obtain ⟨hthree, hshown, hstop⟩ := hstopped.shows
    obtain ⟨_, _, honly⟩ := hstopped.only
    obtain ⟨l, hraised⟩ := hstopped.raised
    have hctl : t.ctl m = u.ctl m := by rw [honly]; rfl
    have hmicro : t.micro m = u.micro m := by rw [honly]; rfl
    refine ⟨t, hexec, hthree, hshown, hstop, ?_, ?_, ?_, ?_, l, ?_⟩
    · rw [hctl, hqueue]
    · rw [hmicro, hop]
    · rw [hctl, hv]
    · rw [hstopped.aborted, haborted]
    · rw [← hled]
      exact (Raised.of_eq hraises).trans hraised
  case start =>
    intro n s hlead hstate hswept
    have hexec : exec (.spanStart n) s = .next (startSpan s n) :=
      congrArg Host.Outcome.next ((if_neg (by simp [hlead, hstate])).trans (if_pos hswept))
    obtain ⟨⟨⟨c, hctl⟩, hgauge, haborted⟩, hrun, hstop, hindex, hbank⟩ := startSpan_starts s n
    have hkeeps := (KeepsArrays.refl s).startSpan n
    generalize startSpan s n = t at *
    refine ⟨t, hexec, hrun, hstop, ?_⟩
    rw [hctl]
    exact ⟨rfl, rfl, rfl, rfl, rfl, rfl, rfl, hgauge, hindex, hbank, haborted, hkeeps.mem, hkeeps.raises⟩
  case watchdog =>
    intro n s hstate hlimit hreached hquiet
    have hfired : ((raiseSpc (s.setCtl n { s.ctl n with wdogFired := true }) n 1 0).ctl n).wdogFired = true :=
      congrArg SpanCtl.wdogFired (State.setCtl_ctl_self s n _)
    exact ⟨_, spcWatchdog_fires hstate hlimit hreached hquiet, .raise _ _ 0, spcWatchdog_fired hfired, rfl⟩
  case restore => exact fun n s hstate => congrArg Host.Outcome.next (if_pos hstate)
  case restored =>
    intro n ups s s1 r hgo hthrough
    have hread : readHeaders s1 (restoreArea s1 n) = r := rfl
    exact ⟨restoreDone_fails rfl hgo hthrough hread, fun _ _ hnew hchecked =>
      restoreDone_restores rfl hgo hthrough hread hnew hchecked⟩

end Sys2Proof
end

