-- ==== Sys2Proof/Proofs/SpanBundles.lean ====
section
/-!
PROOFS. A bundle of a span controller (R90 to R94, R98, R104): what its moves leave, the registers v that it writes, and
the next bundle.
-/

namespace Sys2Proof.Machine

/-! ## What the parts of a bundle leave -/

/-- From `s` on, parts of a bundle of controller `n` have left `v` in its registers v, have written memory in its data scratch
at most, and have not moved its SPC_PC. -/
structure BundleLeaves (n : Fin 17) (s : State) (v : Vector (BitVec 32) 32) (t : State) : Prop where
  v : (t.ctl n).v = v
  bytes : OnlyBytes (Win.scratch n) (Win.scratch n + 0x8000) s t
  pc : t.reg (Reg.SPC_PC n) = s.reg (Reg.SPC_PC n)

namespace BundleLeaves

variable {n : Fin 17} {s t : State} {v : Vector (BitVec 32) 32}

theorem refl (n : Fin 17) (s : State) : BundleLeaves n s (s.ctl n).v s := ⟨rfl, .refl _ _ s, rfl⟩

theorem ite {c : Prop} {_ : Decidable c} {u : State} (ht : BundleLeaves n s v t) (hu : BundleLeaves n s v u) :
    BundleLeaves n s v (if c then t else u) := by
  split <;> assumption

section

variable (h : BundleLeaves n s v t)

include h

theorem setCtl {c : SpanCtl} (hc : c.v = (t.ctl n).v) : BundleLeaves n s v (t.setCtl n c) :=
  ⟨by rw [State.setCtl_ctl_self, hc, h.v], h.bytes.trans (.of_eq rfl), h.pc⟩

theorem setMicro (x : MicroSeq) : BundleLeaves n s v (t.setMicro n x) := ⟨h.v, h.bytes.trans (.of_eq rfl), h.pc⟩

theorem bump {a : Nat} (ha : Reg.SPC_PC n ≠ a) (f : Fld) (k : Nat) : BundleLeaves n s v (t.bump a f k) :=
  ⟨h.v, h.bytes.trans (.of_eq rfl), (State.bump_reg_ne t f k ha).trans h.pc⟩

theorem setFld {a : Nat} (ha : Reg.SPC_PC n ≠ a) (f : Fld) (k : Nat) : BundleLeaves n s v (t.setFld a f k) :=
  ⟨h.v, h.bytes.trans (.of_eq rfl), (State.setFld_reg_ne t f k ha).trans h.pc⟩

theorem raise (src : Nat) (pay : BitVec 32) : BundleLeaves n s v (t.raise src pay) :=
  ⟨h.v, h.bytes.trans (.of_eq rfl), h.pc⟩

theorem setErr (a m : Nat) : BundleLeaves n s v (t.setErr a m) := ⟨h.v, h.bytes.trans (.of_eq rfl), h.pc⟩

theorem writeLE {a k : Nat} (x : Nat) (hlo : Win.scratch n ≤ a) (hhi : a + k ≤ Win.scratch n + 0x8000) :
    BundleLeaves n s v (t.writeLE a k x) := ⟨h.v, h.bytes.trans (.writeLE t x hlo hhi), h.pc⟩

theorem misc (f : Fld) (k : Nat) : BundleLeaves n s v (t.bump (Reg.SPC_MISC n) f k) :=
  h.bump (by simp only [Reg.SPC_PC, Reg.SPC_MISC]; omega) f k

theorem strayMoves (f : Fld) (k : Nat) : BundleLeaves n s v (t.bump (Reg.STRAY_MOVES n) f k) :=
  h.bump (by simp only [Reg.SPC_PC, Reg.STRAY_MOVES]; omega) f k

theorem strayMove : BundleLeaves n s v (strayMove t n) := h.strayMoves _ _

theorem strayAddr : BundleLeaves n s v (strayAddr t n) := h.strayMoves _ _

theorem countSource (m : Taken) (before : State) : BundleLeaves n s v (countSource n m before t) := .ite h.strayMove h

theorem afterRead (k : Nat) : BundleLeaves n s v (afterRead t n k) := by
  unfold Machine.afterRead
  dsimp only
  split
  · split
    · exact h.setMicro _
    · exact h.misc _ _
  · exact .ite (h.setCtl rfl) h

theorem scratchRead (a : Nat) : BundleLeaves n s v (scratchRead t n a).2 := by
  unfold Machine.scratchRead
  split
  · exact h
  · exact (h.setErr _ _).misc _ _
  · exact h

theorem pierRequest (write : Bool) (off size : Nat) (data : List Byte) :
    BundleLeaves n s v (pierRequest t n write off size data) := h.setCtl rfl

theorem enqueue (e : QueueEntry) : BundleLeaves n s v (enqueue t n e) := h.setCtl rfl

theorem sendMessage (cls : Nat) : BundleLeaves n s v (sendMessage t n cls) := h.setCtl rfl

theorem rollPosts : BundleLeaves n s v (rollPosts t n) := h.setCtl rfl

end

end BundleLeaves

/-! ## Loads and stores -/

theorem lsuSize_cases (k : Nat) : lsuSize k = 1 ∨ lsuSize k = 2 ∨ lsuSize k = 4 := by
  unfold lsuSize
  split
  · exact .inl rfl
  · split
    · exact .inr (.inl rfl)
    · exact .inr (.inr rfl)

/-- An aligned access that begins below 0x8000 ends there at the latest. -/
theorem lsuSize_fits {k x : Nat} (hx : x < 0x8000) : x - x % lsuSize k + lsuSize k ≤ 0x8000 := by
  obtain h | h | h := lsuSize_cases k <;> rw [h] <;> omega

/-- What a trigger of a bundle may ask of its end, when it is no call or return: a jump, or a stop for the data scratch. -/
structure FlowGoesOn (f g : Flow) : Prop where
  call : g.call = f.call
  ret : g.ret = f.ret
  stop : g.stop = f.stop ∨ g.stop = some 5

theorem FlowGoesOn.refl (f : Flow) : FlowGoesOn f f := ⟨rfl, rfl, .inl rfl⟩

theorem FlowGoesOn.trans {f g h : Flow} (k : FlowGoesOn f g) (l : FlowGoesOn g h) : FlowGoesOn f h :=
  ⟨l.call.trans k.call, l.ret.trans k.ret, l.stop.elim (fun e => k.stop.imp e.trans e.trans) .inr⟩

section

variable {n : Fin 17} {s t : State} {v : Vector (BitVec 32) 32}

theorem BundleLeaves.fst_ite_of {c : Prop} {_ : Decidable c} {a b : State × Flow} (ha : c → BundleLeaves n s v a.1)
    (hb : BundleLeaves n s v b.1) : BundleLeaves n s v (if c then a else b).1 := by
  split
  · exact ha ‹c›
  · exact hb

theorem BundleLeaves.fst_ite {c : Prop} {_ : Decidable c} {a b : State × Flow} (ha : BundleLeaves n s v a.1)
    (hb : BundleLeaves n s v b.1) : BundleLeaves n s v (if c then a else b).1 := fst_ite_of (fun _ => ha) hb

theorem BundleLeaves.lsuTrigger (h : BundleLeaves n s v t) (f : Flow) (k : Nat) (x : BitVec 32) :
    BundleLeaves n s v (lsuTrigger t n f k x).1 := by
  unfold Machine.lsuTrigger
  refine fst_ite h ?_
  extract_lets load size scr c strayed _ aligned a w r
  have haligned : BundleLeaves n s v aligned := .ite h h.strayAddr
  have hr : BundleLeaves n s v r.2 := by
    unfold r
    split
    · exact haligned.scratchRead _
    · exact haligned
  refine fst_ite (.ite (h.strayAddr.setCtl rfl) h.strayAddr) <| fst_ite_of (fun hscr => ?_) <|
    fst_ite ((haligned.pierRequest _ _ _ _).setCtl rfl) ((haligned.pierRequest _ _ _ _).setCtl rfl)
  have hfits : a + size ≤ 0x8000 := lsuSize_fits hscr
  exact fst_ite hr <| fst_ite (hr.setCtl rfl)
    ((hr.writeLE (a := Win.scratch n + a) (k := size) _ (by omega) (by omega)).setErr _ _)

end

theorem goesOn_ite {f : Flow} {c : Prop} {_ : Decidable c} {a b : State × Flow} (ha : FlowGoesOn f a.2) (hb : FlowGoesOn f b.2) :
    FlowGoesOn f (if c then a else b).2 := by
  split <;> assumption

theorem lsuTrigger_goesOn (s : State) (n : Fin 17) (f : Flow) (k : Nat) (x : BitVec 32) :
    FlowGoesOn f (lsuTrigger s n f k x).2 :=
  goesOn_ite (.refl f) <| goesOn_ite (.refl f) <| goesOn_ite
    (goesOn_ite ⟨rfl, rfl, .inr rfl⟩ <| goesOn_ite (.refl f) (.refl f)) (goesOn_ite (.refl f) (.refl f))

/-! ## Triggers -/

section

variable {n : Fin 17} {s : State} {v : Vector (BitVec 32) 32}

theorem BundleLeaves.fireSock {sf : State × Flow} (h : BundleLeaves n s v sf.1) (k : Nat) (x : BitVec 32) :
    BundleLeaves n s v (fireSock n sf k x).1 := by
  have hint : Reg.SPC_PC n ≠ Reg.SPC_INT n := by
    simp only [Reg.SPC_PC, Reg.SPC_INT]
    omega
  have hrolled := (h.enqueue .lineSync).rollPosts
  have hstray (f : Flow) {c : Prop} {_ : Decidable c} {r : State × Flow} (hr : BundleLeaves n s v r.1) :
      BundleLeaves n s v (if c then (Machine.strayMove sf.1 n, f) else r).1 := by
    split
    · exact h.strayMove
    · exact hr
  unfold Machine.fireSock
  extract_lets u f c i a rolled
  refine fst_ite (h.setCtl rfl) <| fst_ite (h.setCtl rfl) <| fst_ite (h.lsuTrigger _ _ _) <| fst_ite (hstray f h) <|
    fst_ite (hstray f h) <| fst_ite (hstray f h) <| fst_ite (h.setFld hint _ _) <| fst_ite (h.enqueue _) <|
    fst_ite (h.enqueue _) <| fst_ite (.ite (hrolled.setCtl rfl) hrolled) <| fst_ite (fst_ite (h.enqueue _) h.strayMove) <|
    fst_ite (hstray f (h.sendMessage _)) <| fst_ite ?_ <| fst_ite (h.raise _ _) h
  split
  · exact h.strayMove
  · exact h.setCtl rfl

end

/-- The jump socket is alone in its unit. -/
theorem eq_of_sockUnit_eq_four {k : Nat} (h : sockUnit k = 4) : k = 0xA0 := by
  unfold sockUnit at h
  grind

theorem snd_ite {f : Flow} {c : Prop} {_ : Decidable c} {a b : State × Flow} (ha : a.2 = f) (hb : b.2 = f) :
    (if c then a else b).2 = f := by
  split <;> assumption

theorem fireSock_flow_kept (n : Fin 17) (sf : State × Flow) {k : Nat} (x : BitVec 32) (hload : sockUnit k ≠ 3)
    (hjump : sockUnit k ≠ 4) (hcall : sockUnit k ≠ 5) : (fireSock n sf k x).2 = sf.2 := by
  have h4 : k ≠ 0xA0 := fun e => hjump (e ▸ rfl)
  have h5 : k ≠ 0xB1 := fun e => hcall (e ▸ rfl)
  have h6 : k ≠ 0xB2 := fun e => hcall (e ▸ rfl)
  unfold fireSock
  extract_lets u f c i a rolled
  rw [if_neg hload, if_neg h4, if_neg h5, if_neg h6]
  refine snd_ite rfl <| snd_ite rfl <| snd_ite rfl <| snd_ite rfl <| snd_ite rfl <| snd_ite rfl <|
    snd_ite (snd_ite rfl rfl) <| snd_ite (snd_ite rfl rfl) <| snd_ite ?_ <| snd_ite rfl rfl
  split <;> rfl

theorem fireSock_goesOn (n : Fin 17) (sf : State × Flow) {k : Nat} (x : BitVec 32) (hcall : sockUnit k ≠ 5) :
    FlowGoesOn sf.2 (fireSock n sf k x).2 := by
  by_cases hload : sockUnit k = 3
  · have hfire : fireSock n sf k x = lsuTrigger sf.1 n sf.2 k x := by
      rw [fireSock, if_neg (by omega), if_neg (by omega), if_pos hload]
    rw [hfire]
    exact lsuTrigger_goesOn _ n _ k x
  by_cases hjump : sockUnit k = 4
  · obtain rfl := eq_of_sockUnit_eq_four hjump
    have hfire : fireSock n sf 0xA0 x = if 1364 < x.toNat % 2048 then (strayMove sf.1 n, sf.2)
      else (sf.1, { sf.2 with jump := some (x.toNat % 2048) }) := rfl
    rw [hfire]
    split
    · exact .refl _
    · exact ⟨rfl, rfl, .inl rfl⟩
  · exact fireSock_flow_kept n sf x hload hjump hcall ▸ .refl _

/-- Triggers fire in order, from a flow that asks nothing. -/
def fireAll (n : Fin 17) (l : List Taken) (s : State) : State × Flow :=
  l.foldl (fun sf t =>
    let r := fireSock n sf t.move.dst (t.read.value.getD 0)
    (countSource n t sf.1 r.1, r.2)) (s, Flow.empty)

theorem BundleLeaves.fireAll {n : Fin 17} {s t : State} {v : Vector (BitVec 32) 32} (h : BundleLeaves n s v t) (l : List Taken) :
    BundleLeaves n s v (fireAll n l t).1 :=
  List.foldlRecOn (motive := fun sf : State × Flow => BundleLeaves n s v sf.1) l _ h
    fun _ hsf m _ => (hsf.fireSock _ _).countSource m _

theorem fireAll_goesOn (n : Fin 17) (l : List Taken) (s : State) (hcall : ∀ m ∈ l, sockUnit m.move.dst ≠ 5) :
    FlowGoesOn .empty (fireAll n l s).2 :=
  List.foldlRecOn (motive := fun sf : State × Flow => FlowGoesOn .empty sf.2) l _ (.refl _)
    fun sf hsf m hm => hsf.trans (fireSock_goesOn n sf _ (hcall m hm))

theorem fireAll_flow_empty (n : Fin 17) (l : List Taken) (s : State)
    (h : ∀ m ∈ l, sockUnit m.move.dst ≠ 3 ∧ sockUnit m.move.dst ≠ 4 ∧ sockUnit m.move.dst ≠ 5) :
    (fireAll n l s).2 = .empty := by
  refine List.foldlRecOn (motive := fun sf : State × Flow => sf.2 = .empty) l _ rfl fun sf hsf m hm => ?_
  obtain ⟨hload, hjump, hcall⟩ := h m hm
  exact (fireSock_flow_kept n sf _ hload hjump hcall).trans hsf

/-! ## Registers v -/

theorem BundleLeaves.setV {n : Fin 17} {s t : State} {v : Vector (BitVec 32) 32} (h : BundleLeaves n s v t) (k : Nat)
    (x : BitVec 32) : BundleLeaves n s (v.setIfInBounds k x) (t.setCtl n { t.ctl n with v := (t.ctl n).v.setIfInBounds k x }) :=
  ⟨by rw [State.setCtl_ctl_self, h.v], h.bytes.trans (.of_eq rfl), h.pc⟩

theorem BundleLeaves.writeSock {n : Fin 17} {s t : State} {v : Vector (BitVec 32) 32} (h : BundleLeaves n s v t) (k : Nat)
    (x : BitVec 32) : BundleLeaves n s (v.setIfInBounds k x) (writeSock t n k x) := by
  by_cases hk : k < 0x20
  · rw [Machine.writeSock, if_pos hk]
    exact h.setV k x
  · have hsame : v.setIfInBounds k x = v := by
      ext i hi
      rw [Vector.getElem_setIfInBounds, if_neg (by omega)]
    rw [hsame, Machine.writeSock, if_neg hk]
    have hc {c : SpanCtl} (hv : c.v = (t.ctl n).v) : BundleLeaves n s v (t.setCtl n c) := h.setCtl hv
    exact .ite (hc rfl) <| .ite (hc rfl) <| .ite (hc rfl) <| .ite (hc rfl) <| .ite (hc rfl) <| .ite (hc rfl) <|
      .ite (hc rfl) <| .ite (hc rfl) <| .ite (hc rfl) <| .ite (hc rfl) <| .ite (.ite h.strayMove (hc rfl)) <|
      .ite (hc rfl) <| .ite (hc rfl) <| .ite (hc rfl) <| .ite (hc rfl) <| .ite (hc rfl) <| .ite (hc rfl) <|
      .ite (hc rfl) <| .ite (hc rfl) h

/-- The writes of a bundle's moves that are no triggers. -/
def writeAll (n : Fin 17) (l : List Taken) (s : State) : State :=
  l.foldl (fun s t => countSource n t s (writeSock s n t.move.dst (t.read.value.getD 0))) s

/-- Registers v after the moves of `l` have been written, in order. -/
def vWritten (l : List Taken) (v : Vector (BitVec 32) 32) : Vector (BitVec 32) 32 :=
  l.foldl (fun v t => v.setIfInBounds t.move.dst (t.read.value.getD 0)) v

theorem BundleLeaves.writeAll {n : Fin 17} {s t : State} {v : Vector (BitVec 32) 32} (h : BundleLeaves n s v t) (l : List Taken) :
    BundleLeaves n s (vWritten l v) (writeAll n l t) := by
  induction l generalizing t v with
  | nil => exact h
  | cons m l ih => exact ih ((h.writeSock _ _).countSource m t)

/-! ## The move of the highest slot -/

/-- The move of the highest slot with destination `k`. -/
def lastWrite (l : List Taken) (k : Nat) : Option Taken := l.reverse.find? (fun m => m.move.dst == k)

theorem lastWrite_cons (m : Taken) (l : List Taken) (k : Nat) :
    lastWrite (m :: l) k = (lastWrite l k).or (if m.move.dst = k then some m else none) := by
  rw [lastWrite, List.reverse_cons, List.find?_append, lastWrite, List.find?_singleton]
  simp only [beq_iff_eq]

theorem lastWrite_mem {l : List Taken} {k : Nat} {m : Taken} (h : lastWrite l k = some m) : m ∈ l :=
  List.mem_reverse.mp (List.mem_of_find?_eq_some h)

theorem lastWrite_isSome {l : List Taken} {k : Nat} (h : ∃ m ∈ l, m.move.dst = k) : (lastWrite l k).isSome := by
  obtain ⟨m, hm, hk⟩ := h
  exact List.find?_isSome.mpr ⟨m, List.mem_reverse.mpr hm, beq_iff_eq.mpr hk⟩

/-- Of several writes of a register the last one stands. -/
theorem vWritten_getElem (l : List Taken) (v : Vector (BitVec 32) 32) (k : Fin 32) :
    (vWritten l v)[k] = match lastWrite l k with
      | some m => m.read.value.getD 0
      | none => v[k] := by
  induction l generalizing v with
  | nil => rfl
  | cons m l ih =>
    have hset : (v.setIfInBounds m.move.dst (m.read.value.getD 0))[k] =
        if m.move.dst = k.val then m.read.value.getD 0 else v[k] := Vector.getElem_setIfInBounds k.isLt
    rw [vWritten, List.foldl_cons, ← vWritten, ih, lastWrite_cons, hset]
    cases lastWrite l k with
    | some u => rfl
    | none =>
      rw [Option.none_or]
      by_cases hdst : m.move.dst = k.val
      · rw [if_pos hdst, if_pos hdst]
      · rw [if_neg hdst, if_neg hdst]

/-- Moves that take effect and are no triggers. -/
def plainMoves (l : List Taken) : List Taken :=
  (effective l).1.filter (fun t => sockWrites t.move.dst && sockUnit t.move.dst == 0)

theorem sockUnit_register {k : Nat} (h : k < 32) : sockUnit k = 0 := by
  unfold sockUnit
  grind

/-- Two moves to a register collide only where it is the same one. -/
theorem collide_register {a k : Nat} (h : k < 32) : collide k a = true ↔ a = k := by
  rw [collide, sockUnit_register h, bne_self_eq_false, Bool.false_and, Bool.or_false, beq_iff_eq, eq_comm]

theorem sockWrites_register {k : Nat} (h : k < 32) : (sockWrites k && sockUnit k == 0) = true := by
  have hle : decide (k ≤ 0x23) = true := decide_eq_true (by omega)
  have hwrites : sockWrites k = true := by
    rw [sockWrites, hle, Bool.or_true, Bool.true_or, Bool.true_or, Bool.true_or, Bool.true_or]
  rw [hwrites, sockUnit_register h]
  rfl

/-- No move to a register is lost but those that a higher slot overrides. -/
theorem lastWrite_plainMoves (l : List Taken) {k : Nat} (hk : k < 32) : lastWrite (plainMoves l) k = lastWrite l k := by
  induction l with
  | nil => rfl
  | cons m l ih =>
    rw [lastWrite_cons, ← ih]
    by_cases hover : l.any (fun u => collide m.move.dst u.move.dst) = true
    · have hplain : plainMoves (m :: l) = plainMoves l := by
        simp only [plainMoves, effective, hover, if_true]
      rw [hplain]
      split
      · next hdst =>
        obtain ⟨u, hu, hcollide⟩ := List.any_eq_true.mp hover
        rw [hdst] at hcollide
        have hsome := lastWrite_isSome ⟨u, hu, (collide_register hk).mp hcollide⟩
        rw [← ih] at hsome
        rw [Option.or_of_isSome hsome]
      · rw [Option.or_none]
    · have hplain : plainMoves (m :: l) =
          if sockWrites m.move.dst && sockUnit m.move.dst == 0 then m :: plainMoves l else plainMoves l := by
        simp only [plainMoves, effective, hover, if_false, Bool.false_eq_true, List.filter_cons]
      rw [hplain]
      split
      · rw [lastWrite_cons]
      · next hno =>
        have hdst : m.move.dst ≠ k := fun h => hno (h ▸ sockWrites_register hk)
        rw [if_neg hdst, Option.or_none]

theorem mem_of_mem_effective {l : List Taken} {m : Taken} (h : m ∈ (effective l).1) : m ∈ l := by
  induction l with
  | nil => exact h
  | cons x l ih =>
    rw [effective] at h
    split at h
    · exact List.mem_cons_of_mem x (ih h)
    · obtain rfl | hmem := List.mem_cons.mp h
      · exact List.mem_cons_self ..
      · exact List.mem_cons_of_mem x (ih hmem)

/-! ## The end of a bundle -/

section

variable {n : Fin 17} {s : State} {f : Flow} {next : Nat} (hf : FlowGoesOn .empty f)

include hf

/-- A bundle without a call or a return moves SPC_PC at most, and has a jump's cycle behind it. -/
theorem bundleFlow_keeps : ((bundleFlow s n f next).ctl n).v = (s.ctl n).v ∧ (bundleFlow s n f next).mem = s.mem := by
  have hpc (i : Nat) : ((setPc s n i).ctl n).v = (s.ctl n).v ∧ (setPc s n i).mem = s.mem := by
    obtain ⟨_, h⟩ := setPc_only s n i
    rw [h]
    exact ⟨rfl, rfl⟩
  have hcall : f.call = none := hf.call
  have hret : f.ret = false := hf.ret
  simp only [bundleFlow, hcall, hret, Bool.false_eq_true, if_false]
  cases f.jump with
  | none => exact hpc next
  | some i =>
    obtain ⟨hv, hmem⟩ := hpc i
    exact ⟨by rw [State.setCtl_ctl_self, hv], hmem⟩

theorem bundleEnd_v : ((bundleEnd s n f next).ctl n).v = (s.ctl n).v := by
  obtain ⟨hv, -⟩ := bundleFlow_keeps (n := n) (s := s) (next := next) hf
  unfold bundleEnd
  obtain hstop | hstop := hf.stop <;> rw [hstop]
  · exact hv
  · exact (stopNow_v _ n (by decide) n).trans hv

/-- A bundle that asks for no stop leaves memory at its end. -/
theorem bundleEnd_mem (hruns : spcState (bundleEnd s n f next) n < 2) : (bundleEnd s n f next).mem = s.mem := by
  obtain ⟨-, hmem⟩ := bundleFlow_keeps (n := n) (s := s) (next := next) hf
  unfold bundleEnd at hruns ⊢
  obtain hstop | hstop := hf.stop <;> rw [hstop] at hruns ⊢
  · exact hmem
  · exact absurd hruns (Nat.not_lt.mpr (stopNow_state _ n (by decide)))

end

/-! ## A whole bundle -/

/-- A move that takes place, with the read of its source. -/
def readMove (s : State) (n : Fin 17) (pc : Nat) (m : Move) : Taken := ⟨m, if m.si then readNow m.imm else readSock s n pc m.src⟩

/-- The moves of a bundle that take place (R92), with their sources read. -/
def takenMoves (s : State) (n : Fin 17) (bank pc : Nat) : List Taken :=
  ((bundleMoves s n bank pc).filter (fun m => m.takesPlace (s.ctl n).g)).map (readMove s n pc)

/-- Whether a trigger that takes effect makes the bundle wait, and why. -/
def triggersWait (s : State) (n : Fin 17) (taken : List Taken) : List Nat :=
  (effective taken).1.map (fun t => triggerWaits s n t.move.dst (t.read.value.getD 0))

/-- What the reads of a bundle leave behind, and what its moves count. -/
def readAll (s : State) (n : Fin 17) (taken : List Taken) : State :=
  let s := s.setCtl n { s.ctl n with waiting := false }
  let s := s.bump (Reg.SPC_MISC n) F.SPC_MISC_COLL (effective taken).2
  let s := (effective taken).1.foldl (fun s t => if sockWrites t.move.dst then s else strayMove s n) s
  let s := (((taken.filter (fun t => !t.move.si)).map (·.move.src)).dedup).foldl (fun s k => afterRead s n k) s
  (overridden taken).foldl (fun s t => if t.read.stray then strayMove s n else s) s

/-- The triggers of a bundle that take effect. -/
def triggerMoves (taken : List Taken) : List Taken := (effective taken).1.filter (fun t => sockUnit t.move.dst != 0)

section

variable {s : State} {n : Fin 17} {bank pc : Nat} {taken : List Taken} (htaken : takenMoves s n bank pc = taken)

include htaken

theorem runBundle_waits (h : (taken.any (fun t => t.read.value.isNone) || (triggersWait s n taken).any (· != 0)) = true) :
    runBundle s n bank pc = (countWait s n ((triggersWait s n taken).contains 1) (taken.any (·.read.plane))).setCtl n
      { s.ctl n with waiting := true } := by
  subst htaken
  exact if_pos h

theorem runBundle_runs (h : ¬(taken.any (fun t => t.read.value.isNone) || (triggersWait s n taken).any (· != 0)) = true) :
    runBundle s n bank pc =
      let fired := fireAll n (triggerMoves taken) (writeAll n (plainMoves taken) (readAll s n taken))
      bundleEnd fired.1 n fired.2 ((pc + 1) % 1365) := by
  subst htaken
  exact if_neg h

end

theorem readAll_leaves (s : State) (n : Fin 17) (taken : List Taken) : BundleLeaves n s (s.ctl n).v (readAll s n taken) := by
  have hfold {α : Type} {t : State} (f : State → α → State) (l : List α) (h : BundleLeaves n s (s.ctl n).v t)
      (hf : ∀ t, BundleLeaves n s (s.ctl n).v t → ∀ x, BundleLeaves n s (s.ctl n).v (f t x)) :
      BundleLeaves n s (s.ctl n).v (l.foldl f t) := List.foldlRecOn l f h fun t ht x _ => hf t ht x
  have hstart : BundleLeaves n s (s.ctl n).v (s.setCtl n { s.ctl n with waiting := false }) := .setCtl (.refl n s) rfl
  refine hfold _ _ (hfold _ _ (hfold _ _ (hstart.misc _ _) fun t ht x => ?_) fun t ht k => ht.afterRead k)
    fun t ht x => ?_
  · exact .ite ht ht.strayMove
  · exact .ite ht.strayMove ht

/-- The controller in a cycle in which its bundle may execute: the load/store unit and the watchdog count. -/
def cycleCtl (s : State) (n : Fin 17) : SpanCtl :=
  { s.ctl n with lsuWait := (s.ctl n).lsuWait - 1,
                 wdog := if spcState s n = 0 ∧ (s.ctl n).wdogFired = false then (s.ctl n).wdog + 1 else (s.ctl n).wdog }

theorem execBundleExecute_bundle {n : Fin 17} {ups : List Upset} {s s1 : State} (hs : flushOut (applyUpsets s ups) n = s1)
    (hlead : lead s1 n = n) (hstate : spcState s1 n < 2) (hdrain : (s1.ctl n).drain = 0) (hbusy : (s1.ctl n).busy = 0)
    (hint : interruptDue (s1.setCtl n (cycleCtl s1 n)) n = false)
    (hparity : s1.parity.contains (Win.bundle n (s1.fld (Reg.SPC_CTL n) F.SPC_CTL_BANK) (s1.fld (Reg.SPC_PC n) F.SPC_PC_INDEX)) =
      false) :
    execBundleExecute n ups s = .next (runBundle (s1.setCtl n (cycleCtl s1 n)) n (s1.fld (Reg.SPC_CTL n) F.SPC_CTL_BANK)
      (s1.fld (Reg.SPC_PC n) F.SPC_PC_INDEX)) := by
  have hcycle : { s1.ctl n with lsuWait := (s1.ctl n).lsuWait - 1,
                                wdog := if (decide (spcState s1 n = 0) && !(s1.ctl n).wdogFired) = true then (s1.ctl n).wdog + 1
                                  else (s1.ctl n).wdog,
                                busy := (s1.ctl n).busy - 1 } = cycleCtl s1 n := by
    simp only [cycleCtl, hbusy, Bool.and_eq_true, decide_eq_true_eq, Bool.not_eq_true']
  have hgoes : ¬(lead s1 n ≠ n ∨ 2 ≤ spcState s1 n ∨ (s1.ctl n).drain ≠ 0) := by
    simp only [hlead, hdrain, ne_eq, not_true_eq_false, false_or, or_false]
    omega
  rw [execBundleExecute, hs]
  dsimp only
  rw [if_neg hgoes, if_neg (not_not_intro hbusy), hcycle]
  exact (if_neg (ne_true_of_eq_false hint)).trans (if_neg (ne_true_of_eq_false hparity))

/-! ## What a bundle leaves -/

theorem countWait_waits (s : State) (n : Fin 17) (queue plane : Bool) :
    (∃ regs, countWait s n queue plane = { s with regs := regs }) ∧
      (countWait s n queue plane).reg (Reg.SPC_PC n) = s.reg (Reg.SPC_PC n) := by
  unfold countWait
  split
  · exact ⟨⟨_, rfl⟩, State.bump_reg_ne s _ _ (by simp only [Reg.SPC_PC, Reg.SPC_ISSUE_STALL]; omega)⟩
  · split
    · exact ⟨⟨_, rfl⟩, State.bump_reg_ne s _ _ (by simp only [Reg.SPC_PC, Reg.SPC_PLANE_WAIT]; omega)⟩
    · exact ⟨⟨_, rfl⟩, rfl⟩

section

variable {s : State} {n : Fin 17} {bank pc : Nat} {taken : List Taken} (htaken : takenMoves s n bank pc = taken)

include htaken

/-- A bundle that waits leaves its registers, SPC_PC and memory. -/
theorem runBundle_waiting (h : (taken.any (fun t => t.read.value.isNone) || (triggersWait s n taken).any (· != 0)) = true) :
    ((runBundle s n bank pc).ctl n).waiting = true ∧ ((runBundle s n bank pc).ctl n).v = (s.ctl n).v ∧
      (runBundle s n bank pc).reg (Reg.SPC_PC n) = s.reg (Reg.SPC_PC n) ∧ (runBundle s n bank pc).mem = s.mem := by
  rw [runBundle_waits htaken h]
  obtain ⟨⟨_, honly⟩, hpc⟩ := countWait_waits s n ((triggersWait s n taken).contains 1) (taken.any (·.read.plane))
  generalize countWait s n ((triggersWait s n taken).contains 1) (taken.any (·.read.plane)) = u at *
  refine ⟨by rw [State.setCtl_ctl_self], by rw [State.setCtl_ctl_self], hpc, ?_⟩
  rw [honly]
  rfl

/-- A bundle that executes writes the registers v, moves on to the next bundle, and writes memory in its data scratch at most. -/
theorem runBundle_executes
    (h : ¬(taken.any (fun t => t.read.value.isNone) || (triggersWait s n taken).any (· != 0)) = true) :
    ((∀ m ∈ taken, sockUnit m.move.dst ≠ 5) →
      ((runBundle s n bank pc).ctl n).v = vWritten (plainMoves taken) (s.ctl n).v) ∧
    ((∀ m ∈ taken, sockUnit m.move.dst ≠ 3 ∧ sockUnit m.move.dst ≠ 4 ∧ sockUnit m.move.dst ≠ 5) →
      (runBundle s n bank pc).fld (Reg.SPC_PC n) F.SPC_PC_INDEX = (pc + 1) % 1365) ∧
    ((∀ m ∈ taken, sockUnit m.move.dst ≠ 5) → spcState (runBundle s n bank pc) n < 2 →
      OnlyBytes (Win.scratch n) (Win.scratch n + 0x8000) s (runBundle s n bank pc)) := by
  have hsub : ∀ m ∈ triggerMoves taken, m ∈ taken := fun m hm => mem_of_mem_effective (List.mem_filter.mp hm).1
  have hleaves := ((readAll_leaves s n taken).writeAll (plainMoves taken)).fireAll (triggerMoves taken)
  have hgoes (hcall : ∀ m ∈ taken, sockUnit m.move.dst ≠ 5) := fireAll_goesOn n (triggerMoves taken)
    (writeAll n (plainMoves taken) (readAll s n taken)) fun m hm => hcall m (hsub m hm)
  have hempty (hnone : ∀ m ∈ taken, sockUnit m.move.dst ≠ 3 ∧ sockUnit m.move.dst ≠ 4 ∧ sockUnit m.move.dst ≠ 5) :=
    fireAll_flow_empty n (triggerMoves taken) (writeAll n (plainMoves taken) (readAll s n taken)) fun m hm => hnone m (hsub m hm)
  rw [runBundle_runs htaken h]
  dsimp only
  generalize fireAll n (triggerMoves taken) (writeAll n (plainMoves taken) (readAll s n taken)) = fired at *
  refine ⟨fun hcall => (bundleEnd_v (hgoes hcall)).trans hleaves.v, fun hnone => ?_, fun hcall hruns =>
    hleaves.bytes.trans (.of_eq (bundleEnd_mem (hgoes hcall) hruns))⟩
  rw [hempty hnone]
  exact setPc_index fired.1 n (by omega)

end

theorem takesPlace_eq (m : Move) (g : BitVec 4) : m.takesPlace g =
    if m.gsel = 0 then !m.inv else 1 ≤ m.gsel && m.gsel ≤ 4 && (g.getLsbD (m.gsel - 1) != m.inv) := by
  unfold Move.takesPlace
  split
  · rfl
  · have hone : 1 ≤ m.gsel := by omega
    simp only [hone, decide_true, Bool.true_and]
    split <;> simp [*]

/-- A register's value after a bundle that reads every source. -/
theorem vWritten_plainMoves {taken : List Taken} (hread : ∀ m ∈ taken, m.read.value ≠ none) (v : Vector (BitVec 32) 32) (k : Fin 32) :
    some (vWritten (plainMoves taken) v)[k] = match taken.reverse.find? (fun m => m.move.dst == k.val) with
      | some m => m.read.value
      | none => some v[k] := by
  rw [vWritten_getElem, lastWrite_plainMoves taken k.isLt, ← lastWrite]
  cases hlast : lastWrite taken k.val with
  | none => rfl
  | some m =>
    obtain ⟨x, hx⟩ := Option.ne_none_iff_exists'.mp (hread m (lastWrite_mem hlast))
    simp only [hx, Option.getD_some]

end Sys2Proof.Machine

namespace Sys2Proof

open Machine

/-- Settles O11: of the moves to a register the highest slot's alone is left by the rule of R94, and no other part of a bundle
writes the registers v. -/
theorem bundleMovesTakeEffect : Obligations.BundleMovesTakeEffect := by
  unfold Obligations.BundleMovesTakeEffect
  intro n ups s s1 c bank pc c1 s2 taken waits hlead hstate hdrain hbusy hint hparity
  have hexec : exec (.bundleExecute n ups) s = .next (runBundle s2 n bank pc) :=
    execBundleExecute_bundle rfl hlead hstate hdrain hbusy hint hparity
  have hctl : s2.ctl n = c1 := State.setCtl_ctl_self ..
  have hv : (s2.ctl n).v = c.v := by rw [hctl]
  have hpc : s2.reg (Reg.SPC_PC n) = s1.reg (Reg.SPC_PC n) := rfl
  have hmem : s2.mem = s1.mem := rfl
  have htaken : takenMoves s2 n bank pc = taken := by
    rw [takenMoves, hctl]
    exact congrArg (List.map _) (List.filter_congr fun m _ => takesPlace_eq m c.g)
  have hwaits : (taken.any (fun t => t.read.value.isNone) || (triggersWait s2 n taken).any (· != 0)) = true ↔ waits := by
    simp only [waits, triggersWait, Bool.or_eq_true, List.any_eq_true, List.any_map, Function.comp, Option.isNone_iff_eq_none,
      bne_iff_ne]
  clear_value taken s2
  refine ⟨fun hnot => ?_, fun hwait => ?_⟩
  · obtain ⟨hwritten, hnext, hbytes⟩ := runBundle_executes htaken (mt hwaits.mp hnot)
    rw [hv] at hwritten
    refine ⟨_, hexec, fun hcall k => ?_, hnext, fun hcall hruns => (OnlyBytes.of_eq hmem).trans (hbytes hcall hruns)⟩
    rw [hwritten hcall]
    exact vWritten_plainMoves (fun m hm hnone => hnot (.inl ⟨m, hm, hnone⟩)) c.v k
  · obtain ⟨hwaiting, hkept, hsame, hmemory⟩ := runBundle_waiting htaken (hwaits.mpr hwait)
    exact ⟨_, hexec, hwaiting, hkept.trans hv, congrArg _ (hsame.trans hpc), hmemory.trans hmem⟩

end Sys2Proof
end

