-- ==== Sys2Proof/Proofs/PortFields.lean ====
section
/-!
PROOFS. The registers of a head port (R166): which fields an operation of the port leaves as they were, and the entry of a
state (R161, R497).
-/

namespace Sys2Proof.Machine

/-! ## The fields that an operation leaves -/

/-- The register at offset `o` of head port `h` (R166). -/
def portReg (h o : Nat) : Nat := o + 0x4700000000 + 0x1000000 * h

/-- Of the registers of port `h`, every field reads as before that shares no bit with a field listed for its offset. -/
def PortKeeps (h : Nat) (l : List (Nat × Fld)) (s t : State) : Prop :=
  ∀ o f, f.lo ≤ f.hi → (∀ p ∈ l, p.1 = o → p.2.Apart f) → t.fld (portReg h o) f = s.fld (portReg h o) f

namespace PortKeeps

variable {h : Nat} {l : List (Nat × Fld)} {s t u : State}

theorem refl (h : Nat) (l : List (Nat × Fld)) (s : State) : PortKeeps h l s s := fun _ _ _ _ => rfl

theorem trans (k : PortKeeps h l s t) (j : PortKeeps h l t u) : PortKeeps h l s u :=
  fun o f hf hl => (j o f hf hl).trans (k o f hf hl)

theorem mono {m : List (Nat × Fld)} (k : PortKeeps h l s t) (hlm : ∀ p ∈ l, p ∈ m) : PortKeeps h m s t :=
  fun o f hf hm => k o f hf (fun p hp => hm p (hlm p hp))

/-- The registers of the head ports stand. -/
theorem of_reg (hreg : ∀ a, 0x4700000000 ≤ a → t.reg a = s.reg a) : PortKeeps h l s t :=
  fun o f _ _ => congrArg f.get (hreg (portReg h o) (by unfold portReg; omega))

theorem of_eq (hregs : t.regs = s.regs) : PortKeeps h l s t := of_reg (fun a _ => by rw [State.reg, State.reg, hregs])

theorem ite {c : Prop} {_ : Decidable c} (ht : PortKeeps h l s t) (hu : PortKeeps h l s u) :
    PortKeeps h l s (if c then t else u) := by
  split
  · exact ht
  · exact hu

theorem setFld (k : PortKeeps h l s t) {o : Nat} {f : Fld} (v : Nat) (hmem : (o, f) ∈ l)
    (hok : f.lo ≤ f.hi ∧ f.hi < 32 := by decide) : PortKeeps h l s (t.setFld (portReg h o) f v) := by
  intro o' g hg hl
  by_cases ho : o' = o
  · subst ho
    exact (State.setFld_fld_disjoint t _ f g hok hg (hl _ hmem rfl) v).trans (k o' g hg hl)
  · exact (State.setFld_fld_ne t f g v (by unfold portReg; omega)).trans (k o' g hg hl)

theorem bump (k : PortKeeps h l s t) {o : Nat} {f : Fld} (n : Nat) (hmem : (o, f) ∈ l)
    (hok : f.lo ≤ f.hi ∧ f.hi < 32 := by decide) : PortKeeps h l s (t.bump (portReg h o) f n) := k.setFld _ hmem hok

/-- A field that is kept, at its offset. -/
theorem fld (k : PortKeeps h l s t) (o : Nat) (f : Fld)
    (hf : f.lo ≤ f.hi ∧ ∀ p ∈ l, p.1 = o → p.2.Apart f := by decide) : t.fld (portReg h o) f = s.fld (portReg h o) f :=
  k o f hf.1 hf.2

theorem flag (k : PortKeeps h l s t) (o : Nat) (f : Fld)
    (hf : f.lo ≤ f.hi ∧ ∀ p ∈ l, p.1 = o → p.2.Apart f := by decide) : t.flag (portReg h o) f = s.flag (portReg h o) f := by
  rw [State.flag, k.fld o f hf]
  rfl

theorem hpState (k : PortKeeps h l s t) (hl : ∀ p ∈ l, p.1 = 4 → p.2.Apart F.HP_STAT_STATE := by decide) :
    Machine.hpState t h = Machine.hpState s h := k.fld 4 _ ⟨by decide, hl⟩

theorem hpLanes (k : PortKeeps h l s t) (hl : ∀ p ∈ l, p.1 = 0 → p.2.Apart F.HP_CTL_LANES := by decide) :
    Machine.hpLanes t h = Machine.hpLanes s h := by
  have hlanes : t.fld (Reg.HP_CTL h) F.HP_CTL_LANES = s.fld (Reg.HP_CTL h) F.HP_CTL_LANES := k.fld 0 _ ⟨by decide, hl⟩
  rw [Machine.hpLanes, hlanes]
  rfl

end PortKeeps

/-- Of a state nothing but fields of port `h` is written, and none that shares no bit with those listed. -/
structure PortWrites (h : Nat) (l : List (Nat × Fld)) (s t : State) : Prop where
  only : RegsOnly s t
  fld : ∀ a f, f.lo ≤ f.hi → (∀ p ∈ l, portReg h p.1 = a → p.2.Apart f) → t.fld a f = s.fld a f

namespace PortWrites

variable {h : Nat} {l : List (Nat × Fld)} {s t u : State}

theorem refl (h : Nat) (l : List (Nat × Fld)) (s : State) : PortWrites h l s s := ⟨.refl s, fun _ _ _ _ => rfl⟩

theorem ite {c : Prop} {_ : Decidable c} (ht : PortWrites h l s t) (hu : PortWrites h l s u) :
    PortWrites h l s (if c then t else u) := by
  split
  · exact ht
  · exact hu

theorem setFld (k : PortWrites h l s t) (o : Nat) (f : Fld) (v : Nat) (hmem : (o, f) ∈ l := by decide)
    (hok : f.lo ≤ f.hi ∧ f.hi < 32 := by decide) : PortWrites h l s (t.setFld (portReg h o) f v) := by
  refine ⟨k.only.setFld _ _ _, fun a g hg hl => ?_⟩
  by_cases ha : portReg h o = a
  · subst ha
    exact (State.setFld_fld_disjoint t _ f g hok hg (hl _ hmem rfl) v).trans (k.fld _ g hg hl)
  · exact (State.setFld_fld_ne t f g v (Ne.symm ha)).trans (k.fld a g hg hl)

theorem keeps (k : PortWrites h l s t) : PortKeeps h l s t := fun o f hf hl =>
  k.fld _ f hf (fun p hp ho => hl p hp (by unfold portReg at ho; omega))

end PortWrites

/-! ## The entry of a state -/

/-- Port contents at the entry of a state: HTRG low while it is not ACTIVE (R157), and the transmitter idle without a link
(R161). -/
def HeadPort.entering (p : HeadPort) (st : Nat) (now : BitVec 64) : HeadPort :=
  let p := { p with since := now, htrg := if st = 7 then p.htrg else [] }
  if 6 ≤ st ∧ st ≤ 8 then p else { p with down := [], cc := none, ccGo := false, streamOff := false }

section

variable (p : HeadPort) (st : Nat) (now : BitVec 64)

/-- In a state with a link the control channel goes on. -/
theorem HeadPort.entering_linked (hst : 6 ≤ st ∧ st ≤ 8) :
    p.entering st now = { p with since := now, htrg := if st = 7 then p.htrg else [] } := if_pos hst

theorem HeadPort.entering_unlinked (hst : ¬(6 ≤ st ∧ st ≤ 8)) :
    p.entering st now = { p with
      since := now, htrg := if st = 7 then p.htrg else [], down := [], cc := none, ccGo := false, streamOff := false } :=
  if_neg hst

/-- A part of the port that is the same with and without a link. -/
theorem HeadPort.entering_part {α : Type} (f : HeadPort → α) {x : α}
    (hx : ∀ down cc go off, f { p with
      since := now, htrg := if st = 7 then p.htrg else [], down := down, cc := cc, ccGo := go, streamOff := off } = x) :
    f (p.entering st now) = x := by
  by_cases hst : 6 ≤ st ∧ st ≤ 8
  · rw [p.entering_linked st now hst, ← hx p.down p.cc p.ccGo p.streamOff]
  · rw [p.entering_unlinked st now hst, ← hx [] none false false]

@[simp] theorem HeadPort.entering_triggers : (p.entering st now).triggers = p.triggers :=
  entering_part p st now (·.triggers) fun _ _ _ _ => rfl

@[simp] theorem HeadPort.entering_packet : (p.entering st now).packet = p.packet :=
  entering_part p st now (·.packet) fun _ _ _ _ => rfl

@[simp] theorem HeadPort.entering_pixels : (p.entering st now).pixels = p.pixels :=
  entering_part p st now (·.pixels) fun _ _ _ _ => rfl

@[simp] theorem HeadPort.entering_bits : (p.entering st now).bits = p.bits :=
  entering_part p st now (·.bits) fun _ _ _ _ => rfl

@[simp] theorem HeadPort.entering_htrg : (p.entering st now).htrg = if st = 7 then p.htrg else [] :=
  entering_part p st now (·.htrg) fun _ _ _ _ => rfl

end

/-- STATE and HPEN of the state that a port enters. -/
def showState (s : State) (h : Fin 16) (st : Nat) : State :=
  (s.setFld (Reg.HP_STAT h) F.HP_STAT_STATE st).setFld (Reg.HP_STAT h) F.HP_STAT_HPEN (if 2 ≤ st ∧ st ≤ 8 then 1 else 0)

theorem setHead_setHead (s : State) (h : Fin 16) (p q : HeadPort) : (s.setHead h p).setHead h q = s.setHead h q := by
  simp [State.setHead]

theorem setHead_head (s : State) (h : Fin 16) : s.setHead h (s.head h) = s := by
  simp [State.setHead, State.head]

/-- The fields that the entry of a state may clear besides STATE and HPEN. -/
def enterFlds : List (Nat × Fld) :=
  [(4, F.HP_STAT_LOCK), (0, F.HP_CTL_RETRAIN), (0, F.HP_CTL_RELEASE), (0, F.HP_CTL_ATTACH), (0x14, F.HP_CC_CTL_GO)]

section

variable (s : State) (h : Fin 16) (st : Nat)

/-- The entry of a state shows it, clears further fields of the port, and changes the port's own contents. -/
theorem hpEnter_eq : ∃ t, PortWrites h enterFlds (showState s h st) t ∧
    hpEnter s h st = t.setHead h ((s.head h).entering st s.now) := by
  unfold hpEnter
  extract_lets a c shown locked retrained released attached src entered entering p
  have hshown : PortWrites h enterFlds shown shown := .refl _ _ _
  have hlocked : PortWrites h enterFlds shown locked := .ite hshown (hshown.setFld 4 _ _)
  have hretrained : PortWrites h enterFlds shown retrained := .ite (hlocked.setFld 0 _ _) hlocked
  have hreleased : PortWrites h enterFlds shown released := .ite hretrained (hretrained.setFld 0 _ _)
  have hattached : PortWrites h enterFlds shown attached := .ite (hreleased.setFld 0 _ _) hreleased
  obtain ⟨regs, hregs⟩ : ∃ regs, attached = { s with regs := regs } := hattached.only
  clear_value attached
  subst hregs
  unfold HeadPort.entering
  split
  · exact ⟨_, hattached, rfl⟩
  · refine ⟨_, hattached.setFld 0x14 F.HP_CC_CTL_GO 0, ?_⟩
    simp only [entered, p, entering, src, State.setHead_head_self]
    exact congrArg (State.setFld · (Reg.HP_CC_CTL h) F.HP_CC_CTL_GO 0) (setHead_setHead _ _ _ _)

/-- The fields that the entry of a state writes. -/
abbrev stateFlds : List (Nat × Fld) := (4, F.HP_STAT_STATE) :: (4, F.HP_STAT_HPEN) :: enterFlds

/-- What the entry of state `st` by port `h` shows and leaves (R161). -/
structure Enters (h : Fin 16) (st : Nat) (s t : State) : Prop where
  only : t = { s with regs := t.regs, heads := t.heads }
  head : t.head h = (s.head h).entering st s.now
  keeps : PortKeeps h stateFlds s t
  state : hpState t h = st
  hpen : t.fld (Reg.HP_STAT h) F.HP_STAT_HPEN = if 2 ≤ st ∧ st ≤ 8 then 1 else 0
  other : ∀ a f, f.lo ≤ f.hi → (∀ p ∈ stateFlds, portReg h p.1 ≠ a) → t.fld a f = s.fld a f

theorem showState_writes : PortWrites h stateFlds s (showState s h st) :=
  ((PortWrites.refl _ _ s).setFld 4 _ _).setFld 4 _ _

theorem hpEnter_enters (hst : st < 16) : Enters h st s (hpEnter s h st) := by
  obtain ⟨t, hwrites, heq⟩ := hpEnter_eq s h st
  have hshown := showState_writes s h st
  have hstate : hpState (showState s h st) h = st :=
    (setFld_fld_apart _ _ _ _ _ (by decide) (by decide) (by decide)).trans (setFld_fld_fits _ _ _ _ (by decide) hst)
  have hpen : (showState s h st).fld (Reg.HP_STAT h) F.HP_STAT_HPEN = if 2 ≤ st ∧ st ≤ 8 then 1 else 0 :=
    setFld_fld_fits _ _ _ _ (by decide) (by split <;> decide)
  obtain ⟨_, honly⟩ := hwrites.only
  rw [heq]
  refine ⟨by rw [honly]; rfl, State.setHead_head_self _ _ _,
    (hshown.keeps.trans (hwrites.keeps.mono (by decide))), (hwrites.keeps.fld 4 F.HP_STAT_STATE).trans hstate,
    (hwrites.keeps.fld 4 F.HP_STAT_HPEN).trans hpen, fun a f hf hne => ?_⟩
  exact (hwrites.fld a f hf (fun p hp ha => absurd ha (hne p (List.mem_cons_of_mem _ (List.mem_cons_of_mem _ hp))))).trans
    (hshown.fld a f hf (fun p hp ha => absurd ha (hne p hp)))

/-- RELEASE is an SC field whose action ends where RELEASING ends (R497). -/
theorem hpEnter_release {st : Nat} (hst : st ≠ 8) : (hpEnter s h st).fld (Reg.HP_CTL h) F.HP_CTL_RELEASE = 0 := by
  unfold hpEnter
  extract_lets a c shown locked retrained released attached src entered entering p
  have hreleased : released.fld (Reg.HP_CTL h) F.HP_CTL_RELEASE = 0 := by
    simp only [released, if_neg hst]
    exact setFld_fld_fits _ _ _ _ (by decide) (by decide)
  let l := [(0, F.HP_CTL_ATTACH), (0x14, F.HP_CC_CTL_GO)]
  have hreleasedKept : PortKeeps h l released released := .refl _ _ _
  have hattached : PortKeeps h l released attached := .ite (hreleasedKept.setFld (o := 0) _ (by decide)) hreleasedKept
  have hentered : PortKeeps h l released entered := hattached.trans (.of_eq rfl)
  have hcleared : PortKeeps h l released (entered.setHead h p) := hentered.trans (.of_eq rfl)
  refine Eq.trans ?_ hreleased
  split
  · exact hentered.fld 0 F.HP_CTL_RELEASE
  · exact (hcleared.setFld (o := 0x14) 0 (by decide)).fld 0 F.HP_CTL_RELEASE

end

end Sys2Proof.Machine
end

