-- ==== Sys2Proof/Proofs/PortLines.lean ====
section
/-!
PROOFS. The lines of a head port: what lost markers leave as it was (R194), lines declared lost, and packets that end or
are damaged (R145, R148, R149).
-/

namespace Sys2Proof.Machine

/-! ## Lost markers and line orders -/

/-- Lines enter and leave the regions' line orders: the head ports, the events raised and the reports stand, every region
keeps its source, and of the registers LB_STAT alone changes. -/
structure LinesMove (s t : State) : Prop where
  heads : t.heads = s.heads
  raises : t.raises = s.raises
  reports : t.reports = s.reports
  source : ∀ m, (t.region m).source = (s.region m).source
  reg : ∀ a, (∀ m : Fin 17, a ≠ Reg.LB_STAT m) → t.reg a = s.reg a

namespace LinesMove

variable {s t u : State}

theorem of_eq (hheads : t.heads = s.heads) (hraises : t.raises = s.raises) (hreports : t.reports = s.reports)
    (hregions : t.regions = s.regions) (hregs : t.regs = s.regs) : LinesMove s t :=
  ⟨hheads, hraises, hreports, fun m => by rw [State.region, hregions]; rfl, fun a _ => by rw [State.reg, hregs]; rfl⟩

theorem refl (s : State) : LinesMove s s := .of_eq rfl rfl rfl rfl rfl

theorem trans (k : LinesMove s t) (j : LinesMove t u) : LinesMove s u :=
  ⟨j.heads.trans k.heads, j.raises.trans k.raises, j.reports.trans k.reports, fun m => (j.source m).trans (k.source m),
    fun a ha => (j.reg a ha).trans (k.reg a ha)⟩

theorem ite {c : Prop} {_ : Decidable c} (ht : LinesMove s t) (hu : LinesMove s u) : LinesMove s (if c then t else u) := by
  split <;> assumption

theorem foldl {α : Type} {f : State → α → State} (k : LinesMove s t) (hf : ∀ t x, LinesMove t (f t x)) (xs : List α) :
    LinesMove s (xs.foldl f t) :=
  List.foldlRecOn xs f k (fun t ht x _ => ht.trans (hf t x))

section

variable (k : LinesMove s t)

include k

theorem head (h : Fin 16) : t.head h = s.head h := by rw [State.head, k.heads]; rfl

theorem raised {r : State} {l : List (Nat × BitVec 32)} (hr : Raised r s l) : Raised r t l := by
  simpa only [Raised, k.raises] using hr

theorem keeps (h : Nat) (l : List (Nat × Fld)) : PortKeeps h l s t :=
  .of_reg (fun a ha => k.reg a (fun m => by unfold Reg.LB_STAT; omega))

theorem regionsOf (h : Fin 16) : Machine.regionsOf t h = Machine.regionsOf s h := by
  simp only [Machine.regionsOf, k.source]

theorem rgState (m : Fin 17) : Machine.rgState t m = Machine.rgState s m :=
  congrArg F.RG_STAT_STATE.get (k.reg _ (fun j => by unfold Reg.LB_STAT Reg.RG_STAT; omega))

theorem setSlotStat (m : Fin 17) (f : Fld) (v : Nat) : LinesMove s (t.setFld (Reg.LB_STAT m) f v) :=
  k.trans ⟨rfl, rfl, rfl, fun _ => rfl, fun _ ha => State.setFld_reg_ne t f v (ha m)⟩

theorem setCtl (n : Fin 17) (c : SpanCtl) : LinesMove s (t.setCtl n c) := k.trans (.of_eq rfl rfl rfl rfl rfl)

theorem setExt (n : Fin 17) (x : Extraction) : LinesMove s (t.setExt n x) := k.trans (.of_eq rfl rfl rfl rfl rfl)

theorem writeLE (a n v : Nat) : LinesMove s (t.writeLE a n v) := k.trans (.of_eq rfl rfl rfl rfl rfl)

theorem setRegion {m : Fin 17} {x : Region} (hx : x.source = (t.region m).source := by rfl) :
    LinesMove s (t.setRegion m x) := by
  refine k.trans ⟨rfl, rfl, rfl, fun j => ?_, fun _ _ => rfl⟩
  by_cases hj : j = m
  · rw [hj, State.setRegion_region_self, hx]
  · rw [State.setRegion_region_ne _ _ hj]

theorem consumeEntries (m : Fin 17) (n : Nat) : LinesMove s (Machine.consumeEntries t m n) := by
  unfold Machine.consumeEntries
  extract_lets r gone freed
  have hfreed : LinesMove t freed := (refl t).foldl (fun t _ => (refl t).writeLE _ _ _) gone
  have htaken := (k.trans hfreed).setRegion (m := m) (x := { r with order := r.order.drop n, consumed := r.consumed ++ gone, sent := 0 })
    (hfreed.source m).symm
  exact ((htaken.setSlotStat _ _ _).setSlotStat _ _ _).setSlotStat _ _ _

theorem nameLine (n : Fin 17) (ord : Nat) (l : GroupLine) : LinesMove s (Machine.nameLine t n ord l) :=
  (k.foldl (fun t _ => ((refl t).setExt _ _).setCtl _ _) _).setCtl _ _

end

theorem refreshServed (k : LinesMove s t) (fuel : Nat) (n : Fin 17) : LinesMove s (Machine.refreshServed fuel t n) := by
  induction fuel generalizing t with
  | zero => exact k
  | succ fuel ih =>
    unfold Machine.refreshServed
    refine .ite k ?_
    extract_lets ms
    split
    · exact k
    · extract_lets taken named
      have hnamed : LinesMove s named := (k.foldl (fun t m => (refl t).consumeEntries m _) ms).nameLine n _ _
      exact .ite (hnamed.setCtl _ _) (ih ((hnamed.foldl (fun t m => (refl t).consumeEntries m 1) ms).setCtl _ _))

theorem enterOrder (k : LinesMove s t) (m : Fin 17) (e : LineEntry) : LinesMove s (Machine.enterOrder t m e) :=
  k.setRegion.refreshServed _ _

theorem flushMarkers (k : LinesMove s t) (fuel : Nat) (m : Fin 17) : LinesMove s (Machine.flushMarkers fuel t m) := by
  induction fuel generalizing t with
  | zero => exact k
  | succ fuel ih =>
    unfold Machine.flushMarkers
    extract_lets r
    split
    · exact k
    · exact .ite k (ih (k.setRegion.enterOrder m _))

theorem addMarker (k : LinesMove s t) (m : Fin 17) (x : StampIn) : LinesMove s (Machine.addMarker t m x) :=
  .ite (k.setRegion.flushMarkers _ _) k

theorem flushPort (k : LinesMove s t) (h : Fin 16) : LinesMove s (Machine.flushPort t h) :=
  k.foldl (fun t m => (refl t).flushMarkers 64 m) _

end LinesMove

/-! ## Counters -/

theorem Fld.get_lt (f : Fld) (w : BitVec 32) : f.get w < 2 ^ (f.hi - f.lo + 1) := Nat.mod_lt _ (Nat.two_pow_pos _)

/-- A counter that counts twice saturates as if it counted once by the sum. -/
theorem min_count_add (a j k m : Nat) : min (min (a + j) m + k) m = min (a + (j + k)) m := by omega

/-! ## Lost lines -/

/-- Once every trigger that meets a condition has been taken away, none is left that meets it. -/
theorem not_of_mem_diff_filter {l : List Trigger} {c : Trigger → Bool} {x : Trigger} (hx : x ∈ l.diff (l.filter c)) :
    c x = false := by
  by_contra hc
  have hcount := List.count_pos_iff.mpr hx
  rw [List.count_diff, List.count_filter (by simpa using hc), Nat.sub_self] at hcount
  exact Nat.lt_irrefl 0 hcount

theorem diff_self_eq_nil (l : List Trigger) : l.diff l = [] := by
  refine List.eq_nil_iff_forall_not_mem.mpr fun x hx => ?_
  have hcount := List.count_pos_iff.mpr hx
  rw [List.count_diff, Nat.sub_self] at hcount
  exact Nat.lt_irrefl 0 hcount

/-- The offsets and fields of a port's registers that count the ends of lines (R166). -/
def lineFlds : List (Nat × Fld) :=
  [(0x24, F.HP_PKT_DMG_COUNT), (0x28, F.HP_INGEST_DROP_COUNT), (0x30, F.HP_LOST_COUNT)]

/-- The state in which a line is counted, raised and reported as lost, before its markers are placed. -/
def tellLost (s : State) (h : Fin 16) (i : BitVec 64) : State :=
  reportLine ((s.bump (Reg.HP_LOST h) F.HP_LOST_COUNT).raise (546 + 4 * h.val) (payLine 1 i)) h i

theorem declareLost_moves (s : State) (h : Fin 16) (k : StampIn) :
    LinesMove (tellLost s h k.index) (declareLost s h k) :=
  (LinesMove.refl _).foldl (fun t m => (LinesMove.refl t).addMarker m k) _

/-- What the loss of the outstanding lines `ts` of port `h` leaves (R149). -/
structure LinesLost (h : Fin 16) (ts : List Trigger) (s t : State) : Prop where
  head : t.head h = { s.head h with triggers := (s.head h).triggers.diff ts }
  raised : Raised s t (ts.map (fun x => (546 + 4 * h.val, payLine 1 x.index)))
  reports : t.reports = s.reports ++ ts.map (fun x => ⟨h, x.index⟩)
  counted : t.fld (Reg.HP_LOST h) F.HP_LOST_COUNT = min (s.fld (Reg.HP_LOST h) F.HP_LOST_COUNT + ts.length) (2 ^ 32 - 1)
  keeps : PortKeeps h lineFlds s t
  source : ∀ m, (t.region m).source = (s.region m).source
  rgState : ∀ m : Fin 17, Machine.rgState t m = Machine.rgState s m

theorem LinesLost.regionsOf {h : Fin 16} {ts : List Trigger} {s t : State} (k : LinesLost h ts s t) :
    Machine.regionsOf t h = Machine.regionsOf s h := by
  simp only [Machine.regionsOf, k.source]

/-- An outstanding line leaves its port and is lost. -/
def loseTrigger (h : Fin 16) (s : State) (x : Trigger) : State :=
  declareLost (s.setHead h { s.head h with triggers := (s.head h).triggers.erase x }) h (x.stamp h)

theorem loseTriggers_eq (s : State) (h : Fin 16) (ts : List Trigger) : loseTriggers s h ts = ts.foldl (loseTrigger h) s := rfl

theorem LinesLost.refl (h : Fin 16) (s : State) : LinesLost h [] s s :=
  ⟨rfl, .refl s, (List.append_nil _).symm, by
    have := Fld.get_lt F.HP_LOST_COUNT (s.reg (Reg.HP_LOST h))
    simp only [F.HP_LOST_COUNT] at this
    simp only [State.fld, F.HP_LOST_COUNT, List.length_nil]
    omega, .refl _ _ _, fun _ => rfl, fun _ => rfl⟩

theorem LinesLost.trans {h : Fin 16} {xs ys : List Trigger} {s t u : State} (j : LinesLost h xs s t) (k : LinesLost h ys t u) :
    LinesLost h (xs ++ ys) s u where
  head := by rw [k.head, j.head, List.diff_append]
  raised := by rw [List.map_append]; exact j.raised.trans k.raised
  reports := by rw [k.reports, j.reports, List.map_append, List.append_assoc]
  counted := by rw [k.counted, j.counted, min_count_add, List.length_append]
  keeps := j.keeps.trans k.keeps
  source := fun m => (k.source m).trans (j.source m)
  rgState := fun m => (k.rgState m).trans (j.rgState m)

theorem loseTrigger_lost (h : Fin 16) (s : State) (x : Trigger) : LinesLost h [x] s (loseTrigger h s x) := by
  have hmoves := declareLost_moves (s.setHead h { s.head h with triggers := (s.head h).triggers.erase x }) h (x.stamp h)
  have hraised : Raised s (tellLost (s.setHead h { s.head h with triggers := (s.head h).triggers.erase x }) h x.index)
      [(546 + 4 * h.val, payLine 1 x.index)] := by
    simp [Raised, tellLost, reportLine]
  refine ⟨?_, ?_, hmoves.reports, ?_, ?_, hmoves.source, fun m => ?_⟩
  · rw [List.diff_cons, List.diff_nil]
    exact (hmoves.head h).trans (State.setHead_head_self _ _ _)
  · exact hmoves.raised hraised
  · exact ((hmoves.keeps h []).fld 0x30 F.HP_LOST_COUNT).trans (State.bump_fld_self _ _ _ ⟨by decide, by decide⟩ 1)
  · exact (((PortKeeps.refl h lineFlds s).bump (o := 0x30) 1 (by decide)).trans (.of_eq rfl)).trans (hmoves.keeps h _)
  · exact (hmoves.rgState m).trans (State.setFld_fld_ne _ _ _ _ (by unfold Reg.HP_LOST Reg.RG_STAT; omega))

theorem loseTriggers_lost (s : State) (h : Fin 16) (ts : List Trigger) : LinesLost h ts s (loseTriggers s h ts) := by
  rw [loseTriggers_eq]
  induction ts generalizing s with
  | nil => exact .refl h s
  | cons x ts ih => exact (loseTrigger_lost h s x).trans (ih (loseTrigger h s x))

/-! ## The ends of packets -/

/-- The ingest queue of the port takes the item for its takers, or stands when there are none. -/
theorem pushIngest_only (s : State) (h : Fin 16) (i : IngestItem) :
    ∃ q, pushIngest s h i = s.setHead h { s.head h with ingest := q } := by
  unfold pushIngest
  split
  · exact ⟨(s.head h).ingest, (setHead_head s h).symm⟩
  · exact ⟨_, rfl⟩

theorem releaseTakers_only (ms : List (Fin 17)) (s : State) : ∃ regions,
    ms.foldl (fun s m => s.setRegion m { s.region m with taking := none }) s = { s with regions := regions } := by
  refine List.foldlRecOn (motive := fun t : State => ∃ regions, t = { s with regions := regions }) ms _ ⟨_, rfl⟩ fun t ht m _ => ?_
  obtain ⟨_, rfl⟩ := ht
  exact ⟨_, rfl⟩

/-- Port contents after the packet of a trigger has ended. -/
def HeadPort.ended (p : HeadPort) (x : Trigger) (q : List Ingest) : HeadPort :=
  { p with ingest := q, packet := none, triggers := p.triggers.erase x }

/-- The packet in progress leaves the port and its trigger, and then only markers are placed. -/
theorem endPacket_moves (s : State) (h : Fin 16) (k : HeadPacket) (damaged : Bool) : ∃ q regions,
    LinesMove ({ s with regions := regions }.setHead h ((s.head h).ended k.trig q)) (endPacket s h k damaged) := by
  unfold endPacket
  extract_lets pushed freed p
  obtain ⟨q, hq⟩ : ∃ q, pushed = s.setHead h { s.head h with ingest := q } := pushIngest_only s h _
  obtain ⟨regions, hregions⟩ : ∃ regions, freed = { pushed with regions := regions } := releaseTakers_only _ pushed
  have hp : p = { s.head h with ingest := q } := by
    simp only [p, hregions, hq]
    exact State.setHead_head_self _ _ _
  have hended : freed.setHead h { p with packet := none, triggers := p.triggers.erase k.trig } =
      { s with regions := regions }.setHead h ((s.head h).ended k.trig q) := by
    rw [hregions, hq, hp]
    exact setHead_setHead { s with regions := regions } h _ _
  refine ⟨q, regions, ?_⟩
  rw [← hended]
  exact (LinesMove.refl _).flushPort h

/-- What damage to the packet in progress leaves (R148, R149). -/
structure PacketDamaged (h : Fin 16) (k : HeadPacket) (cause : Nat) (s t : State) : Prop where
  head : ∃ q, t.head h = { (s.head h).ended k.trig q with skipping := true }
  raised : Raised s t [(546 + 4 * h.val, payLine cause k.trig.index)]
  counted : t.fld (Reg.HP_PKT_DMG h) F.HP_PKT_DMG_COUNT =
    min (s.fld (Reg.HP_PKT_DMG h) F.HP_PKT_DMG_COUNT + 1) (2 ^ 32 - 1)
  keeps : PortKeeps h lineFlds s t

/-- The state in which a damaged packet is counted, raised and reported, before it ends. -/
def tellDamaged (s : State) (h : Fin 16) (k : HeadPacket) (cause : Nat) : State :=
  let s := s.bump (Reg.HP_PKT_DMG h) F.HP_PKT_DMG_COUNT
  let s := if cause = 5 then s.bump (Reg.HP_INGEST_DROP h) F.HP_INGEST_DROP_COUNT else s
  reportLine (s.raise (546 + 4 * h.val) (payLine cause k.trig.index)) h k.trig.index

theorem damagePacket_some {s : State} {h : Fin 16} {k : HeadPacket} (hk : (s.head h).packet = some k) (cause : Nat) :
    damagePacket s h cause = (endPacket (tellDamaged s h k cause) h k true).setHead h
      { (endPacket (tellDamaged s h k cause) h k true).head h with skipping := true } := by
  unfold damagePacket
  rw [hk]
  rfl

theorem damagePacket_none {s : State} {h : Fin 16} (hk : (s.head h).packet = none) (cause : Nat) :
    damagePacket s h cause = s := by
  unfold damagePacket
  rw [hk]

/-- What counting, raising and reporting a damaged packet leaves. -/
theorem tellDamaged_tells (s : State) (h : Fin 16) (k : HeadPacket) (cause : Nat) :
    (tellDamaged s h k cause).head h = s.head h ∧
      Raised s (tellDamaged s h k cause) [(546 + 4 * h.val, payLine cause k.trig.index)] ∧
      (tellDamaged s h k cause).fld (Reg.HP_PKT_DMG h) F.HP_PKT_DMG_COUNT =
        min (s.fld (Reg.HP_PKT_DMG h) F.HP_PKT_DMG_COUNT + 1) (2 ^ 32 - 1) ∧
      PortKeeps h lineFlds s (tellDamaged s h k cause) := by
  unfold tellDamaged
  extract_lets counted dropped
  have hcounted : PortKeeps h lineFlds s counted := (PortKeeps.refl _ _ s).bump (o := 0x24) 1 (by decide)
  have hdropped (l : List (Nat × Fld)) (hl : (0x28, F.HP_INGEST_DROP_COUNT) ∈ l) : PortKeeps h l counted dropped :=
    .ite ((PortKeeps.refl _ _ counted).bump (o := 0x28) 1 hl) (.refl _ _ _)
  obtain ⟨_, honly⟩ : RegsOnly s dropped :=
    .ite (((RegsOnly.refl s).bump _ _ _).bump _ _ _) ((RegsOnly.refl s).bump _ _ _)
  refine ⟨?_, ?_, ?_, (hcounted.trans (hdropped _ (by decide))).trans (.of_eq rfl)⟩
  · rw [honly]
    rfl
  · rw [honly]
    exact .raise _ _ _
  · exact ((hdropped _ (List.mem_singleton_self _)).fld 0x24 F.HP_PKT_DMG_COUNT).trans
      (State.bump_fld_self _ _ _ ⟨by decide, by decide⟩ 1)

theorem damagePacket_damaged {s : State} {h : Fin 16} {k : HeadPacket} (hk : (s.head h).packet = some k) (cause : Nat) :
    PacketDamaged h k cause s (damagePacket s h cause) := by
  obtain ⟨hhead, hraised, hcounted, hkeeps⟩ := tellDamaged_tells s h k cause
  obtain ⟨q, regions, hmoves⟩ := endPacket_moves (tellDamaged s h k cause) h k true
  rw [damagePacket_some hk]
  generalize tellDamaged s h k cause = u at *
  refine ⟨⟨q, ?_⟩, ?_, ?_, ?_⟩
  · rw [State.setHead_head_self, hmoves.head, State.setHead_head_self, hhead]
  · exact hmoves.raised (show Raised s ({ u with regions := regions }.setHead h _) _ from hraised)
  · exact ((hmoves.keeps h []).fld 0x24 F.HP_PKT_DMG_COUNT).trans hcounted
  · exact (hkeeps.trans (.of_eq rfl)).trans ((hmoves.keeps h _).trans (.of_eq rfl))

/-- Whether or not a packet is in progress, the port is left without one, and no other line of it changes. -/
theorem damagePacket_ends (s : State) (h : Fin 16) (cause : Nat) :
    ((damagePacket s h cause).head h).packet = none ∧
      (∀ x ∈ ((damagePacket s h cause).head h).triggers, x ∈ (s.head h).triggers) ∧
      PortKeeps h lineFlds s (damagePacket s h cause) ∧ ∃ l, Raised s (damagePacket s h cause) l := by
  cases hk : (s.head h).packet with
  | none =>
    rw [damagePacket_none hk]
    exact ⟨hk, fun _ => id, .refl _ _ s, [], .refl s⟩
  | some k =>
    obtain ⟨⟨q, hhead⟩, hraised, -, hkeeps⟩ := damagePacket_damaged hk cause
    rw [hhead]
    exact ⟨rfl, fun _ => List.mem_of_mem_erase, hkeeps, _, hraised⟩

/-- What the end of the link's lines leaves (R138, R163). -/
structure LinkStopped (h : Fin 16) (s t : State) : Prop where
  triggers : (t.head h).triggers = []
  packet : (t.head h).packet = none
  keeps : PortKeeps h lineFlds s t
  raised : ∃ l, Raised s t l

theorem stopLink_stopped (s : State) (h : Fin 16) (cause : Nat) : LinkStopped h s (stopLink s h cause) := by
  obtain ⟨hpacket, -, hkeeps, l, hraised⟩ := damagePacket_ends s h cause
  unfold stopLink
  extract_lets damaged lost ended
  have hlost : LinesLost h (damaged.head h).triggers damaged lost := loseTriggers_lost _ _ _
  refine ⟨?_, ?_, (hkeeps.trans hlost.keeps).trans (.of_eq rfl), _, hraised.trans hlost.raised⟩
  · rw [State.setHead_head_self]
    exact (congrArg HeadPort.triggers hlost.head).trans (diff_self_eq_nil _)
  · rw [State.setHead_head_self]
    exact (congrArg HeadPort.packet hlost.head).trans hpacket

end Sys2Proof.Machine
end

