-- ==== Sys2Proof/Proofs/PortChannel.lean ====
section
/-!
PROOFS. What a head port sends on the control channel leaves as it was (R153, R156, R162), how it fails (R161, R165), and
how it begins to train (R137).
-/

namespace Sys2Proof.Machine

@[simp] theorem hpState_setHead (s : State) (h : Fin 16) (p : HeadPort) (k : Nat) :
    hpState (s.setHead h p) k = hpState s k := rfl

/-! ## The control channel -/

/-- Port contents without the parts that the control channel keeps. -/
def HeadPort.offChannel (p : HeadPort) : HeadPort :=
  { p with cc := none, ccTag := 0, ccGo := false, ccSent := [], streamOff := false }

/-- Nothing but the control channel of port `h` goes on. -/
def SpeaksOnly (h : Fin 16) (s t : State) : Prop := ∃ p, p.offChannel = (s.head h).offChannel ∧ t = s.setHead h p

namespace SpeaksOnly

variable {h : Fin 16} {s t u : State}

theorem refl (h : Fin 16) (s : State) : SpeaksOnly h s s := ⟨_, rfl, (setHead_head s h).symm⟩

theorem trans (k : SpeaksOnly h s t) (j : SpeaksOnly h t u) : SpeaksOnly h s u := by
  obtain ⟨p, hp, rfl⟩ := k
  obtain ⟨q, hq, rfl⟩ := j
  rw [State.setHead_head_self] at hq
  exact ⟨q, hq.trans hp, setHead_setHead _ _ _ _⟩

theorem ite {c : Prop} {_ : Decidable c} (ht : SpeaksOnly h s t) (hu : SpeaksOnly h s u) :
    SpeaksOnly h s (if c then t else u) := by
  split <;> assumption

theorem setHead (k : SpeaksOnly h s t) {p : HeadPort} (hp : p.offChannel = (t.head h).offChannel := by rfl) :
    SpeaksOnly h s (t.setHead h p) := k.trans ⟨p, hp, rfl⟩

theorem ccSend (k : SpeaksOnly h s t) (op : Byte) (body : List Byte) (own : Bool) :
    SpeaksOnly h s (Machine.ccSend t h op body own) := k.setHead

theorem ccSendUser (k : SpeaksOnly h s t) : SpeaksOnly h s (Machine.ccSendUser t h) :=
  k.setHead.ccSend _ _ _

theorem checkRelease (k : SpeaksOnly h s t) : SpeaksOnly h s (Machine.checkRelease t h) :=
  .ite (k.ccSend 5 [0] true).setHead k

section

variable (k : SpeaksOnly h s t)

include k

theorem only : ∃ heads, t = { s with heads := heads } := by
  obtain ⟨p, -, rfl⟩ := k
  exact ⟨_, rfl⟩

/-- A part of the port that the control channel does not keep. -/
theorem part {α : Type} (f : HeadPort → α) (hf : ∀ p, f p.offChannel = f p := by intro; rfl) : f (t.head h) = f (s.head h) := by
  obtain ⟨p, hp, rfl⟩ := k
  rw [State.setHead_head_self, ← hf, hp, hf]

theorem head_ne {n : Fin 16} (hn : n ≠ h) : t.head n = s.head n := by
  obtain ⟨p, -, rfl⟩ := k
  exact State.setHead_head_ne s p hn

theorem regs : t.regs = s.regs := by
  obtain ⟨_, rfl⟩ := k.only
  rfl

theorem fld (a : Nat) (f : Fld) : t.fld a f = s.fld a f := by rw [State.fld, State.reg, k.regs]; rfl

theorem hpState (n : Nat) : Machine.hpState t n = Machine.hpState s n := k.fld _ _

theorem raises : t.raises = s.raises := by
  obtain ⟨_, rfl⟩ := k.only
  rfl

theorem mem : t.mem = s.mem := by
  obtain ⟨_, rfl⟩ := k.only
  rfl

theorem raised {r : State} {l : List (Nat × BitVec 32)} (hr : Raised r s l) : Raised r t l := by
  simpa only [Raised, k.raises] using hr

end

end SpeaksOnly

theorem checkRelease_speaks (s : State) (h : Fin 16) : SpeaksOnly h s (checkRelease s h) := (SpeaksOnly.refl h s).checkRelease

/-- Nothing but the control channel of port `h` goes on, where a RELAY message may take a free value. -/
def RelaysOnly (h : Fin 16) (s t : State) : Prop := ∃ ctr, SpeaksOnly h { s with freeCtr := ctr } t

theorem SpeaksOnly.relays {h : Fin 16} {s t : State} (k : SpeaksOnly h s t) : RelaysOnly h s t := ⟨s.freeCtr, k⟩

namespace RelaysOnly

variable {h : Fin 16} {s t : State} (k : RelaysOnly h s t)

include k

theorem checkRelease : RelaysOnly h s (Machine.checkRelease t h) := by
  obtain ⟨ctr, hspeaks⟩ := k
  exact ⟨ctr, hspeaks.checkRelease⟩

theorem fld (a : Nat) (f : Fld) : t.fld a f = s.fld a f := by
  obtain ⟨ctr, hspeaks⟩ := k
  exact hspeaks.fld a f

theorem mem : t.mem = s.mem := by
  obtain ⟨ctr, hspeaks⟩ := k
  exact hspeaks.mem

theorem raises : t.raises = s.raises := by
  obtain ⟨ctr, hspeaks⟩ := k
  exact hspeaks.raises

end RelaysOnly

/-- The next RELAY message goes out, ACTIVATE with a free value. -/
theorem relayNext_relays (s : State) (h : Fin 16) : RelaysOnly h s (relayNext s h) := by
  unfold relayNext
  split
  · exact (SpeaksOnly.refl h s).relays
  · split
    · exact (SpeaksOnly.refl h s).relays
    · split
      · exact ((SpeaksOnly.refl h s).ccSend _ _ _).relays
      · split
        · exact ⟨_, (SpeaksOnly.refl h (s.draw 32).2).ccSend _ _ _⟩
        · exact (SpeaksOnly.refl h s).relays

theorem ccFree_relays (s : State) (h : Fin 16) : RelaysOnly h s (ccFree s h) := by
  unfold ccFree
  split
  · exact (SpeaksOnly.refl h s).ccSendUser.relays
  · exact relayNext_relays s h

/-! ## Events of a port -/

theorem Raised.congr {s s' t t' : State} {l : List (Nat × BitVec 32)} (k : Raised s t l) (hs : s'.raises = s.raises)
    (ht : t'.raises = t.raises) : Raised s' t' l := by
  rw [Raised, hs, ht]
  exact k

@[simp] theorem raiseHp_fld (s : State) (h : Fin 16) (k cause : Nat) (line : BitVec 64) (a : Nat) (f : Fld) :
    (raiseHp s h k cause line).fld a f = s.fld a f := rfl

@[simp] theorem raiseHp_head (s : State) (h : Fin 16) (k cause : Nat) (line : BitVec 64) (n : Fin 16) :
    (raiseHp s h k cause line).head n = s.head n := rfl

@[simp] theorem hpCause_head (s : State) (h : Fin 16) (cause : Nat) (n : Fin 16) : (hpCause s h cause).head n = s.head n := rfl

@[simp] theorem hpCause_raises (s : State) (h : Fin 16) (cause : Nat) : (hpCause s h cause).raises = s.raises := rfl

theorem hpCause_shown (s : State) (h : Fin 16) {cause : Nat} (hcause : cause < 16) :
    (hpCause s h cause).fld (Reg.HP_STAT h) F.HP_STAT_CAUSE = cause := setFld_fld_fits _ _ _ _ (by decide) hcause

theorem raiseHp_link (s : State) (h : Fin 16) (cause : Nat) (line : BitVec 64) :
    Raised s (raiseHp s h 1 cause line) [(545 + 4 * h.val, payLine cause line)] := by
  have hsource : 545 + 4 * h.val = 544 + 4 * h.val + 1 := by omega
  rw [hsource]
  exact .raise _ _ _

theorem raiseHp_fault (s : State) (h : Fin 16) (cause : Nat) (line : BitVec 64) :
    Raised s (raiseHp s h 3 cause line) [(547 + 4 * h.val, payLine cause line)] := by
  have hsource : 547 + 4 * h.val = 544 + 4 * h.val + 3 := by omega
  rw [hsource]
  exact .raise _ _ _

/-- An event of the port and a cause leave its other fields. -/
theorem hpCause_raiseHp_keeps (s : State) (h : Fin 16) (k cause shown : Nat) (line : BitVec 64) :
    PortKeeps h [(4, F.HP_STAT_CAUSE)] s (hpCause (raiseHp s h k cause line) h shown) :=
  ((PortKeeps.refl _ _ s).trans (.of_eq rfl)).setFld (o := 4) _ (by decide)

theorem raiseHp_hpCause_keeps (s : State) (h : Fin 16) (k cause shown : Nat) (line : BitVec 64) :
    PortKeeps h [(4, F.HP_STAT_CAUSE)] s (raiseHp (hpCause s h shown) h k cause line) :=
  ((PortKeeps.refl _ _ s).setFld (o := 4) _ (by decide)).trans (.of_eq rfl)

/-! ## A port that fails -/

/-- What a port that fails or rejects its head shows and leaves (R161, R165). -/
structure PortFails (h : Fin 16) (st cause : Nat) (s t : State) : Prop where
  state : hpState t h = st
  hpen : t.fld (Reg.HP_STAT h) F.HP_STAT_HPEN = if 2 ≤ st ∧ st ≤ 8 then 1 else 0
  shown : t.fld (Reg.HP_STAT h) F.HP_STAT_CAUSE = cause
  raised : Raised s t [(547 + 4 * h.val, payLine cause 0)]
  mem : t.mem = s.mem

theorem hpFail_fails (s : State) (h : Fin 16) {st cause : Nat} (hst : st < 16) (hcause : cause < 16) :
    PortFails h st cause s (hpFail s h st cause) := by
  have henters := hpEnter_enters s h st hst
  have hkeeps : PortKeeps h [(4, F.HP_STAT_CAUSE)] (hpEnter s h st) (hpFail s h st cause) :=
    raiseHp_hpCause_keeps _ h 3 cause cause 0
  refine ⟨hkeeps.hpState.trans henters.state, (hkeeps.fld 4 F.HP_STAT_HPEN).trans henters.hpen,
    (raiseHp_fld ..).trans (hpCause_shown _ h hcause), ?_, ?_⟩
  · exact (raiseHp_fault (hpCause (hpEnter s h st) h cause) h cause 0).congr (congrArg State.raises henters.only :).symm rfl
  · exact (congrArg State.mem henters.only :)

/-! ## Training begins -/

/-- Port contents as training begins. -/
def HeadPort.toTrain (p : HeadPort) (down : List (Nat × CtrlWord)) : HeadPort :=
  { p with retryWait := false, aligns := [], alignLate := [], alignRun := 0, ready := false, laneOk := 0, down := down }

@[simp] theorem HeadPort.toTrain_triggers (p : HeadPort) (down : List (Nat × CtrlWord)) :
    (p.toTrain down).triggers = p.triggers := rfl
@[simp] theorem HeadPort.toTrain_packet (p : HeadPort) (down : List (Nat × CtrlWord)) :
    (p.toTrain down).packet = p.packet := rfl
@[simp] theorem HeadPort.toTrain_pixels (p : HeadPort) (down : List (Nat × CtrlWord)) :
    (p.toTrain down).pixels = p.pixels := rfl
@[simp] theorem HeadPort.toTrain_bits (p : HeadPort) (down : List (Nat × CtrlWord)) : (p.toTrain down).bits = p.bits := rfl

/-- What the beginning of training shows and leaves (R137). -/
structure Trains (h : Fin 16) (s t : State) : Prop where
  training : training t h = true
  state : hpState t h = 5
  head : ∃ down, t.head h = ((s.head h).entering 5 s.now).toTrain down
  keeps : PortKeeps h stateFlds s t
  raises : t.raises = s.raises
  mem : t.mem = s.mem

theorem Enters.trains {s t : State} {h : Fin 16} (k : Enters h 5 s t) (down : List (Nat × CtrlWord)) :
    Trains h s (t.setHead h ((t.head h).toTrain down)) where
  training := by
    rw [training, hpState_setHead, k.state, State.setHead_head_self]
    rfl
  state := (hpState_setHead _ _ _ _).trans k.state
  head := ⟨down, by rw [State.setHead_head_self, k.head]⟩
  keeps := k.keeps.trans (.of_eq rfl)
  raises := (congrArg State.raises k.only :)
  mem := (congrArg State.mem k.only :)

theorem hpTrain_trains (s : State) (h : Fin 16) : Trains h s (hpTrain s h) :=
  (hpEnter_enters s h 5 (by decide)).trains _

end Sys2Proof.Machine
end

