-- ==== Sys2Proof/Proofs/LinkTraining.lean ====
section
/-!
PROOFS. Training of a Pliam link (R137 to R139): the words that a training port takes, its failures, the link that comes up,
and the lock that is lost.
-/

namespace Sys2Proof.Machine

/-! ## States of a training port -/

theorem hpState_of_training {s : State} {h : Fin 16} (ht : training s h = true) : hpState s h = 5 := by
  simp only [training, Bool.and_eq_true, beq_iff_eq] at ht
  exact ht.1

/-- A port whose state and retry wait stand trains as before. -/
theorem training_congr {s t : State} {h : Fin 16} (hstate : hpState t h = hpState s h)
    (hwait : (t.head h).retryWait = (s.head h).retryWait) : training t h = training s h := by
  rw [training, hstate, hwait]
  rfl

theorem hpLanes_pos (s : State) (h : Nat) : 0 < hpLanes s h := by
  unfold hpLanes
  extract_lets k
  split
  · decide
  · split <;> decide

theorem hpLanes_le (s : State) (h : Nat) : hpLanes s h ≤ 4 := by
  unfold hpLanes
  extract_lets k
  split
  · decide
  · split <;> decide

/-! ## Training failures -/

/-- The state in which a training failure is raised and its cause shown (R139). -/
def tellTraining (s : State) (h : Fin 16) (cause : Nat) : State := hpCause (raiseHp s h 1 (cause - 4)) h cause

theorem tellTraining_tells (s : State) (h : Fin 16) {cause : Nat} (hcause : cause < 16) :
    Raised s (tellTraining s h cause) [(545 + 4 * h.val, payLine (cause - 4) 0)] ∧
      (tellTraining s h cause).fld (Reg.HP_STAT h) F.HP_STAT_CAUSE = cause ∧
      PortKeeps h [(4, F.HP_STAT_CAUSE)] s (tellTraining s h cause) :=
  ⟨(raiseHp_link s h (cause - 4) 0).congr rfl rfl, setFld_fld_fits _ _ _ _ (by decide) hcause,
    hpCause_raiseHp_keeps s h 1 _ _ _⟩

theorem trainFail_eq (s : State) (h : Fin 16) (cause : Nat) : trainFail s h cause =
    if 2 ≤ (s.head h).fails then
      hpFail ((tellTraining s h cause).setHead h { s.head h with fails := 0 }) h 11 cause
    else (tellTraining s h cause).setHead h
      { s.head h with fails := (s.head h).fails + 1, retryWait := true, ready := false, since := s.now } := rfl

/-- The first two failures in a row: the port waits to train again. -/
theorem trainFail_waits {s : State} {h : Fin 16} {cause : Nat} (hcause : cause < 16) (hfails : (s.head h).fails < 2) :
    hpState (trainFail s h cause) h = hpState s h ∧ (trainFail s h cause).fld (Reg.HP_STAT h) F.HP_STAT_CAUSE = cause ∧
      ((trainFail s h cause).head h).retryWait = true ∧ ((trainFail s h cause).head h).fails = (s.head h).fails + 1 ∧
      Raised s (trainFail s h cause) [(545 + 4 * h.val, payLine (cause - 4) 0)] := by
  obtain ⟨hraised, hshown, hkeeps⟩ := tellTraining_tells s h hcause
  rw [trainFail_eq, if_neg (Nat.not_le.mpr hfails), State.setHead_head_self]
  exact ⟨hkeeps.hpState, hshown, rfl, rfl, hraised⟩

/-- The third failure in a row: the port fails. -/
theorem trainFail_fails {s : State} {h : Fin 16} {cause : Nat} (hcause : cause < 16) (hfails : 2 ≤ (s.head h).fails) :
    hpState (trainFail s h cause) h = 11 ∧ (trainFail s h cause).fld (Reg.HP_STAT h) F.HP_STAT_CAUSE = cause ∧
      (trainFail s h cause).fld (Reg.HP_STAT h) F.HP_STAT_HPEN = 0 ∧
      ∃ l, Raised s (trainFail s h cause) ((545 + 4 * h.val, payLine (cause - 4) 0) :: l) := by
  obtain ⟨hraised, -, -⟩ := tellTraining_tells s h hcause
  rw [trainFail_eq, if_pos hfails]
  have hfail := hpFail_fails ((tellTraining s h cause).setHead h { s.head h with fails := 0 }) h (st := 11) (by decide) hcause
  exact ⟨hfail.state, hfail.shown, hfail.hpen, _, hraised.trans hfail.raised⟩

/-! ## TRAIN words and ALIGN markers -/

/-- The port has locked on the lane of the word. -/
def lockLane (s : State) (h : Fin 16) (p : Fin 4) : State :=
  s.setFld (Reg.HP_STAT h) F.HP_STAT_LOCK (s.fld (Reg.HP_STAT h) F.HP_STAT_LOCK ||| 2 ^ p.val)

theorem lockLane_keeps (s : State) (h : Fin 16) (p : Fin 4) : PortKeeps h [(4, F.HP_STAT_LOCK)] s (lockLane s h p) :=
  (PortKeeps.refl _ _ s).setFld (o := 4) _ (by decide)

@[simp] theorem lockLane_head (s : State) (h : Fin 16) (p : Fin 4) (k : Fin 16) : (lockLane s h p).head k = s.head k := rfl
@[simp] theorem lockLane_raises (s : State) (h : Fin 16) (p : Fin 4) : (lockLane s h p).raises = s.raises := rfl

theorem lockLane_locked (s : State) (h : Fin 16) (p : Fin 4) :
    ((lockLane s h p).fld (Reg.HP_STAT h) F.HP_STAT_LOCK).testBit p.val = true := by
  rw [lockLane, State.setFld_fld_self _ _ _ ⟨by decide, by decide⟩]
  have hp := p.isLt
  simp only [F.HP_STAT_LOCK, Nat.testBit_mod_two_pow, Nat.testBit_or, Nat.testBit_two_pow_self, Bool.or_true, Bool.and_true,
    decide_eq_true_eq]
  exact hp

theorem execTrainWordReceive_training {s : State} {h : Fin 16} {p : Fin 4} (num count : BitVec 8)
    (ht : training s h = true) (hp : p.val < hpLanes s h) : execTrainWordReceive h p num count s =
      .next (if num.toNat = p.val ∧ count.toNat = hpLanes s h then
        (lockLane s h p).setHead h { s.head h with laneOk := (s.head h).laneOk ||| (1#4 <<< p.val) }
      else trainFail (lockLane s h p) h 8) := by
  have hlanes : hpLanes (lockLane s h p) h = hpLanes s h := (lockLane_keeps s h p).hpLanes
  rw [← hlanes]
  unfold execTrainWordReceive
  rw [if_neg (Nat.not_le.mpr hp), if_pos ht]
  exact (apply_ite Host.Outcome.next _ _ _).symm

/-- HP_SKEW shows the lateness of lane 0 among the others'. -/
theorem showSkew_shows (s : State) (h : Fin 16) (late : List Nat) (hlate : late.getD 0 0 < 256) :
    (showSkew s h late).fld (Reg.HP_SKEW h) F.HP_SKEW_LANE0 = late.getD 0 0 ∧ RegsOnly s (showSkew s h late) ∧
      OnlyRegs [Reg.HP_SKEW h] s (showSkew s h late) := by
  have hmem : Reg.HP_SKEW h ∈ [Reg.HP_SKEW h] := List.mem_singleton_self _
  refine ⟨?_, ((((RegsOnly.refl s).setFld _ _ _).setFld _ _ _).setFld _ _ _).setFld _ _ _,
    (((OnlyRegs.setFld s _ _ hmem).trans (.setFld _ _ _ hmem)).trans (.setFld _ _ _ hmem)).trans (.setFld _ _ _ hmem)⟩
  simp (disch := decide) only [showSkew, setFld_fld_apart]
  exact setFld_fld_fits _ _ _ _ (by decide) hlate

/-- Lateness of the lanes in use, and relative to the earliest lane (R136, R137). -/
def lateness (s : State) (h : Fin 16) (late : List (BitVec 8)) : List Nat :=
  (List.range (hpLanes s h)).map (fun i => (late.getD i 0).toNat)

def skews (lates : List Nat) : List Nat := lates.map (· - lates.foldl min (lates.headD 0))

/-- The port shows the skews of its lanes after `n` markers that agreed on sequence number `q`. -/
def deskewed (s : State) (h : Fin 16) (q : BitVec 16) (n : Nat) (lates : List Nat) : State :=
  showSkew (s.setHead h { s.head h with aligns := [q], alignRun := n, alignLate := lates }) h (skews lates)

theorem headD_replicate {n : Nat} (hn : 0 < n) (q : BitVec 16) : (List.replicate n q).headD 0 = q := by
  obtain ⟨m, rfl⟩ := Nat.exists_eq_succ_of_ne_zero hn.ne'
  rfl

theorem execAlignReceive_agreeing {s : State} {h : Fin 16} {q : BitVec 16} (late : List (BitVec 8)) (ht : training s h = true)
    (hlanes : lanesChecked s h = true) (hready : (s.head h).ready = false) (haligns : (s.head h).aligns = [q - 1])
    (hrun : 1 ≤ (s.head h).alignRun) :
    let t := deskewed s h q ((s.head h).alignRun + 1) (lateness s h late)
    execAlignReceive h (List.replicate (hpLanes s h) q) late s = .next
      (if skewTooHigh t h ((skews (lateness s h late)).foldl max 0) then trainFail t h 9
      else t.setHead h { t.head h with ready := true, down := [(64, trainWord t h true), (0, .idle)] }) := by
  intro t
  have hq := headD_replicate (hpLanes_pos s h) q
  have hbegin : ¬(!(training s h && lanesChecked s h) || (s.head h).ready) = true := by simp [ht, hlanes, hready]
  have hagree : ¬((List.replicate (hpLanes s h) q).length ≠ hpLanes s h ∨
      (!(List.replicate (hpLanes s h) q).all (· == q)) = true) := by simp
  have htwo : ¬(s.head h).alignRun + 1 < 2 := by omega
  unfold execAlignReceive
  simp only [if_neg hbegin, hq, if_neg hagree, if_pos haligns, if_neg htwo]
  exact (apply_ite Host.Outcome.next _ _ _).symm

theorem lateness_head (s : State) (h : Fin 16) (late : List (BitVec 8)) :
    (lateness s h late).getD 0 0 = (late.getD 0 0).toNat := by
  have hpos := hpLanes_pos s h
  obtain ⟨n, hn⟩ := Nat.exists_eq_succ_of_ne_zero hpos.ne'
  simp [lateness, hn, List.range_succ_eq_map]

theorem skews_head (lates : List Nat) :
    (skews lates).getD 0 0 = lates.getD 0 0 - lates.foldl min (lates.headD 0) := by
  cases lates <;> simp [skews]

/-- HP_SKEW and the port's own contents change as the lanes are deskewed, and nothing else. -/
theorem deskewed_shows (s : State) (h : Fin 16) (q : BitVec 16) (n : Nat) (late : List (BitVec 8)) :
    let t := deskewed s h q n (lateness s h late)
    t.fld (Reg.HP_SKEW h) F.HP_SKEW_LANE0 = (lateness s h late).getD 0 0 -
      (lateness s h late).foldl min ((lateness s h late).headD 0) ∧ OnlyRegs [Reg.HP_SKEW h] s t ∧
      t = { s with regs := t.regs, heads := t.heads } := by
  intro t
  have hlate : (skews (lateness s h late)).getD 0 0 < 256 := by
    rw [skews_head, lateness_head]
    exact Nat.lt_of_le_of_lt (Nat.sub_le _ _) (late.getD 0 0).isLt
  obtain ⟨hshown, ⟨_, honly⟩, hregs⟩ := showSkew_shows
    (s.setHead h { s.head h with aligns := [q], alignRun := n, alignLate := lateness s h late }) h _ hlate
  refine ⟨hshown.trans (skews_head _), (OnlyRegs.of_eq rfl).trans hregs, ?_⟩
  simp only [t, deskewed]
  rw [honly]
  rfl

/-! ## The link comes up -/

/-- LOCK shows every lane in use. -/
def lockLanes (s : State) (h : Fin 16) : State := s.setFld (Reg.HP_STAT h) F.HP_STAT_LOCK (2 ^ hpLanes s h - 1)

theorem hpState_lockLanes (s : State) (h : Fin 16) : hpState (lockLanes s h) h = hpState s h :=
  ((PortKeeps.refl h [(4, F.HP_STAT_LOCK)] s).setFld (o := 4) _ (by decide)).hpState

@[simp] theorem lockLanes_head (s : State) (h k : Fin 16) : (lockLanes s h).head k = s.head k := rfl
@[simp] theorem lockLanes_raises (s : State) (h : Fin 16) : (lockLanes s h).raises = s.raises := rfl
@[simp] theorem lockLanes_now (s : State) (h : Fin 16) : (lockLanes s h).now = s.now := rfl

/-- Port contents as the port begins to configure its head: no failure in a row, and no message acknowledged (R161). -/
def HeadPort.linked (p : HeadPort) : HeadPort := { p with fails := 0, cfgStep := 0 }

def configuring (s : State) (h : Fin 16) : State := lockLanes (hpEnter (s.setHead h (s.head h).linked) h 6) h

theorem execLinkUp_ready {s : State} {h : Fin 16} (ht : training s h = true) (hready : (s.head h).ready = true) :
    execLinkUp h s = .next (cfgSend (configuring s h) h) := by
  unfold execLinkUp
  rw [if_pos (by rw [ht, hready]; rfl)]
  rfl

theorem configuring_shows (s : State) (h : Fin 16) : hpState (configuring s h) h = 6 ∧
    (configuring s h).head h = (s.head h).linked.entering 6 s.now ∧ (configuring s h).raises = s.raises ∧
    (configuring s h).now = s.now := by
  have henters := hpEnter_enters (s.setHead h (s.head h).linked) h 6 (by decide)
  have hhead := henters.head
  rw [State.setHead_head_self] at hhead
  have hraises : (hpEnter (s.setHead h (s.head h).linked) h 6).raises = s.raises := (congrArg State.raises henters.only :)
  have hnow : (hpEnter (s.setHead h (s.head h).linked) h 6).now = s.now := (congrArg State.now henters.only :)
  exact ⟨(hpState_lockLanes _ h).trans henters.state, (lockLanes_head _ h h).trans hhead, (lockLanes_raises _ h).trans hraises,
    (lockLanes_now _ h).trans hnow⟩

/-- IDENT is the first message of CONFIGURING. -/
theorem cfgSend_ident {s : State} {h : Fin 16} (hstep : (s.head h).cfgStep = 0) : cfgSend s h = ccSend s h 2 [] true :=
  if_pos hstep

/-! ## Lock losses -/

/-- The port has lost the lock of a lane (R138). -/
def unlockLane (s : State) (h : Fin 16) (p : Fin 4) : State :=
  s.setFld (Reg.HP_STAT h) F.HP_STAT_LOCK
    ((BitVec.ofNat 4 (s.fld (Reg.HP_STAT h) F.HP_STAT_LOCK)) &&& ~~~(1#4 <<< p.val)).toNat

/-- The state in which a lock loss outside training is counted, raised and shown, before the link's lines end. -/
def tellUnlocked (s : State) (h : Fin 16) : State :=
  hpCause (raiseHp (s.bump (Reg.HP_ERR h) F.HP_ERR_LOCK_LOSS) h 1 2) h 14

theorem execLaneLockLoss_up {s : State} {h : Fin 16} {p : Fin 4} (hst : hpState s h = 6 ∨ hpState s h = 7)
    (hp : p.val < hpLanes s h) :
    execLaneLockLoss h p s = .next (hpTrain (stopLink (tellUnlocked (unlockLane s h p) h) h 6) h) := by
  unfold execLaneLockLoss
  rw [if_neg (Nat.not_le.mpr hp), if_pos hst]
  rfl

theorem tellUnlocked_tells (s : State) (h : Fin 16) (p : Fin 4) :
    Raised s (tellUnlocked (unlockLane s h p) h) [(545 + 4 * h.val, payLine 2 0)] ∧
      (tellUnlocked (unlockLane s h p) h).fld (Reg.HP_STAT h) F.HP_STAT_CAUSE = 14 ∧
      (tellUnlocked (unlockLane s h p) h).fld (Reg.HP_ERR h) F.HP_ERR_LOCK_LOSS =
        min (s.fld (Reg.HP_ERR h) F.HP_ERR_LOCK_LOSS + 1) 15 := by
  have hunlocked : PortKeeps h [(4, F.HP_STAT_LOCK)] s (unlockLane s h p) := (PortKeeps.refl _ _ s).setFld (o := 4) _ (by decide)
  have hcount := State.bump_fld_self (unlockLane s h p) (Reg.HP_ERR h) F.HP_ERR_LOCK_LOSS ⟨by decide, by decide⟩ 1
  have hbefore : (unlockLane s h p).fld (Reg.HP_ERR h) F.HP_ERR_LOCK_LOSS = s.fld (Reg.HP_ERR h) F.HP_ERR_LOCK_LOSS :=
    hunlocked.fld 0x34 _
  rw [hbefore] at hcount
  have hshown : PortKeeps h [(4, F.HP_STAT_CAUSE)] ((unlockLane s h p).bump (Reg.HP_ERR h) F.HP_ERR_LOCK_LOSS)
      (tellUnlocked (unlockLane s h p) h) := hpCause_raiseHp_keeps _ h 1 2 14 0
  exact ⟨(raiseHp_link ((unlockLane s h p).bump (Reg.HP_ERR h) F.HP_ERR_LOCK_LOSS) h 2 0).congr rfl rfl,
    setFld_fld_fits _ _ _ _ (by decide) (by decide), (hshown.fld 0x34 F.HP_ERR_LOCK_LOSS).trans hcount⟩

/-! ## Waits of a training port -/

theorem execTrainingTimeout_due {s : State} {h : Fin 16} (ht : training s h = true) (hw : hpWaited s h 10000000 = true) :
    execTrainingTimeout h s = .next (trainFail s h 7) := if_pos ⟨ht, hw⟩

theorem execTrainingRetry_due {s : State} {h : Fin 16} (hst : hpState s h = 5) (hwait : (s.head h).retryWait = true)
    (hw : hpWaited s h 100000000 = true) : execTrainingRetry h s = .next (hpTrain s h) := if_pos ⟨hst, hwait, hw⟩

theorem hpWaited_iff {s : State} {h : Fin 16} {n : Nat} : hpWaited s h n = true ↔ (s.head h).since.toNat + n ≤ s.now.toNat :=
  decide_eq_true_iff

end Sys2Proof.Machine

namespace Sys2Proof

open Machine

/-- Settles O15: each command of a training port is one of its words, its failures, or the start of training over. -/
theorem linkTrainingCommandsComplete : Obligations.LinkTrainingCommandsComplete := by
  unfold Obligations.LinkTrainingCommandsComplete
  refine ⟨?inOrder, ?outOfOrder, ?aligned, ?linkUp, ?lockLost, ?timeout, ?retry⟩
  case inOrder =>
    intro h p num count s ht hp hnum hcount
    have hkeeps := lockLane_keeps s h p
    refine ⟨_, execTrainWordReceive_training num count ht hp, ?_⟩
    rw [if_pos ⟨hnum, hcount⟩]
    refine ⟨?_, lockLane_locked s h p, ?_, (OnlyRegs.setFld s _ _ (List.mem_singleton_self _)).trans (.of_eq rfl), rfl,
      fun k hk => (State.setHead_head_ne _ _ hk).trans (lockLane_head s h p k)⟩
    · rw [State.setHead_head_self]
      simp
    · refine (training_congr (s := s) ?_ ?_).trans ht
      · exact (hpState_setHead _ _ _ _).trans hkeeps.hpState
      · rw [State.setHead_head_self]
  case outOfOrder =>
    intro h p num count s ht hp hwrong hfails
    refine ⟨_, execTrainWordReceive_training num count ht hp, ?_⟩
    rw [if_neg (by tauto)]
    obtain ⟨-, hcause, hwait, hcount, hraised⟩ :=
      trainFail_waits (s := lockLane s h p) (h := h) (cause := 8) (by decide) (by rwa [lockLane_head])
    rw [lockLane_head] at hcount
    exact ⟨hcause, hwait, hcount, hraised.congr (lockLane_raises s h p).symm rfl⟩
  case aligned =>
    intro h q late s lates low ht hlanes hready haligns hrun hskew
    have hexec := execAlignReceive_agreeing late ht hlanes hready haligns hrun
    obtain ⟨hshown, hregs, honly⟩ := deskewed_shows s h q ((s.head h).alignRun + 1) late
    dsimp only at hexec hshown hregs honly
    generalize deskewed s h q ((s.head h).alignRun + 1) (lateness s h late) = t at *
    have hctl : t.reg (Reg.HP_CTL h) = s.reg (Reg.HP_CTL h) := hregs _ (by simp [Reg.HP_CTL, Reg.HP_SKEW])
    have hlow : skewTooHigh t h ((skews (lateness s h late)).foldl max 0) = false := by
      rw [← hskew, skewTooHigh, State.flag, State.fld, hctl]
      rfl
    have hcount : hpLanes t h = hpLanes s h := by
      rw [hpLanes, State.fld, hctl]
      rfl
    rw [hlow, if_neg Bool.false_ne_true] at hexec
    refine ⟨_, hexec, ?_, ?_, hshown, hregs.trans (.of_eq rfl), ?_⟩
    · rw [State.setHead_head_self]
    · rw [State.setHead_head_self, ← hcount]
      rfl
    · rw [honly]
      rfl
  case linkUp =>
    intro h s ht hready
    refine ⟨_, execLinkUp_ready ht hready, ?_⟩
    obtain ⟨hstate, hhead, hraises, hnow⟩ := configuring_shows s h
    generalize configuring s h = t at *
    rw [HeadPort.entering_linked _ _ _ (by decide)] at hhead
    rw [cfgSend_ident (by rw [hhead]; rfl)]
    have hspeaks := (SpeaksOnly.refl h t).ccSend 2 [] true
    have hsent : (ccSend t h 2 [] true).head h = _ := State.setHead_head_self _ _ _
    refine ⟨(hspeaks.hpState h).trans hstate, ?_, ?_, ?_, hspeaks.raises.trans hraises⟩
    all_goals
      rw [hsent, hhead]
    exacts [rfl, rfl, hnow ▸ rfl]
  case lockLost =>
    intro h p s hst hp
    refine ⟨_, execLaneLockLoss_up hst hp, ?_⟩
    obtain ⟨hraised, hcause, hcount⟩ := tellUnlocked_tells s h p
    generalize tellUnlocked (unlockLane s h p) h = u at *
    have hstop := stopLink_stopped u h 6
    have htrain := hpTrain_trains (stopLink u h 6) h
    obtain ⟨_, hhead⟩ := htrain.head
    obtain ⟨l, hl⟩ := hstop.raised
    refine ⟨htrain.state, ?_, ?_, ?_, ?_, l, ?_⟩
    · simp only [hhead, HeadPort.toTrain_triggers, HeadPort.entering_triggers, hstop.triggers]
    · simp only [hhead, HeadPort.toTrain_packet, HeadPort.entering_packet, hstop.packet]
    · exact (htrain.keeps.fld 4 F.HP_STAT_CAUSE).trans ((hstop.keeps.fld 4 F.HP_STAT_CAUSE).trans hcause)
    · exact (htrain.keeps.fld 0x34 F.HP_ERR_LOCK_LOSS).trans ((hstop.keeps.fld 0x34 F.HP_ERR_LOCK_LOSS).trans hcount)
    · rw [Raised, htrain.raises]
      exact hraised.trans hl
  case timeout =>
    intro h s ht hwaited
    refine ⟨_, execTrainingTimeout_due ht (hpWaited_iff.mpr hwaited), ?_⟩
    obtain hfails | hfails := Nat.lt_or_ge (s.head h).fails 2
    · obtain ⟨hstate, hcause, hwait, hcount, hraised⟩ := trainFail_waits (h := h) (cause := 7) (by decide) hfails
      exact ⟨hcause, fun _ => ⟨hstate.trans (hpState_of_training ht), hwait, hcount⟩,
        fun hmany => absurd hmany (by omega), [], hraised⟩
    · obtain ⟨hstate, hcause, hpen, hraised⟩ := trainFail_fails (h := h) (cause := 7) (by decide) hfails
      exact ⟨hcause, fun hfew => absurd hfew (by omega), fun _ => ⟨hstate, hpen⟩, hraised⟩
  case retry =>
    intro h s hst hwait hwaited
    refine ⟨_, execTrainingRetry_due hst hwait (hpWaited_iff.mpr hwaited), ?_⟩
    have htrain := hpTrain_trains s h
    obtain ⟨_, hhead⟩ := htrain.head
    exact ⟨htrain.training, by rw [hhead]; rfl, by rw [hhead]; rfl, htrain.raises⟩

end Sys2Proof
end

