-- ==== Sys2Proof/Proofs/ControlChannel.lean ====
section
/-!
PROOFS. The control channel of a head port (R153, R155, R156): the message that CTRL words carry, the requests that go out
and come to an end, and the messages that stand in HP_CC_RX.
-/

namespace Sys2Proof.Machine

/-! ## CTRL words of a message -/

theorem messageChunks_length_six (n : Nat) (b : List Byte) : ∀ x ∈ messageChunks n b, x.length = 6 := by
  induction n generalizing b with
  | zero => exact fun x hx => absurd hx List.not_mem_nil
  | succ n ih =>
    unfold messageChunks
    split
    · exact fun x hx => absurd hx List.not_mem_nil
    · exact List.forall_mem_cons.mpr ⟨by simp, ih _⟩

/-- Enough groups carry the whole message, padded with 0. -/
theorem messageChunks_flatten (n : Nat) (b : List Byte) (h : b.length ≤ 6 * n) :
    ∃ k, (messageChunks n b).flatten = b ++ List.replicate k 0 ∧ (messageChunks n b).length = (b.length + 5) / 6 := by
  induction n generalizing b with
  | zero =>
    have hb : b = [] := List.eq_nil_of_length_eq_zero (by omega)
    subst hb
    exact ⟨0, rfl, rfl⟩
  | succ n ih =>
    unfold messageChunks
    split
    · rename_i hempty
      rw [List.isEmpty_iff] at hempty
      subst hempty
      exact ⟨0, rfl, rfl⟩
    · rename_i hfull
      have hpos : 0 < b.length := by
        rw [List.length_pos_iff]
        simpa using hfull
      obtain ⟨k, hflat, hlength⟩ := ih (b.drop 6) (by rw [List.length_drop]; omega)
      rw [List.flatten_cons, hflat, List.length_cons, hlength, List.length_drop]
      by_cases hshort : b.length < 6
      · refine ⟨6 - b.length + k, ?_, by omega⟩
        rw [List.drop_eq_nil_of_le (by omega), List.take_append, List.take_of_length_le (by omega), List.take_replicate,
          min_eq_left (by omega), List.nil_append, List.append_assoc, List.replicate_append_replicate]
      · refine ⟨k, ?_, by omega⟩
        rw [List.take_append_of_le_length (by omega), ← List.append_assoc, List.take_append_drop]

/-- The operands of the CTRL words of a message: each group with its position byte. -/
def ctrlOperands (b : List Byte) : List (BitVec 8 × List Byte) :=
  (messageChunks 11 b).zipIdx.map (fun w => (ctrlPos (messageChunks 11 b).length w.2, w.1))

theorem eq_ctrlOperands {words : List (BitVec 8 × List Byte)} {b : List Byte}
    (h : words.map (fun w => CtrlWord.ctrl w.1 w.2) = ctrlWords b) : words = ctrlOperands b := by
  have hinj : Function.Injective (fun w : BitVec 8 × List Byte => CtrlWord.ctrl w.1 w.2) := by
    rintro ⟨a, b⟩ ⟨c, d⟩ heq
    obtain ⟨rfl, rfl⟩ := CtrlWord.ctrl.inj heq
    rfl
  refine List.map_injective_iff.mpr hinj ?_
  rw [h, ctrlOperands, List.map_map]
  rfl

theorem ctrlOperands_snd (b : List Byte) : (ctrlOperands b).map Prod.snd = messageChunks 11 b := by
  rw [ctrlOperands, List.map_map]
  exact List.zipIdx_map_fst 0 _

theorem ctrlOperands_length (b : List Byte) : (ctrlOperands b).length = (messageChunks 11 b).length := by simp [ctrlOperands]

theorem ctrlOperands_positions (b : List Byte) :
    (ctrlOperands b).zipIdx.all (fun w => w.1.1 == ctrlPos (ctrlOperands b).length w.2) = true := by
  rw [List.all_eq_true]
  intro w hw
  rw [List.mem_zipIdx_iff_getElem?] at hw
  rw [beq_iff_eq, ctrlOperands_length]
  simp only [ctrlOperands, List.getElem?_map, List.getElem?_zipIdx, Option.map_map, Option.map_eq_some_iff] at hw
  obtain ⟨x, -, hx⟩ := hw
  simp [← hx]

/-- The bytes of the words, padded with 0. -/
theorem ctrlOperands_bytes {b : List Byte} (h : b.length ≤ 66) :
    ∃ k, ((ctrlOperands b).map (fun w => (w.2 ++ List.replicate 6 0).take 6)).flatten = b ++ List.replicate k 0 := by
  obtain ⟨k, hflat, -⟩ := messageChunks_flatten 11 b (by omega)
  refine ⟨k, ?_⟩
  rw [← hflat, ← ctrlOperands_snd b]
  refine congrArg List.flatten (List.map_congr_left fun w hw => ?_)
  have hsix : w.2.length = 6 := messageChunks_length_six 11 b _ (ctrlOperands_snd b ▸ List.mem_map_of_mem hw)
  rw [List.take_append_of_le_length (by omega), List.take_of_length_le (by omega)]

/-! ## The message that CTRL words carry -/

section

variable {msg : List Byte} (hmin : 4 ≤ msg.length) (hmax : msg.length ≤ 62)
  (hlen : leNat ((msg.drop 2).take 2) = msg.length - 4)

include hmin hmax hlen

/-- A message in order, in its CTRL words, is received exactly when its CRC agrees (R153). -/
theorem ctrlMessage_ctrlOperands (c : BitVec 32) : ctrlMessage (ctrlOperands (msg ++ leBytes 4 c.toNat)) =
    if c = crc32 msg then some (msg ++ leBytes 4 c.toNat) else none := by
  have hwhole : (msg ++ leBytes 4 c.toNat).length = msg.length + 4 := by rw [List.length_append, length_leBytes]
  obtain ⟨k, hbytes⟩ := ctrlOperands_bytes (b := msg ++ leBytes 4 c.toNat) (by omega)
  obtain ⟨-, -, hcount⟩ := messageChunks_flatten 11 (msg ++ leBytes 4 c.toNat) (by omega)
  have hfield : leNat ((((msg ++ leBytes 4 c.toNat) ++ List.replicate k 0).drop 2).take 2) + 8 = msg.length + 4 := by
    rw [List.append_assoc, List.drop_append_of_le_length (by omega), List.take_append_of_le_length
      (by rw [List.length_drop]; omega), hlen]
    omega
  have hsum : leNat (leBytes 4 c.toNat) = c.toNat := by
    rw [leNat_leBytes]
    exact Nat.mod_eq_of_lt c.isLt
  unfold ctrlMessage
  simp only [hbytes, hfield]
  rw [List.take_append_of_le_length (by omega), List.take_of_length_le (by omega), Nat.add_sub_cancel,
    List.drop_left, List.take_left, hsum]
  have hfits : (ctrlOperands (msg ++ leBytes 4 c.toNat)).length = (msg.length + 4 + 5) / 6 := by
    rw [ctrlOperands_length, hcount, hwhole]
  refine if_congr ?_ rfl rfl
  rw [ctrlOperands_positions, BitVec.toNat_inj]
  simp only [hfits, true_and, and_iff_right_iff_imp]
  omega

end

/-! ## Messages that stand in HP_CC_RX -/

/-- What a message that stands in HP_CC_RX shows and leaves (R166). -/
structure Stores (h : Fin 16) (msg : List Byte) (s t : State) : Prop where
  length : t.fld (Reg.HP_CC_CTL h) F.HP_CC_CTL_RX_LEN = msg.length - 4
  bytes : t.readBytes (Win.ccRx h) 64 = (msg ++ List.replicate 64 0).take 64
  only : OnlyBytes (Win.ccRx h) (Win.ccRx h + 64) s t
  raises : t.raises = s.raises

theorem ccStore_stores (s : State) (h : Fin 16) {msg : List Byte} (hmax : msg.length ≤ 62) :
    Stores h msg s (ccStore s h msg) := by
  have hlength : ((msg ++ List.replicate 64 0).take 64).length = 64 := by simp
  refine ⟨setFld_fld_fits _ _ _ _ (by decide) (Nat.lt_of_le_of_lt (by omega : _ ≤ 58) (by decide)), ?_, ?_, rfl⟩
  · have hread := Memory.readBytes_writeBytes s.mem (Win.ccRx h) ((msg ++ List.replicate 64 0).take 64)
    rw [hlength] at hread
    exact hread
  · exact (OnlyBytes.writeBytes s _ (Nat.le_refl _) (by rw [hlength])).trans (.of_eq rfl)

namespace Stores

variable {h : Fin 16} {msg : List Byte} {s t u : State}

/-- Other fields of HP_CC_CTL are written, or the control channel goes on. -/
theorem trans_regs (k : Stores h msg s t) (hmem : u.mem = t.mem) (hraises : u.raises = t.raises)
    (hlength : u.fld (Reg.HP_CC_CTL h) F.HP_CC_CTL_RX_LEN = t.fld (Reg.HP_CC_CTL h) F.HP_CC_CTL_RX_LEN) : Stores h msg s u :=
  ⟨hlength.trans k.length, by rw [State.readBytes, hmem]; exact k.bytes, k.only.trans (.of_eq hmem), hraises.trans k.raises⟩

theorem setFld (k : Stores h msg s t) (f : Fld) (v : Nat) (hok : f.lo ≤ f.hi ∧ f.hi < 32 := by decide)
    (hf : F.HP_CC_CTL_RX_LEN.hi < f.lo ∨ f.hi < F.HP_CC_CTL_RX_LEN.lo := by decide) :
    Stores h msg s (t.setFld (Reg.HP_CC_CTL h) f v) :=
  k.trans_regs rfl rfl (setFld_fld_apart _ _ _ _ _ hok (by decide) hf)

end Stores

/-- The response to software's request stands in HP_CC_RX, and GO is done (R166). -/
def storeAnswer (s : State) (h : Fin 16) (msg : List Byte) : State :=
  ((ccStore s h msg).setFld (Reg.HP_CC_CTL h) F.HP_CC_CTL_DONE 1).setFld (Reg.HP_CC_CTL h) F.HP_CC_CTL_GO 0

/-- An ALERT stands in HP_CC_RX (R155, R166). -/
def storeAlert (s : State) (h : Fin 16) (msg : List Byte) : State :=
  (ccStore s h msg).setFld (Reg.HP_CC_CTL h) F.HP_CC_CTL_ALERT 1

theorem storeAnswer_shows (s : State) (h : Fin 16) {msg : List Byte} (hmax : msg.length ≤ 62) :
    Stores h msg s (storeAnswer s h msg) ∧ (storeAnswer s h msg).fld (Reg.HP_CC_CTL h) F.HP_CC_CTL_DONE = 1 ∧
      (storeAnswer s h msg).fld (Reg.HP_CC_CTL h) F.HP_CC_CTL_GO = 0 := by
  refine ⟨((ccStore_stores s h hmax).setFld _ _).setFld _ _, ?_, setFld_fld_fits _ _ _ _ (by decide) (by decide)⟩
  exact (setFld_fld_apart _ _ _ _ _ (by decide) (by decide) (by decide)).trans (setFld_fld_fits _ _ _ _ (by decide) (by decide))

theorem storeAlert_shows (s : State) (h : Fin 16) {msg : List Byte} (hmax : msg.length ≤ 62) :
    Stores h msg s (storeAlert s h msg) ∧ (storeAlert s h msg).fld (Reg.HP_CC_CTL h) F.HP_CC_CTL_ALERT = 1 :=
  ⟨(ccStore_stores s h hmax).setFld _ _, setFld_fld_fits _ _ _ _ (by decide) (by decide)⟩

/-! ## Received messages -/

section

variable {h : Fin 16} {words : List (BitVec 8 × List Byte)} {msg : List Byte} {s : State} (hpacket : (s.head h).packet = none)

include hpacket

theorem execCcMessageReceive_failed (hnone : ctrlMessage words = none) :
    execCcMessageReceive h words s = .next (s.bump (Reg.HP_ERR h) F.HP_ERR_CC_CRC) := by
  unfold execCcMessageReceive
  rw [damagePacket_none hpacket]
  simp only [hnone]

variable {sum : List Byte} (hsum : sum.length = 4) (hsome : ctrlMessage words = some (msg ++ sum))

include hsum hsome

theorem execCcMessageReceive_alert (hop : msg.getD 0 0 = 0x82) (halert : s.fld (Reg.HP_CC_CTL h) F.HP_CC_CTL_ALERT = 0) :
    execCcMessageReceive h words s = .next (raiseHp (storeAlert s h msg) h 3 15) := by
  have hflag : ¬s.flag (Reg.HP_CC_CTL h) F.HP_CC_CTL_ALERT = true := by simp [State.flag, halert]
  have hmsg : (msg ++ sum).take ((msg ++ sum).length - 4) = msg := by
    rw [List.length_append, hsum, Nat.add_sub_cancel, List.take_left]
  have hcode : (msg.getD 0 0).toNat = 0x82 := by rw [hop]; rfl
  unfold execCcMessageReceive
  rw [damagePacket_none hpacket]
  simp only [hsome, hmsg, if_pos hcode, if_neg hflag]
  rfl

theorem execCcMessageReceive_answer {r : CcRequest} (hop : msg.getD 0 0 = 0x81) (hcc : (s.head h).cc = some r)
    (hown : r.own = false) (htag : r.msg.getD 1 0 = msg.getD 1 0) : execCcMessageReceive h words s =
      .next (checkRelease (relayNext (storeAnswer (s.setHead h { s.head h with cc := none }) h msg) h) h) := by
  have hmsg : (msg ++ sum).take ((msg ++ sum).length - 4) = msg := by
    rw [List.length_append, hsum, Nat.add_sub_cancel, List.take_left]
  have hcode : (msg.getD 0 0).toNat = 0x81 := by rw [hop]; rfl
  have hother : ¬(msg.getD 0 0).toNat = 0x82 := by rw [hcode]; decide
  have hsame : ¬r.msg.getD 1 0 ≠ msg.getD 1 0 := not_not.mpr htag
  unfold execCcMessageReceive
  rw [damagePacket_none hpacket]
  simp only [hsome, hmsg, if_neg hother, if_pos hcode, hcc, if_neg hsame, hown, Bool.false_eq_true, if_false]
  rfl

end

/-! ## Requests -/

/-- The port's contents once software's request has gone out. -/
theorem ccSendUser_sends (s : State) (h : Fin 16) : (ccSendUser s h).head h =
    let msg := ccMessage (s.byte (Win.ccTx h)) ((s.head h).ccTag + 1)
      (s.readBytes (Win.ccTx h + 4) (s.fld (Reg.HP_CC_CTL h) F.HP_CC_CTL_TX_LEN))
    { s.head h with
      ccGo := false, ccTag := (s.head h).ccTag + 1, cc := some ⟨msg, 1, false, s.now⟩,
      ccSent := ctrlWords (msg ++ leBytes 4 (crc32 msg).toNat) } := by
  unfold ccSendUser ccSend
  simp only [State.setHead_head_self]
  rfl

/-- What an accepted GO sends (R156, R166). -/
theorem ccGo_sends {s : State} {h : Fin 16} (hst : hpState s h = 7) (hgo : s.fld (Reg.HP_CC_CTL h) F.HP_CC_CTL_GO = 0)
    (hcc : (s.head h).cc = none) : ccGo s h = ccSendUser (s.setFld (Reg.HP_CC_CTL h) F.HP_CC_CTL_GO 1) h := by
  have hflag : ¬(s.flag (Reg.HP_CC_CTL h) F.HP_CC_CTL_GO = true ∨ hpState s h ≠ 6 ∧ hpState s h ≠ 7) := by
    simp [State.flag, hgo, hst]
  have hfree : ¬(hpState s h = 6 ∨ (s.head h).cc.isSome = true) := by simp [hst, hcc]
  unfold ccGo
  exact (if_neg hflag).trans (if_neg hfree)

/-- The channel is free, and ERR is set. -/
def showError (s : State) (h : Fin 16) : State :=
  (s.setHead h { s.head h with cc := none }).setFld (Reg.HP_CC_CTL h) F.HP_CC_CTL_ERR 1

/-- Software's request ends without an answer (R156). -/
def endRequest (s : State) (h : Fin 16) : State :=
  raiseHp (hpCause ((showError s h).setFld (Reg.HP_CC_CTL h) F.HP_CC_CTL_GO 0) h 11) h 3 11

theorem endRequest_ends (s : State) (h : Fin 16) :
    (endRequest s h).fld (Reg.HP_CC_CTL h) F.HP_CC_CTL_ERR = 1 ∧ (endRequest s h).fld (Reg.HP_STAT h) F.HP_STAT_CAUSE = 11 ∧
      Raised s (endRequest s h) [(547 + 4 * h.val, payLine 11 0)] ∧ (endRequest s h).mem = s.mem := by
  have herr : (showError s h).fld (Reg.HP_CC_CTL h) F.HP_CC_CTL_ERR = 1 := setFld_fld_fits _ _ _ _ (by decide) (by decide)
  have hraises : (showError s h).raises = s.raises := rfl
  have hmem : (showError s h).mem = s.mem := rfl
  unfold endRequest
  generalize showError s h = t at *
  have hkeeps : PortKeeps h [(0x14, F.HP_CC_CTL_GO), (4, F.HP_STAT_CAUSE)] t
      (raiseHp (hpCause (t.setFld (Reg.HP_CC_CTL h) F.HP_CC_CTL_GO 0) h 11) h 3 11) :=
    (((PortKeeps.refl _ _ t).setFld (o := 0x14) _ (by decide)).setFld (o := 4) _ (by decide)).trans (.of_eq rfl)
  exact ⟨(hkeeps.fld 0x14 F.HP_CC_CTL_ERR).trans herr, (raiseHp_fld ..).trans (hpCause_shown _ h (by decide)),
    (raiseHp_fault (hpCause (t.setFld (Reg.HP_CC_CTL h) F.HP_CC_CTL_GO 0) h 11) h 11 0).congr hraises.symm rfl, hmem⟩

section

variable {h : Fin 16} {r : CcRequest} {s : State} (hcc : (s.head h).cc = some r)
  (hdue : r.sent.toNat + 1000000 ≤ s.now.toNat)

include hcc hdue

theorem execCcRetryTimeout_again (hattempt : r.attempt < 3) : execCcRetryTimeout h s =
    .next (s.setHead h { s.head h with cc := some { r with attempt := r.attempt + 1, sent := s.now } }) := by
  unfold execCcRetryTimeout
  simp only [hcc]
  rw [if_neg (Nat.not_lt.mpr hdue), if_pos hattempt]

theorem execCcRetryTimeout_ends (hattempt : 3 ≤ r.attempt) (hown : r.own = false) :
    execCcRetryTimeout h s = .next (checkRelease (ccFree (endRequest s h) h) h) := by
  unfold execCcRetryTimeout
  simp only [hcc]
  rw [if_neg (Nat.not_lt.mpr hdue), if_neg (Nat.not_lt.mpr hattempt)]
  simp only [hown, Bool.false_and, Bool.false_eq_true, if_false]
  rfl

end

end Sys2Proof.Machine

namespace Sys2Proof

open Machine

/-- Settles O17: a message in CTRL words is received exactly when its CRC agrees, and of the port nothing but its control
channel goes on once a message is stored or a request has ended. -/
theorem controlChannelCommandsComplete : Obligations.ControlChannelCommandsComplete := by
  unfold Obligations.ControlChannelCommandsComplete
  refine ⟨?sends, ?answer, ?alert, ?failed, ?again, ?ends⟩
  case sends =>
    intro h s hst hgo hcc body msg
    have hexec : exec (.hpCcGo h) s = .next (ccSendUser (s.setFld (Reg.HP_CC_CTL h) F.HP_CC_CTL_GO 1) h) :=
      congrArg Host.Outcome.next (ccGo_sends hst hgo hcc)
    have hspeaks := (SpeaksOnly.refl h (s.setFld (Reg.HP_CC_CTL h) F.HP_CC_CTL_GO 1)).ccSendUser
    have hlength : (s.setFld (Reg.HP_CC_CTL h) F.HP_CC_CTL_GO 1).fld (Reg.HP_CC_CTL h) F.HP_CC_CTL_TX_LEN =
        s.fld (Reg.HP_CC_CTL h) F.HP_CC_CTL_TX_LEN := setFld_fld_apart _ _ _ _ _ (by decide) (by decide) (by decide)
    have hsent := ccSendUser_sends (s.setFld (Reg.HP_CC_CTL h) F.HP_CC_CTL_GO 1) h
    rw [hlength] at hsent
    refine ⟨_, hexec, (hspeaks.fld _ _).trans (setFld_fld_fits _ _ _ _ (by decide) (by decide)), ?_, ?_, ?_, ?_, ?_⟩
    · rw [hsent]
      rfl
    · rw [hsent]
      rfl
    · exact (OnlyRegs.setFld s _ _ (List.mem_singleton_self _)).trans (.of_eq hspeaks.regs)
    · obtain ⟨_, honly⟩ := hspeaks.only
      rw [honly]
      rfl
    · exact fun k hk => (hspeaks.head_ne hk).trans (State.setFld_head ..)
  case answer =>
    intro h words msg r s hwords hpacket hmin hmax hlen hop hcc hown htag
    have hmessage := ctrlMessage_ctrlOperands hmin hmax hlen (crc32 msg)
    rw [if_pos rfl, ← eq_ctrlOperands hwords] at hmessage
    refine ⟨_, execCcMessageReceive_answer hpacket (length_leBytes _ _) hmessage hop hcc hown htag, ?_⟩
    obtain ⟨hstores, hdone, hgo⟩ := storeAnswer_shows (s.setHead h { s.head h with cc := none }) h hmax
    have hrelays := (relayNext_relays (storeAnswer (s.setHead h { s.head h with cc := none }) h msg) h).checkRelease
    have hstores := hstores.trans_regs hrelays.mem hrelays.raises (hrelays.fld _ _)
    exact ⟨(hrelays.fld _ _).trans hdone, (hrelays.fld _ _).trans hgo, hstores.length, hstores.bytes,
      (OnlyBytes.of_eq rfl).trans hstores.only, hstores.raises⟩
  case alert =>
    intro h words msg s hwords hpacket hmin hmax hlen hop halert
    have hmessage := ctrlMessage_ctrlOperands hmin hmax hlen (crc32 msg)
    rw [if_pos rfl, ← eq_ctrlOperands hwords] at hmessage
    refine ⟨_, execCcMessageReceive_alert hpacket (length_leBytes _ _) hmessage hop halert, ?_⟩
    obtain ⟨hstores, hshown⟩ := storeAlert_shows s h hmax
    exact ⟨(raiseHp_fld ..).trans hshown, (raiseHp_fld ..).trans hstores.length, hstores.bytes,
      (raiseHp_fault _ h 15 0).congr hstores.raises.symm rfl⟩
  case failed =>
    intro h words msg c s hwords hpacket hmin hmax hlen hwrong
    have hmessage := ctrlMessage_ctrlOperands hmin hmax hlen c
    rw [if_neg hwrong, ← eq_ctrlOperands hwords] at hmessage
    exact execCcMessageReceive_failed hpacket hmessage
  case again => exact fun h r s hcc hdue hattempt => execCcRetryTimeout_again hcc hdue hattempt
  case ends =>
    intro h r s hcc hdue hattempt hown
    refine ⟨_, execCcRetryTimeout_ends hcc hdue hattempt hown, ?_⟩
    obtain ⟨herr, hcause, hraised, hmem⟩ := endRequest_ends s h
    have hrelays := (ccFree_relays (endRequest s h) h).checkRelease
    exact ⟨(hrelays.fld _ _).trans herr, (hrelays.fld _ _).trans hcause, hraised.congr rfl hrelays.raises, hrelays.mem.trans hmem⟩

end Sys2Proof
end

