-- ==== Sys2Proof/Proofs/LinePackets.lean ====
section
/-!
PROOFS. Line packets of a head port (R135, R144 to R149): the START words that begin a packet, its blocks, its TERM words,
words that belong to none, and the packet that does not come.
-/

namespace Sys2Proof.Machine

/-! ## The start of a packet -/

/-- Regions that do not run count a drop: only their registers and the events raised change. -/
structure DropsOnly (s t : State) : Prop where
  only : ∃ regs raises, t = { s with regs := regs, raises := raises }
  reg : ∀ a, 0x4700000000 ≤ a → t.reg a = s.reg a

theorem countDrops_drops (ms : List (Fin 17)) (s : State) : DropsOnly s
    (ms.foldl (fun s (m : Fin 17) => raiseRg (s.bump (Reg.RG_DROP m) F.RG_DROP_COUNT) m 10 0) s) := by
  refine List.foldlRecOn (motive := DropsOnly s) ms _ ⟨⟨_, _, rfl⟩, fun _ _ => rfl⟩ fun t ht m _ => ?_
  obtain ⟨⟨_, _, rfl⟩, hreg⟩ := ht
  exact ⟨⟨_, _, rfl⟩, fun a ha =>
    (State.bump_reg_ne _ _ _ (by unfold Reg.RG_DROP; omega)).trans (hreg a ha)⟩

theorem takePacket_only (h : Fin 16) (ms : List (Fin 17)) (s : State) : ∃ regions,
    ms.foldl (fun s m => s.setRegion m { s.region m with taking := some h, feeds := (s.region m).feeds ++ [h] }) s =
      { s with regions := regions } := by
  refine List.foldlRecOn (motive := fun t : State => ∃ regions, t = { s with regions := regions }) ms _ ⟨_, rfl⟩ fun t ht m _ => ?_
  obtain ⟨_, rfl⟩ := ht
  exact ⟨_, rfl⟩

/-- The packet of a trigger as it begins (R140, R143). -/
def newPacket (x : Trigger) (total : Nat) : HeadPacket :=
  { trig := { x with started := true }, total := total, header := [], got := 0, crc := 0xFFFFFFFF, trailer := [] }

/-- With a region that runs, the packet of the trigger is in progress, and the port's registers stand. -/
theorem beginPacket_begins {s : State} {h : Fin 16} (x : Trigger) (total : Nat) (hrun : ∃ m ∈ regionsOf s h, rgState s m.val = 2) :
    ((beginPacket s h x total).head h).packet = some (newPacket x total) ∧ PortKeeps h [] s (beginPacket s h x total) := by
  unfold beginPacket
  extract_lets rs run dropped p lost started begun taken
  have hdrops : DropsOnly s dropped := countDrops_drops _ s
  have hrunning : ¬run.isEmpty = true := by
    obtain ⟨m, hm, hstate⟩ := hrun
    rw [List.isEmpty_iff]
    exact List.ne_nil_of_mem (List.mem_filter.mpr ⟨hm, beq_iff_eq.mpr hstate⟩)
  rw [if_neg hrunning]
  have hbegun : (begun.head h).packet = some (newPacket x total) := congrArg HeadPort.packet (State.setHead_head_self _ _ _)
  have hkeeps : PortKeeps h [] s begun := (PortKeeps.of_reg hdrops.reg).trans (.of_eq rfl)
  obtain ⟨regions, htaken⟩ : ∃ regions, taken = { begun with regions := regions } := takePacket_only h run begun
  obtain ⟨q, hq⟩ := pushIngest_only taken h (.start (x.stamp h) (descPixels taken h) (total - 2))
  rw [hq, State.setHead_head_self]
  clear_value begun taken
  subst htaken
  exact ⟨hbegun, hkeeps.trans (.of_eq rfl)⟩

/-! ## START words -/

/-- The triggers whose packet has not started, and those of them that are older than one. -/
def unstarted (s : State) (h : Fin 16) : List Trigger := (s.head h).triggers.filter (fun t => !t.started)

def olderThan (s : State) (h : Fin 16) (x : Trigger) : List Trigger := (unstarted s h).takeWhile (fun y => y != x)

/-- The START words of the lanes agree (R140). -/
def startsAgree (s : State) (h : Fin 16) (line total : BitVec 16) (starts : List (BitVec 16 × BitVec 16 × BitVec 8)) : Prop :=
  starts.length = hpLanes s h ∧ starts.zipIdx.all (fun w => w.1.1 == line && w.1.2.1 == total && w.1.2.2.toNat == w.2) = true

section

variable {s : State} {h : Fin 16} {starts : List (BitVec 16 × BitVec 16 × BitVec 8)} {line total : BitVec 16} {lane : BitVec 8}
  (hst : 6 ≤ hpState s h ∧ hpState s h ≤ 8) (hpacket : (s.head h).packet = none) (hskip : (s.head h).skipping = false)
  (hstarts : starts.headD (0, 0, 0) = (line, total, lane))

include hst hpacket hskip hstarts

theorem execStartWord_stray
    (hfind : (unstarted s h).find? (fun t => t.index.setWidth 16 == matchLine s h line) = none) :
    execStartWord h starts s = .next ((s.bump (Reg.HP_ERR h) F.HP_ERR_STRAY_PKT).setHead h { s.head h with skipping := true }) := by
  have hopen : ¬(hpState s h < 6 ∨ 8 < hpState s h) := by omega
  unfold unstarted at hfind
  unfold execStartWord
  simp only [if_neg hopen, hpacket, hskip, hstarts, hfind, Option.isSome_none, Bool.false_eq_true, if_false]

theorem execStartWord_begins {x : Trigger}
    (hfind : (unstarted s h).find? (fun t => t.index.setWidth 16 == matchLine s h line) = some x)
    (hagree : startsAgree (beginPacket (loseTriggers s h (olderThan s h x)) h x total.toNat) h line total starts) :
    execStartWord h starts s =
      .next (checkRelease (beginPacket (loseTriggers s h (olderThan s h x)) h x total.toNat) h) := by
  have hopen : ¬(hpState s h < 6 ∨ 8 < hpState s h) := by omega
  unfold unstarted at hfind
  unfold execStartWord
  simp only [if_neg hopen, hpacket, hskip, hstarts, hfind, Option.isSome_none, Bool.false_eq_true, if_false]
  exact congrArg (fun t => Host.Outcome.next (checkRelease t h)) (if_pos hagree)

end

theorem headD_starts (s : State) (h : Fin 16) (line total : BitVec 16) :
    ((List.range (hpLanes s h)).map (fun i => (line, total, BitVec.ofNat 8 i))).headD (0, 0, 0) = (line, total, 0) := by
  have hpos := hpLanes_pos s h
  obtain ⟨n, hn⟩ := Nat.exists_eq_succ_of_ne_zero hpos.ne'
  rw [hn, List.range_succ_eq_map]
  rfl

/-- The START words that a packet's lanes carry agree where the lanes in use are as many. -/
theorem startsAgree_lanes {s : State} {h : Fin 16} {n : Nat} (line total : BitVec 16) (hlanes : hpLanes s h = n) :
    startsAgree s h line total ((List.range n).map (fun i => (line, total, BitVec.ofNat 8 i))) := by
  have hfour := hpLanes_le s h
  refine ⟨by simp [hlanes], List.all_eq_true.mpr fun w hw => ?_⟩
  rw [List.mem_zipIdx_iff_getElem?, List.getElem?_map, Option.map_eq_some_iff] at hw
  obtain ⟨i, hi, hword⟩ := hw
  obtain ⟨hlt, hval⟩ := List.getElem?_eq_some_iff.mp hi
  rw [List.getElem_range] at hval
  rw [List.length_range] at hlt
  rw [← hword, ← hval]
  simp only [beq_self_eq_true, Bool.true_and, BitVec.toNat_ofNat, beq_iff_eq]
  exact Nat.mod_eq_of_lt (by omega)

/-- The lost lines leave the registers that a packet's START words are held against. -/
theorem hpLanes_beginPacket {s : State} {h : Fin 16} (x : Trigger) (n : Nat) (ts : List Trigger)
    (hrun : ∃ m ∈ regionsOf (loseTriggers s h ts) h, rgState (loseTriggers s h ts) m.val = 2) :
    hpLanes (beginPacket (loseTriggers s h ts) h x n) h = hpLanes s h :=
  (beginPacket_begins x n hrun).2.hpLanes.trans (loseTriggers_lost s h ts).keeps.hpLanes

/-! ## Blocks -/

/-- With a packet in progress no STREAM off goes out. -/
theorem checkRelease_busy {s : State} {h : Fin 16} {k : HeadPacket} (hpacket : (s.head h).packet = some k) :
    checkRelease s h = s := by
  refine if_neg fun hidle => ?_
  obtain ⟨-, -, hnone, -⟩ := hidle
  rw [hpacket] at hnone
  exact Option.some_ne_none k hnone

theorem pushIngest_takers {s : State} {h : Fin 16} (i : IngestItem) (htakers : (takersOf s h).length ≠ 0) :
    ∃ g, pushIngest s h i = s.setHead h { s.head h with ingest := (s.head h).ingest ++ [g] } ∧ g.item = i := by
  unfold pushIngest
  split
  · rename_i hnil
    exact absurd (congrArg List.length hnil) htakers
  · exact ⟨⟨i, _⟩, rfl, rfl⟩

/-- The packet with its next block (R142, R143). -/
def HeadPacket.join (k : HeadPacket) (b : List Byte) : HeadPacket :=
  { k with
    got := k.got + 1, header := if k.got = 0 then b else k.header,
    crc := if k.got + 1 = k.total then k.crc else crcRun k.crc b,
    trailer := if k.got + 1 = k.total then b else k.trailer }

theorem execPacketBlock_joins {s : State} {h : Fin 16} {data : List Byte} {k : HeadPacket} (hdata : data.length = 64)
    (hpacket : (s.head h).packet = some k) (hgot : k.got < k.total) (hheader : k.got = 0 → headerGood s h data = true)
    (hroom : ingestBlocks (s.head h) < 256) : execPacketBlock h data true s =
      .next (pushIngest (s.setHead h { s.head h with packet := some (k.join data) }) h (.block data)) := by
  have hpad : padBlock data = data := by rw [padBlock, List.take_append_of_le_length (by omega), List.take_of_length_le (by omega)]
  have hclean : ¬(!true || decide (k.total ≤ k.got)) = true := by simpa using hgot
  have hgood : ¬(decide (k.got = 0) && !headerGood s h data) = true := by
    simpa using hheader
  obtain ⟨q, hq⟩ := pushIngest_only (s.setHead h { s.head h with packet := some (k.join data) }) h (.block data)
  have hbusy : ((pushIngest (s.setHead h { s.head h with packet := some (k.join data) }) h (.block data)).head h).packet =
      some (k.join data) := by
    rw [hq, State.setHead_head_self, State.setHead_head_self]
  rw [← checkRelease_busy hbusy]
  unfold execPacketBlock
  simp only [hpacket, hpad, if_neg hclean, if_neg hgood, if_neg (Nat.not_le.mpr hroom)]
  rfl

/-! ## TERM words -/

/-- The port takes packets again after TERM words. -/
def readyPort (s : State) (h : Fin 16) : State := checkRelease (s.setHead h { s.head h with skipping := false }) h

theorem readyPort_keeps (s : State) (h : Fin 16) : ((readyPort s h).head h).packet = (s.head h).packet ∧
    ((readyPort s h).head h).skipping = false ∧ (∀ a f, (readyPort s h).fld a f = s.fld a f) ∧
    (readyPort s h).raises = s.raises := by
  have hspeaks := checkRelease_speaks (s.setHead h { s.head h with skipping := false }) h
  refine ⟨?_, ?_, fun a f => (hspeaks.fld a f).trans (State.setHead_fld ..), hspeaks.raises⟩
  · rw [readyPort, hspeaks.part (·.packet), State.setHead_head_self]
  · rw [readyPort, hspeaks.part (·.skipping), State.setHead_head_self]

theorem execTermWord_packet {s : State} {h : Fin 16} {terms : List (BitVec 16 × BitVec 16)} {k : HeadPacket}
    (hpacket : (s.head h).packet = some k) : execTermWord h terms s =
      .next (readyPort (if endDamage s h k terms = 0 then endPacket (s.bump (Reg.HP_PKT_OK h) F.HP_PKT_OK_COUNT) h k false
        else damagePacket s h (endDamage s h k terms)) h) := by
  unfold execTermWord
  simp only [hpacket]
  rfl

/-- A packet that ends in order is counted, and raises nothing. -/
theorem endPacket_good (s : State) (h : Fin 16) (k : HeadPacket) :
    let t := endPacket (s.bump (Reg.HP_PKT_OK h) F.HP_PKT_OK_COUNT) h k false
    (t.head h).packet = none ∧ Raised s t [] ∧
      t.fld (Reg.HP_PKT_OK h) F.HP_PKT_OK_COUNT = min (s.fld (Reg.HP_PKT_OK h) F.HP_PKT_OK_COUNT + 1) (2 ^ 32 - 1) := by
  obtain ⟨q, regions, hmoves⟩ := endPacket_moves (s.bump (Reg.HP_PKT_OK h) F.HP_PKT_OK_COUNT) h k false
  refine ⟨?_, hmoves.raised (.of_eq rfl), ((hmoves.keeps h []).fld 0x20 F.HP_PKT_OK_COUNT).trans
    (State.bump_fld_self _ _ _ ⟨by decide, by decide⟩ 1)⟩
  rw [hmoves.head, State.setHead_head_self]
  rfl

/-! ## Words that belong to no packet -/

theorem execBadCtrl_none {s : State} {h : Fin 16} (hpacket : (s.head h).packet = none) (hskip : (s.head h).skipping = false) :
    execBadCtrl h none s = .next (s.bump (Reg.HP_ERR h) F.HP_ERR_BAD_CTRL) := by
  unfold execBadCtrl
  simp only [hpacket, hskip, Option.isSome_none, Bool.or_self, Bool.false_eq_true, if_false]

theorem execBadCtrl_unknown (s : State) (h : Fin 16) {b : List Byte} (hb : CtrlWord.ofBytes b = none) :
    execBadCtrl h (some b) s = .next (checkRelease (damagePacket (s.bump (Reg.HP_ERR h) F.HP_ERR_BAD_CTRL) h 2) h) := by
  unfold execBadCtrl
  simp only [hb, Option.isSome_none, Bool.false_eq_true, if_false]

/-! ## Packets that do not come -/

theorem execPacketTimeout_due {s : State} {h : Fin 16} {x : Trigger} (hlimit : s.fld (Reg.HP_TMO h) F.HP_TMO_PKT_US ≠ 0)
    (hfind : (s.head h).triggers.find? (fun t => !t.started) = some x)
    (hdue : x.time.toNat + 1000 * s.fld (Reg.HP_TMO h) F.HP_TMO_PKT_US ≤ s.now.toNat) :
    execPacketTimeout h s = .next (checkRelease (loseTriggers s h [x]) h) := by
  unfold execPacketTimeout
  simp only [if_neg hlimit, hfind, if_pos hdue]

end Sys2Proof.Machine

namespace Sys2Proof

open Machine

/-- Settles O16: what a port's lines and packets leave is settled by the frame of its line ends, and a packet in progress
keeps a release from going on. -/
theorem linePacketCommandsComplete : Obligations.LinePacketCommandsComplete := by
  unfold Obligations.LinePacketCommandsComplete
  refine ⟨?starts, ?stray, ?joins, ?terms, ?counted, ?unknown, ?timeout⟩
  case starts =>
    intro h line total x s older hst hpacket hskip hfind hrun
    have hlost := loseTriggers_lost s h older
    have hregions : ∃ m ∈ regionsOf (loseTriggers s h older) h, rgState (loseTriggers s h older) m.val = 2 := by
      obtain ⟨m, hm, hstate⟩ := hrun
      exact ⟨m, hlost.regionsOf ▸ hm, (hlost.rgState m).trans hstate⟩
    obtain ⟨hbegun, hkeeps⟩ := beginPacket_begins x total.toNat hregions
    have hagree := startsAgree_lanes line total (hpLanes_beginPacket x total.toNat older hregions)
    have hexec := execStartWord_begins (total := total) (lane := 0) (by omega) hpacket hskip (headD_starts s h line total) hfind hagree
    have hspeaks := checkRelease_speaks (beginPacket (loseTriggers s h older) h x total.toNat) h
    refine ⟨_, newPacket x total.toNat, hexec, (hspeaks.part (·.packet)).trans hbegun, rfl, rfl, rfl, ?_⟩
    exact (hspeaks.fld _ _).trans ((hkeeps.fld 0x30 F.HP_LOST_COUNT).trans hlost.counted)
  case stray =>
    intro h line total l r s hlo hhi hpacket hskip hfind
    refine ⟨_, execStartWord_stray (starts := (line, total, l) :: r) (line := line) ⟨hlo, hhi⟩ hpacket hskip rfl hfind, ?_⟩
    refine ⟨?_, ?_, ?_, (OnlyRegs.bump s _ _ (List.mem_singleton_self _)).trans (.of_eq rfl),
      (State.setHead_fld ..).trans (State.bump_fld_self _ _ _ ⟨by decide, by decide⟩ 1), rfl⟩
    · rw [State.setHead_head_self]
    · rw [State.setHead_head_self]
    · rw [State.setHead_head_self]
      exact hpacket
  case joins =>
    intro h data k s hdata hpacket hgot hheader hroom
    refine ⟨_, k.join data, execPacketBlock_joins hdata hpacket hgot hheader hroom, ?_⟩
    obtain ⟨q, hq⟩ := pushIngest_only (s.setHead h { s.head h with packet := some (k.join data) }) h (.block data)
    refine ⟨?_, rfl, rfl, rfl, fun htakers => ?_, ?_, fun j hj => ?_⟩
    · rw [hq, State.setHead_head_self, State.setHead_head_self]
    · obtain ⟨g, hg, hitem⟩ := pushIngest_takers (s := s.setHead h { s.head h with packet := some (k.join data) })
        (.block data) htakers
      refine ⟨g, ?_, hitem⟩
      rw [hg, State.setHead_head_self, State.setHead_head_self]
    · rw [hq]
      rfl
    · rw [hq, State.setHead_head_ne _ _ hj, State.setHead_head_ne _ _ hj]
  case terms =>
    intro h terms k s hpacket
    refine ⟨_, execTermWord_packet hpacket, ?_⟩
    by_cases hgood : endDamage s h k terms = 0
    · rw [if_pos hgood]
      obtain ⟨hnone, hraised, hcounted⟩ := endPacket_good s h k
      obtain ⟨hpacket, hskip, hfld, hraises⟩ := readyPort_keeps (endPacket (s.bump (Reg.HP_PKT_OK h) F.HP_PKT_OK_COUNT) h k false) h
      exact ⟨hpacket.trans hnone, hskip, fun _ => ⟨hraised.congr rfl hraises, (hfld _ _).trans hcounted⟩,
        fun hbad => absurd hgood hbad⟩
    · rw [if_neg hgood]
      obtain ⟨⟨q, hhead⟩, hraised, hcounted, -⟩ := damagePacket_damaged hpacket (endDamage s h k terms)
      obtain ⟨hpacket, hskip, hfld, hraises⟩ := readyPort_keeps (damagePacket s h (endDamage s h k terms)) h
      exact ⟨by rw [hpacket, hhead]; rfl, hskip, fun hzero => absurd hzero hgood,
        fun _ => ⟨hraised.congr rfl hraises, (hfld _ _).trans hcounted⟩⟩
  case counted =>
    intro h w s hpacket hw
    obtain ⟨rfl, hskip⟩ | ⟨b, rfl, hb⟩ := hw
    · exact ⟨_, execBadCtrl_none hpacket hskip, rfl, .bump s _ _ (List.mem_singleton_self _),
        State.bump_fld_self _ _ _ ⟨by decide, by decide⟩ 1, rfl⟩
    · have hexec := execBadCtrl_unknown s h hb
      rw [damagePacket_none ((congrArg HeadPort.packet (State.bump_head ..)).trans hpacket)] at hexec
      have hspeaks := checkRelease_speaks (s.bump (Reg.HP_ERR h) F.HP_ERR_BAD_CTRL) h
      refine ⟨_, hexec, (hspeaks.part (·.triggers)).trans (congrArg HeadPort.triggers (State.bump_head ..)),
        (OnlyRegs.bump s _ _ (List.mem_singleton_self _)).trans (.of_eq hspeaks.regs),
        (hspeaks.fld _ _).trans (State.bump_fld_self _ _ _ ⟨by decide, by decide⟩ 1), ?_⟩
      obtain ⟨_, honly⟩ := hspeaks.only
      rw [honly]
      rfl
  case unknown =>
    intro h b k s hpacket hb
    refine ⟨_, execBadCtrl_unknown s h hb, ?_⟩
    obtain ⟨⟨q, hhead⟩, hraised, -, hkeeps⟩ := damagePacket_damaged (s := s.bump (Reg.HP_ERR h) F.HP_ERR_BAD_CTRL)
      ((congrArg HeadPort.packet (State.bump_head ..)).trans hpacket) 2
    have hspeaks := checkRelease_speaks (damagePacket (s.bump (Reg.HP_ERR h) F.HP_ERR_BAD_CTRL) h 2) h
    refine ⟨?_, ?_, hspeaks.raised (hraised.congr (State.bump_raises ..).symm rfl), ?_⟩
    · rw [hspeaks.part (·.packet), hhead]
      rfl
    · rw [hspeaks.part (·.skipping), hhead]
    · exact (hspeaks.fld _ _).trans ((hkeeps.fld 0x34 F.HP_ERR_BAD_CTRL).trans
        (State.bump_fld_self _ _ _ ⟨by decide, by decide⟩ 1))
  case timeout =>
    intro h x s hlimit hfind hdue
    refine ⟨_, execPacketTimeout_due hlimit hfind hdue, ?_⟩
    have hlost := loseTriggers_lost s h [x]
    have hspeaks := checkRelease_speaks (loseTriggers s h [x]) h
    refine ⟨?_, ?_, hspeaks.raised hlost.raised, (hspeaks.fld _ _).trans hlost.counted⟩
    · rw [hspeaks.part (·.triggers), hlost.head, List.diff_cons, List.diff_nil]
    · obtain ⟨_, honly⟩ := hspeaks.only
      rw [honly]
      exact hlost.reports

end Sys2Proof
end

