-- ==== Sys2Proof/Proofs/HotPlug.lean ====
section
/-!
PROOFS. Hot-plug of a head port (R157 to R166): bring-up, the descriptor, release, removal, and a port enabled and disabled.
-/

namespace Sys2Proof.Machine

/-! ## Power -/

/-- A port whose pads have left the safe state begins its power wait (R161). -/
theorem hpPower_enters {s : State} {h : Fin 16} (hpads : h.val ∈ s.pads) :
    Enters h 2 (s.setHead h { s.head h with fails := 0, retryWait := false }) (hpPower s h) := by
  have hreleased : padsReleased s h = true := List.contains_iff_mem.mpr hpads
  rw [hpPower, if_pos hreleased]
  exact hpEnter_enters _ _ _ (by decide)

theorem hpPower_held {s : State} {h : Fin 16} (hpads : h.val ∉ s.pads) : hpPower s h = s :=
  if_neg (mt List.contains_iff_mem.mp hpads)

/-- What the start of the power wait leaves of a port. -/
theorem hpPower_leaves (s : State) (h : Fin 16) : PortKeeps h stateFlds s (hpPower s h) ∧ (hpPower s h).raises = s.raises ∧
    hpState (hpPower s h) h = (if h.val ∈ s.pads then 2 else hpState s h) ∧
    hpPower s h = { s with regs := (hpPower s h).regs, heads := (hpPower s h).heads } := by
  by_cases hpads : h.val ∈ s.pads
  · have henters := hpPower_enters hpads
    rw [if_pos hpads]
    refine ⟨(PortKeeps.of_eq rfl).trans henters.keeps, (congrArg State.raises henters.only :), henters.state, ?_⟩
    exact henters.only
  · rw [hpPower_held hpads, if_neg hpads]
    exact ⟨.refl _ _ s, rfl, rfl, rfl⟩

/-! ## A head that goes -/

/-- What a head that is taken away in one step leaves (R163). -/
structure HeadDropped (h : Fin 16) (st cause : Nat) (s t : State) : Prop where
  state : hpState t h = st
  hpen : t.fld (Reg.HP_STAT h) F.HP_STAT_HPEN = if 2 ≤ st ∧ st ≤ 8 then 1 else 0
  shown : t.fld (Reg.HP_STAT h) F.HP_STAT_CAUSE = cause
  present : t.fld (Reg.HP_STAT h) F.HP_STAT_PRESENT = s.fld (Reg.HP_STAT h) F.HP_STAT_PRESENT
  fault : t.fld (Reg.HP_STAT h) F.HP_STAT_FAULT = s.fld (Reg.HP_STAT h) F.HP_STAT_FAULT
  enable : t.fld (Reg.HP_CTL h) F.HP_CTL_ENABLE = s.fld (Reg.HP_CTL h) F.HP_CTL_ENABLE
  triggers : (t.head h).triggers = []
  packet : (t.head h).packet = none
  cc : ¬(6 ≤ st ∧ st ≤ 8) → (t.head h).cc = none
  htrg : st ≠ 7 → (t.head h).htrg = []
  raised : ∃ l, Raised s t (l ++ [(544 + 4 * h.val, payLine 2 0)])

theorem raiseHp_present (s : State) (h : Fin 16) (cause : Nat) (line : BitVec 64) :
    Raised s (raiseHp s h 0 cause line) [(544 + 4 * h.val, payLine cause line)] := .raise _ _ _

theorem dropHead_dropped (s : State) (h : Fin 16) {st cause : Nat} (hst : st < 16) (hcause : cause < 16) :
    HeadDropped h st cause s (dropHead s h st cause) := by
  have hstop := stopLink_stopped s h 2
  have henters := hpEnter_enters (stopLink s h 2) h st hst
  obtain ⟨l, hl⟩ := hstop.raised
  unfold dropHead
  generalize stopLink s h 2 = u at *
  generalize hpEnter u h st = v at *
  have hshown : PortKeeps h [(4, F.HP_STAT_CAUSE)] v (raiseHp (hpCause v h cause) h 0 2) := raiseHp_hpCause_keeps v h 0 2 cause 0
  have hcause : (raiseHp (hpCause v h cause) h 0 2).fld (Reg.HP_STAT h) F.HP_STAT_CAUSE = cause :=
    (raiseHp_fld ..).trans (hpCause_shown v h hcause)
  have hhead : (raiseHp (hpCause v h cause) h 0 2).head h = (u.head h).entering st u.now :=
    ((raiseHp_head ..).trans (hpCause_head ..)).trans henters.head
  have hraises : (hpCause v h cause).raises = u.raises := (hpCause_raises ..).trans (congrArg State.raises henters.only :)
  have hraised : Raised u (raiseHp (hpCause v h cause) h 0 2) [(544 + 4 * h.val, payLine 2 0)] :=
    (raiseHp_present _ h 2 0).congr hraises.symm rfl
  generalize raiseHp (hpCause v h cause) h 0 2 = t at *
  refine ⟨hshown.hpState.trans henters.state, (hshown.fld 4 F.HP_STAT_HPEN).trans henters.hpen, hcause, ?_, ?_, ?_, ?_, ?_, ?_,
    ?_, l, hl.trans hraised⟩
  · exact (hshown.fld 4 F.HP_STAT_PRESENT).trans ((henters.keeps.fld 4 F.HP_STAT_PRESENT).trans (hstop.keeps.fld 4 F.HP_STAT_PRESENT))
  · exact (hshown.fld 4 F.HP_STAT_FAULT).trans ((henters.keeps.fld 4 F.HP_STAT_FAULT).trans (hstop.keeps.fld 4 F.HP_STAT_FAULT))
  · exact (hshown.fld 0 F.HP_CTL_ENABLE).trans ((henters.keeps.fld 0 F.HP_CTL_ENABLE).trans (hstop.keeps.fld 0 F.HP_CTL_ENABLE))
  · rw [hhead, HeadPort.entering_triggers, hstop.triggers]
  · rw [hhead, HeadPort.entering_packet, hstop.packet]
  · exact fun hlink => by rw [hhead, HeadPort.entering_unlinked _ _ _ hlink]
  · exact fun hidle => by rw [hhead, HeadPort.entering_htrg, if_neg hidle]

/-! ## Insertion and removal -/

/-- The port sees a head, and raises HP_PRESENT (R157, R165). -/
def seeHead (s : State) (h : Fin 16) : State := raiseHp (s.setFld (Reg.HP_STAT h) F.HP_STAT_PRESENT 1) h 0 1

theorem seeHead_shows (s : State) (h : Fin 16) : Raised s (seeHead s h) [(544 + 4 * h.val, payLine 1 0)] ∧
    (seeHead s h).fld (Reg.HP_STAT h) F.HP_STAT_PRESENT = 1 ∧ PortKeeps h [(4, F.HP_STAT_PRESENT)] s (seeHead s h) ∧
    (seeHead s h).pads = s.pads :=
  ⟨(raiseHp_present (s.setFld (Reg.HP_STAT h) F.HP_STAT_PRESENT 1) h 1 0).congr rfl rfl,
    (raiseHp_fld ..).trans (setFld_fld_fits _ _ _ _ (by decide) (by decide)),
    ((PortKeeps.refl _ _ s).setFld (o := 4) 1 (by decide)).trans (.of_eq rfl), rfl⟩

theorem execHeadInsertion_absent {s : State} {h : Fin 16} (hpresent : s.fld (Reg.HP_STAT h) F.HP_STAT_PRESENT = 0) :
    execHeadInsertion h s = .next (if hpState (seeHead s h) h = 1 ∧ (seeHead s h).flag (Reg.HP_CTL h) F.HP_CTL_AUTO = true then
      hpPower (seeHead s h) h else seeHead s h) := by
  have hflag : ¬s.flag (Reg.HP_STAT h) F.HP_STAT_PRESENT = true := by simp [State.flag, hpresent]
  unfold execHeadInsertion
  rw [if_neg hflag]
  rfl

theorem execHeadRemoval_present {s : State} {h : Fin 16} (hpresent : s.fld (Reg.HP_STAT h) F.HP_STAT_PRESENT = 1)
    (hst : 1 < hpState s h) : execHeadRemoval h s =
      .next (dropHead ((s.setHead h { s.head h with known := false }).setFld (Reg.HP_STAT h) F.HP_STAT_PRESENT 0) h 1 12) := by
  have hflag : ¬(!s.flag (Reg.HP_STAT h) F.HP_STAT_PRESENT) = true := by simp [State.flag, hpresent]
  have hkeeps : PortKeeps h [(4, F.HP_STAT_PRESENT)] s
      ((s.setHead h { s.head h with known := false }).setFld (Reg.HP_STAT h) F.HP_STAT_PRESENT 0) :=
    ((PortKeeps.refl _ _ s).trans (.of_eq rfl)).setFld (o := 4) 0 (by decide)
  have hup : ¬hpState ((s.setHead h { s.head h with known := false }).setFld (Reg.HP_STAT h) F.HP_STAT_PRESENT 0) h ≤ 1 := by
    rw [hkeeps.hpState]
    omega
  unfold execHeadRemoval
  rw [if_neg hflag]
  exact congrArg Host.Outcome.next (if_neg hup)

/-! ## Faults of a head -/

/-- A head fault is shown and raised (R164, R165). -/
def tellFault (s : State) (h : Fin 16) : State := raiseHp (hpCause (s.setFld (Reg.HP_STAT h) F.HP_STAT_FAULT 1) h 13) h 3 13

theorem tellFault_tells (s : State) (h : Fin 16) : Raised s (tellFault s h) [(547 + 4 * h.val, payLine 13 0)] ∧
    (tellFault s h).fld (Reg.HP_STAT h) F.HP_STAT_FAULT = 1 ∧ (tellFault s h).fld (Reg.HP_STAT h) F.HP_STAT_CAUSE = 13 ∧
    PortKeeps h [(4, F.HP_STAT_FAULT), (4, F.HP_STAT_CAUSE)] s (tellFault s h) := by
  have hfault : (s.setFld (Reg.HP_STAT h) F.HP_STAT_FAULT 1).fld (Reg.HP_STAT h) F.HP_STAT_FAULT = 1 :=
    setFld_fld_fits _ _ _ _ (by decide) (by decide)
  have hraises : (s.setFld (Reg.HP_STAT h) F.HP_STAT_FAULT 1).raises = s.raises := rfl
  have hkeeps : PortKeeps h [(4, F.HP_STAT_FAULT), (4, F.HP_STAT_CAUSE)] s (s.setFld (Reg.HP_STAT h) F.HP_STAT_FAULT 1) :=
    (PortKeeps.refl _ _ s).setFld (o := 4) 1 (by decide)
  unfold tellFault
  generalize s.setFld (Reg.HP_STAT h) F.HP_STAT_FAULT 1 = t at *
  have hshown := raiseHp_hpCause_keeps t h 3 13 13 0
  exact ⟨(raiseHp_fault (hpCause t h 13) h 13 0).congr hraises.symm rfl, (hshown.fld 4 F.HP_STAT_FAULT).trans hfault,
    (raiseHp_fld ..).trans (hpCause_shown t h (by decide)), hkeeps.trans (hshown.mono (by decide))⟩

theorem execHeadFault_low {s : State} {h : Fin 16} (hpresent : s.fld (Reg.HP_STAT h) F.HP_STAT_PRESENT = 1)
    (hfault : s.fld (Reg.HP_STAT h) F.HP_STAT_FAULT = 0) : execHeadFault h true s =
      .next (if (tellFault s h).flag (Reg.HP_CTL h) F.HP_CTL_FLT_OFF = true ∧ 1 < hpState (tellFault s h) h then
        dropHead (tellFault s h) h 11 13 else tellFault s h) := by
  have hbefore : s.flag (Reg.HP_STAT h) F.HP_STAT_FAULT = false := by simp [State.flag, hfault]
  have hkeeps : PortKeeps h [(4, F.HP_STAT_FAULT)] s (s.setFld (Reg.HP_STAT h) F.HP_STAT_FAULT 1) :=
    (PortKeeps.refl _ _ s).setFld (o := 4) 1 (by decide)
  have hseen : (s.setFld (Reg.HP_STAT h) F.HP_STAT_FAULT 1).flag (Reg.HP_STAT h) F.HP_STAT_PRESENT = true := by
    have hsame : (s.setFld (Reg.HP_STAT h) F.HP_STAT_FAULT 1).flag (Reg.HP_STAT h) F.HP_STAT_PRESENT =
      s.flag (Reg.HP_STAT h) F.HP_STAT_PRESENT := hkeeps.flag 4 _
    rw [hsame, State.flag, hpresent]
    rfl
  have hnew : ¬(!true || s.flag (Reg.HP_STAT h) F.HP_STAT_FAULT ||
      !(s.setFld (Reg.HP_STAT h) F.HP_STAT_FAULT 1).flag (Reg.HP_STAT h) F.HP_STAT_PRESENT) = true := by
    rw [hbefore, hseen]
    decide
  unfold execHeadFault
  exact if_neg hnew

theorem execHeadFault_high (s : State) (h : Fin 16) :
    execHeadFault h false s = .next (s.setFld (Reg.HP_STAT h) F.HP_STAT_FAULT 0) := rfl

/-! ## Bring-up -/

theorem execPowerWaitEnd_due {s : State} {h : Fin 16} (hst : hpState s h = 2) (hwaited : hpWaited s h (powerWait s h) = true) :
    execPowerWaitEnd h s =
      .next (if s.flag (Reg.HP_STAT h) F.HP_STAT_FAULT = true then hpFail s h 11 1 else hpEnter s h 3) := by
  have hdue : ¬(hpState s h ≠ 2 ∨ (!hpWaited s h (powerWait s h)) = true) := by simp [hst, hwaited]
  unfold execPowerWaitEnd
  rw [if_neg hdue]
  exact (apply_ite Host.Outcome.next _ _ _).symm

/-- The descriptor stands in HP_DESC (R158). -/
def storeDescriptor (s : State) (h : Fin 16) (bytes : List Byte) : State :=
  (s.setHead h { s.head h with known := true }).writeBytes (Win.desc h) ((bytes ++ List.replicate 1024 0).take 1024)

theorem storeDescriptor_stores (s : State) (h : Fin 16) (bytes : List Byte) :
    (storeDescriptor s h bytes).readBytes (Win.desc h) 1024 = (bytes ++ List.replicate 1024 0).take 1024 ∧
      OnlyBytes (Win.desc h) (Win.desc h + 1024) s (storeDescriptor s h bytes) := by
  have hlength : ((bytes ++ List.replicate 1024 0).take 1024).length = 1024 := by
    rw [List.length_take, List.length_append, List.length_replicate]
    omega
  have hread := Memory.readBytes_writeBytes s.mem (Win.desc h) ((bytes ++ List.replicate 1024 0).take 1024)
  rw [hlength] at hread
  exact ⟨hread, (OnlyBytes.of_eq rfl).trans (.writeBytes _ _ (Nat.le_refl _) (by rw [hlength]))⟩

theorem execDescriptorReadDone_reading {s : State} {h : Fin 16} (hst : hpState s h = 3) (bytes : List Byte) (good : Bool) :
    execDescriptorReadDone h bytes good s =
      .next (if good = true then hpEnter (storeDescriptor s h bytes) h 4 else hpFail s h 11 2) := by
  unfold execDescriptorReadDone
  rw [if_neg (not_not.mpr hst)]
  cases good with
  | false => exact (if_pos rfl).trans (congrArg Host.Outcome.next (if_neg Bool.false_ne_true).symm)
  | true => exact (if_neg Bool.false_ne_true).trans (congrArg Host.Outcome.next (if_pos rfl).symm)

theorem leNat_lt (l : List Byte) : leNat l < 256 ^ l.length := by
  induction l with
  | nil => decide
  | cons b l ih =>
    have hb := b.isLt
    rw [leNat, List.length_cons, Nat.pow_succ]
    omega

theorem length_memoryReadBytes (m : Memory) (a n : Nat) : (m.readBytes a n).length = n := by
  induction n generalizing a with
  | zero => rfl
  | succ n ih => rw [Memory.readBytes, List.length_cons, ih]

theorem readLE_lt (s : State) (a n : Nat) : s.readLE a n < 256 ^ n := by
  have hlt := leNat_lt (s.mem.readBytes a n)
  rwa [length_memoryReadBytes] at hlt

/-- The causes of R160 are those of a rejected head. -/
theorem descriptorCause_le (s : State) (h : Fin 16) : descriptorCause s h ≤ 6 := by
  unfold descriptorCause
  extract_lets d v len lanes key sends want
  repeat' split
  all_goals decide

/-- Port contents that the accepted descriptor gives (R160). -/
def HeadPort.accept (p : HeadPort) (s : State) (h : Fin 16) : HeadPort :=
  { p with
    pixels := BitVec.ofNat 16 (s.readLE (Win.desc h + 60) 2), bits := BitVec.ofNat 8 (s.readLE (Win.desc h + 62) 1),
    minPeriod := BitVec.ofNat 16 (s.readLE (Win.desc h + 66) 2), fails := 0 }

theorem execDescriptorVerified_verifying {s : State} {h : Fin 16} (hst : hpState s h = 4) : execDescriptorVerified h s =
    .next (if descriptorCause s h ≠ 0 then hpFail s h 10 (descriptorCause s h)
      else hpTrain (s.setHead h ((s.head h).accept s h)) h) := by
  unfold execDescriptorVerified
  rw [if_neg (not_not.mpr hst)]
  exact (apply_ite Host.Outcome.next _ _ _).symm

/-! ## Retraining and release -/

theorem execHpRetrain_active {s : State} {h : Fin 16} (hst : hpState s h = 7) : execHpRetrain h s =
    .next ((hpTrain (stopLink s h 6) h).setFld (Reg.HP_CTL h) F.HP_CTL_RETRAIN 1) :=
  congrArg Host.Outcome.next (if_pos hst)

/-- The port releases its head (R162). -/
def releasing (s : State) (h : Fin 16) : State := (hpEnter s h 8).setFld (Reg.HP_CTL h) F.HP_CTL_RELEASE 1

theorem execHpRelease_active {s : State} {h : Fin 16} (hst : hpState s h = 7) :
    execHpRelease h s = .next (checkRelease (releasing s h) h) := congrArg Host.Outcome.next (if_pos hst)

theorem releasing_shows (s : State) (h : Fin 16) : hpState (releasing s h) h = 8 ∧
    (releasing s h).head h = { s.head h with since := s.now, htrg := [] } ∧ (releasing s h).raises = s.raises ∧
    (releasing s h).now = s.now := by
  have henters := hpEnter_enters s h 8 (by decide)
  unfold releasing
  generalize hpEnter s h 8 = t at *
  have hkeeps : PortKeeps h [(0, F.HP_CTL_RELEASE)] t (t.setFld (Reg.HP_CTL h) F.HP_CTL_RELEASE 1) :=
    (PortKeeps.refl _ _ t).setFld (o := 0) 1 (by decide)
  have hhead := henters.head
  rw [HeadPort.entering_linked _ _ _ (by decide), if_neg (by decide)] at hhead
  exact ⟨hkeeps.hpState.trans henters.state, (State.setFld_head ..).trans hhead,
    (State.setFld_raises ..).trans (congrArg State.raises henters.only :),
    (State.setFld_now ..).trans (congrArg State.now henters.only :)⟩

/-- With nothing outstanding STREAM off goes out (R162). -/
theorem checkRelease_idle {s : State} {h : Fin 16} (hst : hpState s h = 8) (htriggers : (s.head h).triggers = [])
    (hpacket : (s.head h).packet = none) (hcc : (s.head h).cc = none) (hoff : (s.head h).streamOff = false) :
    ((checkRelease s h).head h).streamOff = true ∧
      ((checkRelease s h).head h).cc = some ⟨ccMessage 5 ((s.head h).ccTag + 1) [0], 1, true, s.now⟩ := by
  unfold checkRelease ccSend
  rw [if_pos ⟨hst, htriggers, hpacket, hcc, hoff⟩, State.setHead_head_self, State.setHead_head_self]
  exact ⟨rfl, rfl⟩

theorem execReleaseTimeout_due {s : State} {h : Fin 16} (hst : hpState s h = 8) (hwaited : hpWaited s h 1000000 = true) :
    execReleaseTimeout h s = .next (checkRelease (damagePacket (loseTriggers s h (unstarted s h)) h 2) h) := by
  have hdue : ¬(hpState s h ≠ 8 ∨ (!hpWaited s h 1000000) = true) := by simp [hst, hwaited]
  exact if_neg hdue

/-- An update that is relayed to a head stands apart from the registers of its port. -/
theorem relaying_hpEnter (s : State) (h : Fin 16) {st : Nat} (hst : st < 16) : relaying (hpEnter s h st) h = relaying s h := by
  have henters := hpEnter_enters s h st hst
  have hup : (hpEnter s h st).up = s.up := (congrArg State.up henters.only :)
  have hcomp : compState (hpEnter s h st) (0x10 + h.val) = compState s (0x10 + h.val) :=
    henters.other _ _ (by decide) (by simp [stateFlds, enterFlds, portReg, Reg.UPD_COMP]; omega)
  unfold relaying
  rw [hup]
  refine congrArg (Option.filter · s.up.current) (funext fun u => ?_)
  by_cases hu : u.comp = 0x10 + h.val
  · rw [hu, hcomp]
  · rw [beq_false_of_ne hu, Bool.false_and, Bool.false_and]

theorem execHpReleased_done {s : State} {h : Fin 16} (hst : hpState s h = 8) (hoff : (s.head h).streamOff = true)
    (hcc : (s.head h).cc = none) (hphase : ∀ u, relaying s h = some u → u.phase ≠ 2) :
    execHpReleased h s = .next (hpEnter s h 9) := by
  unfold execHpReleased
  simp only [if_pos (show hpState s h = 8 ∧ (s.head h).streamOff = true ∧ (s.head h).cc = none from ⟨hst, hoff, hcc⟩),
    relaying_hpEnter s h (by decide : 9 < 16)]
  split
  · rename_i u hu
    rw [if_neg (hphase u hu)]
  · rfl

/-! ## Attach, enable and disable -/

theorem execHpAttach_powers {s : State} {h : Fin 16} (hpads : h.val ∈ s.pads)
    (hst : hpState s h = 1 ∧ s.fld (Reg.HP_STAT h) F.HP_STAT_PRESENT = 1 ∨ 9 ≤ hpState s h ∧ hpState s h ≤ 11) :
    execHpAttach h s = .next ((hpPower s h).setFld (Reg.HP_CTL h) F.HP_CTL_ATTACH 1) := by
  have hallowed : (hpState s h = 1 ∧ s.flag (Reg.HP_STAT h) F.HP_STAT_PRESENT = true) ∨ (9 ≤ hpState s h ∧ hpState s h ≤ 11) := by
    rwa [flag_iff_fld_eq_one _ _ rfl]
  exact congrArg Host.Outcome.next ((if_pos hallowed).trans (if_pos (List.contains_iff_mem.mpr hpads)))

/-- A port that is enabled finds itself without a head (R161). -/
def enabling (s : State) (h : Fin 16) : State := hpEnter (s.setFld (Reg.HP_CTL h) F.HP_CTL_ENABLE 1) h 1

theorem execPortEnable_off {s : State} {h : Fin 16} (hpads : h.val ∈ s.pads) (hst : hpState s h = 0) : execPortEnable h s =
    .next (if (enabling s h).flag (Reg.HP_STAT h) F.HP_STAT_PRESENT = true ∧ (enabling s h).flag (Reg.HP_CTL h) F.HP_CTL_AUTO = true
      then hpPower (enabling s h) h else enabling s h) := by
  have hkeeps : PortKeeps h [(0, F.HP_CTL_ENABLE)] s (s.setFld (Reg.HP_CTL h) F.HP_CTL_ENABLE 1) :=
    (PortKeeps.refl _ _ s).setFld (o := 0) 1 (by decide)
  have hoff : ¬(hpState (s.setFld (Reg.HP_CTL h) F.HP_CTL_ENABLE 1) h ≠ 0 ∨
      (!padsReleased (s.setFld (Reg.HP_CTL h) F.HP_CTL_ENABLE 1) h) = true) := by
    rw [hkeeps.hpState, hst, padsReleased, State.setFld_pads, List.contains_iff_mem.mpr hpads]
    decide
  exact congrArg Host.Outcome.next (if_neg hoff)

/-- What a port that has been enabled shows before it looks for a head. -/
theorem enabling_shows (s : State) (h : Fin 16) : hpState (enabling s h) h = 1 ∧
    (enabling s h).fld (Reg.HP_CTL h) F.HP_CTL_ENABLE = 1 ∧
    PortKeeps h ((0, F.HP_CTL_ENABLE) :: stateFlds) s (enabling s h) ∧
    enabling s h = { s with regs := (enabling s h).regs, heads := (enabling s h).heads } := by
  have hkeeps : PortKeeps h ((0, F.HP_CTL_ENABLE) :: stateFlds) s (s.setFld (Reg.HP_CTL h) F.HP_CTL_ENABLE 1) :=
    (PortKeeps.refl _ _ s).setFld (o := 0) 1 (by decide)
  have henable : (s.setFld (Reg.HP_CTL h) F.HP_CTL_ENABLE 1).fld (Reg.HP_CTL h) F.HP_CTL_ENABLE = 1 :=
    setFld_fld_fits _ _ _ _ (by decide) (by decide)
  have honly : RegsOnly s (s.setFld (Reg.HP_CTL h) F.HP_CTL_ENABLE 1) := ⟨_, rfl⟩
  unfold enabling
  generalize s.setFld (Reg.HP_CTL h) F.HP_CTL_ENABLE 1 = t at *
  have henters := hpEnter_enters t h 1 (by decide)
  refine ⟨henters.state, (henters.keeps.fld 0 F.HP_CTL_ENABLE).trans henable,
    hkeeps.trans (henters.keeps.mono fun _ => List.mem_cons_of_mem _), ?_⟩
  obtain ⟨_, rfl⟩ := honly
  exact henters.only

theorem execPortDisable_absent {s : State} {h : Fin 16} (hst : hpState s h = 1) :
    execPortDisable h s = .next (hpEnter (s.setFld (Reg.HP_CTL h) F.HP_CTL_ENABLE 0) h 0) := by
  have hkeeps : PortKeeps h [(0, F.HP_CTL_ENABLE)] s (s.setFld (Reg.HP_CTL h) F.HP_CTL_ENABLE 0) :=
    (PortKeeps.refl _ _ s).setFld (o := 0) 0 (by decide)
  have hone := hkeeps.hpState.trans hst
  exact congrArg Host.Outcome.next ((if_neg (by omega)).trans (if_pos hone))

theorem execPortDisable_up {s : State} {h : Fin 16} (hst : 1 < hpState s h) :
    execPortDisable h s = .next (dropHead (s.setFld (Reg.HP_CTL h) F.HP_CTL_ENABLE 0) h 0 12) := by
  have hkeeps : PortKeeps h [(0, F.HP_CTL_ENABLE)] s (s.setFld (Reg.HP_CTL h) F.HP_CTL_ENABLE 0) :=
    (PortKeeps.refl _ _ s).setFld (o := 0) 0 (by decide)
  have hup := hkeeps.hpState
  exact congrArg Host.Outcome.next ((if_neg (by omega)).trans (if_neg (by omega)))

end Sys2Proof.Machine

namespace Sys2Proof

open Machine

/-- Settles O18: each hot-plug command is an entry of a state of R161, a failure, or a head that is dropped, and the frames
of the three settle what it shows. -/
theorem hotPlugCommandsComplete : Obligations.HotPlugCommandsComplete := by
  unfold Obligations.HotPlugCommandsComplete
  refine ⟨?insertion, ?removal, ?faultLow, ?faultHigh, ?powerWait, ?descriptor, ?verified, ?retrainRelease, ?releaseTimeout,
    ?released, ?attach, ?enable, ?disable⟩
  case insertion =>
    intro h s hpresent
    refine ⟨_, execHeadInsertion_absent hpresent, ?_⟩
    obtain ⟨hraised, hseen, hkeeps, hpads⟩ := seeHead_shows s h
    have hstate : hpState (seeHead s h) h = hpState s h := hkeeps.hpState
    have hauto : (seeHead s h).flag (Reg.HP_CTL h) F.HP_CTL_AUTO = true ↔ s.fld (Reg.HP_CTL h) F.HP_CTL_AUTO = 1 := by
      rw [flag_iff_fld_eq_one _ _ rfl]
      exact iff_of_eq (congrArg (· = 1) (hkeeps.fld 0 F.HP_CTL_AUTO))
    generalize seeHead s h = t at *
    by_cases hup : hpState s h = 1 ∧ s.fld (Reg.HP_CTL h) F.HP_CTL_AUTO = 1
    · obtain ⟨hone, hset⟩ := hup
      obtain ⟨hpower, hraises, hpowered, -⟩ := hpPower_leaves t h
      rw [if_pos ⟨hstate.trans hone, hauto.mpr hset⟩]
      refine ⟨(hpower.fld 4 F.HP_STAT_PRESENT).trans hseen, hraised.congr rfl hraises, hpowered.trans ?_⟩
      rw [hpads, hstate]
      exact if_congr ⟨fun hin => ⟨hone, hset, hin⟩, fun hall => hall.2.2⟩ rfl rfl
    · rw [if_neg (by rwa [hstate, hauto])]
      exact ⟨hseen, hraised, hstate.trans (if_neg fun hall => hup ⟨hall.1, hall.2.1⟩).symm⟩
  case removal =>
    intro h s hpresent hst
    refine ⟨_, execHeadRemoval_present hpresent hst, ?_⟩
    have hgone : ((s.setHead h { s.head h with known := false }).setFld (Reg.HP_STAT h) F.HP_STAT_PRESENT 0).fld (Reg.HP_STAT h)
      F.HP_STAT_PRESENT = 0 := setFld_fld_fits _ _ _ _ (by decide) (by decide)
    have hraises : ((s.setHead h { s.head h with known := false }).setFld (Reg.HP_STAT h) F.HP_STAT_PRESENT 0).raises =
      s.raises := rfl
    generalize (s.setHead h { s.head h with known := false }).setFld (Reg.HP_STAT h) F.HP_STAT_PRESENT 0 = t at *
    have hdropped := dropHead_dropped t h (st := 1) (cause := 12) (by decide) (by decide)
    obtain ⟨l, hl⟩ := hdropped.raised
    exact ⟨hdropped.present.trans hgone, hdropped.state, hdropped.hpen, hdropped.shown, hdropped.triggers, hdropped.packet,
      hdropped.cc (by decide), hdropped.htrg (by decide), l, hl.congr hraises.symm rfl⟩
  case faultLow =>
    intro h s hpresent hfault
    refine ⟨_, execHeadFault_low hpresent hfault, ?_⟩
    obtain ⟨hraised, hset, hcause, hkeeps⟩ := tellFault_tells s h
    have hstate : hpState (tellFault s h) h = hpState s h := hkeeps.hpState
    have hoff : (tellFault s h).flag (Reg.HP_CTL h) F.HP_CTL_FLT_OFF = true ↔ s.fld (Reg.HP_CTL h) F.HP_CTL_FLT_OFF = 1 := by
      rw [flag_iff_fld_eq_one _ _ rfl]
      exact iff_of_eq (congrArg (· = 1) (hkeeps.fld 0 F.HP_CTL_FLT_OFF))
    generalize tellFault s h = t at *
    by_cases hdrop : s.fld (Reg.HP_CTL h) F.HP_CTL_FLT_OFF = 1 ∧ 1 < hpState s h
    · rw [if_pos (by rwa [hoff, hstate]), if_pos hdrop]
      have hdropped := dropHead_dropped t h (st := 11) (cause := 13) (by decide) (by decide)
      obtain ⟨l, hl⟩ := hdropped.raised
      exact ⟨hdropped.fault.trans hset, hdropped.shown, ⟨_, hraised.trans hl⟩, hdropped.state⟩
    · rw [if_neg (by rwa [hoff, hstate]), if_neg hdrop]
      exact ⟨hset, hcause, ⟨[], hraised⟩, hstate⟩
  case faultHigh => exact fun h s => execHeadFault_high s h
  case powerWait =>
    intro h s hst hwaited
    refine ⟨_, execPowerWaitEnd_due hst (hpWaited_iff.mpr hwaited), fun hhigh => ?_, fun hlow => ?_⟩
    · have henters := hpEnter_enters s h 3 (by decide)
      rw [if_neg (by simp [State.flag, hhigh])]
      exact ⟨henters.state, (congrArg State.raises henters.only :)⟩
    · have hfails := hpFail_fails s h (st := 11) (cause := 1) (by decide) (by decide)
      rw [if_pos ((flag_iff_fld_eq_one _ _ rfl).mpr hlow)]
      exact ⟨hfails.state, hfails.shown, hfails.hpen, hfails.raised⟩
  case descriptor =>
    intro h bytes good s hst
    refine ⟨_, execDescriptorReadDone_reading hst bytes good, fun hgood => ?_, fun hbad => ?_⟩
    · rw [if_pos hgood]
      obtain ⟨hstored, hbytes⟩ := storeDescriptor_stores s h bytes
      have henters := hpEnter_enters (storeDescriptor s h bytes) h 4 (by decide)
      have hmem : (hpEnter (storeDescriptor s h bytes) h 4).mem = (storeDescriptor s h bytes).mem :=
        (congrArg State.mem henters.only :)
      exact ⟨henters.state, by rw [State.readBytes, hmem]; exact hstored, hbytes.trans (.of_eq hmem)⟩
    · have hfails := hpFail_fails s h (st := 11) (cause := 2) (by decide) (by decide)
      rw [if_neg (by simp [hbad])]
      exact ⟨hfails.state, hfails.shown, hfails.mem⟩
  case verified =>
    intro h s hst
    refine ⟨_, execDescriptorVerified_verifying hst, ?_⟩
    by_cases haccepted : descriptorCause s h = 0
    · have htrains := hpTrain_trains (s.setHead h ((s.head h).accept s h)) h
      obtain ⟨down, hhead⟩ := htrains.head
      rw [State.setHead_head_self] at hhead
      rw [if_neg (not_not.mpr haccepted)]
      refine ⟨htrains.mem, fun _ => ⟨htrains.training, ?_, ?_⟩, fun hrejected => absurd haccepted hrejected⟩
      · rw [hhead, HeadPort.toTrain_pixels, HeadPort.entering_pixels]
        exact Nat.mod_eq_of_lt (readLE_lt s (Win.desc h + 60) 2)
      · rw [hhead, HeadPort.toTrain_bits, HeadPort.entering_bits]
        exact Nat.mod_eq_of_lt (readLE_lt s (Win.desc h + 62) 1)
    · have hcause := descriptorCause_le s h
      have hfails := hpFail_fails s h (st := 10) (cause := descriptorCause s h) (by decide) (by omega)
      rw [if_pos haccepted]
      exact ⟨hfails.mem, fun hzero => absurd hzero haccepted, fun _ => ⟨hfails.state, hfails.shown, hfails.raised⟩⟩
  case retrainRelease =>
    intro h s hst
    refine ⟨⟨_, execHpRetrain_active hst, ?_⟩, _, execHpRelease_active hst, ?_⟩
    · have hstop := stopLink_stopped s h 6
      have htrain := hpTrain_trains (stopLink s h 6) h
      obtain ⟨down, hhead⟩ := htrain.head
      have hkeeps : PortKeeps h [(0, F.HP_CTL_RETRAIN)] (hpTrain (stopLink s h 6) h)
          ((hpTrain (stopLink s h 6) h).setFld (Reg.HP_CTL h) F.HP_CTL_RETRAIN 1) :=
        (PortKeeps.refl _ _ _).setFld (o := 0) 1 (by decide)
      refine ⟨hkeeps.hpState.trans htrain.state, ?_, ?_⟩
      · rw [State.setFld_head, hhead, HeadPort.toTrain_triggers, HeadPort.entering_triggers, hstop.triggers]
      · rw [State.setFld_head, hhead, HeadPort.toTrain_packet, HeadPort.entering_packet, hstop.packet]
    · obtain ⟨hstate, hhead, hraises, hnow⟩ := releasing_shows s h
      generalize releasing s h = t at *
      have hspeaks := checkRelease_speaks t h
      refine ⟨(hspeaks.hpState h).trans hstate, ?_, ?_, hspeaks.raises.trans hraises, fun htriggers hpacket hcc hoff => ?_⟩
      · rw [hspeaks.part (·.triggers), hhead]
      · rw [hspeaks.part (·.packet), hhead]
      · have hidle := checkRelease_idle (s := t) (h := h) hstate (by rw [hhead]; exact htriggers) (by rw [hhead]; exact hpacket)
          (by rw [hhead]; exact hcc) (by rw [hhead]; exact hoff)
        rw [hhead, hnow] at hidle
        exact hidle
  case releaseTimeout =>
    intro h s hst hwaited
    refine ⟨_, execReleaseTimeout_due hst (hpWaited_iff.mpr hwaited), ?_⟩
    have hlost := loseTriggers_lost s h (unstarted s h)
    obtain ⟨hnone, hsubset, hkeeps, -⟩ := damagePacket_ends (loseTriggers s h (unstarted s h)) h 2
    have hspeaks := checkRelease_speaks (damagePacket (loseTriggers s h (unstarted s h)) h 2) h
    refine ⟨(hspeaks.hpState h).trans (hkeeps.hpState.trans (hlost.keeps.hpState.trans hst)),
      (hspeaks.part (·.packet)).trans hnone, fun x hx => ?_⟩
    rw [hspeaks.part (·.triggers)] at hx
    have hleft := hsubset x hx
    rw [hlost.head] at hleft
    simpa using not_of_mem_diff_filter hleft
  case released =>
    intro h s hst hoff hcc hphase
    have henters := hpEnter_enters s h 9 (by decide)
    exact ⟨_, execHpReleased_done hst hoff hcc hphase, henters.state, henters.hpen, hpEnter_release s h (by decide), henters.only⟩
  case attach =>
    intro h s hpads hst
    refine ⟨_, execHpAttach_powers hpads hst, ?_⟩
    have henters := hpPower_enters hpads
    have honly := (hpPower_leaves s h).2.2.2
    have hkeeps : PortKeeps h [(0, F.HP_CTL_ATTACH)] (hpPower s h) ((hpPower s h).setFld (Reg.HP_CTL h) F.HP_CTL_ATTACH 1) :=
      (PortKeeps.refl _ _ _).setFld (o := 0) 1 (by decide)
    refine ⟨hkeeps.hpState.trans henters.state, (hkeeps.fld 4 F.HP_STAT_HPEN).trans henters.hpen,
      setFld_fld_fits _ _ _ _ (by decide) (by decide), ?_⟩
    generalize hpPower s h = t at *
    rw [honly]
    rfl
  case enable =>
    intro h s hpads hst
    refine ⟨_, execPortEnable_off hpads hst, ?_⟩
    obtain ⟨hstate, henable, hkeeps, honly⟩ := enabling_shows s h
    have hseen : ((enabling s h).flag (Reg.HP_STAT h) F.HP_STAT_PRESENT = true ∧
        (enabling s h).flag (Reg.HP_CTL h) F.HP_CTL_AUTO = true) ↔
        (s.fld (Reg.HP_STAT h) F.HP_STAT_PRESENT = 1 ∧ s.fld (Reg.HP_CTL h) F.HP_CTL_AUTO = 1) := by
      rw [flag_iff_fld_eq_one _ _ rfl, flag_iff_fld_eq_one _ _ rfl]
      exact and_congr (iff_of_eq (congrArg (· = 1) (hkeeps.fld 4 F.HP_STAT_PRESENT)))
        (iff_of_eq (congrArg (· = 1) (hkeeps.fld 0 F.HP_CTL_AUTO)))
    have hin : h.val ∈ (enabling s h).pads := (congrArg State.pads honly :) ▸ hpads
    generalize enabling s h = t at *
    by_cases hup : s.fld (Reg.HP_STAT h) F.HP_STAT_PRESENT = 1 ∧ s.fld (Reg.HP_CTL h) F.HP_CTL_AUTO = 1
    · rw [if_pos (hseen.mpr hup), if_pos hup]
      obtain ⟨hpower, -, hpowered, hregs⟩ := hpPower_leaves t h
      rw [if_pos hin] at hpowered
      refine ⟨(hpower.fld 0 F.HP_CTL_ENABLE).trans henable, hpowered, ?_⟩
      generalize hpPower t h = u at *
      rw [hregs, honly]
    · rw [if_neg (mt hseen.mp hup), if_neg hup]
      exact ⟨henable, hstate, honly⟩
  case disable =>
    intro h s hst
    have hkeeps : PortKeeps h [(0, F.HP_CTL_ENABLE)] s (s.setFld (Reg.HP_CTL h) F.HP_CTL_ENABLE 0) :=
      (PortKeeps.refl _ _ s).setFld (o := 0) 0 (by decide)
    have henable : (s.setFld (Reg.HP_CTL h) F.HP_CTL_ENABLE 0).fld (Reg.HP_CTL h) F.HP_CTL_ENABLE = 0 :=
      setFld_fld_fits _ _ _ _ (by decide) (by decide)
    obtain hone | hup : hpState s h = 1 ∨ 1 < hpState s h := by omega
    · have henters := hpEnter_enters (s.setFld (Reg.HP_CTL h) F.HP_CTL_ENABLE 0) h 0 (by decide)
      exact ⟨_, execPortDisable_absent hone, henters.state, (henters.keeps.fld 0 F.HP_CTL_ENABLE).trans henable, henters.hpen,
        (henters.keeps.fld 4 F.HP_STAT_PRESENT).trans (hkeeps.fld 4 F.HP_STAT_PRESENT)⟩
    · have hdropped := dropHead_dropped (s.setFld (Reg.HP_CTL h) F.HP_CTL_ENABLE 0) h (st := 0) (cause := 12) (by decide) (by decide)
      exact ⟨_, execPortDisable_up hup, hdropped.state, hdropped.enable.trans henable, hdropped.hpen,
        hdropped.present.trans (hkeeps.fld 4 F.HP_STAT_PRESENT)⟩

end Sys2Proof
end
